-- ==== Sys2Proof/Word.lean ====
section
/-! DEFINITION. The word types of the Glaok N9 and their plainest arithmetic (R1, R55). -/
namespace Sys2Proof

/-- One byte (R1). -/
abbrev Byte := BitVec 8
/-- A 32-bit register or word (R55). -/
abbrev W32 := BitVec 32
/-- A 64-bit register pair, s register or address (R55). -/
abbrev W64 := BitVec 64

/-- trunc(x, n) of R3: the low n bits of an exact integer. -/
abbrev truncInt (n : Nat) (x : Int) : BitVec n := BitVec.ofInt n x

/-- sat(x, lo, hi) of R3. -/
def satInt (x lo hi : Int) : Int := if x < lo then lo else if hi < x then hi else x

end Sys2Proof
end

