-- ==== Sys2Proof/Syntax.lean ====
section
/-! DEFINITION. The steps of the N9: one constructor of `Instr` per row of spec/opcode_table.json.
Rows 0 to 213 are Nimia words (05_encoding.md), rows 214 to 218 the Mellyn extension words of the
general cores (R334, R394); the other rows are Rowan calls and events, whose arguments are what the
world, or the choice of which enabled step happens next, supplies. -/
namespace Sys2Proof

/-! ### Operands (R83, R86, R90, R132) -/

abbrev WReg := BitVec 8
/-- An even-odd pair: the pair of index p is w(2p), w(2p+1) (R83, R88). -/
abbrev WPair := BitVec 7
/-- Four registers from w(4q) (R257). -/
abbrev WQuad := BitVec 6
/-- Eight registers from w(8o) (R315). -/
abbrev WOct := BitVec 5
abbrev SReg := BitVec 6
abbrev PReg := Fin 7

/-- The guard of a full-form word (R91): always, or p(n) (negated by GN). -/
inductive Guard where
  | always
  | pred (p : PReg) (neg : Bool)
deriving DecidableEq, Repr, Inhabited

/-- The selects of R90. -/
inductive Sel where
  | none | h0 | h1 | hs | hb0 | hb1 | rot | neg
deriving DecidableEq, Repr, Inhabited

/-- An operand field read at 32 bits (R86). `ident k` is the identity code 320 + k (R87); `imm k` is
the inline constant k − 64 (field value 384 + k). -/
inductive Operand where
  | w (r : WReg)
  | s (r : SReg)
  | ident (k : Fin 20)
  | imm (k : BitVec 7)
deriving DecidableEq, Repr, Inhabited

/-- An operand field read at 64 bits (R88): a w operand is an even-odd pair. -/
inductive Operand64 where
  | w (p : WPair)
  | s (r : SReg)
  | ident (k : Fin 20)
  | imm (k : BitVec 7)
deriving DecidableEq, Repr, Inhabited

/-- A warp-uniform operand (R147, R184, R300, R315, R355): no w register. -/
inductive UOperand where
  | s (r : SReg)
  | ident (k : Fin 20)
  | imm (k : BitVec 7)
deriving DecidableEq, Repr, Inhabited

/-- A 32-bit source with its select. -/
structure Src where
  op : Operand
  sel : Sel
deriving DecidableEq, Repr, Inhabited

/-- An operand field that takes no select (R122). -/
abbrev Operand.src (o : Operand) : Src := ⟨o, .none⟩

/-- A 64-bit source: only the selects none and `.neg` (R90). -/
structure Src64 where
  op : Operand64
  neg : Bool
deriving DecidableEq, Repr, Inhabited

/-- A uniform source read at 32 bits. -/
structure USrc where
  op : UOperand
  sel : Sel
deriving DecidableEq, Repr, Inhabited

/-- A uniform source read at 64 bits. -/
structure USrc64 where
  op : UOperand
  neg : Bool
deriving DecidableEq, Repr, Inhabited

/-- A predicate operand (R132): p 7 is the constant 1. -/
structure POp where
  p : BitVec 3
  neg : Bool
deriving DecidableEq, Repr, Inhabited

/-- Lookahead and guard of a full-form word that is not in the ordering class (R82, R94). -/
structure Hdr where
  la : BitVec 4
  guard : Guard
deriving DecidableEq, Repr, Inhabited

/-- The guard of a long-immediate word: none means always (R100). -/
abbrev LGuard := Option PReg

/-! ### Modifiers (R84, R131) -/

inductive ITy where | s | z
deriving DecidableEq, Repr, Inhabited

inductive Cond where
  | eq | ne | ltS | leS | gtS | geS | ltZ | leZ | gtZ | geZ
deriving DecidableEq, Repr, Inhabited

inductive FCond where
  | eq | ne | lt | le | gt | ge | un | ord
deriving DecidableEq, Repr, Inhabited

inductive Rm where | rne | rz | rd | ru
deriving DecidableEq, Repr, Inhabited

/-- The format codes of R61. -/
inductive Fmt where
  | f32 | f16 | bf16 | e4m3 | e5m2 | n4x | s8 | z8 | s4 | s16 | s32
deriving DecidableEq, Repr, Inhabited

inductive Scope where | team | grove | pkg | sys
deriving DecidableEq, Repr, Inhabited

/-- The two widths of `icmp` (R138) and `match` (R189). -/
inductive IcmpOps where
  | w32 (a b : Src)
  | w64 (a b : Src64)
deriving DecidableEq, Repr, Inhabited

inductive UnpkKind where
  | f32f16 | f32bf16 | f16e4m3 | bf16e4m3 | f16e5m2 | bf16e5m2 | s16s8 | z16z8 | s8s4
deriving DecidableEq, Repr, Inhabited

inductive ShflMode where | pick | rot | mirror
deriving DecidableEq, Repr, Inhabited

inductive ShflForm where
  | lanes (m : ShflMode) (d : WReg) (a b : Src)
  | pickU (d : SReg) (a : Src) (b : USrc)
deriving DecidableEq, Repr, Inhabited

inductive VoteForm where
  | atl (b : USrc)
  | atm (b : USrc)
  | unan
deriving DecidableEq, Repr, Inhabited

inductive BallotForm where
  | mask (d : WReg) (b : Src)
  | rank (d : WReg) (b : Src)
  | cnt (d : WReg) (b : Src)
  | maskU (d : SReg) (b : USrc)
  | cntU (d : SReg) (b : USrc)
deriving DecidableEq, Repr, Inhabited

inductive ReduxOp where
  | add | minS | maxS | minZ | maxZ | and | or | xor | fadd | fmin | fmax
deriving DecidableEq, Repr, Inhabited

inductive ReduxDst where
  | w (d : WReg)
  | s (d : SReg)
deriving DecidableEq, Repr, Inhabited

inductive MatchMode where | lead | cnt | rank
deriving DecidableEq, Repr, Inhabited

inductive MatchSrc where
  | w32 (a : Src)
  | w64 (a : Src64)
deriving DecidableEq, Repr, Inhabited

inductive LdW where | z8 | s8 | z16 | s16 | w32 | w64 | w128
deriving DecidableEq, Repr, Inhabited

inductive StW where | b8 | b16 | b32 | b64 | b128
deriving DecidableEq, Repr, Inhabited

inductive BufW where | w32 | w64 | w128
deriving DecidableEq, Repr, Inhabited

inductive AtomOp where
  | add | fadd | minS | maxS | minZ | maxZ | and | or | xor | xchg | cas
deriving DecidableEq, Repr, Inhabited

inductive AtomOrd where | ar | acq | rel | rlx
deriving DecidableEq, Repr, Inhabited

/-- The value operand of an atomic: 32 bits, or 64 with `.64` (R268). -/
inductive AtomVal where
  | v32 (b : Src)
  | v64 (b : Src64)
deriving DecidableEq, Repr, Inhabited

inductive FenceKind where | sc | acq | rel
deriving DecidableEq, Repr, Inhabited

inductive CpyW where | b4 | b8 | b16
deriving DecidableEq, Repr, Inhabited

/-- The special registers of R115. -/
inductive SpecialReg where
  | flags | arms | amax | tvec | tcause | tepc | tva | tskid
  | tsnap (i : Fin 4) | lc (i : Fin 3) | clock | budget
deriving DecidableEq, Repr, Inhabited

/-- The operand of `mts`, read at the register's width (R208). -/
inductive MtsSrc where
  | v32 (a : Src)
  | v64 (a : Src64)
deriving DecidableEq, Repr, Inhabited

/-! ### Pair halves (R96, R97) -/

inductive PairGuard where | always | p0 | p1 | notP0
deriving DecidableEq, Repr, Inhabited

/-- Register kind: d ← d op sel(a). -/
structure RegArgs where
  g : PairGuard
  d : WReg
  a : Operand
  sel : Sel
deriving DecidableEq, Repr, Inhabited

/-- Immediate kind: d ← a op IMM5. -/
structure ImmArgs where
  g : PairGuard
  d : WReg
  a : Operand
  imm : BitVec 5
deriving DecidableEq, Repr, Inhabited

inductive PairRegOp where
  | add | sub | mul | and | or | xor | andn | minS | maxS | minZ | maxZ | mov | add2 | sub2 | add4
  | fadd | fsub | fmul | fmin | fmax | hadd2 | hmul2 | badd2 | bmul2
deriving DecidableEq, Repr, Inhabited

inductive PairImmOp where | shl | shr | sra | rot | add | sub
deriving DecidableEq, Repr, Inhabited

/-- One half of a pair word (R96). -/
inductive PairHalf where
  | reg (op : PairRegOp) (x : RegArgs)
  | imm (op : PairImmOp) (x : ImmArgs)
deriving DecidableEq, Repr, Inhabited

/-! ### Arguments of events -/

/-- What an access from outside reaches: the aperture of a VF (R370); the registers of a function's BAR0 (R2, R18); or a CXL tier
range, past the port, by the host or a peer (R245). -/
inductive HostSpace where
  | aperture | bar0 | cxl
deriving DecidableEq, Repr, Inhabited

/-- How an access of the host reaches the package (R370). `stream` is the IDE stream it travels on, `ideOk`
whether its IDE check passes (R20). -/
structure HostAccess where
  fn : Nat
  stream : Option Nat
  ideOk : Bool
  addr : Nat
  len : Nat
  data : Option (List Byte)
  space : HostSpace := .aperture
deriving DecidableEq, Repr, Inhabited

/-- The TDISP requests that move a TDI between the states of R19 (LOCK_INTERFACE_REQUEST has a row of its own). -/
inductive TdispReq where
  | start | stop | getState
deriving DecidableEq, Repr, Inhabited

/-- Where an SPDM request comes from (R408): DOE on PF0, with the session it travels in and the tag that its sealed form carries there,
or in-band. -/
inductive SpdmVia where
  | doe (session : Option (Nat × List Byte))
  | inband
deriving DecidableEq, Repr, Inhabited

/-- Who asks a coherence home (R379, R380): a core, or the I/O die's home agent. -/
inductive Requester where
  | core (c : Nat)
  | ioHome
deriving DecidableEq, Repr, Inhabited

/-- The agents a shootdown waits for (R373). -/
inductive ShootAgent where
  | core (c : Nat)
  | copyUnit (c : Nat)
  | heather (st : Nat)
  | hart (h : Nat)
deriving DecidableEq, Repr, Inhabited

/-- A place Hazel chooses for a grove (R35): meadow and origin. -/
structure Place where
  meadow : Nat
  x0 : Nat
  y0 : Nat
deriving DecidableEq, Repr, Inhabited

/-- A flit received on a pod link (R21). `macOk` is meaningful on the flit that completes a group of 16. -/
structure PodFlit where
  crcOk : Bool
  macOk : Bool
  stream : Nat
  endsGroup : Bool
  poisoned : Bool
  fromPod : BitVec 16
deriving DecidableEq, Repr, Inhabited

/-- The steps of the part: one constructor per row of the opcode table, in its order. -/
inductive Instr where
  -- class 0x0 (R133)
  | add (h : Hdr) (sat : Option ITy) (d : WReg) (a b : Src)
  | sub (h : Hdr) (sat : Option ITy) (d : WReg) (a b : Src)
  | mul (h : Hdr) (d : WReg) (a b : Src)
  | mulhi (h : Hdr) (t : ITy) (d : WReg) (a b : Src)
  | mad (h : Hdr) (d : WReg) (a b c : Src)
  | div (h : Hdr) (t : ITy) (d : WReg) (a b : Src)
  | rem (h : Hdr) (t : ITy) (d : WReg) (a b : Src)
  | abs (h : Hdr) (sat : Bool) (d : WReg) (a : Src)
  | min (h : Hdr) (t : ITy) (d : WReg) (a b : Src)
  | max (h : Hdr) (t : ITy) (d : WReg) (a b : Src)
  | mov (h : Hdr) (d : WReg) (a : Src)
  | movi (g : LGuard) (d : WReg) (imm : BitVec 32)
  | sel (h : Hdr) (d : WReg) (a b : Src) (q : POp)
  | icmp (h : Hdr) (c : Cond) (p : PReg) (ops : IcmpOps)
  | pand (h : Hdr) (p : PReg) (a b : POp)
  | por (h : Hdr) (p : PReg) (a b : POp)
  | pxor (h : Hdr) (p : PReg) (a b : POp)
  | pnot (h : Hdr) (p : PReg) (a : POp)
  -- class 0x1 (R140 to R144)
  | and (h : Hdr) (d : WReg) (a b : Src)
  | or (h : Hdr) (d : WReg) (a b : Src)
  | xor (h : Hdr) (d : WReg) (a b : Src)
  | andn (h : Hdr) (d : WReg) (a b : Src)
  | shl (h : Hdr) (d : WReg) (a b : Src)
  | shr (h : Hdr) (d : WReg) (a b : Src)
  | sra (h : Hdr) (d : WReg) (a b : Src)
  | rot (h : Hdr) (d : WReg) (a b : Src)
  | popc (h : Hdr) (d : WReg) (a : Src)
  | clz (h : Hdr) (d : WReg) (a : Src)
  | ctz (h : Hdr) (d : WReg) (a : Src)
  | brev (h : Hdr) (d : WReg) (a : Src)
  | bfx (h : Hdr) (d : WReg) (a b c : Src)
  | bfi (h : Hdr) (d : WReg) (a b c : Src)
  | prmb (h : Hdr) (d : WReg) (a b c : Src)
  | add2 (h : Hdr) (sat : Option ITy) (d : WReg) (a b : Src)
  | sub2 (h : Hdr) (sat : Option ITy) (d : WReg) (a b : Src)
  | min2 (h : Hdr) (t : ITy) (d : WReg) (a b : Src)
  | max2 (h : Hdr) (t : ITy) (d : WReg) (a b : Src)
  | add4 (h : Hdr) (sat : Option ITy) (d : WReg) (a b : Src)
  | dot4 (h : Hdr) (ta tb : ITy) (d : WReg) (a b c : Src)
  | dot8 (h : Hdr) (d : WReg) (a b c : Src)
  | dot2 (h : Hdr) (ta tb : ITy) (d : WReg) (a b c : Src)
  -- class 0x2 (R145 to R149)
  | add64 (h : Hdr) (d : WPair) (a b : Src64)
  | sub64 (h : Hdr) (d : WPair) (a b : Src64)
  | lea64 (h : Hdr) (d : WPair) (a : Src64) (b c : Src)
  | sadd (h : Hdr) (d : SReg) (a b : USrc64)
  | ssub (h : Hdr) (d : SReg) (a b : USrc64)
  | smul (h : Hdr) (d : SReg) (a b : USrc64)
  | sshl (h : Hdr) (d : SReg) (a b : USrc64)
  | sshr (h : Hdr) (t : ITy) (d : SReg) (a b : USrc64)
  | sand (h : Hdr) (d : SReg) (a b : USrc64)
  | sor (h : Hdr) (d : SReg) (a b : USrc64)
  | smov (h : Hdr) (d : SReg) (a : USrc64)
  | smovi (g : LGuard) (d : SReg) (imm : BitVec 32)
  | scmp (h : Hdr) (c : Cond) (p : PReg) (a b : USrc64)
  | sld (h : Hdr) (d : SReg) (a b : USrc64)
  -- class 0x3 (R154 to R159)
  | fadd (h : Hdr) (rm : Rm) (d : WReg) (a b : Src)
  | fsub (h : Hdr) (rm : Rm) (d : WReg) (a b : Src)
  | fmul (h : Hdr) (rm : Rm) (d : WReg) (a b : Src)
  | ffma (h : Hdr) (rm : Rm) (d : WReg) (a b c : Src)
  | fmin (h : Hdr) (d : WReg) (a b : Src)
  | fmax (h : Hdr) (d : WReg) (a b : Src)
  | fabs (h : Hdr) (d : WReg) (a : Src)
  | fcmp (h : Hdr) (c : FCond) (p : PReg) (a b : Src)
  | fclass (h : Hdr) (p : PReg) (a b : Src)
  | frnd (h : Hdr) (rm : Rm) (d : WReg) (a : Src)
  -- class 0x4 (R160)
  | hadd2 (h : Hdr) (d : WReg) (a b : Src)
  | hmul2 (h : Hdr) (d : WReg) (a b : Src)
  | hfma2 (h : Hdr) (d : WReg) (a b c : Src)
  | badd2 (h : Hdr) (d : WReg) (a b : Src)
  | bmul2 (h : Hdr) (d : WReg) (a b : Src)
  | bfma2 (h : Hdr) (d : WReg) (a b c : Src)
  -- class 0x5 (R161 to R166); `b` of cvt is none exactly for a 32-bit target
  | cvt (h : Hdr) (t s : Fmt) (amax : Bool) (rm : Rm) (d : WReg) (a : Src) (b : Option Src)
  | unpk (h : Hdr) (k : UnpkKind) (d : WPair) (a : Src)
  | qblk (h : Hdr) (amax : Bool) (d : WReg) (a : Src)
  -- class 0x6 (R167)
  | rcpSeed (h : Hdr) (d : WReg) (a : Src)
  | rsqSeed (h : Hdr) (d : WReg) (a : Src)
  | ex2 (h : Hdr) (d : WReg) (a : Src)
  | lg2 (h : Hdr) (d : WReg) (a : Src)
  | sin (h : Hdr) (d : WReg) (a : Src)
  | cos (h : Hdr) (d : WReg) (a : Src)
  -- class 0x7 (R170 to R182)
  | bra (g : Guard) (disp : BitVec 18)
  | jmp (g : Guard) (a : Src64)
  | jmpLink (g : Guard) (d : WPair) (a : Src64)
  | call (g : Guard) (d : WPair) (disp : BitVec 18)
  | ret (g : Guard) (a : Src64)
  | loop (g : Guard) (a : Src) (disp : BitVec 18)
  | lbrk (g : Guard)
  | exit (g : Guard)
  | yield (g : Guard)
  | nap (g : Guard) (d : WReg) (a : Src64) (b : Src)
  | nop (g : Guard)
  -- class 0x8 (R183 to R189)
  | shfl (h : Hdr) (f : ShflForm)
  | vote (h : Hdr) (f : VoteForm) (p : PReg) (q : POp)
  | ballot (h : Hdr) (f : BallotForm) (q : POp)
  | redux (h : Hdr) (op : ReduxOp) (d : ReduxDst) (a : Src)
  | scan (h : Hdr) (op : ReduxOp) (excl : Bool) (d : WReg) (a : Src)
  | matchLanes (h : Hdr) (m : MatchMode) (d : WReg) (a : MatchSrc)
  -- class 0x9 (R257 to R267)
  | ld (h : Hdr) (w : LdW) (rlx : Bool) (d : WReg) (base : Src64) (idx : Src) (off : BitVec 7)
  | st (h : Hdr) (w : StW) (rlx : Bool) (d : WReg) (base : Src64) (idx : Src) (off : BitVec 7)
  | ldsp (h : Hdr) (w : LdW) (rlx : Bool) (d : WReg) (base : Src) (idx : Src) (off : BitVec 7)
  | stsp (h : Hdr) (w : StW) (rlx : Bool) (d : WReg) (base : Src) (idx : Src) (off : BitVec 7)
  | ldf (h : Hdr) (take : Bool) (d : WQuad) (base : Src) (idx : Src) (off : BitVec 7)
  | stf (h : Hdr) (wait : Bool) (d : WQuad) (base : Src) (idx : Src) (off : BitVec 7)
  | lda (h : Hdr) (w : BufW) (d : WReg) (k : Fin 16) (idx : Src) (off : BitVec 7)
  | sta (h : Hdr) (w : BufW) (d : WReg) (k : Fin 16) (idx : Src) (off : BitVec 7)
  | ldc (h : Hdr) (col : Bool) (d : WQuad) (t : Fin 4) (idx : Src)
  | stc (h : Hdr) (col : Bool) (d : WQuad) (t : Fin 4) (idx : Src)
  | pf (h : Hdr) (x : Bool) (base : Src64) (idx : Src) (off : BitVec 7)
  -- class 0xA (R268 to R281)
  | atom (h : Hdr) (op : AtomOp) (ord : AtomOrd) (sc : Scope) (d : WReg) (a : Src64) (b : AtomVal)
  | atoms (h : Hdr) (op : AtomOp) (ord : AtomOrd) (sc : Scope) (d : WReg) (a : Src) (b : AtomVal)
  | red (h : Hdr) (op : AtomOp) (ord : AtomOrd) (sc : Scope) (a : Src64) (b : AtomVal)
  | fence (g : Guard) (k : FenceKind) (sc : Scope)
  | cleanR (h : Hdr) (a : Src64) (b : Src)
  | invalR (h : Hdr) (a : Src64) (b : Src)
  | flushR (h : Hdr) (a : Src64) (b : Src)
  | barArrive (g : Guard) (b : Fin 10)
  | barWait (g : Guard) (b : Fin 10)
  | barSync (g : Guard) (b : Fin 9)
  | barSwap (g : Guard)
  | mbarInit (h : Hdr) (a b : Src)
  | mbarArrive (h : Hdr) (d : WReg) (a b : Src)
  | mbarExpect (h : Hdr) (a b : Src)
  | mbarWait (g : Guard) (a b : Src)
  -- class 0xB (R300)
  | rsv (h : Hdr) (k : Fin 16) (a : USrc64) (b c : USrc)
  | unrsv (h : Hdr) (k : Fin 16)
  | zacc (h : Hdr) (t : Fin 4)
  | mma (h : Hdr) (t : Fin 4) (ka kb : Fin 16) (c : USrc)
  | acq (h : Hdr) (t : Fin 4)
  | rel (h : Hdr) (t : Fin 4)
  -- class 0xC (R315)
  | cpy (h : Hdr) (n : CpyW) (dst src : Src64)
  | cpyo (h : Hdr) (d : SReg)
  | cpyc (h : Hdr) (a : USrc)
  | patch (h : Hdr) (a b c : USrc)
  | go (h : Hdr) (a : USrc)
  | rinit (h : Hdr) (n : Fin 16) (a b : USrc)
  | await (g : Guard) (d : SReg) (n : Fin 16)
  | rels (h : Hdr) (n : Fin 16) (a : USrc)
  | deq (g : Guard) (d : WOct) (a : Src64)
  | enq (h : Hdr) (a : Src64) (d : WOct)
  -- class 0xD (R207, R355, R122)
  | qsub (h : Hdr) (d : SReg) (a b : USrc)
  | qcancel (h : Hdr) (a : USrc)
  | svc (g : Guard) (d : WReg) (a : Src64) (b : Src)
  | rcall (g : Guard) (d : WReg) (a : Src64) (b : Src)
  | fqack (g : Guard) (d : WReg) (a : Src64) (b : Src)
  -- rgrow and rshrink have no select (R122)
  | rgrow (g : Guard) (a : Operand)
  | rshrink (g : Guard) (a : Operand)
  -- class 0xE (R207); a 64-bit register is read into a pair
  | mfs (g : Guard) (d : WReg) (r : SpecialReg)
  | mts (g : Guard) (r : SpecialReg) (a : MtsSrc)
  | trap (g : Guard) (a : Src)
  | rett (g : Guard)
  | tkill (g : Guard)
  | ebrk (g : Guard)
  | fencex (g : Guard)
  -- long-immediate words (R100, R101)
  | addLongImmediate (g : LGuard) (d : WReg) (a : Operand) (imm : BitVec 32)
  | subLongImmediate (g : LGuard) (d : WReg) (a : Operand) (imm : BitVec 32)
  | mulLongImmediate (g : LGuard) (d : WReg) (a : Operand) (imm : BitVec 32)
  | minLongImmediate (g : LGuard) (d : WReg) (a : Operand) (imm : BitVec 32)
  | maxLongImmediate (g : LGuard) (d : WReg) (a : Operand) (imm : BitVec 32)
  | andLongImmediate (g : LGuard) (d : WReg) (a : Operand) (imm : BitVec 32)
  | orLongImmediate (g : LGuard) (d : WReg) (a : Operand) (imm : BitVec 32)
  | xorLongImmediate (g : LGuard) (d : WReg) (a : Operand) (imm : BitVec 32)
  | andnLongImmediate (g : LGuard) (d : WReg) (a : Operand) (imm : BitVec 32)
  | add64LongImmediate (g : LGuard) (d : WPair) (a : Operand64) (imm : BitVec 32)
  | sub64LongImmediate (g : LGuard) (d : WPair) (a : Operand64) (imm : BitVec 32)
  | lea64LongImmediate (g : LGuard) (d : WPair) (a : Operand64) (imm : BitVec 32)
  | saddLongImmediate (g : LGuard) (d : SReg) (a : UOperand) (imm : BitVec 32)
  | ssubLongImmediate (g : LGuard) (d : SReg) (a : UOperand) (imm : BitVec 32)
  | smulLongImmediate (g : LGuard) (d : SReg) (a : UOperand) (imm : BitVec 32)
  | sandLongImmediate (g : LGuard) (d : SReg) (a : UOperand) (imm : BitVec 32)
  | sorLongImmediate (g : LGuard) (d : SReg) (a : UOperand) (imm : BitVec 32)
  | faddLongImmediate (g : LGuard) (d : WReg) (a : Operand) (imm : BitVec 32)
  | fsubLongImmediate (g : LGuard) (d : WReg) (a : Operand) (imm : BitVec 32)
  | fmulLongImmediate (g : LGuard) (d : WReg) (a : Operand) (imm : BitVec 32)
  | fminLongImmediate (g : LGuard) (d : WReg) (a : Operand) (imm : BitVec 32)
  | fmaxLongImmediate (g : LGuard) (d : WReg) (a : Operand) (imm : BitVec 32)
  | sldLongImmediate (g : LGuard) (d : SReg) (a : UOperand) (imm : BitVec 32)
  | ldLongImmediate (g : LGuard) (w : LdW) (d : WReg) (a : Operand64) (imm : BitVec 32)
  | stLongImmediate (g : LGuard) (w : StW) (d : WReg) (a : Operand64) (imm : BitVec 32)
  | ldspLongImmediate (g : LGuard) (w : LdW) (d : WReg) (a : Operand) (imm : BitVec 32)
  | stspLongImmediate (g : LGuard) (w : StW) (d : WReg) (a : Operand) (imm : BitVec 32)
  | pfLongImmediate (g : LGuard) (a : Operand64) (imm : BitVec 32)
  | braLongImmediate (g : LGuard) (imm : BitVec 32)
  | callLongImmediate (g : LGuard) (d : WPair) (imm : BitVec 32)
  | loopLongImmediate (g : LGuard) (a : Operand) (imm : BitVec 32)
  -- pair words (R96 to R99): the constructor names half 0's operation; `h1` is half 1
  | pairAdd (x : RegArgs) (h1 : PairHalf)
  | pairSub (x : RegArgs) (h1 : PairHalf)
  | pairMul (x : RegArgs) (h1 : PairHalf)
  | pairAnd (x : RegArgs) (h1 : PairHalf)
  | pairOr (x : RegArgs) (h1 : PairHalf)
  | pairXor (x : RegArgs) (h1 : PairHalf)
  | pairAndn (x : RegArgs) (h1 : PairHalf)
  | pairMinS32 (x : RegArgs) (h1 : PairHalf)
  | pairMaxS32 (x : RegArgs) (h1 : PairHalf)
  | pairMinZ32 (x : RegArgs) (h1 : PairHalf)
  | pairMaxZ32 (x : RegArgs) (h1 : PairHalf)
  | pairMov (x : RegArgs) (h1 : PairHalf)
  | pairAdd2 (x : RegArgs) (h1 : PairHalf)
  | pairSub2 (x : RegArgs) (h1 : PairHalf)
  | pairAdd4 (x : RegArgs) (h1 : PairHalf)
  | pairFadd (x : RegArgs) (h1 : PairHalf)
  | pairFsub (x : RegArgs) (h1 : PairHalf)
  | pairFmul (x : RegArgs) (h1 : PairHalf)
  | pairFmin (x : RegArgs) (h1 : PairHalf)
  | pairFmax (x : RegArgs) (h1 : PairHalf)
  | pairHadd2 (x : RegArgs) (h1 : PairHalf)
  | pairHmul2 (x : RegArgs) (h1 : PairHalf)
  | pairBadd2 (x : RegArgs) (h1 : PairHalf)
  | pairBmul2 (x : RegArgs) (h1 : PairHalf)
  | pairShl (x : ImmArgs) (h1 : PairHalf)
  | pairShr (x : ImmArgs) (h1 : PairHalf)
  | pairSra (x : ImmArgs) (h1 : PairHalf)
  | pairRot (x : ImmArgs) (h1 : PairHalf)
  | pairAddImmediate (x : ImmArgs) (h1 : PairHalf)
  | pairSubImmediate (x : ImmArgs) (h1 : PairHalf)
  -- general cores (R334, R394)
  | spawn (rd rs1 rs2 : BitVec 5)
  | joinw (rd rs1 : BitVec 5)
  | ecreate (rd rs1 : BitVec 5)
  | edestroy (rd rs1 : BitVec 5)
  | eattest (rd rs1 rs2 : BitVec 5)
  -- the two steps of a word that is no instruction (R81, R102, R335); two late rows of the table
  | illegalOpcode (w : BitVec 64)
  | illegalInstructionException (w : BitVec 32)
  | spawnAppend (hart : Nat)
  | joinwComplete (hart : Nat)
  -- Rowan calls (R371, R403): the call at the head of Rowan's queue
  | map
  | unmap
  | prot
  | move
  | sealPage
  | unsealPage
  | usage
  | svcq
  | spdmCall
  | bind
  | pload
  | punload
  | range
  -- boot, pod and power (R17 to R33)
  | coldReset
  | warmReset
  | firmwareImage (leader : Option (BitVec 16)) (img : List Byte)
  | hostLinkTraining (cxl : Bool)
  | hello (port : Fin 12) (pod : BitVec 16)
  | discoveryWindowEnd
  | claim (port : Fin 12) (pod : BitVec 16) (nonce : BitVec 64) (sig : List Byte)
  | leaderSilent
  | podFlitReceive (port : Fin 12) (f : PodFlit)
  | staggeredStartStep
  | arrayRampDone (core : Nat)
  | pwrlim (v : BitVec 32)
  | emergencyPowerReduction (asserted : Bool)
  | mslim (p m : Nat) (v : BitVec 32)
  | mscfg (p m : Nat) (v : BitVec 32)
  | meadowStoreSplitChange (p m : Nat)
  | pcfg (p : Nat) (v : BitVec 64)
  | partitionBuild (p : Nat)
  | gsw (p : Nat) (v : BitVec 64)
  | guestSwitchCommit (p : Nat)
  | replyDoorbell (p : Nat) (tag : BitVec 64) (status : BitVec 32)
  | llaunch (hazel runtime : Option (List Byte))
  | sleep
  | commit
  | wake
  | registerWrite (fn off : Nat) (v : BitVec 64)
  | tdispRequest (vf : Nat) (r : TdispReq)
  | lockInterfaceRequest (vf : Nat)
  | ideKmKeyProgramming (stream : Nat) (session : Nat) (selective : Bool)
  | hostMemoryAccess (r : HostAccess)
  -- SPDM (R408, R409)
  | getVersion (via : SpdmVia)
  | getCapabilities (via : SpdmVia)
  | negotiateAlgorithms (via : SpdmVia)
  | getDigests (via : SpdmVia)
  | getCertificate (via : SpdmVia) (slot off len : Nat)
  | challenge (via : SpdmVia) (slot : Nat) (nonce : List Byte)
  | getMeasurements (via : SpdmVia) (index : Nat) (nonce : List Byte)
  | keyExchange (via : SpdmVia) (data : List Byte)
  | finish (via : SpdmVia) (session : Nat)
  | endSession (via : SpdmVia) (session : Nat)
  | spdmUnsupportedRequest (via : SpdmVia) (code : Byte)
  -- partitions, launch and issue (R36 to R54, R416 to R427)
  | virtualFunctionReset (vf : Nat)
  | dispatchRecord (encl kick : Nat)
  | grovePlacement (i : Nat) (at' : Place)
  | placementStarvation (i : Nat)
  | issueSelection (core : Nat) (slot : Fin 4)
  | waitCountStarvation (core wslot : Nat)
  | bindRecordWrite (core wslot : Nat) (rec : BitVec 128)
  | teamRetirement (core tslot : Nat)
  | queueSliceBoundary
  -- memory pipeline (R236 to R256); threads are named by number
  | storeBufferDrain (t : Nat)
  | loadReturn (t : Nat)
  | atomicPerform (t : Nat)
  | walkComplete (i : Nat)
  | faultQueueRoom (encl : Nat)
  | registerLineFill (core : Nat) (line : Nat)
  | rgrowGrant (core : Nat)
  | handlerEntry (core tslot : Nat)
  | barrierPhaseComplete (core tslot : Nat) (b : Fin 10)
  | deqTake (t : Nat)
  | enqReservation (t : Nat)
  | awaitTake (core wslot : Nat)
  | mbarWaitWake (t : Nat)
  | ldfWake (t : Nat)
  | stfWaitWake (t : Nat)
  | napWake (t : Nat)
  | svcPost (p : Nat)
  | maintenanceComplete (i : Nat)
  -- engines (R286 to R323)
  | rsvComplete (core tslot : Nat) (k : Fin 16)
  | acqComplete (core tslot : Nat) (t : Fin 4)
  | unrsvComplete (core tslot : Nat) (k : Fin 16)
  | matrixJobStart (core job : Nat)
  | kStep (core : Nat)
  | arraySwitchPoint (core : Nat)
  | matrixJobComplete (core : Nat)
  | budgetRefill
  | copyJobStart (core job : Nat)
  | ringSlotClaim (core job : Nat)
  | copyPieceDelivery (core job : Nat)
  | relayHop (core job : Nat)
  | copyJobComplete (core job : Nat)
  | copyJobFault (core job : Nat)
  -- search (R346 to R350)
  | queryContextAllocate (stack : Nat)
  | distanceReply (stack ctx fromStack : Nat)
  | adjacencyReply (stack ctx : Nat) (node : Nat)
  | queryPublish (core tslot : Nat)
  -- tables and coherence (R256, R375, R378 to R389)
  | shootdownAck (a : ShootAgent)
  | migrationPass
  | lrd (i : Nat)
  | lwr (i : Nat)
  | rrd (i : Nat)
  | rup (i : Nat)
  | evt (grain : Nat) (who : Requester)
  | erd (i : Nat)
  | ewr (i : Nat)
  | cln (i : Nat)
  | inv (i : Nat)
  | directoryAck (grain : Nat) (who : Requester)
  | tmo (grain : Nat)
  | proxyInvalidation (grain meadow : Nat)
  | copyInvalidation (grain : Nat) (who : Requester)
  | replicaLock (grain meadow : Nat)
  | replicaUpdate (grain meadow : Nat)
  | partitionSwapOut (p m : Nat)
  | partitionSwapIn (p m : Nat)
  | usageRecordPeriodic (p : Nat)
  | podLinkTraining (port : Fin 12)
  | meadowStoreWriteBack (line : Nat)
deriving DecidableEq, Repr, Inhabited

end Sys2Proof
end

