-- ==== Sys2Proof/Decode.lean ====
section
/-! DEFINITION. Decoding and encoding of Nimia words (R81 to R107, R257, R300, R315, R355, R207) and of the
Mellyn extension words (R334, R394). `decode` is total; it makes checks 1 to 3 of R102 and names the first that
fails. `encode` is written from the same tables. -/
namespace Sys2Proof

/-- What decoding a 64-bit word gives: the instruction, or the trap of the first of steps 1 to 3 of R102. -/
inductive Decoded where
  | ok (i : Instr)
  | illegalOpcode
  | illegalForm
  | illegalPair
deriving DecidableEq, Repr, Inhabited

/-- What decoding a 32-bit general-core word gives: a Mellyn extension instruction, an encoding that R394 calls
illegal, or a word of the RISC-V base, which this spec leaves out. -/
inductive DecodedHart where
  | ok (i : Instr)
  | illegal
  | base
deriving DecidableEq, Repr, Inhabited

/-- Little-endian value of a byte list (R1). -/
def leNat : List Byte → Nat
  | [] => 0
  | b :: bs => b.toNat + 256 * leNat bs

/-- The low `n` bytes of a number, least significant first (R1). -/
def leBytes : Nat → Nat → List Byte
  | 0, _ => []
  | n + 1, x => BitVec.ofNat 8 x :: leBytes n (x / 256)

/-! ### The fields of the three forms -/

/-- The fields of a full-form word below FORM (R82). -/
structure FWord where
  opc : BitVec 10
  la : BitVec 4
  gn : BitVec 1
  gp : BitVec 3
  d : BitVec 8
  a : BitVec 9
  b : BitVec 9
  c : BitVec 9
  asel : BitVec 3
  bsel : BitVec 3
  csel : BitVec 3
deriving DecidableEq, Repr, Inhabited

/-- The fields of a long-immediate word below FORM (R100). -/
structure LWord where
  opc : BitVec 10
  gp : BitVec 3
  d : BitVec 8
  a : BitVec 9
  imm : BitVec 32
deriving DecidableEq, Repr, Inhabited

/-- The fields of one half of a pair word (R96). -/
structure PHalfWord where
  pop : BitVec 7
  pg : BitVec 2
  d : BitVec 8
  a : BitVec 9
  imm : BitVec 5
deriving DecidableEq, Repr, Inhabited

def FWord.ofBits (w : BitVec 64) : FWord :=
  { opc := w.extractLsb' 52 10, la := w.extractLsb' 48 4, gn := w.extractLsb' 47 1, gp := w.extractLsb' 44 3
    d := w.extractLsb' 36 8, a := w.extractLsb' 27 9, b := w.extractLsb' 18 9, c := w.extractLsb' 9 9
    asel := w.extractLsb' 6 3, bsel := w.extractLsb' 3 3, csel := w.extractLsb' 0 3 }

def FWord.bits (f : FWord) : BitVec 64 :=
  (0b00#2 ++ f.opc ++ f.la ++ f.gn ++ f.gp ++ f.d ++ f.a ++ f.b ++ f.c ++ f.asel ++ f.bsel ++ f.csel : BitVec 64)

def LWord.ofBits (w : BitVec 64) : LWord :=
  { opc := w.extractLsb' 52 10, gp := w.extractLsb' 49 3, d := w.extractLsb' 41 8, a := w.extractLsb' 32 9
    imm := w.extractLsb' 0 32 }

def LWord.bits (f : LWord) : BitVec 64 :=
  (0b10#2 ++ f.opc ++ f.gp ++ f.d ++ f.a ++ f.imm : BitVec 64)

def PHalfWord.ofBits (w : BitVec 31) : PHalfWord :=
  { pop := w.extractLsb' 24 7, pg := w.extractLsb' 22 2, d := w.extractLsb' 14 8, a := w.extractLsb' 5 9
    imm := w.extractLsb' 0 5 }

def PHalfWord.bits (f : PHalfWord) : BitVec 31 :=
  (f.pop ++ f.pg ++ f.d ++ f.a ++ f.imm : BitVec 31)

def pairBits (h0 h1 : PHalfWord) : BitVec 64 := (0b01#2 ++ h1.bits ++ h0.bits : BitVec 64)

/-! ### Field codecs -/

/-- R91. -/
def decGuard (gn : BitVec 1) (gp : BitVec 3) : Option Guard :=
  if h : gp.toNat < 7 then some (.pred ⟨gp.toNat, h⟩ (gn == 1#1))
  else if gn = 0#1 then some .always else none

def Guard.gn : Guard → BitVec 1
  | .always => 0#1
  | .pred _ neg => BitVec.ofBool neg

def Guard.gp : Guard → BitVec 3
  | .always => 7#3
  | .pred p _ => BitVec.ofNat 3 p.val

/-- R100: an L word's guard is p0 to p6 true when 1, or always. -/
def decLGuard (gp : BitVec 3) : LGuard := if h : gp.toNat < 7 then some ⟨gp.toNat, h⟩ else none

def encLGuard : LGuard → BitVec 3
  | none => 7#3
  | some p => BitVec.ofNat 3 p.val

def decSel (x : BitVec 3) : Sel :=
  match x.toNat with
  | 0 => .none | 1 => .h0 | 2 => .h1 | 3 => .hs | 4 => .hb0 | 5 => .hb1 | 6 => .rot | _ => .neg

def Sel.bits : Sel → BitVec 3
  | .none => 0 | .h0 => 1 | .h1 => 2 | .hs => 3 | .hb0 => 4 | .hb1 => 5 | .rot => 6 | .neg => 7

/-- R86. -/
def decOperand (f : BitVec 9) : Option Operand :=
  if f.toNat < 256 then some (.w (BitVec.ofNat 8 f.toNat))
  else if f.toNat < 320 then some (.s (BitVec.ofNat 6 (f.toNat - 256)))
  else if h : f.toNat - 320 < 20 then some (.ident ⟨f.toNat - 320, h⟩)
  else if f.toNat < 384 then none
  else some (.imm (BitVec.ofNat 7 (f.toNat - 384)))

def Operand.bits : Operand → BitVec 9
  | .w r => BitVec.ofNat 9 r.toNat
  | .s r => BitVec.ofNat 9 (256 + r.toNat)
  | .ident k => BitVec.ofNat 9 (320 + k.val)
  | .imm k => BitVec.ofNat 9 (384 + k.toNat)

/-- R88: a w operand read at 64 bits is an even register. -/
def decOperand64 (f : BitVec 9) : Option Operand64 :=
  match decOperand f with
  | some (.w r) => if r.toNat % 2 = 0 then some (.w (BitVec.ofNat 7 (r.toNat / 2))) else none
  | some (.s r) => some (.s r)
  | some (.ident k) => some (.ident k)
  | some (.imm k) => some (.imm k)
  | none => none

def Operand64.bits : Operand64 → BitVec 9
  | .w p => BitVec.ofNat 9 (2 * p.toNat)
  | .s r => BitVec.ofNat 9 (256 + r.toNat)
  | .ident k => BitVec.ofNat 9 (320 + k.val)
  | .imm k => BitVec.ofNat 9 (384 + k.toNat)

/-- Codes 0 to 255, 320 and 338 are not warp-uniform (R147, R184, R300, R315, R355). -/
def uniformIdent (k : Fin 20) : Bool := k.val != 0 && k.val != 18

def decUOperand (f : BitVec 9) : Option UOperand :=
  match decOperand f with
  | some (.s r) => some (.s r)
  | some (.ident k) => if uniformIdent k then some (.ident k) else none
  | some (.imm k) => some (.imm k)
  | _ => none

def UOperand.bits : UOperand → BitVec 9
  | .s r => BitVec.ofNat 9 (256 + r.toNat)
  | .ident k => BitVec.ofNat 9 (320 + k.val)
  | .imm k => BitVec.ofNat 9 (384 + k.toNat)

def decSrc (f : BitVec 9) (s : BitVec 3) : Option Src :=
  (decOperand f).map fun o => ⟨o, decSel s⟩

/-- R90: a 64-bit operand accepts only the selects 0b000 and 0b111. -/
def decNeg (s : BitVec 3) : Option Bool :=
  if s = 0#3 then some false else if s = 7#3 then some true else none

def negBits (n : Bool) : BitVec 3 := if n then 7#3 else 0#3

def decSrc64 (f : BitVec 9) (s : BitVec 3) : Option Src64 := do
  let o ← decOperand64 f
  let n ← decNeg s
  pure ⟨o, n⟩

def decUSrc (f : BitVec 9) (s : BitVec 3) : Option USrc :=
  (decUOperand f).map fun o => ⟨o, decSel s⟩

def decUSrc64 (f : BitVec 9) (s : BitVec 3) : Option USrc64 := do
  let o ← decUOperand f
  let n ← decNeg s
  pure ⟨o, n⟩

/-- R132. -/
def decPOp (f : BitVec 9) (s : BitVec 3) : Option POp :=
  if f.toNat < 16 ∧ s = 0#3 then some ⟨BitVec.ofNat 3 f.toNat, 8 ≤ f.toNat⟩ else none

def POp.bits (q : POp) : BitVec 9 := BitVec.ofNat 9 (q.p.toNat + (if q.neg then 8 else 0))

def decPReg (d : BitVec 8) : Option PReg := if h : d.toNat < 7 then some ⟨d.toNat, h⟩ else none
def encPReg (p : PReg) : BitVec 8 := BitVec.ofNat 8 p.val
def decSReg (d : BitVec 8) : Option SReg := if d.toNat < 64 then some (BitVec.ofNat 6 d.toNat) else none
def encSReg (r : SReg) : BitVec 8 := BitVec.ofNat 8 r.toNat
def decPairD (d : BitVec 8) : Option WPair := if d.toNat % 2 = 0 then some (BitVec.ofNat 7 (d.toNat / 2)) else none
def encPairD (p : WPair) : BitVec 8 := BitVec.ofNat 8 (2 * p.toNat)
def decQuadD (d : BitVec 8) : Option WQuad := if d.toNat % 4 = 0 then some (BitVec.ofNat 6 (d.toNat / 4)) else none
def encQuadD (p : WQuad) : BitVec 8 := BitVec.ofNat 8 (4 * p.toNat)
def decOctD (d : BitVec 8) : Option WOct := if d.toNat % 8 = 0 then some (BitVec.ofNat 5 (d.toNat / 8)) else none
def encOctD (p : WOct) : BitVec 8 := BitVec.ofNat 8 (8 * p.toNat)
/-- A raw field below `n` with select 0 (R257, R300, R315). -/
def decRaw (n : Nat) (f : BitVec 9) (s : BitVec 3) : Option (Fin n) :=
  if h : f.toNat < n then (if s = 0#3 then some ⟨f.toNat, h⟩ else none) else none
def decRawD (n : Nat) (d : BitVec 8) : Option (Fin n) := if h : d.toNat < n then some ⟨d.toNat, h⟩ else none

/-- The subfields of a modifier (R84), CSEL being 0. -/
structure Modifier where
  opt : Bool
  fmt : Nat
  sc : Nat
  rm : Nat
deriving DecidableEq, Repr

def Modifier.ofBits (c : BitVec 9) : Modifier :=
  { opt := 256 ≤ c.toNat, fmt := c.toNat / 16 % 16, sc := c.toNat / 4 % 4, rm := c.toNat % 4 }

def Modifier.bits (m : Modifier) : BitVec 9 :=
  BitVec.ofNat 9 ((if m.opt then 256 else 0) + 16 * m.fmt + 4 * m.sc + m.rm)

/-- A modifier whose SC and RM are 0 (R127). -/
def decOptFmt (c : BitVec 9) (s : BitVec 3) : Option (Bool × Nat) :=
  let m := Modifier.ofBits c
  if s = 0#3 ∧ m.sc = 0 ∧ m.rm = 0 then some (m.opt, m.fmt) else none

def encOptFmt (opt : Bool) (fmt : Nat) : BitVec 9 := Modifier.bits ⟨opt, fmt, 0, 0⟩

def decITy (n : Nat) : Option ITy := match n with | 0 => some .s | 1 => some .z | _ => none
def ITy.code : ITy → Nat | .s => 0 | .z => 1

/-- `.sat.T` of R131, R133, R143: OPT 0 needs FMT 0. -/
def decSat (c : BitVec 9) (s : BitVec 3) : Option (Option ITy) :=
  match decOptFmt c s with
  | some (false, 0) => some none
  | some (true, f) => (decITy f).map some
  | _ => none

def encSat : Option ITy → BitVec 9
  | none => encOptFmt false 0
  | some t => encOptFmt true t.code

def decTy (c : BitVec 9) (s : BitVec 3) : Option ITy :=
  match decOptFmt c s with
  | some (false, f) => decITy f
  | _ => none

def encTy (t : ITy) : BitVec 9 := encOptFmt false t.code

def decCond (n : Nat) : Option Cond :=
  match n with
  | 0 => some .eq | 1 => some .ne | 2 => some .ltS | 3 => some .leS | 4 => some .gtS | 5 => some .geS
  | 6 => some .ltZ | 7 => some .leZ | 8 => some .gtZ | 9 => some .geZ | _ => none

def Cond.code : Cond → Nat
  | .eq => 0 | .ne => 1 | .ltS => 2 | .leS => 3 | .gtS => 4 | .geS => 5
  | .ltZ => 6 | .leZ => 7 | .gtZ => 8 | .geZ => 9

def decFCond (n : Nat) : Option FCond :=
  match n with
  | 0 => some .eq | 1 => some .ne | 2 => some .lt | 3 => some .le | 4 => some .gt | 5 => some .ge
  | 6 => some .un | 7 => some .ord | _ => none

def FCond.code : FCond → Nat
  | .eq => 0 | .ne => 1 | .lt => 2 | .le => 3 | .gt => 4 | .ge => 5 | .un => 6 | .ord => 7

def decRmN (n : Nat) : Rm := match n with | 0 => .rne | 1 => .rz | 2 => .rd | _ => .ru
def Rm.code : Rm → Nat | .rne => 0 | .rz => 1 | .rd => 2 | .ru => 3

/-- A modifier that holds only RM (R154). -/
def decRm (c : BitVec 9) (s : BitVec 3) : Option Rm :=
  let m := Modifier.ofBits c
  if s = 0#3 ∧ m.opt = false ∧ m.fmt = 0 ∧ m.sc = 0 then some (decRmN m.rm) else none

def encRm (r : Rm) : BitVec 9 := Modifier.bits ⟨false, 0, 0, r.code⟩

/-- The format codes of R61. -/
def decFmt (n : Nat) : Option Fmt :=
  match n with
  | 0 => some .f32 | 1 => some .f16 | 2 => some .bf16 | 3 => some .e4m3 | 4 => some .e5m2 | 5 => some .n4x
  | 6 => some .s8 | 7 => some .z8 | 8 => some .s4 | 9 => some .s16 | 10 => some .s32 | _ => none

def Fmt.code : Fmt → Nat
  | .f32 => 0 | .f16 => 1 | .bf16 => 2 | .e4m3 => 3 | .e5m2 => 4 | .n4x => 5
  | .s8 => 6 | .z8 => 7 | .s4 => 8 | .s16 => 9 | .s32 => 10

/-- Floating formats that a conversion handles. -/
def Fmt.isFloat : Fmt → Bool
  | .f32 | .f16 | .bf16 | .e4m3 | .e5m2 => true
  | _ => false

def Fmt.isInt : Fmt → Bool
  | .s8 | .z8 | .s4 | .s16 | .s32 => true
  | _ => false

/-- Element width in bits. -/
def Fmt.width : Fmt → Nat
  | .f32 | .s32 => 32
  | .f16 | .bf16 | .s16 => 16
  | .e4m3 | .e5m2 | .s8 | .z8 => 8
  | .n4x | .s4 => 4

/-- The pairs and rounding modes of R161. -/
def cvtAllowed (t s : Fmt) (amax : Bool) (rm : Rm) : Bool :=
  (t != s) && (s.isFloat || s.isInt) && (t.isFloat || t.isInt) && (!amax || s.isFloat) &&
  (match s.isFloat, t.isFloat with
   | true, true =>
     if t = .f32 then rm == .rne
     else if (s = .e4m3 || s = .e5m2) && (t = .f16 || t = .bf16) then rm == .rne
     else rm == .rne || rm == .rz
   | true, false => true
   | false, true => if t = .f32 then true else rm == .rne || rm == .rz
   | false, false => rm == .rne)

def decScope (n : Nat) : Scope := match n with | 0 => .team | 1 => .grove | 2 => .pkg | _ => .sys
def Scope.code : Scope → Nat | .team => 0 | .grove => 1 | .pkg => 2 | .sys => 3

def decUnpk (c : BitVec 9) (s : BitVec 3) : Option UnpkKind :=
  match decOptFmt c s with
  | some (false, 1) => some .f32f16
  | some (false, 2) => some .f32bf16
  | some (false, 3) => some .f16e4m3
  | some (true, 3) => some .bf16e4m3
  | some (false, 4) => some .f16e5m2
  | some (true, 4) => some .bf16e5m2
  | some (false, 6) => some .s16s8
  | some (false, 7) => some .z16z8
  | some (false, 8) => some .s8s4
  | _ => none

def UnpkKind.bits : UnpkKind → BitVec 9
  | .f32f16 => encOptFmt false 1 | .f32bf16 => encOptFmt false 2
  | .f16e4m3 => encOptFmt false 3 | .bf16e4m3 => encOptFmt true 3
  | .f16e5m2 => encOptFmt false 4 | .bf16e5m2 => encOptFmt true 4
  | .s16s8 => encOptFmt false 6 | .z16z8 => encOptFmt false 7 | .s8s4 => encOptFmt false 8

def decReduxOp (n : Nat) : Option ReduxOp :=
  match n with
  | 0 => some .add | 1 => some .minS | 2 => some .maxS | 3 => some .minZ | 4 => some .maxZ | 5 => some .and
  | 6 => some .or | 7 => some .xor | 8 => some .fadd | 9 => some .fmin | 10 => some .fmax | _ => none

def ReduxOp.code : ReduxOp → Nat
  | .add => 0 | .minS => 1 | .maxS => 2 | .minZ => 3 | .maxZ => 4 | .and => 5
  | .or => 6 | .xor => 7 | .fadd => 8 | .fmin => 9 | .fmax => 10

def ReduxOp.scannable : ReduxOp → Bool
  | .fmin | .fmax => false
  | _ => true

def decLdW (n : Nat) : Option LdW :=
  match n with
  | 0 => some .z8 | 1 => some .s8 | 2 => some .z16 | 3 => some .s16 | 4 => some .w32 | 5 => some .w64
  | 6 => some .w128 | _ => none

def LdW.code : LdW → Nat
  | .z8 => 0 | .s8 => 1 | .z16 => 2 | .s16 => 3 | .w32 => 4 | .w64 => 5 | .w128 => 6

/-- Access size in bytes (R261). -/
def LdW.bytes : LdW → Nat
  | .z8 | .s8 => 1 | .z16 | .s16 => 2 | .w32 => 4 | .w64 => 8 | .w128 => 16

def decStW (n : Nat) : Option StW :=
  match n with
  | 0 => some .b8 | 1 => some .b16 | 2 => some .b32 | 3 => some .b64 | 4 => some .b128 | _ => none

def StW.code : StW → Nat
  | .b8 => 0 | .b16 => 1 | .b32 => 2 | .b64 => 3 | .b128 => 4

def StW.bytes : StW → Nat
  | .b8 => 1 | .b16 => 2 | .b32 => 4 | .b64 => 8 | .b128 => 16

def decBufW (n : Nat) : Option BufW := match n with | 0 => some .w32 | 1 => some .w64 | 2 => some .w128 | _ => none
def BufW.code : BufW → Nat | .w32 => 0 | .w64 => 1 | .w128 => 2
def BufW.bytes : BufW → Nat | .w32 => 4 | .w64 => 8 | .w128 => 16

/-- Number of 32-bit data registers of an access of `n` bytes (R257). -/
def dataRegs (n : Nat) : Nat := if n ≤ 4 then 1 else n / 4

/-- R257: an even register for 64 bits, a multiple of 4 for 128. -/
def dataRegOk (n : Nat) (d : WReg) : Bool := d.toNat % dataRegs n == 0

def decAtomOp (n : Nat) : Option AtomOp :=
  match n with
  | 0 => some .add | 1 => some .fadd | 2 => some .minS | 3 => some .maxS | 4 => some .minZ | 5 => some .maxZ
  | 6 => some .and | 7 => some .or | 8 => some .xor | 9 => some .xchg | 10 => some .cas | _ => none

def AtomOp.code : AtomOp → Nat
  | .add => 0 | .fadd => 1 | .minS => 2 | .maxS => 3 | .minZ => 4 | .maxZ => 5
  | .and => 6 | .or => 7 | .xor => 8 | .xchg => 9 | .cas => 10

def decAtomOrd (n : Nat) : AtomOrd := match n with | 0 => .ar | 1 => .acq | 2 => .rel | _ => .rlx
def AtomOrd.code : AtomOrd → Nat | .ar => 0 | .acq => 1 | .rel => 2 | .rlx => 3

/-- R269: W64, ORD, SC; the other bits are 0. -/
def decAtomMod (c : BitVec 9) (s : BitVec 3) : Option (Bool × AtomOrd × Scope) :=
  if s = 0#3 ∧ c.toNat / 16 % 4 = 0 ∧ c.toNat % 4 = 0 then
    some (256 ≤ c.toNat, decAtomOrd (c.toNat / 64 % 4), decScope (c.toNat / 4 % 4))
  else none

def AtomVal.wide : AtomVal → Bool | .v32 _ => false | .v64 _ => true

def encAtomMod (wide : Bool) (o : AtomOrd) (sc : Scope) : BitVec 9 :=
  BitVec.ofNat 9 ((if wide then 256 else 0) + 64 * o.code + 4 * sc.code)

def decAtomVal (wide : Bool) (f : BitVec 9) (s : BitVec 3) : Option AtomVal :=
  if wide then (decSrc64 f s).map .v64 else (decSrc f s).map .v32

def AtomVal.opBits : AtomVal → BitVec 9
  | .v32 b => b.op.bits
  | .v64 b => b.op.bits

def AtomVal.selBits : AtomVal → BitVec 3
  | .v32 b => b.sel.bits
  | .v64 b => negBits b.neg

def decFenceKind (n : Nat) : Option FenceKind :=
  match n with | 0 => some .sc | 1 => some .acq | 2 => some .rel | _ => none
def FenceKind.code : FenceKind → Nat | .sc => 0 | .acq => 1 | .rel => 2

/-- R274: `.sc` only at `.pkg` and `.sys`. -/
def fenceAllowed (k : FenceKind) (sc : Scope) : Bool :=
  match k, sc with
  | .sc, .team | .sc, .grove => false
  | _, _ => true

/-- The access modifier of R258: RLX, X, OFF7. -/
def decAccess (c : BitVec 9) (s : BitVec 3) : Option (Bool × Bool × BitVec 7) :=
  if s = 0#3 then some (256 ≤ c.toNat, c.toNat / 128 % 2 = 1, BitVec.ofNat 7 (c.toNat % 128)) else none

def encAccess (rlx x : Bool) (off : BitVec 7) : BitVec 9 :=
  BitVec.ofNat 9 ((if rlx then 256 else 0) + (if x then 128 else 0) + off.toNat)

/-- The special register numbers of R115. -/
def decSpecial (n : Nat) : Option SpecialReg :=
  match n with
  | 0x00 => some .flags | 0x01 => some .arms | 0x02 => some .amax | 0x08 => some .tvec | 0x09 => some .tcause
  | 0x0A => some .tepc | 0x0B => some .tva | 0x0C => some .tskid
  | 0x0D => some (.tsnap 0) | 0x0E => some (.tsnap 1) | 0x0F => some (.tsnap 2) | 0x10 => some (.tsnap 3)
  | 0x18 => some (.lc 0) | 0x19 => some (.lc 1) | 0x1A => some (.lc 2)
  | 0x20 => some .clock | 0x21 => some .budget
  | _ => none

def SpecialReg.number : SpecialReg → Nat
  | .flags => 0x00 | .arms => 0x01 | .amax => 0x02 | .tvec => 0x08 | .tcause => 0x09 | .tepc => 0x0A
  | .tva => 0x0B | .tskid => 0x0C | .tsnap i => 0x0D + i.val | .lc i => 0x18 + i.val
  | .clock => 0x20 | .budget => 0x21

def SpecialReg.is64 : SpecialReg → Bool
  | .tvec | .tepc | .tva | .clock => true
  | _ => false

/-- R115: TSKID, CLOCK and BUDGET are RO. -/
def SpecialReg.readOnly : SpecialReg → Bool
  | .tskid | .clock | .budget => true
  | _ => false

def MtsSrc.wide : MtsSrc → Bool | .v32 _ => false | .v64 _ => true

/-! ### Shapes of full-form words -/

def FWord.hdr (f : FWord) : Option Hdr := (decGuard f.gn f.gp).map fun g => ⟨f.la, g⟩
/-- Ordering class: LA must be 0 (R94). -/
def FWord.oguard (f : FWord) : Option Guard := if f.la = 0#4 then decGuard f.gn f.gp else none
def FWord.noA (f : FWord) : Bool := f.a == 0#9 && f.asel == 0#3
def FWord.noB (f : FWord) : Bool := f.b == 0#9 && f.bsel == 0#3
def FWord.noC (f : FWord) : Bool := f.c == 0#9 && f.csel == 0#3
def FWord.noD (f : FWord) : Bool := f.d == 0#8
def FWord.srcA (f : FWord) : Option Src := decSrc f.a f.asel
def FWord.srcB (f : FWord) : Option Src := decSrc f.b f.bsel
def FWord.srcC (f : FWord) : Option Src := decSrc f.c f.csel
def FWord.srcA64 (f : FWord) : Option Src64 := decSrc64 f.a f.asel
def FWord.srcB64 (f : FWord) : Option Src64 := decSrc64 f.b f.bsel
def FWord.uA (f : FWord) : Option USrc := decUSrc f.a f.asel
def FWord.uB (f : FWord) : Option USrc := decUSrc f.b f.bsel
def FWord.uC (f : FWord) : Option USrc := decUSrc f.c f.csel
def FWord.uA64 (f : FWord) : Option USrc64 := decUSrc64 f.a f.asel
def FWord.uB64 (f : FWord) : Option USrc64 := decUSrc64 f.b f.bsel

def Decoded.ofForm : Option Instr → Decoded
  | some i => .ok i
  | none => .illegalForm

/-- Keep a value when a condition holds, otherwise ILLEGAL_FORM. -/
def need (b : Bool) : Option Unit := if b then some () else none

def shape3 (f : FWord) (mk : Hdr → WReg → Src → Src → Src → Instr) : Option Instr := do
  let h ← f.hdr; let a ← f.srcA; let b ← f.srcB; let c ← f.srcC
  pure (mk h f.d a b c)

def shape2 (f : FWord) (mk : Hdr → WReg → Src → Src → Instr) : Option Instr := do
  let h ← f.hdr; let a ← f.srcA; let b ← f.srcB; need f.noC
  pure (mk h f.d a b)

def shape1 (f : FWord) (mk : Hdr → WReg → Src → Instr) : Option Instr := do
  let h ← f.hdr; let a ← f.srcA; need f.noB; need f.noC
  pure (mk h f.d a)

/-- Two sources and a decoded modifier. -/
def shape2m {M : Type} (f : FWord) (m : Option M) (mk : Hdr → M → WReg → Src → Src → Instr) : Option Instr := do
  let h ← f.hdr; let a ← f.srcA; let b ← f.srcB; let x ← m
  pure (mk h x f.d a b)

def shapeP2 (f : FWord) (mk : Hdr → PReg → POp → POp → Instr) : Option Instr := do
  let h ← f.hdr; let p ← decPReg f.d; let a ← decPOp f.a f.asel; let b ← decPOp f.b f.bsel; need f.noC
  pure (mk h p a b)

def shape64 (f : FWord) (mk : Hdr → WPair → Src64 → Src64 → Instr) : Option Instr := do
  let h ← f.hdr; let d ← decPairD f.d; let a ← f.srcA64; let b ← f.srcB64; need f.noC
  pure (mk h d a b)

def shapeS2 (f : FWord) (mk : Hdr → SReg → USrc64 → USrc64 → Instr) : Option Instr := do
  let h ← f.hdr; let d ← decSReg f.d; let a ← f.uA64; let b ← f.uB64; need f.noC
  pure (mk h d a b)

/-- The 18-bit displacement in B and C (R170). -/
def FWord.disp (f : FWord) : BitVec 18 := f.b ++ f.c

def FWord.noSelBC (f : FWord) : Bool := f.bsel == 0#3 && f.csel == 0#3

/-- A control word with the guard only (R174, R175, R177, R181, R207). -/
def shapeG (f : FWord) (mk : Guard → Instr) : Option Instr := do
  let g ← f.oguard; need f.noD; need f.noA; need f.noB; need f.noC
  pure (mk g)

/-- Body lengths of `loop` (R179). -/
def loopDispOk (n : Int) : Bool := 1 ≤ n && n ≤ 256

def shapeLd (f : FWord) (ok : Bool) (mk : Hdr → Bool → Bool → WReg → Src64 → Src → BitVec 7 → Option Instr) :
    Option Instr := do
  let h ← f.hdr; let a ← f.srcA64; let b ← f.srcB; let m ← decAccess f.c f.csel; need ok
  mk h m.1 m.2.1 f.d a b m.2.2

def shapeLdsp (f : FWord) (ok : Bool) (mk : Hdr → Bool → Bool → WReg → Src → Src → BitVec 7 → Option Instr) :
    Option Instr := do
  let h ← f.hdr; let a ← f.srcA; let b ← f.srcB; let m ← decAccess f.c f.csel; need ok
  mk h m.1 m.2.1 f.d a b m.2.2

def shapeBuf (f : FWord) (mk : Hdr → BufW → WReg → Fin 16 → Src → BitVec 7 → Instr) : Option Instr := do
  let h ← f.hdr; let k ← decRaw 16 f.a f.asel; let b ← f.srcB
  let w ← if f.csel = 0#3 then decBufW (f.c.toNat / 128) else none
  need (dataRegOk w.bytes f.d)
  pure (mk h w f.d k b (BitVec.ofNat 7 (f.c.toNat % 128)))

def shapeTile (f : FWord) (mk : Hdr → Bool → WQuad → Fin 4 → Src → Instr) : Option Instr := do
  let h ← f.hdr; let d ← decQuadD f.d; let t ← decRaw 4 f.a f.asel; let b ← f.srcB
  need (f.csel == 0#3 && f.c.toNat % 256 == 0)
  pure (mk h (256 ≤ f.c.toNat) d t b)

def shapeRange (f : FWord) (mk : Hdr → Src64 → Src → Instr) : Option Instr := do
  let h ← f.hdr; need f.noD; let a ← f.srcA64; let b ← f.srcB; need f.noC
  pure (mk h a b)

def shapeK (f : FWord) {n : Nat} (mk : Hdr → Fin n → Instr) : Option Instr := do
  let h ← f.hdr; need f.noD; let k ← decRaw n f.a f.asel; need f.noB; need f.noC
  pure (mk h k)

def shapeU1 (f : FWord) (mk : Hdr → USrc → Instr) : Option Instr := do
  let h ← f.hdr; need f.noD; let a ← f.uA; need f.noB; need f.noC
  pure (mk h a)

def shapeCall (f : FWord) (mk : Guard → WReg → Src64 → Src → Instr) : Option Instr := do
  let g ← f.oguard; let a ← f.srcA64; let b ← f.srcB; need f.noC
  pure (mk g f.d a b)

def shapeRegs (f : FWord) (mk : Guard → Src → Instr) : Option Instr := do
  let g ← f.oguard; need f.noD; let a ← f.srcA; need f.noB; need f.noC
  pure (mk g a)

/-- `rgrow` and `rshrink` (R122): every select is 0. -/
def shapeCount (f : FWord) (mk : Guard → Operand → Instr) : Option Instr := do
  let g ← f.oguard; need f.noD; need (f.asel == 0#3); let a ← decOperand f.a; need f.noB; need f.noC
  pure (mk g a)

/-- R161 to R163: B is used exactly when the target is narrower than 32 bits. -/
def decCvt (f : FWord) (t : Fmt) : Option Instr := do
  let h ← f.hdr; let a ← f.srcA
  let m := Modifier.ofBits f.c
  need (f.csel == 0#3 && m.sc == 0)
  let s ← decFmt m.fmt
  need (cvtAllowed t s m.opt (decRmN m.rm))
  if t.width = 32 then do
    need f.noB
    pure (.cvt h t s m.opt (decRmN m.rm) f.d a none)
  else do
    let b ← f.srcB
    pure (.cvt h t s m.opt (decRmN m.rm) f.d a (some b))

def decLd (f : FWord) (n : Nat) : Option Instr := do
  let w ← decLdW n
  shapeLd f (dataRegOk w.bytes f.d) fun h rlx x d a b off => do need (!x); pure (.ld h w rlx d a b off)

def decSt (f : FWord) (n : Nat) : Option Instr := do
  let w ← decStW n
  shapeLd f (dataRegOk w.bytes f.d) fun h rlx x d a b off => do need (!x); pure (.st h w rlx d a b off)

def decLdsp (f : FWord) (n : Nat) : Option Instr := do
  let w ← decLdW n
  shapeLdsp f (dataRegOk w.bytes f.d) fun h rlx x d a b off => do need (!x); pure (.ldsp h w rlx d a b off)

def decStsp (f : FWord) (n : Nat) : Option Instr := do
  let w ← decStW n
  shapeLdsp f (dataRegOk w.bytes f.d) fun h rlx x d a b off => do need (!x); pure (.stsp h w rlx d a b off)

/-- R268, R269: `.64` needs an even D and no `.fadd`. -/
def atomFieldsOk (op : AtomOp) (wide : Bool) (d : WReg) : Bool :=
  !(wide && op == .fadd) && (!wide || d.toNat % 2 == 0)

def decAtom (f : FWord) (n : Nat) : Option Instr := do
  let h ← f.hdr; let op ← decAtomOp n; let m ← decAtomMod f.c f.csel
  let a ← f.srcA64; let b ← decAtomVal m.1 f.b f.bsel
  need (atomFieldsOk op m.1 f.d)
  pure (.atom h op m.2.1 m.2.2 f.d a b)

def decAtoms (f : FWord) (n : Nat) : Option Instr := do
  let h ← f.hdr; let op ← decAtomOp n; let m ← decAtomMod f.c f.csel
  let a ← f.srcA; let b ← decAtomVal m.1 f.b f.bsel
  need (atomFieldsOk op m.1 f.d)
  pure (.atoms h op m.2.1 m.2.2 f.d a b)

/-- `red` accepts only `.rel` and `.rlx` (R269). -/
def redOrdOk : AtomOrd → Bool
  | .rel | .rlx => true
  | _ => false

def decRed (f : FWord) (n : Nat) : Option Instr := do
  let h ← f.hdr; let op ← decAtomOp n; let m ← decAtomMod f.c f.csel
  let a ← f.srcA64; let b ← decAtomVal m.1 f.b f.bsel
  need f.noD; need (redOrdOk m.2.1); need (!(m.1 && op == .fadd))
  pure (.red h op m.2.1 m.2.2 a b)

/-- Class 0x0 of R104, by the slot in OPC bits 5:0; `none` is an unassigned slot. -/
def decClass0 (f : FWord) : Option (Option Instr) :=
  match (f.opc.toNat % 64) with
  | 0x00 => some (shape2m f (decSat f.c f.csel) fun h m d a b => .add h m d a b)
  | 0x01 => some (shape2m f (decSat f.c f.csel) fun h m d a b => .sub h m d a b)
  | 0x02 => some (shape2 f .mul)
  | 0x03 => some (shape2m f (decTy f.c f.csel) .mulhi)
  | 0x04 => some (shape3 f .mad)
  | 0x05 => some (shape2m f (decTy f.c f.csel) .div)
  | 0x06 => some (shape2m f (decTy f.c f.csel) .rem)
  | 0x08 => some (shape2m f (decTy f.c f.csel) .min)
  | 0x09 => some (shape2m f (decTy f.c f.csel) .max)
  | 0x07 => some (do
      let h ← f.hdr; let a ← f.srcA; need f.noB
      match decOptFmt f.c f.csel with
      | some (o, 0) => pure (.abs h o f.d a)
      | _ => none)
  | 0x0A => some (shape1 f .mov)
  | 0x0B => some none
  | 0x0C => some (do
      let h ← f.hdr; let a ← f.srcA; let b ← f.srcB; let q ← decPOp f.c f.csel
      pure (.sel h f.d a b q))
  | 0x0D => some (do
      let h ← f.hdr; let p ← decPReg f.d; let m ← decOptFmt f.c f.csel; let c ← decCond m.2
      if m.1 then do
        let a ← f.srcA64; let b ← f.srcB64
        pure (.icmp h c p (.w64 a b))
      else do
        let a ← f.srcA; let b ← f.srcB
        pure (.icmp h c p (.w32 a b)))
  | 0x0E => some (shapeP2 f .pand)
  | 0x0F => some (shapeP2 f .por)
  | 0x10 => some (shapeP2 f .pxor)
  | 0x11 => some (do
      let h ← f.hdr; let p ← decPReg f.d; let a ← decPOp f.a f.asel; need f.noB; need f.noC
      pure (.pnot h p a))
  | _ => none

/-- Class 0x1 of R104, by the slot in OPC bits 5:0; `none` is an unassigned slot. -/
def decClass1 (f : FWord) : Option (Option Instr) :=
  match (f.opc.toNat % 64) with
  | 0x00 => some (shape2 f .and)
  | 0x01 => some (shape2 f .or)
  | 0x02 => some (shape2 f .xor)
  | 0x03 => some (shape2 f .andn)
  | 0x04 => some (shape2 f .shl)
  | 0x05 => some (shape2 f .shr)
  | 0x06 => some (shape2 f .sra)
  | 0x07 => some (shape2 f .rot)
  | 0x08 => some (shape1 f .popc)
  | 0x09 => some (shape1 f .clz)
  | 0x0A => some (shape1 f .ctz)
  | 0x0B => some (shape1 f .brev)
  | 0x0C => some (shape3 f .bfx)
  | 0x0D => some (shape3 f .bfi)
  | 0x0E => some (shape3 f .prmb)
  | 0x0F => some (shape2m f (decSat f.c f.csel) .add2)
  | 0x10 => some (shape2m f (decSat f.c f.csel) .sub2)
  | 0x13 => some (shape2m f (decSat f.c f.csel) .add4)
  | 0x11 => some (shape2m f (decTy f.c f.csel) .min2)
  | 0x12 => some (shape2m f (decTy f.c f.csel) .max2)
  | 0x14 => some (shape3 f fun h d a b c => .dot4 h .z .z d a b c)
  | 0x15 => some (shape3 f fun h d a b c => .dot4 h .z .s d a b c)
  | 0x16 => some (shape3 f fun h d a b c => .dot4 h .s .z d a b c)
  | 0x17 => some (shape3 f fun h d a b c => .dot4 h .s .s d a b c)
  | 0x18 => some (shape3 f .dot8)
  | 0x1C => some (shape3 f fun h d a b c => .dot2 h .z .z d a b c)
  | 0x1D => some (shape3 f fun h d a b c => .dot2 h .z .s d a b c)
  | 0x1E => some (shape3 f fun h d a b c => .dot2 h .s .z d a b c)
  | 0x1F => some (shape3 f fun h d a b c => .dot2 h .s .s d a b c)
  | _ => none

/-- Class 0x2 of R104, by the slot in OPC bits 5:0; `none` is an unassigned slot. -/
def decClass2 (f : FWord) : Option (Option Instr) :=
  match (f.opc.toNat % 64) with
  | 0x00 => some (shape64 f .add64)
  | 0x01 => some (shape64 f .sub64)
  | 0x02 => some (do
      let h ← f.hdr; let d ← decPairD f.d; let a ← f.srcA64; let b ← f.srcB; let c ← f.srcC
      pure (.lea64 h d a b c))
  | 0x10 => some (shapeS2 f .sadd)
  | 0x11 => some (shapeS2 f .ssub)
  | 0x12 => some (shapeS2 f .smul)
  | 0x13 => some (shapeS2 f .sshl)
  | 0x15 => some (shapeS2 f .sand)
  | 0x16 => some (shapeS2 f .sor)
  | 0x1A => some (shapeS2 f .sld)
  | 0x14 => some (do
      let h ← f.hdr; let d ← decSReg f.d; let a ← f.uA64; let b ← f.uB64
      match decOptFmt f.c f.csel with
      | some (false, 0) => pure (.sshr h .z d a b)
      | some (false, 1) => pure (.sshr h .s d a b)
      | _ => none)
  | 0x17 => some (do
      let h ← f.hdr; let d ← decSReg f.d; let a ← f.uA64; need f.noB; need f.noC
      pure (.smov h d a))
  | 0x18 => some none
  | 0x19 => some (do
      let h ← f.hdr; let p ← decPReg f.d; let a ← f.uA64; let b ← f.uB64
      match decOptFmt f.c f.csel with
      | some (false, n) => (decCond n).map fun c => .scmp h c p a b
      | _ => none)
  | _ => none

/-- Class 0x3 of R104, by the slot in OPC bits 5:0; `none` is an unassigned slot. -/
def decClass3 (f : FWord) : Option (Option Instr) :=
  match (f.opc.toNat % 64) with
  | 0x00 => some (shape2m f (decRm f.c f.csel) .fadd)
  | 0x01 => some (shape2m f (decRm f.c f.csel) .fsub)
  | 0x02 => some (shape2m f (decRm f.c f.csel) .fmul)
  | 0x04 => some (shape3 f fun h d a b c => .ffma h .rne d a b c)
  | 0x05 => some (shape3 f fun h d a b c => .ffma h .rz d a b c)
  | 0x06 => some (shape3 f fun h d a b c => .ffma h .rd d a b c)
  | 0x07 => some (shape3 f fun h d a b c => .ffma h .ru d a b c)
  | 0x08 => some (shape2 f .fmin)
  | 0x09 => some (shape2 f .fmax)
  | 0x0A => some (shape1 f .fabs)
  | 0x0B => some (do
      let h ← f.hdr; let p ← decPReg f.d; let a ← f.srcA; let b ← f.srcB
      match decOptFmt f.c f.csel with
      | some (false, n) => (decFCond n).map fun c => .fcmp h c p a b
      | _ => none)
  | 0x0C => some (do
      let h ← f.hdr; let p ← decPReg f.d; let a ← f.srcA; let b ← f.srcB; need f.noC
      pure (.fclass h p a b))
  | 0x0D => some (do
      let h ← f.hdr; let a ← f.srcA; need f.noB; let m ← decRm f.c f.csel
      pure (.frnd h m f.d a))
  | _ => none

/-- Class 0x4 of R104, by the slot in OPC bits 5:0; `none` is an unassigned slot. -/
def decClass4 (f : FWord) : Option (Option Instr) :=
  match (f.opc.toNat % 64) with
  | 0x00 => some (shape2 f .hadd2)
  | 0x01 => some (shape2 f .hmul2)
  | 0x04 => some (shape2 f .badd2)
  | 0x05 => some (shape2 f .bmul2)
  | 0x02 => some (shape3 f .hfma2)
  | 0x06 => some (shape3 f .bfma2)
  | _ => none

/-- Class 0x5 of R104, by the slot in OPC bits 5:0; `none` is an unassigned slot. -/
def decClass5 (f : FWord) : Option (Option Instr) :=
  match (f.opc.toNat % 64) with
  | 0x00 => some (decCvt f .f32)
  | 0x01 => some (decCvt f .f16)
  | 0x02 => some (decCvt f .bf16)
  | 0x03 => some (decCvt f .e4m3)
  | 0x04 => some (decCvt f .e5m2)
  | 0x06 => some (decCvt f .s8)
  | 0x07 => some (decCvt f .z8)
  | 0x08 => some (decCvt f .s4)
  | 0x09 => some (decCvt f .s16)
  | 0x0A => some (decCvt f .s32)
  | 0x10 => some (do
      let h ← f.hdr; let d ← decPairD f.d; let a ← f.srcA; need f.noB; let k ← decUnpk f.c f.csel
      pure (.unpk h k d a))
  | 0x11 => some (do
      let h ← f.hdr; let a ← f.srcA; need f.noB
      match decOptFmt f.c f.csel with
      | some (o, 0) => pure (.qblk h o f.d a)
      | _ => none)
  | _ => none

/-- Class 0x6 of R104, by the slot in OPC bits 5:0; `none` is an unassigned slot. -/
def decClass6 (f : FWord) : Option (Option Instr) :=
  match (f.opc.toNat % 64) with
  | 0x00 => some (shape1 f .rcpSeed)
  | 0x01 => some (shape1 f .rsqSeed)
  | 0x02 => some (shape1 f .ex2)
  | 0x03 => some (shape1 f .lg2)
  | 0x04 => some (shape1 f .sin)
  | 0x05 => some (shape1 f .cos)
  | _ => none

/-- Class 0x7 of R104, by the slot in OPC bits 5:0; `none` is an unassigned slot. -/
def decClass7 (f : FWord) : Option (Option Instr) :=
  match (f.opc.toNat % 64) with
  | 0x00 => some (do
      let g ← f.oguard; need f.noD; need f.noA; need f.noSelBC
      pure (.bra g f.disp))
  | 0x01 => some (do
      let g ← f.oguard; let a ← f.srcA64; need f.noB; need (f.csel == 0#3)
      if f.c = 0#9 then do need f.noD; pure (.jmp g a)
      else if f.c = 1#9 then do let d ← decPairD f.d; pure (.jmpLink g d a)
      else none)
  | 0x02 => some (do
      let g ← f.oguard; let d ← decPairD f.d; need f.noA; need f.noSelBC
      pure (.call g d f.disp))
  | 0x03 => some (do
      let g ← f.oguard; let a ← f.srcA64; need f.noD; need f.noB; need f.noC
      pure (.ret g a))
  | 0x04 => some (do
      let g ← f.oguard; let a ← f.srcA; need f.noD; need f.noSelBC; need (loopDispOk f.disp.toInt)
      pure (.loop g a f.disp))
  | 0x05 => some (shapeG f .lbrk)
  | 0x06 => some (shapeG f .exit)
  | 0x07 => some (shapeG f .yield)
  | 0x09 => some (shapeG f .nop)
  | 0x08 => some (do
      let g ← f.oguard; let a ← f.srcA64; let b ← f.srcB; need f.noC
      pure (.nap g f.d a b))
  | _ => none

/-- Class 0x8 of R104, by the slot in OPC bits 5:0; `none` is an unassigned slot. -/
def decClass8 (f : FWord) : Option (Option Instr) :=
  match (f.opc.toNat % 64) with
  | 0x00 => some (do
      let h ← f.hdr; let a ← f.srcA
      match decOptFmt f.c f.csel with
      | some (true, 0) => do
        let d ← decSReg f.d; let b ← f.uB
        pure (.shfl h (.pickU d a b))
      | some (false, 0) => do let b ← f.srcB; pure (.shfl h (.lanes .pick f.d a b))
      | some (false, 1) => do let b ← f.srcB; pure (.shfl h (.lanes .rot f.d a b))
      | some (false, 2) => do let b ← f.srcB; pure (.shfl h (.lanes .mirror f.d a b))
      | _ => none)
  | 0x01 => some (do
      let h ← f.hdr; let p ← decPReg f.d; let q ← decPOp f.a f.asel
      match decOptFmt f.c f.csel with
      | some (false, 0) => do let b ← f.uB; pure (.vote h (.atl b) p q)
      | some (false, 1) => do let b ← f.uB; pure (.vote h (.atm b) p q)
      | some (false, 2) => do need f.noB; pure (.vote h .unan p q)
      | _ => none)
  | 0x02 => some (do
      let h ← f.hdr; let q ← decPOp f.a f.asel
      match decOptFmt f.c f.csel with
      | some (false, 0) => do let b ← f.srcB; pure (.ballot h (.mask f.d b) q)
      | some (false, 1) => do let b ← f.srcB; pure (.ballot h (.rank f.d b) q)
      | some (false, 2) => do let b ← f.srcB; pure (.ballot h (.cnt f.d b) q)
      | some (true, 0) => do let d ← decSReg f.d; let b ← f.uB; pure (.ballot h (.maskU d b) q)
      | some (true, 2) => do let d ← decSReg f.d; let b ← f.uB; pure (.ballot h (.cntU d b) q)
      | _ => none)
  | 0x03 => some (do
      let h ← f.hdr; let a ← f.srcA; need f.noB; let m ← decOptFmt f.c f.csel; let o ← decReduxOp m.2
      if m.1 then do let d ← decSReg f.d; pure (.redux h o (.s d) a)
      else pure (.redux h o (.w f.d) a))
  | 0x04 => some (do
      let h ← f.hdr; let a ← f.srcA; need f.noB; let m ← decOptFmt f.c f.csel; let o ← decReduxOp m.2
      need o.scannable
      pure (.scan h o m.1 f.d a))
  | 0x05 => some (do
      let h ← f.hdr; need f.noB; let m ← decOptFmt f.c f.csel
      let mode ← match m.2 with | 0 => some .lead | 1 => some .cnt | 2 => some .rank | _ => none
      if m.1 then do let a ← f.srcA64; pure (.matchLanes h mode f.d (.w64 a))
      else do let a ← f.srcA; pure (.matchLanes h mode f.d (.w32 a)))
  | _ => none

/-- Class 0x9 of R104, by the slot in OPC bits 5:0; `none` is an unassigned slot. -/
def decClass9 (f : FWord) : Option (Option Instr) :=
  match (f.opc.toNat % 64) with
  | 0x00 => some (decLd f 0)
  | 0x01 => some (decLd f 1)
  | 0x02 => some (decLd f 2)
  | 0x03 => some (decLd f 3)
  | 0x04 => some (decLd f 4)
  | 0x05 => some (decLd f 5)
  | 0x06 => some (decLd f 6)
  | 0x08 => some (decSt f 0)
  | 0x09 => some (decSt f 1)
  | 0x0A => some (decSt f 2)
  | 0x0B => some (decSt f 3)
  | 0x0C => some (decSt f 4)
  | 0x10 => some (decLdsp f 0)
  | 0x11 => some (decLdsp f 1)
  | 0x12 => some (decLdsp f 2)
  | 0x13 => some (decLdsp f 3)
  | 0x14 => some (decLdsp f 4)
  | 0x15 => some (decLdsp f 5)
  | 0x16 => some (decLdsp f 6)
  | 0x18 => some (decStsp f 0)
  | 0x19 => some (decStsp f 1)
  | 0x1A => some (decStsp f 2)
  | 0x1B => some (decStsp f 3)
  | 0x1C => some (decStsp f 4)
  | 0x20 => some (shapeLdsp f true fun h rlx x d a b off => do
      need (!rlx); let q ← decQuadD d; pure (.ldf h x q a b off))
  | 0x21 => some (shapeLdsp f true fun h rlx x d a b off => do
      need (!rlx); let q ← decQuadD d; pure (.stf h x q a b off))
  | 0x22 => some (shapeBuf f .lda)
  | 0x23 => some (shapeBuf f .sta)
  | 0x24 => some (shapeTile f .ldc)
  | 0x25 => some (shapeTile f .stc)
  | 0x26 => some (shapeLd f true fun h rlx x d a b off => do
      need (!rlx); need (d == 0#8); pure (.pf h x a b off))
  | _ => none

/-- Class 0xA of R104, by the slot in OPC bits 5:0; `none` is an unassigned slot. -/
def decClassA (f : FWord) : Option (Option Instr) :=
  match (f.opc.toNat % 64) with
  | 0x00 => some (decAtom f 0)
  | 0x01 => some (decAtom f 1)
  | 0x02 => some (decAtom f 2)
  | 0x03 => some (decAtom f 3)
  | 0x04 => some (decAtom f 4)
  | 0x05 => some (decAtom f 5)
  | 0x06 => some (decAtom f 6)
  | 0x07 => some (decAtom f 7)
  | 0x08 => some (decAtom f 8)
  | 0x09 => some (decAtom f 9)
  | 0x0A => some (decAtom f 10)
  | 0x10 => some (decAtoms f 0)
  | 0x11 => some (decAtoms f 1)
  | 0x12 => some (decAtoms f 2)
  | 0x13 => some (decAtoms f 3)
  | 0x14 => some (decAtoms f 4)
  | 0x15 => some (decAtoms f 5)
  | 0x16 => some (decAtoms f 6)
  | 0x17 => some (decAtoms f 7)
  | 0x18 => some (decAtoms f 8)
  | 0x19 => some (decAtoms f 9)
  | 0x1A => some (decAtoms f 10)
  | 0x20 => some (decRed f 0)
  | 0x21 => some (decRed f 1)
  | 0x22 => some (decRed f 2)
  | 0x23 => some (decRed f 3)
  | 0x24 => some (decRed f 4)
  | 0x25 => some (decRed f 5)
  | 0x26 => some (decRed f 6)
  | 0x27 => some (decRed f 7)
  | 0x28 => some (decRed f 8)
  | 0x30 => some (do
      let g ← f.oguard; need f.noD; need f.noA; need f.noB
      need (f.csel == 0#3 && f.c.toNat < 64 && f.c.toNat % 4 == 0)
      let k ← decFenceKind (f.c.toNat / 16)
      need (fenceAllowed k (decScope (f.c.toNat / 4 % 4)))
      pure (.fence g k (decScope (f.c.toNat / 4 % 4))))
  | 0x31 => some (shapeRange f .cleanR)
  | 0x32 => some (shapeRange f .invalR)
  | 0x33 => some (shapeRange f .flushR)
  | 0x38 => some (do
      let g ← f.oguard; need f.noD; let b ← decRaw 10 f.a f.asel; need f.noB; need f.noC
      pure (.barArrive g b))
  | 0x39 => some (do
      let g ← f.oguard; need f.noD; let b ← decRaw 10 f.a f.asel; need f.noB; need f.noC
      pure (.barWait g b))
  | 0x3A => some (do
      let g ← f.oguard; need f.noD; let b ← decRaw 9 f.a f.asel; need f.noB; need f.noC
      pure (.barSync g b))
  | 0x3B => some (shapeG f .barSwap)
  | 0x3C => some (do
      let h ← f.hdr; need f.noD; let a ← f.srcA; let b ← f.srcB; need f.noC
      pure (.mbarInit h a b))
  | 0x3E => some (do
      let h ← f.hdr; need f.noD; let a ← f.srcA; let b ← f.srcB; need f.noC
      pure (.mbarExpect h a b))
  | 0x3D => some (shape2 f .mbarArrive)
  | 0x3F => some (do
      let g ← f.oguard; need f.noD; let a ← f.srcA; let b ← f.srcB; need f.noC
      pure (.mbarWait g a b))
  | _ => none

/-- Class 0xB of R104, by the slot in OPC bits 5:0; `none` is an unassigned slot. -/
def decClassB (f : FWord) : Option (Option Instr) :=
  match (f.opc.toNat % 64) with
  | 0x00 => some (do
      let h ← f.hdr; let k ← decRawD 16 f.d; let a ← f.uA64; let b ← f.uB; let c ← f.uC
      pure (.rsv h k a b c))
  | 0x01 => some (shapeK f .unrsv)
  | 0x02 => some (shapeK f .zacc)
  | 0x04 => some (shapeK f .acq)
  | 0x05 => some (shapeK f .rel)
  | 0x03 => some (do
      let h ← f.hdr; let t ← decRawD 4 f.d; let ka ← decRaw 16 f.a f.asel; let kb ← decRaw 16 f.b f.bsel
      let c ← f.uC
      pure (.mma h t ka kb c))
  | _ => none

/-- Class 0xC of R104, by the slot in OPC bits 5:0; `none` is an unassigned slot. -/
def decClassC (f : FWord) : Option (Option Instr) :=
  match (f.opc.toNat % 64) with
  | 0x00 => some (do
      let h ← f.hdr; need f.noD; let a ← f.srcA64; let b ← f.srcB64; need f.noC
      pure (.cpy h .b4 a b))
  | 0x01 => some (do
      let h ← f.hdr; need f.noD; let a ← f.srcA64; let b ← f.srcB64; need f.noC
      pure (.cpy h .b8 a b))
  | 0x02 => some (do
      let h ← f.hdr; need f.noD; let a ← f.srcA64; let b ← f.srcB64; need f.noC
      pure (.cpy h .b16 a b))
  | 0x04 => some (do
      let h ← f.hdr; let d ← decSReg f.d; need f.noA; need f.noB; need f.noC
      pure (.cpyo h d))
  | 0x05 => some (shapeU1 f .cpyc)
  | 0x06 => some (do
      let h ← f.hdr; need f.noD; let a ← f.uA; let b ← f.uB; let c ← f.uC
      pure (.patch h a b c))
  | 0x07 => some (shapeU1 f .go)
  | 0x08 => some (do
      let h ← f.hdr; let n ← decRawD 16 f.d; let a ← f.uA; let b ← f.uB; need f.noC
      pure (.rinit h n a b))
  | 0x09 => some (do
      let g ← f.oguard; let d ← decSReg f.d; let n ← decRaw 16 f.a f.asel; need f.noB; need f.noC
      pure (.await g d n))
  | 0x0A => some (do
      let h ← f.hdr; need f.noD; let n ← decRaw 16 f.a f.asel; let b ← f.uB; need f.noC
      pure (.rels h n b))
  | 0x0B => some (do
      let g ← f.oguard; let d ← decOctD f.d; let a ← f.srcA64; need f.noB; need f.noC
      pure (.deq g d a))
  | 0x0C => some (do
      let h ← f.hdr; let d ← decOctD f.d; let a ← f.srcA64; need f.noB; need f.noC
      pure (.enq h a d))
  | _ => none

/-- Class 0xD of R104, by the slot in OPC bits 5:0; `none` is an unassigned slot. -/
def decClassD (f : FWord) : Option (Option Instr) :=
  match (f.opc.toNat % 64) with
  | 0x00 => some (do
      let h ← f.hdr; let d ← decSReg f.d; let a ← f.uA; let b ← f.uB; need f.noC
      pure (.qsub h d a b))
  | 0x01 => some (shapeU1 f .qcancel)
  | 0x08 => some (shapeCall f .svc)
  | 0x09 => some (shapeCall f .rcall)
  | 0x0A => some (shapeCall f .fqack)
  | 0x0C => some (shapeCount f .rgrow)
  | 0x0D => some (shapeCount f .rshrink)
  | _ => none

/-- Class 0xE of R104, by the slot in OPC bits 5:0; `none` is an unassigned slot. -/
def decClassE (f : FWord) : Option (Option Instr) :=
  match (f.opc.toNat % 64) with
  | 0x00 => some (do
      let g ← f.oguard; need f.noA; need f.noC; need (f.bsel == 0#3)
      let sr ← decSpecial f.b.toNat
      need (!sr.is64 || f.d.toNat % 2 == 0)
      pure (.mfs g f.d sr))
  | 0x01 => some (do
      let g ← f.oguard; need f.noD; need f.noC; need (f.bsel == 0#3)
      let sr ← decSpecial f.b.toNat
      need (!sr.readOnly)
      if sr.is64 then do let a ← f.srcA64; pure (.mts g sr (.v64 a))
      else do let a ← f.srcA; pure (.mts g sr (.v32 a)))
  | 0x08 => some (shapeRegs f .trap)
  | 0x09 => some (shapeG f .rett)
  | 0x0A => some (shapeG f .tkill)
  | 0x0B => some (shapeG f .ebrk)
  | 0x0C => some (shapeG f .fencex)
  | _ => none

/-- Full-form words (R82, R104). -/
def decodeF (f : FWord) : Decoded :=
  let r : Option (Option Instr) :=
    match f.opc.toNat / 64 with
    | 0x0 => decClass0 f
    | 0x1 => decClass1 f
    | 0x2 => decClass2 f
    | 0x3 => decClass3 f
    | 0x4 => decClass4 f
    | 0x5 => decClass5 f
    | 0x6 => decClass6 f
    | 0x7 => decClass7 f
    | 0x8 => decClass8 f
    | 0x9 => decClass9 f
    | 0xA => decClassA f
    | 0xB => decClassB f
    | 0xC => decClassC f
    | 0xD => decClassD f
    | 0xE => decClassE f
    | _ => none
  match r with
  | some r => .ofForm r
  | none => .illegalOpcode

/-- Long-immediate words (R100, R101). `none` is an opcode outside the L-capable set. -/
def decodeL (f : LWord) : Decoded :=
  let g := decLGuard f.gp
  let alu (mk : LGuard → WReg → Operand → BitVec 32 → Instr) : Option Instr :=
    (decOperand f.a).map fun a => mk g f.d a f.imm
  let alu64 (mk : LGuard → WPair → Operand64 → BitVec 32 → Instr) : Option Instr := do
    let d ← decPairD f.d; let a ← decOperand64 f.a
    pure (mk g d a f.imm)
  let uni (mk : LGuard → SReg → UOperand → BitVec 32 → Instr) : Option Instr := do
    let d ← decSReg f.d; let a ← decUOperand f.a
    pure (mk g d a f.imm)
  let ldl (n : Nat) : Option Instr := do
    let w ← decLdW n; need (dataRegOk w.bytes f.d); let a ← decOperand64 f.a
    pure (.ldLongImmediate g w f.d a f.imm)
  let stl (n : Nat) : Option Instr := do
    let w ← decStW n; need (dataRegOk w.bytes f.d); let a ← decOperand64 f.a
    pure (.stLongImmediate g w f.d a f.imm)
  let ldspl (n : Nat) : Option Instr := do
    let w ← decLdW n; need (dataRegOk w.bytes f.d); let a ← decOperand f.a
    pure (.ldspLongImmediate g w f.d a f.imm)
  let stspl (n : Nat) : Option Instr := do
    let w ← decStW n; need (dataRegOk w.bytes f.d); let a ← decOperand f.a
    pure (.stspLongImmediate g w f.d a f.imm)
  match f.opc.toNat with
  | 0x000 => .ofForm (alu .addLongImmediate)
  | 0x001 => .ofForm (alu .subLongImmediate)
  | 0x002 => .ofForm (alu .mulLongImmediate)
  | 0x008 => .ofForm (alu .minLongImmediate)
  | 0x009 => .ofForm (alu .maxLongImmediate)
  | 0x00B => .ofForm (do need (f.a == 0#9); pure (.movi g f.d f.imm))
  | 0x040 => .ofForm (alu .andLongImmediate)
  | 0x041 => .ofForm (alu .orLongImmediate)
  | 0x042 => .ofForm (alu .xorLongImmediate)
  | 0x043 => .ofForm (alu .andnLongImmediate)
  | 0x080 => .ofForm (alu64 .add64LongImmediate)
  | 0x081 => .ofForm (alu64 .sub64LongImmediate)
  | 0x082 => .ofForm (alu64 .lea64LongImmediate)
  | 0x090 => .ofForm (uni .saddLongImmediate)
  | 0x091 => .ofForm (uni .ssubLongImmediate)
  | 0x092 => .ofForm (uni .smulLongImmediate)
  | 0x095 => .ofForm (uni .sandLongImmediate)
  | 0x096 => .ofForm (uni .sorLongImmediate)
  | 0x098 => .ofForm (do need (f.a == 0#9); let d ← decSReg f.d; pure (.smovi g d f.imm))
  | 0x09A => .ofForm (uni .sldLongImmediate)
  | 0x0C0 => .ofForm (alu .faddLongImmediate)
  | 0x0C1 => .ofForm (alu .fsubLongImmediate)
  | 0x0C2 => .ofForm (alu .fmulLongImmediate)
  | 0x0C8 => .ofForm (alu .fminLongImmediate)
  | 0x0C9 => .ofForm (alu .fmaxLongImmediate)
  | 0x1C0 => .ofForm (do need (f.d == 0#8 && f.a == 0#9); pure (.braLongImmediate g f.imm))
  | 0x1C2 => .ofForm (do need (f.a == 0#9); let d ← decPairD f.d; pure (.callLongImmediate g d f.imm))
  | 0x1C4 => .ofForm (do need (f.d == 0#8 && loopDispOk f.imm.toInt); let a ← decOperand f.a; pure (.loopLongImmediate g a f.imm))
  | 0x240 => .ofForm (ldl 0)
  | 0x241 => .ofForm (ldl 1)
  | 0x242 => .ofForm (ldl 2)
  | 0x243 => .ofForm (ldl 3)
  | 0x244 => .ofForm (ldl 4)
  | 0x245 => .ofForm (ldl 5)
  | 0x246 => .ofForm (ldl 6)
  | 0x248 => .ofForm (stl 0)
  | 0x249 => .ofForm (stl 1)
  | 0x24A => .ofForm (stl 2)
  | 0x24B => .ofForm (stl 3)
  | 0x24C => .ofForm (stl 4)
  | 0x250 => .ofForm (ldspl 0)
  | 0x251 => .ofForm (ldspl 1)
  | 0x252 => .ofForm (ldspl 2)
  | 0x253 => .ofForm (ldspl 3)
  | 0x254 => .ofForm (ldspl 4)
  | 0x255 => .ofForm (ldspl 5)
  | 0x256 => .ofForm (ldspl 6)
  | 0x258 => .ofForm (stspl 0)
  | 0x259 => .ofForm (stspl 1)
  | 0x25A => .ofForm (stspl 2)
  | 0x25B => .ofForm (stspl 3)
  | 0x25C => .ofForm (stspl 4)
  | 0x266 => .ofForm (do need (f.d == 0#8); let a ← decOperand64 f.a; pure (.pfLongImmediate g a f.imm))
  | _ => .illegalOpcode

/-- The pair operations of R97. -/
inductive PairOp where
  | reg (op : PairRegOp)
  | imm (op : PairImmOp)
deriving DecidableEq, Repr, Inhabited

def decPop (n : Nat) : Option PairOp :=
  match n with
  | 0x00 => some (.reg .add)
  | 0x01 => some (.reg .sub)
  | 0x02 => some (.reg .mul)
  | 0x03 => some (.reg .and)
  | 0x04 => some (.reg .or)
  | 0x05 => some (.reg .xor)
  | 0x06 => some (.reg .andn)
  | 0x07 => some (.reg .minS)
  | 0x08 => some (.reg .maxS)
  | 0x09 => some (.reg .minZ)
  | 0x0A => some (.reg .maxZ)
  | 0x0B => some (.reg .mov)
  | 0x0C => some (.reg .add2)
  | 0x0D => some (.reg .sub2)
  | 0x0E => some (.reg .add4)
  | 0x10 => some (.reg .fadd)
  | 0x11 => some (.reg .fsub)
  | 0x12 => some (.reg .fmul)
  | 0x13 => some (.reg .fmin)
  | 0x14 => some (.reg .fmax)
  | 0x18 => some (.reg .hadd2)
  | 0x19 => some (.reg .hmul2)
  | 0x1A => some (.reg .badd2)
  | 0x1B => some (.reg .bmul2)
  | 0x40 => some (.imm .shl)
  | 0x41 => some (.imm .shr)
  | 0x42 => some (.imm .sra)
  | 0x43 => some (.imm .rot)
  | 0x44 => some (.imm .add)
  | 0x45 => some (.imm .sub)
  | _ => none

def PairRegOp.pop : PairRegOp → Nat
  | .add => 0x00 | .sub => 0x01 | .mul => 0x02 | .and => 0x03 | .or => 0x04 | .xor => 0x05 | .andn => 0x06 | .minS => 0x07 | .maxS => 0x08 | .minZ => 0x09 | .maxZ => 0x0A | .mov => 0x0B | .add2 => 0x0C | .sub2 => 0x0D | .add4 => 0x0E | .fadd => 0x10 | .fsub => 0x11 | .fmul => 0x12 | .fmin => 0x13 | .fmax => 0x14 | .hadd2 => 0x18 | .hmul2 => 0x19 | .badd2 => 0x1A | .bmul2 => 0x1B

def PairImmOp.pop : PairImmOp → Nat
  | .shl => 0x40 | .shr => 0x41 | .sra => 0x42 | .rot => 0x43 | .add => 0x44 | .sub => 0x45

def decPairGuard (x : BitVec 2) : PairGuard := match x.toNat with | 0 => .always | 1 => .p0 | 2 => .p1 | _ => .notP0
def PairGuard.bits : PairGuard → BitVec 2 | .always => 0 | .p0 => 1 | .p1 => 2 | .notP0 => 3

/-- Step 2 of R102 for one half (R96). -/
def decHalf (op : PairOp) (h : PHalfWord) : Option PairHalf :=
  match op, decOperand h.a with
  | .reg o, some a => if h.imm.toNat < 8 then some (.reg o ⟨decPairGuard h.pg, h.d, a, decSel (BitVec.ofNat 3 h.imm.toNat)⟩) else none
  | .imm o, some a => some (.imm o ⟨decPairGuard h.pg, h.d, a, h.imm⟩)
  | _, none => none

def PairHalf.d : PairHalf → WReg
  | .reg _ x => x.d
  | .imm _ x => x.d

def PairHalf.a : PairHalf → Operand
  | .reg _ x => x.a
  | .imm _ x => x.a

def Operand.wNum : Operand → List Nat
  | .w r => [r.toNat]
  | _ => []

/-- The register reads of a pair word that take part in R99: each half's D, and each A that is a w register. -/
def pairReads (h0 h1 : PairHalf) : List Nat :=
  [h0.d.toNat] ++ h0.a.wNum ++ [h1.d.toNat] ++ h1.a.wNum

/-- R99: no two reads in one bank, and different destinations. -/
def pairLegal (h0 h1 : PairHalf) : Bool :=
  decide ((pairReads h0 h1).map (· % 4)).Nodup && h0.d != h1.d

/-- The pair word's instruction: named by half 0. -/
def pairInstr : PairHalf → PairHalf → Instr
  | .reg .add x, h1 => .pairAdd x h1
  | .reg .sub x, h1 => .pairSub x h1
  | .reg .mul x, h1 => .pairMul x h1
  | .reg .and x, h1 => .pairAnd x h1
  | .reg .or x, h1 => .pairOr x h1
  | .reg .xor x, h1 => .pairXor x h1
  | .reg .andn x, h1 => .pairAndn x h1
  | .reg .minS x, h1 => .pairMinS32 x h1
  | .reg .maxS x, h1 => .pairMaxS32 x h1
  | .reg .minZ x, h1 => .pairMinZ32 x h1
  | .reg .maxZ x, h1 => .pairMaxZ32 x h1
  | .reg .mov x, h1 => .pairMov x h1
  | .reg .add2 x, h1 => .pairAdd2 x h1
  | .reg .sub2 x, h1 => .pairSub2 x h1
  | .reg .add4 x, h1 => .pairAdd4 x h1
  | .reg .fadd x, h1 => .pairFadd x h1
  | .reg .fsub x, h1 => .pairFsub x h1
  | .reg .fmul x, h1 => .pairFmul x h1
  | .reg .fmin x, h1 => .pairFmin x h1
  | .reg .fmax x, h1 => .pairFmax x h1
  | .reg .hadd2 x, h1 => .pairHadd2 x h1
  | .reg .hmul2 x, h1 => .pairHmul2 x h1
  | .reg .badd2 x, h1 => .pairBadd2 x h1
  | .reg .bmul2 x, h1 => .pairBmul2 x h1
  | .imm .shl x, h1 => .pairShl x h1
  | .imm .shr x, h1 => .pairShr x h1
  | .imm .sra x, h1 => .pairSra x h1
  | .imm .rot x, h1 => .pairRot x h1
  | .imm .add x, h1 => .pairAddImmediate x h1
  | .imm .sub x, h1 => .pairSubImmediate x h1

def decodeP (w : BitVec 64) : Decoded :=
  let w0 := PHalfWord.ofBits (w.extractLsb' 0 31)
  let w1 := PHalfWord.ofBits (w.extractLsb' 31 31)
  match decPop w0.pop.toNat, decPop w1.pop.toNat with
  | some o0, some o1 =>
    match decHalf o0 w0, decHalf o1 w1 with
    | some h0, some h1 => if pairLegal h0 h1 then .ok (pairInstr h0 h1) else .illegalPair
    | _, _ => .illegalForm
  | _, _ => .illegalOpcode

/-- Decoding of any 64-bit word (R81, R102 steps 1 to 3). -/
def decode (w : BitVec 64) : Decoded :=
  match (w.extractLsb' 62 2).toNat with
  | 0 => decodeF (FWord.ofBits w)
  | 1 => decodeP w
  | 2 => decodeL (LWord.ofBits w)
  | _ => .illegalOpcode

/-! ### The Mellyn extension words (R334, R394) -/

structure RWord where
  funct7 : BitVec 7
  rs2 : BitVec 5
  rs1 : BitVec 5
  funct3 : BitVec 3
  rd : BitVec 5
  opcode : BitVec 7
deriving DecidableEq, Repr, Inhabited

def RWord.ofBits (w : BitVec 32) : RWord :=
  { funct7 := w.extractLsb' 25 7, rs2 := w.extractLsb' 20 5, rs1 := w.extractLsb' 15 5
    funct3 := w.extractLsb' 12 3, rd := w.extractLsb' 7 5, opcode := w.extractLsb' 0 7 }

def RWord.bits (r : RWord) : BitVec 32 :=
  (r.funct7 ++ r.rs2 ++ r.rs1 ++ r.funct3 ++ r.rd ++ r.opcode : BitVec 32)

/-- custom-0, 0b000_1011. -/
def custom0 : BitVec 7 := 0b0001011#7

def decodeHart (w : BitVec 32) : DecodedHart :=
  let r := RWord.ofBits w
  if r.opcode ≠ custom0 then .base
  else if r.funct7 ≠ 0#7 then .illegal
  else match r.funct3.toNat with
    | 0 => .ok (.spawn r.rd r.rs1 r.rs2)
    | 1 => if r.rs2 = 0#5 then .ok (.joinw r.rd r.rs1) else .illegal
    | 2 => if r.rs2 = 0#5 then .ok (.ecreate r.rd r.rs1) else .illegal
    | 3 => if r.rs2 = 0#5 then .ok (.edestroy r.rd r.rs1) else .illegal
    | 4 => .ok (.eattest r.rd r.rs1 r.rs2)
    | _ => .illegal

/-! ### Bytes in memory order -/

/-- A Nimia word as eight bytes, little-endian (R81). -/
def decodeBytes (bs : List Byte) : Decoded := decode (BitVec.ofNat 64 (leNat (bs.take 8)))

def decodeHartBytes (bs : List Byte) : DecodedHart := decodeHart (BitVec.ofNat 32 (leNat (bs.take 4)))

/-- The instruction of a word of spec/opcode_table.json: at most 32 bits is a general-core word, more is a Nimia
word. ILLEGAL_OPCODE and ILLEGAL_INSTRUCTION_EXCEPTION are rows of the table themselves. -/
def decodeTableWord (nbits w : Nat) : Option Instr :=
  if nbits ≤ 32 then
    match decodeHartBytes (leBytes 4 w) with
    | .ok i => some i
    | .illegal => some (.illegalInstructionException (BitVec.ofNat 32 w))
    | .base => none
  else
    match decodeBytes (leBytes 8 w) with
    | .ok i => some i
    | .illegalOpcode => some (.illegalOpcode (BitVec.ofNat 64 w))
    | .illegalForm => none
    | .illegalPair => none

/-! ### The encoder -/

/-- An encoded word. -/
inductive EncWord where
  | nimia (w : BitVec 64)
  | hart (w : BitVec 32)
deriving DecidableEq, Repr, Inhabited

/-- A full-form word with the fields not used set to 0. -/
def fw (opc : Nat) (la : BitVec 4) (g : Guard) (d : BitVec 8) (a : BitVec 9 := 0) (asel : BitVec 3 := 0)
    (b : BitVec 9 := 0) (bsel : BitVec 3 := 0) (c : BitVec 9 := 0) (csel : BitVec 3 := 0) : FWord :=
  { opc := BitVec.ofNat 10 opc, la, gn := g.gn, gp := g.gp, d, a, b, c, asel, bsel, csel }

def enc3 (opc : Nat) (h : Hdr) (d : BitVec 8) (a b c : Src) : Option FWord :=
  some (fw opc h.la h.guard d a.op.bits a.sel.bits b.op.bits b.sel.bits c.op.bits c.sel.bits)
def enc2 (opc : Nat) (h : Hdr) (d : BitVec 8) (a b : Src) (c : BitVec 9 := 0) : Option FWord :=
  some (fw opc h.la h.guard d a.op.bits a.sel.bits b.op.bits b.sel.bits c 0)
def enc1 (opc : Nat) (h : Hdr) (d : BitVec 8) (a : Src) (c : BitVec 9 := 0) : Option FWord :=
  some (fw opc h.la h.guard d a.op.bits a.sel.bits 0 0 c 0)
def encP2 (opc : Nat) (h : Hdr) (p : PReg) (a b : BitVec 9) : Option FWord :=
  some (fw opc h.la h.guard (encPReg p) a 0 b 0 0 0)
def enc64 (opc : Nat) (h : Hdr) (d : BitVec 8) (a b : Src64) (c : BitVec 9 := 0) : Option FWord :=
  some (fw opc h.la h.guard d a.op.bits (negBits a.neg) b.op.bits (negBits b.neg) c 0)
def encS2 (opc : Nat) (h : Hdr) (d : BitVec 8) (a b : USrc64) (c : BitVec 9 := 0) : Option FWord :=
  some (fw opc h.la h.guard d a.op.bits (negBits a.neg) b.op.bits (negBits b.neg) c 0)
def encG (opc : Nat) (g : Guard) : Option FWord := some (fw opc 0 g 0)
def encDisp (opc : Nat) (g : Guard) (d : BitVec 8) (a : BitVec 9) (asel : BitVec 3) (disp : BitVec 18) : Option FWord :=
  some (fw opc 0 g d a asel (disp.extractLsb' 9 9) 0 (disp.extractLsb' 0 9) 0)
def encJ (g : Guard) (opc : Nat) (d : BitVec 8) (a : Src64) (c : BitVec 9) : Option FWord :=
  some (fw opc 0 g d a.op.bits (negBits a.neg) 0 0 c 0)
def encMem (opc : Nat) (h : Hdr) (d : BitVec 8) (a : Src64) (b : Src) (c : BitVec 9) : Option FWord :=
  some (fw opc h.la h.guard d a.op.bits (negBits a.neg) b.op.bits b.sel.bits c 0)
def encRaw (n : Nat) : BitVec 9 := BitVec.ofNat 9 n
def encU1 (opc : Nat) (h : Hdr) (a : USrc) : Option FWord := some (fw opc h.la h.guard 0 a.op.bits a.sel.bits)
def encU2 (opc : Nat) (h : Hdr) (d : BitVec 8) (a b : USrc) : Option FWord :=
  some (fw opc h.la h.guard d a.op.bits a.sel.bits b.op.bits b.sel.bits)
def encCall (opc : Nat) (g : Guard) (d : BitVec 8) (a : Src64) (b : Src) : Option FWord :=
  some (fw opc 0 g d a.op.bits (negBits a.neg) b.op.bits b.sel.bits)
def encRegs (opc : Nat) (g : Guard) (a : Src) : Option FWord := some (fw opc 0 g 0 a.op.bits a.sel.bits)

def signBit : ITy → Nat | .s => 1 | .z => 0

/-- The fields of a full-form instruction; `none` for every other step. -/
def encodeF : Instr → Option FWord
  | .add h m d a b => enc2 0x000 h d a b (encSat m)
  | .sub h m d a b => enc2 0x001 h d a b (encSat m)
  | .mul h d a b => enc2 0x002 h d a b
  | .mulhi h t d a b => enc2 0x003 h d a b (encTy t)
  | .mad h d a b c => enc3 0x004 h d a b c
  | .div h t d a b => enc2 0x005 h d a b (encTy t)
  | .rem h t d a b => enc2 0x006 h d a b (encTy t)
  | .min h t d a b => enc2 0x008 h d a b (encTy t)
  | .max h t d a b => enc2 0x009 h d a b (encTy t)
  | .abs h s d a => enc1 0x007 h d a (encOptFmt s 0)
  | .mov h d a => enc1 0x00A h d a
  | .sel h d a b q => some (fw 0x00C h.la h.guard d a.op.bits a.sel.bits b.op.bits b.sel.bits q.bits 0)
  | .icmp h c p (.w32 a b) => enc2 0x00D h (encPReg p) a b (encOptFmt false c.code)
  | .icmp h c p (.w64 a b) => enc64 0x00D h (encPReg p) a b (encOptFmt true c.code)
  | .pand h p a b => encP2 0x00E h p a.bits b.bits
  | .por h p a b => encP2 0x00F h p a.bits b.bits
  | .pxor h p a b => encP2 0x010 h p a.bits b.bits
  | .pnot h p a => encP2 0x011 h p a.bits 0
  | .and h d a b => enc2 0x040 h d a b
  | .or h d a b => enc2 0x041 h d a b
  | .xor h d a b => enc2 0x042 h d a b
  | .andn h d a b => enc2 0x043 h d a b
  | .shl h d a b => enc2 0x044 h d a b
  | .shr h d a b => enc2 0x045 h d a b
  | .sra h d a b => enc2 0x046 h d a b
  | .rot h d a b => enc2 0x047 h d a b
  | .popc h d a => enc1 0x048 h d a
  | .clz h d a => enc1 0x049 h d a
  | .ctz h d a => enc1 0x04A h d a
  | .brev h d a => enc1 0x04B h d a
  | .bfx h d a b c => enc3 0x04C h d a b c
  | .bfi h d a b c => enc3 0x04D h d a b c
  | .prmb h d a b c => enc3 0x04E h d a b c
  | .add2 h m d a b => enc2 0x04F h d a b (encSat m)
  | .sub2 h m d a b => enc2 0x050 h d a b (encSat m)
  | .add4 h m d a b => enc2 0x053 h d a b (encSat m)
  | .min2 h t d a b => enc2 0x051 h d a b (encTy t)
  | .max2 h t d a b => enc2 0x052 h d a b (encTy t)
  | .dot4 h ta tb d a b c => enc3 (0x054 + 2 * signBit ta + signBit tb) h d a b c
  | .dot8 h d a b c => enc3 0x058 h d a b c
  | .dot2 h ta tb d a b c => enc3 (0x05C + 2 * signBit ta + signBit tb) h d a b c
  | .add64 h d a b => enc64 0x080 h (encPairD d) a b
  | .sub64 h d a b => enc64 0x081 h (encPairD d) a b
  | .lea64 h d a b c => some (fw 0x082 h.la h.guard (encPairD d) a.op.bits (negBits a.neg) b.op.bits b.sel.bits c.op.bits c.sel.bits)
  | .sadd h d a b => encS2 0x090 h (encSReg d) a b
  | .ssub h d a b => encS2 0x091 h (encSReg d) a b
  | .smul h d a b => encS2 0x092 h (encSReg d) a b
  | .sshl h d a b => encS2 0x093 h (encSReg d) a b
  | .sand h d a b => encS2 0x095 h (encSReg d) a b
  | .sor h d a b => encS2 0x096 h (encSReg d) a b
  | .sld h d a b => encS2 0x09A h (encSReg d) a b
  | .sshr h t d a b => encS2 0x094 h (encSReg d) a b (encOptFmt false (signBit t))
  | .smov h d a => some (fw 0x097 h.la h.guard (encSReg d) a.op.bits (negBits a.neg))
  | .scmp h c p a b => encS2 0x099 h (encPReg p) a b (encOptFmt false c.code)
  | .fadd h r d a b => enc2 0x0C0 h d a b (encRm r)
  | .fsub h r d a b => enc2 0x0C1 h d a b (encRm r)
  | .fmul h r d a b => enc2 0x0C2 h d a b (encRm r)
  | .ffma h r d a b c => enc3 (0x0C4 + r.code) h d a b c
  | .fmin h d a b => enc2 0x0C8 h d a b
  | .fmax h d a b => enc2 0x0C9 h d a b
  | .fabs h d a => enc1 0x0CA h d a
  | .fcmp h c p a b => enc2 0x0CB h (encPReg p) a b (encOptFmt false c.code)
  | .fclass h p a b => enc2 0x0CC h (encPReg p) a b
  | .frnd h r d a => enc1 0x0CD h d a (encRm r)
  | .hadd2 h d a b => enc2 0x100 h d a b
  | .hmul2 h d a b => enc2 0x101 h d a b
  | .badd2 h d a b => enc2 0x104 h d a b
  | .bmul2 h d a b => enc2 0x105 h d a b
  | .hfma2 h d a b c => enc3 0x102 h d a b c
  | .bfma2 h d a b c => enc3 0x106 h d a b c
  | .cvt h t s m r d a none => enc1 (0x140 + t.code) h d a (Modifier.bits ⟨m, s.code, 0, r.code⟩)
  | .cvt h t s m r d a (some b) => enc2 (0x140 + t.code) h d a b (Modifier.bits ⟨m, s.code, 0, r.code⟩)
  | .unpk h k d a => enc1 0x150 h (encPairD d) a k.bits
  | .qblk h m d a => enc1 0x151 h d a (encOptFmt m 0)
  | .rcpSeed h d a => enc1 0x180 h d a
  | .rsqSeed h d a => enc1 0x181 h d a
  | .ex2 h d a => enc1 0x182 h d a
  | .lg2 h d a => enc1 0x183 h d a
  | .sin h d a => enc1 0x184 h d a
  | .cos h d a => enc1 0x185 h d a
  | .bra g disp => encDisp 0x1C0 g 0 0 0 disp
  | .jmp g a => encJ g 0x1C1 0 a 0
  | .jmpLink g d a => encJ g 0x1C1 (encPairD d) a 1
  | .call g d disp => encDisp 0x1C2 g (encPairD d) 0 0 disp
  | .ret g a => encJ g 0x1C3 0 a 0
  | .loop g a disp => encDisp 0x1C4 g 0 a.op.bits a.sel.bits disp
  | .lbrk g => encG 0x1C5 g
  | .exit g => encG 0x1C6 g
  | .yield g => encG 0x1C7 g
  | .nop g => encG 0x1C9 g
  | .nap g d a b => encCall 0x1C8 g d a b
  | .shfl h (.lanes m d a b) => enc2 0x200 h d a b (encOptFmt false (match m with | .pick => 0 | .rot => 1 | .mirror => 2))
  | .shfl h (.pickU d a b) => some (fw 0x200 h.la h.guard (encSReg d) a.op.bits a.sel.bits b.op.bits b.sel.bits (encOptFmt true 0) 0)
  | .vote h (.atl b) p q => some (fw 0x201 h.la h.guard (encPReg p) q.bits 0 b.op.bits b.sel.bits (encOptFmt false 0) 0)
  | .vote h (.atm b) p q => some (fw 0x201 h.la h.guard (encPReg p) q.bits 0 b.op.bits b.sel.bits (encOptFmt false 1) 0)
  | .vote h .unan p q => some (fw 0x201 h.la h.guard (encPReg p) q.bits 0 0 0 (encOptFmt false 2) 0)
  | .ballot h (.mask d b) q => some (fw 0x202 h.la h.guard d q.bits 0 b.op.bits b.sel.bits (encOptFmt false 0) 0)
  | .ballot h (.rank d b) q => some (fw 0x202 h.la h.guard d q.bits 0 b.op.bits b.sel.bits (encOptFmt false 1) 0)
  | .ballot h (.cnt d b) q => some (fw 0x202 h.la h.guard d q.bits 0 b.op.bits b.sel.bits (encOptFmt false 2) 0)
  | .ballot h (.maskU d b) q => some (fw 0x202 h.la h.guard (encSReg d) q.bits 0 b.op.bits b.sel.bits (encOptFmt true 0) 0)
  | .ballot h (.cntU d b) q => some (fw 0x202 h.la h.guard (encSReg d) q.bits 0 b.op.bits b.sel.bits (encOptFmt true 2) 0)
  | .redux h o (.w d) a => enc1 0x203 h d a (encOptFmt false o.code)
  | .redux h o (.s d) a => enc1 0x203 h (encSReg d) a (encOptFmt true o.code)
  | .scan h o x d a => enc1 0x204 h d a (encOptFmt x o.code)
  | .matchLanes h m d (.w32 a) => enc1 0x205 h d a (encOptFmt false (match m with | .lead => 0 | .cnt => 1 | .rank => 2))
  | .matchLanes h m d (.w64 a) => some (fw 0x205 h.la h.guard d a.op.bits (negBits a.neg) 0 0 (encOptFmt true (match m with | .lead => 0 | .cnt => 1 | .rank => 2)) 0)
  | .ld h w x d a b off => encMem (0x240 + w.code) h d a b (encAccess x false off)
  | .st h w x d a b off => encMem (0x248 + w.code) h d a b (encAccess x false off)
  | .ldsp h w x d a b off => enc2 (0x250 + w.code) h d a b (encAccess x false off)
  | .stsp h w x d a b off => enc2 (0x258 + w.code) h d a b (encAccess x false off)
  | .ldf h x d a b off => enc2 0x260 h (encQuadD d) a b (encAccess false x off)
  | .stf h x d a b off => enc2 0x261 h (encQuadD d) a b (encAccess false x off)
  | .lda h w d k b off => some (fw 0x262 h.la h.guard d (encRaw k.val) 0 b.op.bits b.sel.bits (BitVec.ofNat 9 (128 * w.code + off.toNat)) 0)
  | .sta h w d k b off => some (fw 0x263 h.la h.guard d (encRaw k.val) 0 b.op.bits b.sel.bits (BitVec.ofNat 9 (128 * w.code + off.toNat)) 0)
  | .ldc h x d t b => some (fw 0x264 h.la h.guard (encQuadD d) (encRaw t.val) 0 b.op.bits b.sel.bits (if x then 256#9 else 0#9) 0)
  | .stc h x d t b => some (fw 0x265 h.la h.guard (encQuadD d) (encRaw t.val) 0 b.op.bits b.sel.bits (if x then 256#9 else 0#9) 0)
  | .pf h x a b off => encMem 0x266 h 0 a b (encAccess false x off)
  | .atom h op o sc d a b => some (fw (0x280 + op.code) h.la h.guard d a.op.bits (negBits a.neg) b.opBits b.selBits (encAtomMod b.wide o sc) 0)
  | .atoms h op o sc d a b => some (fw (0x290 + op.code) h.la h.guard d a.op.bits a.sel.bits b.opBits b.selBits (encAtomMod b.wide o sc) 0)
  | .red h op o sc a b => some (fw (0x2A0 + op.code) h.la h.guard 0 a.op.bits (negBits a.neg) b.opBits b.selBits (encAtomMod b.wide o sc) 0)
  | .fence g k sc => some (fw 0x2B0 0 g 0 0 0 0 0 (BitVec.ofNat 9 (16 * k.code + 4 * sc.code)) 0)
  | .cleanR h a b => encMem 0x2B1 h 0 a b 0
  | .invalR h a b => encMem 0x2B2 h 0 a b 0
  | .flushR h a b => encMem 0x2B3 h 0 a b 0
  | .barArrive g b => some (fw 0x2B8 0 g 0 (encRaw b.val))
  | .barWait g b => some (fw 0x2B9 0 g 0 (encRaw b.val))
  | .barSync g b => some (fw 0x2BA 0 g 0 (encRaw b.val))
  | .barSwap g => encG 0x2BB g
  | .mbarInit h a b => enc2 0x2BC h 0 a b
  | .mbarArrive h d a b => enc2 0x2BD h d a b
  | .mbarExpect h a b => enc2 0x2BE h 0 a b
  | .mbarWait g a b => some (fw 0x2BF 0 g 0 a.op.bits a.sel.bits b.op.bits b.sel.bits)
  | .rsv h k a b c => some (fw 0x2C0 h.la h.guard (BitVec.ofNat 8 k.val) a.op.bits (negBits a.neg) b.op.bits b.sel.bits c.op.bits c.sel.bits)
  | .unrsv h k => some (fw 0x2C1 h.la h.guard 0 (encRaw k.val))
  | .zacc h k => some (fw 0x2C2 h.la h.guard 0 (encRaw k.val))
  | .acq h k => some (fw 0x2C4 h.la h.guard 0 (encRaw k.val))
  | .rel h k => some (fw 0x2C5 h.la h.guard 0 (encRaw k.val))
  | .mma h t ka kb c => some (fw 0x2C3 h.la h.guard (BitVec.ofNat 8 t.val) (encRaw ka.val) 0 (encRaw kb.val) 0 c.op.bits c.sel.bits)
  | .cpy h n a b => enc64 (match n with | .b4 => 0x300 | .b8 => 0x301 | .b16 => 0x302) h 0 a b
  | .cpyo h d => some (fw 0x304 h.la h.guard (encSReg d))
  | .cpyc h a => encU1 0x305 h a
  | .patch h a b c => some (fw 0x306 h.la h.guard 0 a.op.bits a.sel.bits b.op.bits b.sel.bits c.op.bits c.sel.bits)
  | .go h a => encU1 0x307 h a
  | .rinit h n a b => encU2 0x308 h (BitVec.ofNat 8 n.val) a b
  | .await g d n => some (fw 0x309 0 g (encSReg d) (encRaw n.val))
  | .rels h n b => some (fw 0x30A h.la h.guard 0 (encRaw n.val) 0 b.op.bits b.sel.bits)
  | .deq g d a => some (fw 0x30B 0 g (encOctD d) a.op.bits (negBits a.neg))
  | .enq h a d => some (fw 0x30C h.la h.guard (encOctD d) a.op.bits (negBits a.neg))
  | .qsub h d a b => encU2 0x340 h (encSReg d) a b
  | .qcancel h a => encU1 0x341 h a
  | .svc g d a b => encCall 0x348 g d a b
  | .rcall g d a b => encCall 0x349 g d a b
  | .fqack g d a b => encCall 0x34A g d a b
  | .rgrow g a => encRegs 0x34C g a.src
  | .rshrink g a => encRegs 0x34D g a.src
  | .trap g a => encRegs 0x388 g a
  | .mfs g d r => some (fw 0x380 0 g d 0 0 (encRaw r.number))
  | .mts g r (.v32 a) => some (fw 0x381 0 g 0 a.op.bits a.sel.bits (encRaw r.number))
  | .mts g r (.v64 a) => some (fw 0x381 0 g 0 a.op.bits (negBits a.neg) (encRaw r.number))
  | .rett g => encG 0x389 g
  | .tkill g => encG 0x38A g
  | .ebrk g => encG 0x38B g
  | .fencex g => encG 0x38C g
  | _ => none

def lw (opc : Nat) (g : LGuard) (d : BitVec 8) (a : BitVec 9) (imm : BitVec 32) : Option LWord :=
  some { opc := BitVec.ofNat 10 opc, gp := encLGuard g, d, a, imm }

/-- The fields of a long-immediate instruction. -/
def encodeL : Instr → Option LWord
  | .movi g d imm => lw 0x00B g d 0 imm
  | .smovi g d imm => lw 0x098 g (encSReg d) 0 imm
  | .addLongImmediate g d a imm => lw 0x000 g d a.bits imm
  | .subLongImmediate g d a imm => lw 0x001 g d a.bits imm
  | .mulLongImmediate g d a imm => lw 0x002 g d a.bits imm
  | .minLongImmediate g d a imm => lw 0x008 g d a.bits imm
  | .maxLongImmediate g d a imm => lw 0x009 g d a.bits imm
  | .andLongImmediate g d a imm => lw 0x040 g d a.bits imm
  | .orLongImmediate g d a imm => lw 0x041 g d a.bits imm
  | .xorLongImmediate g d a imm => lw 0x042 g d a.bits imm
  | .andnLongImmediate g d a imm => lw 0x043 g d a.bits imm
  | .faddLongImmediate g d a imm => lw 0x0C0 g d a.bits imm
  | .fsubLongImmediate g d a imm => lw 0x0C1 g d a.bits imm
  | .fmulLongImmediate g d a imm => lw 0x0C2 g d a.bits imm
  | .fminLongImmediate g d a imm => lw 0x0C8 g d a.bits imm
  | .fmaxLongImmediate g d a imm => lw 0x0C9 g d a.bits imm
  | .add64LongImmediate g d a imm => lw 0x080 g (encPairD d) a.bits imm
  | .sub64LongImmediate g d a imm => lw 0x081 g (encPairD d) a.bits imm
  | .lea64LongImmediate g d a imm => lw 0x082 g (encPairD d) a.bits imm
  | .saddLongImmediate g d a imm => lw 0x090 g (encSReg d) a.bits imm
  | .ssubLongImmediate g d a imm => lw 0x091 g (encSReg d) a.bits imm
  | .smulLongImmediate g d a imm => lw 0x092 g (encSReg d) a.bits imm
  | .sandLongImmediate g d a imm => lw 0x095 g (encSReg d) a.bits imm
  | .sorLongImmediate g d a imm => lw 0x096 g (encSReg d) a.bits imm
  | .sldLongImmediate g d a imm => lw 0x09A g (encSReg d) a.bits imm
  | .ldLongImmediate g w d a imm => lw (0x240 + w.code) g d a.bits imm
  | .stLongImmediate g w d a imm => lw (0x248 + w.code) g d a.bits imm
  | .ldspLongImmediate g w d a imm => lw (0x250 + w.code) g d a.bits imm
  | .stspLongImmediate g w d a imm => lw (0x258 + w.code) g d a.bits imm
  | .pfLongImmediate g a imm => lw 0x266 g 0 a.bits imm
  | .braLongImmediate g imm => lw 0x1C0 g 0 0 imm
  | .callLongImmediate g d imm => lw 0x1C2 g (encPairD d) 0 imm
  | .loopLongImmediate g a imm => lw 0x1C4 g 0 a.bits imm
  | _ => none

def encHalf : PairHalf → PHalfWord
  | .reg o x => ⟨BitVec.ofNat 7 o.pop, x.g.bits, x.d, x.a.bits, BitVec.ofNat 5 x.sel.bits.toNat⟩
  | .imm o x => ⟨BitVec.ofNat 7 o.pop, x.g.bits, x.d, x.a.bits, x.imm⟩

/-- The two halves of a pair word. -/
def pairHalves : Instr → Option (PairHalf × PairHalf)
  | .pairAdd x h1 => some (.reg .add x, h1)
  | .pairSub x h1 => some (.reg .sub x, h1)
  | .pairMul x h1 => some (.reg .mul x, h1)
  | .pairAnd x h1 => some (.reg .and x, h1)
  | .pairOr x h1 => some (.reg .or x, h1)
  | .pairXor x h1 => some (.reg .xor x, h1)
  | .pairAndn x h1 => some (.reg .andn x, h1)
  | .pairMinS32 x h1 => some (.reg .minS x, h1)
  | .pairMaxS32 x h1 => some (.reg .maxS x, h1)
  | .pairMinZ32 x h1 => some (.reg .minZ x, h1)
  | .pairMaxZ32 x h1 => some (.reg .maxZ x, h1)
  | .pairMov x h1 => some (.reg .mov x, h1)
  | .pairAdd2 x h1 => some (.reg .add2 x, h1)
  | .pairSub2 x h1 => some (.reg .sub2 x, h1)
  | .pairAdd4 x h1 => some (.reg .add4 x, h1)
  | .pairFadd x h1 => some (.reg .fadd x, h1)
  | .pairFsub x h1 => some (.reg .fsub x, h1)
  | .pairFmul x h1 => some (.reg .fmul x, h1)
  | .pairFmin x h1 => some (.reg .fmin x, h1)
  | .pairFmax x h1 => some (.reg .fmax x, h1)
  | .pairHadd2 x h1 => some (.reg .hadd2 x, h1)
  | .pairHmul2 x h1 => some (.reg .hmul2 x, h1)
  | .pairBadd2 x h1 => some (.reg .badd2 x, h1)
  | .pairBmul2 x h1 => some (.reg .bmul2 x, h1)
  | .pairShl x h1 => some (.imm .shl x, h1)
  | .pairShr x h1 => some (.imm .shr x, h1)
  | .pairSra x h1 => some (.imm .sra x, h1)
  | .pairRot x h1 => some (.imm .rot x, h1)
  | .pairAddImmediate x h1 => some (.imm .add x, h1)
  | .pairSubImmediate x h1 => some (.imm .sub x, h1)
  | _ => none

def encR (f3 : BitVec 3) (rd rs1 rs2 : BitVec 5) : RWord := ⟨0, rs2, rs1, f3, rd, custom0⟩

def encodeHart : Instr → Option RWord
  | .spawn rd rs1 rs2 => some (encR 0 rd rs1 rs2)
  | .joinw rd rs1 => some (encR 1 rd rs1 0)
  | .ecreate rd rs1 => some (encR 2 rd rs1 0)
  | .edestroy rd rs1 => some (encR 3 rd rs1 0)
  | .eattest rd rs1 rs2 => some (encR 4 rd rs1 rs2)
  | _ => none

/-- The word of an instruction; `none` for a step that has no word (a Rowan call or an event). -/
def encode (i : Instr) : Option EncWord :=
  match encodeF i, encodeL i, pairHalves i, encodeHart i with
  | some f, _, _, _ => some (.nimia f.bits)
  | none, some l, _, _ => some (.nimia l.bits)
  | none, none, some (h0, h1), _ => some (.nimia (pairBits (encHalf h0) (encHalf h1)))
  | none, none, none, some r => some (.hart r.bits)
  | none, none, none, none => none

end Sys2Proof
end

