-- ==== Sys2Proof/Machine/Bits.lean ====
section
/-! DEFINITION. Integer, bit and packed arithmetic on words (R55, R134 to R148). -/
namespace Sys2Proof.Machine

/-! ### Flags (R67, R116): the masks of FLAGS -/

def flSat : W32 := 1
def flNan : W32 := 2
def flDivz : W32 := 4
def flAmaxNan : W32 := 8

/-- A flag mask when a condition holds. -/
def flIf (b : Bool) (f : W32) : W32 := if b then f else 0

/-- A value read under a type code: signed or unsigned. -/
def ival {n : Nat} (t : ITy) (x : BitVec n) : Int :=
  match t with
  | .s => x.toInt
  | .z => (x.toNat : Int)

/-- The range of an n-bit type (R55). -/
def ilo (n : Nat) (t : ITy) : Int := match t with | .s => -(2 ^ (n - 1) : Int) | .z => 0
def ihi (n : Nat) (t : ITy) : Int := match t with | .s => (2 ^ (n - 1) : Int) - 1 | .z => (2 ^ n : Int) - 1

/-- A clamp to an n-bit type: the bits, and whether the clamp changed the value (R134, R143). -/
def clampTo (n : Nat) (t : ITy) (v : Int) : BitVec n × Bool :=
  let w := satInt v (ilo n t) (ihi n t)
  (truncInt n w, decide (w ≠ v))

/-- A sum or difference, wrapped or saturated (R133, R134). -/
def addSat (n : Nat) (sat : Option ITy) (minus : Bool) (a b : BitVec n) : BitVec n × Bool :=
  match sat with
  | none => (if minus then a - b else a + b, false)
  | some t => clampTo n t (if minus then ival t a - ival t b else ival t a + ival t b)

/-- The lesser and the greater under a type. -/
def iMin {n : Nat} (t : ITy) (a b : BitVec n) : BitVec n := if ival t b < ival t a then b else a
def iMax {n : Nat} (t : ITy) (a b : BitVec n) : BitVec n := if ival t a < ival t b then b else a

/-- Bits 63 to 32 of the exact product (R133). -/
def mulHi (t : ITy) (a b : W32) : W32 := truncInt 32 ((ival t a * ival t b) / 2 ^ 32)

/-- R135: quotient, remainder, and whether DIVZ is set. -/
def divRem (t : ITy) (a b : W32) : W32 × W32 × Bool :=
  if b = 0 then (0xFFFFFFFF, a, true)
  else
    let q := Int.tdiv (ival t a) (ival t b)
    (truncInt 32 q, truncInt 32 (ival t a - q * ival t b), false)

/-- R136. -/
def absW (sat : Bool) (a : W32) : W32 × Bool :=
  if a = 0x80000000 then (if sat then (0x7FFFFFFF, true) else (a, false))
  else (if a.msb then -a else a, false)

/-- The condition codes of R131. -/
def iCmp {n : Nat} (c : Cond) (a b : BitVec n) : Bool :=
  match c with
  | .eq => decide (a = b)
  | .ne => decide (a ≠ b)
  | .ltS => decide (a.toInt < b.toInt)
  | .leS => decide (a.toInt ≤ b.toInt)
  | .gtS => decide (b.toInt < a.toInt)
  | .geS => decide (b.toInt ≤ a.toInt)
  | .ltZ => decide (a.toNat < b.toNat)
  | .leZ => decide (a.toNat ≤ b.toNat)
  | .gtZ => decide (b.toNat < a.toNat)
  | .geZ => decide (b.toNat ≤ a.toNat)

/-- Shifts by an unsigned amount (R140, R148). -/
def shlW {n : Nat} (a : BitVec n) (k : Nat) : BitVec n := if k < n then a <<< k else 0
def shrW {n : Nat} (a : BitVec n) (k : Nat) : BitVec n := if k < n then a >>> k else 0
def sraW {n : Nat} (a : BitVec n) (k : Nat) : BitVec n :=
  if k < n then a.sshiftRight k else if a.msb then BitVec.allOnes n else 0
/-- Rotation right. -/
def rotW (a : W32) (k : Nat) : W32 := a.rotateRight (k % 32)

/-- The number of 1 bits among bits 0 to k − 1. -/
def popUpTo {n : Nat} (a : BitVec n) : Nat → Nat
  | 0 => 0
  | k + 1 => popUpTo a k + (if a.getLsbD k then 1 else 0)

def popW {n : Nat} (a : BitVec n) : Nat := popUpTo a n

/-- The number of 0 bits above the highest 1 among bits 0 to k − 1. -/
def clzFrom {n : Nat} (a : BitVec n) : Nat → Nat
  | 0 => 0
  | k + 1 => if a.getLsbD k then 0 else 1 + clzFrom a k

def clzW (a : W32) : Nat := clzFrom a 32

/-- The number of 0 bits below the lowest 1, for the `k` bits from bit n − k up. -/
def ctzFrom {n : Nat} (a : BitVec n) : Nat → Nat
  | 0 => 0
  | k + 1 => if a.getLsbD (n - (k + 1)) then 0 else 1 + ctzFrom a k

def ctzW (a : W32) : Nat := ctzFrom a 32

/-- Bit i of the result is bit 31 − i (R140). -/
def brevW (a : W32) : W32 := a.reverse

/-- The field mask of R141. -/
def bfMask (pos : Nat) (c : W32) : W32 :=
  let len := Nat.min c.toNat (32 - pos)
  BitVec.ofNat 32 ((2 ^ len - 1) * 2 ^ pos)

def bfxW (a b c : W32) : W32 :=
  let pos := b.toNat % 32
  (a &&& bfMask pos c) >>> pos

def bfiW (d a b c : W32) : W32 :=
  let pos := b.toNat % 32
  let m := bfMask pos c
  (d &&& ~~~m) ||| ((a <<< pos) &&& m)

/-- Byte i of a word. -/
def byteOf {n : Nat} (a : BitVec n) (i : Nat) : Byte := a.extractLsb' (8 * i) 8

/-- R142. -/
def prmbByte (a b c : W32) (i : Nat) : Byte :=
  let nib := (c.extractLsb' (4 * i) 4).toNat
  let k := nib % 8
  let v := if k < 4 then byteOf a k else byteOf b (k - 4)
  if nib ≥ 8 then (if v.msb then 0xFF else 0) else v

def prmbW (a b c : W32) : W32 :=
  prmbByte a b c 3 ++ prmbByte a b c 2 ++ prmbByte a b c 1 ++ prmbByte a b c 0

/-! ### Packed elements (R55, R143, R144) -/

def halves (a : W32) : BitVec 16 × BitVec 16 := (a.extractLsb' 0 16, a.extractLsb' 16 16)

/-- An operation on the two 16-bit elements. -/
def map2 (f : BitVec 16 → BitVec 16 → BitVec 16 × Bool) (a b : W32) : W32 × Bool :=
  let r0 := f (a.extractLsb' 0 16) (b.extractLsb' 0 16)
  let r1 := f (a.extractLsb' 16 16) (b.extractLsb' 16 16)
  (r1.1 ++ r0.1, r0.2 || r1.2)

/-- An operation on the four 8-bit elements. -/
def map4 (f : Byte → Byte → Byte × Bool) (a b : W32) : W32 × Bool :=
  let r0 := f (byteOf a 0) (byteOf b 0)
  let r1 := f (byteOf a 1) (byteOf b 1)
  let r2 := f (byteOf a 2) (byteOf b 2)
  let r3 := f (byteOf a 3) (byteOf b 3)
  (r3.1 ++ r2.1 ++ r1.1 ++ r0.1, r0.2 || r1.2 || r2.2 || r3.2)

/-- The sum of the products of `k` elements of n bits (R77). -/
def dotSum (n : Nat) (ta tb : ITy) (a b : W32) : Nat → Int
  | 0 => 0
  | k + 1 => dotSum n ta tb a b k + ival ta (a.extractLsb' (n * k) n) * ival tb (b.extractLsb' (n * k) n)

/-- R77: the value written, and whether it clamps. -/
def dotW (n k : Nat) (ta tb : ITy) (a b c : W32) : W32 × Bool :=
  clampTo 32 .s (c.toInt + dotSum n ta tb a b k)

/-- The negation of every n-bit element of a word (R90). -/
def negElems (n : Nat) (a : W32) : W32 :=
  if n = 16 then (-(a.extractLsb' 16 16)) ++ (-(a.extractLsb' 0 16))
  else if n = 8 then (-(byteOf a 3)) ++ (-(byteOf a 2)) ++ (-(byteOf a 1)) ++ (-(byteOf a 0))
  else if n = 4 then
    (-(a.extractLsb' 28 4)) ++ (-(a.extractLsb' 24 4)) ++ (-(a.extractLsb' 20 4)) ++ (-(a.extractLsb' 16 4))
      ++ (-(a.extractLsb' 12 4)) ++ (-(a.extractLsb' 8 4)) ++ (-(a.extractLsb' 4 4)) ++ (-(a.extractLsb' 0 4))
  else -a

end Sys2Proof.Machine
end

