-- ==== Sys2Proof/Machine/Fp.lean ====
section
/-! DEFINITION. Exact floating-point arithmetic and its one rounding (R56 to R65, R73, R155). A finite value is a
sign, a magnitude and a power of two, so sums and products are exact before they are rounded. -/
namespace Sys2Proof.Machine

/-- A floating format (R56): exponent bits, fraction bits, bias, and whether it has infinities. -/
structure FFmt where
  eb : Nat
  fb : Nat
  bias : Int
  inf : Bool
deriving DecidableEq, Repr

def fp32 : FFmt := ⟨8, 23, 127, true⟩
def fp16 : FFmt := ⟨5, 10, 15, true⟩
def bf16 : FFmt := ⟨8, 7, 127, true⟩
def e5m2 : FFmt := ⟨5, 2, 15, true⟩
def e4m3 : FFmt := ⟨4, 3, 7, false⟩
def e2m1 : FFmt := ⟨2, 1, 1, false⟩

/-- An exact value: a NaN, a signed infinity, or (−1)^neg · m · 2^e (a signed zero when m = 0). -/
inductive FVal where
  | nan
  | inf (neg : Bool)
  | fin (neg : Bool) (m : Nat) (e : Int)
deriving DecidableEq, Repr, Inhabited

/-- The sign bit's weight. -/
def fSignBit (f : FFmt) : Nat := 2 ^ (f.eb + f.fb)
/-- The largest finite magnitude code (R56, R57). -/
def fMaxCode (f : FFmt) : Nat := if f.inf then (2 ^ f.eb - 1) * 2 ^ f.fb - 1 else 2 ^ (f.eb + f.fb) - 2
def fInfCode (f : FFmt) : Nat := (2 ^ f.eb - 1) * 2 ^ f.fb
/-- The canonical NaN (R58). -/
def fNanCode (f : FFmt) : Nat := if f.inf then fInfCode f + 2 ^ (f.fb - 1) else 2 ^ (f.eb + f.fb) - 1

/-- The value of a code (R57). -/
def fDecode (f : FFmt) (c : Nat) : FVal :=
  let neg := decide (fSignBit f ≤ c % (2 * fSignBit f))
  let mag := c % fSignBit f
  let ex := mag / 2 ^ f.fb
  let fr := mag % 2 ^ f.fb
  if f.inf && decide (fInfCode f ≤ mag) then (if mag = fInfCode f then .inf neg else .nan)
  else if !f.inf && decide (f.fb = 3) && decide (mag = 2 ^ (f.eb + f.fb) - 1) then .nan
  else if ex = 0 then .fin neg fr (1 - f.bias - f.fb)
  else .fin neg (2 ^ f.fb + fr) ((ex : Int) - f.bias - f.fb)

/-- The code of a magnitude code under a sign. -/
def fSign (f : FFmt) (neg : Bool) (mag : Nat) : Nat := if neg then fSignBit f + mag else mag

/-- Whether a truncated quotient is rounded away from zero: the quotient, the remainder and the divisor (R62). -/
def roundUp (rm : Rm) (neg : Bool) (q r d : Nat) : Bool :=
  match rm with
  | .rne => decide (d < 2 * r) || (decide (2 * r = d) && decide (q % 2 = 1))
  | .rz => false
  | .rd => neg && decide (r ≠ 0)
  | .ru => !neg && decide (r ≠ 0)

/-- The magnitude m · 2^e, m not 0, rounded to the grid of a format with the exponent range unbounded above (R62, R63):
its magnitude code, which exceeds `fMaxCode` when it overflows. -/
def fRoundMag (f : FFmt) (rm : Rm) (neg : Bool) (m : Nat) (e : Int) : Nat :=
  let ex : Int := (Nat.log2 m : Int) + e
  let emin : Int := 1 - f.bias
  let q : Int := (if ex < emin then emin else ex) - f.fb
  let k : Nat :=
    if q ≤ e then m * 2 ^ (e - q).toNat
    else
      let d := 2 ^ (q - e).toNat
      let t := m / d
      if roundUp rm neg t (m % d) d then t + 1 else t
  ((q + f.fb + f.bias - 1).toNat) * 2 ^ f.fb + k

/-- The result of arithmetic that overflows (R62): infinity or the largest finite value. -/
def fOverflow (f : FFmt) (rm : Rm) (neg : Bool) : Nat :=
  let toInf := match rm with
    | .rne => true
    | .rz => false
    | .rd => neg
    | .ru => !neg
  if toInf then fInfCode f else fMaxCode f

/-- round(x, fmt, mode) of arithmetic (R62): the code, and whether it is a NaN. -/
def fRound (f : FFmt) (rm : Rm) (v : FVal) : Nat × Bool :=
  match v with
  | .nan => (fNanCode f, true)
  | .inf neg => (fSign f neg (fInfCode f), false)
  | .fin neg 0 _ => (fSign f neg 0, false)
  | .fin neg m e =>
    let c := fRoundMag f rm neg m e
    (fSign f neg (if fMaxCode f < c then fOverflow f rm neg else c), false)

/-- A conversion (R63): the code and the flags SAT and NAN. -/
def fConvert (f : FFmt) (rm : Rm) (v : FVal) : Nat × W32 :=
  match v with
  | .nan => (fNanCode f, flNan)
  | .inf neg => if f.inf then (fSign f neg (fInfCode f), 0) else (fSign f neg (fMaxCode f), flSat)
  | .fin neg 0 _ => (fSign f neg 0, 0)
  | .fin neg m e =>
    let c := fRoundMag f rm neg m e
    if fMaxCode f < c then (fSign f neg (fMaxCode f), flSat) else (fSign f neg c, 0)

def fNeg : FVal → FVal
  | .nan => .nan
  | .inf n => .inf !n
  | .fin n m e => .fin (!n) m e

/-- The signed magnitude at the scale 2^e, e not above the value's own. -/
def fScaled (neg : Bool) (m : Nat) (e e0 : Int) : Int :=
  let k : Int := (m * 2 ^ (e - e0).toNat : Nat)
  if neg then -k else k

/-- The exact sum with the zero signs of R62. -/
def fAdd (rm : Rm) (a b : FVal) : FVal :=
  match a, b with
  | .nan, _ => .nan
  | _, .nan => .nan
  | .inf x, .inf y => if x = y then .inf x else .nan
  | .inf x, _ => .inf x
  | _, .inf y => .inf y
  | .fin na ma ea, .fin nb mb eb =>
    if ma = 0 ∧ mb = 0 ∧ na = nb then .fin na 0 0
    else
      let e := if ea ≤ eb then ea else eb
      let s := fScaled na ma ea e + fScaled nb mb eb e
      if s = 0 then .fin (decide (rm = .rd)) 0 0
      else .fin (decide (s < 0)) s.natAbs e

/-- The exact product (R155). -/
def fMul (a b : FVal) : FVal :=
  match a, b with
  | .nan, _ => .nan
  | _, .nan => .nan
  | .inf x, .inf y => .inf (x != y)
  | .inf x, .fin n m _ => if m = 0 then .nan else .inf (x != n)
  | .fin n m _, .inf y => if m = 0 then .nan else .inf (n != y)
  | .fin na ma ea, .fin nb mb eb => .fin (na != nb) (ma * mb) (ea + eb)

/-- The exact sum of a list of products (R73, R342): NaN on a NaN or on infinities of both signs; an exactly zero sum is
−0 only when every term is −0. -/
def fSum : List FVal → FVal
  | [] => .fin true 0 0
  | t :: l => fAdd .rne t (fSum l)

/-- An FP32 operation's result and the NAN flag. -/
def f32Out (rm : Rm) (v : FVal) : W32 × W32 :=
  let r := fRound fp32 rm v
  (BitVec.ofNat 32 r.1, flIf r.2 flNan)

def f32Val (a : W32) : FVal := fDecode fp32 a.toNat

def fadd32 (rm : Rm) (a b : W32) : W32 × W32 := f32Out rm (fAdd rm (f32Val a) (f32Val b))
def fsub32 (rm : Rm) (a b : W32) : W32 × W32 := f32Out rm (fAdd rm (f32Val a) (fNeg (f32Val b)))
def fmul32 (rm : Rm) (a b : W32) : W32 × W32 := f32Out rm (fMul (f32Val a) (f32Val b))
def ffma32 (rm : Rm) (a b c : W32) : W32 × W32 := f32Out rm (fAdd rm (fMul (f32Val a) (f32Val b)) (f32Val c))

/-- Whether an FP32 code is a NaN. -/
def isNan32 (a : W32) : Bool := decide (0x7F800000 < a.toNat % 0x80000000)

/-- The order of non-NaN FP32 codes with −0 below +0 (R65, R343). -/
def fOrd32 (a : W32) : Int :=
  let m : Int := (a.toNat % 0x80000000 : Nat)
  if a.msb then -m - 1 else m

/-- The value of a non-NaN FP32 code on a scale where −0 equals +0 (R157). -/
def fKey32 (a : W32) : Int :=
  let m : Int := (a.toNat % 0x80000000 : Nat)
  if a.msb then -m else m

def nan32 : W32 := 0x7FC00000

/-- fmin and fmax (R65). -/
def fmin32 (a b : W32) : W32 × W32 :=
  if isNan32 a && isNan32 b then (nan32, flNan)
  else if isNan32 a then (b, 0)
  else if isNan32 b then (a, 0)
  else (if fOrd32 b < fOrd32 a then b else a, 0)
def fmax32 (a b : W32) : W32 × W32 :=
  if isNan32 a && isNan32 b then (nan32, flNan)
  else if isNan32 a then (b, 0)
  else if isNan32 b then (a, 0)
  else (if fOrd32 a < fOrd32 b then b else a, 0)

/-- R156. -/
def fabs32 (a : W32) : W32 × W32 := if isNan32 a then (nan32, flNan) else (a &&& 0x7FFFFFFF, 0)

/-- R157. -/
def fCmp32 (c : FCond) (a b : W32) : Bool :=
  let un := isNan32 a || isNan32 b
  let x := fKey32 a
  let y := fKey32 b
  match c with
  | .eq => !un && decide (x = y)
  | .ne => un || decide (x ≠ y)
  | .lt => !un && decide (x < y)
  | .le => !un && decide (x ≤ y)
  | .gt => !un && decide (y < x)
  | .ge => !un && decide (y ≤ x)
  | .un => un
  | .ord => !un

/-- The class bit of an FP32 code (R158). -/
def fClassBit (a : W32) : Nat :=
  let neg := a.msb
  let m := a.toNat % 0x80000000
  if 0x7F800000 < m then 0
  else if m = 0x7F800000 then (if neg then 1 else 2)
  else if m = 0 then (if neg then 3 else 4)
  else if m < 0x00800000 then (if neg then 5 else 6)
  else (if neg then 7 else 8)

/-- The integer a finite value rounds to (R64, R159). -/
def fToInt (rm : Rm) (neg : Bool) (m : Nat) (e : Int) : Int :=
  let k : Nat :=
    if 0 ≤ e then m * 2 ^ e.toNat
    else
      let d := 2 ^ (-e).toNat
      let t := m / d
      if roundUp rm neg t (m % d) d then t + 1 else t
  if neg then -(k : Int) else k

/-- R159. -/
def frnd32 (rm : Rm) (a : W32) : W32 × W32 :=
  match f32Val a with
  | .nan => (nan32, flNan)
  | .inf _ => (a, 0)
  | .fin neg m e =>
    if 0 ≤ e then (a, 0)
    else
      let k := (fToInt rm neg m e).natAbs
      (BitVec.ofNat 32 (fRound fp32 .rne (.fin neg k 0)).1, 0)

/-- An element-wise operation of a packed 16-bit format (R160). -/
def fPacked (f : FFmt) (op : FVal → FVal → FVal → FVal) (a b c : W32) : W32 × W32 :=
  let el (i : Nat) : Nat × Bool :=
    fRound f .rne (op (fDecode f (a.extractLsb' (16 * i) 16).toNat) (fDecode f (b.extractLsb' (16 * i) 16).toNat)
      (fDecode f (c.extractLsb' (16 * i) 16).toNat))
  let r0 := el 0
  let r1 := el 1
  (BitVec.ofNat 16 r1.1 ++ BitVec.ofNat 16 r0.1, flIf (r0.2 || r1.2) flNan)

def opAdd (a b _c : FVal) : FVal := fAdd .rne a b
def opMul (a b _c : FVal) : FVal := fMul a b
def opFma (a b c : FVal) : FVal := fAdd .rne (fMul a b) c

/-! ### Formats by code (R61) -/

/-- A floating format of a format code. -/
def fmtFloat : Fmt → Option FFmt
  | .f32 => some fp32
  | .f16 => some fp16
  | .bf16 => some bf16
  | .e4m3 => some e4m3
  | .e5m2 => some e5m2
  | _ => none

/-- The element width of a format. -/
def fmtBits : Fmt → Nat
  | .f32 | .s32 => 32
  | .f16 | .bf16 | .s16 => 16
  | .e4m3 | .e5m2 | .s8 | .z8 => 8
  | .n4x | .s4 => 4

/-- The signedness of an integer format. -/
def fmtTy : Fmt → ITy
  | .z8 => .z
  | _ => .s

/-- A source element of a conversion, from the low bits of an operand (R162): its exact value and whether its format is
floating. -/
def cvtSource (s : Fmt) (x : W32) : FVal :=
  match fmtFloat s with
  | some f => fDecode f (x.toNat % 2 ^ fmtBits s)
  | none =>
    let v := ival (fmtTy s) (x.extractLsb' 0 (fmtBits s))
    .fin (decide (v < 0)) v.natAbs 0

/-- A converted element in the target's encoding, and the flags (R63, R64). -/
def cvtElem (t s : Fmt) (rm : Rm) (x : W32) : Nat × W32 :=
  let v := cvtSource s x
  match fmtFloat t with
  | some f => fConvert f rm v
  | none =>
    let n := fmtBits t
    let clamp (k : Int) : Nat × W32 :=
      let r := clampTo n (fmtTy t) k
      (r.1.toNat, flIf r.2 flSat)
    match v with
    | .nan => (0, flNan)
    | .inf neg => ((truncInt n (if neg then ilo n (fmtTy t) else ihi n (fmtTy t))).toNat, flSat)
    | .fin neg m e => clamp (fToInt rm neg m e)

/-- R163: the register written from the converted a and b and the old d. -/
def cvtWord (t s : Fmt) (rm : Rm) (old a b : W32) : W32 × W32 :=
  let ra := cvtElem t s rm a
  let rb := cvtElem t s rm b
  let n := fmtBits t
  if n = 32 then (BitVec.ofNat 32 ra.1, ra.2)
  else if n = 16 then (BitVec.ofNat 32 (rb.1 * 2 ^ 16 + ra.1), ra.2 ||| rb.2)
  else (BitVec.ofNat 32 ((rb.1 * 2 ^ n + ra.1) * 2 ^ (32 - 2 * n) + old.toNat / 2 ^ (2 * n)), ra.2 ||| rb.2)

/-- The AMAX fold of a source value (R70): the new AMAX and AMAXNAN. -/
def amaxFold (amax : W32) (v : FVal) : W32 × W32 :=
  match v with
  | .nan => (amax, flAmaxNan)
  | _ =>
    let x := (BitVec.ofNat 32 (fRound fp32 .rne v).1) &&& 0x7FFFFFFF
    (if isNan32 amax then x else if fOrd32 amax < fOrd32 x then x else amax, 0)

/-! ### Unpacking (R164) -/

/-- Source format, target format and number of source elements. -/
def unpkFmts : UnpkKind → Fmt × Fmt × Nat
  | .f32f16 => (.f16, .f32, 2)
  | .f32bf16 => (.bf16, .f32, 2)
  | .f16e4m3 => (.e4m3, .f16, 4)
  | .bf16e4m3 => (.e4m3, .bf16, 4)
  | .f16e5m2 => (.e5m2, .f16, 4)
  | .bf16e5m2 => (.e5m2, .bf16, 4)
  | .s16s8 => (.s8, .s16, 4)
  | .z16z8 => (.z8, .s16, 4)
  | .s8s4 => (.s4, .s8, 8)

def unpkFold (s t : Fmt) (a : W32) : Nat → Nat × W32
  | 0 => (0, 0)
  | k + 1 =>
    let r := unpkFold s t a k
    let n := fmtBits t
    let x := cvtElem t s .rne (a >>> (fmtBits s * k))
    (r.1 + x.1 * 2 ^ (n * k), r.2 ||| x.2)

/-- The 64-bit result and the flags. -/
def unpkWord (k : UnpkKind) (a : W32) : W64 × W32 :=
  let f := unpkFmts k
  let r := unpkFold f.1 f.2.1 a f.2.2
  (BitVec.ofNat 64 r.1, r.2)

/-! ### N4X blocks (R59, R60, R66) -/

/-- The value of an N4X element (R60): it has no −0. -/
def n4xVal (scale extra : Byte) (c : Nat) : FVal :=
  if scale = 0xFF then .nan
  else
    let k : Int := (scale.toNat : Int) - 127
    let v := if c = 8 then fDecode e4m3 extra.toNat else fDecode e2m1 c
    match v with
    | .fin n m e => .fin (n && decide (m ≠ 0)) m (e + k)
    | w => w

/-- |a − b| of two finite values on the scale 2^e, e not above theirs. -/
def fDist (a b : FVal) (e0 : Int) : Nat :=
  match a, b with
  | .fin na ma ea, .fin nb mb eb => (fScaled na ma ea e0 - fScaled nb mb eb e0).natAbs
  | _, _ => 0

/-- The codes of the E2M1 candidates, those with bit 0 clear first. -/
def n4xCodes : List Nat := [0, 2, 4, 6, 10, 12, 14, 1, 3, 5, 7, 9, 11, 13, 15]

/-- nearest(y) of R66: strictly nearer candidates win, so E2M1 codes stand before 0b1000 and even codes before odd. -/
def n4xNearest (y extra : FVal) : Nat :=
  let e0 : Int := match y with
    | .fin _ _ e => if e < -20 then e else -20
    | _ => -20
  let cands := n4xCodes.map (fun c => (c, fDist y (fDecode e2m1 c) e0)) ++ [(8, fDist y extra e0)]
  (cands.foldl (fun best c => if c.2 < best.2 then c else best) (0, fDist y (fDecode e2m1 0) e0)).1

/-- Infinite elements become the largest finite value (R66). -/
def n4xClip (v : FVal) : FVal :=
  match v with
  | .inf n => .fin n (2 ^ 24 - 1) 104
  | w => w

/-- The FP32 magnitude order of finite values given as codes. -/
def n4xMag (a : W32) : Nat := a.toNat % 0x80000000

/-- The block of 32 FP32 values (R66): its 18 bytes and the flags. -/
def n4xEncode (x : List W32) : List Byte × W32 :=
  if x.any isNan32 then ((List.replicate 16 0) ++ [0xFF, 0x7F], flNan)
  else
    let infs := x.any fun a => decide (n4xMag a = 0x7F800000)
    let vals := x.map fun a => if n4xMag a = 0x7F800000 then (if a.msb then 0xFF7FFFFF else 0x7F7FFFFF) else a
    let amax := vals.foldl (fun m a => if m < n4xMag a then n4xMag a else m) 0
    let fl := flIf infs flSat
    if amax = 0 then (List.replicate 18 0, fl)
    else
      let am := f32Val (BitVec.ofNat 32 amax)
      let lg : Int := match am with
        | .fin _ m e => (Nat.log2 m : Int) + e
        | _ => 0
      let s := satInt (lg - 2 + 127) 0 254
      let k : Int := s - 127
      let down (a : W32) : FVal := match f32Val a with
        | .fin n m e => .fin n m (e - k)
        | w => w
      let top := (vals.find? fun a => decide (n4xMag a = amax)).getD 0
      let extra := (fConvert e4m3 .rne (down top)).1
      let ev := fDecode e4m3 extra
      let codes := vals.map fun a => n4xNearest (down a) ev
      let pair (i : Nat) : Byte := BitVec.ofNat 8 (codes.getD (2 * i) 0 + 16 * codes.getD (2 * i + 1) 0)
      ((List.range 16).map pair ++ [BitVec.ofNat 8 s.toNat, BitVec.ofNat 8 extra], fl)

end Sys2Proof.Machine
end

