-- ==== Sys2Proof/Config.lean ====
section
/-! DEFINITION. What an implementation or the world fixes, and the free values: constants with no body, so that no
proof can see a value of them. Each is named in the assumption log. -/
namespace Sys2Proof.Config

/-! ### Time and the order of events (R450, R348, R35): notes/assumptions/1.md -/

/-- The package time, in ns, that passes at the model's n-th idle step. -/
opaque elapsed : Nat → Nat
/-- The event that happens at the model's n-th idle step. -/
opaque nextEvent : Nat → Instr

/-- The general core, if any, that issues at the model's n-th idle step. -/
opaque nextHart : Nat → Option Nat

/-! ### Straps and fuses -/

/-- The strap input BOOTSRC (R24). -/
opaque bootsrc : Bool
/-- The fused pod id (R25). -/
opaque podId : BitVec 16
/-- The unique device secret and the fused certificates (R407). -/
opaque uds : List Byte
opaque certificates : List Byte
/-- The Mellyn firmware key and the Rowan ROM's image (R409, R415). -/
opaque firmwareKey : List Byte
opaque romImage : List Byte
/-- Whether blowing a fuse bit verifies (R414): counter, pair, bit, attempt. -/
opaque fuseVerifies : Nat → Nat → Bool → Nat → Bool
/-- Whether a CLAIM's signature passes under the identity key of the package that sends it (R26, R27). -/
opaque claimOk : (pod : BitVec 16) → (nonce : BitVec 64) → (sig : List Byte) → Bool
/-- How long the late launch begun at the model's n-th step takes, in ns (R411). -/
opaque llaunchTime : Nat → Nat

/-! ### Cryptography (R398, R402, R405, R407, R412, R415): outside standards, uninterpreted -/

opaque sha512 : List Byte → List Byte
opaque xtsEncrypt : (kd kt tweak : List Byte) → List Byte → List Byte
opaque xtsDecrypt : (kd kt tweak : List Byte) → List Byte → List Byte
opaque cmac : (ki : List Byte) → List Byte → List Byte
opaque hkdf : (ikm salt info : List Byte) → List Byte
opaque ed25519Sign : (seed : List Byte) → List Byte → List Byte
opaque ed25519Public : (seed : List Byte) → List Byte
opaque ed25519Verify : (key : List Byte) → List Byte → List Byte → Bool
opaque gcmSeal : (key iv : List Byte) → List Byte → List Byte
opaque gcmOpen : (key iv : List Byte) → List Byte → Option (List Byte)
/-- The n-th 32 bytes of Rowan's CTR_DRBG (R401). -/
opaque drbg : Nat → List Byte
/-- The exchange data of an SPDM responder, and the key of the session that it opens (R408). -/
opaque spdmKeyExchange : Nat → List Byte → List Byte
opaque spdmSessionKey : Nat → List Byte → List Byte

/-! ### Values the manual leaves open -/

/-- The agent enclave of a partition (R377), which no rule describes further: the VA of the frame at PA 0 in units of
2 GiB (i = 0), its threads, kick registers, kick page and entry (i = 1 to 4), and its measurement. -/
opaque agentField : (p i : Nat) → Nat
opaque agentMeas : Nat → List Byte

/-- The approximations of the special-function unit, used where they meet the bounds of R167. -/
opaque ex2 : BitVec 32 → BitVec 32
opaque lg2 : BitVec 32 → BitVec 32
opaque sin : BitVec 32 → BitVec 32
opaque cos : BitVec 32 → BitVec 32
/-- Which of two values written to one byte in one superstep remains (R219): true keeps the earlier. -/
opaque keepEarlier : Nat → Bool
/-- An item of a work queue whose items R330 leaves unspecified, by the model's step counter and the thread. -/
opaque freeItem : (n t : Nat) → Nat
/-- The budget quantum Hazel gives a core under an effective limit in watts (R296). -/
opaque quantum : (core limit : Nat) → BitVec 32
/-- Which model state Rowan's exploration of a protocol image counts the i-th state met as (R391, check 8): the manual does not say
what makes two model states one. -/
opaque modelState : (img : List Byte) → (i : Nat) → Nat

/-- The 64-byte block, if any, that takes an uncorrectable ECC error at the model's n-th idle step (R260); numbers from 2^50 name the
granules of the cores' scratchpads, 2^15 a core. -/
opaque eccError : Nat → Option Nat

/-- The piece, counted from 0 among those not yet performed, with which a copy unit goes on at the model's n-th step (R247). -/
opaque pieceAhead : Nat → Nat

/-- Byte i of an image to which the spec gives no layout, as written at the model's n-th step: the dirty state of a swapped-out
partition (R422) and the context of a hart (R411, R412). -/
opaque swapByte : (n i : Nat) → BitVec 8

/-- Whether the access performed at the model's n-th step fetches its line from the tier (R254, R431): what a meadow store
holds of clean lines is not architectural. -/
opaque lineFetched : Nat → Bool

end Sys2Proof.Config
end

