-- ==== Sys2Proof/Machine/Maps.lean ====
section
/-! DEFINITION. Sparse data held as lists of (key, value) pairs in one canonical form: keys strictly rising.
The memories add a second condition: no pair holds the value an unlisted key reads as. -/
namespace Sys2Proof.Machine

/-- Sparse data by number. -/
abbrev SMap (α : Type) := List (Nat × α)

/-- The value listed at a key. -/
def smFind? {α : Type} : SMap α → Nat → Option α
  | [], _ => none
  | (k, v) :: m, a => if a = k then some v else smFind? m a

/-- The value at a key, `d` where none is listed. -/
def smGet {α : Type} (d : α) (m : SMap α) (a : Nat) : α := (smFind? m a).getD d

/-- Lists a value at a key, keys rising. -/
def smPut {α : Type} : SMap α → Nat → α → SMap α
  | [], a, v => [(a, v)]
  | (k, w) :: m, a, v =>
    if a < k then (a, v) :: (k, w) :: m
    else if a = k then (a, v) :: m
    else (k, w) :: smPut m a v

/-- Unlists a key. -/
def smDel {α : Type} : SMap α → Nat → SMap α
  | [], _ => []
  | (k, w) :: m, a => if a = k then smDel m a else (k, w) :: smDel m a

/-- Writes a value where unlisted keys read as `d`: writing `d` unlists the key. -/
def smSet {α : Type} [DecidableEq α] (d : α) (m : SMap α) (a : Nat) (v : α) : SMap α :=
  if v = d then smDel m a else smPut m a v

/-- Changes the value at a key. -/
def smMod {α : Type} (d : α) (m : SMap α) (a : Nat) (f : α → α) : SMap α := smPut m a (f (smGet d m a))

/-- Keeps the pairs whose key passes a test. -/
def smFilter {α : Type} (m : SMap α) (p : Nat → Bool) : SMap α := m.filter fun c => p c.1

/-- Keys strictly rise from above `lo`. -/
def smRisingFrom {α : Type} : Nat → SMap α → Bool
  | _, [] => true
  | lo, (k, _) :: m => decide (lo ≤ k) && smRisingFrom (k + 1) m

/-- The canonical form of a memory: keys strictly rising, no value `d` listed. -/
def smWf {α : Type} [DecidableEq α] (d : α) (m : SMap α) : Bool :=
  smRisingFrom 0 m && m.all fun c => decide (c.2 ≠ d)

/-- A set of numbers, in rising order without repeats. -/
abbrev NSet := List Nat

def nsAdd : NSet → Nat → NSet
  | [], a => [a]
  | k :: m, a => if a < k then a :: k :: m else if a = k then k :: m else k :: nsAdd m a

def nsDel (m : NSet) (a : Nat) : NSet := m.filter fun k => decide (k ≠ a)

def nsHas (m : NSet) (a : Nat) : Bool := m.any fun k => decide (k = a)

/-- The first `some` of a function over a list. -/
def firstSome {α β : Type} (f : α → Option β) : List α → Option β
  | [] => none
  | a :: l => match f a with
    | some b => some b
    | none => firstSome f l

/-- The smallest element under a key, the earliest among equals. -/
def minBy {α : Type} (f : α → Nat) : List α → Option α
  | [] => none
  | a :: l => match minBy f l with
    | none => some a
    | some b => if f b < f a then some b else some a

/-- Numbers `lo, lo+1, …` (`n` of them). -/
def rangeFrom (lo n : Nat) : List Nat := (List.range n).map (lo + ·)

/-- The bytes of a number, least significant first (R1). -/
def bytesOfNat : Nat → Nat → List Byte
  | 0, _ => []
  | n + 1, x => BitVec.ofNat 8 x :: bytesOfNat n (x / 256)

/-- The number a list of bytes denotes, least significant first (R1). -/
def natOfBytes : List Byte → Nat
  | [] => 0
  | b :: l => b.toNat + 256 * natOfBytes l

/-- Bits hi down to lo of a number. -/
def bitsOf (x hi lo : Nat) : Nat := (x / 2 ^ lo) % 2 ^ (hi + 1 - lo)

/-- The list with element `i` replaced. -/
def setAt {α : Type} (l : List α) (i : Nat) (v : α) : List α := l.set i v

end Sys2Proof.Machine
end

