-- ==== Sys2Proof/Machine/CoreTypes.lean ====
section
/-! DEFINITION. The state of the accelerator cores as plain data: threads, warps, teams, groves, the scratchpad,
the typed buffers, the matrix array, the engine queue and the slot rings. -/
namespace Sys2Proof.Machine

/-! ### Threads (R114, R115, R117, R194) -/

/-- A pending late fault (R194): cause, KIND, VA and the origin of R195. -/
structure PendFault where
  code : Nat
  kind : Nat
  va : W64
  originVa : W64
  dst : W32
  bytes : W32
  more : Bool
deriving DecidableEq, Repr, Inhabited

/-- What a taken trap writes into the trap record (R193). `snap` is TSNAP0 to 3 of a late report. -/
structure TrapInfo where
  code : Nat
  kind : Nat
  late : Bool
  more : Bool
  tepc : W64
  tva : W64
  snap : Option (W32 × W32 × W32 × W32)
deriving DecidableEq, Repr, Inhabited

inductive MaintKind where | clean | inval | flush
deriving DecidableEq, Repr, Inhabited

/-- The memory operations a thread has issued and that have not performed (R236, R237, R240, R260). `dst` lists the w
registers still to be written. -/
inductive MopKind where
  | load (w : LdW) (rlx : Bool) (dst : List Nat)
  | sld (dst : Nat)
  | store (bytes : List Byte)
  | ldf (take : Bool) (dst : List Nat)
  | stf (wait : Bool) (bytes : List Byte)
  | atomic (op : AtomOp) (w64 : Bool) (ord : AtomOrd) (sc : Scope) (dst : List Nat) (val cmp : Nat)
  | red (op : AtomOp) (w64 : Bool) (ord : AtomOrd) (sc : Scope) (val : Nat)
  | maint (k : MaintKind) (len : Nat)
  /-- An `enq` of an item at a header (R331); the operation's address is that of the page it needs next. -/
  | enq (hdr : Nat) (item : List Byte)
deriving DecidableEq, Repr, Inhabited

/-- How far an operation has come: free to perform, waiting for a walk, waiting for `fqack` (R47), waiting for the home
(R226), or waiting for a granule to fill or to empty (R222). -/
inductive OpState where | ready | walking | page | home | blocked
deriving DecidableEq, Repr, Inhabited

/-- One memory operation of a thread. `pc` is its word; `la` the words that may still issue before it completes (R93);
`step` the superstep a superstep write belongs to (R221). -/
structure MemOp where
  kind : MopKind
  glob : Bool
  addr : Nat
  pc : W64
  la : Nat
  step : Nat
  st : OpState
  /-- The source values a word of several destinations leaves in TSNAP while it waits (R198). -/
  snap : List W32 := []
  /-- Whether it has waited on a page, its source values in TSNAP (R198). -/
  waited : Bool := false
  /-- The issue it belongs to, by the model's step counter: the lanes of one word share it (R262, R272). -/
  seq : Nat := 0
deriving DecidableEq, Repr, Inhabited

/-- A register line (R118): of the w registers of a thread, of a warp block, of a lane record, or the team block's. -/
inductive RegLine where
  | w (t i : Nat)
  | sr (w i : Nat)
  | lane (t i : Nat)
  | team (k : Nat)
deriving DecidableEq, Repr, Inhabited

/-- Why a thread waits (R47); in a register-cache miss, the lines that its instruction needs. -/
inductive Wait where
  | deq (hdr dst : Nat) (org : W64)
  | await (ring slot dst : Nat)
  | bar (b phase : Nat)
  | barPrev (b phase : Nat) (andWait : Bool)
  | mbar (sa gen : Nat) (org : W64)
  | svc (tag : Option Nat) (dst : Nat) (buf : Nat) (func : W32)
  | rcall (dst : Nat)
  | page (asid page kind : Nat) (walking : Bool)
  | line (need : List RegLine)
  | nap (deadline mask seen dst : Nat)
  | rgrow (n : Nat) (seq : Nat)
deriving DecidableEq, Repr, Inhabited

/-- A page a waiting word needs (R47): its walk is under way, or it waits for `fqack`. -/
structure PageWait where
  asid : Nat
  page : Nat
  kind : Nat
  walking : Bool
  /-- The VA at which the page was met. -/
  va : Nat := 0
deriving DecidableEq, Repr, Inhabited

/-- A thread: its registers, its lane record (R117) and the operations in flight. -/
structure Thread where
  pc : W64 := 0
  regs : SMap W32 := []
  poison : NSet := []
  nregs : Nat := 8
  preds : BitVec 7 := 0
  lc0 : W32 := 0
  lc1 : W32 := 0
  lc2 : W32 := 0
  tcause : W32 := 0
  tepc : W64 := 0
  tva : W64 := 0
  tsnap0 : W32 := 0
  tsnap1 : W32 := 0
  tsnap2 : W32 := 0
  tsnap3 : W32 := 0
  pend : Option PendFault := none
  exited : Bool := true
  trapped : Bool := false
  handler : Bool := false
  returned : Bool := false
  trapPend : Option TrapInfo := none
  wait : Option Wait := none
  /-- The page that a thread in another wait needs before that wait can end. -/
  pageWait : Option PageWait := none
  waitCount : Nat := 0
  /-- Whether `fqack` has denied the page of the thread's next word (R171, R213), and the VA of a data page of its word that
  it has denied. -/
  denied : Bool := false
  refused : Option Nat := none
  /-- Whether the `deq` it waits in has waited on a page, its source values in TSNAP (R198). -/
  snapped : Bool := false
  mq : List MemOp := []
  /-- For each barrier, one more than the phase of the thread's last arrival, 0 for none (R277). -/
  arr : SMap Nat := []
  /-- Resident and dirty register lines (R118, R119), and those of its lane record (R117, R118). -/
  lines : BitVec 32 := 0
  dirty : BitVec 32 := 0
  rlines : BitVec 4 := 0
  rdirty : BitVec 4 := 0
deriving DecidableEq, Repr, Inhabited

/-! ### Warps (R114, R115, R178, R316, R417) -/

/-- A loop entry of a warp slot (R178): bound to a start and an end, or unbound; with the words its buffer has fetched. -/
structure LoopEntry where
  bound : Option (W64 × W64)
  words : SMap W64
deriving DecidableEq, Repr, Inhabited

structure Warp where
  bind : BitVec 128 := 0
  s : SMap W64 := []
  spoison : NSet := []
  flags : W32 := 0
  amax : W32 := 0
  tskid : W32 := 0
  loops : SMap LoopEntry := []
  openCard : Option Nat := none
  /-- The instant, in the model's own steps, at which it last issued or became ready (R44). -/
  since : Nat := 0
  yieldUntil : Nat := 0
  /-- The model step at which its next word was found to stall (R44): its operands are not available in that step. -/
  stall : Option Nat := none
  stopped : Bool := false
  skid : Nat := 0
  reporter : Bool := false
  /-- The resident and dirty lines of its warp block: sixteen of s registers, and that of FLAGS, AMAX, TSKID and the s poison
  map (R117, R118). -/
  slines : BitVec 17 := 0
  sdirty : BitVec 17 := 0
deriving DecidableEq, Repr, Inhabited

/-! ### Rings (R324) -/

inductive SlotSt where
  | claimed
  | filled (fault : Bool)
  | taken
  | released
deriving DecidableEq, Repr, Inhabited

structure Ring where
  sz : Nat := 0
  ln : Nat := 0
  base : Nat := 0
  aptr : Nat := 0
  rptr : Nat := 0
  wptr : Nat := 0
  slots : SMap SlotSt := []
deriving DecidableEq, Repr, Inhabited

/-! ### Matrix unit state (R282, R283) -/

/-- A tile: its owner's team slot, its token (`unit` or THREADS) and its element format. -/
structure Tile where
  owner : Nat
  unit : Bool
  s32 : Bool
deriving DecidableEq, Repr, Inhabited

/-- A class 0xB word that has not completed (R290), which names a record or a tile; or a `qsub` whose packet waits (R356): for
its ring's next slot, then for room in the stack's admission buffer; or an `rinit` whose ring is still named (R325). -/
inductive MatOp where
  | rsv (k : Nat)
  | unrsv (k : Nat)
  | acq (t : Nat)
  | qsub (pkt : List Byte) (stack dst thread : Nat) (pc : W64) (slot : Option Nat)
  | rinit (q base sz ln : Nat)
deriving DecidableEq, Repr, Inhabited

structure MatPend where
  op : MatOp
  threads : NSet
  /-- The words that each of its threads may still issue (R93). -/
  la : SMap Nat
  /-- The queue position before which jobs are earlier (R289). -/
  order : Nat
deriving DecidableEq, Repr, Inhabited

/-! ### Engine queue (R308 to R323, R291) -/

structure LaneXfer where
  dst : W64
  src : W64
  n : Nat
deriving DecidableEq, Repr, Inhabited

inductive JobState where | queued | running | suspended | held
deriving DecidableEq, Repr, Inhabited

inductive JobKind where
  | copy
  | zacc (t : Nat)
  | mma (t ka kb a0 b0 n : Nat)
deriving DecidableEq, Repr, Inhabited

/-- A job of an engine queue. An open card (R316) has `posted` false; `card` is its closing record (R310). `offset` is
the progress offset of the hop `hop`; `done` counts k-steps of a matrix job. `slots` lists the ring slot claimed at
each hop. `lane` and `pc` say where a late fault of the job arises (R323). -/
structure Job where
  num : Nat
  tslot : Nat
  wslot : Nat
  lane : Nat
  pc : W64
  posted : Bool
  order : Nat
  kind : JobKind
  state : JobState
  card : List Byte
  xfers : List LaneXfer
  ncpy : Nat
  offset : Nat
  hop : Nat
  slots : SMap Nat
  fcode : Nat
  done : Nat
  faulted : Option (Nat × W64)
  waitPage : Option (Nat × Nat × Bool)
  landed : Bool
  /-- The flags a matrix job has raised (R68), and whether a copy waits for the home (R226, R227). -/
  fl : W32 := 0
  atHome : Bool := false
  /-- The grains whose reading and writing the homes have granted; the card as posted (R319); the last hop that was
  delivered (R321). -/
  rdG : NSet := []
  wrG : NSet := []
  card0 : List Byte := []
  fromHop : Nat := 0
  /-- The VA a job that needs a page met it at (R322). -/
  waitVa : Nat := 0
  /-- Source bytes that have been read and not yet written, by progress offset, and the pieces beyond the progress offset
  that have performed (R234, R247). -/
  rbuf : SMap Byte := []
  ahead : NSet := []
  /-- Whether the request it waits for is about a piece beyond the progress offset, whose refusal comes to nothing yet. -/
  early : Bool := false
deriving DecidableEq, Repr, Inhabited

/-! ### Translation cache entries (R364) -/

structure TlbEntry where
  asid : Nat
  vpn : Nat
  bits : Nat
  pa : Nat
  r : Bool
  w : Bool
  x : Bool
  mt : Nat
  owner : Nat
  ver : Nat
  key : Nat
deriving DecidableEq, Repr, Inhabited

/-! ### Teams and groves (R34 to R37, R51) -/

structure Team where
  live : Bool := false
  grove : Nat := 0
  tnum : Nat := 0
  asid : Nat := 0
  encl : Nat := 0
  part : Nat := 0
  priv : Nat := 0
  prio : Nat := 0
  warps : Nat := 0
  wslots : List Nat := []
  rings : Nat := 0
  step : Nat := 0
  plain : Nat := 0
  spBase : Nat := 0
  quota : Nat := 0
  img : Nat := 0
  imgSize : Nat := 0
  tvec : W64 := 0
  arms : W32 := 0
  join : W64 := 0
  kick : Nat := 0
  placed : Nat := 0
  bars : SMap Nat := []
  recs : SMap (BitVec 128) := []
  ringRecs : SMap Ring := []
  matPend : List MatPend := []
  qseq : W32 := 0
  qnext : W32 := 0
  halted : Bool := false
  demoted : Bool := false
  ended : Bool := false
  /-- The RUN bits, by warp, that a pre-emption has changed and that wait for a team halt to stop every warp (R50), and
  whether the team block's line is resident, and dirty (R118). -/
  runHeld : SMap Bool := []
  tline : Bool := false
  tdirty : Bool := false
  /-- The register reservation that a team which has been ended keeps until its retirement (R123). -/
  keeps : Nat := 0
  joinWait : Option Bool := none
  charge : W64 := 0
deriving DecidableEq, Repr, Inhabited

/-- A superstep write issued after its thread's arrival, held until the swap (R221). -/
structure HeldWrite where
  thread : Nat
  step : Nat
  core : Nat
  tslot : Nat
  off : Nat
  bytes : List Byte
deriving DecidableEq, Repr, Inhabited

structure Grove where
  teams : List Nat
  gw : Nat
  gh : Nat
  gx : Nat
  gy : Nat
  gridw : Nat
  gridh : Nat
  meadow : Nat
  gPhase : Nat
  stepPhase : Nat
  held : List HeldWrite
deriving DecidableEq, Repr, Inhabited

/-! ### Cores (R6, R115, R214, R294, R419) -/

inductive ArrayPower where | off | waiting | ramping | on
deriving DecidableEq, Repr, Inhabited

/-- A waiting `rgrow` (R122, R124): the threads of one issue, each with the register count that it asks for. -/
structure GrowReq where
  asks : SMap Nat
  tslot : Nat
  seq : Nat
deriving DecidableEq, Repr, Inhabited

structure Core where
  up : Bool := false
  power : ArrayPower := .off
  budget : W32 := 0
  quantum : Nat := 0
  /-- The quantum Hazel last wrote (R411). -/
  hazelQ : Nat := 0
  sp : SMap Byte := []
  spWritten : NSet := []
  /-- Who wrote each byte of a shadow half in the running step (R219). -/
  spBy : SMap Nat := []
  spFull : NSet := []
  /-- Granules of the scratchpad with an uncorrectable error (R260). -/
  spEcc : NSet := []
  granWait : List (Nat × Nat) := []
  /-- The 4 KiB pages of the scratchpad, AB, WB and CB (kind · 2^20 + page) that have been written since their team came to the
  core (R422). -/
  dirtyPg : NSet := []
  ab : SMap Byte := []
  wb : SMap Byte := []
  cb : SMap Byte := []
  tiles : SMap Tile := []
  jobs : List Job := []
  order : Nat := 0
  liveTile : Option Nat := none
  running : Option Nat := none
  kSince : Nat := 0
  lastA : List Nat := []
  lastB : List Nat := []
  /-- When the array was last fed, and for how many cycles (R293, R295). -/
  fedAt : Nat := 0
  fedFor : Nat := 0
  passed : SMap Nat := []
  gained : SMap Nat := []
  /-- Translations (R364): of each issue slot, of the core's second level, and of the copy unit. -/
  slotTlb : SMap (List TlbEntry) := []
  tlb : List TlbEntry := []
  cuTlb : List TlbEntry := []
  /-- When a ramp of the array ends (R33). -/
  rampEnd : Nat := 0
  deficit : SMap Int := []
  lastChosen : SMap Nat := []
  grows : List GrowReq := []
deriving DecidableEq, Repr, Inhabited

end Sys2Proof.Machine
end

