-- ==== Sys2Proof/Machine/PkgTypes.lean ====
section
/-! DEFINITION. The state of the package outside the cores as plain data: coherence homes, walkers, Rowan's tables,
enclaves and partitions, the search units, launch, boot, the host port and the pod. -/
namespace Sys2Proof.Machine

/-! ### Tier blocks (R369, R402) -/

/-- Under what a frame's blocks are tagged: a key ASID and a page version, or an export or host-written image kept as it
stands. -/
inductive Stamp where
  | tagged (key ver : Nat)
  | raw
deriving DecidableEq, Repr, Inhabited

/-- The tier's own copy of a line that has been written since (R254): its listed bytes, and which of its blocks stand there
poisoned, as another agent wrote them under the tag kept for them, or with an uncorrectable error (R402, R449). -/
structure StaleLine where
  cells : SMap Byte := []
  poison : NSet := []
  raw : SMap (List Byte) := []
  ecc : NSet := []
deriving DecidableEq, Repr, Inhabited

/-! ### Coherence (R378 to R386) -/

structure DirEnt where
  state : Nat
  owner : Nat
  ioh : Bool
  msh : BitVec 8
  acks : Nat
  lsh : BitVec 128
  used : Nat
  /-- Since when it has been in a transient state, or its last timeout (R384). -/
  since : Nat := 0
deriving DecidableEq, Repr, Inhabited

/-- What waits for a home request to complete. -/
inductive ReqTag where
  | thread (t : Nat)
  | job (core num : Nat)
  | maint (id : Nat)
  | home
  /-- Nothing waits: the request has been answered, or came from no one. -/
  | none
deriving DecidableEq, Repr, Inhabited

/-- A request at a home (R384): the event code, the grain, who asks (`core` 1,024 is the I/O die's home agent), whether
an engine asks, and whether an engine write covers the whole grain. -/
structure HomeReq where
  ev : Nat
  grain : Nat
  core : Nat
  eng : Bool
  whole : Bool
  lines : List Nat
  tag : ReqTag
  /-- The place and the bytes of a copy unit's write that it carries (R386, R388). -/
  put : Option (Nat × List Byte) := none
deriving DecidableEq, Repr, Inhabited

/-- An agent a round waits for: a core, a meadow's proxy slice or replica, the I/O die's home agent. -/
inductive Agent where
  | core (c : Nat)
  | meadow (m : Nat)
  | ioHome
deriving DecidableEq, Repr, Inhabited

inductive MsgKind where | inval | recall | share | lock | update
deriving DecidableEq, Repr, Inhabited

structure Msg where
  grain : Nat
  dest : Agent
  kind : MsgKind
  /-- The owner that a recall is for. -/
  who : Nat := 0
deriving DecidableEq, Repr, Inhabited

/-- An acknowledgement that a round waits for: whose, of what message, and the owner that a recall is for. -/
structure Owed where
  agent : Agent
  kind : MsgKind
  who : Nat
deriving DecidableEq, Repr, Inhabited

/-- A pending record (R386): the saved request, the round's event and the acknowledgements it still awaits, and whether an
invalidation of the round has been answered. -/
structure PendRec where
  req : HomeReq
  round : Nat
  await : List Owed
  since : Nat
  tmos : Nat
  took : Bool := false
  /-- Whether the requester holds a copy, which the round leaves it (R386). -/
  kept : Bool := false
deriving DecidableEq, Repr, Inhabited

/-- A range maintenance operation that has started (R275). -/
structure Maint where
  id : Nat
  thread : Nat
  kind : MaintKind
  asid : Nat
  va : Nat
  len : Nat
  pc : W64
  grains : Option (List Nat)
deriving DecidableEq, Repr, Inhabited

/-! ### Walks and fault queues (R329, R365) -/

/-- For whom a walk runs. -/
inductive WalkFor where
  | core (c : Nat)
  | copy (c : Nat)
  | heather (st : Nat)
  | hart (h : Nat)
deriving DecidableEq, Repr, Inhabited

structure Walk where
  asid : Nat
  page : Nat
  kind : Nat
  who : List WalkFor
  stale : Bool
deriving DecidableEq, Repr, Inhabited

/-- A fault-queue entry that has been formed (R328, R329): posted at item `pos`, or waiting for room. -/
structure FqEntry where
  asid : Nat
  kind : Nat
  page : Nat
  lanes : Nat
  agent : Nat
  merge : Nat
  stack : Nat
  jobq : Nat
  wslot : Nat
  core : Nat
  pos : Option Nat
deriving DecidableEq, Repr, Inhabited

/-! ### Launch (R38 to R42) -/

structure KickRec where
  words : List W64
  lrec : W64
deriving DecidableEq, Repr, Inhabited

structure Kick where
  pend : List KickRec := []
  taken : W32 := 0
  lasterr : BitVec 8 := 0
deriving DecidableEq, Repr, Inhabited

/-- A launch whose groves wait for placement (R42): the model step at which it was taken, the next grove number, when that
grove was first passed over, and whether it holds back lower ranks. -/
structure Launch where
  encl : Nat
  kick : Nat
  words : List W64
  lrec : W64
  taken : Nat
  nextGrove : Nat
  passedSince : Option Nat
  starved : Bool := false
deriving DecidableEq, Repr, Inhabited

/-! ### Enclaves and partitions (R393, R405, R416, R431) -/

structure SealEntry where
  page : Nat
  gen : Nat
  rwx : Nat
  pot : Nat
  mac : List Byte
deriving DecidableEq, Repr, Inhabited

/-- An enclave-table entry (R393) with MEAS, the seal list and the enclave's fault queue and kick page. `state`: 0
building, 1 live, 2 destroying. -/
structure Enclave where
  state : Nat
  part : Nat
  kslot : Nat
  asid : Nat
  creator : Nat
  nthr : Nat
  nkickm1 : Nat
  ord : Nat
  meas : List Byte
  seals : List SealEntry
  gen : Nat
  kickVa : Nat
  hentry : Nat
  fqHdr : Option Nat
  fqSeq : Nat
  fq : List FqEntry
  kicks : SMap Kick
deriving DecidableEq, Repr, Inhabited

/-- A key slot (R400). -/
structure KeySlot where
  asid : Nat
  kd : List Byte
  kt : List Byte
  ki : List Byte
deriving DecidableEq, Repr, Inhabited

/-- A pending `svc` request (R332). -/
structure SvcReq where
  tag : Nat
  thread : Nat
deriving DecidableEq, Repr, Inhabited

structure Partition where
  live : Bool := false
  creating : Bool := false
  pcfg : W64 := 0
  agent : Nat := 0
  /-- The frames of the quota, as (first frame, frames). -/
  quota : List (Nat × Nat) := []
  /-- The 2 MiB pages of its shadow areas and context pools, by first frame (R416). -/
  areas : List Nat := []
  /-- The context pools by meadow: base and size. An image is named by its meadow, times 2^40, and its offset. -/
  ctx : SMap (Nat × Nat) := []
  ctxUsed : List (Nat × Nat) := []
  svcq : Option (Nat × Nat) := none
  svcPend : List SvcReq := []
  svcWait : List Nat := []
  nextTag : Nat := 0
  meters : SMap Nat := []
  liveSince : Nat := 0
  /-- The last whole second a periodic record was emitted for (R434). -/
  second : Nat := 0
  useq : Nat := 0
  prevRec : List Byte := []
  reason : Nat := 0
  pmc : SMap (BitVec 48) := []
  pmsel : SMap W32 := []
  gswBusy : Bool := false
  gswResult : Nat := 0
  gswList : Nat := 0
  gswStaged : List (Nat × Nat × Bool) := []
  resets : Nat := 0
  notice : List Byte := []
  usage : SMap (List Byte) := []
  /-- The meadows it is swapped out of; the state swapped out stands under core numbers that no core has. -/
  swapped : NSet := []
  /-- The meadows it is being swapped out of: RUN is cleared, and its teams have not all stopped (R422, R426). -/
  swapping : NSet := []
  /-- The frames that hold what a meadow's shadow area does not (R423). -/
  spill : SMap (List Nat) := []
deriving DecidableEq, Repr, Inhabited

/-! ### Rowan (R371 to R375, R403) -/

/-- An `rcall` that has been posted (R212): the calling thread and its argument block. -/
structure Call where
  thread : Nat
  func : Nat
  args : List W64
  argVa : Nat
  encl : Nat
deriving DecidableEq, Repr, Inhabited

/-- What Rowan does when a shootdown completes (R373, step 5). -/
inductive ShootThen where
  | none
  | free (frames : List (Nat × Nat))
  | move (va src dst bits : Nat)
  | sealPage (va src dst rwx pot : Nat)
deriving DecidableEq, Repr, Inhabited

structure Shoot where
  asid : Nat
  lo : Nat
  hi : Nat
  agents : List ShootAgent
  andThen : ShootThen
  call : Option Call
deriving DecidableEq, Repr, Inhabited

/-- A page migration (R375). `todo` lists the lines the running pass still copies, `dirty` those dirtied meanwhile. -/
structure Migration where
  call : Call
  asid : Nat
  va : Nat
  bits : Nat
  src : Nat
  dst : Nat
  pass : Nat
  dirty : NSet
  final : Bool
  forward : Bool
deriving DecidableEq, Repr, Inhabited

structure Rowan where
  queue : List Call := []
  lastEncl : Nat := 0
  lastAsid : Nat := 0
  lastKslot : Nat := 4095
  ord : Nat := 0
  shoot : Option Shoot := none
  migr : Option Migration := none
  sleeping : Bool := false
  drbg : Nat := 0
  /-- The CLOCK of the last usage record (R435): what happens later lands after it. -/
  recordAt : Option Nat := none
  /-- The key of ASID 0, held outside the key table (R400). -/
  key : KeySlot := ⟨0, [], [], []⟩
deriving DecidableEq, Repr, Inhabited

/-! ### General cores (R334 to R336, R394) -/

inductive HartWait where
  | spawn (encl kick : Nat) (rec : KickRec) (rd : Nat)
  | joinw (va rd : Nat)
deriving DecidableEq, Repr, Inhabited

/-- The exceptions of the extension instructions, and that of a fetch. -/
inductive HartExc where
  | fetchPageFault (va : Nat)
  | illegalInstruction (w : W32)
  | loadMisaligned (va : Nat)
  | loadPageFault (va : Nat)
deriving DecidableEq, Repr, Inhabited

structure Hart where
  encl : Nat := 0
  x : SMap W64 := []
  /-- The floating-point and vector registers of RV64GCV and their control registers (R6, R440); no instruction of the manual's own
  reads or writes them. The length of a vector register is open. -/
  f : SMap W64 := []
  fcsr : W32 := 0
  v : SMap (List Byte) := []
  vcsr : SMap W64 := []
  pc : W64 := 0
  wait : Option HartWait := none
  exc : Option HartExc := none
  paused : Bool := false
  /-- Where its context lies in sealed frames while Hazel or the package is halted (R411, R412). -/
  img : Option Nat := none
  tlb : List TlbEntry := []
deriving DecidableEq, Repr, Inhabited

/-! ### Search units (R337 to R350) -/

/-- A query: its packet, its origin and the slot it claimed. -/
structure Query where
  pkt : List Byte
  core : Nat
  tslot : Nat
  grove : Nat
  asid : Nat
  part : Nat
  qseq : W32
  wslot : Nat
  lane : Nat
  pc : W64
  ring : Nat
  slot : Nat
deriving DecidableEq, Repr, Inhabited

/-- A key (R343): the bits of dist and the node. -/
structure Key where
  dist : W32
  id : Nat
deriving DecidableEq, Repr, Inhabited

/-- An expansion in flight (R344): the candidate, whether its adjacency has been read, and how many replies it awaits. -/
structure Expansion where
  id : Nat
  node : Nat
  asked : Bool
  waits : Nat
deriving DecidableEq, Repr, Inhabited

/-- An outstanding request: the stack, the node, the expansion that sent it (0 for an entry point), and whether it asks for
the node's adjacency instead of its distance (R346). -/
structure Ask where
  stack : Nat
  node : Nat
  exp : Nat
  adj : Bool := false
deriving DecidableEq, Repr, Inhabited

inductive CtxState where
  | waitPlace
  | running
  | suspended (page : Nat)
deriving DecidableEq, Repr, Inhabited

/-- A query context (R344). `desc` is the descriptor once it is read; `asks` lists the requests in the order sent; `fin`
says that the traversal has ended; `wrote` counts result entries written; `walking` that a suspension waits for a walk. -/
structure Ctx where
  q : Query
  st : CtxState := .waitPlace
  desc : List Byte := []
  visited : SMap Nat := []
  cand : List Key := []
  res : List Key := []
  exps : List Expansion := []
  asks : List Ask := []
  nextExp : Nat := 1
  status : Nat := 0
  evals : Nat := 0
  fcode : Nat := 0
  fva : Nat := 0
  fin : Bool := false
  wrote : Nat := 0
  walking : Bool := false
  /-- The VA at which the page of a suspension was met (R351). -/
  wva : Nat := 0
deriving DecidableEq, Repr, Inhabited

/-- A Heather unit (R337): accepted packets, contexts, the queries that ended before they had a context, its translations. -/
structure Heather where
  admitQ : List Query := []
  ctxs : SMap Ctx := []
  cancelled : List Query := []
  tlb : List TlbEntry := []
deriving DecidableEq, Repr, Inhabited

/-! ### Boot, pod, host port (R17 to R33, R408 to R415) -/

/-- PF0 boot status. -/
inductive BootStatus where | waitImage | noLeader | fuseFault | ready
deriving DecidableEq, Repr, Inhabited

structure Accepted where
  digest : List Byte
  svn : Nat
  image : List Byte
deriving DecidableEq, Repr, Inhabited

structure Port where
  up : Bool := false
  trained : Bool := false
  retries : Nat := 0
  down : Bool := false
  closed : NSet := []
deriving DecidableEq, Repr, Inhabited

structure Boot where
  status : BootStatus := .waitImage
  rowan : Option Accepted := none
  hazel : Option Accepted := none
  runtime : Option Accepted := none
  hostUp : Bool := false
  cxl : Bool := false
  hostBoot : Bool := true
  mailbox : List (List Byte) := []
  /-- The partitions that have been reported ready (R377, step 5). -/
  ready : NSet := []
  ports : SMap Port := []
  seen : List (BitVec 16) := []
  windowFrom : Option Nat := none
  windowDone : Bool := false
  claimed : Bool := false
  leader : Option (BitVec 16) := none
  lastFlit : Nat := 0
  excluded : List (BitVec 16) := []
  /-- How many units have left reset (R32), and when the last of them did. -/
  startStep : Nat := 0
  startAt : Nat := 0
  /-- A late launch (R411): Hazel halted, the limit then in force, when it ends, and the new images. -/
  hazelHalted : Bool := false
  haltLimit : Nat := 3600
  haltEnd : Nat := 0
  newImages : Option (List Byte) × Option (List Byte) := (none, none)
  asleep : Bool := false
deriving DecidableEq, Repr, Inhabited

structure Stream where
  encl : Nat := 0
  keyed : Bool := false
  insecure : Bool := false
  /-- Its endpoints see a link fault (R21). -/
  linkFault : Bool := false
  session : Option Nat := none
deriving DecidableEq, Repr, Inhabited

inductive TdiState where | unlocked | locked | run | error
deriving DecidableEq, Repr, Inhabited

structure MsLim where
  err : Bool := false
  winmax : Nat := 0
  total : Nat := 0
deriving DecidableEq, Repr, Inhabited

structure MsCfg where
  busy : Bool := false
  err : Bool := false
  win : Nat := 0
  /-- The split being changed to: (WIN, TOTAL). -/
  next : Option (Nat × Nat) := none
  total : Nat := 0
deriving DecidableEq, Repr, Inhabited

/-- A security-log entry (R370, R386, R413, R441); its place in the log is its SEQ. -/
inductive LogEntry where
  | refused (time cause source func kind stream addr : Nat)
  | grainLost (time grain : Nat)
  | wakeFailed (time : Nat)
deriving DecidableEq, Repr, Inhabited

/-- An SPDM session (R408): over DOE or in-band, the caller's enclave in-band, whether FINISH has completed it, its key, and how many
requests and responses have been sealed under it. -/
structure Session where
  doe : Bool
  encl : Nat
  finished : Bool
  key : List Byte := []
  asked : Nat := 0
  answered : Nat := 0
deriving DecidableEq, Repr, Inhabited

/-- The SPDM responder (R408): its sessions and the last response over DOE. -/
structure Spdm where
  sessions : SMap Session := []
  reply : List Byte := []
deriving DecidableEq, Repr, Inhabited

/-- What the host was last answered: data, data with the EP bit (R23), an Unsupported Request (R19), nothing (R20), or a
TDISP response, accepted or an error, with the TDI's state. -/
inductive HostReply where
  | data (bs : List Byte)
  | poisoned
  | unsupported
  | dropped
  | tdisp (ok : Bool) (st : TdiState)
deriving DecidableEq, Repr, Inhabited

/-- PF0 and VF registers (R30, R228, R229, R410, R416, R441). -/
structure HostRegs where
  limit : Nat := 3600
  pwrErr : Bool := false
  epr : Bool := false
  mslim : SMap MsLim := []
  mscfg : SMap MsCfg := []
  coreTab : SMap Nat := []
  rcmdBusy : Bool := false
  rcmdResult : Nat := 0
  log : List LogEntry := []
  tdi : SMap TdiState := []
  flr : NSet := []
  streams : SMap Stream := []
  hazelErr : List (Nat × Nat) := []
  /-- The host's accesses that wait, in their order, for the final pass of a migration (R245, R375). -/
  heldAcc : List HostAccess := []
  reply : Option HostReply := none
deriving DecidableEq, Repr, Inhabited

/-- The retention store (R412): the epoch and the wrapped keys. -/
structure Retention where
  epoch : Nat := 0
  wrapped : Option (List Byte) := none
deriving DecidableEq, Repr, Inhabited

/-- What the next step issues (R44): nothing chosen, a warp's set of lanes, or a hart's word. -/
inductive Turn where
  | idle
  | warp (core wslot : Nat) (mask : BitVec 32)
  | hart (h : Nat)
deriving DecidableEq, Repr, Inhabited

end Sys2Proof.Machine
end

