-- ==== Sys2Proof/Machine/State.lean ====
section
/-! DEFINITION. The state of the machine as plain data, the reasons a step can stop, and the state after reset. -/
namespace Sys2Proof.Machine

/-- Why the machine stops with a fault. -/
inductive Fault where
  /-- Raised by the one operation that reads or writes physical memory, at an address outside every range of R224. Safe:
  the spec says that no such address is reached (R224). -/
  | noSuchAddress (pa : Nat)
deriving DecidableEq, Repr, Inhabited

/-- Why an instruction has no meaning in the model. -/
inductive Refusal where
  /-- Raised by `exec` for an instruction whose meaning is not written. Safe. -/
  | notModelled (mnemonic : String)
  /-- Raised by `step` when a general core fetches a word that is no Mellyn extension instruction: the RISC-V base is
  outside the manual (00_scope.md). Safe. -/
  | riscvBase (w : W32)
deriving DecidableEq, Repr, Inhabited

/-- The whole machine. Threads are keyed by (core · 64 + warp slot) · 32 + lane, warps by core · 64 + warp slot, teams by
core · 4 + team slot, cores by global core id (R5). Physical memory is keyed by address, frames by PA / 4,096, 64-byte
blocks by PA / 64, lines by PA / 128 and grains by PA / 512. -/
structure State where
  /-- What the next step does, the inputs that wait, and the model's own step counter. -/
  turn : Turn
  inbox : List Instr
  n : Nat
  /-- CLOCK (R12), and the last periodic instants served (R43, R296). -/
  clock : Nat
  refills : Nat
  slices : Nat
  /-- Physical memory as every agent sees it at its homes (R235), and the tier's older copy of lines that have not been
  written back (R254). -/
  mem : SMap Byte
  stale : SMap StaleLine
  /-- The poisoned 64-byte blocks (R449), and the blocks whose ciphertext has been written around the crypto engine, with the
  tag that the tier keeps for them: their bytes are the ciphertext (R370, R402). -/
  poison : NSet
  raw : SMap (List Byte)
  /-- The work-queue headers, by 64-byte block, that ordinary writes changed while they were in use (R330). -/
  spoilt : NSet
  stamps : SMap Stamp
  /-- The 64-byte blocks of context images, with the ASID whose key holds them (R117); frames whose blocks stand under a key
  that has been erased, with that key (R400, R402); blocks whose next read meets an uncorrectable ECC error (R260). -/
  imgKeys : SMap Nat
  lost : SMap (List Byte × List Byte)
  ecc : NSet
  /-- Homes (R378 to R386). -/
  dir : SMap DirEnt
  proxies : SMap NSet
  /-- The lines of its grain, one bit each, that a holder has been sent (R226, R385), by grain · 2,048 + holder. -/
  sent : SMap Nat
  reqs : List HomeReq
  heldReqs : List HomeReq
  msgs : List Msg
  ackQ : List (Nat × Agent)
  pends : SMap PendRec
  locked : NSet
  maints : List Maint
  walks : List Walk
  /-- A home holds back an access of the step under way, which is tried again later: the model's own field. -/
  held : Bool
  /-- Cores and what runs on them. -/
  cores : SMap Core
  warps : SMap Warp
  threads : SMap Thread
  teams : SMap Team
  groves : SMap Grove
  groveSeq : Nat
  /-- The last use of each register line (R120), by `lineKey`. -/
  lineUses : SMap Nat
  launches : List Launch
  /-- Rowan's tables (R358). -/
  asids : SMap W64
  encls : SMap Enclave
  keys : SMap KeySlot
  pot : SMap W32
  ranges : SMap W64
  protos : SMap (List Byte)
  rowan : Rowan
  parts : SMap Partition
  lateLaunches : W32
  harts : SMap Hart
  heather : SMap Heather
  /-- Hardware queue slots (R43, R421): the mapped headers, and when each other queue was last unmapped. -/
  hwSlots : List Nat
  unmapped : SMap Nat
  /-- Boot, fuses, host port, pod, SPDM, retention store. -/
  boot : Boot
  fuses : SMap (Bool × Bool)
  spdm : Spdm
  host : HostRegs
  ret : Retention
deriving DecidableEq, Repr, Inhabited

/-- The machine right after cold reset (R24): CLOCK 0, only Rowan's ROM running, which waits for images; no core, team or
enclave; every frame of the POT free and unassigned (R366). Unlisted memory reads as zero (R235). DESIGN CHOICE,
notes/assumptions/3.md. -/
def State.reset : State :=
  { turn := .idle, inbox := [], n := 0, clock := 0, refills := 0, slices := 0,
    mem := [], stale := [], poison := [], raw := [], spoilt := [], stamps := [], imgKeys := [], lost := [], ecc := [],
    dir := [], proxies := [], sent := [], reqs := [], heldReqs := [], msgs := [], ackQ := [], pends := [], locked := [],
    maints := [], walks := [], held := false,
    cores := [], warps := [], threads := [], teams := [], groves := [], groveSeq := 0, lineUses := [], launches := [],
    asids := [], encls := [], keys := [], pot := [], ranges := [], protos := [], rowan := {}, parts := [],
    lateLaunches := 0, harts := [], heather := [], hwSlots := [], unmapped := [],
    boot := {}, fuses := [], spdm := {}, host := {}, ret := {} }

/-- The outcome of one step. -/
abbrev Out := Host.Outcome State Fault Refusal

end Sys2Proof.Machine
end

