-- ==== Sys2Proof/Machine/Mem.lean ====
section
/-! DEFINITION. Physical memory, its protection tables and translation (R224 to R231, R359 to R369, R402, R449). -/
namespace Sys2Proof.Machine

/-! ### Physical addresses (R224, R225, R230) -/

def inHbm (pa : Nat) : Bool := decide (pa < 0x07800000000)
def inLpddr (pa : Nat) : Bool := decide (0x10000000000 ≤ pa) && decide (pa < 0x1F000000000)
def inCxl (pa : Nat) : Bool := decide (0x20000000000 ≤ pa) && decide (pa < 0x5C000000000)
def inWindow (pa : Nat) : Bool := decide (0x80000000000 ≤ pa) && decide (pa < 0x80800000000)
/-- An address that exists (R224). DEDUCED, notes/assumptions/4.md. -/
def paOk (pa : Nat) : Bool := inHbm pa || inLpddr pa || inCxl pa || inWindow pa

/-- The stack of an HBM4E address (R224). -/
def stackOf (pa : Nat) : Nat := pa / 2 ^ 21 % 8

/-- The home meadow of a grain (R225, R230): a window grain is homed in its own meadow. -/
def homeMeadow (grain : Nat) : Nat :=
  if inWindow (grain * 512) then (grain * 512 - 0x80000000000) % 0x20000000 / 0x4000000 else grain * 512 / 2 ^ 21 % 8

/-- The partition and meadow of a window address, and the offset in that window. -/
def windowPlace (pa : Nat) : Nat × Nat × Nat :=
  let o := pa - 0x80000000000
  (o / 0x20000000, o % 0x20000000 / 0x4000000, o % 0x4000000)

/-- Whether a window address is backed (R230, R231): below WIN, and below the new WIN while a change runs. -/
def windowBacked (s : State) (pa : Nat) : Bool :=
  let w := windowPlace pa
  let c := smGet ({} : MsCfg) s.host.mscfg (w.1 * 8 + w.2.1)
  let win := match c.next with
    | some n => Nat.min c.win n.1
    | none => c.win
  decide (w.2.2 < win * 0x40000)

/-- Whether an address is not one of a window beyond its WIN. -/
def backed (s : State) (pa : Nat) : Bool := !inWindow pa || windowBacked s pa

/-! ### Bytes -/

/-- Where an access of a migrating page performs once requests are forwarded (R375). -/
def fwdPa (s : State) (pa : Nat) : Nat :=
  match s.rowan.migr with
  | some m => if m.forward && decide (m.src ≤ pa) && decide (pa < m.src + 2 ^ m.bits) then m.dst + (pa - m.src) else pa
  | none => pa

/-- One byte as every agent reads it at its home (R235). DEDUCED, notes/assumptions/4.md. -/
def readByte (s : State) (pa : Nat) : Byte := smGet 0 s.mem pa

def readBytes (s : State) (pa n : Nat) : List Byte := (rangeFrom pa n).map (readByte s)

def readNat (s : State) (pa n : Nat) : Nat := natOfBytes (readBytes s pa n)

/-- The canonical form of a memory: addresses strictly rising, no byte listed that an unlisted address reads as. -/
def Memory.wf (m : SMap Byte) : Bool := smWf 0 m

/-- Lists bytes from an address up. -/
def memPuts (m : SMap Byte) : Nat → List Byte → SMap Byte
  | _, [] => m
  | pa, b :: l => memPuts (smSet 0 m pa b) (pa + 1) l

/-- What stands in memory for a line, as its tier holds it after a write-back. -/
def lineCopy (s : State) (line : Nat) : StaleLine :=
  { cells := smFilter s.mem fun a => decide (a / 128 = line)
    poison := s.poison.filter fun b => decide (b / 2 = line)
    raw := smFilter s.raw fun b => decide (b / 2 = line)
    ecc := s.ecc.filter fun b => decide (b / 2 = line) }

/-- Remembers the tier's copy of the lines about to be written, which stays until they are written back (R254). The
windows have no tier behind them (R230). -/
def markStale (s : State) : SMap StaleLine → List Nat → SMap StaleLine
  | st, [] => st
  | st, l :: ls =>
    let st' := if inWindow (l * 128) then st else match smFind? st l with
      | some _ => st
      | none => smPut st l (lineCopy s l)
    markStale s st' ls

/-- The numbers of the blocks of size `k` that [pa, pa + n) touches. -/
def blocksOf (k pa n : Nat) : List Nat := if n = 0 then [] else rangeFrom (pa / k) ((pa + n - 1) / k + 1 - pa / k)

/-- The 64-byte blocks that [pa, pa + n) covers whole (R449). -/
def wholeBlocks (pa n : Nat) : List Nat :=
  (blocksOf 64 pa n).filter fun b => decide (pa ≤ b * 64) && decide (b * 64 + 64 ≤ pa + n)

/-- A write at the home: the bytes, the poison and host-written marks of blocks covered whole cleared (R449), the lines
marked dirty (R226), and the lines of a migrating page marked for recopying (R375). A block that fails its tag and is written
in part is poisoned from then on (R23). -/
def writeBytes (s : State) (pa : Nat) (bs : List Byte) : State :=
  let n := bs.length
  let whole := wholeBlocks pa n
  let keep (b : Nat) : Bool := !(whole.any fun w => decide (w = b))
  let part := (blocksOf 64 pa n).filter fun b => keep b && (smFind? s.raw b).isSome
  let rowan := match s.rowan.migr with
    | some m =>
      if decide (m.src ≤ pa) && decide (pa < m.src + 2 ^ m.bits) then
        { s.rowan with migr := some { m with dirty := (blocksOf 128 pa n).foldl nsAdd m.dirty } }
      else s.rowan
    | none => s.rowan
  { s with
    mem := memPuts s.mem pa bs
    stale := markStale s s.stale (blocksOf 128 pa n)
    poison := part.foldl nsAdd (s.poison.filter keep)
    raw := smFilter s.raw fun b => keep b && !(part.any fun w => decide (w = b))
    ecc := s.ecc.filter keep
    rowan := rowan }

def writeNat (s : State) (pa n v : Nat) : State := writeBytes s pa (bytesOfNat n v)

/-- The byte of the tier's own copy (R254). -/
def tierByte (s : State) (pa : Nat) : Byte :=
  match smFind? s.stale (pa / 128) with
  | some x => smGet 0 x.cells pa
  | none => readByte s pa

def tierBytes (s : State) (pa n : Nat) : List Byte := (rangeFrom pa n).map (tierByte s)

/-- Whether the tier's own copy of a block is poisoned, was written around its crypto engine, or has an uncorrectable error
(R402, R449). -/
def tierPoison (s : State) (b : Nat) : Bool :=
  match smFind? s.stale (b / 2) with
  | some x => nsHas x.poison b
  | none => nsHas s.poison b
def tierRaw (s : State) (b : Nat) : Option (List Byte) :=
  match smFind? s.stale (b / 2) with
  | some x => smFind? x.raw b
  | none => smFind? s.raw b
def tierEcc (s : State) (b : Nat) : Bool :=
  match smFind? s.stale (b / 2) with
  | some x => nsHas x.ecc b
  | none => nsHas s.ecc b
def tierBad (s : State) (b : Nat) : Bool := tierPoison s b || (tierRaw s b).isSome || tierEcc s b

/-- A line is written back to the tier (R386). -/
def writeBack (s : State) (line : Nat) : State := { s with stale := smDel s.stale line }

/-- A dirty line is discarded: it reads as the tier's copy again, with what is wrong with that (R275, R449). -/
def discardLine (s : State) (line : Nat) : State :=
  let out (b : Nat) : Bool := decide (b / 2 ≠ line)
  match smFind? s.stale line with
  | none => s
  | some x =>
    { s with
      mem := x.cells.foldl (fun m c => smSet 0 m c.1 c.2) (smFilter s.mem fun a => decide (a / 128 ≠ line))
      poison := x.poison.foldl nsAdd (s.poison.filter out)
      raw := x.raw.foldl (fun m c => smPut m c.1 c.2) (smFilter s.raw out)
      ecc := x.ecc.foldl nsAdd (s.ecc.filter out)
      stale := smDel s.stale line }

/-- Zeroes [pa, pa + n) at its homes and in the tier, with its poison. -/
def zeroRange (s : State) (pa n : Nat) : State :=
  let out (k a : Nat) : Bool := decide (a * k < pa) || decide (pa + n ≤ a * k)
  { s with
    mem := smFilter s.mem (out 1)
    stale := smFilter s.stale (out 128)
    poison := s.poison.filter (out 64)
    raw := smFilter s.raw (out 64)
    ecc := s.ecc.filter (out 64) }

/-- Copies [src, src + n) to dst, block alignment kept; blocks that are read with poison, under a tag that fails or with an
uncorrectable error arrive poisoned (R22, R23). -/
def copyRange (s : State) (src dst n : Nat) : State :=
  let inside (k a : Nat) : Bool := decide (src ≤ a * k) && decide (a * k < src + n)
  let z := zeroRange s dst n
  { z with
    mem := (s.mem.filter fun c => inside 1 c.1).foldl (fun m c => smSet 0 m (dst + (c.1 - src)) c.2) z.mem
    poison := ((s.poison ++ s.raw.map (·.1) ++ s.ecc).filter (inside 64)).foldl
      (fun p b => nsAdd p (dst / 64 + (b - src / 64))) z.poison }

/-! ### The page ownership table (R366 to R369) -/

def potOwner (e : W32) : Nat := (e.extractLsb' 16 16).toNat
def potState (e : W32) : Nat := (e.extractLsb' 12 4).toNat
def potVer (e : W32) : Nat := (e.extractLsb' 4 8).toNat
def potSz (e : W32) : Nat := (e.extractLsb' 2 2).toNat
def mkPot (owner state ver sz : Nat) : W32 :=
  BitVec.ofNat 32 ((owner % 65536) * 65536 + (state % 16) * 4096 + (ver % 256) * 16 + (sz % 4) * 4)

/-- Whether a listed summary covers a frame that is not its first (R366). -/
def potCovered (s : State) (frame : Nat) : Bool :=
  let at' (f sz : Nat) : Bool := decide (f ≠ frame) && (match smFind? s.pot f with
    | some e => decide (potSz e = sz)
    | none => false)
  at' (frame / 512 * 512) 1 || at' (frame / 524288 * 524288) 2

/-- A frame's POT entry (R366): a frame that a summary covers holds SZ 3 and zeros; a window frame of a live partition
that no entry lists is free in that partition; every other unlisted frame is free and unassigned. -/
def potEntry (s : State) (frame : Nat) : W32 :=
  match smFind? s.pot frame with
  | some e => e
  | none =>
    if potCovered s frame then 0xC
    else if inWindow (frame * 4096) && (smGet ({} : Partition) s.parts (windowPlace (frame * 4096)).1).live then
      mkPot (windowPlace (frame * 4096)).1 0 0 0
    else 0xFFFF0000

/-- The frame whose POT entry governs a frame: itself, or the first frame of the large page that covers it (R366). -/
def potGov (s : State) (frame : Nat) : Nat :=
  if potSz (potEntry s frame) ≠ 3 then frame
  else if potSz (potEntry s (frame / 512 * 512)) = 1 then frame / 512 * 512
  else frame / 524288 * 524288

/-- POT states (R366). -/
def psFree : Nat := 0
def psPrivate : Nat := 1
def psSharedRo : Nat := 2
def psSharedRw : Nat := 3
def psTable : Nat := 4
def psSealed : Nat := 5
def psRowan : Nat := 6

/-- Changes OWNER and STATE of a governing entry, VER rising where R369 says so. -/
def potChange (s : State) (frame owner state : Nat) : State :=
  let e := potEntry s frame
  let bump := decide (potOwner e ≠ owner)
    || (decide (potState e ≠ state) &&
        (decide (potState e = psFree) || decide (state = psFree) || decide (potState e = psSealed) || decide (state = psSealed)))
  let v := if bump then potVer e + 1 else potVer e
  { s with pot := smPut s.pot frame (mkPot owner state v (potSz e)) }

/-- Stamps a governing frame's blocks as held under a key ASID and the frame's present version. -/
def stampFrame (s : State) (frame key : Nat) : State :=
  { s with
    stamps := smPut s.stamps frame (.tagged key (potVer (potEntry s frame)))
    lost := smDel s.lost frame }

/-! ### Integrity (R23, R402, R449) -/

/-- The cause codes of accesses (R192). -/
def ccPermission : Nat := 0x10
def ccPotDeny : Nat := 0x11
def ccGrainConflict : Nat := 0x12
def ccWriteOnce : Nat := 0x13
def ccAlign : Nat := 0x14
def ccIntegrity : Nat := 0x15
def ccUncorrectable : Nat := 0x16
def ccNotMapped : Nat := 0x17
def ccPoisoned : Nat := 0x18

/-- Whether a block is held under a key ASID and version; a block of a page that forwards its requests also answers to the
version that its old frame had (R375). -/
def stampOk (s : State) (block key ver : Nat) : Bool :=
  let is (frame : Nat) : Bool := decide (smFind? s.stamps (potGov s frame) = some (Stamp.tagged key ver))
  is (block / 64) || (match s.rowan.migr with
    | some m => m.forward && decide (m.dst ≤ block * 64) && decide (block * 64 < m.dst + 2 ^ m.bits)
        && is ((m.src + (block * 64 - m.dst)) / 4096)
    | none => false)

/-- Whether a read of [pa, pa + n) under a key ASID and version meets poison or a tag mismatch. -/
def integrityBad (s : State) (pa n key ver : Nat) : Bool :=
  (blocksOf 64 pa n).any fun b =>
    nsHas s.poison b || (smFind? s.raw b).isSome ||
      (!inWindow pa && !stampOk s b key ver)

/-- Whether a read of the tier's own copy of the block at `pa` under a key ASID and version meets poison or a tag mismatch. -/
def tierSpoilt (s : State) (pa key ver : Nat) : Bool :=
  tierPoison s (pa / 64) || (tierRaw s (pa / 64)).isSome || (!inWindow pa && !stampOk s (pa / 64) key ver)

/-- Whether a read of [pa, pa + n) meets an uncorrectable ECC error (R260). -/
def eccBad (s : State) (pa n : Nat) : Bool := (blocksOf 64 pa n).any fun b => nsHas s.ecc b

/-- Whether a read of [pa, pa + n) returns no data: its tag, its poison or its ECC. -/
def dataBad (s : State) (pa n key ver : Nat) : Bool := integrityBad s pa n key ver || eccBad s pa n

/-- A read that fails its tag poisons the blocks it met, and the security log says so once (R23, R441). -/
def poisonBad (s : State) (pa n key ver : Nat) : State :=
  let bad := (blocksOf 64 pa n).filter fun b =>
    !nsHas s.poison b && ((smFind? s.raw b).isSome || (!inWindow pa && !stampOk s b key ver))
  if bad.isEmpty then s
  else { s with
    poison := bad.foldl nsAdd s.poison
    host := { s.host with log := s.host.log ++ [.refused s.clock ccIntegrity 0 0 2 0 pa] } }

/-- A read of the tier's own copy of a block that fails its tag poisons that copy, and the security log says so once. -/
def poisonTier (s : State) (pa key ver : Nat) : State :=
  let b := pa / 64
  if tierPoison s b || !tierSpoilt s pa key ver then s
  else
    let s1 : State := { s with host := { s.host with log := s.host.log ++ [.refused s.clock ccIntegrity 0 0 2 0 pa] } }
    match smFind? s.stale (b / 2) with
    | some x => { s1 with stale := smPut s1.stale (b / 2) { x with poison := nsAdd x.poison b } }
    | none => { s1 with poison := nsAdd s1.poison b }

/-! ### Enclaves and ASIDs (R359, R393) -/

def asidEntry (s : State) (asid : Nat) : W64 := smGet 0 s.asids asid
def asidV (e : W64) : Bool := e.getLsbD 63
def asidPart (e : W64) : Nat := (e.extractLsb' 48 6).toNat
def asidEncl (e : W64) : Nat := (e.extractLsb' 32 16).toNat
def asidRoot (e : W64) : Nat := (e.extractLsb' 0 32).toNat
def mkAsid (part encl root : Nat) : W64 :=
  BitVec.ofNat 64 (2 ^ 63 + (part % 64) * 2 ^ 48 + (encl % 65536) * 2 ^ 32 + root % 2 ^ 32)

/-- The partition of an enclave id, and its ASID. -/
def enclPart (s : State) (id : Nat) : Option Nat := (smFind? s.encls id).map (·.part)
def enclAsid (s : State) (id : Nat) : Nat := ((smFind? s.encls id).map (·.asid)).getD 0

/-! ### Walks (R360 to R363, R368) -/

/-- The access kinds a permission serves. -/
inductive Need where | r | w | x
deriving DecidableEq, Repr

/-- Levels 4 to 0: the index of a VA, and the bits below a leaf of that level (R360). -/
def vaIndex (lvl va : Nat) : Nat :=
  match lvl with
  | 4 => va / 2 ^ 48 % 512
  | 3 => va / 2 ^ 39 % 512
  | 2 => va / 2 ^ 31 % 256
  | 1 => va / 2 ^ 21 % 1024
  | _ => va / 2 ^ 12 % 512

def leafBits (lvl : Nat) : Nat :=
  match lvl with
  | 2 => 31
  | 1 => 21
  | _ => 12

def pteV (p : W64) : Bool := p.getLsbD 0
def pteLeaf (p : W64) : Bool := p.getLsbD 1
def pteR (p : W64) : Bool := p.getLsbD 2
def pteW (p : W64) : Bool := p.getLsbD 3
def pteX (p : W64) : Bool := p.getLsbD 4
def pteC64 (p : W64) : Bool := p.getLsbD 5
def pteMt (p : W64) : Nat := (p.extractLsb' 58 2).toNat
def ptePa (p : W64) : Nat := (p.extractLsb' 12 32).toNat * 4096
/-- A leaf, R, W and X as bits 0, 1 and 2 of `rwx`. -/
def mkLeaf (pa rwx mt : Nat) : W64 :=
  BitVec.ofNat 64 (mt * 2 ^ 58 + pa / 4096 * 4096 % 2 ^ 44 + (rwx % 8) * 4 + 3)
def mkTablePte (pa : Nat) : W64 := BitVec.ofNat 64 (pa / 4096 * 4096 % 2 ^ 44 + 1)

/-- Whether an entry breaks R362 at its level. -/
def pteBad (lvl : Nat) (p : W64) : Bool :=
  if !pteV p then false
  else if decide ((p &&& 0xF3FFF00000000FC0#64) ≠ 0) then true
  else if pteLeaf p then
    decide (2 < lvl)
      || decide (ptePa p % 2 ^ leafBits lvl ≠ 0)
      || (pteW p && !pteR p)
      || decide (1 < pteMt p)
      || (decide (pteMt p = 1) && (decide (lvl ≠ 0) || !pteR p || !pteW p || pteX p || decide (ptePa p / 2 ^ 28 ≠ 0)))
      || (pteC64 p && decide (lvl ≠ 0))
  else
    decide (lvl = 0) || pteR p || pteW p || pteX p || pteC64 p || decide (pteMt p ≠ 0)

/-- Whether the entry at a place carries C64 where its sixteen entries do not map an aligned 64 KiB run (R362): one is not a
valid leaf with C64, differs in R, W, X or MT, or does not follow the first. -/
def runBad (s : State) (a : Nat) : Bool :=
  let at' (i : Nat) : W64 := BitVec.ofNat 64 (readNat s (a / 128 * 128 + 8 * i) 8)
  decide (ptePa (at' 0) % 65536 ≠ 0) || (List.range 16).any fun i =>
    !pteV (at' i) || !pteLeaf (at' i) || !pteC64 (at' i) || decide (pteR (at' i) ≠ pteR (at' 0)) || decide (pteW (at' i) ≠ pteW (at' 0))
      || decide (pteX (at' i) ≠ pteX (at' 0)) || decide (pteMt (at' i) ≠ pteMt (at' 0)) || decide (ptePa (at' i) ≠ ptePa (at' 0) + 4096 * i)

/-- The entry of a VA in a table. -/
def ptePlace (table lvl va : Nat) : Nat := table + 8 * vaIndex lvl va

/-- What the tables hold for a VA, from a level down: the leaf, its level and its place; nothing mapped; or an entry that
breaks R362. -/
inductive Leaf where
  | leaf (p : W64) (lvl pa : Nat)
  | absent (lvl : Nat)
  | bad (pa : Nat)
  /-- The entry cannot be read: its block is poisoned, fails its tag or has an uncorrectable error (R22, R23). -/
  | unread (code pa : Nat)
  | badAddr (pa : Nat)
deriving DecidableEq, Repr

/-- What stops a walker's read of an entry (R22, R23). -/
def entryFault (s : State) (a : Nat) : Option Nat :=
  if nsHas s.poison (a / 64) || (smFind? s.raw (a / 64)).isSome then some ccIntegrity
  else if nsHas s.ecc (a / 64) then some ccUncorrectable
  else none

def findLeafFrom (s : State) (va : Nat) : Nat → Nat → Leaf
  | lvl, table =>
    match lvl with
    | 0 =>
      let a := ptePlace table 0 va
      if !paOk a then .badAddr a
      else if let some c := entryFault s a then .unread c a
      else
        let p : W64 := BitVec.ofNat 64 (readNat s a 8)
        if !pteV p then .absent 0 else if pteBad 0 p || (pteC64 p && runBad s a) then .bad a else .leaf p 0 a
    | l + 1 =>
      let a := ptePlace table (l + 1) va
      if !paOk a then .badAddr a
      else if let some c := entryFault s a then .unread c a
      else
        let p : W64 := BitVec.ofNat 64 (readNat s a 8)
        if !pteV p then .absent (l + 1)
        else if pteBad (l + 1) p then .bad a
        else if pteLeaf p then .leaf p (l + 1) a
        else findLeafFrom s va l (ptePa p)

def findLeaf (s : State) (asid va : Nat) : Leaf := findLeafFrom s va 4 (asidRoot (asidEntry s asid) * 4096)

/-- The places of the entries that a walk reads (R363). -/
def walkPlacesFrom (s : State) (va : Nat) : Nat → Nat → List Nat
  | 0, table => [ptePlace table 0 va]
  | l + 1, table =>
    let a := ptePlace table (l + 1) va
    let p : W64 := BitVec.ofNat 64 (readNat s a 8)
    if (entryFault s a).isSome || !pteV p || pteBad (l + 1) p || pteLeaf p then [a] else a :: walkPlacesFrom s va l (ptePa p)
def walkPlaces (s : State) (asid va : Nat) : List Nat := walkPlacesFrom s va 4 (asidRoot (asidEntry s asid) * 4096)

/-- The end of a walk (R363): a filled translation, nothing mapped, or a fault with its cause, `logged` where an entry breaks R362
or cannot be read. -/
inductive WalkRes where
  | ok (e : TlbEntry)
  | absent
  | fault (code : Nat) (logged : Bool)
  | badAddr (pa : Nat)
deriving DecidableEq, Repr


def needOk (n : Need) (r w x : Bool) : Bool :=
  match n with
  | .r => r
  | .w => w
  | .x => x

/-- What a POT state allows an enclave (R367): R, W and X, beside what the PTE grants. -/
def potAllows (s : State) (e : W32) (encl part : Nat) : Option (Bool × Bool × Bool) :=
  if potState e = psPrivate then (if potOwner e = encl then some (true, true, true) else none)
  else if potState e = psSharedRo then (if enclPart s (potOwner e) = some part then some (true, false, false) else none)
  else if potState e = psSharedRw then (if enclPart s (potOwner e) = some part then some (true, true, false) else none)
  else none

/-- Whether a leaf allows fetches on a frame that is not private, against R362. -/
def execShared (s : State) (p : W64) : Bool :=
  decide (pteMt p ≠ 1) && pteX p && decide (potState (potEntry s (potGov s (ptePa p / 4096))) ≠ psPrivate)

/-- A walk (R363) and the POT check of its fill (R368). A run of 64 KiB takes owner and version from the frame of the entry
walked: DESIGN CHOICE, notes/assumptions/58.md. -/
def walk (s : State) (asid va : Nat) (need : Need) : WalkRes :=
  let ae := asidEntry s asid
  if !asidV ae then .fault ccPotDeny false
  else if 2 ^ 57 ≤ va then .fault ccPermission false
  else match findLeaf s asid va with
    | .badAddr a => .badAddr a
    | .absent _ => .absent
    | .bad _ => .fault ccPermission true
    | .unread c _ => .fault c true
    | .leaf p lvl _ =>
      if execShared s p then .fault ccPermission true
      else if !needOk need (pteR p) (pteW p) (pteX p) then .fault ccPermission false
      else
        let bits := if pteC64 p then 16 else leafBits lvl
        let base := va / 2 ^ bits
        if pteMt p = 1 then
          if ptePa p / 4096 % 65536 = asidEncl ae then
            .ok ⟨asid, base, bits, ptePa p, pteR p, pteW p, false, 1, asidEncl ae, 0, asid⟩
          else .fault ccPotDeny false
        else
          let frame := ptePa p / 4096
          let gov := if lvl = 0 then frame else potGov s frame
          let pe := potEntry s gov
          if lvl = 0 ∧ potSz pe = 3 then .fault ccPotDeny false
          else match potAllows s pe (asidEncl ae) (asidPart ae) with
            | none => .fault ccPotDeny false
            | some a =>
              if !needOk need a.1 a.2.1 a.2.2 then .fault ccPotDeny false
              else
                let key := if potState pe = psPrivate then asid else enclAsid s (potOwner pe)
                let pa := if pteC64 p then ptePa p / 65536 * 65536 else ptePa p
                .ok ⟨asid, base, bits, pa, pteR p && a.1, pteW p && a.2.1, pteX p && a.2.2, 0, potOwner pe, potVer pe, key⟩

/-- The cached translation of a VA (R364). -/
def tlbFind (l : List TlbEntry) (asid va : Nat) : Option TlbEntry :=
  l.find? fun e => decide (e.asid = asid) && decide (e.vpn = va / 2 ^ e.bits)

/-- The physical address of a VA through an entry. -/
def tlbPa (e : TlbEntry) (va : Nat) : Nat := e.pa + va % 2 ^ e.bits

/-- What a translation cache answers. -/
inductive Trans where
  | hit (e : TlbEntry) (pa : Nat)
  | miss
  | fault (code : Nat)
deriving DecidableEq, Repr

/-- A lookup for an access (R360, R364). -/
def lookup (l : List TlbEntry) (asid va : Nat) (need : Need) : Trans :=
  if 2 ^ 57 ≤ va then .fault ccPermission
  else match tlbFind l asid va with
    | none => .miss
    | some e => if needOk need e.r e.w e.x then .hit e (tlbPa e va) else .fault ccPermission

/-! ### Kick pages (R38) -/

/-- KSTAT of a kick register. -/
def kstat (k : Kick) : Nat := k.taken.toNat * 2 ^ 32 + k.lasterr.toNat * 256 + k.pend.length

/-- A byte of an enclave's kick page as it reads. -/
def kickByte (s : State) (encl off : Nat) : Byte :=
  match smFind? s.encls encl with
  | none => 0
  | some e => if off % 256 < 8 then BitVec.ofNat 8 (kstat (smGet {} e.kicks (off / 256 % 16)) / 256 ^ (off % 256)) else 0

/-- A kick page's enclave id, from the address its translation gives (R361). -/
def kickEncl (p : Nat) : Nat := p / 4096 % 65536

/-- Bytes a data access reads through a translation. -/
def readThrough (s : State) (e : TlbEntry) (p n : Nat) : List Byte :=
  if e.mt = 1 then (rangeFrom (p % 4096) n).map (kickByte s (kickEncl p)) else readBytes s p n

/-- A translation made at once, by an agent whose whole access is one step (Rowan, the dispatcher, the host, a hart): the
walk itself. -/
def transNow (s : State) (asid va : Nat) (need : Need) : WalkRes × Nat :=
  match walk s asid va need with
  | .ok e => (.ok e, tlbPa e va)
  | r => (r, 0)

/-- Reads `n` bytes at a VA that lie in one page, as an agent of one step: none where any check fails. DEDUCED,
notes/assumptions/21.md. -/
def readVa (s : State) (asid va n : Nat) : Option (List Byte) :=
  match transNow s asid va .r with
  | (.ok e, pa) =>
    let p := fwdPa s pa
    if e.mt = 1 then some (readThrough s e pa n)
    else if !paOk p ∨ (inWindow p ∧ !windowBacked s p) ∨ dataBad s p n e.key e.ver then none else some (readBytes s p n)
  | _ => none

def readVaNat (s : State) (asid va n : Nat) : Option Nat := (readVa s asid va n).map natOfBytes

end Sys2Proof.Machine
end

