-- ==== Sys2Proof/Machine/Ops.lean ====
section
/-! DEFINITION. Named operations over threads, warps, teams and cores: registers, readiness, taking a trap and returning
from one, ending a team (R44 to R54, R89, R190 to R206). -/
namespace Sys2Proof.Machine

/-! ### Accessors -/

def getTh (s : State) (t : Nat) : Thread := smGet {} s.threads t
def setTh (s : State) (t : Nat) (x : Thread) : State := { s with threads := smPut s.threads t x }
def modTh (s : State) (t : Nat) (f : Thread → Thread) : State := setTh s t (f (getTh s t))
/-- A change of every acting thread. -/
def inThreads (s : State) (acting : List Nat) (f : Nat → Thread → Thread) : State := acting.foldl (fun s t => modTh s t (f t)) s
def getWarp (s : State) (w : Nat) : Warp := smGet {} s.warps w
def setWarp (s : State) (w : Nat) (x : Warp) : State := { s with warps := smPut s.warps w x }
def modWarp (s : State) (w : Nat) (f : Warp → Warp) : State := setWarp s w (f (getWarp s w))
def getTeam (s : State) (k : Nat) : Team := smGet {} s.teams k
def setTeam (s : State) (k : Nat) (x : Team) : State := { s with teams := smPut s.teams k x }
def modTeam (s : State) (k : Nat) (f : Team → Team) : State := setTeam s k (f (getTeam s k))
def getCore (s : State) (c : Nat) : Core := smGet {} s.cores c
def setCore (s : State) (c : Nat) (x : Core) : State := { s with cores := smPut s.cores c x }
def modCore (s : State) (c : Nat) (f : Core → Core) : State := setCore s c (f (getCore s c))
def getGrove (s : State) (g : Nat) : Option Grove := smFind? s.groves g
def setGrove (s : State) (g : Nat) (x : Grove) : State := { s with groves := smPut s.groves g x }
def getPart (s : State) (p : Nat) : Partition := smGet {} s.parts p
def setPart (s : State) (p : Nat) (x : Partition) : State := { s with parts := smPut s.parts p x }
def modPart (s : State) (p : Nat) (f : Partition → Partition) : State := setPart s p (f (getPart s p))
def getEncl (s : State) (e : Nat) : Option Enclave := smFind? s.encls e
def setEncl (s : State) (e : Nat) (x : Enclave) : State := { s with encls := smPut s.encls e x }
def getHart (s : State) (h : Nat) : Hart := smGet {} s.harts h
def setHart (s : State) (h : Nat) (x : Hart) : State := { s with harts := smPut s.harts h x }
def getHeather (s : State) (st : Nat) : Heather := smGet {} s.heather st
def setHeather (s : State) (st : Nat) (x : Heather) : State := { s with heather := smPut s.heather st x }

/-- Numbers of the parts of a thread (R5, R44). -/
def warpOf (t : Nat) : Nat := t / 32
def laneOf (t : Nat) : Nat := t % 32
def coreOf (t : Nat) : Nat := t / 2048
def wslotOf (t : Nat) : Nat := t / 32 % 64

/-- The fields of a bind record (R417). -/
def bindV (b : BitVec 128) : Bool := b.getLsbD 127
def bindRun (b : BitVec 128) : Bool := b.getLsbD 126
def bindPriv (b : BitVec 128) : Nat := (b.extractLsb' 124 2).toNat
def bindTslot (b : BitVec 128) : Nat := (b.extractLsb' 122 2).toNat
def bindTenant (b : BitVec 128) : Nat := (b.extractLsb' 114 6).toNat
def bindWarp (b : BitVec 128) : Nat := (b.extractLsb' 106 5).toNat

/-- The team of a warp, and of a thread. -/
def teamOfWarp (s : State) (w : Nat) : Nat := (w / 64) * 4 + bindTslot (getWarp s w).bind
def teamOf (s : State) (t : Nat) : Nat := teamOfWarp s (warpOf t)

/-- The warps of a team, by warp number. -/
def teamWarps (s : State) (k : Nat) : List Nat := (getTeam s k).wslots.map fun ws => (k / 4) * 64 + ws

/-- The 32 threads of a warp. -/
def warpThreads (w : Nat) : List Nat := rangeFrom (w * 32) 32

/-- The threads of a warp that have not exited. -/
def liveThreads (s : State) (w : Nat) : List Nat := (warpThreads w).filter fun t => !(getTh s t).exited

/-- A warp has retired when all its lanes have exited (R51). -/
def warpRetired (s : State) (w : Nat) : Bool := (liveThreads s w).isEmpty

def teamThreads (s : State) (k : Nat) : List Nat := (teamWarps s k).flatMap (liveThreads s)

/-- The resident teams of a core. -/
def coreTeams (s : State) (c : Nat) : List Nat := (rangeFrom (c * 4) 4).filter fun k => (getTeam s k).live

/-- The translations that an issue slot of a core finds (R364): its own cache's, then those of the core's second level. -/
def coreTlb (s : State) (core slot : Nat) : List TlbEntry := smGet [] (getCore s core).slotTlb slot ++ (getCore s core).tlb

/-- The translations that a thread finds: those of its warp's issue slot. -/
def threadTlb (s : State) (t : Nat) : List TlbEntry := coreTlb s (coreOf t) (warpOf t % 4)

/-! ### Readiness (R44, R202) -/

/-- Whether a thread may issue: not exited, not waiting (nor an access of it, R47), its team not ended, its warp not pre-empted; in a team halt,
only in handler state, or in the skid of a warp that has not stopped (R199, R202). -/
def threadReady (s : State) (t : Nat) : Bool :=
  let th := getTh s t
  let w := getWarp s (warpOf t)
  let k := getTeam s (teamOf s t)
  !th.exited && th.wait.isNone && (th.mq.all fun o => decide (o.st ≠ .page) && decide (o.st ≠ .blocked)) && th.trapPend.isNone && k.live && !k.ended && bindV w.bind && bindRun w.bind &&
    (!k.halted || th.handler || (!w.stopped && decide (w.skid < 8)))

/-- The ready threads of a warp. -/
def readyThreads (s : State) (w : Nat) : List Nat := (warpThreads w).filter (threadReady s)

/-- The convergence set (R44): the ready threads at the lowest PC. -/
def convergenceSet (s : State) (w : Nat) : List Nat :=
  let r := readyThreads s w
  match minBy (fun t => (getTh s t).pc.toNat) r with
  | none => []
  | some t0 => r.filter fun t => decide ((getTh s t).pc = (getTh s t0).pc)

/-- The set the next issue takes (R45): that of the thread with the highest wait count once one reaches 256. -/
def issueSet (s : State) (w : Nat) : List Nat :=
  let r := readyThreads s w
  let starving := r.filter fun t => decide (256 ≤ (getTh s t).waitCount)
  match minBy (fun t => (1024 - (getTh s t).waitCount) * 2 ^ 64 + (getTh s t).pc.toNat) starving with
  | none => convergenceSet s w
  | some t0 => r.filter fun t => decide ((getTh s t).pc = (getTh s t0).pc)

/-- The mask of a set of threads of a warp. -/
def maskOf (l : List Nat) : BitVec 32 := l.foldl (fun m t => m ||| ((1 : BitVec 32) <<< laneOf t)) 0

/-- The threads a mask names. -/
def maskThreads (w : Nat) (m : BitVec 32) : List Nat := (warpThreads w).filter fun t => m.getLsbD (laneOf t)

/-! ### Registers (R55, R89, R118, R197) -/

def rdW (th : Thread) (r : Nat) : W32 := smGet 0 th.regs r
def rdW64 (th : Thread) (r : Nat) : W64 := rdW th (r + 1) ++ rdW th r
/-- Writes a whole w register: its poison is cleared (R197) and its line is dirty. -/
def wrW (th : Thread) (r : Nat) (v : W32) : Thread :=
  { th with
    regs := smSet 0 th.regs r v
    poison := nsDel th.poison r
    dirty := th.dirty ||| ((1 : BitVec 32) <<< (r / 8)) }
def wrW64 (th : Thread) (r : Nat) (v : W64) : Thread := wrW (wrW th r (v.extractLsb' 0 32)) (r + 1) (v.extractLsb' 32 32)

def rdS (w : Warp) (r : Nat) : W64 := smGet 0 w.s r
def wrS (w : Warp) (r : Nat) (v : W64) : Warp :=
  { w with s := smSet 0 w.s r v, spoison := nsDel w.spoison r, sdirty := w.sdirty ||| ((1 : BitVec 17) <<< (r / 4)) }

/-- Predicate p(i); index 7 is the constant 1 (R132). -/
def rdP (th : Thread) (p : Nat) : Bool := if p = 7 then true else th.preds.getLsbD p
def wrP (th : Thread) (p : Nat) (b : Bool) : Thread :=
  { th with preds := if b then th.preds ||| ((1 : BitVec 7) <<< p) else th.preds &&& ~~~((1 : BitVec 7) <<< p) }

/-- Loop counters (R178). -/
def getLc (th : Thread) (k : Nat) : W32 := match k with | 0 => th.lc0 | 1 => th.lc1 | _ => th.lc2
def setLc (th : Thread) (k : Nat) (v : W32) : Thread :=
  match k with
  | 0 => { th with lc0 := v }
  | 1 => { th with lc1 := v }
  | _ => { th with lc2 := v }
/-- The loop depth (R178). -/
def loopDepth (th : Thread) : Nat :=
  if th.lc0 = 0 then 0 else if th.lc1 = 0 then 1 else if th.lc2 = 0 then 2 else 3

/-- Whether a loop entry of a warp is held (R178), after the counters in `s`. -/
def entryHeld (s : State) (w k : Nat) : Bool := (liveThreads s w).any fun t => decide (k < loopDepth (getTh s t))

/-- Frees the loop entries no thread holds, and makes those that `mts` made held unbound (R178, R182). -/
def settleLoops (s : State) (w : Nat) : State :=
  let wp := getWarp s w
  let one (m : SMap LoopEntry) (k : Nat) : SMap LoopEntry :=
    if entryHeld s w k then (match smFind? m k with
      | some _ => m
      | none => smPut m k ⟨none, []⟩)
    else smDel m k
  setWarp s w { wp with loops := one (one (one wp.loops 0) 1) 2 }

/-- Sets flags of a warp (R68). -/
def orFlags (s : State) (w : Nat) (f : W32) : State :=
  if f = 0 then s else modWarp s w fun x => { x with flags := x.flags ||| f }

/-! ### Operations in flight (R93) -/

/-- The w registers an operation still has to write. -/
def mopDst (o : MemOp) : List Nat :=
  match o.kind with
  | .load _ _ d => d
  | .ldf _ d => d
  | .atomic _ _ _ _ d _ _ => d
  | _ => []

/-- Whether a word with this operation completes only when it performs (R93). -/
def mopOpen (o : MemOp) : Bool :=
  match o.kind with
  | .sld _ => true
  | .enq _ _ => true
  | _ => !(mopDst o).isEmpty

def flightW (th : Thread) : List Nat := th.mq.flatMap mopDst

/-- The s registers a warp's `sld` and `qsub` words still have to write. -/
def flightS (s : State) (w : Nat) : List Nat :=
  ((warpThreads w).flatMap fun t => (getTh s t).mq.filterMap fun o =>
    match o.kind with
    | .sld d => some d
    | _ => none) ++
  (getTeam s (teamOfWarp s w)).matPend.filterMap fun m =>
    match m.op with
    | .qsub _ _ d t _ _ => if warpOf t = w then some d else none
    | _ => none

/-- Whether every lookahead window of a thread lets one more word issue (R93). -/
def windowsOpen (th : Thread) : Bool := th.mq.all fun o => !mopOpen o || decide (0 < o.la)

/-- One word later in every window. -/
def tickWindows (th : Thread) : Thread :=
  { th with mq := th.mq.map fun o => { o with la := o.la - 1 } }

/-- Whether a thread waits in a word that has begun and not completed (R47): in any wait but that of a fetch. -/
def waitOpen (th : Thread) : Bool :=
  match th.wait with
  | none => false
  | some (.page _ _ kind _) => decide (kind ≠ 1)
  | some _ => true

/-- Whether a warp has no word that has issued and not committed (R68, R93, R208). -/
def warpCommitted (s : State) (w : Nat) : Bool :=
  ((warpThreads w).all fun t => !waitOpen (getTh s t) && (getTh s t).mq.all fun o => !mopOpen o)
    && (getTeam s (teamOfWarp s w)).matPend.all fun m => m.threads.all fun t => decide (t / 32 ≠ w)

/-- Whether a thread's store buffer is empty (R236): every store, atomic and reduction issued has performed. -/
def isStore (o : MemOp) : Bool :=
  match o.kind with
  | .load _ _ _ => false
  | .sld _ => false
  | .ldf _ _ => false
  | .maint _ _ => false
  | _ => true

def storesDrained (th : Thread) : Bool := th.mq.all fun o => !isStore o

/-! ### Ending a team (R48, R51, R203, R206) -/

/-- Operations of an ended team that still reach their homes: its stores, atomics and reductions, without those in a wait
of R47. -/
def endedMq (q : List MemOp) : List MemOp :=
  q.filter fun o => isStore o && decide (o.st ≠ .page) && decide (o.st ≠ .blocked)

/-- A thread of an ended team: it issues nothing more, its waits are abandoned (R48). -/
def endThread (th : Thread) : Thread :=
  { th with
    exited := true, wait := none, pageWait := none, trapPend := none, handler := false, trapped := false, returned := false, pend := none,
    denied := false, refused := none, snapped := false,
    mq := endedMq th.mq, lc0 := 0, lc1 := 0, lc2 := 0 }

/-- Drops the team's queued and running jobs (R51, R250). -/
def dropJobs (c : Core) (ts : Nat) : Core :=
  { c with
    jobs := c.jobs.filter fun j => decide (j.tslot ≠ ts)
    running := c.running.bind fun n => if c.jobs.any (fun j => decide (j.num = n) && decide (j.tslot = ts)) then none else some n
    grows := c.grows.filter fun g => decide (g.tslot ≠ ts) }

/-- Drops the team's queries (R353). -/
def dropQueries (s : State) (core ts : Nat) : State :=
  let mine (q : Query) : Bool := decide (q.core = core) && decide (q.tslot = ts)
  { s with heather := s.heather.map fun h =>
      (h.1, { h.2 with
        admitQ := h.2.admitQ.filter fun q => !mine q
        ctxs := h.2.ctxs.filter fun c => !mine c.2.q
        cancelled := h.2.cancelled.filter fun q => !mine q }) }

/-- Ends a team as `tkill` ends it (R206): its waits, jobs and queries are dropped; its retirement follows when its stores
have reached their homes (R51). -/
def endTeam (s : State) (k : Nat) : State :=
  let tm := getTeam s k
  let core := k / 4
  let ts := k % 4
  let ths := teamThreads s k
  let s1 := ths.foldl (fun s t => modTh s t endThread) s
  let s2 := modCore { s1 with cores := s1.cores.map fun c =>
      (c.1, { c.2 with granWait := c.2.granWait.filter fun g => !(ths.any fun t => decide (t = g.2)) }) } core
    fun c => dropJobs c ts
  let s3 := dropQueries s2 core ts
  let s4 := modPart s3 tm.part fun p =>
    { p with
      svcPend := p.svcPend.filter fun r => !(ths.any fun t => decide (t = r.thread))
      svcWait := p.svcWait.filter fun r => !(ths.any fun t => decide (t = r)) }
  let s5 := { s4 with
    rowan := { s4.rowan with queue := s4.rowan.queue.filter fun c => !(ths.any fun t => decide (t = c.thread)) }
    maints := s4.maints.filter fun m => !(ths.any fun t => decide (t = m.thread)) }
  let s6 := (teamWarps s5 k).foldl (fun s w => modWarp s w fun x => { x with openCard := none, loops := [] }) s5
  modTeam s6 k fun x => { x with
    ended := true, halted := false, runHeld := [], matPend := []
    keeps := (ths.map fun t => 4 * (getTh s t).nregs).foldl (· + ·) x.keeps }

/-! ### Taking a trap (R193, R199 to R203) -/

def ccIllegalOpcode : Nat := 0x01
def ccIllegalForm : Nat := 0x02
def ccIllegalPair : Nat := 0x03
def ccPrivilege : Nat := 0x04
def ccRegQuota : Nat := 0x05
def ccUniform : Nat := 0x06
def ccLoopDepth : Nat := 0x07
def ccAccToken : Nat := 0x08
def ccBadRsv : Nat := 0x09
def ccSoftware : Nat := 0x0A
def ccBreak : Nat := 0x0B
def ccSatArmed : Nat := 0x0C
def ccNanArmed : Nat := 0x0D
def ccHandlerState : Nat := 0x0E

/-- The record of a precise trap at a word (R193). -/
def preciseTrap (code : Nat) (pc : W64) : TrapInfo := ⟨code, 0, false, false, pc, 0, none⟩

/-- The record of a precise fetch fault (R171, R193). -/
def fetchTrap (code : Nat) (pc : W64) : TrapInfo := ⟨code, 1, false, false, pc, pc, none⟩

/-- The record of a late report at a word (R193, R195). -/
def lateTrap (p : PendFault) (pc : W64) : TrapInfo :=
  ⟨p.code, p.kind, true, p.more, pc, p.va,
    some (p.originVa.extractLsb' 0 32, p.originVa.extractLsb' 32 32, p.dst, p.bytes)⟩

/-- A warp when a halt is raised (R199, R200): the reporting warp stops at once; a wholly waiting or pre-empted warp has
no skid. -/
def haltWarp (s : State) (by' w : Nat) : State :=
  let idle := (readyThreads s w).isEmpty
  modWarp s w fun x => { x with stopped := decide (w = by') || idle, skid := 0, reporter := decide (w = by') }

/-- Taking a trap: the threads that trap in one word of a warp raise a team halt, or add to the halt under way (R199,
R202); a word that traps in the skid of its warp has issued and counts (R200). The word commits in no thread, so every PC stays. The team ends when it has no handler, or when a thread in
handler state traps (R203). The handler is entered by HANDLER_ENTRY once every warp has stopped. -/
def raiseTraps (s : State) (w : Nat) (traps : List (Nat × TrapInfo)) : State :=
  let k := teamOfWarp s w
  let tm := getTeam s k
  if traps.isEmpty then { s with turn := .idle }
  else if tm.tvec = 0 ∨ (traps.any fun x => (getTh s x.1).handler) then { endTeam s k with turn := .idle }
  else
    let issued := traps.any fun x => decide (x.2.kind ≠ 1)
    let s1 := if tm.halted then modWarp s w fun x =>
        { x with stopped := true, reporter := true, skid := if issued then x.skid + 1 else x.skid }
      else modTeam ((teamWarps s k).foldl (fun s v => haltWarp s w v) s) k fun x => { x with halted := true }
    let s2 := traps.foldl (fun s x => modTh s x.1 fun th =>
      { th with trapPend := some x.2, pend := if x.2.late then none else th.pend }) s1
    { s2 with turn := .idle }

/-- The TCAUSE word of a trap (R191). -/
def tcauseWord (t : TrapInfo) : W32 :=
  BitVec.ofNat 32 ((if t.late then 2 ^ 31 else 0) + (if t.late then 2 * 2 ^ 28 else 0) + (if t.more then 2 ^ 27 else 0)
    + t.kind * 2 ^ 16 + t.code)

/-- A thread enters handler state (R193, R202). -/
def enterHandler (tvec : W64) (th : Thread) (t : TrapInfo) : Thread :=
  let th1 := { th with
    trapPend := none, trapped := true, handler := true, returned := false, waitCount := 0, denied := false, refused := none,
    tcause := tcauseWord t, tepc := t.tepc, tva := t.tva, pc := tvec }
  match t.snap with
  | some (a, b, c, d) => { th1 with tsnap0 := a, tsnap1 := b, tsnap2 := c, tsnap3 := d }
  | none => th1

/-- The resumption of a team whose last handler thread has returned (R205). -/
def resumeTeam (s : State) (k : Nat) : State :=
  let s1 := (teamThreads s k).foldl (fun s t => modTh s t fun th =>
    { th with trapped := false, returned := false, waitCount := 0 }) s
  let s2 := (teamWarps s k).foldl (fun s w => modWarp s w fun x => { x with stopped := false, skid := 0, reporter := false }) s1
  modTeam s2 k fun x => { x with halted := false }

/-- Resumes the team when no thread is in handler state and none has still to enter it (R205). -/
def resumeIfDone (s : State) (k : Nat) : State :=
  if (getTeam s k).halted && (teamThreads s k).all (fun t => !(getTh s t).handler && (getTh s t).trapPend.isNone) then
    resumeTeam s k
  else s

/-- The return from a trap in one thread (R204). -/
def rettThread (th : Thread) : Thread :=
  { th with handler := false, returned := true, pc := th.tepc &&& ~~~(7 : W64) }

/-! ### Late faults (R194, R195) -/

/-- A late fault arises in a thread: its unwritten destinations are poisoned and the pending record is filled. `dst` lists
the w destinations. TSNAP2 of a word with one 64-bit s destination, or with eight w destinations: DESIGN CHOICE,
notes/assumptions/42.md. -/
def lateFault (s : State) (t : Nat) (code kind : Nat) (va : W64) (origin : W64) (dst : List Nat) (sdst : Option Nat)
    (bytes : W32) : State :=
  let th := getTh s t
  let n := match sdst with
    | some _ => 1
    | none => Nat.min dst.length 4
  let first := match sdst with
    | some d => d
    | none => dst.headD 0
  let word : W32 := BitVec.ofNat 32 (first % 256 + n * 256 + (2 ^ n - 1) * 65536 +
    (match sdst with
      | some _ => 2 ^ 31
      | none => 0))
  let pend := match th.pend with
    | none => some ⟨code, kind, va, origin, word, bytes, false⟩
    | some p => some { p with more := true }
  setTh s t { th with
    poison := dst.foldl nsAdd th.poison
    pend := pend
    dirty := dst.foldl (fun d r => d ||| ((1 : BitVec 32) <<< (r / 8))) th.dirty }

/-! ### Identity values (R5, R37, R87) -/

/-- The identity code 320 + k of a thread. -/
def identVal (s : State) (t : Nat) (k : Nat) : Nat :=
  let tm := getTeam s (teamOf s t)
  let c := coreOf t
  let w := getWarp s (warpOf t)
  match getGrove s tm.grove with
  | none => 0
  | some g =>
    match k with
    | 0 => laneOf t
    | 1 => bindWarp w.bind
    | 2 => tm.tnum
    | 3 => tm.tnum % g.gw
    | 4 => tm.tnum / g.gw
    | 5 => c % 128 % 16
    | 6 => c % 128 / 16
    | 7 => c / 128
    | 8 => c % 128
    | 9 => c
    | 10 => g.gw
    | 11 => g.gh
    | 12 => g.gx
    | 13 => g.gy
    | 14 => g.gridw
    | 15 => g.gridh
    | 16 => g.gy * g.gridw + g.gx
    | 17 => tm.warps
    | 18 => (getTh s t).nregs
    | _ => tm.step

/-! ### The host port's registers (R18, R19, R24, R32) -/

/-- The state of a VF's TDI. -/
def getTdi (s : State) (vf : Nat) : TdiState := smGet .unlocked s.host.tdi vf
def setTdi (s : State) (vf : Nat) (t : TdiState) : State := { s with host := { s.host with tdi := smSet .unlocked s.host.tdi vf t } }
/-- Whether PF0's registers respond: the host port has left boot mode. -/
def pf0Up (s : State) : Bool := !s.boot.hostBoot
/-- Whether a partition's VF registers respond: the partition is live and its TDI is not in ERROR. -/
def vfUp (s : State) (p : Nat) : Bool := pf0Up s && (getPart s p).live && decide (getTdi s (p + 1) ≠ .error)
/-- Whether an access through a partition's VF meets a TDI in ERROR, and its answer: Unsupported Request (R19), and an entry of the
security log (R441). DESIGN CHOICE, notes/assumptions/29.md. -/
def vfErred (s : State) (p : Nat) : Bool := pf0Up s && decide (p < 64) && decide (getTdi s (p + 1) = .error)
def answerUnsupported (s : State) (p : Nat) : State :=
  { s with host := { s.host with reply := some .unsupported, log := s.host.log ++ [.refused s.clock ccPotDeny 1 (p + 1) 3 0 0] } }

/-! ### Metering (R430, R431) -/

/-- Adds to a metering counter, which stays at 2^64 − 1 once there (R431). -/
def meter (s : State) (p i n : Nat) : State :=
  if n = 0 then s
  else modPart s p fun x => { x with meters := smMod 0 x.meters i fun v => Nat.min (v + n) (2 ^ 64 - 1) }

/-- The partition of a core (R416): 64 and above when none. -/
def corePart (s : State) (c : Nat) : Nat :=
  let v := smGet 0 s.host.coreTab c % 128
  if v = 0 then 128 else v - 1

/-- Adds events to the performance counters of a partition that select them (R429). -/
def pmcEvent (s : State) (p code n : Nat) : State :=
  let x := getPart s p
  let hit := x.pmsel.filter fun c => decide (c.2.toNat % 256 = code) && c.2.getLsbD 8
  if hit.isEmpty then s
  else setPart s p { x with pmc := hit.foldl (fun m c => smMod 0 m c.1 fun v => v + BitVec.ofNat 48 n) x.pmc }

/-- Events of a core (R429): they count for the partition that its core-table entry names. -/
def corePmc (s : State) (core code n : Nat) : State := if corePart s core < 64 then pmcEvent s (corePart s core) code n else s

/-- The indices of the metering counters (R431). -/
def mCorecyc : Nat := 0
def mBusy4 : Nat := 1
def mBusy8 : Nat := 2
def mBusy16 : Nat := 3
def mMac4 : Nat := 4
def mMac8 : Nat := 5
def mMac16 : Nat := 6
def mVeciss : Nat := 7
def mHbmb : Nat := 8
def mTierb : Nat := 9
def mLinkb : Nat := 10
def mSearchev : Nat := 11
def mWallns : Nat := 12

/-- The partition a frame's bytes are metered to (R366, R431): that of its owner, or that whose quota holds it; Rowan's own
frames, and those of no quota, are metered to none. DEDUCED, notes/assumptions/33.md. -/
def framePart (s : State) (pa : Nat) : Option Nat :=
  let e := potEntry s (potGov s (pa / 4096))
  if potState e = psRowan then none
  else if potState e = psFree then (if potOwner e = 0xFFFF then none else some (potOwner e % 64))
  else enclPart s (potOwner e)

/-- Meters data bytes that cross a tier's interface. -/
def meterTier (s : State) (pa n : Nat) : State :=
  match framePart s pa with
  | none => s
  | some p => if inHbm pa then meter s p mHbmb n else if inWindow pa then s else meter s p mTierb n

/-- Meters a range of data bytes that crosses a tier's interface, frame by frame. -/
def meterSpan (s : State) (pa n : Nat) : State :=
  (blocksOf 4096 pa n).foldl (fun s f =>
    meterTier s (f * 4096) (Nat.min (pa + n) (f * 4096 + 4096) - Nat.max pa (f * 4096))) s

/-- The line of an access at its home may have been fetched from its tier (R431); what a meadow store holds of clean lines is
free. -/
def meterLine (s : State) (pa : Nat) : State := if Config.lineFetched s.n then meterTier s pa 128 else s

/-- The lines of a range that an agent reads at their homes may have been fetched from their tier (R431). -/
def meterLines (s : State) (pa n : Nat) : State :=
  if Config.lineFetched s.n then meterSpan s (pa / 128 * 128) (128 * (blocksOf 128 pa n).length) else s

/-- A line written back to its tier (R254, R431). -/
def writeBackMetered (s : State) (line : Nat) : State :=
  match smFind? s.stale line with
  | none => s
  | some _ => meterTier (writeBack s line) (line * 128) 128

end Sys2Proof.Machine
end

