-- ==== Sys2Proof/Machine/Flags.lean ====
section
/-! DEFINITION. Flags and AMAX at a commit (R67 to R71). -/
namespace Sys2Proof.Machine

/-- Folds source values into a warp's AMAX, in any order (R70, R71). -/
def foldAmax (s : State) (w : Nat) (vs : List FVal) : State :=
  if vs.isEmpty then s
  else modWarp s w fun x => vs.foldl (fun x v =>
    let r := amaxFold x.amax v
    { x with amax := r.1, flags := x.flags ||| r.2 }) x

/-- The team's flag value: the OR of its non-retired warps' FLAGS (R68). -/
def teamFlags (s : State) (k : Nat) : W32 :=
  ((teamWarps s k).filter fun w => !warpRetired s w).foldl (fun f w => f ||| (getWarp s w).flags) 0

/-- The armed check of R69: the code it traps with. -/
def armedTrap (s : State) (k : Nat) : Option Nat :=
  let f := teamFlags s k
  let a := (getTeam s k).arms
  if (f &&& flSat) ≠ 0 ∧ a.getLsbD 0 then some ccSatArmed
  else if (f &&& flNan) ≠ 0 ∧ a.getLsbD 1 then some ccNanArmed
  else none

end Sys2Proof.Machine
end

