-- ==== Sys2Proof/Machine/Image.lean ====
section
/-! DEFINITION. The context image of a team in its partition's pool, and the register lines that move between it and the
register cache (R117 to R120, R194). -/
namespace Sys2Proof.Machine

/-! ### Where an image lies (R117, R416) -/

/-- The 2 MiB pages of a partition's context pool beside a meadow: its areas on that stack after the 16 pages of the shadow
area. -/
def poolPages (s : State) (p m : Nat) : List Nat :=
  ((getPart s p).areas.filter fun f => inHbm (f * 4096) && decide (stackOf (f * 4096) = m)).drop 16

/-- The physical address of a byte of a team's image. -/
def imgPa (s : State) (k o : Nat) : Option Nat :=
  let tm := getTeam s k
  let x := tm.img % 2 ^ 40 + o
  ((poolPages s tm.part (tm.img / 2 ^ 40))[x / 2097152]?).map fun f => f * 4096 + x % 2097152

/-- The pages of a meadow's shadow area (R416, R423). -/
def shadowPages (s : State) (p m : Nat) : List Nat :=
  ((getPart s p).areas.filter fun f => inHbm (f * 4096) && decide (stackOf (f * 4096) = m)).take 16

/-- The place, among the blocks whose key has been erased, of a block of an image; a frame's is its number. -/
def lostImage (b : Nat) : Nat := 2 ^ 40 + b

/-- The blocks of a range are held under the key of an ASID (R117, R400, R402). -/
def keyBlocks (s : State) (asid pa n : Nat) : State :=
  { s with
    imgKeys := (blocksOf 64 pa n).foldl (fun m b => smPut m b asid) s.imgKeys
    lost := (blocksOf 64 pa n).foldl (fun m b => smDel m (lostImage b)) s.lost }

/-- Bytes of an image are written under the key of the team's ASID (R117, R402), and leave for the tier at once. -/
def writeImg (s : State) (k o : Nat) (bs : List Byte) : State :=
  match imgPa s k o with
  | none => s
  | some pa => keyBlocks ((blocksOf 128 pa bs.length).foldl writeBackMetered (writeBytes s pa bs)) (getTeam s k).asid pa bs.length

/-- Bytes `o` to `o` + `n` − 1 of an image, at `pa`: the spec gives it no layout, so its bytes are free (R411, R412, R422). -/
def writeFree (s : State) (asid pa o n : Nat) : State :=
  keyBlocks ((blocksOf 128 pa n).foldl writeBackMetered (writeBytes s pa ((rangeFrom o n).map (Config.swapByte s.n)))) asid pa n

/-- Whether a block of an image fails its check when it is read under the key of an ASID (R402, R406): poison, a tag, ECC, or
another key. -/
def keyedBad (s : State) (asid b : Nat) : Bool :=
  nsHas s.poison b || (smFind? s.raw b).isSome || nsHas s.ecc b
    || !decide (smFind? s.imgKeys b = some asid) || (smFind? s.lost (lostImage b)).isSome

/-! ### What the lines hold (R117, R118, R194) -/

/-- The offset of a warp's block, and of the w area. -/
def warpBlock (i : Nat) : Nat := 0x400 + i * 0x1400
def wArea (tm : Team) : Nat := 0x400 + tm.warps * 0x1400

/-- The team of a line. -/
def lineTeam (s : State) (l : RegLine) : Nat :=
  match l with
  | .w t _ => teamOf s t
  | .sr w _ => teamOfWarp s w
  | .lane t _ => teamOf s t
  | .team k => k

/-- The offset of a line in its team's image. -/
def lineOffset (s : State) (l : RegLine) : Nat :=
  let warpNo (w : Nat) : Nat := bindWarp (getWarp s w).bind
  match l with
  | .w t i => wArea (getTeam s (teamOf s t)) + (warpNo (warpOf t) * 32 + laneOf t) * (getTeam s (teamOf s t)).quota * 4 + i * 32
  | .sr w i => warpBlock (warpNo w) + i * 32
  | .lane t i => warpBlock (warpNo (warpOf t)) + 0x400 + laneOf t * 0x80 + i * 32
  | .team _ => 0

/-- The pending fault record's 32 bytes. DESIGN CHOICE, notes/assumptions/44.md. -/
def pendBytes (p : Option PendFault) : List Byte :=
  match p with
  | none => List.replicate 32 0
  | some f => bytesOfNat 4 (2 ^ 31 + (if f.more then 2 ^ 27 else 0) + f.kind * 2 ^ 16 + f.code) ++ bytesOfNat 4 f.dst.toNat
      ++ bytesOfNat 8 f.va.toNat ++ bytesOfNat 8 f.originVa.toNat ++ bytesOfNat 4 f.bytes.toNat ++ bytesOfNat 4 0

/-- A poison map as a number. -/
def poisonMap (l : NSet) : Nat := l.foldl (fun m r => m + 2 ^ r) 0

/-- The 128 bytes of a lane record. -/
def recBytes (th : Thread) : List Byte :=
  bytesOfNat 8 th.pc.toNat ++ bytesOfNat 8 th.tepc.toNat ++ bytesOfNat 8 th.tva.toNat
    ++ bytesOfNat 4 th.lc0.toNat ++ bytesOfNat 4 th.lc1.toNat ++ bytesOfNat 4 th.lc2.toNat ++ bytesOfNat 4 th.tcause.toNat
    ++ bytesOfNat 4 th.tsnap0.toNat ++ bytesOfNat 4 th.tsnap1.toNat ++ bytesOfNat 4 th.tsnap2.toNat ++ bytesOfNat 4 th.tsnap3.toNat
    ++ bytesOfNat 4 (th.preds.toNat + th.nregs / 8 * 256 + (if th.exited then 2 ^ 16 else 0) + (if th.trapped then 2 ^ 17 else 0)
        + (if th.handler then 2 ^ 18 else 0))
    ++ bytesOfNat 4 0 ++ pendBytes th.pend ++ bytesOfNat 32 (poisonMap th.poison)

/-- The 32 bytes of a line. -/
def lineBytes (s : State) (l : RegLine) : List Byte :=
  match l with
  | .w t i => (rangeFrom (8 * i) 8).flatMap fun r => bytesOfNat 4 (rdW (getTh s t) r).toNat
  | .sr w i =>
    let x := getWarp s w
    if i < 16 then (rangeFrom (4 * i) 4).flatMap fun r => bytesOfNat 8 (rdS x r).toNat
    else bytesOfNat 4 x.flags.toNat ++ bytesOfNat 4 x.amax.toNat ++ bytesOfNat 4 x.tskid.toNat ++ bytesOfNat 4 0
      ++ bytesOfNat 8 (poisonMap x.spoison) ++ bytesOfNat 8 0
  | .lane t i => ((recBytes (getTh s t)).drop (32 * i)).take 32
  | .team k => bytesOfNat 8 (getTeam s k).tvec.toNat ++ bytesOfNat 4 (getTeam s k).arms.toNat ++ bytesOfNat 20 0

/-- A line is written to its image. -/
def writeLine (s : State) (l : RegLine) : State := writeImg s (lineTeam s l) (lineOffset s l) (lineBytes s l)

/-- The pieces of an image that lie in one page of the pool: offset and length. -/
def imgPieces (tm : Team) : List (Nat × Nat) :=
  (blocksOf 2097152 (tm.img % 2 ^ 40) tm.imgSize).map fun b =>
    let lo := Nat.max (b * 2097152) (tm.img % 2 ^ 40)
    (lo - tm.img % 2 ^ 40, Nat.min ((b + 1) * 2097152) (tm.img % 2 ^ 40 + tm.imgSize) - lo)

/-- The whole image of a placed team with the initial values of R36, all of it under the key of the team's ASID (R117). -/
def writeImage (s : State) (k : Nat) : State :=
  let tm := getTeam s k
  let s1 := (imgPieces tm).foldl (fun s x => match imgPa s k x.1 with
    | some pa => keyBlocks (meterSpan (zeroRange s pa x.2) pa x.2) tm.asid pa x.2
    | none => s) s
  let recs := (teamWarps s k).flatMap fun w => (warpThreads w).flatMap fun t => (List.range 4).map (RegLine.lane t)
  let blocks := (teamWarps s k).flatMap fun w => [RegLine.sr w 0]
  (RegLine.team k :: blocks ++ recs).foldl writeLine s1

/-! ### Which lines are present (R118, R119) -/

def linePresent (s : State) (l : RegLine) : Bool :=
  match l with
  | .w t i => (getTh s t).lines.getLsbD i
  | .sr w i => (getWarp s w).slines.getLsbD i
  | .lane t i => (getTh s t).rlines.getLsbD i
  | .team k => (getTeam s k).tline

/-- Marks a line present or absent; a line that leaves is dirty no more. -/
def setLine (s : State) (l : RegLine) (on : Bool) : State :=
  match l with
  | .w t i => modTh s t fun x =>
      { x with
        lines := if on then x.lines ||| ((1 : BitVec 32) <<< i) else x.lines &&& ~~~((1 : BitVec 32) <<< i)
        dirty := if on then x.dirty else x.dirty &&& ~~~((1 : BitVec 32) <<< i) }
  | .sr w i => modWarp s w fun x =>
      { x with
        slines := if on then x.slines ||| ((1 : BitVec 17) <<< i) else x.slines &&& ~~~((1 : BitVec 17) <<< i)
        sdirty := if on then x.sdirty else x.sdirty &&& ~~~((1 : BitVec 17) <<< i) }
  | .lane t i => modTh s t fun x =>
      { x with
        rlines := if on then x.rlines ||| ((1 : BitVec 4) <<< i) else x.rlines &&& ~~~((1 : BitVec 4) <<< i)
        rdirty := if on then x.rdirty else x.rdirty &&& ~~~((1 : BitVec 4) <<< i) }
  | .team k => modTeam s k fun x => { x with tline := on, tdirty := on && x.tdirty }

/-- The line that holds a special register of a thread (R117); CLOCK and BUDGET lie in none. -/
def specialLine (s : State) (t : Nat) (r : SpecialReg) : Option RegLine :=
  match r with
  | .flags => some (.sr (warpOf t) 16)
  | .amax => some (.sr (warpOf t) 16)
  | .tskid => some (.sr (warpOf t) 16)
  | .arms => some (.team (teamOf s t))
  | .tvec => some (.team (teamOf s t))
  | .tepc => some (.lane t 0)
  | .tva => some (.lane t 0)
  | .tcause => some (.lane t 1)
  | .tsnap _ => some (.lane t 1)
  | .lc i => some (.lane t (if i.val < 2 then 0 else 1))
  | .clock => none
  | .budget => none

/-- The number of a line among all lines. -/
def lineKey (l : RegLine) : Nat :=
  match l with
  | .w t i => 4 * (t * 32 + i)
  | .sr w i => 4 * (w * 32 + i) + 1
  | .lane t i => 4 * (t * 4 + i) + 2
  | .team k => 4 * k + 3

/-- The register lines that have left the register cache; a line is named by its number in REGISTER_LINE_FILL: a w line by
thread · 32 + i, then the lines of warp blocks, of lane records and of team blocks. -/
def lineOfNum (n : Nat) : RegLine :=
  if n < 0x4000000 then .w (n / 32) (n % 32)
  else if n < 0x4200000 then .sr ((n - 0x4000000) / 32) ((n - 0x4000000) % 32)
  else if n < 0x4A00000 then .lane ((n - 0x4200000) / 4) ((n - 0x4200000) % 4)
  else .team (n - 0x4A00000)

/-- The number that names a line there. -/
def lineNum (l : RegLine) : Nat :=
  match l with
  | .w t i => t * 32 + i
  | .sr w i => 0x4000000 + w * 32 + i
  | .lane t i => 0x4200000 + t * 4 + i
  | .team k => 0x4A00000 + k

/-- Whether a line number names a line of a team that is there. -/
def lineExists (s : State) (core : Nat) (l : RegLine) : Bool :=
  match l with
  | .w t i => decide (coreOf t = core) && !(getTh s t).exited && decide (i * 8 < (getTh s t).nregs)
  | .sr w i => decide (w / 64 = core) && decide (i < 17) && bindV (getWarp s w).bind
  | .lane t _ => decide (coreOf t = core) && !(getTh s t).exited
  | .team k => decide (k / 4 = core) && (getTeam s k).live

/-- The threads that may wait for a line: an instruction waits in every thread that issues it (R119). -/
def lineWaiters (s : State) (l : RegLine) : List Nat :=
  match l with
  | .w t _ => warpThreads (warpOf t)
  | .sr w _ => warpThreads w
  | .lane t _ => warpThreads (warpOf t)
  | .team k => (teamWarps s k).flatMap warpThreads

/-- The lines that a thread's instruction waits for. -/
def lineNeeds (s : State) (t : Nat) : List RegLine :=
  match (getTh s t).wait with
  | some (.line need) => need
  | _ => []

/-- The lines that must be present together with a line: those of the instructions that wait for it (R119, R120). -/
def neededWith (s : State) (l : RegLine) : List RegLine :=
  (lineWaiters s l).flatMap fun t => if (lineNeeds s t).any (fun x => decide (x = l)) then lineNeeds s t else []

/-! ### Victims (R49, R120, R125) -/

/-- The lines a core holds. -/
def residentLines (s : State) (core : Nat) : Nat :=
  (s.threads.map fun x => if coreOf x.1 = core then popW x.2.lines + popW x.2.rlines else 0).foldl (· + ·) 0
    + (s.warps.map fun x => if x.1 / 64 = core then popW x.2.slines else 0).foldl (· + ·) 0
    + (s.teams.filter fun x => decide (x.1 / 4 = core) && x.2.tline).length

/-- Whether a team's lines are evictable (R49, R125). -/
def evictable (s : State) (k : Nat) : Bool :=
  (getTeam s k).demoted || !((teamWarps s k).any fun w => bindRun (getWarp s w).bind)

/-- The w registers that the wait of a thread still has to write, and the s registers. -/
def waitDst (th : Thread) : List Nat :=
  match th.wait with
  | some (.deq _ d _) => rangeFrom d 8
  | some (.svc _ d _ _) => [d]
  | some (.rcall d) => [d]
  | some (.nap _ _ _ d) => [d]
  | _ => []
def waitSDst (th : Thread) : List Nat :=
  match th.wait with
  | some (.await _ _ d) => [d]
  | _ => []

/-- Whether a line is pinned (R120): a word that has issued has yet to write it. -/
def linePinned (s : State) (l : RegLine) : Bool :=
  match l with
  | .w t i => (flightW (getTh s t) ++ waitDst (getTh s t)).any fun r => decide (r / 8 = i)
  | .sr w i => (flightS s w ++ (warpThreads w).flatMap fun t => waitSDst (getTh s t)).any fun r => decide (r / 4 = i)
  | _ => false

/-- Whether a line has changed since it was filled. -/
def lineDirty (s : State) (l : RegLine) : Bool :=
  match l with
  | .w t i => (getTh s t).dirty.getLsbD i
  | .sr w i => (getWarp s w).sdirty.getLsbD i
  | .lane t i => (getTh s t).rdirty.getLsbD i
  | .team k => (getTeam s k).tdirty

/-- The last use of a line. -/
def lineUse (s : State) (l : RegLine) : Nat := smGet 0 s.lineUses (lineKey l)

/-- Lines are used. -/
def touchLines (s : State) (l : List RegLine) : State :=
  { s with lineUses := l.foldl (fun m x => smPut m (lineKey x) s.n) s.lineUses }

/-- The lines present at a core. -/
def coreLines (s : State) (core : Nat) : List RegLine :=
  (s.threads.filter fun x => decide (coreOf x.1 = core)).flatMap (fun x =>
    ((List.range 32).filter fun i => x.2.lines.getLsbD i).map (RegLine.w x.1)
      ++ ((List.range 4).filter fun i => x.2.rlines.getLsbD i).map (RegLine.lane x.1))
  ++ (s.warps.filter fun x => decide (x.1 / 64 = core)).flatMap (fun x =>
    ((List.range 17).filter fun i => x.2.slines.getLsbD i).map (RegLine.sr x.1))
  ++ (s.teams.filter fun x => decide (x.1 / 4 = core) && x.2.tline).map fun x => RegLine.team x.1

/-- The order of R120 among the lines that may be chosen. DEDUCED, notes/assumptions/34.md. -/
def lineRank (s : State) (l : RegLine) : Nat :=
  (if evictable s (lineTeam s l) then 0 else if lineDirty s l then 2 else 1) * 2 ^ 64 + lineUse s l

/-- The victim of a fill of `l`: the first by R120 of the lines that are not pinned, nor needed by an instruction that waits
for `l`. -/
def victim (s : State) (core : Nat) (l : RegLine) : Option RegLine :=
  let keep := neededWith s l
  minBy (lineRank s) ((coreLines s core).filter fun x => !linePinned s x && !(keep.any fun y => decide (y = x)))

/-- A line leaves the cache (R49, R120): a dirty one is written to the image first. -/
def evict (s : State) (l : RegLine) : State := setLine (if lineDirty s l then writeLine s l else s) l false

/-- Whether the image block of a line fails its check when it is read (R402, R406). -/
def fillBad (s : State) (l : RegLine) : Bool :=
  match imgPa s (lineTeam s l) (lineOffset s l) with
  | none => false
  | some pa => (blocksOf 64 pa 32).any (keyedBad s (getTeam s (lineTeam s l)).asid)

/-- A line whose image fails its check reaches its threads as a late INTEGRITY fault of KIND 0 at the word they are at: a line
of w or s registers has its registers poisoned. DESIGN CHOICE, notes/assumptions/57.md. -/
def fillFault (s : State) (l : RegLine) : State :=
  let late (s : State) (t : Nat) (dst : List Nat) : State := lateFault s t ccIntegrity 0 0 (getTh s t).pc dst none 0
  match l with
  | .w t i => late s t ((rangeFrom (8 * i) 8).filter fun r => decide (r < (getTh s t).nregs))
  | .sr w i =>
    let s1 := (liveThreads s w).foldl (fun s t => late s t []) s
    if i < 16 then modWarp s1 w fun x => { x with spoison := (rangeFrom (4 * i) 4).foldl nsAdd x.spoison } else s1
  | .lane t _ => late s t []
  | .team k => (teamThreads s k).foldl (fun s t => late s t []) s

/-- A thread whose instruction has all its lines issues it again. -/
def lineWake (s : State) (t : Nat) : State :=
  match (getTh s t).wait with
  | some (.line need) => if need.all (linePresent s) then modTh s t fun th => { th with wait := none } else s
  | _ => s

/-- Blocks of an image that fail their tags as they are read are poisoned, and the security log says so once (R23, R402). -/
def poisonKeyed (s : State) (asid pa n : Nat) : State :=
  let bad := (blocksOf 64 pa n).filter fun b => !nsHas s.poison b && !nsHas s.ecc b && keyedBad s asid b
  if bad.isEmpty then s
  else { s with
    poison := bad.foldl nsAdd s.poison
    host := { s.host with log := s.host.log ++ [.refused s.clock ccIntegrity 0 0 2 0 pa] } }

/-- A line's image is read (R431). -/
def readImage (s : State) (l : RegLine) : State :=
  match imgPa s (lineTeam s l) (lineOffset s l) with
  | some pa => poisonKeyed (meterTier s pa 32) (getTeam s (lineTeam s l)).asid pa 32
  | none => s

/-- A filled line (R119, R406): it is checked as its image is read, counts as used, and instructions that now have all their
lines issue again. -/
def fillLine (s : State) (l : RegLine) : State :=
  let s1 := readImage s l
  (lineWaiters s l).foldl lineWake (touchLines (setLine (if fillBad s1 l then fillFault s1 l else s1) l true) [l])

end Sys2Proof.Machine
end

