-- ==== Sys2Proof/Machine/Operands.lean ====
section
/-! DEFINITION. Every operand form: fields, selects and constants at their widths (R86 to R90, R126, R132, R151), and the
register references of each (R89). -/
namespace Sys2Proof.Machine

/-- The element type of an operand, for `.neg` (R90). -/
inductive Elem where
  /-- Integer elements of n bits; raw bits are one element of 32. -/
  | int (n : Nat)
  /-- Floating elements of n bits. -/
  | flt (n : Nat)
deriving DecidableEq, Repr

/-- How a constant is read (R88, R151). -/
inductive ConstAs where | bits | f32 | f16 | bf16
deriving DecidableEq, Repr

/-- The value of an inline constant (R86). -/
def immInt (k : BitVec 7) : Int := (k.toNat : Int) - 64

/-- An integer as a floating constant. -/
def immFloat (f : FFmt) (k : BitVec 7) : Nat :=
  let v := immInt k
  (fRound f .rne (.fin (decide (v < 0)) v.natAbs 0)).1

def immW (c : ConstAs) (k : BitVec 7) : W32 :=
  match c with
  | .bits => truncInt 32 (immInt k)
  | .f32 => BitVec.ofNat 32 (immFloat fp32 k)
  | .f16 => BitVec.ofNat 32 (immFloat fp16 k * 65537)
  | .bf16 => BitVec.ofNat 32 (immFloat bf16 k * 65537)

/-- `.neg` in an element type (R90). -/
def negElem (e : Elem) (x : W32) : W32 :=
  match e with
  | .int n => negElems n x
  | .flt n => x ^^^ (if n = 16 then 0x80008000 else if n = 8 then 0x80808080 else 0x80000000)

/-- The selects of R90. -/
def applySel (e : Elem) (c : Sel) (x : W32) : W32 :=
  match c with
  | .none => x
  | .h0 => x &&& 0xFFFF
  | .h1 => x >>> 16
  | .hs => x.rotateRight 16
  | .hb0 => (x.extractLsb' 0 16) ++ (x.extractLsb' 0 16)
  | .hb1 => (x.extractLsb' 16 16) ++ (x.extractLsb' 16 16)
  | .rot => x.rotateRight 8
  | .neg => negElem e x

/-- An operand read at 32 bits in a thread (R86, R88). -/
def rdOp (s : State) (t : Nat) (c : ConstAs) (o : Operand) : W32 :=
  match o with
  | .w r => rdW (getTh s t) r.toNat
  | .s r => (rdS (getWarp s (warpOf t)) r.toNat).extractLsb' 0 32
  | .ident k => BitVec.ofNat 32 (identVal s t k)
  | .imm k => immW c k

/-- A source with its select. -/
def rdSrc (s : State) (t : Nat) (c : ConstAs) (e : Elem) (a : Src) : W32 := applySel e a.sel (rdOp s t c a.op)

/-- A source of integer elements of n bits. -/
def rdInt (s : State) (t : Nat) (n : Nat) (a : Src) : W32 := rdSrc s t .bits (.int n) a
/-- A source read as raw bits or as one 32-bit integer. -/
def rd32 (s : State) (t : Nat) (a : Src) : W32 := rdInt s t 32 a
/-- An FP32 source. -/
def rdF32 (s : State) (t : Nat) (a : Src) : W32 := rdSrc s t .f32 (.flt 32) a

/-- An operand read at 64 bits (R88). -/
def rdOp64 (s : State) (t : Nat) (o : Operand64) : W64 :=
  match o with
  | .w p => rdW64 (getTh s t) (2 * p.toNat)
  | .s r => rdS (getWarp s (warpOf t)) r.toNat
  | .ident k => BitVec.ofNat 64 (identVal s t k)
  | .imm k => truncInt 64 (immInt k)

def rd64 (s : State) (t : Nat) (a : Src64) : W64 := if a.neg then -(rdOp64 s t a.op) else rdOp64 s t a.op

/-- A uniform operand as an ordinary one (R147): the same in every thread of a warp. -/
def uOp (o : UOperand) : Operand :=
  match o with
  | .s r => .s r
  | .ident k => .ident k
  | .imm k => .imm k
def uOp64 (o : UOperand) : Operand64 :=
  match o with
  | .s r => .s r
  | .ident k => .ident k
  | .imm k => .imm k
def uSrc (a : USrc) : Src := ⟨uOp a.op, a.sel⟩
def uSrc64 (a : USrc64) : Src64 := ⟨uOp64 a.op, a.neg⟩

/-- A predicate operand (R132). -/
def rdPOp (s : State) (t : Nat) (q : POp) : Bool := rdP (getTh s t) q.p.toNat != q.neg

/-- Whether a predicate operand reads a predicate: p7 is the constant 1 (R132). -/
def pReads (q : POp) : Bool := decide (q.p.toNat ≠ 7)

/-- A guard in a thread (R91). -/
def rdGuard (s : State) (g : Guard) (t : Nat) : Bool :=
  match g with
  | .always => true
  | .pred p neg => rdP (getTh s t) p.val != neg

/-- The guard of a long-immediate word (R100). -/
def lGuard (g : LGuard) : Guard :=
  match g with
  | none => .always
  | some p => .pred p false

/-! ### References (R89, R128) -/

def wOfOp (o : Operand) : List Nat := match o with | .w r => [r.toNat] | _ => []
def sOfOp (o : Operand) : List Nat := match o with | .s r => [r.toNat] | _ => []
def wOfOp64 (o : Operand64) : List Nat := match o with | .w p => [2 * p.toNat, 2 * p.toNat + 1] | _ => []
def sOfOp64 (o : Operand64) : List Nat := match o with | .s r => [r.toNat] | _ => []

/-- The registers a list of 32-bit and 64-bit sources reads: (w, s). -/
def srcRegs (a : List Src) (b : List Src64) : List Nat × List Nat :=
  (a.flatMap (fun x => wOfOp x.op) ++ b.flatMap (fun x => wOfOp64 x.op),
   a.flatMap (fun x => sOfOp x.op) ++ b.flatMap (fun x => sOfOp64 x.op))

/-- A pair, a group of four, a group of eight. -/
def pairRegs (p : Nat) : List Nat := [2 * p, 2 * p + 1]
def groupRegs (lo n : Nat) : List Nat := rangeFrom lo n

end Sys2Proof.Machine
end

