-- ==== Sys2Proof/Machine/Select.lean ====
section
/-! DEFINITION. The choice of an issue slot: the tenant by deficit counters (R419), and the warp by age (R44). -/
namespace Sys2Proof.Machine

/-- The valid warps of an issue slot: warp slot w issues on slot w mod 4 (R44). -/
def slotWarps (s : State) (core slot : Nat) : List Nat :=
  (rangeFrom (core * 64) 64).filter fun w => decide (w % 4 = slot) && bindV (getWarp s w).bind

/-- Whether another warp on a warp's slot is ready. -/
def othersReady (s : State) (w : Nat) : Bool :=
  (slotWarps s (w / 64) (w % 4)).any fun v => decide (v ≠ w) && !(readyThreads s v).isEmpty

/-- Whether a warp could issue under R44: it has a set, it has not just yielded, or no other warp on the slot is ready
(R175), and its word has not been found to stall in this step. DEDUCED, notes/assumptions/9.md. -/
def warpEligible (s : State) (w : Nat) : Bool :=
  !(issueSet s w).isEmpty && (decide ((getWarp s w).yieldUntil ≤ s.n) || !othersReady s w)
    && !decide ((getWarp s w).stall = some s.n)

/-- The tenants of a slot in ascending order. -/
def slotTenants (s : State) (core slot : Nat) : List Nat :=
  (slotWarps s core slot).foldl (fun l w => nsAdd l (bindTenant (getWarp s w).bind)) []

def tenantEligible (s : State) (core slot t : Nat) : Bool :=
  (slotWarps s core slot).any fun w => decide (bindTenant (getWarp s w).bind = t) && warpEligible s w

/-- WEIGHT of a partition (R416). -/
def partWeight (s : State) (p : Nat) : Nat := bitsOf (getPart s p).pcfg.toNat 55 40

/-- D(t) of a slot. -/
def getDeficit (c : Core) (slot t : Nat) : Int := smGet 0 c.deficit (slot * 64 + t)

/-- The refill of R419, made when no eligible tenant has a positive counter. -/
def refillDeficits (s : State) (core slot : Nat) (c : Core) : Core :=
  let ts := slotTenants s core slot
  if (ts.any fun t => tenantEligible s core slot t && decide (0 < getDeficit c slot t)) then c
  else { c with deficit := ts.foldl (fun m t =>
      let wt : Int := partWeight s t
      smPut m (slot * 64 + t) (min (smGet 0 m (slot * 64 + t) + wt) (2 * wt))) c.deficit }

/-- A list from the first element above `last` on, wrapping. -/
def afterLast (l : List Nat) (last : Option Nat) : List Nat :=
  match last with
  | none => l
  | some x => (l.filter fun t => decide (x < t)) ++ (l.filter fun t => decide (t ≤ x))

/-- The tenant a slot chooses (R419). -/
def chooseTenant (s : State) (core slot : Nat) : Option Nat :=
  let c := refillDeficits s core slot (getCore s core)
  let order := (afterLast (slotTenants s core slot) (smFind? c.lastChosen slot)).filter (tenantEligible s core slot)
  match order.find? fun t => decide (0 < getDeficit c slot t) with
  | some t => some t
  | none => order.head?

/-- The warp of a tenant that has gone longest since it last issued or became ready, the lower slot among equals (R44). -/
def chooseWarp (s : State) (core slot : Nat) : Option Nat :=
  match chooseTenant s core slot with
  | none => none
  | some t => minBy (fun w => (getWarp s w).since)
      ((slotWarps s core slot).filter fun w => decide (bindTenant (getWarp s w).bind = t) && warpEligible s w)

/-- One issued word: it is counted for its core (R430), and charged to its tenant (R419), after the refill that was due when
it was chosen, in `s0`: D(t) less 1, and the last chosen. DEDUCED, notes/assumptions/9.md. -/
def chargeIssue (s0 s : State) (w : Nat) : State :=
  let core := w / 64
  let slot := w % 4
  let t := bindTenant (getWarp s0 w).bind
  let c := refillDeficits s0 core slot (getCore s0 core)
  modCore (corePmc s core 1 1) core fun x => { x with
    deficit := smMod 0 c.deficit (slot * 64 + t) fun d => Int.bmod (d - 1) (2 ^ 32)
    lastChosen := smPut c.lastChosen slot t }

/-- The turn of an issue slot (R44, R419): the warp that it chooses now, if any. -/
def slotTurn (s : State) (core slot : Nat) : Turn :=
  match chooseWarp s core slot with
  | none => .idle
  | some w => .warp core (w % 64) (maskOf (issueSet s w))

/-- The word of the chosen warp does not issue: its operands are not available, and the slot's choice falls on another warp in
the same step, if one can issue (R44, R419). -/
def stallIssue (s : State) : State :=
  match s.turn with
  | .warp c ws _ =>
    let s1 := modWarp s (c * 64 + ws) fun x => { x with stall := some s.n }
    { s1 with turn := slotTurn s1 c (ws % 4) }
  | _ => { s with turn := .idle }

end Sys2Proof.Machine
end

