-- ==== Sys2Proof/Machine/Issue.lean ====
section
/-! DEFINITION. How one instruction word issues (R44, R91 to R95, R102, R119, R180, R196): the stalls, the traps in the
order of R102 and R196, and the commit of the word in every issued thread. A meaning gives what is the word's own. -/
namespace Sys2Proof.Machine

/-- What the issue of a word needs to know of it. -/
structure WInfo where
  guard : Guard := .always
  /-- The lookahead of a long-latency word (R93, R94). -/
  la : Nat := 15
  /-- w registers referenced (R89), read, and written. -/
  reads : List Nat := []
  writes : List Nat := []
  sreads : List Nat := []
  swrites : List Nat := []
  /-- Uniform-class, or a `.u` form (R46, R92, R184). -/
  uniform : Bool := false
  /-- Needs the team's privilege (R106). -/
  privileged : Bool := false
  /-- Reports a pending late fault (R196): `fencex`, barrier arrivals, `exit`. -/
  reports : Bool := false
  /-- Waits until every earlier word of the warp has committed (R68, R208). -/
  committed : Bool := false
  /-- A poisoned source in one active lane reports in every active lane (R166, R185). -/
  cross : Bool := false
  /-- The w registers a thread in fact reads, where that depends on the thread (R91, R98). -/
  readsIn : Option (Nat → List Nat) := none
  /-- The special register that `mfs` or `mts` names, whose line must be present (R117, R119); whether the word has predicates
  among its operands; and whether it names loop counters. -/
  special : Option SpecialReg := none
  preds : Bool := false
  loops : Bool := false
  /-- An access or a post, which an `acq` in flight holds back (R243, R305). -/
  access : Bool := false
  /-- A poisoned s register reports in the threads whose guard is true alone (R300). -/
  sGuarded : Bool := false

/-- The effect of a word in one thread. -/
structure Eff where
  w : List (Nat × W32) := []
  p : List (Nat × Bool) := []
  fl : W32 := 0
  amax : List FVal := []
  mops : List MemOp := []
  /-- Where control goes, when the word transfers it (R180: no end-word check then). -/
  jump : Option W64 := none
  /-- A waiting word: the thread waits after it (R47). -/
  wait : Option Wait := none

/-- What a word's own rules decide in the acting threads: it stalls, it traps, or it takes effect; `go s effs` gives the
state with the effects beyond the threads made, and each thread's effect. -/
inductive Own where
  | stall
  /-- A stall that leaves something changed. -/
  | stallOn (s : State)
  | traps (l : List (Nat × TrapInfo))
  | go (s : State) (effs : List (Nat × Eff))

/-- The warp and the threads a word issues for: those of the chosen set that are ready. -/
def issuedSet (s : State) : Option (Nat × List Nat) :=
  match s.turn with
  | .warp c ws m =>
    let w := c * 64 + ws
    let l := (maskThreads w m).filter (threadReady s)
    match l with
    | [] => none
    | t :: _ => some (w, l.filter fun u => decide ((getTh s u).pc = (getTh s t).pc))
  | _ => none

/-- Whether two lists of numbers meet. -/
def meets (a b : List Nat) : Bool := a.any fun x => b.any fun y => decide (x = y)

/-- Whether a guard reads a predicate (R91). -/
def guardReads (g : Guard) : Bool :=
  match g with
  | .always => false
  | _ => true

/-- Whether a thread's word is the last of a loop body that it is in, at whose end a counter changes (R180). -/
def endsBody (s : State) (w t : Nat) : Bool :=
  decide (loopDepth (getTh s t) ≠ 0) && (getWarp s w).loops.any fun e => match e.2.bound with
    | some (_, stop) => decide (stop = (getTh s t).pc)
    | none => false

/-- The register lines that a word needs (R117 to R119): in the acting threads those of the w registers it names, of its
special register and, where it names predicates or loop counters, of the lane record; of the warp block those of the s
registers; and the lane records that hold the predicate of its guard, or the counters of a loop whose body it ends. -/
def wordLines (s : State) (info : WInfo) (w : Nat) (l acting : List Nat) : List RegLine :=
  (acting.flatMap fun t =>
    (info.reads ++ info.writes).map (fun r => RegLine.w t (r / 8))
      ++ (info.special.bind (specialLine s t)).toList
      ++ (if info.preds then [.lane t 1] else [])
      ++ (if info.loops then [.lane t 0, .lane t 1] else []))
  ++ (if acting.isEmpty then [] else (info.sreads ++ info.swrites).map fun r => RegLine.sr w (r / 4))
  ++ (l.flatMap fun t => if endsBody s w t then [.lane t 0, .lane t 1] else [])
  ++ (if guardReads info.guard then l.map fun t => RegLine.lane t 1 else [])

/-- The register lines that the effects of a word write beside the registers it names: the predicates of a thread, and the
line of FLAGS and AMAX (R68, R71, R117). -/
def effLines (w : Nat) (acting : List Nat) (out : Nat → Eff) : List RegLine :=
  (acting.flatMap fun t => if (out t).p.isEmpty then [] else [.lane t 1])
    ++ (if acting.any fun t => decide ((out t).fl ≠ 0) || !(out t).amax.isEmpty then [.sr w 16] else [])

/-- The end-word check of R180 from level k − 1 down. -/
def loopEnd (loops : SMap LoopEntry) (pc : W64) : Nat → Thread → Thread
  | 0, th => { th with pc := pc + 8 }
  | k + 1, th =>
    match smFind? loops k with
    | some ⟨some (start, stop), _⟩ =>
      if stop = pc then
        let n := getLc th k - 1
        let th1 := setLc th k n
        if n ≠ 0 then { th1 with pc := start } else loopEnd loops pc k th1
      else { th with pc := pc + 8 }
    | _ => { th with pc := pc + 8 }

/-- The effect of a word in a thread, its PC included. DEDUCED, notes/assumptions/10.md. -/
def applyEff (n : Nat) (loops : SMap LoopEntry) (info : WInfo) (th0 : Thread) (e : Eff) : Thread :=
  let pc := th0.pc
  let th1 := tickWindows th0
  let th2 := e.w.foldl (fun th x => wrW th x.1 x.2) th1
  let th3 := e.p.foldl (fun th x => wrP th x.1 x.2) th2
  let th4 : Thread := { th3 with mq := th3.mq ++ e.mops.map fun o => { o with la := info.la, seq := n } }
  let th5 : Thread := { th4 with
    wait := match e.wait with
      | some x => some x
      | none => th4.wait
    waitCount := 0
    denied := false
    refused := none }
  match e.jump with
  | some p => { th5 with pc := p }
  | none => loopEnd loops pc (loopDepth th5) th5

/-- The ready threads an issue passes over (R45): their wait counts rise, except at an issue that serves a starving
group. Which threads are ready, and which starve, is as it stood at the issue, in `s0`. -/
def passOver (s0 s : State) (w : Nat) (l : List Nat) : State :=
  let r := readyThreads s0 w
  if r.any fun t => decide (256 ≤ (getTh s0 t).waitCount) then s
  else (r.filter fun t => !(l.any fun u => decide (u = t))).foldl
    (fun s t => modTh s t fun th => { th with waitCount := Nat.min (th.waitCount + 1) 511 }) s

/-- The effect of a word in a thread: none where it does not act. -/
def effOf (effs : List (Nat × Eff)) (t : Nat) : Eff := (smFind? effs t).getD {}

/-- The effects in the issued threads and their PCs; the wait counts of those passed over (R45). -/
def commitThreads (s : State) (info : WInfo) (w : Nat) (l : List Nat) (s1 : State) (effs : List (Nat × Eff)) : State :=
  l.foldl (fun x t => modTh x t fun th => applyEff s.n (getWarp s1 w).loops info th (effOf effs t)) (passOver s s1 w l)

/-- The flags set and the values folded into AMAX (R68, R71). -/
def commitFlags (s : State) (w : Nat) (l : List Nat) (effs : List (Nat × Eff)) : State :=
  foldAmax (orFlags s w (l.foldl (fun f t => f ||| (effOf effs t).fl) 0)) w (l.flatMap fun t => (effOf effs t).amax)

/-- The warp's instant of issue (R44) and its skid (R200; `skid` says whether the word counts). -/
def commitCounts (s : State) (w n : Nat) (skid : Bool) : State :=
  modWarp s w fun x =>
    { x with
      since := n
      skid := if skid then x.skid + 1 else x.skid
      stopped := x.stopped || (skid && decide (8 ≤ x.skid + 1)) }

/-- Loop entries no thread holds any more are freed. -/
def commitLoops (s : State) (w : Nat) (l : List Nat) (none' : Bool) : State :=
  if none' && l.all (fun t => decide (loopDepth (getTh s t) = 0)) then s else settleLoops s w

/-- One word later in the windows of the class 0xB words that were in flight before it (R93). -/
def commitWindows (s : State) (k : Nat) (l : List Nat) (before : List MatPend) : State :=
  if (getTeam s k).matPend.isEmpty then s else modTeam s k fun tm =>
    { tm with matPend := tm.matPend.map fun m =>
        if before.any fun o => decide (o = m) then { m with la := m.la.map fun x => if l.any fun t => decide (t = x.1) then (x.1, x.2 - 1) else x }
        else m }

/-- The commit of a word in its issued threads: the effects of the acting ones, the PCs, the wait counts (R45), flags and
folds (R68, R71), the skid (R200), loop entries (R178), metering (R431), the charge of R419 and the use of its register lines
(R120). `s` is the state at issue, `s1` that with the word's effects beyond its threads made. -/
def commitWord (s : State) (info : WInfo) (w : Nat) (l : List Nat) (s1 : State) (effs : List (Nat × Eff)) (lines : List RegLine) : State :=
  let k := teamOfWarp s w
  let tm := getTeam s k
  let s3 := commitFlags (commitThreads s info w l s1 effs) w l effs
  let s4 := commitCounts s3 w s.n (tm.halted && !(l.any fun t => (getTh s t).handler))
  let s5 := commitLoops s4 w l (getWarp s1 w).loops.isEmpty
  let s6 := commitWindows s5 k l tm.matPend
  { chargeIssue s (touchLines (meter s6 tm.part mVeciss 1) lines) w with turn := .idle }

/-- Whether a thread's earlier accesses have all resolved (R196). -/
def resolved (th : Thread) : Bool := th.mq.all fun o =>
  match o.kind with
  | .maint _ _ => true
  | _ => false

/-- The threads that report at a word, with their records (R149, R185, R196). At a `fencex`, a barrier arrival or an `exit` whose guard
divides its issued set, a fault of `sld` is reported in the threads whose guard is true: DESIGN CHOICE, notes/assumptions/64.md. -/
def reports (s : State) (info : WInfo) (w : Nat) (l acting : List Nat) : List Nat × List (Nat × TrapInfo) :=
  let spoisoned := !acting.isEmpty && meets info.sreads (getWarp s w).spoison
  let poisoned (t : Nat) : Bool :=
    meets (match info.readsIn with
      | some f => f t
      | none => info.reads) (getTh s t).poison
  let anyP := acting.any poisoned
  let who := if spoisoned then (if info.sGuarded then acting else l)
    else if info.cross && anyP then acting
    else acting.filter fun t => info.reports || poisoned t
  (who, who.filterMap fun t =>
    let th := getTh s t
    match th.pend with
    | some p => some (t, lateTrap p th.pc)
    | none =>
      if poisoned t || spoisoned || (info.cross && anyP) then some (t, preciseTrap ccPoisoned th.pc) else none)

/-- A word that needs an absent register line waits, in every thread that issues it, until all the lines it needs are
present (R47, R119). DEDUCED, notes/assumptions/34.md. -/
def waitLines (s : State) (l : List Nat) (need : List RegLine) : State :=
  { l.foldl (fun s t => modTh s t fun th => { th with wait := some (.line need) }) s with turn := .idle }

/-- Whether some line is absent. -/
def linesMissing (s : State) (need : List RegLine) : Bool := need.any fun x => !linePresent s x

/-- Whether the windows of a warp's class 0xB words let its threads issue one more word (R93). -/
def matOpen (s : State) (w : Nat) (l : List Nat) : Bool :=
  (getTeam s (teamOfWarp s w)).matPend.all fun m => l.all fun t => !nsHas m.threads t || decide (0 < smGet 0 m.la t)

/-- Whether an acting thread has an `acq` in flight (R305): an acquire completes before any later access (R243). -/
def acqPending (s : State) (w : Nat) (acting : List Nat) : Bool :=
  (getTeam s (teamOfWarp s w)).matPend.any fun m => meets acting m.threads &&
    (match m.op with
      | .acq _ => true
      | _ => false)

/-- The issue of one word. -/
def runWord (info : WInfo) (own : Nat → List Nat → List Nat → Own) (s : State) : Out :=
  match issuedSet s with
  | none => .next s
  | some (w, l) =>
    let trapAll (ts : List Nat) (code : Nat) : Out :=
      .next (raiseTraps (chargeIssue s s w) w (ts.map fun t => (t, preciseTrap code (getTh s t).pc)))
    let refs := info.reads ++ info.writes
    let acting := l.filter (rdGuard s info.guard)
    let quota := l.filter fun t => refs.any fun r => decide ((getTh s t).nregs ≤ r)
    if l.any (fun t => !windowsOpen (getTh s t)) || !matOpen s w l then .next (stallIssue s)
    else if info.privileged && decide ((getTeam s (teamOfWarp s w)).priv = 0) then trapAll l ccPrivilege
    else if !quota.isEmpty then trapAll quota ccRegQuota
    else if info.uniform && (!decide (l = liveThreads s w) || (!acting.isEmpty && !decide (acting = l))) then
      trapAll l ccUniform
    else
      let sfl := flightS s w
      if acting.any (fun t => meets refs (flightW (getTh s t))) || (!acting.isEmpty && meets (info.sreads ++ info.swrites) sfl) then
        .next (stallIssue s)
      else
        let need := wordLines s info w l acting
        if linesMissing s need then .next (waitLines s l need)
        else if info.committed && !warpCommitted s w then .next (stallIssue s)
        else if info.access && acqPending s w acting then .next (stallIssue s)
        else
          let r := reports s info w l acting
          if r.1.any (fun t => !resolved (getTh s t)) then .next (stallIssue s)
          else if !r.2.isEmpty then .next (raiseTraps (chargeIssue s s w) w r.2)
          else if acting.isEmpty then .next (commitWord s info w l s [] need)
          else match own w l acting with
            | .stall => .next (stallIssue s)
            | .stallOn s1 => .next (stallIssue s1)
            | .traps ts => if ts.isEmpty then .next (stallIssue s) else .next (raiseTraps (chargeIssue s s w) w ts)
            | .go s1 effs =>
              let all := need ++ effLines w acting (effOf effs)
              if linesMissing s all then .next (waitLines s l all) else .next (commitWord s info w l s1 effs all)

/-- A word that acts in each acting thread by itself. -/
def runThreads (info : WInfo) (eff : Nat → Eff) (s : State) : Out :=
  runWord info (fun _ _ acting => .go s (acting.map fun t => (t, eff t))) s

/-- A decode trap of steps 1 to 3 of R102, raised in every issued thread (R103). -/
def decodeTrap (code : Nat) (s : State) : Out :=
  match issuedSet s with
  | none => .next s
  | some (w, l) =>
    if l.any (fun t => !windowsOpen (getTh s t)) || !matOpen s w l then .next (stallIssue s)
    else .next (raiseTraps (chargeIssue s s w) w (l.map fun t => (t, preciseTrap code (getTh s t).pc)))

/-- A word of one 32-bit destination computed from 32-bit sources. -/
def aluWord (h : Hdr) (d : WReg) (srcs : List Src) (f : Nat → W32 × W32) (s : State) (preds : Bool := false) : Out :=
  let r := srcRegs srcs []
  runThreads { guard := h.guard, reads := r.1, sreads := r.2, writes := [d.toNat], preds := preds }
    (fun t => let x := f t; { w := [(d.toNat, x.1)], fl := x.2 }) s

end Sys2Proof.Machine
end

