-- ==== Sys2Proof/Machine/Buffers.lean ====
section
/-! DEFINITION. Reservation records, tiles and rings of a team, and the scratchpad address map (R215 to R223, R279 to R285,
R324). -/
namespace Sys2Proof.Machine

/-! ### Descriptors (R283) -/

def mkDesc (w0 : W64) (w1 w2 : W32) : BitVec 128 := w2 ++ w1 ++ w0
def dKind (d : BitVec 128) : Nat := (d.extractLsb' 62 2).toNat
def dFmt (d : BitVec 128) : Nat := (d.extractLsb' 58 4).toNat
def dCmp (d : BitVec 128) : Bool := d.getLsbD 57
def dRows (d : BitVec 128) : Nat := (d.extractLsb' 40 7).toNat + 1
def dKg (d : BitVec 128) : Nat := (d.extractLsb' 32 8).toNat + 1
def dMoff (d : BitVec 128) : Nat := (d.extractLsb' 19 13).toNat * 128
def dBase (d : BitVec 128) : Nat := (d.extractLsb' 0 19).toNat
def dGs (d : BitVec 128) : Nat := (d.extractLsb' 80 16).toNat * 16
def dLen (d : BitVec 128) : Nat := (d.extractLsb' 64 13).toNat * 128
def dSoff (d : BitVec 128) : Nat := (d.extractLsb' 112 16).toNat * 16
def dXoff (d : BitVec 128) : Nat := (d.extractLsb' 96 16).toNat * 16
def kAb : Nat := 0
def kWb : Nat := 1
def kCb : Nat := 2

/-- The format of a code (R61). -/
def fmtOfCode : Nat → Option Fmt
  | 0 => some .f32
  | 1 => some .f16
  | 2 => some .bf16
  | 3 => some .e4m3
  | 4 => some .e5m2
  | 5 => some .n4x
  | 6 => some .s8
  | 7 => some .z8
  | 8 => some .s4
  | 9 => some .s16
  | 10 => some .s32
  | _ => none

/-- The k-group length of a format (R72), and the row bytes of a slice (R284): 0 where the format has no k-group. -/
def kgLen : Nat → Nat
  | 1 | 2 => 8
  | 3 | 4 => 16
  | 5 | 6 | 7 | 8 => 32
  | _ => 0
def rowBytes : Nat → Nat
  | 1 | 2 | 3 | 4 => 16
  | 5 => 16
  | 6 | 7 => 32
  | 8 => 16
  | _ => 0

/-- Whether a `rsv` of a record has not completed. -/
def recPending (tm : Team) (k : Nat) : Bool := tm.matPend.any fun m => decide (m.op = .rsv k)

/-- A record a team holds (R286): its `rsv` has completed. -/
def getRec (tm : Team) (k : Nat) : Option (BitVec 128) := if recPending tm k then none else smFind? tm.recs k

/-- The tile of a CB record. -/
def recTile (d : BitVec 128) : Nat := dBase d / 0x10000

/-- Whether a team owns a tile through a CB record (R266, R289). -/
def ownsTile (s : State) (k t : Nat) : Bool :=
  (getTeam s k).recs.any fun r => decide (dKind r.2 = kCb) && decide (recTile r.2 = t) && !recPending (getTeam s k) r.1

/-- Whether a tile's token is UNIT. -/
def tokenUnit (s : State) (core t : Nat) : Bool :=
  match smFind? (getCore s core).tiles t with
  | some x => x.unit
  | none => false

/-- Whether a thread has a class 0xB word in flight that names a record or a tile (R290). -/
def namesPending (s : State) (k : Nat) (acting : List Nat) (recs tiles : List Nat) : Bool :=
  let tm := getTeam s k
  tm.matPend.any fun m => meets acting m.threads &&
    (match m.op with
      | .rsv r => recs.any (fun x => decide (x = r)) ||
          tiles.any (fun t => match smFind? tm.recs r with
            | some d => decide (dKind d = kCb) && decide (recTile d = t)
            | none => false)
      | .unrsv r => recs.any (fun x => decide (x = r)) ||
          tiles.any (fun t => match smFind? tm.recs r with
            | some d => decide (dKind d = kCb) && decide (recTile d = t)
            | none => false)
      | .acq t => tiles.any fun x => decide (x = t)
      | .qsub _ _ _ _ _ _ => false
      | .rinit _ _ _ _ => false)

/-! ### Bytes of a core's SRAMs -/

def sramRead (m : SMap Byte) (a n : Nat) : List Byte := (rangeFrom a n).map fun x => smGet 0 m x
def sramWrite (m : SMap Byte) : Nat → List Byte → SMap Byte
  | _, [] => m
  | a, b :: l => sramWrite (smSet 0 m a b) (a + 1) l
def sramZero (m : SMap Byte) (a n : Nat) : SMap Byte := smFilter m fun x => decide (x < a) || decide (a + n ≤ x)

/-! ### Scratchpad addresses (R216 to R218) -/

/-- A team on a core as a scratchpad target: where a logical offset lies. -/
inductive SpPlace where
  /-- Superstep window: the team and the offset. -/
  | step (k off : Nat)
  /-- Plain window: the team and the physical byte. -/
  | plain (k phys off : Nat)
  | fault (code : Nat)
deriving DecidableEq, Repr

/-- The physical byte of a logical offset of a team: the active half, then the shadow half, then the plain window. -/
def spActive (tm : Team) (off : Nat) : Nat := tm.spBase + off
def spShadow (tm : Team) (off : Nat) : Nat := tm.spBase + tm.step + off
def spPlain (tm : Team) (off : Nat) : Nat := tm.spBase + 2 * tm.step + (off - tm.step)

/-- The earliest placed team of a list. -/
def earliest (s : State) (l : List Nat) : Option Nat := minBy (fun k => (getTeam s k).placed) l

/-- The target team on a core (R218). -/
def spTarget (s : State) (k core : Nat) : Option Nat :=
  let tm := getTeam s k
  let ts := coreTeams s core
  match ts.filter (fun x => decide ((getTeam s x).grove = tm.grove)) with
  | x :: _ => some x
  | [] => earliest s (ts.filter fun x => decide ((getTeam s x).asid = tm.asid))

/-- Where `n` bytes at a scratchpad address of a team lie (R216, R217). -/
def spResolve (s : State) (k : Nat) (sa : Nat) (n : Nat) : SpPlace :=
  let myCore := k / 4
  let loc := decide (sa / 2 ^ 31 % 2 = 1)
  let target := sa / 2 ^ 24 % 128
  let off := sa % 2 ^ 19
  if sa / 2 ^ 19 % 32 ≠ 0 then .fault ccPermission
  else if loc ∧ target ≠ 0 then .fault ccPermission
  else
    let core := if loc then myCore else myCore / 128 * 128 + target
    let team := if core = myCore then some k else spTarget s k core
    match team with
    | none => .fault ccPotDeny
    | some x =>
      let tm := getTeam s x
      if off + n ≤ tm.step then .step x off
      else if tm.step ≤ off ∧ off + n ≤ tm.step + tm.plain then .plain x (spPlain tm off) off
      else .fault ccPermission

/-- Whether a scratchpad address is a local plain-window range of a team (R318, R325, R356): its physical byte. -/
def spLocalPlain (s : State) (k : Nat) (sa n : Nat) : Option Nat :=
  if sa / 2 ^ 31 % 2 = 1 then
    match spResolve s k sa n with
    | .plain _ phys _ => some phys
    | _ => none
  else if sa / 2 ^ 24 % 128 = k / 4 % 128 then
    match spResolve s k sa n with
    | .plain _ phys _ => some phys
    | _ => none
  else none

/-- Reads of the superstep window return the active half (R219). -/
def spReadStep (s : State) (k off n : Nat) : List Byte := sramRead (getCore s (k / 4)).sp (spActive (getTeam s k) off) n

/-- A granule copied to another takes an uncorrectable error with it (R260). -/
def eccMove (l : NSet) (src dst : Nat) : NSet := if nsHas l src then nsAdd l dst else nsDel l dst

/-- One byte written to the shadow half by a writer: its granule's active value is copied first when its written bit is
clear; a byte another writer has written in this step keeps that value or takes the new one, by a free value (R219). -/
def spWriteStepByte (tm : Team) (free : Bool) (who : Nat) (c : Core) (off : Nat) (b : Byte) : Core :=
  let p := spShadow tm off
  let lo := off / 16 * 16
  let c1 := if nsHas c.spWritten (p / 16) then c
    else { c with
      sp := sramWrite c.sp (spShadow tm lo) (sramRead c.sp (spActive tm lo) 16), spWritten := nsAdd c.spWritten (p / 16)
      spEcc := eccMove c.spEcc (spActive tm lo / 16) (p / 16) }
  let other := match smFind? c1.spBy p with
    | some x => decide (x ≠ who)
    | none => false
  if other && free then c1 else { c1 with sp := smSet 0 c1.sp p b, spBy := smPut c1.spBy p who }

/-- Bytes written to the shadow half by a writer (R219). -/
def spWriteStep (s : State) (k off : Nat) (bs : List Byte) (who : Nat) : State :=
  let tm := getTeam s k
  let r := bs.foldl (fun (a : Core × Nat) b =>
    (spWriteStepByte tm (Config.keepEarlier (s.n + a.2)) who a.1 a.2 b, a.2 + 1)) (getCore s (k / 4), off)
  let p := spShadow tm off
  setCore s (k / 4) { r.1 with
    spEcc := r.1.spEcc.filter fun g => !(decide (p ≤ g * 16) && decide (g * 16 + 16 ≤ p + bs.length)) }

/-- Plain-window bytes. -/
def spReadPlain (s : State) (core phys n : Nat) : List Byte := sramRead (getCore s core).sp phys n
def spWritePlain (s : State) (core phys : Nat) (bs : List Byte) : State :=
  modCore s core fun c =>
    { c with
      sp := sramWrite c.sp phys bs
      spEcc := c.spEcc.filter fun g => !(decide (phys ≤ g * 16) && decide (g * 16 + 16 ≤ phys + bs.length)) }

/-- Whether bytes of a scratchpad meet an uncorrectable error (R260). -/
def spBad (s : State) (core phys n : Nat) : Bool := (blocksOf 16 phys n).any (nsHas (getCore s core).spEcc)

/-- Full-empty bits (R222). -/
def granFull (s : State) (core phys : Nat) : Bool := nsHas (getCore s core).spFull (phys / 16)
def setFull (s : State) (core phys : Nat) (full : Bool) : State :=
  modCore s core fun c => { c with spFull := if full then nsAdd c.spFull (phys / 16) else nsDel c.spFull (phys / 16) }

/-- Where a 16-byte granule or object of a plain window lies (core and physical byte), or the fault of its address
(R219, R260). -/
def spObject (s : State) (k sa : Nat) : Sum Nat (Nat × Nat) :=
  if sa % 16 ≠ 0 then .inl ccAlign
  else match spResolve s k sa 16 with
    | .fault c => .inl c
    | .step _ _ => .inl ccPermission
    | .plain x phys _ => if spBad s (x / 4) phys 16 then .inl ccUncorrectable else .inr (x / 4, phys)

/-! ### mbar objects (R279 to R281) -/

/-- GEN, BYTES, QUORUM and COUNT of an object at a physical byte. -/
structure MbObj where
  gen : BitVec 16
  bytes : W32
  quorum : BitVec 24
  count : BitVec 24
deriving DecidableEq, Repr

def mbRead (s : State) (core phys : Nat) : MbObj :=
  let v := natOfBytes (spReadPlain s core phys 16)
  ⟨BitVec.ofNat 16 (v / 2 ^ 112), BitVec.ofNat 32 (v / 2 ^ 64), BitVec.ofNat 24 (v / 2 ^ 32), BitVec.ofNat 24 v⟩

/-- Writes an object, its reserved bits as they stand. -/
def mbWrite (s : State) (core phys : Nat) (m : MbObj) : State :=
  let v := natOfBytes (spReadPlain s core phys 16)
  let keep := (v / 2 ^ 96 % 2 ^ 16) * 2 ^ 96 + (v / 2 ^ 56 % 256) * 2 ^ 56 + (v / 2 ^ 24 % 256) * 2 ^ 24
  spWritePlain s core phys (bytesOfNat 16
    (keep + m.gen.toNat * 2 ^ 112 + m.bytes.toNat * 2 ^ 64 + m.quorum.toNat * 2 ^ 32 + m.count.toNat))

/-- The check after every update (R280): the object, and whether its generation advances. -/
def mbCheck (m : MbObj) : MbObj × Bool :=
  if m.quorum ≠ 0 ∧ m.count = m.quorum ∧ m.bytes = 0 then ({ m with gen := m.gen + 1, count := 0 }, true) else (m, false)

/-! ### Rings (R324) -/

def getRing (tm : Team) (q : Nat) : Option Ring := smFind? tm.ringRecs q
def ringCap (r : Ring) : Nat := 2 ^ r.ln
def ringFull (r : Ring) : Bool := decide ((r.wptr + 65536 - r.rptr) % 65536 = ringCap r)
def slotSize (r : Ring) : Nat := 2 ^ (r.sz + 4)
/-- The logical scratchpad address of slot k. -/
def slotAddr (r : Ring) (k : Nat) : Nat := r.base + k % ringCap r * slotSize r

/-- Claims the next slot: the ring and the slot's number. -/
def ringClaim (r : Ring) : Ring × Nat :=
  ({ r with slots := smPut r.slots (r.wptr % ringCap r) .claimed, wptr := (r.wptr + 1) % 65536 }, r.wptr % ringCap r)

/-- RPTR advances over every consecutive released slot, freeing it (R324). -/
def ringAdvance : Nat → Ring → Ring
  | 0, r => r
  | n + 1, r =>
    if smFind? r.slots (r.rptr % ringCap r) = some .released then
      ringAdvance n { r with slots := smDel r.slots (r.rptr % ringCap r), rptr := (r.rptr + 1) % 65536 }
    else r

def setRing (s : State) (k q : Nat) (r : Ring) : State :=
  modTeam s k fun t => { t with ringRecs := smPut t.ringRecs q r }

/-- The superstep a superstep write of a thread belongs to (R221). -/
def superTag (s : State) (t : Nat) : Nat :=
  match getGrove s (getTeam s (teamOf s t)).grove with
  | none => 0
  | some g => if smGet 0 (getTh s t).arr 9 = g.stepPhase + 1 then g.stepPhase + 1 else g.stepPhase

/-- The phase of a barrier of a team (R276). -/
def barPhase (s : State) (k b : Nat) : Nat :=
  if b < 8 then smGet 0 (getTeam s k).bars b
  else match getGrove s (getTeam s k).grove with
    | none => 0
    | some g => if b = 8 then g.gPhase else g.stepPhase

end Sys2Proof.Machine
end

