-- ==== Sys2Proof/Machine/Control.lean ====
section
/-! DEFINITION. Control flow and hardware loops: class 0x7 (R170 to R182). -/
namespace Sys2Proof.Machine

/-- The target of a displacement in words (R170). -/
def dispTarget (pc : W64) (disp : Int) : W64 := pc + truncInt 64 (8 * disp)

/-- The target of an operand: bits 56:3 (R172). -/
def regTarget (a : W64) : W64 := a &&& 0x01FFFFFFFFFFFFF8

/-- A taken transfer of control in each acting thread, with a link pair written first (R172, R173). -/
def jumpWord (g : Guard) (srcs : List Src64) (link : Option WPair) (f : Nat → W64) (s : State) : Out :=
  let r := srcRegs [] srcs
  let wr := match link with
    | some p => pairRegs p.toNat
    | none => []
  runThreads { guard := g, reads := r.1, sreads := r.2, writes := wr }
    (fun t =>
      let ra := (getTh s t).pc + 8
      { jump := some (f t),
        w := match link with
          | some p => [(2 * p.toNat, ra.extractLsb' 0 32), (2 * p.toNat + 1, ra.extractLsb' 32 32)]
          | none => [] }) s

/-- bra (R172). -/
def execBra (g : Guard) (disp : BitVec 18) (s : State) : Out :=
  jumpWord g [] none (fun t => dispTarget (getTh s t).pc disp.toInt) s

/-- jmp (R172). -/
def execJmp (g : Guard) (a : Src64) (s : State) : Out :=
  jumpWord g [a] none (fun t => regTarget (rd64 s t a)) s

/-- jmp.link (R172): a is read before d is written. -/
def execJmpLink (g : Guard) (d : WPair) (a : Src64) (s : State) : Out :=
  jumpWord g [a] (some d) (fun t => regTarget (rd64 s t a)) s

/-- call (R172). -/
def execCall (g : Guard) (d : WPair) (disp : BitVec 18) (s : State) : Out :=
  jumpWord g [] (some d) (fun t => dispTarget (getTh s t).pc disp.toInt) s

/-- ret (R172): the PC of jmp. -/
def execRet (g : Guard) (a : Src64) (s : State) : Out :=
  jumpWord g [a] none (fun t => regTarget (rd64 s t a)) s

/-! ### Loops (R178 to R181) -/

/-- What `loop` decides in one thread against the entries as they stand (R179): a skip, a trap, or a level opened. -/
inductive LoopRes where
  | skip
  | trap
  | opened (k : Nat) (loops : SMap LoopEntry)

def loopOpen (loops : SMap LoopEntry) (depth : Nat) (n : W32) (start stop : W64) : LoopRes :=
  if n = 0 then .skip
  else if depth = 3 then .trap
  else
    let outside := match depth with
      | 0 => false
      | k + 1 => match smFind? loops k with
        | some ⟨some (_, e), _⟩ => decide (e.toNat < stop.toNat)
        | _ => false
    if outside then .trap
    else match smFind? loops depth with
      | none => .opened depth (smPut loops depth ⟨some (start, stop), []⟩)
      | some ⟨none, _⟩ => .trap
      | some ⟨some (st, _), _⟩ => if st = start then .opened depth loops else .trap

/-- The threads of a `loop` word in ascending lane order: the entries afterwards and the threads that trap. -/
def loopFold (s : State) (cnt : Nat → W32) (disp : Int) : List Nat → SMap LoopEntry → SMap LoopEntry × List Nat
  | [], loops => (loops, [])
  | t :: ts, loops =>
    let th := getTh s t
    match loopOpen loops (loopDepth th) (cnt t) (th.pc + 8) (dispTarget th.pc disp) with
    | .skip => loopFold s cnt disp ts loops
    | .trap => let r := loopFold s cnt disp ts loops; (r.1, t :: r.2)
    | .opened _ l' => loopFold s cnt disp ts l'

/-- A body word as the loop buffer fetches it, where the issue slot's translations reach it. -/
def bodyWord (s : State) (w va : Nat) : Option W64 :=
  match lookup (coreTlb s (w / 64) (w % 4)) (getTeam s (teamOfWarp s w)).asid va .x with
  | .hit e pa =>
    let p := fwdPa s pa
    if !paOk p || (inWindow p && !windowBacked s p) || dataBad s p 8 e.key e.ver then none
    else some (BitVec.ofNat 64 (readNat s p 8))
  | _ => none

/-- The entries after a `loop` word: one that it opened has fetched its body's words (R182); a word whose page is not in the
caches is fetched at its first issue. -/
def loopFill (s : State) (w : Nat) (old new : SMap LoopEntry) : SMap LoopEntry :=
  new.map fun e =>
    match smFind? old e.1, e.2.bound with
    | none, some (start, stop) =>
      let words : SMap W64 := (blocksOf 8 start.toNat (stop.toNat + 8 - start.toNat)).foldl (fun m a =>
        match bodyWord s w (a * 8) with
        | some x => smPut m (a * 8) x
        | none => m) []
      (e.1, { e.2 with words := words })
    | _, _ => e

/-- The state with the levels of a `loop` word opened: the entries of the warp, and the counter of each thread whose
count is not 0. -/
def loopOpened (s : State) (w : Nat) (cnt : Nat → W32) (disp : Int) (acting : List Nat) : State :=
  inThreads (modWarp s w fun x => { x with loops := loopFill s w x.loops (loopFold s cnt disp acting x.loops).1 }) acting fun t x =>
    if cnt t = 0 then x else setLc x (loopDepth x) (cnt t)

/-- Where a thread of a `loop` word goes: past the body when its count is 0. -/
def loopSkip (s : State) (cnt : Nat → W32) (disp : Int) (t : Nat) : Eff :=
  { jump := if cnt t = 0 then some (dispTarget (getTh s t).pc disp + 8) else none }

/-- The loop word shared by both forms (R179). -/
def loopWord (g : Guard) (a : Src) (disp : Int) (s : State) : Out :=
  let r := srcRegs [a] []
  let cnt := fun t => rd32 s t a
  runWord { guard := g, reads := r.1, sreads := r.2, loops := true } (fun w _ acting =>
    let bad := (loopFold s cnt disp acting (getWarp s w).loops).2
    if !bad.isEmpty then .traps (bad.map fun t => (t, preciseTrap ccLoopDepth (getTh s t).pc))
    else .go (loopOpened s w cnt disp acting) (acting.map fun t => (t, loopSkip s cnt disp t))) s

/-- loop (R179). -/
def execLoop (g : Guard) (a : Src) (disp : BitVec 18) (s : State) : Out := loopWord g a disp.toInt s

/-- The state with the innermost level of each acting thread ended (R181). -/
def loopClosed (s : State) (acting : List Nat) : State := inThreads s acting fun _ x => setLc x (loopDepth x - 1) 0

/-- Where `lbrk` takes a thread: past the end of the level's body, when its entry is bound. -/
def loopExit (s : State) (w t : Nat) : Option W64 :=
  match smFind? (getWarp s w).loops (loopDepth (getTh s t) - 1) with
  | some ⟨some (_, e), _⟩ => some (e + 8)
  | _ => none

/-- lbrk (R181). DEDUCED, notes/assumptions/10.md. -/
def execLbrk (g : Guard) (s : State) : Out :=
  runWord { guard := g, loops := true } (fun w _ acting =>
    let bad := acting.filter fun t => decide (loopDepth (getTh s t) = 0)
    if !bad.isEmpty then .traps (bad.map fun t => (t, preciseTrap ccLoopDepth (getTh s t).pc))
    else .go (loopClosed s acting) (acting.map fun t => (t, { jump := loopExit s w t }))) s

/-! ### Ending, yielding and waiting (R174 to R177) -/

/-- A warp all of whose threads have exited drops its open card (R317). -/
def dropOpenCard (s : State) (w : Nat) : State :=
  match (getWarp s w).openCard with
  | some n =>
    if warpRetired s w then
      modCore (modWarp s w fun x => { x with openCard := none }) (w / 64) fun c =>
        { c with jobs := c.jobs.filter fun j => decide (j.num ≠ n) }
    else s
  | none => s

/-- The state with the acting threads exited. -/
def exitThreads (s : State) (acting : List Nat) : State :=
  inThreads s acting fun _ x => { x with exited := true, handler := false, returned := x.returned || x.handler }

/-- exit (R174): a thread in handler state counts as returned. -/
def execExit (g : Guard) (s : State) : Out :=
  match issuedSet s with
  | none => .next s
  | some (w, _) =>
    match runWord { guard := g, reports := true } (fun _ _ acting => .go (exitThreads s acting) []) s with
    | .next s1 => .next (resumeIfDone (dropOpenCard s1 w) (teamOfWarp s w))
    | r => r

/-- yield (R175): the slot passes the warp over for 16 cycles, counted in the model's steps. DEDUCED,
notes/assumptions/10.md. -/
def execYield (g : Guard) (s : State) : Out :=
  runWord { guard := g } (fun w _ _ => .go (modWarp s w fun x => { x with yieldUntil := s.n + 16 }) []) s

/-- nap (R176). -/
def execNap (g : Guard) (d : WReg) (a : Src64) (b : Src) (s : State) : Out :=
  let r := srcRegs [b] [a]
  runThreads { guard := g, reads := r.1, sreads := r.2, writes := [d.toNat] }
    (fun t =>
      let deadline := (rd64 s t a).toNat
      if deadline ≤ s.clock then { w := [(d.toNat, 0x80000000)] }
      else { wait := some (.nap deadline ((rd32 s t b).toNat % 16) 0 d.toNat) }) s

/-- nop (R177). -/
def execNop (g : Guard) (s : State) : Out := runThreads { guard := g } (fun _ => {}) s

/-- An event a `nap` may name (R176) is seen by the napping threads it reaches. -/
def napEvent (s : State) (bit : Nat) (who : Nat → Bool) : State :=
  { s with threads := s.threads.map fun x =>
      match x.2.wait with
      | some (.nap dl m seen d) =>
        if m.testBit bit && who x.1 && !seen.testBit bit then (x.1, { x.2 with wait := some (.nap dl m (seen + 2 ^ bit) d) }) else x
      | _ => x }

/-- NAP_WAKE (R47, R176): a napping thread whose deadline has passed or whose event has occurred completes. -/
def execNapWake (t : Nat) (s : State) : Out :=
  let th := getTh s t
  match th.wait with
  | some (.nap dl _ seen d) =>
    if dl ≤ s.clock ∨ seen ≠ 0 then
      .next (setTh s t { wrW th d (BitVec.ofNat 32 ((if dl ≤ s.clock then 2 ^ 31 else 0) + seen)) with wait := none, waitCount := 0 })
    else .next s
  | _ => .next s

end Sys2Proof.Machine
end

