-- ==== Sys2Proof/Machine/Access.lean ====
section
/-! DEFINITION. Loads, stores, atomics, reductions, fences and range maintenance: classes 0x9 and 0xA without the
barriers (R257 to R275). An access enters its thread's queue at issue and performs in an event of its own. -/
namespace Sys2Proof.Machine

/-! ### Data registers (R257, R261) -/

def ldBytes : LdW → Nat
  | .z8 | .s8 => 1
  | .z16 | .s16 => 2
  | .w32 => 4
  | .w64 => 8
  | .w128 => 16

def stBytes : StW → Nat
  | .b8 => 1
  | .b16 => 2
  | .b32 => 4
  | .b64 => 8
  | .b128 => 16

/-- The data registers of an access of n bytes from wD. -/
def dataRegs (d n : Nat) : List Nat := rangeFrom d ((n + 3) / 4)

/-- The low n bytes of data registers, in order. -/
def regBytes (th : Thread) (d n : Nat) : List Byte :=
  ((dataRegs d n).flatMap fun r => bytesOfNat 4 (rdW th r).toNat).take n

/-- The register values a load writes (R261). -/
def loadRegs (w : LdW) (bs : List Byte) : List W32 :=
  match w with
  | .z8 | .z16 | .w32 => [BitVec.ofNat 32 (natOfBytes bs)]
  | .s8 => [(BitVec.ofNat 8 (natOfBytes bs)).signExtend 32]
  | .s16 => [(BitVec.ofNat 16 (natOfBytes bs)).signExtend 32]
  | .w64 => [BitVec.ofNat 32 (natOfBytes (bs.take 4)), BitVec.ofNat 32 (natOfBytes (bs.drop 4))]
  | .w128 => (rangeFrom 0 4).map fun i => BitVec.ofNat 32 (natOfBytes ((bs.drop (4 * i)).take 4))

/-! ### Addresses (R259) -/

def globAddr (s : State) (t : Nat) (base : Src64) (idx : Src) (off : BitVec 7) : Nat :=
  (rd64 s t base + (rd32 s t idx).signExtend 64 + off.signExtend 64).toNat
def scratchAddr (s : State) (t : Nat) (base idx : Src) (off : BitVec 7) : Nat :=
  (rd32 s t base + rd32 s t idx + off.signExtend 32).toNat

/-- A memory operation as it enters the queue of a thread. -/
def newMop (s : State) (t : Nat) (k : MopKind) (glob : Bool) (addr : Nat) : MemOp :=
  { kind := k, glob := glob, addr := addr, pc := (getTh s t).pc, la := 0, step := superTag s t, st := .ready }

/-- The two halves of a 64-bit source, low word first (R198). -/
def halves64 (v : W64) : List W32 := [v.extractLsb' 0 32, v.extractLsb' 32 32]

/-- A word whose acting threads each queue one operation. -/
def mopWord (g : Guard) (la : Nat) (r : List Nat × List Nat) (wr : List Nat) (f : Nat → MemOp) (s : State) : Out :=
  runThreads { guard := g, la := la, reads := r.1, sreads := r.2, writes := wr, access := true } (fun t => { mops := [f t] }) s

/-- A load word of either space; `snap` gives the values of its operand fields (R198). -/
def loadWord (g : Guard) (la : Nat) (w : LdW) (rlx : Bool) (d : Nat) (r : List Nat × List Nat) (glob : Bool)
    (addr : Nat → Nat) (snap : Nat → List W32) (s : State) : Out :=
  let dst := dataRegs d (ldBytes w)
  mopWord g la r dst (fun t =>
    { newMop s t (.load w rlx dst) glob (addr t) with snap := if 1 < dst.length then snap t else [] }) s

/-- A store word of either space. -/
def storeWord (g : Guard) (la : Nat) (w : StW) (d : Nat) (r : List Nat × List Nat) (glob : Bool) (addr : Nat → Nat)
    (s : State) : Out :=
  let src := dataRegs d (stBytes w)
  mopWord g la (src ++ r.1, r.2) []
    (fun t => newMop s t (.store (regBytes (getTh s t) d (stBytes w))) glob (addr t)) s

/-- ld (R261). -/
def execLd (h : Hdr) (w : LdW) (rlx : Bool) (d : WReg) (base : Src64) (idx : Src) (off : BitVec 7) (s : State) : Out :=
  loadWord h.guard h.la.toNat w rlx d.toNat (srcRegs [idx] [base]) true (fun t => globAddr s t base idx off)
    (fun t => halves64 (rd64 s t base) ++ [rd32 s t idx]) s

/-- st (R261): a store with RLX behaves as without (R258). -/
def execSt (h : Hdr) (w : StW) (_rlx : Bool) (d : WReg) (base : Src64) (idx : Src) (off : BitVec 7) (s : State) : Out :=
  storeWord h.guard h.la.toNat w d.toNat (srcRegs [idx] [base]) true (fun t => globAddr s t base idx off) s

/-- ldsp (R263). -/
def execLdsp (h : Hdr) (w : LdW) (rlx : Bool) (d : WReg) (base idx : Src) (off : BitVec 7) (s : State) : Out :=
  loadWord h.guard h.la.toNat w rlx d.toNat (srcRegs [base, idx] []) false (fun t => scratchAddr s t base idx off)
    (fun t => [rd32 s t base, rd32 s t idx]) s

/-- stsp (R263). -/
def execStsp (h : Hdr) (w : StW) (_rlx : Bool) (d : WReg) (base idx : Src) (off : BitVec 7) (s : State) : Out :=
  storeWord h.guard h.la.toNat w d.toNat (srcRegs [base, idx] []) false (fun t => scratchAddr s t base idx off) s

/-- ldf, ldf.take (R264). -/
def execLdf (h : Hdr) (take : Bool) (d : WQuad) (base idx : Src) (off : BitVec 7) (s : State) : Out :=
  let dst := groupRegs (4 * d.toNat) 4
  mopWord h.guard h.la.toNat (srcRegs [base, idx] []) dst
    (fun t => { newMop s t (.ldf take dst) false (scratchAddr s t base idx off) with snap := [rd32 s t base, rd32 s t idx] }) s

/-- stf, stf.wait (R264). -/
def execStf (h : Hdr) (wait : Bool) (d : WQuad) (base idx : Src) (off : BitVec 7) (s : State) : Out :=
  let src := groupRegs (4 * d.toNat) 4
  let r := srcRegs [base, idx] []
  mopWord h.guard h.la.toNat (src ++ r.1, r.2) []
    (fun t => newMop s t (.stf wait (regBytes (getTh s t) (4 * d.toNat) 16)) false (scratchAddr s t base idx off)) s

/-! ### Buffer access (R265, R266) -/

def bufBytes : BufW → Nat
  | .w32 => 4
  | .w64 => 8
  | .w128 => 16

/-- The AB byte an access of a record reaches, or none where it is refused (R265). -/
def abPlace (tm : Team) (k : Nat) (idx : W32) (off : BitVec 7) (n : Nat) : Option Nat :=
  match getRec tm k with
  | none => none
  | some d =>
    let o : Int := (idx.toNat : Int) + off.toInt
    if dKind d ≠ kAb ∨ o < 0 ∨ o % n ≠ 0 ∨ (dLen d : Int) < o + n then none else some (dBase d + o.toNat)

/-- Whether a `.rlx` load, or an access of a buffer, may pass an earlier operation (R237, R239, R273): what stands in the store
buffer, a reduction, or maintenance. -/
def mayPass (o : MemOp) : Bool :=
  match o.kind with
  | .store _ => true
  | .red _ _ _ _ _ => true
  | .maint _ _ => true
  | _ => false

/-- Whether an access of a buffer still has to wait for earlier operations of its threads, so as to take effect in program
order (R239). -/
def orderHeld (s : State) (acting : List Nat) : Bool := acting.any fun t => !(getTh s t).mq.all mayPass

/-- lda (R265). -/
def execLda (h : Hdr) (w : BufW) (d : WReg) (k : Fin 16) (idx : Src) (off : BitVec 7) (s : State) : Out :=
  let r := srcRegs [idx] []
  let n := bufBytes w
  runWord { guard := h.guard, la := h.la.toNat, reads := r.1, sreads := r.2, writes := dataRegs d.toNat n, access := true }
    (fun wp _ acting =>
      let tk := teamOfWarp s wp
      let tm := getTeam s tk
      if namesPending s tk acting [k.val] [] || orderHeld s acting then .stall
      else
        let place (t : Nat) := abPlace tm k.val (rd32 s t idx) off n
        let bad := acting.filter fun t => (place t).isNone
        if !bad.isEmpty then .traps (bad.map fun t => (t, preciseTrap ccBadRsv (getTh s t).pc))
        else .go s (acting.map fun t =>
          let bs := sramRead (getCore s (wp / 64)).ab ((place t).getD 0) n
          (t, { w := (rangeFrom 0 (n / 4)).map fun i => (d.toNat + i, BitVec.ofNat 32 (natOfBytes ((bs.drop (4 * i)).take 4))) }))) s

/-- sta (R265). -/
def execSta (h : Hdr) (w : BufW) (d : WReg) (k : Fin 16) (idx : Src) (off : BitVec 7) (s : State) : Out :=
  let r := srcRegs [idx] []
  let n := bufBytes w
  runWord { guard := h.guard, la := h.la.toNat, reads := dataRegs d.toNat n ++ r.1, sreads := r.2, access := true }
    (fun wp _ acting =>
      let tk := teamOfWarp s wp
      let tm := getTeam s tk
      if namesPending s tk acting [k.val] [] || orderHeld s acting then .stall
      else
        let place (t : Nat) := abPlace tm k.val (rd32 s t idx) off n
        let bad := acting.filter fun t => (place t).isNone
        if !bad.isEmpty then .traps (bad.map fun t => (t, preciseTrap ccBadRsv (getTh s t).pc))
        else .go (acting.foldl (fun s' t => modCore s' (wp / 64) fun c =>
          { c with ab := sramWrite c.ab ((place t).getD 0) (regBytes (getTh s t) d.toNat n) }) s) []) s

/-- The CB byte of tile element (i, j) (R266, R292). -/
def tileByte (t i j : Nat) : Nat := t * 0x10000 + (128 * i + j) * 4

/-- The CB bytes of the four elements an index selects (R266). -/
def tilePlaces (t : Nat) (col : Bool) (b : W32) : List Nat :=
  let i := b.toNat % 128
  let j := b.toNat / 128 % 32
  (rangeFrom 0 4).map fun n => if col then tileByte t (4 * j + n) i else tileByte t i (4 * j + n)

/-- The checks of `ldc` and `stc`: BAD_RSV, then ACC_TOKEN (R266, R289). -/
def tileCheck (s : State) (k t : Nat) : Option Nat :=
  if !ownsTile s k t then some ccBadRsv else if tokenUnit s (k / 4) t then some ccAccToken else none

/-- ldc (R266). -/
def execLdc (h : Hdr) (col : Bool) (d : WQuad) (tl : Fin 4) (idx : Src) (s : State) : Out :=
  let r := srcRegs [idx] []
  let dst := groupRegs (4 * d.toNat) 4
  runWord { guard := h.guard, la := h.la.toNat, reads := r.1, sreads := r.2, writes := dst, access := true }
    (fun wp _ acting =>
      let tk := teamOfWarp s wp
      if namesPending s tk acting [] [tl.val] || orderHeld s acting then .stall
      else match tileCheck s tk tl.val with
        | some c => .traps (acting.map fun t => (t, preciseTrap c (getTh s t).pc))
        | none => .go s (acting.map fun t =>
          let words := (tilePlaces tl.val col (rd32 s t idx)).map fun a =>
            BitVec.ofNat 32 (natOfBytes (sramRead (getCore s (wp / 64)).cb a 4))
          (t, { w := dst.zip words }))) s

/-- stc (R266). -/
def execStc (h : Hdr) (col : Bool) (d : WQuad) (tl : Fin 4) (idx : Src) (s : State) : Out :=
  let r := srcRegs [idx] []
  let src := groupRegs (4 * d.toNat) 4
  runWord { guard := h.guard, la := h.la.toNat, reads := src ++ r.1, sreads := r.2, access := true }
    (fun wp _ acting =>
      let tk := teamOfWarp s wp
      if namesPending s tk acting [] [tl.val] || orderHeld s acting then .stall
      else match tileCheck s tk tl.val with
        | some c => .traps (acting.map fun t => (t, preciseTrap c (getTh s t).pc))
        | none => .go (acting.foldl (fun s' t =>
            let put (m : SMap Byte) (x : Nat × Nat) := sramWrite m x.2 (bytesOfNat 4 (rdW (getTh s t) x.1).toNat)
            modCore s' (wp / 64) fun c => { c with cb := (src.zip (tilePlaces tl.val col (rd32 s t idx))).foldl put c.cb }) s) []) s

/-! ### Atomics and reductions (R268 to R273) -/

/-- The registers and the value of an atomic's operand; a constant under `.fadd` is an FP32 value (R268). -/
def atomSrc (a : AtomVal) : List Src × List Src64 :=
  match a with
  | .v32 b => ([b], [])
  | .v64 b => ([], [b])
def atomVal (s : State) (t : Nat) (op : AtomOp) (a : AtomVal) : Nat :=
  match a with
  | .v32 b => (if op = .fadd then rdSrc s t .f32 (.flt 32) b else rd32 s t b).toNat
  | .v64 b => (rd64 s t b).toNat
def atomWide (a : AtomVal) : Bool :=
  match a with
  | .v32 _ => false
  | .v64 _ => true

/-- The comparand of `cas`: the old d (R270). -/
def atomCmp (s : State) (t d : Nat) (wide : Bool) : Nat :=
  if wide then (rdW64 (getTh s t) d).toNat else (rdW (getTh s t) d).toNat

/-- An atomic word of either space. -/
def atomWord (h : Hdr) (op : AtomOp) (ord : AtomOrd) (sc : Scope) (d : Nat) (b : AtomVal) (adr : List Src × List Src64)
    (glob : Bool) (addr : Nat → Nat) (s : State) : Out :=
  let x := atomSrc b
  let r := srcRegs (adr.1 ++ x.1) (adr.2 ++ x.2)
  let wide := atomWide b
  let dst := dataRegs d (if wide then 8 else 4)
  mopWord h.guard h.la.toNat ((if op = .cas then dst else []) ++ r.1, r.2) dst
    (fun t =>
      { newMop s t (.atomic op wide ord sc dst (atomVal s t op b) (atomCmp s t d wide)) glob (addr t) with
        snap := if wide then
          (if glob then halves64 (BitVec.ofNat 64 (addr t)) else [BitVec.ofNat 32 (addr t)])
            ++ halves64 (BitVec.ofNat 64 (atomVal s t op b)) else [] }) s

/-- atom (R268, R270). -/
def execAtom (h : Hdr) (op : AtomOp) (ord : AtomOrd) (sc : Scope) (d : WReg) (a : Src64) (b : AtomVal) (s : State) : Out :=
  atomWord h op ord sc d.toNat b ([], [a]) true (fun t => (rd64 s t a).toNat) s

/-- atoms (R268, R270). -/
def execAtoms (h : Hdr) (op : AtomOp) (ord : AtomOrd) (sc : Scope) (d : WReg) (a : Src) (b : AtomVal) (s : State) : Out :=
  atomWord h op ord sc d.toNat b ([a], []) false (fun t => (rd32 s t a).toNat) s

/-- red (R268, R273): the thread waits for its stores to drain, and leaves without the result. -/
def execRed (h : Hdr) (op : AtomOp) (ord : AtomOrd) (sc : Scope) (a : Src64) (b : AtomVal) (s : State) : Out :=
  let x := atomSrc b
  let r := srcRegs x.1 (a :: x.2)
  mopWord h.guard h.la.toNat r []
    (fun t => newMop s t (.red op (atomWide b) ord sc (atomVal s t op b)) true (rd64 s t a).toNat) s

/-! ### Fences and range maintenance (R241, R242, R274, R275) -/

/-- Whether a thread has a maintenance operation that has not completed. -/
def maintOpen (s : State) (t : Nat) : Bool :=
  (s.maints.any fun m => decide (m.thread = t)) || (getTh s t).mq.any fun o =>
    match o.kind with
    | .maint _ _ => true
    | _ => false

/-- Whether what a fence waits for has come about in a thread (R241, R242). A write to a host-port target is acknowledged as
it performs, since the model has none. DEDUCED, notes/assumptions/40.md. -/
def fenceMet (s : State) (t : Nat) (k : FenceKind) (sc : Scope) : Bool :=
  let th := getTh s t
  let wide := decide (sc = .pkg) || decide (sc = .sys)
  match k with
  | .sc => resolved th && !maintOpen s t
  | .acq => th.mq.all fun o => isStore o || !mopOpen o
  | .rel => storesDrained th && (!wide || !maintOpen s t)

/-- fence (R274): the word stands until its waits are over. -/
def execFence (g : Guard) (k : FenceKind) (sc : Scope) (s : State) : Out :=
  runWord { guard := g } (fun _ _ acting => if acting.all fun t => fenceMet s t k sc then .go s [] else .stall) s

/-- A maintenance word (R275): one operation per acting thread, which the thread does not wait for. -/
def maintWord (h : Hdr) (k : MaintKind) (a : Src64) (b : Src) (s : State) : Out :=
  let r := srcRegs [b] [a]
  mopWord h.guard h.la.toNat r []
    (fun t => newMop s t (.maint k (rd32 s t b).toNat) true (rd64 s t a).toNat) s

/-- clean.r (R275). -/
def execCleanR (h : Hdr) (a : Src64) (b : Src) (s : State) : Out := maintWord h .clean a b s
/-- inval.r (R275). -/
def execInvalR (h : Hdr) (a : Src64) (b : Src) (s : State) : Out := maintWord h .inval a b s
/-- flush.r (R275). -/
def execFlushR (h : Hdr) (a : Src64) (b : Src) (s : State) : Out := maintWord h .flush a b s

end Sys2Proof.Machine
end

