-- ==== Sys2Proof/Machine/Barrier.lean ====
section
/-! DEFINITION. Team, grove and superstep barriers and mbar objects (R276 to R281, R69, R220). -/
namespace Sys2Proof.Machine

/-! ### Arrivals and waits (R276 to R278) -/

/-- The wait of one thread that arrives at a barrier: an arrival of a thread that has arrived in this phase already counts
after the phase completes (R277). -/
def arriveWait (s : State) (k b : Nat) (andWait : Bool) (t : Nat) : Option Wait :=
  let ph := barPhase s k b
  if smGet 0 (getTh s t).arr b = ph + 1 then some (.barPrev b ph andWait)
  else if andWait then some (.bar b ph) else none

/-- The arrivals of the acting threads that have not arrived in the current phase (R277). -/
def arrive (s : State) (k b : Nat) (acting : List Nat) : State :=
  let ph := barPhase s k b
  inThreads s (acting.filter fun t => decide (smGet 0 (getTh s t).arr b ≠ ph + 1)) fun _ x => { x with arr := smPut x.arr b (ph + 1) }

/-- An arriving word (R277): reports, then the armed check of R69; in handler state it ends the team (R203). -/
def arriveWord (g : Guard) (b : Nat) (andWait : Bool) (s : State) : Out :=
  runWord { guard := g, reports := true, committed := true } (fun w _ acting =>
    let k := teamOfWarp s w
    let trapWith (c : Nat) : Own := .traps (acting.map fun t => (t, preciseTrap c (getTh s t).pc))
    if acting.any fun t => (getTh s t).handler then trapWith ccHandlerState
    else match armedTrap s k with
      | some c => trapWith c
      | none => .go (arrive s k b acting) (acting.map fun t => (t, { wait := arriveWait s k b andWait t }))) s

/-- bar.arrive (R276, R277). -/
def execBarArrive (g : Guard) (b : Fin 10) (s : State) : Out := arriveWord g b.val false s

/-- bar.wait (R278): it waits while the phase of the thread's last arrival is incomplete. -/
def execBarWait (g : Guard) (b : Fin 10) (s : State) : Out :=
  runThreads { guard := g } (fun t =>
    let ph := barPhase s (teamOf s t) b.val
    if smGet 0 (getTh s t).arr b.val = ph + 1 then { wait := some (.bar b.val ph) } else {}) s

/-- bar.sync (R276, R277). -/
def execBarSync (g : Guard) (b : Fin 9) (s : State) : Out := arriveWord g b.val true s

/-- bar.swap (R276, R277). -/
def execBarSwap (g : Guard) (s : State) : Out := arriveWord g 9 true s

/-! ### The end of a phase (R277, R278, R220, R221) -/

/-- The threads whose arrivals a barrier of a team expects (R276, R53). -/
def barMembers (s : State) (k b : Nat) : List Nat :=
  if b < 8 then teamThreads s k
  else match getGrove s (getTeam s k).grove with
    | none => []
    | some g => g.teams.flatMap (teamThreads s)

/-- Whether every member has arrived in the current phase. -/
def phaseFull (s : State) (k b : Nat) : Bool :=
  let l := barMembers s k b
  !l.isEmpty && l.all fun t => decide (smGet 0 (getTh s t).arr b = barPhase s k b + 1)

/-- The merge of a team's written granules into its active half (R220). -/
def swapCore (tm : Team) (c : Core) : Core :=
  let lo := tm.spBase + tm.step
  let mine (p : Nat) : Bool := decide (lo ≤ p) && decide (p < lo + tm.step)
  { c with
    sp := (c.spWritten.filter fun g => mine (g * 16)).foldl
      (fun m g => sramWrite m (g * 16 - tm.step) (sramRead c.sp (g * 16) 16)) c.sp
    spEcc := (c.spWritten.filter fun g => mine (g * 16)).foldl (fun l g => eccMove l g (g - tm.step / 16)) c.spEcc
    spWritten := c.spWritten.filter fun g => !mine (g * 16)
    spBy := smFilter c.spBy fun p => !mine p }

/-- The swap of a grove's superstep windows, then the writes held for the step that begins (R220, R221). -/
def superstepSwap (s : State) (gid : Nat) (g : Grove) : State :=
  let s1 := g.teams.foldl (fun s k => modCore s (k / 4) (swapCore (getTeam s k))) s
  let due := g.held.filter fun h => decide (h.step ≤ g.stepPhase + 1)
  let s2 := setGrove s1 gid { g with
    stepPhase := g.stepPhase + 1
    held := g.held.filter fun h => !decide (h.step ≤ g.stepPhase + 1) }
  due.foldl (fun s h => spWriteStep s (h.core * 4 + h.tslot) h.off h.bytes h.thread) s2

/-- One more phase of a barrier. -/
def nextPhase (s : State) (k b : Nat) : State :=
  if b < 8 then modTeam s k fun t => { t with bars := smMod 0 t.bars b (· + 1) }
  else match getGrove s (getTeam s k).grove with
    | none => s
    | some g =>
      if b = 8 then setGrove s (getTeam s k).grove { g with gPhase := g.gPhase + 1 }
      else superstepSwap s (getTeam s k).grove g

/-- A thread that waited for phase `ph` of barrier `b` (R277, R278). -/
def barWake (b ph : Nat) (th : Thread) : Thread :=
  match th.wait with
  | some (.bar b' p) => if b' = b ∧ p = ph then { th with wait := none } else th
  | some (.barPrev b' p andWait) =>
    if b' = b ∧ p = ph then
      { th with arr := smPut th.arr b (ph + 2), wait := if andWait then some (.bar b (ph + 1)) else none }
    else th
  | _ => th

/-- BARRIER_PHASE_COMPLETE (R277): the last expected arrival, or a removal, completes a phase and releases its waiters. -/
def execBarrierPhaseComplete (core tslot : Nat) (b : Fin 10) (s : State) : Out :=
  let k := core * 4 + tslot
  if (getTeam s k).live && phaseFull s k b.val then
    let ph := barPhase s k b.val
    let l := barMembers s k b.val
    let s1 := l.foldl (fun s t => modTh s t (barWake b.val ph)) (nextPhase s k b.val)
    .next (if b.val ≤ 8 then napEvent s1 2 (fun t => l.any fun u => decide (teamOf s t = teamOf s u)) else s1)
  else .next s

/-! ### mbar objects (R279 to R281) -/

/-- One update of an object with the check of R280: the object's new value and whether its generation advances. -/
def mbUpdate (s : State) (core phys : Nat) (f : MbObj → MbObj) : State :=
  let r := mbCheck (f (mbRead s core phys))
  let s1 := mbWrite s core phys r.1
  if r.2 then napEvent s1 2 (fun t => decide (coreOf t = core)) else s1

/-- One `mbar` operation of each acting thread in lane order (R281), after every earlier access of its thread has
performed, since the operation is a release (R243); `f` gives the register write, if any, and the update, or a fault. -/
def mbarWord (g : Guard) (la : Nat) (r : List Nat × List Nat) (dst : List Nat) (kind : Nat) (addr : Nat → Nat)
    (f : Nat → MbObj → Sum Nat (List (Nat × W32) × MbObj)) (s : State) : Out :=
  runWord { guard := g, la := la, reads := r.1, sreads := r.2, writes := dst, access := true } (fun w _ acting =>
    if acting.any fun t => !resolved (getTh s t) then .stall
    else
      let k := teamOfWarp s w
      let one (a : State × List (Nat × Eff)) (t : Nat) : State × List (Nat × Eff) :=
        let sa := addr t
        let fail (c : Nat) := (lateFault a.1 t c kind (BitVec.ofNat 64 sa) (getTh s t).pc dst none 0, a.2)
        match spObject a.1 k sa with
        | .inl c => fail c
        | .inr p =>
          match f t (mbRead a.1 p.1 p.2) with
          | .inl c => fail c
          | .inr x => (mbUpdate a.1 p.1 p.2 fun _ => x.2, a.2 ++ [(t, { w := x.1 })])
      let r := acting.foldl one (s, [])
      .go r.1 r.2) s

/-- mbar.init (R280). -/
def execMbarInit (h : Hdr) (a b : Src) (s : State) : Out :=
  mbarWord h.guard h.la.toNat (srcRegs [a, b] []) [] 4 (fun t => (rd32 s t a).toNat)
    (fun t m =>
      let q := (rd32 s t b).extractLsb' 0 24
      if q = 0 then .inl ccPermission else .inr ([], { m with quorum := q, count := 0, bytes := 0 })) s

/-- mbar.arrive (R280): arrivals beyond the quorum are discarded. -/
def execMbarArrive (h : Hdr) (d : WReg) (a b : Src) (s : State) : Out :=
  mbarWord h.guard h.la.toNat (srcRegs [a, b] []) [d.toNat] 4 (fun t => (rd32 s t a).toNat)
    (fun t m => .inr ([(d.toNat, m.gen.zeroExtend 32)],
      { m with count := BitVec.ofNat 24 (Nat.min (m.count.toNat + (rd32 s t b).toNat) m.quorum.toNat) })) s

/-- mbar.expect (R280). -/
def execMbarExpect (h : Hdr) (a b : Src) (s : State) : Out :=
  mbarWord h.guard h.la.toNat (srcRegs [a, b] []) [] 4 (fun t => (rd32 s t a).toNat)
    (fun t m => .inr ([], { m with bytes := m.bytes + rd32 s t b })) s

/-- mbar.wait (R280): an address that is refused faults late, as a load (R260). -/
def execMbarWait (g : Guard) (a b : Src) (s : State) : Out :=
  let r := srcRegs [a, b] []
  runWord { guard := g, reads := r.1, sreads := r.2, access := true } (fun w _ acting =>
    if acting.any fun t => !resolved (getTh s t) then .stall
    else
      let k := teamOfWarp s w
      let one (x : State × List (Nat × Eff)) (t : Nat) : State × List (Nat × Eff) :=
        let sa := (rd32 s t a).toNat
        let gen := (rd32 s t b).extractLsb' 0 16
        match spObject s k sa with
        | .inl c => (lateFault x.1 t c 2 (BitVec.ofNat 64 sa) (getTh s t).pc [] none 0, x.2)
        | .inr p =>
          if (mbRead s p.1 p.2).gen = gen then (x.1, x.2 ++ [(t, { wait := some (.mbar sa gen.toNat (getTh s t).pc) })]) else x
      let r := acting.foldl one (s, [])
      .go r.1 r.2) s

/-- MBAR_WAIT_WAKE (R280): the generation has advanced. -/
def execMbarWaitWake (t : Nat) (s : State) : Out :=
  match (getTh s t).wait with
  | some (.mbar sa gen org) =>
    let done := modTh s t fun th => { th with wait := none }
    match spObject s (teamOf s t) sa with
    | .inl c => .next (lateFault done t c 2 (BitVec.ofNat 64 sa) org [] none 0)
    | .inr p => if (mbRead s p.1 p.2).gen.toNat = gen then .next s else .next done
  | _ => .next s

end Sys2Proof.Machine
end

