-- ==== Sys2Proof/Machine/Fetch.lean ====
section
/-! DEFINITION. Fetching a word (R171, R178, R364), and the walks that a lookup starts (R363). -/
namespace Sys2Proof.Machine

/-! ### Walks in flight -/

/-- Asks for a page's translation (R364): joins a walk for the page under way, or starts one. `page` is va / 4,096. -/
def askWalk (s : State) (asid page kind : Nat) (who : WalkFor) : State :=
  if s.walks.any fun w => decide (w.asid = asid) && decide (w.page = page) then
    { s with walks := s.walks.map fun w =>
        if w.asid = asid ∧ w.page = page then { w with who := if w.who.any (fun x => decide (x = who)) then w.who else w.who ++ [who] }
        else w }
  else { s with walks := s.walks ++ [⟨asid, page, kind, [who], false⟩] }

/-- The KIND of an access by its need. -/
def needKind : Need → Nat
  | .x => 1
  | .r => 2
  | .w => 3

/-- A walk of a source (R441: 0 device, 3 Rowan) is refused: the security-log entry of one that meets an entry breaking R362,
with the PA of the entry and KIND as in TCAUSE; an entry whose block fails its tag is poisoned and logged once (R23). -/
def logWalkOf (s : State) (src asid va kind : Nat) : State :=
  let entry (s : State) (code pa : Nat) : State := { s with host := { s.host with log := s.host.log ++ [.refused s.clock code src 0 kind 0 pa] } }
  match findLeaf s asid va with
  | .bad pa => entry s ccPermission pa
  | .leaf _ _ pa => entry s ccPermission pa
  | .unread _ pa =>
    if (smFind? s.raw (pa / 64)).isSome && !nsHas s.poison (pa / 64) then
      { entry s ccIntegrity pa with poison := nsAdd s.poison (pa / 64) }
    else s
  | _ => s
def logWalk (s : State) (asid va kind : Nat) : State := logWalkOf s 0 asid va kind

/-- What a refused access of an agent of one step leaves: its walk's entry in the log, or the poison of what it read
(R23, R441). -/
def noteNow (s : State) (src asid va n : Nat) (need : Need) : State :=
  match transNow s asid va need with
  | (.fault _ true, _) => logWalkOf s src asid va (needKind need)
  | (.ok e, pa) => if e.mt = 1 ∨ need ≠ .r then s else poisonBad s (fwdPa s pa) n e.key e.ver
  | _ => s

/-! ### Words of a warp -/

/-- What a fetch gives. -/
inductive Fetched where
  | word (s : State) (w : W64)
  | done (s : State)
  | bad (pa : Nat)

/-- Whether a bound entry's body holds a word. -/
def inBody (e : LoopEntry) (pc : W64) : Bool :=
  match e.bound with
  | some (start, stop) => decide (start.toNat ≤ pc.toNat) && decide (pc.toNat ≤ stop.toNat)
  | none => false

/-- The word a held loop entry has fetched (R178, R182). -/
def loopFetched (wp : Warp) (pc : W64) : Option W64 :=
  firstSome (fun (e : Nat × LoopEntry) => if inBody e.2 pc then smFind? e.2.words pc.toNat else none) wp.loops

/-- The held entries whose body the word belongs to keep it (R178). -/
def loopKeep (wp : Warp) (pc : W64) (w : W64) : Warp :=
  { wp with loops := wp.loops.map fun e => if inBody e.2 pc then (e.1, { e.2 with words := smPut e.2.words pc.toNat w }) else e }

/-- A precise fetch trap in every thread that fetched (R171). -/
def fetchFault (s : State) (w : Nat) (l : List Nat) (code : Nat) : Fetched :=
  .done (raiseTraps s w (l.map fun t => (t, fetchTrap code (getTh s t).pc)))

/-- The fetch of the word that a chosen warp issues. -/
def fetchWarp (s : State) : Fetched :=
  match issuedSet s with
  | none => .done { s with turn := .idle }
  | some (w, l) =>
    let pc := (getTh s (l.headD 0)).pc
    let va := pc.toNat
    let asid := (getTeam s (teamOfWarp s w)).asid
    let denied := l.filter fun t => (getTh s t).denied
    if !denied.isEmpty then fetchFault s w denied ccNotMapped
    else match loopFetched (getWarp s w) pc with
      | some x => .word s x
      | none =>
        match lookup (coreTlb s (w / 64) (w % 4)) asid va .x with
        | .fault c => fetchFault s w l c
        | .miss =>
          let s0 := corePmc s (w / 64) 4 1
          match walk s asid va .x with
          | .fault c logged => fetchFault (if logged then logWalk s0 asid va 1 else s0) w l c
          | .badAddr pa => .bad pa
          | _ =>
            let s1 := l.foldl (fun s t => modTh s t fun th => { th with wait := some (.page asid (va / 4096) 1 true) }) s0
            .done { askWalk s1 asid (va / 4096) 1 (.core (w / 64)) with turn := .idle }
        | .hit e pa =>
          let p := fwdPa s pa
          if !paOk p then .bad p
          else if inWindow p && !windowBacked s p then fetchFault s w l ccPermission
          else
            let s0 := meterLine s p
            if integrityBad s p 8 e.key e.ver then fetchFault (poisonBad s0 p 8 e.key e.ver) w l ccIntegrity
            else if eccBad s p 8 then fetchFault s0 w l ccUncorrectable
            else
              let x : W64 := BitVec.ofNat 64 (readNat s p 8)
              .word (modWarp s0 w fun wp => loopKeep wp pc x) x

/-! ### Words of a hart (R334) -/

/-- A hart's translation (R364): its own cache, else a walk that fills it. The cache is without bound: DESIGN CHOICE,
notes/assumptions/47.md. -/
def hartTrans (s : State) (h va : Nat) (need : Need) : State × WalkRes × Nat :=
  let x := getHart s h
  let asid := enclAsid s x.encl
  match lookup x.tlb asid va need with
  | .hit e pa => (s, .ok e, fwdPa s pa)
  | .fault c => (s, .fault c false, 0)
  | .miss =>
    match walk s asid va need with
    | .ok e => (setHart s h { x with tlb := e :: x.tlb }, .ok e, fwdPa s (tlbPa e va))
    | .fault c logged => (if logged then logWalk s asid va (needKind need) else s, .fault c logged, 0)
    | r => (s, r, 0)

/-- Whether a hart runs: it belongs to a live enclave, and waits for nothing. -/
def hartReady (s : State) (h : Nat) : Bool :=
  match smFind? s.harts h with
  | some x => x.wait.isNone && x.exc.isNone && !x.paused
  | none => false

end Sys2Proof.Machine
end

