-- ==== Sys2Proof/Machine/FaultQueue.lean ====
section
/-! DEFINITION. Work-queue headers in memory (R330). -/
namespace Sys2Proof.Machine

/-! ### Headers (R330) -/

structure QHdr where
  base : Nat
  kind : Nat
  log2n : Nat
  head : Nat
  tail : Nat
  done : Nat
deriving DecidableEq, Repr

/-- The header at a physical address; none when it is malformed. -/
def readHdr (s : State) (pa : Nat) : Option QHdr :=
  let w (o : Nat) := readNat s (pa + o) 8
  let ctl := w 8
  if bitsOf (w 0) 63 57 ≠ 0 ∨ w 0 % 32 ≠ 0 ∨ bitsOf ctl 63 10 ≠ 0 ∨ bitsOf ctl 7 5 ≠ 0 ∨ bitsOf ctl 9 8 = 3
      ∨ ctl % 32 = 0 ∨ 20 < ctl % 32 ∨ readNat s (pa + 0x28) 24 ≠ 0 then none
  else some ⟨w 0, bitsOf ctl 9 8, ctl % 32, w 0x10, w 0x18, w 0x20⟩

def qCap (h : QHdr) : Nat := 2 ^ h.log2n
/-- Counters out of order, modulo 2^64: DONE above TAIL, HEAD above DONE, or more reserved than the capacity (R330). -/
def qDisordered (h : QHdr) : Bool :=
  let d (a : Nat) : Nat := (a + 2 ^ 64 - h.head) % 2 ^ 64
  decide (qCap h < d h.tail) || decide (d h.tail < d h.done)
/-- Whether a block of a window is the header of a queue in use, one with items present or reserved. DEDUCED,
notes/assumptions/22.md. -/
def hdrInUse (s : State) (b : Nat) : Bool :=
  match readHdr s (b * 64) with
  | some h => inWindow (b * 64) && decide (h.head ≠ h.tail)
  | none => false
/-- Whether a block holds a header whose counters are equal: a queue that starts afresh. -/
def hdrFresh (s : State) (b : Nat) : Bool :=
  match readHdr s (b * 64) with
  | some h => decide (h.head = h.tail) && decide (h.done = h.tail)
  | none => false
/-- An ordinary write took `s` to `s'`: headers in use that it changed are spoilt (R330), and a header it leaves fresh is no
longer so. DEDUCED, notes/assumptions/22.md. -/
def noteSpoilt (s s' : State) (pa n : Nat) : State :=
  { s' with
    spoilt := (blocksOf 64 pa n).foldl (fun m b => if hdrInUse s b then nsAdd m b else if hdrFresh s' b then nsDel m b else m)
      s'.spoilt }
/-- The VA of item i. -/
def itemVa (h : QHdr) (i : Nat) : Nat := h.base + i % qCap h * 32
/-- Items present, and items reserved and not taken, modulo 2^64. -/
def qPresent (h : QHdr) : Nat := (h.done + 2 ^ 64 - h.head) % 2 ^ 64
def qFull (h : QHdr) : Bool := decide ((h.tail + 2 ^ 64 - h.head) % 2 ^ 64 = qCap h)

end Sys2Proof.Machine
end

