-- ==== Sys2Proof/Machine/Perform.lean ====
section
/-! DEFINITION. How one access of a thread performs at its home or at its scratchpad port, once it may (R214 to R223,
R234 to R240, R252, R260 to R273, R449). -/
namespace Sys2Proof.Machine

/-! ### What an operation is -/

/-- The bytes an operation reaches. -/
def mopSize (k : MopKind) : Nat :=
  match k with
  | .load w _ _ => ldBytes w
  | .sld _ => 8
  | .store bs => bs.length
  | .ldf _ _ => 16
  | .stf _ _ => 16
  | .atomic _ wide _ _ _ _ _ => if wide then 8 else 4
  | .red _ wide _ _ _ => if wide then 8 else 4
  | .maint _ _ => 1
  | .enq _ _ => 1

/-- TCAUSE KIND of an operation's late faults (R260). -/
def mopFaultKind (k : MopKind) : Nat :=
  match k with
  | .load _ _ _ => 2
  | .sld _ => 7
  | .store _ => 3
  | .ldf _ _ => 2
  | .stf _ _ => 3
  | .atomic _ _ _ _ _ _ _ => 4
  | .red _ _ _ _ _ => 4
  | .maint .clean _ => 2
  | .maint _ _ => 3
  | .enq _ _ => 4

/-- Whether an operation reads only. -/
def mopReads (k : MopKind) : Bool :=
  match k with
  | .load _ _ _ => true
  | .sld _ => true
  | .ldf _ _ => true
  | .maint .clean _ => true
  | _ => false

/-- Whether an operation reads the bytes it names. -/
def mopReadsData (k : MopKind) : Bool :=
  match k with
  | .load _ _ _ => true
  | .sld _ => true
  | .atomic _ _ _ _ _ _ _ => true
  | .red _ _ _ _ _ => true
  | _ => false

/-- The permission an operation needs (R363). -/
def mopNeed (k : MopKind) : Need := if mopReads k then .r else .w

/-- The operation at a place of a thread's queue. -/
def getMop (s : State) (t j : Nat) : Option MemOp := (getTh s t).mq[j]?

/-- The threads that hold a copy of a `sld` (R149). -/
def sldThreads (s : State) (t : Nat) (o : MemOp) : List Nat :=
  (warpThreads (warpOf t)).filter fun u => (getTh s u).mq.any fun x => decide (x.kind = o.kind) && decide (x.step = o.step)

/-- An operation leaves its queue; a `sld` leaves every queue it stands in. -/
def dropMop (s : State) (t j : Nat) (o : MemOp) : State :=
  match o.kind with
  | .sld _ =>
    (sldThreads s t o).foldl (fun s u => modTh s u fun th =>
      { th with mq := th.mq.filter fun x => !(decide (x.kind = o.kind) && decide (x.step = o.step)) }) s
  | _ => modTh s t fun th => { th with mq := th.mq.eraseIdx j }

/-- Changes how far an operation has come; a `sld` changes in every queue. -/
def setMopSt (s : State) (t j : Nat) (x : OpState) : State :=
  match getMop s t j with
  | none => s
  | some o =>
    match o.kind with
    | .sld _ =>
      (sldThreads s t o).foldl (fun s u => modTh s u fun th =>
        { th with mq := th.mq.map fun y => if y.kind = o.kind ∧ y.step = o.step then { y with st := x } else y }) s
    | _ => modTh s t fun th => { th with mq := th.mq.set j { o with st := x } }

/-- SNAPK of TCAUSE returns to 0 once a word that waited has ended (R198). -/
def clearSnapk (o : MemOp) (th : Thread) : Thread :=
  if o.waited ∧ th.tcause.extractLsb' 28 2 = 1 then { th with tcause := th.tcause &&& 0xCFFFFFFF } else th

/-- A late fault of an operation (R194, R260); that of a `sld` poisons its s register and is pending in every thread that
issued it (R149). -/
def mopFault (s : State) (t j : Nat) (o : MemOp) (code : Nat) : State :=
  let va : W64 := BitVec.ofNat 64 o.addr
  match o.kind with
  | .sld d =>
    let who := sldThreads s t o
    let s1 := modWarp (dropMop s t j o) (warpOf t) fun w =>
      { w with spoison := nsAdd w.spoison d, sdirty := w.sdirty ||| ((1 : BitVec 17) <<< (d / 4)) }
    who.foldl (fun s u => lateFault s u code 7 va o.pc [] (some d) 0) s1
  | _ => lateFault (modTh (dropMop s t j o) t (clearSnapk o)) t code (mopFaultKind o.kind) va o.pc (mopDst o) none 0

/-- Register values are written as an operation completes. -/
def mopWrite (s : State) (t j : Nat) (o : MemOp) (vals : List W32) : State :=
  modTh (dropMop s t j o) t fun th => ((mopDst o).zip vals).foldl (fun th x => wrW th x.1 x.2) (clearSnapk o th)

/-! ### Atomic operations (R268 to R271) -/

/-- The new value of a location, none where it is not written. -/
def atomNew (op : AtomOp) (wide : Bool) (old b cmp : Nat) : Option Nat :=
  let n := if wide then 64 else 32
  let o : BitVec n := BitVec.ofNat n old
  let v : BitVec n := BitVec.ofNat n b
  let r : BitVec n := match op with
    | .add => o + v
    | .fadd => BitVec.ofNat n (fadd32 .rne (BitVec.ofNat 32 old) (BitVec.ofNat 32 b)).1.toNat
    | .minS => iMin .s o v
    | .maxS => iMax .s o v
    | .minZ => iMin .z o v
    | .maxZ => iMax .z o v
    | .and => o &&& v
    | .or => o ||| v
    | .xor => o ^^^ v
    | .xchg => v
    | .cas => v
  if op = .cas ∧ old ≠ cmp then none else some r.toNat

/-- The 32-bit registers of a value. -/
def valRegs (wide : Bool) (v : Nat) : List W32 :=
  if wide then [BitVec.ofNat 32 v, BitVec.ofNat 32 (v / 2 ^ 32)] else [BitVec.ofNat 32 v]

/-! ### Bytes through a translation -/

/-- A write through a translation; a kick page ignores it. -/
def writeThrough (s : State) (e : TlbEntry) (p : Nat) (bs : List Byte) : State :=
  if e.mt = 1 then s else noteSpoilt s (writeBytes s p bs) p bs.length

/-- The fault, if any, of what an access reads through a translation: poison or a tag mismatch, or an uncorrectable ECC error
(R260). -/
def readBad (s : State) (e : TlbEntry) (p n : Nat) : Option Nat :=
  if e.mt = 1 then none
  else if integrityBad s p n e.key e.ver then some ccIntegrity
  else if eccBad s p n then some ccUncorrectable
  else none

/-- An access that fails its tag poisons the blocks it met, and the security log says so (R23, R441). -/
def noteBad (s : State) (e : TlbEntry) (p n : Nat) : State := if e.mt = 1 then s else poisonBad s p n e.key e.ver

/-- The fault, if any, of the data that an operation meets at its home (R260): what it reads; a store of part of a block with an
uncorrectable error, which must read the rest. DESIGN CHOICE, notes/assumptions/59.md. -/
def accessBad (s : State) (e : TlbEntry) (p : Nat) (k : MopKind) : Option Nat :=
  if mopReadsData k then readBad s e p (mopSize k)
  else match k with
    | .store bs => if e.mt ≠ 1 ∧ eccBad s p bs.length then some ccUncorrectable else none
    | _ => none

/-- The line of an access may have been fetched from its tier (R431). -/
def meterFetch (s : State) (e : TlbEntry) (p : Nat) : State := if e.mt = 1 then s else meterLine s p

/-! ### Global memory -/

/-- An operation performs at the home of a physical address, which it may (R236, R237, R240). -/
def performAt (s0 : State) (t j : Nat) (o : MemOp) (e : TlbEntry) (p : Nat) : State :=
  let n := mopSize o.kind
  let s := meterFetch s0 e p
  match accessBad s e p o.kind with
  | some c => mopFault (noteBad s e p n) t j o c
  | none =>
  match o.kind with
  | .load w _ _ => mopWrite s t j o (loadRegs w (readThrough s e p n))
  | .sld d => modWarp (dropMop s t j o) (warpOf t) fun w => wrS w d (BitVec.ofNat 64 (natOfBytes (readThrough s e p n)))
  | .store bs => writeThrough (dropMop s t j o) e p bs
  | .atomic op wide _ _ _ b cmp =>
    let old := natOfBytes (readThrough s e p n)
    let s1 := match atomNew op wide old b cmp with
      | some v => writeThrough s e p (bytesOfNat n v)
      | none => s
    mopWrite s1 t j o (valRegs wide old)
  | .red op wide _ _ b =>
    match atomNew op wide (natOfBytes (readThrough s e p n)) b 0 with
    | some v => writeThrough (dropMop s t j o) e p (bytesOfNat n v)
    | none => dropMop s t j o
  | _ => dropMop s t j o

/-- Where an operation on global memory lies, through its core's translation cache. -/
def mopTrans (s : State) (t : Nat) (o : MemOp) : Trans :=
  lookup (threadTlb s t) (getTeam s (teamOf s t)).asid o.addr (mopNeed o.kind)

/-- The address an access performs at: that of its translation, or the new frame of a page that forwards (R375). -/
def transPa (s : State) (e : TlbEntry) (pa : Nat) : Nat := if e.mt = 1 then pa else fwdPa s pa

/-- The first operation of a thread that waits for the home, a reading or a writing one. -/
def homeMop (s : State) (t : Nat) (reads : Bool) : Option Nat :=
  (getTh s t).mq.findIdx? fun o => decide (o.st = .home) && decide (mopReads o.kind = reads)

/-- Whether writes to an address are held in the final pass of a migration (R375). -/
def migrHolds (s : State) (pa : Nat) : Bool :=
  match s.rowan.migr with
  | some m => m.final && !m.forward && decide (m.src ≤ pa) && decide (pa < m.src + 2 ^ m.bits)
  | none => false

/-- A thread's request about a grain completes at its home: the access performs, or is refused (R385, R386). One whose bytes
are no longer backed is refused (R231); one whose page has moved, whose writes are held (R375), or which is an `enq`, tries
again. -/
def homeDone (s : State) (t : Nat) (reads : Bool) (grain : Nat) (fault : Option Nat) : State :=
  match homeMop s t reads with
  | none => s
  | some j =>
    match getMop s t j with
    | none => s
    | some o =>
      match fault with
      | some c => mopFault s t j o c
      | none =>
        if o.kind = .store [] then dropMop s t j o
        else match mopTrans s t o with
        | .hit e pa =>
          let p := transPa s e pa
          let again := decide (e.mt = 1) || !paOk p || decide (p / 512 ≠ grain) || (!reads && migrHolds s p)
            || (match o.kind with
              | .enq _ _ => true
              | _ => false)
          if again then setMopSt s t j .ready
          else if inWindow p && !windowBacked s p then mopFault s t j o ccPermission
          else performAt s t j o e p
        | _ => setMopSt s t j .ready

/-! ### Scratchpad (R216 to R223, R263, R264) -/

/-- Whether a thread's oldest operation is an `ldf`. -/
def takesGranule (s : State) (t : Nat) : Bool :=
  match getMop s t 0 with
  | some o => (match o.kind with
    | .ldf _ _ => true
    | _ => false)
  | none => false

/-- Whether a waiter at a granule has been served and has still to perform (R223): an `ldf` at a full one, an `stf.wait` at an
empty one. -/
def granServed (s : State) (core phys : Nat) : Bool :=
  (getCore s core).granWait.any fun x => decide (x.1 = phys / 16) && decide (takesGranule s x.2 = granFull s core phys)

/-- Whether no earlier waiter of a thread's own kind stands before it at a granule: the `ldf` wait for it to fill, the
`stf.wait` for it to empty (R222, R223). -/
def granTurn (s : State) (core gran t : Nat) : Bool :=
  match (getCore s core).granWait.find? fun x => decide (x.1 = gran) && decide (takesGranule s x.2 = takesGranule s t) with
  | some x => decide (x.2 = t)
  | none => true

/-- A thread waits at a granule; in a team that has been ended the wait is abandoned (R48). -/
def granJoin (s : State) (core gran t j : Nat) : State :=
  if (getTeam s (teamOf s t)).ended then
    match getMop s t j with
    | some o => dropMop s t j o
    | none => s
  else setMopSt (modCore s core fun c =>
    { c with granWait := if c.granWait.any (fun x => decide (x = (gran, t))) then c.granWait else c.granWait ++ [(gran, t)] }) t j .blocked

def granLeave (s : State) (core gran t : Nat) : State :=
  modCore s core fun c => { c with granWait := c.granWait.filter fun x => decide (x ≠ (gran, t)) }

/-- A granule is set full (R222): one that was empty becomes full, which a `nap` may see (R176). -/
def fillGranule (s : State) (core phys : Nat) : State :=
  if granFull s core phys then s else napEvent (setFull s core phys true) 1 (fun t => decide (coreOf t = core))

/-- A superstep write (R219, R221): held at its core when it belongs to the grove's next step. -/
def stepStore (s : State) (t k off : Nat) (tag : Nat) (bs : List Byte) : State :=
  let own := (getTeam s (teamOf s t)).grove
  match getGrove s own with
  | some g =>
    if (getTeam s k).grove = own ∧ g.stepPhase < tag then
      setGrove s own { g with held := g.held ++ [⟨t, tag, k / 4, k % 4, off, bs⟩] }
    else spWriteStep s k off bs t
  | none => spWriteStep s k off bs t

/-- Whether an operation at its scratchpad port meets an uncorrectable error (R260): one that writes its whole granule reads
none. -/
def spMeets (s : State) (t : Nat) (o : MemOp) (c phys : Nat) : Bool :=
  spBad s c phys (mopSize o.kind) && !(decide (mopSize o.kind = 16) && !mopReadsData o.kind && !takesGranule s t)

/-- An operation performs at its scratchpad port. A plain `stf` comes after the waiters that have been served before it (R223). -/
def performSp (s : State) (t j : Nat) (o : MemOp) : State :=
  let n := mopSize o.kind
  if o.addr % n ≠ 0 then mopFault s t j o ccAlign
  else match spResolve s (teamOf s t) o.addr n with
    | .fault c => mopFault s t j o c
    | .step k off =>
      if mopReadsData o.kind && spBad s (k / 4) (spActive (getTeam s k) off) n then mopFault s t j o ccUncorrectable
      else (match o.kind with
        | .load w _ _ => mopWrite s t j o (loadRegs w (spReadStep s k off n))
        | .store bs => stepStore (dropMop s t j o) t k off o.step bs
        | _ => mopFault s t j o ccPermission)
    | .plain k phys _ =>
      let c := k / 4
      if spMeets s t o c phys then mopFault s t j o ccUncorrectable
      else match o.kind with
      | .load w _ _ => mopWrite s t j o (loadRegs w (spReadPlain s c phys n))
      | .store bs => spWritePlain (dropMop s t j o) c phys bs
      | .ldf take _ =>
        if granFull s c phys && granTurn s c (phys / 16) t then
          let bs := spReadPlain s c phys 16
          let vals := (rangeFrom 0 4).map fun i => (BitVec.ofNat 32 (natOfBytes ((bs.drop (4 * i)).take 4)) : W32)
          let s1 := granLeave (mopWrite s t j o vals) c (phys / 16) t
          if take then setFull s1 c phys false else s1
        else granJoin s c (phys / 16) t j
      | .stf wait bs =>
        if !wait && granServed s c phys then s
        else if !wait || (!granFull s c phys && granTurn s c (phys / 16) t) then
          fillGranule (spWritePlain (granLeave (dropMop s t j o) c (phys / 16) t) c phys bs) c phys
        else granJoin s c (phys / 16) t j
      | .atomic op wide _ _ _ b cmp =>
        let old := natOfBytes (spReadPlain s c phys n)
        let s1 := match atomNew op wide old b cmp with
          | some v => spWritePlain s c phys (bytesOfNat n v)
          | none => s
        mopWrite s1 t j o (valRegs wide old)
      | _ => dropMop s t j o

/-! ### Forwarding from the store buffer (R237) -/

/-- The space of a translated address: physical memory, or the kick pages. -/
def placeSpace (e : TlbEntry) : Nat := if e.mt = 1 then 2 ^ 32 else 0

/-- A location an operation reaches: a physical address of global memory, a byte of a kick page, or a byte of a core's plain
window. -/
def mopPlace (s : State) (t : Nat) (o : MemOp) : Option (Nat × Nat) :=
  if o.glob then
    match mopTrans s t o with
    | .hit e pa => some (placeSpace e, transPa s e pa)
    | .miss => (match walk s (getTeam s (teamOf s t)).asid o.addr (mopNeed o.kind) with
      | .ok e => some (placeSpace e, transPa s e (tlbPa e o.addr))
      | _ => none)
    | .fault _ => none
  else match spResolve s (teamOf s t) o.addr (mopSize o.kind) with
    | .plain k phys _ => some (k / 4 + 1, phys)
    | _ => none

/-- What the buffered stores before a `.rlx` load give it: nothing, its bytes, or a wait. -/
inductive Fwd where
  | memory
  | bytes (l : List Byte)
  | wait
deriving DecidableEq, Repr

/-- The youngest of the operations that meets the load's bytes decides; stores that cover part of them make it wait. -/
def forward (s : State) (t : Nat) (o : MemOp) (before : List MemOp) : Fwd :=
  match mopPlace s t o with
  | none => .memory
  | some (sp, a) =>
    let n := mopSize o.kind
    before.foldl (fun r x =>
      match mopPlace s t x with
      | none => r
      | some (sp', b) =>
        let m := mopSize x.kind
        if sp' ≠ sp ∨ b + m ≤ a ∨ a + n ≤ b then r
        else match x.kind with
          | .store bs => if b ≤ a ∧ a + n ≤ b + m then .bytes ((bs.drop (a - b)).take n) else .wait
          | .maint _ _ => r
          | _ => .wait) .memory

end Sys2Proof.Machine
end

