-- ==== Sys2Proof/Machine/Home.lean ====
section
/-! DEFINITION. Coherence homes: the directory, the protocol tables and the engine that runs them (R225 to R227, R378 to
R389). -/
namespace Sys2Proof.Machine

/-! ### Protocol entries (R382, R385, R387 to R389) -/

def aDSH : Nat := 1
def aDEX : Nat := 2
def aSADD : Nat := 4
def aSDEL : Nat := 8
def aIALL : Nat := 0x10
def aRINV : Nat := 0x20
def aRSHR : Nat := 0x40
def aLOCK : Nat := 0x80
def aUPDU : Nat := 0x100
def aWB : Nat := 0x200
def aSAVE : Nat := 0x400
def aHOLD : Nat := 0x800
def aRSND : Nat := 0x1000
def aDONE : Nat := 0x2000

/-- A defined entry: the state it enters and its actions. -/
def pEnt (next act : Nat) : Nat := 2 ^ 31 + next * 2 ^ 27 + act
/-- An entry that faults: its code, and whether only a partial engine write does. -/
def pFault (next code part act : Nat) : Nat := 2 ^ 31 + next * 2 ^ 27 + code * 2 ^ 24 + part * 2 ^ 23 + act

/-- Event codes (R384): reads 0 and 2, writes 1 and 3. -/
def evEVT : Nat := 4
def evERD : Nat := 5
def evEWR : Nat := 6
def evCLN : Nat := 7
def evINV : Nat := 8
def evLCK : Nat := 9
def evULK : Nat := 10
def evUPD : Nat := 11
def evTMO : Nat := 12
def evRead (ev : Nat) : Bool := decide (ev = 0) || decide (ev = 2)
def evWrite (ev : Nat) : Bool := decide (ev = 1) || decide (ev = 3)

/-- A transient row: requests are held, an eviction leaves the sets, a timeout resends, and the round's event ends it. -/
def pTransient (st ev rel round : Nat) (owner : Bool) (done : Nat) : Nat :=
  if evRead ev || evWrite ev || decide (ev = evERD) || decide (ev = evEWR) || decide (ev = evCLN) || decide (ev = evINV) then
    pEnt st aHOLD
  else if ev = evEVT ∧ (rel = 1 ∨ (rel = 2 ∧ owner)) then pEnt st aSDEL
  else if ev = evTMO then pEnt st aRSND
  else if ev = round then done
  else pEnt st 0

/-- A stable row: the entries of the columns of R387's tables. -/
def pStable (st ev : Nat) (read write evt erd ewr cln inv : Nat) : Nat :=
  if evRead ev then read
  else if evWrite ev then write
  else if ev = evEVT then evt
  else if ev = evERD then erd
  else if ev = evEWR then ewr
  else if ev = evCLN then cln
  else if ev = evINV then inv
  else pEnt st 0

/-- INV (R387). -/
def invEntry (st ev rel : Nat) : Nat :=
  match st with
  | 0 => pStable 0 ev (pEnt 1 (aDSH + aSADD)) (pEnt 2 aDEX) (pEnt 0 0) (pEnt 0 aDSH) (pEnt 0 0) (pEnt 0 (aWB + aDONE))
      (pEnt 0 (aWB + aDONE))
  | 1 => pStable 1 ev (pEnt 1 (aDSH + aSADD)) (pEnt 3 (aIALL + aSAVE)) (if rel = 1 then pEnt 1 aSDEL else pEnt 1 0) (pEnt 1 aDSH)
      (pEnt 6 (aIALL + aSAVE)) (pEnt 1 (aWB + aDONE)) (pEnt 8 (aIALL + aSAVE))
  | 2 => pStable 2 ev (if rel = 2 then pEnt 2 aDSH else pEnt 4 (aRSHR + aSAVE))
      (if rel = 2 then pEnt 2 aDEX else pEnt 5 (aRINV + aSAVE)) (if rel = 2 then pEnt 0 0 else pEnt 2 0) (pEnt 4 (aRSHR + aSAVE))
      (if rel = 2 then pEnt 6 (aRINV + aSAVE) else pFault 6 1 1 (aRINV + aSAVE)) (pEnt 7 (aRSHR + aSAVE)) (pEnt 8 (aRINV + aSAVE))
  | 3 => pTransient 3 ev rel evUPD true (pEnt 2 (aDEX + aDONE))
  | 4 => pTransient 4 ev rel evUPD true (pEnt 1 (aDSH + aSADD + aDONE))
  | 5 => pTransient 5 ev rel evUPD true (pEnt 2 (aDEX + aDONE))
  | 6 => pTransient 6 ev rel evUPD true (pEnt 0 aDONE)
  | 7 => pTransient 7 ev rel evUPD true (pEnt 1 (aWB + aDONE))
  | _ => pTransient 8 ev rel evUPD true (pEnt 0 (aWB + aDONE))

/-- UPD (R388). -/
def updEntry (st ev rel : Nat) : Nat :=
  match st with
  | 0 => pStable 0 ev (if ev = 0 then pEnt 0 aDSH else pEnt 1 (aDSH + aSADD)) (pEnt 3 (aLOCK + aSAVE)) (pEnt 0 0) (pEnt 0 aDSH)
      (pEnt 3 (aLOCK + aSAVE)) (pEnt 0 (aWB + aDONE)) (pEnt 0 (aWB + aDONE))
  | 1 => pStable 1 ev (if ev = 0 then pEnt 1 aDSH else pEnt 1 (aDSH + aSADD)) (pEnt 3 (aLOCK + aSAVE))
      (if rel = 1 then pEnt 1 aSDEL else pEnt 1 0) (pEnt 1 aDSH) (pEnt 3 (aLOCK + aSAVE)) (pEnt 1 (aWB + aDONE)) (pEnt 5 (aIALL + aSAVE))
  | 2 => pEnt 2 0
  | 3 => pTransient 3 ev rel evLCK false (pEnt 4 aUPDU)
  | 4 => pTransient 4 ev rel evULK false (pEnt 1 aDONE)
  | _ => pTransient 5 ev rel evUPD false (pEnt 0 (aWB + aDONE))

/-- MIG (R389): INV with three entries changed. -/
def migEntry (st ev rel : Nat) : Nat :=
  if evRead ev then
    match st with
    | 0 => pEnt 2 aDEX
    | 1 => pEnt 3 (aIALL + aSAVE)
    | 2 => if rel = 2 then pEnt 2 aDSH else pEnt 5 (aRINV + aSAVE)
    | _ => invEntry st ev rel
  else invEntry st ev rel

/-- WO (R389). -/
def woEntry (st ev rel : Nat) : Nat :=
  let wo (n : Nat) : Nat := pFault n 2 0 0
  match st with
  | 0 => pStable 0 ev (pEnt 1 (aDSH + aSADD)) (pEnt 2 aDEX) (pEnt 0 0) (pEnt 0 aDSH) (pEnt 4 0) (pEnt 0 (aWB + aDONE))
      (pEnt 0 (aWB + aDONE))
  | 1 => pStable 1 ev (pEnt 1 (aDSH + aSADD)) (pEnt 5 (aIALL + aSAVE)) (if rel = 1 then pEnt 1 aSDEL else pEnt 1 0) (pEnt 1 aDSH)
      (pEnt 9 (aIALL + aSAVE)) (pEnt 1 (aWB + aDONE)) (pEnt 10 (aIALL + aSAVE))
  | 2 => pStable 2 ev (if rel = 2 then pEnt 2 aDSH else pEnt 6 (aRSHR + aSAVE)) (if rel = 2 then pEnt 2 aDEX else wo 2)
      (if rel = 2 then pEnt 4 0 else pEnt 2 0) (pEnt 6 (aRSHR + aSAVE)) (wo 2) (pEnt 7 (aRSHR + aSAVE)) (pEnt 8 (aRINV + aSAVE))
  | 3 => pStable 3 ev (pEnt 3 (aDSH + aSADD)) (wo 3) (if rel = 1 then pEnt 3 aSDEL else pEnt 3 0) (pEnt 3 aDSH) (wo 3)
      (pEnt 3 (aWB + aDONE)) (pEnt 8 (aIALL + aSAVE))
  | 4 => pStable 4 ev (pEnt 3 (aDSH + aSADD)) (wo 4) (pEnt 4 0) (pEnt 4 aDSH) (wo 4) (pEnt 4 (aWB + aDONE)) (pEnt 4 (aWB + aDONE))
  | 5 => pTransient 5 ev rel evUPD true (pEnt 2 (aDEX + aDONE))
  | 6 => pTransient 6 ev rel evUPD true (pEnt 3 (aDSH + aSADD + aDONE))
  | 7 => pTransient 7 ev rel evUPD true (pEnt 3 (aWB + aDONE))
  | 8 => pTransient 8 ev rel evUPD true (pEnt 4 (aWB + aDONE))
  | 9 => pTransient 9 ev rel evUPD true (pEnt 4 aDONE)
  | _ => pTransient 10 ev rel evUPD true (pEnt 0 (aWB + aDONE))

/-- State descriptors (R382): bit 3 USED, bit 2 TRANS, bits 1:0 CLASS (0 I, 1 S, 2 M). -/
def invDesc : List Nat := [8, 9, 10, 14, 13, 14, 12, 13, 12]
def updDesc : List Nat := [8, 9, 10, 13, 13, 12]
def woDesc : List Nat := [8, 9, 10, 9, 8, 14, 13, 13, 12, 12, 12]

/-- SDESC of a list of descriptors. -/
def sdescOf : List Nat → Nat
  | [] => 0
  | d :: l => d + 16 * sdescOf l

/-- The entries that an image may hold (R383). -/
def relOk (ev rel : Nat) : Bool := (decide (ev ≤ 6) && decide (rel ≤ 2)) || (decide (7 ≤ ev) && decide (ev ≤ 12) && decide (rel = 3))

/-- The image of a protocol (R382). -/
def protoImage (desc : List Nat) (name : List Byte) (e : Nat → Nat → Nat → Nat) : List Byte :=
  bytesOfNat 8 (sdescOf desc) ++ name ++ bytesOfNat 8 10 ++ List.replicate 40 0
    ++ (List.range 1024).flatMap fun i =>
      let st := i / 64
      let ev := i / 4 % 16
      let rel := i % 4
      bytesOfNat 4 (if st < desc.length ∧ relOk ev rel then e st ev rel else 0)

/-- The images Rowan loads at boot (R390). PRESUMED, notes/assumptions/23.md. -/
def updImage : List Byte := protoImage updDesc [0x55, 0x50, 0x44, 0, 0, 0, 0, 0] updEntry
def migImage : List Byte := protoImage invDesc [0x4D, 0x49, 0x47, 0, 0, 0, 0, 0] migEntry
def woImage : List Byte := protoImage woDesc [0x57, 0x4F, 0, 0, 0, 0, 0, 0] woEntry

/-! ### Which protocol (R381) -/

/-- A range entry's fields. -/
def rangeV (e : W64) : Bool := e.getLsbD 63
def rangeProt (e : W64) : Nat := (e.extractLsb' 56 3).toNat
def rangeLimit (e : W64) : Nat := (e.extractLsb' 23 23).toNat
def rangeBase (e : W64) : Nat := (e.extractLsb' 0 23).toNat

/-- The protocol of a grain: INV in the windows, and where no valid entry covers it. -/
def protoOf (s : State) (grain : Nat) : Nat :=
  let page := grain * 512 / 2 ^ 21
  if inWindow (grain * 512) then 0
  else match s.ranges.find? fun e => rangeV e.2 && decide (rangeBase e.2 ≤ page) && decide (page < rangeLimit e.2) with
    | some e => rangeProt e.2
    | none => 0

/-- An entry of a protocol. -/
def protoEntry (s : State) (prot st ev rel : Nat) : Nat :=
  if prot = 0 then invEntry st ev rel
  else match smFind? s.protos prot with
    | some img => natOfBytes ((img.drop (0x40 + 4 * (64 * st + 4 * ev + rel))).take 4)
    | none => invEntry st ev rel

/-- A state's descriptor, and the timeout in µs. -/
def protoDesc (s : State) (prot st : Nat) : Nat :=
  if prot = 0 then invDesc.getD st 0
  else match smFind? s.protos prot with
    | some img => natOfBytes (img.take 8) / 16 ^ st % 16
    | none => invDesc.getD st 0
/-- PRESUMED, notes/assumptions/23.md. -/
def protoTmo (s : State) (prot : Nat) : Nat :=
  if prot = 0 then 10
  else match smFind? s.protos prot with
    | some img => natOfBytes ((img.drop 0x10).take 2)
    | none => 10
def stTrans (d : Nat) : Bool := decide (d / 4 % 2 = 1)
def stClass (d : Nat) : Nat := d % 4

/-- Whether a protocol keeps replicas in meadows and no copies at cores: its first write locks (R388). -/
def protoRepl (s : State) (prot : Nat) : Bool := decide (protoEntry s prot 0 1 0 / aLOCK % 2 = 1)

/-! ### The directory (R378, R379) -/

def dirNone : DirEnt := ⟨0, 0, false, 0, 0, 0, 0, 0⟩
def getDir (s : State) (g : Nat) : DirEnt := (smFind? s.dir g).getD dirNone
/-- An entry of state I with empty sets is no entry. -/
def putDir (s : State) (g : Nat) (d : DirEnt) : State :=
  if { d with used := 0, since := 0 } = dirNone then { s with dir := smDel s.dir g } else { s with dir := smPut s.dir g { d with used := s.n } }

/-- The I/O die's home agent as a requester. -/
def ioAgent : Nat := 1024
def agentOf (c : Nat) : Agent := if c = ioAgent then .ioHome else .core c
/-- OWNER of an entry as its ten bits hold it: the home agent's is 0x3FF (R378), which the model keeps apart from core 1,023.
DEDUCED, notes/assumptions/21.md. -/
def ownerField (d : DirEnt) : Nat := if d.owner = ioAgent then 0x3FF else d.owner
/-- Whether a requester is a core of a grain's home meadow. -/
def isLocal (g c : Nat) : Bool := decide (c / 128 = homeMeadow g)
/-- The agent through which a requester's copy is reached: a core of another meadow through its meadow's proxy slice (R379). -/
def homeAgent (g c : Nat) : Agent := if c = ioAgent then .ioHome else if isLocal g c then .core c else .meadow (c / 128)
/-- Proxy sets are listed by grain · 8 + meadow. -/
def proxyKey (g m : Nat) : Nat := g * 8 + m
def getProxy (s : State) (g m : Nat) : NSet := smGet [] s.proxies (proxyKey g m)
def putProxy (s : State) (g m : Nat) (l : NSet) : State :=
  { s with proxies := if l.isEmpty then smDel s.proxies (proxyKey g m) else smPut s.proxies (proxyKey g m) l }

/-- Locked replicas are listed by grain · 9 + meadow; meadow 8 is the home agent's. -/
def lockKey (g m : Nat) : Nat := g * 9 + m

/-- Whether the acknowledgement of a round's agent is still to come, for entries of the round that pass a test. -/
def owed (s : State) (g : Nat) (f : Owed → Bool) : Bool :=
  match smFind? s.pends g with
  | some p => p.await.any fun x => f x && !(s.ackQ.any fun y => decide (y = (g, x.agent)))
  | none => false
def awaited (s : State) (g : Nat) (a : Agent) : Bool := owed s g fun x => decide (x.agent = a)

/-- Whether a round takes copies, and the requester whose copy it leaves. -/
def takesCopies (p : PendRec) : Bool := p.await.any (fun x => decide (x.kind = .inval)) || p.took
def leftCopy (p : PendRec) : Option Nat := if p.req.eng then none else some p.req.core

/-- Whether a round that takes copies has been answered by the agent of a holder whose copy it takes. -/
def roundTook (s : State) (g c : Nat) : Bool :=
  match smFind? s.pends g with
  | some p => takesCopies p && decide (leftCopy p ≠ some c) && !awaited s g (homeAgent g c)
  | none => false

/-- Whether an agent holds M: as OWNER, or until it answers a recall. -/
def holdsM (s : State) (g c : Nat) : Bool :=
  let d := getDir s g
  let k := protoDesc s (protoOf s g) d.state
  if stTrans k then owed s g fun x => (decide (x.kind = .recall) || decide (x.kind = .share)) && decide (x.who = c)
  else decide (d.owner = c) && decide (stClass k = 2)

/-- Whether an agent is in the sharer sets. -/
def inSets (s : State) (g c : Nat) : Bool :=
  let d := getDir s g
  if c = ioAgent then d.ioh
  else if isLocal g c then d.lsh.getLsbD (c % 128)
  else if protoRepl s (protoOf s g) then d.msh.getLsbD (c / 128)
  else nsHas (getProxy s g (c / 128)) c

/-- Whether an agent of the home's own meadow, or the home agent, has still to answer an invalidation of its copy. -/
def losing (s : State) (g c : Nat) : Bool :=
  (decide (c = ioAgent) || isLocal g c) && owed s g fun x => decide (x.kind = .inval) && decide (x.agent = agentOf c)

/-- Whether a round that takes the others' copies leaves an agent, its requester, the copy it has (R386). -/
def keepsCopy (s : State) (g c : Nat) : Bool :=
  match smFind? s.pends g with
  | some p => p.kept && decide (p.req.core = c)
  | none => false

/-- Whether an agent has a copy it may read. -/
def holdsCopy (s : State) (g c : Nat) : Bool := holdsM s g c || losing s g c || keepsCopy s g c || (inSets s g c && !roundTook s g c)

/-- The relation of a requester (R383); a holder that has still to answer an invalidation counts as a sharer. -/
def relOf (s : State) (g c : Nat) : Nat :=
  if holdsM s g c then 2 else if inSets s g c || losing s g c || keepsCopy s g c then 1 else 0

/-- The holder through which a requester reads: a replica of its meadow, or itself. -/
def holderOf (s : State) (g c : Nat) : Nat :=
  if protoRepl s (protoOf s g) && decide (c ≠ ioAgent) && !isLocal g c then ioAgent + 1 + c / 128 else c

/-- The lines of a grain that a holder has been sent (R385). -/
def sentLines (s : State) (g c : Nat) : Nat := smGet 0 s.sent (g * 2048 + holderOf s g c)

/-- Whether an agent has a copy of a line that it may read. -/
def holdsLine (s : State) (l c : Nat) : Bool := holdsCopy s (l / 4) c && (sentLines s (l / 4) c).testBit (l % 4)

/-- The lines that the data actions of an entry move: those of LSET, or those requested (R385). -/
def movedLines (e : Nat) (rq : HomeReq) : Nat :=
  let lset := e / 2 ^ 15 % 16
  if lset ≠ 0 then lset else rq.lines.foldl (fun m x => m ||| 2 ^ (x / 2 % 4)) 0

/-- A holder is sent lines, beside those that it has. -/
def noteSent (s : State) (g c lines : Nat) : State :=
  let old := if holdsCopy s g c then sentLines s g c else 0
  { s with sent := smPut s.sent (g * 2048 + holderOf s g c) (old ||| lines) }

/-- SADD (R386). -/
def addSharer (s : State) (g c : Nat) (eng : Bool) : State :=
  let d := getDir s g
  if eng then s
  else if c = ioAgent then putDir s g { d with ioh := true }
  else if isLocal g c then putDir s g { d with lsh := d.lsh ||| ((1 : BitVec 128) <<< (c % 128)) }
  else
    let s1 := putDir s g { d with msh := d.msh ||| ((1 : BitVec 8) <<< (c / 128)) }
    if protoRepl s (protoOf s g) then s1 else putProxy s1 g (c / 128) (nsAdd (getProxy s1 g (c / 128)) c)

/-- SDEL (R386), without its part as an acknowledgement. -/
def delSharer (s : State) (g c : Nat) : State :=
  let d := getDir s g
  if c = ioAgent then putDir s g { d with ioh := false }
  else if isLocal g c then putDir s g { d with lsh := d.lsh &&& ~~~((1 : BitVec 128) <<< (c % 128)) }
  else
    let l := nsDel (getProxy s g (c / 128)) c
    let s1 := putProxy s g (c / 128) l
    if l.isEmpty then putDir s1 g { d with msh := d.msh &&& ~~~((1 : BitVec 8) <<< (c / 128)) } else s1

/-- The sharer sets are cleared (R379); the proxy slices' own sets too, once no round needs them. -/
def clearSets (s : State) (g : Nat) : State := putDir s g { getDir s g with ioh := false, msh := 0, lsh := 0 }
def clearProxies (s : State) (g : Nat) : State := (List.range 8).foldl (fun s m => putProxy s g m []) s

/-- A state is entered (R379): one of class M or I clears the sets, one of class S or I clears OWNER. DEDUCED,
notes/assumptions/23.md. -/
def enterState (s : State) (g next : Nat) : State :=
  let k := protoDesc s (protoOf s g) next
  let d := getDir s g
  let s1 := putDir s g { d with state := next, since := if !stTrans k then 0 else if d.state = next then d.since else s.clock }
  let s2 := if stClass k = 1 then s1 else clearSets (if stTrans k then s1 else clearProxies s1 g) g
  if stClass k = 2 then s2 else putDir s2 g { getDir s2 g with owner := 0 }

/-! ### Rounds (R386) -/

/-- The agents whose copies IALL takes: all but the requester's, or but its meadow's replica. -/
def sharersToTake (s : State) (g c : Nat) (eng : Bool) : List Agent :=
  let d := getDir s g
  let repl := protoRepl s (protoOf s g)
  let loc := ((List.range 128).filter fun i => d.lsh.getLsbD i && (eng || decide (homeMeadow g * 128 + i ≠ c))).map
    fun i => Agent.core (homeMeadow g * 128 + i)
  let far := ((List.range 8).filter fun m => d.msh.getLsbD m &&
    (eng || (if repl then decide (m ≠ c / 128) else decide (getProxy s g m ≠ [c])))).map Agent.meadow
  loc ++ far ++ (if d.ioh && (eng || decide (c ≠ ioAgent)) then [Agent.ioHome] else [])

/-- The replicas LOCK and UPDU reach. -/
def replicas (s : State) (g : Nat) : List Agent :=
  let d := getDir s g
  ((List.range 8).filter fun m => d.msh.getLsbD m).map Agent.meadow ++ (if d.ioh then [Agent.ioHome] else [])

/-- Sends a round's messages. -/
def sendRound (s : State) (g : Nat) (l : List Owed) : State :=
  { s with msgs := s.msgs ++ l.map fun x => ⟨g, x.agent, x.kind, x.who⟩ }

/-- The event that a round's last acknowledgement raises (R384). -/
def roundEvent (act : Nat) : Nat := if act / aLOCK % 2 = 1 then evLCK else if act / aUPDU % 2 = 1 then evULK else evUPD

def hasAct (act a : Nat) : Bool := decide (act / a % 2 = 1)

/-- The round an action mask starts: whom it waits for and with what message, in ascending order of the actions. -/
def roundOf (s : State) (g act : Nat) (rq : HomeReq) : Option (List Owed) :=
  let own := (getDir s g).owner
  let part (a : Nat) (k : MsgKind) (l : List Agent) (who : Nat) : List Owed :=
    if hasAct act a then l.map fun x => ⟨x, k, who⟩ else []
  if hasAct act aIALL || hasAct act aRINV || hasAct act aRSHR || hasAct act aLOCK || hasAct act aUPDU then
    some (part aIALL .inval (sharersToTake s g rq.core rq.eng) 0 ++ part aRINV .recall [homeAgent g own] own
      ++ part aRSHR .share [homeAgent g own] own ++ part aLOCK .lock (replicas s g) 0 ++ part aUPDU .update (replicas s g) 0)
  else none

/-! ### Completion of requests -/

/-- A line of a maintenance request: twice its number, plus 1 where it is discarded (R275); it is written back instead where
the grain keeps a written mark (R389). -/
def applyLine (keep : Bool) (s : State) (x : Nat) : State :=
  if x % 2 = 1 ∧ !keep then discardLine s (x / 2) else writeBackMetered s (x / 2)

/-- KIND of a maintenance operation's late fault. -/
def maintFaultKind (k : MaintKind) : Nat :=
  match k with
  | .clean => 2
  | _ => 3

/-- A maintenance operation is refused at a home: a late fault in its thread. The VA recorded is the range's. DESIGN CHOICE,
notes/assumptions/46.md. -/
def maintRefused (s : State) (id code : Nat) : State :=
  match s.maints.find? fun m => decide (m.id = id) with
  | none => s
  | some m => lateFault s m.thread code (maintFaultKind m.kind) (BitVec.ofNat 64 m.va) m.pc [] none 0

/-- A request completes to its issuer (R386): performed, granted, or with a fault. -/
def completeReq (s : State) (rq : HomeReq) (fault : Option Nat) : State :=
  match rq.tag with
  | .thread t => homeDone s t (evRead rq.ev) rq.grain fault
  | .job core num =>
    { s with cores := s.cores.map fun c =>
        if c.1 = core then
          (c.1, { c.2 with jobs := c.2.jobs.map fun j =>
            if j.num = num then
              match fault with
              | some f =>
                if j.early then { j with atHome := false, early := false }
                else { j with atHome := false, fcode := f, faulted := some (f, BitVec.ofNat 64 j.waitVa) }
              | none =>
                { j with
                  atHome := false
                  early := false
                  rdG := if rq.ev = evERD then nsAdd j.rdG rq.grain else j.rdG
                  wrG := if rq.ev = evEWR then nsAdd j.wrG rq.grain else j.wrG }
            else j })
        else c }
  | .maint id =>
    let s1 := match fault with
      | some c => maintRefused s id c
      | none => s
    { s1 with maints := s1.maints.map fun m =>
        if m.id = id then { m with grains := m.grains.map fun l => l.filter fun g => decide (g ≠ rq.grain) } else m }
  | .home => if fault.isSome then s else { s with dir := smDel s.dir rq.grain }
  | .none => s

/-- A saved write performs at its lock point, and completes later, at DONE (R252, R386): until then a store of no bytes stands
in its place in the thread's queue. A copy unit's write is the one that its request carries; where its page has moved, the job
asks again. -/
def lockPoint (s : State) (rq : HomeReq) : State × ReqTag :=
  match rq.tag with
  | .thread t =>
    (match homeMop s t false with
      | none => (s, .none)
      | some j =>
        let o := ((getTh s t).mq[j]?).getD ⟨.store [], true, 0, 0, 0, 0, .home, [], false, 0⟩
        let s1 := homeDone s t false rq.grain none
        if (getTh s1 t).mq.length < (getTh s t).mq.length then
          (modTh s1 t fun th => { th with mq := th.mq.take j ++ ⟨.store [], true, o.addr, o.pc, o.la, o.step, .home, [], false, 0⟩ :: th.mq.drop j },
            rq.tag)
        else (s1, .none))
  | .job core num =>
    (match rq.put with
      | some (pa, bs) =>
        if fwdPa s pa = pa then (noteSpoilt s (writeBytes s pa bs) pa bs.length, rq.tag)
        else (modCore s core fun c =>
          { c with jobs := c.jobs.map fun j => if j.num = num then { j with atHome := false, early := false } else j }, .none)
      | none => (s, rq.tag))
  | _ => (completeReq s rq none, .none)

/-- The lines that WB writes back: those a CLN or INV request names; else those of LSET, or the requested line alone (R385). -/
def wbLines (g e : Nat) (rq : HomeReq) : List Nat :=
  let lset := e / 2 ^ 15 % 16
  if rq.ev = evCLN ∨ rq.ev = evINV then rq.lines
  else if lset ≠ 0 then ((List.range 4).filter lset.testBit).map fun i => 2 * (g * 4 + i)
  else if rq.lines.isEmpty then (rangeFrom (g * 4) 4).map (2 * ·) else rq.lines

/-- WB. An INV operation that ends in another state than I leaves written data. -/
def doWb (s : State) (g next e : Nat) (rq : HomeReq) : State :=
  (wbLines g e rq).foldl (applyLine (decide (next ≠ 0))) s

/-- The outstanding acknowledgements of a grain's round, as ACKS counts them (R378). -/
def setAcks (s : State) (g : Nat) : State :=
  let n := match smFind? s.pends g with
    | some p => p.await.length % 256
    | none => 0
  if (getDir s g).acks = n then s else putDir s g { getDir s g with acks := n }

/-- A round's agents that have answered. -/
def dropOwed (s : State) (g : Nat) (f : Owed → Bool) : State :=
  match smFind? s.pends g with
  | none => s
  | some p =>
    setAcks { s with pends := smPut s.pends g { p with
      await := p.await.filter fun x => !f x
      took := p.took || p.await.any fun x => f x && decide (x.kind = .inval) } } g

/-- An eviction as an acknowledgement of the round that awaits its agent (R386): its message is withdrawn. A proxy slice
answers for its meadow once none of its cores is left that the round takes; a replica that leaves the sets is locked no more. -/
def evictAck (s : State) (g c : Nat) : State :=
  let a := homeAgent g c
  let noMsg (f : Msg → Bool) (s : State) : State := { s with msgs := s.msgs.filter fun m => !(decide (m.grain = g) && f m) }
  if protoRepl s (protoOf s g) then
    let m := match a with
      | .meadow m => m
      | _ => 8
    dropOwed (noMsg (fun x => decide (x.dest = a)) { s with
      locked := nsDel s.locked (lockKey g m)
      ackQ := s.ackQ.filter fun x => decide (x ≠ (g, a)) }) g fun x => decide (x.agent = a)
  else match a with
    | .meadow m =>
      let s1 := noMsg (fun x => decide (x.dest = .core c)) s
      let s2 := dropOwed (noMsg (fun x => decide (x.dest = a) && decide (x.who = c) && decide (x.kind ≠ .inval)) s1) g
        fun x => decide (x.agent = a) && decide (x.kind ≠ .inval) && decide (x.who = c)
      let left := match smFind? s2.pends g with
        | some p => (getProxy s2 g m).filter fun x => decide (leftCopy p ≠ some x)
        | none => []
      if left.isEmpty && !(s2.msgs.any fun x => decide (x.grain = g) && decide (x.dest = a)) then
        dropOwed s2 g fun x => decide (x.agent = a) && decide (x.kind = .inval)
      else s2
    | _ => dropOwed (noMsg (fun x => decide (x.dest = a)) s) g fun x => decide (x.agent = a)

/-- The copy that a round leaves its requester is dropped. -/
def dropKept (s : State) (g c : Nat) : State :=
  match smFind? s.pends g with
  | some p => if p.kept ∧ p.req.core = c then { s with pends := smPut s.pends g { p with kept := false } } else s
  | none => s

/-- The actions of an entry that change the directory or the data, in ascending bit order up to SDEL; an SDEL counts as an
acknowledgement in an eviction alone (R386). -/
def doSets (s0 : State) (g e act ev : Nat) (rq : HomeReq) : State :=
  let s := if !rq.eng && (hasAct act aDEX || (hasAct act aDSH && hasAct act aSADD)) then noteSent s0 g rq.core (movedLines e rq) else s0
  let s1 := if hasAct act aDEX && !rq.eng then putDir s g { getDir s g with owner := rq.core } else s
  let s2 := if hasAct act aDEX then
    (match s1.rowan.migr with
      | some m => if decide (m.src ≤ g * 512) && decide (g * 512 < m.src + 2 ^ m.bits) then
          { s1 with rowan := { s1.rowan with migr := some { m with dirty := (rangeFrom (g * 4) 4).foldl nsAdd m.dirty } } }
        else s1
      | none => s1) else s1
  let s3 := if hasAct act aSADD then addSharer s2 g rq.core rq.eng else s2
  if hasAct act aSDEL then
    let s4 := dropKept (delSharer s3 g rq.core) g rq.core
    if ev = evEVT then evictAck s4 g rq.core else s4
  else s3

/-- The held requests of a grain are taken again (R386), in arrival order. -/
def releaseHeld (s : State) (g : Nat) : State :=
  let mine := s.heldReqs.filter fun r => decide (r.grain = g)
  if mine.isEmpty then s
  else { s with reqs := mine ++ s.reqs, heldReqs := s.heldReqs.filter fun r => decide (r.grain ≠ g) }

/-- The entry that an event meets. DEDUCED, notes/assumptions/21.md. -/
def eventEntry (s : State) (g ev rel : Nat) : Nat := protoEntry s (protoOf s g) (getDir s g).state ev rel

/-- The record of a round, or of a saved request with none (R386): one that stands keeps its request and its timeouts. -/
def attach (s : State) (g act : Nat) (rq : HomeReq) (l : List Owed) : State :=
  let p : PendRec := match smFind? s.pends g with
    | some p => { p with req := rq, round := roundEvent act, await := l, since := s.clock, took := false }
    | none => ⟨rq, roundEvent act, l, s.clock, 0, false, !rq.eng && inSets s g rq.core⟩
  setAcks (sendRound { s with pends := smPut s.pends g p } g l) g

/-- One event at a home (R384 to R386): `rq` is the event's requester, or the one saved in the pending record. A round
with no one to wait for raises its own event at once. -/
def homeEvent : Nat → State → Nat → Nat → Nat → HomeReq → State
  | 0, s, _, _, _, _ => s
  | n + 1, s, g, ev, rel, rq =>
    let e := eventEntry s g ev rel
    let act := e % 2 ^ 14
    let next := e / 2 ^ 27 % 16
    let code := e / 2 ^ 24 % 8
    let request := decide (ev ≤ 8)
    if code ≠ 0 ∧ (e / 2 ^ 23 % 2 = 0 ∨ (ev = evEWR ∧ !rq.whole)) then
      completeReq s rq (some (if code = 1 then ccGrainConflict else ccWriteOnce))
    else
      let s1 := doSets s g e act ev rq
      let round := roundOf s1 g act rq
      let x := if hasAct act aUPDU then lockPoint s1 rq else (s1, rq.tag)
      let s2 := match round with
        | some l => attach x.1 g act { rq with tag := x.2 } l
        | none => if hasAct act aSAVE then attach x.1 g 0 rq [] else x.1
      let s3 := if hasAct act aWB then doWb s2 g next e rq else s2
      let s4 := if hasAct act aHOLD then { s3 with heldReqs := s3.heldReqs ++ [rq] } else s3
      let s4' := if hasAct act aRSND then
        (match smFind? s4.pends g with
          | some p => sendRound s4 g p.await
          | none => s4) else s4
      let s5 := enterState s4' g next
      let done := hasAct act aDONE || (request && decide (round = none) && !hasAct act aSAVE && !hasAct act aHOLD && decide (ev ≠ evEVT))
      let s6 := if !request && hasAct act aDONE then setAcks { s5 with pends := smDel s5.pends g } g else s5
      let s7 := if done then completeReq s6 rq none else s6
      let s8 := if stTrans (protoDesc s (protoOf s g) next) then s7 else releaseHeld s7 g
      match round with
      | some [] =>
        homeEvent n s8 g (roundEvent act) 3 (match smFind? s8.pends g with
          | some p => p.req
          | none => rq)
      | _ =>
        if ev = evEVT then
          (match smFind? s8.pends g, smFind? s.pends g with
            | some p, some p0 =>
              if p.await.isEmpty && !p0.await.isEmpty then homeEvent n s8 g p.round 3 p.req else s8
            | _, _ => s8)
        else s8

/-- The slice of a grain (R225): its meadow, and PA[12:9]. -/
def sliceOf (g : Nat) : Nat := homeMeadow g * 16 + g % 16

/-- Whether a home has room for what a request needs: a pending record or a queue place (R386). -/
def homeRoom (s : State) (g act : Nat) : Bool :=
  let mine (x : Nat) : Bool := decide (sliceOf x = sliceOf g)
  (!hasAct act aSAVE || decide ((s.pends.filter fun p => mine p.1).length < 256)) &&
    (!hasAct act aHOLD || decide ((s.heldReqs.filter fun r => mine r.grain).length < 512))

/-- A stable entry of the slice to take, the least recently used, where a grain needs an entry and none is free (R378). -/
def reclaim (s : State) (g : Nat) : Option Nat :=
  let mine := s.dir.filter fun d => decide (sliceOf d.1 = sliceOf g)
  if (smFind? s.dir g).isSome || decide (mine.length < 65536) then none
  else (minBy (fun (d : Nat × DirEnt) => d.2.used) (mine.filter fun d => !stTrans (protoDesc s (protoOf s d.1) d.2.state))).map (·.1)

/-- Whether a job has performed pieces beyond its progress offset, so that those before them must land (R250): what would take
their places away waits. -/
def aheadOf (s : State) (f : Nat → Job → Bool) : Bool := s.cores.any fun c => c.2.jobs.any fun j => !j.ahead.isEmpty && f c.1 j

/-- Whether a copy job has performed pieces beyond its progress offset and has still to write a grain that it has been granted
(R247). -/
def jobsAhead (s : State) (g : Nat) : Bool := aheadOf s fun _ j => nsHas j.wrG g

/-- Whether a request waits: a write in the final pass of a migration (R375), or a core's request behind a job's pieces. -/
def writeHeld (s : State) (rq : HomeReq) : Bool :=
  ((evWrite rq.ev || decide (rq.ev = evEWR)) && migrHolds s (rq.grain * 512)) || (!rq.eng && jobsAhead s rq.grain)

/-- A request at a home (R380): the oldest of its grain but for writes held back, which reads pass (R376), taken when the home has
what it needs. -/
def takeRequest (s : State) (i : Nat) (evs : List Nat) : State :=
  match s.reqs[i]? with
  | none => s
  | some rq =>
    let g := rq.grain
    let rel := if rq.ev ≤ 6 then relOf s g rq.core else 3
    if !(evs.any fun e => decide (e = rq.ev)) || (s.reqs.take i).any (fun r => decide (r.grain = g) && !writeHeld s r) || writeHeld s rq then s
    else if !homeRoom s g (eventEntry s g rq.ev rel % 2 ^ 14) then s
    else
      let s1 := homeEvent 4 { s with reqs := s.reqs.eraseIdx i } g rq.ev rel rq
      match reclaim s g with
      | some v =>
        if (smFind? s1.dir g).isNone then s1
        else if s.reqs.any fun r => decide (r.grain = v) && decide (r.tag = .home) then s
        else { s with reqs := s.reqs ++ [⟨evINV, v, ioAgent, true, true, (rangeFrom (v * 4) 4).map (2 * ·), .home, none⟩] }
      | none => s1

/-- LRD, LWR, RRD, RUP, ERD, EWR, CLN and INV (R384): the request at a place of the list, of that kind. -/
def execLrd (i : Nat) (s : State) : Out := .next (takeRequest s i [0])
def execLwr (i : Nat) (s : State) : Out := .next (takeRequest s i [1])
def execRrd (i : Nat) (s : State) : Out := .next (takeRequest s i [2])
def execRup (i : Nat) (s : State) : Out := .next (takeRequest s i [3])
def execErd (i : Nat) (s : State) : Out := .next (takeRequest s i [evERD])
def execEwr (i : Nat) (s : State) : Out := .next (takeRequest s i [evEWR])
def execCln (i : Nat) (s : State) : Out := .next (takeRequest s i [evCLN])
def execInv (i : Nat) (s : State) : Out := .next (takeRequest s i [evINV])

/-- The number of a requester. -/
def requesterId (r : Requester) : Nat :=
  match r with
  | .core c => c
  | .ioHome => ioAgent

/-- The channel of a message or an acknowledgement (R380): the slice it comes from, for an agent. A core of another meadow
talks with its own meadow's proxy slice. -/
def channelOf (g : Nat) (a : Agent) : Nat :=
  match a with
  | .core c => if isLocal g c then sliceOf g else c / 128 * 16 + g % 16
  | _ => sliceOf g

/-- Whether something that an agent sent a slice earlier has still to arrive there (R380): an acknowledgement, or a request that
no one holds back. -/
def sentBefore (s : State) (g c : Nat) : Bool :=
  (s.ackQ.any fun x => decide (x.2 = homeAgent g c) && decide (channelOf x.1 x.2 = channelOf g (homeAgent g c))) ||
    s.reqs.any fun r => decide (r.core = c) && decide (sliceOf r.grain = sliceOf g) && !writeHeld s r

/-- EVT (R384): a holder drops its copy; its message arrives after what the agent sent before it (R380). -/
def execEvt (grain : Nat) (who : Requester) (s : State) : Out :=
  let c := requesterId who
  if holdsCopy s grain c && !sentBefore s grain c then .next (homeEvent 4 s grain evEVT (relOf s grain c) ⟨evEVT, grain, c, false, false, [], .none, none⟩)
  else .next s

/-- The acknowledgement of an agent, and the round's event at the last (R384): an owner recalled to S joins the sets. -/
def ackRound (s : State) (g : Nat) (a : Agent) : State :=
  match smFind? s.pends g with
  | none => s
  | some p =>
    if !(p.await.any fun x => decide (x.agent = a)) then s
    else
      let s1 := dropOwed s g fun x => decide (x.agent = a)
      let s2 := (p.await.filter fun x => decide (x.agent = a) && decide (x.kind = .share)).foldl (fun s x => addSharer s g x.who false) s1
      if p.await.all fun x => decide (x.agent = a) then homeEvent 4 s2 g p.round 3 p.req else s2

/-- DIRECTORY_ACK (R386): the acknowledgement of a requester reaches the home: a core's, the home agent's, or, for a core of
another meadow, that of its meadow's proxy slice or replica; the oldest of its channel. -/
def execDirectoryAck (grain : Nat) (who : Requester) (s : State) : Out :=
  let a := homeAgent grain (requesterId who)
  match s.ackQ.find? fun x => decide (x.2 = a) && decide (channelOf x.1 a = channelOf grain a) with
  | none => .next s
  | some x => if x.1 = grain then .next (ackRound { s with ackQ := s.ackQ.erase x } grain a) else .next s

/-- The home gives up on a grain (R386): every copy invalidated, the home copy poisoned, the request completed with
UNCORRECTABLE, state I, and a log entry. DEDUCED, notes/assumptions/23.md. -/
def giveUp (s : State) (g : Nat) (p : PendRec) : State :=
  let s1 := { s with
    pends := smDel s.pends g
    msgs := s.msgs.filter fun m => decide (m.grain ≠ g)
    ackQ := s.ackQ.filter fun a => decide (a.1 ≠ g)
    locked := s.locked.filter fun k => decide (k / 9 ≠ g)
    poison := (rangeFrom (g * 8) 8).foldl nsAdd s.poison }
  let s2 := { clearProxies s1 g with host := { s1.host with log := s1.host.log ++ [LogEntry.grainLost s1.clock g] } }
  let s3 := { s2 with dir := smDel s2.dir g }
  releaseHeld (completeReq s3 p.req (some ccUncorrectable)) g

/-- TMO (R384, R386): a round has gone unanswered for its period, and the eighth gives the grain up; or a grain has stood in a
transient state of no round for so long. -/
def execTmo (grain : Nat) (s : State) : Out :=
  match smFind? s.pends grain with
  | none =>
    let d := getDir s grain
    if !stTrans (protoDesc s (protoOf s grain) d.state) || decide (s.clock < d.since + protoTmo s (protoOf s grain) * 1000) then .next s
    else .next (homeEvent 4 (putDir s grain { d with since := s.clock }) grain evTMO 3 ⟨evTMO, grain, ioAgent, true, true, [], .none, none⟩)
  | some p =>
    if s.clock < p.since + protoTmo s (protoOf s grain) * 1000 then .next s
    else if 7 ≤ p.tmos then .next (giveUp s grain p)
    else
      let s1 := { s with pends := smPut s.pends grain { p with tmos := p.tmos + 1, since := s.clock } }
      .next (homeEvent 4 s1 grain evTMO 3 p.req)

/-! ### The other end of a round (R379, R386, R388) -/

/-- The oldest message of an agent's channel (R380), where it is about a grain and of one of the kinds; the messages without
it. -/
def takeMsg (s : State) (g : Nat) (a : Agent) (kinds : List MsgKind) : Option (State × Msg) :=
  match s.msgs.find? fun m => decide (m.dest = a) && decide (channelOf m.grain a = channelOf g a) with
  | some m => if m.grain = g ∧ kinds.any (fun k => decide (k = m.kind)) then some ({ s with msgs := s.msgs.erase m }, m) else none
  | none => none

/-- An acknowledgement sets out for the home. -/
def sendAck (s : State) (g : Nat) (a : Agent) : State := { s with ackQ := s.ackQ ++ [(g, a)] }

/-- The holders in a meadow that a round still takes. -/
def toTake (s : State) (g : Nat) (l : NSet) : NSet :=
  match smFind? s.pends g with
  | some p => l.filter fun x => decide (leftCopy p ≠ some x)
  | none => l

/-- COPY_INVALIDATION (R379, R386): a core, or the home agent, drops its copy, or hands M back, and answers; a core of
another meadow answers its proxy slice, which acknowledges for the meadow at the last. -/
def execCopyInvalidation (grain : Nat) (who : Requester) (s : State) : Out :=
  let c := requesterId who
  match takeMsg s grain (agentOf c) [.inval, .recall, .share] with
  | none => .next s
  | some (s1, m) =>
    match homeAgent grain c with
    | .meadow x =>
      let s2 := if m.kind = .share then s1 else putProxy s1 grain x (nsDel (getProxy s1 grain x) c)
      .next (if awaited s2 grain (.meadow x) && (decide (m.kind ≠ .inval) || (toTake s2 grain (getProxy s2 grain x)).isEmpty) then
        sendAck s2 grain (.meadow x) else s2)
    | a => .next (sendAck s1 grain a)

/-- PROXY_INVALIDATION (R379): a proxy slice forwards an invalidation to its meadow's holders, or answers at once when it
has none, and a recall to the owner; a replica is dropped. -/
def execProxyInvalidation (grain meadow : Nat) (s : State) : Out :=
  match takeMsg s grain (.meadow meadow) [.inval, .recall, .share] with
  | none => .next s
  | some (s1, m) =>
    let send (l : List Nat) : List Msg := (l.filter fun c =>
      !(s1.msgs.any fun y => decide (y.grain = grain) && decide (y.dest = .core c))).map fun c => ⟨grain, .core c, m.kind, m.who⟩
    if m.kind ≠ .inval then .next { s1 with msgs := s1.msgs ++ send [m.who] }
    else
      let l := toTake s1 grain (getProxy s1 grain meadow)
      .next (if l.isEmpty then sendAck s1 grain (.meadow meadow) else { s1 with msgs := s1.msgs ++ send l })

/-- A replica's agent: meadow 8 is the home agent's. -/
def replicaAgent (m : Nat) : Agent := if m = 8 then .ioHome else .meadow m

/-- REPLICA_LOCK (R252, R388): a replica locks and answers. -/
def execReplicaLock (grain meadow : Nat) (s : State) : Out :=
  match takeMsg s grain (replicaAgent meadow) [.lock] with
  | none => .next s
  | some (s1, _) => .next (sendAck { s1 with locked := nsAdd s1.locked (lockKey grain meadow) } grain (replicaAgent meadow))

/-- REPLICA_UPDATE (R252, R388): a locked replica takes the new value, unlocks and answers. -/
def execReplicaUpdate (grain meadow : Nat) (s : State) : Out :=
  match takeMsg s grain (replicaAgent meadow) [.update] with
  | none => .next s
  | some (s1, _) => .next (sendAck { s1 with locked := nsDel s1.locked (lockKey grain meadow) } grain (replicaAgent meadow))

/-- MEADOW_STORE_WRITE_BACK (R226, R254): a dirty line leaves a meadow store for its tier. -/
def execMeadowStoreWriteBack (line : Nat) (s : State) : Out := .next (writeBackMetered s line)

/-! ### What a core may do with a line (R226, R388) -/

/-- Whether an access may perform at a core, must ask the home, or must wait. A write needs M of the grain, a read a copy of the
line. -/
inductive Right where | have | ask (ev : Nat) | wait
deriving DecidableEq, Repr

def rightOf (s : State) (line c : Nat) (write : Bool) : Right :=
  let g := line / 4
  let ev := if isLocal g c then (if write then 1 else 0) else if write then 3 else 2
  if protoRepl s (protoOf s g) then
    let here := if c = ioAgent then (getDir s g).ioh else (getDir s g).msh.getLsbD (c / 128)
    if write || isLocal g c || !here || !(sentLines s g c).testBit (line % 4) then .ask ev
    else if nsHas s.locked (lockKey g (c / 128)) then .wait else .have
  else if write then (if holdsM s g c then (if jobsAhead s g then .wait else .have) else .ask ev)
  else if holdsLine s line c then .have else .ask ev

end Sys2Proof.Machine
end

