-- ==== Sys2Proof/Machine/Engine.lean ====
section
/-! DEFINITION. The engine queue: job cards, coded addresses, footprints and the order of jobs (R247, R291, R309 to R314). -/
namespace Sys2Proof.Machine

/-! ### The queue (R314, R317) -/

/-- The lowest job number that no card or job of the core holds. -/
def freeNum (c : Core) : Nat := ((List.range 64).find? fun n => !(c.jobs.any fun j => decide (j.num = n))).getD 63

/-- Whether a team may take one more entry of its core's queue (R314). -/
def queueRoom (s : State) (k : Nat) : Bool :=
  let c := getCore s (k / 4)
  let r := (coreTeams s (k / 4)).length
  decide (c.jobs.length < 64) && decide ((c.jobs.filter fun j => decide (j.tslot = k % 4)).length < 64 - 8 * (r - 1))

def getJob (s : State) (core num : Nat) : Option Job := (getCore s core).jobs.find? fun j => decide (j.num = num)
/-- A job of a core; one whose team is swapped out stands still (R422). -/
def liveJob (s : State) (core num : Nat) : Option Job := if core < 1024 then getJob s core num else none
def modJob (s : State) (core num : Nat) (f : Job → Job) : State :=
  modCore s core fun c => { c with jobs := c.jobs.map fun j => if j.num = num then f j else j }
def dropJob (s : State) (core num : Nat) : State :=
  modCore s core fun c => { c with jobs := c.jobs.filter fun j => decide (j.num ≠ num) }

/-- A new entry of a team's queue, of a warp slot, not yet posted. -/
def newJob (num tslot wslot : Nat) (kind : JobKind) : Job :=
  { num := num, tslot := tslot, wslot := wslot, lane := 0, pc := 0, posted := false, order := 0, kind := kind, state := .queued,
    card := [], xfers := [], ncpy := 0, offset := 0, hop := 0, slots := [], fcode := 0, done := 0, faulted := none,
    waitPage := none, landed := false }

/-- Adds a posted job at the end of the queue order. -/
def postJob (s : State) (core : Nat) (j : Job) : State :=
  modCore s core fun c => { c with jobs := c.jobs ++ [{ j with posted := true, order := c.order }], order := c.order + 1 }

/-! ### Cards (R310) -/

def cardNat (c : List Byte) (off n : Nat) : Nat := natOfBytes ((c.drop off).take n)
def cardCtl (c : List Byte) : Nat := cardNat c 0 8
def cScope (c : List Byte) : Nat := bitsOf (cardCtl c) 61 60
def cCmpl (c : List Byte) : Nat := bitsOf (cardCtl c) 59 58
def cRing (c : List Byte) : Nat := bitsOf (cardCtl c) 57 54
def cHold (c : List Byte) : Bool := decide (bitsOf (cardCtl c) 53 53 = 1)
def cFollow (c : List Byte) : Bool := decide (bitsOf (cardCtl c) 52 52 = 1)
def cNrelay (c : List Byte) : Nat := bitsOf (cardCtl c) 51 48
def cNblk (c : List Byte) : Nat := bitsOf (cardCtl c) 47 46
def cNread (c : List Byte) : Nat := bitsOf (cardCtl c) 45 43
def cNwrite (c : List Byte) : Nat := bitsOf (cardCtl c) 42 40
def cHop (c : List Byte) (h : Nat) : Nat := cardNat c (0x0F + h) 1 % 128
def cCmplAddr (c : List Byte) : Nat := cardNat c 0x20 4
def cFollowT (c : List Byte) : Nat := cardNat c 0x24 4 % 4
def cFollowA (c : List Byte) : Nat := bitsOf (cardNat c 0x24 4) 7 4
def cFollowB (c : List Byte) : Nat := bitsOf (cardNat c 0x24 4) 11 8
def cFollowC (c : List Byte) : Nat := cardNat c 0x28 4
def cSrc (c : List Byte) (b : Nat) : Nat := cardNat c (0x30 + 0x20 * b) 8
def cDst (c : List Byte) (b : Nat) : Nat := cardNat c (0x38 + 0x20 * b) 8
def cLen (c : List Byte) (b : Nat) : Nat := cardNat c (0x40 + 0x20 * b) 4
def cRows (c : List Byte) (b : Nat) : Nat := cardNat c (0x44 + 0x20 * b) 4
def cSstr (c : List Byte) (b : Nat) : Nat := cardNat c (0x48 + 0x20 * b) 4
def cDstr (c : List Byte) (b : Nat) : Nat := cardNat c (0x4C + 0x20 * b) 4
def cRaddr (c : List Byte) (i : Nat) : Nat := cardNat c (0x80 + 0x10 * i) 8
def cRlen (c : List Byte) (i : Nat) : Nat := cardNat c (0x88 + 0x10 * i) 4
/-- The regions of a card: reads, then writes. -/
def cReads (c : List Byte) : List Nat := rangeFrom 0 (cNread c)
def cWrites (c : List Byte) : List Nat := rangeFrom 4 (cNwrite c)

/-! ### Coded addresses (R309) -/

inductive Coded where
  | glob (va : Nat)
  | sp (sa : Nat)
  | buf (k off : Nat)
  | slot (off : Nat)
  | bad
deriving DecidableEq, Repr

def decodeCoded (x : Nat) : Coded :=
  match bitsOf x 63 62 with
  | 0 => if bitsOf x 61 57 = 0 then .glob (x % 2 ^ 57) else .bad
  | 1 => if bitsOf x 61 32 = 0 then .sp (x % 2 ^ 32) else .bad
  | 2 => if bitsOf x 61 36 = 0 ∧ bitsOf x 31 19 = 0 then .buf (bitsOf x 35 32) (x % 2 ^ 19) else .bad
  | _ => if bitsOf x 61 32 = 0 then .slot (x % 2 ^ 32) else .bad

/-! ### Footprints (R313) -/

inductive FootSp where
  | glob (asid : Nat)
  | sp (team : Nat)
  | ab
  | wb
  | cb
deriving DecidableEq, Repr

structure Foot where
  space : FootSp
  lo : Nat
  hi : Nat
deriving DecidableEq, Repr

def footMeets (a b : Foot) : Bool := decide (a.space = b.space) && decide (a.lo < b.hi) && decide (b.lo < a.hi)
def footsMeet (a b : List Foot) : Bool := a.any fun x => b.any fun y => footMeets x y

/-- The buffer a record lies in. -/
def kindSp (kind : Nat) : FootSp := if kind = kAb then .ab else if kind = kWb then .wb else .cb

/-- The range a coded address and a length name, for a team (R313). -/
def footOf (s : State) (k addr len : Nat) : List Foot :=
  let tm := getTeam s k
  match decodeCoded addr with
  | .glob va => [⟨.glob tm.asid, va, va + len⟩]
  | .sp sa =>
    (match spResolve s k sa 1 with
      | .step x off => [⟨.sp x, off, off + len⟩]
      | .plain x _ off => [⟨.sp x, off, off + len⟩]
      | .fault _ => [])
  | .buf r off =>
    (match smFind? tm.recs r with
      | some d => [⟨kindSp (dKind d), dBase d + off, dBase d + off + len⟩]
      | none => [])
  | _ => []

/-- The region of a record. -/
def recFoot (tm : Team) (r : Nat) : List Foot :=
  match smFind? tm.recs r with
  | some d => [⟨kindSp (dKind d), dBase d, dBase d + dLen d⟩]
  | none => []

def tileFoot (t : Nat) : Foot := ⟨.cb, t * 0x10000, (t + 1) * 0x10000⟩

/-- The claimed ring slot of a card. -/
def slotFoot (s : State) (k : Nat) (j : Job) : List Foot :=
  match smFind? j.slots 0, getRing (getTeam s k) (cRing j.card) with
  | some n, some r => footOf s k (2 ^ 62 + slotAddr r n) (slotSize r)
  | _, _ => []

def jobReads (s : State) (core : Nat) (j : Job) : List Foot :=
  let k := core * 4 + j.tslot
  match j.kind with
  | .zacc _ => []
  | .mma _ ka kb _ _ _ => recFoot (getTeam s k) ka ++ recFoot (getTeam s k) kb
  | .copy => (cReads j.card).flatMap fun i => footOf s k (cRaddr j.card i) (cRlen j.card i)

def jobWrites (s : State) (core : Nat) (j : Job) : List Foot :=
  let k := core * 4 + j.tslot
  match j.kind with
  | .zacc t => [tileFoot t]
  | .mma t _ _ _ _ _ => [tileFoot t]
  | .copy => ((cWrites j.card).flatMap fun i => footOf s k (cRaddr j.card i) (cRlen j.card i)) ++ slotFoot s k j

/-- What later jobs wait for beside a card's own footprint: its declared follow-on (R291, R299). -/
def followReads (s : State) (core : Nat) (j : Job) : List Foot :=
  let tm := getTeam s (core * 4 + j.tslot)
  if j.kind = .copy ∧ cFollow j.card then recFoot tm (cFollowA j.card) ++ recFoot tm (cFollowB j.card) else []
def followWrites (j : Job) : List Foot :=
  if j.kind = .copy ∧ cFollow j.card then [tileFoot (cFollowT j.card)] else []

/-- Whether a posted job's footprint dependences are met (R247). -/
def jobFree (s : State) (core : Nat) (j : Job) : Bool :=
  let rd := jobReads s core j
  let wr := jobWrites s core j
  (getCore s core).jobs.all fun e =>
    !e.posted || decide (j.order ≤ e.order) ||
      (let er := jobReads s core e ++ followReads s core e
       let ew := jobWrites s core e ++ followWrites e
       !(footsMeet (rd ++ wr) ew || footsMeet wr er))

/-- Whether a job's card or footprint names a record (R302), or works on a tile. -/
def codedNames (addr r : Nat) : Bool :=
  match decodeCoded addr with
  | .buf k _ => decide (k = r)
  | _ => false
def jobNames (j : Job) (r : Nat) : Bool :=
  match j.kind with
  | .zacc _ => false
  | .mma _ ka kb _ _ _ => decide (ka = r) || decide (kb = r)
  | .copy =>
    (cReads j.card ++ cWrites j.card).any (fun i => codedNames (cRaddr j.card i) r) ||
      j.xfers.any (fun x => codedNames x.dst.toNat r || codedNames x.src.toNat r) ||
      (rangeFrom 0 (cNblk j.card)).any (fun b => codedNames (cSrc j.card b) r || codedNames (cDst j.card b) r) ||
      (cFollow j.card && (decide (cFollowA j.card = r) || decide (cFollowB j.card = r)))
def jobOnTile (j : Job) (t : Nat) : Bool :=
  match j.kind with
  | .zacc x => decide (x = t)
  | .mma x _ _ _ _ _ => decide (x = t)
  | .copy => cFollow j.card && decide (cFollowT j.card = t)

/-- A hop's team on a core of the posting team's meadow (R321). -/
def hopTeam (s : State) (k hopIx : Nat) : Option Nat :=
  let g := (getTeam s k).grove
  (coreTeams s (k / 4 / 128 * 128 + hopIx)).find? fun x => decide ((getTeam s x).grove = g)

end Sys2Proof.Machine
end

