-- ==== Sys2Proof/Machine/Matrix.lean ====
section
/-! DEFINITION. The matrix unit's words: class 0xB (R282 to R307). -/
namespace Sys2Proof.Machine

/-! ### The array's power (R33) -/

/-- The arrays of a meadow that ramp. -/
def ramping (s : State) (meadow : Nat) : Nat :=
  (s.cores.filter fun c => decide (c.1 / 128 = meadow) && decide (c.2.power = .ramping)).length

/-- What the first class 0xB word of a core starts: none once the array is powered. -/
def powerUp (s : State) (core : Nat) : Option State :=
  match (getCore s core).power with
  | .on => none
  | .off => some (modCore s core fun c =>
      if ramping s (core / 128) < 16 then { c with power := .ramping, rampEnd := s.clock + 1000 } else { c with power := .waiting })
  | _ => some s

/-- The arrays of a meadow that wait for a ramp begin theirs while fewer than 16 ramp (R33). -/
def rampNext : Nat → State → Nat → State
  | 0, s, _ => s
  | n + 1, s, meadow =>
    if 16 ≤ ramping s meadow then s
    else match s.cores.find? fun c => decide (c.1 / 128 = meadow) && decide (c.2.power = .waiting) with
      | none => s
      | some c => rampNext n (modCore s c.1 fun x => { x with power := .ramping, rampEnd := s.clock + 1000 }) meadow

/-- ARRAY_RAMP_DONE (R33): the 1 µs ramp ends, and an array that waited for one begins its own. -/
def execArrayRampDone (core : Nat) (s : State) : Out :=
  if (getCore s core).power = .ramping ∧ (getCore s core).rampEnd ≤ s.clock then
    .next (rampNext 16 (modCore s core fun c => { c with power := .on }) (core / 128))
  else .next s

/-! ### Words (R290, R300) -/

/-- A class 0xB word: it waits for the array's power and for its thread's earlier words on the same records and tiles;
then `f` refuses it with a cause or gives its effect; `none` stalls it. -/
def matWord (h : Hdr) (srcs : List Src) (srcs64 : List Src64) (recs tiles : List Nat)
    (f : Nat → Nat → List Nat → Sum Nat (Option State)) (s : State) : Out :=
  let r := srcRegs srcs srcs64
  runWord { guard := h.guard, la := h.la.toNat, reads := r.1, sreads := r.2, sGuarded := true } (fun w _ acting =>
    let k := teamOfWarp s w
    match powerUp s (w / 64) with
    | some s1 => .stallOn s1
    | none =>
      if namesPending s k acting recs tiles then .stall
      else match f w k acting with
        | .inl c => .traps (acting.map fun t => (t, preciseTrap c (getTh s t).pc))
        | .inr none => .stall
        | .inr (some s1) => .go s1 []) s

/-- A class 0xB word in flight: each of its threads may issue as many more words as its LA says (R93). -/
def matPendOf (op : MatOp) (acting : List Nat) (la order : Nat) : MatPend := ⟨op, acting, acting.map fun t => (t, la), order⟩

/-! ### Reservation (R283, R285, R286, R301, R302) -/

def bufSize (kind : Nat) : Nat := if kind = kWb then 0x80000 else 0x40000

/-- Whether a descriptor breaks R285 by itself: word 0, word 1, word 2. -/
def descBad (w0 : W64) (w1 w2 : W32) : Bool :=
  let d := mkDesc w0 w1 w2
  let kind := dKind d
  let fmt := dFmt d
  let kg := kgLen fmt
  let size := dRows d * rowBytes fmt
  decide (bitsOf w0.toNat 56 47 ≠ 0) || decide (bitsOf w1.toNat 15 13 ≠ 0) || decide (kind = 3) || decide (11 ≤ fmt)
    || decide (dBase d % 128 ≠ 0) || decide (dLen d = 0) || decide (4096 * 128 < dLen d) || decide (bufSize kind < dBase d + dLen d)
    || (decide (kind ≠ kCb) && decide (kg ≠ 0) &&
        ((decide (1 < dKg d) && decide (dGs d < size))
          || decide (dLen d < dGs d * (dKg d - 1) + size)
          || (decide (fmt = 5) && (decide (dLen d < dSoff d + 128 * dKg d) || decide (dLen d < dXoff d + 128 * dKg d)))
          || (decide (fmt ≠ 5) && decide (w2 ≠ 0))))
    || (decide (kind = kWb) && decide (kg = 0))
    || (decide (kind = kAb) && decide (kg = 0) &&
        (decide (dRows d ≠ 1) || decide (dKg d ≠ 1) || decide (dGs d ≠ 0) || decide (w2 ≠ 0)))
    || (dCmp d && decide (kind ≠ kWb)) || (!dCmp d && decide (dMoff d ≠ 0))
    || (dCmp d && decide (dLen d < dMoff d + (dLen d / 128 + 7) / 8))
    || (decide (kind = kCb) &&
        (!(decide (fmt = 0) || decide (fmt = 10)) || dCmp d || decide (dRows d ≠ 128) || decide (dKg d ≠ 1) || decide (dMoff d ≠ 0)
          || decide (dBase d % 0x10000 ≠ 0) || decide (w1 ≠ 0x200) || decide (w2 ≠ 0)))

/-- Whether a descriptor conflicts with what the teams of the core hold (R285). -/
def descConflict (s : State) (k n : Nat) (d : BitVec 128) : Bool :=
  let tm := getTeam s k
  let kind := dKind d
  let meetsRec (e : BitVec 128) : Bool :=
    decide (dKind e = kind) && decide (dBase e < dBase d + dLen d) && decide (dBase d < dBase e + dLen e)
  let otherFmt := tm.recs.any fun e =>
    decide (kind = kCb) && decide (dKind e.2 = kCb) && decide (recTile e.2 = recTile d) && decide (dFmt e.2 ≠ dFmt d)
  (smFind? tm.recs n).isSome || otherFmt
    || (coreTeams s (k / 4)).any fun x => decide (x ≠ k) && (getTeam s x).recs.any fun e => meetsRec e.2

/-- rsv (R301): the record is taken at once, and held when its zeroing completes (R286). -/
def execRsv (h : Hdr) (n : Fin 16) (a : USrc64) (b c : USrc) (s : State) : Out :=
  matWord h [uSrc b, uSrc c] [uSrc64 a] [n.val] [] (fun _ k acting =>
    let t := acting.headD 0
    let w0 := rd64 s t (uSrc64 a)
    let w1 := rd32 s t (uSrc b)
    let w2 := rd32 s t (uSrc c)
    let d := mkDesc w0 w1 w2
    if descBad w0 w1 w2 || descConflict s k n.val d then .inl ccBadRsv
    else .inr (some (modTeam s k fun tm =>
      { tm with
        recs := smPut tm.recs n.val d
        matPend := tm.matPend ++ [matPendOf (.rsv n.val) acting h.la.toNat 0] }))) s

/-- The bytes of a buffer. -/
def bufBytesOf (c : Core) (kind : Nat) : SMap Byte := if kind = kAb then c.ab else if kind = kWb then c.wb else c.cb
def setBuf (c : Core) (kind : Nat) (m : SMap Byte) : Core :=
  if kind = kAb then { c with ab := m } else if kind = kWb then { c with wb := m } else { c with cb := m }

/-- RSV_COMPLETE (R286): the bytes no other record of the team holds are zero, the record is held, and a new tile's token
is THREADS. -/
def execRsvComplete (core tslot : Nat) (n : Fin 16) (s : State) : Out :=
  let k := core * 4 + tslot
  let tm := getTeam s k
  match recPending tm n.val, smFind? tm.recs n.val with
  | true, some d =>
    let kind := dKind d
    let others := tm.recs.filter fun e => decide (e.1 ≠ n.val) && decide (dKind e.2 = kind) && !recPending tm e.1
    let keep (a : Nat) : Bool := others.any fun e => decide (dBase e.2 ≤ a) && decide (a < dBase e.2 + dLen e.2)
    let s1 := modCore s core fun c =>
      let c1 := setBuf c kind (smFilter (bufBytesOf c kind) fun a => decide (a < dBase d) || decide (dBase d + dLen d ≤ a) || keep a)
      if kind = kCb && (smFind? c1.tiles (recTile d)).isNone then
        { c1 with tiles := smPut c1.tiles (recTile d) ⟨tslot, false, decide (dFmt d = 10)⟩ }
      else c1
    .next (modTeam s1 k fun x => { x with matPend := x.matPend.filter fun m => decide (m.op ≠ .rsv n.val) })
  | _, _ => .next s

/-- unrsv (R302). -/
def execUnrsv (h : Hdr) (n : Fin 16) (s : State) : Out :=
  matWord h [] [] [n.val] [] (fun _ k acting =>
    match getRec (getTeam s k) n.val with
    | none => .inl ccBadRsv
    | some _ => .inr (some (modTeam s k fun tm =>
        { tm with matPend := tm.matPend ++ [matPendOf (.unrsv n.val) acting h.la.toNat 0] }))) s

/-- Frees a team's record, and its tile with the last CB record that names it (R302). -/
def freeRec (s : State) (k n : Nat) : State :=
  match smFind? (getTeam s k).recs n with
  | none => s
  | some d =>
    let s1 := modTeam s k fun x => { x with recs := smDel x.recs n }
    if dKind d = kCb ∧ !((getTeam s1 k).recs.any fun e => decide (dKind e.2 = kCb) && decide (recTile e.2 = recTile d)) then
      modCore s1 (k / 4) fun c =>
        { c with
          tiles := smDel c.tiles (recTile d)
          liveTile := if c.liveTile = some (recTile d) then none else c.liveTile }
    else s1

/-- Whether a job works on a tile of its team: a matrix job, or one that names one of the tile's records. -/
def usesTile (tm : Team) (j : Job) (t : Nat) : Bool :=
  jobOnTile j t || tm.recs.any fun e => decide (dKind e.2 = kCb) && decide (recTile e.2 = t) && jobNames j e.1

/-- UNRSV_COMPLETE (R302): no queued or running job of the team names the record, or works on its tile. -/
def execUnrsvComplete (core tslot : Nat) (n : Fin 16) (s : State) : Out :=
  let k := core * 4 + tslot
  let tm := getTeam s k
  let busy := (getCore s core).jobs.any fun j =>
    j.posted && decide (j.tslot = tslot) && (jobNames j n.val || (match smFind? tm.recs n.val with
      | some d => decide (dKind d = kCb) && usesTile tm j (recTile d)
      | none => false))
  if (tm.matPend.any fun m => decide (m.op = .unrsv n.val)) && !busy then
    .next (modTeam (freeRec s k n.val) k fun x => { x with matPend := x.matPend.filter fun m => decide (m.op ≠ .unrsv n.val) })
  else .next s

/-! ### Tokens (R289, R305, R306) -/

/-- acq (R305). -/
def execAcq (h : Hdr) (t : Fin 4) (s : State) : Out :=
  matWord h [] [] [] [t.val] (fun w k acting =>
    if !ownsTile s k t.val then .inl ccBadRsv
    else if tokenUnit s (w / 64) t.val then
      .inr (some (modTeam s k fun tm =>
        { tm with matPend := tm.matPend ++ [matPendOf (.acq t.val) acting h.la.toNat (getCore s (w / 64)).order] }))
    else .inr (some s)) s

def setToken (s : State) (core t : Nat) (unit : Bool) : State :=
  modCore s core fun c =>
    match smFind? c.tiles t with
    | some x => { c with tiles := smPut c.tiles t { x with unit := unit } }
    | none => c

/-- ACQ_COMPLETE (R289, R294): every earlier matrix job of the team on the tile has completed; a live tile is written back
and no tile is live. -/
def execAcqComplete (core tslot : Nat) (t : Fin 4) (s : State) : Out :=
  let k := core * 4 + tslot
  let tm := getTeam s k
  match tm.matPend.find? fun m => decide (m.op = .acq t.val) with
  | none => .next s
  | some m =>
    if (getCore s core).jobs.any fun j => decide (j.tslot = tslot) && j.posted && decide (j.order < m.order) && jobOnTile j t.val then
      .next s
    else
      let s1 := setToken s core t.val false
      let s2 := modCore s1 core fun c => { c with liveTile := if c.liveTile = some t.val then none else c.liveTile }
      .next (modTeam s2 k fun x => { x with matPend := x.matPend.filter fun y => decide (y ≠ m) })

/-- rel (R306): a release, so it waits until its threads' earlier stores and maintenance have performed (R243). -/
def execRel (h : Hdr) (t : Fin 4) (s : State) : Out :=
  matWord h [] [] [] [t.val] (fun w k acting =>
    if !ownsTile s k t.val then .inl ccBadRsv
    else if acting.any fun u => !storesDrained (getTh s u) then .inr none
    else .inr (some (setToken s (w / 64) t.val true))) s

/-! ### Posting matrix jobs (R303, R304) -/

/-- The pairings of R72: whether the accumulator is INT32, the base charge (R293) and the metering class (R431), which is
0 for 4 bits, 1 for 8 and 2 for 16. -/
def pairing (fa fb : Nat) : Option (Bool × Nat × Nat) :=
  let int8 (f : Nat) : Bool := decide (f = 6) || decide (f = 7)
  let int (f : Nat) : Bool := int8 f || decide (f = 8)
  let fp8 (f : Nat) : Bool := decide (f = 3) || decide (f = 4)
  let fp16' (f : Nat) : Bool := decide (f = 1) || decide (f = 2)
  if fa = 5 ∧ fb = 5 then some (false, 16, 0)
  else if fp8 fa && fp8 fb then some (false, 16, 1)
  else if fp16' fa && fp16' fb then some (false, 16, 2)
  else if int fa && int fb then (if int8 fa || int8 fb then some (true, 32, 1) else some (true, 16, 0))
  else none

/-- The checks of R304 for a control operand: the first k-groups and the count, or none with BAD_RSV. -/
def mmaCheck (s : State) (k t ka kb c : Nat) : Option (Nat × Nat × Nat) :=
  let tm := getTeam s k
  if !ownsTile s k t then none
  else match getRec tm ka, getRec tm kb, smFind? (getCore s (k / 4)).tiles t with
    | some da, some db, some tile =>
      (match pairing (dFmt da) (dFmt db) with
        | none => none
        | some p =>
          let a0 := c % 256
          let b0 := c / 256 % 256
          let n0 := c / 65536 % 256
          let n := if n0 = 0 then Nat.min (dKg da - a0) (dKg db - b0) else n0
          if dKind da ≠ kAb ∨ dKind db ≠ kWb ∨ p.1 ≠ tile.s32 then none
          else if c / 2 ^ 24 % 256 ≠ 0 ∨ n = 0 ∨ dKg da < a0 + n ∨ dKg db < b0 + n then none
          else some (a0, b0, n))
    | _, _, _ => none

/-- Posts a matrix job of a warp when the queue has room (R291, R314). -/
def postMatrix (s : State) (w k : Nat) (kind : JobKind) : Option State :=
  if queueRoom s k then
    some (postJob s (w / 64) (newJob (freeNum (getCore s (w / 64))) (k % 4) (w % 64) kind))
  else none

/-- zacc (R303). -/
def execZacc (h : Hdr) (t : Fin 4) (s : State) : Out :=
  matWord h [] [] [] [t.val] (fun w k _ =>
    if !ownsTile s k t.val then .inl ccBadRsv
    else if !tokenUnit s (w / 64) t.val then .inl ccAccToken
    else .inr (postMatrix s w k (.zacc t.val))) s

/-- mma (R304). -/
def execMma (h : Hdr) (t : Fin 4) (ka kb : Fin 16) (c : USrc) (s : State) : Out :=
  matWord h [uSrc c] [] [ka.val, kb.val] [t.val] (fun w k acting =>
    match mmaCheck s k t.val ka.val kb.val (rd32 s (acting.headD 0) (uSrc c)).toNat with
    | none => .inl ccBadRsv
    | some (a0, b0, n) =>
      if !tokenUnit s (w / 64) t.val then .inl ccAccToken
      else .inr (postMatrix s w k (.mma t.val ka.val kb.val a0 b0 n))) s

end Sys2Proof.Machine
end

