-- ==== Sys2Proof/Machine/MatrixEvents.lean ====
section
/-! DEFINITION. The matrix array: operand layout, k-steps, arbitration, power budget and completion (R284, R287, R288, R292 to
R298). -/
namespace Sys2Proof.Machine

/-! ### Operands (R284, R287) -/

/-- Whether line n of a compressed region is packed, and its slot's mask. -/
def linePacked (m : SMap Byte) (d : BitVec 128) (n : Nat) : Bool := (smGet 0 m (dBase d + dMoff d + n / 8)).getLsbD (n % 8)
def lineMask (m : SMap Byte) (d : BitVec 128) (n : Nat) : BitVec 128 :=
  BitVec.ofNat 128 (natOfBytes (sramRead m (dBase d + 128 * n) 16))

/-- A byte of an operand image, after decompression (R287). -/
def imageByte (m : SMap Byte) (d : BitVec 128) (a : Nat) : Nat :=
  let o := a - dBase d
  let n := o / 128
  if dCmp d && linePacked m d n then
    let mask := lineMask m d n
    let b := o % 128
    let p := popUpTo mask b
    if !mask.getLsbD b || decide (112 ≤ p) then 0 else (smGet 0 m (dBase d + 128 * n + 16 + p)).toNat
  else (smGet 0 m a).toNat

/-- The bytes of an element: 2 and 1, or 0 for 4-bit formats. -/
def elemBytes (f : Nat) : Nat := if f = 1 ∨ f = 2 then 2 else if f = 5 ∨ f = 8 then 0 else 1

/-- The codes of row r, k-group g. -/
def rowCodes (m : SMap Byte) (d : BitVec 128) (r g : Nat) : List Nat :=
  let f := dFmt d
  let lo := dBase d + dGs d * g + r * rowBytes f
  (rangeFrom 0 (kgLen f)).map fun e =>
    match elemBytes f with
    | 2 => imageByte m d (lo + 2 * e) + 256 * imageByte m d (lo + 2 * e + 1)
    | 0 => imageByte m d (lo + e / 2) / (if e % 2 = 0 then 1 else 16) % 16
    | _ => imageByte m d (lo + e)

/-- The exact values of a floating row. -/
def rowVals (m : SMap Byte) (d : BitVec 128) (r g : Nat) : List FVal :=
  let cs := rowCodes m d r g
  match dFmt d with
  | 1 => cs.map (fDecode fp16)
  | 2 => cs.map (fDecode bf16)
  | 3 => cs.map (fDecode e4m3)
  | 4 => cs.map (fDecode e5m2)
  | _ =>
    let sc := smGet 0 m (dBase d + dSoff d + 128 * g + r)
    let ex := smGet 0 m (dBase d + dXoff d + 128 * g + r)
    cs.map (n4xVal sc ex)

/-- The exact values of an integer row. -/
def rowInts (m : SMap Byte) (d : BitVec 128) (r g : Nat) : List Int :=
  (rowCodes m d r g).map fun c =>
    match dFmt d with
    | 6 => (BitVec.ofNat 8 c).toInt
    | 8 => (BitVec.ofNat 4 c).toInt
    | _ => (c : Int)

/-! ### A k-step (R73, R74, R292) -/

/-- A floating accumulator after one k-group (R73). -/
def accFloat (acc : W32) (a b : List FVal) : W32 × W32 :=
  let t := f32Out .rne (fSum (List.zipWith fMul a b))
  f32Out .rne (fAdd .rne (f32Val acc) (f32Val t.1))

/-- An integer accumulator after one k-group (R74). -/
def accInt (acc : W32) (a b : List Int) : W32 × W32 :=
  let v := acc.toInt + (List.zipWith (· * ·) a b).foldl (· + ·) 0
  let r := clampTo 32 .s v
  (r.1, flIf r.2 flSat)

/-- Updates element (i, j) of a tile. -/
def accPut (t : Nat) (x : SMap Byte × W32) (i j : Nat) (f : W32 → W32 × W32) : SMap Byte × W32 :=
  let a := t * 0x10000 + (128 * i + j) * 4
  let r := f (BitVec.ofNat 32 (natOfBytes (sramRead x.1 a 4)))
  (sramWrite x.1 a (bytesOfNat 4 r.1.toNat), x.2 ||| r.2)

/-- One k-group of every row into a tile (R292): the CB and the flags. -/
def kStepTile (c : Core) (t : Nat) (int : Bool) (da db : BitVec 128) (ga gb : Nat) : SMap Byte × W32 :=
  let rows := rangeFrom 0 (dRows da)
  let cols := rangeFrom 0 (dRows db)
  if int then
    let bs := cols.map fun j => (j, rowInts c.wb db j gb)
    rows.foldl (fun x i =>
      let a := rowInts c.ab da i ga
      bs.foldl (fun x b => accPut t x i b.1 fun acc => accInt acc a b.2) x) (c.cb, 0)
  else
    let bs := cols.map fun j => (j, rowVals c.wb db j gb)
    rows.foldl (fun x i =>
      let a := rowVals c.ab da i ga
      bs.foldl (fun x b => accPut t x i b.1 fun acc => accFloat acc a b.2) x) (c.cb, 0)

/-! ### Charge and duration (R288, R293, R295) -/

/-- The vectors of stored elements fed at each e of a k-group: one code per row. -/
def fedVectors (m : SMap Byte) (d : BitVec 128) (g : Nat) : List (List Nat) :=
  let rows := (rangeFrom 0 (dRows d)).map fun r => rowCodes m d r g
  (rangeFrom 0 (kgLen (dFmt d))).map fun e => rows.map fun r => r.getD e 0

/-- popcount of the difference of two vectors, row by row, the shorter one padded with zeros (R295). DEDUCED
(notes/assumptions/35.md): the manual does not say how vectors of different row counts or formats line up. -/
def vecToggle (a b : List Nat) : Nat :=
  ((rangeFrom 0 (Nat.max a.length b.length)).map fun i =>
    popUpTo (BitVec.ofNat 16 (a.getD i 0 ^^^ b.getD i 0)) 16).foldl (· + ·) 0

/-- The toggles of a sequence of vectors after a last one. -/
def seqToggle : List Nat → List (List Nat) → Nat
  | _, [] => 0
  | last, v :: vs => vecToggle last v + seqToggle v vs

/-- The WB port cycles of a k-step (R288). -/
def wbCycles (m : SMap Byte) (d : BitVec 128) (g : Nat) : Nat :=
  ((blocksOf 128 (dGs d * g) (dRows d * rowBytes (dFmt d))).map fun n =>
    if dCmp d && linePacked m d n && decide (popW (lineMask m d n) ≤ 48) then 1 else 2).foldl (· + ·) 0
def abCycles (d : BitVec 128) (g : Nat) : Nat := (blocksOf 128 (dGs d * g) (dRows d * rowBytes (dFmt d))).length
def sideCycles (d : BitVec 128) : Nat := if dFmt d = 5 then (2 * dRows d + 15) / 16 else 0

/-- How long a k-step lasts, in cycles (R293). -/
def kStepCycles (c : Core) (base : Nat) (da db : BitVec 128) (ga gb : Nat) : Nat :=
  Nat.max (Nat.max base (abCycles da ga)) (Nat.max (wbCycles c.wb db gb) (Nat.max (sideCycles da) (sideCycles db)))

/-! ### Jobs ready for the array (R291, R294, R298) -/

/-- Whether a team runs: at least one of its warps has RUN set (R49, R418). -/
def teamRuns (s : State) (k : Nat) : Bool := (teamWarps s k).any fun w => bindRun (getWarp s w).bind

def isMatrix (j : Job) : Bool :=
  match j.kind with
  | .copy => false
  | _ => true

/-- A ready matrix job. -/
def matReady (s : State) (core : Nat) (j : Job) : Bool :=
  isMatrix j && j.posted && teamRuns s (core * 4 + j.tslot) && jobFree s core j

/-- What the next k-step of a job needs: its records, k-groups, and pairing. -/
structure KNext where
  t : Nat
  da : BitVec 128
  db : BitVec 128
  ga : Nat
  gb : Nat
  int : Bool
  base : Nat
  cls : Nat
deriving DecidableEq, Repr

def kNext (s : State) (core : Nat) (j : Job) : Option KNext :=
  let tm := getTeam s (core * 4 + j.tslot)
  match j.kind with
  | .mma t ka kb a0 b0 n =>
    if n ≤ j.done then none
    else (match smFind? tm.recs ka, smFind? tm.recs kb with
      | some da, some db =>
        (pairing (dFmt da) (dFmt db)).map fun p => ⟨t, da, db, a0 + j.done, b0 + j.done, p.1, p.2.1, p.2.2⟩
      | _, _ => none)
  | _ => none

/-- The core cycles that have passed at a time in ns (1.05 GHz, R6). -/
def cyclesAt (clock : Nat) : Nat := clock * 105 / 100

/-- Whether the array has been idle since it was last fed (R295): more cycles have passed than that k-step lasts. -/
def arrayIdled (s : State) (c : Core) : Bool := decide (cyclesAt c.fedAt + c.fedFor < cyclesAt s.clock)

/-- The last vectors fed to the array, zero after a tile change or an idle cycle (R295). -/
def lastFed (s : State) (core t : Nat) : List Nat × List Nat :=
  let c := getCore s core
  if c.liveTile = some t ∧ !arrayIdled s c then (c.lastA, c.lastB) else ([], [])

/-- The last vectors as a k-step of other formats meets them: the low bits of each row, as many as its own elements have.
DESIGN CHOICE, notes/assumptions/45.md. -/
def lastBits (da db : BitVec 128) (last : List Nat × List Nat) : List Nat × List Nat :=
  let bits (f : Nat) : Nat := match elemBytes f with
    | 2 => 16
    | 0 => 4
    | _ => 8
  (last.1.map (· % 2 ^ bits (dFmt da)), last.2.map (· % 2 ^ bits (dFmt db)))

/-- The charge of a job's next k-step (R295); 0 where it has none. -/
def kCharge (s : State) (core : Nat) (j : Job) : Nat :=
  match kNext s core j with
  | none => 0
  | some x =>
    let c := getCore s core
    let last := lastBits x.da x.db (lastFed s core x.t)
    x.base + (seqToggle last.1 (fedVectors c.ab x.da x.ga)
      + seqToggle last.2 (fedVectors c.wb x.db x.gb)) / 1024

/-- Whether the budget lets a k-step of this charge start (R296). -/
def budgetOk (c : Core) (charge : Nat) : Bool :=
  decide (charge ≤ c.budget.toNat) || (decide (c.quantum < charge) && decide (c.budget.toNat = c.quantum))

/-- The oldest ready matrix job of each team of the core. -/
def candidates (s : State) (core : Nat) : List Job :=
  (rangeFrom 0 4).filterMap fun ts =>
    minBy (fun j => j.order) ((getCore s core).jobs.filter fun j => decide (j.tslot = ts) && matReady s core j)

/-- The lowest warp slot of a team. -/
def lowWslot (s : State) (k : Nat) : Nat := (minBy id (getTeam s k).wslots).getD 64

/-- The choice of R298 among the teams' candidates. Teams that have never had the array count as equally long without it, and the
lowest team slot goes first: DESIGN CHOICE, notes/assumptions/43.md. -/
def arbitrate (s : State) (core : Nat) (cands : List Job) : Option Job :=
  let c := getCore s core
  let starved := cands.filter fun j => decide (8 ≤ smGet 0 c.passed j.tslot)
  match minBy (fun j => lowWslot s (core * 4 + j.tslot)) starved with
  | some j => some j
  | none => minBy (fun j => kCharge s core j * 2 ^ 64 + smGet 0 c.gained j.tslot) cands

/-- The candidates of a switch point: the running job alone where no other team is ready (R298). -/
def keepRunning (s : State) (core : Nat) (cands : List Job) : List Job :=
  match (getCore s core).running.bind (getJob s core) with
  | none => cands
  | some r =>
    let own := cands.filter fun j => decide (j.tslot = r.tslot)
    if r.state = .running ∧ !own.isEmpty ∧ own.length = cands.length then [r] else cands

/-- The array goes to a job: the ready teams passed over are counted, those that are not ready start afresh (R298). -/
def giveArray (s : State) (core : Nat) (cands : List Job) (j : Job) : State :=
  modCore s core fun c =>
    { c with
      running := some j.num
      kSince := 0
      passed := cands.foldl (fun p x => if x.tslot = j.tslot then smPut p x.tslot 0 else smPut p x.tslot (smGet 0 c.passed x.tslot + 1)) []
      gained := smPut c.gained j.tslot (s.n + 1) }

/-- Whether a switch point falls (R298): no job runs, or the running one has run 16 k-steps since it gained the array, cannot
pay its next k-step while another team's job can start, or belongs to a pre-empted team. -/
def atSwitchPoint (s : State) (core : Nat) : Bool :=
  let c := getCore s core
  match c.running with
  | none => true
  | some n =>
    match getJob s core n with
    | none => true
    | some j =>
      decide (16 ≤ c.kSince) || !teamRuns s (core * 4 + j.tslot) ||
        ((kNext s core j).isSome && !budgetOk c (kCharge s core j) &&
          (candidates s core).any fun x => decide (x.tslot ≠ j.tslot) && budgetOk c (kCharge s core x))

/-- ARRAY_SWITCH_POINT (R297, R298): the running job keeps the array when no other team is ready. -/
def execArraySwitchPoint (core : Nat) (s : State) : Out :=
  if (getCore s core).power ≠ .on ∨ !atSwitchPoint s core then .next s
  else
    let cands := candidates s core
    match arbitrate s core (keepRunning s core cands) with
    | some j => .next (giveArray s core cands j)
    | none => .next (modCore s core fun c => { c with
        running := none, lastA := [], lastB := [], passed := [] })

/-! ### Starting, stepping and completing (R292, R294, R296) -/

/-- The tile of a matrix job. -/
def jobTile (j : Job) : Option Nat :=
  match j.kind with
  | .zacc t => some t
  | .mma t _ _ _ _ _ => some t
  | .copy => none

/-- MATRIX_JOB_START (R294): a job that has, or takes at a switch point, the array makes its tile live. -/
def execMatrixJobStart (core job : Nat) (s : State) : Out :=
  let take : Option State :=
    match (getCore s core).running with
    | some n => if n = job then some s else none
    | none =>
      let cands := candidates s core
      match arbitrate s core cands with
      | some j => if j.num = job then some (giveArray s core cands j) else none
      | none => none
  match take, getJob s core job with
  | some s1, some j =>
    (match jobTile j with
      | some t =>
        if (getCore s core).power ≠ .on ∨ !matReady s core j then .next s
        else
          let s2 := modCore s1 core fun c =>
            if c.liveTile = some t then c else { c with liveTile := some t, lastA := [], lastB := [] }
          .next (modJob s2 core job fun j => { j with state := .running })
      | none => .next s)
  | _, _ => .next s

/-- K_STEP (R292, R295, R296): the running job's next k-step starts when the budget covers its charge, and is metered
whole at its start (R431, R435). -/
def execKStep (core : Nat) (s : State) : Out :=
  let c := getCore s core
  match c.running.bind (getJob s core) with
  | none => .next s
  | some j =>
    match kNext s core j with
    | none => .next s
    | some x =>
      let k := core * 4 + j.tslot
      let charge := kCharge s core j
      if j.state ≠ .running ∨ c.liveTile ≠ some x.t ∨ 16 ≤ c.kSince ∨ !teamRuns s k ∨ !budgetOk c charge then .next s
      else
        let r := kStepTile c x.t x.int x.da x.db x.ga x.gb
        let c1 := { c with
          cb := r.1
          budget := BitVec.ofNat 32 (c.budget.toNat - charge)
          kSince := c.kSince + 1
          fedAt := s.clock
          fedFor := kStepCycles c x.base x.da x.db x.ga x.gb
          lastA := (fedVectors c.ab x.da x.ga).getLastD []
          lastB := (fedVectors c.wb x.db x.gb).getLastD [] }
        let s1 := modJob (setCore s core c1) core j.num fun j => { j with done := j.done + 1, fl := j.fl ||| r.2 }
        let s2 := modTeam s1 k fun t => { t with charge := t.charge + BitVec.ofNat 64 charge }
        let p := (getTeam s k).part
        let s3 := meter s2 p (mBusy4 + x.cls) (kStepCycles c x.base x.da x.db x.ga x.gb)
        .next (corePmc (meter s3 p (mMac4 + x.cls) (dRows x.da * dRows x.db * kgLen (dFmt x.da))) core 6 1)

/-- Where a matrix job's flags go (R68): its warp, or the lowest-numbered warp of the team that has not retired. -/
def flagWarp (s : State) (core : Nat) (j : Job) : Option Nat :=
  let k := core * 4 + j.tslot
  let w := core * 64 + j.wslot
  if !warpRetired s w then some w
  else minBy (fun v => bindWarp (getWarp s v).bind) ((teamWarps s k).filter fun v => !warpRetired s v)

/-- MATRIX_JOB_COMPLETE (R292, R294): the flags are set and the entry is freed; a `zacc` has zeroed its tile. -/
def execMatrixJobComplete (core : Nat) (s : State) : Out :=
  let c := getCore s core
  match c.running.bind (getJob s core) with
  | none => .next s
  | some j =>
    let finished : Option State :=
      if j.state ≠ .running then none
      else match j.kind with
        | .zacc t =>
          if c.liveTile = some t then
            some (setCore s core { c with cb := sramZero c.cb (t * 0x10000) 0x10000, lastA := [], lastB := [] })
          else none
        | .mma _ _ _ _ _ n => if n ≤ j.done then some s else none
        | .copy => none
    match finished with
    | none => .next s
    | some s1 =>
      let s2 := match flagWarp s1 core j with
        | some w => orFlags s1 w j.fl
        | none => s1
      .next (modCore (dropJob s2 core j.num) core fun c => { c with running := none })

/-! ### The power budget (R296) -/

/-- The effective limit (R30, R31): LIMIT, or 2,400 W while Emergency Power Reduction is in force. -/
def effectiveLimit (s : State) : Nat := if s.host.epr then 2400 else s.host.limit

/-- The quantum a refill writes (R296): Hazel's own; while a late launch holds Hazel halted, the one Hazel last wrote,
reduced by the ratio of a lower limit to the limit at the halt (R411). DEDUCED, notes/assumptions/25.md. -/
def refillQuantum (s : State) (core : Nat) (c : Core) : Nat :=
  let l := effectiveLimit s
  if s.boot.hazelHalted then
    (if l < s.boot.haltLimit then c.hazelQ * l / s.boot.haltLimit else c.hazelQ)
  else (Config.quantum core l).toNat

/-- BUDGET_REFILL (R296): at every multiple of 10 µs each core's BUDGET becomes its quantum. -/
def execBudgetRefill (s : State) : Out :=
  .next { s with
    refills := s.refills + 1
    cores := s.cores.map fun c =>
      let q := refillQuantum s c.1 c.2
      if c.2.up then
        (c.1, { c.2 with budget := BitVec.ofNat 32 q, quantum := q, hazelQ := if s.boot.hazelHalted then c.2.hazelQ else q })
      else c }

end Sys2Proof.Machine
end

