-- ==== Sys2Proof/Machine/Metering.lean ====
section
/-! DEFINITION. Firmware identity, fuse counters (R407, R414), and usage records (R431 to R436). -/
namespace Sys2Proof.Machine

/-! ### Identity (R407) -/

/-- A list of exactly `n` bytes. DESIGN CHOICE, notes/assumptions/20.md. -/
def fixLen (n : Nat) (l : List Byte) : List Byte := (l ++ List.replicate n 0).take n

/-- SHA-512 of bytes, 64 bytes long. -/
def sha (l : List Byte) : List Byte := fixLen 64 (Config.sha512 l)

/-- ASCII of the derivation labels. -/
def labelId : List Byte := [0x4E, 0x39, 0x2D, 0x49, 0x44]
def labelAlias : List Byte := [0x4E, 0x39, 0x2D, 0x41, 0x4C, 0x49, 0x41, 0x53]
def labelSleepRoot : List Byte := [0x4E, 0x39, 0x2D, 0x53, 0x4C, 0x45, 0x45, 0x50, 0x2D, 0x52, 0x4F, 0x4F, 0x54]
def labelSleep : List Byte := [0x4E, 0x39, 0x2D, 0x53, 0x4C, 0x45, 0x45, 0x50]

/-- The seeds of the identity and alias keys, and the sleep root. -/
def identitySeed : List Byte := (Config.hkdf Config.uds [] labelId).take 32
def rowanImage (s : State) : List Byte := (s.boot.rowan.map (·.image)).getD []
def aliasSeed (s : State) : List Byte := (Config.hkdf Config.uds (sha (rowanImage s)) labelAlias).take 32
def sleepRoot : List Byte := (Config.hkdf Config.uds [] labelSleepRoot).take 32

/-- A signature by the alias key. -/
def aliasSign (s : State) (l : List Byte) : List Byte := fixLen 64 (Config.ed25519Sign (aliasSeed s) l)

/-! ### Fuse counters (R414) -/

/-- The bits of a fuse pair. -/
def fusePair (s : State) (ctr pair : Nat) : Bool × Bool := smGet (false, false) s.fuses (ctr * 64 + pair)
def pairBlown (s : State) (ctr pair : Nat) : Bool := (fusePair s ctr pair).1 || (fusePair s ctr pair).2

/-- A counter: one more than its highest blown pair. -/
def fuseCounter (s : State) (ctr : Nat) : Nat :=
  (List.range 64).foldl (fun n i => if pairBlown s ctr i then i + 1 else n) 0

/-- The four bytes of fuse counters 0 to 2 and the late-launch count modulo 256 (R399, R409). -/
def svnBytes (s : State) : List Byte :=
  [BitVec.ofNat 8 (fuseCounter s 0), BitVec.ofNat 8 (fuseCounter s 1), BitVec.ofNat 8 (fuseCounter s 2), s.lateLaunches.extractLsb' 0 8]

/-! ### Usage records (R433 to R435) -/

/-- The signed part of a partition's next record. -/
def usageBody (s : State) (p reason : Nat) : List Byte :=
  let x := getPart s p
  bytesOfNat 2 1 ++ bytesOfNat 1 p ++ bytesOfNat 1 reason ++ bytesOfNat 4 0 ++ bytesOfNat 8 x.useq ++ bytesOfNat 8 s.clock
    ++ (List.range 13).flatMap (fun i => bytesOfNat 8 (smGet 0 x.meters i))
    ++ (if x.useq = 0 then List.replicate 64 0 else sha x.prevRec)

/-- A record is emitted: it takes the next SEQ, chains to the record before it, and stands in the usage window. The first
record after a wake or a virtual-function reset says so whatever calls for it. -/
def emitUsage (s : State) (p reason : Nat) : State × List Byte :=
  let x := getPart s p
  let body := usageBody s p (if x.reason = 0 then reason else x.reason)
  let r := body ++ aliasSign s body
  let s1 := setPart s p { x with useq := x.useq + 1, prevRec := r, reason := 0, usage := smPut x.usage (x.useq % 16) r }
  ({ s1 with rowan := { s1.rowan with recordAt := some s.clock } }, r)

/-- Whether Rowan has a call under way (R372). -/
def rowanBusy (s : State) : Bool := s.rowan.shoot.isSome || s.rowan.migr.isSome

/-- Whether the record of a whole second of CLOCK is due for a partition (R434). -/
def recordDue (s : State) (x : Partition) : Bool := x.live && !s.boot.asleep && decide (x.second < s.clock / 1000000000)

/-- The partition whose periodic record is due: it goes before any call of the same cycle (R434). -/
def usageDue (s : State) : Option Nat := firstSome (fun (p : Nat × Partition) => if recordDue s p.2 then some p.1 else none) s.parts

/-- USAGE_RECORD_PERIODIC (R434): the record of a whole second of CLOCK, in Rowan's single order of calls. -/
def execUsageRecordPeriodic (p : Nat) (s : State) : Out :=
  let x := getPart s p
  if recordDue s x && !rowanBusy s then
    .next (emitUsage (setPart s p { x with second := s.clock / 1000000000 }) p 0).1
  else .next s

end Sys2Proof.Machine
end

