-- ==== Sys2Proof/Machine/Boot.lean ====
section
/-! DEFINITION. Resets, firmware images, fuses, pod boot, pod links, the staggered start, COMMIT and late launch (R21, R24 to
R32, R390, R410, R411, R414, R415). -/
namespace Sys2Proof.Machine

/-! ### Fuses (R414) -/

def setFuse (s : State) (ctr pair : Nat) (x : Bool × Bool) : State :=
  { s with fuses := if x = (false, false) then smDel s.fuses (ctr * 64 + pair) else smPut s.fuses (ctr * 64 + pair) x }

/-- Whether a bit that is blown verifies within 3 attempts. DESIGN CHOICE, notes/assumptions/27.md. -/
def blowVerifies (s : State) (ctr pair : Nat) (second : Bool) : Bool :=
  (List.range 3).any fun i => Config.fuseVerifies ctr pair second (3 * s.n + i)

/-- Blows one bit of a pair unless it is blown; none where it fails to verify. -/
def blowBit (s : State) (ctr pair : Nat) (second : Bool) : Option State :=
  let x := fusePair s ctr pair
  if (if second then x.2 else x.1) then some s
  else if blowVerifies s ctr pair second then some (setFuse s ctr pair (if second then (x.1, true) else (true, x.2)))
  else none

/-- Blows bit A and then bit B of a pair. -/
def blowPair (s : State) (ctr pair : Nat) : Option State :=
  (blowBit s ctr pair false).bind fun s1 => blowBit s1 ctr pair true

/-- Blows pairs in order until one bit fails to verify: the state, and whether all did. -/
def blowPairs (ctr : Nat) : List Nat → State → State × Bool
  | [], s => (s, true)
  | p :: l, s =>
    match blowBit s ctr p false with
    | none => (s, false)
    | some s1 =>
      match blowBit s1 ctr p true with
      | none => (s1, false)
      | some s2 => blowPairs ctr l s2

/-- FUSE_REPAIR: every pair below the highest blown pair, and that pair, are blown in both bits; a bit that fails halts the
ROM with FUSE_FAULT. -/
def repairFuses (s : State) : State :=
  let one (x : State × Bool) (ctr : Nat) : State × Bool :=
    if !x.2 then x else blowPairs ctr (List.range (fuseCounter x.1 ctr)) x.1
  let r := [0, 1, 2].foldl one (s, true)
  if r.2 then r.1 else { r.1 with boot := { r.1.boot with status := .fuseFault } }

/-! ### Resets (R12, R24, R28, R414) -/

/-- COLD_RESET: power-on. The fuses keep what they hold; the inputs to come and the model's own counter are not the
machine's. -/
def execColdReset (s : State) : Out :=
  .next (repairFuses { State.reset with n := s.n, inbox := s.inbox, fuses := s.fuses })

/-- What a partition keeps through a warm reset: what counts since cold reset. DEDUCED, notes/assumptions/26.md. -/
def warmPart (x : Partition) : Partition :=
  { meters := x.meters, useq := x.useq, prevRec := x.prevRec, usage := x.usage, resets := x.resets }

/-- The state in which the ROM of a package that sleeps begins a boot (R413): memory, tables and the retention store are
kept. -/
def wakeBoot (s : State) : State :=
  { s with turn := .idle, boot := { ({} : Boot) with asleep := true }, spdm := {}, host := { s.host with reply := none } }

/-- WARM_RESET: the ROM waits for images; CLOCK, fuses, the retention store and what counts since cold reset are kept.
DEDUCED, notes/assumptions/26.md. -/
def execWarmReset (s : State) : Out :=
  if s.boot.asleep then .next (repairFuses (wakeBoot s))
  else
    .next (repairFuses { State.reset with
      n := s.n, inbox := s.inbox, fuses := s.fuses, clock := s.clock, refills := s.refills, slices := s.slices, ret := s.ret
      lateLaunches := s.lateLaunches
      parts := s.parts.map fun p => (p.1, warmPart p.2)
      rowan := { ({} : Rowan) with
        lastEncl := s.rowan.lastEncl, lastAsid := s.rowan.lastAsid, lastKslot := s.rowan.lastKslot, ord := s.rowan.ord, drbg := s.rowan.drbg }
      host := { ({} : HostRegs) with log := s.host.log } })

/-! ### Firmware images (R24, R415) -/

def imgField (img : List Byte) (off n : Nat) : Nat := natOfBytes ((img.drop off).take n)
def imgKind (img : List Byte) : Nat := imgField img 4 1
def imgSvn (img : List Byte) : Nat := imgField img 5 1

/-- Whether an image of a kind passes R415. -/
def imageOk (s : State) (kind : Nat) (img : List Byte) : Bool :=
  let len := imgField img 8 8
  decide (256 ≤ img.length) && decide (imgField img 0 4 = 0x4E394657) && decide (imgKind img = kind) && decide (imgSvn img ≤ 64)
    && decide (len ≤ 67108864) && decide (img.length = 256 + len) && decide (imgField img 80 112 = 0)
    && decide (sha (img.drop 256) = (img.drop 16).take 64)
    && Config.ed25519Verify Config.firmwareKey (img.take 192) ((img.drop 192).take 64)
    && decide (fuseCounter s kind ≤ imgSvn img)

def acceptedOf (img : List Byte) : Accepted := ⟨sha img, imgSvn img, img⟩

/-- The kind of image the ROM, or Rowan firmware, waits for (R24). -/
def nextKind (b : Boot) : Option Nat :=
  if b.rowan.isNone then some 0 else if b.hazel.isNone then some 1 else if b.runtime.isNone then some 2 else none

/-- An accepted image: Rowan firmware loads the shipped protocols (R390). Boot status keeps WAIT_IMAGE until the runtime is
accepted, and shows ready from then on: DESIGN CHOICE, notes/assumptions/55.md. Rowan draws its own key (R400), but for a package
that sleeps, whose retention store holds it (R412). -/
def acceptImage (s : State) (kind : Nat) (img : List Byte) : State :=
  let a := some (acceptedOf img)
  match kind with
  | 0 =>
    let r := s.rowan
    { s with
      boot := { s.boot with rowan := a, startAt := s.clock }
      rowan := if s.boot.asleep then r else { r with
        key := ⟨0, fixLen 32 (Config.drbg r.drbg), fixLen 32 (Config.drbg (r.drbg + 1)), fixLen 32 (Config.drbg (r.drbg + 2))⟩
        drbg := r.drbg + 3 }
      protos := smPut (smPut (smPut s.protos 1 updImage) 2 migImage) 3 woImage }
  | 1 => { s with boot := { s.boot with hazel := a } }
  | _ => { s with boot := { s.boot with runtime := a, status := .ready } }

/-- An image is checked whole, and accepted or discarded. -/
def loadImage (s : State) (img : List Byte) : State :=
  match nextKind s.boot with
  | none => s
  | some k => if imageOk s k img then acceptImage s k img else s

/-- An image that the host places in the firmware mailbox, one of each kind: while the ROM waits for images, one that fails its
check leaves nothing behind (R24); a late launch checks what it finds there (R411). DEDUCED, notes/assumptions/26.md. -/
def putMailbox (s : State) (img : List Byte) : State :=
  if imgKind img < 3 ∧ ((nextKind s.boot).isNone || imageOk s (imgKind img) img) then
    { s with boot := { s.boot with mailbox := s.boot.mailbox.filter (fun x => decide (imgKind x ≠ imgKind img)) ++ [img] } }
  else s

/-- The images of the mailbox are loaded in their order, until one is missing or fails its check (R24). -/
def loadMailbox : Nat → State → State
  | 0, s => s
  | n + 1, s =>
    match nextKind s.boot with
    | none => s
    | some k =>
      match s.boot.mailbox.find? fun x => decide (imgKind x = k) with
      | none => s
      | some img =>
        if imageOk s k img then loadMailbox n (acceptImage s k img)
        else { s with boot := { s.boot with mailbox := s.boot.mailbox.filter fun x => decide (x ≠ img) } }

/-- FIRMWARE_IMAGE (R24, R27, R415): a whole image from the host's mailbox, or from the leader. Under BOOTSRC 0 the host's image
is the one expected next, or is discarded; under BOOTSRC 1 the mailbox keeps it, and a package that leads loads it from there.
Once the package has booted the mailbox keeps the host's image for a late launch (R411). -/
def execFirmwareImage (leader : Option (BitVec 16)) (img : List Byte) (s : State) : Out :=
  if s.boot.status = .fuseFault then .next s
  else match leader with
    | none =>
      .next (if (nextKind s.boot).isNone then putMailbox s img
        else if !Config.bootsrc then loadImage s img
        else if s.boot.claimed then loadMailbox 3 (putMailbox s img) else putMailbox s img)
    | some l =>
      .next (if Config.bootsrc && !s.boot.claimed && decide (s.boot.leader = some l) then
        loadImage { s with boot := { s.boot with lastFlit := s.clock } } img else s)

/-! ### Pod boot (R25 to R29) -/

def getPort (s : State) (p : Nat) : Port := smGet {} s.boot.ports p
def setPort (s : State) (p : Nat) (x : Port) : State := { s with boot := { s.boot with ports := smPut s.boot.ports p x } }

/-- HOST_LINK_TRAINING (R17): the host port comes up as a PCI Express endpoint, or as a CXL device. -/
def execHostLinkTraining (cxl : Bool) (s : State) : Out :=
  .next (if s.boot.hostUp then s else { s with boot := { s.boot with hostUp := true, cxl := cxl } })

/-- The units that leave reset before a pod link port under BOOTSRC 0 (R32). -/
def portStart : Nat := 158

/-- Whether the ROM has halted (R414). -/
def romHalted (s : State) : Bool := decide (s.boot.status = .fuseFault)

/-- POD_LINK_TRAINING (R24, R26): a port that is out of reset comes up; under BOOTSRC 1 the first one opens the discovery
window. A ROM that has halted trains none (R414). -/
def execPodLinkTraining (port : Fin 12) (s : State) : Out :=
  let x := getPort s port.val
  if romHalted s || x.up || x.down || (!Config.bootsrc && decide (s.boot.startStep ≤ portStart + port.val)) then .next s
  else
    let s1 := setPort s port.val { x with up := true, trained := true, retries := 0 }
    .next (if Config.bootsrc && s.boot.windowFrom.isNone && !s.boot.windowDone then
      { s1 with boot := { s1.boot with windowFrom := some s.clock } } else s1)

/-- HELLO (R26): the pod id of another package is noted in the discovery window. DEDUCED, notes/assumptions/26.md. -/
def execHello (port : Fin 12) (pod : BitVec 16) (s : State) : Out :=
  .next (if !romHalted s && (getPort s port.val).up && s.boot.windowFrom.isSome then { s with boot := { s.boot with seen := s.boot.seen ++ [pod] } } else s)

/-- Whether a pod id is reported by one package alone, this one counted (R25). -/
def podUnique (b : Boot) (id : BitVec 16) : Bool :=
  decide (((Config.podId :: b.seen).filter fun x => decide (x = id)).length = 1)

/-- The other packages that may lead: unique, and not excluded (R28). -/
def eligiblePods (b : Boot) : List (BitVec 16) := b.seen.filter fun x => podUnique b x && !b.excluded.any fun y => decide (y = x)

/-- Whether the mailbox holds a complete set of images. -/
def mailboxFull (b : Boot) : Bool := [0, 1, 2].all fun k => b.mailbox.any fun x => decide (imgKind x = k)

/-- DISCOVERY_WINDOW_END (R24, R26, R29): a package with a complete set of images that sees no lower unique pod id claims,
leads and loads them; one that finds no eligible leader reports NO_LEADER. A ROM that has halted does neither (R414). -/
def execDiscoveryWindowEnd (s : State) : Out :=
  match s.boot.windowFrom with
  | none => .next s
  | some f =>
    if romHalted s || s.clock < f + 50000000 then .next s
    else
      let b := { s.boot with windowFrom := none, windowDone := true }
      let pods := eligiblePods b
      if b.leader.isNone && mailboxFull b && podUnique b Config.podId && pods.all (fun x => decide (Config.podId.toNat < x.toNat)) then
        .next (loadMailbox 3 { s with boot := { b with claimed := true, leader := some Config.podId } })
      else if b.leader.isNone && pods.isEmpty then .next { s with boot := { b with status := .noLeader } }
      else .next { s with boot := b }

/-- CLAIM (R27, R28): the first claim that passes its check and names no excluded leader is accepted. -/
def execClaim (port : Fin 12) (pod : BitVec 16) (nonce : BitVec 64) (sig : List Byte) (s : State) : Out :=
  if Config.bootsrc && (getPort s port.val).up && s.boot.leader.isNone && (nextKind s.boot).isSome && !romHalted s
      && !(s.boot.excluded.any fun x => decide (x = pod)) && Config.claimOk pod nonce sig then
    .next { s with boot := { s.boot with leader := some pod, lastFlit := s.clock, status := .waitImage } }
  else .next s

/-- LEADER_SILENT (R28): no flit of the accepted leader for 250 ms. It is ignored once all images are accepted: DESIGN CHOICE,
notes/assumptions/54.md. -/
def execLeaderSilent (s : State) : Out :=
  match s.boot.leader with
  | none => .next s
  | some l =>
    if s.boot.claimed || (nextKind s.boot).isNone || decide (s.clock < s.boot.lastFlit + 250000000) then .next s
    else
      .next { s with boot := { s.boot with
        leader := none, excluded := s.boot.excluded ++ [l], windowFrom := some s.clock, windowDone := false, seen := [] } }

/-! ### Pod links (R21, R23) -/

/-- The partition of a keyed stream's enclave. -/
def streamPart (s : State) (i : Nat) : Option Nat := enclPart s (smGet ({} : Stream) s.host.streams i).encl

/-- POD_FLIT_RECEIVE (R21, R28): a CRC failure is retried, and the eighth takes the port down, which Hazel 0 learns; a MAC
failure drops the group and closes the stream, whose endpoints see a link fault; enclave data needs a keyed stream; poisoned
data fails its check and is logged once (R23). DEDUCED, notes/assumptions/28.md. -/
def execPodFlitReceive (port : Fin 12) (f : PodFlit) (s : State) : Out :=
  let x := getPort s port.val
  if !x.up then .next s
  else if !f.crcOk then
    (if 7 ≤ x.retries then
      .next { setPort s port.val { x with up := false, down := true, retries := 8 } with
        host := { s.host with hazelErr := s.host.hazelErr ++ [(1024, port.val)] } }
    else .next (setPort s port.val { x with retries := x.retries + 1 }))
  else
    let s1 := setPort s port.val { x with retries := 0 }
    let s2 := if s.boot.leader = some f.fromPod then { s1 with boot := { s1.boot with lastFlit := s.clock } } else s1
    let st := smGet ({} : Stream) s.host.streams f.stream
    if s.boot.startStep ≤ portStart + port.val ∨ nsHas x.closed f.stream ∨ st.linkFault ∨ !st.keyed then .next s2
    else if f.endsGroup && !f.macOk then
      let s3 := setPort s2 port.val { getPort s2 port.val with closed := nsAdd x.closed f.stream }
      .next { s3 with host := { s3.host with streams := smPut s3.host.streams f.stream { st with linkFault := true } } }
    else
      let s3 := if f.poisoned then
        { s2 with host := { s2.host with log := s2.host.log ++ [.refused s.clock ccIntegrity 2 0 3 0 0] } } else s2
      .next (match f.endsGroup, streamPart s f.stream with
        | true, some p => meter s3 p mLinkb (16 * 242)
        | _, _ => s3)

/-! ### The contexts of harts in sealed frames (R411, R412) -/

/-- Where the context of a hart goes: a page of the last 4 MiB of the shadow area beside its partition's first meadow, which a
swap leaves free (R423). DESIGN CHOICE, notes/assumptions/32.md. -/
def hartPage (s : State) (i : Nat) : Option Nat :=
  let p := (enclPart s (getHart s i).encl).getD 0
  (List.range 8).findSome? fun m => ((shadowPages s p m).drop 14)[i / 512]?.map fun f => (f + i % 512) * 4096

/-- A hart is paused, and its context goes to sealed frames under its enclave's key. -/
def sealHart (s : State) (i : Nat) : State :=
  let h := getHart s i
  match h.img, hartPage s i with
  | none, some pa => setHart (writeFree s (enclAsid s h.encl) pa (i * 4096) 4096) i { h with paused := true, img := some pa }
  | _, _ => setHart s i { h with paused := true }

/-- A hart resumes from its context; one whose image fails its check does not, and the security log says so (R406). -/
def resumeHart (s : State) (i : Nat) : State :=
  let h := getHart s i
  match h.img with
  | none => setHart s i { h with paused := false }
  | some pa =>
    if (blocksOf 64 pa 4096).any (keyedBad s (enclAsid s h.encl)) then
      { s with host := { s.host with log := s.host.log ++ [.refused s.clock ccIntegrity 3 0 2 0 pa] } }
    else setHart s i { h with paused := false, img := none }

def sealHarts (s : State) : State := (s.harts.map (·.1)).foldl sealHart s
def resumeHarts (s : State) : State := (s.harts.map (·.1)).foldl resumeHart s

/-! ### The staggered start (R32, R296) -/

/-- The delay in ns before unit i leaves reset, after the one before it: HBM4E stacks (0 to 7), LPDDR-6 groups (to 13), Hazel
cores (to 21), general-core groups (to 29), core waves (to 157), pod link ports (to 169). -/
def startDelay (i : Nat) : Nat :=
  if i < 8 then (if i = 0 then 0 else 20000)
  else if i < 14 then (if i = 8 then 0 else 10000)
  else if i < 22 then (if i = 14 then 0 else 5000)
  else if i < 30 then (if i = 22 then 0 else 5000)
  else if i < 158 then (if i = 30 then 0 else if (i - 30) % 16 = 0 then 10000 else 2000)
  else (if i = 158 then 0 else 10000)

/-- Whether the firmware that unit i needs has been accepted. -/
def startImage (b : Boot) (i : Nat) : Bool :=
  b.rowan.isSome && (decide (i < 14) || b.hazel.isSome) && (decide (i < 22) || b.runtime.isSome)

/-- A core leaves reset, and Hazel writes its first quantum. -/
def startCore (s : State) (c : Nat) : State :=
  let q := Config.quantum c (effectiveLimit s)
  modCore s c fun x => { x with up := true, budget := q, quantum := q.toNat, hazelQ := q.toNat }

/-- STAGGERED_START_STEP (R32): the next unit leaves reset. -/
def execStaggeredStartStep (s : State) : Out :=
  let i := s.boot.startStep
  if 170 ≤ i ∨ s.boot.asleep ∨ !startImage s.boot i ∨ s.clock < s.boot.startAt + startDelay i then .next s
  else
    let s1 := { s with boot := { s.boot with startStep := i + 1, startAt := s.clock, hostBoot := s.boot.hostBoot && decide (i < 14) } }
    if i = 29 then .next (if s.boot.hazelHalted then s1 else resumeHarts s1)
    else if 30 ≤ i ∧ i < 158 then
      let first := (i - 30) / 16 * 128 + (i - 30) % 16 * 8
      .next ((rangeFrom first 8).foldl startCore s1)
    else .next s1

/-! ### RCMD: COMMIT and LLAUNCH (R410, R411, R414) -/

/-- A command that meets BUSY is refused (R410). -/
def rcmdRefuse (s : State) : State := { s with host := { s.host with rcmdResult := 0x03 } }
def rcmdDone (s : State) (r : Nat) : State := { s with host := { s.host with rcmdBusy := false, rcmdResult := r } }

/-- One counter is raised to an SVN, by increments in ascending pair order. DESIGN CHOICE, notes/assumptions/27.md. -/
def raiseCounter (s : State) (ctr : Nat) (a : Option Accepted) : State :=
  match a with
  | none => s
  | some x => (blowPairs ctr (rangeFrom (fuseCounter s ctr) (Nat.min x.svn 64 - fuseCounter s ctr)) s).1

/-- COMMIT (R414). -/
def execCommit (s : State) : Out :=
  if !pf0Up s then .next s
  else if s.host.rcmdBusy then .next (rcmdRefuse s)
  else
    let b := s.boot
    .next (rcmdDone (raiseCounter (raiseCounter (raiseCounter s 0 b.rowan) 1 b.hazel) 2 b.runtime) 0)

/-- The image of a kind that the mailbox holds. -/
def mailImage (b : Boot) (kind : Nat) : Option (List Byte) := b.mailbox.find? fun x => decide (imgKind x = kind)

/-- The images that the host brings to the mailbox together with a command. -/
def putImages (s : State) (l : List (Option (List Byte))) : State := (l.filterMap id).foldl putMailbox s

/-- LLAUNCH (R411, steps 1 and 2), with the images that the host puts in its mailbox for it: Hazel halts, the new images are taken
from the mailbox, and the harts are paused; the images are checked and Hazel restarts at the end of the sequence, at most 30 ms
later. DEDUCED, notes/assumptions/25.md. -/
def execLlaunch (hazel runtime : Option (List Byte)) (s0 : State) : Out :=
  let s := putImages s0 [hazel, runtime]
  if !pf0Up s0 then .next s0
  else if s.host.rcmdBusy then .next (rcmdRefuse s)
  else
    .next (sealHarts { s with
      host := { s.host with rcmdBusy := true }
      boot := { s.boot with
        hazelHalted := true, haltLimit := effectiveLimit s, haltEnd := s.clock + Config.llaunchTime s.n % 30000001
        newImages := (mailImage s.boot 1, mailImage s.boot 2)
        mailbox := s.boot.mailbox.filter fun x => decide (imgKind x = 0) } })

/-- Checks a new image: the image then current, and whether it was refused. -/
def launchImage (s : State) (kind : Nat) (new : Option (List Byte)) (old : Option Accepted) : Option Accepted × Bool :=
  match new with
  | none => (old, false)
  | some img => if imageOk s kind img then (some (acceptedOf img), false) else (old, true)

/-- The rest of LLAUNCH (R411, steps 3 to 5). -/
def finishLlaunch (s : State) : State :=
  let h := launchImage s 1 s.boot.newImages.1 s.boot.hazel
  let r := launchImage s 2 s.boot.newImages.2 s.boot.runtime
  let s1 := { s with
    boot := { s.boot with hazel := h.1, runtime := r.1, hazelHalted := false, newImages := (none, none) }
    lateLaunches := s.lateLaunches + 1 }
  rcmdDone (if s1.boot.startStep < 30 then s1 else resumeHarts s1) (if h.2 || r.2 then 0x01 else 0x00)

end Sys2Proof.Machine
end

