-- ==== Sys2Proof/Machine/CrossLane.lean ====
section
/-! DEFINITION. Cross-lane instructions: class 0x8 (R183 to R189). -/
namespace Sys2Proof.Machine

/-- Writes an s register of a warp. -/
def putS (s : State) (w r : Nat) (v : W64) : State := modWarp s w fun x => wrS x r v

/-- Whether a lane of a warp is among the acting threads. -/
def laneActive (acting : List Nat) (w lane : Nat) : Bool := acting.any fun t => decide (t = w * 32 + lane)

/-- The source lane of `shfl` (R186). -/
def shflSrc (m : ShflMode) (i : Nat) (b : W32) : Nat :=
  let amt := b.toNat % 32
  let g := Nat.min (b.toNat / 32 % 8) 5
  let base := i - i % 2 ^ g
  match m with
  | .pick => amt
  | .rot => base + (i + amt) % 2 ^ g
  | .mirror => base + (2 ^ g - 1 - i % 2 ^ g)

/-- shfl (R186). -/
def execShfl (h : Hdr) (f : ShflForm) (s : State) : Out :=
  match f with
  | .lanes m d a b =>
    let r := srcRegs [a, b] []
    runWord { guard := h.guard, la := h.la.toNat, reads := r.1, sreads := r.2, writes := [d.toNat], cross := true }
      (fun w _ acting => .go s (acting.map fun t =>
        let j := shflSrc m (laneOf t) (rd32 s t b)
        (t, { w := [(d.toNat, rd32 s (if laneActive acting w j then w * 32 + j else t) a)] }))) s
  | .pickU d a b =>
    let r := srcRegs [a, uSrc b] []
    runWord { guard := h.guard, la := h.la.toNat, reads := r.1, sreads := r.2, swrites := [d.toNat], cross := true, uniform := true }
      (fun w _ acting =>
        let t0 := acting.headD 0
        let j := (rd32 s t0 (uSrc b)).toNat % 32
        let v := if laneActive acting w j then (rd32 s (w * 32 + j) a).zeroExtend 64 else 0
        .go (putS s w d.toNat v) []) s

/-- The mask of acting lanes that hold q (R187). -/
def voteMask (s : State) (acting : List Nat) (q : POp) : BitVec 32 := maskOf (acting.filter fun t => rdPOp s t q)

/-- vote (R187). -/
def execVote (h : Hdr) (f : VoteForm) (p : PReg) (q : POp) (s : State) : Out :=
  let srcs := match f with
    | .atl b => [uSrc b]
    | .atm b => [uSrc b]
    | .unan => []
  let r := srcRegs srcs []
  runWord { guard := h.guard, la := h.la.toNat, reads := r.1, sreads := r.2, cross := true, preds := pReads q } (fun _ _ acting =>
    let m := popW (voteMask s acting q)
    let t0 := acting.headD 0
    let v := match f with
      | .atl b => decide ((rd32 s t0 (uSrc b)).toNat ≤ m)
      | .atm b => decide (m ≤ (rd32 s t0 (uSrc b)).toNat)
      | .unan => decide (m = 0) || decide (m = acting.length)
    .go s (acting.map fun t => (t, { p := [(p.val, v)] }))) s

/-- ballot (R187). -/
def execBallot (h : Hdr) (f : BallotForm) (q : POp) (s : State) : Out :=
  let lanes (d : WReg) (b : Src) (g : Nat → BitVec 32 → W32 → W32) : Out :=
    let r := srcRegs [b] []
    runWord { guard := h.guard, la := h.la.toNat, reads := r.1, sreads := r.2, writes := [d.toNat], cross := true, preds := pReads q }
      (fun _ _ acting => .go s (acting.map fun t =>
        (t, { w := [(d.toNat, g t (voteMask s acting q) (rd32 s t b))] }))) s
  let uni (d : SReg) (b : USrc) (g : BitVec 32 → W32 → W32) : Out :=
    let r := srcRegs [uSrc b] []
    runWord { guard := h.guard, la := h.la.toNat, reads := r.1, sreads := r.2, swrites := [d.toNat], cross := true, preds := pReads q, uniform := true }
      (fun w _ acting =>
        .go (putS s w d.toNat ((g (voteMask s acting q) (rd32 s (acting.headD 0) (uSrc b))).zeroExtend 64)) []) s
  match f with
  | .mask d b => lanes d b fun _ m x => m &&& x
  | .rank d b => lanes d b fun t m x => BitVec.ofNat 32 (popUpTo (m &&& x) (laneOf t))
  | .cnt d b => lanes d b fun _ m x => BitVec.ofNat 32 (popW (m &&& x))
  | .maskU d b => uni d b fun m x => m &&& x
  | .cntU d b => uni d b fun m x => BitVec.ofNat 32 (popW (m &&& x))

/-! ### Reductions and scans (R188) -/

/-- The identity of an operation (R188). -/
def reduxId (op : ReduxOp) : W32 :=
  match op with
  | .add | .maxZ | .or | .xor => 0
  | .minS => 0x7FFFFFFF
  | .maxS => 0x80000000
  | .minZ | .and => 0xFFFFFFFF
  | .fadd => 0x80000000
  | .fmin | .fmax => nan32

/-- One combination of a running value with a lane's value. -/
def reduxStep (op : ReduxOp) (x y : W32) : W32 :=
  match op with
  | .add => x + y
  | .minS => iMin .s x y
  | .maxS => iMax .s x y
  | .minZ => iMin .z x y
  | .maxZ => iMax .z x y
  | .and => x &&& y
  | .or => x ||| y
  | .xor => x ^^^ y
  | .fadd => (fadd32 .rne x y).1
  | .fmin => (fmin32 x y).1
  | .fmax => (fmax32 x y).1

/-- The combined value of a list in ascending lane order, and the flags: a NaN result sets NAN. -/
def reduxAll (op : ReduxOp) (l : List W32) : W32 × W32 :=
  let v := l.foldl (reduxStep op) (reduxId op)
  match op with
  | .fadd | .fmin | .fmax => if isNan32 v then (nan32, flNan) else (v, 0)
  | _ => (v, 0)

/-- A reduction's operand: FP32 for the floating operations. DEDUCED, notes/assumptions/39.md. -/
def rdRedux (s : State) (t : Nat) (op : ReduxOp) (a : Src) : W32 :=
  match op with
  | .fadd | .fmin | .fmax => rdSrc s t .bits (.flt 32) a
  | _ => rd32 s t a

/-- redux (R188). -/
def execRedux (h : Hdr) (op : ReduxOp) (d : ReduxDst) (a : Src) (s : State) : Out :=
  let r := srcRegs [a] []
  match d with
  | .w d =>
    runWord { guard := h.guard, la := h.la.toNat, reads := r.1, sreads := r.2, writes := [d.toNat], cross := true }
      (fun _ _ acting =>
        let v := reduxAll op (acting.map fun t => rdRedux s t op a)
        .go s (acting.map fun t => (t, { w := [(d.toNat, v.1)], fl := v.2 }))) s
  | .s d =>
    runWord { guard := h.guard, la := h.la.toNat, reads := r.1, sreads := r.2, swrites := [d.toNat], cross := true, uniform := true }
      (fun w _ acting =>
        let v := reduxAll op (acting.map fun t => rdRedux s t op a)
        .go (putS s w d.toNat (v.1.zeroExtend 64)) (acting.map fun t => (t, { fl := v.2 }))) s

/-- The lanes whose values enter a lane's prefix. -/
def scanLanes (excl : Bool) (acting : List Nat) (t : Nat) : List Nat :=
  acting.filter fun u => if excl then decide (u < t) else decide (u ≤ t)

/-- scan (R188). -/
def execScan (h : Hdr) (op : ReduxOp) (excl : Bool) (d : WReg) (a : Src) (s : State) : Out :=
  let r := srcRegs [a] []
  runWord { guard := h.guard, la := h.la.toNat, reads := r.1, sreads := r.2, writes := [d.toNat], cross := true }
    (fun _ _ acting => .go s (acting.map fun t =>
      let v := reduxAll op ((scanLanes excl acting t).map fun u => rdRedux s u op a)
      (t, { w := [(d.toNat, v.1)], fl := v.2 }))) s

/-- The mode of `match` (R189) over the acting lanes of a lane's group, in ascending order. -/
def matchVal (m : MatchMode) (group : List Nat) (t : Nat) : W32 :=
  match m with
  | .lead => BitVec.ofNat 32 (laneOf (group.headD t))
  | .cnt => BitVec.ofNat 32 group.length
  | .rank => BitVec.ofNat 32 (group.filter fun u => decide (u < t)).length

/-- match (R189). -/
def execMatchLanes (h : Hdr) (m : MatchMode) (d : WReg) (a : MatchSrc) (s : State) : Out :=
  let r := match a with
    | .w32 a => srcRegs [a] []
    | .w64 a => srcRegs [] [a]
  let val (t : Nat) : W64 := match a with
    | .w32 a => (rd32 s t a).zeroExtend 64
    | .w64 a => rd64 s t a
  runWord { guard := h.guard, la := h.la.toNat, reads := r.1, sreads := r.2, writes := [d.toNat], cross := true }
    (fun _ _ acting => .go s (acting.map fun t =>
      (t, { w := [(d.toNat, matchVal m (acting.filter fun u => decide (val u = val t)) t)] }))) s

end Sys2Proof.Machine
end

