-- ==== Sys2Proof/Machine/Copy.lean ====
section
/-! DEFINITION. Copy and ring words: class 0xC without the work queues (R315 to R327). -/
namespace Sys2Proof.Machine

/-- A word refused in its acting threads (R315). -/
def refuse (s : State) (acting : List Nat) (c : Nat) : Own := .traps (acting.map fun t => (t, preciseTrap c (getTh s t).pc))

/-! ### Open cards (R316, R317) -/

/-- The warp's open card, opened when there is none and the queue has room (R314). -/
def openCardOf (s : State) (w k : Nat) : Option (State × Nat) :=
  match (getWarp s w).openCard with
  | some n => some (s, n)
  | none =>
    if queueRoom s k then
      let n := freeNum (getCore s (w / 64))
      let s1 := modCore s (w / 64) fun c => { c with jobs := c.jobs ++ [newJob n (k % 4) (w % 64) .copy] }
      some (modWarp s1 w fun x => { x with openCard := some n }, n)
    else none

/-- Whether a coded address breaks the roles of R309, for a team: as a source, or as a destination. -/
def roleBad (tm : Team) (dst : Bool) (addr : Nat) : Bool :=
  match decodeCoded addr with
  | .bad => true
  | .slot _ => !dst
  | .buf r _ =>
    (match getRec tm r with
      | none => true
      | some d => if dst then decide (dKind d = kCb) else decide (dKind d = kWb))
  | _ => false

/-- The record a coded address names. -/
def codedRec (addr : Nat) : List Nat :=
  match decodeCoded addr with
  | .buf r _ => [r]
  | _ => []

def cpyBytes : CpyW → Nat
  | .b4 => 4
  | .b8 => 8
  | .b16 => 16

/-- The lane transfers a core holds (R308). -/
def laneStore (c : Core) : Nat := (c.jobs.map fun j => j.xfers.length).foldl (· + ·) 0

/-- cpy (R316). -/
def execCpy (h : Hdr) (n : CpyW) (dst src : Src64) (s : State) : Out :=
  let r := srcRegs [] [dst, src]
  runWord { guard := h.guard, la := h.la.toNat, reads := r.1, sreads := r.2 } (fun w _ acting =>
    let k := teamOfWarp s w
    let tm := getTeam s k
    let d (t : Nat) := (rd64 s t dst).toNat
    let a (t : Nat) := (rd64 s t src).toNat
    let full := match (getWarp s w).openCard.bind (getJob s (w / 64)) with
      | some j => decide (32 ≤ j.ncpy)
      | none => false
    if namesPending s k acting (acting.flatMap fun t => codedRec (d t) ++ codedRec (a t)) [] then .stall
    else if full || acting.any fun t => roleBad tm true (d t) || roleBad tm false (a t) then refuse s acting ccBadRsv
    else if 4096 < laneStore (getCore s (w / 64)) + acting.length then .stall
    else match openCardOf s w k with
      | none => .stall
      | some (s1, num) =>
        .go (modJob s1 (w / 64) num fun j =>
          { j with
            ncpy := j.ncpy + 1
            xfers := j.xfers ++ acting.map fun t => ⟨rd64 s t dst, rd64 s t src, cpyBytes n⟩ }) []) s

/-- cpyo (R317): it acts for the whole warp, and traps with UNIFORM_DIVERGED as a uniform word does. -/
def execCpyo (h : Hdr) (d : SReg) (s : State) : Out :=
  runWord { guard := h.guard, la := h.la.toNat, swrites := [d.toNat], uniform := true } (fun w _ _ =>
    match openCardOf s w (teamOfWarp s w) with
    | none => .stall
    | some (s1, n) => .go (putS s1 w d.toNat (BitVec.ofNat 64 n)) []) s

/-! ### Posting (R310 to R312, R318) -/

/-- Whether a block field breaks R310. -/
def blockBad (c : List Byte) (b : Nat) : Bool :=
  decide (cLen c b % 16 ≠ 0) || decide (cLen c b < 16) || decide (0x1000000 < cLen c b) || decide (cRows c b = 0)
    || decide (65535 < cRows c b) || decide (cSstr c b % 16 ≠ 0) || decide (cDstr c b % 16 ≠ 0)

/-- Whether a region is malformed, names a record wrongly, or lies in the ring-slot space. -/
def regionBad (tm : Team) (c : List Byte) (i : Nat) : Bool :=
  decide (cRlen c i = 0) || decide (cardNat c (0x8C + 0x10 * i) 4 ≠ 0) || roleBad tm (decide (4 ≤ i)) (cRaddr c i)
    || (match decodeCoded (cRaddr c i) with
      | .slot _ => true
      | _ => false)

def isSlot (addr : Nat) : Bool :=
  match decodeCoded addr with
  | .slot _ => true
  | _ => false
def inScratch (addr : Nat) : Bool :=
  match decodeCoded addr with
  | .sp _ => true
  | .slot _ => true
  | _ => false

/-- The destinations and the sources of a card's transfers. -/
def cardDsts (j : Job) (c : List Byte) : List Nat := j.xfers.map (·.dst.toNat) ++ (rangeFrom 0 (cNblk c)).map (cDst c)
def cardSrcs (j : Job) (c : List Byte) : List Nat := j.xfers.map (·.src.toNat) ++ (rangeFrom 0 (cNblk c)).map (cSrc c)

/-- Whether a hop of a relay cannot be reached (R312). -/
def hopBad (s : State) (k : Nat) (c : List Byte) (h : Nat) : Bool :=
  match hopTeam s k (cHop c h) with
  | none => true
  | some x => decide (cCmpl c = 1) && (decide ((getTeam s x).rings ≤ cRing c) || (getRing (getTeam s x) (cRing c)).isNone)

/-- Whether `cpyc` refuses a closing record with BAD_RSV (R312). A card whose transfers total 2^40 bytes or more is not refused:
DESIGN CHOICE, notes/assumptions/51.md. -/
def cardBad (s : State) (k : Nat) (j : Job) (c : List Byte) : Bool :=
  let tm := getTeam s k
  let ctl := cardCtl c
  let zero (off n : Nat) : Bool := decide (cardNat c off n = 0)
  decide (bitsOf ctl 63 62 ≠ 0) || decide (ctl % 2 ^ 40 ≠ 0) || !zero 8 8 || !zero 0x1F 1
    || (rangeFrom 1 15).any (fun h => decide (128 ≤ cardNat c (0x0F + h) 1))
    || decide (bitsOf (cardNat c 0x24 4) 3 2 ≠ 0) || decide (4096 ≤ cardNat c 0x24 4) || !zero 0x2C 4 || !zero 0x70 16
    || decide (2 < cNblk c) || decide (4 < cNread c) || decide (4 < cNwrite c)
    || (rangeFrom (cNblk c) (2 - cNblk c)).any (fun b => !zero (0x30 + 0x20 * b) 32)
    || (rangeFrom (cNread c) (4 - cNread c)).any (fun i => !zero (0x80 + 0x10 * i) 16)
    || (rangeFrom (4 + cNwrite c) (4 - cNwrite c)).any (fun i => !zero (0x80 + 0x10 * i) 16)
    || (decide (cCmpl c = 1) && (decide (tm.rings ≤ cRing c) || (getRing tm (cRing c)).isNone))
    || (decide (cCmpl c ≠ 1) && decide (cRing c ≠ 0)) || (decide (cCmpl c ≠ 2) && decide (cCmplAddr c ≠ 0))
    || (decide (cCmpl c ≠ 1) && (cardDsts j c).any isSlot)
    || (rangeFrom 0 (cNblk c)).any (fun b => blockBad c b || roleBad tm true (cDst c b) || roleBad tm false (cSrc c b))
    || (j.xfers.any fun x => roleBad tm true x.dst.toNat || roleBad tm false x.src.toNat)
    || (cReads c ++ cWrites c).any (regionBad tm c)
    || (decide (0 < cNrelay c) && ((cardDsts j c).any (fun d => !inScratch d) || (rangeFrom 1 (cNrelay c)).any (hopBad s k c)))
    || (cFollow c && (mmaCheck s k (cFollowT c) (cFollowA c) (cFollowB c) (cFollowC c)).isNone)

/-- Whether a source of a card names a CB record whose token is UNIT, or its follow-on lacks the token (R312). -/
def cardToken (s : State) (k : Nat) (j : Job) (c : List Byte) : Bool :=
  let tm := getTeam s k
  ((cardSrcs j c ++ (cReads c).map (cRaddr c)).any fun a => (codedRec a).any fun r =>
    match getRec tm r with
    | some d => decide (dKind d = kCb) && tokenUnit s (k / 4) (recTile d)
    | none => false) || (cFollow c && !tokenUnit s (k / 4) (cFollowT c))

/-- Whether a card may claim its ring's next slot (R320): no earlier card of the ring waits, and the ring is not full. -/
def mayClaim (s : State) (core k : Nat) (j : Job) : Bool :=
  match getRing (getTeam s k) (cRing j.card) with
  | none => false
  | some r => !ringFull r && (getCore s core).jobs.all fun e =>
      !(e.posted && decide (e.kind = .copy) && decide (e.tslot = j.tslot) && decide (cCmpl e.card = 1) &&
        decide (cRing e.card = cRing j.card) && decide (e.order < j.order) && (smFind? e.slots 0).isNone)

/-- Claims the ring slot of hop h of a job in a team's ring (R320, R321). -/
def claimSlot (s : State) (core k : Nat) (j : Job) (h : Nat) : State :=
  match getRing (getTeam s k) (cRing j.card) with
  | none => s
  | some r =>
    let x := ringClaim r
    modJob (setRing s k (cRing j.card) x.1) core j.num fun j => { j with slots := smPut j.slots h x.2 }

/-- The tiles of the CB records that coded addresses name. -/
def codedTiles (tm : Team) (addrs : List Nat) : List Nat :=
  (addrs.flatMap codedRec).filterMap fun r => match smFind? tm.recs r with
    | some d => if dKind d = kCb then some (recTile d) else none
    | none => none

/-- Whether an `rinit` of a ring waits: the words after it that name the ring wait for it. -/
def ringPending (s : State) (k q : Nat) : Bool := (getTeam s k).matPend.any fun m =>
  match m.op with
  | .rinit r _ _ _ => decide (r = q)
  | _ => false

/-- cpyc (R318). -/
def execCpyc (h : Hdr) (a : USrc) (s : State) : Out :=
  let r := srcRegs [uSrc a] []
  runWord { guard := h.guard, la := h.la.toNat, reads := r.1, sreads := r.2, access := true } (fun w l acting =>
    let k := teamOfWarp s w
    let core := w / 64
    let t0 := acting.headD 0
    let sa := (rd32 s t0 (uSrc a)).toNat
    if l.any fun t => !resolved (getTh s t) then .stall
    else match openCardOf s w k with
      | none => .stall
      | some (s1, num) =>
        match spLocalPlain s k sa 256, getJob s1 core num with
        | some phys, some j =>
          let c := spReadPlain s core phys 256
          let addrs := cardDsts j c ++ cardSrcs j c ++ (cReads c ++ cWrites c).map (cRaddr c)
          let recs := addrs.flatMap codedRec ++ (if cFollow c then [cFollowA c, cFollowB c] else [])
          if namesPending s k acting recs ((if cFollow c then [cFollowT c] else []) ++ codedTiles (getTeam s k) addrs)
              || (decide (cCmpl c = 1) && ringPending s k (cRing c)) then .stall
          else if sa % 256 ≠ 0 ∨ cardBad s k j c then refuse s acting ccBadRsv
          else if cardToken s k j c then refuse s acting ccAccToken
          else
            let ord := (getCore s1 core).order
            let s2 := modJob s1 core num fun j =>
              { j with
                card := c, card0 := c, posted := true, order := ord, state := if cHold c then .held else .queued,
                lane := laneOf t0, pc := (getTh s t0).pc }
            let s3 := modWarp (modCore s2 core fun x => { x with order := ord + 1 }) w fun x => { x with openCard := none }
            match getJob s3 core num with
            | some j' => .go (if cCmpl c = 1 ∧ mayClaim s3 core k j' then claimSlot s3 core k j' 0 else s3) []
            | none => .go s3 []
        | _, _ => refuse s acting ccBadRsv) s

/-! ### Held cards (R319) -/

/-- The held card of a team that a job number names. -/
def heldCard (s : State) (core k num : Nat) : Option Job :=
  match getJob s core num with
  | some j => if j.state = .held ∧ j.tslot = k % 4 then some j else none
  | none => none

/-- A card with a 4-byte field replaced. -/
def putCard (c : List Byte) (off v : Nat) : List Byte := c.take off ++ bytesOfNat 4 v ++ c.drop (off + 4)

/-- The card a `patch` leaves, or none where it is refused. -/
def patchCard (j : Job) (b v : Nat) : Option (List Byte) :=
  let c := j.card
  if b < 4 then
    let blk := b / 2
    let c' := putCard c (0x40 + 0x20 * blk + 4 * (b % 2)) v
    if cNblk c ≤ blk ∨ blockBad c' blk then none else some c'
  else if 8 ≤ b ∧ b ≤ 15 then
    let i := b - 8
    if !((cReads c ++ cWrites c).any fun x => decide (x = i)) ∨ v = 0 ∨ cRlen j.card0 i < v then none
    else some (putCard c (0x88 + 0x10 * i) v)
  else none

/-- patch (R319). -/
def execPatch (h : Hdr) (a b c : USrc) (s : State) : Out :=
  let r := srcRegs [uSrc a, uSrc b, uSrc c] []
  runWord { guard := h.guard, la := h.la.toNat, reads := r.1, sreads := r.2 } (fun w _ acting =>
    let t := acting.headD 0
    let num := (rd32 s t (uSrc a)).toNat
    let core := w / 64
    match heldCard s core (teamOfWarp s w) num with
    | none => refuse s acting ccBadRsv
    | some j =>
      match patchCard j (rd32 s t (uSrc b)).toNat (rd32 s t (uSrc c)).toNat with
      | none => refuse s acting ccBadRsv
      | some card => .go (modJob s core num fun j => { j with card := card }) []) s

/-- go (R319). -/
def execGo (h : Hdr) (a : USrc) (s : State) : Out :=
  let r := srcRegs [uSrc a] []
  runWord { guard := h.guard, la := h.la.toNat, reads := r.1, sreads := r.2 } (fun w _ acting =>
    let num := (rd32 s (acting.headD 0) (uSrc a)).toNat
    match heldCard s (w / 64) (teamOfWarp s w) num with
    | none => refuse s acting ccBadRsv
    | some _ => .go (modJob s (w / 64) num fun j => { j with state := .queued }) []) s

/-! ### Rings (R324 to R327) -/

/-- Whether a job of a team names a ring. -/
def jobRing (j : Job) (q : Nat) : Bool := j.posted && decide (j.kind = .copy) && decide (cCmpl j.card = 1) && decide (cRing j.card = q)

/-- The ring a packet names (R341). -/
def pRing (p : List Byte) : Nat := natOfBytes ((p.drop 0x18).take 8) % 16

/-- Whether a query of a team names a ring. -/
def queryRing (s : State) (k q : Nat) : Bool :=
  let mine (x : Query) : Bool := decide (x.core = k / 4) && decide (x.tslot = k % 4) && decide (x.ring = q)
  (s.heather.any fun h => h.2.admitQ.any mine || h.2.ctxs.any (fun c => mine c.2.q) || h.2.cancelled.any mine) ||
    (getTeam s k).matPend.any fun m => match m.op with
      | .qsub pkt _ _ _ _ _ => decide (pRing pkt = q)
      | _ => false

/-- Whether a relay job of another team of the grove may still claim a slot of a team's ring (R325). -/
def relayClaims (s : State) (k q : Nat) : Bool :=
  match getGrove s (getTeam s k).grove with
  | none => false
  | some g => g.teams.any fun x => decide (x ≠ k) && (getCore s (x / 4)).jobs.any fun j =>
      decide (j.tslot = x % 4) && jobRing j q && (rangeFrom 1 (cNrelay j.card)).any fun h =>
        decide (hopTeam s x (cHop j.card h) = some k) && (smFind? j.slots h).isNone && decide (j.hop ≤ h)

/-- Whether a job, a query or a relay of another team of the grove still names a team's ring (R325). -/
def ringNamed (s : State) (k q : Nat) : Bool :=
  ((getCore s (k / 4)).jobs.any fun j => decide (j.tslot = k % 4) && jobRing j q) || queryRing s k q || relayClaims s k q

/-- The `rinit` words whose rings are named no longer take effect (R325). -/
def endRinits (s : State) : State :=
  s.teams.foldl (fun s x => x.2.matPend.foldl (fun s m =>
    match m.op with
    | .rinit q base sz ln =>
      if ringNamed s x.1 q then s
      else modTeam (setRing s x.1 q { sz := sz, ln := ln, base := base }) x.1 fun y =>
        { y with matPend := y.matPend.filter fun o => decide (o ≠ m) }
    | _ => s) s) s

/-- rinit (R325): it completes once its ring is named no longer. -/
def execRinit (h : Hdr) (n : Fin 16) (a b : USrc) (s : State) : Out :=
  let r := srcRegs [uSrc a, uSrc b] []
  runWord { guard := h.guard, la := h.la.toNat, reads := r.1, sreads := r.2 } (fun w _ acting =>
    let k := teamOfWarp s w
    let t := acting.headD 0
    let base := (rd32 s t (uSrc a)).toNat
    let cfg := (rd32 s t (uSrc b)).toNat
    let sz := cfg % 16
    let ln := cfg / 16 % 16
    if (getTeam s k).rings ≤ n.val ∨ 256 ≤ cfg ∨ 12 < sz ∨ 12 < ln ∨ base % 2 ^ (sz + 4) ≠ 0
        ∨ (spLocalPlain s k base (2 ^ (sz + 4 + ln))).isNone then refuse s acting ccBadRsv
    else if ringPending s k n.val then .stall
    else if ringNamed s k n.val then
      .go (modTeam s k fun tm => { tm with matPend := tm.matPend ++ [matPendOf (.rinit n.val base sz ln) acting h.la.toNat 0] }) []
    else .go (setRing s k n.val { sz := sz, ln := ln, base := base }) []) s

/-- Slot n, counted modulo 2^16, is taken (R324, R326), once no earlier use of its place stands: its address, bit 0 set when its job ended with a fault. -/
def takeSlot (s : State) (w k q n d : Nat) : Option State :=
  match getRing (getTeam s k) q with
  | none => none
  | some r =>
    match decide ((n + 65536 - r.rptr) % 65536 < ringCap r), smFind? r.slots (n % ringCap r) with
    | true, some (.filled bad) =>
      some (putS (setRing s k q { r with slots := smPut r.slots (n % ringCap r) .taken }) w d
        (BitVec.ofNat 64 (slotAddr r n + (if bad then 1 else 0))))
    | _, _ => none

/-- await (R326). -/
def execAwait (g : Guard) (d : SReg) (n : Fin 16) (s : State) : Out :=
  runWord { guard := g, swrites := [d.toNat], uniform := true } (fun w l acting =>
    let k := teamOfWarp s w
    if ringPending s k n.val then .stall
    else match getRing (getTeam s k) n.val with
    | none => refuse s acting ccBadRsv
    | some r =>
      let slot := r.aptr
      let s1 := setRing s k n.val { r with aptr := (r.aptr + 1) % 65536 }
      match takeSlot s1 w k n.val slot d.toNat with
      | some s2 => .go s2 []
      | none => .go s1 (l.map fun t => (t, { wait := some (.await n.val slot d.toNat) }))) s

/-- AWAIT_TAKE (R326): the awaited slot has been filled. -/
def execAwaitTake (core wslot : Nat) (s : State) : Out :=
  let w := core * 64 + wslot
  let k := teamOfWarp s w
  let waiting := (warpThreads w).filterMap fun t =>
    match (getTh s t).wait with
    | some (.await q n d) => some (t, q, n, d)
    | _ => none
  match waiting with
  | [] => .next s
  | (_, q, n, d) :: _ =>
    match takeSlot s w k q n d with
    | none => .next s
    | some s1 => .next (waiting.foldl (fun s x => modTh s x.1 fun th => { th with wait := none, waitCount := 0 }) s1)

/-- rels (R327): the earlier accesses of its threads have performed. -/
def execRels (h : Hdr) (n : Fin 16) (a : USrc) (s : State) : Out :=
  let r := srcRegs [uSrc a] []
  runWord { guard := h.guard, la := h.la.toNat, reads := r.1, sreads := r.2 } (fun w _ acting =>
    let k := teamOfWarp s w
    let addr := (rd32 s (acting.headD 0) (uSrc a)).toNat / 2 * 2
    if ringPending s k n.val then .stall
    else match getRing (getTeam s k) n.val with
    | none => refuse s acting ccBadRsv
    | some r =>
      if acting.any fun t => !resolved (getTh s t) then .stall
      else
        match r.slots.find? fun x => decide (x.2 = .taken) && decide (slotAddr r x.1 = addr) with
        | none => .go s []
        | some x => .go (setRing s k n.val (ringAdvance (ringCap r) { r with slots := smPut r.slots x.1 .released })) []) s

end Sys2Proof.Machine
end

