-- ==== Sys2Proof/Machine/Agents.lean ====
section
/-! DEFINITION. The I/O die's home agent as a requester (R225, R384): what Rowan, the dispatcher, the general cores and the
fault-queue hardware read and write goes through it; the fault queues that hardware posts to (R328 to R331). -/
namespace Sys2Proof.Machine

/-! ### A whole transaction at a home (R225, R384, R386) -/

/-- An acknowledgement of a round that is under way reaches the home. -/
def forceAck (s : State) (g : Nat) (x : Owed) : State :=
  let m := match x.agent with
    | .meadow m => m
    | _ => 8
  let s1 := { s with
    msgs := s.msgs.filter fun y => !(decide (y.grain = g) && (decide (y.dest = x.agent) || decide (y.dest = .core x.who) ||
      (match y.dest with
        | .core c => decide (homeAgent g c = x.agent)
        | _ => false)))
    ackQ := s.ackQ.filter fun y => decide (y ≠ (g, x.agent))
    locked := if x.kind = .lock then nsAdd s.locked (lockKey g m) else nsDel s.locked (lockKey g m) }
  let s2 := match x.agent, x.kind with
    | .meadow m, .inval => putProxy s1 g m ((getProxy s1 g m).filter fun c => !((toTake s1 g [c]).any fun y => decide (y = c)))
    | .meadow m, .recall => putProxy s1 g m (nsDel (getProxy s1 g m) x.who)
    | _, _ => s1
  ackRound s2 g x.agent

/-- The rounds of a grain run to their end. -/
def settleGrain : Nat → State → Nat → State
  | 0, s, _ => s
  | n + 1, s, g =>
    match smFind? s.pends g with
    | none => s
    | some p =>
      match p.await with
      | [] => s
      | x :: _ => settleGrain n (forceAck s g x) g

/-- The rounds a grain can have to run: more than any that a home starts. -/
def settleFuel : Nat := 1024

/-- A request of a grain that nothing holds back. -/
def waitsHere (s : State) (g : Nat) (r : HomeReq) : Bool := decide (r.grain = g) && !writeHeld s r

/-- The rounds of a grain run to their end, and the requests that came before are taken one by one (R380, R386). -/
def drainGrain : Nat → State → Nat → State
  | 0, s, g => settleGrain settleFuel s g
  | n + 1, s, g =>
    let s1 := settleGrain settleFuel s g
    match s1.reqs.findIdx? (waitsHere s1 g) with
    | none => s1
    | some i =>
      let s2 := takeRequest s1 i (List.range 9)
      if s2.reqs.length < s1.reqs.length then drainGrain n s2 g else s1

/-- A grain whose earlier requests have been taken. -/
def drained (s : State) (g : Nat) : State := drainGrain (s.reqs.length + s.heldReqs.length) s g

/-- The INV event that takes a directory entry (R378). -/
def reclaimNow (s : State) (v : Nat) : State :=
  settleGrain settleFuel (homeEvent 4 s v evINV 3 ⟨evINV, v, ioAgent, true, true, (rangeFrom (v * 4) 4).map (2 * ·), .home, none⟩) v

/-- A request of no thread or job is taken and answered, after those that came before it and the rounds under way (R380). Where
a home holds it back, the step is tried again later. DEDUCED, notes/assumptions/21.md. -/
def homeNow (s : State) (g ev c : Nat) (lines : List Nat) : State :=
  let s1 := drained s g
  let rq : HomeReq := ⟨ev, g, c, decide (4 < ev), true, lines, .none, none⟩
  let rel := if ev ≤ 6 then relOf s1 g c else 3
  if writeHeld s1 rq || s1.reqs.any (waitsHere s1 g) || !homeRoom s1 g (eventEntry s1 g ev rel % 2 ^ 14) then { s1 with held := true }
  else
    let take (s : State) : State := homeEvent 4 s g ev rel rq
    match reclaim s1 g with
    | some v => if (smFind? (take s1).dir g).isNone then take s1 else settleGrain settleFuel (take (reclaimNow s1 v)) g
    | none => settleGrain settleFuel (take s1) g

/-- The fault, if any, with which a grain's protocol refuses a thread's, a hart's or the home agent's request (R385). -/
def homeFault (s : State) (g ev c : Nat) : Option Nat :=
  let s1 := drained s g
  let e := eventEntry s1 g ev (relOf s1 g c)
  if e / 2 ^ 23 % 2 = 1 then none
  else match e / 2 ^ 24 % 8 with
    | 0 => none
    | 1 => some ccGrainConflict
    | _ => some ccWriteOnce

/-- The event of a requester's access: LRD or LWR from the home's own meadow, RRD or RUP from another or the home agent. -/
def accessEvent (g c : Nat) (write : Bool) : Nat := if isLocal g c then (if write then 1 else 0) else if write then 3 else 2

/-- A requester's access of a line: a request when it has no copy of it for a read, or lacks M of its grain for a write. -/
def lineFor (c : Nat) (write : Bool) (s : State) (l : Nat) : State :=
  match rightOf s l c write with
  | .have => s
  | _ => homeNow s (l / 4) (accessEvent (l / 4) c write) c [2 * l]

/-- The fault of a requester's write of a range of bytes. -/
def faultFor (c : Nat) (s : State) (pa n : Nat) : Option Nat :=
  firstSome (fun g => if rightOf s (g * 4) c true = .have then none else homeFault s g (accessEvent g c true) c) (blocksOf 512 pa n)

/-- A requester's access of a range of bytes. -/
def touchFor (c : Nat) (s : State) (pa n : Nat) (write : Bool) : State :=
  if write then (blocksOf 512 pa n).foldl (fun s g => lineFor c true s (Nat.max (g * 4) (pa / 128))) s
  else (blocksOf 128 pa n).foldl (lineFor c false) s

/-- A requester's write of bytes: one that its protocol refuses changes nothing. -/
def putFor (c : Nat) (s : State) (pa : Nat) (bs : List Byte) : State :=
  match faultFor c s pa bs.length with
  | some _ => s
  | none => writeBytes (touchFor c s pa bs.length true) pa bs

/-- The home agent's own accesses: those of Rowan, the dispatcher, the general cores and the fault-queue hardware. -/
def ioTouch (s : State) (pa n : Nat) (write : Bool) : State := touchFor ioAgent s pa n write
def ioFault (s : State) (pa n : Nat) : Option Nat := faultFor ioAgent s pa n
def ioPut (s : State) (pa : Nat) (bs : List Byte) : State := putFor ioAgent s pa bs

/-- A write by Rowan, of its tables and of an enclave's pages. -/
def rowanWrite (s : State) (pa n v : Nat) : State := ioPut s pa (bytesOfNat n v)

/-- A whole grain is zeroed at its home and in its tier. Where the home refuses the write, its old data stay, under a tag that no
longer holds: its blocks read as poisoned. DEDUCED, notes/assumptions/21.md. -/
def zeroGrain (s : State) (g : Nat) : State :=
  match ioFault s (g * 512) 512 with
  | some _ => { s with poison := (rangeFrom (g * 8) 8).foldl nsAdd s.poison }
  | none => meterSpan (zeroRange (ioTouch s (g * 512) 512 true) (g * 512) 512) (g * 512) 512

/-- Rowan zeroes a run of whole grains: a write at each of their homes (R225, R371), metered as it reaches its tier (R431). -/
def ioZero (s : State) (pa n : Nat) : State := (blocksOf 512 pa n).foldl zeroGrain s

/-- An engine's whole-grain accesses of a range for a core (R384: ERD, EWR). -/
def engineTouch (c : Nat) (s : State) (pa n : Nat) (write : Bool) : State :=
  (blocksOf 512 pa n).foldl (fun s g => homeNow s g (if write then evEWR else evERD) c ((rangeFrom (g * 4) 4).map (2 * ·))) s

/-- Blocks of a page that fail the tag of the page's own stamp as they are read are poisoned and logged (R23). -/
def poisonHeld (s : State) (pa n : Nat) : State :=
  match smFind? s.stamps (potGov s (pa / 4096)) with
  | some (.tagged k v) => poisonBad s pa n k v
  | _ => s

/-- What becomes of a write by the home agent: done, refused with a cause, or held in the final pass of a migration (R375). -/
inductive IoRes where
  | done (s : State)
  | fault (code : Nat)
  | held

def ioWrite (s : State) (pa : Nat) (bs : List Byte) : IoRes :=
  if migrHolds s pa then .held
  else match ioFault s pa bs.length with
    | some c => .fault c
    | none => .done (noteSpoilt s (writeBytes (ioTouch s pa bs.length true) pa bs) pa bs.length)

/-- The state after the home agent has read bytes at a VA for a source of R441, and what it read: none where a check fails, which
the security log may say. -/
def ioReadVaBy (src : Nat) (s : State) (asid va n : Nat) : State × Option (List Byte) :=
  match readVa s asid va n, transNow s asid va .r with
  | some _, (.ok e, pa) =>
    let s1 := if e.mt = 1 then s else meterLines (ioTouch s (fwdPa s pa) n false) (fwdPa s pa) n
    (s1, readVa s1 asid va n)
  | _, _ => (noteNow s src asid va n .r, none)
def ioReadVa (s : State) (asid va n : Nat) : State × Option (List Byte) := ioReadVaBy 3 s asid va n

/-- A write at a VA by the home agent: none where a check fails, or a home refuses it. -/
def ioWriteVa (s : State) (asid va : Nat) (bs : List Byte) : Option State :=
  match transNow s asid va .w with
  | (.ok e, pa) =>
    let p := fwdPa s pa
    if e.mt = 1 then some s
    else if !paOk p ∨ (inWindow p ∧ !windowBacked s p) then none
    else match ioFault s p bs.length with
      | some _ => none
      | none => some (noteSpoilt s (writeBytes (ioTouch s p bs.length true) p bs) p bs.length)
  | _ => none

/-- The parts of a range that lie in one page each: VA and length. -/
def spanPieces (va n : Nat) : List (Nat × Nat) :=
  (blocksOf 4096 va n).map fun p => (Nat.max va (p * 4096), Nat.min (va + n) (p * 4096 + 4096) - Nat.max va (p * 4096))

/-- What the first refused access of a range leaves in the log of R441, or as poison (R23). -/
def noteSpan (s : State) (src asid va n : Nat) (need : Need) : State :=
  let bad (x : Nat × Nat) : Bool := if need = .r then (readVa s asid x.1 x.2).isNone else (match transNow s asid x.1 need with
    | (.ok _, _) => false
    | _ => true)
  match (spanPieces va n).find? bad with
  | some x => noteNow s src asid x.1 x.2 need
  | none => s

/-- The home agent's reads of a range of bytes at a VA, page by page. -/
def ioTouchVa (asid : Nat) : Nat → Nat → Nat → State → State
  | 0, _, _, s => s
  | fuel + 1, va, n, s =>
    if n = 0 then s
    else
      let k := Nat.min n (4096 - va % 4096)
      ioTouchVa asid fuel (va + k) (n - k) (ioReadVa s asid va k).1

def ioTouchSpan (s : State) (asid va n : Nat) : State := ioTouchVa asid (n / 4096 + 2) va n s

/-! ### Posting (R328, R329) -/

/-- The physical address of a VA for an agent of one step, where a write there is allowed; a kick page has none. -/
def nowPa (s : State) (asid va : Nat) : Option Nat :=
  match transNow s asid va .w with
  | (.ok e, pa) =>
    let p := fwdPa s pa
    if decide (e.mt ≠ 1) && paOk p && (!inWindow p || windowBacked s p) then some p else none
  | _ => none

/-- The header's place of an enclave's fault queue, which lies in its creator's space (R396). -/
def fqPlace (s : State) (e : Enclave) : Option (Nat × QHdr × Nat) :=
  match e.fqHdr with
  | none => none
  | some va =>
    let asid := enclAsid s e.creator
    match nowPa s asid va with
    | none => none
    | some pa => (readHdr s pa).map fun h => (pa, h, asid)

/-- The 32 bytes of an entry (R328). -/
def fqBytes (f : FqEntry) (seq : Nat) : List Byte :=
  bytesOfNat 8 (f.asid * 2 ^ 48 + f.kind * 2 ^ 45 + f.page) ++ bytesOfNat 8 f.lanes
    ++ bytesOfNat 8 (f.agent * 2 ^ 62 + f.merge * 2 ^ 32 + f.stack * 2 ^ 24 + f.jobq * 2 ^ 16 + f.wslot * 2 ^ 10 + f.core % 1024)
    ++ bytesOfNat 8 seq

/-- Posts the oldest entry that waits for room, when there is room (R329): the entry takes the next SEQ. -/
def fqPostOne (s : State) (id : Nat) : Option State :=
  match getEncl s id with
  | none => none
  | some e =>
    match e.fq.find? (fun f => f.pos.isNone), fqPlace s e with
    | some f, some (pa, _, asid) =>
      let s0 := ioTouch s pa 64 true
      match readHdr s0 pa with
      | none => none
      | some h =>
        if qFull h then none
        else match nowPa s0 asid (itemVa h h.tail) with
          | none => none
          | some ip =>
            let s1 := ioPut s0 ip (fqBytes f e.fqSeq)
            let s2 := ioPut (ioPut s1 (pa + 0x18) (bytesOfNat 8 (h.tail + 1))) (pa + 0x20) (bytesOfNat 8 (h.done + 1))
            let fq := e.fq.map fun x => if x = f then { x with pos := some h.tail } else x
            some (corePmc (setEncl s2 id { e with fq := fq, fqSeq := e.fqSeq + 1 }) (f.core % 1024) 5 1)
    | _, _ => none

/-- A translation-not-present fault reaches the queue of its enclave (R329): it merges into the pending entry of its page,
or forms one. -/
def fqFault (s : State) (f : FqEntry) : State :=
  let id := asidEncl (asidEntry s f.asid)
  match getEncl s id with
  | none => s
  | some e =>
    match e.fq.find? fun x => decide (x.asid = f.asid) && decide (x.page = f.page) with
    | some x =>
      let m := Nat.min (x.merge + 1) 0xFFFF
      let s1 := setEncl s id { e with fq := e.fq.map fun y => if y = x then { y with merge := m } else y }
      (match x.pos, fqPlace s1 e with
        | some i, some (_, h, asid) =>
          (match nowPa s1 asid (itemVa h i) with
            | some ip => ioPut s1 (ip + 20) (bytesOfNat 2 m)
            | none => s1)
        | _, _ => s1)
    | none =>
      let s1 := setEncl s id { e with fq := e.fq ++ [f] }
      if (e.fq.all fun x => x.pos.isSome) then (fqPostOne s1 id).getD s1 else s1

/-- FAULT_QUEUE_ROOM (R329): a waiting entry is posted once space frees. -/
def execFaultQueueRoom (encl : Nat) (s : State) : Out := .next ((fqPostOne s encl).getD s)

/-- Withdraws the pending entries of a page (R331): a posted item's AGENT becomes 3; a waiting entry is dropped. -/
def fqWithdraw (s : State) (asid page : Nat) : State :=
  let id := asidEncl (asidEntry s asid)
  match getEncl s id with
  | none => s
  | some e =>
    let mine (x : FqEntry) : Bool := decide (x.asid = asid) && decide (x.page = page)
    let s1 := setEncl s id { e with fq := e.fq.filter fun x => !mine x }
    (e.fq.filter mine).foldl (fun s x =>
      match x.pos, fqPlace s e with
      | some i, some (_, h, a) =>
        (match nowPa s a (itemVa h i) with
          | some ip => ioPut s (ip + 16) (bytesOfNat 8 (readNat s (ip + 16) 8 % 2 ^ 62 + 3 * 2 ^ 62))
          | none => s)
      | _, _ => s) s1

/-- An entry at a position has been taken by a `deq`: it is pending no more (R329). -/
def fqTaken (s : State) (hdrPa i : Nat) : State :=
  { s with encls := s.encls.map fun e =>
      match fqPlace s e.2 with
      | some (pa, _, _) => if pa = hdrPa then (e.1, { e.2 with fq := e.2.fq.filter fun x => decide (x.pos ≠ some i) }) else e
      | none => e }

end Sys2Proof.Machine
end

