-- ==== Sys2Proof/Machine/MemEvents.lean ====
section
/-! DEFINITION. The events of the memory pipeline: the drain of a store buffer, a load's and an atomic's performance, the
end of a walk, the waits at a granule, and range maintenance (R47, R222, R223, R236 to R242, R262, R272, R275, R363 to
R365). -/
namespace Sys2Proof.Machine

/-! ### One operation tries to perform -/

/-- Asks the home for what an access needs (R226, R384). -/
def askHome (s : State) (t j : Nat) (ev grain line : Nat) : State :=
  let c := coreOf t
  let s1 := setMopSt s t j .home
  let s2 := if evWrite ev then corePmc s1 c 8 1 else s1
  { s2 with reqs := s2.reqs ++ [⟨ev, grain, c, false, false, [2 * line], .thread t, none⟩] }

/-- An operation on global memory tries to perform. The order of its checks: DESIGN CHOICE, notes/assumptions/65.md. -/
def tryGlob (s : State) (t j : Nat) (o : MemOp) : Out :=
  let tm := getTeam s (teamOf s t)
  if o.addr % mopSize o.kind ≠ 0 then .next (mopFault s t j o ccAlign)
  else match mopTrans s t o with
    | .fault c => .next (mopFault s t j o c)
    | .miss =>
      (match walk s tm.asid o.addr (mopNeed o.kind) with
        | .fault c logged =>
          let s1 := corePmc s (coreOf t) 4 1
          .next (mopFault (if logged then logWalk s1 tm.asid o.addr (mopFaultKind o.kind) else s1) t j o c)
        | .badAddr pa => .fault (.noSuchAddress pa)
        | _ => .next (askWalk (corePmc (setMopSt s t j .walking) (coreOf t) 4 1) tm.asid (o.addr / 4096) (mopFaultKind o.kind)
            (.core (coreOf t))))
    | .hit e pa =>
      let p := transPa s e pa
      let write := !mopReads o.kind
      if e.mt = 1 then .next (performAt s t j o e p)
      else if !paOk p then .fault (.noSuchAddress p)
      else if inWindow p && !windowBacked s p then .next (mopFault s t j o ccPermission)
      else if write && migrHolds s p then .next s
      else match rightOf s (p / 128) (coreOf t) write with
        | .have => .next (performAt s t j o e p)
        | .wait => .next s
        | .ask ev => .next (askHome s t j ev (p / 512) (p / 128))

/-- An operation that stands ready tries to perform. -/
def tryMop (s : State) (t j : Nat) : Out :=
  match getMop s t j with
  | none => .next s
  | some o => if o.st ≠ .ready ∨ 1024 ≤ coreOf t then .next s else if o.glob then tryGlob s t j o else .next (performSp s t j o)

/-- Whether two operations of one word reach a common byte. -/
def sameBytes (s : State) (t : Nat) (o : MemOp) (u : Nat) (x : MemOp) : Bool :=
  match mopPlace s t o, mopPlace s u x with
  | some (a, i), some (b, k) => decide (a = b) && decide (i < k + mopSize x.kind) && decide (k < i + mopSize o.kind)
  | _, _ => decide (o.glob = x.glob) && decide (o.addr = x.addr)

/-- Whether a lower lane of the same word has still to perform on bytes that this operation reaches (R223, R262, R272). -/
def lowerLaneFirst (s : State) (t : Nat) (o : MemOp) : Bool :=
  (rangeFrom (warpOf t * 32) (laneOf t)).any fun u =>
    (getTh s u).mq.any fun x => decide (x.seq = o.seq) && decide (x.st ≠ .blocked) && sameBytes s t o u x

/-! ### Prefetch (R267) -/

/-- A prefetch of a thread: the line's grain is asked of its home, to read or in M, with nothing that waits for it; one that
would fault or wait on translation is dropped. -/
def prefetch (x : Bool) (addr : Nat → Nat) (s : State) (t : Nat) : State :=
  match lookup (threadTlb s t) (getTeam s (teamOf s t)).asid (addr t) (if x then .w else .r) with
  | .hit e pa =>
    let p := transPa s e pa
    if e.mt = 1 ∨ !paOk p ∨ (inWindow p ∧ !windowBacked s p) then s
    else match rightOf s (p / 128) (coreOf t) x with
      | .ask ev => { s with reqs := s.reqs ++ [⟨ev, p / 512, coreOf t, false, false, [2 * (p / 128)], .none, none⟩] }
      | _ => s
  | _ => s

/-- A prefetch word (R267): it changes no register and faults with nothing. -/
def pfWord (g : Guard) (la : Nat) (r : List Nat × List Nat) (x : Bool) (addr : Nat → Nat) (s : State) : Out :=
  runWord { guard := g, la := la, reads := r.1, sreads := r.2 } (fun _ _ acting => .go (acting.foldl (prefetch x addr) s) []) s

/-- pf, pf.x (R267). -/
def execPf (h : Hdr) (x : Bool) (base : Src64) (idx : Src) (off : BitVec 7) (s : State) : Out :=
  pfWord h.guard h.la.toNat (srcRegs [idx] [base]) x (fun t => globAddr s t base idx off) s

/-! ### Range maintenance (R275) -/

/-- The pages that [va, va + len) touches. -/
def pagesOf (va len : Nat) : List Nat := blocksOf 4096 va len

/-- A page's fault and its VA, if its walk refuses the operation, or its frame is another enclave's; a page not present is
skipped. -/
def maintFault (s : State) (asid va : Nat) (need : Need) (pages : List Nat) : Option (Nat × Bool × Nat) :=
  firstSome (fun p => match walk s asid (Nat.max va (p * 4096)) need with
    | .fault c logged => some (c, logged, Nat.max va (p * 4096))
    | .ok e => if e.mt ≠ 1 ∧ e.owner ≠ asidEncl (asidEntry s asid) then some (ccPotDeny, false, Nat.max va (p * 4096)) else none
    | _ => none) pages

/-- The lines of a page in a range that some cache may hold, as requests name them. -/
def maintLines (s : State) (k : MaintKind) (asid va len : Nat) (need : Need) (page : Nat) : List Nat :=
  match walk s asid (Nat.max va (page * 4096)) need with
  | .ok e =>
    if e.mt = 1 then []
    else (blocksOf 128 (Nat.max va (page * 4096)) (Nat.min (va + len) (page * 4096 + 4096) - Nat.max va (page * 4096))).filterMap fun l =>
      let p := fwdPa s (tlbPa e (l * 128))
      let whole := decide (va ≤ l * 128) && decide (l * 128 + 128 ≤ va + len)
      if (smFind? s.stale (p / 128)).isNone && (smFind? s.dir (p / 512)).isNone then none
      else some (2 * (p / 128) + (if k = .inval ∧ whole ∧ !inWindow p then 1 else 0))
  | _ => []

/-- A maintenance operation starts: a request for every grain with lines to treat. DEDUCED, notes/assumptions/22.md. -/
def startMaint (s : State) (t : Nat) (o : MemOp) (k : MaintKind) (len : Nat) : State :=
  let asid := (getTeam s (teamOf s t)).asid
  let need : Need := mopNeed o.kind
  let pages := pagesOf o.addr len
  match maintFault s asid o.addr need pages with
  | some (c, logged, va) => mopFault (if logged then logWalk s asid va (mopFaultKind o.kind) else s) t 0 { o with addr := va } c
  | none =>
    let lines := pages.flatMap (maintLines s k asid o.addr len need)
    let grains := (lines.map fun x => x / 2 / 4).foldl nsAdd []
    let ev := if k = .clean then evCLN else evINV
    let s1 := dropMop s t 0 o
    { s1 with
      maints := s1.maints ++ [⟨s.n, t, k, asid, o.addr, len, o.pc, some grains⟩]
      reqs := s1.reqs ++ grains.map fun g =>
        ⟨ev, g, coreOf t, true, true, lines.filter fun x => decide (x / 8 = g), .maint s.n, none⟩ }

/-- MAINTENANCE_COMPLETE (R275): the operation's write-backs and invalidations have landed. -/
def execMaintenanceComplete (i : Nat) (s : State) : Out :=
  match s.maints[i]? with
  | some m => if m.grains = some [] then .next { s with maints := s.maints.eraseIdx i } else .next s
  | none => .next s

/-! ### The events -/

/-- STORE_BUFFER_DRAIN (R236, R264, R275): the oldest operation of a thread, a store, an `stf` or a maintenance operation,
leaves its buffer. -/
def execStoreBufferDrain (t : Nat) (s : State) : Out :=
  match getMop s t 0 with
  | none => .next s
  | some o =>
    match o.kind with
    | .store _ => if lowerLaneFirst s t o then .next s else tryMop s t 0
    | .stf _ _ => if lowerLaneFirst s t o then .next s else tryMop s t 0
    | .maint k len => if o.st = .ready then .next (startMaint s t o k len) else .next s
    | _ => .next s

def isLoad (o : MemOp) : Bool :=
  match o.kind with
  | .load _ _ _ => true
  | .sld _ => true
  | .ldf _ _ => true
  | _ => false

/-- LOAD_RETURN (R149, R237, R264): the oldest load of a thread performs: with the store buffer empty, or, `.rlx`, from the
buffer or past it. -/
def execLoadReturn (t : Nat) (s : State) : Out :=
  let q := (getTh s t).mq
  match q.findIdx? isLoad with
  | none => .next s
  | some j =>
    match getMop s t j with
    | none => .next s
    | some o =>
      if o.st ≠ .ready then .next s
      else match o.kind with
        | .load _ rlx _ =>
          if j = 0 then tryMop s t 0
          else if !rlx || !(q.take j).all mayPass then .next s
          else if o.addr % mopSize o.kind ≠ 0 then .next (mopFault s t j o ccAlign)
          else (match forward s t o (q.take j) with
            | .memory => tryMop s t j
            | .wait => .next s
            | .bytes bs =>
              match o.kind with
              | .load w _ _ => .next (mopWrite s t j o (loadRegs w bs))
              | _ => .next s)
        | .sld _ =>
          let who := sldThreads s t o
          let first (u : Nat) : Bool := match getMop s u 0 with
            | some x => decide (x.kind = o.kind) && decide (x.step = o.step)
            | none => false
          if who.head? = some t ∧ who.all first then tryMop s t 0 else .next s
        | _ => if j = 0 ∧ !lowerLaneFirst s t o then tryMop s t 0 else .next s

/-- Whether an atomic first waits as `fence.rel.sys` does, and that wait is not over (R240). -/
def atomHeld (s : State) (t : Nat) (o : MemOp) : Bool :=
  match o.kind with
  | .atomic _ _ ord sc _ _ _ => decide (sc = .sys) && (decide (ord = .ar) || decide (ord = .rel)) && s.maints.any fun m => decide (m.thread = t)
  | .red _ _ ord sc _ => decide (sc = .sys) && (decide (ord = .ar) || decide (ord = .rel)) && s.maints.any fun m => decide (m.thread = t)
  | _ => false

/-- ATOMIC_PERFORM (R240, R270, R272): the oldest operation of a thread, an atomic or a reduction, performs. -/
def execAtomicPerform (t : Nat) (s : State) : Out :=
  match getMop s t 0 with
  | none => .next s
  | some o =>
    match o.kind with
    | .atomic _ _ _ _ _ _ _ => if lowerLaneFirst s t o || atomHeld s t o then .next s else tryMop s t 0
    | .red _ _ _ _ _ => if lowerLaneFirst s t o || atomHeld s t o then .next s else tryMop s t 0
    | _ => .next s

/-- LDF_WAKE (R222, R223): a waiting `ldf` whose granule is full, and whose turn it is, performs. -/
def execLdfWake (t : Nat) (s : State) : Out :=
  match getMop s t 0 with
  | some o =>
    (match o.kind with
      | .ldf _ _ => if o.st = .blocked then .next (performSp (setMopSt s t 0 .ready) t 0 { o with st := .ready }) else .next s
      | _ => .next s)
  | none => .next s

/-- STF_WAIT_WAKE (R222, R223): a waiting `stf.wait` whose granule is empty performs. -/
def execStfWaitWake (t : Nat) (s : State) : Out :=
  match getMop s t 0 with
  | some o =>
    (match o.kind with
      | .stf _ _ => if o.st = .blocked then .next (performSp (setMopSt s t 0 .ready) t 0 { o with st := .ready }) else .next s
      | _ => .next s)
  | none => .next s

/-! ### The end of a walk (R329, R363 to R365) -/

/-- A translation enters a cache; one that is full loses its oldest (R6, R364). DESIGN CHOICE, notes/assumptions/47.md. -/
def fillTlb (cap : Nat) (l : List TlbEntry) (e : TlbEntry) : List TlbEntry :=
  (e :: l.filter fun x => !(decide (x.asid = e.asid) && decide (x.vpn = e.vpn) && decide (x.bits = e.bits))).take cap
/-- A fill for a thread's issue slot: 64 entries in the slot's own cache, 4,096 in the core's second level. -/
def fillCore (s : State) (t : Nat) (e : TlbEntry) : State :=
  modCore s (coreOf t) fun x =>
    { x with
      slotTlb := smMod [] x.slotTlb (warpOf t % 4) fun l => fillTlb 64 l e
      tlb := fillTlb 4096 x.tlb e }
/-- A fill of a copy unit's cache, whose size no rule gives: DESIGN CHOICE, notes/assumptions/47.md. -/
def fillCu (s : State) (c : Nat) (e : TlbEntry) : State := modCore s c fun x => { x with cuTlb := fillTlb 4096 x.cuTlb e }

/-- An operation that waits on a walk of a page. -/
def mopWalks (w : Walk) (s : State) (t : Nat) (o : MemOp) (st : OpState) : Bool :=
  decide (o.st = st) && o.glob && decide (o.addr / 4096 = w.page) && decide ((getTeam s (teamOf s t)).asid = w.asid)
    && (match o.kind with
      | .sld _ => decide ((sldThreads s t o).head? = some t)
      | _ => true)

/-- The lanes of a word whose operations wait on the page. -/
def mopLanes (w : Walk) (s : State) (t : Nat) (o : MemOp) (st : OpState) : List Nat :=
  (warpThreads (warpOf t)).filter fun u => (getTh s u).mq.any fun x => decide (x.seq = o.seq) && mopWalks w s u x st

/-- The fault-queue entry of a thread's access (R328). -/
def threadFault (w : Walk) (kind : Nat) (t : Nat) (lanes : List Nat) : FqEntry :=
  ⟨w.asid, kind, w.page, (maskOf lanes).toNat, 0, 0, 0, 0, wslotOf t, coreOf t, none⟩

/-- The replay snapshot of a word of several destinations (R198). -/
def snapWait (o : MemOp) (th : Thread) : Thread :=
  match o.snap with
  | [] => th
  | l =>
    { th with
      tsnap0 := l.getD 0 0, tsnap1 := l.getD 1 0, tsnap2 := l.getD 2 0, tsnap3 := l.getD 3 0
      tcause := (th.tcause &&& 0xCFFFFFFF) ||| 0x10000000 }

/-- An operation waits for `fqack`, its source values in the snapshot (R47, R198). -/
def mopWaits (s : State) (t j : Nat) (o : MemOp) : State :=
  modTh (setMopSt s t j .page) t fun th =>
    { snapWait o th with mq := th.mq.modify j fun x => { x with waited := !o.snap.isEmpty } }

/-- The walk's answer for one operation of a thread; a team that has been ended abandons it (R48). -/
def walkMop (w : Walk) (s0 : State) (t : Nat) (s : State) (j : Nat) : State :=
  match getMop s0 t j with
  | none => s
  | some o =>
    if !mopWalks w s0 t o .walking then s
    else match walk s0 w.asid o.addr (mopNeed o.kind) with
      | .ok e => setMopSt (fillCore s t e) t j .ready
      | .fault c logged => mopFault (if logged then logWalk s w.asid o.addr (mopFaultKind o.kind) else s) t j o c
      | _ =>
        if (getTeam s0 (teamOf s0 t)).ended then dropMop s t j o
        else
        let s1 := mopWaits s t j o
        let lanes := mopLanes w s0 t o .walking
        if lanes.head? = some t then fqFault s1 (threadFault w (mopFaultKind o.kind) t lanes) else s1

/-- The need of a word that waits for a page before it issues. -/
def waitNeed (kind : Nat) : Need := if kind = 1 then .x else .r

/-- The snapshot of a `deq` that waits on a page (R198): its header's VA. -/
def snapDeq (th : Thread) : Thread :=
  match th.wait with
  | some (.deq va _ _) =>
    { th with
      snapped := true
      tsnap0 := BitVec.ofNat 32 va, tsnap1 := BitVec.ofNat 32 (va / 2 ^ 32), tsnap2 := 0, tsnap3 := 0
      tcause := (th.tcause &&& 0xCFFFFFFF) ||| 0x10000000 }
  | _ => th

/-- The walk's answer for a thread's waits. -/
def walkWaits (w : Walk) (s0 : State) (s : State) (t : Nat) : State :=
  let va := w.page * 4096
  let th := getTh s0 t
  let s1 := match th.wait with
    | some (.page a p kind true) =>
      if a ≠ w.asid ∨ p ≠ w.page then s
      else (match walk s0 w.asid va (waitNeed kind) with
        | .ok e => modTh (fillCore s t e) t fun x => { x with wait := none }
        | .absent =>
          let lanes := (warpThreads (warpOf t)).filter fun u => decide ((getTh s0 u).wait = th.wait) && decide ((getTh s0 u).pc = th.pc)
          let s2 := modTh s t fun x => { x with wait := some (.page a p kind false) }
          if lanes.head? = some t then fqFault s2 (threadFault w kind t lanes) else s2
        | _ => modTh s t fun x => { x with wait := none })
    | _ => s
  match th.pageWait with
  | some pw =>
    if pw.asid ≠ w.asid ∨ pw.page ≠ w.page ∨ !pw.walking then s1
    else match walk s0 w.asid va .r with
      | .ok e => modTh (fillCore s1 t e) t fun x => { x with pageWait := none }
      | .absent =>
        let lanes := (warpThreads (warpOf t)).filter fun u => decide ((getTh s0 u).pageWait = th.pageWait)
        let s2 := modTh s1 t fun x => { snapDeq x with pageWait := some { pw with walking := false } }
        if lanes.head? = some t then fqFault s2 (threadFault w pw.kind t lanes) else s2
      | _ => modTh s1 t fun x => { x with pageWait := none }
  | none => s1

/-- The walk's answer for one thread. -/
def walkThread (w : Walk) (s0 : State) (s : State) (t : Nat) : State :=
  walkWaits w s0 ((List.range (getTh s0 t).mq.length).reverse.foldl (walkMop w s0 t) s) t

/-- The walk's answer for one copy job (R322): a page not present suspends it. -/
def walkJob (w : Walk) (s0 : State) (core : Nat) (s : State) (j : Job) : State :=
  if j.waitPage ≠ some (w.asid, w.page, true) then s
  else match walk s0 w.asid j.waitVa .w, walk s0 w.asid j.waitVa .r with
    | .ok e, _ => modJobOf (fillCu s core e) core j.num fun j => { j with waitPage := none, state := .running }
    | _, .ok e => modJobOf (fillCu s core e) core j.num fun j => { j with waitPage := none, state := .running }
    | .absent, _ =>
      fqFault (modJobOf s core j.num fun j => { j with waitPage := some (w.asid, w.page, false), state := .suspended })
        ⟨w.asid, 5, w.page, 0, 1, 0, 0, j.num, j.wslot, core, none⟩
    | _, _ => modJobOf s core j.num fun j => { j with waitPage := none, state := .running }
where
  modJobOf (s : State) (core num : Nat) (f : Job → Job) : State :=
    modCore s core fun c => { c with jobs := c.jobs.map fun j => if j.num = num then f j else j }

/-- Whether a context waits on a walk. -/
def ctxWalks (w : Walk) (c : Ctx) : Bool := c.walking && decide (c.st = .suspended w.page) && decide (c.q.asid = w.asid)

/-- The walk's answer for one query context (R346). -/
def walkCtx (w : Walk) (s0 : State) (st : Nat) (s : State) (x : Nat × Ctx) : State :=
  let put (s : State) (f : Ctx → Ctx) : State :=
    let h := getHeather s st
    setHeather s st { h with ctxs := smPut h.ctxs x.1 (f ((smFind? h.ctxs x.1).getD x.2)) }
  if !ctxWalks w x.2 then s
  else match walk s0 w.asid (w.page * 4096) .r, walk s0 w.asid (w.page * 4096) .w with
    | .ok e, _ =>
      let h := getHeather s st
      put (setHeather s st { h with tlb := fillTlb 4096 h.tlb e }) fun c => { c with walking := false, st := .running }
    | .absent, _ =>
      fqFault (put s fun c => { c with walking := false })
        ⟨w.asid, 6, w.page, 0, 2, 0, st, x.1, x.2.q.wslot, x.2.q.core, none⟩
    | .fault c logged, _ => put (if logged then logWalk s w.asid x.2.wva 6 else s) fun y =>
        { y with walking := false, st := .running, fcode := c, fva := x.2.wva }
    | _, _ => put s fun y => { y with walking := false, st := .running }

/-- The meadow whose walkers run a walk (R365). -/
def walkMeadow (w : Walk) : Option Nat :=
  match w.who.head? with
  | some (.core c) => some (c / 128)
  | some (.copy c) => some (c / 128)
  | _ => none

/-- WALK_COMPLETE (R363 to R365): a walk among the first 64 of its meadow answers everything that waits for it; a discarded
walk starts again. -/
def execWalkComplete (i : Nat) (s : State) : Out :=
  match s.walks[i]? with
  | none => .next s
  | some w =>
    if (walkMeadow w).isSome && decide (64 ≤ ((s.walks.take i).filter fun x => decide (walkMeadow x = walkMeadow w)).length) then .next s
    else if w.stale then .next { s with walks := s.walks.set i { w with stale := false } }
    else match walk s w.asid (w.page * 4096) .r with
      | .badAddr pa => .fault (.noSuchAddress pa)
      | _ =>
        let s1 := (walkPlaces s w.asid (w.page * 4096)).foldl meterLine { s with walks := s.walks.eraseIdx i }
        let s2 := (s.threads.map (·.1)).foldl (walkThread w s) s1
        let s3 := s.cores.foldl (fun a c => c.2.jobs.foldl (walkJob w s c.1) a) s2
        .next (s.heather.foldl (fun a h => h.2.ctxs.foldl (walkCtx w s h.1) a) s3)

end Sys2Proof.Machine
end

