-- ==== Sys2Proof/Machine/CopyEvents.lean ====
section
/-! DEFINITION. Copy jobs at work: their start, their pieces, relay hops, completion and faults (R227, R246 to R250, R309 to
R313, R320 to R323). -/
namespace Sys2Proof.Machine

/-! ### Transfers (R311) -/

/-- One transfer: destination, source, bytes, and the width a lane transfer is aligned to (1 for a block's row). -/
structure Xfer where
  dst : Nat
  src : Nat
  len : Nat
  align : Nat
deriving DecidableEq, Repr

/-- A card's transfers, in order. -/
def allXfers (j : Job) : List Xfer :=
  j.xfers.map (fun x => ⟨x.dst.toNat, x.src.toNat, x.n, x.n⟩) ++ (rangeFrom 0 (cNblk j.card)).flatMap fun b =>
    (rangeFrom 0 (cRows j.card b)).map fun r =>
      ⟨cDst j.card b + r * cDstr j.card b, cSrc j.card b + r * cSstr j.card b, cLen j.card b, 1⟩

/-- The transfer at a progress offset and the position in it. -/
def xferAt : List Xfer → Nat → Option (Xfer × Nat)
  | [], _ => none
  | x :: l, p => if p < x.len then some (x, p) else xferAt l (p - x.len)

/-- The bytes of the transfers. -/
def totalBytes (l : List Xfer) : Nat := (l.map (·.len)).foldl (· + ·) 0

/-- Whether another of the transfers has still to deliver into a granule of a plain window: `place` says where an address
leads, `done` which progress offsets have performed. -/
def laterHits (place : Nat → Option (Nat × Nat)) (done : Nat → Bool) (gran : Nat × Nat) : List Xfer → Nat → Bool
  | [], _ => false
  | x :: l, base =>
    (match place x.dst with
      | some (k, phys) => decide (k = gran.1) && decide (phys / 16 ≤ gran.2) && decide (gran.2 * 16 < phys + x.len)
          && !done (base + (gran.2 * 16 - phys))
      | none => false) || laterHits place done gran l (base + x.len)

/-! ### Places -/

/-- Where a coded address of a job leads at a hop. -/
inductive CpPlace where
  | glob (va : Nat)
  | step (k off : Nat)
  | plain (k phys : Nat)
  | buf (kind phys : Nat)
  | fault (code : Nat)
deriving DecidableEq, Repr

/-- A scratchpad address as a place, for a team. -/
def spCp (s : State) (k sa n : Nat) : CpPlace :=
  match spResolve s k sa n with
  | .step x off => .step x off
  | .plain x phys _ => .plain x phys
  | .fault c => .fault c

/-- The team a hop delivers to: the posting team, or the grove's team on the hop's core (R321). -/
def hopOf (s : State) (k : Nat) (j : Job) (h : Nat) : Option Nat :=
  if h = 0 then some k else (hopTeam s k (cHop j.card h)).filter fun x => !(getTeam s x).ended

/-- A coded address at hop h (R309, R320, R321). Where the team of an earlier hop has ended, its copy can no longer be read, which
faults: DESIGN CHOICE, notes/assumptions/52.md. -/
def cpPlace (s : State) (k : Nat) (j : Job) (h addr n : Nat) : CpPlace :=
  match decodeCoded addr with
  | .bad => .fault ccPermission
  | .glob va => .glob va
  | .sp sa => spCp s k (if h = 0 then sa else cHop j.card h * 2 ^ 24 + sa % 2 ^ 19) n
  | .buf r off =>
    (match getRec (getTeam s k) r with
      | none => .fault ccPermission
      | some d => if dLen d < off + n then .fault ccPermission else .buf (dKind d) (dBase d + off))
  | .slot off =>
    match hopOf s k j h, smFind? j.slots h with
    | some x, some slot =>
      (match getRing (getTeam s x) (cRing j.card) with
        | none => .fault ccPermission
        | some r => if slotSize r < off + n then .fault ccPermission else spCp s x (slotAddr r slot + off) n)
    | _, _ => .fault ccPermission

/-- Bytes from a position that a transfer's region covers (R311). -/
def coverFrom (regions : List Foot) (f : List Foot) (pos : Nat) : Nat :=
  match f with
  | x :: _ =>
    ((regions.filter fun r => decide (r.space = x.space) && decide (r.lo ≤ x.lo) && decide (x.lo < r.hi)).map fun r =>
      r.hi - (x.lo + pos)).foldl Nat.max 0
  | [] => 2 ^ 40

/-- The bytes of a transfer, from a position, that lie inside its regions. -/
def readCover (s : State) (core : Nat) (j : Job) (x : Xfer) (pos : Nat) : Nat :=
  coverFrom (jobReads s core j) (footOf s (core * 4 + j.tslot) x.src x.len) pos
def writeCover (s : State) (core : Nat) (j : Job) (x : Xfer) (pos : Nat) : Nat :=
  match decodeCoded x.dst with
  | .slot off =>
    (match getRing (getTeam s (core * 4 + j.tslot)) (cRing j.card) with
      | some r => slotSize r - (off + pos)
      | none => 0)
  | _ => coverFrom (jobWrites s core j) (footOf s (core * 4 + j.tslot) x.dst x.len) pos

/-! ### Global memory as a copy unit reaches it -/

/-- What a copy unit's access meets: a place it may use, a stop of the job, or a fault. -/
inductive CuRes where
  | ok (e : TlbEntry) (pa : Nat)
  | held (s : State)
  | fault (code : Nat) (logged : Bool)
  | badAddr (pa : Nat)

/-- The request a job makes of a home; `early` says that it is about a piece beyond the progress offset, `put` what is written
where the home keeps replicas (R388). DEDUCED, notes/assumptions/22.md. -/
def askJob (s : State) (core : Nat) (j : Job) (ev grain va : Nat) (whole early : Bool) (put : Option (Nat × List Byte)) : State :=
  let s1 := modJob s core j.num fun j => { j with atHome := true, waitVa := va, early := early }
  { s1 with reqs := s1.reqs ++ [⟨ev, grain, core, true, whole, [], .job core j.num, put⟩] }

/-- Whether a grain stands as a job's grant left it: a read's with no agent in M, a write's with no copies, unless the
protocol keeps replicas, which each write updates (R226, R227). -/
def grantStands (s : State) (g : Nat) (write : Bool) : Bool :=
  let k := protoDesc s (protoOf s g) (getDir s g).state
  if write then protoRepl s (protoOf s g) || (!stTrans k && decide (stClass k = 0)) else !stTrans k && decide (stClass k ≠ 2)

/-- Whether a job may access a grain without asking its home: it has been granted it and that grant stands; or pieces beyond
its progress offset have performed, for which the home holds the others' requests back. -/
def granted (s : State) (j : Job) (g : Nat) (write : Bool) : Bool :=
  nsHas (if write then j.wrG else j.rdG) g && (grantStands s g write || (write && !j.ahead.isEmpty))

/-- A copy unit's translation. That of a job which has performed pieces beyond its progress offset stays good for the pieces
before them (R250): its shootdown waits for them. -/
def cuTrans (s : State) (core : Nat) (j : Job) (asid va : Nat) (need : Need) : Trans :=
  match lookup (getCore s core).cuTlb asid va need with
  | .miss =>
    if j.ahead.isEmpty then .miss
    else (match walk s asid va need with
      | .ok e => .hit e (tlbPa e va)
      | _ => .miss)
  | r => r

/-- A job's access of a VA, as far as the home (R226, R227, R322), with the bytes that it writes. A piece beyond the progress
offset starts no walk. -/
def cuAccess (s : State) (core : Nat) (j : Job) (va : Nat) (need : Need) (whole early : Bool) (bs : List Byte) : CuRes :=
  let asid := (getTeam s (core * 4 + j.tslot)).asid
  match cuTrans s core j asid va need with
  | .fault c => .fault c false
  | .miss =>
    if early then .held s
    else (match walk s asid va need with
      | .fault c logged => .fault c logged
      | .badAddr pa => .badAddr pa
      | _ => .held (askWalk (modJob s core j.num fun j => { j with waitPage := some (asid, va / 4096, true), waitVa := va })
          asid (va / 4096) 5 (.copy core)))
  | .hit e pa =>
    let p := transPa s e pa
    let ev := if need = .r then evERD else evEWR
    if e.mt = 1 then .ok e p
    else if !paOk p then .badAddr p
    else if inWindow p && !windowBacked s p && (j.ahead.isEmpty || decide (need = .r)) then .fault ccPermission false
    else if need ≠ .r ∧ migrHolds s p then .held s
    else if granted s j (p / 512) (decide (need ≠ .r)) then .ok e p
    else .held (askJob s core j ev (p / 512) va whole early (if protoRepl s (protoOf s (p / 512)) && decide (need ≠ .r) then some (p, bs) else none))

/-! ### A piece (R311, R320, R322, R323) -/

/-- A job meets a fault at its progress offset (R323): FCODE records the cause. -/
def jobFault (s : State) (core : Nat) (j : Job) (code va : Nat) : State :=
  modJob s core j.num fun j => { j with fcode := code, faulted := some (code, BitVec.ofNat 64 va) }

/-- The address a fault of a job names: a VA, or the coded address of another space. -/
def codedVa (addr : Nat) : Nat := if addr / 2 ^ 62 = 0 then addr % 2 ^ 57 else addr

/-- Superstep-window bytes as a relay hop reads an earlier hop's copy (R321): a granule that has been written in this step from
the shadow half, in which that copy stands. -/
def spReadCopy (s : State) (k off n : Nat) : List Byte :=
  let c := getCore s (k / 4)
  let tm := getTeam s k
  (rangeFrom off n).flatMap fun o =>
    sramRead c.sp (if nsHas c.spWritten (spShadow tm o / 16) then spShadow tm o else spActive tm o) 1

/-- The bytes at a place, as a hop reads them; those of global memory through their translation. -/
def cpRead (s : State) (core hop : Nat) (p : CpPlace) (e : Option (TlbEntry × Nat)) (n : Nat) : List Byte :=
  match p, e with
  | .glob _, some (e, pa) => readThrough s e pa n
  | .step k off, _ => if hop = 0 then spReadStep s k off n else spReadCopy s k off n
  | .plain k phys, _ => spReadPlain s (k / 4) phys n
  | .buf kind phys, _ => sramRead (if kind = kAb then (getCore s core).ab else if kind = kWb then (getCore s core).wb else (getCore s core).cb) phys n
  | _, _ => []

/-- A copy unit as a writer of a shadow half (R219). -/
def cuWriter (core num : Nat) : Nat := 2 ^ 40 + core * 64 + num

/-- The bytes land (R214, R219). -/
def cpWrite (s : State) (core num : Nat) (p : CpPlace) (e : Option (TlbEntry × Nat)) (bs : List Byte) : State :=
  match p, e with
  | .glob _, some (e, pa) => writeThrough s e pa bs
  | .step k off, _ => spWriteStep s k off bs (cuWriter core num)
  | .plain k phys, _ => spWritePlain s (k / 4) phys bs
  | .buf kind phys, _ => modCore s core fun c =>
      if kind = kAb then { c with ab := sramWrite c.ab phys bs }
      else if kind = kWb then { c with wb := sramWrite c.wb phys bs } else { c with cb := sramWrite c.cb phys bs }
  | _, _ => s

/-- The mbar object of a hop (R320, R321). -/
def hopMbar (s : State) (k : Nat) (j : Job) (h : Nat) : Sum Nat (Nat × Nat) :=
  let sa := cCmplAddr j.card
  spObject s k (if h = 0 then sa else cHop j.card h * 2 ^ 24 + sa % 2 ^ 19)

/-- What a piece's landing completes (R222, R320): its bytes of the mbar object, or its granule's full-empty bit. -/
def pieceDone (s : State) (k : Nat) (j : Job) (n : Nat) (p : CpPlace) (last : Bool) : State :=
  if cCmpl j.card = 2 then
    match hopMbar s k j j.hop with
    | .inr o => mbUpdate s o.1 o.2 fun m => { m with bytes := m.bytes - BitVec.ofNat 32 n }
    | .inl _ => s
  else if cCmpl j.card = 3 ∧ last then
    match p with
    | .plain x phys => fillGranule s (x / 4) phys
    | _ => s
  else s

/-- Whether a card's completion refuses a destination (R320). -/
def cmplBad (s : State) (k : Nat) (j : Job) (p : CpPlace) : Option Nat :=
  if cCmpl j.card = 3 then
    match p with
    | .plain _ _ => none
    | _ => some ccPermission
  else if cCmpl j.card = 2 then
    match hopMbar s k j j.hop with
    | .inl c => some c
    | .inr _ => none
  else none

/-- Whether a job may deliver: it runs and waits for nothing. -/
def jobActive (j : Job) : Bool :=
  j.posted && decide (j.kind = .copy) && decide (j.state = .running) && j.waitPage.isNone && j.faulted.isNone && !j.atHome

/-- Whether a ring-completing job has its slot of the present hop. -/
def hopSlot (j : Job) : Bool := decide (cCmpl j.card ≠ 1) || (smFind? j.slots j.hop).isSome

/-- One piece (R280, R320): the part of one transfer that falls in one granule of its destination, as far as its regions
allow, and the progress offset of its first byte. -/
structure Piece where
  x : Xfer
  pos : Nat
  len : Nat
  off : Nat
deriving DecidableEq, Repr

/-- The address a transfer reads at the present hop (R321). -/
def srcOf (j : Job) (x : Xfer) : Nat := if j.hop = 0 then x.src else x.dst
/-- The bytes its read region covers from a position. -/
def srcCover (s : State) (core : Nat) (j : Job) (x : Xfer) (pos : Nat) : Nat := if j.hop = 0 then readCover s core j x pos else 2 ^ 40

/-- The piece at a progress offset. -/
def pieceAt (s : State) (core : Nat) (j : Job) (l : List Xfer) (p : Nat) : Option Piece :=
  (xferAt l p).map fun y =>
    let n := Nat.min (Nat.min (y.1.len - y.2) (16 - (y.1.dst + y.2) % 16)) (Nat.min (srcCover s core j y.1 y.2) (writeCover s core j y.1 y.2))
    ⟨y.1, y.2, Nat.max 1 n, p⟩

/-- The destination of a piece. -/
def pieceDst (s : State) (core : Nat) (j : Job) (x : Piece) : CpPlace := cpPlace s (core * 4 + j.tslot) j j.hop (x.x.dst + x.pos) x.len

/-- The faults of a piece that need no access (R311, R316, R320): alignment, and a byte outside its regions. -/
def pieceBad (s : State) (core : Nat) (j : Job) (x : Piece) : Option (Nat × Nat) :=
  if x.pos = 0 ∧ x.x.src % x.x.align ≠ 0 then some (ccAlign, codedVa x.x.src)
  else if x.pos = 0 ∧ x.x.dst % x.x.align ≠ 0 then some (ccAlign, codedVa x.x.dst)
  else if srcCover s core j x.x x.pos = 0 then some (ccPermission, codedVa x.x.src + x.pos)
  else if writeCover s core j x.x x.pos = 0 then some (ccPermission, codedVa x.x.dst + x.pos)
  else none

/-- The first byte of a piece that has not been read. -/
def unread (j : Job) (x : Piece) : Option Nat := (rangeFrom 0 x.len).find? fun i => (smFind? j.rbuf (x.off + i)).isNone

/-- What a job's work on a piece comes to: a state; a fault of the job, with its VA; no such address. -/
inductive CpRes where
  | next (s : State)
  | fault (s : State) (code va : Nat)
  | badAddr (pa : Nat)

/-- The bytes of one source granule are read, from the first that a piece lacks (R234). -/
def readPiece (s : State) (core : Nat) (j : Job) (x : Piece) (i : Nat) (early : Bool) : CpRes :=
  let k := core * 4 + j.tslot
  let q := x.pos + i
  let a := srcOf j x.x + q
  let n := Nat.min (Nat.min (x.x.len - q) (16 - a % 16)) (srcCover s core j x.x x.pos - i)
  let va := codedVa (srcOf j x.x) + q
  let keep (s : State) (bs : List Byte) : CpRes := .next (modJob s core j.num fun y =>
    { y with rbuf := (bs.foldl (fun (m : SMap Byte × Nat) b => (smPut m.1 m.2 b, m.2 + 1)) (y.rbuf, x.off + i)).1 })
  match cpPlace s k j (if j.hop = 0 then 0 else j.fromHop) a n with
  | .fault c => .fault s c va
  | .glob v =>
    (match cuAccess s core j v .r false early [] with
      | .held s1 => .next s1
      | .badAddr pa => .badAddr pa
      | .fault c logged => .fault (if logged then logWalk s (getTeam s k).asid v 5 else s) c va
      | .ok e pa =>
        match readBad s e pa n with
        | some c => .fault (noteBad s e pa n) c va
        | none => keep (meterFetch s e pa) (cpRead s core j.hop (.glob v) (some (e, pa)) n))
  | .plain y phys => if spBad s (y / 4) phys n then .fault s ccUncorrectable va else keep s (cpRead s core j.hop (.plain y phys) none n)
  | p => keep s (cpRead s core j.hop p none n)

/-- Whether the transfer of a piece covers a block of its destination of size `b` whole (R227, R449). Each transfer counts
alone: DESIGN CHOICE, notes/assumptions/49.md. -/
def coversBlock (x : Piece) (b : Nat) : Bool :=
  let a := x.x.dst + x.pos
  decide (x.x.dst ≤ a / b * b) && decide (a / b * b + b ≤ x.x.dst + x.x.len)

/-- A progress offset whose piece has performed, or is this one. -/
def offDone (j : Job) (x : Piece) (q : Nat) : Bool := decide (q < j.offset) || nsHas j.ahead q || decide (q = x.off)

/-- The poison and the marks of a 64-byte block that a transfer has now written whole (R449). -/
def blockDone (s : State) (j : Job) (x : Piece) (pa : Nat) : State :=
  let a := x.x.dst + x.pos
  let all := (rangeFrom 0 4).all fun i => offDone j x (x.off - x.pos + (a / 64 * 64 + 16 * i - x.x.dst))
  if coversBlock x 64 && all then
    { s with poison := nsDel s.poison (pa / 64), raw := smDel s.raw (pa / 64), ecc := nsDel s.ecc (pa / 64) }
  else s

/-- The progress offset moves past the pieces that have performed. -/
def advanceOff (s : State) (core : Nat) (j : Job) (l : List Xfer) : Nat → Nat → NSet → Nat × NSet
  | 0, off, a => (off, a)
  | f + 1, off, a =>
    if nsHas a off then
      match pieceAt s core j l off with
      | some x => advanceOff s core j l f (off + x.len) (nsDel a off)
      | none => (off, a)
    else (off, a)

/-- The bytes of a piece, once they have been read. -/
def pieceBytes (j : Job) (x : Piece) : List Byte := (rangeFrom x.off x.len).map (smGet 0 j.rbuf)

/-- Whether a piece was written at its home's lock point, with the request (R252, R388). -/
def wroteAtHome (s : State) (de : Option (TlbEntry × Nat)) : Bool :=
  match de with
  | some (e, pa) => decide (e.mt ≠ 1) && protoRepl s (protoOf s (pa / 512))
  | none => false

/-- A piece lands: its bytes, its completion, and the job's progress. -/
def landPiece (s : State) (core : Nat) (j : Job) (l : List Xfer) (x : Piece) (dp : CpPlace) (de : Option (TlbEntry × Nat)) : State :=
  let k := core * 4 + j.tslot
  let s1 := if wroteAtHome s de then s else cpWrite s core j.num dp de (pieceBytes j x)
  let s2 := match de with
    | some (e, pa) => if e.mt = 1 then s1 else blockDone s1 j x pa
    | none => s1
  let place (a : Nat) : Option (Nat × Nat) := match cpPlace s k j j.hop a 1 with
    | .plain y phys => some (y, phys)
    | _ => none
  let gran : Nat × Nat := match dp with
    | .plain y phys => (y, phys / 16)
    | _ => (0, 0)
  let s3 := pieceDone s2 k j x.len dp (!laterHits place (offDone j x) gran l 0)
  let r := if x.off = j.offset then advanceOff s core j l j.ahead.length (x.off + x.len) j.ahead else (j.offset, nsAdd j.ahead x.off)
  let wrG := match de with
    | some (_, pa) => if protoRepl s (protoOf s (pa / 512)) then nsDel j.wrG (pa / 512) else j.wrG
    | none => j.wrG
  modJob s3 core j.num fun j =>
    { j with
      offset := r.1
      ahead := r.2
      wrG := wrG
      rbuf := smFilter j.rbuf fun q => decide (q < x.off) || decide (x.off + x.len ≤ q) }

/-- A piece whose source has been read reaches its destination. -/
def writePiece (s : State) (core : Nat) (j : Job) (l : List Xfer) (x : Piece) (early : Bool) : CpRes :=
  let k := core * 4 + j.tslot
  let va := codedVa x.x.dst + x.pos
  let dp := pieceDst s core j x
  match dp with
  | .fault c => .fault s c va
  | _ =>
    match cmplBad s k j dp with
    | some c => .fault s c va
    | none =>
      match dp with
      | .glob v =>
        (match cuAccess s core j v .w (coversBlock x 512) early (pieceBytes j x) with
          | .held s1 => .next s1
          | .badAddr pa => .badAddr pa
          | .fault c logged => .fault (if logged then logWalk s (getTeam s k).asid v 5 else s) c va
          | .ok e pa => .next (landPiece s core j l x dp (some (e, pa))))
      | _ => .next (landPiece s core j l x dp none)

/-- One access of a job for a piece: a source granule is read, or the piece lands. -/
def pieceWork (s : State) (core : Nat) (j : Job) (l : List Xfer) (x : Piece) (early : Bool) : CpRes :=
  match pieceBad s core j x with
  | some f => .fault s f.1 f.2
  | none =>
    match unread j x with
    | some i => readPiece s core j x i early
    | none => writePiece s core j l x early

/-- Whether a piece needs nothing more than to land, which nothing can refuse: what could take its place away waits for the
pieces beyond it (`aheadOf`). -/
def prepared (s : State) (core : Nat) (j : Job) (x : Piece) : Bool :=
  let k := core * 4 + j.tslot
  let dp := pieceDst s core j x
  (pieceBad s core j x).isNone && (unread j x).isNone && (cmplBad s k j dp).isNone &&
    (match dp with
      | .glob v =>
        (match cuAccess s core j v .w (coversBlock x 512) true [] with
          | .ok e pa => decide (e.mt = 1) || nsHas j.wrG (pa / 512)
          | _ => false)
      | .fault _ => false
      | _ => true)

/-- The piece that is accessed beyond the progress offset: the k-th from there on that has still to land. One whose source has to be
read is read whatever those before it wait for; one that has been read lands when those before it are prepared or have landed. -/
def pickPiece (s : State) (core : Nat) (j : Job) (l : List Xfer) (sure : Bool) : Nat → Nat → Option Piece
  | k, p =>
    match pieceAt s core j l p with
    | none => none
    | some x =>
      match k with
      | 0 => if !nsHas j.ahead p && (sure || (unread j x).isSome) then some x else none
      | k + 1 => pickPiece s core j l (sure && (nsHas j.ahead p || prepared s core j x)) k (p + x.len)

/-- The piece that a job may work on beyond its progress offset (R247). -/
def farPiece (s : State) (core : Nat) (j : Job) : Option Piece :=
  let l := allXfers j
  match pieceAt s core j l j.offset with
  | none => none
  | some x0 =>
    if (pieceAt s core j l (j.offset + x0.len)).isNone then none
    else (pickPiece s core j l true (Config.pieceAhead s.n) j.offset).filter fun x => decide (x.off ≠ j.offset)

/-- A job's work on the piece at its progress offset, where it meets its faults (R323). -/
def nearWork (s : State) (core : Nat) (j : Job) : Out :=
  match pieceAt s core j (allXfers j) j.offset with
  | none => .next s
  | some x =>
    if !jobActive j || !hopSlot j then .next s
    else match pieceWork s core j (allXfers j) x false with
      | .next s1 => .next s1
      | .badAddr pa => .fault (.noSuchAddress pa)
      | .fault s1 c va => .next (jobFault s1 core j c va)

/-- Its turn (R54): the piece at its progress offset. -/
def copyTurn (core job : Nat) (s : State) : Out :=
  match liveJob s core job with
  | none => .next s
  | some j => nearWork s core j

/-- COPY_PIECE_DELIVERY (R234, R247, R311, R320, R323): one access of a job: a granule of its source is read, or a piece lands.
Neither its reads nor its writes have an order, as long as the pieces that a write passes over are certain to land; the progress
offset is that of the first piece still to land, and a fault is met there alone. DEDUCED, notes/assumptions/50.md. -/
def execCopyPieceDelivery (core job : Nat) (s : State) : Out :=
  match liveJob s core job with
  | none => .next s
  | some j =>
    if !jobActive j || !hopSlot j then .next s
    else match farPiece s core j with
      | none => nearWork s core j
      | some x =>
        match pieceWork s core j (allXfers j) x true with
        | .next s1 => .next s1
        | _ => .next s

/-! ### Start, slots and hops -/

/-- COPY_JOB_START (R247, R320): the job's dependences are met and its slot is claimed. -/
def execCopyJobStart (core job : Nat) (s : State) : Out :=
  match liveJob s core job with
  | none => .next s
  | some j =>
    if j.posted && decide (j.kind = .copy) && decide (j.state = .queued) && hopSlot j && jobFree s core j then
      .next (modJob s core job fun j => { j with state := .running })
    else .next s

/-- RING_SLOT_CLAIM (R320, R321): a card that found its ring full claims its slot, in posting order; a relay job claims
that of its next hop. -/
def execRingSlotClaim (core job : Nat) (s : State) : Out :=
  match liveJob s core job with
  | none => .next s
  | some j =>
    let k := core * 4 + j.tslot
    if !j.posted || decide (j.kind ≠ .copy) || hopSlot j then .next s
    else if j.hop = 0 then .next (if mayClaim s core k j then claimSlot s core k j 0 else s)
    else match hopOf s k j j.hop with
      | none => .next s
      | some x =>
        match getRing (getTeam s x) (cRing j.card) with
        | none => .next s
        | some r =>
          if ringFull r then .next s
          else
            let y := ringClaim r
            .next (modJob (setRing s x (cRing j.card) y.1) core job fun j => { j with slots := smPut j.slots j.hop y.2 })

/-- A claimed slot of a hop's ring becomes filled (R320, R176). -/
def fillSlot (s : State) (core : Nat) (j : Job) (h : Nat) (bad : Bool) : State :=
  match hopOf s (core * 4 + j.tslot) j h, smFind? j.slots h with
  | some x, some slot =>
    (match getRing (getTeam s x) (cRing j.card) with
      | none => s
      | some r =>
        napEvent (setRing s x (cRing j.card) { r with slots := smPut r.slots slot (.filled bad) }) 0
          fun t => decide (teamOf s t = x))
  | _, _ => s

/-- The next hop after h whose team is there (R321). DEDUCED, notes/assumptions/36.md. -/
def nextHop (s : State) (core : Nat) (j : Job) : Option Nat :=
  (rangeFrom (j.hop + 1) (cNrelay j.card - j.hop)).find? fun h => (hopOf s (core * 4 + j.tslot) j h).isSome

/-- Whether a hop has delivered its last byte. A hop whose team is gone delivers nothing more. -/
def hopDelivered (s : State) (core : Nat) (j : Job) : Bool :=
  jobActive j && hopSlot j && decide (totalBytes (allXfers j) ≤ j.offset)
    || (jobActive j && decide (0 < j.hop) && (hopOf s (core * 4 + j.tslot) j j.hop).isNone)

/-- RELAY_HOP (R321): a hop has completed and the next one, skipping those whose team is gone, begins. -/
def execRelayHop (core job : Nat) (s : State) : Out :=
  match liveJob s core job with
  | none => .next s
  | some j =>
    match hopDelivered s core j, nextHop s core j with
    | true, some h =>
      let s1 := if cCmpl j.card = 1 then fillSlot s core j j.hop false else s
      let from' := if (hopOf s (core * 4 + j.tslot) j j.hop).isSome then j.hop else j.fromHop
      .next (modJob s1 core job fun j => 
        { j with
          offset := 0
          fromHop := from'
          hop := h
          rdG := []
          wrG := []
          rbuf := []
          ahead := [] })
    | _, _ => .next s

/-- The follow-on of a card is posted by the copy unit at the card's place in the order (R246, R291, R299). -/
def postFollow (s : State) (core : Nat) (j : Job) : State :=
  let k := core * 4 + j.tslot
  if !cFollow j.card then s
  else match mmaCheck s k (cFollowT j.card) (cFollowA j.card) (cFollowB j.card) (cFollowC j.card) with
    | none => s
    | some (a0, b0, n) =>
      modCore s core fun c =>
        let num := freeNum c
        let m := newJob num j.tslot j.wslot (.mma (cFollowT j.card) (cFollowA j.card) (cFollowB j.card) a0 b0 n)
        { c with jobs := c.jobs ++ [{ m with posted := true, order := j.order }] }

/-- COPY_JOB_COMPLETE (R320, R321): the last byte of the last hop has performed. -/
def execCopyJobComplete (core job : Nat) (s : State) : Out :=
  match liveJob s core job with
  | none => .next s
  | some j =>
    if !hopDelivered s core j || (nextHop s core j).isSome then .next s
    else
      let s1 := if cCmpl j.card = 1 then fillSlot s core j j.hop false else s
      .next (postFollow (dropJob s1 core job) core j)

/-- COPY_JOB_FAULT (R323): the slot is filled and marked, the entry ends, and a late fault arises in the lowest acting lane
of the `cpyc`. -/
def execCopyJobFault (core job : Nat) (s : State) : Out :=
  match liveJob s core job with
  | none => .next s
  | some j =>
    match j.faulted with
    | none => .next s
    | some (c, va) =>
      let s1 := if cCmpl j.card = 1 then fillSlot s core j j.hop true else s
      let t := (core * 64 + j.wslot) * 32 + j.lane
      .next (lateFault (dropJob s1 core job) t c 5 va j.pc [] none (BitVec.ofNat 32 (Nat.min j.offset 0xFFFFFFFF)))

end Sys2Proof.Machine
end

