-- ==== Sys2Proof/Machine/Search.lean ====
section
/-! DEFINITION. Stack search: `qsub` and `qcancel`, query contexts, the traversal, and publication (R337 to R357). -/
namespace Sys2Proof.Machine

/-! ### Packets (R341) -/

def pNat (p : List Byte) (off n : Nat) : Nat := natOfBytes ((p.drop off).take n)
def pW0 (p : List Byte) : Nat := pNat p 0 8
def pQid (p : List Byte) : Nat := pNat p 4 4
def pFmt (p : List Byte) : Nat := bitsOf (pW0 p) 31 28
def pMetric (p : List Byte) : Nat := bitsOf (pW0 p) 27 26
def pV (p : List Byte) : Nat := bitsOf (pW0 p) 25 22
def pDim (p : List Byte) : Nat := bitsOf (pW0 p) 21 12 + 1
def pNent (p : List Byte) : Nat := bitsOf (pW0 p) 11 10 + 1
def pSmask (p : List Byte) : Nat := pW0 p % 256
def pGdesc (p : List Byte) : Nat := pNat p 8 8
def pResult (p : List Byte) : Nat := pNat p 0x10 8
def pW3 (p : List Byte) : Nat := pNat p 0x18 8
def pEf (p : List Byte) : Nat := bitsOf (pW3 p) 23 16 + 1
def pK (p : List Byte) : Nat := bitsOf (pW3 p) 13 8 + 1
def pEntry (p : List Byte) (e : Nat) : Nat := pNat p (0x20 + 4 * e) 4

/-- Bytes of an element: 0 where the format is not allowed (R338). -/
def elemSize (fmt : Nat) : Nat :=
  match fmt with
  | 1 | 2 => 2
  | 3 | 6 => 1
  | _ => 0

/-- The length of a packet (R341). -/
def pktLen (p : List Byte) : Nat := 64 + (pDim p * elemSize (pFmt p) + 15) / 16 * 16

/-- The header checks of `qsub` (R356, step 3), the ring's apart. -/
def pktBad (p : List Byte) : Bool :=
  decide (bitsOf (pW0 p) 9 8 ≠ 0) || decide (2 ^ 57 ≤ pGdesc p) || decide (2 ^ 57 ≤ pResult p) || decide (2 ^ 24 ≤ pW3 p)
    || decide (bitsOf (pW3 p) 15 14 ≠ 0) || decide (bitsOf (pW3 p) 7 4 ≠ 0) || decide (pNat p 0x30 16 ≠ 0)
    || decide (elemSize (pFmt p) = 0) || decide (1 < pMetric p) || decide (pV p < 8) || decide (14 < pV p)
    || decide (pEf p < pK p) || decide (pSmask p = 0) || (rangeFrom (pNent p) (4 - pNent p)).any (fun e => decide (pEntry p e ≠ 0))
    || decide (pGdesc p % 128 ≠ 0) || decide (pResult p % 8 ≠ 0)

/-- Whether a card of a team still waits for a slot of a ring (R320). -/
def cardWaits (s : State) (core ts q : Nat) : Bool :=
  (getCore s core).jobs.any fun j => decide (j.tslot = ts) && jobRing j q && decide (j.hop = 0) && (smFind? j.slots 0).isNone

/-- Whether a team's ring takes one more packet (R356, step 4): it is not full, and no card or earlier packet waits for it. A
waiting card goes before a waiting packet, whichever came first: DESIGN CHOICE, notes/assumptions/60.md. -/
def ringTakes (s : State) (k q : Nat) (before : List MatPend) : Bool :=
  match getRing (getTeam s k) q with
  | none => false
  | some ring => !ringFull ring && !cardWaits s (k / 4) (k % 4) q && !(before.any fun m => match m.op with
      | .qsub pkt _ _ _ _ none => decide (pRing pkt = q)
      | _ => false)

/-- A packet enters a stack's admission buffer with its claimed slot, and takes the team's sequence number (R356, steps 5 and 6). -/
def sendPacket (s : State) (k st d t : Nat) (pc : W64) (pkt : List Byte) (slot : Nat) : State :=
  let tm := getTeam s k
  let q : Query :=
    { pkt := pkt, core := k / 4, tslot := k % 4, grove := tm.grove, asid := tm.asid, part := tm.part, qseq := tm.qseq,
      wslot := wslotOf t, lane := laneOf t, pc := pc, ring := pRing pkt, slot := slot }
  let s1 := modTeam s k fun y => { y with qseq := y.qseq + 1 }
  let s2 := setHeather s1 st { getHeather s1 st with admitQ := (getHeather s1 st).admitQ ++ [q] }
  putS s2 (warpOf t) d (tm.qseq.zeroExtend 64)

/-- Whether a stack's admission buffer has room (R337). -/
def admits (s : State) (st : Nat) : Bool := decide ((getHeather s st).admitQ.length < 256)

/-- A waiting `qsub` of a stack claims its slot when it may, and then its packet is sent when there is room. -/
def qsubTry (st : Nat) (s : State) (x : Nat × MatPend) : State :=
  match x.2.op with
  | .qsub pkt st' d t pc slot =>
    if st' ≠ st then s
    else
      let pends := (getTeam s x.1).matPend
      let before := pends.takeWhile fun m => decide (m ≠ x.2)
      match slot with
      | none =>
        (match ringTakes s x.1 (pRing pkt) before, getRing (getTeam s x.1) (pRing pkt) with
          | true, some ring =>
            let c := ringClaim ring
            modTeam (setRing s x.1 (pRing pkt) c.1) x.1 fun y => { y with
              matPend := y.matPend.map fun m => if m = x.2 then { m with op := .qsub pkt st d t pc (some c.2) } else m }
          | _, _ => s)
      | some n =>
        if admits s st then
          modTeam (sendPacket s x.1 st d t pc pkt n) x.1 fun y => { y with matPend := y.matPend.filter fun m => decide (m ≠ x.2) }
        else s
  | _ => s

/-- A word waits to complete (R93). -/
def addPend (s : State) (k : Nat) (l : List Nat) (la : Nat) (op : MatOp) : State :=
  modTeam s k fun y => { y with matPend := y.matPend ++ [matPendOf op l la 0] }

/-- The words that wait in the teams of running cores. -/
def qsubPends (s : State) : List (Nat × MatPend) :=
  s.teams.flatMap fun x => if x.1 < 4096 ∧ x.2.live ∧ !x.2.ended then x.2.matPend.map fun m => (x.1, m) else []

/-- qsub (R355, R356): its packet is read and checked once the earlier stores have performed; where it has to wait for a slot
or for room, the word waits with it, and its window is open (R93). -/
def execQsub (h : Hdr) (d : SReg) (a b : USrc) (s : State) : Out :=
  let r := srcRegs [uSrc a, uSrc b] []
  runWord { guard := h.guard, la := h.la.toNat, reads := r.1, sreads := r.2, swrites := [d.toNat], uniform := true, access := true } (fun w l acting =>
    let k := teamOfWarp s w
    let tm := getTeam s k
    let core := w / 64
    let t := acting.headD 0
    let sa := (rd32 s t (uSrc a)).toNat
    let st := (rd32 s t (uSrc b)).toNat
    if 7 < st ∨ sa % 64 ≠ 0 then refuse s acting ccBadRsv
    else if l.any fun t => !resolved (getTh s t) then .stall
    else match spLocalPlain s k sa 64 with
      | none => refuse s acting ccBadRsv
      | some ph =>
        let hdr := spReadPlain s core ph 64
        match spLocalPlain s k sa (pktLen hdr), getRing tm (pRing hdr) with
        | some phys, some ring =>
          if pktBad hdr ∨ tm.rings ≤ pRing hdr then refuse s acting ccBadRsv
          else if ringPending s k (pRing hdr) then .stall
          else
            let pkt := spReadPlain s core phys (pktLen hdr)
            let pc := (getTh s t).pc
            if ringTakes s k (pRing hdr) tm.matPend then
              let x := ringClaim ring
              let s1 := setRing s k (pRing hdr) x.1
              if admits s st then .go (sendPacket s1 k st d.toNat t pc pkt x.2) []
              else .go (addPend s1 k l h.la.toNat (.qsub pkt st d.toNat t pc (some x.2))) []
            else .go (addPend s k l h.la.toNat (.qsub pkt st d.toNat t pc none)) []
        | _, _ => refuse s acting ccBadRsv) s

/-- STATUS flags (R349). -/
def sVovf : Nat := 1
def sCancelled : Nat := 2
def sBadid : Nat := 4
def sNandist : Nat := 8
def sBadq : Nat := 16
def sFault : Nat := 32
/-- Sets a STATUS flag. -/
def setFlag (st f : Nat) : Nat := if st / f % 2 = 1 then st else st + f

/-- Whether a context's query has ended (R349, R351). -/
def ctxEnded (c : Ctx) : Bool := c.fin || decide (c.fcode ≠ 0)

/-- A query stops with CANCELLED unless it has ended (R357). -/
def cancelCtx (c : Ctx) : Ctx :=
  if ctxEnded c then c
  else { c with fin := true, status := setFlag c.status sCancelled, st := .running, walking := false, asks := [], exps := [] }

/-- qcancel (R357). -/
def execQcancel (h : Hdr) (a : USrc) (s : State) : Out :=
  let r := srcRegs [uSrc a] []
  runWord { guard := h.guard, la := h.la.toNat, reads := r.1, sreads := r.2 } (fun w _ acting =>
    let k := teamOfWarp s w
    let n := rd32 s (acting.headD 0) (uSrc a)
    let mine (q : Query) : Bool := decide (q.core = k / 4) && decide (q.tslot = k % 4) && decide (q.qseq = n)
    let one (h : Nat × Heather) : Nat × Heather :=
      (h.1, { h.2 with
        admitQ := h.2.admitQ.filter fun q => !mine q
        cancelled := h.2.cancelled ++ h.2.admitQ.filter mine
        ctxs := h.2.ctxs.map fun c => if mine c.2.q then (c.1, cancelCtx c.2) else c })
    .go { s with heather := s.heather.map one } []) s

/-! ### Graphs (R338 to R340) -/

def gW0 (d : List Byte) : Nat := pNat d 0 8
def gNodes (d : List Byte) : Nat := bitsOf (gW0 d) 63 32
def gMaxdeg (d : List Byte) : Nat := bitsOf (gW0 d) 17 11
def gSmask (d : List Byte) : Nat := gW0 d % 256
def gBase (d : List Byte) (st : Nat) : Nat := pNat d (0x10 + 8 * st) 8

/-- The descriptor checks of R351. -/
def graphBad (d p : List Byte) : Bool :=
  decide (bitsOf (gW0 d) 10 8 ≠ 0) || decide (pNat d 8 8 ≠ 0) || decide (pNat d 0x50 48 ≠ 0)
    || (List.range 8).any (fun st => decide (2 ^ 57 ≤ gBase d st) ||
        (if (gSmask d).testBit st then decide (gBase d st = 0) || decide (gBase d st % 64 ≠ 0) else decide (gBase d st ≠ 0)))
    || decide (elemSize (bitsOf (gW0 d) 31 28) = 0) || decide (gNodes d = 0) || decide (64 < gMaxdeg d)
    || decide (bitsOf (gW0 d) 31 28 ≠ pFmt p) || decide (bitsOf (gW0 d) 27 18 + 1 ≠ pDim p) || decide (gSmask d ≠ pSmask p)
    || (rangeFrom 0 (pNent p)).any fun e => decide (gNodes d ≤ pEntry p e)

/-- The stacks of a graph, ascending; a node's home stack and record (R339). -/
def gStacks (d : List Byte) : List Nat := (List.range 8).filter fun st => (gSmask d).testBit st
def homeStack (d : List Byte) (n : Nat) : Nat := (gStacks d).getD (n % (gStacks d).length) 0
def vecBytes (p : List Byte) : Nat := (pDim p * elemSize (pFmt p) + 63) / 64 * 64
def adjBytes (d : List Byte) : Nat := (4 + 4 * gMaxdeg d + 63) / 64 * 64
def recordVa (d p : List Byte) (n : Nat) : Nat :=
  gBase d (homeStack d n) + n / (gStacks d).length * (vecBytes p + adjBytes d)

/-- What a read of a query meets: the bytes as the tier holds them (R254), a page to wait for, or a fault. -/
inductive GRead where
  | ok (bs : List Byte)
  | miss (va : Nat)
  | fault (code va : Nat) (logged : Bool)
  /-- The tier's copy of a block fails its tag under a key ASID and version (R23). -/
  | spoilt (va pa key ver : Nat)
  | badAddr (pa : Nat)
deriving DecidableEq, Repr

/-- A query's translation; a walk that would refuse it answers at once. -/
def heatherTrans (s : State) (st asid va : Nat) (need : Need) : Sum GRead (TlbEntry × Nat) :=
  match lookup (getHeather s st).tlb asid va need with
  | .hit e pa => .inr (e, transPa s e pa)
  | .fault c => .inl (.fault c va false)
  | .miss =>
    match walk s asid va need with
    | .fault c logged => .inl (.fault c va logged)
    | .badAddr pa => .inl (.badAddr pa)
    | _ => .inl (.miss va)

/-- The 64-byte blocks of a read, each checked: `stack` is the stack a record must lie in (R339). -/
def readBlocks (s : State) (st asid : Nat) (stack : Option Nat) : List Nat → GRead
  | [] => .ok []
  | b :: l =>
    match heatherTrans s st asid (b * 64) .r with
    | .inl r => r
    | .inr (e, p) =>
      let wrong := match stack with
        | some x => decide (e.mt = 1) || !inHbm p || decide (stackOf p ≠ x)
        | none => decide (e.mt = 1)
      if wrong || (inWindow p && !windowBacked s p) then .fault ccPermission (b * 64) false
      else if !paOk p then .badAddr p
      else if tierSpoilt s p e.key e.ver then .spoilt (b * 64) p e.key e.ver
      else if tierEcc s (p / 64) then .fault ccUncorrectable (b * 64) false
      else match readBlocks s st asid stack l with
        | .ok bs => .ok (tierBytes s p 64 ++ bs)
        | r => r

def readGraph (s : State) (st asid va n : Nat) (stack : Option Nat) : GRead :=
  match readBlocks s st asid stack (blocksOf 64 va n) with
  | .ok bs => .ok ((bs.drop (va % 64)).take n)
  | r => r

/-- The tier bytes of a read are metered (R431). -/
def meterBlocks (s : State) (st asid va n : Nat) : State :=
  (blocksOf 64 va n).foldl (fun s b =>
    match lookup (getHeather s st).tlb asid (b * 64) .r with
    | .hit e pa => meterTier s (transPa s e pa) 64
    | _ => s) s

/-! ### Distances and keys (R342, R343) -/

/-- Element i of a vector. -/
def vecElem (fmt : Nat) (bs : List Byte) (i : Nat) : FVal :=
  let sz := elemSize fmt
  match fmtOfCode fmt with
  | some f => cvtSource f (BitVec.ofNat 32 (pNat bs (i * sz) sz))
  | none => .nan

def distTerm (metric : Nat) (q x : FVal) : FVal :=
  if metric = 0 then (let d := fAdd .rne q (fNeg x); fMul d d) else fNeg (fMul q x)

/-- The distance of two vectors, by chunks of 16 dimensions. -/
def distance (p x : List Byte) : W32 :=
  let dim := pDim p
  let q := p.drop 64
  (rangeFrom 0 ((dim + 15) / 16)).foldl (fun acc c =>
    let t := (f32Out .rne (fSum ((rangeFrom (16 * c) (Nat.min 16 (dim - 16 * c))).map fun i =>
      distTerm (pMetric p) (vecElem (pFmt p) q i) (vecElem (pFmt p) x i)))).1
    (fadd32 .rne acc t).1) 0

/-- Keys in order: by distance, then by id. -/
def keyLt (a b : Key) : Bool := decide (fOrd32 a.dist < fOrd32 b.dist) || (decide (fOrd32 a.dist = fOrd32 b.dist) && decide (a.id < b.id))

/-- Inserts a key, best first. -/
def keyInsert (a : Key) : List Key → List Key
  | [] => [a]
  | b :: l => if keyLt a b then a :: b :: l else b :: keyInsert a l

/-- offerC and offerR (R347): a list of at most `cap` keys. -/
def offer (cap : Nat) (l : List Key) (a : Key) : List Key :=
  if l.length < cap then keyInsert a l
  else match l.getLast? with
    | some w => if keyLt a w then keyInsert a l.dropLast else l
    | none => l
def offerR (cap : Nat) (l : List Key) (a : Key) : List Key := if l.any (fun b => decide (b.id = a.id)) then l else offer cap l a

/-! ### The visited set (R345) -/

def visitHome (v n : Nat) : Nat := n * 0x9E3779B1 % 2 ^ 32 / 2 ^ (32 - v)

/-- The slot where a lookup stops, and whether it stops at the id. -/
def visitProbe (m : SMap Nat) (v n : Nat) : Nat → Nat → Nat × Bool
  | 0, h => (h, false)
  | k + 1, h =>
    match smFind? m h with
    | some x => if x = n then (h, true) else visitProbe m v n k ((h + 1) % 2 ^ v)
    | none => (h, false)

def visited (c : Ctx) (n : Nat) : Bool := (visitProbe c.visited (pV c.q.pkt) n (2 ^ pV c.q.pkt) (visitHome (pV c.q.pkt) n)).2

def visitInsert (c : Ctx) (n : Nat) : Ctx :=
  let v := pV c.q.pkt
  if 7 * 2 ^ (v - 3) ≤ c.visited.length then { c with status := setFlag c.status sVovf }
  else { c with visited := smPut c.visited (visitProbe c.visited v n (2 ^ v) (visitHome v n)).1 n }

/-! ### The traversal (R347) -/

/-- A node not visited is inserted and requested, for an expansion. -/
def visitAsk (exp : Nat) (c : Ctx) (n : Nat) : Ctx :=
  if visited c n then c
  else
    let c1 := visitInsert c n
    { c1 with
      asks := c1.asks ++ [⟨homeStack c1.desc n, n, exp, false⟩]
      exps := c1.exps.map fun e => if e.id = exp then { e with waits := e.waits + 1 } else e }

/-- Starts expansions while it may, and finishes when nothing is left. -/
def advance : Nat → Ctx → Ctx
  | 0, c => c
  | n + 1, c =>
    match c.cand with
    | best :: rest =>
      let full := match c.res.getLast? with
        | some w => decide (pK c.q.pkt ≤ c.res.length) && keyLt w best
        | none => false
      if c.exps.length < 4 ∧ !full then
        advance n { c with
          cand := rest
          exps := c.exps ++ [⟨c.nextExp, best.id, false, 0⟩]
          asks := c.asks ++ [⟨homeStack c.desc best.id, best.id, c.nextExp, true⟩]
          nextExp := c.nextExp + 1 }
      else if full && c.exps.isEmpty && c.asks.isEmpty then { c with fin := true } else c
    | [] => if c.exps.isEmpty && c.asks.isEmpty then { c with fin := true } else c

/-- A processed reply (R347). -/
def replyCtx (c : Ctx) (a : Ask) (d : W32) (del : Bool) : Ctx :=
  let c1 := { c with
    asks := c.asks.erase a
    evals := Nat.min (c.evals + 1) 0xFFFFFFFF
    exps := (c.exps.map fun (e : Expansion) => if e.id = a.exp then { e with waits := e.waits - 1 } else e).filter
      fun e => !(e.asked && decide (e.waits = 0)) }
  let c2 := if isNan32 d then { c1 with status := setFlag c1.status sNandist }
    else { c1 with
      cand := offer (pEf c.q.pkt) c1.cand ⟨d, a.node⟩
      res := if del then c1.res else offerR (pK c.q.pkt) c1.res ⟨d, a.node⟩ }
  advance 5 c2

/-- A neighbour of an expansion, in stored order. -/
def neighbour (exp : Nat) (adj : List Byte) (c : Ctx) (j : Nat) : Ctx :=
  let n := pNat adj (4 + 4 * j) 4
  if n = 0xFFFFFFFF then c
  else if gNodes c.desc ≤ n then { c with status := setFlag c.status sBadid }
  else visitAsk exp c n

/-- The adjacency that a request asked for has been read. -/
def expandCtx (c : Ctx) (a : Ask) (adj : List Byte) : Ctx :=
  let deg := pNat adj 0 4 % 128
  let c0 := { c with asks := c.asks.erase a }
  let c1 := if gMaxdeg c.desc < deg then { c0 with status := setFlag c.status sBadid } else c0
  let c2 := (rangeFrom 0 (Nat.min deg (gMaxdeg c.desc))).foldl (neighbour a.exp adj) c1
  let c3 := { c2 with
    exps := (c2.exps.map fun (x : Expansion) => if x.id = a.exp then { x with asked := true } else x).filter
      fun x => !(x.asked && decide (x.waits = 0)) }
  advance 5 c3

/-! ### Contexts -/

def getCtx (s : State) (st n : Nat) : Option Ctx := smFind? (getHeather s st).ctxs n
def putCtx (s : State) (st n : Nat) (c : Ctx) : State :=
  let h := getHeather s st
  setHeather s st { h with ctxs := smPut h.ctxs n c }

/-- A read or write of a context did not return bytes: it waits for a page, or ends with a code (R351). -/
def ctxStop (s : State) (st n : Nat) (c : Ctx) (r : GRead) : Out :=
  match r with
  | .badAddr pa => .fault (.noSuchAddress pa)
  | .fault code va logged =>
    .next (putCtx (if logged then logWalk s c.q.asid va 6 else s) st n { c with fcode := code, fva := va })
  | .miss va =>
    .next (askWalk (putCtx s st n { c with st := .suspended (va / 4096), walking := true, wva := va }) c.q.asid (va / 4096) 6 (.heather st))
  | .spoilt va pa key ver => .next (putCtx (poisonTier s pa key ver) st n { c with fcode := ccIntegrity, fva := va })
  | .ok _ => .next s

/-- The oldest request that a context has sent to a stack: its replies come back in the order of the requests (R347). -/
def nextAsk (c : Ctx) (stack : Nat) : Option Ask := c.asks.find? fun a => decide (a.stack = stack)

/-- The places of a stack's query-vector store that are taken (R346). -/
def placesTaken (s : State) (st : Nat) : Nat :=
  (s.heather.map fun h => (h.2.ctxs.filter fun c => decide (c.2.st ≠ .waitPlace) && !(c.2.fin && c.2.desc.isEmpty) &&
    (pSmask c.2.q.pkt).testBit st).length).foldl (· + ·) 0

/-- A context takes its places when there is one in every stack it needs. -/
def takePlaces (st : Nat) (s : State) (n : Nat) : State :=
  match getCtx s st n with
  | none => s
  | some c =>
    if c.st = .waitPlace ∧ !c.fin ∧ ((List.range 8).all fun x => !(pSmask c.q.pkt).testBit x || decide (placesTaken s x < 512)) then
      putCtx s st n { c with st := .running }
    else s

/-- The descriptor is read and checked, and the entry points are requested (R347, R351). -/
def beginCtx (s : State) (st n : Nat) (c : Ctx) : Out :=
  match readGraph s st c.q.asid (pGdesc c.q.pkt) 128 none with
  | .ok d =>
    if graphBad d c.q.pkt then .next (putCtx s st n { c with desc := d, status := setFlag c.status sBadq, fin := true })
    else .next (putCtx s st n ((rangeFrom 0 (pNent c.q.pkt)).foldl (fun c e => visitAsk 0 c (pEntry c.q.pkt e)) { c with desc := d }))
  | r => ctxStop s st n c r

/-- QUERY_CONTEXT_ALLOCATE (R337, R346, R351, R356): the oldest packet takes the lowest free context; waiting packets claim their
slots and enter the admission buffer; contexts take their places;
the lowest context that has not begun reads its descriptor. -/
def execQueryContextAllocate (stack : Nat) (s : State) : Out :=
  let h := getHeather s stack
  let free := (List.range 64).find? fun n => (smFind? h.ctxs n).isNone
  let s0 := match h.admitQ, free with
    | q :: rest, some n => setHeather s stack { h with admitQ := rest, ctxs := smPut h.ctxs n { q := q } }
    | _, _ => s
  let s1 := (qsubPends s).foldl (qsubTry stack) s0
  let s2 := ((getHeather s1 stack).ctxs.map (·.1)).foldl (takePlaces stack) s1
  match (getHeather s2 stack).ctxs.find? fun c => decide (c.2.st = .running) && c.2.desc.isEmpty && !ctxEnded c.2 with
  | some (n, c) => beginCtx s2 stack n c
  | none => .next s2

/-- Whether a context works on. DEDUCED, notes/assumptions/22.md. -/
def ctxActive (c : Ctx) : Bool := decide (c.st = .running) && !ctxEnded c && !c.desc.isEmpty

/-- DISTANCE_REPLY (R342, R347): the oldest request that a context sent to a stack is answered: one read of the node's
vector and of its DEL bit. -/
def execDistanceReply (stack ctx fromStack : Nat) (s : State) : Out :=
  match getCtx s stack ctx with
  | none => .next s
  | some c =>
    match nextAsk c fromStack with
    | none => .next s
    | some a =>
      if a.adj || !ctxActive c then .next s
      else
        let va := recordVa c.desc c.q.pkt a.node
        let n := vecBytes c.q.pkt + 4
        match readGraph s stack c.q.asid va n (some fromStack) with
        | .ok bs =>
          let del := decide (pNat bs (vecBytes c.q.pkt) 4 / 2 ^ 31 = 1)
          let s1 := meter (meterBlocks s stack c.q.asid va n) c.q.part mSearchev 1
          .next (putCtx s1 stack ctx (replyCtx c a (distance c.q.pkt bs) del))
        | r => ctxStop s stack ctx c r

/-- ADJACENCY_REPLY (R347): the oldest request that a context sent to a node's home stack, if it asks for that node's
adjacency, is answered. All its bytes are read, whatever its DEG: DESIGN CHOICE, notes/assumptions/60.md. -/
def execAdjacencyReply (stack ctx node : Nat) (s : State) : Out :=
  match getCtx s stack ctx with
  | none => .next s
  | some c =>
    match nextAsk c (homeStack c.desc node) with
    | none => .next s
    | some a =>
      if !a.adj || decide (a.node ≠ node) || !ctxActive c then .next s
      else
        let va := recordVa c.desc c.q.pkt node + vecBytes c.q.pkt
        match readGraph s stack c.q.asid va (adjBytes c.desc) (some (homeStack c.desc node)) with
        | .ok bs => .next (putCtx (meterBlocks s stack c.q.asid va (adjBytes c.desc)) stack ctx (expandCtx c a bs))
        | r => ctxStop s stack ctx c r

/-! ### Results and publication (R349, R350) -/

/-- Whether a context writes a result array: it did not end with FAULT or BADQ. -/
def writesResults (c : Ctx) : Bool := decide (c.fcode = 0) && decide (c.status / sBadq % 2 = 0)

/-- Entry i of the result array. -/
def resultEntry (c : Ctx) (i : Nat) : List Byte :=
  match c.res[i]? with
  | some k => bytesOfNat 4 k.dist.toNat ++ bytesOfNat 4 k.id
  | none => bytesOfNat 4 0x7F800000 ++ bytesOfNat 4 0xFFFFFFFF

/-- Writes the entries still to be written, in order, at their homes (R255), as the home agent. Each entry is a write of its own:
DEDUCED, notes/assumptions/21.md; DESIGN CHOICE, notes/assumptions/49.md. -/
def writeResults (st n : Nat) : Nat → State → Ctx → Sum Out (State × Ctx)
  | 0, s, c => .inr (s, c)
  | k + 1, s, c =>
    if pK c.q.pkt ≤ c.wrote then .inr (s, c)
    else
      let va := pResult c.q.pkt + 8 * c.wrote
      match heatherTrans s st c.q.asid va .w with
      | .inl r => .inl (ctxStop s st n c r)
      | .inr (e, p) =>
        if e.mt = 0 ∧ !paOk p then .inl (.fault (.noSuchAddress p))
        else if e.mt = 0 ∧ inWindow p ∧ !windowBacked s p then .inl (ctxStop s st n c (.fault ccPermission va false))
        else if e.mt = 0 ∧ migrHolds s p then .inl (.next (putCtx s st n c))
        else match (if e.mt = 0 then ioFault s p 8 else none) with
          | some code => .inl (ctxStop s st n c (.fault code va false))
          | none =>
            let s1 := if e.mt = 0 then ioTouch s p 8 true else s
            writeResults st n k (writeThrough s1 e p (resultEntry c c.wrote)) { c with wrote := c.wrote + 1 }

/-- The completion record (R349). -/
def completionRecord (q : Query) (status nres fcode evals : Nat) : List Byte :=
  bytesOfNat 4 (pQid q.pkt) ++ bytesOfNat 4 q.qseq.toNat ++ bytesOfNat 2 status ++ bytesOfNat 1 nres ++ bytesOfNat 1 fcode
    ++ bytesOfNat 4 evals

/-- Publishes a query: its record is written, its slot filled, and a fault arises in its lane (R350, R351). -/
def publish (s : State) (q : Query) (status nres fcode evals fva : Nat) : State :=
  let k := q.core * 4 + q.tslot
  let s1 := match getRing (getTeam s k) q.ring with
    | none => s
    | some r =>
      let s1 := match spLocalPlain s k (slotAddr r q.slot) 16 with
        | some phys => spWritePlain s q.core phys (completionRecord q status nres fcode evals)
        | none => s
      setRing s1 k q.ring { r with slots := smPut r.slots q.slot (.filled (decide (fcode ≠ 0))) }
  let s2 := modTeam s1 k fun t => { t with qnext := t.qnext + 1 }
  let mine (t : Nat) : Bool := decide (teamOf s t = k)
  let s3 := napEvent (napEvent s2 0 mine) 3 mine
  if fcode ≠ 0 then
    lateFault s3 ((q.core * 64 + q.wslot) * 32 + q.lane) fcode 6 (BitVec.ofNat 64 fva) q.pc [] none 0
  else s3

/-- The queries of a team that have ended: stack and context, or a query cancelled before it had one. -/
def endedCtxs (s : State) (core tslot : Nat) : List (Nat × Nat × Ctx) :=
  s.heather.flatMap fun h => (h.2.ctxs.filter fun c =>
    decide (c.2.q.core = core) && decide (c.2.q.tslot = tslot) && ctxEnded c.2 && decide (c.2.st = .running)).map fun c => (h.1, c.1, c.2)
def cancelledOf (s : State) (core tslot : Nat) : List (Nat × Query) :=
  s.heather.flatMap fun h => (h.2.cancelled.filter fun q => decide (q.core = core) && decide (q.tslot = tslot)).map fun q => (h.1, q)

/-- An ended context's results are written and, when it is the team's next, it is published. -/
def publishCtx (s : State) (x : Nat × Nat × Ctx) (next : Bool) : Out :=
  let r : Sum Out (State × Ctx) := if writesResults x.2.2 then writeResults x.1 x.2.1 65 s x.2.2 else .inr (s, x.2.2)
  match r with
  | .inl o => o
  | .inr (s1, c) =>
    if !next then .next (putCtx s1 x.1 x.2.1 c)
    else
      let h := getHeather s1 x.1
      let s2 := setHeather s1 x.1 { h with ctxs := smDel h.ctxs x.2.1 }
      let nres := if writesResults c then c.res.length else 0
      .next (publish s2 c.q (if c.fcode ≠ 0 then setFlag c.status sFault else c.status) nres c.fcode
        (if c.status / sBadq % 2 = 1 then 0 else c.evals) c.fva)

/-- QUERY_PUBLISH (R349, R350): the team's next query, if it has ended, is published; else the results of another that has
ended are written. A swapped-out partition's teams wait (R353). -/
def execQueryPublish (core tslot : Nat) (s : State) : Out :=
  let tm := getTeam s (core * 4 + tslot)
  let l := endedCtxs s core tslot
  if !tm.live || tm.ended || decide (1024 ≤ core) then .next s
  else match (cancelledOf s core tslot).find? fun x => decide (x.2.qseq = tm.qnext) with
    | some (st, q) =>
      let h := getHeather s st
      .next (publish (setHeather s st { h with cancelled := h.cancelled.erase q }) q sCancelled 0 0 0 0)
    | none =>
      match l.find? fun x => decide (x.2.2.q.qseq = tm.qnext) with
      | some x => publishCtx s x true
      | none =>
        match l.find? fun x => writesResults x.2.2 && decide (x.2.2.wrote < pK x.2.2.q.pkt) with
        | some x => publishCtx s x false
        | none => .next s

end Sys2Proof.Machine
end

