-- ==== Sys2Proof/Machine/WorkQueue.lean ====
section
/-! DEFINITION. Work queues and hardware queue slots (R43, R330, R331, R421). -/
namespace Sys2Proof.Machine

/-! ### Pages of words that wait (R47) -/

/-- A lookup of a thread's translation in its core's cache; a walk that would refuse the access answers at once (R363). -/
def thTrans (s : State) (t va : Nat) (need : Need) : Trans :=
  let asid := (getTeam s (teamOf s t)).asid
  match lookup (threadTlb s t) asid va need with
  | .miss =>
    (match walk s asid va need with
      | .fault c _ => .fault c
      | _ => .miss)
  | r => r

/-- What a refused access of a header or an item leaves: the security-log entry of its walk, or the poison of what it read (R23,
R441). -/
def noteQueue (s : State) (t va : Nat) (need : Need) : State :=
  let asid := (getTeam s (teamOf s t)).asid
  match lookup (threadTlb s t) asid va need, walk s asid va need with
  | .miss, .fault _ true => logWalk s asid va 4
  | .hit e pa, _ => noteBad s e (transPa s e pa) 32
  | _, _ => s

/-- A word whose page is not in the translation cache waits for its walk, and then issues again. -/
def waitPages (s : State) (l : List (Nat × Nat)) (kind : Nat) : State :=
  l.foldl (fun s x =>
    let asid := (getTeam s (teamOf s x.1)).asid
    askWalk (modTh (corePmc s (coreOf x.1) 4 1) x.1 fun th => { th with wait := some (.page asid (x.2 / 4096) kind true) })
      asid (x.2 / 4096) kind (.core (coreOf x.1))) s

/-- A thread in another wait needs a page. -/
def needPage (s : State) (t va kind : Nat) : State :=
  let asid := (getTeam s (teamOf s t)).asid
  askWalk (modTh (corePmc s (coreOf t) 4 1) t fun th => { th with pageWait := some ⟨asid, va / 4096, kind, true, va⟩ }) asid (va / 4096) kind (.core (coreOf t))

/-! ### Headers as threads reach them (R330) -/

inductive HdrRes where
  | ok (pa : Nat) (h : QHdr)
  | miss
  | fault (code : Nat)
deriving DecidableEq, Repr

/-- The header a thread names: aligned to 64 bytes, in its partition's window, well-formed. Its counters change at its home,
whose protocol may refuse that (R385). The causes of a header that is not aligned, or outside the window: DESIGN CHOICE,
notes/assumptions/62.md. -/
def hdrAt (s : State) (t va : Nat) : HdrRes :=
  if va % 64 ≠ 0 then .fault ccAlign
  else match thTrans s t va .w with
    | .fault c => .fault c
    | .miss => .miss
    | .hit e pa0 =>
      let pa := transPa s e pa0
      if !inWindow pa || decide ((windowPlace pa).1 ≠ (getTeam s (teamOf s t)).part) || !windowBacked s pa then .fault ccPermission
      else match readBad s e pa 64 with
        | some c => .fault c
        | none =>
          match readHdr s pa, faultFor (coreOf t) s pa 64 with
          | none, _ => .fault ccPermission
          | some _, some c => .fault c
          | some h, none => .ok pa h

/-- A header opened for its counters to change: its grain in M at a core. -/
def hdrOpen (s : State) (c pa : Nat) : State × Option QHdr :=
  let s1 := touchFor c s pa 64 true
  (s1, readHdr s1 pa)

/-- The header that a thread's `deq` names, as the queue scheduler finds it in memory (R43, R421). -/
def hdrNow (s : State) (t va : Nat) : Option (Nat × QHdr) :=
  match transNow s (getTeam s (teamOf s t)).asid va .w with
  | (.ok e, pa0) =>
    let pa := transPa s e pa0
    if e.mt = 1 || decide (va % 64 ≠ 0) || !inWindow pa || !windowBacked s pa then none else (readHdr s pa).map fun h => (pa, h)
  | _ => none

/-- What a `deq` or an `enq` of one thread comes to: a page that is missing, or a fault, with its VA. -/
inductive QRes where
  | done (s : State) (item : List Byte)
  | wait (s : State)
  | miss (va : Nat)
  | fault (code va : Nat)

/-- Where the search for an item ends (R331): there is none, a page is missing, a fault, or the item's place. -/
inductive Pick where
  | none
  | miss (va : Nat)
  | fault (code va : Nat)
  | item (pa : Nat) (e : TlbEntry)
deriving DecidableEq, Repr

/-- The first item a `deq` returns, from a head up: withdrawn items of a fault queue are passed over (R331). -/
def deqPick (s : State) (t : Nat) (h : QHdr) : Nat → Nat → Nat × Pick
  | 0, head => (head, .none)
  | n + 1, head =>
    match thTrans s t (itemVa h head) .r with
    | .fault c => (head, .fault c (itemVa h head))
    | .miss => (head, .miss (itemVa h head))
    | .hit e pa =>
      let p := transPa s e pa
      if h.kind = 2 ∧ bitsOf (natOfBytes (readThrough s e (p + 16) 8)) 63 62 = 3 then deqPick s t h n ((head + 1) % 2 ^ 64)
      else (head, .item p e)

/-- `deq` in a thread (R331). The item is free where R330 leaves it unspecified. -/
def deqTry (s : State) (t va : Nat) : QRes :=
  match hdrAt s t va with
  | .fault c => .fault c va
  | .miss => .miss va
  | .ok pa h0 =>
    if h0.kind ≠ 0 ∧ (getTeam s (teamOf s t)).priv = 0 then .fault ccPermission va
    else if qPresent h0 = 0 then .wait s
    else
      let c := coreOf t
      match hdrOpen s c pa with
      | (s0, none) => .wait s0
      | (s0, some h) =>
        let r := deqPick s0 t h (Nat.min (qPresent h) (qCap h)) h.head
        match r.2 with
        | .none => .wait (if r.1 = h.head then s0 else putFor c s0 (pa + 0x10) (bytesOfNat 8 r.1))
        | .miss v => .miss v
        | .fault c v => .fault c v
        | .item ip e =>
          match readBad s0 e ip 32 with
          | some code => .fault code (itemVa h r.1)
          | none =>
            let s1 := if e.mt = 1 then s0 else meterLines (touchFor c s0 ip 32 false) ip 32
            let item := if qDisordered h || nsHas s1.spoilt (pa / 64) then bytesOfNat 32 (Config.freeItem s.n t) else readThrough s1 e ip 32
            .done (fqTaken (putFor c s1 (pa + 0x10) (bytesOfNat 8 ((r.1 + 1) % 2 ^ 64))) pa r.1) item

/-- An item is written, and its reservation published (R331). -/
def queuePost (c : Nat) (s : State) (pa : Nat) (h : QHdr) (place : Option Nat) (item : List Byte) : State :=
  let s1 := match place with
    | some ip => putFor c s ip item
    | none => s
  putFor c (putFor c s1 (pa + 0x18) (bytesOfNat 8 ((h.tail + 1) % 2 ^ 64))) (pa + 0x20) (bytesOfNat 8 ((h.done + 1) % 2 ^ 64))

/-- `enq` in a thread (R331): the reservation, the item and its publication in one step. In the final pass of a migration of
the item's page it waits (R375). -/
def enqTry (s : State) (t va : Nat) (item : List Byte) : QRes :=
  match hdrAt s t va with
  | .fault c => .fault c va
  | .miss => .miss va
  | .ok pa h0 =>
    if h0.kind ≠ 0 then .fault ccPermission va
    else if qFull h0 then .wait s
    else
      let c := coreOf t
      match hdrOpen s c pa with
      | (s0, none) => .wait s0
      | (s0, some h) =>
        let iv := itemVa h h.tail
        if h.kind ≠ 0 ∨ qFull h then .wait s0
        else match thTrans s0 t iv .w with
          | .fault c => .fault c iv
          | .miss => .miss iv
          | .hit e ip0 =>
            let ip := transPa s0 e ip0
            if decide (e.mt ≠ 1) && inWindow ip && !windowBacked s0 ip then .fault ccPermission iv
            else match (if e.mt = 1 then none else faultFor c s0 ip 32) with
              | some code => .fault code iv
              | none => .done (queuePost c s0 pa h (if e.mt = 1 then none else some ip) item) []

/-- The eight registers of an item. -/
def itemRegs (d : Nat) (bs : List Byte) : List (Nat × W32) :=
  (rangeFrom 0 8).map fun i => (d + i, BitVec.ofNat 32 (natOfBytes ((bs.drop (4 * i)).take 4)))

/-- A thread leaves its wait. -/
def wakeTh (th : Thread) : Thread :=
  { th with wait := none, snapped := false, pageWait := none, denied := false, refused := none, waitCount := 0 }

/-- The end of a `deq`'s wait (R198): SNAPK returns to 0 where it waited on a page. -/
def deqOver (th : Thread) : Thread :=
  wakeTh (if th.snapped ∧ th.tcause.extractLsb' 28 2 = 1 then { th with tcause := th.tcause &&& 0xCFFFFFFF } else th)

/-- deq (R331): in ascending lane order, each thread takes an item or waits. KIND 4 of its faults: DESIGN CHOICE,
notes/assumptions/63.md. -/
def execDeq (g : Guard) (d : WOct) (a : Src64) (s : State) : Out :=
  let r := srcRegs [] [a]
  let dst := groupRegs (8 * d.toNat) 8
  runWord { guard := g, reads := r.1, sreads := r.2, writes := dst, access := true } (fun _ _ acting =>
    if acting.any fun t => !resolved (getTh s t) then .stall
    else
      let one (x : State × List (Nat × Eff)) (t : Nat) : State × List (Nat × Eff) :=
        let va := (rd64 s t a).toNat
        let pc := (getTh s t).pc
        let wait : Eff := { wait := some (.deq va (8 * d.toNat) pc) }
        match deqTry x.1 t va with
        | .done s1 bs => (s1, x.2 ++ [(t, { w := itemRegs (8 * d.toNat) bs })])
        | .wait s1 => (s1, x.2 ++ [(t, wait)])
        | .miss v => (needPage x.1 t v 4, x.2 ++ [(t, wait)])
        | .fault c v => (lateFault (noteQueue x.1 t v .w) t c 4 (BitVec.ofNat 64 v) pc dst none 0, x.2)
      let r := acting.foldl one (s, [])
      .go r.1 r.2) s

/-- The class of a queue (R421): Rowan's service queues, whose headers lie in Rowan's frames, then partitions' service
queues, then fault queues, then user queues. -/
def queueClass (s : State) (pa kind : Nat) : Nat :=
  if potState (potEntry s (potGov s (pa / 4096))) = psRowan then 0
  else match kind with
    | 1 => 1
    | 2 => 2
    | _ => 3

/-- R421: a queue of another class than the users' that becomes a candidate between boundaries takes a free slot at once. -/
def mapQueue (s : State) (t va : Nat) : State :=
  match hdrNow s t va with
  | some (pa, h) =>
    if queueClass s pa h.kind < 3 ∧ 0 < qPresent h ∧ s.hwSlots.length < 64 ∧ !s.hwSlots.any (fun x => decide (x = pa)) then
      { s with hwSlots := s.hwSlots ++ [pa] }
    else s
  | none => s

/-- DEQ_TAKE (R43, R331, R421): a waiting `deq` takes an item. A page of it that `fqack` has denied faults late (R213). -/
def execDeqTake (t : Nat) (s : State) : Out :=
  let th := getTh s t
  match th.wait, th.pageWait with
  | some (.deq va d org), none =>
    let dst := groupRegs d 8
    let fail (s : State) (c v : Nat) : Out := .next (lateFault (modTh s t deqOver) t c 4 (BitVec.ofNat 64 v) org dst none 0)
    match th.refused with
    | some v => fail s ccNotMapped v
    | none =>
      match deqTry (mapQueue s t va) t va with
      | .done s1 bs => .next (modTh s1 t fun th => deqOver ((itemRegs d bs).foldl (fun th x => wrW th x.1 x.2) th))
      | .wait s1 => .next s1
      | .miss v => .next (needPage s t v 4)
      | .fault c v => fail (noteQueue s t v .w) c v
  | _, _ => .next s

/-- enq (R331): an operation of each acting thread, which performs once those before it have. -/
def execEnq (h : Hdr) (a : Src64) (d : WOct) (s : State) : Out :=
  let r := srcRegs [] [a]
  let src := groupRegs (8 * d.toNat) 8
  mopWord h.guard h.la.toNat (src ++ r.1, r.2) [] (fun t =>
    let va := (rd64 s t a).toNat
    newMop s t (.enq va (regBytes (getTh s t) (8 * d.toNat) 32)) true va) s

/-- ENQ_RESERVATION (R331): the oldest operation of a thread, an `enq`, reserves and writes its item once there is room; that
of a team which has been ended is abandoned where it would wait (R48). -/
def execEnqReservation (t : Nat) (s : State) : Out :=
  match getMop s t 0 with
  | none => .next s
  | some o =>
    match o.kind with
    | .enq va item =>
      if o.st ≠ .ready ∨ lowerLaneFirst s t o then .next s
      else
        let drop := dropMop s t 0 o
        (match enqTry s t va item with
          | .done s1 _ => .next (dropMop s1 t 0 o)
          | .wait s1 => .next (if (getTeam s (teamOf s t)).ended then drop else s1)
          | .miss v =>
            let tm := getTeam s (teamOf s t)
            let s1 := modTh s t fun th => { th with mq := th.mq.set 0 { o with addr := v, st := .walking } }
            .next (askWalk (corePmc s1 (coreOf t) 4 1) tm.asid (v / 4096) 4 (.core (coreOf t)))
          | .fault c v => .next (mopFault (noteQueue s t v .w) t 0 { o with addr := v } c))
    | _ => .next s

/-! ### Hardware queue slots (R43, R421) -/

/-- The queues with a waiting `deq`: header PA and KIND, where an item stands. -/
def queueCandidates (s : State) : List (Nat × Nat) :=
  let all := s.threads.filterMap fun x =>
    match x.2.wait with
    | some (.deq va _ _) =>
      (match hdrNow s x.1 va with
        | some (pa, h) => if 0 < qPresent h then some (pa, h.kind) else none
        | none => none)
    | _ => none
  all.foldl (fun l x => if l.any fun y => decide (y.1 = x.1) then l else l ++ [x]) []

/-- When a queue was last unmapped: never before one that has had no slot, now for one that has a slot. -/
def unmappedAt (s : State) (pa : Nat) : Nat := if s.hwSlots.any fun x => decide (x = pa) then s.clock + 1 else smGet 0 s.unmapped pa

/-- The candidates by class, then by when they were unmapped, then by address. -/
def rankQueues (s : State) (l : List (Nat × Nat)) : Nat → List (Nat × Nat)
  | 0 => []
  | n + 1 =>
    match minBy (fun x => (queueClass s x.1 x.2 * 2 ^ 64 + unmappedAt s x.1) * 2 ^ 64 + x.1) l with
    | none => []
    | some x => x :: rankQueues s (l.filter fun y => decide (y.1 ≠ x.1)) n

/-- The first thread waiting in `deq` on a queue that holds an item and a slot, or that takes a free slot at once: it becomes
ready (R43, R421). -/
def deqDue (s : State) : Option Nat :=
  firstSome (fun (x : Nat × Thread) =>
    match x.2.wait, x.2.pageWait with
    | some (.deq va _ _), none =>
      (match hdrNow s x.1 va with
        | some (pa, h) =>
          if decide (0 < qPresent h) && (s.hwSlots.any (fun y => decide (y = pa)) ||
            (decide (queueClass s pa h.kind < 3) && decide (s.hwSlots.length < 64))) then some x.1 else none
        | none => none)
    | _, _ => none) s.threads

/-- QUEUE_SLICE_BOUNDARY (R421): the first 64 candidates hold the slots until the next boundary. -/
def execQueueSliceBoundary (s : State) : Out :=
  let cands := queueCandidates s
  let now := (rankQueues s cands 64).map (·.1)
  let gone := s.hwSlots.filter fun x => !(now.any fun y => decide (y = x))
  .next { s with
    slices := s.slices + 1
    hwSlots := now
    unmapped := gone.foldl (fun m x => smPut m x s.clock) s.unmapped }

end Sys2Proof.Machine
end

