-- ==== Sys2Proof/Machine/System.lean ====
section
/-! DEFINITION. Special registers, traps, register counts and the register cache, and calls to the OS agent and to Rowan
(R115, R119 to R125, R193, R202, R204 to R212, R332). -/
namespace Sys2Proof.Machine

/-! ### Special registers (R115, R208) -/

/-- A special register as a thread reads it: 32 or 64 bits. -/
def readSpecial (s : State) (t : Nat) (r : SpecialReg) : Sum W32 W64 :=
  let th := getTh s t
  let w := getWarp s (warpOf t)
  let tm := getTeam s (teamOf s t)
  match r with
  | .flags => .inl w.flags
  | .arms => .inl tm.arms
  | .amax => .inl w.amax
  | .tvec => .inr tm.tvec
  | .tcause => .inl th.tcause
  | .tepc => .inr th.tepc
  | .tva => .inr th.tva
  | .tskid => .inl w.tskid
  | .tsnap i => .inl (match i.val with | 0 => th.tsnap0 | 1 => th.tsnap1 | 2 => th.tsnap2 | _ => th.tsnap3)
  | .lc i => .inl (getLc th i.val)
  | .clock => .inr (BitVec.ofNat 64 s.clock)
  | .budget => .inl (getCore s (coreOf t)).budget

/-- Whether a special register is 64 bits wide. -/
def specialWide : SpecialReg → Bool
  | .tvec | .tepc | .tva | .clock => true
  | _ => false

/-- mfs (R208). -/
def execMfs (g : Guard) (d : WReg) (r : SpecialReg) (s : State) : Out :=
  let dst := rangeFrom d.toNat (if specialWide r then 2 else 1)
  runThreads { guard := g, writes := dst, committed := true, special := some r } (fun t =>
    match readSpecial s t r with
    | .inl v => { w := [(d.toNat, v)] }
    | .inr v => { w := [(d.toNat, v.extractLsb' 0 32), (d.toNat + 1, v.extractLsb' 32 32)] }) s

/-- The RW fields of TCAUSE (R191), FLAGS and ARMS (R116). -/
def tcauseMask : W32 := 0xB80F00FF
def maskSpecial (r : SpecialReg) (v : W64) : W64 :=
  match r with
  | .flags => v &&& 0xF
  | .arms => v &&& 3
  | .tcause => v &&& tcauseMask.zeroExtend 64
  | .tvec | .tepc => v &&& ~~~(7 : W64)
  | _ => v

/-- A thread-scope register written. -/
def writeSpecialTh (th : Thread) (r : SpecialReg) (v : W64) : Thread :=
  let x : W32 := v.extractLsb' 0 32
  match r with
  | .tcause => { th with tcause := x }
  | .tepc => { th with tepc := v }
  | .tva => { th with tva := v }
  | .tsnap i => (match i.val with
    | 0 => { th with tsnap0 := x }
    | 1 => { th with tsnap1 := x }
    | 2 => { th with tsnap2 := x }
    | _ => { th with tsnap3 := x })
  | .lc i => setLc th i.val x
  | _ => th

/-- A warp-scope or team-scope register written. -/
def writeSpecialWarp (s : State) (w : Nat) (r : SpecialReg) (v : W64) : State :=
  let x : W32 := v.extractLsb' 0 32
  match r with
  | .flags => modWarp s w fun y => { y with flags := x }
  | .amax => modWarp s w fun y => { y with amax := x }
  | .arms => modTeam s (teamOfWarp s w) fun y => { y with arms := x }
  | .tvec => modTeam s (teamOfWarp s w) fun y => { y with tvec := v }
  | _ => s

/-- mts (R208): a warp-scope or team-scope register takes the value of the highest-numbered acting lane. -/
def execMts (g : Guard) (r : SpecialReg) (a : MtsSrc) (s : State) : Out :=
  let src := match a with
    | .v32 x => srcRegs [x] []
    | .v64 x => srcRegs [] [x]
  let val (t : Nat) : W64 := maskSpecial r (match a with
    | .v32 x => (rd32 s t x).zeroExtend 64
    | .v64 x => rd64 s t x)
  runWord { guard := g, reads := src.1, sreads := src.2, committed := true, special := some r } (fun w _ acting =>
    .go (inThreads (writeSpecialWarp s w r (val (acting.getLastD 0))) acting fun t x => writeSpecialTh x r (val t)) []) s

/-! ### Traps and the return from one (R204, R206, R209, R210) -/

/-- trap (R209): TEPC at the next word, TVA the operand. -/
def execTrap (g : Guard) (a : Src) (s : State) : Out :=
  let r := srcRegs [a] []
  runWord { guard := g, reads := r.1, sreads := r.2 } (fun _ _ acting =>
    .traps (acting.map fun t => (t, ⟨ccSoftware, 0, false, false, (getTh s t).pc + 8, (rd32 s t a).zeroExtend 64, none⟩))) s

/-- ebrk (R209). -/
def execEbrk (g : Guard) (s : State) : Out :=
  runWord { guard := g } (fun _ _ acting => .traps (acting.map fun t => (t, preciseTrap ccBreak (getTh s t).pc))) s

/-- rett (R204): the last return resumes the team (R205). -/
def execRett (g : Guard) (s : State) : Out :=
  match issuedSet s with
  | none => .next s
  | some (w, _) =>
    match runWord { guard := g } (fun _ _ acting =>
        let bad := acting.filter fun t => !(getTh s t).handler
        if !bad.isEmpty then .traps (bad.map fun t => (t, preciseTrap ccHandlerState (getTh s t).pc))
        else .go (inThreads s acting fun _ => rettThread) (acting.map fun t => (t, { jump := some (rettThread (getTh s t)).pc }))) s with
    | .next s1 => .next (resumeIfDone s1 (teamOfWarp s w))
    | r => r

/-- tkill (R206). -/
def execTkill (g : Guard) (s : State) : Out :=
  runWord { guard := g } (fun w _ _ => .go (endTeam s (teamOfWarp s w)) []) s

/-- fencex (R210). -/
def execFencex (g : Guard) (s : State) : Out := runThreads { guard := g, reports := true } (fun _ => {}) s

/-- Whether the words that a thread has issued have completed, and, of one that does not trap, those that do not wait under
R47 (R93, R95, R201). -/
def settled (th : Thread) : Bool := th.mq.all fun o =>
  !mopOpen o || (th.trapPend.isNone && (decide (o.st = .page) || decide (o.st = .blocked)))

/-- Changes RUN of a warp's bind record (R418); a warp that runs again starts its wait counts afresh (R45). -/
def setRunNow (s : State) (w : Nat) (run : Bool) : State :=
  let b := (getWarp s w).bind
  let s1 := modWarp s w fun x =>
    { x with bind := if run then b ||| (1 : BitVec 128) <<< 126 else b &&& ~~~((1 : BitVec 128) <<< 126) }
  if run && !bindRun b then
    (warpThreads w).foldl (fun s t => modTh s t fun th => { th with waitCount := 0 }) (modWarp s1 w fun x => { x with since := s.n })
  else s1

/-- Whether a halt of a team has still to stop its warps (R50): its trapping threads have not entered their handler. -/
def halting (s : State) (k : Nat) : Bool :=
  (getTeam s k).halted && (teamThreads s k).any fun t => (getTh s t).trapPend.isSome

/-- A pre-emption, or the end of one: during a halt it takes effect once every warp has stopped (R50). -/
def setRun (s : State) (w : Nat) (run : Bool) : State :=
  let k := teamOfWarp s w
  if halting s k then modTeam s k fun x => { x with runHeld := smPut x.runHeld w run } else setRunNow s w run

/-- The warps of a halted team that have not stopped. -/
def warpStopped (s : State) (w : Nat) : Bool :=
  let x := getWarp s w
  x.stopped || decide (8 ≤ x.skid) || (readyThreads s w).isEmpty

/-- HANDLER_ENTRY (R50, R193, R199 to R202): every warp has stopped and its words have completed; TSKID is written in every
warp, the trapping threads enter handler state, and a pre-emption that arrived takes effect. A warp that has words left of
its skid may stop before it issues them. -/
def execHandlerEntry (core tslot : Nat) (s : State) : Out :=
  let k := core * 4 + tslot
  let tm := getTeam s k
  let ths := teamThreads s k
  let trapping := ths.filter fun t => (getTh s t).trapPend.isSome
  if !tm.halted || trapping.isEmpty || !(ths.all fun t => settled (getTh s t)) || !tm.matPend.isEmpty then .next s
  else
    let s1 := (teamWarps s k).foldl (fun s w => modWarp s w fun x =>
      { x with
        stopped := true
        tskid := BitVec.ofNat 32 ((if x.reporter then 256 else 0) + x.skid) }) s
    let s2 := trapping.foldl (fun s t => modTh s t fun th =>
      match th.trapPend with
      | some i => enterHandler tm.tvec th i
      | none => th) s1
    .next (tm.runHeld.foldl (fun s x => setRunNow s x.1 x.2) (modTeam s2 k fun x => { x with runHeld := [] }))

/-! ### Register counts (R121 to R125) -/

/-- The core's register reservation in bytes (R121); a team that has been ended keeps its own until it retires (R123). -/
def reservation (s : State) (core : Nat) : Nat :=
  ((coreTeams s core).map fun k =>
    if (getTeam s k).demoted || !((teamWarps s k).any fun w => bindRun (getWarp s w).bind) then 0
    else ((teamThreads s k).map fun t => 4 * (getTh s t).nregs).foldl (· + ·) (getTeam s k).keeps).foldl (· + ·) 0

/-- The registers a request adds, in bytes. -/
def growAdds (s : State) (g : GrowReq) : Nat :=
  (g.asks.map fun x => 4 * (x.2 - (getTh s x.1).nregs)).foldl (· + ·) 0

/-- The trap of R122: a request of 0, above 32, or above the quota. -/
def growBad (s : State) (t : Nat) (a : W32) : Bool :=
  decide (a = 0) || decide (32 < a.toNat) || decide ((getTeam s (teamOf s t)).quota < 8 * a.toNat)

/-- rgrow (R122): the threads that ask for more wait for one grant of them all (R124). -/
def execRgrow (g : Guard) (o : Operand) (s : State) : Out :=
  let a := o.src
  let r := srcRegs [a] []
  runWord { guard := g, reads := r.1, sreads := r.2 } (fun w _ acting =>
    let bad := acting.filter fun t => growBad s t (rd32 s t a)
    if !bad.isEmpty then .traps (bad.map fun t => (t, preciseTrap ccRegQuota (getTh s t).pc))
    else
      let n (t : Nat) : Nat := 8 * (rd32 s t a).toNat
      let asking := acting.filter fun t => decide ((getTh s t).nregs < n t)
      let reqs : List GrowReq := if asking.isEmpty then [] else [⟨asking.map fun t => (t, n t), teamOfWarp s w % 4, s.n⟩]
      .go (modCore s (w / 64) fun c => { c with grows := c.grows ++ reqs })
        (asking.map fun t => (t, { wait := some (.rgrow (n t) s.n) }))) s

/-- The register lines that hold some of a thread's first n registers (R118). -/
def keptLines (n : Nat) : BitVec 32 := BitVec.ofNat 32 (2 ^ ((n + 7) / 8) - 1)

/-- A thread that keeps its first n registers (R122): the lines of the others leave the cache without write-back. -/
def shrinkThread (n : Nat) (th : Thread) : Thread :=
  if th.nregs ≤ n then th
  else
    { th with
      nregs := n
      regs := smFilter th.regs fun r => decide (r < n)
      poison := th.poison.filter fun r => decide (r < n)
      lines := th.lines &&& keptLines n
      dirty := th.dirty &&& keptLines n }

/-- rshrink (R122): the discarded registers are gone; it waits for loads that still have to write one of them. -/
def execRshrink (g : Guard) (o : Operand) (s : State) : Out :=
  let a := o.src
  let r := srcRegs [a] []
  runWord { guard := g, reads := r.1, sreads := r.2 } (fun _ _ acting =>
    let bad := acting.filter fun t => growBad s t (rd32 s t a)
    let n (t : Nat) : Nat := 8 * (rd32 s t a).toNat
    if !bad.isEmpty then .traps (bad.map fun t => (t, preciseTrap ccRegQuota (getTh s t).pc))
    else if (acting.any fun t => (flightW (getTh s t)).any fun r => decide (n t ≤ r)) then .stall
    else .go (inThreads s acting fun t => shrinkThread (n t)) []) s

/-- A granted thread (R122): the added registers are 0 and not poisoned, and are present. -/
def growThread (n : Nat) (th : Thread) : Thread :=
  { th with
    regs := smFilter th.regs fun r => decide (r < th.nregs)
    poison := th.poison.filter fun r => decide (r < th.nregs)
    nregs := n, wait := none, waitCount := 0 }

/-- Grants a request (R124): a team demoted under R125 counts again. -/
def grantGrow (s : State) (core : Nat) (g : GrowReq) : State :=
  let s1 := g.asks.foldl (fun s x => modTh s x.1 (growThread x.2)) s
  let s2 := modTeam s1 (core * 4 + g.tslot) fun x => { x with demoted := false }
  modCore s2 core fun c => { c with grows := c.grows.filter fun x => decide (x ≠ g) }

/-- RGROW_GRANT (R124, R125): the oldest request is granted when it fits, or when its team is alone; when every resident
team waits in `rgrow`, the lowest-PRIO team, the last placed among equals, is demoted first. A requesting team that was
demoted counts its whole reservation again. -/
def execRgrowGrant (core : Nat) (s : State) : Out :=
  match (if core < 1024 && !s.boot.hazelHalted then (getCore s core).grows else []) with
  | [] => .next s
  | g :: _ =>
    let k := core * 4 + g.tslot
    let own := if (getTeam s k).demoted then ((teamThreads s k).map fun t => 4 * (getTh s t).nregs).foldl (· + ·) 0 else 0
    let fits := decide (reservation s core + own + growAdds s g ≤ 262144)
    let active := (coreTeams s core).filter fun x =>
      !(getTeam s x).demoted && (teamWarps s x).any fun w => bindRun (getWarp s w).bind
    if fits || decide (active = [k]) then .next (grantGrow s core g)
    else if ((coreTeams s core).all fun x => (getCore s core).grows.any fun y => decide (core * 4 + y.tslot = x)) then
      match minBy (fun x => (getTeam s x).prio * 2 ^ 64 + (2 ^ 64 - 1 - (getTeam s x).placed)) (coreTeams s core) with
      | none => .next (grantGrow s core g)
      | some v =>
        .next (grantGrow (modTeam s v fun x => { x with demoted := true }) core g)
    else .next s

/-! ### The register cache (R119, R120) -/

/-- REGISTER_LINE_FILL (R119, R120): one line of a core is filled, by the number `lineOfNum` gives it; a full cache first
frees a line. The threads that waited for lines issue again once it is present. -/
def execRegisterLineFill (core line : Nat) (s : State) : Out :=
  let l := lineOfNum line
  let room := if residentLines s core < 8192 then some s else (victim s core l).map (evict s)
  match room with
  | none => .next s
  | some s1 =>
    if 1024 ≤ core ∨ !lineExists s1 core l ∨ linePresent s1 l then .next s
    else .next (corePmc (fillLine s1 l) core 3 1)

/-! ### Calls to the OS agent (R211, R332, R333) -/

def svcRefused : W32 := 0xFFFFFFFE
def svcAborted : W32 := 0xFFFFFFFF

/-- The 32 bytes of a service-queue item (R332). -/
def svcItem (s : State) (t buf : Nat) (func : W32) (tag : Nat) : List Byte :=
  let tm := getTeam s (teamOf s t)
  bytesOfNat 8 (buf % 2 ^ 57) ++ bytesOfNat 8 (tm.asid * 2 ^ 48 + tm.encl * 2 ^ 32 + func.toNat)
    ++ bytesOfNat 8 (laneOf t * 2 ^ 16 + wslotOf t * 2 ^ 10 + coreOf t % 1024) ++ bytesOfNat 8 tag

/-- Posts a request when the partition's queue has room and takes its item: the state and the TAG. -/
def svcPostTo (s : State) (p t buf : Nat) (func : W32) : Option (State × Nat) :=
  let x := getPart s p
  match x.svcq with
  | none => none
  | some (hdr, asid) =>
    match nowPa s asid hdr with
    | none => none
    | some pa =>
      let c := coreOf t
      match hdrOpen s c pa with
      | (_, none) => none
      | (s0, some h) =>
        if qFull h then none
        else match nowPa s0 asid (itemVa h h.tail) with
          | none => none
          | some ip =>
            if (faultFor c s0 ip 32).isSome || (faultFor c s0 pa 64).isSome then none
            else
              let s2 := queuePost c s0 pa h (some ip) (svcItem s t buf func x.nextTag)
              some (modPart s2 p fun y => { y with svcPend := y.svcPend ++ [⟨x.nextTag, t⟩], nextTag := x.nextTag + 1 }, x.nextTag)

/-- svc (R211, R333): in ascending lane order; before SVCQ, and with a buffer that is not aligned or not in a shared-rw page,
it is refused at once; a page not present waits. The post is a release at `.sys`. Any other fault of the buffer is REFUSED:
DESIGN CHOICE, notes/assumptions/48.md. -/
def execSvc (g : Guard) (d : WReg) (a : Src64) (b : Src) (s : State) : Out :=
  let r := srcRegs [b] [a]
  runWord { guard := g, reads := r.1, sreads := r.2, writes := [d.toNat], access := true } (fun w _ acting =>
    let p := (getTeam s (teamOfWarp s w)).part
    let va (t : Nat) : Nat := (rd64 s t a).toNat
    let miss := acting.filterMap fun t =>
      if (getTh s t).refused.isNone && (getPart s p).svcq.isSome && decide (va t % 256 = 0) && decide (thTrans s t (va t) .r = .miss) then some (t, va t) else none
    if (acting.any fun t => !resolved (getTh s t) || maintOpen s t) then .stall
    else if !miss.isEmpty then .stallOn (waitPages s miss 2)
    else
      let one (x : State × List (Nat × Eff)) (t : Nat) : State × List (Nat × Eff) :=
        let refuse := (x.1, x.2 ++ [(t, { w := [(d.toNat, svcRefused)] })])
        if (getTh s t).refused.isSome then
          (lateFault x.1 t ccNotMapped 2 (BitVec.ofNat 64 (va t)) (getTh s t).pc [d.toNat] none 0, x.2)
        else if va t % 256 ≠ 0 ∨ (getPart x.1 p).svcq.isNone then refuse
        else match thTrans x.1 t (va t) .r with
          | .hit e pa =>
            if e.mt ≠ 0 ∨ potState (potEntry x.1 (potGov x.1 (pa / 4096))) ≠ psSharedRw then refuse
            else
              let wait (tag : Option Nat) : Eff := { wait := some (.svc tag d.toNat (va t) (rd32 s t b)) }
              (match (if (getPart x.1 p).svcWait.isEmpty then svcPostTo x.1 p t (va t) (rd32 s t b) else none) with
                | some (s1, tag) => (s1, x.2 ++ [(t, wait (some tag))])
                | none => (modPart x.1 p fun y => { y with svcWait := y.svcWait ++ [t] }, x.2 ++ [(t, wait none)]))
          | _ => (noteQueue x.1 t (va t) .r, refuse.2)
      let r := acting.foldl one (s, [])
      .go r.1 r.2) s

/-- SVC_POST (R333): the oldest request held for room is posted, and takes its TAG then; not while its thread's meadow is swapped
out, whose threads issue nothing (R422). -/
def execSvcPost (p : Nat) (s : State) : Out :=
  match (getPart s p).svcWait.find? fun t => decide (coreOf t < 1024) with
  | none => .next s
  | some t =>
    let rest := (getPart s p).svcWait.erase t
    match (getTh s t).wait with
    | some (.svc none d buf func) =>
      (match svcPostTo s p t buf func with
        | none => .next s
        | some (s1, tag) =>
          .next (modTh (modPart s1 p fun y => { y with svcWait := rest }) t fun th =>
            { th with wait := some (.svc (some tag) d buf func) }))
    | _ => .next (modPart s p fun y => { y with svcWait := rest })

/-- The completion of a `svc` with a status. -/
def svcDone (s : State) (t : Nat) (v : W32) : State :=
  match (getTh s t).wait with
  | some (.svc _ d _ _) => modTh s t fun th => wakeTh (wrW th d v)
  | _ => s

/-- REPLY_DOORBELL (R19, R332): a reply whose TAG names no pending request, or whose status is reserved, is discarded. -/
def execReplyDoorbell (p : Nat) (tag : BitVec 64) (status : BitVec 32) (s : State) : Out :=
  if vfErred s p then .next (answerUnsupported s p)
  else if !vfUp s p ∨ status = svcRefused ∨ status = svcAborted then .next s
  else match (getPart s p).svcPend.find? fun r => decide (r.tag = tag.toNat) with
    | none => .next s
    | some r =>
      .next (svcDone (modPart s p fun y => { y with svcPend := y.svcPend.filter fun q => decide (q.tag ≠ r.tag) }) r.thread status)

/-! ### Calls to Rowan (R212, R403, R404) -/

def stOk : Nat := 0
def stBadFunc : Nat := 1
def stBadArgs : Nat := 2
def stNotOwner : Nat := 3
def stNoResource : Nat := 4
def stQuota : Nat := 5
def stOverlap : Nat := 6
def stNotMapped : Nat := 7
def stBadPerm : Nat := 8
def stBadFrame : Nat := 9
def stInUse : Nat := 0xA
def stCheckFailed : Nat := 0xB
def stNoPrivilege : Nat := 0xC
def stNoEnclave : Nat := 0xD
def stBadSeal : Nat := 0xE
def stBusy : Nat := 0xF

/-- The functions of R403. -/
def rowanFuncs : List Nat := [0x01, 0x02, 0x03, 0x04, 0x08, 0x09, 0x10, 0x11, 0x18, 0x19, 0x20, 0x21, 0x22]

/-- rcall (R212): the argument block is read under the caller's ASID; a page not present waits, any other fault returns
BAD_ARGS; an unknown function returns BAD_FUNC; the calls are posted in ascending lane order. -/
def execRcall (g : Guard) (d : WReg) (a : Src64) (b : Src) (s : State) : Out :=
  let r := srcRegs [b] [a]
  runWord { guard := g, reads := r.1, sreads := r.2, writes := [d.toNat], privileged := true, access := true } (fun w _ acting =>
    let tm := getTeam s (teamOfWarp s w)
    let va (t : Nat) : Nat := (rd64 s t a).toNat
    let miss := acting.filterMap fun t =>
      if (getTh s t).refused.isNone && decide (va t % 64 = 0) && decide (thTrans s t (va t) .r = .miss) then some (t, va t) else none
    if (acting.any fun t => !resolved (getTh s t) || maintOpen s t) then .stall
    else if !miss.isEmpty then .stallOn (waitPages s miss 2)
    else
      let one (x : State × List (Nat × Eff)) (t : Nat) : State × List (Nat × Eff) :=
        let status (c : Nat) := (x.1, x.2 ++ [(t, { w := [(d.toNat, BitVec.ofNat 32 c)] })])
        let func := (rd32 s t b).toNat
        if (getTh s t).refused.isSome then status stBadArgs
        else if va t % 64 ≠ 0 then status stBadArgs
        else match thTrans x.1 t (va t) .r with
          | .hit e pa0 =>
            let pa := fwdPa x.1 pa0
            if decide (e.mt ≠ 0) || !paOk pa || dataBad x.1 pa 64 e.key e.ver || (inWindow pa && !windowBacked x.1 pa) then
              (noteQueue x.1 t (va t) .r, (status stBadArgs).2)
            else if x.1.rowan.sleeping then status stBusy
            else if !(rowanFuncs.any fun f => decide (f = func)) then status stBadFunc
            else
              let s1 := meterLines (touchFor (coreOf t) x.1 pa 64 false) pa 64
              let args := (rangeFrom 0 8).map fun i => (BitVec.ofNat 64 (readNat s1 (pa + 8 * i) 8) : W64)
              ({ s1 with rowan := { s1.rowan with queue := s1.rowan.queue ++ [⟨t, func, args, va t, tm.encl⟩] } },
                x.2 ++ [(t, { wait := some (.rcall d.toNat) })])
          | _ => (noteQueue x.1 t (va t) .r, (status stBadArgs).2)
      let r := acting.foldl one (s, [])
      .go r.1 r.2) s

/-- The completion of an `rcall` with a status. -/
def callDone (s : State) (c : Call) (status : Nat) : State :=
  match (getTh s c.thread).wait with
  | some (.rcall d) => modTh s c.thread fun th => wakeTh (wrW th d (BitVec.ofNat 32 status))
  | _ => s

end Sys2Proof.Machine
end

