-- ==== Sys2Proof/Machine/Sched.lean ====
section
/-! DEFINITION. Launch, placement, issue selection, the slot table, guest switches and the retirement of teams (R34 to R54,
R117, R216, R416 to R425). -/
namespace Sys2Proof.Machine

/-! ### Launch records (R39) -/

def lrWord (l : List W64) (i : Nat) : Nat := (l.getD i 0).toNat
def lrEntry (l : List W64) : Nat := bitsOf (lrWord l 0) 56 0
def lrTvec (l : List W64) : Nat := bitsOf (lrWord l 1) 56 0
def lrParam (l : List W64) : Nat := bitsOf (lrWord l 2) 56 0
def lrJoin (l : List W64) : Nat := bitsOf (lrWord l 3) 56 0
def lrAsid (l : List W64) : Nat := bitsOf (lrWord l 4) 63 48
def lrPrio (l : List W64) : Nat := bitsOf (lrWord l 4) 41 40
def lrWarps (l : List W64) : Nat := bitsOf (lrWord l 4) 37 32
def lrRegs8 (l : List W64) : Nat := bitsOf (lrWord l 4) 29 24
def lrStep4k (l : List W64) : Nat := bitsOf (lrWord l 4) 21 16
def lrGh (l : List W64) : Nat := bitsOf (lrWord l 4) 12 8
def lrGw (l : List W64) : Nat := bitsOf (lrWord l 4) 4 0
def lrGridx (l : List W64) : Nat := bitsOf (lrWord l 5) 15 0
def lrGridy (l : List W64) : Nat := bitsOf (lrWord l 5) 31 16
def lrMmask (l : List W64) : Nat := bitsOf (lrWord l 6) 23 16
def lrRings (l : List W64) : Nat := bitsOf (lrWord l 6) 4 0

/-- Whether a reserved field of a record is non-zero. -/
def lrReserved (l : List W64) : Bool :=
  let b (i hi lo : Nat) : Bool := decide (bitsOf (lrWord l i) hi lo ≠ 0)
  b 0 63 57 || b 1 63 57 || b 2 63 57 || b 3 63 57 || b 4 47 42 || b 4 39 38 || b 4 31 30 || b 4 23 22 || b 4 15 13
    || b 4 7 5 || b 5 63 32 || b 6 63 24 || b 6 15 5 || (rangeFrom 7 9).any fun i => decide (lrWord l i ≠ 0)

/-! ### Shapes and places (R35) -/

/-- The core of team n of a grove at a place. -/
def placeCore (gw gh : Nat) (pl : Place) (n : Nat) : Nat :=
  let tx := n % gw
  let ty := n / gw
  let xy : Nat × Nat := if gh ≤ 8 then (pl.x0 + tx, pl.y0 + ty) else if ty < 8 then (pl.x0, ty) else (pl.x0 + 1, ty - 8)
  pl.meadow * 128 + xy.2 * 16 + xy.1

def placeCores (gw gh : Nat) (pl : Place) : List Nat := (List.range (gw * gh)).map (placeCore gw gh pl)

/-- Whether a rectangle of the shape lies in its meadow. -/
def placeFits (gw gh : Nat) (pl : Place) : Bool :=
  decide (pl.meadow < 8) &&
    (if gh ≤ 8 then decide (pl.x0 + gw ≤ 16) && decide (pl.y0 + gh ≤ 8) else decide (pl.x0 + 1 < 16) && decide (pl.y0 = 0))

/-- Whether every core of a place is granted to the partition. -/
def placeGranted (s : State) (p gw gh : Nat) (pl : Place) : Bool :=
  placeFits gw gh pl && (placeCores gw gh pl).all fun c => decide (corePart s c = p)

/-- The places of a meadow. -/
def meadowPlaces (m : Nat) : List Place := (List.range 128).map fun i => ⟨m, i % 16, i / 16⟩

/-- The meadows a record's groves may use. -/
def lrMeadows (l : List W64) : List Nat := (List.range 8).filter fun m => decide (lrMmask l = 0) || (lrMmask l).testBit m

/-! ### Context images (R117) -/

/-- PCFG's register ceiling and PLAIN (R416). -/
def regCeil (s : State) (p : Nat) : Nat := (bitsOf (getPart s p).pcfg.toNat 39 35 + 1) * 8
def partPlain (s : State) (p : Nat) : Nat := bitsOf (getPart s p).pcfg.toNat 34 30 * 16384
/-- A team's register quota, and the size of its image. -/
def regQuota (s : State) (p : Nat) (l : List W64) : Nat := Nat.max (8 * lrRegs8 l) (regCeil s p)
def imageSize (s : State) (p : Nat) (l : List W64) : Nat := 0x400 + lrWarps l * 0x1400 + lrWarps l * 32 * regQuota s p l * 4

/-- The lowest free run of `n` bytes in [lo, hi) beside runs in use: the scratchpad's (R216), and that of an image in its pool,
where one contiguous run, the lowest, is a DESIGN CHOICE, notes/assumptions/53.md. -/
def freeRun (used : List (Nat × Nat)) (lo hi n : Nat) : Option Nat :=
  let ok (a : Nat) : Bool := decide (a + n ≤ hi) && used.all fun u => decide (a + n ≤ u.1) || decide (u.1 + u.2 ≤ a)
  minBy id ((lo :: (used.map fun u => u.1 + u.2).filter fun a => decide (lo ≤ a)).filter ok)

/-- The images of `count` teams in a meadow's pool: none where they have no room. -/
def takeImages (s : State) (p m size : Nat) : Nat → List (Nat × Nat) → Option (List (Nat × Nat))
  | 0, _ => some []
  | n + 1, used =>
    match smFind? (getPart s p).ctx m with
    | none => none
    | some pool =>
      match freeRun used pool.1 (pool.1 + pool.2) size with
      | none => none
      | some a => (takeImages s p m size n ((a, size) :: used)).map fun l => (a, size) :: l

/-- The size of a meadow's pool. -/
def poolSize (s : State) (p m : Nat) : Nat := ((smFind? (getPart s p).ctx m).map (·.2)).getD 0

/-! ### The dispatcher's checks (R40) -/

/-- The JOIN checks: aligned, and mapped writable in the enclave. -/
def joinOk (s : State) (asid : Nat) (l : List W64) : Bool :=
  decide (lrJoin l % 8 = 0) &&
    (match transNow s asid (lrJoin l) .w with
      | (.ok _, _) => true
      | _ => false)

/-- The first check a record fails: its code, 0 when it passes. -/
def recordCheck (s : State) (e : Enclave) (l : List W64) : Nat :=
  let gw := lrGw l
  let gh := lrGh l
  let cores := (lrMeadows l).filter fun m => (meadowPlaces m).any (placeGranted s e.part gw gh)
  if lrReserved l then 0x01
  else if lrAsid l ≠ e.asid then 0x02
  else if gw = 0 ∨ 16 < gw ∨ gh = 0 ∨ 16 < gh ∨ 16 < gw * gh ∨ lrGridx l = 0 ∨ lrGridy l = 0 then 0x03
  else if lrWarps l = 0 ∨ 32 < lrWarps l then 0x04
  else if lrRegs8 l = 0 ∨ 32 < lrRegs8 l then 0x05
  else if lrStep4k l = 0 ∨ 32 < lrStep4k l then 0x06
  else if 16 < lrRings l then 0x07
  else if lrEntry l % 8 ≠ 0 ∨ lrTvec l % 8 ≠ 0 ∨ lrParam l % 8 ≠ 0 ∨ !joinOk s e.asid l then 0x08
  else if cores.isEmpty then 0x09
  else if cores.all fun m => decide (poolSize s e.part m < gw * gh * imageSize s e.part l) then 0x0B
  else 0

/-- Changes a kick register of an enclave. -/
def modKick (s : State) (encl kick : Nat) (f : Kick → Kick) : State :=
  match getEncl s encl with
  | none => s
  | some e => setEncl s encl { e with kicks := smMod {} e.kicks kick f }

/-- A refused record (R40, R441 where its JOIN checks meet a broken entry): KSTAT.LASTERR, and the store to JOIN where JOIN passes its checks; a store that faults, or that a
kick page ignores, is dropped. -/
def refuseRecord (s : State) (encl kick : Nat) (e : Enclave) (l : List W64) (code : Nat) : IoRes :=
  let s0 := if lrJoin l % 8 = 0 then noteNow s 0 e.asid (lrJoin l) 8 .w else s
  let s1 := modKick s0 encl kick fun k => { k with lasterr := BitVec.ofNat 8 code }
  if !joinOk s e.asid l then .done s1
  else match nowPa s1 e.asid (lrJoin l) with
    | some pa =>
      (match ioWrite s1 pa (bytesOfNat 8 (2 ^ 63 + code)) with
        | .fault _ => .done s1
        | r => r)
    | none => .done s1

/-- DISPATCH_RECORD (R38, R40): the dispatcher takes the oldest record of a kick register and checks it. -/
def execDispatchRecord (encl kick : Nat) (s : State) : Out :=
  match getEncl s encl with
  | none => .next s
  | some e =>
    match (smGet ({} : Kick) e.kicks kick).pend with
    | [] => .next s
    | r :: rest =>
      if e.state ≠ 1 then .next s
      else
        let s1 := modKick s encl kick fun k => { k with pend := rest, taken := k.taken + 1 }
        let code := recordCheck s1 e r.words
        if code ≠ 0 then
          (match refuseRecord s1 encl kick e r.words code with
            | .done s2 => .next s2
            | _ => .next s)
        else .next { s1 with launches := s1.launches ++ [⟨encl, kick, r.words, r.lrec, s.n, 0, none, false⟩] }

/-! ### Placement (R35, R42, R215, R216) -/

/-- The size of a team's allotment: 2·STEP and the plain window (R216). -/
def lrStep (l : List W64) : Nat := lrStep4k l * 4096
def plainSize (s : State) (p : Nat) (l : List W64) : Nat := Nat.min (partPlain s p) (524288 - 2 * lrStep l)
def allotSize (s : State) (p : Nat) (l : List W64) : Nat := 2 * lrStep l + plainSize s p l

/-- The runs of a core's scratchpad in use. -/
def allotments (s : State) (c : Nat) : List (Nat × Nat) :=
  (coreTeams s c).map fun k => ((getTeam s k).spBase, 2 * (getTeam s k).step + (getTeam s k).plain)

/-- DESIGN CHOICE, notes/assumptions/11.md. -/
def freeTslot (s : State) (c : Nat) : Option Nat := (rangeFrom (c * 4) 4).find? fun k => !(getTeam s k).live
def freeWslots (s : State) (c : Nat) : List Nat := (List.range 64).filter fun ws => !bindV (getWarp s (c * 64 + ws)).bind

def launchPart (s : State) (l : Launch) : Nat := (enclPart s l.encl).getD 64

/-- Whether a launch's next grove can be placed at a place now (R40, R42). -/
def canPlace (s : State) (l : Launch) (pl : Place) : Bool :=
  let p := launchPart s l
  let gw := lrGw l.words
  let gh := lrGh l.words
  ((lrMeadows l.words).any fun m => decide (m = pl.meadow)) && placeGranted s p gw gh pl
    && !nsHas (getPart s p).swapped pl.meadow && !nsHas (getPart s p).swapping pl.meadow
    && ((placeCores gw gh pl).all fun c =>
      (getCore s c).up && (freeTslot s c).isSome && decide (lrWarps l.words ≤ (freeWslots s c).length)
        && (freeRun (allotments s c) 0 524288 (allotSize s p l.words)).isSome)
    && (takeImages s p pl.meadow (imageSize s p l.words) (gw * gh) (getPart s p).ctxUsed).isSome

/-- Whether a launch is the oldest of its kick register (R42). -/
def headLaunch (ls : List Launch) (i : Nat) : Bool :=
  match ls[i]? with
  | none => false
  | some l => (ls.take i).all fun x => !(decide (x.encl = l.encl) && decide (x.kick = l.kick))

/-- Whether launch j ranks above launch i: a higher PRIO, or the same and taken earlier. -/
def ranksAbove (ls : List Launch) (j i : Nat) : Bool :=
  match ls[j]?, ls[i]? with
  | some a, some b => decide (lrPrio b.words < lrPrio a.words) || (decide (lrPrio b.words = lrPrio a.words) && decide (j < i))
  | _, _ => false

/-- Whether a waiting grove has been passed over for 1 ms (R42). -/
def launchStarved (s : State) (l : Launch) : Bool :=
  l.starved || (match l.passedSince with
    | some c => decide (c + 1000000 ≤ s.clock)
    | none => false)

/-- The heads that rank above launch i, with their numbers. -/
def headsAbove (s : State) (i : Nat) : List (Nat × Launch) :=
  (List.range s.launches.length).filterMap fun j =>
    if j ≠ i ∧ headLaunch s.launches j ∧ ranksAbove s.launches j i then (s.launches[j]?).map fun l => (j, l) else none

/-- The meadows a waiting grove may use (R42): those of its MMASK, or every meadow granted to the partition. -/
def mayUse (s : State) (l : Launch) (m : Nat) : Bool :=
  if lrMmask l.words = 0 then (List.range 128).any fun i => decide (corePart s (m * 128 + i) = launchPart s l)
  else (lrMmask l.words).testBit m

/-- Whether R42 lets launch i take a place before the groves that rank above it. -/
def rankAllows (s : State) (i : Nat) (l : Launch) (pl : Place) : Bool :=
  let cores := placeCores (lrGw l.words) (lrGh l.words) pl
  (headsAbove s i).all fun x =>
    !(launchStarved s x.2 && mayUse s x.2 pl.meadow)
      && !((meadowPlaces pl.meadow).any fun q => canPlace s x.2 q && meets cores (placeCores (lrGw x.2.words) (lrGh x.2.words) q))

/-- PRIV of a team (R418). -/
def privOf (s : State) (p encl : Nat) : Nat :=
  if (getPart s p).agent ≠ encl ∨ !(getPart s p).live && !(getPart s p).creating then 0
  else if (getPart s p).pcfg.getLsbD 61 then 2 else 1

/-- A bind record (R417). -/
def mkBind (priv tslot prio tenant warp asid grove team lrec : Nat) : BitVec 128 :=
  BitVec.ofNat 128 (2 ^ 127 + 2 ^ 126 + priv * 2 ^ 124 + tslot * 2 ^ 122 + prio * 2 ^ 120 + tenant * 2 ^ 114 + warp * 2 ^ 106
    + asid * 2 ^ 90 + grove * 2 ^ 58 + team * 2 ^ 54 + lrec)

/-- A run of a scratchpad as zeroing leaves it (R215). -/
def zeroAllot (c : Core) (lo n : Nat) : Core :=
  let out (k a : Nat) : Bool := decide (a * k < lo) || decide (lo + n ≤ a * k)
  { c with
    sp := smFilter c.sp (out 1)
    spBy := smFilter c.spBy (out 1)
    spWritten := c.spWritten.filter (out 16)
    spFull := c.spFull.filter (out 16)
    spEcc := c.spEcc.filter (out 16)
    granWait := c.granWait.filter fun g => out 16 g.1 }

/-- A thread at its team's start (R36). -/
def startThread (l : List W64) : Thread := { pc := BitVec.ofNat 64 (lrEntry l), nregs := 8 * lrRegs8 l, exited := false }

/-- The warps of a team at its start (R36): s0 holds PARAM and s1 JOIN. -/
def startWarp (s : State) (w : Nat) (l : List W64) (bind : BitVec 128) : State :=
  let s1 := setWarp s w { bind := bind, s := smSet 0 (smSet 0 [] 0 (BitVec.ofNat 64 (lrParam l))) 1 (BitVec.ofNat 64 (lrJoin l)), since := s.n }
  (warpThreads w).foldl (fun s t => setTh s t (startThread l)) s1

/-- One team of a grove is placed and starts, and its context image holds its initial state (R36, R117). -/
def placeTeam (s : State) (l : Launch) (gid gnum p c n : Nat) (img : Nat × Nat) : State :=
  match freeTslot s c with
  | none => s
  | some k =>
    let wslots := (freeWslots s c).take (lrWarps l.words)
    let step := lrStep l.words
    let base := (freeRun (allotments s c) 0 524288 (allotSize s p l.words)).getD 0
    let priv := privOf s p l.encl
    let asid := lrAsid l.words
    let s1 := setTeam s k {
      live := true, grove := gid, tnum := n, asid := asid, encl := l.encl, part := p, priv := priv,
      prio := lrPrio l.words, warps := lrWarps l.words, wslots := wslots, rings := lrRings l.words, step := step,
      plain := plainSize s p l.words, spBase := base, quota := regQuota s p l.words, img := img.1, imgSize := img.2,
      tvec := BitVec.ofNat 64 (lrTvec l.words), join := BitVec.ofNat 64 (lrJoin l.words), kick := l.kick, placed := gid }
    let s2 := modCore s1 c fun x => zeroAllot x base (allotSize s p l.words)
    let s3 := modPart s2 p fun x => { x with ctxUsed := x.ctxUsed ++ [img] }
    let s4 := (List.range wslots.length).foldl (fun s i =>
      startWarp s (c * 64 + wslots.getD i 0) l.words
        (mkBind priv (k % 4) (lrPrio l.words) p i asid gnum n (bitsOf l.lrec.toNat 56 7))) s3
    writeImage s4 k

/-- Whether a launch's next grove can be placed somewhere now. -/
def placeable (s : State) (l : Launch) : Bool :=
  (List.range 8).any fun m => (meadowPlaces m).any (canPlace s l)

/-- What a placement in a meadow does to a waiting grove that ranks above it (R42): one that cannot be placed is passed over
from then on; one that can be placed elsewhere has not been. -/
def passOne (s : State) (meadow : Nat) (x : Launch) : Launch :=
  if launchStarved s x || !mayUse s x meadow then x
  else if placeable s x then { x with passedSince := none }
  else if x.passedSince.isNone then { x with passedSince := some s.clock }
  else x

/-- The launches once launch i has had a grove placed. -/
def notePassed (s : State) (i : Nat) (pl : Place) : List Launch :=
  let above := headsAbove s i
  (List.range s.launches.length).filterMap fun j =>
    (s.launches[j]?).map fun x => if above.any fun a => decide (a.1 = j) then passOne s pl.meadow x else x

/-- GROVE_PLACEMENT (R35, R36, R42): Hazel places the next grove of a launch; its teams start together. -/
def execGrovePlacement (i : Nat) (pl : Place) (s : State) : Out :=
  match s.launches[i]? with
  | none => .next s
  | some l =>
    if s.boot.hazelHalted || !headLaunch s.launches i || !canPlace s l pl || !rankAllows s i l pl then .next s
    else
      let p := launchPart s l
      let gw := lrGw l.words
      let gh := lrGh l.words
      let gid := s.groveSeq
      let cores := placeCores gw gh pl
      let imgs := (takeImages s p pl.meadow (imageSize s p l.words) (gw * gh) (getPart s p).ctxUsed).getD []
      let keys := cores.map fun c => (freeTslot s c).getD 0
      let g : Grove := {
        teams := keys, gw := gw, gh := gh, gx := l.nextGrove % lrGridx l.words, gy := l.nextGrove / lrGridx l.words,
        gridw := lrGridx l.words, gridh := lrGridy l.words, meadow := pl.meadow, gPhase := 0, stepPhase := 0, held := [] }
      let s1 := { setGrove s gid g with groveSeq := gid + 1 }
      let s2 := (List.range cores.length).foldl (fun s n =>
        placeTeam s l gid l.nextGrove p (cores.getD n 0) n (imgs.getD n (0, 0))) s1
      let ls := notePassed s i pl
      let l' : Launch := { l with nextGrove := l.nextGrove + 1, passedSince := none, starved := false }
      .next { s2 with launches :=
        if l'.nextGrove = lrGridx l.words * lrGridy l.words then ls.eraseIdx i else ls.set i l' }

/-- PLACEMENT_STARVATION (R42): a grove passed over for 1 ms holds back lower ranks in its meadows. -/
def execPlacementStarvation (i : Nat) (s : State) : Out :=
  match s.launches[i]? with
  | none => .next s
  | some l => if launchStarved s l then .next { s with launches := s.launches.set i { l with starved := true } } else .next s

/-! ### Issue (R44, R45, R419) -/

/-- ISSUE_SELECTION (R44, R419): an issue slot chooses a tenant, a warp and the set to issue; the charge is made when the
word issues. -/
def execIssueSelection (core : Nat) (slot : Fin 4) (s : State) : Out :=
  if !(getCore s core).up then .next s
  else .next { s with turn := slotTurn s core slot.val }

/-- WAIT_COUNT_STARVATION (R45): the chosen warp has a ready thread whose wait count has reached 256, and the group of the
thread with the highest count issues. -/
def execWaitCountStarvation (core wslot : Nat) (s : State) : Out :=
  let w := core * 64 + wslot
  if (getCore s core).up && decide (chooseWarp s core (wslot % 4) = some w) && ((readyThreads s w).any fun t => decide (256 ≤ (getTh s t).waitCount)) then
    .next { s with turn := .warp core wslot (maskOf (issueSet s w)) }
  else .next s

/-! ### The slot table (R418, R49) -/

/-- The bits of a live record that Hazel may change: RUN and WCLASS. -/
def bindFree : BitVec 128 := (1 : BitVec 128) <<< 126 ||| (7 : BitVec 128) <<< 111

/-- BIND_RECORD_WRITE (R418): a live record takes only RUN and WCLASS, a write that changes more is discarded and logged in
Hazel's error status; a free slot takes a whole valid record, with the PRIV that R418 gives its enclave. DEDUCED,
notes/assumptions/12.md. -/
def execBindRecordWrite (core wslot : Nat) (rec : BitVec 128) (s : State) : Out :=
  let w := core * 64 + wslot
  let b := (getWarp s w).bind
  let p := bindTenant (if bindV b then b else rec)
  if s.boot.hazelHalted || nsHas (getPart s p).swapped (core / 128) then .next s
  else if bindV b then
    if (b &&& ~~~bindFree) ≠ (rec &&& ~~~bindFree) then
      .next { s with host := { s.host with hazelErr := s.host.hazelErr ++ [(core, wslot)] } }
    else
      let s1 := modWarp s w fun x => { x with bind := (b &&& ~~~((7 : BitVec 128) <<< 111)) ||| (rec &&& (7 : BitVec 128) <<< 111) }
      .next (setRun s1 w (bindRun rec))
  else
    let encl := asidEncl (asidEntry s (rec.extractLsb' 90 16).toNat)
    if bindV rec && decide (rec.extractLsb' 50 4 = 0) && decide (bindPriv rec = privOf s (bindTenant rec) encl) then
      .next (modWarp s w fun x => { x with bind := rec, since := s.n })
    else .next s

/-! ### Guest switches (R424, R425) -/

/-- The 4-byte words of a list at a VA, read one by one by the home agent, until one cannot be read. -/
def ioWords (asid : Nat) : Nat → Nat → State → State × Option (List Nat)
  | 0, _, s => (s, some [])
  | n + 1, va, s =>
    match ioReadVaBy 0 s asid va 4 with
    | (s1, none) => (s1, none)
    | (s1, some bs) =>
      let r := ioWords asid n (va + 4) s1
      (r.1, r.2.map fun l => natOfBytes bs :: l)

/-- An entry of a switch list: core, team slot and RUN; none where it is malformed or names no valid record. -/
def switchEntry (s : State) (p e : Nat) : Option (Nat × Nat × Bool) :=
  let core := bitsOf e 9 0
  let ts := bitsOf e 11 10
  if bitsOf e 31 13 ≠ 0 ∨ corePart s core ≠ p ∨ !(getTeam s (core * 4 + ts)).live ∨ (getTeam s (core * 4 + ts)).part ≠ p then none
  else some (core, ts, e.testBit 12)

/-- GSW (R19, R424): Hazel stages the RUN values of a switch list. -/
def execGsw (p : Nat) (v : BitVec 64) (s : State) : Out :=
  let x := getPart s p
  let va := bitsOf v.toNat 56 6 * 64
  let refuse (s : State) : State := modPart s p fun y => { y with gswResult := 2 }
  if vfErred s p then .next (answerUnsupported s p)
  else if !vfUp s p then .next s
  else if x.gswBusy then .next (refuse s)
  else
    let asid := enclAsid s x.agent
    match ioReadVaBy 0 s asid va 4 with
    | (s1, none) => .next (refuse s1)
    | (s1, some bs) =>
      let n := natOfBytes bs
      if n = 0 ∨ 256 < n then .next (refuse s1)
      else
        let r := ioWords asid n (va + 4) s1
        match r.2.map fun l => l.map (switchEntry s p) with
        | none => .next (refuse r.1)
        | some l =>
          if l.any (·.isNone) then .next (refuse r.1)
          else .next (modPart r.1 p fun y => { y with gswBusy := true, gswList := va, gswStaged := l.filterMap id })

/-- The RUN of every record of a team. -/
def setTeamRun (s : State) (k : Nat) (run : Bool) : State := (teamWarps s k).foldl (fun s w => setRun s w run) s

/-- GUEST_SWITCH_COMMIT (R411, R424): the staged values are written as one change. -/
def execGuestSwitchCommit (p : Nat) (s : State) : Out :=
  let x := getPart s p
  if !x.gswBusy || s.boot.hazelHalted then .next s
  else
    let s1 := x.gswStaged.foldl (fun s e =>
      let k := e.1 * 4 + e.2.1
      if (getTeam s k).live && decide ((getTeam s k).part = p) then setTeamRun s k e.2.2 else s) s
    .next (modPart s1 p fun y => { y with gswBusy := false, gswResult := 0, gswStaged := [] })

/-! ### Retirement (R51 to R53) -/

/-- Whether a team's work is over: its warps have retired or it has been ended; its jobs but for held cards (R319), which its
retirement drops, and its queries are done, and its stores have reached their homes. DESIGN CHOICE, notes/assumptions/11.md. -/
def teamDone (s : State) (k : Nat) : Bool :=
  let tm := getTeam s k
  let mine (q : Query) : Bool := decide (q.core = k / 4) && decide (q.tslot = k % 4)
  let ths := (teamWarps s k).flatMap warpThreads
  tm.live && (tm.ended || (teamWarps s k).all (warpRetired s))
    && !((getCore s (k / 4)).jobs.any fun j => j.posted && decide (j.state ≠ .held) && decide (j.tslot = k % 4))
    && !(tm.matPend.any fun m => match m.op with
      | .qsub _ _ _ _ _ _ => true
      | _ => false)
    && ths.all (fun t => storesDrained (getTh s t))
    && !(aheadOf s fun c j => decide (c * 4 + j.tslot ≠ k) && decide ((getTeam s (c * 4 + j.tslot)).grove = tm.grove))
    && !(s.maints.any fun m => ths.any fun t => decide (t = m.thread))
    && !(s.heather.any fun h => h.2.admitQ.any mine || (h.2.ctxs.any fun c => mine c.2.q) || h.2.cancelled.any mine)

/-- The team's resources are freed (R51): slot-table entry (V of every bind record of the team is cleared, R11, R418), warp slots, register lines and
image, scratchpad, rings, records and tokens; superstep writes held for it are dropped; the grove retires with its last
team. -/
def freeTeam (s : State) (k : Nat) : State :=
  let tm := getTeam s k
  let core := k / 4
  let ts := k % 4
  let ws := (rangeFrom (core * 64) 64).filter fun w => bindV (getWarp s w).bind && decide (bindTslot (getWarp s w).bind = ts)
  let s1 := ws.foldl (fun s w =>
    { setWarp s w { bind := (getWarp s w).bind &&& ~~~((1 : BitVec 128) <<< 127) } with
      threads := (warpThreads w).foldl smDel s.threads }) s
  let s2 := modCore s1 core fun c =>
    let c1 := zeroAllot (dropJobs c ts) tm.spBase (2 * tm.step + tm.plain)
    let mine (t : Nat) : Bool := match smFind? c.tiles t with
      | some x => decide (x.owner = ts)
      | none => false
    let slots : List Nat := [0, 1, 2, 3]
    let gone (slot t : Nat) : Bool := !((slotTenants s1 core slot).any fun x => decide (x = t))
    { c1 with
      tiles := smFilter c.tiles fun t => !mine t
      liveTile := c.liveTile.filter fun t => !mine t
      passed := smDel c.passed ts
      gained := smDel c.gained ts
      deficit := smFilter c.deficit fun d => !gone (d / 64) (d % 64)
      lastChosen := c.lastChosen.filter fun x => !(slots.any fun sl => decide (sl = x.1) && gone sl x.2) }
  let s3 := modPart s2 tm.part fun p => { p with ctxUsed := p.ctxUsed.filter fun u => decide (u.1 ≠ tm.img) }
  let s4 := setTeam s3 k { charge := tm.charge }
  match getGrove s4 tm.grove with
  | none => s4
  | some g =>
    let left := g.teams.filter fun x => decide (x ≠ k)
    if left.isEmpty then { s4 with groves := smDel s4.groves tm.grove } else setGrove s4 tm.grove
      { g with
        teams := left
        held := g.held.filter fun h => !(decide (h.core = core) && decide (h.tslot = ts)) }

/-- JOIN_FAULT (R52): the counter is unchanged, and the team's resources are still freed. -/
def joinFault (s : State) (k : Nat) : State :=
  let tm := getTeam s k
  freeTeam (modKick s tm.encl tm.kick fun x => { x with lasterr := 0x0A }) k

/-- TEAM_RETIREMENT (R51, R52): JOIN is decremented once, under the team's ASID and at its home, and the team's resources are
freed; a JOIN in a kick page ignores the write (R38). -/
def execTeamRetirement (core tslot : Nat) (s : State) : Out :=
  let k := core * 4 + tslot
  let tm := getTeam s k
  if !teamDone s k || decide (tm.joinWait = some false) || decide (1024 ≤ core) || s.boot.hazelHalted then .next s
  else if tm.joinWait = some true then .next (joinFault s k)
  else
    let va := tm.join.toNat
    match transNow s tm.asid va .w with
    | (.badAddr pa, _) => .fault (.noSuchAddress pa)
    | (.absent, _) =>
      let s1 := modTeam s k fun x => { x with joinWait := some false }
      .next (fqFault s1 ⟨tm.asid, 4, va / 4096, 0, 0, 0, 0, 0, tm.wslots.headD 0, core, none⟩)
    | (.fault _ logged, _) => .next (joinFault (if logged then logWalk s tm.asid va 4 else s) k)
    | (.ok e, pa) =>
      let p := fwdPa s pa
      if e.mt = 1 then .next (freeTeam s k)
      else if !paOk p ∨ (inWindow p ∧ !windowBacked s p) ∨ dataBad s p 8 e.key e.ver then
        .next (joinFault (if paOk p then poisonBad s p 8 e.key e.ver else s) k)
      else match ioWrite s p (bytesOfNat 8 ((readNat s p 8 + 2 ^ 64 - 1) % 2 ^ 64)) with
        | .done s1 => .next (freeTeam s1 k)
        | .fault _ => .next (joinFault s k)
        | .held => .next s

end Sys2Proof.Machine
end

