-- ==== Sys2Proof/Machine/Tables.lean ====
section
/-! DEFINITION. Rowan's table changes: frames, page tables, shootdowns and page migration (R366 to R376, R371, R403, R451). -/
namespace Sys2Proof.Machine

/-! ### Frames (R366, R369, R451) -/

/-- The page size of a POT entry, as a number of address bits. -/
def szBits (sz : Nat) : Nat := if sz = 1 then 21 else if sz = 2 then 31 else 12
/-- The SZ of a page of a size; a 64 KiB page has sixteen entries of SZ 0. -/
def bitsSz (bits : Nat) : Nat := if bits = 21 then 1 else if bits = 31 then 2 else 0

/-- One summary entry is replaced by the entries of `n` pages of `step` frames that make up its page. -/
def splitEntry (s : State) (g n step sz : Nat) : State :=
  let e := potEntry s g
  let frames := (List.range n).map fun i => g + step * i
  let st := smFind? s.stamps g
  { s with
    pot := frames.foldl (fun m f => smPut m f (mkPot (potOwner e) (potState e) (potVer e) sz)) s.pot
    stamps := match st with
      | some x => frames.foldl (fun m f => smPut m f x) s.stamps
      | none => s.stamps }

/-- Splits the large page that covers a frame until its entry covers at most 2^bits bytes. -/
def splitTo (s : State) (frame bits : Nat) : State :=
  let g := potGov s frame
  let s1 := if potSz (potEntry s g) = 2 ∧ bits < 31 then splitEntry s g 1024 512 1 else s
  let g1 := potGov s1 frame
  if potSz (potEntry s1 g1) = 1 ∧ bits < 21 then splitEntry s1 g1 512 1 0 else s1

/-- The first frames of the POT entries that a page of 2^bits bytes takes. -/
def pageEntries (frame bits : Nat) : List Nat := if bits = 16 then rangeFrom frame 16 else [frame]

/-- One entry for a page of 2 MiB or 2 GiB: its frames' own entries go. -/
def joinPage (s : State) (frame bits : Nat) : State :=
  if bits < 21 then s
  else
    let e := potEntry s frame
    let n := 2 ^ (bits - 12)
    { s with
      pot := smPut (smFilter s.pot fun f => decide (f < frame) || decide (frame + n ≤ f)) frame
        (mkPot (potOwner e) (potState e) (potVer e) (bitsSz bits))
      stamps := smFilter s.stamps fun f => decide (f ≤ frame) || decide (frame + n ≤ f) }

/-- A page's OWNER and STATE change, VER with them (R369). -/
def setPage (s : State) (frame bits owner state : Nat) : State :=
  let s1 := joinPage (splitTo s frame bits) frame bits
  (pageEntries frame bits).foldl (fun s f => potChange s f owner state) s1

/-- A page's blocks as Rowan writes them under a key ASID and the page's version. -/
def stampPage (s : State) (frame bits key : Nat) : State := (pageEntries frame bits).foldl (fun s f => stampFrame s f key) s

/-- Whether some frame of a POT entry holds what a partition has swapped out (R423). -/
def spilled (s : State) (p frame : Nat) : Bool :=
  (getPart s p).spill.any fun x => x.2.any fun f => decide (potGov s f = potGov s frame)

/-- Whether a whole page is free in a partition, and holds nothing swapped out. -/
def freeEntry (s : State) (p frame : Nat) : Bool :=
  let e := potEntry s (potGov s frame)
  decide (potState e = psFree) && decide (potOwner e = p) && !spilled s p frame
def free21 (s : State) (p frame : Nat) : Bool :=
  if potSz (potEntry s (potGov s frame)) = 0 then (rangeFrom frame 512).all (freeEntry s p) else freeEntry s p frame
def freeIn (s : State) (p frame bits : Nat) : Bool :=
  match bits with
  | 12 => freeEntry s p frame
  | 16 => (rangeFrom frame 16).all (freeEntry s p)
  | 21 => free21 s p frame
  | _ =>
    if potSz (potEntry s (potGov s frame)) = 2 then freeEntry s p frame
    else ((List.range 1024).map fun i => frame + 512 * i).all (free21 s p)

/-- The lowest-addressed free run of a partition: one frame, or an aligned pair (R451). Window frames hold no tables. -/
def lowestFree (s : State) (p n : Nat) : Option Nat :=
  let ok (f : Nat) : Bool := decide (f % n = 0) && (rangeFrom f n).all (freeEntry s p) && !inWindow (f * 4096)
  s.pot.findSome? fun x =>
    let sz := potSz x.2
    if potState x.2 = psFree ∧ potOwner x.2 = p ∧ sz ≠ 3 then
      (if ok x.1 then some x.1 else none)
    else none

/-- A frame or pair taken for a table of an enclave (R371): zero, in state page-table, under Rowan's key. -/
def takeTable (s : State) (p encl n : Nat) : Option (State × Nat) :=
  match lowestFree s p n with
  | none => none
  | some f =>
    let s1 := (rangeFrom f n).foldl (fun s g => stampFrame (setPage s g 12 encl psTable) g 0) s
    some (ioZero s1 (f * 4096) (n * 4096), f * 4096)

/-- A free page becomes an enclave's, zeroed under its key (R369). -/
def takePage (s : State) (frame bits encl key state : Nat) : State :=
  ioZero (stampPage (setPage s frame bits encl state) frame bits key) (frame * 4096) (2 ^ bits)

/-! ### Blocks as their tiers store them (R400, R402) -/

/-- The key of an ASID: Rowan's own is held outside the table. -/
def keySlot (s : State) (asid : Nat) : Option KeySlot :=
  if asid = 0 then some s.rowan.key else (s.keys.find? fun k => decide (k.2.asid = asid)).map (·.2)

/-- The key ASID and version that a block is held under: those of its context image (R117), or of its frame's stamp. -/
def blockStamp (s : State) (b : Nat) : Option (Nat × Nat) :=
  let g := potGov s (b / 64)
  match smFind? s.imgKeys b, smFind? s.stamps g with
  | some a, _ => some (a, potVer (potEntry s g))
  | none, some (.tagged a v) => some (a, v)
  | none, _ => none

/-- The keys KD and KT that hold a block; those of a slot that has been erased, where nothing has been written since. -/
def blockKeys (s : State) (b : Nat) : Option (List Byte × List Byte) :=
  let g := potGov s (b / 64)
  match smFind? s.lost (if (smFind? s.imgKeys b).isSome then lostImage b else g) with
  | some k => some k
  | none => ((blockStamp s b).bind fun x => keySlot s x.1).map fun k => (k.kd, k.kt)

/-- The tag of a block that would hold a ciphertext: none where no key holds it. -/
def blockTag (s : State) (b : Nat) (cipher : List Byte) : List Byte :=
  match (blockStamp s b).bind fun x => (keySlot s x.1).map fun k => (k.ki, x.2) with
  | some (ki, v) => fixLen 4 (Config.cmac ki (bytesOfNat 8 (b % 2 ^ 38) ++ bytesOfNat 1 v ++ cipher))
  | none => []

/-- The bytes of a block as its tier stores them: an exported image or a block written around its crypto engine as it stands,
or the ciphertext under the block's keys. -/
def storedBlock (s : State) (b : Nat) : List Byte :=
  let plain := tierBytes s (b * 64) 64
  if (tierRaw s b).isSome then plain
  else match blockKeys s b with
    | some k => fixLen 64 (Config.xtsEncrypt k.1 k.2 (bytesOfNat 16 (b % 2 ^ 38)) plain)
    | none => plain

/-- Whether a block belongs to an image kept as it stands. -/
def blockRaw (s : State) (b : Nat) : Bool := decide (smFind? s.stamps (potGov s (b / 64)) = some Stamp.raw)

/-- The tag that a tier holds for a block: what stood there when the block was written around its crypto engine stays. -/
def storedTag (s : State) (b : Nat) : List Byte :=
  match tierRaw s b with
  | some t => t
  | none => if blockRaw s b then [] else blockTag s b (storedBlock s b)

/-! ### Page tables (R360 to R362) -/

/-- The level of a leaf of a page size. -/
def leafLvl (bits : Nat) : Nat := if bits = 31 then 2 else if bits = 21 then 1 else 0

/-- What a search for the table of a level meets. -/
inductive TabRes where
  | ok (s : State) (table : Nat)
  | overlap
  | quota

/-- Rowan reads the entries of a walk at their homes (R225). -/
def touchWalk (s : State) (asid va : Nat) : State :=
  (walkPlaces s asid va).foldl (fun s a => if paOk a then meterLines (ioTouch s a 8 false) a 8 else s) s

/-- The table of level `lvl` for a VA, from the table of a level above it, missing tables built on the way (R371). -/
def ensureTable (p encl va lvl : Nat) : Nat → Nat → State → TabRes
  | 0, table, s => .ok s table
  | l + 1, table, s =>
    if l + 1 = lvl then .ok s table
    else
      let a := ptePlace table (l + 1) va
      let pte : W64 := BitVec.ofNat 64 (readNat s a 8)
      if !pteV pte then
        match takeTable s p encl (if l = 1 then 2 else 1) with
        | none => .quota
        | some (s1, t) => ensureTable p encl va lvl l t (rowanWrite s1 a 8 (mkTablePte t).toNat)
      else if pteLeaf pte then .overlap
      else ensureTable p encl va lvl l (ptePa pte) s

def rootOf (s : State) (asid : Nat) : Nat := asidRoot (asidEntry s asid) * 4096

/-- The leaf value of a page: sixteen entries with C64 make a 64 KiB page. -/
def leafWord (pa bits rwx : Nat) : Nat := (mkLeaf pa rwx 0).toNat + (if bits = 16 then 32 else 0)

/-- Writes the leaf entries of a page (V = 0 in each when `leaf` is 0). -/
def writeLeaves (s : State) (table va bits : Nat) (leaf : Nat → Nat) : State :=
  (List.range (if bits = 16 then 16 else 1)).foldl (fun s i =>
    rowanWrite s (ptePlace table (leafLvl bits) (va + 4096 * i)) 8 (leaf i)) s

/-- Maps one page: its missing tables, then its leaf. -/
def mapPage (s : State) (p encl asid va bits pa rwx : Nat) : TabRes :=
  match ensureTable p encl va (leafLvl bits) 4 (rootOf s asid) (touchWalk s asid va) with
  | .ok s1 t => .ok (writeLeaves s1 t va bits fun i => leafWord (pa + 4096 * i) bits rwx) t
  | r => r

/-- The leaf of a VA when it maps a page of the size at exactly that VA: its entry and its table's place. -/
def pageLeaf (s : State) (asid va bits : Nat) : Option (W64 × Nat) :=
  match findLeaf s asid va with
  | .leaf pte lvl a =>
    if lvl = leafLvl bits ∧ (pteC64 pte ↔ bits = 16) then some (pte, a - 8 * vaIndex lvl va) else none
  | _ => none

/-- Whether no entry maps any part of a page of a size. -/
def pageUnmapped (s : State) (asid va bits : Nat) : Bool :=
  let absentAt (v : Nat) : Option Nat :=
    match findLeaf s asid v with
    | .absent l => some l
    | _ => none
  match bits with
  | 12 => (absentAt va).isSome
  | 16 => (List.range 16).all fun i => (absentAt (va + 4096 * i)).isSome
  | 21 => (List.range 512).all fun i => (absentAt (va + 4096 * i)).isSome
  | _ => match absentAt va with
    | some l => if 2 ≤ l then true else (List.range 1024).all fun i =>
        (match absentAt (va + 2097152 * i) with
          | some l => decide (1 ≤ l) || (List.range 512).all fun j => (absentAt (va + 2097152 * i + 4096 * j)).isSome
          | none => false)
    | none => false

/-- Every leaf under a table: (VA, level, entry). -/
def tableLeaves (s : State) : Nat → Nat → Nat → List (Nat × Nat × W64)
  | lvl, table, base =>
    let n := if lvl = 1 then 1024 else if lvl = 2 then 256 else 512
    let sh := match lvl with | 4 => 48 | 3 => 39 | 2 => 31 | 1 => 21 | _ => 12
    match lvl with
    | 0 => (List.range n).filterMap fun i =>
        let pte : W64 := BitVec.ofNat 64 (readNat s (table + 8 * i) 8)
        if pteV pte then some (base + i * 2 ^ sh, 0, pte) else none
    | l + 1 => (List.range n).flatMap fun i =>
        let pte : W64 := BitVec.ofNat 64 (readNat s (table + 8 * i) 8)
        if !pteV pte then []
        else if pteLeaf pte then [(base + i * 2 ^ sh, l + 1, pte)]
        else tableLeaves s l (ptePa pte) (base + i * 2 ^ sh)

def asidLeaves (s : State) (asid : Nat) : List (Nat × Nat × W64) := tableLeaves s 4 (rootOf s asid) 0

/-- Whether some entry of any ASID maps a frame. -/
def frameMapped (s : State) (frame : Nat) : Bool :=
  s.asids.any fun a => asidV a.2 && (asidLeaves s a.1).any fun l =>
    decide (pteMt l.2.2 = 0) && decide (ptePa l.2.2 / 4096 ≤ frame) && decide (frame < ptePa l.2.2 / 4096 + 2 ^ (leafBits l.2.1 - 12))

/-! ### Taking calls (R371, R372, R403, R404) -/

/-- The call at the head of Rowan's queue, when it is of a function, and Rowan has none under way and no record to emit. DEDUCED,
notes/assumptions/13.md. -/
def headCall (s : State) (funcs : List Nat) : Option (Call × State) :=
  if rowanBusy s || (usageDue s).isSome then none
  else match s.rowan.queue with
    | c :: rest => if funcs.any (fun f => decide (f = c.func)) then some (c, { s with rowan := { s.rowan with queue := rest } }) else none
    | [] => none

def argW (c : Call) (i : Nat) : Nat := (c.args.getD i 0).toNat
/-- Size code, count, ASID, RWX and state of an argument block (R403). -/
def argBits (c : Call) : Nat := match bitsOf (argW c 2) 33 32 with | 0 => 12 | 1 => 16 | 2 => 21 | _ => 31
def argCount (c : Call) : Nat := bitsOf (argW c 2) 31 0
def argAsid (c : Call) : Nat := bitsOf (argW c 3) 15 0
def argRwx (c : Call) : Nat := bitsOf (argW c 3) 18 16
def argState (c : Call) : Nat := bitsOf (argW c 3) 21 20

/-- Whether the words of a block stay within masks; words past them are zero. -/
def argsWithin (c : Call) (masks : List Nat) : Bool :=
  (List.range 8).all fun i => decide (argW c i &&& masks.getD i 0 = argW c i)

def mask64 : Nat := 2 ^ 64 - 1

/-- The partition of a call's enclave. -/
def callPart (s : State) (c : Call) : Nat := (enclPart s c.encl).getD 0
/-- Whether the caller has hypervisor privilege (R390). -/
def callHyp (s : State) (c : Call) : Bool := decide ((getTeam s (teamOf s c.thread)).priv = 2)

/-- The target of a call: the enclave of a live ASID of the caller's partition, or the status that refuses it. -/
def callTarget (s : State) (c : Call) : Sum Nat (Nat × Enclave) :=
  let ae := asidEntry s (argAsid c)
  match asidV ae, getEncl s (asidEncl ae) with
  | true, some e => if e.state ≠ 1 then .inl stNoEnclave else if e.part ≠ callPart s c then .inl stNotOwner else .inr (asidEncl ae, e)
  | _, _ => .inl stNoEnclave

/-- The VAs of a call's range, or none where it is misaligned, empty or too long. -/
def callRange (c : Call) : Option (List Nat) :=
  let b := 2 ^ argBits c
  let va := argW c 0
  if argCount c = 0 ∨ va % b ≠ 0 ∨ 2 ^ 57 < va + argCount c * b then none
  else some ((List.range (argCount c)).map fun i => va + i * b)

/-- Whether a leaf may carry permissions over a frame in a POT state (R362, R367). -/
def permOk (rwx state : Nat) : Bool :=
  (!rwx.testBit 1 || rwx.testBit 0) && (!rwx.testBit 2 || decide (state = psPrivate)) && (!rwx.testBit 1 || decide (state ≠ psSharedRo))

/-- Whether MAP may use a page's frames in a state (R371). -/
def frameUsable (s : State) (p encl state pa bits : Nat) : Bool :=
  let used (f : Nat) : Bool :=
    let e := potEntry s f
    decide (potSz e = bitsSz bits) && decide (potState e = state) &&
      (decide (potOwner e = encl) || (decide (state ≠ psPrivate) && decide (enclPart s (potOwner e) = some p)))
  paOk pa && paOk (pa + 2 ^ bits - 1) &&
    (freeIn s p (pa / 4096) bits || (pageEntries (pa / 4096) bits).all fun f =>
      used f || (decide (bits ≤ 16) && freeEntry s p f))

/-- The frames of a page that are free become the enclave's. -/
def takeMapped (s : State) (p encl key state pa bits : Nat) : State :=
  if freeIn s p (pa / 4096) bits then takePage s (pa / 4096) bits encl key state
  else (pageEntries (pa / 4096) bits).foldl (fun s f => if freeEntry s p f then takePage s f 12 encl key state else s) s

/-- The pages of a MAP, one after the other. -/
def mapPages (p encl asid bits rwx : Nat) : List Nat → Nat → State → TabRes
  | [], _, s => .ok s 0
  | va :: vs, pa, s =>
    match mapPage s p encl asid va bits pa rwx with
    | .ok s1 _ => mapPages p encl asid bits rwx vs (pa + 2 ^ bits) s1
    | r => r

/-- MAP (R371, R372, R403). DEDUCED, notes/assumptions/14.md. -/
def mapCall (s : State) (c : Call) : State × Nat :=
  let no (x : Nat) : State × Nat := (s, x)
  if !argsWithin c [mask64, mask64, 2 ^ 34 - 1, 0x37FFFF] then no stBadArgs
  else match callTarget s c with
    | .inl x => no x
    | .inr (encl, _) =>
      let bits := argBits c
      let pa := argW c 1
      let st := argState c
      match callRange c with
      | none => no stBadArgs
      | some vas =>
        if pa % 2 ^ bits ≠ 0 ∨ st = 0 then no stBadArgs
        else if !(vas.all fun va => pageUnmapped s (argAsid c) va bits) then no stOverlap
        else
          let p := callPart s c
          let pas := (List.range vas.length).map fun i => pa + i * 2 ^ bits
          if !(pas.all fun a => frameUsable s p encl st a bits) then no stBadFrame
          else if !permOk (argRwx c) st then no stBadPerm
          else
            let s1 := pas.foldl (fun s a => takeMapped s p encl (argAsid c) st a bits) s
            match mapPages p encl (argAsid c) bits (argRwx c) vas pa s1 with
            | .ok s2 _ => (s2, stOk)
            | .overlap => no stOverlap
            | .quota => no stQuota

/-- A call that ends as Rowan takes it. -/
def runCall (funcs : List Nat) (f : State → Call → State × Nat) (s : State) : Out :=
  match headCall s funcs with
  | none => .next s
  | some (c, s1) =>
    let r := f s1 c
    .next (callDone r.1 c r.2)

/-- MAP (R371). -/
def execMap (s : State) : Out := runCall [0x01] mapCall s

/-! ### Shootdowns (R256, R373, R374) -/

/-- The agents that may hold a translation: those the state knows. DEDUCED, notes/assumptions/13.md. -/
def shootAgents (s : State) : List ShootAgent :=
  s.cores.flatMap (fun c => [ShootAgent.core c.1, ShootAgent.copyUnit c.1]) ++ s.heather.map (fun h => ShootAgent.heather h.1)
    ++ s.harts.map fun h => ShootAgent.hart h.1

/-- Whether an entry lies in the range of a shootdown. -/
def shootHits (d : Shoot) (e : TlbEntry) : Bool :=
  decide (e.asid = d.asid) && decide (d.lo < (e.vpn + 1) * 2 ^ e.bits) && decide (e.vpn * 2 ^ e.bits < d.hi)
def shootPage (d : Shoot) (asid page : Nat) : Bool :=
  decide (asid = d.asid) && decide (d.lo < (page + 1) * 4096) && decide (page * 4096 < d.hi)
def shootTlb (d : Shoot) (l : List TlbEntry) : List TlbEntry := l.filter fun e => !shootHits d e

/-- A page leaves an enclave: it becomes free in its partition (R369). -/
def releasePage (s : State) (p frame bits : Nat) : State := setPage s frame bits p psFree

/-- The frames of a page that no entry maps any longer become free (R371). -/
def releaseUnmapped (s : State) (p frame bits : Nat) : State :=
  let frames := rangeFrom frame (2 ^ (bits - 12))
  if frames.any (frameMapped s) then (frames.filter fun f => !frameMapped s f).foldl (fun s f => releasePage s p f 12) s
  else releasePage s p frame bits

/-- The end of a migration: forwarding ends and the old frame is free. -/
def endMigration (s : State) (m : Migration) : State :=
  let f := m.src / 4096
  let p := (enclPart s (potOwner (potEntry s (potGov s f)))).getD (potOwner (potEntry s (potGov s f)) % 64)
  let s1 := { s with rowan := { s.rowan with migr := none } }
  releasePage s1 p f m.bits

/-- AES-XTS over the blocks of a page in export form, with the tweaks of R405. DESIGN CHOICE, notes/assumptions/16.md. -/
def exportBlocks (f : (kd kt tweak : List Byte) → List Byte → List Byte) (k : KeySlot) (encl va gen : Nat) (bs : List Byte) : List Byte :=
  (List.range 64).flatMap fun i =>
    fixLen 64 (f k.kd k.kt (bytesOfNat 2 encl ++ bytesOfNat 6 (va / 4096) ++ bytesOfNat 8 gen ++ bytesOfNat 1 i) ((bs.drop (64 * i)).take 64))

/-- MAC of a sealed page (R405). DESIGN CHOICE, notes/assumptions/16.md. -/
def sealMac (k : KeySlot) (encl va gen : Nat) (cipher : List Byte) : List Byte :=
  fixLen 16 (Config.cmac k.ki (bytesOfNat 2 encl ++ bytesOfNat 8 va ++ bytesOfNat 8 gen ++ cipher))

/-- The end of a SEAL after its shootdown (R405): the page is read under R402, what is bad in it staying poisoned (R23); the image
goes to its tier (R214); the seal-list entry, the frames, and GEN in the argument block. -/
def endSeal (s : State) (c : Call) (va src dst rwx pot : Nat) : State :=
  let asid := argAsid c
  let encl := asidEncl (asidEntry s asid)
  match getEncl s encl with
  | none => s
  | some e =>
    let k := (smFind? s.keys e.kslot).getD ⟨0, [], [], []⟩
    let gen := e.gen + 1
    let s0 := meterLines (ioTouch (poisonHeld s src 4096) src 4096 false) src 4096
    let cipher := exportBlocks Config.xtsEncrypt k encl va gen (readBytes s0 src 4096)
    let bad := (blocksOf 64 src 4096).filter fun b =>
      nsHas s0.poison b || (smFind? s0.raw b).isSome || nsHas s0.ecc b || !backed s0 src
    let s1 := setEncl s0 encl { e with gen := gen, seals := e.seals ++ [⟨va, gen, rwx, pot, sealMac k encl va gen cipher⟩] }
    let s2 := setPage s1 (dst / 4096) 12 encl psSealed
    let s3 := ioPut { s2 with stamps := smPut s2.stamps (dst / 4096) .raw } dst cipher
    let s4 := { s3 with poison := bad.foldl (fun p b => nsAdd p (dst / 64 + (b - src / 64))) s3.poison }
    let s5 := releasePage ((blocksOf 128 dst 4096).foldl writeBackMetered s4) e.part (src / 4096) 12
    (ioWriteVa s5 (enclAsid s4 c.encl) (c.argVa + 0x20) (bytesOfNat 8 gen)).getD s5

/-- Step 5 of R373. -/
def finishShoot (s : State) (d : Shoot) : State :=
  let s1 := { s with rowan := { s.rowan with shoot := none } }
  let s2 := match d.andThen, d.call with
    | .none, _ => s1
    | .free frames, some c => frames.foldl (fun s f => releaseUnmapped s (callPart s c) f.1 f.2) s1
    | .move _ _ _ _, _ => (match s1.rowan.migr with
      | some m => endMigration s1 m
      | none => s1)
    | .sealPage va src dst rwx pot, some c => endSeal s1 c va src dst rwx pot
    | _, none => s1
  match d.call with
  | some c => callDone s2 c stOk
  | none => s2

/-- The broadcast of R373: walks under way that it covers are discarded (R365). -/
def startShoot (s : State) (asid lo hi : Nat) (andThen : ShootThen) (call : Option Call) : State :=
  let d : Shoot := ⟨asid, lo, hi, shootAgents s, andThen, call⟩
  let s1 := { s with
    rowan := { s.rowan with shoot := some d }
    walks := s.walks.map fun w => if shootPage d w.asid w.page then { w with stale := true } else w }
  if d.agents.isEmpty then finishShoot s1 d else s1

/-- Whether an agent may acknowledge (R256): no write or maintenance of a core, and no transfer of a copy unit, translated under
the old entry stands at a home, and the copy unit has no pieces to land behind others (R250). -/
def shootReady (s : State) (d : Shoot) (a : ShootAgent) : Bool :=
  match a with
  | .core c => (s.threads.all fun x =>
      decide (coreOf x.1 ≠ c) || x.2.mq.all fun o =>
        !(isStore o && o.glob && decide (o.st = .home) && shootPage d (getTeam s (teamOf s x.1)).asid (o.addr / 4096)))
      && !s.maints.any fun m => decide (coreOf m.thread = c) && decide (m.grains ≠ some []) && decide (m.asid = d.asid)
        && decide (m.va < d.hi) && decide (d.lo < m.va + m.len)
  | .copyUnit c => (getCore s c).jobs.all fun j => (!j.atHome && j.ahead.isEmpty) || decide ((getTeam s (c * 4 + j.tslot)).asid ≠ d.asid)
  | _ => true

/-- What an agent drops. -/
def shootDrop (s : State) (d : Shoot) (a : ShootAgent) : State :=
  match a with
  | .core c => modCore s c fun x => { x with tlb := shootTlb d x.tlb, slotTlb := x.slotTlb.map fun y => (y.1, shootTlb d y.2) }
  | .copyUnit c => modCore s c fun x =>
      { x with
        cuTlb := shootTlb d x.cuTlb
        jobs := x.jobs.map fun j => if (getTeam s (c * 4 + j.tslot)).asid = d.asid then { j with rdG := [], wrG := [] } else j }
  | .heather st => let h := getHeather s st; setHeather s st { h with tlb := shootTlb d h.tlb }
  | .hart h => let x := getHart s h; setHart s h { x with tlb := shootTlb d x.tlb }

/-- SHOOTDOWN_ACK (R256, R373): an agent drops its matching entries and acknowledges; the last one completes the shootdown. -/
def execShootdownAck (a : ShootAgent) (s : State) : Out :=
  match s.rowan.shoot with
  | none => .next s
  | some d =>
    if !(d.agents.any fun x => decide (x = a)) || !shootReady s d a then .next s
    else
      let d1 := { d with agents := d.agents.filter fun x => decide (x ≠ a) }
      let s1 := shootDrop { s with rowan := { s.rowan with shoot := some d1 } } d a
      .next (if d1.agents.isEmpty then finishShoot s1 d1 else s1)

/-! ### UNMAP, PROT, MOVE (R371, R375) -/

/-- Clears the leaves of pages. -/
def clearPages (s : State) (asid bits : Nat) (vas : List Nat) : State :=
  vas.foldl (fun s va => match pageLeaf s asid va bits with
    | some l => writeLeaves s l.2 va bits fun _ => 0
    | none => s) s

/-- UNMAP (R371). DEDUCED, notes/assumptions/14.md. -/
def unmapCall (s : State) (c : Call) : Sum Nat State :=
  if !argsWithin c [mask64, 0, 2 ^ 34 - 1, 0x100FFFF] then .inl stBadArgs
  else match callTarget s c with
    | .inl x => .inl x
    | .inr _ =>
      let bits := argBits c
      match callRange c with
      | none => .inl stBadArgs
      | some vas =>
        let leaves := vas.filterMap fun va => pageLeaf s (argAsid c) va bits
        if leaves.length ≠ vas.length then .inl stNotMapped
        else
          let s0 := vas.foldl (fun s va => touchWalk s (argAsid c) va) s
          let frames := (leaves.filter fun l => decide (pteMt l.1 = 0)).map fun l => (ptePa l.1 / 4096, bits)
          .inr (startShoot (clearPages s0 (argAsid c) bits vas) (argAsid c) (argW c 0) (argW c 0 + argCount c * 2 ^ bits)
            (if (argW c 3).testBit 24 then .free frames else .none) (some c))

/-- PROT (R371): a kick page keeps R and W. DEDUCED, notes/assumptions/14.md. -/
def protCall (s : State) (c : Call) : Sum Nat State :=
  if !argsWithin c [mask64, 0, 2 ^ 34 - 1, 0x7FFFF] then .inl stBadArgs
  else match callTarget s c with
    | .inl x => .inl x
    | .inr _ =>
      let bits := argBits c
      let rwx := argRwx c
      match callRange c with
      | none => .inl stBadArgs
      | some vas =>
        let leaves := vas.filterMap fun va => (pageLeaf s (argAsid c) va bits).map fun l => (va, l)
        let ok (pte : W64) : Bool :=
          if pteMt pte = 1 then decide (rwx = 3) else permOk rwx (potState (potEntry s (potGov s (ptePa pte / 4096))))
        if leaves.length ≠ vas.length then .inl stNotMapped
        else if !(leaves.all fun l => ok l.2.1) then .inl stBadPerm
        else
          let s1 := leaves.foldl (fun s l => writeLeaves s l.2.2 l.1 bits fun i =>
            if pteMt l.2.1 = 1 then l.2.1.toNat else leafWord (ptePa l.2.1 + 4096 * i) bits rwx)
            (vas.foldl (fun s va => touchWalk s (argAsid c) va) s)
          .inr (startShoot s1 (argAsid c) (argW c 0) (argW c 0 + argCount c * 2 ^ bits) .none (some c))

/-- The copy unit of a core of the destination's meadow, the lowest, reads and writes at the homes what a pass copies, each block
checked as it is read (R22, R23, R375, R431). -/
def copyPart (s : State) (src dst n : Nat) : State :=
  let c := homeMeadow (dst / 512) * 128
  let s1 := meterLines (engineTouch c (poisonHeld s src n) src n false) src n
  meterSpan (copyRange (engineTouch c s1 dst n true) src dst n) dst n

/-- Lines of a page copied to the new frame, with their poison (R375). -/
def copyLines (s : State) (src dst : Nat) (lines : List Nat) : State :=
  lines.foldl (fun s l => copyPart s (l * 128) (dst + (l * 128 - src)) 128) s

/-- Whether two pages of a size lie under the same protocols (R392). -/
def sameProto (s : State) (a b bits : Nat) : Bool :=
  (List.range (2 ^ (bits - 21))).all fun i => decide (protoOf s ((a + i * 2097152) / 512) = protoOf s ((b + i * 2097152) / 512))

/-- MOVE (R375): the destination takes the source's owner and state, and the first pass copies the page. DEDUCED,
notes/assumptions/15.md. -/
def moveCall (s : State) (c : Call) : Sum Nat State :=
  if !argsWithin c [mask64, mask64, 3 * 2 ^ 32, 0xFFFF] then .inl stBadArgs
  else match callTarget s c with
    | .inl x => .inl x
    | .inr _ =>
      let bits := argBits c
      let va := argW c 0
      let dst := argW c 1
      if va % 2 ^ bits ≠ 0 ∨ 2 ^ 57 ≤ va ∨ dst % 2 ^ bits ≠ 0 then .inl stBadArgs
      else match pageLeaf s (argAsid c) va bits with
        | none => .inl stNotMapped
        | some l =>
          let src := ptePa l.1
          if pteMt l.1 = 1 ∨ !paOk dst ∨ !backed s dst ∨ !backed s src ∨ !freeIn s (callPart s c) (dst / 4096) bits
              ∨ !sameProto s src dst bits then
            .inl stBadFrame
          else
            let e := potEntry s (potGov s (src / 4096))
            let key := match smFind? s.stamps (potGov s (src / 4096)) with
              | some (.tagged k _) => k
              | _ => argAsid c
            let s1 := stampPage (setPage s (dst / 4096) bits (potOwner e) (potState e)) (dst / 4096) bits key
            let s2 := copyPart (touchWalk s1 (argAsid c) va) src dst (2 ^ bits)
            .inr { s2 with rowan := { s2.rowan with migr := some ⟨c, argAsid c, va, bits, src, dst, 1, [], false, false⟩ } }

/-- A call whose end comes later: refused at once, or started. -/
def startCall (funcs : List Nat) (f : State → Call → Sum Nat State) (s : State) : Out :=
  match headCall s funcs with
  | none => .next s
  | some (c, s1) =>
    match f s1 c with
    | .inl x => .next (callDone s1 c x)
    | .inr s2 => .next s2

/-- UNMAP (R371, R373). -/
def execUnmap (s : State) : Out := startCall [0x02] unmapCall s
/-- PROT (R371, R373). -/
def execProt (s : State) : Out := startCall [0x03] protCall s
/-- MOVE (R371, R375). -/
def execMove (s : State) : Out := startCall [0x04] moveCall s

/-- MIG of a page's POT entry (R366). -/
def setMig (s : State) (frame : Nat) (on : Bool) : State :=
  let g := potGov s frame
  let e := potEntry s g
  { s with pot := smPut s.pot g (if on then e ||| 2 else e &&& ~~~(2 : W32)) }

/-- Whether a grain lies in a page. -/
def grainIn (src bits g : Nat) : Bool := decide (src ≤ g * 512) && decide (g * 512 < src + 2 ^ bits)

/-- A grain of the old frame as the new frame names it. -/
def forwardReq (m : Migration) (r : HomeReq) : HomeReq :=
  if grainIn m.src m.bits r.grain then
    { r with grain := m.dst / 512 + (r.grain - m.src / 512), lines := r.lines.map fun x => x + 2 * (m.dst / 128) - 2 * (m.src / 128) }
  else r

/-- The homes of a page write back its lines of a list (R384, CLN), for a recopy pass. -/
def cleanLines (s : State) (lines : List Nat) : State :=
  ((lines.map fun l => l / 4).foldl nsAdd []).foldl (fun s g =>
    homeNow s g evCLN ioAgent ((lines.filter fun l => decide (l / 4 = g)).map (2 * ·))) s

/-- The homes of a page recall every copy of its grains (R375, R384, INV). -/
def recallPage (s : State) (m : Migration) : State :=
  ((s.dir.map (·.1)).filter (grainIn m.src m.bits)).foldl (fun s g => homeNow s g evINV ioAgent ((rangeFrom (g * 4) 4).map (2 * ·))) s

/-- The final pass ends (R375, steps 3 to 5): copies are recalled, the last lines are copied, held requests go to the new
frame, the leaf names it, and the shootdown starts. -/
def switchFrame (s : State) (m : Migration) : State :=
  let s1 := copyLines (recallPage s m) m.src m.dst m.dirty
  let s2 := { s1 with
    dir := smFilter s1.dir fun g => !grainIn m.src m.bits g
    proxies := s1.proxies.filter fun x => !grainIn m.src m.bits (x.1 / 8)
    reqs := s1.reqs.map (forwardReq m)
    heldReqs := s1.heldReqs.map (forwardReq m)
    rowan := { s1.rowan with migr := some { m with forward := true, dirty := [] } } }
  let s3 := match pageLeaf s2 m.asid m.va m.bits with
    | some l =>
      let rwx := (if pteR l.1 then 1 else 0) + (if pteW l.1 then 2 else 0) + (if pteX l.1 then 4 else 0)
      writeLeaves s2 l.2 m.va m.bits fun i => leafWord (m.dst + 4096 * i) m.bits rwx
    | none => s2
  startShoot s3 m.asid m.va (m.va + 2 ^ m.bits) (.move m.va m.src m.dst m.bits) (some m.call)

/-- MIGRATION_PASS (R375): a pass ends; the next one copies the lines dirtied meanwhile, the final one starts with at most
64 of them or after the 16th pass, and the switch follows it once the page's rounds are over. DEDUCED,
notes/assumptions/15.md. -/
def execMigrationPass (s : State) : Out :=
  match s.rowan.migr with
  | none => .next s
  | some m =>
    if m.forward then .next s
    else if m.final then
      (if s.pends.any fun p => grainIn m.src m.bits p.1 then .next s else .next (switchFrame s m))
    else if m.dirty.length ≤ 64 ∨ 16 ≤ m.pass then
      .next (recallPage { setMig s (m.src / 4096) true with rowan := { s.rowan with migr := some { m with final := true } } } m)
    else
      let s1 := copyLines (cleanLines s m.dirty) m.src m.dst m.dirty
      .next { s1 with rowan := { s1.rowan with migr := some { m with dirty := [], pass := m.pass + 1 } } }

end Sys2Proof.Machine
end

