-- ==== Sys2Proof/Machine/Enclaves.lean ====
section
/-! DEFINITION. Enclaves: their creation, destruction and attestation, and the building of a partition's agent enclave
(R377, R393 to R401, R440, R451). -/
namespace Sys2Proof.Machine

/-! ### Spans of memory -/

/-- Reads bytes at a VA across pages: none where any page refuses. -/
def readSpan (s : State) (asid : Nat) : Nat → Nat → Nat → Option (List Byte)
  | 0, _, _ => some []
  | fuel + 1, va, n =>
    if n = 0 then some []
    else
      let k := Nat.min n (4096 - va % 4096)
      match readVa s asid va k, readSpan s asid fuel (va + k) (n - k) with
      | some a, some b => some (a ++ b)
      | _, _ => none

def readSpanAt (s : State) (asid va n : Nat) : Option (List Byte) := readSpan s asid (n / 4096 + 2) va n

/-- Writes bytes at a VA across pages: none where any page refuses. -/
def writeSpan (asid : Nat) : Nat → Nat → List Byte → State → Option State
  | 0, _, _, s => some s
  | fuel + 1, va, bs, s =>
    if bs.isEmpty then some s
    else
      let k := Nat.min bs.length (4096 - va % 4096)
      match ioWriteVa s asid va (bs.take k) with
      | some s1 => writeSpan asid fuel (va + k) (bs.drop k) s1
      | none => none

def writeSpanAt (s : State) (asid va : Nat) (bs : List Byte) : Option State := writeSpan asid (bs.length / 4096 + 2) va bs s

/-! ### Ids, ASIDs and key slots (R393, R451) -/

/-- The lowest free number above the last one assigned, wrapping, in [lo, hi]. -/
def nextFree (used : Nat → Bool) (lo hi last : Nat) : Option Nat :=
  let up := rangeFrom (last + 1) (hi - last)
  let wrap := rangeFrom lo (last + 1 - lo)
  (up ++ wrap).find? fun i => !used i

/-- A new enclave id, ASID and key slot. -/
def newIds (s : State) : Option (Nat × Nat × Nat) :=
  match nextFree (fun i => (smFind? s.encls i).isSome) 1 0xFFFE s.rowan.lastEncl,
      nextFree (fun i => asidV (asidEntry s i)) 1 0xFFFE s.rowan.lastAsid,
      nextFree (fun i => (smFind? s.keys i).isSome) 0 4095 s.rowan.lastKslot with
  | some a, some b, some c => some (a, b, c)
  | _, _, _ => none

/-- Takes the ids, writes the key slot with fresh keys (R401), and counts the enclave. -/
def takeIds (s : State) (ids : Nat × Nat × Nat) : State :=
  let r := s.rowan
  { s with
    rowan := { r with lastEncl := ids.1, lastAsid := ids.2.1, lastKslot := ids.2.2, ord := r.ord + 1, drbg := r.drbg + 3 }
    keys := smPut s.keys ids.2.2 ⟨ids.2.1, fixLen 32 (Config.drbg r.drbg), fixLen 32 (Config.drbg (r.drbg + 1)), fixLen 32 (Config.drbg (r.drbg + 2))⟩ }

/-- The root table of a new ASID (R451 leaves its place in the order open; it is taken first). -/
def newRoot (s : State) (p encl asid : Nat) : Option State :=
  match takeTable s p encl 1 with
  | none => none
  | some (s1, root) => some { s1 with asids := smPut s1.asids asid (mkAsid p encl (root / 4096)) }

/-- One 4 KiB page of a new enclave: its missing tables, then its frame, then its contents (R396, R451). -/
def addPage (s : State) (p encl asid va rwx state : Nat) (content : List Byte) : Option State :=
  match ensureTable p encl va 0 4 (rootOf s asid) s with
  | .ok s1 t =>
    (match lowestFree s1 p 1 with
      | none => none
      | some f =>
        some (writeLeaves (ioPut (takePage s1 f 12 encl asid state) (f * 4096) content) t va 12 fun _ => leafWord (f * 4096) 12 rwx))
  | _ => none

/-- The kick page's leaf (R361, R396). -/
def addKickPage (s : State) (p encl asid va : Nat) : Option State :=
  match ensureTable p encl va 0 4 (rootOf s asid) s with
  | .ok s1 t => some (writeLeaves s1 t va 12 fun _ => (mkLeaf (encl * 4096) 3 1).toNat)
  | _ => none

/-- Hart contexts at HENTRY (R396, R440). -/
def addHarts (s : State) (encl asid hentry nthr : Nat) : State :=
  let free := (List.range (nthr + s.harts.length)).filter fun i => (smFind? s.harts i).isNone
  (List.range nthr).foldl (fun s i =>
    let x : SMap W64 := smSet 0 (smSet 0 (smSet 0 [] 10 (BitVec.ofNat 64 i)) 11 (BitVec.ofNat 64 encl)) 12 (BitVec.ofNat 64 asid)
    setHart s (free.getD i 0) { encl := encl, x := x, pc := BitVec.ofNat 64 hentry, paused := decide (s.boot.startStep < 30) || s.boot.hazelHalted }) s

/-! ### ecreate (R395, R396, R398, R440) -/

/-- A page-list entry: VA, RWX, whether shared, its word 0, the VA of its source and the page's contents. -/
structure PageEnt where
  va : Nat
  rwx : Nat
  shr : Bool
  w0 : Nat
  src : Nat
  content : List Byte

/-- The page list of a descriptor, none where it breaks R395 or a page cannot be read. -/
def pageList (s : State) (asid plist : Nat) : Nat → Nat → List Nat → Option (List PageEnt)
  | _, 0, _ => some []
  | i, n + 1, seen =>
    match readVaNat s asid (plist + 16 * i) 8, readVaNat s asid (plist + 16 * i + 8) 8 with
    | some a, some b =>
      let va := bitsOf a 56 12 * 4096
      let shr := a.testBit 3
      let rwx := a % 8
      if bitsOf a 63 57 ≠ 0 ∨ bitsOf a 11 4 ≠ 0 ∨ bitsOf b 63 57 ≠ 0 ∨ b % 4096 ≠ 0 ∨ nsHas seen va
          ∨ !permOk rwx (if shr then psSharedRw else psPrivate) then none
      else
        (match (if b = 0 then some (List.replicate 4096 0) else readVa s asid b 4096), pageList s asid plist (i + 1) n (nsAdd seen va) with
          | some bs, some l => some (⟨va, rwx, shr, a, b, bs⟩ :: l)
          | _, _ => none)
    | _, _ => none

/-- The words of a descriptor, none where it breaks R395. -/
def descWords (bs : List Byte) : Option (List Nat) :=
  let w := (List.range 16).map fun i => natOfBytes ((bs.drop (8 * i)).take 8)
  let g (i : Nat) : Nat := w.getD i 0
  let z (i hi lo : Nat) : Bool := decide (bitsOf (g i) hi lo = 0)
  let nthr := bitsOf (g 0) 55 48
  let npages := bitsOf (g 0) 12 0
  if z 0 63 56 && z 0 47 44 && z 0 39 13 && decide (1 ≤ nthr) && decide (nthr ≤ 64) && decide (1 ≤ npages) && decide (npages ≤ 4096)
      && z 1 63 57 && z 1 11 0 && z 2 63 57 && z 2 0 0 && z 3 63 57 && z 3 3 0 && z 4 63 57 && z 4 5 0 && z 5 63 57 && z 5 4 0
      && decide (4 ≤ g 6) && decide (g 6 ≤ 20) && (rangeFrom 7 9).all (fun i => decide (g i = 0)) then some w
  else none

/-- MEAS (R398). -/
def measureEnclave (desc : List Byte) (pages : List PageEnt) : List Byte :=
  pages.foldl (fun h e => sha (h ++ bytesOfNat 8 e.w0 ++ e.content))
    (sha (desc.take 0x18 ++ List.replicate 40 0 ++ desc.drop 0x40))

/-- The 64 bytes of a fresh queue header (R330). -/
def freshHdr (base kind log2n : Nat) : List Byte := bytesOfNat 8 base ++ bytesOfNat 8 (kind * 256 + log2n) ++ List.replicate 48 0

/-- A header's place in a partition's meadow-store window, writable under an ASID. -/
def windowHdr (s : State) (p asid va : Nat) : Option Nat :=
  if va % 64 ≠ 0 then none
  else match nowPa s asid va with
    | some pa => if inWindow pa ∧ (windowPlace pa).1 = p then some pa else none
    | none => none

/-- What the accesses that make an `ecreate` BAD_ARGS leave in the security log or as poison (R23, R441): the descriptor, the page
list and its sources, the first that cannot be read; the place of the fault-queue header. -/
def noteCreate (s : State) (asid va : Nat) : State :=
  match (readVa s asid va 128).bind descWords with
  | none => noteSpan s 3 asid va 128 .r
  | some w =>
    let n := bitsOf (w.getD 0 0) 12 0
    let plist := w.getD 3 0
    let srcs := (List.range n).filterMap fun i => (readVaNat s asid (plist + 16 * i + 8) 8).bind fun b => if b = 0 then none else some (b, 4096)
    let reads := (plist, 16 * n) :: srcs
    let s1 := match reads.find? fun x => (spanPieces x.1 x.2).any fun y => (readVa s asid y.1 y.2).isNone with
      | some x => noteSpan s 3 asid x.1 x.2 .r
      | none => s
    noteSpan s1 3 asid (w.getD 4 0) 8 .w

/-- `ecreate` for a creating enclave: the state and the id, or the status that refuses it. DEDUCED, notes/assumptions/18.md.
-/
def createEnclave (s : State) (creator : Nat) (ce : Enclave) (va : Nat) : Sum Nat (State × Nat) :=
  let p := ce.part
  match (if va % 128 = 0 then readVa s ce.asid va 128 else none) with
  | none => .inl stBadArgs
  | some desc =>
    match descWords desc with
    | none => .inl stBadArgs
    | some w =>
      let g (i : Nat) : Nat := w.getD i 0
      let kickVa := g 1
      match pageList s ce.asid (g 3) 0 (bitsOf (g 0) 12 0) [kickVa], windowHdr s p ce.asid (g 4), nowPa s ce.asid (va + 0x38) with
      | some pages, some hdr, some _ =>
        (match newIds s with
          | none => .inl stNoResource
          | some ids =>
            let id := ids.1
            let asid := ids.2.1
            let s0 := pages.foldl (fun s e => if e.src = 0 then s else ioTouchSpan s ce.asid e.src 4096)
              (ioTouchSpan (ioTouchSpan s ce.asid va 128) ce.asid (g 3) (16 * pages.length))
            let s1 := newRoot (takeIds s0 ids) p id asid
            let s2 := pages.foldl (fun (o : Option State) e =>
              o.bind fun s => addPage s p id asid e.va e.rwx (if e.shr then psSharedRw else psPrivate) e.content) s1
            match s2.bind fun s => addKickPage s p id asid kickVa with
            | none => .inl stQuota
            | some s3 =>
              let s4 := noteSpoilt s3 (ioPut s3 hdr (freshHdr (g 5) 2 (g 6))) hdr 64
              let e : Enclave := {
                state := 1, part := p, kslot := ids.2.2, asid := asid, creator := creator, nthr := bitsOf (g 0) 55 48,
                nkickm1 := bitsOf (g 0) 43 40, ord := s3.rowan.ord, meas := measureEnclave desc pages, seals := [], gen := 0,
                kickVa := kickVa, hentry := g 2, fqHdr := some (g 4), fqSeq := 0, fq := [], kicks := [] }
              let s5 := addHarts (setEncl s4 id e) id asid (g 2) e.nthr
              (match ioWriteVa s5 ce.asid (va + 0x38) (bytesOfNat 8 asid) with
                | some s6 => .inr (s6, id)
                | none => .inl stBadArgs))
      | _, _, _ => .inl stBadArgs

/-! ### edestroy (R397) -/

/-- A store of an ended team reaches its home at once. -/
def forceMop (s : State) (t : Nat) : State :=
  match getMop s t 0 with
  | none => s
  | some o =>
    let n := mopSize o.kind
    let s1 := if !o.glob then performSp s t 0 o
      else match o.kind with
        | .enq va item =>
          (match enqTry s t va item with
            | .done s1 _ => dropMop s1 t 0 o
            | _ => s)
        | _ =>
          match walk s (getTeam s (teamOf s t)).asid o.addr (mopNeed o.kind) with
          | .ok e =>
            let pa := transPa s e (tlbPa e o.addr)
            if e.mt = 1 then performAt s t 0 o e pa
            else if !paOk pa ∨ (inWindow pa ∧ !windowBacked s pa) ∨ (!mopReads o.kind ∧ (faultFor (coreOf t) s pa n).isSome) then s
            else performAt (touchFor (coreOf t) s pa n (!mopReads o.kind)) t 0 o e pa
          | _ => s
    if (getTh s1 t).mq.length < (getTh s t).mq.length then s1 else dropMop s1 t 0 o

def drainThread (s : State) (t : Nat) : State := (List.range (getTh s t).mq.length).foldl (fun s _ => forceMop s t) s

/-- A team of a destroyed enclave ends as `tkill` ends it: its stores land, JOIN is decremented unless it waits for
translation, and its resources are freed. -/
def destroyTeam (s : State) (k : Nat) : State :=
  let tm := getTeam s k
  let s1 := endTeam s k
  let s2 := ((teamWarps s1 k).flatMap warpThreads).foldl drainThread s1
  let s3 := if tm.joinWait.isSome then s2
    else match nowPa s2 tm.asid tm.join.toNat with
      | some pa =>
        (match ioWrite s2 pa (bytesOfNat 8 ((readNat s2 pa 8 + 2 ^ 64 - 1) % 2 ^ 64)) with
          | .done s3 => s3
          | _ => s2)
      | none => noteNow s2 0 tm.asid tm.join.toNat 8 .w
  freeTeam s3 k

/-- Whether a team belongs to an enclave. -/
def teamsOf (s : State) (id : Nat) : List Nat := (s.teams.filter fun t => t.2.live && decide (t.2.encl = id)).map (·.1)

/-- Every cached translation of an ASID goes (R397, step 3). -/
def dropAsid (s : State) (asid : Nat) : State :=
  let keep (l : List TlbEntry) : List TlbEntry := l.filter fun e => decide (e.asid ≠ asid)
  { s with
    cores := s.cores.map fun c => 
      (c.1, { c.2 with
        tlb := keep c.2.tlb
        cuTlb := keep c.2.cuTlb
        slotTlb := c.2.slotTlb.map fun x => (x.1, keep x.2) })
    heather := s.heather.map fun h => (h.1, { h.2 with tlb := keep h.2.tlb })
    harts := s.harts.map fun h => (h.1, { h.2 with tlb := keep h.2.tlb })
    walks := s.walks.filter fun w => decide (w.asid ≠ asid) }

/-- The frames an enclave owns, by POT entry. -/
def ownedFrames (s : State) (id : Nat) : List (Nat × Nat) :=
  (s.pot.filter fun e => decide (potOwner e.2 = id) && decide (potState e.2 ≠ psFree) && decide (potSz e.2 ≠ 3)).map fun e =>
    (e.1, szBits (potSz e.2))

/-- A page's cached lines go without write-back. -/
def dropLines (s : State) (frame bits : Nat) : State :=
  let pa := frame * 4096
  let out (k a : Nat) : Bool := decide (a * k < pa) || decide (pa + 2 ^ bits ≤ a * k)
  let s1 := (s.stale.filter fun x => !out 128 x.1).foldl (fun s x => discardLine s x.1) s
  { s1 with
    dir := s1.dir.filter fun d => out 512 d.1 || (smFind? s1.pends d.1).isSome
    proxies := s1.proxies.filter fun x => out 512 (x.1 / 8) }

/-- When an ASID's key slot is erased, the blocks that its key holds stay in their tiers under it, and no key that remains reads
them: no translation finds a frame of it under its tag (R397, R400, R402). -/
def noteLost (s : State) (asid kslot : Nat) : State :=
  match smFind? s.keys kslot with
  | none => s
  | some k =>
    let frames := (s.stamps.filter fun x => match x.2 with
      | .tagged a _ => decide (a = asid)
      | _ => false).map (·.1)
    let images := (s.imgKeys.filter fun x => decide (x.2 = asid)).map fun x => lostImage x.1
    { s with
      lost := (frames ++ images).foldl (fun m x => smPut m x (k.kd, k.kt)) s.lost
      stamps := s.stamps.filter fun x => !(frames.any fun f => decide (f = x.1)) }

/-- The destruction of one enclave (R397, steps 1 to 4). DEDUCED, notes/assumptions/18.md. -/
def destroyOne (s : State) (id : Nat) : State :=
  match getEncl s id with
  | none => s
  | some e =>
    let s1 := { setEncl s id { e with state := 2 } with
      harts := s.harts.filter fun h => decide (h.2.encl ≠ id)
      launches := s.launches.filter fun l => decide (l.encl ≠ id) }
    let s2 := (teamsOf s1 id).foldl destroyTeam s1
    let s3 := dropAsid s2 e.asid
    let s4 := (ownedFrames s3 id).foldl (fun s f => releasePage (dropLines s f.1 f.2) e.part f.1 f.2) (noteLost s3 e.asid e.kslot)
    { s4 with
      keys := smDel s4.keys e.kslot
      asids := smDel s4.asids e.asid
      encls := smDel s4.encls id
      host := { s4.host with streams := s4.host.streams.map fun x => if x.2.encl = id then (x.1, { x.2 with encl := 0, keyed := false }) else x } }

/-- The enclaves that a set created, until nothing is added. -/
def descendants (s : State) : Nat → NSet → NSet
  | 0, l => l
  | n + 1, l => descendants s n ((s.encls.filter fun e => nsHas l e.2.creator).foldl (fun l e => nsAdd l e.1) l)

/-- Enclaves in the order of their destruction: the most recently created first. -/
def destroyOrder (s : State) : Nat → List Nat → List Nat
  | 0, _ => []
  | n + 1, l =>
    match minBy (fun i => 2 ^ 64 - ((getEncl s i).map (·.ord)).getD 0) l with
    | none => []
    | some i => i :: destroyOrder s n (l.filter fun x => decide (x ≠ i))

/-- An enclave goes with every enclave it created (R397). -/
def destroyTree (s : State) (id : Nat) : State :=
  let l := descendants s s.encls.length [id]
  (destroyOrder s l.length l).foldl destroyOne s

/-- The status of an `edestroy` by an enclave's hart. -/
def destroyStatus (s : State) (caller x : Nat) : Nat :=
  if 65536 ≤ x then stBadArgs
  else match getEncl s x, getEncl s caller with
    | some e, some c =>
      if e.state ≠ 1 then stNoEnclave
      else if e.creator = 0 ∨ !(decide (e.creator = caller) || (decide (c.creator = 0) && decide (c.part = e.part))) then stNotOwner
      else stOk
    | _, _ => stNoEnclave

/-! ### eattest (R399) -/

def attestReport (s : State) (id : Nat) (e : Enclave) (user : List Byte) : List Byte :=
  let body := bytesOfNat 2 1 ++ bytesOfNat 2 id ++ bytesOfNat 1 e.part ++ bytesOfNat 3 0 ++ bytesOfNat 8 e.ord ++ fixLen 64 e.meas
    ++ user ++ svnBytes s ++ List.replicate 44 0
  body ++ aliasSign s body

/-- `eattest`: the state and the status. -/
def attest (s : State) (id : Nat) (e : Enclave) (rpt usr : Nat) : State × Nat :=
  if rpt % 256 ≠ 0 ∨ usr % 64 ≠ 0 then (s, stBadArgs)
  else match ioReadVa s e.asid usr 64, transNow s e.asid rpt .w with
    | (s0, some user), (.ok x, pa) =>
      if x.mt ≠ 0 ∨ potState (potEntry s (potGov s (pa / 4096))) ≠ psPrivate ∨ potOwner (potEntry s (potGov s (pa / 4096))) ≠ id then
        (s0, stBadArgs)
      else
        (match ioWriteVa s0 e.asid rpt (attestReport s id e user) with
          | some s1 => (s1, stOk)
          | none => (s0, stBadArgs))
    | (s0, none), _ => (s0, stBadArgs)
    | (s0, some _), _ => (noteNow s0 3 e.asid rpt 256 .w, stBadArgs)

/-! ### Partition build (R377, R416) -/

/-- The meadows where a partition holds cores. -/
def partMeadows (s : State) (p : Nat) : List Nat :=
  (List.range 8).filter fun m => (rangeFrom (m * 128) 128).any fun c => decide (corePart s c = p)

/-- Context pool of one meadow in 2 MiB pages; QUOTA. -/
def ctxPages (s : State) (p : Nat) : Nat := Nat.max 1 (bitsOf (getPart s p).pcfg.toNat 23 18) * 32
def quotaPages (s : State) (p : Nat) : Nat := bitsOf (getPart s p).pcfg.toNat 17 0

/-- The unassigned 2 MiB pages of HBM4E. -/
def unassignedPages (s : State) : List Nat :=
  ((List.range 245760).map (512 * ·)).filter (free21 s 0xFFFF)

/-- The pages of a meadow's shadow area and context pool: the lowest in stack n (R416). -/
def takeAreas (need : Nat) : List Nat → List Nat → Option (List Nat × List Nat)
  | [], free => some ([], free)
  | m :: ms, free =>
    let mine := (free.filter fun f => decide (stackOf (f * 4096) = m)).take need
    if mine.length < need then none
    else match takeAreas need ms (free.filter fun f => !nsHas mine f) with
      | some (l, rest) => some (mine ++ l, rest)
      | none => none

/-- The quota's pages: those of the areas, then the lowest others; none where they do not fit. DESIGN CHOICE,
notes/assumptions/19.md. -/
def takeQuota (s : State) (p : Nat) : Option (List Nat × List Nat) :=
  match takeAreas (16 + ctxPages s p) (partMeadows s p) (unassignedPages s) with
  | none => none
  | some (areas, rest) =>
    let n := quotaPages s p
    if n < areas.length + 1 ∨ rest.length < n - areas.length then none
    else some (areas, rest.take (n - areas.length))

/-- Whether a whole 2 GiB page lies in a list of 2 MiB pages. -/
def whole2g (l : List Nat) (f : Nat) : Bool := decide (f % 524288 = 0) && (List.range 1024).all fun i => nsHas l (f + 512 * i)

/-- The pages an agent enclave maps: 2 GiB where possible, else 2 MiB. -/
def largePages (l : List Nat) : List (Nat × Nat) :=
  l.filterMap fun f =>
    if whole2g l (f / 524288 * 524288) then (if f % 524288 = 0 then some (f, 31) else none) else some (f, 21)

/-- The VA of a frame in the agent enclave: a fixed distance, a multiple of 2 GiB, above its PA. DESIGN CHOICE,
notes/assumptions/19.md. -/
def agentVa (p frame : Nat) : Nat := Config.agentField p 0 % 2 ^ 24 * 2 ^ 31 + frame * 4096

/-- A page that has been zeroed holds blocks of no image (R117). -/
def forgetImages (s : State) (frame bits : Nat) : State :=
  let out (b : Nat) : Bool := decide (b * 64 < frame * 4096) || decide (frame * 4096 + 2 ^ bits ≤ b * 64)
  { s with
    imgKeys := smFilter s.imgKeys out
    lost := smFilter s.lost fun x => decide (x < lostImage 0) || out (x - lostImage 0) }

/-- The agent enclave of a partition over its quota: the first 2 MiB page holds the tables (R377, R451). DESIGN CHOICE,
notes/assumptions/19.md. -/
def buildAgent (s : State) (p : Nat) (areas plain : List Nat) : Option State :=
  match newIds s, plain with
  | some ids, first :: rest =>
    let id := ids.1
    let asid := ids.2.1
    let s0 := takeIds s ids
    let s1 := areas.foldl (fun s f => forgetImages (takePage s f 21 id asid psSealed) f 21) s0
    let s2 := (rangeFrom first 512).foldl (fun s f => setPage s f 12 p psFree) s1
    let large := largePages rest
    let s3 := large.foldl (fun s x => takePage s x.1 x.2 id asid psPrivate) s2
    let put (o : Option State) (x : Nat × Nat) : Option State :=
      o.bind fun s => match mapPage s p id asid (agentVa p x.1) x.2 (x.1 * 4096) 3 with
        | .ok s1 _ => some s1
        | _ => none
    let kickVa := 2 ^ 56 + Config.agentField p 3 % 2 ^ 44 * 4096
    let s4 := (large.foldl put (newRoot s3 p id asid)).bind fun s => addKickPage s p id asid kickVa
    match s4 with
    | none => none
    | some s5 =>
      match ensureTable p id (agentVa p first) 0 4 (rootOf s5 asid) s5 with
      | .ok s6 t =>
        let s7 := (rangeFrom first 512).foldl (fun s f =>
          if freeEntry s p f then writeLeaves (takePage s f 12 id asid psPrivate) t (agentVa p f) 12 fun _ => leafWord (f * 4096) 12 3
          else s) s6
        let nthr := 1 + Config.agentField p 1 % 64
        let hentry := Config.agentField p 4 % 2 ^ 56 * 2
        let e : Enclave := {
          state := 1, part := p, kslot := ids.2.2, asid := asid, creator := 0, nthr := nthr, nkickm1 := Config.agentField p 2 % 16,
          ord := s0.rowan.ord, meas := fixLen 64 (Config.agentMeas p), seals := [], gen := 0, kickVa := kickVa, hentry := hentry,
          fqHdr := none, fqSeq := 0, fq := [], kicks := [] }
        some (modPart (addHarts (setEncl s7 id e) id asid hentry nthr) p fun x => { x with agent := id })
      | _ => none
  | _, _ => none

/-- The context pools of a partition, by meadow. -/
def poolsOf (s : State) (p : Nat) : SMap (Nat × Nat) := (partMeadows s p).map fun m => (m, (m * 2 ^ 40, ctxPages s p * 2097152))

/-- PCFG (R416): a live register takes only WEIGHT; CREATE starts the build. -/
def execPcfg (p : Nat) (v : BitVec 64) (s : State) : Out :=
  let x := getPart s p
  let wmask : W64 := 0x00FFFF0000000000
  let rw : W64 := 0x20FFFFFFC0FFFFFF
  if 64 ≤ p ∨ !pf0Up s then .next s
  else if x.live then .next (setPart s p { x with pcfg := (x.pcfg &&& ~~~wmask) ||| (v &&& wmask) })
  else if x.creating then .next s
  else .next (setPart s p { x with pcfg := v &&& rw, creating := v.getLsbD 63 })

/-- PARTITION_BUILD (R377): the build ends, and the partition is live; or its quota cannot be met, and CREATE reads 0 again. -/
def execPartitionBuild (p : Nat) (s : State) : Out :=
  let x := getPart s p
  let fail : State := setPart s p { x with creating := false }
  if !x.creating then .next s
  else match takeQuota s p with
    | none => .next fail
    | some (areas, plain) =>
      match buildAgent s p areas plain with
      | none => .next fail
      | some s1 => .next (modPart { s1 with boot := { s1.boot with ready := nsAdd s1.boot.ready p } } p fun y =>
        { y with
          live := true, creating := false, meters := [], quota := (areas ++ plain).map fun f => (f, 512), areas := areas
          ctx := poolsOf s p, ctxUsed := [], liveSince := s.clock, second := s.clock / 1000000000 })

end Sys2Proof.Machine
end

