-- ==== Sys2Proof/Machine/Special.lean ====
section
/-! DEFINITION. The seeds, exactly (R78 to R80), and the special functions (R167, R168). Where the manual leaves the bits
of a special function open within a bound, the result is an uninterpreted constant of Config wherever that constant
meets the bound, and a value within the bound elsewhere; notes/assumptions/5.md. -/
namespace Sys2Proof.Machine

/-! ### Seeds -/

/-- The integer square root, by bits from `k` down. -/
def isqrtBits (x : Nat) : Nat → Nat → Nat
  | 0, r => r
  | k + 1, r =>
    let t := r + 2 ^ k
    isqrtBits x k (if t * t ≤ x then t else r)

/-- floor(√x). -/
def isqrt (x : Nat) : Nat := isqrtBits x (Nat.log2 x / 2 + 1) 0

/-- round(p / q) to an integer, ties to even. -/
def divRne (p q : Nat) : Nat :=
  let t := p / q
  if roundUp .rne false t (p % q) q then t + 1 else t

/-- m · 2^e rounded by RNE to 13 significant bits (R78). -/
def round13 (m : Nat) (e : Int) : Nat × Int :=
  let l := Nat.log2 m
  if l ≤ 12 then (m, e) else (divRne m (2 ^ (l - 12)), e + ((l - 12 : Nat) : Int))

/-- M of R78 with 23 fraction bits, and E. -/
def normFp (m : Nat) (e : Int) : Nat × Int :=
  let l := Nat.log2 m
  (m * 2 ^ (23 - l), (l : Int) + e)

/-- rcp.seed (R78, R80). -/
def rcpSeed (a : W32) : W32 × W32 :=
  match f32Val a with
  | .nan => (nan32, flNan)
  | .inf neg => (BitVec.ofNat 32 (fSign fp32 neg 0), 0)
  | .fin neg 0 _ => (BitVec.ofNat 32 (fSign fp32 neg (fInfCode fp32)), flDivz)
  | .fin neg m e =>
    let n := normFp m e
    let i := n.1 / 2 ^ 16 % 128
    let t := divRne (256 * 2 ^ 13) (257 + 2 * i)
    let y := round13 (t * (2 * 2 ^ 36 - n.1 * t)) (-49)
    (BitVec.ofNat 32 (fRound fp32 .rne (.fin neg y.1 (y.2 - n.2))).1, 0)

/-- round(2^13 / √(d / 128)), by RNE. -/
def rsqTable (d : Nat) : Nat :=
  let t := isqrt (2 ^ 33 / d)
  if (2 * t + 1) * (2 * t + 1) * d < 4 * 2 ^ 33 then t + 1 else t

/-- rsq.seed (R79, R80). -/
def rsqSeed (a : W32) : W32 × W32 :=
  match f32Val a with
  | .nan => (nan32, flNan)
  | .inf neg => if neg then (nan32, flNan) else (0, 0)
  | .fin neg 0 _ => (BitVec.ofNat 32 (fSign fp32 neg (fInfCode fp32)), flDivz)
  | .fin neg m e =>
    if neg then (nan32, flNan)
    else
      let n := normFp m e
      let p : Nat := (n.2 % 2).toNat
      let q : Int := (n.2 - p) / 2
      let z := n.1 * 2 ^ p
      let t := rsqTable ((129 + 2 * (n.1 / 2 ^ 17 % 64)) * 2 ^ p)
      let y := round13 (t * (3 * 2 ^ 49 - z * t * t)) (-63)
      (BitVec.ofNat 32 (fRound fp32 .rne (.fin false y.1 (y.2 - q))).1, 0)

/-! ### Fixed-point approximations -/

/-- The constants 2^(2^−i) for i = 1, 2, …, in 64 fraction bits, each the root of the one before. -/
def exp2Roots : Nat → Nat → List Nat
  | 0, _ => []
  | k + 1, c => let r := isqrt (c * 2 ^ 64); r :: exp2Roots k r

/-- 2^f for f = n / 2^40 below 1, in 64 fraction bits, within 2^−56. -/
def exp2Frac (n : Nat) : Nat :=
  ((exp2Roots 40 (2 * 2 ^ 64)).zip (List.range 40)).foldl
    (fun acc c => if n.testBit (39 - c.2) then acc * c.1 / 2 ^ 64 else acc) (2 ^ 64)

/-- The fraction bits of log2 of a number in [1, 2) with 128 fraction bits, as a fixed-point number of 50 bits. -/
def log2Frac : Nat → Nat → Nat → Nat
  | 0, _, r => r
  | k + 1, x, r =>
    let y := x * x / 2 ^ 128
    if y < 2 ^ 129 then log2Frac k y (2 * r) else log2Frac k (y / 2) (2 * r + 1)

/-- A product of two complex numbers with 62 fraction bits. -/
def cMul (a b : Int × Int) : Int × Int :=
  ((a.1 * b.1 - a.2 * b.2) / 2 ^ 62, (a.1 * b.2 + a.2 * b.1) / 2 ^ 62)

/-- The roots of unity e^(2πi / 2^k) for k = 3, 4, …, each by halving the angle before it. -/
def unityRoots : Nat → Int × Int → List (Int × Int)
  | 0, _ => []
  | k + 1, z =>
    let c : Nat := isqrt (((2 ^ 62 + z.1) * 2 ^ 61).toNat)
    let s : Int := z.2 * 2 ^ 61 / (c : Int)
    ((c : Int), s) :: unityRoots k ((c : Int), s)

/-- cos and sin of 2π · n / 2^40, n below 2^38 (the first quarter), in 62 fraction bits. -/
def cisQuarter (n : Nat) : Int × Int :=
  ((unityRoots 38 (0, 2 ^ 62)).zip (List.range 38)).foldl
    (fun acc c => if n.testBit (37 - c.2) then cMul acc c.1 else acc) ((2 ^ 62 : Int), 0)

/-- cos and sin of 2π · n / 2^40. -/
def cis (n : Nat) : Int × Int :=
  let z := cisQuarter (n % 2 ^ 38)
  match n / 2 ^ 38 % 4 with
  | 0 => z
  | 1 => (-z.2, z.1)
  | 2 => (-z.1, -z.2)
  | _ => (z.2, -z.1)

/-! ### The functions -/

/-- Whether an FP32 code is finite and within `tol` of `v`, all scaled by 2^s. -/
def fWithin (c : W32) (v tol : Int) (s : Nat) : Bool :=
  match f32Val c with
  | .fin neg m e =>
    let k : Int := (m : Int) * (if 0 ≤ e + s then (2 ^ (e + s).toNat : Nat) else 1)
    let low : Int := if 0 ≤ e + s then 0 else 1
    let q : Int := if 0 ≤ e + s then k else (m / 2 ^ (-(e + s)).toNat : Nat)
    let x : Int := if neg then -q else q
    decide ((x - v).natAbs + low.natAbs < tol.toNat)
  | _ => false

/-- The value the unit gives: the free value where it meets the bound, the fallback elsewhere. -/
def sfuPick (free fallback : W32) (v tol : Int) (s : Nat) : W32 := if fWithin free v tol s then free else fallback

/-- floor(x · 2^40) of a finite value. -/
def fix40 (neg : Bool) (m : Nat) (e : Int) : Int :=
  let k : Int := e + 40
  let x : Int := if neg then -(m : Int) else m
  if 0 ≤ k then x * 2 ^ k.toNat else x / 2 ^ (-k).toNat

/-- Whether a finite value is an integer. -/
def fIsInt (m : Nat) (e : Int) : Bool := decide (0 ≤ e) || decide (m % 2 ^ (-e).toNat = 0)

/-- ex2 (R167, R168). -/
def ex2W (a : W32) : W32 × W32 :=
  match f32Val a with
  | .nan => (nan32, flNan)
  | .inf neg => (if neg then 0 else 0x7F800000, 0)
  | .fin neg m e =>
    let x := fix40 neg m e
    if 128 * 2 ^ 40 ≤ x then (0x7F800000, 0)
    else if x < -(151 * 2 ^ 40) then (0, 0)
    else
      let n : Int := x / 2 ^ 40
      if m = 0 ∨ fIsInt m e then (BitVec.ofNat 32 (fRound fp32 .rne (.fin false 1 n)).1, 0)
      else
        let f := exp2Frac (x % 2 ^ 40).toNat
        let fb := BitVec.ofNat 32 (fRound fp32 .rne (.fin false f (n - 64))).1
        if x < -(149 * 2 ^ 40) then (fb, 0)
        else
          -- scaled by 2^(64 − n), and once more above 2^64; a normal result within 2^−22 of itself, a subnormal one within
          -- 2^−149, less the error of f
          let up : Int := 2 ^ (n - 64).toNat
          let tol : Int := (if -126 ≤ n then (f : Int) / 2 ^ 22 else 2 ^ (64 - n - 149).toNat) - 2 ^ 26
          (sfuPick (Config.ex2 a) fb (f * up) (tol * up) (64 - n).toNat, 0)

/-- lg2 (R167, R168). -/
def lg2W (a : W32) : W32 × W32 :=
  match f32Val a with
  | .nan => (nan32, flNan)
  | .inf neg => if neg then (nan32, flNan) else (0x7F800000, 0)
  | .fin _ 0 _ => (0xFF800000, flDivz)
  | .fin true _ _ => (nan32, flNan)
  | .fin false m e =>
    let l := Nat.log2 m
    let ex : Int := (l : Int) + e
    if m = 2 ^ l then (BitVec.ofNat 32 (fRound fp32 .rne (.fin (decide (ex < 0)) ex.natAbs 0)).1, 0)
    else
      let fr := log2Frac 50 (m * 2 ^ (128 - l)) 0
      let v : Int := ex * 2 ^ 50 + fr
      let fb := BitVec.ofNat 32 (fRound fp32 .rne (.fin (decide (v < 0)) v.natAbs (-50))).1
      let tol : Int := if ex = 0 ∨ ex = -1 then 2 ^ 28 - 8 else (v.natAbs : Int) / 2 ^ 22 - 8
      (sfuPick (Config.lg2 a) fb v tol 50, 0)

/-- The result of sin and cos at a value scaled by 2^62. -/
def circOut (free : W32) (v : Int) : W32 :=
  let fb := BitVec.ofNat 32 (fRound fp32 .rne (.fin (decide (v < 0)) v.natAbs (-62))).1
  sfuPick free fb v (2 ^ 40 - 2 ^ 26) 62

/-- The exact results at multiples of a quarter revolution (R168). -/
def circExact (q : Nat) : W32 :=
  match q % 4 with
  | 0 => 0x3F800000
  | 2 => 0xBF800000
  | _ => 0

/-- sin of 2π · a (R167, R168). -/
def sinW (a : W32) : W32 × W32 :=
  match f32Val a with
  | .nan => (nan32, flNan)
  | .inf _ => (nan32, flNan)
  | .fin neg m e =>
    if m = 0 then (a, 0)
    else if 0 ≤ e then (0, 0)
    else if fIsInt m (e + 2) then (circExact ((((fix40 neg m e) % 2 ^ 40).toNat / 2 ^ 38) + 3), 0)
    else (circOut (Config.sin a) (cis ((fix40 neg m e) % 2 ^ 40).toNat).2, 0)

/-- cos of 2π · a (R167, R168). -/
def cosW (a : W32) : W32 × W32 :=
  match f32Val a with
  | .nan => (nan32, flNan)
  | .inf _ => (nan32, flNan)
  | .fin neg m e =>
    if m = 0 then (0x3F800000, 0)
    else if 0 ≤ e then (0x3F800000, 0)
    else if fIsInt m (e + 2) then (circExact (((fix40 neg m e) % 2 ^ 40).toNat / 2 ^ 38), 0)
    else (circOut (Config.cos a) (cis ((fix40 neg m e) % 2 ^ 40).toNat).1, 0)

end Sys2Proof.Machine
end

