-- ==== Sys2Proof/Machine/Float.lean ====
section
/-! DEFINITION. Floating-point, conversion and special-function instructions: classes 0x3 to 0x6 (R151 to R169). -/
namespace Sys2Proof.Machine

/-! ### Class 0x3 (R154 to R159) -/

/-- fadd (R154, R155). -/
def execFadd (h : Hdr) (rm : Rm) (d : WReg) (a b : Src) (s : State) : Out :=
  aluWord h d [a, b] (fun t => fadd32 rm (rdF32 s t a) (rdF32 s t b)) s

/-- fsub (R154, R155). -/
def execFsub (h : Hdr) (rm : Rm) (d : WReg) (a b : Src) (s : State) : Out :=
  aluWord h d [a, b] (fun t => fsub32 rm (rdF32 s t a) (rdF32 s t b)) s

/-- fmul (R154, R155). -/
def execFmul (h : Hdr) (rm : Rm) (d : WReg) (a b : Src) (s : State) : Out :=
  aluWord h d [a, b] (fun t => fmul32 rm (rdF32 s t a) (rdF32 s t b)) s

/-- ffma (R154, R155). -/
def execFfma (h : Hdr) (rm : Rm) (d : WReg) (a b c : Src) (s : State) : Out :=
  aluWord h d [a, b, c] (fun t => ffma32 rm (rdF32 s t a) (rdF32 s t b) (rdF32 s t c)) s

/-- fmin (R65). -/
def execFmin (h : Hdr) (d : WReg) (a b : Src) (s : State) : Out :=
  aluWord h d [a, b] (fun t => fmin32 (rdF32 s t a) (rdF32 s t b)) s

/-- fmax (R65). -/
def execFmax (h : Hdr) (d : WReg) (a b : Src) (s : State) : Out :=
  aluWord h d [a, b] (fun t => fmax32 (rdF32 s t a) (rdF32 s t b)) s

/-- fabs (R156). -/
def execFabs (h : Hdr) (d : WReg) (a : Src) (s : State) : Out :=
  aluWord h d [a] (fun t => fabs32 (rdF32 s t a)) s

/-- fcmp (R157). -/
def execFcmp (h : Hdr) (c : FCond) (p : PReg) (a b : Src) (s : State) : Out :=
  let r := srcRegs [a, b] []
  runThreads { guard := h.guard, reads := r.1, sreads := r.2 }
    (fun t => { p := [(p.val, fCmp32 c (rdF32 s t a) (rdF32 s t b))] }) s

/-- fclass (R158): b is read as raw bits. -/
def execFclass (h : Hdr) (p : PReg) (a b : Src) (s : State) : Out :=
  let r := srcRegs [a, b] []
  runThreads { guard := h.guard, reads := r.1, sreads := r.2 }
    (fun t => { p := [(p.val, (rd32 s t b).getLsbD (fClassBit (rdF32 s t a)))] }) s

/-- frnd (R159). -/
def execFrnd (h : Hdr) (rm : Rm) (d : WReg) (a : Src) (s : State) : Out :=
  aluWord h d [a] (fun t => frnd32 rm (rdF32 s t a)) s

/-! ### Class 0x4 (R160) -/

/-- A packed FP16 source; a packed BF16 source. -/
def rdF16 (s : State) (t : Nat) (a : Src) : W32 := rdSrc s t .f16 (.flt 16) a
def rdBf16 (s : State) (t : Nat) (a : Src) : W32 := rdSrc s t .bf16 (.flt 16) a

/-- hadd2 (R160). -/
def execHadd2 (h : Hdr) (d : WReg) (a b : Src) (s : State) : Out :=
  aluWord h d [a, b] (fun t => fPacked fp16 opAdd (rdF16 s t a) (rdF16 s t b) 0) s

/-- hmul2 (R160). -/
def execHmul2 (h : Hdr) (d : WReg) (a b : Src) (s : State) : Out :=
  aluWord h d [a, b] (fun t => fPacked fp16 opMul (rdF16 s t a) (rdF16 s t b) 0) s

/-- hfma2 (R160). -/
def execHfma2 (h : Hdr) (d : WReg) (a b c : Src) (s : State) : Out :=
  aluWord h d [a, b, c] (fun t => fPacked fp16 opFma (rdF16 s t a) (rdF16 s t b) (rdF16 s t c)) s

/-- badd2 (R160). -/
def execBadd2 (h : Hdr) (d : WReg) (a b : Src) (s : State) : Out :=
  aluWord h d [a, b] (fun t => fPacked bf16 opAdd (rdBf16 s t a) (rdBf16 s t b) 0) s

/-- bmul2 (R160). -/
def execBmul2 (h : Hdr) (d : WReg) (a b : Src) (s : State) : Out :=
  aluWord h d [a, b] (fun t => fPacked bf16 opMul (rdBf16 s t a) (rdBf16 s t b) 0) s

/-- bfma2 (R160). -/
def execBfma2 (h : Hdr) (d : WReg) (a b c : Src) (s : State) : Out :=
  aluWord h d [a, b, c] (fun t => fPacked bf16 opFma (rdBf16 s t a) (rdBf16 s t b) (rdBf16 s t c)) s

/-! ### Class 0x5 (R161 to R166) -/

/-- The element type of a conversion source (R162). -/
def cvtElemTy (f : Fmt) : Elem := if (fmtFloat f).isSome then .flt (fmtBits f) else .int (fmtBits f)

/-- A conversion source (R151, R162): a constant is an FP32 value only under an FP32 source. -/
def rdCvt (s : State) (t : Nat) (f : Fmt) (a : Src) : W32 :=
  rdSrc s t (if f = .f32 then .f32 else .bits) (cvtElemTy f) a

/-- cvt (R161 to R163): b counts for targets narrower than 32 bits, and the old d for 8-bit and 4-bit targets. -/
def execCvt (h : Hdr) (ty f : Fmt) (amax : Bool) (rm : Rm) (d : WReg) (a : Src) (b : Option Src) (s : State) : Out :=
  let r := srcRegs (a :: b.toList) []
  let old := if fmtBits ty < 16 then [d.toNat] else []
  runThreads { guard := h.guard, reads := old ++ r.1, sreads := r.2, writes := [d.toNat] }
    (fun t =>
      let x := rdCvt s t f a
      let y := match b with
        | some b => rdCvt s t f b
        | none => 0
      let v := cvtWord ty f rm (rdW (getTh s t) d.toNat) x y
      let fl := if b.isSome then v.2 else (cvtElem ty f rm x).2
      { w := [(d.toNat, v.1)], fl := fl,
        amax := if amax then cvtSource f x :: (if b.isSome then [cvtSource f y] else []) else [] }) s

/-- unpk (R164). -/
def execUnpk (h : Hdr) (k : UnpkKind) (d : WPair) (a : Src) (s : State) : Out :=
  let r := srcRegs [a] []
  runThreads { guard := h.guard, reads := r.1, sreads := r.2, writes := pairRegs d.toNat }
    (fun t =>
      let v := unpkWord k (rdSrc s t .bits (cvtElemTy (unpkFmts k).1) a)
      { w := [(2 * d.toNat, v.1.extractLsb' 0 32), (2 * d.toNat + 1, v.1.extractLsb' 32 32)], fl := v.2 }) s

/-- What lane j of an acting warp receives of a block (R165). -/
def qblkLane (blk : List Byte) (j : Nat) : W32 :=
  if j < 4 then BitVec.ofNat 32 (natOfBytes ((blk.drop (4 * j)).take 4))
  else if j = 4 then BitVec.ofNat 32 (natOfBytes (blk.drop 16))
  else 0

/-- qblk (R165, R166): one block from the warp. -/
def execQblk (h : Hdr) (amax : Bool) (d : WReg) (a : Src) (s : State) : Out :=
  let r := srcRegs [a] []
  let info : WInfo := { guard := h.guard, reads := r.1, sreads := r.2, writes := [d.toNat], cross := true }
  runWord info (fun w _ acting =>
    let x := (warpThreads w).map fun t => if acting.any (fun u => decide (u = t)) then rdF32 s t a else 0
    let blk := n4xEncode x
    .go s (acting.map fun t => (t,
      { w := [(d.toNat, qblkLane blk.1 (laneOf t))], fl := blk.2,
        amax := if amax then f32Val (rdF32 s t a) :: (if acting.length < 32 then [.fin false 0 0] else []) else [] }))) s

/-! ### Class 0x6 (R167, R168) -/

/-- rcp.seed (R78, R80). -/
def execRcpSeed (h : Hdr) (d : WReg) (a : Src) (s : State) : Out :=
  aluWord h d [a] (fun t => rcpSeed (rdF32 s t a)) s

/-- rsq.seed (R79, R80). -/
def execRsqSeed (h : Hdr) (d : WReg) (a : Src) (s : State) : Out :=
  aluWord h d [a] (fun t => rsqSeed (rdF32 s t a)) s

/-- ex2 (R167, R168). -/
def execEx2 (h : Hdr) (d : WReg) (a : Src) (s : State) : Out :=
  aluWord h d [a] (fun t => ex2W (rdF32 s t a)) s

/-- lg2 (R167, R168). -/
def execLg2 (h : Hdr) (d : WReg) (a : Src) (s : State) : Out :=
  aluWord h d [a] (fun t => lg2W (rdF32 s t a)) s

/-- sin (R167, R168). -/
def execSin (h : Hdr) (d : WReg) (a : Src) (s : State) : Out :=
  aluWord h d [a] (fun t => sinW (rdF32 s t a)) s

/-- cos (R167, R168). -/
def execCos (h : Hdr) (d : WReg) (a : Src) (s : State) : Out :=
  aluWord h d [a] (fun t => cosW (rdF32 s t a)) s

end Sys2Proof.Machine
end

