-- ==== Sys2Proof/Machine/Trapping.lean ====
section
/-! DEFINITION. The two steps of a word that is no instruction (R81, R102, R394). -/
namespace Sys2Proof.Machine

/-- ILLEGAL_OPCODE (R102, step 1): a precise trap in every issued thread. -/
def execIllegalOpcode (_w : BitVec 64) (s : State) : Out := decodeTrap ccIllegalOpcode s

/-- The hart that issues. -/
def issuedHart (s : State) : Option Nat :=
  match s.turn with
  | .hart h => some h
  | _ => none

/-- A hart's exception: its pc stays at the word; what follows is the base architecture's own. DESIGN CHOICE,
notes/assumptions/7.md. -/
def hartExc (s : State) (h : Nat) (e : HartExc) : State := { setHart s h { getHart s h with exc := some e } with turn := .idle }

/-- The illegal-instruction exception of a hart (R394, R335). -/
def execIllegalInstructionException (w : BitVec 32) (s : State) : Out :=
  match issuedHart s with
  | none => .next s
  | some h => .next (hartExc s h (.illegalInstruction w))

end Sys2Proof.Machine
end

