-- ==== Sys2Proof/Machine/HartOps.lean ====
section
/-! DEFINITION. The extension instructions of the general cores (R38, R243, R244, R334 to R336, R394). -/
namespace Sys2Proof.Machine

/-- An integer register: x0 reads as zero and discards writes. -/
def rdX (h : Hart) (r : BitVec 5) : W64 := smGet 0 h.x r.toNat
def wrX (h : Hart) (r : BitVec 5) (v : W64) : Hart := if r = 0 then h else { h with x := smSet 0 h.x r.toNat v }

/-- An R-type word of custom-0 (R334, R394). -/
def customWord (funct3 : Nat) (rd rs1 rs2 : BitVec 5) : W32 :=
  BitVec.ofNat 32 (rs2.toNat * 2 ^ 20 + rs1.toNat * 2 ^ 15 + funct3 * 2 ^ 12 + rd.toNat * 2 ^ 7 + 0x0B)

/-- A hart completes its word. -/
def hartDone (s : State) (h : Nat) (rd : BitVec 5) (v : W64) : State :=
  let x := getHart s h
  { setHart s h { wrX x rd v with pc := x.pc + 4, wait := none } with turn := .idle }

/-- The hart that issues, and its enclave; a hart outside an enclave takes the illegal-instruction exception (R394). -/
def runHart (w : W32) (f : Nat → Hart → Enclave → Out) (s : State) : Out :=
  match issuedHart s with
  | none => .next s
  | some h =>
    let x := getHart s h
    match getEncl s x.encl with
    | none => .next (hartExc s h (.illegalInstruction w))
    | some e => f h x e

/-- What a default load of a hart gives. -/
inductive HartLoad where
  | ok (s : State) (bs : List Byte)
  | fault (s : State)
  | badAddr (pa : Nat)

/-- A default load of a hart: a kick page reads as it does for a thread (R38), and the home agent asks for anything else
(R225, R335, R336). -/
def hartLoad (s : State) (h va n : Nat) : HartLoad :=
  match hartTrans s h va .r with
  | (s1, .ok e, pa) =>
    if e.mt = 1 then .ok s1 (readThrough s1 e pa n)
    else if !paOk pa then .badAddr pa
    else if (inWindow pa ∧ !windowBacked s1 pa) ∨ dataBad s1 pa n e.key e.ver then .fault (noteBad s1 e pa n)
    else
      let s2 := meterLines (ioTouch s1 pa n false) pa n
      .ok s2 (readBytes s2 pa n)
  | (_, .badAddr a, _) => .badAddr a
  | (s1, _, _) => .fault s1

/-- The fetch of the word at a hart's pc: the home agent asks for it (R225); an access that is refused is the base architecture's
own exception. -/
def fetchHart (s : State) (h : Nat) : HartLoad :=
  match hartTrans s h (getHart s h).pc.toNat .x with
  | (s1, .ok e, pa) =>
    if !paOk pa then .badAddr pa
    else if (inWindow pa ∧ !windowBacked s1 pa) ∨ dataBad s1 pa 4 e.key e.ver then .fault (noteBad s1 e pa 4)
    else
      let s2 := meterLines (ioTouch s1 pa 4 false) pa 4
      .ok s2 (readBytes s2 pa 4)
  | (_, .badAddr a, _) => .badAddr a
  | (s1, _, _) => .fault s1

/-- Whether a kick register holds 8 records. -/
def kickFull (k : Kick) : Bool := decide (8 ≤ k.pend.length)

/-- Appends a record: rd takes its ordinal (R335). -/
def kickAppend (s : State) (h : Nat) (encl kick : Nat) (rec : KickRec) (rd : BitVec 5) : State :=
  let k := (getEncl s encl).map fun e => smGet ({} : Kick) e.kicks kick
  let ord : W32 := match k with
    | some k => k.taken + BitVec.ofNat 32 k.pend.length
    | none => 0
  hartDone (modKick s encl kick fun k => { k with pend := k.pend ++ [rec] }) h rd (ord.zeroExtend 64)

/-- spawn (R38, R335). -/
def execSpawn (rd rs1 rs2 : BitVec 5) (s : State) : Out :=
  runHart (customWord 0 rd rs1 rs2) (fun h x e =>
    let kick := (rdX x rs2).toNat
    let va := (rdX x rs1).toNat
    if e.nkickm1 < kick ∨ 15 < kick then .next (hartExc s h (.illegalInstruction (customWord 0 rd rs1 rs2)))
    else if va % 128 ≠ 0 then .next (hartExc s h (.loadMisaligned va))
    else match hartLoad s h va 128 with
      | .badAddr pa => .fault (.noSuchAddress pa)
      | .fault s1 => .next (hartExc s1 h (.loadPageFault va))
      | .ok s1 bs =>
        let rec' : KickRec := ⟨(List.range 16).map fun i => BitVec.ofNat 64 (natOfBytes ((bs.drop (8 * i)).take 8)), BitVec.ofNat 64 va⟩
        if kickFull (smGet {} e.kicks kick) then
          .next { setHart s1 h { getHart s1 h with wait := some (.spawn x.encl kick rec' rd.toNat) } with turn := .idle }
        else .next (kickAppend s1 h x.encl kick rec' rd)) s

/-- SPAWN_APPEND (R335): a record is taken, and a stalled `spawn` appends its own. -/
def execSpawnAppend (hart : Nat) (s : State) : Out :=
  match (getHart s hart).wait with
  | some (.spawn encl kick rec' rd) =>
    (match getEncl s encl with
      | none => .next s
      | some e => if kickFull (smGet {} e.kicks kick) then .next s else .next (kickAppend s hart encl kick rec' (BitVec.ofNat 5 rd)))
  | _ => .next s

/-- Whether a join counter's value ends a `joinw` (R336). -/
def joinEnds (v : W64) : Bool := decide (v = 0) || v.getLsbD 63

/-- One read of a `joinw`. -/
def joinRead (s : State) (h va rd : Nat) : Out :=
  match hartLoad s h va 8 with
  | .badAddr pa => .fault (.noSuchAddress pa)
  | .fault s1 => .next (hartExc (setHart s1 h { getHart s1 h with wait := none }) h (.loadPageFault va))
  | .ok s1 bs =>
    let v : W64 := BitVec.ofNat 64 (natOfBytes bs)
    if joinEnds v then .next (hartDone s1 h (BitVec.ofNat 5 rd) v)
    else .next { setHart s1 h { getHart s1 h with wait := some (.joinw va rd) } with turn := .idle }

/-- joinw (R336). -/
def execJoinw (rd rs1 : BitVec 5) (s : State) : Out :=
  runHart (customWord 1 rd rs1 0) (fun h x _ =>
    let va := (rdX x rs1).toNat
    if va % 8 ≠ 0 then .next (hartExc s h (.loadMisaligned va)) else joinRead s h va rd.toNat) s

/-- JOINW_COMPLETE (R336): a waiting `joinw` reads again. -/
def execJoinwComplete (hart : Nat) (s : State) : Out :=
  match (getHart s hart).wait with
  | some (.joinw va rd) => joinRead s hart va rd
  | _ => .next s

/-- A trap to Rowan (R394): it is taken in Rowan's single order, and refused with BUSY while sleep entry runs. -/
def rowanTrap (w : W32) (rd : BitVec 5) (busy : W64) (f : Hart → Enclave → State × W64) (s : State) : Out :=
  runHart w (fun h x e =>
    if rowanBusy s ∨ (usageDue s).isSome ∨ !s.rowan.queue.isEmpty then .next { s with turn := .idle }
    else if s.rowan.sleeping then .next (hartDone s h rd busy)
    else
      let r := f x e
      .next (hartDone r.1 h rd r.2)) s

/-- 2^63 + status. -/
def errWord (status : Nat) : W64 := BitVec.ofNat 64 (2 ^ 63 + status)

/-- ecreate (R394 to R396). -/
def execEcreate (rd rs1 : BitVec 5) (s : State) : Out :=
  rowanTrap (customWord 2 rd rs1 0) rd (errWord stBusy) (fun x e =>
    match createEnclave s x.encl e (rdX x rs1).toNat with
    | .inl c => (if c = stBadArgs then noteCreate s e.asid (rdX x rs1).toNat else s, errWord c)
    | .inr r => (r.1, BitVec.ofNat 64 r.2)) s

/-- edestroy (R397). -/
def execEdestroy (rd rs1 : BitVec 5) (s : State) : Out :=
  rowanTrap (customWord 3 rd rs1 0) rd (BitVec.ofNat 64 stBusy) (fun x _ =>
    let id := (rdX x rs1).toNat
    let st := destroyStatus s x.encl id
    (if st = stOk then destroyTree s id else s, BitVec.ofNat 64 st)) s

/-- eattest (R399). -/
def execEattest (rd rs1 rs2 : BitVec 5) (s : State) : Out :=
  rowanTrap (customWord 4 rd rs1 rs2) rd (BitVec.ofNat 64 stBusy) (fun x e =>
    let r := attest s x.encl e (rdX x rs1).toNat (rdX x rs2).toNat
    (r.1, BitVec.ofNat 64 r.2)) s

end Sys2Proof.Machine
end

