-- ==== Sys2Proof/Machine/HostPort.lean ====
section
/-! DEFINITION. The host port: register writes, power limit, meadow-store shares, TDISP, IDE keys, the aperture and the
virtual-function reset (R18 to R20, R30, R31, R228 to R231, R370, R402, R416, R426 to R429, R441). -/
namespace Sys2Proof.Machine

def setReply (s : State) (r : HostReply) : State := { s with host := { s.host with reply := some r } }

/-! ### Power (R30, R31) -/

/-- PWRLIM (R30): a limit from 2,400 to 3,600 W on the 25 W grid; any other sets ERR. -/
def execPwrlim (v : BitVec 32) (s : State) : Out :=
  let l := bitsOf v.toNat 11 0
  let err := s.host.pwrErr && !v.getLsbD 31
  if !pf0Up s then .next s
  else if 2400 ≤ l ∧ l ≤ 3600 ∧ l % 25 = 0 then .next { s with host := { s.host with limit := l, pwrErr := err } }
  else .next { s with host := { s.host with pwrErr := true } }

/-- EMERGENCY_POWER_REDUCTION (R31). -/
def execEmergencyPowerReduction (asserted : Bool) (s : State) : Out := .next { s with host := { s.host with epr := asserted } }

/-! ### Meadow-store shares (R228, R229, R231) -/

def msKey (p m : Nat) : Nat := p * 8 + m
def getMsLim (s : State) (p m : Nat) : MsLim := smGet {} s.host.mslim (msKey p m)
def setMsLim (s : State) (p m : Nat) (x : MsLim) : State := { s with host := { s.host with mslim := smPut s.host.mslim (msKey p m) x } }
def getMsCfg (s : State) (p m : Nat) : MsCfg := smGet {} s.host.mscfg (msKey p m)
def setMsCfg (s : State) (p m : Nat) (x : MsCfg) : State := { s with host := { s.host with mscfg := smPut s.host.mscfg (msKey p m) x } }

/-- A change of WIN or TOTAL begins (R231, step 1), or its end is changed. DEDUCED, notes/assumptions/30.md. -/
def startSplit (s : State) (p m win total : Nat) : State :=
  let c := getMsCfg s p m
  if !c.busy && decide (win = c.win) && decide (total = c.total) then s
  else setMsCfg s p m { c with busy := true, next := some (win, total) }

/-- The TOTAL fields of a meadow in the other partitions' registers. -/
def otherTotals (s : State) (p m : Nat) : Nat :=
  (s.host.mslim.map fun x => if x.1 % 8 = m ∧ x.1 ≠ msKey p m then x.2.total else 0).foldl (· + ·) 0

/-- MSLIM (R228). DEDUCED, notes/assumptions/30.md. -/
def execMslim (p m : Nat) (v : BitVec 32) (s : State) : Out :=
  let x := getMsLim s p m
  let winmax := bitsOf v.toNat 24 16
  let total := bitsOf v.toNat 8 0
  if !pf0Up s ∨ 64 ≤ p ∨ 8 ≤ m then .next s
  else if 256 < otherTotals s p m + total ∨ total < winmax then .next (setMsLim s p m { x with err := true })
  else
    let s1 := setMsLim s p m ⟨x.err && !v.getLsbD 31, winmax, total⟩
    let c := getMsCfg s p m
    let win := match c.next with
      | some n => n.1
      | none => c.win
    .next (startSplit s1 p m (Nat.min win (Nat.min winmax total)) total)

/-- MSCFG (R19, R229). -/
def execMscfg (p m : Nat) (v : BitVec 32) (s : State) : Out :=
  let c := getMsCfg s p m
  let l := getMsLim s p m
  let win := bitsOf v.toNat 8 0
  if vfErred s p then .next (answerUnsupported s p)
  else if !vfUp s p ∨ 64 ≤ p ∨ 8 ≤ m then .next s
  else if c.busy ∨ l.winmax < win ∨ l.total < win then .next (setMsCfg s p m { c with err := true })
  else .next (startSplit (setMsCfg s p m { c with err := c.err && !v.getLsbD 30 }) p m win l.total)

/-- The first address of a partition's window in a meadow (R230). -/
def windowBase (p m : Nat) : Nat := 0x80000000000 + p * 0x20000000 + m * 0x4000000

/-- A partition's dirty lines homed in a meadow are written back and invalidated, by their protocols (R231, R254, R384). -/
def cleanShare (s : State) (p m : Nat) : State :=
  let lines := (s.stale.filter fun x => decide (homeMeadow (x.1 / 4) = m) && decide (framePart s (x.1 * 128) = some p)).map fun x => x.1
  let s1 := ((lines.map (· / 4)).foldl nsAdd []).foldl (fun s g =>
    homeNow s g evINV ioAgent ((lines.filter fun l => decide (l / 4 = g)).map (2 * ·))) s
  lines.foldl writeBackMetered s1

/-- MEADOW_STORE_SPLIT_CHANGE (R231, steps 2 to 4): where the cache share shrinks, the partition's dirty lines homed in the
meadow are written back and invalidated; bytes that leave the window are discarded, and those that enter it are zero. It waits for
copy jobs of the partition that have pieces to land behind others (R250). -/
def execMeadowStoreSplitChange (p m : Nat) (s : State) : Out :=
  let c := getMsCfg s p m
  match c.next with
  | none => .next s
  | some (win, total) =>
    if aheadOf s fun core j => decide ((getTeam s (core * 4 + j.tslot)).part = p) then .next s
    else
    let s1 := if total - win < c.total - c.win then cleanShare s p m else s
    let lo := Nat.min win c.win * 0x40000
    let hi := Nat.max win c.win * 0x40000
    let s2 := zeroRange s1 (windowBase p m + lo) (hi - lo)
    .next (setMsCfg s2 p m { c with busy := false, win := win, total := total, next := none })

/-! ### TDISP and IDE (R19, R20, R403) -/

/-- Whether a TDISP request about a VF can be answered: there is such a VF, and an SPDM session to carry it (R18, R19). -/
def tdispOpen (s : State) (vf : Nat) : Bool :=
  decide (1 ≤ vf) && decide (vf ≤ 64) && s.spdm.sessions.any fun x => x.2.doe && x.2.finished

/-- TDISP_REQUEST (R19): a locked interface starts; stopping unlocks it, from ERROR too; other requests change nothing.
DESIGN CHOICE, notes/assumptions/29.md. -/
def execTdispRequest (vf : Nat) (r : TdispReq) (s : State) : Out :=
  let t := getTdi s vf
  if !pf0Up s then .next s
  else if !tdispOpen s vf then .next (setReply s (.tdisp false t))
  else match r with
    | .getState => .next (setReply s (.tdisp true t))
    | .stop => .next (setReply (setTdi s vf .unlocked) (.tdisp true .unlocked))
    | .start =>
      if t = .locked then .next (setReply (setTdi s vf .run) (.tdisp true .run)) else .next (setReply s (.tdisp false t))

/-- LOCK_INTERFACE_REQUEST (R19): refused while a function-level reset of the VF is in progress. -/
def execLockInterfaceRequest (vf : Nat) (s : State) : Out :=
  let t := getTdi s vf
  if !pf0Up s then .next s
  else if !tdispOpen s vf ∨ nsHas s.host.flr vf ∨ t ≠ .unlocked then .next (setReply s (.tdisp false t))
  else .next (setReply (setTdi s vf .locked) (.tdisp true .locked))

def getStream (s : State) (i : Nat) : Stream := smGet {} s.host.streams i
def setStream (s : State) (i : Nat) (x : Stream) : State := { s with host := { s.host with streams := smPut s.host.streams i x } }

/-- A stream with fresh keys is open again on every pod link (R20, R21). -/
def reopenStream (s : State) (i : Nat) : State :=
  { s with boot := { s.boot with ports := s.boot.ports.map fun x => (x.1, { x.2 with closed := nsDel x.2.closed i }) } }

/-- IDE_KM_KEY_PROGRAMMING (R20, R403): accepted for a selective stream that is bound, within a session. -/
def execIdeKmKeyProgramming (stream session : Nat) (selective : Bool) (s : State) : Out :=
  let x := getStream s stream
  let open' := match smFind? s.spdm.sessions session with
    | some y => y.finished
    | none => false
  if pf0Up s && selective && decide (stream < 256) && decide (x.encl ≠ 0) && open' then
    .next (reopenStream (setStream s stream { x with keyed := true, insecure := false, linkFault := false, session := some session }) stream)
  else .next s

/-! ### The aperture (R23, R370, R402, R441, R449) -/

/-- A security-log entry of a refused access of the host (R441). -/
def logHost (s : State) (r : HostAccess) (cause : Nat) : State :=
  let stream := match r.stream with
    | some i => i + 1
    | none => 0
  { s with host := { s.host with
    log := s.host.log ++ [.refused s.clock cause 1 r.fn (if r.data.isSome then 3 else 2) stream r.addr] } }

/-- A refused access: a read completes with all-ones data, a write is discarded, and each is logged. -/
def hostRefuse (s : State) (r : HostAccess) : State :=
  setReply (logHost s r ccPotDeny) (match r.data with
    | none => .data (List.replicate r.len 0xFF)
    | some _ => .dropped)

/-- The frames an access touches. -/
def hostFrames (r : HostAccess) : List Nat := blocksOf 4096 r.addr r.len

/-- Whether every address of an access exists and is backed. -/
def hostAddrOk (s : State) (r : HostAccess) : Bool :=
  decide (0 < r.len) && paOk r.addr && paOk (r.addr + r.len - 1) && backed s r.addr && backed s (r.addr + r.len - 1)

/-- The translation by which an enclave may make an access of a frame: a leaf of its ASID that maps the frame, by R362, R363 and
R368; a page that has moved still answers by its old frame (R375). DEDUCED, notes/assumptions/29.md. -/
def hostTrans (s : State) (encl : Nat) (write : Bool) (f : Nat) : Option TlbEntry :=
  let asid := enclAsid s encl
  let place (l : Nat × Nat × W64) (x : Nat) : Option Nat :=
    let b := ptePa l.2.2 / 4096
    if b ≤ x ∧ x < b + 2 ^ (leafBits l.2.1 - 12) then some (l.1 + (x - b) * 4096) else none
  firstSome (fun l =>
    match (place l f).orElse fun _ => place l (fwdPa s (f * 4096) / 4096) with
    | none => none
    | some va =>
      if pteMt l.2.2 ≠ 0 then none
      else match walk s asid va (if write then .w else .r) with
        | .ok e => some e
        | _ => none) (asidLeaves s asid)

/-- Every one of some answers, or none. -/
def allSome {α β : Type} (f : α → Option β) : List α → Option (List β)
  | [] => some []
  | x :: l => (f x).bind fun y => (allSome f l).map fun ys => y :: ys

/-- The parts of an access by the frames it touches: where each lies, that of a page that forwards in its new frame (R375),
its offset in the access, and its length. -/
def hostParts (s : State) (r : HostAccess) : List (Nat × Nat × Nat) :=
  (hostFrames r).map fun f =>
    let lo := Nat.max r.addr (f * 4096)
    (fwdPa s lo, lo - r.addr, Nat.min (r.addr + r.len) (f * 4096 + 4096) - lo)

/-- Whether an access carries data under keys of its frames that do not answer, poison, a tag mismatch or an uncorrectable
error; such blocks are poisoned and logged as they are read (R23). -/
def hostBad (s : State) (es : List TlbEntry) (r : HostAccess) : Bool :=
  ((hostParts s r).zip es).any fun x => dataBad s x.1.1 x.1.2.2 x.2.key x.2.ver
def hostSpoil (s : State) (es : List TlbEntry) (r : HostAccess) : State :=
  ((hostParts s r).zip es).foldl (fun s x => poisonBad s x.1.1 x.1.2.2 x.2.key x.2.ver) s

/-- The bytes of an access, and the state after its homes have been asked for them (R245). -/
def hostRead (s : State) (r : HostAccess) : List Byte := (hostParts s r).flatMap fun x => readBytes s x.1 x.2.2
def hostTouch (s : State) (r : HostAccess) : State :=
  (hostParts s r).foldl (fun s x => meterLines (ioTouch s x.1 x.2.2 r.data.isSome) x.1 x.2.2) s

/-- A write of the host at its homes (R245): one that reaches a CXL range breaks the tags there. -/
def hostWrite (s : State) (r : HostAccess) (bs : List Byte) : State :=
  (hostParts s r).foldl (fun s x =>
    let s1 := noteSpoilt s (writeBytes s x.1 ((bs.drop x.2.1).take x.2.2)) x.1 x.2.2
    if inCxl x.1 then { s1 with raw := (blocksOf 64 x.1 x.2.2).foldl (fun m b => smPut m b []) s1.raw } else s1) (hostTouch s r)

/-- The fault, if any, with which a home refuses a write of the host (R385). -/
def hostFault (s : State) (r : HostAccess) : Option Nat := firstSome (fun x => ioFault s x.1 x.2.2) (hostParts s r)

/-- An access on a bound stream, checked as one of its enclave (R370). DESIGN CHOICE, notes/assumptions/29.md. -/
def hostBound (s : State) (encl : Nat) (part : Nat) (r : HostAccess) : State :=
  if !hostAddrOk s r then hostRefuse s r
  else match allSome (hostTrans s encl r.data.isSome) (hostFrames r) with
    | none => hostRefuse s r
    | some es =>
      let s1 := meter s part mLinkb r.len
      match r.data with
      | none =>
        if hostBad s es r then setReply (hostSpoil (hostTouch s1 r) es r) .poisoned
        else setReply (hostTouch s1 r) (.data (hostRead s r))
      | some bs =>
        match hostFault s r with
        | some c => setReply (logHost s r c) .dropped
        | none => setReply (hostWrite s1 r bs) (.data [])

/-! ### Bytes as they are stored (R370, R402, R406) -/

/-- A block as it is stored is asked for at its home, which writes its line back first, and crosses its tier's interface. -/
def sealTouch (write : Bool) (s : State) (b : Nat) : State :=
  meterSpan (writeBackMetered (ioTouch s (b * 64) 64 write) (b / 2)) (b * 64) 64

/-- The stored bytes of a block, with those of an access put in. -/
def mergeBlock (s : State) (r : HostAccess) (bs : List Byte) (b : Nat) : List Byte :=
  (List.range 64).map fun i =>
    let a := b * 64 + i
    if r.addr ≤ a ∧ a < r.addr + r.len then bs.getD (a - r.addr) 0 else (storedBlock s b).getD i 0

/-- A block's stored bytes change around its crypto engine, and its tag stays: bytes that the tag holds for are the block's
ciphertext, and any others fail it (R406); in a CXL range the tag breaks (R245). -/
def restoreBlock (s : State) (b : Nat) (new : List Byte) : State :=
  let tag := storedTag s b
  let put (bs : List Byte) : State := writeBack (writeBytes s (b * 64) bs) (b / 2)
  if inCxl (b * 64) then { put new with raw := smPut (put new).raw b [] }
  else if blockRaw s b then put new
  else if new = storedBlock s b then { s with poison := nsDel s.poison b, ecc := nsDel s.ecc b }
  else if tag ≠ [] ∧ blockTag s b new = tag then
    match blockKeys s b with
    | some k => put (fixLen 64 (Config.xtsDecrypt k.1 k.2 (bytesOfNat 16 (b % 2 ^ 38)) new))
    | none => { put new with raw := smPut (put new).raw b tag }
  else { put new with raw := smPut (put new).raw b tag }

/-- The host writes bytes of a block as stored; one that is poisoned stays so unless all of it is written (R449). -/
def storeBlock (s : State) (r : HostAccess) (bs : List Byte) (b : Nat) : State :=
  let s1 := restoreBlock s b (mergeBlock s r bs b)
  if nsHas (wholeBlocks r.addr r.len) b ∨ !nsHas s.poison b then s1 else { s1 with poison := nsAdd s1.poison b }

/-- An access with no bound stream: frames sealed of the VF's partition, as they are stored, at their homes (R245); a read that
meets poison completes with EP (R23), a write that a home refuses is discarded (R385). -/
def hostSealed (s : State) (p : Nat) (r : HostAccess) : State :=
  let ok (f : Nat) : Bool :=
    let e := potEntry s (potGov s f)
    decide (potState e = psSealed) && decide (enclPart s (potOwner e) = some p)
  let blocks := blocksOf 64 r.addr r.len
  if !hostAddrOk s r ∨ !((hostFrames r).all ok) then hostRefuse s r
  else match r.data with
    | none =>
      let s1 := blocks.foldl (sealTouch false) s
      if blocks.any (fun b => nsHas s1.poison b || nsHas s1.ecc b) then setReply s1 .poisoned
      else setReply s1 (.data (((blocks.flatMap (storedBlock s1)).drop (r.addr % 64)).take r.len))
    | some bs =>
      match ioFault s r.addr r.len with
      | some c => setReply (logHost s r c) .dropped
      | none => setReply (blocks.foldl (fun s b => storeBlock (sealTouch true s b) r bs b) s) (.data [])

/-- A write past the port to a CXL tier range, by the host or a peer, changes what the tier holds and breaks the tags there
(R245); of a line that its meadow's store holds dirty, the tier's own copy. Nothing there answers a read. DEDUCED,
notes/assumptions/29.md. -/
def peerBlock (r : HostAccess) (bs : List Byte) (s : State) (b : Nat) : State :=
  let new := mergeBlock s r bs b
  match smFind? s.stale (b / 2) with
  | some x =>
    let cells := ((List.range 64).zip new).foldl (fun m c => smSet 0 m (b * 64 + c.1) c.2) x.cells
    { s with stale := smPut s.stale (b / 2) { x with cells := cells, raw := smPut x.raw b [] } }
  | none => restoreBlock s b new
def peerWrite (s : State) (r : HostAccess) (bs : List Byte) : State :=
  if inCxl r.addr && inCxl (r.addr + r.len - 1) then (blocksOf 64 r.addr r.len).foldl (peerBlock r bs) s else s

/-- Whether an access of the host is held by the final pass of a migration (R375). -/
def hostHeld (s : State) (r : HostAccess) : Bool := r.data.isSome && (hostFrames r).any fun f => migrHolds s (f * 4096)

/-- An access that reaches the aperture: a TLP that fails its IDE check is dropped and its stream enters Insecure; a stream
without keys stays unusable (R20, R370). -/
def hostReach (s : State) (r : HostAccess) : State :=
  let p := r.fn - 1
  match r.stream with
  | none => hostSealed s p r
  | some i =>
    let x := getStream s i
    if !r.ideOk ∨ x.insecure then setReply (logHost (setStream s i { x with insecure := true, keyed := false }) r ccIntegrity) .dropped
    else if !x.keyed then hostSealed s p r
    else match getEncl s x.encl with
      | none => hostSealed s p r
      | some e => hostBound s x.encl e.part r

/-! ### What a function's registers read as (R2, R18, R30, R228, R229, R410, R416, R424, R427, R429, R434, R441) -/

/-- Bit `i` of a register. -/
def flagAt (b : Bool) (i : Nat) : Nat := if b then 2 ^ i else 0

/-- An entry of the security log as its 32 bytes (R441). Those of R386 and R413, to which it gives no cause, have cause 0: DESIGN
CHOICE, notes/assumptions/61.md. -/
def logBytes (seq : Nat) (e : LogEntry) : List Byte :=
  let row (time cause source func kind stream addr : Nat) : List Byte :=
    bytesOfNat 8 seq ++ bytesOfNat 8 time ++ bytesOfNat 1 cause ++ bytesOfNat 1 source ++ bytesOfNat 1 func ++ bytesOfNat 1 kind
      ++ bytesOfNat 2 stream ++ bytesOfNat 2 0 ++ bytesOfNat 8 addr
  match e with
  | .refused time cause source func kind stream addr => row time cause source func kind stream addr
  | .grainLost time grain => row time 0 3 0 0 0 (grain * 512)
  | .wakeFailed time => row time 0 3 0 0 0 0

/-- The 32 bytes at a place of the log window: of the 256 places, the last entry whose SEQ falls on it (R441). -/
def logSlot (log : List LogEntry) (i : Nat) : List Byte :=
  if i < log.length then
    let seq := i + (log.length - 1 - i) / 256 * 256
    ((log[seq]?).map (logBytes seq)).getD (List.replicate 32 0)
  else List.replicate 32 0

/-- PCFG as it reads (R416). -/
def pcfgRead (x : Partition) : Nat :=
  bitsOf x.pcfg.toNat 55 30 * 2 ^ 30 + bitsOf x.pcfg.toNat 23 0 + flagAt (x.pcfg.getLsbD 61) 61 + flagAt x.live 62 + flagAt x.creating 63

/-- GSW as it reads (R424). -/
def gswRead (x : Partition) : Nat := flagAt x.gswBusy 63 + x.gswResult % 4 * 2 ^ 61 + bitsOf x.gswList 56 6 * 64

/-- Byte `off` of the usage-record window of a partition (R434). -/
def usageByte (x : Partition) (off : Nat) : Byte := (smGet [] x.usage (off / 256 % 16)).getD (off % 256) 0

/-- The 32-bit word at a place of a register of 32 or 64 bits. -/
def halfOf (v off : Nat) : Nat := v / 2 ^ (off % 8 * 8) % 2 ^ 32

/-- The word of PF0 BAR0 at an offset that is a multiple of 4; reserved fields and places without a register read as zero.
DESIGN CHOICE, notes/assumptions/29.md. -/
def pf0Reg (s : State) (off : Nat) : Nat :=
  let h := s.host
  let ofBytes (f : Nat → Byte) : Nat := natOfBytes ((List.range 4).map fun i => f (off + i))
  if off = 0x100 then flagAt h.pwrErr 31 + flagAt h.epr 30 + h.limit
  else if off = 0x180 then flagAt h.rcmdBusy 31 + h.rcmdResult * 65536
  else if 0x2000 ≤ off ∧ off < 0x3000 then
    let x := getMsLim s ((off - 0x2000) / 0x40) (off % 0x40 / 4)
    if off % 0x40 < 0x20 then flagAt x.err 31 + x.winmax * 65536 + x.total else 0
  else if 0x3000 ≤ off ∧ off < 0x3400 then
    if off % 16 < 8 then halfOf (pcfgRead (getPart s ((off - 0x3000) / 16))) off else 0
  else if 0x8000 ≤ off ∧ off < 0xA000 then ofBytes fun a => (logSlot h.log ((a - 0x8000) / 32)).getD (a % 32) 0
  else if 0x10000 ≤ off ∧ off < 0x11000 then smGet 0 h.coreTab ((off - 0x10000) / 4)
  else if 0x40000 ≤ off ∧ off < 0x80000 then ofBytes fun a => usageByte (getPart s ((a - 0x40000) / 0x1000)) a
  else 0

/-- The same of a VF's BAR0. -/
def vfReg (s : State) (p off : Nat) : Nat :=
  let x := getPart s p
  let ofBytes (f : Nat → Byte) : Nat := natOfBytes ((List.range 4).map fun i => f (off + i))
  if 0x200 ≤ off ∧ off < 0x220 then
    let c := getMsCfg s p ((off - 0x200) / 4)
    flagAt c.busy 31 + flagAt c.err 30 + c.win
  else if 0x380 ≤ off ∧ off < 0x388 then halfOf (gswRead x) off
  else if 0x400 ≤ off ∧ off < 0x440 then halfOf (smGet 0 x.pmc ((off - 0x400) / 8)).toNat off
  else if 0x440 ≤ off ∧ off < 0x460 then (smGet 0 x.pmsel ((off - 0x440) / 4)).toNat
  else if 0x1000 ≤ off ∧ off < 0x2000 then ofBytes fun a => x.notice.getD (a - 0x1000) 0
  else if 0x2000 ≤ off ∧ off < 0x3000 then ofBytes (usageByte x)
  else 0

/-- The bytes that a read of a function's BAR0 returns. -/
def barBytes (s : State) (r : HostAccess) : List Byte :=
  (rangeFrom r.addr r.len).map fun a =>
    BitVec.ofNat 8 ((if r.fn = 0 then pf0Reg s (a / 4 * 4) else vfReg s (r.fn - 1) (a / 4 * 4)) / 256 ^ (a % 4))

/-- A read that nothing answers returns all-ones, a write is discarded. -/
def allOnes (s : State) (r : HostAccess) : State :=
  setReply s (match r.data with
    | none => .data (List.replicate r.len 0xFF)
    | some _ => .dropped)

/-- A read of a function's registers (R18, R19): a VF whose partition has not been created returns all-ones. A write of a register
is an event of its own, and nothing here. -/
def hostRegs (s : State) (r : HostAccess) : State :=
  if 64 < r.fn ∨ r.fn ≠ 0 ∧ !(getPart s (r.fn - 1)).live then allOnes s r
  else if r.data.isSome then setReply s .dropped
  else setReply s (.data (barBytes s r))

/-- Whether an access waits behind one that the final pass of a migration holds: a write behind any, a read behind its own
function's, which PCI Express delivers in order (R245, R376). -/
def hostBehind (s : State) (r : HostAccess) : Bool := s.host.heldAcc.any fun x => r.data.isSome || decide (x.fn = r.fn)

/-- HOST_MEMORY_ACCESS (R2, R18 to R20, R245, R370). An access behind one that the final pass of a migration holds waits with it.
-/
def execHostMemoryAccess (r : HostAccess) (s : State) : Out :=
  if r.space = .cxl then .next (match r.data with
    | some bs => peerWrite s r bs
    | none => s)
  else if !pf0Up s then .next (allOnes s r)
  else if r.fn ≠ 0 ∧ r.fn ≤ 64 ∧ getTdi s r.fn = .error then .next (setReply (logHost s r ccPotDeny) .unsupported)
  else if r.space = .bar0 then .next (hostRegs s r)
  else if r.fn = 0 ∨ 64 < r.fn ∨ !(getPart s (r.fn - 1)).live then .next (hostRefuse s r)
  else if hostBehind s r ∨ hostHeld s r then .next { s with host := { s.host with heldAcc := s.host.heldAcc ++ [r] } }
  else .next (hostReach s r)

/-- The oldest access that waits goes on (R375, step 4). -/
def hostResume (s : State) : State :=
  match s.host.heldAcc with
  | [] => s
  | r :: l => hostReach { s with host := { s.host with heldAcc := l } } r

/-- Whether an access that waits may go on. -/
def hostDue (s : State) : Bool :=
  match s.host.heldAcc with
  | [] => false
  | r :: _ => !hostHeld s r

/-! ### Other registers (R2, R18, R19, R416, R429) -/

/-- The number under which a write reaches a VF's configuration space and base address registers, and its MSI-X table.
DESIGN CHOICE, notes/assumptions/29.md. -/
def cfgSpace : Nat := 2 ^ 32
def msixTable : Nat := 2 ^ 33

/-- A write to a partition's performance counters. -/
def writePmc (s : State) (p off : Nat) (v : W64) : State :=
  if 0x400 ≤ off ∧ off < 0x440 ∧ off % 8 = 0 then
    modPart s p fun x => { x with pmc := smSet 0 x.pmc ((off - 0x400) / 8) (v.extractLsb' 0 48) }
  else if 0x440 ≤ off ∧ off < 0x460 ∧ off % 4 = 0 then
    modPart s p fun x => { x with pmsel := smSet 0 x.pmsel ((off - 0x440) / 4) ((v.extractLsb' 0 32 : W32) &&& 0x1FF) }
  else s

/-- REGISTER_WRITE (R2): the PF0 core table, a VF's performance counters, or its configuration space; a write anywhere else
is discarded. -/
def execRegisterWrite (fn off : Nat) (v : BitVec 64) (s : State) : Out :=
  if !pf0Up s then .next s
  else if fn = 0 then
    (if 0x10000 ≤ off ∧ off < 0x11000 ∧ off % 4 = 0 then
      .next { s with host := { s.host with coreTab := smSet 0 s.host.coreTab ((off - 0x10000) / 4) (bitsOf v.toNat 6 0) } }
    else .next s)
  else if 64 < fn then .next s
  else if vfErred s (fn - 1) then .next (answerUnsupported s (fn - 1))
  else if msixTable ≤ off then .next s
  else if cfgSpace ≤ off then
    .next (match getTdi s fn with
      | .locked => setTdi s fn .error
      | .run => setTdi s fn .error
      | _ => s)
  else if vfUp s (fn - 1) then .next (writePmc s (fn - 1) off v)
  else .next s

end Sys2Proof.Machine
end

