-- ==== Sys2Proof/Machine/Integer.lean ====
section
/-! DEFINITION. Integer, bit, packed, compare, predicate and 64-bit instructions: classes 0x0 and 0x1 and the pair forms
of class 0x2 (R126 to R146). -/
namespace Sys2Proof.Machine

/-- A result and SAT when it clamped. -/
def satRes (x : W32 × Bool) : W32 × W32 := (x.1, flIf x.2 flSat)

/-- A word of one predicate destination in each acting thread. -/
def predWord (h : Hdr) (p : PReg) (reads sreads : List Nat) (f : Nat → Bool) (s : State) (preds : Bool := false) : Out :=
  runThreads { guard := h.guard, reads := reads, sreads := sreads, preds := preds } (fun t => { p := [(p.val, f t)] }) s

/-- A word of one pair destination computed from 64-bit and 32-bit sources. -/
def pairWord (h : Hdr) (d : WPair) (b64 : List Src64) (b32 : List Src) (f : Nat → W64) (s : State) : Out :=
  let r := srcRegs b32 b64
  runThreads { guard := h.guard, reads := r.1, sreads := r.2, writes := pairRegs d.toNat }
    (fun t =>
      let v := f t
      { w := [(2 * d.toNat, v.extractLsb' 0 32), (2 * d.toNat + 1, v.extractLsb' 32 32)] }) s

/-! ### Class 0x0 (R133 to R139) -/

/-- add, add.sat (R133, R134). -/
def execAdd (h : Hdr) (sat : Option ITy) (d : WReg) (a b : Src) (s : State) : Out :=
  aluWord h d [a, b] (fun t => satRes (addSat 32 sat false (rd32 s t a) (rd32 s t b))) s

/-- sub, sub.sat (R133, R134). -/
def execSub (h : Hdr) (sat : Option ITy) (d : WReg) (a b : Src) (s : State) : Out :=
  aluWord h d [a, b] (fun t => satRes (addSat 32 sat true (rd32 s t a) (rd32 s t b))) s

/-- mul (R133). -/
def execMul (h : Hdr) (d : WReg) (a b : Src) (s : State) : Out :=
  aluWord h d [a, b] (fun t => ((rd32 s t a) * (rd32 s t b), 0)) s

/-- mulhi (R133). -/
def execMulhi (h : Hdr) (ty : ITy) (d : WReg) (a b : Src) (s : State) : Out :=
  aluWord h d [a, b] (fun t => (mulHi ty (rd32 s t a) (rd32 s t b), 0)) s

/-- mad (R133). -/
def execMad (h : Hdr) (d : WReg) (a b c : Src) (s : State) : Out :=
  aluWord h d [a, b, c] (fun t => (rd32 s t a * rd32 s t b + rd32 s t c, 0)) s

/-- div (R135). -/
def execDiv (h : Hdr) (ty : ITy) (d : WReg) (a b : Src) (s : State) : Out :=
  aluWord h d [a, b] (fun t => let r := divRem ty (rd32 s t a) (rd32 s t b); (r.1, flIf r.2.2 flDivz)) s

/-- rem (R135). -/
def execRem (h : Hdr) (ty : ITy) (d : WReg) (a b : Src) (s : State) : Out :=
  aluWord h d [a, b] (fun t => let r := divRem ty (rd32 s t a) (rd32 s t b); (r.2.1, flIf r.2.2 flDivz)) s

/-- abs, abs.sat (R136). -/
def execAbs (h : Hdr) (sat : Bool) (d : WReg) (a : Src) (s : State) : Out :=
  aluWord h d [a] (fun t => satRes (absW sat (rd32 s t a))) s

/-- min (R133). -/
def execMin (h : Hdr) (ty : ITy) (d : WReg) (a b : Src) (s : State) : Out :=
  aluWord h d [a, b] (fun t => (iMin ty (rd32 s t a) (rd32 s t b), 0)) s

/-- max (R133). -/
def execMax (h : Hdr) (ty : ITy) (d : WReg) (a b : Src) (s : State) : Out :=
  aluWord h d [a, b] (fun t => (iMax ty (rd32 s t a) (rd32 s t b), 0)) s

/-- mov (R133). -/
def execMov (h : Hdr) (d : WReg) (a : Src) (s : State) : Out :=
  aluWord h d [a] (fun t => (rd32 s t a, 0)) s

/-- movi (R133, R101). -/
def execMovi (g : LGuard) (d : WReg) (imm : BitVec 32) (s : State) : Out :=
  aluWord ⟨0, lGuard g⟩ d [] (fun _ => (imm, 0)) s

/-- sel (R137): both operands are read in every acting thread. -/
def execSel (h : Hdr) (d : WReg) (a b : Src) (q : POp) (s : State) : Out :=
  aluWord h d [a, b] (fun t => (if rdPOp s t q then rd32 s t a else rd32 s t b, 0)) s (pReads q)

/-- icmp (R138). -/
def execIcmp (h : Hdr) (c : Cond) (p : PReg) (ops : IcmpOps) (s : State) : Out :=
  match ops with
  | .w32 a b =>
    let r := srcRegs [a, b] []
    predWord h p r.1 r.2 (fun t => iCmp c (rd32 s t a) (rd32 s t b)) s
  | .w64 a b =>
    let r := srcRegs [] [a, b]
    predWord h p r.1 r.2 (fun t => iCmp c (rd64 s t a) (rd64 s t b)) s

/-- pand (R139). -/
def execPand (h : Hdr) (p : PReg) (a b : POp) (s : State) : Out :=
  predWord h p [] [] (fun t => rdPOp s t a && rdPOp s t b) s (pReads a || pReads b)

/-- por (R139). -/
def execPor (h : Hdr) (p : PReg) (a b : POp) (s : State) : Out :=
  predWord h p [] [] (fun t => rdPOp s t a || rdPOp s t b) s (pReads a || pReads b)

/-- pxor (R139). -/
def execPxor (h : Hdr) (p : PReg) (a b : POp) (s : State) : Out :=
  predWord h p [] [] (fun t => rdPOp s t a != rdPOp s t b) s (pReads a || pReads b)

/-- pnot (R139). -/
def execPnot (h : Hdr) (p : PReg) (a : POp) (s : State) : Out :=
  predWord h p [] [] (fun t => !rdPOp s t a) s (pReads a)

/-! ### Class 0x1, bits (R140 to R142) -/

/-- and (R140). -/
def execAnd (h : Hdr) (d : WReg) (a b : Src) (s : State) : Out :=
  aluWord h d [a, b] (fun t => (rd32 s t a &&& rd32 s t b, 0)) s

/-- or (R140). -/
def execOr (h : Hdr) (d : WReg) (a b : Src) (s : State) : Out :=
  aluWord h d [a, b] (fun t => (rd32 s t a ||| rd32 s t b, 0)) s

/-- xor (R140). -/
def execXor (h : Hdr) (d : WReg) (a b : Src) (s : State) : Out :=
  aluWord h d [a, b] (fun t => (rd32 s t a ^^^ rd32 s t b, 0)) s

/-- andn (R140). -/
def execAndn (h : Hdr) (d : WReg) (a b : Src) (s : State) : Out :=
  aluWord h d [a, b] (fun t => (rd32 s t a &&& ~~~(rd32 s t b), 0)) s

/-- shl (R140). -/
def execShl (h : Hdr) (d : WReg) (a b : Src) (s : State) : Out :=
  aluWord h d [a, b] (fun t => (shlW (rd32 s t a) (rd32 s t b).toNat, 0)) s

/-- shr (R140). -/
def execShr (h : Hdr) (d : WReg) (a b : Src) (s : State) : Out :=
  aluWord h d [a, b] (fun t => (shrW (rd32 s t a) (rd32 s t b).toNat, 0)) s

/-- sra (R140). -/
def execSra (h : Hdr) (d : WReg) (a b : Src) (s : State) : Out :=
  aluWord h d [a, b] (fun t => (sraW (rd32 s t a) (rd32 s t b).toNat, 0)) s

/-- rot (R140). -/
def execRot (h : Hdr) (d : WReg) (a b : Src) (s : State) : Out :=
  aluWord h d [a, b] (fun t => (rotW (rd32 s t a) (rd32 s t b).toNat, 0)) s

/-- popc (R140). -/
def execPopc (h : Hdr) (d : WReg) (a : Src) (s : State) : Out :=
  aluWord h d [a] (fun t => (BitVec.ofNat 32 (popW (rd32 s t a)), 0)) s

/-- clz (R140). -/
def execClz (h : Hdr) (d : WReg) (a : Src) (s : State) : Out :=
  aluWord h d [a] (fun t => (BitVec.ofNat 32 (clzW (rd32 s t a)), 0)) s

/-- ctz (R140). -/
def execCtz (h : Hdr) (d : WReg) (a : Src) (s : State) : Out :=
  aluWord h d [a] (fun t => (BitVec.ofNat 32 (ctzW (rd32 s t a)), 0)) s

/-- brev (R140). -/
def execBrev (h : Hdr) (d : WReg) (a : Src) (s : State) : Out :=
  aluWord h d [a] (fun t => (brevW (rd32 s t a), 0)) s

/-- bfx (R141). -/
def execBfx (h : Hdr) (d : WReg) (a b c : Src) (s : State) : Out :=
  aluWord h d [a, b, c] (fun t => (bfxW (rd32 s t a) (rd32 s t b) (rd32 s t c), 0)) s

/-- bfi (R141): it also reads d. -/
def execBfi (h : Hdr) (d : WReg) (a b c : Src) (s : State) : Out :=
  let r := srcRegs [a, b, c] []
  runThreads { guard := h.guard, reads := d.toNat :: r.1, sreads := r.2, writes := [d.toNat] }
    (fun t => { w := [(d.toNat, bfiW (rdW (getTh s t) d.toNat) (rd32 s t a) (rd32 s t b) (rd32 s t c))] }) s

/-- prmb (R142). -/
def execPrmb (h : Hdr) (d : WReg) (a b c : Src) (s : State) : Out :=
  aluWord h d [a, b, c] (fun t => (prmbW (rd32 s t a) (rd32 s t b) (rd32 s t c), 0)) s

/-! ### Class 0x1, packed (R143, R144) -/

/-- add2, add2.sat (R143). -/
def execAdd2 (h : Hdr) (sat : Option ITy) (d : WReg) (a b : Src) (s : State) : Out :=
  aluWord h d [a, b] (fun t => satRes (map2 (addSat 16 sat false) (rdInt s t 16 a) (rdInt s t 16 b))) s

/-- sub2, sub2.sat (R143). -/
def execSub2 (h : Hdr) (sat : Option ITy) (d : WReg) (a b : Src) (s : State) : Out :=
  aluWord h d [a, b] (fun t => satRes (map2 (addSat 16 sat true) (rdInt s t 16 a) (rdInt s t 16 b))) s

/-- min2 (R143). -/
def execMin2 (h : Hdr) (ty : ITy) (d : WReg) (a b : Src) (s : State) : Out :=
  aluWord h d [a, b] (fun t => satRes (map2 (fun x y => (iMin ty x y, false)) (rdInt s t 16 a) (rdInt s t 16 b))) s

/-- max2 (R143). -/
def execMax2 (h : Hdr) (ty : ITy) (d : WReg) (a b : Src) (s : State) : Out :=
  aluWord h d [a, b] (fun t => satRes (map2 (fun x y => (iMax ty x y, false)) (rdInt s t 16 a) (rdInt s t 16 b))) s

/-- add4, add4.sat (R143). -/
def execAdd4 (h : Hdr) (sat : Option ITy) (d : WReg) (a b : Src) (s : State) : Out :=
  aluWord h d [a, b] (fun t => satRes (map4 (addSat 8 sat false) (rdInt s t 8 a) (rdInt s t 8 b))) s

/-- dot4 (R77, R144). -/
def execDot4 (h : Hdr) (ta tb : ITy) (d : WReg) (a b c : Src) (s : State) : Out :=
  aluWord h d [a, b, c] (fun t => satRes (dotW 8 4 ta tb (rdInt s t 8 a) (rdInt s t 8 b) (rd32 s t c))) s

/-- dot8 (R77, R144). -/
def execDot8 (h : Hdr) (d : WReg) (a b c : Src) (s : State) : Out :=
  aluWord h d [a, b, c] (fun t => satRes (dotW 4 8 .s .s (rdInt s t 4 a) (rdInt s t 4 b) (rd32 s t c))) s

/-- dot2 (R77, R144). -/
def execDot2 (h : Hdr) (ta tb : ITy) (d : WReg) (a b c : Src) (s : State) : Out :=
  aluWord h d [a, b, c] (fun t => satRes (dotW 16 2 ta tb (rdInt s t 16 a) (rdInt s t 16 b) (rd32 s t c))) s

/-! ### Class 0x2, per thread (R145, R146) -/

/-- add64 (R145). -/
def execAdd64 (h : Hdr) (d : WPair) (a b : Src64) (s : State) : Out :=
  pairWord h d [a, b] [] (fun t => rd64 s t a + rd64 s t b) s

/-- sub64 (R145). -/
def execSub64 (h : Hdr) (d : WPair) (a b : Src64) (s : State) : Out :=
  pairWord h d [a, b] [] (fun t => rd64 s t a - rd64 s t b) s

/-- lea64 (R146). -/
def execLea64 (h : Hdr) (d : WPair) (a : Src64) (b c : Src) (s : State) : Out :=
  pairWord h d [a] [b, c] (fun t =>
    rd64 s t a + ((rd32 s t b).signExtend 64) <<< ((rd32 s t c).toNat % 64)) s

end Sys2Proof.Machine
end

