-- ==== Sys2Proof/Machine/Uniform.lean ====
section
/-! DEFINITION. The uniform class (R46, R92, R147 to R149). -/
namespace Sys2Proof.Machine

/-- A uniform word of one s destination: computed once for the warp (R147, R148). -/
def uniWord (g : Guard) (d : SReg) (srcs : List Src64) (f : Nat → W64) (s : State) : Out :=
  let r := srcRegs [] srcs
  runWord { guard := g, reads := r.1, sreads := r.2, swrites := [d.toNat], uniform := true }
    (fun w _ acting => .go (putS s w d.toNat (f (acting.headD 0))) []) s

/-- sadd (R148). -/
def execSadd (h : Hdr) (d : SReg) (a b : USrc64) (s : State) : Out :=
  uniWord h.guard d [uSrc64 a, uSrc64 b] (fun t => rd64 s t (uSrc64 a) + rd64 s t (uSrc64 b)) s

/-- ssub (R148). -/
def execSsub (h : Hdr) (d : SReg) (a b : USrc64) (s : State) : Out :=
  uniWord h.guard d [uSrc64 a, uSrc64 b] (fun t => rd64 s t (uSrc64 a) - rd64 s t (uSrc64 b)) s

/-- smul (R148). -/
def execSmul (h : Hdr) (d : SReg) (a b : USrc64) (s : State) : Out :=
  uniWord h.guard d [uSrc64 a, uSrc64 b] (fun t => rd64 s t (uSrc64 a) * rd64 s t (uSrc64 b)) s

/-- sshl (R148). -/
def execSshl (h : Hdr) (d : SReg) (a b : USrc64) (s : State) : Out :=
  uniWord h.guard d [uSrc64 a, uSrc64 b] (fun t => shlW (rd64 s t (uSrc64 a)) (rd64 s t (uSrc64 b)).toNat) s

/-- sshr (R148). -/
def execSshr (h : Hdr) (ty : ITy) (d : SReg) (a b : USrc64) (s : State) : Out :=
  uniWord h.guard d [uSrc64 a, uSrc64 b] (fun t =>
    let x := rd64 s t (uSrc64 a)
    let n := (rd64 s t (uSrc64 b)).toNat
    match ty with
    | .z => shrW x n
    | .s => sraW x n) s

/-- sand (R148). -/
def execSand (h : Hdr) (d : SReg) (a b : USrc64) (s : State) : Out :=
  uniWord h.guard d [uSrc64 a, uSrc64 b] (fun t => rd64 s t (uSrc64 a) &&& rd64 s t (uSrc64 b)) s

/-- sor (R148). -/
def execSor (h : Hdr) (d : SReg) (a b : USrc64) (s : State) : Out :=
  uniWord h.guard d [uSrc64 a, uSrc64 b] (fun t => rd64 s t (uSrc64 a) ||| rd64 s t (uSrc64 b)) s

/-- smov (R148). -/
def execSmov (h : Hdr) (d : SReg) (a : USrc64) (s : State) : Out :=
  uniWord h.guard d [uSrc64 a] (fun t => rd64 s t (uSrc64 a)) s

/-- smovi (R148). -/
def execSmovi (g : LGuard) (d : SReg) (imm : BitVec 32) (s : State) : Out :=
  uniWord (lGuard g) d [] (fun _ => imm.signExtend 64) s

/-- scmp (R148): the predicate is written in every issued thread. -/
def execScmp (h : Hdr) (c : Cond) (p : PReg) (a b : USrc64) (s : State) : Out :=
  let r := srcRegs [] [uSrc64 a, uSrc64 b]
  runWord { guard := h.guard, reads := r.1, sreads := r.2, uniform := true }
    (fun _ l acting =>
      let t0 := acting.headD 0
      let v := iCmp c (rd64 s t0 (uSrc64 a)) (rd64 s t0 (uSrc64 b))
      .go s (l.map fun t => (t, { p := [(p.val, v)] }))) s

/-- The load of `sld` (R149): one default load, which stands in the queue of every issued thread under the word's
number. -/
def sldWord (g : Guard) (la : Nat) (d : SReg) (srcs : List Src64) (addr : Nat → W64) (s : State) : Out :=
  let r := srcRegs [] srcs
  runWord { guard := g, la := la, reads := r.1, sreads := r.2, swrites := [d.toNat], uniform := true, access := true }
    (fun _ l acting =>
      let va := (addr (acting.headD 0)).toNat
      .go s (l.map fun t => (t, { mops := [{ kind := .sld d.toNat, glob := true, addr := va, pc := (getTh s t).pc, la := 0, step := s.n, st := .ready }] }))) s

/-- sld (R149). -/
def execSld (h : Hdr) (d : SReg) (a b : USrc64) (s : State) : Out :=
  sldWord h.guard h.la.toNat d [uSrc64 a, uSrc64 b] (fun t => rd64 s t (uSrc64 a) + rd64 s t (uSrc64 b)) s

end Sys2Proof.Machine
end

