-- ==== Sys2Proof/Machine/LongImm.lean ====
section
/-! DEFINITION. Long-immediate words: the default variant of each L-capable opcode with IMM32 in the place R101 gives it
(R100, R101). -/
namespace Sys2Proof.Machine

/-- Operands of an L word carry no select (R100). -/
def plain (a : Operand) : Src := ⟨a, .none⟩
def plain64 (a : Operand64) : Src64 := ⟨a, false⟩

/-- An L word of one 32-bit destination. -/
def lWord (g : LGuard) (d : WReg) (a : Operand) (f : Nat → W32 × W32) (s : State) : Out :=
  aluWord ⟨0, lGuard g⟩ d [plain a] f s

/-- IMM32 as a 64-bit operand (R101). -/
def imm64 (imm : BitVec 32) : W64 := imm.signExtend 64

/-- A uniform L word: a and sext(IMM32, 64). -/
def lUniWord (g : LGuard) (d : SReg) (a : UOperand) (f : W64 → W64) (s : State) : Out :=
  uniWord (lGuard g) d [plain64 (uOp64 a)] (fun t => f (rdOp64 s t (uOp64 a))) s

/-- add with IMM32 (R101). -/
def execAddLongImmediate (g : LGuard) (d : WReg) (a : Operand) (imm : BitVec 32) (s : State) : Out :=
  lWord g d a (fun t => (rdOp s t .bits a + imm, 0)) s

/-- sub with IMM32 (R101). -/
def execSubLongImmediate (g : LGuard) (d : WReg) (a : Operand) (imm : BitVec 32) (s : State) : Out :=
  lWord g d a (fun t => (rdOp s t .bits a - imm, 0)) s

/-- mul with IMM32 (R101). -/
def execMulLongImmediate (g : LGuard) (d : WReg) (a : Operand) (imm : BitVec 32) (s : State) : Out :=
  lWord g d a (fun t => (rdOp s t .bits a * imm, 0)) s

/-- min with IMM32 (R101). -/
def execMinLongImmediate (g : LGuard) (d : WReg) (a : Operand) (imm : BitVec 32) (s : State) : Out :=
  lWord g d a (fun t => (iMin .s (rdOp s t .bits a) imm, 0)) s

/-- max with IMM32 (R101). -/
def execMaxLongImmediate (g : LGuard) (d : WReg) (a : Operand) (imm : BitVec 32) (s : State) : Out :=
  lWord g d a (fun t => (iMax .s (rdOp s t .bits a) imm, 0)) s

/-- and with IMM32 (R101). -/
def execAndLongImmediate (g : LGuard) (d : WReg) (a : Operand) (imm : BitVec 32) (s : State) : Out :=
  lWord g d a (fun t => (rdOp s t .bits a &&& imm, 0)) s

/-- or with IMM32 (R101). -/
def execOrLongImmediate (g : LGuard) (d : WReg) (a : Operand) (imm : BitVec 32) (s : State) : Out :=
  lWord g d a (fun t => (rdOp s t .bits a ||| imm, 0)) s

/-- xor with IMM32 (R101). -/
def execXorLongImmediate (g : LGuard) (d : WReg) (a : Operand) (imm : BitVec 32) (s : State) : Out :=
  lWord g d a (fun t => (rdOp s t .bits a ^^^ imm, 0)) s

/-- andn with IMM32 (R101). -/
def execAndnLongImmediate (g : LGuard) (d : WReg) (a : Operand) (imm : BitVec 32) (s : State) : Out :=
  lWord g d a (fun t => (rdOp s t .bits a &&& ~~~imm, 0)) s

/-- add64 with IMM32 (R101). -/
def execAdd64LongImmediate (g : LGuard) (d : WPair) (a : Operand64) (imm : BitVec 32) (s : State) : Out :=
  pairWord ⟨0, lGuard g⟩ d [plain64 a] [] (fun t => rdOp64 s t a + imm64 imm) s

/-- sub64 with IMM32 (R101). -/
def execSub64LongImmediate (g : LGuard) (d : WPair) (a : Operand64) (imm : BitVec 32) (s : State) : Out :=
  pairWord ⟨0, lGuard g⟩ d [plain64 a] [] (fun t => rdOp64 s t a - imm64 imm) s

/-- lea64 with IMM32 (R101, R146). -/
def execLea64LongImmediate (g : LGuard) (d : WPair) (a : Operand64) (imm : BitVec 32) (s : State) : Out :=
  pairWord ⟨0, lGuard g⟩ d [plain64 a] [] (fun t => rdOp64 s t a + imm64 imm) s

/-- sadd with IMM32 (R101). -/
def execSaddLongImmediate (g : LGuard) (d : SReg) (a : UOperand) (imm : BitVec 32) (s : State) : Out :=
  lUniWord g d a (fun x => x + imm64 imm) s

/-- ssub with IMM32 (R101). -/
def execSsubLongImmediate (g : LGuard) (d : SReg) (a : UOperand) (imm : BitVec 32) (s : State) : Out :=
  lUniWord g d a (fun x => x - imm64 imm) s

/-- smul with IMM32 (R101). -/
def execSmulLongImmediate (g : LGuard) (d : SReg) (a : UOperand) (imm : BitVec 32) (s : State) : Out :=
  lUniWord g d a (fun x => x * imm64 imm) s

/-- sand with IMM32 (R101). -/
def execSandLongImmediate (g : LGuard) (d : SReg) (a : UOperand) (imm : BitVec 32) (s : State) : Out :=
  lUniWord g d a (fun x => x &&& imm64 imm) s

/-- sor with IMM32 (R101). -/
def execSorLongImmediate (g : LGuard) (d : SReg) (a : UOperand) (imm : BitVec 32) (s : State) : Out :=
  lUniWord g d a (fun x => x ||| imm64 imm) s

/-- fadd with IMM32 (R101). -/
def execFaddLongImmediate (g : LGuard) (d : WReg) (a : Operand) (imm : BitVec 32) (s : State) : Out :=
  lWord g d a (fun t => fadd32 .rne (rdOp s t .f32 a) imm) s

/-- fsub with IMM32 (R101). -/
def execFsubLongImmediate (g : LGuard) (d : WReg) (a : Operand) (imm : BitVec 32) (s : State) : Out :=
  lWord g d a (fun t => fsub32 .rne (rdOp s t .f32 a) imm) s

/-- fmul with IMM32 (R101). -/
def execFmulLongImmediate (g : LGuard) (d : WReg) (a : Operand) (imm : BitVec 32) (s : State) : Out :=
  lWord g d a (fun t => fmul32 .rne (rdOp s t .f32 a) imm) s

/-- fmin with IMM32 (R101). -/
def execFminLongImmediate (g : LGuard) (d : WReg) (a : Operand) (imm : BitVec 32) (s : State) : Out :=
  lWord g d a (fun t => fmin32 (rdOp s t .f32 a) imm) s

/-- fmax with IMM32 (R101). -/
def execFmaxLongImmediate (g : LGuard) (d : WReg) (a : Operand) (imm : BitVec 32) (s : State) : Out :=
  lWord g d a (fun t => fmax32 (rdOp s t .f32 a) imm) s

/-- sld with IMM32 (R101, R149). -/
def execSldLongImmediate (g : LGuard) (d : SReg) (a : UOperand) (imm : BitVec 32) (s : State) : Out :=
  sldWord (lGuard g) 0 d [plain64 (uOp64 a)] (fun t => rdOp64 s t (uOp64 a) + imm64 imm) s

/-- ld with IMM32 (R101, R259). -/
def execLdLongImmediate (g : LGuard) (w : LdW) (d : WReg) (a : Operand64) (imm : BitVec 32) (s : State) : Out :=
  loadWord (lGuard g) 0 w false d.toNat (srcRegs [] [plain64 a]) true (fun t => (rdOp64 s t a + imm64 imm).toNat)
    (fun t => halves64 (rdOp64 s t a)) s

/-- st with IMM32 (R101, R259). -/
def execStLongImmediate (g : LGuard) (w : StW) (d : WReg) (a : Operand64) (imm : BitVec 32) (s : State) : Out :=
  storeWord (lGuard g) 0 w d.toNat (srcRegs [] [plain64 a]) true (fun t => (rdOp64 s t a + imm64 imm).toNat) s

/-- ldsp with IMM32 (R101, R259). -/
def execLdspLongImmediate (g : LGuard) (w : LdW) (d : WReg) (a : Operand) (imm : BitVec 32) (s : State) : Out :=
  loadWord (lGuard g) 0 w false d.toNat (srcRegs [plain a] []) false (fun t => (rdOp s t .bits a + imm).toNat)
    (fun t => [rdOp s t .bits a]) s

/-- stsp with IMM32 (R101, R259). -/
def execStspLongImmediate (g : LGuard) (w : StW) (d : WReg) (a : Operand) (imm : BitVec 32) (s : State) : Out :=
  storeWord (lGuard g) 0 w d.toNat (srcRegs [plain a] []) false (fun t => (rdOp s t .bits a + imm).toNat) s

/-- pf with IMM32 (R101, R267). -/
def execPfLongImmediate (g : LGuard) (a : Operand64) (imm : BitVec 32) (s : State) : Out :=
  pfWord (lGuard g) 0 (srcRegs [] [plain64 a]) false (fun t => (rdOp64 s t a + imm64 imm).toNat) s

/-- bra with IMM32 (R101, R170). -/
def execBraLongImmediate (g : LGuard) (imm : BitVec 32) (s : State) : Out :=
  jumpWord (lGuard g) [] none (fun t => dispTarget (getTh s t).pc imm.toInt) s

/-- call with IMM32 (R101, R170). -/
def execCallLongImmediate (g : LGuard) (d : WPair) (imm : BitVec 32) (s : State) : Out :=
  jumpWord (lGuard g) [] (some d) (fun t => dispTarget (getTh s t).pc imm.toInt) s

/-- loop with IMM32 (R101, R179). -/
def execLoopLongImmediate (g : LGuard) (a : Operand) (imm : BitVec 32) (s : State) : Out :=
  loopWord (lGuard g) (plain a) imm.toInt s

end Sys2Proof.Machine
end

