-- ==== Sys2Proof/Machine/Pair.lean ====
section
/-! DEFINITION. Pair words: two operations read together and committed together (R96 to R99, R150). -/
namespace Sys2Proof.Machine

def pairGuard (g : PairGuard) : Guard :=
  match g with
  | .always => .always
  | .p0 => .pred 0 false
  | .p1 => .pred 1 false
  | .notP0 => .pred 0 true

/-- A register-kind operation on d and the selected a, with the flags of its full form (R97). -/
def pairRegFn (op : PairRegOp) (d a : W32) : W32 × W32 :=
  match op with
  | .add => (d + a, 0)
  | .sub => (d - a, 0)
  | .mul => (d * a, 0)
  | .and => (d &&& a, 0)
  | .or => (d ||| a, 0)
  | .xor => (d ^^^ a, 0)
  | .andn => (d &&& ~~~a, 0)
  | .minS => (iMin .s d a, 0)
  | .maxS => (iMax .s d a, 0)
  | .minZ => (iMin .z d a, 0)
  | .maxZ => (iMax .z d a, 0)
  | .mov => (a, 0)
  | .add2 => satRes (map2 (addSat 16 none false) d a)
  | .sub2 => satRes (map2 (addSat 16 none true) d a)
  | .add4 => satRes (map4 (addSat 8 none false) d a)
  | .fadd => fadd32 .rne d a
  | .fsub => fsub32 .rne d a
  | .fmul => fmul32 .rne d a
  | .fmin => fmin32 d a
  | .fmax => fmax32 d a
  | .hadd2 => fPacked fp16 opAdd d a 0
  | .hmul2 => fPacked fp16 opMul d a 0
  | .badd2 => fPacked bf16 opAdd d a 0
  | .bmul2 => fPacked bf16 opMul d a 0

/-- How operand a of a register-kind operation is read (R88, R90). -/
def pairRegAs (op : PairRegOp) : ConstAs × Elem :=
  match op with
  | .fadd | .fsub | .fmul | .fmin | .fmax => (.f32, .flt 32)
  | .hadd2 | .hmul2 => (.f16, .flt 16)
  | .badd2 | .bmul2 => (.bf16, .flt 16)
  | .add2 | .sub2 => (.bits, .int 16)
  | .add4 => (.bits, .int 8)
  | .add | .sub | .mul | .and | .or | .xor | .andn | .minS | .maxS | .minZ | .maxZ | .mov => (.bits, .int 32)

/-- An immediate-kind operation (R97). -/
def pairImmFn (op : PairImmOp) (a : W32) (i : BitVec 5) : W32 :=
  match op with
  | .shl => shlW a i.toNat
  | .shr => shrW a i.toNat
  | .sra => sraW a i.toNat
  | .rot => rotW a i.toNat
  | .add => a + i.zeroExtend 32
  | .sub => a - i.zeroExtend 32

def halfGuard (h : PairHalf) : Guard :=
  match h with
  | .reg _ x => pairGuard x.g
  | .imm _ x => pairGuard x.g
def halfDst (h : PairHalf) : Nat :=
  match h with
  | .reg _ x => x.d.toNat
  | .imm _ x => x.d.toNat
def halfA (h : PairHalf) : Operand :=
  match h with
  | .reg _ x => x.a
  | .imm _ x => x.a
/-- The w registers a half reads as sources (R98). -/
def halfReads (h : PairHalf) : List Nat :=
  match h with
  | .reg .mov x => wOfOp x.a
  | .reg _ x => x.d.toNat :: wOfOp x.a
  | .imm _ x => wOfOp x.a

/-- The result and flags of a half in a thread. -/
def halfVal (s : State) (t : Nat) (h : PairHalf) : W32 × W32 :=
  match h with
  | .reg op x =>
    let as := pairRegAs op
    pairRegFn op (rdW (getTh s t) x.d.toNat) (rdSrc s t as.1 as.2 ⟨x.a, x.sel⟩)
  | .imm op x => (pairImmFn op (rdOp s t .bits x.a) x.imm, 0)

/-- A pair word (R98): each half acts where its own guard holds. -/
def pairOps (h0 h1 : PairHalf) (s : State) : Out :=
  let on (h : PairHalf) (t : Nat) : Bool := rdGuard s (halfGuard h) t
  let issued := match issuedSet s with
    | some x => x.2
    | none => []
  let sr (h : PairHalf) : List Nat := if issued.any (on h) then sOfOp (halfA h) else []
  let rin (t : Nat) : List Nat := (if on h0 t then halfReads h0 else []) ++ (if on h1 t then halfReads h1 else [])
  runThreads { reads := halfReads h0 ++ halfReads h1, writes := [halfDst h0, halfDst h1], sreads := sr h0 ++ sr h1, readsIn := some rin }
    (fun t =>
      let one (h : PairHalf) : List (Nat × W32) × W32 :=
        if on h t then
          let v := halfVal s t h
          ([(halfDst h, v.1)], v.2)
        else ([], 0)
      let x := one h0
      let y := one h1
      { w := x.1 ++ y.1, fl := x.2 ||| y.2 }) s

/-- Pair word whose half 0 is `add` (R97). -/
def execPairAdd (x : RegArgs) (h1 : PairHalf) (s : State) : Out := pairOps (.reg .add x) h1 s

/-- Pair word whose half 0 is `sub` (R97). -/
def execPairSub (x : RegArgs) (h1 : PairHalf) (s : State) : Out := pairOps (.reg .sub x) h1 s

/-- Pair word whose half 0 is `mul` (R97). -/
def execPairMul (x : RegArgs) (h1 : PairHalf) (s : State) : Out := pairOps (.reg .mul x) h1 s

/-- Pair word whose half 0 is `and` (R97). -/
def execPairAnd (x : RegArgs) (h1 : PairHalf) (s : State) : Out := pairOps (.reg .and x) h1 s

/-- Pair word whose half 0 is `or` (R97). -/
def execPairOr (x : RegArgs) (h1 : PairHalf) (s : State) : Out := pairOps (.reg .or x) h1 s

/-- Pair word whose half 0 is `xor` (R97). -/
def execPairXor (x : RegArgs) (h1 : PairHalf) (s : State) : Out := pairOps (.reg .xor x) h1 s

/-- Pair word whose half 0 is `andn` (R97). -/
def execPairAndn (x : RegArgs) (h1 : PairHalf) (s : State) : Out := pairOps (.reg .andn x) h1 s

/-- Pair word whose half 0 is `minS` (R97). -/
def execPairMinS32 (x : RegArgs) (h1 : PairHalf) (s : State) : Out := pairOps (.reg .minS x) h1 s

/-- Pair word whose half 0 is `maxS` (R97). -/
def execPairMaxS32 (x : RegArgs) (h1 : PairHalf) (s : State) : Out := pairOps (.reg .maxS x) h1 s

/-- Pair word whose half 0 is `minZ` (R97). -/
def execPairMinZ32 (x : RegArgs) (h1 : PairHalf) (s : State) : Out := pairOps (.reg .minZ x) h1 s

/-- Pair word whose half 0 is `maxZ` (R97). -/
def execPairMaxZ32 (x : RegArgs) (h1 : PairHalf) (s : State) : Out := pairOps (.reg .maxZ x) h1 s

/-- Pair word whose half 0 is `mov` (R97). -/
def execPairMov (x : RegArgs) (h1 : PairHalf) (s : State) : Out := pairOps (.reg .mov x) h1 s

/-- Pair word whose half 0 is `add2` (R97). -/
def execPairAdd2 (x : RegArgs) (h1 : PairHalf) (s : State) : Out := pairOps (.reg .add2 x) h1 s

/-- Pair word whose half 0 is `sub2` (R97). -/
def execPairSub2 (x : RegArgs) (h1 : PairHalf) (s : State) : Out := pairOps (.reg .sub2 x) h1 s

/-- Pair word whose half 0 is `add4` (R97). -/
def execPairAdd4 (x : RegArgs) (h1 : PairHalf) (s : State) : Out := pairOps (.reg .add4 x) h1 s

/-- Pair word whose half 0 is `fadd` (R97). -/
def execPairFadd (x : RegArgs) (h1 : PairHalf) (s : State) : Out := pairOps (.reg .fadd x) h1 s

/-- Pair word whose half 0 is `fsub` (R97). -/
def execPairFsub (x : RegArgs) (h1 : PairHalf) (s : State) : Out := pairOps (.reg .fsub x) h1 s

/-- Pair word whose half 0 is `fmul` (R97). -/
def execPairFmul (x : RegArgs) (h1 : PairHalf) (s : State) : Out := pairOps (.reg .fmul x) h1 s

/-- Pair word whose half 0 is `fmin` (R97). -/
def execPairFmin (x : RegArgs) (h1 : PairHalf) (s : State) : Out := pairOps (.reg .fmin x) h1 s

/-- Pair word whose half 0 is `fmax` (R97). -/
def execPairFmax (x : RegArgs) (h1 : PairHalf) (s : State) : Out := pairOps (.reg .fmax x) h1 s

/-- Pair word whose half 0 is `hadd2` (R97). -/
def execPairHadd2 (x : RegArgs) (h1 : PairHalf) (s : State) : Out := pairOps (.reg .hadd2 x) h1 s

/-- Pair word whose half 0 is `hmul2` (R97). -/
def execPairHmul2 (x : RegArgs) (h1 : PairHalf) (s : State) : Out := pairOps (.reg .hmul2 x) h1 s

/-- Pair word whose half 0 is `badd2` (R97). -/
def execPairBadd2 (x : RegArgs) (h1 : PairHalf) (s : State) : Out := pairOps (.reg .badd2 x) h1 s

/-- Pair word whose half 0 is `bmul2` (R97). -/
def execPairBmul2 (x : RegArgs) (h1 : PairHalf) (s : State) : Out := pairOps (.reg .bmul2 x) h1 s

/-- Pair word whose half 0 is `shl` with IMM5 (R97). -/
def execPairShl (x : ImmArgs) (h1 : PairHalf) (s : State) : Out := pairOps (.imm .shl x) h1 s

/-- Pair word whose half 0 is `shr` with IMM5 (R97). -/
def execPairShr (x : ImmArgs) (h1 : PairHalf) (s : State) : Out := pairOps (.imm .shr x) h1 s

/-- Pair word whose half 0 is `sra` with IMM5 (R97). -/
def execPairSra (x : ImmArgs) (h1 : PairHalf) (s : State) : Out := pairOps (.imm .sra x) h1 s

/-- Pair word whose half 0 is `rot` with IMM5 (R97). -/
def execPairRot (x : ImmArgs) (h1 : PairHalf) (s : State) : Out := pairOps (.imm .rot x) h1 s

/-- Pair word whose half 0 is `add` with IMM5 (R97). -/
def execPairAddImmediate (x : ImmArgs) (h1 : PairHalf) (s : State) : Out := pairOps (.imm .add x) h1 s

/-- Pair word whose half 0 is `sub` with IMM5 (R97). -/
def execPairSubImmediate (x : ImmArgs) (h1 : PairHalf) (s : State) : Out := pairOps (.imm .sub x) h1 s

end Sys2Proof.Machine
end

