-- ==== Sys2Proof/Machine/Explore.lean ====
section
/-! DEFINITION. The model that Rowan explores when it checks a protocol image (R391, checks 5 to 8): one grain of four lines, three
cores, an engine, and the protocol of the image. DEDUCED, notes/assumptions/56.md. -/
namespace Sys2Proof.Machine

/-! ### An image's entries (R382) -/

def imgByte8 (img : List Byte) (off n : Nat) : Nat := natOfBytes ((img.drop off).take n)
/-- A state's descriptor in SDESC. -/
def imgDesc (img : List Byte) (st : Nat) : Nat := imgByte8 img 0 8 / 16 ^ st % 16
/-- The entry of a state, an event and a relation. -/
def imgEntry (img : List Byte) (st ev rel : Nat) : Nat := imgByte8 img (0x40 + 4 * (64 * st + 4 * ev + rel)) 4
/-- Whether the protocol keeps replicas in meadows: its first write locks (R388). -/
def imgRepl (img : List Byte) : Bool := hasAct (imgEntry img 0 1 0) aLOCK

/-! ### A model state -/

/-- A core's copy, or the other meadow's replica: the lines it holds, those that hold the value of the last write, whether it may
be written, and whether it is locked. -/
structure XCopy where
  has : BitVec 4 := 0
  ok : BitVec 4 := 0
  m : Bool := false
  locked : Bool := false
deriving DecidableEq, Repr, Inhabited

/-- A request: its event, its core (0 and 1 of the home's meadow, 2 of the other), its line, whether it is a whole-grain write, its
number among its core's requests of its kind, and whether the data sent for it held the value of the last write. -/
structure XReq where
  ev : Nat
  who : Nat
  line : Nat
  whole : Bool := false
  n : Nat := 0
  got : Option Bool := none
  performed : Bool := false
deriving DecidableEq, Repr, Inhabited

/-- A message to a core or a replica, of a round, or a grant of data where `kind` is none: its lines, which of them hold the value of
the last write, whether it grants M, and the lines written since it was sent. -/
structure XMsg where
  dest : Nat
  kind : Option MsgKind
  lines : BitVec 4 := 0
  ok : BitVec 4 := 0
  m : Bool := false
  wrote : BitVec 4 := 0
deriving DecidableEq, Repr, Inhabited

/-- What a core or its engine (as agent 3) sends to the home: a request, an acknowledgement, or the copy it has dropped. -/
inductive XSent where
  | ask (r : XReq)
  | ack (kind : MsgKind)
  | drop
deriving DecidableEq, Repr, Inhabited

/-- A message to the home, with the data that it returns. -/
structure XUp where
  src : Nat
  what : XSent
  has : BitVec 4 := 0
  ok : BitVec 4 := 0
deriving DecidableEq, Repr, Inhabited

/-- The pending record: the saved request, the round's event and the answers awaited. -/
structure XPend where
  req : XReq
  round : Nat
  await : List (Nat × MsgKind)
deriving DecidableEq, Repr, Inhabited

/-- A model state: the directory entry, the home copy's lines that hold the value of the last write, the copies, the pending
record, the held requests, the messages in flight from and to the home, the requests issued so far by core and kind, and
whether a read has returned another value than the last write's. -/
structure XState where
  st : Nat := 0
  owner : Option Nat := none
  sets : BitVec 3 := 0
  home : BitVec 4 := BitVec.allOnes 4
  copies : List XCopy := [{}, {}, {}]
  pend : Option XPend := none
  held : List XReq := []
  msgs : List XMsg := []
  ups : List XUp := []
  issued : SMap Nat := []
  badRead : Bool := false
deriving DecidableEq, Repr, Inhabited

def xCopy (s : XState) (c : Nat) : XCopy := s.copies.getD c {}
def xSetCopy (s : XState) (c : Nat) (x : XCopy) : XState := { s with copies := s.copies.set c x }
def lineBit (l : Nat) : BitVec 4 := (1 : BitVec 4) <<< l
def hasLine (m : BitVec 4) (l : Nat) : Bool := m.getLsbD l
/-- Whether the requester is an engine. -/
def xEng (r : XReq) : Bool := decide (r.ev = evERD) || decide (r.ev = evEWR)

/-! ### Writes and data -/

/-- A write of some lines performs: what other places hold of them is no longer the value of the last write. -/
def staleLines (s : XState) (ls : BitVec 4) : XState :=
  { s with
    home := s.home &&& ~~~ls
    copies := s.copies.map fun x => { x with ok := x.ok &&& ~~~ls }
    msgs := s.msgs.map fun x => { x with ok := x.ok &&& ~~~ls }
    ups := s.ups.map fun x => { x with ok := x.ok &&& ~~~ls }
    pend := s.pend.map fun p => { p with req := { p.req with got := p.req.got.map (· && !hasLine ls p.req.line) } } }
def writeHome (s : XState) (ls : BitVec 4) : XState := { staleLines s ls with home := s.home ||| ls }
def writeCore (s : XState) (c l : Nat) : XState :=
  let s1 := staleLines s (lineBit l)
  let x := xCopy s1 c
  xSetCopy s1 c { x with has := x.has ||| lineBit l, ok := x.ok ||| lineBit l }

/-- Whether a grant is on its way to a core. -/
def xGrants (s : XState) (c : Nat) : Bool := s.msgs.any fun m => decide (m.dest = c) && m.kind.isNone

/-- A core's write performs: in the copy it has and the one with M that is on its way to it, in the one it holds in M, or at the
home. -/
def xWrite (s : XState) (c l : Nat) : XState :=
  let on (m : XMsg) : Bool := decide (m.dest = c) && m.kind.isNone && m.m
  if s.msgs.any on then
    let s0 := staleLines s (lineBit l)
    let x := xCopy s0 c
    let s1 := xSetCopy s0 c { x with ok := x.ok ||| (x.has &&& lineBit l) }
    { s1 with msgs := s1.msgs.map fun m => if on m then
        { m with lines := m.lines ||| lineBit l, ok := m.ok ||| lineBit l, wrote := m.wrote ||| lineBit l }
      else if m.dest = c ∧ m.kind.isNone then { m with ok := m.ok ||| (m.lines &&& lineBit l) } else m }
  else if (xCopy s c).m && hasLine (xCopy s c).has l then writeCore s c l
  else writeHome s (lineBit l)

/-- The lines that an entry moves for a request (R385). -/
def xMoved (e : Nat) (r : XReq) : BitVec 4 :=
  if e / 2 ^ 15 % 16 = 0 then lineBit r.line else BitVec.ofNat 4 (e / 2 ^ 15)

/-- The home sends its data for a copy, with M or without. -/
def sendData (s : XState) (ls : BitVec 4) (c : Nat) (m : Bool) : XState :=
  { s with msgs := s.msgs ++ [{ dest := c, kind := none, lines := ls, ok := s.home, m := m }] }
/-- The data of one access. -/
def gotData (s : XState) (ls : BitVec 4) (r : XReq) : XReq :=
  if hasLine ls r.line then { r with got := some (hasLine s.home r.line) } else r

/-- Data that comes back to the home. -/
def mergeHome (s : XState) (has ok : BitVec 4) : XState := { s with home := (s.home &&& ~~~has) ||| (ok &&& has) }

/-! ### The engine (R386) -/

/-- The relation of a requester (R383), as the directory has it. -/
def xRel (s : XState) (c : Nat) : Nat := if s.owner = some c then 2 else if s.sets.getLsbD c then 1 else 0

/-- A request completes: its access performs, where it has not; a read must return the value of the last write: of its core's
copy, of the line on its way to it, or of the data sent for it. -/
def xComplete (s : XState) (r : XReq) : XState :=
  let x := xCopy s r.who
  if evRead r.ev || decide (r.ev = evERD) then
    let good :=
      if xEng r then r.got.getD false
      else if hasLine x.has r.line then hasLine x.ok r.line
      else match s.msgs.find? fun m => decide (m.dest = r.who) && m.kind.isNone && hasLine m.lines r.line with
        | some m => hasLine m.ok r.line
        | none => r.got.getD false
    { s with badRead := s.badRead || !good }
  else if r.performed then s
  else if evWrite r.ev then xWrite s r.who r.line
  else if r.ev = evEWR then writeHome s (if r.whole then BitVec.allOnes 4 else lineBit r.line)
  else s

/-- The round that an entry starts: whom it awaits. -/
def xRound (s : XState) (act : Nat) (r : XReq) : Option (List (Nat × MsgKind)) :=
  let sharers := (List.range 3).filter fun c => s.sets.getLsbD c && (xEng r || decide (c ≠ r.who) || decide (7 ≤ r.ev))
  let replicas := (List.range 3).filter fun c => s.sets.getLsbD c
  let own := s.owner.toList
  let part (a : Nat) (k : MsgKind) (l : List Nat) : List (Nat × MsgKind) := if hasAct act a then l.map fun c => (c, k) else []
  if hasAct act aIALL || hasAct act aRINV || hasAct act aRSHR || hasAct act aLOCK || hasAct act aUPDU then
    some (part aIALL .inval sharers ++ part aRINV .recall own ++ part aRSHR .share own ++ part aLOCK .lock replicas
      ++ part aUPDU .update replicas)
  else none

/-- SDEL: a core leaves the sets; an eviction counts as the answer that a round awaits. -/
def xLeave (s : XState) (c : Nat) (evicts : Bool) : XState :=
  let s1 := { s with sets := s.sets &&& ~~~((1 : BitVec 3) <<< c) }
  if evicts then
    { s1 with
      msgs := s1.msgs.filter fun m => decide (m.dest ≠ c) || m.kind.isNone
      ups := s1.ups.filter fun a => decide (a.src ≠ c) || (match a.what with
        | .ack _ => false
        | _ => true)
      pend := s1.pend.map fun p => { p with await := p.await.filter fun a => decide (a.1 ≠ c) } }
  else s1

/-- A state is entered (R379). -/
def xEnter (img : List Byte) (s : XState) (next : Nat) : XState :=
  let k := stClass (imgDesc img next)
  { s with
    st := next
    sets := if k = 1 then s.sets else 0
    owner := if k = 2 then s.owner else none }

/-- One event at the home, with the offsets of the entries executed. -/
def xEvent (img : List Byte) : Nat → XState → Nat → Nat → XReq → XState × List Nat
  | 0, s, _, _, _ => (s, [])
  | n + 1, s, ev, rel, r0 =>
    let e := imgEntry img s.st ev rel
    let off := 64 * s.st + 4 * ev + rel
    let act := e % 2 ^ 14
    let next := e / 2 ^ 27 % 16
    if e / 2 ^ 24 % 8 ≠ 0 ∧ (e / 2 ^ 23 % 2 = 0 ∨ (ev = evEWR ∧ !r0.whole)) then (s, [off])
    else
      let ls := xMoved e r0
      let data := hasAct act aDSH || hasAct act aDEX
      let r1 := if data then gotData s ls r0 else r0
      let s1 := if !xEng r0 && ((hasAct act aDSH && hasAct act aSADD) || hasAct act aDEX) then sendData s ls r0.who (hasAct act aDEX) else s
      let s2 := if hasAct act aDEX && !xEng r0 then { s1 with owner := some r0.who } else s1
      let s3 := if hasAct act aSADD && !xEng r0 then { s2 with sets := s2.sets ||| ((1 : BitVec 3) <<< r0.who) } else s2
      let s4 := if hasAct act aSDEL then xLeave s3 r0.who (decide (ev = evEVT)) else s3
      let round := xRound s4 act r1
      let ws := if r1.whole then BitVec.allOnes 4 else lineBit r1.line
      let s5 := if hasAct act aUPDU then writeHome s4 ws else s4
      let r2 := if hasAct act aUPDU then { r1 with performed := true } else r1
      let s6 := match round with
        | some l => { s5 with
            pend := some ⟨r2, roundEvent act, l⟩
            msgs := s5.msgs ++ l.map fun a => { dest := a.1, kind := some a.2, lines := ws, ok := s5.home } }
        | none =>
          match s5.pend with
          | some p => { s5 with pend := some { p with req := if 9 ≤ ev then r2 else p.req } }
          | none => if hasAct act aSAVE then { s5 with pend := some ⟨r2, evUPD, []⟩ } else s5
      let s7 := if hasAct act aHOLD then { s6 with held := s6.held ++ [r2] } else s6
      let s8 := xEnter img s7 next
      let request := decide (ev ≤ 8)
      let ends := hasAct act aDONE
        || (request && decide (round = none) && !hasAct act aSAVE && !hasAct act aHOLD && decide (ev ≠ evEVT))
      let s9 := if !request && hasAct act aDONE then { s8 with pend := none } else s8
      let s10 := if ends then xComplete s9 r2 else s9
      let again := match s10.pend with
        | some p =>
          let owed := s.pend.any fun (q : XPend) => !q.await.isEmpty
          if p.await.isEmpty && (round.isSome || (decide (ev = evEVT) && owed)) then some p else none
        | none => none
      match again with
      | some p =>
        let x := xEvent img n s10 p.round 3 p.req
        (x.1, off :: x.2)
      | none => (s10, [off])

/-! ### What can happen next -/

/-- The requests at the home that have not completed. -/
def xOpen (s : XState) : List XReq := s.pend.toList.map (·.req) ++ s.held
/-- A request's name. -/
def xName (r : XReq) : Nat × Nat × Nat := (r.ev, r.who, r.n)

/-- Whether the home takes a new request before those it holds: not where it can take the held ones. -/
def xTakes (img : List Byte) (s : XState) : Bool := s.held.isEmpty || stTrans (imgDesc img s.st)

/-- The requests that a core may issue: at most `most` of each kind, and only what its copy does not serve. A kind is the event's
number, with 2 and 3 counted as reads and writes. -/
def xIssues (img : List Byte) (lines most : Nat) (s : XState) : List XReq :=
  let repl := imgRepl img
  let n (c ev : Nat) : Nat := smGet 0 s.issued (c * 16 + ev)
  let one (c ev : Nat) (whole : Bool) : List XReq :=
    if most ≤ n c ev then [] else (List.range lines).filterMap fun l =>
      let x := xCopy s c
      let served := (evRead ev && hasLine x.has l && (!repl || decide (c = 2))) || (evWrite ev && x.m && hasLine x.has l)
      if served then none else some ⟨ev, c, l, whole, n c ev, none, false⟩
  one 0 0 false ++ one 1 0 false ++ one 2 2 false ++ one 0 1 false ++ one 1 1 false ++ one 2 3 false
    ++ one 0 evERD false ++ one 0 evEWR false ++ (one 0 evEWR true).take 1
    ++ [evCLN, evINV].filterMap fun ev =>
      if (xOpen s).any fun r => decide (r.ev = ev) then none else some ⟨ev, 0, 0, false, 0, none, false⟩

/-- The agent that sends a request: a core, or its engine. -/
def xAgent (r : XReq) : Nat := if xEng r then 3 else r.who
/-- A request reaches the home. -/
def xTake (img : List Byte) (s : XState) (r : XReq) : XState × List Nat :=
  xEvent img 4 s r.ev (if r.ev ≤ 6 then xRel s r.who else 3) r

/-- A request sets out; CLN and INV arrive at any time. -/
def xIssue (img : List Byte) (s : XState) (r : XReq) : Option (XState × List Nat) :=
  if r.ev = evCLN ∨ r.ev = evINV then (if xTakes img s then some (xTake img s r) else none)
  else some ({ s with
    issued := smMod 0 s.issued (r.who * 16 + r.ev) (· + 1)
    ups := s.ups ++ [{ src := xAgent r, what := .ask r }] }, [])

/-- Whether a core waits for an answer to a request. -/
def xWaits (s : XState) (c : Nat) : Bool :=
  let mine (r : XReq) : Bool := decide (r.who = c) && !xEng r && decide (r.ev < 4)
  xGrants s c || (xOpen s).any mine || s.ups.any fun u => match u.what with
    | .ask r => mine r
    | _ => false

/-- A holder that waits for nothing drops its copy, which sets out for the home with its data where it may be written. -/
def xDrop (s : XState) (c : Nat) : XState :=
  let x := xCopy s c
  { xSetCopy s c {} with
    issued := smMod 0 s.issued (c * 16 + evEVT) (· + 1)
    ups := s.ups ++ [{ src := c, what := .drop, has := if x.m then x.has else 0, ok := x.ok }] }

/-- The oldest message to a core or a replica is received: its data are kept, or the copy goes, or is kept without M, or is locked, or
updated. -/
def xDeliver (s : XState) (c : Nat) : Option XState :=
  match s.msgs.find? fun m => decide (m.dest = c) with
  | none => none
  | some m =>
    let s1 := { s with msgs := s.msgs.erase m }
    let x := xCopy s c
    let answer (k : MsgKind) (y : XCopy) (has ok : BitVec 4) : XState :=
      { xSetCopy s1 c y with ups := s1.ups ++ [{ src := c, what := .ack k, has := has, ok := ok }] }
    let dirty : BitVec 4 := if x.m then x.has else 0
    some (match m.kind with
      | none => xSetCopy s1 c { x with
          has := x.has ||| m.lines
          ok := x.ok ||| (m.lines &&& m.ok &&& (~~~x.has ||| m.wrote))
          m := x.m || m.m }
      | some .inval => answer .inval {} 0 0
      | some .recall => answer .recall {} dirty x.ok
      | some .share => answer .share { x with m := false } dirty x.ok
      | some .lock => answer .lock { x with locked := true } 0 0
      | some .update => answer .update { x with
          locked := false
          ok := (x.ok &&& ~~~m.lines) ||| (m.ok &&& m.lines &&& x.has) } 0 0)

/-- An acknowledgement of a round reaches the home. -/
def xAnswer (img : List Byte) (s : XState) (c : Nat) (k : MsgKind) : XState × List Nat :=
  match s.pend with
  | none => (s, [])
  | some p =>
    if !(p.await.any fun x => decide (x.1 = c)) then (s, [])
    else
      let p1 := { p with await := p.await.filter fun x => decide (x.1 ≠ c) }
      let s1 := { s with
        pend := some p1
        sets := if k = .share then s.sets ||| ((1 : BitVec 3) <<< c) else s.sets }
      if p1.await.isEmpty then xEvent img 4 s1 p1.round 3 p1.req else (s1, [])

/-- The oldest message of an agent reaches the home; a request may have to wait there. -/
def xHear (img : List Byte) (s : XState) (src : Nat) : Option (XState × List Nat) :=
  match s.ups.find? fun a => decide (a.src = src) with
  | none => none
  | some u =>
    let s1 := mergeHome { s with ups := s.ups.erase u } u.has u.ok
    match u.what with
    | .ask r => if xTakes img s then some (xTake img s1 r) else none
    | .ack k => some (xAnswer img s1 src k)
    | .drop => some (xEvent img 4 s1 evEVT (xRel s1 src) ⟨evEVT, src, 0, false, 0, none, false⟩)

/-- The states that follow a state, each with the entries that led to it: a write to a copy that may be written, an eviction and a
request that set out, a held request, a message received by a core, one received by the home, a timeout in a transient
state. DEDUCED, notes/assumptions/56.md. -/
def xNext (img : List Byte) (lines most : Nat) (s : XState) : List (XState × List Nat) :=
  let cores := List.range 3
  let writes := cores.flatMap fun c => (List.range lines).filterMap fun l =>
    if (xCopy s c).m && hasLine (xCopy s c).has l then some (writeCore s c l, []) else none
  let drops := cores.filterMap fun c =>
    if smGet 0 s.issued (c * 16 + evEVT) < most ∧ (xCopy s c).has ≠ 0 ∧ !xWaits s c then some (xDrop s c, []) else none
  let asks := (xIssues img lines most s).filterMap (xIssue img s)
  let again := match s.held with
    | r :: l => if stTrans (imgDesc img s.st) then [] else [xTake img { s with held := l } r]
    | [] => []
  let received := cores.filterMap fun c => (xDeliver s c).map fun t => (t, [])
  let heard := (List.range 4).filterMap (xHear img s)
  let late := if stTrans (imgDesc img s.st) then
      [xEvent img 4 s evTMO 3 ((s.pend.map (·.req)).getD ⟨evTMO, 3, 0, false, 0, none, false⟩)] else []
  writes ++ drops ++ asks ++ again ++ received ++ heard ++ late

/-! ### The checks (R391) -/

/-- A core that may write is the only holder of any copy. -/
def xSwmr (s : XState) : Bool :=
  (List.range 3).all fun c => !(xCopy s c).m || (List.range 3).all fun d => decide (d = c) || decide ((xCopy s d).has = 0)

/-- Every read returns the value of the last write: none has not, and no copy could; unlocked replicas equal the home copy. -/
def xData (img : List Byte) (s : XState) : Bool :=
  !s.badRead && (List.range 3).all fun c =>
    let x := xCopy s c
    if imgRepl img && decide (c = 2) then x.locked || decide (x.ok &&& x.has = s.home &&& x.has) else decide (x.ok &&& x.has = x.has)

/-- A model state with the entry that led to it, by the lowest offset, and the step at which it was reached. -/
abbrev XSeen := XState × Nat × Nat

/-- The states of a model, breadth first. -/
def xExplore (next : XState → List (XState × List Nat)) : Nat → Nat → List XSeen → List XSeen → List XSeen
  | 0, _, _, seen => seen
  | n + 1, step, front, seen =>
    let new := front.flatMap fun x => (next x.1).map fun y => (y.1, (y.2.getLast?).getD x.2.1, step + 1)
    let fresh := new.foldl (fun (l : List XSeen) y =>
      if seen.any fun z => decide (z.1 = y.1) then l
      else match l.find? fun z => decide (z.1 = y.1) with
        | some z => if y.2.1 < z.2.1 then l.map fun w => if w.1 = y.1 then y else w else l
        | none => l ++ [y]) []
    if fresh.isEmpty then seen else xExplore next n (step + 1) fresh (seen ++ fresh)

/-- The model states that an exploration may reach (R391, check 8). -/
def xLimit : Nat := 2 ^ 24
def xReach (img : List Byte) (lines most : Nat) (s : XState) : List XSeen :=
  xExplore (xNext img lines most) xLimit 0 [(s, 0, 0)] [(s, 0, 0)]

/-- Every pending and held request of a state can complete. -/
def xLive (img : List Byte) (lines most : Nat) (s : XState) : Bool :=
  (xOpen s).all fun r => (xReach img lines most s).any fun t => !((xOpen t.1).any fun q => decide (xName q = xName r))

/-- The first state of an exploration that fails a check: of those at the lowest step, that of the lowest entry. -/
def xFirst (ok : XState → Bool) (l : List XSeen) : Option (Nat × Nat) :=
  let bad := l.filter fun x => !ok x.1
  match minBy (fun x => x.2.2) bad with
  | none => none
  | some y => (minBy (fun x => x.2.1) (bad.filter fun x => decide (x.2.2 = y.2.2))).map fun x => (x.2.1, x.2.2)

/-- How many model states an exploration has met (check 8). Which of its states Rowan tells apart is open: DEDUCED,
notes/assumptions/56.md. -/
def xCount (img : List Byte) (seen : List XSeen) : Nat :=
  ((List.range seen.length).foldl (fun l i => nsAdd l (Config.modelState img i)) []).length

/-- Checks 5 to 8 (R391): the code, the failing entry's state, event and relation, and the step; none when the image passes.
DEDUCED, notes/assumptions/56.md. -/
def modelCheck (img : List Byte) : Option (Nat × Nat × Nat × Nat × Nat) :=
  let states := xReach img 4 2 {}
  let fail (code : Nat) (x : Nat × Nat) : Nat × Nat × Nat × Nat × Nat := (code, x.1 / 64, x.1 / 4 % 16, x.1 % 4, x.2)
  if xLimit < xCount img states then some (8, 0, 0, 0, 0)
  else match xFirst xSwmr states, xFirst (xData img) states, xFirst (xLive img 4 2) states with
    | some x, _, _ => some (fail 5 x)
    | none, some x, _ => some (fail 6 x)
    | none, none, some x => some (fail 7 x)
    | none, none, none => none

end Sys2Proof.Machine
end

