-- ==== Sys2Proof/Machine/Rcalls.lean ====
section
/-! DEFINITION. Rowan calls beside the page tables: sealed pages, usage, the service queue, stream binding, and protocols
(R333, R390 to R392, R403 to R406, R434). -/
namespace Sys2Proof.Machine

/-! ### Sealed pages (R405, R406) -/

/-- R, W and X of a leaf as bits 0, 1 and 2. -/
def leafRwx (p : W64) : Nat := (if pteR p then 1 else 0) + (if pteW p then 2 else 0) + (if pteX p then 4 else 0)

/-- SEAL: the leaf is cleared and the shootdown starts. The doubleword at 0x20 of the block is GEN's place. DESIGN CHOICE,
notes/assumptions/16.md. -/
def sealCall (s : State) (c : Call) : Sum Nat State :=
  if !argsWithin c [mask64, mask64, 0, 0xFFFF, mask64] then .inl stBadArgs
  else match callTarget s c with
    | .inl x => .inl x
    | .inr (encl, e) =>
      let va := argW c 0
      let dst := argW c 1
      let asid := argAsid c
      if va % 4096 ≠ 0 ∨ 2 ^ 57 ≤ va ∨ dst % 4096 ≠ 0 then .inl stBadArgs
      else if e.seals.any fun x => decide (x.page = va) then .inl stOverlap
      else match pageLeaf s asid va 12 with
        | none => .inl stNotMapped
        | some l =>
          let src := ptePa l.1
          let pe := potEntry s (potGov s (src / 4096))
          if pteMt l.1 = 1 ∨ potOwner pe ≠ encl ∨ !paOk dst ∨ !backed s dst ∨ !backed s src ∨ !freeIn s e.part (dst / 4096) 12 then
            .inl stBadFrame
          else if 2 ^ 20 ≤ e.seals.length then .inl stQuota
          else
            .inr (startShoot (clearPages (touchWalk s asid va) asid 12 [va]) asid va (va + 4096)
              (.sealPage va src dst (leafRwx l.1) (potState pe)) (some c))

/-- SEAL (R405). -/
def execSealPage (s : State) : Out := startCall [0x08] sealCall s

/-- UNSEAL: an image, read as it is stored, that matches is decrypted in place, mapped as it was, and leaves the seal list; one with
poison or an uncorrectable error in it does not match. DESIGN CHOICE, notes/assumptions/16.md. -/
def unsealCall (s : State) (c : Call) : State × Nat :=
  let no (x : Nat) : State × Nat := (s, x)
  if !argsWithin c [mask64, mask64, 0, 0xFFFF] then no stBadArgs
  else match callTarget s c with
    | .inl x => no x
    | .inr (encl, e) =>
      let va := argW c 0
      let pa := argW c 1
      let asid := argAsid c
      if va % 4096 ≠ 0 ∨ 2 ^ 57 ≤ va ∨ pa % 4096 ≠ 0 then no stBadArgs
      else match e.seals.find? fun x => decide (x.page = va) with
        | none => no stNotMapped
        | some x =>
          let frame := pa / 4096
          let pe := potEntry s (potGov s frame)
          let sealed := decide (potState pe = psSealed) && decide (enclPart s (potOwner pe) = some e.part)
          let area := (getPart s e.part).areas.any fun f => decide (f ≤ frame) && decide (frame < f + 512)
          if !pageUnmapped s asid va 12 then no stOverlap
          else if !paOk pa ∨ !backed s pa ∨ area ∨ !(sealed || freeIn s e.part frame 12) then no stBadFrame
          else
            let k := (smFind? s.keys e.kslot).getD ⟨0, [], [], []⟩
            let img := (blocksOf 64 pa 4096).flatMap (storedBlock s)
            let bad := (blocksOf 64 pa 4096).any fun b => nsHas s.poison b || nsHas s.ecc b
            if bad ∨ sealMac k encl va x.gen img ≠ x.mac then no stBadSeal
            else
              let s0 := meterLines (ioTouch (touchWalk s asid va) pa 4096 false) pa 4096
              let s1 := takePage s0 frame 12 encl asid x.pot
              let s2 := ioPut s1 pa (exportBlocks Config.xtsDecrypt k encl va x.gen img)
              let s3 := setEncl s2 encl { e with seals := e.seals.filter fun y => decide (y.page ≠ va) }
              match mapPage s3 e.part encl asid va 12 pa x.rwx with
              | .ok s4 _ => (s4, stOk)
              | .overlap => no stOverlap
              | .quota => no stQuota

/-- UNSEAL (R406). -/
def execUnsealPage (s : State) : Out := runCall [0x09] unsealCall s

/-! ### USAGE, SVCQ, BIND (R333, R403, R434) -/

/-- USAGE: a record is emitted and written to the caller's buffer. -/
def usageCall (s : State) (c : Call) : State × Nat :=
  let p := argW c 3
  if !argsWithin c [mask64, 0, 0, 0x3F] then (s, stBadArgs)
  else if !callHyp s c ∧ p ≠ callPart s c then (s, stNotOwner)
  else if !(getPart s p).live then (s, stBadArgs)
  else
    let r := emitUsage s p 1
    match writeSpanAt r.1 (getTeam s (teamOf s c.thread)).asid (argW c 0) r.2 with
    | some s1 => (s1, stOk)
    | none => (noteSpan s 3 (getTeam s (teamOf s c.thread)).asid (argW c 0) r.2.length .w, stBadArgs)

/-- USAGE (R403, R434). -/
def execUsage (s : State) : Out := runCall [0x10] usageCall s

/-- Whether the pages of [va, va + n) lie in frames private to an enclave: the status that says otherwise. -/
def privatePages (s : State) (asid encl va n : Nat) : Nat :=
  let bad (v : Nat) : Nat := match findLeaf s asid v with
    | .leaf p lvl _ =>
      let pa := ptePa p / 2 ^ leafBits lvl * 2 ^ leafBits lvl + v % 2 ^ leafBits lvl
      let e := potEntry s (potGov s (pa / 4096))
      if pteMt p = 0 ∧ potState e = psPrivate ∧ potOwner e = encl then stOk else stBadFrame
    | _ => stNotMapped
  ((blocksOf 4096 va n).map fun v => bad (v * 4096)).foldl (fun a x => if a = stOk then x else a) stOk

/-- Whether a partition's service queue holds an item or a request is pending (R333). -/
def svcqBusy (s : State) (p : Nat) : Bool :=
  let x := getPart s p
  !x.svcPend.isEmpty || (match x.svcq with
    | none => false
    | some (hdr, asid) => match (nowPa s asid hdr).bind (readHdr s) with
      | some h => decide (qPresent h ≠ 0)
      | none => false)

/-- SVCQ: the partition's service queue is set up, or replaced. DEDUCED, notes/assumptions/17.md. -/
def svcqCall (s : State) (c : Call) : State × Nat :=
  let no (x : Nat) : State × Nat := (s, x)
  let p := callPart s c
  let x := getPart s p
  let hdr := argW c 0
  let base := argW c 1
  let log2n := argW c 2
  if !argsWithin c [mask64, mask64, 31, 0] ∨ log2n < 4 ∨ 12 < log2n then no stBadArgs
  else if c.encl ≠ x.agent then no stNotOwner
  else match getEncl s x.agent with
    | none => no stNotOwner
    | some e =>
      if hdr % 64 ≠ 0 ∨ base % 32 ≠ 0 ∨ 2 ^ 57 < base + 32 * 2 ^ log2n then no stBadArgs
      else match nowPa s e.asid hdr, windowHdr s p e.asid hdr with
        | none, _ => no stNotMapped
        | some _, none => no stBadFrame
        | some _, some pa =>
          let items := privatePages s e.asid x.agent base (32 * 2 ^ log2n)
          if items ≠ stOk then no items
          else if svcqBusy s p then no stInUse
          else (modPart (noteSpoilt s (ioPut s pa (freshHdr base 1 log2n)) pa 64) p fun y => { y with svcq := some (hdr, e.asid) }, stOk)

/-- SVCQ (R333, R403). -/
def execSvcq (s : State) : Out := runCall [0x11] svcqCall s

/-- BIND: an IDE selective stream is bound to an enclave. -/
def bindCall (s : State) (c : Call) : State × Nat :=
  if !argsWithin c [0, 0, 0xFF, 0xFFFF] then (s, stBadArgs)
  else match callTarget s c with
    | .inl x => (s, x)
    | .inr (encl, _) =>
      let i := argW c 2
      let st := smGet ({} : Stream) s.host.streams i
      ({ s with host := { s.host with streams := smPut s.host.streams i { st with encl := encl } } }, stOk)

/-- BIND (R20, R403). -/
def execBind (s : State) : Out := runCall [0x19] bindCall s

/-! ### Checks of a protocol image (R382, R385, R391) -/

/-- The entries of an image in ascending offset: (state, event, relation, value). -/
def imgEntriesFrom : Nat → Nat → List Byte → List (Nat × Nat × Nat × Nat)
  | 0, _, _ => []
  | n + 1, i, bs => (i / 64, i / 4 % 16, i % 4, natOfBytes (bs.take 4)) :: imgEntriesFrom n (i + 1) (bs.drop 4)
def imgEntries (img : List Byte) : List (Nat × Nat × Nat × Nat) := imgEntriesFrom 1024 0 (img.drop 64)

def descUsed (d : Nat) : Bool := decide (8 ≤ d)

/-- FORMAT of the header: SDESC, TMO and the reserved fields. -/
def imgHeaderOk (img : List Byte) : Bool :=
  decide (imgDesc img 0 = 8) && decide (imgDesc img 1 = 9) && decide (imgDesc img 2 = 10)
    && (List.range 16).all (fun i => decide (stClass (imgDesc img i) ≠ 3))
    && decide (1 ≤ imgByte8 img 0x10 2) && decide (imgByte8 img 0x10 2 ≤ 1000)
    && decide (imgByte8 img 0x12 6 = 0) && decide (imgByte8 img 0x18 40 = 0)

/-- An entry that a protocol must define: of a used state, and of an event with that relation. -/
def imgWanted (img : List Byte) (st ev rel : Nat) : Bool := descUsed (imgDesc img st) && relOk ev rel

/-- Checks 1 to 4 on one entry: whether it passes. -/
def imgFormat (img : List Byte) (x : Nat × Nat × Nat × Nat) : Bool :=
  let (st, ev, rel, e) := x
  let code := e / 2 ^ 24 % 8
  if !imgWanted img st ev rel then decide (e = 0)
  else
    decide (e / 2 ^ 14 % 2 = 0) && descUsed (imgDesc img (e / 2 ^ 27 % 16)) && decide (code ≤ 2)
      && (decide (code ≠ 1) || decide (ev = evEWR))
      && (decide (code = 0) || decide (e / 2 ^ 23 % 2 = 1) || (decide (e % 2 ^ 14 = 0) && decide (e / 2 ^ 27 % 16 = st)))
def imgDefined (img : List Byte) (x : Nat × Nat × Nat × Nat) : Bool :=
  let (st, ev, rel, e) := x
  !imgWanted img st ev rel || decide (2 ^ 31 ≤ e)
def imgLocal (x : Nat × Nat × Nat × Nat) : Bool := decide (x.2.2.2 / 2 ^ 19 % 16 = 0)
def imgTimeout (img : List Byte) (x : Nat × Nat × Nat × Nat) : Bool :=
  let (st, ev, rel, e) := x
  let next := e / 2 ^ 27 % 16
  let round := hasAct e aSAVE || hasAct e aIALL || hasAct e aRINV || hasAct e aRSHR || hasAct e aLOCK || hasAct e aUPDU
  (!(stTrans (imgDesc img st) && decide (ev = evTMO) && imgWanted img st ev rel) || hasAct e aRSND || decide (next ≠ st))
    && (!round || stTrans (imgDesc img next))

/-- The first failed check of an image (R391): its code, the failing entry's state, event and relation, and the step. -/
def imgFailure (img : List Byte) : Option (Nat × Nat × Nat × Nat × Nat) :=
  let es := imgEntries img
  let bad (code : Nat) (ok : Nat × Nat × Nat × Nat → Bool) : Option (Nat × Nat × Nat × Nat × Nat) :=
    (es.find? fun x => !ok x).map fun x => (code, x.1, x.2.1, x.2.2.1, 0)
  if !imgHeaderOk img then some (1, 0, 0, 0, 0)
  else match bad 1 (imgFormat img), bad 2 (imgDefined img), bad 3 imgLocal, bad 4 (imgTimeout img) with
    | some f, _, _, _ => some f
    | _, some f, _, _ => some f
    | _, _, some f, _ => some f
    | _, _, _, some f => some f
    | _, _, _, _ => modelCheck img

/-- The 16 bytes of a report. -/
def imgReport (f : Nat × Nat × Nat × Nat × Nat) : List Byte :=
  let (code, st, ev, rel, step) := f
  bytesOfNat 8 (step % 2 ^ 32 * 2 ^ 32 + rel % 4 * 2 ^ 16 + ev % 16 * 2 ^ 12 + st % 16 * 2 ^ 8 + code % 256) ++ bytesOfNat 8 0

/-! ### PLOAD, PUNLOAD, RANGE (R390, R392) -/

/-- Whether a valid range entry names a protocol. -/
def protoInUse (s : State) (id : Nat) : Bool := s.ranges.any fun r => rangeV r.2 && decide (rangeProt r.2 = id)

/-- PLOAD: the image is checked, and loaded or reported. DEDUCED, notes/assumptions/17.md. -/
def ploadCall (s : State) (c : Call) : State × Nat :=
  let asid := (getTeam s (teamOf s c.thread)).asid
  let id := argW c 1
  if !callHyp s c then (s, stNoPrivilege)
  else if !argsWithin c [mask64, 7, mask64] ∨ id = 0 ∨ argW c 0 % 64 ≠ 0 ∨ argW c 2 % 16 ≠ 0 then (s, stBadArgs)
  else match readSpanAt s asid (argW c 0) 4160, nowPa s asid (argW c 2) with
    | some img, some _ =>
      if protoInUse s id then (s, stInUse)
      else match imgFailure img with
        | none => ({ ioTouchSpan s asid (argW c 0) 4160 with protos := smPut s.protos id img }, stOk)
        | some f =>
          (match ioWriteVa (ioTouchSpan s asid (argW c 0) 4160) asid (argW c 2) (imgReport f) with
            | some s1 => (s1, stCheckFailed)
            | none => (s, stBadArgs))
    | _, _ => (noteSpan (noteSpan s 3 asid (argW c 0) 4160 .r) 3 asid (argW c 2) 16 .w, stBadArgs)

/-- PLOAD (R390, R391). -/
def execPload (s : State) : Out := runCall [0x20] ploadCall s

/-- PUNLOAD: the ID is free. -/
def punloadCall (s : State) (c : Call) : State × Nat :=
  let id := argW c 1
  if !callHyp s c then (s, stNoPrivilege)
  else if !argsWithin c [0, 7] ∨ id = 0 then (s, stBadArgs)
  else if protoInUse s id then (s, stInUse)
  else ({ s with protos := smDel s.protos id }, stOk)

/-- PUNLOAD (R390). -/
def execPunload (s : State) : Out := runCall [0x21] punloadCall s

/-- Whether an entry's range holds a grain. -/
def rangeHolds (e : W64) (g : Nat) : Bool :=
  rangeV e && decide (rangeBase e ≤ g * 512 / 2 ^ 21) && decide (g * 512 / 2 ^ 21 < rangeLimit e)

/-- The pages of an entry that lie in a partition's quota: a quota lists each 2 MiB page once. -/
def quotaHolds (s : State) (p : Nat) (e : W64) : Bool :=
  decide (((getPart s p).quota.filter fun q =>
    decide (rangeBase e ≤ q.1 / 512) && decide (q.1 / 512 < rangeLimit e)).length = rangeLimit e - rangeBase e)

/-- The status of a RANGE (R390), in the order of its cases. -/
def rangeStatus (s : State) (c : Call) : Nat :=
  let idx := argW c 0 % 64
  let p := argW c 0 / 256 % 64
  let e : W64 := BitVec.ofNat 64 (argW c 1)
  if !argsWithin c [0x3F3F, 0x87003FFFFFFFFFFF] ∨ !(getPart s p).live then stBadArgs
  else if !rangeV e then stOk
  else if rangeLimit e ≤ rangeBase e then stBadArgs
  else if rangeProt e ≠ 0 ∧ (smFind? s.protos (rangeProt e)).isNone then stBadArgs
  else if !quotaHolds s p e then stBadFrame
  else if (s.ranges.any fun r => decide (r.1 / 64 = p) && decide (r.1 ≠ p * 64 + idx) && rangeV r.2
      && decide (rangeBase r.2 < rangeLimit e) && decide (rangeBase e < rangeLimit r.2)) then stOverlap
  else stOk

/-- The grains of a range of which a home holds anything. -/
def heldGrains (s : State) (hit : Nat → Bool) : List Nat :=
  let all : List Nat := (s.pends.map fun x => x.1) ++ (s.dir.map fun x => x.1) ++ (s.proxies.map fun x => x.1 / 8) ++ (s.stale.map fun x => x.1 / 4)
  (all.filter hit).foldl nsAdd []

/-- The grains of a range are flushed (R392): rounds under way end, and each grain meets its protocol's INV, which writes its
dirty lines back and takes its copies and replicas; then it is in I, without a written mark. No request is taken meanwhile.
-/
def flushGrains (s0 : State) (hit : Nat → Bool) : State :=
  let s := (heldGrains s0 hit).foldl (fun s g => homeNow s g evINV ioAgent ((rangeFrom (g * 4) 4).map (2 * ·))) s0
  let s1 := (s.stale.filter fun x => hit (x.1 / 4)).foldl (fun s x => writeBackMetered s x.1) s
  { s1 with
    dir := smFilter s1.dir fun g => !hit g
    proxies := smFilter s1.proxies fun k => !hit (k / 8)
    locked := s1.locked.filter fun k => !hit (k / 9) }

/-- RANGE (R392): refused, or applied to grains that have been flushed. DEDUCED, notes/assumptions/17.md. -/
def execRange (s : State) : Out :=
  match headCall s [0x22] with
  | none => .next s
  | some (c, s1) =>
    let key := argW c 0 / 256 % 64 * 64 + argW c 0 % 64
    let e : W64 := BitVec.ofNat 64 (argW c 1)
    let old := smGet (0 : W64) s.ranges key
    let hit (g : Nat) : Bool := rangeHolds old g || rangeHolds e g
    if !callHyp s c then .next (callDone s1 c stNoPrivilege)
    else if rangeStatus s c ≠ stOk then .next (callDone s1 c (rangeStatus s c))
    else
      let s2 := flushGrains s1 hit
      .next (callDone { s2 with ranges := if rangeV e then smPut s2.ranges key e else smDel s2.ranges key } c stOk)

end Sys2Proof.Machine
end

