-- ==== Sys2Proof/Machine/Replay.lean ====
section
/-! DEFINITION. `fqack` (R213, R331): what waits on a page is replayed or denied. -/
namespace Sys2Proof.Machine

/-- A page as a walk names it. -/
def pageWalk (asid page : Nat) : Walk := ⟨asid, page, 0, [], false⟩

/-- The operations of a thread that wait for `fqack` of a page. -/
def pagedMops (s : State) (asid page t : Nat) : List Nat :=
  (List.range (getTh s t).mq.length).filter fun j =>
    match getMop s t j with
    | some o => mopWalks (pageWalk asid page) s t o .page
    | none => false

/-- Whether a thread's next word waits for it, and whether a wait of it does. -/
def pagedWord (s : State) (asid page t : Nat) : Bool :=
  match (getTh s t).wait with
  | some (.page a p _ false) => decide (a = asid) && decide (p = page)
  | _ => false
def pagedWait (s : State) (asid page t : Nat) : Bool :=
  match (getTh s t).pageWait with
  | some pw => decide (pw.asid = asid) && decide (pw.page = page) && !pw.walking
  | none => false

/-- Whether a team's JOIN decrement waits for it (R52). -/
def pagedJoin (asid page : Nat) (tm : Team) : Bool :=
  tm.live && decide (tm.joinWait = some false) && decide (tm.asid = asid) && decide (tm.join.toNat / 4096 = page)

def pagedJob (asid page : Nat) (j : Job) : Bool := decide (j.waitPage = some (asid, page, false))
def pagedCtx (asid page : Nat) (c : Ctx) : Bool := !c.walking && decide (c.st = .suspended page) && decide (c.q.asid = asid)

/-- The number of accesses, jobs and queries that wait. -/
def pageWaiters (s : State) (asid page : Nat) : Nat :=
  (s.threads.map fun x => (pagedMops s asid page x.1).length + (if pagedWord s asid page x.1 then 1 else 0)
      + (if pagedWait s asid page x.1 then 1 else 0)).foldl (· + ·) 0
    + (s.teams.filter fun x => pagedJoin asid page x.2).length
    + (s.cores.map fun c => (c.2.jobs.filter (pagedJob asid page)).length).foldl (· + ·) 0
    + (s.heather.map fun h => (h.2.ctxs.filter fun c => pagedCtx asid page c.2).length).foldl (· + ·) 0

/-- A denied thread (R171, R213): a word that it was to fetch traps precisely; a data page of its word faults in that word. -/
def denyWord (page : Nat) (th : Thread) : Thread :=
  match th.wait with
  | some (.page _ _ 1 _) => { th with wait := none, denied := true }
  | _ => { th with wait := none, refused := some (page * 4096) }

/-- One thread's waiters are answered. -/
def ackThread (asid page : Nat) (deny : Bool) (s : State) (t : Nat) : State :=
  let who : WalkFor := .core (coreOf t)
  let mop (a : State) (j : Nat) : State :=
    match getMop a t j with
    | none => a
    | some o =>
      if deny then mopFault a t j o ccNotMapped
      else askWalk (setMopSt a t j .walking) asid page (mopFaultKind o.kind) who
  let s1 := (pagedMops s asid page t).reverse.foldl mop s
  let s2 := if !pagedWord s asid page t then s1
    else if deny then modTh s1 t (denyWord page)
    else match (getTh s t).wait with
      | some (.page a p kind _) => askWalk (modTh s1 t fun th => { th with wait := some (.page a p kind true) }) asid page kind who
      | _ => s1
  if !pagedWait s asid page t then s2
  else if deny then modTh s2 t fun th => { th with pageWait := none, refused := th.pageWait.map (·.va) }
  else match (getTh s t).pageWait with
    | some pw => askWalk (modTh s2 t fun th => { th with pageWait := some { pw with walking := true } }) asid page pw.kind who
    | none => s2

/-- One job is answered: a denied job ends with NOT_MAPPED (R323). -/
def ackJob (asid page : Nat) (deny : Bool) (core : Nat) (s : State) (j : Job) : State :=
  let no (j : Job) : Job :=
    { j with waitPage := none, state := .running, fcode := ccNotMapped, faulted := some (ccNotMapped, BitVec.ofNat 64 j.waitVa) }
  if !pagedJob asid page j then s
  else if deny then modJob s core j.num no
  else askWalk (modJob s core j.num fun j => { j with waitPage := some (asid, page, true) }) asid page 5 (.copy core)

def ackJobs (asid page : Nat) (deny : Bool) (s : State) (core : Nat) : State :=
  (getCore s core).jobs.foldl (ackJob asid page deny core) s

/-- One stack's contexts are answered (R351). -/
def ackCtxs (asid page : Nat) (deny : Bool) (s : State) (st : Nat) : State :=
  let h := getHeather s st
  let hit := h.ctxs.any fun c => pagedCtx asid page c.2
  let one (c : Nat × Ctx) : Nat × Ctx :=
    if pagedCtx asid page c.2 then
      (c.1, if deny then { c.2 with st := .running, fcode := ccNotMapped, fva := c.2.wva } else { c.2 with walking := true })
    else c
  let s1 := setHeather s st { h with ctxs := h.ctxs.map one }
  if !hit then s else if deny then s1 else askWalk s1 asid page 6 (.heather st)

/-- The answer to everything that waits on a page. A team whose JOIN decrement waited tries it again, or takes its fault
(R52). -/
def ackPage (s : State) (asid page : Nat) (deny : Bool) : State :=
  let s1 := fqWithdraw s asid page
  let s2 := (s.threads.map (·.1)).foldl (ackThread asid page deny) s1
  let join (x : Nat × Team) : Nat × Team :=
    if pagedJoin asid page x.2 then (x.1, { x.2 with joinWait := if deny then some true else none }) else x
  let s3 := { s2 with teams := s2.teams.map join }
  let s4 := (s.cores.map (·.1)).foldl (ackJobs asid page deny) s3
  (s.heather.map (·.1)).foldl (ackCtxs asid page deny) s4

/-- `fqack` in one thread: the state, and d. -/
def fqackOne (s : State) (a : W64) (b : W32) : State × W32 :=
  let asid := b.toNat % 65536
  let page := (a.extractLsb' 12 45).toNat
  if b.toNat / 2 ^ 17 ≠ 0 then (s, 0xFFFFFFFF)
  else
    let n := pageWaiters s asid page
    if n = 0 then (s, 0) else (ackPage s asid page (b.getLsbD 16), BitVec.ofNat 32 n)

/-- fqack (R213): a release at `.pkg`, so each thread's earlier accesses have performed. -/
def execFqack (g : Guard) (d : WReg) (a : Src64) (b : Src) (s : State) : Out :=
  let r := srcRegs [b] [a]
  runWord { guard := g, reads := r.1, sreads := r.2, writes := [d.toNat], privileged := true } (fun _ _ acting =>
    if (acting.any fun t => !resolved (getTh s t) || maintOpen s t) then .stall
    else
      let r := acting.foldl (fun (x : State × List (Nat × Eff)) t =>
        let y := fqackOne x.1 (rd64 s t a) (rd32 s t b)
        (y.1, x.2 ++ [(t, { w := [(d.toNat, y.2)] })])) (s, [])
      .go r.1 r.2) s

end Sys2Proof.Machine
end

