-- ==== Sys2Proof/Machine/Spdm.lean ====
section
/-! DEFINITION. Rowan as an SPDM responder (R407 to R409). The codes and byte layouts of SPDM messages are the DMTF's own,
outside the manual; notes/assumptions/24.md. -/
namespace Sys2Proof.Machine

/-- The requests of R408; every other code is `other`. -/
inductive SpdmReq where
  | version | capabilities | algorithms | digests
  | certificate (slot off len : Nat)
  | challenge (slot : Nat) (nonce : List Byte)
  | measurements (index : Nat) (nonce : List Byte)
  | keyExchange (data : List Byte)
  | finish (session : Nat)
  | endSession (session : Nat)
  | other (code : Byte)
  | badVersion (code : Byte)
deriving DecidableEq, Repr, Inhabited

/-- Who asks: the enclave of an in-band caller, and the session the request travels in. -/
structure SpdmFrom where
  encl : Option Nat
  session : Option Nat

/-- A response: version 0x13, its code, two parameters and its payload. PRESUMED, notes/assumptions/24.md. -/
def spdmMsg (code p1 p2 : Nat) (l : List Byte) : List Byte :=
  [(0x13 : Byte), BitVec.ofNat 8 code, BitVec.ofNat 8 p1, BitVec.ofNat 8 p2] ++ l
def spdmError (code data : Nat) : List Byte := spdmMsg 0x7F code data []
def errInvalid : Nat := 0x01
def errInvalidSession : Nat := 0x02
def errBusy : Nat := 0x03
def errUnexpected : Nat := 0x04
def errDecrypt : Nat := 0x06
def errUnsupported : Nat := 0x07
def errVersion : Nat := 0x41

/-! ### Certificates (R407) -/

/-- The alias certificate that the ROM issues at each boot: the alias key under a signature by the identity key. -/
def aliasCert (s : State) : List Byte :=
  let k := fixLen 32 (Config.ed25519Public (aliasSeed s))
  k ++ fixLen 64 (Config.ed25519Sign identitySeed k)
/-- The chain of slot 0. -/
def certChain (s : State) : List Byte := Config.certificates ++ aliasCert s

/-! ### Measurements (R409) -/

/-- A measurement block: its DMTF header, and the value; bit 7 of the type marks a raw value. PRESUMED,
notes/assumptions/24.md. -/
def measBlock (index type : Nat) (v : List Byte) : List Byte :=
  bytesOfNat 1 index ++ bytesOfNat 1 1 ++ bytesOfNat 2 (v.length + 3) ++ bytesOfNat 1 type ++ bytesOfNat 2 v.length ++ v

/-- The enclave of a request's session (R409): an in-band caller's own; over DOE, that of the stream whose keys the session
programs. -/
def sessionEnclave (s : State) (who : SpdmFrom) : Option Nat :=
  match who.session with
  | none => none
  | some n =>
    match who.encl with
    | some e => some e
    | none => (s.host.streams.find? fun x => decide (x.2.session = some n) && decide (x.2.encl ≠ 0)).map (·.2.encl)

/-- The images of protocols 1 to 7, 64 zero bytes for an empty id. -/
def protoImages (s : State) : List Byte :=
  (rangeFrom 1 7).flatMap fun i => (smFind? s.protos i).getD (List.replicate 64 0)

/-- One block, none where it is absent. -/
def measurement (s : State) (who : SpdmFrom) (index : Nat) : Option (List Byte) :=
  match index with
  | 1 => some (measBlock 1 0x00 (sha Config.romImage))
  | 2 => s.boot.rowan.map fun a => measBlock 2 0x01 (sha a.image)
  | 3 => s.boot.hazel.map fun a => measBlock 3 0x01 a.digest
  | 4 => s.boot.runtime.map fun a => measBlock 4 0x01 a.digest
  | 5 => some (measBlock 5 0x87 (svnBytes s))
  | 6 => some (measBlock 6 0x03 (sha (protoImages s)))
  | 0x10 =>
    match sessionEnclave s who with
    | none => none
    | some id => (getEncl s id).map fun e =>
        measBlock 0x10 0x84 (bytesOfNat 2 id ++ bytesOfNat 1 e.part ++ bytesOfNat 5 0 ++ bytesOfNat 8 e.ord ++ fixLen 64 e.meas)
  | _ => none

def measIndices : List Nat := [1, 2, 3, 4, 5, 6, 0x10]

/-- The blocks an index asks for: 0xFF every present block in order. -/
def measBlocks (s : State) (who : SpdmFrom) (index : Nat) : List (List Byte) :=
  (if index = 0xFF then measIndices else [index]).filterMap (measurement s who)

/-! ### Responses (R408) -/

/-- A session ends: the streams that it keyed are no longer its own (R409). -/
def closeSession (s : State) (n : Nat) : State :=
  { s with
    spdm := { s.spdm with sessions := smDel s.spdm.sessions n }
    host := { s.host with streams := s.host.streams.map fun x =>
      if x.2.session = some n then (x.1, { x.2 with session := none }) else x } }

/-- The response to a request. -/
def spdmAnswer (s : State) (who : SpdmFrom) (r : SpdmReq) : State × List Byte :=
  let sign (l : List Byte) : List Byte := l ++ aliasSign s l
  match r with
  | .version => (s, spdmMsg 0x04 0 0 [0, 1, 0, 0x13])
  | .capabilities => (s, spdmMsg 0x61 0 0 (bytesOfNat 4 0x2D6))
  | .algorithms => (s, spdmMsg 0x63 0 0 (bytesOfNat 4 0x400 ++ bytesOfNat 4 0x4 ++ bytesOfNat 2 0x10 ++ bytesOfNat 2 0x2 ++ bytesOfNat 2 0x1))
  | .digests => (s, spdmMsg 0x01 0 1 (sha (certChain s)))
  | .certificate slot off len =>
    if slot ≠ 0 then (s, spdmError errInvalid 0)
    else
      let part := ((certChain s).drop off).take len
      (s, spdmMsg 0x02 0 0 (bytesOfNat 2 part.length ++ bytesOfNat 2 ((certChain s).length - off - part.length) ++ part))
  | .challenge slot nonce =>
    if slot ≠ 0 then (s, spdmError errInvalid 0)
    else (s, sign (spdmMsg 0x03 0 1 (sha (certChain s) ++ nonce)))
  | .measurements index nonce =>
    if index = 0xFD ∨ index = 0xFE then (s, spdmError errInvalid 0)
    else
      let l := measBlocks s who index
      (s, sign (spdmMsg 0x60 (if index = 0 then (measIndices.filterMap (measurement s who)).length else 0) 0
        (bytesOfNat 1 l.length ++ bytesOfNat 3 l.flatten.length ++ l.flatten ++ nonce)))
  | .keyExchange data =>
    if who.session.isSome then (s, spdmError errUnexpected 0)
    else if 32 ≤ s.spdm.sessions.length then (s, spdmError errBusy 0)
    else
      let id := ((List.range 33).find? fun i => (smFind? s.spdm.sessions i).isNone).getD 0
      let x : Session := { doe := who.encl.isNone, encl := who.encl.getD 0, finished := false, key := Config.spdmSessionKey s.n data }
      let s1 := { s with spdm := { s.spdm with sessions := smPut s.spdm.sessions id x } }
      (s1, sign (spdmMsg 0x64 0 0 (bytesOfNat 2 id ++ Config.spdmKeyExchange s.n data)))
  | .finish n =>
    (match decide (who.session = some n), smFind? s.spdm.sessions n with
      | true, some x => ({ s with spdm := { s.spdm with sessions := smPut s.spdm.sessions n { x with finished := true } } }, spdmMsg 0x65 0 0 [])
      | _, _ => (s, spdmError errInvalidSession 0))
  | .endSession n =>
    (match decide (who.session = some n), smFind? s.spdm.sessions n with
      | true, some _ => (closeSession s n, spdmMsg 0x6C 0 0 [])
      | _, _ => (s, spdmError errInvalidSession 0))
  | .other c => (s, spdmError errUnsupported c.toNat)
  | .badVersion _ => (s, spdmError errVersion 0)

/-! ### Sessions (R408): requests and responses within one are sealed with AES-256-GCM under its key -/

/-- Code, parameters and payload of a request. -/
def spdmFields : SpdmReq → Nat × Nat × Nat × List Byte
  | .version => (0x84, 0, 0, [])
  | .capabilities => (0xE1, 0, 0, [])
  | .algorithms => (0xE3, 0, 0, [])
  | .digests => (0x81, 0, 0, [])
  | .certificate slot off len => (0x82, slot, 0, bytesOfNat 2 off ++ bytesOfNat 2 len)
  | .challenge slot nonce => (0x83, slot, 0, nonce)
  | .measurements index nonce => (0xE0, 0, index, nonce)
  | .keyExchange data => (0xE4, 0, 0, data)
  | .finish _ => (0xE5, 0, 0, [])
  | .endSession _ => (0xEC, 0, 0, [])
  | .other c => (c.toNat, 0, 0, [])
  | .badVersion c => (c.toNat, 0, 0, [])
/-- The bytes of a request. -/
def spdmBytes (r : SpdmReq) : List Byte :=
  let f := spdmFields r
  spdmMsg f.1 f.2.1 f.2.2.1 f.2.2.2

/-- The initialization vectors of a session's n-th request and response. -/
def ivAsk (n : Nat) : List Byte := bytesOfNat 12 (2 * n)
def ivAnswer (n : Nat) : List Byte := bytesOfNat 12 (2 * n + 1)

/-- A sealed message: its session, its length, the ciphertext and its 16-byte tag. -/
def securedMsg (n : Nat) (body : List Byte) : List Byte := bytesOfNat 4 (256 + n) ++ bytesOfNat 2 body.length ++ body

/-- An open session of a requester. -/
def openSession (s : State) (encl : Option Nat) (n : Nat) : Option Session :=
  (smFind? s.spdm.sessions n).filter fun x => decide (x.doe = encl.isNone) && decide (x.encl = encl.getD 0)

/-- A request that has been authenticated in its session is answered under the session's key; before FINISH a session serves
nothing else. -/
def spdmServe (s : State) (encl : Option Nat) (n : Nat) (x : Session) (r : SpdmReq) : State × List Byte :=
  let s1 := { s with spdm := { s.spdm with
    sessions := smPut s.spdm.sessions n { x with asked := x.asked + 1, answered := x.answered + 1 } } }
  let a := if x.finished || decide (r = .finish n) then spdmAnswer s1 ⟨encl, some n⟩ r else (s1, spdmError errUnexpected 0)
  (a.1, securedMsg n (Config.gcmSeal x.key (ivAnswer x.answered) a.2))

/-- The request of a message's bytes, and of the session that it travels in; its first byte is the version. -/
def spdmParse (session : Nat) (l : List Byte) : SpdmReq :=
  let b (i : Nat) : Nat := ((l.getD i 0).toNat)
  if b 0 ≠ 0x13 ∧ ¬(b 0 = 0x10 ∧ b 1 = 0x84) then .badVersion (l.getD 1 0)
  else match b 1 with
  | 0x84 => .version
  | 0xE1 => .capabilities
  | 0xE3 => .algorithms
  | 0x81 => .digests
  | 0x82 => .certificate (b 2 % 16) (natOfBytes ((l.drop 4).take 2)) (natOfBytes ((l.drop 6).take 2))
  | 0x83 => .challenge (b 2 % 16) ((l.drop 4).take 32)
  | 0xE0 => .measurements (b 3) ((l.drop 4).take 32)
  | 0xE4 => .keyExchange (l.drop 4)
  | 0xE5 => .finish session
  | 0xEC => .endSession session
  | c => .other (BitVec.ofNat 8 c)

/-- A request of no session: none of FINISH and END_SESSION names one. -/
def noSession : Nat := 33

/-- What an in-band message asks for, outside a session or within one that its sealed form names; or the error that answers it.
PRESUMED, notes/assumptions/24.md. -/
def inbandAsk (s : State) (encl : Nat) (l : List Byte) : Sum (List Byte) (SpdmReq × Option (Nat × Session)) :=
  let n := natOfBytes (l.take 4)
  if 256 ≤ n ∧ n < 512 then
    match openSession s (some encl) (n - 256) with
    | none => .inl (spdmError errInvalidSession 0)
    | some x =>
      match Config.gcmOpen x.key (ivAsk x.asked) ((l.drop 6).take (natOfBytes ((l.drop 4).take 2))) with
      | none => .inl (spdmError errDecrypt 0)
      | some plain => .inr (spdmParse (n - 256) plain, some (n - 256, x))
  else .inr (spdmParse noSession l, none)

/-- The answer to an in-band message. -/
def inbandAnswer (s : State) (encl : Nat) (l : List Byte) : State × List Byte :=
  match inbandAsk s encl l with
  | .inl e => (s, e)
  | .inr (r, some (n, x)) => spdmServe s (some encl) n x r
  | .inr (r, none) => spdmAnswer s ⟨some encl, none⟩ r

/-- The `rcall` function SPDM (R403): one in-band request, answered into the caller's buffer. PRESUMED,
notes/assumptions/24.md. -/
def spdmCallOf (s : State) (c : Call) : State × Nat :=
  let asid := (getTeam s (teamOf s c.thread)).asid
  if !argsWithin c [mask64, mask64, 2 ^ 32 - 1, 2 ^ 32 - 1] then (s, stBadArgs)
  else match readSpanAt s asid (argW c 0) (argW c 2) with
    | none => (noteSpan s 3 asid (argW c 0) (argW c 2) .r, stBadArgs)
    | some req =>
      let r := inbandAnswer s c.encl req
      if argW c 3 < r.2.length then (s, stBadArgs)
      else match writeSpanAt (ioTouchSpan r.1 asid (argW c 0) (argW c 2)) asid (argW c 1) r.2 with
        | some s1 => (s1, stOk)
        | none => (noteSpan s 3 asid (argW c 1) r.2.length .w, stBadArgs)

/-- SPDM_CALL (R403, R408). -/
def execSpdmCall (s : State) : Out := runCall [0x18] spdmCallOf s

/-- Whether a request over DOE carries the tag of its own session (R408). -/
def doeTagOk (x : Session) (r : SpdmReq) (tag : List Byte) : Bool :=
  let l := Config.gcmSeal x.key (ivAsk x.asked) (spdmBytes r)
  decide (l.drop (l.length - 16) = tag)

/-- The answer to a request over DOE, outside a session or within one. -/
def doeAnswer (s : State) (session : Option (Nat × List Byte)) (r : SpdmReq) : State × List Byte :=
  match session with
  | none => spdmAnswer s ⟨none, none⟩ r
  | some (n, tag) =>
    match openSession s none n with
    | none => (s, spdmError errInvalidSession 0)
    | some x => if doeTagOk x r tag then spdmServe s none n x r else (s, spdmError errDecrypt 0)

/-- Whether Rowan answers: its firmware has been accepted, and the package does not sleep (R24, R408, R412). -/
def spdmUp (s : State) : Bool := s.boot.rowan.isSome && !s.boot.asleep

/-- A request over DOE is answered at once; one that comes in-band is the call at the head of Rowan's queue, when it
carries a request of that code. -/
def spdmEvent (via : SpdmVia) (r : SpdmReq) (s : State) : Out :=
  match via with
  | .doe session =>
    if !spdmUp s then .next s
    else
      let a := doeAnswer s session r
      .next { a.1 with spdm := { a.1.spdm with reply := a.2 } }
  | .inband =>
    match headCall s [0x18] with
    | none => .next s
    | some (c, _) =>
      match (readSpanAt s (getTeam s (teamOf s c.thread)).asid (argW c 0) (argW c 2)).map (inbandAsk s c.encl) with
      | some (.inr (q, _)) => if (spdmFields q).1 = (spdmFields r).1 then execSpdmCall s else .next s
      | _ => .next s

/-- GET_VERSION (R408). -/
def execGetVersion (via : SpdmVia) (s : State) : Out := spdmEvent via .version s
/-- GET_CAPABILITIES (R408). -/
def execGetCapabilities (via : SpdmVia) (s : State) : Out := spdmEvent via .capabilities s
/-- NEGOTIATE_ALGORITHMS (R408). -/
def execNegotiateAlgorithms (via : SpdmVia) (s : State) : Out := spdmEvent via .algorithms s
/-- GET_DIGESTS (R408). -/
def execGetDigests (via : SpdmVia) (s : State) : Out := spdmEvent via .digests s
/-- GET_CERTIFICATE (R407, R408). -/
def execGetCertificate (via : SpdmVia) (slot off len : Nat) (s : State) : Out := spdmEvent via (.certificate slot off len) s
/-- CHALLENGE (R407, R408). -/
def execChallenge (via : SpdmVia) (slot : Nat) (nonce : List Byte) (s : State) : Out := spdmEvent via (.challenge slot nonce) s
/-- GET_MEASUREMENTS (R409). -/
def execGetMeasurements (via : SpdmVia) (index : Nat) (nonce : List Byte) (s : State) : Out :=
  spdmEvent via (.measurements index nonce) s
/-- KEY_EXCHANGE (R408): beyond 32 sessions, ERROR Busy. -/
def execKeyExchange (via : SpdmVia) (data : List Byte) (s : State) : Out := spdmEvent via (.keyExchange data) s
/-- FINISH (R408). -/
def execFinish (via : SpdmVia) (session : Nat) (s : State) : Out := spdmEvent via (.finish session) s
/-- END_SESSION (R408). -/
def execEndSession (via : SpdmVia) (session : Nat) (s : State) : Out := spdmEvent via (.endSession session) s
/-- Any other request (R408): ERROR UnsupportedRequest. -/
def execSpdmUnsupportedRequest (via : SpdmVia) (code : Byte) (s : State) : Out := spdmEvent via (.other code) s

end Sys2Proof.Machine
end

