-- ==== Sys2Proof/Machine/Swap.lean ====
section
/-! DEFINITION. Partition swap, deep sleep and wake (R33, R49, R118, R353, R412, R413, R422, R425). What is swapped out of a
core stands in the state under the number of a core that does not exist, 1,024 · (partition + 1) above its own. -/
namespace Sys2Proof.Machine

/-! ### Moving teams between a core and its place in the swap image -/

/-- The teams that move, their warps, and by how much core numbers change: `up` away from the core. -/
structure Reloc where
  teams : List Nat
  warps : List Nat
  off : Nat
  up : Bool
deriving DecidableEq, Repr

/-- A number that scales with the core number, moved. -/
def Reloc.shift (r : Reloc) (scale x : Nat) : Nat := if r.up then x + r.off * scale else x - r.off * scale
def Reloc.team (r : Reloc) (k : Nat) : Nat := if nsHas r.teams k then r.shift 4 k else k
def Reloc.warp (r : Reloc) (w : Nat) : Nat := if nsHas r.warps w then r.shift 64 w else w
def Reloc.thread (r : Reloc) (t : Nat) : Nat := r.warp (t / 32) * 32 + t % 32
def Reloc.line (r : Reloc) (l : RegLine) : RegLine :=
  match l with
  | .w t i => .w (r.thread t) i
  | .sr w i => .sr (r.warp w) i
  | .lane t i => .lane (r.thread t) i
  | .team k => .team (r.team k)

/-- A map with its keys renamed; what stood under a key that another takes goes. -/
def rekey {α : Type} (f : Nat → Nat) (m : SMap α) : SMap α :=
  let taken := (m.filter fun x => decide (f x.1 ≠ x.1)).map fun x => f x.1
  m.foldl (fun a x => if f x.1 = x.1 ∧ nsHas taken x.1 then a else smPut a (f x.1) x.2) []

/-- A query of a team that moves. -/
def Reloc.query (r : Reloc) (q : Query) : Query :=
  if nsHas r.teams (q.core * 4 + q.tslot) then { q with core := r.shift 1 q.core } else q

def Reloc.heather (r : Reloc) (h : Heather) : Heather :=
  { h with
    admitQ := h.admitQ.map r.query
    ctxs := h.ctxs.map fun c => (c.1, { c.2 with q := r.query c.2.q })
    cancelled := h.cancelled.map r.query }

def Reloc.grove (r : Reloc) (g : Grove) : Grove :=
  { g with
    teams := g.teams.map r.team
    held := g.held.map fun h =>
      { h with
        thread := r.thread h.thread
        core := if nsHas r.teams (h.core * 4 + h.tslot) then r.shift 1 h.core else h.core } }

def Reloc.call (r : Reloc) (c : Call) : Call := { c with thread := r.thread c.thread }

def Reloc.rowan (r : Reloc) (w : Rowan) : Rowan :=
  { w with
    queue := w.queue.map r.call
    shoot := w.shoot.map fun d => { d with call := d.call.map r.call }
    migr := w.migr.map fun m => { m with call := r.call m.call } }

def Reloc.part (r : Reloc) (p : Partition) : Partition :=
  { p with svcPend := p.svcPend.map fun x => { x with thread := r.thread x.thread }, svcWait := p.svcWait.map r.thread }

def Reloc.teamState (r : Reloc) (t : Team) : Team :=
  { t with
    runHeld := rekey r.warp t.runHeld
    matPend := t.matPend.map fun m =>
    { m with
      threads := m.threads.map r.thread
      la := rekey r.thread m.la
      op := match m.op with
        | .qsub pkt stack dst thread pc slot => .qsub pkt stack dst (r.thread thread) pc slot
        | op => op } }

/-- A thread that moves: an instruction that waits for register lines issues again. -/
def Reloc.threadState (r : Reloc) (t : Nat) (x : Thread) : Thread :=
  match nsHas r.warps (warpOf t), x.wait with
  | true, some (.line _) => { x with wait := none }
  | _, _ => x

/-- The last uses of the register lines that move (R120). -/
def Reloc.uses (r : Reloc) (s : State) : SMap Nat :=
  let lines := ((r.teams.foldl (fun l k => nsAdd l (k / 4)) []).flatMap (coreLines s)).filter fun l => nsHas r.teams (lineTeam s l)
  lines.foldl (fun m l => smPut (smDel m (lineKey l)) (lineKey (r.line l)) (lineUse s l)) s.lineUses

/-- Everything but the cores' own parts (R422, step 3). -/
def relocate (r : Reloc) (s : State) : State :=
  { s with
    lineUses := r.uses s
    threads := rekey r.thread (s.threads.map fun x => (x.1, r.threadState x.1 x.2))
    warps := rekey r.warp s.warps
    teams := rekey r.team (s.teams.map fun t => if nsHas r.teams t.1 then (t.1, r.teamState t.2) else t)
    groves := s.groves.map fun g => (g.1, r.grove g.2)
    heather := s.heather.map fun h => (h.1, r.heather h.2)
    parts := s.parts.map fun p => (p.1, r.part p.2)
    rowan := r.rowan s.rowan }

/-! ### A core's part of a team -/

/-- Whether a byte of the scratchpad belongs to one of the teams. -/
def ownsSp (tms : List Team) (a : Nat) : Bool := tms.any fun t => decide (t.spBase ≤ a) && decide (a < t.spBase + 2 * t.step + t.plain)
/-- Whether a byte of a buffer lies in a region that one of the teams reserved. -/
def ownsBuf (tms : List Team) (kind a : Nat) : Bool :=
  tms.any fun t => t.recs.any fun r => decide (dKind r.2 = kind) && decide (dBase r.2 ≤ a) && decide (a < dBase r.2 + dLen r.2)

/-- The number of a page among the pages of a core's scratchpad and buffers: the kind of memory, and the page in it. -/
def pageNum (kind a : Nat) : Nat := kind * 2 ^ 20 + a / 4096

/-- Whether such a page lies in a team's scratchpad, or in a buffer region that it has reserved. -/
def ownsPage (t : Team) (x : Nat) : Bool :=
  let lo := x % 2 ^ 20 * 4096
  if x / 2 ^ 20 = 3 then decide (t.spBase < lo + 4096) && decide (lo < t.spBase + 2 * t.step + t.plain)
  else t.recs.any fun r => decide (dKind r.2 = x / 2 ^ 20) && decide (dBase r.2 < lo + 4096) && decide (lo < dBase r.2 + dLen r.2)

/-- The part of a core that belongs to a set of team slots of one tenant, with (`keep` true) or without it. -/
def coreShare (r : Reloc) (tms : List Team) (slots : List Nat) (tenant : Nat) (keep : Bool) (c : Core) : Core :=
  let mine (b : Bool) : Bool := if keep then b else !b
  let slot (x : Nat) : Bool := mine (nsHas slots x)
  { c with
    sp := smFilter c.sp fun a => mine (ownsSp tms a)
    spBy := smFilter c.spBy fun a => mine (ownsSp tms a)
    spWritten := c.spWritten.filter fun g => mine (ownsSp tms (g * 16))
    spFull := c.spFull.filter fun g => mine (ownsSp tms (g * 16))
    spEcc := c.spEcc.filter fun g => mine (ownsSp tms (g * 16))
    dirtyPg := c.dirtyPg.filter fun x => mine (tms.any fun t => ownsPage t x)
    granWait := (c.granWait.filter fun g => mine (ownsSp tms (g.1 * 16))).map fun g => (g.1, r.thread g.2)
    ab := smFilter c.ab fun a => mine (ownsBuf tms kAb a)
    wb := smFilter c.wb fun a => mine (ownsBuf tms kWb a)
    cb := smFilter c.cb fun a => mine (ownsBuf tms kCb a)
    tiles := c.tiles.filter fun t => slot t.2.owner
    jobs := c.jobs.filter fun j => slot j.tslot
    running := c.running.filter fun n => c.jobs.any fun j => decide (j.num = n) && slot j.tslot
    liveTile := c.liveTile.filter fun t => (match smFind? c.tiles t with
      | some x => slot x.owner
      | none => false)
    passed := smFilter c.passed slot
    gained := smFilter c.gained slot
    deficit := smFilter c.deficit fun k => mine (decide (k % 64 = tenant))
    lastChosen := c.lastChosen.filter fun x => mine (decide (x.2 = tenant))
    grows := (c.grows.filter fun g => slot g.tslot).map fun g => { g with asks := rekey r.thread g.asks } }

/-- Requests for registers, the oldest first (R124). -/
def oldestFirst : Nat → List GrowReq → List GrowReq
  | 0, _ => []
  | n + 1, l =>
    match minBy (fun g => g.seq) l with
    | none => []
    | some g => g :: oldestFirst n (l.erase g)

/-- A core with a part of some teams put back: their buffer regions hold what they held (R215). -/
def joinCore (tms : List Team) (c0 x : Core) : Core :=
  let put {α : Type} (a b : SMap α) : SMap α := b.foldl (fun m e => smPut m e.1 e.2) a
  let c := { c0 with
    ab := smFilter c0.ab fun a => !ownsBuf tms kAb a
    wb := smFilter c0.wb fun a => !ownsBuf tms kWb a
    cb := smFilter c0.cb fun a => !ownsBuf tms kCb a }
  { c with
    sp := put c.sp x.sp, spBy := put c.spBy x.spBy, spWritten := x.spWritten.foldl nsAdd c.spWritten
    spFull := x.spFull.foldl nsAdd c.spFull, spEcc := x.spEcc.foldl nsAdd c.spEcc, granWait := c.granWait ++ x.granWait
    ab := put c.ab x.ab, wb := put c.wb x.wb, cb := put c.cb x.cb, tiles := put c.tiles x.tiles
    jobs := c.jobs ++ x.jobs, order := Nat.max c.order x.order
    passed := put c.passed x.passed, gained := put c.gained x.gained, deficit := put c.deficit x.deficit
    grows := oldestFirst (c.grows.length + x.grows.length) (c.grows ++ x.grows) }

/-! ### Swap-out (R422, R425) -/

/-- The teams of a partition on the cores of a meadow (`m` + 8 · (p + 1) for those swapped out). -/
def meadowTeams (s : State) (p m : Nat) : List Nat :=
  (s.teams.filter fun t => t.2.live && decide (t.2.part = p) && decide (t.1 / 4 / 128 = m)).map (·.1)

/-- Whether a thread's issued instructions have completed, but for those that wait (R49). -/
def threadSettled (s : State) (t : Nat) : Bool :=
  ((getTh s t).mq.all fun o => decide (o.st = .page) || decide (o.st = .blocked)) && !(s.maints.any fun m => decide (m.thread = t))
    && (match (getTh s t).wait with
      | some (.page _ _ _ walking) => !walking
      | _ => true)
    && (match (getTh s t).pageWait with
      | some w => !w.walking
      | none => true)

/-- Whether a team has stopped: no halt holds its RUN bits back (R50), its threads are settled, and each copy job stands at its
progress offset, at no home and in no walk. -/
def teamStopped (s : State) (k : Nat) : Bool :=
  (getTeam s k).runHeld.isEmpty && ((teamWarps s k).flatMap warpThreads).all (threadSettled s)
    && (getCore s (k / 4)).jobs.all fun j => decide (j.tslot ≠ k % 4) || (!j.atHome && j.ahead.isEmpty && (match j.waitPage with
      | some w => !w.2.2
      | none => true))

/-- The core that stands for one swapped out. -/
def imageCore (p c : Nat) : Nat := c + 1024 * (p + 1)

/-- A copy job that runs is suspended by a swap-out, and one that no page holds up goes on after the swap-in (R422). -/
def standJob (j : Job) : Job := if j.kind = .copy ∧ j.state = .running then { j with state := .suspended } else j
def resumeJob (j : Job) : Job := if j.kind = .copy ∧ j.state = .suspended ∧ j.waitPage.isNone then { j with state := .running } else j

/-- A core of a partition on which none of its teams stands: caches emptied, the array off when the core is idle (R33). -/
def idleCore (s : State) (c : Nat) : State :=
  let idle := (coreTeams s c).isEmpty
  modCore s c fun x => { x with
    tlb := [], cuTlb := [], slotTlb := []
    power := if idle then .off else x.power, liveTile := if idle then none else x.liveTile }

/-- A core whose teams of a partition leave it: caches emptied, the array off when the core is idle (R33). -/
def emptyCore (s : State) (r : Reloc) (p : Nat) (c : Nat) : State :=
  let ks := r.teams.filter fun k => decide (k / 4 = c)
  let tms := ks.map (getTeam s)
  let slots := ks.map (· % 4)
  let x := getCore s c
  let mine := coreShare r tms slots p true x
  let out := { mine with
    jobs := mine.jobs.map standJob
    up := false, power := .off, budget := 0, quantum := 0, running := none, liveTile := none, lastChosen := []
    tlb := [], cuTlb := [], slotTlb := [] }
  let idle := (coreTeams s c).all fun k => nsHas ks k
  let rest := coreShare r tms slots p false x
  let left := { rest with
    tlb := [], cuTlb := [], slotTlb := []
    power := if idle then .off else rest.power, liveTile := if idle then none else rest.liveTile }
  setCore (setCore s c left) (imageCore p c) out

/-! ### The dirty state and where it goes (R422, R423) -/

/-- The register lines of teams that have changed since they were filled. -/
def dirtyLines (s : State) (ks : List Nat) : List RegLine :=
  (ks.foldl (fun l k => nsAdd l (k / 4)) []).flatMap fun c => (coreLines s c).filter fun l => nsHas ks (lineTeam s l) && lineDirty s l

/-- The unchanged lines of teams leave the register cache. -/
def dropClean (s : State) (ks : List Nat) : State :=
  ((ks.foldl (fun l k => nsAdd l (k / 4)) []).flatMap (coreLines s)).foldl (fun s l =>
    if nsHas ks (lineTeam s l) && !lineDirty s l then setLine s l false else s) s

/-- The bytes of a team's dirty state, in whole blocks: its lines, the pages written since its last swap-in, and 64 for each record
that goes with them. DESIGN CHOICE, notes/assumptions/32.md. -/
def teamBytes (s : State) (k : Nat) : Nat :=
  let c := getCore s (k / 4)
  let tm := getTeam s k
  let bytes := 32 * (dirtyLines s [k]).length + 4096 * (c.dirtyPg.filter (ownsPage tm)).length
    + 64 * (1 + (teamWarps s k).length + tm.recs.length + 4 * (c.jobs.filter fun j => decide (j.tslot = k % 4)).length)
  (bytes + 63) / 64 * 64

/-- How much of the dirty state a meadow's shadow area takes (R423). -/
def shadowLimit : Nat := 28 * 2 ^ 20

/-- HBM4E frames of a partition's quota that are free, the first `n` of them, for what is beyond (R423); none where there are too
few. They stay free in the POT, which only Rowan writes (R11). DESIGN CHOICE, notes/assumptions/32.md. -/
def spillFrames (s : State) (p n : Nat) : Option (List Nat) :=
  let used (f : Nat) : Bool := (getPart s p).spill.any fun x => x.2.any fun g => decide (g = f)
  let most := n + ((getPart s p).spill.map fun x => x.2.length).foldl (· + ·) 0
  let frames := s.pot.flatMap fun x =>
    if potState x.2 = psFree ∧ potOwner x.2 = p ∧ potSz x.2 ≠ 3 ∧ inHbm (x.1 * 4096) then
      (rangeFrom x.1 (Nat.min most (2 ^ (szBits (potSz x.2) - 12)))).filter fun f => !used f
    else []
  if frames.length < n then none else some (frames.take n)

/-- Where byte `o` of an image lies: in the shadow area, or in the frames beyond it. -/
def imagePlace (s : State) (p m : Nat) (frames : List Nat) (o : Nat) : Option Nat :=
  if o < shadowLimit then ((shadowPages s p m)[o / 2097152]?).map fun f => f * 4096 + o % 2097152
  else (frames[(o - shadowLimit) / 4096]?).map fun f => f * 4096 + (o - shadowLimit) % 4096

/-- The blocks of one item of an image, under the key of its team's ASID (R402, R422). -/
def saveItem (p m : Nat) (frames : List Nat) (asid o n : Nat) (s : State) : State :=
  (List.range (n / 64)).foldl (fun s i => match imagePlace s p m frames (o + 64 * i) with
    | none => s
    | some pa => writeFree s asid pa (o + 64 * i) 64) s

/-- The items of teams, one after the other. -/
def saveItems (p m : Nat) (frames : List Nat) : List Nat → Nat → State → State
  | [], _, s => s
  | k :: ks, o, s =>
    saveItems p m frames ks (o + teamBytes s k) (saveItem p m frames (getTeam s k).asid o (teamBytes s k) s)

/-- The pages of the shadow area that an image takes, and the blocks of the image last written to a meadow's shadow area and
frames. -/
def imagePages (s : State) (p m : Nat) : List Nat := (shadowPages s p m).take 14
def imageBlocks (s : State) (p m : Nat) : List Nat :=
  (s.imgKeys.map (·.1)).filter fun b =>
    (imagePages s p m).any (fun f => decide (f * 64 ≤ b) && decide (b < f * 64 + 32768))
      || (smGet [] (getPart s p).spill m).any fun f => decide (f * 64 ≤ b) && decide (b < f * 64 + 64)

/-- The dirty state goes to the shadow area, and what is beyond 28 MiB to frames of the quota (R423); none while there are
too few. -/
def saveDirty (s : State) (p m : Nat) (ks : List Nat) : Option State :=
  let excess := (ks.map (teamBytes s)).foldl (· + ·) 0 - shadowLimit
  (spillFrames s p ((excess + 4095) / 4096)).map fun frames =>
    let s1 := (imagePages s p m).foldl (fun s f => forgetImages s f 21) s
    modPart (saveItems p m frames ks 0 s1) p fun x =>
      { x with spill := if frames.isEmpty then smDel x.spill m else smPut x.spill m frames }

/-- The teams of a partition leave the cores of a meadow, those that run none too; arrays that waited for a ramp may begin it
(R33). -/
def leaveCores (s : State) (p m : Nat) (ks : List Nat) : State :=
  let r : Reloc := ⟨ks, ks.flatMap (teamWarps s), 1024 * (p + 1), true⟩
  let cores := ks.foldl (fun l k => nsAdd l (k / 4)) []
  let others := (rangeFrom (m * 128) 128).filter fun c => decide (corePart s c = p) && !nsHas cores c
  let s1 := others.foldl idleCore (cores.foldl (fun s c => emptyCore s r p c) (dropClean s ks))
  rampNext 16 (modPart (relocate r s1) p fun x => { x with swapped := nsAdd x.swapped m, swapping := nsDel x.swapping m }) m

/-- The teams of a partition leave a meadow; none while their dirty state finds no room. -/
def swapOut (s : State) (p m : Nat) (ks : List Nat) : Option State := (saveDirty s p m ks).map fun s1 => leaveCores s1 p m ks

/-- A guest switch in flight is discarded before its commit (R425). -/
def dropSwitch (s : State) (p : Nat) : State :=
  let x := getPart s p
  if x.gswBusy then setPart s p { x with gswBusy := false, gswResult := 1, gswStaged := [] } else s

/-! ### Deep sleep (R412) -/

/-- The live partitions that still have teams on cores. -/
def stillIn (s : State) : Bool := s.teams.any fun t => t.2.live && decide (t.1 < 4096)

/-- Whether every query has ended (R353): the units power down. -/
def queriesEnded (s : State) : Bool := s.heather.all fun h => h.2.admitQ.isEmpty && h.2.ctxs.all fun c => c.2.fin

/-- The DRBG state, Rowan's own key and the key table as bytes. DEDUCED, notes/assumptions/32.md. -/
def keyBytes (s : State) : List Byte :=
  let r := s.rowan
  bytesOfNat 8 r.drbg ++ fixLen 32 r.key.kd ++ fixLen 32 r.key.kt ++ fixLen 32 r.key.ki ++ s.keys.flatMap fun k =>
    bytesOfNat 2 k.1 ++ bytesOfNat 2 k.2.asid ++ fixLen 32 k.2.kd ++ fixLen 32 k.2.kt ++ fixLen 32 k.2.ki

/-- The key table that bytes hold. -/
def keysOf : Nat → List Byte → SMap KeySlot
  | 0, _ => []
  | n + 1, l =>
    if l.length < 100 then []
    else smPut (keysOf n (l.drop 100)) (natOfBytes (l.take 2))
      ⟨natOfBytes ((l.drop 2).take 2), (l.drop 4).take 32, (l.drop 36).take 32, (l.drop 68).take 32⟩

/-- The sleep key of an epoch, and the IV. -/
def sleepKey (e : Nat) : List Byte := (Config.hkdf sleepRoot (bytesOfNat 8 e) labelSleep).take 32
def sleepIv (e : Nat) : List Byte := bytesOfNat 8 e ++ [0, 0, 0, 0]

/-- Sleep entry, steps 3 to 7. -/
def enterSleep (s : State) : State :=
  let e := s.ret.epoch + 1
  let s1 := s.stale.foldl (fun s x => writeBackMetered s x.1) s
  let s2 := wakeBoot s1
  rcmdDone { s2 with
    cores := smFilter s2.cores fun c => decide (1024 ≤ c)
    dir := [], proxies := [], sent := [], locked := [], keys := []
    rowan := { s2.rowan with key := ⟨0, [], [], []⟩ }
    ret := ⟨e, some (Config.gcmSeal (sleepKey e) (sleepIv e) (keyBytes s))⟩
    harts := s2.harts.map fun h => (h.1, { h.2 with paused := true, tlb := [] })
    heather := s2.heather.map fun h => (h.1, { h.2 with tlb := [] })
    host := { s2.host with streams := s2.host.streams.map fun x => (x.1, { x.2 with keyed := false, insecure := true, session := none }) } } 0

/-- Sleep entry goes on once the calls taken have completed and every partition is swapped out. DEDUCED,
notes/assumptions/32.md. -/
def trySleep (s : State) : State :=
  if s.rowan.sleeping && !s.boot.asleep && s.rowan.queue.isEmpty && s.rowan.shoot.isNone && s.rowan.migr.isNone && !stillIn s
      && queriesEnded s && s.reqs.isEmpty && s.heldReqs.isEmpty && s.pends.isEmpty && s.walks.isEmpty then enterSleep s
  else s

/-- SLEEP (R412): new calls are refused from now on; the partitions are swapped out, and the last one completes sleep entry. -/
def execSleep (s : State) : Out :=
  if !pf0Up s then .next s
  else if s.host.rcmdBusy then .next (rcmdRefuse s)
  else
    .next (trySleep { sealHarts s with
      turn := .idle
      host := { s.host with rcmdBusy := true }
      rowan := { s.rowan with sleeping := true } })

/-- PARTITION_SWAP_OUT (R422): RUN is cleared in the partition's records; once its teams have stopped their state leaves the
cores of the meadow. No swap starts while a late launch holds Hazel halted (R411). Until then the meadow counts as being swapped
out (R426). -/
def execPartitionSwapOut (p m : Nat) (s : State) : Out :=
  if s.boot.hazelHalted ∨ s.boot.asleep ∨ 8 ≤ m ∨ !(getPart s p).live then .next s
  else if s.rowan.sleeping && (!s.rowan.queue.isEmpty || s.rowan.shoot.isSome || s.rowan.migr.isSome) then .next s
  else if nsHas (getPart s p).swapped m then .next (trySleep s)
  else
    let ks := meadowTeams s p m
    let s0 := modPart (dropSwitch s p) p fun x => { x with swapping := nsAdd x.swapping m }
    let s1 := { ks.foldl (fun s k => setTeamRun s k false) s0 with turn := .idle }
    .next (if ks.all (teamStopped s1) then ((swapOut s1 p m ks).map trySleep).getD s1 else s1)

/-! ### Swap-in (R422) -/

/-- Whether a core has room for a part that comes back. -/
def coreFits (s : State) (p c : Nat) (ks : List Nat) : Bool :=
  let x := getCore s c
  let y := getCore s (imageCore p c)
  let here := (coreTeams s c).map (getTeam s)
  ks.all (fun k =>
      let t := getTeam s k
      !(getTeam s (c * 4 + k % 4)).live
        && t.wslots.all (fun w => !bindV (getWarp s (c * 64 + w)).bind)
        && here.all (fun h => decide (h.spBase + 2 * h.step + h.plain ≤ t.spBase) || decide (t.spBase + 2 * t.step + t.plain ≤ h.spBase))
        && t.recs.all fun r => here.all fun h => h.recs.all fun q => decide (dKind q.2 ≠ dKind r.2)
            || decide (dBase q.2 + dLen q.2 ≤ dBase r.2) || decide (dBase r.2 + dLen r.2 ≤ dBase q.2))
    && y.tiles.all (fun t => (smFind? x.tiles t.1).isNone)
    && y.jobs.all (fun j => x.jobs.all fun i => decide (i.num ≠ j.num))

/-- Register lines that come back to a core without room for them go to their context images instead (R6, R119). -/
def roomForLines (s : State) (p c : Nat) : State :=
  if residentLines s c + residentLines s (imageCore p c) ≤ 8192 then s else (coreLines s (imageCore p c)).foldl evict s

/-- A part comes back to its core. -/
def fillCoreBack (s0 : State) (r : Reloc) (p c : Nat) : State :=
  let s := roomForLines s0 p c
  let ks := r.teams.filter fun k => decide (k / 4 = imageCore p c)
  let tms := ks.map (getTeam s)
  let y := coreShare r tms (ks.map (· % 4)) p true (getCore s (imageCore p c))
  let s1 := setCore s c (joinCore tms (getCore s c) { y with jobs := y.jobs.map resumeJob })
  { s1 with cores := smDel s1.cores (imageCore p c) }

/-- The publications that were held for a team are applied in their order (R353). -/
def applyHeld (k : Nat) : Nat → State → State
  | 0, s => s
  | n + 1, s =>
    match execQueryPublish (k / 4) (k % 4) s with
    | .next s1 => applyHeld k n s1
    | _ => s
def publishHeld (s : State) (k : Nat) : State :=
  applyHeld k (2 * ((endedCtxs s (k / 4) (k % 4)).length + (cancelledOf s (k / 4) (k % 4)).length)) s

/-- The frames of the quota that held a part of an image hold none (R423). -/
def freeSpill (s : State) (p m : Nat) : State :=
  modPart ((smGet [] (getPart s p).spill m).foldl (fun s f => forgetImages s f 12) s) p fun x => { x with spill := smDel x.spill m }

/-- PARTITION_SWAP_IN (R353, R422): the items return to the same cores, and publications that were held are applied; RUN
stays 0 until Hazel sets it. An image that the host has written fails its tags, and does not come back (R406). DEDUCED,
notes/assumptions/32.md. -/
def execPartitionSwapIn (p m : Nat) (s : State) : Out :=
  let ks := meadowTeams s p (m + 8 * (p + 1))
  let cores := ks.foldl (fun l k => nsAdd l (k / 4 - 1024 * (p + 1))) []
  let mine (c : Nat) : List Nat := ks.filter fun k => decide (k / 4 = imageCore p c)
  if s.boot.hazelHalted ∨ s.boot.asleep ∨ s.rowan.sleeping ∨ !nsHas (getPart s p).swapped m then .next s
  else if !(cores.all fun c => (getCore s c).up && coreFits s p c (mine c)) then .next s
  else if (imageBlocks s p m).any fun b => (smFind? s.raw b).isSome || nsHas s.poison b || nsHas s.ecc b then
    .next { s with host := { s.host with log := s.host.log ++ [.refused s.clock ccIntegrity 3 0 2 0 ((shadowPages s p m).getD 0 0 * 4096)] } }
  else
    let r : Reloc := ⟨ks, ks.flatMap (teamWarps s), 1024 * (p + 1), false⟩
    let s1 := relocate r (cores.foldl (fun s c => fillCoreBack s r p c) s)
    let s2 := freeSpill (modPart s1 p fun x => { x with swapped := nsDel x.swapped m }) p m
    .next ((ks.map r.team).foldl publishHeld s2)

/-! ### Wake (R413, R434) -/

/-- A wake that fails: every enclave goes with its keys, teams, harts and frames, nothing running. DEDUCED,
notes/assumptions/32.md. -/
def wakeFail (s : State) : State :=
  let s1 := { s with
    harts := [], launches := [], teams := [], warps := [], threads := [], groves := [], cores := []
    heather := s.heather.map fun h => (h.1, {})
    rowan := { s.rowan with queue := [], sleeping := false }
    ret := { s.ret with wrapped := none }
    boot := { s.boot with asleep := false }
    host := { s.host with rcmdResult := 0x02, log := s.host.log ++ [.wakeFailed s.clock] } }
  let ids := s1.encls.map (·.1)
  let s2 := (destroyOrder s1 ids.length ids).foldl destroyOne s1
  { s2 with parts := s2.parts.map fun p =>
      (p.1, { p.2 with
        agent := 0, svcq := none, svcPend := [], svcWait := [], ctxUsed := [], swapped := [], swapping := [], spill := [], gswBusy := false, gswStaged := []
        second := s.clock / 1000000000, reason := if p.2.live then 2 else p.2.reason }) }

/-- A wake that succeeds: the keys are reloaded, and Hazel may swap the partitions in. -/
def wakeOk (s : State) (bs : List Byte) : State :=
  { s with
    keys := keysOf 4096 (bs.drop 104)
    rowan := { s.rowan with
      sleeping := false, drbg := natOfBytes (bs.take 8)
      key := ⟨0, (bs.drop 8).take 32, (bs.drop 40).take 32, (bs.drop 72).take 32⟩ }
    ret := { s.ret with wrapped := none }
    boot := { s.boot with asleep := false }
    parts := s.parts.map fun p => (p.1, if p.2.live then { p.2 with second := s.clock / 1000000000, reason := 2 } else p.2) }

/-- WAKE (R413): once Rowan firmware is accepted, the retention store is opened with the sleep key of its epoch. -/
def execWake (s : State) : Out :=
  if !s.boot.asleep ∨ s.boot.rowan.isNone then .next s
  else match s.ret.wrapped with
    | none => .next (wakeFail s)
    | some c =>
      match Config.gcmOpen (sleepKey s.ret.epoch) (sleepIv s.ret.epoch) c with
      | none => .next (wakeFail s)
      | some bs => .next (wakeOk s bs)

end Sys2Proof.Machine
end

