-- ==== Sys2Proof/Machine/Reset.lean ====
section
/-! DEFINITION. The virtual-function reset (R426, R427). -/
namespace Sys2Proof.Machine

/-- The enclaves of a partition, ascending. -/
def partEncls (s : State) (p : Nat) : List Nat := (s.encls.filter fun e => decide (e.2.part = p)).map (·.1)

/-- The teams of a partition, those swapped out too. -/
def partTeams (s : State) (p : Nat) : List Nat := (s.teams.filter fun t => t.2.live && decide (t.2.part = p)).map (·.1)

/-- The reset-notice record (R427). DEDUCED, notes/assumptions/31.md. -/
def noticeBytes (seq : Nat) (tags encls : List Nat) : List Byte :=
  let t := tags.take 384
  let e := encls.take 256
  bytesOfNat 8 seq ++ bytesOfNat 2 t.length ++ bytesOfNat 2 e.length ++ bytesOfNat 4 (if tags.length = t.length then 0 else 1)
    ++ t.flatMap (bytesOfNat 8) ++ List.replicate (8 * (384 - t.length)) 0 ++ e.flatMap (bytesOfNat 2)

/-- Every `svc` of a partition completes with ABORTED, and its queue is forgotten (step 1). -/
def abortSvc (s : State) (p : Nat) : State :=
  let x := getPart s p
  let s1 := (x.svcPend.map (·.thread) ++ x.svcWait).foldl (fun s t => svcDone s t svcAborted) s
  modPart s1 p fun y => { y with svcq := none, svcPend := [], svcWait := [] }

/-- Steps 2 and 3: teams end, enclaves are destroyed with their keys. -/
def endPartition (s : State) (p : Nat) : State :=
  let s1 := (partTeams s p).foldl destroyTeam s
  let l := partEncls s1 p
  let s2 := (destroyOrder s1 l.length l).foldl destroyOne s1
  { s2 with cores := smFilter s2.cores fun c => !(decide (1024 * (p + 1) ≤ c) && decide (c < 1024 * (p + 2))) }

/-- Step 6: the agent enclave is built again over the partition's quota. -/
def rebuildAgent (s : State) (p : Nat) : State :=
  let x := getPart s p
  let plain := (x.quota.map (·.1)).filter fun f => !nsHas x.areas f
  let s1 := setPart s p { x with agent := 0, ctxUsed := [], swapped := [], swapping := [], spill := [], gswBusy := false, gswStaged := [] }
  (buildAgent s1 p x.areas plain).getD s1

/-- Whether a partition's swap-outs in progress can finish: its teams there have stopped. -/
def swapsStopped (s : State) (p : Nat) : Bool := (getPart s p).swapping.all fun m => (meadowTeams s p m).all (teamStopped s)

/-- The swap-outs in progress finish; one that finds no room for the dirty state, which the reset discards, saves none. -/
def finishSwaps (s : State) (p : Nat) : State :=
  (getPart s p).swapping.foldl (fun s m =>
    let ks := meadowTeams s p m
    (swapOut s p m ks).getD (leaveCores s p m ks)) s

/-- VIRTUAL_FUNCTION_RESET (R426): once Rowan has no call under way and a swap-out in progress can finish. DEDUCED,
notes/assumptions/31.md. -/
def execVirtualFunctionReset (vf : Nat) (s : State) : Out :=
  let p := vf - 1
  if vf = 0 ∨ 64 < vf ∨ !pf0Up s ∨ !(getPart s p).live then .next s
  else if s.rowan.shoot.isSome ∨ s.rowan.migr.isSome ∨ !swapsStopped s p then
    .next { s with host := { s.host with flr := nsAdd s.host.flr vf } }
  else
    let tags := (getPart s p).svcPend.map (·.tag)
    let encls := partEncls s p
    let s0 := (getPart s p).spill.foldl (fun s x => freeSpill s p x.1) (finishSwaps s p)
    let s1 := setTdi (endPartition (abortSvc s0 p) p) vf .unlocked
    let s2 := modPart s1 p fun y => { y with resets := y.resets + 1, notice := noticeBytes (y.resets + 1) tags encls, reason := 3 }
    let s3 := rebuildAgent s2 p
    .next { s3 with turn := .idle, host := { s3.host with flr := nsDel s3.host.flr vf } }

end Sys2Proof.Machine
end

