-- ==== Sys2Proof/Machine/Dispatch.lean ====
section
/-! DEFINITION. One arm for each constructor of `Instr`. -/
namespace Sys2Proof.Machine

/-- The meaning of every step of the part. -/
def exec (i : Instr) (s : State) : Host.Outcome State Fault Refusal :=
  match i with
  | .add h sat d a b => Sys2Proof.Machine.execAdd h sat d a b s
  | .sub h sat d a b => Sys2Proof.Machine.execSub h sat d a b s
  | .mul h d a b => Sys2Proof.Machine.execMul h d a b s
  | .mulhi h t d a b => Sys2Proof.Machine.execMulhi h t d a b s
  | .mad h d a b c => Sys2Proof.Machine.execMad h d a b c s
  | .div h t d a b => Sys2Proof.Machine.execDiv h t d a b s
  | .rem h t d a b => Sys2Proof.Machine.execRem h t d a b s
  | .abs h sat d a => Sys2Proof.Machine.execAbs h sat d a s
  | .min h t d a b => Sys2Proof.Machine.execMin h t d a b s
  | .max h t d a b => Sys2Proof.Machine.execMax h t d a b s
  | .mov h d a => Sys2Proof.Machine.execMov h d a s
  | .movi g d imm => Sys2Proof.Machine.execMovi g d imm s
  | .sel h d a b q => Sys2Proof.Machine.execSel h d a b q s
  | .icmp h c p ops => Sys2Proof.Machine.execIcmp h c p ops s
  | .pand h p a b => Sys2Proof.Machine.execPand h p a b s
  | .por h p a b => Sys2Proof.Machine.execPor h p a b s
  | .pxor h p a b => Sys2Proof.Machine.execPxor h p a b s
  | .pnot h p a => Sys2Proof.Machine.execPnot h p a s
  | .and h d a b => Sys2Proof.Machine.execAnd h d a b s
  | .or h d a b => Sys2Proof.Machine.execOr h d a b s
  | .xor h d a b => Sys2Proof.Machine.execXor h d a b s
  | .andn h d a b => Sys2Proof.Machine.execAndn h d a b s
  | .shl h d a b => Sys2Proof.Machine.execShl h d a b s
  | .shr h d a b => Sys2Proof.Machine.execShr h d a b s
  | .sra h d a b => Sys2Proof.Machine.execSra h d a b s
  | .rot h d a b => Sys2Proof.Machine.execRot h d a b s
  | .popc h d a => Sys2Proof.Machine.execPopc h d a s
  | .clz h d a => Sys2Proof.Machine.execClz h d a s
  | .ctz h d a => Sys2Proof.Machine.execCtz h d a s
  | .brev h d a => Sys2Proof.Machine.execBrev h d a s
  | .bfx h d a b c => Sys2Proof.Machine.execBfx h d a b c s
  | .bfi h d a b c => Sys2Proof.Machine.execBfi h d a b c s
  | .prmb h d a b c => Sys2Proof.Machine.execPrmb h d a b c s
  | .add2 h sat d a b => Sys2Proof.Machine.execAdd2 h sat d a b s
  | .sub2 h sat d a b => Sys2Proof.Machine.execSub2 h sat d a b s
  | .min2 h t d a b => Sys2Proof.Machine.execMin2 h t d a b s
  | .max2 h t d a b => Sys2Proof.Machine.execMax2 h t d a b s
  | .add4 h sat d a b => Sys2Proof.Machine.execAdd4 h sat d a b s
  | .dot4 h ta tb d a b c => Sys2Proof.Machine.execDot4 h ta tb d a b c s
  | .dot8 h d a b c => Sys2Proof.Machine.execDot8 h d a b c s
  | .dot2 h ta tb d a b c => Sys2Proof.Machine.execDot2 h ta tb d a b c s
  | .add64 h d a b => Sys2Proof.Machine.execAdd64 h d a b s
  | .sub64 h d a b => Sys2Proof.Machine.execSub64 h d a b s
  | .lea64 h d a b c => Sys2Proof.Machine.execLea64 h d a b c s
  | .sadd h d a b => Sys2Proof.Machine.execSadd h d a b s
  | .ssub h d a b => Sys2Proof.Machine.execSsub h d a b s
  | .smul h d a b => Sys2Proof.Machine.execSmul h d a b s
  | .sshl h d a b => Sys2Proof.Machine.execSshl h d a b s
  | .sshr h t d a b => Sys2Proof.Machine.execSshr h t d a b s
  | .sand h d a b => Sys2Proof.Machine.execSand h d a b s
  | .sor h d a b => Sys2Proof.Machine.execSor h d a b s
  | .smov h d a => Sys2Proof.Machine.execSmov h d a s
  | .smovi g d imm => Sys2Proof.Machine.execSmovi g d imm s
  | .scmp h c p a b => Sys2Proof.Machine.execScmp h c p a b s
  | .sld h d a b => Sys2Proof.Machine.execSld h d a b s
  | .fadd h rm d a b => Sys2Proof.Machine.execFadd h rm d a b s
  | .fsub h rm d a b => Sys2Proof.Machine.execFsub h rm d a b s
  | .fmul h rm d a b => Sys2Proof.Machine.execFmul h rm d a b s
  | .ffma h rm d a b c => Sys2Proof.Machine.execFfma h rm d a b c s
  | .fmin h d a b => Sys2Proof.Machine.execFmin h d a b s
  | .fmax h d a b => Sys2Proof.Machine.execFmax h d a b s
  | .fabs h d a => Sys2Proof.Machine.execFabs h d a s
  | .fcmp h c p a b => Sys2Proof.Machine.execFcmp h c p a b s
  | .fclass h p a b => Sys2Proof.Machine.execFclass h p a b s
  | .frnd h rm d a => Sys2Proof.Machine.execFrnd h rm d a s
  | .hadd2 h d a b => Sys2Proof.Machine.execHadd2 h d a b s
  | .hmul2 h d a b => Sys2Proof.Machine.execHmul2 h d a b s
  | .hfma2 h d a b c => Sys2Proof.Machine.execHfma2 h d a b c s
  | .badd2 h d a b => Sys2Proof.Machine.execBadd2 h d a b s
  | .bmul2 h d a b => Sys2Proof.Machine.execBmul2 h d a b s
  | .bfma2 h d a b c => Sys2Proof.Machine.execBfma2 h d a b c s
  | .cvt h t src amax rm d a b => Sys2Proof.Machine.execCvt h t src amax rm d a b s
  | .unpk h k d a => Sys2Proof.Machine.execUnpk h k d a s
  | .qblk h amax d a => Sys2Proof.Machine.execQblk h amax d a s
  | .rcpSeed h d a => Sys2Proof.Machine.execRcpSeed h d a s
  | .rsqSeed h d a => Sys2Proof.Machine.execRsqSeed h d a s
  | .ex2 h d a => Sys2Proof.Machine.execEx2 h d a s
  | .lg2 h d a => Sys2Proof.Machine.execLg2 h d a s
  | .sin h d a => Sys2Proof.Machine.execSin h d a s
  | .cos h d a => Sys2Proof.Machine.execCos h d a s
  | .bra g disp => Sys2Proof.Machine.execBra g disp s
  | .jmp g a => Sys2Proof.Machine.execJmp g a s
  | .jmpLink g d a => Sys2Proof.Machine.execJmpLink g d a s
  | .call g d disp => Sys2Proof.Machine.execCall g d disp s
  | .ret g a => Sys2Proof.Machine.execRet g a s
  | .loop g a disp => Sys2Proof.Machine.execLoop g a disp s
  | .lbrk g => Sys2Proof.Machine.execLbrk g s
  | .exit g => Sys2Proof.Machine.execExit g s
  | .yield g => Sys2Proof.Machine.execYield g s
  | .nap g d a b => Sys2Proof.Machine.execNap g d a b s
  | .nop g => Sys2Proof.Machine.execNop g s
  | .shfl h f => Sys2Proof.Machine.execShfl h f s
  | .vote h f p q => Sys2Proof.Machine.execVote h f p q s
  | .ballot h f q => Sys2Proof.Machine.execBallot h f q s
  | .redux h op d a => Sys2Proof.Machine.execRedux h op d a s
  | .scan h op excl d a => Sys2Proof.Machine.execScan h op excl d a s
  | .matchLanes h m d a => Sys2Proof.Machine.execMatchLanes h m d a s
  | .ld h w rlx d base idx off => Sys2Proof.Machine.execLd h w rlx d base idx off s
  | .st h w rlx d base idx off => Sys2Proof.Machine.execSt h w rlx d base idx off s
  | .ldsp h w rlx d base idx off => Sys2Proof.Machine.execLdsp h w rlx d base idx off s
  | .stsp h w rlx d base idx off => Sys2Proof.Machine.execStsp h w rlx d base idx off s
  | .ldf h take d base idx off => Sys2Proof.Machine.execLdf h take d base idx off s
  | .stf h wait d base idx off => Sys2Proof.Machine.execStf h wait d base idx off s
  | .lda h w d k idx off => Sys2Proof.Machine.execLda h w d k idx off s
  | .sta h w d k idx off => Sys2Proof.Machine.execSta h w d k idx off s
  | .ldc h col d t idx => Sys2Proof.Machine.execLdc h col d t idx s
  | .stc h col d t idx => Sys2Proof.Machine.execStc h col d t idx s
  | .pf h x base idx off => Sys2Proof.Machine.execPf h x base idx off s
  | .atom h op ord sc d a b => Sys2Proof.Machine.execAtom h op ord sc d a b s
  | .atoms h op ord sc d a b => Sys2Proof.Machine.execAtoms h op ord sc d a b s
  | .red h op ord sc a b => Sys2Proof.Machine.execRed h op ord sc a b s
  | .fence g k sc => Sys2Proof.Machine.execFence g k sc s
  | .cleanR h a b => Sys2Proof.Machine.execCleanR h a b s
  | .invalR h a b => Sys2Proof.Machine.execInvalR h a b s
  | .flushR h a b => Sys2Proof.Machine.execFlushR h a b s
  | .barArrive g b => Sys2Proof.Machine.execBarArrive g b s
  | .barWait g b => Sys2Proof.Machine.execBarWait g b s
  | .barSync g b => Sys2Proof.Machine.execBarSync g b s
  | .barSwap g => Sys2Proof.Machine.execBarSwap g s
  | .mbarInit h a b => Sys2Proof.Machine.execMbarInit h a b s
  | .mbarArrive h d a b => Sys2Proof.Machine.execMbarArrive h d a b s
  | .mbarExpect h a b => Sys2Proof.Machine.execMbarExpect h a b s
  | .mbarWait g a b => Sys2Proof.Machine.execMbarWait g a b s
  | .rsv h k a b c => Sys2Proof.Machine.execRsv h k a b c s
  | .unrsv h k => Sys2Proof.Machine.execUnrsv h k s
  | .zacc h t => Sys2Proof.Machine.execZacc h t s
  | .mma h t ka kb c => Sys2Proof.Machine.execMma h t ka kb c s
  | .acq h t => Sys2Proof.Machine.execAcq h t s
  | .rel h t => Sys2Proof.Machine.execRel h t s
  | .cpy h n dst src => Sys2Proof.Machine.execCpy h n dst src s
  | .cpyo h d => Sys2Proof.Machine.execCpyo h d s
  | .cpyc h a => Sys2Proof.Machine.execCpyc h a s
  | .patch h a b c => Sys2Proof.Machine.execPatch h a b c s
  | .go h a => Sys2Proof.Machine.execGo h a s
  | .rinit h n a b => Sys2Proof.Machine.execRinit h n a b s
  | .await g d n => Sys2Proof.Machine.execAwait g d n s
  | .rels h n a => Sys2Proof.Machine.execRels h n a s
  | .deq g d a => Sys2Proof.Machine.execDeq g d a s
  | .enq h a d => Sys2Proof.Machine.execEnq h a d s
  | .qsub h d a b => Sys2Proof.Machine.execQsub h d a b s
  | .qcancel h a => Sys2Proof.Machine.execQcancel h a s
  | .svc g d a b => Sys2Proof.Machine.execSvc g d a b s
  | .rcall g d a b => Sys2Proof.Machine.execRcall g d a b s
  | .fqack g d a b => Sys2Proof.Machine.execFqack g d a b s
  | .rgrow g a => Sys2Proof.Machine.execRgrow g a s
  | .rshrink g a => Sys2Proof.Machine.execRshrink g a s
  | .mfs g d r => Sys2Proof.Machine.execMfs g d r s
  | .mts g r a => Sys2Proof.Machine.execMts g r a s
  | .trap g a => Sys2Proof.Machine.execTrap g a s
  | .rett g => Sys2Proof.Machine.execRett g s
  | .tkill g => Sys2Proof.Machine.execTkill g s
  | .ebrk g => Sys2Proof.Machine.execEbrk g s
  | .fencex g => Sys2Proof.Machine.execFencex g s
  | .addLongImmediate g d a imm => Sys2Proof.Machine.execAddLongImmediate g d a imm s
  | .subLongImmediate g d a imm => Sys2Proof.Machine.execSubLongImmediate g d a imm s
  | .mulLongImmediate g d a imm => Sys2Proof.Machine.execMulLongImmediate g d a imm s
  | .minLongImmediate g d a imm => Sys2Proof.Machine.execMinLongImmediate g d a imm s
  | .maxLongImmediate g d a imm => Sys2Proof.Machine.execMaxLongImmediate g d a imm s
  | .andLongImmediate g d a imm => Sys2Proof.Machine.execAndLongImmediate g d a imm s
  | .orLongImmediate g d a imm => Sys2Proof.Machine.execOrLongImmediate g d a imm s
  | .xorLongImmediate g d a imm => Sys2Proof.Machine.execXorLongImmediate g d a imm s
  | .andnLongImmediate g d a imm => Sys2Proof.Machine.execAndnLongImmediate g d a imm s
  | .add64LongImmediate g d a imm => Sys2Proof.Machine.execAdd64LongImmediate g d a imm s
  | .sub64LongImmediate g d a imm => Sys2Proof.Machine.execSub64LongImmediate g d a imm s
  | .lea64LongImmediate g d a imm => Sys2Proof.Machine.execLea64LongImmediate g d a imm s
  | .saddLongImmediate g d a imm => Sys2Proof.Machine.execSaddLongImmediate g d a imm s
  | .ssubLongImmediate g d a imm => Sys2Proof.Machine.execSsubLongImmediate g d a imm s
  | .smulLongImmediate g d a imm => Sys2Proof.Machine.execSmulLongImmediate g d a imm s
  | .sandLongImmediate g d a imm => Sys2Proof.Machine.execSandLongImmediate g d a imm s
  | .sorLongImmediate g d a imm => Sys2Proof.Machine.execSorLongImmediate g d a imm s
  | .faddLongImmediate g d a imm => Sys2Proof.Machine.execFaddLongImmediate g d a imm s
  | .fsubLongImmediate g d a imm => Sys2Proof.Machine.execFsubLongImmediate g d a imm s
  | .fmulLongImmediate g d a imm => Sys2Proof.Machine.execFmulLongImmediate g d a imm s
  | .fminLongImmediate g d a imm => Sys2Proof.Machine.execFminLongImmediate g d a imm s
  | .fmaxLongImmediate g d a imm => Sys2Proof.Machine.execFmaxLongImmediate g d a imm s
  | .sldLongImmediate g d a imm => Sys2Proof.Machine.execSldLongImmediate g d a imm s
  | .ldLongImmediate g w d a imm => Sys2Proof.Machine.execLdLongImmediate g w d a imm s
  | .stLongImmediate g w d a imm => Sys2Proof.Machine.execStLongImmediate g w d a imm s
  | .ldspLongImmediate g w d a imm => Sys2Proof.Machine.execLdspLongImmediate g w d a imm s
  | .stspLongImmediate g w d a imm => Sys2Proof.Machine.execStspLongImmediate g w d a imm s
  | .pfLongImmediate g a imm => Sys2Proof.Machine.execPfLongImmediate g a imm s
  | .braLongImmediate g imm => Sys2Proof.Machine.execBraLongImmediate g imm s
  | .callLongImmediate g d imm => Sys2Proof.Machine.execCallLongImmediate g d imm s
  | .loopLongImmediate g a imm => Sys2Proof.Machine.execLoopLongImmediate g a imm s
  | .pairAdd x h1 => Sys2Proof.Machine.execPairAdd x h1 s
  | .pairSub x h1 => Sys2Proof.Machine.execPairSub x h1 s
  | .pairMul x h1 => Sys2Proof.Machine.execPairMul x h1 s
  | .pairAnd x h1 => Sys2Proof.Machine.execPairAnd x h1 s
  | .pairOr x h1 => Sys2Proof.Machine.execPairOr x h1 s
  | .pairXor x h1 => Sys2Proof.Machine.execPairXor x h1 s
  | .pairAndn x h1 => Sys2Proof.Machine.execPairAndn x h1 s
  | .pairMinS32 x h1 => Sys2Proof.Machine.execPairMinS32 x h1 s
  | .pairMaxS32 x h1 => Sys2Proof.Machine.execPairMaxS32 x h1 s
  | .pairMinZ32 x h1 => Sys2Proof.Machine.execPairMinZ32 x h1 s
  | .pairMaxZ32 x h1 => Sys2Proof.Machine.execPairMaxZ32 x h1 s
  | .pairMov x h1 => Sys2Proof.Machine.execPairMov x h1 s
  | .pairAdd2 x h1 => Sys2Proof.Machine.execPairAdd2 x h1 s
  | .pairSub2 x h1 => Sys2Proof.Machine.execPairSub2 x h1 s
  | .pairAdd4 x h1 => Sys2Proof.Machine.execPairAdd4 x h1 s
  | .pairFadd x h1 => Sys2Proof.Machine.execPairFadd x h1 s
  | .pairFsub x h1 => Sys2Proof.Machine.execPairFsub x h1 s
  | .pairFmul x h1 => Sys2Proof.Machine.execPairFmul x h1 s
  | .pairFmin x h1 => Sys2Proof.Machine.execPairFmin x h1 s
  | .pairFmax x h1 => Sys2Proof.Machine.execPairFmax x h1 s
  | .pairHadd2 x h1 => Sys2Proof.Machine.execPairHadd2 x h1 s
  | .pairHmul2 x h1 => Sys2Proof.Machine.execPairHmul2 x h1 s
  | .pairBadd2 x h1 => Sys2Proof.Machine.execPairBadd2 x h1 s
  | .pairBmul2 x h1 => Sys2Proof.Machine.execPairBmul2 x h1 s
  | .pairShl x h1 => Sys2Proof.Machine.execPairShl x h1 s
  | .pairShr x h1 => Sys2Proof.Machine.execPairShr x h1 s
  | .pairSra x h1 => Sys2Proof.Machine.execPairSra x h1 s
  | .pairRot x h1 => Sys2Proof.Machine.execPairRot x h1 s
  | .pairAddImmediate x h1 => Sys2Proof.Machine.execPairAddImmediate x h1 s
  | .pairSubImmediate x h1 => Sys2Proof.Machine.execPairSubImmediate x h1 s
  | .spawn rd rs1 rs2 => Sys2Proof.Machine.execSpawn rd rs1 rs2 s
  | .joinw rd rs1 => Sys2Proof.Machine.execJoinw rd rs1 s
  | .ecreate rd rs1 => Sys2Proof.Machine.execEcreate rd rs1 s
  | .edestroy rd rs1 => Sys2Proof.Machine.execEdestroy rd rs1 s
  | .eattest rd rs1 rs2 => Sys2Proof.Machine.execEattest rd rs1 rs2 s
  | .illegalOpcode w => Sys2Proof.Machine.execIllegalOpcode w s
  | .illegalInstructionException w => Sys2Proof.Machine.execIllegalInstructionException w s
  | .spawnAppend hart => Sys2Proof.Machine.execSpawnAppend hart s
  | .joinwComplete hart => Sys2Proof.Machine.execJoinwComplete hart s
  | .map => Sys2Proof.Machine.execMap s
  | .unmap => Sys2Proof.Machine.execUnmap s
  | .prot => Sys2Proof.Machine.execProt s
  | .move => Sys2Proof.Machine.execMove s
  | .sealPage => Sys2Proof.Machine.execSealPage s
  | .unsealPage => Sys2Proof.Machine.execUnsealPage s
  | .usage => Sys2Proof.Machine.execUsage s
  | .svcq => Sys2Proof.Machine.execSvcq s
  | .spdmCall => Sys2Proof.Machine.execSpdmCall s
  | .bind => Sys2Proof.Machine.execBind s
  | .pload => Sys2Proof.Machine.execPload s
  | .punload => Sys2Proof.Machine.execPunload s
  | .range => Sys2Proof.Machine.execRange s
  | .coldReset => Sys2Proof.Machine.execColdReset s
  | .warmReset => Sys2Proof.Machine.execWarmReset s
  | .firmwareImage leader img => Sys2Proof.Machine.execFirmwareImage leader img s
  | .hostLinkTraining cxl => Sys2Proof.Machine.execHostLinkTraining cxl s
  | .hello port pod => Sys2Proof.Machine.execHello port pod s
  | .discoveryWindowEnd => Sys2Proof.Machine.execDiscoveryWindowEnd s
  | .claim port pod nonce sig => Sys2Proof.Machine.execClaim port pod nonce sig s
  | .leaderSilent => Sys2Proof.Machine.execLeaderSilent s
  | .podFlitReceive port f => Sys2Proof.Machine.execPodFlitReceive port f s
  | .staggeredStartStep => Sys2Proof.Machine.execStaggeredStartStep s
  | .arrayRampDone core => Sys2Proof.Machine.execArrayRampDone core s
  | .pwrlim v => Sys2Proof.Machine.execPwrlim v s
  | .emergencyPowerReduction asserted => Sys2Proof.Machine.execEmergencyPowerReduction asserted s
  | .mslim p m v => Sys2Proof.Machine.execMslim p m v s
  | .mscfg p m v => Sys2Proof.Machine.execMscfg p m v s
  | .meadowStoreSplitChange p m => Sys2Proof.Machine.execMeadowStoreSplitChange p m s
  | .pcfg p v => Sys2Proof.Machine.execPcfg p v s
  | .partitionBuild p => Sys2Proof.Machine.execPartitionBuild p s
  | .gsw p v => Sys2Proof.Machine.execGsw p v s
  | .guestSwitchCommit p => Sys2Proof.Machine.execGuestSwitchCommit p s
  | .replyDoorbell p tag status => Sys2Proof.Machine.execReplyDoorbell p tag status s
  | .llaunch hazel runtime => Sys2Proof.Machine.execLlaunch hazel runtime s
  | .sleep => Sys2Proof.Machine.execSleep s
  | .commit => Sys2Proof.Machine.execCommit s
  | .wake => Sys2Proof.Machine.execWake s
  | .registerWrite fn off v => Sys2Proof.Machine.execRegisterWrite fn off v s
  | .tdispRequest vf r => Sys2Proof.Machine.execTdispRequest vf r s
  | .lockInterfaceRequest vf => Sys2Proof.Machine.execLockInterfaceRequest vf s
  | .ideKmKeyProgramming stream session selective => Sys2Proof.Machine.execIdeKmKeyProgramming stream session selective s
  | .hostMemoryAccess r => Sys2Proof.Machine.execHostMemoryAccess r s
  | .getVersion via => Sys2Proof.Machine.execGetVersion via s
  | .getCapabilities via => Sys2Proof.Machine.execGetCapabilities via s
  | .negotiateAlgorithms via => Sys2Proof.Machine.execNegotiateAlgorithms via s
  | .getDigests via => Sys2Proof.Machine.execGetDigests via s
  | .getCertificate via slot off len => Sys2Proof.Machine.execGetCertificate via slot off len s
  | .challenge via slot nonce => Sys2Proof.Machine.execChallenge via slot nonce s
  | .getMeasurements via index nonce => Sys2Proof.Machine.execGetMeasurements via index nonce s
  | .keyExchange via data => Sys2Proof.Machine.execKeyExchange via data s
  | .finish via session => Sys2Proof.Machine.execFinish via session s
  | .endSession via session => Sys2Proof.Machine.execEndSession via session s
  | .spdmUnsupportedRequest via code => Sys2Proof.Machine.execSpdmUnsupportedRequest via code s
  | .virtualFunctionReset vf => Sys2Proof.Machine.execVirtualFunctionReset vf s
  | .dispatchRecord encl kick => Sys2Proof.Machine.execDispatchRecord encl kick s
  | .grovePlacement k0 pl => Sys2Proof.Machine.execGrovePlacement k0 pl s
  | .placementStarvation k0 => Sys2Proof.Machine.execPlacementStarvation k0 s
  | .issueSelection core slot => Sys2Proof.Machine.execIssueSelection core slot s
  | .waitCountStarvation core wslot => Sys2Proof.Machine.execWaitCountStarvation core wslot s
  | .bindRecordWrite core wslot rec => Sys2Proof.Machine.execBindRecordWrite core wslot rec s
  | .teamRetirement core tslot => Sys2Proof.Machine.execTeamRetirement core tslot s
  | .queueSliceBoundary => Sys2Proof.Machine.execQueueSliceBoundary s
  | .storeBufferDrain t => Sys2Proof.Machine.execStoreBufferDrain t s
  | .loadReturn t => Sys2Proof.Machine.execLoadReturn t s
  | .atomicPerform t => Sys2Proof.Machine.execAtomicPerform t s
  | .walkComplete k0 => Sys2Proof.Machine.execWalkComplete k0 s
  | .faultQueueRoom encl => Sys2Proof.Machine.execFaultQueueRoom encl s
  | .registerLineFill core line => Sys2Proof.Machine.execRegisterLineFill core line s
  | .rgrowGrant core => Sys2Proof.Machine.execRgrowGrant core s
  | .handlerEntry core tslot => Sys2Proof.Machine.execHandlerEntry core tslot s
  | .barrierPhaseComplete core tslot b => Sys2Proof.Machine.execBarrierPhaseComplete core tslot b s
  | .deqTake t => Sys2Proof.Machine.execDeqTake t s
  | .enqReservation t => Sys2Proof.Machine.execEnqReservation t s
  | .awaitTake core wslot => Sys2Proof.Machine.execAwaitTake core wslot s
  | .mbarWaitWake t => Sys2Proof.Machine.execMbarWaitWake t s
  | .ldfWake t => Sys2Proof.Machine.execLdfWake t s
  | .stfWaitWake t => Sys2Proof.Machine.execStfWaitWake t s
  | .napWake t => Sys2Proof.Machine.execNapWake t s
  | .svcPost p => Sys2Proof.Machine.execSvcPost p s
  | .maintenanceComplete k0 => Sys2Proof.Machine.execMaintenanceComplete k0 s
  | .rsvComplete core tslot k => Sys2Proof.Machine.execRsvComplete core tslot k s
  | .acqComplete core tslot t => Sys2Proof.Machine.execAcqComplete core tslot t s
  | .unrsvComplete core tslot k => Sys2Proof.Machine.execUnrsvComplete core tslot k s
  | .matrixJobStart core job => Sys2Proof.Machine.execMatrixJobStart core job s
  | .kStep core => Sys2Proof.Machine.execKStep core s
  | .arraySwitchPoint core => Sys2Proof.Machine.execArraySwitchPoint core s
  | .matrixJobComplete core => Sys2Proof.Machine.execMatrixJobComplete core s
  | .budgetRefill => Sys2Proof.Machine.execBudgetRefill s
  | .copyJobStart core job => Sys2Proof.Machine.execCopyJobStart core job s
  | .ringSlotClaim core job => Sys2Proof.Machine.execRingSlotClaim core job s
  | .copyPieceDelivery core job => Sys2Proof.Machine.execCopyPieceDelivery core job s
  | .relayHop core job => Sys2Proof.Machine.execRelayHop core job s
  | .copyJobComplete core job => Sys2Proof.Machine.execCopyJobComplete core job s
  | .copyJobFault core job => Sys2Proof.Machine.execCopyJobFault core job s
  | .queryContextAllocate stack => Sys2Proof.Machine.execQueryContextAllocate stack s
  | .distanceReply stack ctx fromStack => Sys2Proof.Machine.execDistanceReply stack ctx fromStack s
  | .adjacencyReply stack ctx node => Sys2Proof.Machine.execAdjacencyReply stack ctx node s
  | .queryPublish core tslot => Sys2Proof.Machine.execQueryPublish core tslot s
  | .shootdownAck a => Sys2Proof.Machine.execShootdownAck a s
  | .migrationPass => Sys2Proof.Machine.execMigrationPass s
  | .lrd k0 => Sys2Proof.Machine.execLrd k0 s
  | .lwr k0 => Sys2Proof.Machine.execLwr k0 s
  | .rrd k0 => Sys2Proof.Machine.execRrd k0 s
  | .rup k0 => Sys2Proof.Machine.execRup k0 s
  | .evt grain who => Sys2Proof.Machine.execEvt grain who s
  | .erd k0 => Sys2Proof.Machine.execErd k0 s
  | .ewr k0 => Sys2Proof.Machine.execEwr k0 s
  | .cln k0 => Sys2Proof.Machine.execCln k0 s
  | .inv k0 => Sys2Proof.Machine.execInv k0 s
  | .directoryAck grain who => Sys2Proof.Machine.execDirectoryAck grain who s
  | .tmo grain => Sys2Proof.Machine.execTmo grain s
  | .proxyInvalidation grain meadow => Sys2Proof.Machine.execProxyInvalidation grain meadow s
  | .copyInvalidation grain who => Sys2Proof.Machine.execCopyInvalidation grain who s
  | .replicaLock grain meadow => Sys2Proof.Machine.execReplicaLock grain meadow s
  | .replicaUpdate grain meadow => Sys2Proof.Machine.execReplicaUpdate grain meadow s
  | .partitionSwapOut p m => Sys2Proof.Machine.execPartitionSwapOut p m s
  | .partitionSwapIn p m => Sys2Proof.Machine.execPartitionSwapIn p m s
  | .usageRecordPeriodic p => Sys2Proof.Machine.execUsageRecordPeriodic p s
  | .podLinkTraining port => Sys2Proof.Machine.execPodLinkTraining port s
  | .meadowStoreWriteBack line => Sys2Proof.Machine.execMeadowStoreWriteBack line s

end Sys2Proof.Machine
end

