-- ==== Sys2Proof/Machine/Clock.lean ====
section
/-! DEFINITION. The clock, what falls due, and what time counts (R12, R43, R296, R411, R429 to R434). -/
namespace Sys2Proof.Machine

/-- What is due: the refill of every 10 µs (R296), the slice of every 100 µs (R43), the end of a late launch (R411), the
usage record of every second (R434), the wake of a `nap` whose deadline has come (R176), that of a `deq` whose queue is
mapped and holds an item (R43), an access of the host that no migration holds any longer (R375), the write-back of a line that a
meadow store has no share for (R14, R228), and a function-level reset that had to wait (R426). -/
inductive Due where
  | nap (t : Nat)
  | deq (t : Nat)
  | host
  | evict (line : Nat)
  | reset (vf : Nat)
  | refill
  | slice
  | launched
  | usage (p : Nat)
deriving DecidableEq, Repr

/-- The deadline of a thread's `nap`. -/
def napDeadline (th : Thread) : Option Nat :=
  match th.wait with
  | some (.nap dl _ _ _) => some dl
  | _ => none

/-- The first thread whose `nap` deadline has come. -/
def napDue (s : State) : Option Nat :=
  firstSome (fun (x : Nat × Thread) => match napDeadline x.2 with
    | some dl => if dl ≤ s.clock then some x.1 else none
    | none => none) s.threads

/-- How many dirty lines a partition may keep in a meadow's store: its share less its window (R228, R229); the smaller of the old
and the new share while a change runs (R231). -/
def dirtyShare (s : State) (p m : Nat) : Nat :=
  let c := getMsCfg s p m
  2048 * (match c.next with
    | some n => Nat.min (c.total - c.win) (n.2 - n.1)
    | none => c.total - c.win)

/-- A dirty line for which its meadow's store has no room: beyond its partition's share, or beyond 64 MiB (R6, R14). Which one
is written back is open. DESIGN CHOICE, notes/assumptions/1.md. -/
def lineOver (s : State) : Option Nat :=
  let meadow (l : Nat) : Nat := homeMeadow (l / 4)
  let mates (p l : Nat) : Nat :=
    (s.stale.filter fun y => decide (meadow y.1 = meadow l) && decide (framePart s (y.1 * 128) = some p)).length
  firstSome (fun (x : Nat × StaleLine) =>
    let excess := match framePart s (x.1 * 128) with
      | some p => (getPart s p).live && decide (dirtyShare s p (meadow x.1) < mates p x.1)
      | none => false
    if excess then some x.1
    else if 524288 < (s.stale.filter fun y => decide (meadow y.1 = meadow x.1)).length then some x.1 else none) s.stale

/-- The partition whose record Rowan emits next: none while a call is under way (R434). -/
def recordTurn (s : State) : Option Nat := if rowanBusy s then none else usageDue s

/-- A function-level reset that waited and need wait no longer (R426). -/
def resetDue (s : State) : Option Nat :=
  if rowanBusy s then none else s.host.flr.find? fun vf => swapsStopped s (vf - 1)

/-- DESIGN CHOICE, notes/assumptions/1.md. -/
def dueEvent (s : State) : Option Due :=
  if s.refills < s.clock / 10000 then some .refill
  else if s.slices < s.clock / 100000 then some .slice
  else if s.boot.hazelHalted && decide (s.boot.haltEnd ≤ s.clock) then some .launched
  else if let some p := recordTurn s then some (.usage p)
  else if let some vf := resetDue s then some (.reset vf)
  else match napDue s, deqDue s, lineOver s with
    | some t, _, _ => some (.nap t)
    | none, some t, _ => some (.deq t)
    | none, none, some l => some (.evict l)
    | none, none, none => if hostDue s then some .host else none

/-- Whether a partition counts an event (R429). DEDUCED, notes/assumptions/33.md. -/
def pmcCounts (s : State) (p code : Nat) : Bool :=
  (getPart s p).pmsel.any fun c => decide (c.2.toNat % 256 = code) && c.2.getLsbD 8

/-- The cores that run and whose core-table entry names a partition (R416). -/
def ownCores (s : State) (p : Nat) : List Nat :=
  (s.cores.filter fun c => c.2.up && decide (corePart s c.1 = p)).map (·.1)

/-- The issue slots of a core in which no warp of a partition is eligible (R430, code 2). -/
def idleSlots (s : State) (p core : Nat) : Nat :=
  ((List.range 4).filter fun slot => !tenantEligible s core slot p).length

/-- Whether a k-step of a core waits for budget (R430, code 7). -/
def waitsBudget (s : State) (core : Nat) : Bool :=
  match (getCore s core).running.bind (getJob s core) with
  | none => false
  | some j => decide (j.state = .running) && (kNext s core j).isSome && !budgetOk (getCore s core) (kCharge s core j)

/-- The performance counters' cycles (R430). -/
def countCycles (s : State) (p cycles : Nat) : State :=
  let s1 := if pmcCounts s p 2 then pmcEvent s p 2 (cycles * ((ownCores s p).map (idleSlots s p)).foldl (· + ·) 0) else s
  if pmcCounts s p 7 then pmcEvent s1 p 7 (cycles * ((ownCores s p).filter (waitsBudget s)).length) else s1

/-- Time passes, no further than the next refill instant or the next deadline of a `nap`. CORECYC counts 1.05 cycles for
each ns and core that holds a bind record of a partition, WALLNS each ns (R431). DESIGN CHOICE, notes/assumptions/1.md. -/
def passTime (s : State) (dt : Nat) : State :=
  let next := s.threads.foldl (fun m x => match napDeadline x.2 with
    | some dl => if s.clock < dl then Nat.min m dl else m
    | none => m) ((s.clock / 10000 + 1) * 10000)
  let now := Nat.min (s.clock + dt) next
  let d := now - s.clock
  let cycles := now * 105 / 100 - s.clock * 105 / 100
  let busy (p : Nat) : Nat := ((s.warps.filter fun w =>
    decide (w.1 < 65536) && bindV w.2.bind && decide (bindTenant w.2.bind = p)).foldl (fun l w => nsAdd l (w.1 / 64)) []).length
  let s1 := s.parts.foldl (fun s p =>
    if p.2.live then countCycles (meter (meter s p.1 mCorecyc (cycles * busy p.1)) p.1 mWallns d) p.1 cycles else s) s
  { s1 with clock := now }

end Sys2Proof.Machine
end

