-- ==== Sys2Proof/Machine/Fair.lean ====
section
/-! DEFINITION. The turns by which every agent makes progress (R54): every second idle step belongs to one of them. -/
namespace Sys2Proof.Machine

/-- The k-th of some things, in turn. -/
def inTurn {α : Type} (l : List α) (k : Nat) : Option α := l[k % Nat.max 1 l.length]?

/-- The first place where a launch's next grove may be placed now (R42). -/
def firstPlace (s : State) (i : Nat) : Option Place :=
  match s.launches[i]? with
  | none => none
  | some l => ((List.range 8).flatMap meadowPlaces).find? fun pl => canPlace s l pl && rankAllows s i l pl

/-- Of the k-th launch that waits, or of the k-th kick register (R42). -/
def fairLaunch (s : State) (k : Nat) : Option Out :=
  let i := k / 2 % Nat.max 1 s.launches.length
  if k % 2 = 0 then (firstPlace s i).map fun pl => execGrovePlacement i pl s
  else (inTurn s.encls (k / 32)).map fun e => execDispatchRecord e.1 (k / 2 % 16) s

/-- Of the k-th thread's operations and waits (R47, R237). -/
def fairThread (s : State) (k : Nat) : Option Out :=
  (inTurn s.threads (k / 9)).map fun x =>
    let t := x.1
    match k % 9 with
    | 0 => execLoadReturn t s
    | 1 => execStoreBufferDrain t s
    | 2 => execAtomicPerform t s
    | 3 => execDeqTake t s
    | 4 => execEnqReservation t s
    | 5 => execMbarWaitWake t s
    | 6 => execLdfWake t s
    | 7 => execStfWaitWake t s
    | _ => execAwaitTake (coreOf t) (warpOf t % 64) s

/-- Of the k-th team: its halt, its retirement, its queries, its barriers. -/
def fairTeam (s : State) (k : Nat) : Option Out :=
  (inTurn s.teams (k / 13)).map fun x =>
    let c := x.1 / 4
    let ts := x.1 % 4
    match k % 13 with
    | 0 => execHandlerEntry c ts s
    | 1 => execTeamRetirement c ts s
    | 2 => execQueryPublish c ts s
    | n => execBarrierPhaseComplete c ts ⟨(n - 3) % 10, Nat.mod_lt _ (by decide)⟩ s

/-- Of the k-th register line that an instruction waits for (R119). -/
def fairLine (s : State) (k : Nat) : Option Out :=
  (inTurn (s.threads.flatMap fun x => ((lineNeeds s x.1).filter fun l => !linePresent s l).map fun l => (coreOf x.1, l)) k).map fun x =>
    execRegisterLineFill x.1 (lineNum x.2) s

/-- Of the k-th core's registers for a waiting `rgrow` and of its matrix array (R33, R125, R292). -/
def fairCore (s : State) (k : Nat) : Option Out :=
  (inTurn s.cores (k / 5)).map fun x =>
    match k % 5 with
    | 0 => execRgrowGrant x.1 s
    | 1 => execArrayRampDone x.1 s
    | 2 => execKStep x.1 s
    | 3 => execArraySwitchPoint x.1 s
    | _ => execMatrixJobComplete x.1 s

/-- Of the k-th class 0xB word that waits (R286, R289, R302). -/
def fairMat (s : State) (k : Nat) : Option Out :=
  (inTurn (s.teams.flatMap fun x => x.2.matPend.map fun m => (x.1, m.op)) k).bind fun x =>
    match x.2 with
    | .rsv r => some (execRsvComplete (x.1 / 4) (x.1 % 4) ⟨r % 16, Nat.mod_lt _ (by decide)⟩ s)
    | .unrsv r => some (execUnrsvComplete (x.1 / 4) (x.1 % 4) ⟨r % 16, Nat.mod_lt _ (by decide)⟩ s)
    | .acq t => some (execAcqComplete (x.1 / 4) (x.1 % 4) ⟨t % 4, Nat.mod_lt _ (by decide)⟩ s)
    | _ => none

/-- Of the k-th job (R308 to R322). -/
def fairJob (s : State) (k : Nat) : Option Out :=
  (inTurn (s.cores.flatMap fun c => c.2.jobs.map fun j => (c.1, j.num)) (k / 7)).map fun x =>
    match k % 7 with
    | 0 => execCopyJobStart x.1 x.2 s
    | 1 => execRingSlotClaim x.1 x.2 s
    | 2 => copyTurn x.1 x.2 s
    | 3 => execRelayHop x.1 x.2 s
    | 4 => execCopyJobComplete x.1 x.2 s
    | 5 => execCopyJobFault x.1 x.2 s
    | _ => execMatrixJobStart x.1 x.2 s

/-- Of the k-th request of a search, or of the k-th stack's contexts (R346, R347). -/
def fairQuery (s : State) (k : Nat) : Option Out :=
  if k % 2 = 0 then (inTurn s.heather (k / 2)).map fun h => execQueryContextAllocate h.1 s
  else (inTurn (s.heather.flatMap fun h => h.2.ctxs.flatMap fun c => c.2.asks.map fun a => (h.1, c.1, a)) (k / 2)).map fun x =>
    if x.2.2.adj then execAdjacencyReply x.1 x.2.1 x.2.2.node s else execDistanceReply x.1 x.2.1 x.2.2.stack s

/-- Rowan's call of a function (R403). -/
def rowanCall (s : State) (func : Nat) : Option Out :=
  match func with
  | 0x01 => some (execMap s)
  | 0x02 => some (execUnmap s)
  | 0x03 => some (execProt s)
  | 0x04 => some (execMove s)
  | 0x08 => some (execSealPage s)
  | 0x09 => some (execUnsealPage s)
  | 0x10 => some (execUsage s)
  | 0x11 => some (execSvcq s)
  | 0x18 => some (execSpdmCall s)
  | 0x19 => some (execBind s)
  | 0x20 => some (execPload s)
  | 0x21 => some (execPunload s)
  | 0x22 => some (execRange s)
  | _ => none

/-- Of Rowan: its oldest call, a shootdown, a migration (R372, R373, R375). -/
def fairRowan (s : State) (k : Nat) : Option Out :=
  match k % 3 with
  | 0 => s.rowan.queue.head?.bind fun c => rowanCall s c.func
  | 1 => s.rowan.shoot.bind fun d => (inTurn d.agents (k / 3)).map fun a => execShootdownAck a s
  | _ => if s.rowan.migr.isSome then some (execMigrationPass s) else none

/-- Of the queues' hardware and the caches (R275, R329, R333). -/
def fairService (s : State) (k : Nat) : Option Out :=
  match k % 4 with
  | 0 => some (execMaintenanceComplete (k / 4 % Nat.max 1 s.maints.length) s)
  | 1 => (inTurn s.parts (k / 4)).map fun p => execSvcPost p.1 s
  | 2 => (inTurn s.encls (k / 4)).map fun e => execFaultQueueRoom e.1 s
  | _ => some (execWalkComplete (k / 4 % Nat.max 1 s.walks.length) s)

/-- A partition's meadow that Hazel has begun to swap out, or still has to before the package sleeps (R412, R422). -/
def swapTurn (s : State) : Option (Nat × Nat) :=
  match s.parts.findSome? fun p => p.2.swapping.head?.map fun m => (p.1, m) with
  | some x => some x
  | none =>
    if s.rowan.sleeping then (s.teams.find? fun t => t.2.live && decide (t.1 < 4096)).map fun t => (t.2.part, t.1 / 512) else none

/-- Of Hazel, the ROM and the general cores (R32, R231, R422, R424). -/
def fairPackage (s : State) (k : Nat) : Option Out :=
  match k % 6 with
  | 0 => (swapTurn s).map fun x => execPartitionSwapOut x.1 x.2 s
  | 1 => (inTurn s.parts (k / 6)).map fun p => execGuestSwitchCommit p.1 s
  | 2 => some (execStaggeredStartStep s)
  | 3 => (inTurn (s.host.mscfg.filter fun c => c.2.busy) (k / 6)).map fun c => execMeadowStoreSplitChange (c.1 / 8) (c.1 % 8) s
  | 4 => (inTurn s.harts (k / 6)).map fun h => execSpawnAppend h.1 s
  | _ => (inTurn s.harts (k / 6)).map fun h => execJoinwComplete h.1 s

/-- The turns, one after the other. -/
def fairTurn (s : State) (n : Nat) : Option Out :=
  let k := n / 13
  match n % 13 with
  | 0 => some (execIssueSelection (k % 4096 / 4) ⟨k % 4, Nat.mod_lt _ (by decide)⟩ s)
  | 1 => fairThread s k
  | 2 => fairTeam s k
  | 3 => fairLine s k
  | 4 => fairCore s k
  | 5 => fairMat s k
  | 6 => fairJob s k
  | 7 => fairQuery s k
  | 8 => fairRowan s k
  | 9 => fairService s k
  | 10 => fairPackage s k
  | 11 => fairLaunch s k
  | _ => none

/-- A turn of the homes: a round under way gains an acknowledgement, or the k-th request is taken. -/
def fairHome (s : State) (k : Nat) : Out :=
  match s.pends.findSome? fun p => p.2.await.head?.map fun x => (p.1, x) with
  | some x => .next (forceAck s x.1 x.2)
  | none => .next (takeRequest s (k % Nat.max 1 s.reqs.length) (List.range 9))

/-- Every second idle step is some agent's turn, so that no thread, warp, team, launch, walk, line, job, query, call or home waits
for ever (R54). DEDUCED, notes/assumptions/1.md. -/
def fairEvent (s : State) (n : Nat) : Option Out :=
  if n % 2 = 0 then none
  else if n / 2 % 13 = 12 then some (fairHome s (n / 26))
  else some ((fairTurn s (n / 2)).getD (.next s))

end Sys2Proof.Machine
end

