-- ==== Sys2Proof/Machine/Cycle.lean ====
section
/-! DEFINITION. What a step does in each of its three kinds: a chosen warp's word, a general core's word, and an idle
step. -/
namespace Sys2Proof.Machine

/-- The lines of a lane record that a step has changed (R117, R120). -/
def recDirty (a b : Thread) : BitVec 4 :=
  (if a.pc ≠ b.pc ∨ a.tepc ≠ b.tepc ∨ a.tva ≠ b.tva ∨ a.lc0 ≠ b.lc0 ∨ a.lc1 ≠ b.lc1 then 1 else 0)
    ||| (if a.lc2 ≠ b.lc2 ∨ a.tcause ≠ b.tcause ∨ a.tsnap0 ≠ b.tsnap0 ∨ a.tsnap1 ≠ b.tsnap1 ∨ a.tsnap2 ≠ b.tsnap2
          ∨ a.tsnap3 ≠ b.tsnap3 ∨ a.preds ≠ b.preds ∨ a.nregs ≠ b.nregs ∨ a.exited ≠ b.exited ∨ a.trapped ≠ b.trapped
          ∨ a.handler ≠ b.handler then 2 else 0)
    ||| (if a.pend ≠ b.pend then 4 else 0) ||| (if a.poison ≠ b.poison then 8 else 0)

/-- What a step from `s` leaves in a thread beside its effect: the wait count of one that has become ready is 0 (R45), and the
lines of its lane record that have changed are dirty (R120). -/
def noteThread (s s' : State) (t : Nat) (x : Thread) : Thread :=
  { x with
    waitCount := if x.waitCount ≠ 0 ∧ threadReady s' t ∧ !threadReady s t then 0 else x.waitCount
    rdirty := if (getTh s t).exited then x.rdirty else x.rdirty ||| recDirty (getTh s t) x }

/-- The same in a warp: one that has gained its first ready thread became ready then (R44); the line of FLAGS, AMAX, TSKID and
the s poison map is dirty where one of them has changed (R117, R120). -/
def noteWarp (s s' : State) (w : Nat) (x : Warp) : Warp :=
  let a := getWarp s w
  { x with
    since := if (readyThreads s w).isEmpty ∧ !(readyThreads s' w).isEmpty then s'.n else x.since
    sdirty := if bindV a.bind ∧ (a.flags ≠ x.flags ∨ a.amax ≠ x.amax ∨ a.tskid ≠ x.tskid ∨ a.spoison ≠ x.spoison) then
        x.sdirty ||| 0x10000 else x.sdirty }

/-- The same in a team: the line of TVEC and ARMS (R117, R120). -/
def noteTeam (s : State) (k : Nat) (x : Team) : Team :=
  let a := getTeam s k
  { x with tdirty := x.tdirty || (a.live && (decide (a.tvec ≠ x.tvec) || decide (a.arms ≠ x.arms))) }

/-- The pages of a core's memories that a step has changed. -/
def changedPages (a b : Core) : List Nat :=
  let diff (kind : Nat) (x y : SMap Byte) : List Nat :=
    if x = y then []
    else ((y.filter fun e => !decide (smFind? x e.1 = some e.2)) ++ x.filter fun e => (smFind? y e.1).isNone).map fun e => pageNum kind e.1
  diff 3 a.sp b.sp ++ ((b.spWritten.filter fun g => !nsHas a.spWritten g).map fun g => pageNum 3 (g * 16))
    ++ diff kAb a.ab b.ab ++ diff kWb a.wb b.wb ++ diff kCb a.cb b.cb

/-- The same in a core: the pages that its teams have written since they came to it (R422). -/
def noteCore (s s' : State) (c : Nat) (x : Core) : Core :=
  let here := coreTeams s' c
  let stays := (here.filter fun k => (getTeam s k).live).map (getTeam s')
  { x with
    dirtyPg := ((changedPages (getCore s c) x).filter fun p => stays.any fun t => ownsPage t p).foldl nsAdd
      (x.dirtyPg.filter fun p => here.any fun k => ownsPage (getTeam s' k) p) }

/-- What a step leaves beside its effect (R44, R45, R120, R422). -/
def noteReady (s s' : State) : State :=
  { s' with
    cores := s'.cores.map fun x => (x.1, noteCore s s' x.1 x.2)
    threads := s'.threads.map fun x => (x.1, noteThread s s' x.1 x.2)
    warps := s'.warps.map fun x => (x.1, noteWarp s s' x.1 x.2)
    teams := s'.teams.map fun x => (x.1, noteTeam s x.1 x.2) }

/-- A step that a home has held back is tried again later (R380): a word does not issue, and other things happen first. -/
def retryStep (s : State) : State :=
  { stallIssue s with n := (stallIssue s).n + 1, held := false }

/-- Whether a home has held a step back. -/
def heldBack (o : Out) : Bool :=
  match o with
  | .next s' => s'.held
  | _ => false

/-- The outcome of a step from `s`; an `rinit` whose ring no job names any longer completes (R325). -/
def noting (s : State) (o : Out) : Out :=
  match o with
  | .next s' => if s'.held then .next (retryStep s) else .next (noteReady s (endRinits s'))
  | .fault f => .fault f
  | .refused r => .refused r

/-- A chosen warp fetches, decodes and executes its word (R81, R102). -/
def stepWarp (s : State) : Out :=
  match fetchWarp s with
  | .bad pa => .fault (.noSuchAddress pa)
  | .done s1 => .next s1
  | .word s1 w =>
    match decode w with
    | .ok i => exec i s1
    | .illegalOpcode => exec (.illegalOpcode w) s1
    | .illegalForm => decodeTrap ccIllegalForm s1
    | .illegalPair => decodeTrap ccIllegalPair s1

/-- A chosen general core fetches and executes its word; a word of the RISC-V base is outside the manual, and so is what follows
the exception of a fetch that is refused. DESIGN CHOICE, notes/assumptions/7.md. -/
def stepHart (s : State) (h : Nat) : Out :=
  if !hartReady s h then .next { s with turn := .idle }
  else match fetchHart s h with
    | .badAddr pa => .fault (.noSuchAddress pa)
    | .fault s1 => .next (hartExc s1 h (.fetchPageFault (getHart s h).pc.toNat))
    | .ok s1 bs =>
      let w : W32 := BitVec.ofNat 32 (natOfBytes bs)
      match decodeHart w with
      | .ok i => exec i s1
      | .illegal => exec (.illegalInstructionException w) s1
      | .base => .refused (.riscvBase w)

/-- An uncorrectable ECC error may arise in a block, or in a granule of a scratchpad (R260). -/
def newError (s : State) : State :=
  match Config.eccError s.n with
  | some b =>
    if b < 2 ^ 50 then { s with ecc := nsAdd s.ecc b }
    else modCore s (b / 32768 % 1024) fun c => { c with spEcc := nsAdd c.spEcc (b % 32768) }
  | none => s

/-- What is due happens. -/
def stepDue (s : State) (d : Due) : Out :=
  let s1 := { s with n := s.n + 1 }
  match d with
  | .refill => exec .budgetRefill s1
  | .slice => exec .queueSliceBoundary s1
  | .launched => .next (finishLlaunch s1)
  | .nap t => execNapWake t s1
  | .deq t => execDeqTake t s1
  | .host => .next (hostResume s1)
  | .evict l => .next (writeBackMetered s1 l)
  | .usage p => execUsageRecordPeriodic p s1
  | .reset vf => execVirtualFunctionReset vf s1

/-- Time passes; where nothing falls due by that, it is some agent's turn, a general core is chosen, or something happens. -/
def stepFree (s : State) : Out :=
  let s1 := newError { passTime s (Config.elapsed s.n) with n := s.n + 1 }
  if (dueEvent s).isNone && (dueEvent s1).isSome then .next s1
  else match fairEvent s1 s.n with
    | some o => o
    | none =>
      match Config.nextHart s.n with
      | some h => .next (if hartReady s1 h then { s1 with turn := .hart h } else s1)
      | none => exec (Config.nextEvent s.n) s1

/-- No word is chosen: an input waits, something is due, or time passes and something happens; so it does too while a home holds
back the input or what is due. DESIGN CHOICE, notes/assumptions/1.md. -/
def stepIdle (s : State) : Out :=
  let o := match s.inbox with
    | i :: rest => exec i { s with inbox := rest, n := s.n + 1 }
    | [] =>
      match dueEvent s with
      | some d => stepDue s d
      | none => stepFree s
  if heldBack o then stepFree s else o

/-- Whether a step emits a usage record, as far as it can be told beforehand. -/
def emits (s : State) : Bool :=
  match s.turn, s.inbox with
  | .idle, i :: _ => decide (i = .usage)
  | .idle, [] =>
    (match dueEvent s with
      | some (.usage _) => true
      | some _ => false
      | none => decide (s.n % 2 = 0) && (Config.nextHart s.n).isNone && decide (Config.nextEvent s.n = .usage))
  | _, _ => false

/-- What happens after a usage record lands after its TIME, but for another record (R435). -/
def settleClock (s : State) : State := if decide (s.rowan.recordAt = some s.clock) && !emits s then passTime s 1 else s

end Sys2Proof.Machine
end

