-- ==== Sys2Proof/Machine/Place.lean ====
section
/-! DEFINITION. Where the next word is fetched from, as `State.withFetchWord` uses it: a placed word for a warp's single
thread, and for a general core. -/
namespace Sys2Proof.Machine

/-- The translation of a placed word: its page maps to frame 0 of HBM4E, readable and executable, for an enclave's own
ASID and the stamp of that frame. -/
def placeTlb (asid va : Nat) : TlbEntry := ⟨asid, va / 4096, 12, 0, true, true, true, 0, 0, 0, asid⟩

/-- A word at the page offset of a VA in frame 0, and the frame's stamp. -/
def placeBytes (s : State) (asid va n w : Nat) : State :=
  let s1 := writeBytes s (va % 4096) (bytesOfNat n w)
  { s1 with
    stamps := smPut s1.stamps (potGov s1 0) (.tagged asid 0)
    poison := s1.poison.filter fun b => decide (b ≠ va % 4096 / 64)
    raw := smDel s1.raw (va % 4096 / 64)
    ecc := s1.ecc.filter fun b => decide (b ≠ va % 4096 / 64) }

/-- Thread 0 of warp slot 0 of core 0, alone in team slot 0, about to issue the word. DESIGN CHOICE,
notes/assumptions/37.md. -/
def placeWarpWord (s : State) (w : Nat) : State :=
  let th := getTh s 0
  let va := th.pc.toNat % 2 ^ 57 / 8 * 8
  let tm := getTeam s 0
  let bind : BitVec 128 := BitVec.ofNat 128 (2 ^ 127 + 2 ^ 126)
  let s1 := placeBytes s tm.asid va 8 w
  let s2 := setTh s1 0 { th with
    pc := BitVec.ofNat 64 va, exited := false, wait := none, trapPend := none, denied := false, refused := none, mq := [],
    lines := 0xFFFFFFFF, rlines := 0xF, waitCount := 0 }
  let s3 := modWarp s2 0 fun x => { x with bind := bind, slines := 0x1FFFF, loops := [] }
  let s4 := (rangeFrom 1 31).foldl (fun s t => modTh s t fun x => { x with exited := true }) s3
  let s5 := modTeam s4 0 fun t => { t with live := true, ended := false, halted := false, warps := 1, wslots := [0], tline := true }
  let s6 := modCore s5 0 fun c => { c with
    up := true, slotTlb := smMod [] c.slotTlb 0 fun l => placeTlb tm.asid va :: l }
  { s6 with turn := .warp 0 0 1 }

/-- General core 0 about to execute the word. DESIGN CHOICE, notes/assumptions/37.md. -/
def placeHartWord (s : State) (w : Nat) : State :=
  let h := getHart s 0
  let va := h.pc.toNat % 2 ^ 57 / 4 * 4
  let asid := enclAsid s h.encl
  let s1 := placeBytes s asid va 4 w
  { setHart s1 0 { h with pc := BitVec.ofNat 64 va, wait := none, exc := none, paused := false, tlb := placeTlb asid va :: h.tlb } with
    turn := .hart 0 }

end Sys2Proof.Machine
end

