-- ==== Sys2Proof/Machine/Step.lean ====
section
/-! DEFINITION. One step of the machine, and the placing of a word where the next step fetches. -/
namespace Sys2Proof.Machine

/-- A step once the clock has settled. -/
def stepAt (s : State) : Host.Outcome State Fault Refusal :=
  noting s (match s.turn with
    | .warp _ _ _ => stepWarp s
    | .hart h => stepHart s h
    | .idle => stepIdle s)

/-- One step of the machine. -/
def step (s : State) : Host.Outcome State Fault Refusal := stepAt (settleClock s)

/-- `s` with an instruction stored where the next step fetches: 32 bits for a general core, 64 for a warp. -/
def State.withFetchWord (s : State) (nbits w : Nat) : State :=
  if nbits ≤ 32 then placeHartWord s w else placeWarpWord s w

end Sys2Proof.Machine
end

