-- ==== Sys2Proof/WellFormed.lean ====
section
/-! DEFINITION. Which instructions have a word: the checks of R81 to R103 and of the per-instruction rules that the
syntax does not already make. -/
namespace Sys2Proof

/-- R147, R184, R300, R315, R355: a uniform operand is no identity code that differs between threads. -/
def UOperand.wf : UOperand → Bool
  | .ident k => uniformIdent k
  | _ => true

def USrc.wf (a : USrc) : Bool := a.op.wf
def USrc64.wf (a : USrc64) : Bool := a.op.wf

/-- R268, R269: an atomic's width, operation and D. -/
def atomWf (op : AtomOp) (d : WReg) (b : AtomVal) : Bool := atomFieldsOk op b.wide d

/-- R268, R269: what `red` encodes. -/
def redWf (op : AtomOp) (ord : AtomOrd) (b : AtomVal) : Bool :=
  (match op with
   | .xchg | .cas => false
   | _ => true) && redOrdOk ord && !(b.wide && op == .fadd)

/-- Whether an instruction can be encoded. A step that has no word (a call or an event) is always well formed; the two
steps of a word that is no instruction name such a word. -/
def Instr.wf : Instr → Bool
  | .sadd _ _ a b | .ssub _ _ a b | .smul _ _ a b | .sshl _ _ a b | .sshr _ _ _ a b | .sand _ _ a b | .sor _ _ a b
  | .sld _ _ a b | .scmp _ _ _ a b => a.wf && b.wf
  | .smov _ _ a => a.wf
  | .cvt _ t s m r _ _ b => cvtAllowed t s m r && (decide (t.width = 32) == b.isNone)
  | .loop _ _ disp => loopDispOk disp.toInt
  | .loopLongImmediate _ _ imm => loopDispOk imm.toInt
  | .shfl _ (.pickU _ _ b) => b.wf
  | .vote _ (.atl b) _ _ | .vote _ (.atm b) _ _ => b.wf
  | .ballot _ (.maskU _ b) _ | .ballot _ (.cntU _ b) _ => b.wf
  | .scan _ op _ _ _ => op.scannable
  | .ld _ w _ d _ _ _ | .ldsp _ w _ d _ _ _ | .ldLongImmediate _ w d _ _ | .ldspLongImmediate _ w d _ _ =>
    dataRegOk w.bytes d
  | .st _ w _ d _ _ _ | .stsp _ w _ d _ _ _ | .stLongImmediate _ w d _ _ | .stspLongImmediate _ w d _ _ =>
    dataRegOk w.bytes d
  | .lda _ w d _ _ _ | .sta _ w d _ _ _ => dataRegOk w.bytes d
  | .atom _ op _ _ d _ b | .atoms _ op _ _ d _ b => atomWf op d b
  | .red _ op ord _ _ b => redWf op ord b
  | .fence _ k sc => fenceAllowed k sc
  | .rsv _ _ a b c => a.wf && b.wf && c.wf
  | .mma _ _ _ _ c => c.wf
  | .cpyc _ a | .go _ a | .rels _ _ a | .qcancel _ a => a.wf
  | .patch _ a b c => a.wf && b.wf && c.wf
  | .rinit _ _ a b | .qsub _ _ a b => a.wf && b.wf
  | .mfs _ d r => !r.is64 || d.toNat % 2 == 0
  | .mts _ r a => !r.readOnly && (a.wide == r.is64)
  | .saddLongImmediate _ _ a _ | .ssubLongImmediate _ _ a _ | .smulLongImmediate _ _ a _ | .sandLongImmediate _ _ a _
  | .sorLongImmediate _ _ a _ | .sldLongImmediate _ _ a _ => a.wf
  | .illegalOpcode w => decide (decode w = .illegalOpcode)
  | .illegalInstructionException w => decide (decodeHart w = .illegal)
  | i => match pairHalves i with
    | some (h0, h1) => pairLegal h0 h1
    | none => true

/-- Whether an instruction has a word: one of Nimia, or one of the Mellyn extension. -/
def Instr.hasWord (i : Instr) : Bool := (encode i).isSome

end Sys2Proof
end

