-- ==== Sys2Proof/Safety.lean ====
section
/-! DEFINITION. The terms statements use: when a word issues and commits, what it changes, and what it leaves. -/
namespace Sys2Proof.Machine

/-- The state invariant: physical memory is in its one canonical form. -/
def State.Inv (s : State) : Prop := Memory.wf s.mem = true

/-! ### When a word issues (R44, R89 to R95, R102, R119, R196) -/

/-- The threads of a set in which a guard holds (R91). -/
def actingIn (s : State) (g : Guard) (l : List Nat) : List Nat := l.filter (rdGuard s g)

/-- The w registers a word reads in a thread. -/
def WInfo.readsOf (info : WInfo) (t : Nat) : List Nat :=
  match info.readsIn with
  | some f => f t
  | none => info.reads

/-- A word issues for the threads `l` of warp `w` and is stopped by none of the rules that come before its own: the
windows are open (R93), the team has the privilege it needs (R106), its registers are below REGS (R102), a uniform word
acts in all or none (R92), what it names has landed (R95), its register lines are present (R119; which they are is
notes/assumptions/34.md), earlier words have committed where it waits for that (R68, R208), no acquire is in flight before an
access (R305), and nothing it reads is poisoned nor any fault pending that it reports (R196). -/
structure Issues (s : State) (info : WInfo) (w : Nat) (l : List Nat) : Prop where
  chosen : issuedSet s = some (w, l)
  windows : ∀ t ∈ l, windowsOpen (getTh s t) = true
  matrix : matOpen s w l = true
  privilege : info.privileged = true → (getTeam s (teamOfWarp s w)).priv ≠ 0
  quota : ∀ t ∈ l, ∀ r ∈ info.reads ++ info.writes, r < (getTh s t).nregs
  uniform : info.uniform = true → l = liveThreads s w ∧ (actingIn s info.guard l = [] ∨ actingIn s info.guard l = l)
  landed : ∀ t ∈ actingIn s info.guard l, meets (info.reads ++ info.writes) (flightW (getTh s t)) = false
  slanded : actingIn s info.guard l ≠ [] → meets (info.sreads ++ info.swrites) (flightS s w) = false
  present : ∀ x ∈ wordLines s info w l (actingIn s info.guard l), linePresent s x = true
  committed : info.committed = true → warpCommitted s w = true
  acquired : info.access = true → acqPending s w (actingIn s info.guard l) = false
  whole : ∀ t ∈ actingIn s info.guard l, meets (info.readsOf t) (getTh s t).poison = false
  swhole : actingIn s info.guard l ≠ [] → meets info.sreads (getWarp s w).spoison = false
  reported : info.reports = true → ∀ t ∈ actingIn s info.guard l, resolved (getTh s t) = true ∧ (getTh s t).pend = none

/-! ### What a committed word changes and leaves -/

/-- Equal threads but for the wait count (R45). -/
def Thread.sameButCount (x y : Thread) : Prop := { x with waitCount := y.waitCount } = y

/-- Equal threads but for what words change: PC, registers, predicates, loop counters, the operations queued, what the
thread waits for and the count of R45. -/
def Thread.sameButWord (x y : Thread) : Prop :=
  { x with
    pc := y.pc, regs := y.regs, poison := y.poison, dirty := y.dirty, preds := y.preds, lc0 := y.lc0, lc1 := y.lc1
    lc2 := y.lc2, mq := y.mq, wait := y.wait, waitCount := y.waitCount, denied := y.denied, refused := y.refused } = y

/-- Equal warps but for FLAGS, AMAX, the loop entries and the counts of R44 and R200. -/
def Warp.sameButWord (x y : Warp) : Prop :=
  { x with
    flags := y.flags, amax := y.amax, loops := y.loops, since := y.since, skid := y.skid, stopped := y.stopped } = y

/-- Equal teams but for the windows of class 0xB words (R93). -/
def Team.sameButWindows (x y : Team) : Prop := { x with matPend := y.matPend } = y

/-- Equal cores but for the deficit counters of R419. -/
def Core.sameButDeficit (x y : Core) : Prop := { x with deficit := y.deficit, lastChosen := y.lastChosen } = y

/-- Equal partitions but for their counters (R429, R431). -/
def Partition.sameButCounters (x y : Partition) : Prop := { x with meters := y.meters, pmc := y.pmc } = y

/-- What a committed word leaves as it is, against `s1`, the state with the word's own effects beyond its threads made:
memory and every other field of the state, but for the uses of register lines (R120); the threads that did not issue, but for
their wait counts; and of the rest all but what words change. -/
structure WordFrame (s1 s' : State) (w : Nat) (l : List Nat) : Prop where
  rest : { s' with turn := s1.turn, cores := s1.cores, warps := s1.warps, threads := s1.threads, teams := s1.teams,
                   parts := s1.parts, lineUses := s1.lineUses } = s1
  others : ∀ t, t ∉ l → (getTh s' t).sameButCount (getTh s1 t)
  issued : ∀ t ∈ l, (getTh s' t).sameButWord (getTh s1 t)
  warps : ∀ v, v ≠ w → getWarp s' v = getWarp s1 v
  warp : (getWarp s' w).sameButWord (getWarp s1 w)
  teams : ∀ k, (getTeam s' k).sameButWindows (getTeam s1 k)
  cores : ∀ c, (getCore s' c).sameButDeficit (getCore s1 c)
  parts : ∀ p, (getPart s' p).sameButCounters (getPart s1 p)

/-- Where a thread goes: its PC and loop counters. -/
def Thread.flow (x : Thread) : W64 × W32 × W32 × W32 := (x.pc, x.lc0, x.lc1, x.lc2)

/-- A thread gone on to the next word, by the end-word check of R180 against the entries of its warp. -/
def nextWord (loops : SMap LoopEntry) (x : Thread) : Thread := loopEnd loops x.pc (loopDepth x) x

/-- AMAX and FLAGS after values are folded in, one after another (R70, R71). -/
def amaxAfter (x : W32 × W32) (vs : List FVal) : W32 × W32 :=
  vs.foldl (fun x v => let r := amaxFold x.1 v; (r.1, x.2 ||| r.2)) x

/-- What a word has done once it has committed, against `base`, the state with its effects beyond its threads made; `out`
gives its effect in each acting thread. In an acting thread the w registers and predicates that `out` names hold its
values and the operations it names stand in the thread's queue; every other register and predicate is as before. FLAGS
and AMAX take what the acting threads raise and fold (R68, R71). A thread goes to the target of a jump, and otherwise on
by the check of R180. -/
structure WordDone (s base s' : State) (info : WInfo) (w : Nat) (l acting : List Nat) (out : Nat → Eff) : Prop where
  frame : WordFrame base s' w l
  turn : s'.turn = .idle
  regs : ∀ t ∈ acting, ∀ q, rdW (getTh s' t) q = (smFind? (out t).w.reverse q).getD (rdW (getTh base t) q)
  preds : ∀ t ∈ acting, ∀ q < 7, rdP (getTh s' t) q = (smFind? (out t).p.reverse q).getD (rdP (getTh base t) q)
  queued : ∀ t ∈ acting, (getTh s' t).mq =
    (getTh base t).mq.map (fun o => { o with la := o.la - 1 }) ++ (out t).mops.map (fun o => { o with la := info.la, seq := s.n })
  waits : ∀ t ∈ acting, (getTh s' t).wait = (match (out t).wait with | some x => some x | none => (getTh base t).wait)
  jump : ∀ t ∈ acting, ∀ p, (out t).jump = some p → (getTh s' t).flow = (p, (getTh base t).flow.2)
  next : ∀ t ∈ acting, (out t).jump = none → (getTh s' t).flow = (nextWord (getWarp base w).loops (getTh base t)).flow
  passive : ∀ t ∈ l, t ∉ acting → (∀ q, rdW (getTh s' t) q = rdW (getTh base t) q) ∧ (∀ q < 7, rdP (getTh s' t) q = rdP (getTh base t) q) ∧
    (getTh s' t).wait = (getTh base t).wait ∧ (getTh s' t).flow = (nextWord (getWarp base w).loops (getTh base t)).flow
  flags : ((getWarp s' w).amax, (getWarp s' w).flags) =
    amaxAfter ((getWarp base w).amax, (getWarp base w).flags ||| acting.foldl (fun f t => f ||| (out t).fl) 0)
      (acting.flatMap fun t => (out t).amax)

/-- A row of a table of words: what the issue of the word names, the conditions of its own under which it takes effect,
the state with its effects beyond its threads made, and its effect in each acting thread (warp, issued threads, acting
threads, thread). -/
structure WordRow where
  info : State → WInfo
  able : State → Nat → List Nat → List Nat → Prop := fun _ _ _ _ => True
  makes : State → Nat → List Nat → List Nat → State := fun s _ _ _ => s
  out : State → Nat → List Nat → List Nat → Nat → Eff := fun _ _ _ _ _ => {}

/-- Where a word of a row issues: if it acts in some thread, the conditions of its own hold and the register lines that its effects
write are present, `exec` answers the next state in which it has done what the row says; and if its guard holds in no issued thread it does nothing but go to the next word
(R91). -/
def CompletesAt (i : Instr) (r : WordRow) (s : State) (w : Nat) (l : List Nat) : Prop :=
  (actingIn s (r.info s).guard l ≠ [] → r.able s w l (actingIn s (r.info s).guard l) →
    (∀ x ∈ effLines w (actingIn s (r.info s).guard l) (r.out s w l (actingIn s (r.info s).guard l)), linePresent s x = true) →
    ∃ s', exec i s = .next s' ∧
      WordDone s (r.makes s w l (actingIn s (r.info s).guard l)) s' (r.info s) w l (actingIn s (r.info s).guard l)
        (r.out s w l (actingIn s (r.info s).guard l))) ∧
  (actingIn s (r.info s).guard l = [] →
    ∃ s', exec i s = .next s' ∧ WordDone s s s' (r.info s) w l [] (fun _ => {}))

/-- Every word of a table completes, whenever it issues. -/
def Completes (row : Instr → Option WordRow) : Prop :=
  ∀ i r, row i = some r → ∀ s w l, Issues s (r.info s) w l → CompletesAt i r s w l

end Sys2Proof.Machine
end

