-- ==== Sys2Proof/Safety/Memory.lean ====
section
/-! DEFINITION. What the events of the memory pipeline and of the waits do, as rules: the event, the conditions on the
state under which it takes effect, and the next state. -/
namespace Sys2Proof.Machine

/-- Every rule of a family is a completion: where its conditions hold, `exec` answers the next state it names. -/
def Complete (rule : Instr → State → State → Prop) : Prop := ∀ i s s', rule i s s' → exec i s = .next s'

/-! ### Operations of a thread's queue (R226, R236, R237, R363) -/

/-- The operation at place `j` of a thread's queue on global memory may perform at `p`: it stands ready, it is aligned,
its page is in the translation cache, `p` exists, and its core's line holds the right it needs. A kick page needs no
right. -/
structure MayPerform (s : State) (t j : Nat) (o : MemOp) (e : TlbEntry) (p : Nat) : Prop where
  queued : getMop s t j = some o
  ready : o.st = .ready
  core : coreOf t < 1024
  glob : o.glob = true
  aligned : o.addr % mopSize o.kind = 0
  hit : ∃ pa, mopTrans s t o = .hit e pa ∧ p = transPa s e pa
  right : e.mt = 1 ∨
    (paOk p = true ∧ (inWindow p = true → windowBacked s p = true) ∧ (mopReads o.kind = false → migrHolds s p = false) ∧
      rightOf s (p / 128) (coreOf t) (!mopReads o.kind) = .have)

/-- The operation at place `j` of a thread's queue on a scratchpad may perform. -/
structure AtPort (s : State) (t j : Nat) (o : MemOp) : Prop where
  queued : getMop s t j = some o
  ready : o.st = .ready
  core : coreOf t < 1024
  local' : o.glob = false
  aligned : o.addr % mopSize o.kind = 0

/-- What an operation reads passes the check of its blocks (R260, R402, R449). -/
def ReadsWell (s : State) (o : MemOp) (e : TlbEntry) (p : Nat) : Prop := readBad (meterFetch s e p) e p (mopSize o.kind) = none

/-- The rules of STORE_BUFFER_DRAIN, LOAD_RETURN and ATOMIC_PERFORM. -/
inductive MemoryRule : Instr → State → State → Prop where
  /-- R236: the oldest store of a thread leaves its buffer and writes its bytes at its address. -/
  | store (s : State) (t : Nat) (o : MemOp) (e : TlbEntry) (p : Nat) (bs : List Byte) (may : MayPerform s t 0 o e p)
      (kind : o.kind = .store bs) (lane : lowerLaneFirst s t o = false)
      (well : e.mt ≠ 1 → eccBad (meterFetch s e p) p bs.length = false) :
      MemoryRule (.storeBufferDrain t) s (writeThrough (dropMop (meterFetch s e p) t 0 o) e p bs)
  /-- R260: a store that must read the rest of a block with an uncorrectable error writes nothing and faults late. That it does:
  notes/assumptions/59.md. -/
  | storeBad (s : State) (t : Nat) (o : MemOp) (e : TlbEntry) (p : Nat) (bs : List Byte) (may : MayPerform s t 0 o e p)
      (kind : o.kind = .store bs) (lane : lowerLaneFirst s t o = false) (plain : e.mt ≠ 1)
      (bad : eccBad (meterFetch s e p) p bs.length = true) :
      MemoryRule (.storeBufferDrain t) s (mopFault (noteBad (meterFetch s e p) e p bs.length) t 0 o ccUncorrectable)
  /-- R226, R384: a store whose line does not hold the right asks the home for it, and waits. -/
  | storeAsks (s : State) (t : Nat) (o : MemOp) (e : TlbEntry) (pa ev : Nat) (bs : List Byte) (queued : getMop s t 0 = some o)
      (ready : o.st = .ready) (core : coreOf t < 1024) (glob : o.glob = true) (aligned : o.addr % mopSize o.kind = 0)
      (hit : mopTrans s t o = .hit e pa) (plain : e.mt ≠ 1) (exists' : paOk (transPa s e pa) = true)
      (backed : inWindow (transPa s e pa) = true → windowBacked s (transPa s e pa) = true)
      (still : migrHolds s (transPa s e pa) = false) (kind : o.kind = .store bs) (lane : lowerLaneFirst s t o = false)
      (right : rightOf s (transPa s e pa / 128) (coreOf t) true = .ask ev) :
      MemoryRule (.storeBufferDrain t) s (askHome s t 0 ev (transPa s e pa / 512) (transPa s e pa / 128))
  /-- R260: an address that is not aligned to the access faults late. -/
  | misaligned (s : State) (t : Nat) (o : MemOp) (bs : List Byte) (queued : getMop s t 0 = some o) (ready : o.st = .ready)
      (core : coreOf t < 1024) (glob : o.glob = true) (bad : o.addr % mopSize o.kind ≠ 0) (kind : o.kind = .store bs)
      (lane : lowerLaneFirst s t o = false) :
      MemoryRule (.storeBufferDrain t) s (mopFault s t 0 o ccAlign)
  /-- R364, R365: an access whose page is not in its core's cache waits for a walk, unless the walk would refuse it. -/
  | walks (s : State) (t : Nat) (o : MemOp) (bs : List Byte) (queued : getMop s t 0 = some o) (ready : o.st = .ready)
      (core : coreOf t < 1024) (glob : o.glob = true) (aligned : o.addr % mopSize o.kind = 0) (kind : o.kind = .store bs)
      (lane : lowerLaneFirst s t o = false) (miss : mopTrans s t o = .miss)
      (absent : walk s (getTeam s (teamOf s t)).asid o.addr .w = .absent) :
      MemoryRule (.storeBufferDrain t) s
        (askWalk (corePmc (setMopSt s t 0 .walking) (coreOf t) 4 1) (getTeam s (teamOf s t)).asid (o.addr / 4096) 3
          (.core (coreOf t)))
  /-- R363, R430, R441: one whose walk refuses it is a miss that faults late; a broken entry is in the security log. -/
  | walkRefuses (s : State) (t c : Nat) (o : MemOp) (bs : List Byte) (logged : Bool) (queued : getMop s t 0 = some o)
      (ready : o.st = .ready) (core : coreOf t < 1024) (glob : o.glob = true) (aligned : o.addr % mopSize o.kind = 0)
      (kind : o.kind = .store bs) (lane : lowerLaneFirst s t o = false) (miss : mopTrans s t o = .miss)
      (refused : walk s (getTeam s (teamOf s t)).asid o.addr .w = .fault c logged) :
      MemoryRule (.storeBufferDrain t) s
        (let s1 := corePmc s (coreOf t) 4 1
         mopFault (if logged then logWalk s1 (getTeam s (teamOf s t)).asid o.addr (mopFaultKind o.kind) else s1) t 0 o c)
  /-- R216, R264: a store to the plain window of a scratchpad. -/
  | storePlain (s : State) (t k phys off : Nat) (o : MemOp) (bs : List Byte) (port : AtPort s t 0 o)
      (kind : o.kind = .store bs) (lane : lowerLaneFirst s t o = false)
      (place : spResolve s (teamOf s t) o.addr (mopSize o.kind) = .plain k phys off) (well : spMeets s t o (k / 4) phys = false) :
      MemoryRule (.storeBufferDrain t) s (spWritePlain (dropMop s t 0 o) (k / 4) phys bs)
  /-- R260: a store of part of a granule with an uncorrectable error faults late (notes/assumptions/59.md). -/
  | storePlainBad (s : State) (t k phys off : Nat) (o : MemOp) (bs : List Byte) (port : AtPort s t 0 o)
      (kind : o.kind = .store bs) (lane : lowerLaneFirst s t o = false)
      (place : spResolve s (teamOf s t) o.addr (mopSize o.kind) = .plain k phys off) (bad : spMeets s t o (k / 4) phys = true) :
      MemoryRule (.storeBufferDrain t) s (mopFault s t 0 o ccUncorrectable)
  /-- R219, R221: a store to a superstep window. -/
  | storeStep (s : State) (t k off : Nat) (o : MemOp) (bs : List Byte) (port : AtPort s t 0 o) (kind : o.kind = .store bs)
      (lane : lowerLaneFirst s t o = false) (place : spResolve s (teamOf s t) o.addr (mopSize o.kind) = .step k off) :
      MemoryRule (.storeBufferDrain t) s (stepStore (dropMop s t 0 o) t k off o.step bs)
  /-- R222: `stf` writes a granule and fills it, once no waiter that was served before it has still to perform (R223). -/
  | stf (s : State) (t k phys off : Nat) (o : MemOp) (bs : List Byte) (port : AtPort s t 0 o)
      (kind : o.kind = .stf false bs) (lane : lowerLaneFirst s t o = false)
      (place : spResolve s (teamOf s t) o.addr (mopSize o.kind) = .plain k phys off)
      (served : granServed s (k / 4) phys = false) :
      MemoryRule (.storeBufferDrain t) s
        (fillGranule (spWritePlain (granLeave (dropMop s t 0 o) (k / 4) (phys / 16) t) (k / 4) phys bs) (k / 4) phys)
  /-- R223: one that comes after a waiter which has been served and has still to perform waits. -/
  | stfAfter (s : State) (t k phys off : Nat) (o : MemOp) (bs : List Byte) (port : AtPort s t 0 o)
      (kind : o.kind = .stf false bs) (lane : lowerLaneFirst s t o = false)
      (place : spResolve s (teamOf s t) o.addr (mopSize o.kind) = .plain k phys off)
      (served : granServed s (k / 4) phys = true) :
      MemoryRule (.storeBufferDrain t) s s
  /-- R275: a range maintenance operation starts, with a request for every grain it has lines of. -/
  | maintenance (s : State) (t : Nat) (o : MemOp) (k : MaintKind) (len : Nat) (queued : getMop s t 0 = some o)
      (kind : o.kind = .maint k len) (ready : o.st = .ready) :
      MemoryRule (.storeBufferDrain t) s (startMaint s t o k len)
  /-- R237, R257: the oldest load of a thread whose store buffer is empty reads its registers. -/
  | load (s : State) (t : Nat) (o : MemOp) (e : TlbEntry) (p : Nat) (w : LdW) (rlx : Bool) (dst : List Nat)
      (may : MayPerform s t 0 o e p) (kind : o.kind = .load w rlx dst) (well : ReadsWell s o e p) :
      MemoryRule (.loadReturn t) s
        (mopWrite (meterFetch s e p) t 0 o (loadRegs w (readThrough (meterFetch s e p) e p (mopSize o.kind))))
  /-- R23, R260, R402: a load that meets poison or fails its tag faults late with INTEGRITY, and one that meets an
  uncorrectable error with UNCORRECTABLE; a block that failed its tag is poisoned. -/
  | loadBad (s : State) (t c : Nat) (o : MemOp) (e : TlbEntry) (p : Nat) (w : LdW) (rlx : Bool) (dst : List Nat)
      (may : MayPerform s t 0 o e p) (kind : o.kind = .load w rlx dst)
      (bad : readBad (meterFetch s e p) e p (mopSize o.kind) = some c) :
      MemoryRule (.loadReturn t) s (mopFault (noteBad (meterFetch s e p) e p (mopSize o.kind)) t 0 o c)
  /-- R237: a `.rlx` load takes its bytes from the thread's own buffered store. -/
  | forwarded (s : State) (t j : Nat) (o : MemOp) (w : LdW) (dst : List Nat) (bs : List Byte)
      (oldest : (getTh s t).mq.findIdx? isLoad = some j) (later : 0 < j) (queued : getMop s t j = some o) (ready : o.st = .ready)
      (kind : o.kind = .load w true dst) (past : ((getTh s t).mq.take j).all mayPass = true)
      (aligned : o.addr % mopSize o.kind = 0)
      (found : forward s t o ((getTh s t).mq.take j) = .bytes bs) :
      MemoryRule (.loadReturn t) s (mopWrite s t j o (loadRegs w bs))
  /-- R216, R264: a load from the plain window of a scratchpad. -/
  | loadPlain (s : State) (t k phys off : Nat) (o : MemOp) (w : LdW) (rlx : Bool) (dst : List Nat)
      (port : AtPort s t 0 o) (kind : o.kind = .load w rlx dst)
      (place : spResolve s (teamOf s t) o.addr (mopSize o.kind) = .plain k phys off) (well : spMeets s t o (k / 4) phys = false) :
      MemoryRule (.loadReturn t) s (mopWrite s t 0 o (loadRegs w (spReadPlain s (k / 4) phys (mopSize o.kind))))
  /-- R260: a load that meets an uncorrectable error of a scratchpad faults late. -/
  | loadPlainBad (s : State) (t k phys off : Nat) (o : MemOp) (w : LdW) (rlx : Bool) (dst : List Nat)
      (port : AtPort s t 0 o) (kind : o.kind = .load w rlx dst)
      (place : spResolve s (teamOf s t) o.addr (mopSize o.kind) = .plain k phys off) (bad : spMeets s t o (k / 4) phys = true) :
      MemoryRule (.loadReturn t) s (mopFault s t 0 o ccUncorrectable)
  /-- R218: a load from a superstep window reads the active half. -/
  | loadStep (s : State) (t k off : Nat) (o : MemOp) (w : LdW) (rlx : Bool) (dst : List Nat) (port : AtPort s t 0 o)
      (kind : o.kind = .load w rlx dst) (place : spResolve s (teamOf s t) o.addr (mopSize o.kind) = .step k off)
      (well : spBad s (k / 4) (spActive (getTeam s k) off) (mopSize o.kind) = false) :
      MemoryRule (.loadReturn t) s (mopWrite s t 0 o (loadRegs w (spReadStep s k off (mopSize o.kind))))
  /-- R149: a `sld` writes its s register once it stands first in the queue of each thread that issued it. -/
  | sld (s : State) (t : Nat) (o : MemOp) (e : TlbEntry) (p d : Nat) (may : MayPerform s t 0 o e p) (kind : o.kind = .sld d)
      (lead : (sldThreads s t o).head? = some t)
      (first : ∀ u ∈ sldThreads s t o, ∃ x, getMop s u 0 = some x ∧ x.kind = o.kind ∧ x.step = o.step) (well : ReadsWell s o e p) :
      MemoryRule (.loadReturn t) s
        (modWarp (dropMop (meterFetch s e p) t 0 o) (warpOf t) fun w =>
          wrS w d (BitVec.ofNat 64 (natOfBytes (readThrough (meterFetch s e p) e p (mopSize o.kind)))))
  /-- R268 to R271: an atomic reads its location, writes the new value where there is one, and gives the old. -/
  | atomic (s : State) (t : Nat) (o : MemOp) (e : TlbEntry) (p : Nat) (op : AtomOp) (wide : Bool) (ord : AtomOrd) (sc : Scope)
      (dst : List Nat) (b cmp : Nat) (may : MayPerform s t 0 o e p) (kind : o.kind = .atomic op wide ord sc dst b cmp)
      (lane : lowerLaneFirst s t o = false) (held : atomHeld s t o = false) (well : ReadsWell s o e p) :
      MemoryRule (.atomicPerform t) s
        (let s1 := meterFetch s e p
         let old := natOfBytes (readThrough s1 e p (mopSize o.kind))
         mopWrite (match atomNew op wide old b cmp with
           | some v => writeThrough s1 e p (bytesOfNat (mopSize o.kind) v)
           | none => s1) t 0 o (valRegs wide old))
  /-- R274: a reduction writes the new value and gives nothing. -/
  | reduction (s : State) (t : Nat) (o : MemOp) (e : TlbEntry) (p : Nat) (op : AtomOp) (wide : Bool) (ord : AtomOrd) (sc : Scope)
      (b v : Nat) (may : MayPerform s t 0 o e p) (kind : o.kind = .red op wide ord sc b) (lane : lowerLaneFirst s t o = false)
      (held : atomHeld s t o = false) (well : ReadsWell s o e p)
      (new : atomNew op wide (natOfBytes (readThrough (meterFetch s e p) e p (mopSize o.kind))) b 0 = some v) :
      MemoryRule (.atomicPerform t) s
        (writeThrough (dropMop (meterFetch s e p) t 0 o) e p (bytesOfNat (mopSize o.kind) v))
  /-- R260: an atomic that meets poison, a failed tag or an uncorrectable error writes nothing and faults late. -/
  | atomicBad (s : State) (t c : Nat) (o : MemOp) (e : TlbEntry) (p : Nat) (op : AtomOp) (wide : Bool) (ord : AtomOrd) (sc : Scope)
      (dst : List Nat) (b cmp : Nat) (may : MayPerform s t 0 o e p) (kind : o.kind = .atomic op wide ord sc dst b cmp)
      (lane : lowerLaneFirst s t o = false) (held : atomHeld s t o = false)
      (bad : readBad (meterFetch s e p) e p (mopSize o.kind) = some c) :
      MemoryRule (.atomicPerform t) s (mopFault (noteBad (meterFetch s e p) e p (mopSize o.kind)) t 0 o c)
  /-- R260: so does a reduction. -/
  | reductionBad (s : State) (t c : Nat) (o : MemOp) (e : TlbEntry) (p : Nat) (op : AtomOp) (wide : Bool) (ord : AtomOrd)
      (sc : Scope) (b : Nat) (may : MayPerform s t 0 o e p) (kind : o.kind = .red op wide ord sc b)
      (lane : lowerLaneFirst s t o = false) (held : atomHeld s t o = false)
      (bad : readBad (meterFetch s e p) e p (mopSize o.kind) = some c) :
      MemoryRule (.atomicPerform t) s (mopFault (noteBad (meterFetch s e p) e p (mopSize o.kind)) t 0 o c)
  /-- R268: an atomic on a scratchpad's plain window. -/
  | atomicPlain (s : State) (t k phys off : Nat) (o : MemOp) (op : AtomOp) (wide : Bool) (ord : AtomOrd) (sc : Scope)
      (dst : List Nat) (b cmp : Nat) (port : AtPort s t 0 o) (kind : o.kind = .atomic op wide ord sc dst b cmp)
      (lane : lowerLaneFirst s t o = false) (held : atomHeld s t o = false)
      (place : spResolve s (teamOf s t) o.addr (mopSize o.kind) = .plain k phys off) (well : spMeets s t o (k / 4) phys = false) :
      MemoryRule (.atomicPerform t) s
        (let old := natOfBytes (spReadPlain s (k / 4) phys (mopSize o.kind))
         mopWrite (match atomNew op wide old b cmp with
           | some v => spWritePlain s (k / 4) phys (bytesOfNat (mopSize o.kind) v)
           | none => s) t 0 o (valRegs wide old))

/-- A full granule is read, left or emptied (R222). -/
def takeGranule (s : State) (t c phys : Nat) (o : MemOp) (take : Bool) : State :=
  let bs := spReadPlain s c phys 16
  let s1 := granLeave (mopWrite s t 0 o ((rangeFrom 0 4).map fun i =>
    (BitVec.ofNat 32 (natOfBytes ((bs.drop (4 * i)).take 4)) : W32))) c (phys / 16) t
  if take then setFull s1 c phys false else s1

/-- A barrier's phase has completed: the next one has begun, and every thread that waited for it goes on (R277). -/
def phaseDone (s : State) (k b : Nat) : State :=
  (barMembers s k b).foldl (fun s' t => modTh s' t (barWake b (barPhase s k b))) (nextPhase s k b)

/-- The bytes a demoted team counts again once its request is granted (R125). -/
def growOwn (s : State) (k : Nat) : Nat :=
  if (getTeam s k).demoted then ((teamThreads s k).map fun t => 4 * (getTh s t).nregs).foldl (· + ·) 0 else 0

/-- The teams of a core whose lines count: those not demoted with a warp that runs (R121, R125). -/
def countedTeams (s : State) (core : Nat) : List Nat :=
  (coreTeams s core).filter fun x => !(getTeam s x).demoted && (teamWarps s x).any fun w => bindRun (getWarp s w).bind

/-- The rules of the waits of a thread (R47): each wait ends when what it waits for holds. -/
inductive WaitRule : Instr → State → State → Prop where
  /-- R222, R223: a waiting `ldf` whose granule is full, and whose turn it is, reads it; `.take` empties it. -/
  | ldf (s : State) (t k phys off : Nat) (o : MemOp) (take : Bool) (dst : List Nat) (queued : getMop s t 0 = some o)
      (kind : o.kind = .ldf take dst) (waits : o.st = .blocked) (aligned : o.addr % 16 = 0)
      (place : spResolve (setMopSt s t 0 .ready) (teamOf (setMopSt s t 0 .ready) t) o.addr 16 = .plain k phys off)
      (full : granFull (setMopSt s t 0 .ready) (k / 4) phys = true)
      (turn : granTurn (setMopSt s t 0 .ready) (k / 4) (phys / 16) t = true)
      (well : spBad (setMopSt s t 0 .ready) (k / 4) phys 16 = false) :
      WaitRule (.ldfWake t) s (takeGranule (setMopSt s t 0 .ready) t (k / 4) phys { o with st := .ready } take)
  /-- R222, R223: a waiting `stf.wait` whose granule is empty, and whose turn it is, fills it. -/
  | stf (s : State) (t k phys off : Nat) (o : MemOp) (bs : List Byte) (queued : getMop s t 0 = some o)
      (kind : o.kind = .stf true bs) (waits : o.st = .blocked) (aligned : o.addr % mopSize o.kind = 0)
      (place : spResolve (setMopSt s t 0 .ready) (teamOf (setMopSt s t 0 .ready) t) o.addr (mopSize o.kind) = .plain k phys off)
      (empty : granFull (setMopSt s t 0 .ready) (k / 4) phys = false)
      (turn : granTurn (setMopSt s t 0 .ready) (k / 4) (phys / 16) t = true) :
      WaitRule (.stfWaitWake t) s
        (fillGranule (spWritePlain (granLeave (dropMop (setMopSt s t 0 .ready) t 0 { o with st := .ready }) (k / 4) (phys / 16) t)
          (k / 4) phys bs) (k / 4) phys)
  /-- R280: `mbar.wait` ends once the object's generation is no longer the one it names. -/
  | mbar (s : State) (t sa gen c phys : Nat) (org : W64) (waits : (getTh s t).wait = some (.mbar sa gen org))
      (object : spObject s (teamOf s t) sa = .inr (c, phys)) (advanced : (mbRead s c phys).gen.toNat ≠ gen) :
      WaitRule (.mbarWaitWake t) s (modTh s t fun th => { th with wait := none })
  /-- R176: `nap` ends on an event it names, or at its deadline: d shows which. -/
  | nap (s : State) (t deadline mask seen d : Nat) (waits : (getTh s t).wait = some (.nap deadline mask seen d))
      (due : seen ≠ 0 ∨ deadline ≤ s.clock) :
      WaitRule (.napWake t) s
        (modTh s t fun th =>
          { wrW th d (BitVec.ofNat 32 ((if deadline ≤ s.clock then 2 ^ 31 else 0) + seen)) with wait := none, waitCount := 0 })
  /-- R277: the last expected arrival completes a superstep barrier's phase; every thread that waits for it goes on. -/
  | swap (s : State) (core tslot : Nat) (b : Fin 10) (live : (getTeam s (core * 4 + tslot)).live = true)
      (full : phaseFull s (core * 4 + tslot) b.val = true) (step : b.val = 9) :
      WaitRule (.barrierPhaseComplete core tslot b) s (phaseDone s (core * 4 + tslot) b.val)
  /-- R176, R277: a phase of a team or grove barrier, whose end is an event of `nap` as well. -/
  | barrier (s : State) (core tslot : Nat) (b : Fin 10) (live : (getTeam s (core * 4 + tslot)).live = true)
      (full : phaseFull s (core * 4 + tslot) b.val = true) (plain : b.val ≤ 8) :
      WaitRule (.barrierPhaseComplete core tslot b) s
        (napEvent (phaseDone s (core * 4 + tslot) b.val) 2 fun t =>
          (barMembers s (core * 4 + tslot) b.val).any fun u =>
            decide (teamOf s t = teamOf s u))
  /-- R280: `mbar.wait` on an address that names no object any more faults late, as a load. -/
  | mbarFault (s : State) (t sa gen c : Nat) (org : W64) (waits : (getTh s t).wait = some (.mbar sa gen org))
      (refused : spObject s (teamOf s t) sa = .inl c) :
      WaitRule (.mbarWaitWake t) s
        (lateFault (modTh s t fun th => { th with wait := none }) t c 2 (BitVec.ofNat 64 sa) org [] none 0)
  /-- R331, R421: a waiting `deq` takes an item into its eight registers; its queue may take a hardware slot. -/
  | deq (s s1 : State) (t va d : Nat) (org : W64) (item : List Byte) (waits : (getTh s t).wait = some (.deq va d org))
      (page : (getTh s t).pageWait = none) (allowed : (getTh s t).refused = none)
      (took : deqTry (mapQueue s t va) t va = .done s1 item) :
      WaitRule (.deqTake t) s (modTh s1 t fun th => deqOver ((itemRegs d item).foldl (fun th x => wrW th x.1 x.2) th))
  /-- R198, R331: one that meets a page its core's cache lacks waits for it. -/
  | deqPage (s : State) (t va d v : Nat) (org : W64) (waits : (getTh s t).wait = some (.deq va d org))
      (page : (getTh s t).pageWait = none) (allowed : (getTh s t).refused = none)
      (miss : deqTry (mapQueue s t va) t va = .miss v) :
      WaitRule (.deqTake t) s (needPage s t v 4)
  /-- R260, R331: one that meets a fault ends late with it, at the VA it met. -/
  | deqFault (s : State) (t va d c v : Nat) (org : W64) (waits : (getTh s t).wait = some (.deq va d org))
      (page : (getTh s t).pageWait = none) (allowed : (getTh s t).refused = none)
      (bad : deqTry (mapQueue s t va) t va = .fault c v) :
      WaitRule (.deqTake t) s
        (lateFault (modTh (noteQueue s t v .w) t deqOver) t c 4 (BitVec.ofNat 64 v) org (groupRegs d 8) none 0)
  /-- R213: a wait whose page `fqack` denied ends in NOT_MAPPED at the VA it needed, its destinations poisoned. -/
  | deqDenied (s : State) (t va d v : Nat) (org : W64) (waits : (getTh s t).wait = some (.deq va d org))
      (page : (getTh s t).pageWait = none) (denied : (getTh s t).refused = some v) :
      WaitRule (.deqTake t) s
        (lateFault (modTh s t deqOver) t ccNotMapped 4 (BitVec.ofNat 64 v) org (groupRegs d 8) none 0)
  /-- R331: an `enq`, first in its thread's queue, reserves its item once there is room, writes it and publishes it. -/
  | enq (s s1 : State) (t hdr : Nat) (o : MemOp) (item none' : List Byte) (queued : getMop s t 0 = some o)
      (kind : o.kind = .enq hdr item) (ready : o.st = .ready) (lane : lowerLaneFirst s t o = false)
      (put : enqTry s t hdr item = .done s1 none') :
      WaitRule (.enqReservation t) s (dropMop s1 t 0 o)
  /-- R331: one that meets a page its core's cache lacks waits for its walk. -/
  | enqPage (s : State) (t hdr v : Nat) (o : MemOp) (item : List Byte) (queued : getMop s t 0 = some o)
      (kind : o.kind = .enq hdr item) (ready : o.st = .ready) (lane : lowerLaneFirst s t o = false)
      (miss : enqTry s t hdr item = .miss v) :
      WaitRule (.enqReservation t) s
        (askWalk (corePmc (modTh s t fun th => { th with mq := th.mq.set 0 { o with addr := v, st := .walking } })
          (coreOf t) 4 1) (getTeam s (teamOf s t)).asid (v / 4096) 4 (.core (coreOf t)))
  /-- R260, R331: one that meets a fault ends late with it, at the VA it met. -/
  | enqFault (s : State) (t hdr c v : Nat) (o : MemOp) (item : List Byte) (queued : getMop s t 0 = some o)
      (kind : o.kind = .enq hdr item) (ready : o.st = .ready) (lane : lowerLaneFirst s t o = false)
      (bad : enqTry s t hdr item = .fault c v) :
      WaitRule (.enqReservation t) s (mopFault (noteQueue s t v .w) t 0 { o with addr := v } c)
  /-- R48: where it would wait for room and its team has been ended, it is abandoned. -/
  | enqEnded (s s1 : State) (t hdr : Nat) (o : MemOp) (item : List Byte) (queued : getMop s t 0 = some o)
      (kind : o.kind = .enq hdr item) (ready : o.st = .ready) (lane : lowerLaneFirst s t o = false)
      (full : enqTry s t hdr item = .wait s1) (ended : (getTeam s (teamOf s t)).ended = true) :
      WaitRule (.enqReservation t) s (dropMop s t 0 o)
  /-- R333: the oldest request held for room is posted once the partition's queue has some, and takes its TAG then; those of
  threads whose meadow is swapped out are passed over (R422). -/
  | svcPost (s s1 : State) (p t d buf tag : Nat) (func : W32)
      (held : (getPart s p).svcWait.find? (fun t => decide (coreOf t < 1024)) = some t)
      (waits : (getTh s t).wait = some (.svc none d buf func)) (room : svcPostTo s p t buf func = some (s1, tag)) :
      WaitRule (.svcPost p) s
        (modTh (modPart s1 p fun y => { y with svcWait := (getPart s p).svcWait.erase t }) t fun th =>
          { th with wait := some (.svc (some tag) d buf func) })
  /-- R332: the reply to a pending request writes its status to d. -/
  | reply (s : State) (p : Nat) (tag : BitVec 64) (status : BitVec 32) (r : SvcReq) (d buf : Nat) (func : W32) (x : Option Nat)
      (up : vfUp s p = true) (own : status ≠ svcRefused ∧ status ≠ svcAborted)
      (pending : (getPart s p).svcPend.find? (fun r => decide (r.tag = tag.toNat)) = some r)
      (waits : (getTh s r.thread).wait = some (.svc x d buf func)) :
      WaitRule (.replyDoorbell p tag status) s
        (modTh (modPart s p fun y => { y with svcPend := y.svcPend.filter fun q => decide (q.tag ≠ r.tag) }) r.thread fun th =>
          wakeTh (wrW th d status))
  /-- R332: a reply whose status is reserved, or that comes while the endpoint is down, is discarded. -/
  | replyReserved (s : State) (p : Nat) (tag : BitVec 64) (status : BitVec 32) (works : vfErred s p = false)
      (bad : vfUp s p = false ∨ status = svcRefused ∨ status = svcAborted) :
      WaitRule (.replyDoorbell p tag status) s s
  /-- R332: a reply whose TAG names no pending request is discarded. -/
  | replyUnknown (s : State) (p : Nat) (tag : BitVec 64) (status : BitVec 32) (works : vfErred s p = false)
      (none' : (getPart s p).svcPend.find? (fun r => decide (r.tag = tag.toNat)) = none) :
      WaitRule (.replyDoorbell p tag status) s s
  /-- R19, R441: a doorbell of a VF whose interface is in ERROR is answered Unsupported Request, and the security log says so
  (notes/assumptions/29.md). -/
  | replyError (s : State) (p : Nat) (tag : BitVec 64) (status : BitVec 32) (up : pf0Up s = true) (range : p < 64)
      (state : getTdi s (p + 1) = .error) : WaitRule (.replyDoorbell p tag status) s (answerUnsupported s p)
  /-- R275: a maintenance operation ends once every write-back and invalidation of it has landed. -/
  | maintenance (s : State) (i : Nat) (m : Maint) (at' : s.maints[i]? = some m) (landed : m.grains = some []) :
      WaitRule (.maintenanceComplete i) s { s with maints := s.maints.eraseIdx i }
  /-- R124: the oldest `rgrow` is granted when it fits: its threads have the new registers. A requesting team that was
  demoted counts its whole reservation again. -/
  | rgrow (s : State) (core : Nat) (g : GrowReq) (rest : List GrowReq) (core' : core < 1024) (runs : s.boot.hazelHalted = false)
      (oldest : (getCore s core).grows = g :: rest)
      (fits : reservation s core + growOwn s (core * 4 + g.tslot) + growAdds s g ≤ 262144) :
      WaitRule (.rgrowGrant core) s (grantGrow s core g)
  /-- R124: one whose team is the only one that counts is granted whatever it adds. -/
  | rgrowAlone (s : State) (core : Nat) (g : GrowReq) (rest : List GrowReq) (core' : core < 1024) (runs : s.boot.hazelHalted = false)
      (oldest : (getCore s core).grows = g :: rest) (alone : countedTeams s core = [core * 4 + g.tslot]) :
      WaitRule (.rgrowGrant core) s (grantGrow s core g)
  /-- R125: where every resident team waits in `rgrow` and the oldest does not fit, the lowest team by PRIO, the last placed
  among equals, is demoted, and the oldest is granted. -/
  | rgrowDemotes (s : State) (core v : Nat) (g : GrowReq) (rest : List GrowReq) (core' : core < 1024)
      (runs : s.boot.hazelHalted = false) (oldest : (getCore s core).grows = g :: rest)
      (excess : 262144 < reservation s core + growOwn s (core * 4 + g.tslot) + growAdds s g)
      (others : countedTeams s core ≠ [core * 4 + g.tslot])
      (all : (coreTeams s core).all (fun x => (getCore s core).grows.any fun y => decide (core * 4 + y.tslot = x)) = true)
      (lowest : minBy (fun x => (getTeam s x).prio * 2 ^ 64 + (2 ^ 64 - 1 - (getTeam s x).placed)) (coreTeams s core) = some v) :
      WaitRule (.rgrowGrant core) s (grantGrow (modTeam s v fun x => { x with demoted := true }) core g)
  /-- R124, R125: where no team is resident any more, the oldest is granted. -/
  | rgrowNone (s : State) (core : Nat) (g : GrowReq) (rest : List GrowReq) (core' : core < 1024) (runs : s.boot.hazelHalted = false)
      (oldest : (getCore s core).grows = g :: rest) (none' : coreTeams s core = []) :
      WaitRule (.rgrowGrant core) s (grantGrow s core g)
  /-- R119, R429: a line of w registers is filled, and counted at its core; an instruction all of whose lines are present issues
  again. What a line is numbered: notes/assumptions/44.md. -/
  | lineFill (s : State) (core t line : Nat) (room : residentLines s core < 8192) (core' : core < 1024) (mine : coreOf t = core)
      (thread : t < 0x200000) (small : line < 32) (runs : (getTh s t).exited = false) (out : (getTh s t).lines.getLsbD line = false)
      (granted : line * 8 < (getTh s t).nregs) :
      WaitRule (.registerLineFill core (t * 32 + line)) s
        (corePmc (fillLine s (.w t line)) core 3 1)
  /-- R118, R119: any other line: of a warp block, of a lane record or of a team block. -/
  | anyLineFill (s : State) (core num : Nat) (room : residentLines s core < 8192) (core' : core < 1024)
      (there : lineExists s core (lineOfNum num) = true) (out : linePresent s (lineOfNum num) = false) :
      WaitRule (.registerLineFill core num) s
        (corePmc (fillLine s (lineOfNum num)) core 3 1)
  /-- R120: a full cache first frees the first of its lines in the order of R120, which is written to its image when dirty.
  What counts as evictable and as a use: notes/assumptions/34.md. -/
  | lineEvicts (s : State) (core num : Nat) (l : RegLine) (full : 8192 ≤ residentLines s core) (core' : core < 1024)
      (first : victim s core (lineOfNum num) = some l) (there : lineExists (evict s l) core (lineOfNum num) = true)
      (out : linePresent (evict s l) (lineOfNum num) = false) :
      WaitRule (.registerLineFill core num) s
        (corePmc (fillLine (evict s l) (lineOfNum num)) core 3 1)

/-- The rules of the end of a walk and of the fault queues (R329, R365). -/
inductive WalkRule : Instr → State → State → Prop where
  /-- R363 to R365: a walk answers everything that waits for it: threads, copy jobs and query contexts. -/
  | done (s : State) (i : Nat) (w : Walk) (at' : s.walks[i]? = some w) (fresh : w.stale = false)
      (walker : (walkMeadow w).isSome = true → ((s.walks.take i).filter fun x => decide (walkMeadow x = walkMeadow w)).length < 64)
      (exists' : ∀ pa, walk s w.asid (w.page * 4096) .r ≠ .badAddr pa) :
      WalkRule (.walkComplete i) s
        (let s1 := (walkPlaces s w.asid (w.page * 4096)).foldl meterLine { s with walks := s.walks.eraseIdx i }
         let s2 := (s.threads.map (·.1)).foldl (walkThread w s) s1
         let s3 := s.cores.foldl (fun a c => c.2.jobs.foldl (walkJob w s c.1) a) s2
         s.heather.foldl (fun a h => h.2.ctxs.foldl (walkCtx w s h.1) a) s3)
  /-- R374: a walk that a shootdown has discarded starts again. -/
  | again (s : State) (i : Nat) (w : Walk) (at' : s.walks[i]? = some w) (stale : w.stale = true)
      (walker : (walkMeadow w).isSome = true → ((s.walks.take i).filter fun x => decide (walkMeadow x = walkMeadow w)).length < 64) :
      WalkRule (.walkComplete i) s { s with walks := s.walks.set i { w with stale := false } }
  /-- R329: the oldest fault-queue entry that waits is posted once its queue has room, with the next SEQ. -/
  | post (s : State) (id : Nat) (e : Enclave) (f : FqEntry) (pa ip asid : Nat) (h0 h : QHdr) (encl : getEncl s id = some e)
      (waits : e.fq.find? (fun f => f.pos.isNone) = some f) (header : fqPlace s e = some (pa, h0, asid))
      (read : readHdr (ioTouch s pa 64 true) pa = some h) (room : qFull h = false)
      (place : nowPa (ioTouch s pa 64 true) asid (itemVa h h.tail) = some ip) :
      WalkRule (.faultQueueRoom id) s
        (let s1 := ioPut (ioTouch s pa 64 true) ip (fqBytes f e.fqSeq)
         let s2 := ioPut (ioPut s1 (pa + 0x18) (bytesOfNat 8 (h.tail + 1))) (pa + 0x20) (bytesOfNat 8 (h.done + 1))
         corePmc (setEncl s2 id
           { e with fq := e.fq.map fun x => if x = f then { x with pos := some h.tail } else x, fqSeq := e.fqSeq + 1 })
           (f.core % 1024) 5 1)

end Sys2Proof.Machine
end

