-- ==== Sys2Proof/Safety/BootSide.lean ====
section
/-! DEFINITION. What boot, the pod, power, sleep and SPDM do, as rules (R12, R17, R21 to R33, R296, R408 to R415, R422). -/
namespace Sys2Proof.Machine

/-- The state of power-on, with the fuses as they are (R24). -/
def coldState (s : State) : State := { State.reset with n := s.n, inbox := s.inbox, fuses := s.fuses }

/-- The state a warm reset leaves while the package is awake: what counts since cold reset stays (R24, R414). -/
def warmState (s : State) : State :=
  { State.reset with
    n := s.n, inbox := s.inbox, fuses := s.fuses, clock := s.clock, refills := s.refills, slices := s.slices, ret := s.ret
    lateLaunches := s.lateLaunches
    parts := s.parts.map fun p => (p.1, { meters := p.2.meters, useq := p.2.useq, prevRec := p.2.prevRec, usage := p.2.usage, resets := p.2.resets })
    rowan := { lastEncl := s.rowan.lastEncl, lastAsid := s.rowan.lastAsid, lastKslot := s.rowan.lastKslot, ord := s.rowan.ord, drbg := s.rowan.drbg }
    host := { log := s.host.log } }

/-- A flit that passes its CRC on a port that is up and out of reset, of a keyed stream that is open and sees no link fault
(R21). -/
structure GoodFlit (s : State) (port : Fin 12) (f : PodFlit) : Prop where
  up : (getPort s port.val).up = true
  crc : f.crcOk = true
  out : portStart + port.val < s.boot.startStep
  stream : nsHas (getPort s port.val).closed f.stream = false
  keyed : (smGet ({} : Stream) s.host.streams f.stream).keyed = true
  works : (smGet ({} : Stream) s.host.streams f.stream).linkFault = false
  other : s.boot.leader ≠ some f.fromPod

/-- A swap-out of a partition from a meadow has begun: its records stop running, and a guest switch in flight is dropped (R422,
R425, R426). -/
def swapBegun (s : State) (p m : Nat) : State :=
  { (meadowTeams s p m).foldl (fun s k => setTeamRun s k false)
      (modPart (dropSwitch s p) p fun x => { x with swapping := nsAdd x.swapping m }) with turn := .idle }

/-- Unit `i` has left reset (R32). -/
def unitStarted (s : State) (i : Nat) : State :=
  { s with boot := { s.boot with startStep := i + 1, startAt := s.clock, hostBoot := s.boot.hostBoot && decide (i < 14) } }

/-- The teams of a meadow's image find room on cores that run (R422). -/
def SwapRoom (s : State) (p m : Nat) : Prop :=
  ((meadowTeams s p (m + 8 * (p + 1))).foldl (fun l k => nsAdd l (k / 4 - 1024 * (p + 1))) []).all
    (fun c => (getCore s c).up && coreFits s p c
      ((meadowTeams s p (m + 8 * (p + 1))).filter fun k => decide (k / 4 = imageCore p c))) = true

inductive BootRule : Instr → State → State → Prop where
  /-- R24, R414: power-on, and the repair of the fuse counters. -/
  | cold (s : State) : BootRule .coldReset s (repairFuses (coldState s))
  /-- R24, R28: a warm reset; a package that sleeps begins a wake. -/
  | warm (s : State) (awake : s.boot.asleep = false) : BootRule .warmReset s (repairFuses (warmState s))
  | warmAsleep (s : State) (asleep : s.boot.asleep = true) : BootRule .warmReset s (repairFuses (wakeBoot s))
  /-- R24, R415: an image of the host that fails its check leaves no state. -/
  | imageBad (s : State) (img : List Byte) (fuses : s.boot.status ≠ .fuseFault) (waits : (nextKind s.boot).isSome = true) (bad : imageOk s (imgKind img) img = false)
      (idle : Config.bootsrc = false ∨ s.boot.claimed = false ∨ s.boot.mailbox = []) :
      BootRule (.firmwareImage none img) s s
  /-- R24, R26, R415: under BOOTSRC 0 the image is accepted if it is of the kind expected next and passes; under BOOTSRC 1 one that
  passes goes to the mailbox, in place of any other of its kind, and a package that leads loads its mailbox in the order of the
  kinds. -/
  | image (s : State) (img : List Byte) (fuses : s.boot.status ≠ .fuseFault) (waits : (nextKind s.boot).isSome = true) :
      BootRule (.firmwareImage none img) s
        (let s1 : State :=
          if imgKind img < 3 ∧ imageOk s (imgKind img) img = true then
            { s with boot := { s.boot with mailbox := s.boot.mailbox.filter (fun x => decide (imgKind x ≠ imgKind img)) ++ [img] } }
          else s
         if Config.bootsrc = false then
           (match nextKind s.boot with
             | some k => if imageOk s k img then acceptImage s k img else s
             | none => s)
         else if s.boot.claimed = true then loadMailbox 3 s1 else s1)
  /-- R411: once the package has booted, the mailbox keeps an image of the host for a late launch (notes/assumptions/26.md). -/
  | imageLate (s : State) (img : List Byte) (fuses : s.boot.status ≠ .fuseFault) (booted : nextKind s.boot = none)
      (kind : imgKind img < 3) :
      BootRule (.firmwareImage none img) s
        { s with boot := { s.boot with mailbox := s.boot.mailbox.filter (fun x => decide (imgKind x ≠ imgKind img)) ++ [img] } }
  /-- R27, R415: the accepted leader's image of that kind. -/
  | imageLeader (s : State) (k : Nat) (l : BitVec 16) (img : List Byte) (fuses : s.boot.status ≠ .fuseFault)
      (next : nextKind s.boot = some k) (other : s.boot.claimed = false) (leader : s.boot.leader = some l) :
      BootRule (.firmwareImage (some l) img) s
        (let s1 : State := { s with boot := { s.boot with lastFlit := s.clock } }
         if Config.bootsrc = true then (if imageOk s1 k img then acceptImage s1 k img else s1) else s)
  /-- R17: the host port comes up. -/
  | hostLink (s : State) (cxl : Bool) (down : s.boot.hostUp = false) :
      BootRule (.hostLinkTraining cxl) s { s with boot := { s.boot with hostUp := true, cxl := cxl } }
  /-- R24, R26, R32: a pod link port that is out of reset comes up, in boot mode under BOOTSRC 1 too, where the first one opens
  the discovery window. -/
  | podLink (s : State) (port : Fin 12) (down : (getPort s port.val).up = false) (fit : (getPort s port.val).down = false)
      (out : Config.bootsrc = true ∨ portStart + port.val < s.boot.startStep) (fuses : s.boot.status ≠ .fuseFault) :
      BootRule (.podLinkTraining port) s
        (let s1 := setPort s port.val { getPort s port.val with up := true, trained := true, retries := 0 }
         if Config.bootsrc = true ∧ s.boot.windowFrom = none ∧ s.boot.windowDone = false then
           { s1 with boot := { s1.boot with windowFrom := some s.clock } }
         else s1)
  /-- R414: a ROM that has halted with FUSE_FAULT trains no pod link and ends no discovery window. -/
  | podLinkHalted (s : State) (port : Fin 12) (halted : s.boot.status = .fuseFault) : BootRule (.podLinkTraining port) s s
  | windowHalted (s : State) (halted : s.boot.status = .fuseFault) : BootRule .discoveryWindowEnd s s
  /-- R26: a HELLO in the discovery window notes its sender. -/
  | hello (s : State) (port : Fin 12) (pod : BitVec 16) (fuses : s.boot.status ≠ .fuseFault) (up : (getPort s port.val).up = true) (open' : s.boot.windowFrom.isSome = true) :
      BootRule (.hello port pod) s { s with boot := { s.boot with seen := s.boot.seen ++ [pod] } }
  /-- R29: a window that ends with no eligible leader reports NO_LEADER. -/
  | noLeader (s : State) (from' : Nat) (open' : s.boot.windowFrom = some from') (past : from' + 50000000 ≤ s.clock)
      (none' : s.boot.leader = none) (pods : eligiblePods { s.boot with windowFrom := none, windowDone := true } = [])
      (unfit : mailboxFull s.boot = false) (fuses : s.boot.status ≠ .fuseFault) :
      BootRule .discoveryWindowEnd s
        { s with boot := { s.boot with windowFrom := none, windowDone := true, status := .noLeader } }
  /-- R24, R27: a package with a complete set of images and the lowest unique pod id claims, and loads them. -/
  | claims (s : State) (from' : Nat) (open' : s.boot.windowFrom = some from') (past : from' + 50000000 ≤ s.clock)
      (none' : s.boot.leader = none) (images : mailboxFull s.boot = true) (fuses : s.boot.status ≠ .fuseFault)
      (unique : podUnique { s.boot with windowFrom := none, windowDone := true } Config.podId = true)
      (lowest : (eligiblePods { s.boot with windowFrom := none, windowDone := true }).all
        (fun x => decide (Config.podId.toNat < x.toNat)) = true) :
      BootRule .discoveryWindowEnd s
        (loadMailbox 3
          { s with boot := { s.boot with windowFrom := none, windowDone := true, claimed := true, leader := some Config.podId } })
  /-- R27, R28: under BOOTSRC 1 a claim that passes its check and names no excluded leader is accepted. -/
  | claim (s : State) (port : Fin 12) (pod : BitVec 16) (nonce : BitVec 64) (sig : List Byte)
      (up : (getPort s port.val).up = true) (none' : s.boot.leader = none) (waits : (nextKind s.boot).isSome = true)
      (fuses : s.boot.status ≠ .fuseFault) (allowed : s.boot.excluded.any (fun x => decide (x = pod)) = false) :
      BootRule (.claim port pod nonce sig) s
        (if Config.bootsrc = true ∧ Config.claimOk pod nonce sig = true then
          { s with boot := { s.boot with leader := some pod, lastFlit := s.clock, status := .waitImage } }
        else s)
  /-- R28: a leader silent for 250 ms is excluded, and a new window opens. -/
  | silent (s : State) (l : BitVec 16) (leader : s.boot.leader = some l) (other : s.boot.claimed = false)
      (waits : (nextKind s.boot).isSome = true) (long : s.boot.lastFlit + 250000000 ≤ s.clock) :
      BootRule .leaderSilent s
        { s with boot := { s.boot with
            leader := none, excluded := s.boot.excluded ++ [l], windowFrom := some s.clock, windowDone := false, seen := [] } }
  /-- R21: a flit that fails its CRC is retried; the eighth time in a row takes the port down. -/
  | retry (s : State) (port : Fin 12) (f : PodFlit) (up : (getPort s port.val).up = true) (bad : f.crcOk = false)
      (few : (getPort s port.val).retries < 7) :
      BootRule (.podFlitReceive port f) s (setPort s port.val { getPort s port.val with retries := (getPort s port.val).retries + 1 })
  | portDown (s : State) (port : Fin 12) (f : PodFlit) (up : (getPort s port.val).up = true) (bad : f.crcOk = false)
      (eighth : 7 ≤ (getPort s port.val).retries) :
      BootRule (.podFlitReceive port f) s
        { setPort s port.val { getPort s port.val with up := false, down := true, retries := 8 } with
          host := { s.host with hazelErr := s.host.hazelErr ++ [(1024, port.val)] } }
  /-- R21: a group whose MAC fails is dropped, its stream is closed, and its endpoints see a link fault. -/
  | mac (s : State) (port : Fin 12) (f : PodFlit) (good : GoodFlit s port f) (group : f.endsGroup = true) (bad : f.macOk = false) :
      BootRule (.podFlitReceive port f) s
        (let s0 := setPort s port.val { getPort s port.val with retries := 0 }
         let s1 := setPort s0 port.val { getPort s0 port.val with closed := nsAdd (getPort s port.val).closed f.stream }
         { s1 with host := { s1.host with
            streams := smPut s1.host.streams f.stream { smGet ({} : Stream) s.host.streams f.stream with linkFault := true } } })
  /-- R21, R431: a good group is delivered, and metered to the partition of its stream. -/
  | group (s : State) (port : Fin 12) (f : PodFlit) (p : Nat) (good : GoodFlit s port f) (group : f.endsGroup = true)
      (mac : f.macOk = true) (clean : f.poisoned = false) (part : streamPart s f.stream = some p) :
      BootRule (.podFlitReceive port f) s
        (meter (setPort s port.val { getPort s port.val with retries := 0 }) p mLinkb (16 * 242))
  /-- R32: the next unit leaves reset; the units that are no cores of a wave and no general cores. -/
  | unit (s : State) (awake : s.boot.asleep = false) (kind : s.boot.startStep < 29 ∨ 158 ≤ s.boot.startStep) (last : s.boot.startStep < 170)
      (image : startImage s.boot s.boot.startStep = true) (due : s.boot.startAt + startDelay s.boot.startStep ≤ s.clock) :
      BootRule .staggeredStartStep s (unitStarted s s.boot.startStep)
  /-- R32, R411: the last group of general cores: the harts resume from their contexts, unless Hazel is halted. -/
  | harts (s : State) (awake : s.boot.asleep = false) (kind : s.boot.startStep = 29) (image : startImage s.boot 29 = true)
      (due : s.boot.startAt + startDelay 29 ≤ s.clock) :
      BootRule .staggeredStartStep s (if s.boot.hazelHalted then unitStarted s 29 else resumeHarts (unitStarted s 29))
  /-- R32: a wave of eight cores leaves reset, each with its first quantum. -/
  | wave (s : State) (awake : s.boot.asleep = false) (kind : 30 ≤ s.boot.startStep ∧ s.boot.startStep < 158)
      (image : startImage s.boot s.boot.startStep = true) (due : s.boot.startAt + startDelay s.boot.startStep ≤ s.clock) :
      BootRule .staggeredStartStep s
        ((rangeFrom ((s.boot.startStep - 30) / 16 * 128 + (s.boot.startStep - 30) % 16 * 8) 8).foldl startCore
          (unitStarted s s.boot.startStep))
  /-- R30: a multiple of 25 from 2,400 to 3,600 W is the new limit, and bit 31 clears ERR. -/
  | limit (s : State) (v : BitVec 32) (up : pf0Up s = true)
      (range : 2400 ≤ bitsOf v.toNat 11 0 ∧ bitsOf v.toNat 11 0 ≤ 3600 ∧ bitsOf v.toNat 11 0 % 25 = 0) :
      BootRule (.pwrlim v) s
        { s with host := { s.host with limit := bitsOf v.toNat 11 0, pwrErr := s.host.pwrErr && !v.getLsbD 31 } }
  /-- R30: any other sets ERR, and LIMIT keeps its value. -/
  | limitBad (s : State) (v : BitVec 32) (up : pf0Up s = true)
      (bad : bitsOf v.toNat 11 0 < 2400 ∨ 3600 < bitsOf v.toNat 11 0 ∨ bitsOf v.toNat 11 0 % 25 ≠ 0) :
      BootRule (.pwrlim v) s { s with host := { s.host with pwrErr := true } }
  /-- R31: Emergency Power Reduction follows its pin. -/
  | epr (s : State) (asserted : Bool) : BootRule (.emergencyPowerReduction asserted) s { s with host := { s.host with epr := asserted } }
  /-- R414: COMMIT raises the three fuse counters to the SVNs of the accepted images. -/
  | commit (s : State) (up : pf0Up s = true) (idle : s.host.rcmdBusy = false) :
      BootRule .commit s
        (rcmdDone (raiseCounter (raiseCounter (raiseCounter s 0 s.boot.rowan) 1 s.boot.hazel) 2 s.boot.runtime) 0)
  /-- R410: a command that meets BUSY is refused with 0x03. -/
  | commitBusy (s : State) (up : pf0Up s = true) (busy : s.host.rcmdBusy = true) :
      BootRule .commit s { s with host := { s.host with rcmdResult := 0x03 } }
  /-- R411: LLAUNCH, whose images the host may bring along with it, halts Hazel, takes the new images from the mailbox, and pauses
  the general cores, their contexts in sealed frames. -/
  | llaunch (s0 s : State) (hazel runtime : Option (List Byte)) (up : pf0Up s0 = true) (idle : s.host.rcmdBusy = false)
      (images : s = putImages s0 [hazel, runtime]) :
      BootRule (.llaunch hazel runtime) s0
        (sealHarts { s with
          host := { s.host with rcmdBusy := true }
          boot := { s.boot with
            hazelHalted := true, haltLimit := effectiveLimit s, haltEnd := s.clock + Config.llaunchTime s.n % 30000001
            newImages := (mailImage s.boot 1, mailImage s.boot 2)
            mailbox := s.boot.mailbox.filter fun x => decide (imgKind x = 0) } })
  /-- R412: SLEEP: no new call is taken, and the general cores are paused, their contexts in sealed frames; sleep entry goes on
  while it can. -/
  | sleep (s : State) (up : pf0Up s = true) (idle : s.host.rcmdBusy = false) :
      BootRule .sleep s
        (trySleep { sealHarts s with
          turn := .idle
          host := { s.host with rcmdBusy := true }
          rowan := { s.rowan with sleeping := true } })
  /-- R413: WAKE opens the retention store with its epoch's key: the keys are back; or every enclave is lost. -/
  | wake (s : State) (c : List Byte) (asleep : s.boot.asleep = true) (rowan : s.boot.rowan.isSome = true)
      (store : s.ret.wrapped = some c) :
      BootRule .wake s
        (match Config.gcmOpen (sleepKey s.ret.epoch) (sleepIv s.ret.epoch) c with
         | some bs => wakeOk s bs
         | none => wakeFail s)
  /-- R422: swap-out clears RUN in a partition's records in a meadow and waits for its teams to stop. -/
  | swapStops (s : State) (p m : Nat) (runs : s.boot.hazelHalted = false) (awake : s.boot.asleep = false) (small : m < 8)
      (live : (getPart s p).live = true) (free : s.rowan.sleeping = false) (in' : nsHas (getPart s p).swapped m = false)
      (busy : (meadowTeams s p m).all (teamStopped (swapBegun s p m)) = false) :
      BootRule (.partitionSwapOut p m) s (swapBegun s p m)
  /-- R422, R423: once they have, their dirty state goes to the shadow area and, beyond 28 MiB, to frames of the quota, and
  their state leaves the cores. -/
  | swapOut (s s2 : State) (p m : Nat) (runs : s.boot.hazelHalted = false) (awake : s.boot.asleep = false) (small : m < 8)
      (live : (getPart s p).live = true) (free : s.rowan.sleeping = false) (in' : nsHas (getPart s p).swapped m = false)
      (stopped : (meadowTeams s p m).all (teamStopped (swapBegun s p m)) = true)
      (room : swapOut (swapBegun s p m) p m (meadowTeams s p m) = some s2) :
      BootRule (.partitionSwapOut p m) s (trySleep s2)
  /-- R353, R422, R423: swap-in returns the state to the same cores, once they have room; the frames that held part of the
  image are free again, and publications that were held for its teams are applied. -/
  | swapIn (s : State) (p m : Nat) (runs : s.boot.hazelHalted = false) (awake : s.boot.asleep = false)
      (free : s.rowan.sleeping = false) (out : nsHas (getPart s p).swapped m = true) (room : SwapRoom s p m)
      (sound : (imageBlocks s p m).any (fun b => (smFind? s.raw b).isSome || nsHas s.poison b || nsHas s.ecc b) = false) :
      BootRule (.partitionSwapIn p m) s
        (let ks := meadowTeams s p (m + 8 * (p + 1))
         let cores := ks.foldl (fun l k => nsAdd l (k / 4 - 1024 * (p + 1))) []
         let r : Reloc := ⟨ks, ks.flatMap (teamWarps s), 1024 * (p + 1), false⟩
         let s1 := relocate r (cores.foldl (fun s c => fillCoreBack s r p c) s)
         (ks.map r.team).foldl publishHeld (freeSpill (modPart s1 p fun x => { x with swapped := nsDel x.swapped m }) p m))
  /-- R406, R441: an image that the host has written or that carries a memory error does not come back, and is logged. -/
  | swapInBad (s : State) (p m : Nat) (runs : s.boot.hazelHalted = false) (awake : s.boot.asleep = false)
      (free : s.rowan.sleeping = false) (out : nsHas (getPart s p).swapped m = true) (room : SwapRoom s p m)
      (bad : (imageBlocks s p m).any (fun b => (smFind? s.raw b).isSome || nsHas s.poison b || nsHas s.ecc b) = true) :
      BootRule (.partitionSwapIn p m) s
        { s with host := { s.host with
            log := s.host.log ++ [.refused s.clock ccIntegrity 3 0 2 0 ((shadowPages s p m).getD 0 0 * 4096)] } }

/-- How a request comes, and what it asks for. -/
def spdmOf : Instr → Option (SpdmVia × SpdmReq)
  | .getVersion via => some (via, .version)
  | .getCapabilities via => some (via, .capabilities)
  | .negotiateAlgorithms via => some (via, .algorithms)
  | .getDigests via => some (via, .digests)
  | .getCertificate via slot off len => some (via, .certificate slot off len)
  | .challenge via slot nonce => some (via, .challenge slot nonce)
  | .getMeasurements via index nonce => some (via, .measurements index nonce)
  | .keyExchange via data => some (via, .keyExchange data)
  | .finish via session => some (via, .finish session)
  | .endSession via session => some (via, .endSession session)
  | .spdmUnsupportedRequest via code => some (via, .other code)
  | _ => none

/-- A row that stands for the in-band call at the head of Rowan's queue: SPDM_CALL, or a request whose code the message of the
call carries, sealed or not (R403, R408). -/
def InbandRow (i : Instr) (s : State) (c : Call) : Prop :=
  i = .spdmCall ∨ ∃ r req q x, spdmOf i = some (.inband, r) ∧
    readSpanAt s (getTeam s (teamOf s c.thread)).asid (argW c 0) (argW c 2) = some req ∧
    inbandAsk s c.encl req = .inr (q, x) ∧ (spdmFields q).1 = (spdmFields r).1

/-- The fields of an SPDM call are in their ranges. -/
def SpdmFieldsOk (c : Call) : Prop := argsWithin c [mask64, mask64, 2 ^ 32 - 1, 2 ^ 32 - 1] = true

/-- The ASID of a call's thread. -/
def callAsid (s : State) (c : Call) : Nat := (getTeam s (teamOf s c.thread)).asid

inductive SpdmRule : Instr → State → State → Prop where
  /-- R408: a request over DOE is answered at once, within its session under the session's key. -/
  | doe (i : Instr) (s : State) (session : Option (Nat × List Byte)) (r : SpdmReq) (row : spdmOf i = some (.doe session, r))
      (rowan : s.boot.rowan.isSome = true) (awake : s.boot.asleep = false) :
      SpdmRule i s
        (let a := doeAnswer s session r
         { a.1 with spdm := { a.1.spdm with reply := a.2 } })
  /-- R24, R408: before Rowan firmware is accepted nothing answers. -/
  | doeEarly (i : Instr) (s : State) (session : Option (Nat × List Byte)) (r : SpdmReq) (row : spdmOf i = some (.doe session, r))
      (rowan : s.boot.rowan = none) : SpdmRule i s s
  /-- R403, R408: an in-band request is read from the caller's block and answered into its buffer. -/
  | call (i : Instr) (s s1 s2 : State) (c : Call) (req : List Byte) (takes : headCall s [0x18] = some (c, s1))
      (row : InbandRow i s c) (fields : SpdmFieldsOk c)
      (read : readSpanAt s1 (callAsid s1 c) (argW c 0) (argW c 2) = some req)
      (fits : (inbandAnswer s1 c.encl req).2.length ≤ argW c 3)
      (wrote : writeSpanAt (ioTouchSpan (inbandAnswer s1 c.encl req).1 (callAsid s1 c) (argW c 0) (argW c 2)) (callAsid s1 c)
        (argW c 1) (inbandAnswer s1 c.encl req).2 = some s2) :
      SpdmRule i s (callDone s2 c stOk)
  /-- R403: a field of the call out of its range, or an answer longer than its buffer: BAD_ARGS. -/
  | callBad (i : Instr) (s s1 : State) (c : Call) (takes : headCall s [0x18] = some (c, s1)) (row : InbandRow i s c)
      (bad : ¬ SpdmFieldsOk c ∨
        ∃ req, readSpanAt s1 (callAsid s1 c) (argW c 0) (argW c 2) = some req ∧ argW c 3 < (inbandAnswer s1 c.encl req).2.length) :
      SpdmRule i s (callDone s1 c stBadArgs)
  /-- R362, R403: a request that cannot be read; a walk that meets a broken entry is in the security log. -/
  | callUnread (i : Instr) (s s1 : State) (c : Call) (takes : headCall s [0x18] = some (c, s1)) (row : InbandRow i s c)
      (fields : SpdmFieldsOk c) (unread : readSpanAt s1 (callAsid s1 c) (argW c 0) (argW c 2) = none) :
      SpdmRule i s (callDone (noteSpan s1 3 (callAsid s1 c) (argW c 0) (argW c 2) .r) c stBadArgs)

end Sys2Proof.Machine
end

