-- ==== Sys2Proof/Safety/Harts.lean ====
section
/-! DEFINITION. What the extension instructions of the general cores do, as rules (R38, R334 to R336, R394 to R399). That a hart's
exception is recorded and the hart stays at its word is notes/assumptions/7.md. -/
namespace Sys2Proof.Machine

/-- A hart of an enclave issues a word (R334). -/
structure HartIssues (s : State) (h : Nat) (e : Enclave) : Prop where
  turn : issuedHart s = some h
  encl : getEncl s (getHart s h).encl = some e

/-- It is the turn of a trap to Rowan (R372, R394, R434): nothing is under way there, no call waits and no record is due. -/
structure RowanIdle (s : State) : Prop where
  shoot : s.rowan.shoot = none
  migr : s.rowan.migr = none
  queue : s.rowan.queue = []
  record : usageDue s = none

/-- Rowan takes a trap of a general core: it is its turn, and Rowan is awake (R394, R404). -/
structure RowanFree (s : State) : Prop extends RowanIdle s where
  awake : s.rowan.sleeping = false

/-- A trap to Rowan has to wait: a call is under way there or waits, or a record is due (R372, R394). That the hart issues the word
again is notes/assumptions/13.md. -/
def RowanTaken (s : State) : Prop := s.rowan.shoot ≠ none ∨ s.rowan.migr ≠ none ∨ s.rowan.queue ≠ [] ∨ usageDue s ≠ none

/-- The words of custom-0 (R334, R394). -/
def customOf : Instr → Option W32
  | .spawn rd rs1 rs2 => some (customWord 0 rd rs1 rs2)
  | .joinw rd rs1 => some (customWord 1 rd rs1 0)
  | .ecreate rd rs1 => some (customWord 2 rd rs1 0)
  | .edestroy rd rs1 => some (customWord 3 rd rs1 0)
  | .eattest rd rs1 rs2 => some (customWord 4 rd rs1 rs2)
  | _ => none

/-- The traps to Rowan, with rd and the value of rd where sleep entry has begun (R394, R412). -/
def rowanTrapOf : Instr → Option (BitVec 5 × W64)
  | .ecreate rd _ => some (rd, BitVec.ofNat 64 (2 ^ 63 + stBusy))
  | .edestroy rd _ => some (rd, BitVec.ofNat 64 stBusy)
  | .eattest rd _ _ => some (rd, BitVec.ofNat 64 stBusy)
  | _ => none

/-- The 16 doublewords of a record. -/
def recordAt (bs : List Byte) (va : Nat) : KickRec :=
  ⟨(List.range 16).map fun i => BitVec.ofNat 64 (natOfBytes ((bs.drop (8 * i)).take 8)), BitVec.ofNat 64 va⟩

inductive HartRule : Instr → State → State → Prop where
  /-- R38, R335: `spawn` appends its record to the kick register, and rd takes the record's ordinal. -/
  | spawn (s s1 : State) (rd rs1 rs2 : BitVec 5) (h : Nat) (e : Enclave) (bs : List Byte) (issues : HartIssues s h e)
      (kick : (rdX (getHart s h) rs2).toNat ≤ e.nkickm1 ∧ (rdX (getHart s h) rs2).toNat ≤ 15)
      (aligned : (rdX (getHart s h) rs1).toNat % 128 = 0)
      (load : hartLoad s h (rdX (getHart s h) rs1).toNat 128 = .ok s1 bs)
      (room : kickFull (smGet {} e.kicks (rdX (getHart s h) rs2).toNat) = false) :
      HartRule (.spawn rd rs1 rs2) s
        (kickAppend s1 h (getHart s h).encl (rdX (getHart s h) rs2).toNat (recordAt bs (rdX (getHart s h) rs1).toNat) rd)
  /-- R335: with 8 records in the register, `spawn` waits. -/
  | spawnWaits (s s1 : State) (rd rs1 rs2 : BitVec 5) (h : Nat) (e : Enclave) (bs : List Byte) (issues : HartIssues s h e)
      (kick : (rdX (getHart s h) rs2).toNat ≤ e.nkickm1 ∧ (rdX (getHart s h) rs2).toNat ≤ 15)
      (aligned : (rdX (getHart s h) rs1).toNat % 128 = 0)
      (load : hartLoad s h (rdX (getHart s h) rs1).toNat 128 = .ok s1 bs)
      (full : kickFull (smGet {} e.kicks (rdX (getHart s h) rs2).toNat) = true) :
      HartRule (.spawn rd rs1 rs2) s
        { setHart s1 h { getHart s1 h with wait := some (.spawn (getHart s h).encl (rdX (getHart s h) rs2).toNat
            (recordAt bs (rdX (getHart s h) rs1).toNat) rd.toNat) } with turn := .idle }
  /-- R335: a kick register the enclave does not have raises the illegal-instruction exception. -/
  | spawnNoKick (s : State) (rd rs1 rs2 : BitVec 5) (h : Nat) (e : Enclave) (issues : HartIssues s h e)
      (kick : e.nkickm1 < (rdX (getHart s h) rs2).toNat) :
      HartRule (.spawn rd rs1 rs2) s (hartExc s h (.illegalInstruction (customWord 0 rd rs1 rs2)))
  /-- R335: an address that is not a multiple of 128 raises the load-address-misaligned exception. -/
  | spawnMisaligned (s : State) (rd rs1 rs2 : BitVec 5) (h : Nat) (e : Enclave) (issues : HartIssues s h e)
      (kick : (rdX (getHart s h) rs2).toNat ≤ e.nkickm1 ∧ (rdX (getHart s h) rs2).toNat ≤ 15)
      (bad : (rdX (getHart s h) rs1).toNat % 128 ≠ 0) :
      HartRule (.spawn rd rs1 rs2) s (hartExc s h (.loadMisaligned (rdX (getHart s h) rs1).toNat))
  /-- R334, R394: outside an enclave each of the words raises the illegal-instruction exception. -/
  | outside (i : Instr) (w : W32) (s : State) (h : Nat) (custom : customOf i = some w) (turn : issuedHart s = some h)
      (none' : getEncl s (getHart s h).encl = none) :
      HartRule i s (hartExc s h (.illegalInstruction w))
  /-- R335: a record that cannot be read raises the load-page-fault exception. -/
  | spawnFault (s s1 : State) (rd rs1 rs2 : BitVec 5) (h : Nat) (e : Enclave) (issues : HartIssues s h e)
      (kick : (rdX (getHart s h) rs2).toNat ≤ e.nkickm1 ∧ (rdX (getHart s h) rs2).toNat ≤ 15)
      (aligned : (rdX (getHart s h) rs1).toNat % 128 = 0)
      (load : hartLoad s h (rdX (getHart s h) rs1).toNat 128 = .fault s1) :
      HartRule (.spawn rd rs1 rs2) s (hartExc s1 h (.loadPageFault (rdX (getHart s h) rs1).toNat))
  /-- R335: a stalled `spawn` appends its record once the register has room. -/
  | append (s : State) (h encl kick rd : Nat) (rec : KickRec) (e : Enclave) (waits : (getHart s h).wait = some (.spawn encl kick rec rd))
      (found : getEncl s encl = some e) (room : kickFull (smGet {} e.kicks kick) = false) :
      HartRule (.spawnAppend h) s (kickAppend s h encl kick rec (BitVec.ofNat 5 rd))
  /-- R336: `joinw` ends with the counter's value when it is 0 or an error word. -/
  | joinw (s s1 : State) (rd rs1 : BitVec 5) (h : Nat) (e : Enclave) (bs : List Byte) (issues : HartIssues s h e)
      (aligned : (rdX (getHart s h) rs1).toNat % 8 = 0) (load : hartLoad s h (rdX (getHart s h) rs1).toNat 8 = .ok s1 bs)
      (ends : joinEnds (BitVec.ofNat 64 (natOfBytes bs)) = true) :
      HartRule (.joinw rd rs1) s (hartDone s1 h rd (BitVec.ofNat 64 (natOfBytes bs)))
  /-- R336: otherwise it waits. -/
  | joinwWaits (s s1 : State) (rd rs1 : BitVec 5) (h : Nat) (e : Enclave) (bs : List Byte) (issues : HartIssues s h e)
      (aligned : (rdX (getHart s h) rs1).toNat % 8 = 0) (load : hartLoad s h (rdX (getHart s h) rs1).toNat 8 = .ok s1 bs)
      (more : joinEnds (BitVec.ofNat 64 (natOfBytes bs)) = false) :
      HartRule (.joinw rd rs1) s
        { setHart s1 h { getHart s1 h with wait := some (.joinw (rdX (getHart s h) rs1).toNat rd.toNat) } with turn := .idle }
  /-- R336: a misaligned counter raises the load-address-misaligned exception. -/
  | joinwMisaligned (s : State) (rd rs1 : BitVec 5) (h : Nat) (e : Enclave) (issues : HartIssues s h e)
      (bad : (rdX (getHart s h) rs1).toNat % 8 ≠ 0) :
      HartRule (.joinw rd rs1) s (hartExc s h (.loadMisaligned (rdX (getHart s h) rs1).toNat))
  /-- R336: a counter that cannot be read raises the load-page-fault exception. -/
  | joinwFault (s s1 : State) (rd rs1 : BitVec 5) (h : Nat) (e : Enclave) (issues : HartIssues s h e)
      (aligned : (rdX (getHart s h) rs1).toNat % 8 = 0) (load : hartLoad s h (rdX (getHart s h) rs1).toNat 8 = .fault s1) :
      HartRule (.joinw rd rs1) s
        (hartExc (setHart s1 h { getHart s1 h with wait := none }) h (.loadPageFault (rdX (getHart s h) rs1).toNat))
  /-- R336: a waiting `joinw` ends at a later read. -/
  | joinwEnds (s s1 : State) (h va rd : Nat) (bs : List Byte) (waits : (getHart s h).wait = some (.joinw va rd))
      (load : hartLoad s h va 8 = .ok s1 bs) (ends : joinEnds (BitVec.ofNat 64 (natOfBytes bs)) = true) :
      HartRule (.joinwComplete h) s (hartDone s1 h (BitVec.ofNat 5 rd) (BitVec.ofNat 64 (natOfBytes bs)))
  /-- R395, R396: `ecreate` builds the enclave its descriptor gives; rd takes its id. -/
  | ecreate (s s1 : State) (rd rs1 : BitVec 5) (h id : Nat) (e : Enclave) (issues : HartIssues s h e) (free : RowanFree s)
      (made : createEnclave s (getHart s h).encl e (rdX (getHart s h) rs1).toNat = .inr (s1, id)) :
      HartRule (.ecreate rd rs1) s (hartDone s1 h rd (BitVec.ofNat 64 id))
  /-- R395: a descriptor that fails a check creates nothing; rd takes 2^63 + the status. Of what it read, a refused access stays in
  the security log, and a block that fails its check stays poisoned (R23, R441). -/
  | ecreateFails (s : State) (rd rs1 : BitVec 5) (h status : Nat) (e : Enclave) (issues : HartIssues s h e) (free : RowanFree s)
      (fails : createEnclave s (getHart s h).encl e (rdX (getHart s h) rs1).toNat = .inl status) :
      HartRule (.ecreate rd rs1) s
        (hartDone (if status = stBadArgs then noteCreate s e.asid (rdX (getHart s h) rs1).toNat else s) h rd
          (BitVec.ofNat 64 (2 ^ 63 + status)))
  /-- R397: `edestroy` destroys an enclave of the caller's own with its descendants; rd takes 0. -/
  | edestroy (s : State) (rd rs1 : BitVec 5) (h : Nat) (e : Enclave) (issues : HartIssues s h e) (free : RowanFree s)
      (own : destroyStatus s (getHart s h).encl (rdX (getHart s h) rs1).toNat = stOk) :
      HartRule (.edestroy rd rs1) s (hartDone (destroyTree s (rdX (getHart s h) rs1).toNat) h rd 0)
  /-- R397: any other id destroys nothing, and rd takes the status. -/
  | edestroyFails (s : State) (rd rs1 : BitVec 5) (h : Nat) (e : Enclave) (issues : HartIssues s h e) (free : RowanFree s)
      (other : destroyStatus s (getHart s h).encl (rdX (getHart s h) rs1).toNat ≠ stOk) :
      HartRule (.edestroy rd rs1) s
        (hartDone s h rd (BitVec.ofNat 64 (destroyStatus s (getHart s h).encl (rdX (getHart s h) rs1).toNat)))
  /-- R399: `eattest` writes a report on the caller's enclave; rd takes the status. -/
  | eattest (s : State) (rd rs1 rs2 : BitVec 5) (h : Nat) (e : Enclave) (issues : HartIssues s h e) (free : RowanFree s) :
      HartRule (.eattest rd rs1 rs2) s
        (let r := attest s (getHart s h).encl e (rdX (getHart s h) rs1).toNat (rdX (getHart s h) rs2).toNat
         hartDone r.1 h rd (BitVec.ofNat 64 r.2))
  /-- R394, R404: while another call is under way or waits, each trap to Rowan waits: the hart issues the word again. -/
  | trapWaits (i : Instr) (x : BitVec 5 × W64) (s : State) (h : Nat) (e : Enclave) (trap : rowanTrapOf i = some x)
      (issues : HartIssues s h e) (taken : RowanTaken s) :
      HartRule i s { s with turn := .idle }
  /-- R394, R412: once sleep entry has begun, each returns BUSY. -/
  | trapBusy (i : Instr) (x : BitVec 5 × W64) (s : State) (h : Nat) (e : Enclave) (trap : rowanTrapOf i = some x)
      (issues : HartIssues s h e) (idle : RowanIdle s) (sleeping : s.rowan.sleeping = true) :
      HartRule i s (hartDone s h x.1 x.2)
  /-- R335: a word of custom-0 that no table lists raises the illegal-instruction exception. -/
  | illegal (s : State) (w : W32) (h : Nat) (turn : issuedHart s = some h) :
      HartRule (.illegalInstructionException w) s (hartExc s h (.illegalInstruction w))

end Sys2Proof.Machine
end

