-- ==== Sys2Proof/Safety/Homes.lean ====
section
/-! DEFINITION. What the events of the coherence homes do, as rules (R378 to R389). -/
namespace Sys2Proof.Machine

/-- The relation under which an event of a request meets its entry (R383). -/
def requestRel (s : State) (rq : HomeReq) : Nat := if rq.ev ≤ 6 then relOf s rq.grain rq.core else 3

/-- The request at place `i` may be taken: it is the oldest of its grain but for writes that are held back, its home has a pending record or a queue place
where the entry needs one, nothing holds its write, and the directory has room for the grain (R375, R376, R378, R380, R386). -/
structure Taken (s : State) (i : Nat) (rq : HomeReq) : Prop where
  at' : s.reqs[i]? = some rq
  oldest : (s.reqs.take i).any (fun r => decide (r.grain = rq.grain) && !writeHeld s r) = false
  free : writeHeld s rq = false
  room : homeRoom s rq.grain (eventEntry s rq.grain rq.ev (requestRel s rq) % 2 ^ 14) = true

/-- The home handles a request: its event meets the entry of the grain's protocol, state and relation (R383 to R385). -/
def handled (s : State) (i : Nat) (rq : HomeReq) : State :=
  homeEvent 4 { s with reqs := s.reqs.eraseIdx i } rq.grain rq.ev (requestRel s rq) rq

/-- The request events of R384: the place of the request, and the code of its event. -/
def requestRow : Instr → Option (Nat × Nat)
  | .lrd i => some (i, 0)
  | .lwr i => some (i, 1)
  | .rrd i => some (i, 2)
  | .rup i => some (i, 3)
  | .erd i => some (i, 5)
  | .ewr i => some (i, 6)
  | .cln i => some (i, 7)
  | .inv i => some (i, 8)
  | _ => none

inductive HomeRule : Instr → State → State → Prop where
  /-- R384: the request events, by their codes: LRD, LWR, RRD, RUP, ERD, EWR, CLN and INV. -/
  | request (x : Instr) (s : State) (i ev : Nat) (rq : HomeReq) (row : requestRow x = some (i, ev)) (event : rq.ev = ev)
      (t : Taken s i rq) (space : reclaim s rq.grain = none) : HomeRule x s (handled s i rq)
  /-- R378: a request that leaves no entry needs no place in a full directory. -/
  | requestNoEntry (x : Instr) (s : State) (i ev v : Nat) (rq : HomeReq) (row : requestRow x = some (i, ev)) (event : rq.ev = ev)
      (t : Taken s i rq) (full : reclaim s rq.grain = some v) (none' : smFind? (handled s i rq).dir rq.grain = none) :
      HomeRule x s (handled s i rq)
  /-- R378: one that needs an entry in a full directory waits while the least recently used stable entry is taken out, by an
  INV of its own. -/
  | requestEvicts (x : Instr) (s : State) (i ev v : Nat) (rq : HomeReq) (row : requestRow x = some (i, ev)) (event : rq.ev = ev)
      (t : Taken s i rq) (full : reclaim s rq.grain = some v) (some' : (smFind? (handled s i rq).dir rq.grain).isSome = true)
      (first : s.reqs.any (fun r => decide (r.grain = v) && decide (r.tag = .home)) = false) :
      HomeRule x s { s with reqs := s.reqs ++ [⟨8, v, ioAgent, true, true, (rangeFrom (v * 4) 4).map (2 * ·), .home, none⟩] }
  /-- R386: an entry whose one action is HOLD queues the request while its state is transient. -/
  | held (s : State) (i : Nat) (rq : HomeReq) (t : Taken s i rq) (ev : rq.ev = 1) (space : reclaim s rq.grain = none)
      (code : eventEntry s rq.grain 1 (relOf s rq.grain rq.core) / 2 ^ 24 % 8 = 0)
      (hold : eventEntry s rq.grain 1 (relOf s rq.grain rq.core) % 2 ^ 14 = aHOLD)
      (transient : stTrans (protoDesc s (protoOf s rq.grain) (eventEntry s rq.grain 1 (relOf s rq.grain rq.core) / 2 ^ 27 % 16)) = true) :
      HomeRule (.lwr i) s
        (enterState { s with reqs := s.reqs.eraseIdx i, heldReqs := s.heldReqs ++ [rq] } rq.grain
          (eventEntry s rq.grain 1 (relOf s rq.grain rq.core) / 2 ^ 27 % 16))
  /-- R385: an entry with a fault code completes the request with that fault and changes nothing at the home. -/
  | writeOnce (s : State) (i : Nat) (rq : HomeReq) (t : Taken s i rq) (ev : rq.ev = 1) (space : reclaim s rq.grain = none)
      (code : eventEntry s rq.grain 1 (relOf s rq.grain rq.core) / 2 ^ 24 % 8 = 2)
      (all : eventEntry s rq.grain 1 (relOf s rq.grain rq.core) / 2 ^ 23 % 2 = 0) :
      HomeRule (.lwr i) s (completeReq { s with reqs := s.reqs.eraseIdx i } rq (some ccWriteOnce))
  /-- R380, R384: a holder drops its copy; its message arrives after what the agent sent that slice before it. -/
  | evt (s : State) (grain : Nat) (who : Requester) (copy : holdsCopy s grain (requesterId who) = true)
      (order : sentBefore s grain (requesterId who) = false) :
      HomeRule (.evt grain who) s
        (homeEvent 4 s grain evEVT (relOf s grain (requesterId who)) ⟨evEVT, grain, requesterId who, false, false, [], .none, none⟩)
  /-- R386: an acknowledgement that is not its round's last is taken off those the round awaits. -/
  | ack (s : State) (grain : Nat) (who : Requester) (a : Agent) (p : PendRec) (agent : a = homeAgent grain (requesterId who))
      (sent : s.ackQ.find? (fun x => decide (x.2 = a) && decide (channelOf x.1 a = channelOf grain a)) = some (grain, a))
      (round : smFind? s.pends grain = some p) (awaits : p.await.any (fun x => decide (x.agent = a)) = true)
      (plain : p.await.all (fun x => decide (x.agent ≠ a) || decide (x.kind ≠ .share)) = true)
      (more : p.await.all (fun x => decide (x.agent = a)) = false) :
      HomeRule (.directoryAck grain who) s
        (dropOwed { s with ackQ := s.ackQ.erase (grain, a) } grain fun x => decide (x.agent = a))
  /-- R384, R386: the last acknowledgement of a round raises the round's event. -/
  | lastAck (s : State) (grain : Nat) (who : Requester) (a : Agent) (p : PendRec) (agent : a = homeAgent grain (requesterId who))
      (sent : s.ackQ.find? (fun x => decide (x.2 = a) && decide (channelOf x.1 a = channelOf grain a)) = some (grain, a))
      (round : smFind? s.pends grain = some p) (awaits : p.await.any (fun x => decide (x.agent = a)) = true)
      (plain : p.await.all (fun x => decide (x.agent ≠ a) || decide (x.kind ≠ .share)) = true)
      (last : p.await.all (fun x => decide (x.agent = a)) = true) :
      HomeRule (.directoryAck grain who) s
        (homeEvent 4 (dropOwed { s with ackQ := s.ackQ.erase (grain, a) } grain fun x => decide (x.agent = a)) grain p.round 3 p.req)
  /-- R384, R386: a round that goes unanswered for its period meets TMO. -/
  | tmo (s : State) (grain : Nat) (p : PendRec) (round : smFind? s.pends grain = some p)
      (late : p.since + protoTmo s (protoOf s grain) * 1000 ≤ s.clock) (few : p.tmos < 7) :
      HomeRule (.tmo grain) s
        (homeEvent 4 { s with pends := smPut s.pends grain { p with tmos := p.tmos + 1, since := s.clock } } grain evTMO 3 p.req)
  /-- R384: so does a grain that stands in a transient state of no round. -/
  | tmoState (s : State) (grain : Nat) (none' : smFind? s.pends grain = none)
      (transient : stTrans (protoDesc s (protoOf s grain) (getDir s grain).state) = true)
      (late : (getDir s grain).since + protoTmo s (protoOf s grain) * 1000 ≤ s.clock) :
      HomeRule (.tmo grain) s
        (homeEvent 4 (putDir s grain { getDir s grain with since := s.clock }) grain evTMO 3
          ⟨evTMO, grain, ioAgent, true, true, [], .none, none⟩)
  /-- R386: at the eighth the home gives the grain up: its copy is poisoned, the request faults with UNCORRECTABLE. -/
  | lost (s : State) (grain : Nat) (p : PendRec) (round : smFind? s.pends grain = some p)
      (late : p.since + protoTmo s (protoOf s grain) * 1000 ≤ s.clock) (eighth : 7 ≤ p.tmos) :
      HomeRule (.tmo grain) s (giveUp s grain p)
  /-- R379, R386: a core of the home's meadow, or the home agent, drops its copy or hands M back, and answers the home. -/
  | copy (s s1 : State) (grain : Nat) (who : Requester) (msg : Msg)
      (took : takeMsg s grain (agentOf (requesterId who)) [.inval, .recall, .share] = some (s1, msg))
      (direct : homeAgent grain (requesterId who) = agentOf (requesterId who)) :
      HomeRule (.copyInvalidation grain who) s (sendAck s1 grain (agentOf (requesterId who)))
  /-- R379: a core of another meadow leaves its proxy slice's set, which acknowledges for the meadow once none is left. -/
  | copyLast (s s1 : State) (grain m : Nat) (who : Requester) (msg : Msg)
      (took : takeMsg s grain (agentOf (requesterId who)) [.inval, .recall, .share] = some (s1, msg))
      (far : homeAgent grain (requesterId who) = .meadow m) (kind : msg.kind = .inval)
      (waits : awaited (putProxy s1 grain m (nsDel (getProxy s1 grain m) (requesterId who))) grain (.meadow m) = true)
      (last : toTake (putProxy s1 grain m (nsDel (getProxy s1 grain m) (requesterId who))) grain
        (getProxy (putProxy s1 grain m (nsDel (getProxy s1 grain m) (requesterId who))) grain m) = []) :
      HomeRule (.copyInvalidation grain who) s
        (sendAck (putProxy s1 grain m (nsDel (getProxy s1 grain m) (requesterId who))) grain (.meadow m))
  | copyMore (s s1 : State) (grain m : Nat) (who : Requester) (msg : Msg)
      (took : takeMsg s grain (agentOf (requesterId who)) [.inval, .recall, .share] = some (s1, msg))
      (far : homeAgent grain (requesterId who) = .meadow m) (kind : msg.kind = .inval)
      (more : toTake (putProxy s1 grain m (nsDel (getProxy s1 grain m) (requesterId who))) grain
        (getProxy (putProxy s1 grain m (nsDel (getProxy s1 grain m) (requesterId who))) grain m) ≠ []) :
      HomeRule (.copyInvalidation grain who) s (putProxy s1 grain m (nsDel (getProxy s1 grain m) (requesterId who)))
  /-- R379: an owner of another meadow hands M back through its proxy slice. -/
  | copyRecalled (s s1 : State) (grain m : Nat) (who : Requester) (msg : Msg)
      (took : takeMsg s grain (agentOf (requesterId who)) [.inval, .recall, .share] = some (s1, msg))
      (far : homeAgent grain (requesterId who) = .meadow m) (kind : msg.kind = .recall)
      (waits : awaited (putProxy s1 grain m (nsDel (getProxy s1 grain m) (requesterId who))) grain (.meadow m) = true) :
      HomeRule (.copyInvalidation grain who) s
        (sendAck (putProxy s1 grain m (nsDel (getProxy s1 grain m) (requesterId who))) grain (.meadow m))
  /-- R379: a proxy slice with no holder to take answers at once. -/
  | proxyNone (s s1 : State) (grain m : Nat) (msg : Msg) (took : takeMsg s grain (.meadow m) [.inval, .recall, .share] = some (s1, msg))
      (kind : msg.kind = .inval) (none' : toTake s1 grain (getProxy s1 grain m) = []) :
      HomeRule (.proxyInvalidation grain m) s (sendAck s1 grain (.meadow m))
  /-- R379: a proxy slice forwards an invalidation to the cores of its meadow that hold copies. -/
  | proxy (s s1 : State) (grain m : Nat) (msg : Msg) (took : takeMsg s grain (.meadow m) [.inval, .recall, .share] = some (s1, msg))
      (kind : msg.kind = .inval) (some' : toTake s1 grain (getProxy s1 grain m) ≠ []) :
      HomeRule (.proxyInvalidation grain m) s
        { s1 with msgs := s1.msgs ++ ((toTake s1 grain (getProxy s1 grain m)).filter fun c =>
            !(s1.msgs.any fun x => decide (x.grain = grain) && decide (x.dest = .core c))).map fun c => ⟨grain, .core c, msg.kind, msg.who⟩ }
  /-- R379: and a recall to the owner. -/
  | proxyRecall (s s1 : State) (grain m : Nat) (msg : Msg) (took : takeMsg s grain (.meadow m) [.inval, .recall, .share] = some (s1, msg))
      (kind : msg.kind ≠ .inval) (first : s1.msgs.any (fun x => decide (x.grain = grain) && decide (x.dest = .core msg.who)) = false) :
      HomeRule (.proxyInvalidation grain m) s { s1 with msgs := s1.msgs ++ [⟨grain, .core msg.who, msg.kind, msg.who⟩] }
  /-- R388: a replica that receives a lock locks and answers. -/
  | lock (s s1 : State) (grain m : Nat) (msg : Msg) (took : takeMsg s grain (replicaAgent m) [.lock] = some (s1, msg)) :
      HomeRule (.replicaLock grain m) s
        { s1 with locked := nsAdd s1.locked (lockKey grain m), ackQ := s1.ackQ ++ [(grain, replicaAgent m)] }
  /-- R388: it takes the update when that arrives, unlocks, and answers again. -/
  | update (s s1 : State) (grain m : Nat) (msg : Msg) (took : takeMsg s grain (replicaAgent m) [.update] = some (s1, msg)) :
      HomeRule (.replicaUpdate grain m) s
        { s1 with locked := nsDel s1.locked (lockKey grain m), ackQ := s1.ackQ ++ [(grain, replicaAgent m)] }
  /-- R226, R254: a dirty line is written back to its tier, and metered to the partition of its frame (R431). -/
  | writeBack (s : State) (line : Nat) (x : StaleLine) (dirty : smFind? s.stale line = some x) :
      HomeRule (.meadowStoreWriteBack line) s (meterTier { s with stale := smDel s.stale line } (line * 128) 128)

end Sys2Proof.Machine
end

