-- ==== Sys2Proof/Safety/Jobs.lean ====
section
/-! DEFINITION. What the events of the matrix unit and the copy units do, as rules (R286 to R323). -/
namespace Sys2Proof.Machine

/-! ### The matrix unit (R286 to R306) -/

/-- The record of a completing `rsv` as the core's other completed records meet it: bytes they cover are kept (R301). -/
def keptByte (tm : Team) (n : Nat) (d : BitVec 128) (a : Nat) : Bool :=
  (tm.recs.filter fun e => decide (e.1 ≠ n) && decide (dKind e.2 = dKind d) && !recPending tm e.1).any fun e =>
    decide (dBase e.2 ≤ a) && decide (a < dBase e.2 + dLen e.2)

/-- The running job of a core whose next k-step the budget covers (R292, R294, R296). -/
structure Steps (s : State) (core : Nat) (j : Job) (x : KNext) : Prop where
  job : (getCore s core).running.bind (getJob s core) = some j
  next : kNext s core j = some x
  runs : j.state = .running
  live : (getCore s core).liveTile = some x.t
  turn : (getCore s core).kSince < 16
  team : teamRuns s (core * 4 + j.tslot) = true
  paid : budgetOk (getCore s core) (kCharge s core j) = true

inductive MatrixRule : Instr → State → State → Prop where
  /-- R301: a reservation in AB or WB completes: the bytes of its region that no other record of the team covers are 0. -/
  | rsv (s : State) (core tslot : Nat) (n : Fin 16) (d : BitVec 128)
      (pending : recPending (getTeam s (core * 4 + tslot)) n.val = true)
      (record : smFind? (getTeam s (core * 4 + tslot)).recs n.val = some d) (kind : dKind d ≠ kCb) :
      MatrixRule (.rsvComplete core tslot n) s
        (modTeam (modCore s core fun c => setBuf c (dKind d) (smFilter (bufBytesOf c (dKind d)) fun a =>
            decide (a < dBase d) || decide (dBase d + dLen d ≤ a) || keptByte (getTeam s (core * 4 + tslot)) n.val d a))
          (core * 4 + tslot) fun x => { x with matPend := x.matPend.filter fun m => decide (m.op ≠ .rsv n.val) })
  /-- R283, R301: a reservation in CB that finds its tile without an owner gives the team the tile, its token at THREADS. -/
  | rsvTile (s : State) (core tslot : Nat) (n : Fin 16) (d : BitVec 128)
      (pending : recPending (getTeam s (core * 4 + tslot)) n.val = true)
      (record : smFind? (getTeam s (core * 4 + tslot)).recs n.val = some d) (kind : dKind d = kCb)
      (free : smFind? (getCore s core).tiles (recTile d) = none) :
      MatrixRule (.rsvComplete core tslot n) s
        (modTeam (modCore s core fun c =>
            { c with
              cb := smFilter c.cb fun a =>
                decide (a < dBase d) || decide (dBase d + dLen d ≤ a) || keptByte (getTeam s (core * 4 + tslot)) n.val d a
              tiles := smPut c.tiles (recTile d) ⟨tslot, false, decide (dFmt d = 10)⟩ })
          (core * 4 + tslot) fun x => { x with matPend := x.matPend.filter fun m => decide (m.op ≠ .rsv n.val) })
  /-- R302: a record is freed once no posted job of the team names it or works on its tile. -/
  | unrsv (s : State) (core tslot : Nat) (n : Fin 16) (d : BitVec 128)
      (word : (getTeam s (core * 4 + tslot)).matPend.any (fun m => decide (m.op = .unrsv n.val)) = true)
      (record : smFind? (getTeam s (core * 4 + tslot)).recs n.val = some d)
      (idle : ∀ j ∈ (getCore s core).jobs, j.posted = true → j.tslot = tslot →
        jobNames j n.val = false ∧ (dKind d = kCb → usesTile (getTeam s (core * 4 + tslot)) j (recTile d) = false)) :
      MatrixRule (.unrsvComplete core tslot n) s
        (modTeam (freeRec s (core * 4 + tslot) n.val) (core * 4 + tslot) fun x =>
          { x with matPend := x.matPend.filter fun m => decide (m.op ≠ .unrsv n.val) })
  /-- R289, R305: the token goes to THREADS once the team's earlier jobs on the tile have completed. -/
  | acq (s : State) (core tslot : Nat) (t : Fin 4) (m : MatPend)
      (word : (getTeam s (core * 4 + tslot)).matPend.find? (fun m => decide (m.op = .acq t.val)) = some m)
      (idle : (getCore s core).jobs.any
        (fun j => decide (j.tslot = tslot) && j.posted && decide (j.order < m.order) && jobOnTile j t.val) = false) :
      MatrixRule (.acqComplete core tslot t) s
        (modTeam (modCore (setToken s core t.val false) core fun c =>
            { c with liveTile := if c.liveTile = some t.val then none else c.liveTile })
          (core * 4 + tslot) fun x => { x with matPend := x.matPend.filter fun y => decide (y ≠ m) })
  /-- R294: the job that holds the array starts, and its tile becomes the live tile. -/
  | start (s : State) (core job t : Nat) (j : Job) (on : (getCore s core).power = .on)
      (holds : (getCore s core).running = some job) (found : getJob s core job = some j) (tile : jobTile j = some t)
      (ready : matReady s core j = true) :
      MatrixRule (.matrixJobStart core job) s
        (modJob (modCore s core fun c => if c.liveTile = some t then c else { c with liveTile := some t, lastA := [], lastB := [] })
          core job fun j => { j with state := .running })
  /-- R294, R298: with the array free, the job that arbitration chooses takes it and starts. -/
  | startFree (s : State) (core job t : Nat) (j : Job) (on : (getCore s core).power = .on)
      (free : (getCore s core).running = none) (chosen : arbitrate s core (candidates s core) = some j) (num : j.num = job)
      (found : getJob s core job = some j) (tile : jobTile j = some t) (ready : matReady s core j = true) :
      MatrixRule (.matrixJobStart core job) s
        (modJob (modCore (giveArray s core (candidates s core) j) core fun c =>
          if c.liveTile = some t then c else { c with liveTile := some t, lastA := [], lastB := [] })
          core job fun j => { j with state := .running })
  /-- R292, R295, R296, R431: a k-step accumulates into the tile, its charge leaves the budget, and it is metered whole. -/
  | kStep (s : State) (core : Nat) (j : Job) (x : KNext) (steps : Steps s core j x) :
      MatrixRule (.kStep core) s
        (let c := getCore s core
         let r := kStepTile c x.t x.int x.da x.db x.ga x.gb
         let charge := kCharge s core j
         let p := (getTeam s (core * 4 + j.tslot)).part
         let s1 := setCore s core { c with
           cb := r.1
           budget := BitVec.ofNat 32 (c.budget.toNat - charge)
           kSince := c.kSince + 1
           fedAt := s.clock
           fedFor := kStepCycles c x.base x.da x.db x.ga x.gb
           lastA := (fedVectors c.ab x.da x.ga).getLastD []
           lastB := (fedVectors c.wb x.db x.gb).getLastD [] }
         let s2 := modJob s1 core j.num fun j => { j with done := j.done + 1, fl := j.fl ||| r.2 }
         let s3 := modTeam s2 (core * 4 + j.tslot) fun t => { t with charge := t.charge + BitVec.ofNat 64 charge }
         let s4 := meter s3 p (mBusy4 + x.cls) (kStepCycles c x.base x.da x.db x.ga x.gb)
         corePmc (meter s4 p (mMac4 + x.cls) (dRows x.da * dRows x.db * kgLen (dFmt x.da))) core 6 1)
  /-- R297, R298: at a switch point the array goes to the job that arbitration chooses. -/
  | switch (s : State) (core : Nat) (j : Job) (on : (getCore s core).power = .on) (point : atSwitchPoint s core = true)
      (chosen : arbitrate s core (keepRunning s core (candidates s core)) = some j) :
      MatrixRule (.arraySwitchPoint core) s (giveArray s core (candidates s core) j)
  /-- R292: an `mma` job whose k-steps have ended sets its flags and frees its entry and the array. -/
  | mmaDone (s : State) (core t ka kb a0 b0 n w : Nat) (j : Job)
      (job : (getCore s core).running.bind (getJob s core) = some j) (runs : j.state = .running)
      (kind : j.kind = .mma t ka kb a0 b0 n) (ended : n ≤ j.done) (warp : flagWarp s core j = some w) :
      MatrixRule (.matrixJobComplete core) s
        (modCore (dropJob (orFlags s w j.fl) core j.num) core fun c => { c with running := none })
  /-- R303: a `zacc` job makes every word of its tile 0. -/
  | zaccDone (s : State) (core t : Nat) (j : Job) (job : (getCore s core).running.bind (getJob s core) = some j)
      (runs : j.state = .running) (kind : j.kind = .zacc t) (live : (getCore s core).liveTile = some t) (flags : j.fl = 0) :
      MatrixRule (.matrixJobComplete core) s
        (modCore (dropJob (setCore s core { getCore s core with
            cb := sramZero (getCore s core).cb (t * 0x10000) 0x10000, lastA := [], lastB := [] }) core j.num) core
          fun c => { c with running := none })
  /-- R296: at every multiple of 10 µs each core's BUDGET becomes the quantum Hazel gives it. -/
  | refill (s : State) (runs : s.boot.hazelHalted = false) :
      MatrixRule .budgetRefill s
        { s with
          refills := s.refills + 1
          cores := s.cores.map fun c =>
            let q := (Config.quantum c.1 (effectiveLimit s)).toNat
            if c.2.up then (c.1, { c.2 with budget := BitVec.ofNat 32 q, quantum := q, hazelQ := q }) else c }
  /-- R296, R411: while a late launch holds Hazel halted, a refill gives what Hazel last wrote, reduced with the limit. -/
  | refillHalted (s : State) (runs : s.boot.hazelHalted = true) :
      MatrixRule .budgetRefill s
        { s with
          refills := s.refills + 1
          cores := s.cores.map fun c =>
            let q := if effectiveLimit s < s.boot.haltLimit then c.2.hazelQ * effectiveLimit s / s.boot.haltLimit else c.2.hazelQ
            if c.2.up then (c.1, { c.2 with budget := BitVec.ofNat 32 q, quantum := q, hazelQ := c.2.hazelQ }) else c }
  /-- R33: an array's ramp of 1 µs ends, and arrays of its meadow that wait begin theirs while fewer than 16 ramp. -/
  | ramp (s : State) (core : Nat) (ramping : (getCore s core).power = .ramping) (due : (getCore s core).rampEnd ≤ s.clock) :
      MatrixRule (.arrayRampDone core) s (rampNext 16 (modCore s core fun c => { c with power := .on }) (core / 128))

/-! ### The copy units (R309 to R323) -/

/-- A copy job that runs and waits for nothing works on a piece of the card: the one at its progress offset, or, with `early`,
one beyond it (R247). The piece lies in the card's regions, aligned where its transfer begins (R311, R316). -/
structure PieceWorks (s : State) (core : Nat) (j : Job) (x : Piece) (early : Bool) : Prop where
  job : liveJob s core j.num = some j
  active : jobActive j = true
  slot : hopSlot j = true
  chosen : match early with
    | false => pieceAt s core j (allXfers j) j.offset = some x ∧ farPiece s core j = none
    | true => farPiece s core j = some x
  sound : pieceBad s core j x = none

/-- A place of a core: a scratchpad or a typed buffer. -/
def CpPlace.onCore : CpPlace → Prop
  | .step _ _ => True
  | .plain _ _ => True
  | .buf _ _ => True
  | _ => False

/-- The next read of a piece (R234): `n` bytes of one granule of its source from address `a`, the first that it lacks being
its byte `i`. -/
structure Reads (s : State) (core : Nat) (j : Job) (x : Piece) (i a n : Nat) (sp : CpPlace) : Prop where
  first : unread j x = some i
  addr : a = srcOf j x.x + (x.pos + i)
  len : n = Nat.min (Nat.min (x.x.len - (x.pos + i)) (16 - a % 16)) (srcCover s core j x.x x.pos - i)
  source : cpPlace s (core * 4 + j.tslot) j (if j.hop = 0 then 0 else j.fromHop) a n = sp

/-- The job that holds bytes read for a piece, from its byte `i`. -/
def withRead (x : Piece) (i : Nat) (bs : List Byte) (y : Job) : Job :=
  { y with rbuf := (bs.foldl (fun (m : SMap Byte × Nat) b => (smPut m.1 m.2 b, m.2 + 1)) (y.rbuf, x.off + i)).1 }

inductive CopyRule : Instr → State → State → Prop where
  /-- R247: a posted copy job starts once every earlier job it depends on has completed and its slot is claimed. -/
  | start (s : State) (core : Nat) (j : Job) (job : liveJob s core j.num = some j) (posted : j.posted = true) (kind : j.kind = .copy)
      (queued : j.state = .queued) (slot : hopSlot j = true) (free : jobFree s core j = true) :
      CopyRule (.copyJobStart core j.num) s (modJob s core j.num fun j => { j with state := .running })
  /-- R320: a card that found its ring full claims its slot when it may. -/
  | claim (s : State) (core : Nat) (j : Job) (job : liveJob s core j.num = some j) (posted : j.posted = true) (kind : j.kind = .copy)
      (none' : hopSlot j = false) (hop : j.hop = 0) (may : mayClaim s core (core * 4 + j.tslot) j = true) :
      CopyRule (.ringSlotClaim core j.num) s (claimSlot s core (core * 4 + j.tslot) j 0)
  /-- R321: a relay claims a slot of its next hop's ring. -/
  | claimHop (s : State) (core x : Nat) (j : Job) (r : Ring) (job : liveJob s core j.num = some j) (posted : j.posted = true)
      (kind : j.kind = .copy) (none' : hopSlot j = false) (hop : 0 < j.hop) (team : hopOf s (core * 4 + j.tslot) j j.hop = some x)
      (ring : getRing (getTeam s x) (cRing j.card) = some r) (room : ringFull r = false) :
      CopyRule (.ringSlotClaim core j.num) s
        (modJob (setRing s x (cRing j.card) (ringClaim r).1) core j.num fun j =>
          { j with slots := smPut j.slots j.hop (ringClaim r).2 })
  /-- R234, R311: a granule of a piece's source is read from a place of the cores. -/
  | read (s : State) (core i a n : Nat) (j : Job) (x : Piece) (early : Bool) (sp : CpPlace) (w : PieceWorks s core j x early)
      (r : Reads s core j x i a n sp) (from' : sp.onCore)
      (well : ∀ k phys, sp = .plain k phys → spBad s (k / 4) phys n = false) :
      CopyRule (.copyPieceDelivery core j.num) s (modJob s core j.num (withRead x i (cpRead s core j.hop sp none n)))
  /-- R260, R323: one that meets an uncorrectable error of a scratchpad is a fault of the job. -/
  | readUncorrectable (s : State) (core i a n k phys : Nat) (j : Job) (x : Piece) (w : PieceWorks s core j x false)
      (r : Reads s core j x i a n (.plain k phys)) (bad : spBad s (k / 4) phys n = true) :
      CopyRule (.copyPieceDelivery core j.num) s (jobFault s core j ccUncorrectable (codedVa (srcOf j x.x) + (x.pos + i)))
  /-- R227, R234, R311: and from global memory, whose grain the job may read. -/
  | readMemory (s : State) (core i a n va pa : Nat) (j : Job) (x : Piece) (early : Bool) (e : TlbEntry) (w : PieceWorks s core j x early)
      (r : Reads s core j x i a n (.glob va)) (access : cuAccess s core j va .r false early [] = .ok e pa)
      (well : readBad s e pa n = none) :
      CopyRule (.copyPieceDelivery core j.num) s
        (modJob (meterFetch s e pa) core j.num (withRead x i (cpRead s core j.hop (.glob va) (some (e, pa)) n)))
  /-- R23, R260, R323: one that meets poison, a failed tag or an uncorrectable error is a fault of the job. -/
  | readBad (s : State) (core i a n va pa c : Nat) (j : Job) (x : Piece) (e : TlbEntry) (w : PieceWorks s core j x false)
      (r : Reads s core j x i a n (.glob va)) (access : cuAccess s core j va .r false false [] = .ok e pa)
      (bad : readBad s e pa n = some c) :
      CopyRule (.copyPieceDelivery core j.num) s (jobFault (noteBad s e pa n) core j c (codedVa (srcOf j x.x) + (x.pos + i)))
  /-- R311, R320: a piece that has been read lands in a place of the cores: its bytes, its completion, its progress. -/
  | land (s : State) (core : Nat) (j : Job) (x : Piece) (early : Bool) (w : PieceWorks s core j x early) (read : unread j x = none)
      (into : (pieceDst s core j x).onCore) (allowed : cmplBad s (core * 4 + j.tslot) j (pieceDst s core j x) = none) :
      CopyRule (.copyPieceDelivery core j.num) s (landPiece s core j (allXfers j) x (pieceDst s core j x) none)
  /-- R226, R311: and in global memory, whose grain the job may write. -/
  | landMemory (s : State) (core va pa : Nat) (j : Job) (x : Piece) (early : Bool) (e : TlbEntry) (w : PieceWorks s core j x early)
      (read : unread j x = none) (into : pieceDst s core j x = .glob va)
      (allowed : cmplBad s (core * 4 + j.tslot) j (pieceDst s core j x) = none)
      (access : cuAccess s core j va .w (coversBlock x 512) early (pieceBytes j x) = .ok e pa) :
      CopyRule (.copyPieceDelivery core j.num) s (landPiece s core j (allXfers j) x (.glob va) (some (e, pa)))
  /-- R311, R316, R323: a piece that is not aligned, or leaves its regions, is a fault of the job. -/
  | pieceBad (s : State) (core c va : Nat) (j : Job) (x : Piece) (job : liveJob s core j.num = some j) (active : jobActive j = true)
      (slot : hopSlot j = true) (at' : pieceAt s core j (allXfers j) j.offset = some x)
      (alone : farPiece s core j = none)
      (bad : pieceBad s core j x = some (c, va)) :
      CopyRule (.copyPieceDelivery core j.num) s (jobFault s core j c va)
  /-- R321: the hop has delivered its last byte, and the next hop whose team is there begins. -/
  | hop (s : State) (core h : Nat) (j : Job) (job : liveJob s core j.num = some j) (active : jobActive j = true)
      (slot : hopSlot j = true) (ended : totalBytes (allXfers j) ≤ j.offset) (next : nextHop s core j = some h)
      (there : (hopOf s (core * 4 + j.tslot) j j.hop).isSome = true) :
      CopyRule (.relayHop core j.num) s
        (modJob (if cCmpl j.card = 1 then fillSlot s core j j.hop false else s) core j.num fun j' =>
          { j' with
            offset := 0
            fromHop := j.hop
            hop := h
            rdG := []
            wrG := []
            rbuf := []
            ahead := [] })
  /-- R320, R321: after the last byte of the last hop, a ring completion fills the slot, and the entry is freed. -/
  | done (s : State) (core : Nat) (j : Job) (job : liveJob s core j.num = some j) (active : jobActive j = true)
      (slot : hopSlot j = true) (ended : totalBytes (allXfers j) ≤ j.offset) (last : nextHop s core j = none)
      (follow : cFollow j.card = false) :
      CopyRule (.copyJobComplete core j.num) s
        (dropJob (if cCmpl j.card = 1 then fillSlot s core j j.hop false else s) core j.num)
  /-- R299: a card with a follow-on posts it at the card's place in the order. -/
  | doneFollow (s : State) (core : Nat) (j : Job) (job : liveJob s core j.num = some j) (active : jobActive j = true)
      (slot : hopSlot j = true) (ended : totalBytes (allXfers j) ≤ j.offset) (last : nextHop s core j = none)
      (follow : cFollow j.card = true) :
      CopyRule (.copyJobComplete core j.num) s
        (postFollow (dropJob (if cCmpl j.card = 1 then fillSlot s core j j.hop false else s) core j.num) core j)
  /-- R323: a job that met a fault ends: its slot is filled and marked, and a late fault arises in the lane that posted it. -/
  | fault (s : State) (core c : Nat) (va : W64) (j : Job) (job : liveJob s core j.num = some j) (met : j.faulted = some (c, va)) :
      CopyRule (.copyJobFault core j.num) s
        (lateFault (dropJob (if cCmpl j.card = 1 then fillSlot s core j j.hop true else s) core j.num)
          ((core * 64 + j.wslot) * 32 + j.lane) c 5 va j.pc [] none (BitVec.ofNat 32 (Nat.min j.offset 0xFFFFFFFF)))
  /-- R326: a waiting `await` takes its slot once it is filled; its threads go on. -/
  | await (s s1 : State) (core wslot t q n d : Nat) (rest : List (Nat × Nat × Nat × Nat))
      (waiting : ((warpThreads (core * 64 + wslot)).filterMap fun t =>
        match (getTh s t).wait with
        | some (.await q n d) => some (t, q, n, d)
        | _ => none) = (t, q, n, d) :: rest)
      (took : takeSlot s (core * 64 + wslot) (teamOfWarp s (core * 64 + wslot)) q n d = some s1) :
      CopyRule (.awaitTake core wslot) s
        (((t, q, n, d) :: rest).foldl (fun s x => modTh s x.1 fun th => { th with wait := none, waitCount := 0 }) s1)

end Sys2Proof.Machine
end

