-- ==== Sys2Proof/Safety/KnownWords.lean ====
section
/-! DEFINITION. Words written out from the field tables of 05_encoding.md, one of each family, with the instructions they stand
for. -/
namespace Sys2Proof.Machine

/-- A word of each family (R82, R84, R86, R96, R100, R104, R105). -/
def knownWords : List (BitVec 64 × Instr) := [
    (0x00007010100C0000, .add ⟨0, .always⟩ none 1 ⟨.w 2, .none⟩ ⟨.w 3, .none⟩),
    (0x00D07030100D2000, .icmp ⟨0, .always⟩ .geZ 3 (.w32 ⟨.w 2, .none⟩ ⟨.w 3, .none⟩)),
    (0x0440701017100000, .shl ⟨0, .always⟩ 1 ⟨.w 2, .none⟩ ⟨.imm 68, .none⟩),
    (0x04F07010100E0000, .add2 ⟨0, .always⟩ (some .s) 1 ⟨.w 2, .none⟩ ⟨.w 3, .none⟩),
    (0x08207048100F8418, .lea64 ⟨0, .always⟩ 2 ⟨.s 2, false⟩ ⟨.w 3, .hs⟩ ⟨.imm 66, .none⟩),
    (0x0900705837200000, .sadd ⟨0, .always⟩ 5 ⟨.s 6, false⟩ ⟨.imm 72, false⟩),
    (0x0C007010100C0000, .fadd ⟨0, .always⟩ .rne 1 ⟨.w 2, .none⟩ ⟨.w 3, .none⟩),
    (0x10207010100C0800, .hfma2 ⟨0, .always⟩ 1 ⟨.w 2, .none⟩ ⟨.w 3, .none⟩ ⟨.w 4, .none⟩),
    (0x14307010100E0200, .cvt ⟨0, .always⟩ .e4m3 .f32 true .rz 1 ⟨.w 2, .none⟩ (some ⟨.w 3, .none⟩)),
    (0x1820701010000000, .ex2 ⟨0, .always⟩ 1 ⟨.w 2, .none⟩),
    (0x1C00000007FFFA00, .bra (.pred 0 false) (-3)),
    (0x1C60700000000000, .exit .always),
    (0x20007010100C2000, .shfl ⟨0, .always⟩ (.lanes .rot 1 ⟨.w 2, .none⟩ ⟨.w 3, .none⟩)),
    (0x2440706810142000, .ld ⟨0, .always⟩ .w32 false 6 ⟨.s 2, false⟩ ⟨.w 5, .none⟩ 16),
    (0x28A0701010119000, .atom ⟨0, .always⟩ .cas .rlx .pkg 1 ⟨.w 1, false⟩ (.v32 ⟨.w 4, .none⟩)),
    (0x2BA0700018000000, .barSync .always 3),
    (0x2C00704844261400, .rsv ⟨0, .always⟩ 4 ⟨.s 8, false⟩ ⟨.s 9, .none⟩ ⟨.s 10, .none⟩),
    (0x3050700860000000, .cpyc ⟨0, .always⟩ ⟨.s 12, .none⟩),
    (0x3400707827080000, .qsub ⟨0, .always⟩ 7 ⟨.s 4, .none⟩ ⟨.imm 66, .none⟩),
    (0x3490002847640000, .rcall (.pred 0 false) 2 ⟨.s 8, false⟩ ⟨.imm 89, .none⟩),
    (0x3810700020200000, .mts .always .tvec (.v64 ⟨.w 2, false⟩)),
    (0x8008130380000001, .addLongImmediate (some 4) 9 (.s 3) 0x80000001),
    (0x4581206000410067, .pairAdd ⟨.p0, 4, .w 3, .neg⟩ (.reg .mov ⟨.always, 9, .w 6, .none⟩))]

/-- The words decode to their instructions, and so do the five extension words (R334, R394). -/
def KnownWords : Prop :=
  (∀ x ∈ knownWords, decode x.1 = .ok x.2) ∧
  decodeHart 0x00C5850B = .ok (.spawn 10 11 12) ∧ decodeHart 0x0005950B = .ok (.joinw 10 11) ∧
  decodeHart 0x0005A50B = .ok (.ecreate 10 11) ∧ decodeHart 0x0005B50B = .ok (.edestroy 10 11) ∧
  decodeHart 0x00C5C50B = .ok (.eattest 10 11 12)

end Sys2Proof.Machine
end

