-- ==== Sys2Proof/Safety/Rowan.lean ====
section
/-! DEFINITION. What Rowan's calls, shootdowns and migrations do, as rules (R333, R371 to R376, R390 to R392, R403 to R406,
R434). -/
namespace Sys2Proof.Machine

/-- Rowan takes a call of function `f` (R372, R404, R434): none is under way, no usage record is due, and it is the oldest; `s1` is
the state without it. -/
def Takes (s : State) (f : Nat) (c : Call) (s1 : State) : Prop := headCall s [f] = some (c, s1)

/-- A call names a live enclave of its caller's partition (R403). -/
def Targets (s : State) (c : Call) (encl : Nat) (e : Enclave) : Prop := callTarget s c = .inr (encl, e)

/-- A MAP that R371 lets map its pages `vas` at the frames from `pa` up. -/
structure Maps (s : State) (c : Call) (encl : Nat) (e : Enclave) (vas : List Nat) : Prop where
  fields : argsWithin c [mask64, mask64, 2 ^ 34 - 1, 0x37FFFF] = true
  target : Targets s c encl e
  range : callRange c = some vas
  frame : argW c 1 % 2 ^ argBits c = 0
  state : argState c ≠ 0
  unmapped : vas.all (fun va => pageUnmapped s (argAsid c) va (argBits c)) = true
  usable : ((List.range vas.length).map fun i => argW c 1 + i * 2 ^ argBits c).all
    (fun a => frameUsable s (callPart s c) encl (argState c) a (argBits c)) = true
  perms : permOk (argRwx c) (argState c) = true

/-- The frames of a MAP, taken for the enclave (R371). -/
def taken (s : State) (c : Call) (encl n : Nat) : State :=
  ((List.range n).map fun i => argW c 1 + i * 2 ^ argBits c).foldl
    (fun s' a => takeMapped s' (callPart s c) encl (argAsid c) (argState c) a (argBits c)) s

/-- The entries of the walks of a call's pages, read at their homes (R225). -/
def walked (s : State) (c : Call) (vas : List Nat) : State := vas.foldl (fun s va => touchWalk s (argAsid c) va) s

/-- The bytes of a page as its tier stores them (R400, R406). -/
def storedPage (s : State) (pa : Nat) : List Byte := (blocksOf 64 pa 4096).flatMap (storedBlock s)

/-- Whether a page's leaf may carry the permissions of a PROT (R362, R367, R371). -/
def protOk (s : State) (c : Call) (pte : W64) : Bool :=
  if pteMt pte = 1 then decide (argRwx c = 3) else permOk (argRwx c) (potState (potEntry s (potGov s (ptePa pte / 4096))))

inductive RowanRule : Instr → State → State → Prop where
  /-- R371: MAP takes the frames and writes the leaves; the call returns OK. -/
  | map (s s1 s2 : State) (c : Call) (encl x : Nat) (e : Enclave) (vas : List Nat) (takes : Takes s 0x01 c s1)
      (may : Maps s1 c encl e vas)
      (room : mapPages (callPart s1 c) encl (argAsid c) (argBits c) (argRwx c) vas (argW c 1) (taken s1 c encl vas.length) = .ok s2 x) :
      RowanRule .map s (callDone s2 c stOk)
  /-- R403: a block whose reserved fields are not 0 returns BAD_ARGS and changes nothing. -/
  | mapBad (s s1 : State) (c : Call) (takes : Takes s 0x01 c s1)
      (bad : argsWithin c [mask64, mask64, 2 ^ 34 - 1, 0x37FFFF] = false) :
      RowanRule .map s (callDone s1 c stBadArgs)
  /-- R403: so does the naming of an enclave that is not live, with NO_ENCLAVE. -/
  | mapNone (s s1 : State) (c : Call) (x : Nat) (takes : Takes s 0x01 c s1)
      (good : argsWithin c [mask64, mask64, 2 ^ 34 - 1, 0x37FFFF] = true) (none' : callTarget s1 c = .inl x) :
      RowanRule .map s (callDone s1 c x)
  /-- R371, R373: UNMAP clears the leaves and starts the shootdown, which frees the frames where the call asks for it. -/
  | unmap (s s1 : State) (c : Call) (encl : Nat) (e : Enclave) (vas : List Nat) (leaves : List (W64 × Nat)) (takes : Takes s 0x02 c s1)
      (fields : argsWithin c [mask64, 0, 2 ^ 34 - 1, 0x100FFFF] = true) (target : Targets s1 c encl e) (range : callRange c = some vas)
      (mapped : vas.filterMap (fun va => pageLeaf s1 (argAsid c) va (argBits c)) = leaves) (all : leaves.length = vas.length) :
      RowanRule .unmap s
        (startShoot (clearPages (walked s1 c vas) (argAsid c) (argBits c) vas) (argAsid c) (argW c 0) (argW c 0 + argCount c * 2 ^ argBits c)
          (if (argW c 3).testBit 24 then
            .free ((leaves.filter fun l => decide (pteMt l.1 = 0)).map fun l => (ptePa l.1 / 4096, argBits c)) else .none) (some c))
  /-- R371, R373: PROT rewrites the leaves with the new permissions and starts the shootdown. -/
  | prot (s s1 : State) (c : Call) (encl : Nat) (e : Enclave) (vas : List Nat) (leaves : List (Nat × W64 × Nat))
      (takes : Takes s 0x03 c s1) (fields : argsWithin c [mask64, 0, 2 ^ 34 - 1, 0x7FFFF] = true) (target : Targets s1 c encl e)
      (range : callRange c = some vas)
      (mapped : vas.filterMap (fun va => (pageLeaf s1 (argAsid c) va (argBits c)).map fun l => (va, l)) = leaves)
      (all : leaves.length = vas.length) (perms : leaves.all (fun l => protOk s1 c l.2.1) = true) :
      RowanRule .prot s
        (startShoot (leaves.foldl (fun s l => writeLeaves s l.2.2 l.1 (argBits c) fun i =>
            if pteMt l.2.1 = 1 then l.2.1.toNat else leafWord (ptePa l.2.1 + 4096 * i) (argBits c) (argRwx c)) (walked s1 c vas))
          (argAsid c) (argW c 0) (argW c 0 + argCount c * 2 ^ argBits c) .none (some c))
  /-- R375: MOVE gives the new frames the page's owner, state and tag, copies the page, and begins the passes. -/
  | move (s s1 : State) (c : Call) (encl key : Nat) (e : Enclave) (l : W64 × Nat) (takes : Takes s 0x04 c s1)
      (fields : argsWithin c [mask64, mask64, 3 * 2 ^ 32, 0xFFFF] = true) (target : Targets s1 c encl e)
      (place : argW c 0 % 2 ^ argBits c = 0 ∧ argW c 0 < 2 ^ 57 ∧ argW c 1 % 2 ^ argBits c = 0)
      (leaf : pageLeaf s1 (argAsid c) (argW c 0) (argBits c) = some l) (plain : pteMt l.1 ≠ 1) (exists' : paOk (argW c 1) = true)
      (held : backed s1 (argW c 1) = true ∧ backed s1 (ptePa l.1) = true)
      (free : freeIn s1 (callPart s1 c) (argW c 1 / 4096) (argBits c) = true)
      (same : sameProto s1 (ptePa l.1) (argW c 1) (argBits c) = true)
      (ver : Nat) (stamp : smFind? s1.stamps (potGov s1 (ptePa l.1 / 4096)) = some (.tagged key ver)) :
      RowanRule .move s
        (let pe := potEntry s1 (potGov s1 (ptePa l.1 / 4096))
         let s2 := stampPage (setPage s1 (argW c 1 / 4096) (argBits c) (potOwner pe) (potState pe)) (argW c 1 / 4096) (argBits c) key
         let s3 := copyPart (touchWalk s2 (argAsid c) (argW c 0)) (ptePa l.1) (argW c 1) (2 ^ argBits c)
         { s3 with rowan := { s3.rowan with
             migr := some ⟨c, argAsid c, argW c 0, argBits c, ptePa l.1, argW c 1, 1, [], false, false⟩ } })
  /-- R375: with more than 64 lines dirtied, another pass has their homes write them back and copies them. -/
  | pass (s : State) (m : Migration) (runs : s.rowan.migr = some m) (stage : m.forward = false ∧ m.final = false)
      (many : 64 < m.dirty.length ∧ m.pass < 16) :
      RowanRule .migrationPass s
        (let s1 := copyLines (cleanLines s m.dirty) m.src m.dst m.dirty
         { s1 with rowan := { s1.rowan with migr := some { m with dirty := [], pass := m.pass + 1 } } })
  /-- R375: with at most 64, or after the 16th pass, the final pass begins, in which the page's writes are held and every copy of
  its grains is recalled. -/
  | finalPass (s : State) (m : Migration) (runs : s.rowan.migr = some m) (stage : m.forward = false ∧ m.final = false)
      (few : m.dirty.length ≤ 64 ∨ 16 ≤ m.pass) :
      RowanRule .migrationPass s
        (recallPage { setMig s (m.src / 4096) true with rowan := { s.rowan with migr := some { m with final := true } } } m)
  /-- R375: once no round of the page is under way, the page is switched to its new frame. -/
  | switch (s : State) (m : Migration) (runs : s.rowan.migr = some m) (stage : m.forward = false ∧ m.final = true)
      (quiet : s.pends.any (fun p => grainIn m.src m.bits p.1) = false) :
      RowanRule .migrationPass s (switchFrame s m)
  /-- R256, R373: an agent drops its translations of the range and acknowledges. -/
  | ack (s : State) (d : Shoot) (a : ShootAgent) (runs : s.rowan.shoot = some d) (awaits : a ∈ d.agents) (ready : shootReady s d a = true)
      (more : d.agents.filter (fun x => decide (x ≠ a)) ≠ []) :
      RowanRule (.shootdownAck a) s
        (shootDrop { s with rowan := { s.rowan with shoot := some { d with agents := d.agents.filter fun x => decide (x ≠ a) } } } d a)
  /-- R373: the last acknowledgement completes the shootdown and the call that asked for it. -/
  | lastAck (s : State) (d : Shoot) (a : ShootAgent) (runs : s.rowan.shoot = some d) (awaits : a ∈ d.agents)
      (ready : shootReady s d a = true) (last : d.agents.filter (fun x => decide (x ≠ a)) = []) :
      RowanRule (.shootdownAck a) s
        (finishShoot (shootDrop { s with rowan := { s.rowan with shoot := some { d with agents := [] } } } d a) { d with agents := [] })
  /-- R405: SEAL clears the page's leaf and starts the shootdown, after which the page is exported. -/
  | sealPage (s s1 : State) (c : Call) (encl : Nat) (e : Enclave) (l : W64 × Nat) (takes : Takes s 0x08 c s1)
      (fields : argsWithin c [mask64, mask64, 0, 0xFFFF, mask64] = true) (target : Targets s1 c encl e)
      (place : argW c 0 % 4096 = 0 ∧ argW c 0 < 2 ^ 57 ∧ argW c 1 % 4096 = 0)
      (new : e.seals.any (fun x => decide (x.page = argW c 0)) = false)
      (leaf : pageLeaf s1 (argAsid c) (argW c 0) 12 = some l) (plain : pteMt l.1 ≠ 1)
      (own : potOwner (potEntry s1 (potGov s1 (ptePa l.1 / 4096))) = encl) (exists' : paOk (argW c 1) = true)
      (held : backed s1 (argW c 1) = true ∧ backed s1 (ptePa l.1) = true)
      (free : freeIn s1 e.part (argW c 1 / 4096) 12 = true) (room : e.seals.length < 2 ^ 20) :
      RowanRule .sealPage s
        (startShoot (clearPages (touchWalk s1 (argAsid c) (argW c 0)) (argAsid c) 12 [argW c 0]) (argAsid c) (argW c 0) (argW c 0 + 4096)
          (.sealPage (argW c 0) (ptePa l.1) (argW c 1) (leafRwx l.1) (potState (potEntry s1 (potGov s1 (ptePa l.1 / 4096)))))
          (some c))
  /-- R406: an image that matches its entry, as its tier holds it, is decrypted in place and mapped as it was, and leaves the seal
  list; one whose code does not match returns BAD_SEAL and changes nothing. That an image with poison or an uncorrectable error in
  it does not match is notes/assumptions/16.md. -/
  | unsealPage (s s1 : State) (c : Call) (encl : Nat) (e : Enclave) (x : SealEntry) (k : KeySlot) (takes : Takes s 0x09 c s1)
      (fields : argsWithin c [mask64, mask64, 0, 0xFFFF] = true) (target : Targets s1 c encl e)
      (place : argW c 0 % 4096 = 0 ∧ argW c 0 < 2 ^ 57 ∧ argW c 1 % 4096 = 0)
      (entry : e.seals.find? (fun x => decide (x.page = argW c 0)) = some x)
      (unmapped : pageUnmapped s1 (argAsid c) (argW c 0) 12 = true) (exists' : paOk (argW c 1) = true)
      (area : (getPart s1 e.part).areas.any (fun f => decide (f ≤ argW c 1 / 4096) && decide (argW c 1 / 4096 < f + 512)) = false)
      (held : backed s1 (argW c 1) = true)
      (image : (potState (potEntry s1 (potGov s1 (argW c 1 / 4096))) = psSealed ∧
        enclPart s1 (potOwner (potEntry s1 (potGov s1 (argW c 1 / 4096)))) = some e.part) ∨
        freeIn s1 e.part (argW c 1 / 4096) 12 = true)
      (key : smFind? s1.keys e.kslot = some k) :
      RowanRule .unsealPage s
        (if ((blocksOf 64 (argW c 1) 4096).any fun b => nsHas s1.poison b || nsHas s1.ecc b) = false ∧
            sealMac k encl (argW c 0) x.gen (storedPage s1 (argW c 1)) = x.mac then
          (match mapPage (setEncl (ioPut (takePage (meterLines (ioTouch (touchWalk s1 (argAsid c) (argW c 0)) (argW c 1) 4096 false)
                (argW c 1) 4096) (argW c 1 / 4096) 12 encl (argAsid c) x.pot) (argW c 1)
              (exportBlocks Config.xtsDecrypt k encl (argW c 0) x.gen (storedPage s1 (argW c 1)))) encl
                { e with seals := e.seals.filter fun y => decide (y.page ≠ argW c 0) })
              e.part encl (argAsid c) (argW c 0) 12 (argW c 1) x.rwx with
           | .ok s2 _ => callDone s2 c stOk
           | .overlap => callDone s1 c stOverlap
           | .quota => callDone s1 c stQuota)
        else callDone s1 c stBadSeal)
  /-- R434: USAGE emits a record of a live partition and writes it to the caller's buffer. -/
  | usage (s s1 s2 : State) (c : Call) (takes : Takes s 0x10 c s1) (fields : argsWithin c [mask64, 0, 0, 0x3F] = true)
      (live : (getPart s1 (argW c 3)).live = true) (own : callHyp s1 c = true ∨ argW c 3 = callPart s1 c)
      (wrote : writeSpanAt (emitUsage s1 (argW c 3) 1).1 (getTeam s1 (teamOf s1 c.thread)).asid (argW c 0)
        (emitUsage s1 (argW c 3) 1).2 = some s2) :
      RowanRule .usage s (callDone s2 c stOk)
  /-- R404: a caller without hypervisor privilege that names another partition is refused, whether or not that one is live. -/
  | usageDenied (s s1 : State) (c : Call) (takes : Takes s 0x10 c s1) (fields : argsWithin c [mask64, 0, 0, 0x3F] = true)
      (own : callHyp s1 c = false ∧ argW c 3 ≠ callPart s1 c) :
      RowanRule .usage s (callDone s1 c stNotOwner)
  /-- R333: SVCQ sets up the partition's service queue, empty, at a header in its window. -/
  | svcq (s s1 : State) (c : Call) (e : Enclave) (p0 pa : Nat) (takes : Takes s 0x11 c s1)
      (fields : argsWithin c [mask64, mask64, 31, 0] = true) (size : 4 ≤ argW c 2 ∧ argW c 2 ≤ 12)
      (agent : c.encl = (getPart s1 (callPart s1 c)).agent) (found : getEncl s1 c.encl = some e)
      (place : argW c 0 % 64 = 0 ∧ argW c 1 % 32 = 0 ∧ argW c 1 + 32 * 2 ^ argW c 2 ≤ 2 ^ 57)
      (mapped : nowPa s1 e.asid (argW c 0) = some p0) (window : windowHdr s1 (callPart s1 c) e.asid (argW c 0) = some pa)
      (items : privatePages s1 e.asid c.encl (argW c 1) (32 * 2 ^ argW c 2) = stOk) (idle : svcqBusy s1 (callPart s1 c) = false) :
      RowanRule .svcq s
        (callDone (modPart (noteSpoilt s1 (ioPut s1 pa (freshHdr (argW c 1) 1 (argW c 2))) pa 64) (callPart s1 c) fun y =>
          { y with svcq := some (argW c 0, e.asid) }) c stOk)
  /-- R20: BIND binds an IDE selective stream to an enclave. -/
  | bind (s s1 : State) (c : Call) (encl : Nat) (e : Enclave) (takes : Takes s 0x19 c s1)
      (fields : argsWithin c [0, 0, 0xFF, 0xFFFF] = true) (target : Targets s1 c encl e) :
      RowanRule .bind s
        (callDone { s1 with host := { s1.host with
          streams := smPut s1.host.streams (argW c 2) { smGet ({} : Stream) s1.host.streams (argW c 2) with encl := encl } } } c stOk)
  /-- R390, R391: PLOAD loads an image that passes every check; of one that fails, the report of its first failure is
  written, and it is not loaded. -/
  | pload (s s1 : State) (c : Call) (img : List Byte) (pa : Nat) (takes : Takes s 0x20 c s1) (hyp : callHyp s1 c = true)
      (fields : argsWithin c [mask64, 7, mask64] = true) (place : argW c 1 ≠ 0 ∧ argW c 0 % 64 = 0 ∧ argW c 2 % 16 = 0)
      (read : readSpanAt s1 (getTeam s1 (teamOf s1 c.thread)).asid (argW c 0) 4160 = some img)
      (report : nowPa s1 (getTeam s1 (teamOf s1 c.thread)).asid (argW c 2) = some pa) (free : protoInUse s1 (argW c 1) = false) :
      RowanRule .pload s
        (match imgFailure img with
         | none => callDone { ioTouchSpan s1 (getTeam s1 (teamOf s1 c.thread)).asid (argW c 0) 4160 with
             protos := smPut s1.protos (argW c 1) img } c stOk
         | some f =>
           match ioWriteVa (ioTouchSpan s1 (getTeam s1 (teamOf s1 c.thread)).asid (argW c 0) 4160)
             (getTeam s1 (teamOf s1 c.thread)).asid (argW c 2) (imgReport f) with
           | some s2 => callDone s2 c stCheckFailed
           | none => callDone s1 c stBadArgs)
  /-- R390: a caller without hypervisor privilege is refused. -/
  | ploadDenied (s s1 : State) (c : Call) (takes : Takes s 0x20 c s1) (hyp : callHyp s1 c = false) :
      RowanRule .pload s (callDone s1 c stNoPrivilege)
  /-- R390: PUNLOAD frees a protocol's ID that no range names. -/
  | punload (s s1 : State) (c : Call) (takes : Takes s 0x21 c s1) (hyp : callHyp s1 c = true) (fields : argsWithin c [0, 7] = true)
      (id : argW c 1 ≠ 0) (free : protoInUse s1 (argW c 1) = false) :
      RowanRule .punload s (callDone { s1 with protos := smDel s1.protos (argW c 1) } c stOk)
  /-- R390, R392: RANGE flushes the grains the old and the new entry hold, and writes the entry. -/
  | range (s s1 : State) (c : Call) (takes : Takes s 0x22 c s1) (hyp : callHyp s c = true) (good : rangeStatus s c = stOk)
      (valid : rangeV (BitVec.ofNat 64 (argW c 1)) = true) :
      RowanRule .range s
        (let key := argW c 0 / 256 % 64 * 64 + argW c 0 % 64
         let s2 := flushGrains s1 fun g => rangeHolds (smGet 0 s.ranges key) g || rangeHolds (BitVec.ofNat 64 (argW c 1)) g
         callDone { s2 with ranges := smPut s2.ranges key (BitVec.ofNat 64 (argW c 1)) } c stOk)
  /-- R390, R392: an entry whose V is 0 frees the range, whose grains are flushed. -/
  | rangeClear (s s1 : State) (c : Call) (takes : Takes s 0x22 c s1) (hyp : callHyp s c = true) (good : rangeStatus s c = stOk)
      (clear : rangeV (BitVec.ofNat 64 (argW c 1)) = false) :
      RowanRule .range s
        (let key := argW c 0 / 256 % 64 * 64 + argW c 0 % 64
         let s2 := flushGrains s1 fun g => rangeHolds (smGet 0 s.ranges key) g || rangeHolds (BitVec.ofNat 64 (argW c 1)) g
         callDone { s2 with ranges := smDel s2.ranges key } c stOk)
  /-- R390: a caller without hypervisor privilege is refused, and so is a change that a check refuses. -/
  | rangeDenied (s s1 : State) (c : Call) (takes : Takes s 0x22 c s1) (hyp : callHyp s c = false) :
      RowanRule .range s (callDone s1 c stNoPrivilege)
  | rangeRefused (s s1 : State) (c : Call) (takes : Takes s 0x22 c s1) (hyp : callHyp s c = true) (bad : rangeStatus s c ≠ stOk) :
      RowanRule .range s (callDone s1 c (rangeStatus s c))

end Sys2Proof.Machine
end

