-- ==== Sys2Proof/Safety/Encoding.lean ====
section
/-! DEFINITION. When a word is an instruction's: the two directions of encoding. -/
namespace Sys2Proof

/-- The decoder reads the word as the instruction. -/
def EncWord.readsAs : EncWord → Instr → Prop
  | .nimia w, i => decode w = .ok i
  | .hart w, i => decodeHart w = .ok i

end Sys2Proof
end

