-- ==== Sys2Proof/Safety/Ends.lean ====
section
/-! DEFINITION. The words that end a thread, return from a handler or trap, and the entry to a handler: what completes in
them and what they do. -/
namespace Sys2Proof.Machine

/-- What follows the commit of a word that ends threads or handler states: the team resumes when its last handler-state
thread has returned (R205). -/
def EndsAt (i : Instr) (info : WInfo) (makes : State → List Nat → State) (out : State → Nat → Eff) (post : State → Nat → State)
    (s : State) (w : Nat) (l : List Nat) : Prop :=
  (actingIn s info.guard l ≠ [] → ∃ s1, exec i s = .next (resumeIfDone (post s1 w) (teamOfWarp s w)) ∧
    WordDone s (makes s (actingIn s info.guard l)) s1 info w l (actingIn s info.guard l) (out s)) ∧
  (actingIn s info.guard l = [] → ∃ s1, exec i s = .next (resumeIfDone (post s1 w) (teamOfWarp s w)) ∧
    WordDone s s s1 info w l [] (fun _ => {}))

/-- `exit` (R174): the acting threads become exited, and one in handler state counts as returned; a warp all of whose
threads have exited drops its open card (R317). -/
def ExitCompletes : Prop :=
  ∀ g s w l, Issues s { guard := g, reports := true } w l →
    EndsAt (.exit g) { guard := g, reports := true }
      (fun s acting => inThreads s acting fun _ x => { x with exited := true, handler := false, returned := x.returned || x.handler })
      (fun _ _ => {}) dropOpenCard s w l

/-- `rett` (R204), where every acting thread is in handler state: it ends that state in each and sets its PC to TEPC with
bits 2:0 cleared. -/
def RettCompletes : Prop :=
  ∀ g s w l, Issues s { guard := g } w l → (∀ t ∈ actingIn s g l, (getTh s t).handler = true) →
    EndsAt (.rett g) { guard := g }
      (fun s acting => inThreads s acting fun _ x => { x with handler := false, returned := true, pc := x.tepc &&& ~~~7 })
      (fun s t => { jump := some ((getTh s t).tepc &&& ~~~7) }) (fun s1 _ => s1) s w l

/-! ### Traps (R193, R199, R203) -/

/-- The threads of a word trap (R199): the word commits in no thread, so every thread keeps its registers and PC, memory
stays, and the team halts, or ends where it has no handler or a trapping thread is in handler state (R203). -/
structure TrapsAt (i : Instr) (s s' : State) (w : Nat) (traps : List (Nat × TrapInfo)) : Prop where
  answer : exec i s = .next s'
  turn : s'.turn = .idle
  mem : s'.mem = s.mem
  halts : (getTeam s (teamOfWarp s w)).tvec ≠ 0 → (∀ x ∈ traps, (getTh s x.1).handler = false) →
    (getTeam s' (teamOfWarp s w)).halted = true ∧
    (∀ t, (getTh s' t).regs = (getTh s t).regs ∧ (getTh s' t).preds = (getTh s t).preds ∧ (getTh s' t).pc = (getTh s t).pc) ∧
    (∀ x ∈ traps, (getTh s' x.1).trapPend = some x.2) ∧
    (∀ t, t ∉ traps.map (·.1) → (getTh s' t).trapPend = (getTh s t).trapPend)
  ends : (getTeam s (teamOfWarp s w)).tvec = 0 ∨ (∃ x ∈ traps, (getTh s x.1).handler = true) →
    (getTeam s' (teamOfWarp s w)).ended = true

/-- The software traps and the reserved opcode: what each raises, and in which threads. -/
inductive TrapWord : Instr → State → Nat → List (Nat × TrapInfo) → Prop where
  /-- `trap a` (R209): TEPC holds the next word's address and TVA the operand. -/
  | trap (g : Guard) (a : Src) (s : State) (w : Nat) (l : List Nat)
      (h : Issues s { guard := g, reads := (srcRegs [a] []).1, sreads := (srcRegs [a] []).2 } w l)
      (ha : actingIn s g l ≠ []) :
      TrapWord (.trap g a) s w ((actingIn s g l).map fun t =>
        (t, ⟨0x0A, 0, false, false, (getTh s t).pc + 8, (rd32 s t a).zeroExtend 64, none⟩))
  /-- `ebrk` (R209). -/
  | ebrk (g : Guard) (s : State) (w : Nat) (l : List Nat) (h : Issues s { guard := g } w l) (ha : actingIn s g l ≠ []) :
      TrapWord (.ebrk g) s w ((actingIn s g l).map fun t => (t, ⟨0x0B, 0, false, false, (getTh s t).pc, 0, none⟩))
  /-- A word whose OPC is reserved (R102, step 1) traps in every issued thread. -/
  | illegalOpcode (x : BitVec 64) (s : State) (w : Nat) (l : List Nat) (h : Issues s {} w l) :
      TrapWord (.illegalOpcode x) s w (l.map fun t => (t, ⟨0x01, 0, false, false, (getTh s t).pc, 0, none⟩))

/-- Every software trap and reserved opcode raises its trap. -/
def TrapsRaised : Prop := ∀ i s w traps, TrapWord i s w traps → ∃ s', TrapsAt i s s' w traps

/-- HANDLER_ENTRY (R50, R193, R200, R202), once the words of the halted team have completed: TSKID is written in every warp;
each trapping thread writes its record and goes to TVEC in handler state with its registers; the other threads stay but for
the wait counts of R45; and a pre-emption that arrived during the halt takes effect: the last value held for a warp becomes
RUN of its bind record. -/
structure HandlerEntered (core tslot : Nat) (s s' : State) : Prop where
  answer : exec (.handlerEntry core tslot) s = .next s'
  rest : { s' with warps := s.warps, threads := s.threads, teams := s.teams } = s
  teams : ∀ k, getTeam s' k = if k = core * 4 + tslot then { getTeam s k with runHeld := [] } else getTeam s k
  warps : ∀ w ∈ teamWarps s (core * 4 + tslot), (getWarp s' w).stopped = true ∧
    (getWarp s' w).tskid = BitVec.ofNat 32 ((if (getWarp s w).reporter then 256 else 0) + (getWarp s w).skid)
  runs : ∀ w, ∀ run, smFind? (getTeam s (core * 4 + tslot)).runHeld.reverse w = some run → bindRun (getWarp s' w).bind = run
  keeps : ∀ w, smFind? (getTeam s (core * 4 + tslot)).runHeld.reverse w = none → (getWarp s' w).bind = (getWarp s w).bind
  others : ∀ t, t ∉ teamThreads s (core * 4 + tslot) ∨ (getTh s t).trapPend = none → (getTh s' t).sameButCount (getTh s t)
  enters : ∀ t ∈ teamThreads s (core * 4 + tslot), ∀ i, (getTh s t).trapPend = some i →
    (getTh s' t).handler = true ∧ (getTh s' t).trapped = true ∧ (getTh s' t).pc = (getTeam s (core * 4 + tslot)).tvec ∧
    (getTh s' t).tepc = i.tepc ∧ (getTh s' t).tva = i.tva ∧ (getTh s' t).tcause = tcauseWord i ∧
    (getTh s' t).regs = (getTh s t).regs ∧ (getTh s' t).preds = (getTh s t).preds

/-- A halted team with a trapping thread enters its handler. -/
def HandlerEntries : Prop :=
  ∀ core tslot s, (getTeam s (core * 4 + tslot)).halted = true →
    (∃ t ∈ teamThreads s (core * 4 + tslot), (getTh s t).trapPend.isSome = true) →
    (∀ t ∈ teamThreads s (core * 4 + tslot), settled (getTh s t) = true) → (getTeam s (core * 4 + tslot)).matPend = [] →
    ∃ s', HandlerEntered core tslot s s'

end Sys2Proof.Machine
end

