-- ==== Sys2Proof/Safety/Words.lean ====
section
/-! DEFINITION. What each instruction word does in the threads it acts in, as tables: the registers it names, and the
value of every destination by its rule. The statements of completion and frame are made over these tables. -/
namespace Sys2Proof.Machine

/-! ### Shapes of rows -/

/-- A 32-bit result and the flags it sets, from 32-bit sources, and from predicates where `preds` says so. -/
def rowW (g : Guard) (d : WReg) (srcs : List Src) (f : State → Nat → W32 × W32) (preds : Bool := false) : WordRow where
  info _ := { guard := g, reads := (srcRegs srcs []).1, sreads := (srcRegs srcs []).2, writes := [d.toNat], preds := preds }
  out s _ _ _ t := { w := [(d.toNat, (f s t).1)], fl := (f s t).2 }

/-- A 32-bit result without flags. -/
def rowV (g : Guard) (d : WReg) (srcs : List Src) (f : State → Nat → W32) : WordRow := rowW g d srcs fun s t => (f s t, 0)

/-- A predicate result, from registers, and from predicates where `preds` says so. -/
def rowP (g : Guard) (p : PReg) (srcs : List Src) (srcs64 : List Src64) (f : State → Nat → Bool) (preds : Bool := false) : WordRow where
  info _ := { guard := g, reads := (srcRegs srcs srcs64).1, sreads := (srcRegs srcs srcs64).2, preds := preds }
  out s _ _ _ t := { p := [(p.val, f s t)] }

/-- A 64-bit result in a pair. -/
def rowPair (g : Guard) (d : WPair) (srcs64 : List Src64) (srcs : List Src) (f : State → Nat → W64) : WordRow where
  info _ := { guard := g, reads := (srcRegs srcs srcs64).1, sreads := (srcRegs srcs srcs64).2, writes := pairRegs d.toNat }
  out s _ _ _ t := { w := [(2 * d.toNat, (f s t).extractLsb' 0 32), (2 * d.toNat + 1, (f s t).extractLsb' 32 32)] }

/-- A uniform word: the s register takes the value computed in the first acting thread (R147). -/
def rowU (g : Guard) (d : SReg) (srcs64 : List Src64) (f : State → Nat → W64) : WordRow where
  info _ := { guard := g, reads := (srcRegs [] srcs64).1, sreads := (srcRegs [] srcs64).2, swrites := [d.toNat], uniform := true }
  makes s w _ acting := putS s w d.toNat (f s (acting.headD 0))

/-- A transfer of control, with the link it writes (R172). -/
def rowJump (g : Guard) (srcs64 : List Src64) (link : Option WPair) (f : State → Nat → W64) : WordRow where
  info _ := { guard := g, reads := (srcRegs [] srcs64).1, sreads := (srcRegs [] srcs64).2
              writes := match link with | some p => pairRegs p.toNat | none => [] }
  out s _ _ _ t :=
    { jump := some (f s t)
      w := match link with
        | some p => [(2 * p.toNat, ((getTh s t).pc + 8).extractLsb' 0 32), (2 * p.toNat + 1, ((getTh s t).pc + 8).extractLsb' 32 32)]
        | none => [] }

/-- A cross-lane word of one w destination per acting thread (R185). -/
def rowX (h : Hdr) (d : WReg) (srcs : List Src) (srcs64 : List Src64) (f : State → Nat → List Nat → Nat → W32 × W32)
    (preds : Bool := false) : WordRow where
  info _ := { guard := h.guard, la := h.la.toNat, reads := (srcRegs srcs srcs64).1, sreads := (srcRegs srcs srcs64).2
              writes := [d.toNat], cross := true, preds := preds }
  out s w _ acting t := { w := [(d.toNat, (f s w acting t).1)], fl := (f s w acting t).2 }

/-- A cross-lane word of one s destination (R184). -/
def rowXU (h : Hdr) (d : SReg) (srcs : List Src) (f : State → Nat → List Nat → W32) (fl : State → List Nat → W32)
    (preds : Bool := false) : WordRow where
  info _ := { guard := h.guard, la := h.la.toNat, reads := (srcRegs srcs []).1, sreads := (srcRegs srcs []).2
              swrites := [d.toNat], cross := true, uniform := true, preds := preds }
  makes s w _ acting := putS s w d.toNat ((f s w acting).zeroExtend 64)
  out s _ _ acting _ := { fl := fl s acting }

/-- A memory word: one operation is queued in each acting thread, to perform in an event of its own (R236, R260). -/
def rowM (g : Guard) (la : Nat) (reads sreads writes : List Nat) (f : State → Nat → MemOp) : WordRow where
  info _ := { guard := g, la := la, reads := reads, sreads := sreads, writes := writes, access := true }
  out s _ _ _ t := { mops := [f s t] }

/-! ### Class 0x0 (R133 to R137) -/

def integerRow : Instr → Option WordRow
  | .add h sat d a b => some (rowW h.guard d [a, b] fun s t => satRes (addSat 32 sat false (rd32 s t a) (rd32 s t b)))
  | .sub h sat d a b => some (rowW h.guard d [a, b] fun s t => satRes (addSat 32 sat true (rd32 s t a) (rd32 s t b)))
  | .mul h d a b => some (rowV h.guard d [a, b] fun s t => rd32 s t a * rd32 s t b)
  | .mulhi h ty d a b => some (rowV h.guard d [a, b] fun s t => mulHi ty (rd32 s t a) (rd32 s t b))
  | .mad h d a b c => some (rowV h.guard d [a, b, c] fun s t => rd32 s t a * rd32 s t b + rd32 s t c)
  | .div h ty d a b => some (rowW h.guard d [a, b] fun s t =>
      ((divRem ty (rd32 s t a) (rd32 s t b)).1, flIf (rd32 s t b = 0) flDivz))
  | .rem h ty d a b => some (rowW h.guard d [a, b] fun s t =>
      ((divRem ty (rd32 s t a) (rd32 s t b)).2.1, flIf (rd32 s t b = 0) flDivz))
  | .abs h sat d a => some (rowW h.guard d [a] fun s t => satRes (absW sat (rd32 s t a)))
  | .min h ty d a b => some (rowV h.guard d [a, b] fun s t => iMin ty (rd32 s t a) (rd32 s t b))
  | .max h ty d a b => some (rowV h.guard d [a, b] fun s t => iMax ty (rd32 s t a) (rd32 s t b))
  | .mov h d a => some (rowV h.guard d [a] fun s t => rd32 s t a)
  | .movi g d imm => some (rowV (lGuard g) d [] fun _ _ => imm)
  | .sel h d a b q => some (rowW h.guard d [a, b] (fun s t => (if rdPOp s t q then rd32 s t a else rd32 s t b, 0)) (pReads q))
  | _ => none

/-! ### Predicates (R138, R139, R148, R157, R158) -/

def predicateRow : Instr → Option WordRow
  | .icmp h c p (.w32 a b) => some (rowP h.guard p [a, b] [] fun s t => iCmp c (rd32 s t a) (rd32 s t b))
  | .icmp h c p (.w64 a b) => some (rowP h.guard p [] [a, b] fun s t => iCmp c (rd64 s t a) (rd64 s t b))
  | .pand h p a b => some (rowP h.guard p [] [] (fun s t => rdPOp s t a && rdPOp s t b) (pReads a || pReads b))
  | .por h p a b => some (rowP h.guard p [] [] (fun s t => rdPOp s t a || rdPOp s t b) (pReads a || pReads b))
  | .pxor h p a b => some (rowP h.guard p [] [] (fun s t => rdPOp s t a != rdPOp s t b) (pReads a || pReads b))
  | .pnot h p a => some (rowP h.guard p [] [] (fun s t => !rdPOp s t a) (pReads a))
  | .fcmp h c p a b => some (rowP h.guard p [a, b] [] fun s t => fCmp32 c (rdF32 s t a) (rdF32 s t b))
  | .fclass h p a b => some (rowP h.guard p [a, b] [] fun s t => (rd32 s t b).getLsbD (fClassBit (rdF32 s t a)))
  | .scmp h c p a b => some
      { info := fun _ => { guard := h.guard, reads := (srcRegs [] [uSrc64 a, uSrc64 b]).1
                           sreads := (srcRegs [] [uSrc64 a, uSrc64 b]).2, uniform := true }
        out := fun s _ _ acting _ =>
          { p := [(p.val, iCmp c (rd64 s (acting.headD 0) (uSrc64 a)) (rd64 s (acting.headD 0) (uSrc64 b)))] } }
  | _ => none

/-! ### Class 0x1 (R140 to R144) -/

def bitRow : Instr → Option WordRow
  | .and h d a b => some (rowV h.guard d [a, b] fun s t => rd32 s t a &&& rd32 s t b)
  | .or h d a b => some (rowV h.guard d [a, b] fun s t => rd32 s t a ||| rd32 s t b)
  | .xor h d a b => some (rowV h.guard d [a, b] fun s t => rd32 s t a ^^^ rd32 s t b)
  | .andn h d a b => some (rowV h.guard d [a, b] fun s t => rd32 s t a &&& ~~~(rd32 s t b))
  | .shl h d a b => some (rowV h.guard d [a, b] fun s t => shlW (rd32 s t a) (rd32 s t b).toNat)
  | .shr h d a b => some (rowV h.guard d [a, b] fun s t => shrW (rd32 s t a) (rd32 s t b).toNat)
  | .sra h d a b => some (rowV h.guard d [a, b] fun s t => sraW (rd32 s t a) (rd32 s t b).toNat)
  | .rot h d a b => some (rowV h.guard d [a, b] fun s t => rotW (rd32 s t a) (rd32 s t b).toNat)
  | .popc h d a => some (rowV h.guard d [a] fun s t => BitVec.ofNat 32 (popW (rd32 s t a)))
  | .clz h d a => some (rowV h.guard d [a] fun s t => BitVec.ofNat 32 (clzW (rd32 s t a)))
  | .ctz h d a => some (rowV h.guard d [a] fun s t => BitVec.ofNat 32 (ctzW (rd32 s t a)))
  | .brev h d a => some (rowV h.guard d [a] fun s t => brevW (rd32 s t a))
  | .bfx h d a b c => some (rowV h.guard d [a, b, c] fun s t => bfxW (rd32 s t a) (rd32 s t b) (rd32 s t c))
  | .bfi h d a b c => some
      { info := fun _ => { guard := h.guard, reads := d.toNat :: (srcRegs [a, b, c] []).1
                           sreads := (srcRegs [a, b, c] []).2, writes := [d.toNat] }
        out := fun s _ _ _ t =>
          { w := [(d.toNat, bfiW (rdW (getTh s t) d.toNat) (rd32 s t a) (rd32 s t b) (rd32 s t c))] } }
  | .prmb h d a b c => some (rowV h.guard d [a, b, c] fun s t => prmbW (rd32 s t a) (rd32 s t b) (rd32 s t c))
  | _ => none

def packedRow : Instr → Option WordRow
  | .add2 h sat d a b => some (rowW h.guard d [a, b] fun s t => satRes (map2 (addSat 16 sat false) (rdInt s t 16 a) (rdInt s t 16 b)))
  | .sub2 h sat d a b => some (rowW h.guard d [a, b] fun s t => satRes (map2 (addSat 16 sat true) (rdInt s t 16 a) (rdInt s t 16 b)))
  | .min2 h ty d a b => some (rowV h.guard d [a, b] fun s t =>
      (map2 (fun x y => (iMin ty x y, false)) (rdInt s t 16 a) (rdInt s t 16 b)).1)
  | .max2 h ty d a b => some (rowV h.guard d [a, b] fun s t =>
      (map2 (fun x y => (iMax ty x y, false)) (rdInt s t 16 a) (rdInt s t 16 b)).1)
  | .add4 h sat d a b => some (rowW h.guard d [a, b] fun s t => satRes (map4 (addSat 8 sat false) (rdInt s t 8 a) (rdInt s t 8 b)))
  | .dot4 h ta tb d a b c => some (rowW h.guard d [a, b, c] fun s t =>
      satRes (dotW 8 4 ta tb (rdInt s t 8 a) (rdInt s t 8 b) (rd32 s t c)))
  | .dot8 h d a b c => some (rowW h.guard d [a, b, c] fun s t =>
      satRes (dotW 4 8 .s .s (rdInt s t 4 a) (rdInt s t 4 b) (rd32 s t c)))
  | .dot2 h ta tb d a b c => some (rowW h.guard d [a, b, c] fun s t =>
      satRes (dotW 16 2 ta tb (rdInt s t 16 a) (rdInt s t 16 b) (rd32 s t c)))
  | _ => none

/-! ### Class 0x2 and the other pair destinations (R145 to R149, R164) -/

def pairRegRow : Instr → Option WordRow
  | .add64 h d a b => some (rowPair h.guard d [a, b] [] fun s t => rd64 s t a + rd64 s t b)
  | .sub64 h d a b => some (rowPair h.guard d [a, b] [] fun s t => rd64 s t a - rd64 s t b)
  | .lea64 h d a b c => some (rowPair h.guard d [a] [b, c] fun s t =>
      rd64 s t a + ((rd32 s t b).signExtend 64) <<< ((rd32 s t c).toNat % 64))
  | .add64LongImmediate g d a imm => some (rowPair (lGuard g) d [plain64 a] [] fun s t => rdOp64 s t a + imm.signExtend 64)
  | .sub64LongImmediate g d a imm => some (rowPair (lGuard g) d [plain64 a] [] fun s t => rdOp64 s t a - imm.signExtend 64)
  | .lea64LongImmediate g d a imm => some (rowPair (lGuard g) d [plain64 a] [] fun s t => rdOp64 s t a + imm.signExtend 64)
  | .unpk h k d a => some
      { info := fun _ => { guard := h.guard, reads := (srcRegs [a] []).1, sreads := (srcRegs [a] []).2, writes := pairRegs d.toNat }
        out := fun s _ _ _ t =>
          let v := unpkWord k (rdSrc s t .bits (cvtElemTy (unpkFmts k).1) a)
          { w := [(2 * d.toNat, v.1.extractLsb' 0 32), (2 * d.toNat + 1, v.1.extractLsb' 32 32)], fl := v.2 } }
  | _ => none

def uniformRow : Instr → Option WordRow
  | .sadd h d a b => some (rowU h.guard d [uSrc64 a, uSrc64 b] fun s t => rd64 s t (uSrc64 a) + rd64 s t (uSrc64 b))
  | .ssub h d a b => some (rowU h.guard d [uSrc64 a, uSrc64 b] fun s t => rd64 s t (uSrc64 a) - rd64 s t (uSrc64 b))
  | .smul h d a b => some (rowU h.guard d [uSrc64 a, uSrc64 b] fun s t => rd64 s t (uSrc64 a) * rd64 s t (uSrc64 b))
  | .sshl h d a b => some (rowU h.guard d [uSrc64 a, uSrc64 b] fun s t => shlW (rd64 s t (uSrc64 a)) (rd64 s t (uSrc64 b)).toNat)
  | .sshr h ty d a b => some (rowU h.guard d [uSrc64 a, uSrc64 b] fun s t =>
      match ty with
      | .z => shrW (rd64 s t (uSrc64 a)) (rd64 s t (uSrc64 b)).toNat
      | .s => sraW (rd64 s t (uSrc64 a)) (rd64 s t (uSrc64 b)).toNat)
  | .sand h d a b => some (rowU h.guard d [uSrc64 a, uSrc64 b] fun s t => rd64 s t (uSrc64 a) &&& rd64 s t (uSrc64 b))
  | .sor h d a b => some (rowU h.guard d [uSrc64 a, uSrc64 b] fun s t => rd64 s t (uSrc64 a) ||| rd64 s t (uSrc64 b))
  | .smov h d a => some (rowU h.guard d [uSrc64 a] fun s t => rd64 s t (uSrc64 a))
  | .smovi g d imm => some (rowU (lGuard g) d [] fun _ _ => imm.signExtend 64)
  | .saddLongImmediate g d a imm => some (rowU (lGuard g) d [plain64 (uOp64 a)] fun s t => rdOp64 s t (uOp64 a) + imm.signExtend 64)
  | .ssubLongImmediate g d a imm => some (rowU (lGuard g) d [plain64 (uOp64 a)] fun s t => rdOp64 s t (uOp64 a) - imm.signExtend 64)
  | .smulLongImmediate g d a imm => some (rowU (lGuard g) d [plain64 (uOp64 a)] fun s t => rdOp64 s t (uOp64 a) * imm.signExtend 64)
  | .sandLongImmediate g d a imm => some (rowU (lGuard g) d [plain64 (uOp64 a)] fun s t => rdOp64 s t (uOp64 a) &&& imm.signExtend 64)
  | .sorLongImmediate g d a imm => some (rowU (lGuard g) d [plain64 (uOp64 a)] fun s t => rdOp64 s t (uOp64 a) ||| imm.signExtend 64)
  | _ => none

/-! ### Classes 0x3 to 0x6 (R154 to R168) -/

def floatRow : Instr → Option WordRow
  | .fadd h rm d a b => some (rowW h.guard d [a, b] fun s t => fadd32 rm (rdF32 s t a) (rdF32 s t b))
  | .fsub h rm d a b => some (rowW h.guard d [a, b] fun s t => fsub32 rm (rdF32 s t a) (rdF32 s t b))
  | .fmul h rm d a b => some (rowW h.guard d [a, b] fun s t => fmul32 rm (rdF32 s t a) (rdF32 s t b))
  | .ffma h rm d a b c => some (rowW h.guard d [a, b, c] fun s t => ffma32 rm (rdF32 s t a) (rdF32 s t b) (rdF32 s t c))
  | .fmin h d a b => some (rowW h.guard d [a, b] fun s t => fmin32 (rdF32 s t a) (rdF32 s t b))
  | .fmax h d a b => some (rowW h.guard d [a, b] fun s t => fmax32 (rdF32 s t a) (rdF32 s t b))
  | .fabs h d a => some (rowW h.guard d [a] fun s t => fabs32 (rdF32 s t a))
  | .frnd h rm d a => some (rowW h.guard d [a] fun s t => frnd32 rm (rdF32 s t a))
  | .hadd2 h d a b => some (rowW h.guard d [a, b] fun s t => fPacked fp16 opAdd (rdF16 s t a) (rdF16 s t b) 0)
  | .hmul2 h d a b => some (rowW h.guard d [a, b] fun s t => fPacked fp16 opMul (rdF16 s t a) (rdF16 s t b) 0)
  | .hfma2 h d a b c => some (rowW h.guard d [a, b, c] fun s t => fPacked fp16 opFma (rdF16 s t a) (rdF16 s t b) (rdF16 s t c))
  | .badd2 h d a b => some (rowW h.guard d [a, b] fun s t => fPacked bf16 opAdd (rdBf16 s t a) (rdBf16 s t b) 0)
  | .bmul2 h d a b => some (rowW h.guard d [a, b] fun s t => fPacked bf16 opMul (rdBf16 s t a) (rdBf16 s t b) 0)
  | .bfma2 h d a b c => some (rowW h.guard d [a, b, c] fun s t => fPacked bf16 opFma (rdBf16 s t a) (rdBf16 s t b) (rdBf16 s t c))
  | _ => none

def convertRow : Instr → Option WordRow
  | .cvt h ty f amax rm d a b => some
      { info := fun _ => { guard := h.guard, reads := (if fmtBits ty < 16 then [d.toNat] else []) ++ (srcRegs (a :: b.toList) []).1
                           sreads := (srcRegs (a :: b.toList) []).2, writes := [d.toNat] }
        out := fun s _ _ _ t =>
          let x := rdCvt s t f a
          let y := match b with
            | some b => rdCvt s t f b
            | none => 0
          let v := cvtWord ty f rm (rdW (getTh s t) d.toNat) x y
          { w := [(d.toNat, v.1)], fl := if b.isSome then v.2 else (cvtElem ty f rm x).2
            amax := if amax then cvtSource f x :: (if b.isSome then [cvtSource f y] else []) else [] } }
  | .qblk h amax d a => some
      { info := fun _ => { guard := h.guard, reads := (srcRegs [a] []).1, sreads := (srcRegs [a] []).2, writes := [d.toNat], cross := true }
        out := fun s w _ acting t =>
          let blk := n4xEncode ((warpThreads w).map fun u => if u ∈ acting then rdF32 s u a else 0)
          { w := [(d.toNat, qblkLane blk.1 (laneOf t))], fl := blk.2
            amax := if amax then f32Val (rdF32 s t a) :: (if acting.length < 32 then [.fin false 0 0] else []) else [] } }
  | .rcpSeed h d a => some (rowW h.guard d [a] fun s t => rcpSeed (rdF32 s t a))
  | .rsqSeed h d a => some (rowW h.guard d [a] fun s t => rsqSeed (rdF32 s t a))
  | .ex2 h d a => some (rowW h.guard d [a] fun s t => ex2W (rdF32 s t a))
  | .lg2 h d a => some (rowW h.guard d [a] fun s t => lg2W (rdF32 s t a))
  | .sin h d a => some (rowW h.guard d [a] fun s t => sinW (rdF32 s t a))
  | .cos h d a => some (rowW h.guard d [a] fun s t => cosW (rdF32 s t a))
  | _ => none

/-! ### Long-immediate words (R100, R101) -/

def longImmRow : Instr → Option WordRow
  | .addLongImmediate g d a imm => some (rowV (lGuard g) d [plain a] fun s t => rdOp s t .bits a + imm)
  | .subLongImmediate g d a imm => some (rowV (lGuard g) d [plain a] fun s t => rdOp s t .bits a - imm)
  | .mulLongImmediate g d a imm => some (rowV (lGuard g) d [plain a] fun s t => rdOp s t .bits a * imm)
  | .minLongImmediate g d a imm => some (rowV (lGuard g) d [plain a] fun s t => iMin .s (rdOp s t .bits a) imm)
  | .maxLongImmediate g d a imm => some (rowV (lGuard g) d [plain a] fun s t => iMax .s (rdOp s t .bits a) imm)
  | .andLongImmediate g d a imm => some (rowV (lGuard g) d [plain a] fun s t => rdOp s t .bits a &&& imm)
  | .orLongImmediate g d a imm => some (rowV (lGuard g) d [plain a] fun s t => rdOp s t .bits a ||| imm)
  | .xorLongImmediate g d a imm => some (rowV (lGuard g) d [plain a] fun s t => rdOp s t .bits a ^^^ imm)
  | .andnLongImmediate g d a imm => some (rowV (lGuard g) d [plain a] fun s t => rdOp s t .bits a &&& ~~~imm)
  | .faddLongImmediate g d a imm => some (rowW (lGuard g) d [plain a] fun s t => fadd32 .rne (rdOp s t .f32 a) imm)
  | .fsubLongImmediate g d a imm => some (rowW (lGuard g) d [plain a] fun s t => fsub32 .rne (rdOp s t .f32 a) imm)
  | .fmulLongImmediate g d a imm => some (rowW (lGuard g) d [plain a] fun s t => fmul32 .rne (rdOp s t .f32 a) imm)
  | .fminLongImmediate g d a imm => some (rowW (lGuard g) d [plain a] fun s t => fmin32 (rdOp s t .f32 a) imm)
  | .fmaxLongImmediate g d a imm => some (rowW (lGuard g) d [plain a] fun s t => fmax32 (rdOp s t .f32 a) imm)
  | _ => none

/-! ### Pair words (R96 to R99) -/

/-- A half's write and flags in a thread: none where its guard fails. -/
def halfOut (s : State) (t : Nat) (h : PairHalf) : List (Nat × W32) × W32 :=
  if rdGuard s (halfGuard h) t then ([(halfDst h, (halfVal s t h).1)], (halfVal s t h).2) else ([], 0)

/-- The threads that a chosen word issues for. -/
def issuedThreads (s : State) : List Nat :=
  match issuedSet s with
  | some x => x.2
  | none => []

/-- Both halves of a pair word read before either writes (R98). -/
def pairWordRow (i : Instr) : Option WordRow :=
  (pairHalves i).map fun h =>
    { info := fun s =>
        let sr (x : PairHalf) : List Nat := if (issuedThreads s).any (rdGuard s (halfGuard x)) then sOfOp (halfA x) else []
        { reads := halfReads h.1 ++ halfReads h.2, writes := [halfDst h.1, halfDst h.2], sreads := sr h.1 ++ sr h.2
          readsIn := some fun t => (if rdGuard s (halfGuard h.1) t then halfReads h.1 else [])
            ++ (if rdGuard s (halfGuard h.2) t then halfReads h.2 else []) }
      out := fun s _ _ _ t =>
        { w := (halfOut s t h.1).1 ++ (halfOut s t h.2).1, fl := (halfOut s t h.1).2 ||| (halfOut s t h.2).2 } }

/-! ### Control (R170 to R181) -/

/-- A loop word (R179): it traps in no thread. -/
def rowLoop (g : Guard) (a : Src) (disp : Int) : WordRow where
  info _ := { guard := g, reads := (srcRegs [a] []).1, sreads := (srcRegs [a] []).2, loops := true }
  able s w _ acting := (loopFold s (fun t => rd32 s t a) disp acting (getWarp s w).loops).2 = []
  makes s w _ acting := loopOpened s w (fun t => rd32 s t a) disp acting
  out s _ _ _ t := loopSkip s (fun t => rd32 s t a) disp t

def controlRow : Instr → Option WordRow
  | .bra g disp => some (rowJump g [] none fun s t => dispTarget (getTh s t).pc disp.toInt)
  | .braLongImmediate g imm => some (rowJump (lGuard g) [] none fun s t => dispTarget (getTh s t).pc imm.toInt)
  | .jmp g a => some (rowJump g [a] none fun s t => regTarget (rd64 s t a))
  | .jmpLink g d a => some (rowJump g [a] (some d) fun s t => regTarget (rd64 s t a))
  | .call g d disp => some (rowJump g [] (some d) fun s t => dispTarget (getTh s t).pc disp.toInt)
  | .callLongImmediate g d imm => some (rowJump (lGuard g) [] (some d) fun s t => dispTarget (getTh s t).pc imm.toInt)
  | .ret g a => some (rowJump g [a] none fun s t => regTarget (rd64 s t a))
  | .nop g => some { info := fun _ => { guard := g } }
  | .loop g a disp => some (rowLoop g a disp.toInt)
  | .loopLongImmediate g a imm => some (rowLoop (lGuard g) (plain a) imm.toInt)
  | .lbrk g => some
      { info := fun _ => { guard := g, loops := true }
        able := fun s _ _ acting => ∀ t ∈ acting, loopDepth (getTh s t) ≠ 0
        makes := fun s _ _ acting => loopClosed s acting
        out := fun s w _ _ t => { jump := loopExit s w t } }
  | .yield g => some
      { info := fun _ => { guard := g }
        makes := fun s w _ _ => modWarp s w fun x => { x with yieldUntil := s.n + 16 } }
  | .nap g d a b => some
      { info := fun _ => { guard := g, reads := (srcRegs [b] [a]).1, sreads := (srcRegs [b] [a]).2, writes := [d.toNat] }
        out := fun s _ _ _ t =>
          if (rd64 s t a).toNat ≤ s.clock then { w := [(d.toNat, 0x80000000)] }
          else { wait := some (.nap (rd64 s t a).toNat ((rd32 s t b).toNat % 16) 0 d.toNat) } }
  | _ => none

/-! ### Cross-lane words (R183 to R189) -/

/-- The value `match` compares. -/
def matchKey (s : State) (t : Nat) : MatchSrc → W64
  | .w32 a => (rd32 s t a).zeroExtend 64
  | .w64 a => rd64 s t a

def crossRow : Instr → Option WordRow
  | .shfl h (.lanes m d a b) => some (rowX h d [a, b] [] fun s w acting t =>
      let j := shflSrc m (laneOf t) (rd32 s t b)
      (rd32 s (if laneActive acting w j then w * 32 + j else t) a, 0))
  | .shfl h (.pickU d a b) => some
      { info := fun _ => { guard := h.guard, la := h.la.toNat, reads := (srcRegs [a, uSrc b] []).1
                           sreads := (srcRegs [a, uSrc b] []).2, swrites := [d.toNat], cross := true, uniform := true }
        makes := fun s w _ acting =>
          let j := (rd32 s (acting.headD 0) (uSrc b)).toNat % 32
          putS s w d.toNat (if laneActive acting w j then (rd32 s (w * 32 + j) a).zeroExtend 64 else 0) }
  | .vote h f p q =>
      let srcs := match f with
        | .atl b => [uSrc b]
        | .atm b => [uSrc b]
        | .unan => []
      some
      { info := fun _ => { guard := h.guard, la := h.la.toNat, reads := (srcRegs srcs []).1, sreads := (srcRegs srcs []).2, cross := true
                           preds := pReads q }
        out := fun s _ _ acting _ =>
          let m := popW (voteMask s acting q)
          { p := [(p.val, match f with
            | .atl b => decide ((rd32 s (acting.headD 0) (uSrc b)).toNat ≤ m)
            | .atm b => decide (m ≤ (rd32 s (acting.headD 0) (uSrc b)).toNat)
            | .unan => decide (m = 0) || decide (m = acting.length))] } }
  | .ballot h (.mask d b) q => some (rowX h d [b] [] (fun s _ acting t => (voteMask s acting q &&& rd32 s t b, 0)) (pReads q))
  | .ballot h (.rank d b) q => some (rowX h d [b] [] (fun s _ acting t =>
      (BitVec.ofNat 32 (popUpTo (voteMask s acting q &&& rd32 s t b) (laneOf t)), 0)) (pReads q))
  | .ballot h (.cnt d b) q => some (rowX h d [b] [] (fun s _ acting t =>
      (BitVec.ofNat 32 (popW (voteMask s acting q &&& rd32 s t b)), 0)) (pReads q))
  | .ballot h (.maskU d b) q => some (rowXU h d [uSrc b] (fun s _ acting =>
      voteMask s acting q &&& rd32 s (acting.headD 0) (uSrc b)) (fun _ _ => 0) (pReads q))
  | .ballot h (.cntU d b) q => some (rowXU h d [uSrc b] (fun s _ acting =>
      BitVec.ofNat 32 (popW (voteMask s acting q &&& rd32 s (acting.headD 0) (uSrc b)))) (fun _ _ => 0) (pReads q))
  | .redux h op (.w d) a => some (rowX h d [a] [] fun s _ acting _ => reduxAll op (acting.map fun u => rdRedux s u op a))
  | .redux h op (.s d) a => some (rowXU h d [a] (fun s _ acting => (reduxAll op (acting.map fun u => rdRedux s u op a)).1)
      fun s acting => (reduxAll op (acting.map fun u => rdRedux s u op a)).2)
  | .scan h op excl d a => some (rowX h d [a] [] fun s _ acting t =>
      reduxAll op ((scanLanes excl acting t).map fun u => rdRedux s u op a))
  | .matchLanes h m d a => some (rowX h d (match a with | .w32 x => [x] | .w64 _ => []) (match a with | .w32 _ => [] | .w64 x => [x])
      fun s _ acting t => (matchVal m (acting.filter fun u => decide (matchKey s u a = matchKey s t a)) t, 0))
  | _ => none

/-! ### Memory words (R257 to R275) -/

/-- A load of either space; a load of several destinations keeps its operands (R198). -/
def rowLoad (g : Guard) (la : Nat) (w : LdW) (rlx : Bool) (d : WReg) (srcs : List Src) (srcs64 : List Src64) (glob : Bool)
    (addr : State → Nat → Nat) (snap : State → Nat → List W32) : WordRow :=
  rowM g la (srcRegs srcs srcs64).1 (srcRegs srcs srcs64).2 (dataRegs d.toNat (ldBytes w)) fun s t =>
    { newMop s t (.load w rlx (dataRegs d.toNat (ldBytes w))) glob (addr s t) with
      snap := if 1 < (dataRegs d.toNat (ldBytes w)).length then snap s t else [] }

/-- A store of either space: the bytes are read as the word issues. -/
def rowStore (g : Guard) (la : Nat) (w : StW) (d : WReg) (srcs : List Src) (srcs64 : List Src64) (glob : Bool)
    (addr : State → Nat → Nat) : WordRow :=
  rowM g la (dataRegs d.toNat (stBytes w) ++ (srcRegs srcs srcs64).1) (srcRegs srcs srcs64).2 [] fun s t =>
    newMop s t (.store (regBytes (getTh s t) d.toNat (stBytes w))) glob (addr s t)

/-- An atomic of either space. -/
def rowAtom (h : Hdr) (op : AtomOp) (ord : AtomOrd) (sc : Scope) (d : WReg) (b : AtomVal) (srcs : List Src) (srcs64 : List Src64)
    (glob : Bool) (addr : State → Nat → Nat) : WordRow :=
  let dst := dataRegs d.toNat (if atomWide b then 8 else 4)
  let r := srcRegs (srcs ++ (atomSrc b).1) (srcs64 ++ (atomSrc b).2)
  rowM h.guard h.la.toNat ((if op = .cas then dst else []) ++ r.1) r.2 dst fun s t =>
    { newMop s t (.atomic op (atomWide b) ord sc dst (atomVal s t op b) (atomCmp s t d.toNat (atomWide b))) glob (addr s t) with
      snap := if atomWide b then
        (if glob then halves64 (BitVec.ofNat 64 (addr s t)) else [BitVec.ofNat 32 (addr s t)])
          ++ halves64 (BitVec.ofNat 64 (atomVal s t op b)) else [] }

def rowMaint (h : Hdr) (k : MaintKind) (a : Src64) (b : Src) : WordRow :=
  rowM h.guard h.la.toNat (srcRegs [b] [a]).1 (srcRegs [b] [a]).2 [] fun s t =>
    newMop s t (.maint k (rd32 s t b).toNat) true (rd64 s t a).toNat

/-- The uniform load of `sld`: it stands in the queue of every acting thread, at the first one's address (R149). -/
def rowSld (g : Guard) (la : Nat) (d : SReg) (srcs64 : List Src64) (addr : State → Nat → W64) : WordRow where
  info _ := { guard := g, la := la, reads := (srcRegs [] srcs64).1, sreads := (srcRegs [] srcs64).2, swrites := [d.toNat], uniform := true
              access := true }
  out s _ _ acting t :=
    { mops := [{ kind := .sld d.toNat, glob := true, addr := (addr s (acting.headD 0)).toNat, pc := (getTh s t).pc, la := 0
                 step := s.n, st := .ready }] }

def accessRow : Instr → Option WordRow
  | .ld h w rlx d base idx off => some (rowLoad h.guard h.la.toNat w rlx d [idx] [base] true (fun s t => globAddr s t base idx off)
      fun s t => halves64 (rd64 s t base) ++ [rd32 s t idx])
  | .ldsp h w rlx d base idx off => some (rowLoad h.guard h.la.toNat w rlx d [base, idx] [] false (fun s t => scratchAddr s t base idx off)
      fun s t => [rd32 s t base, rd32 s t idx])
  | .ldLongImmediate g w d a imm => some (rowLoad (lGuard g) 0 w false d [] [plain64 a] true (fun s t => (rdOp64 s t a + imm.signExtend 64).toNat)
      fun s t => halves64 (rdOp64 s t a))
  | .ldspLongImmediate g w d a imm => some (rowLoad (lGuard g) 0 w false d [plain a] [] false (fun s t => (rdOp s t .bits a + imm).toNat)
      fun s t => [rdOp s t .bits a])
  | .st h w _ d base idx off => some (rowStore h.guard h.la.toNat w d [idx] [base] true fun s t => globAddr s t base idx off)
  | .stsp h w _ d base idx off => some (rowStore h.guard h.la.toNat w d [base, idx] [] false fun s t => scratchAddr s t base idx off)
  | .stLongImmediate g w d a imm => some (rowStore (lGuard g) 0 w d [] [plain64 a] true fun s t => (rdOp64 s t a + imm.signExtend 64).toNat)
  | .stspLongImmediate g w d a imm => some (rowStore (lGuard g) 0 w d [plain a] [] false fun s t => (rdOp s t .bits a + imm).toNat)
  | .ldf h take d base idx off => some (rowM h.guard h.la.toNat (srcRegs [base, idx] []).1 (srcRegs [base, idx] []).2
      (groupRegs (4 * d.toNat) 4) fun s t =>
        { newMop s t (.ldf take (groupRegs (4 * d.toNat) 4)) false (scratchAddr s t base idx off) with
          snap := [rd32 s t base, rd32 s t idx] })
  | .stf h wait d base idx off => some (rowM h.guard h.la.toNat (groupRegs (4 * d.toNat) 4 ++ (srcRegs [base, idx] []).1)
      (srcRegs [base, idx] []).2 [] fun s t =>
        newMop s t (.stf wait (regBytes (getTh s t) (4 * d.toNat) 16)) false (scratchAddr s t base idx off))
  | .atom h op ord sc d a b => some (rowAtom h op ord sc d b [] [a] true fun s t => (rd64 s t a).toNat)
  | .atoms h op ord sc d a b => some (rowAtom h op ord sc d b [a] [] false fun s t => (rd32 s t a).toNat)
  | .red h op ord sc a b => some (rowM h.guard h.la.toNat (srcRegs (atomSrc b).1 (a :: (atomSrc b).2)).1
      (srcRegs (atomSrc b).1 (a :: (atomSrc b).2)).2 [] fun s t =>
        newMop s t (.red op (atomWide b) ord sc (atomVal s t op b)) true (rd64 s t a).toNat)
  | .cleanR h a b => some (rowMaint h .clean a b)
  | .invalR h a b => some (rowMaint h .inval a b)
  | .flushR h a b => some (rowMaint h .flush a b)
  | .sld h d a b => some (rowSld h.guard h.la.toNat d [uSrc64 a, uSrc64 b] fun s t => rd64 s t (uSrc64 a) + rd64 s t (uSrc64 b))
  | .sldLongImmediate g d a imm => some (rowSld (lGuard g) 0 d [plain64 (uOp64 a)] fun s t => rdOp64 s t (uOp64 a) + imm.signExtend 64)
  | .pf h x base idx off => some
      { info := fun _ => { guard := h.guard, la := h.la.toNat, reads := (srcRegs [idx] [base]).1, sreads := (srcRegs [idx] [base]).2 }
        makes := fun s _ _ acting => acting.foldl (prefetch x fun t => globAddr s t base idx off) s }
  | .pfLongImmediate g a imm => some
      { info := fun _ => { guard := lGuard g, la := 0, reads := (srcRegs [] [plain64 a]).1, sreads := (srcRegs [] [plain64 a]).2 }
        makes := fun s _ _ acting => acting.foldl (prefetch false fun t => (rdOp64 s t a + imm.signExtend 64).toNat) s }
  | .fence g k sc => some
      { info := fun _ => { guard := g }
        able := fun s _ _ acting => ∀ t ∈ acting, fenceMet s t k sc = true }
  | _ => none

/-! ### Typed buffers (R265, R266) -/

def bufferRow : Instr → Option WordRow
  | .lda h w d k idx off => some
      { info := fun _ => { guard := h.guard, la := h.la.toNat, reads := (srcRegs [idx] []).1, sreads := (srcRegs [idx] []).2
                           writes := dataRegs d.toNat (bufBytes w), access := true }
        able := fun s wp _ acting => namesPending s (teamOfWarp s wp) acting [k.val] [] = false ∧ orderHeld s acting = false ∧
          ∀ t ∈ acting, (abPlace (getTeam s (teamOfWarp s wp)) k.val (rd32 s t idx) off (bufBytes w)).isSome
        out := fun s wp _ _ t =>
          let bs := sramRead (getCore s (wp / 64)).ab
            ((abPlace (getTeam s (teamOfWarp s wp)) k.val (rd32 s t idx) off (bufBytes w)).getD 0) (bufBytes w)
          { w := (rangeFrom 0 (bufBytes w / 4)).map fun i => (d.toNat + i, BitVec.ofNat 32 (natOfBytes ((bs.drop (4 * i)).take 4))) } }
  | .sta h w d k idx off => some
      { info := fun _ => { guard := h.guard, la := h.la.toNat, reads := dataRegs d.toNat (bufBytes w) ++ (srcRegs [idx] []).1
                           sreads := (srcRegs [idx] []).2, access := true }
        able := fun s wp _ acting => namesPending s (teamOfWarp s wp) acting [k.val] [] = false ∧ orderHeld s acting = false ∧
          ∀ t ∈ acting, (abPlace (getTeam s (teamOfWarp s wp)) k.val (rd32 s t idx) off (bufBytes w)).isSome
        makes := fun s wp _ acting => acting.foldl (fun s' t => modCore s' (wp / 64) fun c =>
          let a := (abPlace (getTeam s (teamOfWarp s wp)) k.val (rd32 s t idx) off (bufBytes w)).getD 0
          { c with ab := sramWrite c.ab a (regBytes (getTh s t) d.toNat (bufBytes w)) }) s }
  | .ldc h col d tl idx => some
      { info := fun _ => { guard := h.guard, la := h.la.toNat, reads := (srcRegs [idx] []).1, sreads := (srcRegs [idx] []).2
                           writes := groupRegs (4 * d.toNat) 4, access := true }
        able := fun s wp _ acting => namesPending s (teamOfWarp s wp) acting [] [tl.val] = false ∧ orderHeld s acting = false ∧
          tileCheck s (teamOfWarp s wp) tl.val = none
        out := fun s wp _ _ t =>
          { w := (groupRegs (4 * d.toNat) 4).zip ((tilePlaces tl.val col (rd32 s t idx)).map fun a =>
              BitVec.ofNat 32 (natOfBytes (sramRead (getCore s (wp / 64)).cb a 4))) } }
  | .stc h col d tl idx => some
      { info := fun _ => { guard := h.guard, la := h.la.toNat, reads := groupRegs (4 * d.toNat) 4 ++ (srcRegs [idx] []).1
                           sreads := (srcRegs [idx] []).2, access := true }
        able := fun s wp _ acting => namesPending s (teamOfWarp s wp) acting [] [tl.val] = false ∧ orderHeld s acting = false ∧
          tileCheck s (teamOfWarp s wp) tl.val = none
        makes := fun s wp _ acting => acting.foldl (fun s' t =>
          modCore s' (wp / 64) fun c =>
            let put (m : SMap Byte) (x : Nat × Nat) := sramWrite m x.2 (bytesOfNat 4 (rdW (getTh s t) x.1).toNat)
            { c with cb := ((groupRegs (4 * d.toNat) 4).zip (tilePlaces tl.val col (rd32 s t idx))).foldl put c.cb }) s }
  | _ => none

end Sys2Proof.Machine
end

