-- ==== Sys2Proof/Safety/Engines.lean ====
section
/-! DEFINITION. What the words of the engines, the queues and the system do, as tables in the form of
Sys2Proof/Safety/Words.lean, with the conditions of each word's own rules. -/
namespace Sys2Proof.Machine

/-! ### Class 0xB (R300 to R306) -/

/-- A class 0xB word issues once the array is powered (R33) and its threads' earlier words on what it names have
completed (R290). -/
def rowMat (h : Hdr) (srcs : List Src) (srcs64 : List Src64) (recs tiles : List Nat)
    (ok : State → Nat → Nat → List Nat → Prop) (mk : State → Nat → Nat → List Nat → State) : WordRow where
  info _ := { guard := h.guard, la := h.la.toNat, reads := (srcRegs srcs srcs64).1, sreads := (srcRegs srcs srcs64).2, sGuarded := true }
  able s w _ acting := (getCore s (w / 64)).power = .on ∧ namesPending s (teamOfWarp s w) acting recs tiles = false ∧
    ok s w (teamOfWarp s w) acting
  makes s w _ acting := mk s w (teamOfWarp s w) acting

/-- The state in which a team waits for one more class 0xB word (R290). -/
def withPend (s : State) (k : Nat) (m : MatPend) : State := modTeam s k fun tm => { tm with matPend := tm.matPend ++ [m] }

def matrixRow : Instr → Option WordRow
  | .rsv h n a b c => some (rowMat h [uSrc b, uSrc c] [uSrc64 a] [n.val] []
      (fun s _ k acting =>
        let t := acting.headD 0
        descBad (rd64 s t (uSrc64 a)) (rd32 s t (uSrc b)) (rd32 s t (uSrc c)) = false ∧
          descConflict s k n.val (mkDesc (rd64 s t (uSrc64 a)) (rd32 s t (uSrc b)) (rd32 s t (uSrc c))) = false)
      fun s _ k acting =>
        let t := acting.headD 0
        let d := mkDesc (rd64 s t (uSrc64 a)) (rd32 s t (uSrc b)) (rd32 s t (uSrc c))
        modTeam s k fun tm =>
          { tm with recs := smPut tm.recs n.val d, matPend := tm.matPend ++ [matPendOf (.rsv n.val) acting h.la.toNat 0] })
  | .unrsv h n => some (rowMat h [] [] [n.val] [] (fun s _ k _ => (getRec (getTeam s k) n.val).isSome)
      fun s _ k acting => withPend s k (matPendOf (.unrsv n.val) acting h.la.toNat 0))
  | .acq h t => some (rowMat h [] [] [] [t.val] (fun s _ k _ => ownsTile s k t.val = true)
      fun s w k acting =>
        if tokenUnit s (w / 64) t.val then withPend s k (matPendOf (.acq t.val) acting h.la.toNat (getCore s (w / 64)).order) else s)
  | .rel h t => some (rowMat h [] [] [] [t.val]
      (fun s _ k acting => ownsTile s k t.val = true ∧ (acting.any fun u => !storesDrained (getTh s u)) = false)
      fun s w _ _ => setToken s (w / 64) t.val true)
  | .zacc h t => some (rowMat h [] [] [] [t.val]
      (fun s w k _ => ownsTile s k t.val = true ∧ tokenUnit s (w / 64) t.val = true ∧ queueRoom s k = true)
      fun s w k _ => postJob s (w / 64) (newJob (freeNum (getCore s (w / 64))) (k % 4) (w % 64) (.zacc t.val)))
  | .mma h t ka kb c => some (rowMat h [uSrc c] [] [ka.val, kb.val] [t.val]
      (fun s w k acting => (mmaCheck s k t.val ka.val kb.val (rd32 s (acting.headD 0) (uSrc c)).toNat).isSome ∧
        tokenUnit s (w / 64) t.val = true ∧ queueRoom s k = true)
      fun s w k acting =>
        let x := (mmaCheck s k t.val ka.val kb.val (rd32 s (acting.headD 0) (uSrc c)).toNat).getD (0, 0, 0)
        postJob s (w / 64) (newJob (freeNum (getCore s (w / 64))) (k % 4) (w % 64) (.mma t.val ka.val kb.val x.1 x.2.1 x.2.2)))
  | _ => none

/-! ### Class 0xC: cards and rings (R315 to R327) -/

/-- The info of a class 0xC word whose operands are 32-bit uniform values. -/
def infoU (h : Hdr) (srcs : List USrc) : WInfo :=
  { guard := h.guard, la := h.la.toNat, reads := (srcRegs (srcs.map uSrc) []).1, sreads := (srcRegs (srcs.map uSrc) []).2 }

/-- The open card of a warp once it has one: the state and the job number. -/
def cardOf (s : State) (w : Nat) : State × Nat := (openCardOf s w (teamOfWarp s w)).getD (s, 0)

/-- The closing record at a scratchpad address (R310). -/
def closing (s : State) (w sa : Nat) : List Byte :=
  spReadPlain s (w / 64) ((spLocalPlain s (teamOfWarp s w) sa 256).getD 0) 256

/-- The records a card names, and its tiles (R312). -/
def cardAddrs (j : Job) (c : List Byte) : List Nat := cardDsts j c ++ cardSrcs j c ++ (cReads c ++ cWrites c).map (cRaddr c)
def cardRecs (j : Job) (c : List Byte) : List Nat :=
  (cardAddrs j c).flatMap codedRec ++ (if cFollow c then [cFollowA c, cFollowB c] else [])
def cardTiles (tm : Team) (j : Job) (c : List Byte) : List Nat :=
  (if cFollow c then [cFollowT c] else []) ++ codedTiles tm (cardAddrs j c)

/-- The card is posted and closed, and a copy that completes into a ring claims its slot when it may (R318, R320). -/
def postCard (s : State) (w : Nat) (acting : List Nat) (c : List Byte) : State :=
  let x := cardOf s w
  let core := w / 64
  let ord := (getCore x.1 core).order
  let s2 := modJob x.1 core x.2 fun j =>
    { j with
      card := c, card0 := c, posted := true, order := ord, state := if cHold c then .held else .queued
      lane := laneOf (acting.headD 0), pc := (getTh s (acting.headD 0)).pc }
  let s3 := modWarp (modCore s2 core fun y => { y with order := ord + 1 }) w fun y => { y with openCard := none }
  match getJob s3 core x.2 with
  | some j => if cCmpl c = 1 ∧ mayClaim s3 core (teamOfWarp s w) j then claimSlot s3 core (teamOfWarp s w) j 0 else s3
  | none => s3

def copyRow : Instr → Option WordRow
  | .cpy h n dst src => some
      { info := fun _ => { guard := h.guard, la := h.la.toNat, reads := (srcRegs [] [dst, src]).1, sreads := (srcRegs [] [dst, src]).2 }
        able := fun s w _ acting =>
          let tm := getTeam s (teamOfWarp s w)
          let d (t : Nat) := (rd64 s t dst).toNat
          let a (t : Nat) := (rd64 s t src).toNat
          namesPending s (teamOfWarp s w) acting (acting.flatMap fun t => codedRec (d t) ++ codedRec (a t)) [] = false ∧
            (∀ j, (getWarp s w).openCard.bind (getJob s (w / 64)) = some j → j.ncpy < 32) ∧
            (∀ t ∈ acting, roleBad tm true (d t) = false ∧ roleBad tm false (a t) = false) ∧
            laneStore (getCore s (w / 64)) + acting.length ≤ 4096 ∧ (openCardOf s w (teamOfWarp s w)).isSome
        makes := fun s w _ acting => modJob (cardOf s w).1 (w / 64) (cardOf s w).2 fun j =>
          { j with ncpy := j.ncpy + 1, xfers := j.xfers ++ acting.map fun t => ⟨rd64 s t dst, rd64 s t src, cpyBytes n⟩ } }
  | .cpyo h d => some
      { info := fun _ => { guard := h.guard, la := h.la.toNat, swrites := [d.toNat], uniform := true }
        able := fun s w _ _ => (openCardOf s w (teamOfWarp s w)).isSome
        makes := fun s w _ _ => putS (cardOf s w).1 w d.toNat (BitVec.ofNat 64 (cardOf s w).2) }
  | .cpyc h a => some
      { info := fun _ => { infoU h [a] with access := true }
        able := fun s w l acting =>
          let sa := (rd32 s (acting.headD 0) (uSrc a)).toNat
          let c := closing s w sa
          (∀ t ∈ l, resolved (getTh s t) = true) ∧ (openCardOf s w (teamOfWarp s w)).isSome ∧ sa % 256 = 0 ∧
            (spLocalPlain s (teamOfWarp s w) sa 256).isSome ∧
            ∃ j, getJob (cardOf s w).1 (w / 64) (cardOf s w).2 = some j ∧
              namesPending s (teamOfWarp s w) acting (cardRecs j c) (cardTiles (getTeam s (teamOfWarp s w)) j c) = false ∧
              (cCmpl c = 1 → ringPending s (teamOfWarp s w) (cRing c) = false) ∧
              cardBad s (teamOfWarp s w) j c = false ∧ cardToken s (teamOfWarp s w) j c = false
        makes := fun s w _ acting => postCard s w acting (closing s w (rd32 s (acting.headD 0) (uSrc a)).toNat) }
  | .patch h a b c => some
      { info := fun _ => infoU h [a, b, c]
        able := fun s w _ acting =>
          let t := acting.headD 0
          ∃ j, heldCard s (w / 64) (teamOfWarp s w) (rd32 s t (uSrc a)).toNat = some j ∧
            (patchCard j (rd32 s t (uSrc b)).toNat (rd32 s t (uSrc c)).toNat).isSome
        makes := fun s w _ acting =>
          let t := acting.headD 0
          let num := (rd32 s t (uSrc a)).toNat
          match (heldCard s (w / 64) (teamOfWarp s w) num).bind fun j => patchCard j (rd32 s t (uSrc b)).toNat (rd32 s t (uSrc c)).toNat with
          | some card => modJob s (w / 64) num fun j => { j with card := card }
          | none => s }
  | .go h a => some
      { info := fun _ => infoU h [a]
        able := fun s w _ acting => (heldCard s (w / 64) (teamOfWarp s w) (rd32 s (acting.headD 0) (uSrc a)).toNat).isSome
        makes := fun s w _ acting => modJob s (w / 64) (rd32 s (acting.headD 0) (uSrc a)).toNat fun j => { j with state := .queued } }
  | .rinit h n a b => some
      { info := fun _ => infoU h [a, b]
        able := fun s w _ acting =>
          let k := teamOfWarp s w
          let base := (rd32 s (acting.headD 0) (uSrc a)).toNat
          let cfg := (rd32 s (acting.headD 0) (uSrc b)).toNat
          n.val < (getTeam s k).rings ∧ cfg < 256 ∧ cfg % 16 ≤ 12 ∧ cfg / 16 ≤ 12 ∧ base % 2 ^ (cfg % 16 + 4) = 0 ∧
            (spLocalPlain s k base (2 ^ (cfg % 16 + 4 + cfg / 16))).isSome ∧ ringPending s k n.val = false
        makes := fun s w _ acting =>
          let k := teamOfWarp s w
          let base := (rd32 s (acting.headD 0) (uSrc a)).toNat
          let cfg := (rd32 s (acting.headD 0) (uSrc b)).toNat
          if ringNamed s k n.val then withPend s k (matPendOf (.rinit n.val base (cfg % 16) (cfg / 16)) acting h.la.toNat 0)
          else setRing s k n.val { sz := cfg % 16, ln := cfg / 16, base := base } }
  | .await g d n => some
      { info := fun _ => { guard := g, swrites := [d.toNat], uniform := true }
        able := fun s w _ _ => ringPending s (teamOfWarp s w) n.val = false ∧ (getRing (getTeam s (teamOfWarp s w)) n.val).isSome
        makes := fun s w _ _ =>
          let k := teamOfWarp s w
          let r := (getRing (getTeam s k) n.val).getD {}
          let s1 := setRing s k n.val { r with aptr := (r.aptr + 1) % 65536 }
          (takeSlot s1 w k n.val r.aptr d.toNat).getD s1
        out := fun s w _ _ _ =>
          let k := teamOfWarp s w
          let r := (getRing (getTeam s k) n.val).getD {}
          let s1 := setRing s k n.val { r with aptr := (r.aptr + 1) % 65536 }
          if (takeSlot s1 w k n.val r.aptr d.toNat).isSome then {}
          else { wait := some (.await n.val r.aptr d.toNat) } }
  | .rels h n a => some
      { info := fun _ => infoU h [a]
        able := fun s w _ acting => ringPending s (teamOfWarp s w) n.val = false ∧
          (getRing (getTeam s (teamOfWarp s w)) n.val).isSome ∧ ∀ t ∈ acting, resolved (getTh s t) = true
        makes := fun s w _ acting =>
          let k := teamOfWarp s w
          let r := (getRing (getTeam s k) n.val).getD {}
          let addr := (rd32 s (acting.headD 0) (uSrc a)).toNat / 2 * 2
          match r.slots.find? fun x => decide (x.2 = .taken) && decide (slotAddr r x.1 = addr) with
          | some x => setRing s k n.val (ringAdvance (ringCap r) { r with slots := smPut r.slots x.1 .released })
          | none => s }
  | _ => none

/-! ### Work queues and calls (R211 to R213, R331, R355 to R357) -/

/-- Every acting thread in turn takes an item of its queue: the state and the items, none where one has to wait or is
refused. -/
def deqLanes (va : Nat → Nat) : State → List Nat → Option (State × List (Nat × List Byte))
  | s, [] => some (s, [])
  | s, t :: ts =>
    match deqTry s t (va t) with
    | .done s1 bs => (deqLanes va s1 ts).map fun x => (x.1, (t, bs) :: x.2)
    | _ => none

/-- A service request's buffer lies aligned in a shared-rw page that is translated (R211). -/
def svcBuffer (s : State) (t va : Nat) : Bool :=
  decide (va % 256 = 0) && (match thTrans s t va .r with
    | .hit e pa => decide (e.mt = 0) && decide (potState (potEntry s (potGov s (pa / 4096))) = psSharedRw)
    | _ => false)

/-- Every acting thread in turn posts its request, with nothing held for room before it: the state and the TAGs. -/
def svcLanes (p : Nat) (va : Nat → Nat) (func : Nat → W32) : State → List Nat → Option (State × List (Nat × Nat))
  | s, [] => some (s, [])
  | s, t :: ts =>
    if svcBuffer s t (va t) && (getPart s p).svcWait.isEmpty then
      match svcPostTo s p t (va t) (func t) with
      | some (s1, tag) => (svcLanes p va func s1 ts).map fun x => (x.1, (t, tag) :: x.2)
      | none => none
    else none

/-- Every acting thread in turn acknowledges its page: the state and the value of d. -/
def fqackLanes (a : Nat → W64) (b : Nat → W32) : State → List Nat → State × List (Nat × W32)
  | s, [] => (s, [])
  | s, t :: ts =>
    let y := fqackOne s (a t) (b t)
    let r := fqackLanes a b y.1 ts
    (r.1, (t, y.2) :: r.2)

/-- The argument block of an `rcall` is readable in a thread (R212): its translation. -/
def rcallBlock (s : State) (t va : Nat) : Option Nat :=
  match thTrans s t va .r with
  | .hit e pa0 =>
    let pa := fwdPa s pa0
    if s.rowan.sleeping = false ∧ e.mt = 0 ∧ paOk pa ∧ dataBad s pa 64 e.key e.ver = false ∧ (inWindow pa = true → windowBacked s pa = true) then some pa else none
  | _ => none

/-- The eight words of an argument block. -/
def argWords (s : State) (pa : Nat) : List W64 := (rangeFrom 0 8).map fun i => BitVec.ofNat 64 (readNat s (pa + 8 * i) 8)

/-- Every acting thread in turn reads its argument block through its home and posts its call. -/
def rcallLanes (va func : Nat → Nat) (encl : Nat) : State → List Nat → Option State
  | s, [] => some s
  | s, t :: ts =>
    match rcallBlock s t (va t) with
    | none => none
    | some pa =>
      let s1 := meterLines (touchFor (coreOf t) s pa 64 false) pa 64
      rcallLanes va func encl { s1 with rowan := { s1.rowan with queue := s1.rowan.queue ++ [⟨t, func t, argWords s1 pa, va t, encl⟩] } } ts

def queueRow : Instr → Option WordRow
  | .deq g d a => some
      { info := fun _ => { guard := g, reads := (srcRegs [] [a]).1, sreads := (srcRegs [] [a]).2, writes := groupRegs (8 * d.toNat) 8
                           access := true }
        able := fun s _ _ acting =>
          (∀ t ∈ acting, resolved (getTh s t) = true) ∧ (deqLanes (fun t => (rd64 s t a).toNat) s acting).isSome
        makes := fun s _ _ acting => ((deqLanes (fun t => (rd64 s t a).toNat) s acting).getD (s, [])).1
        out := fun s _ _ acting t =>
          { w := itemRegs (8 * d.toNat) (smGet [] ((deqLanes (fun u => (rd64 s u a).toNat) s acting).getD (s, [])).2 t) } }
  | .enq h a d => some
      { info := fun _ => { guard := h.guard, la := h.la.toNat, reads := groupRegs (8 * d.toNat) 8 ++ (srcRegs [] [a]).1
                           sreads := (srcRegs [] [a]).2, access := true }
        out := fun s _ _ _ t =>
          { mops := [newMop s t (.enq (rd64 s t a).toNat (regBytes (getTh s t) (8 * d.toNat) 32)) true (rd64 s t a).toNat] } }
  | .svc g d a b => some
      { info := fun _ => { guard := g, reads := (srcRegs [b] [a]).1, sreads := (srcRegs [b] [a]).2, writes := [d.toNat], access := true }
        able := fun s w _ acting =>
          let p := (getTeam s (teamOfWarp s w)).part
          (∀ t ∈ acting, resolved (getTh s t) = true ∧ maintOpen s t = false ∧ (getTh s t).refused = none ∧
              thTrans s t (rd64 s t a).toNat .r ≠ .miss) ∧
            (svcLanes p (fun t => (rd64 s t a).toNat) (fun t => rd32 s t b) s acting).isSome
        makes := fun s w _ acting =>
          ((svcLanes (getTeam s (teamOfWarp s w)).part (fun t => (rd64 s t a).toNat) (fun t => rd32 s t b) s acting).getD (s, [])).1
        out := fun s w _ acting t =>
          let r := (svcLanes (getTeam s (teamOfWarp s w)).part (fun u => (rd64 s u a).toNat) (fun u => rd32 s u b) s acting).getD (s, [])
          { wait := some (.svc (smFind? r.2 t) d.toNat (rd64 s t a).toNat (rd32 s t b)) } }
  | .rcall g d a b => some
      { info := fun _ => { guard := g, reads := (srcRegs [b] [a]).1, sreads := (srcRegs [b] [a]).2, writes := [d.toNat], privileged := true
                           access := true }
        able := fun s w _ acting =>
          (∀ t ∈ acting, resolved (getTh s t) = true ∧ maintOpen s t = false ∧ (getTh s t).refused = none ∧
            (rd64 s t a).toNat % 64 = 0 ∧ thTrans s t (rd64 s t a).toNat .r ≠ .miss ∧ (rd32 s t b).toNat ∈ rowanFuncs) ∧
          (rcallLanes (fun t => (rd64 s t a).toNat) (fun t => (rd32 s t b).toNat) (getTeam s (teamOfWarp s w)).encl s acting).isSome
        makes := fun s w _ acting =>
          (rcallLanes (fun t => (rd64 s t a).toNat) (fun t => (rd32 s t b).toNat) (getTeam s (teamOfWarp s w)).encl s acting).getD s
        out := fun _ _ _ _ _ => { wait := some (.rcall d.toNat) } }
  | .fqack g d a b => some
      { info := fun _ => { guard := g, reads := (srcRegs [b] [a]).1, sreads := (srcRegs [b] [a]).2, writes := [d.toNat], privileged := true }
        able := fun s _ _ acting => ∀ t ∈ acting, resolved (getTh s t) = true ∧ maintOpen s t = false
        makes := fun s _ _ acting => (fqackLanes (fun t => rd64 s t a) (fun t => rd32 s t b) s acting).1
        out := fun s _ _ acting t =>
          { w := [(d.toNat, smGet 0 (fqackLanes (fun u => rd64 s u a) (fun u => rd32 s u b) s acting).2 t)] } }
  | .qsub h d a b => some
      { info := fun _ => { infoU h [a, b] with swrites := [d.toNat], uniform := true, access := true }
        able := fun s w l acting =>
          let k := teamOfWarp s w
          let sa := (rd32 s (acting.headD 0) (uSrc a)).toNat
          (rd32 s (acting.headD 0) (uSrc b)).toNat ≤ 7 ∧ sa % 64 = 0 ∧ (∀ t ∈ l, resolved (getTh s t) = true) ∧
            ∃ ph phys ring, spLocalPlain s k sa 64 = some ph ∧
              spLocalPlain s k sa (pktLen (spReadPlain s (w / 64) ph 64)) = some phys ∧
              getRing (getTeam s k) (pRing (spReadPlain s (w / 64) ph 64)) = some ring ∧
              pktBad (spReadPlain s (w / 64) ph 64) = false ∧ pRing (spReadPlain s (w / 64) ph 64) < (getTeam s k).rings ∧
              ringPending s k (pRing (spReadPlain s (w / 64) ph 64)) = false
        makes := fun s w l acting =>
          let k := teamOfWarp s w
          let t := acting.headD 0
          let sa := (rd32 s t (uSrc a)).toNat
          let st := (rd32 s t (uSrc b)).toNat
          let hdr := spReadPlain s (w / 64) ((spLocalPlain s k sa 64).getD 0) 64
          let pkt := spReadPlain s (w / 64) ((spLocalPlain s k sa (pktLen hdr)).getD 0) (pktLen hdr)
          let x := ringClaim ((getRing (getTeam s k) (pRing hdr)).getD {})
          let s1 := setRing s k (pRing hdr) x.1
          if ringTakes s k (pRing hdr) (getTeam s k).matPend then
            if admits s st then sendPacket s1 k st d.toNat t (getTh s t).pc pkt x.2
            else addPend s1 k l h.la.toNat (.qsub pkt st d.toNat t (getTh s t).pc (some x.2))
          else addPend s k l h.la.toNat (.qsub pkt st d.toNat t (getTh s t).pc none) }
  | .qcancel h a => some
      { info := fun _ => infoU h [a]
        makes := fun s w _ acting =>
          let k := teamOfWarp s w
          let mine (q : Query) : Bool := decide (q.core = k / 4) && decide (q.tslot = k % 4) && decide (q.qseq = rd32 s (acting.headD 0) (uSrc a))
          { s with heather := s.heather.map fun h =>
              (h.1, { h.2 with
                admitQ := h.2.admitQ.filter fun q => !mine q
                cancelled := h.2.cancelled ++ h.2.admitQ.filter mine
                ctxs := h.2.ctxs.map fun c => if mine c.2.q then (c.1, cancelCtx c.2) else c }) } }
  | _ => none

/-! ### Barriers and mbar objects (R276 to R281) -/

/-- An arrival at barrier b (R277): no acting thread is in handler state and no flag armed is set (R69). -/
def rowArrive (g : Guard) (b : Nat) (andWait : Bool) : WordRow where
  info _ := { guard := g, reports := true, committed := true }
  able s w _ acting := (∀ t ∈ acting, (getTh s t).handler = false) ∧ armedTrap s (teamOfWarp s w) = none
  makes s w _ acting :=
    let ph := barPhase s (teamOfWarp s w) b
    inThreads s (acting.filter fun t => decide (smGet 0 (getTh s t).arr b ≠ ph + 1)) fun _ x => { x with arr := smPut x.arr b (ph + 1) }
  out s w _ _ t :=
    let ph := barPhase s (teamOfWarp s w) b
    { wait := if smGet 0 (getTh s t).arr b = ph + 1 then some (.barPrev b ph andWait)
        else if andWait then some (.bar b ph) else none }

/-- The objects of an mbar word's threads, one after another: each reads its object as the ones before have left it. -/
def mbarLanes (k : Nat) (addr : Nat → Nat) (f : Nat → MbObj → MbObj) : State → List Nat → State × List (Nat × MbObj)
  | s, [] => (s, [])
  | s, t :: ts =>
    match spObject s k (addr t) with
    | .inr p =>
      let m := mbRead s p.1 p.2
      let r := mbarLanes k addr f (mbUpdate s p.1 p.2 fun _ => f t m) ts
      (r.1, (t, m) :: r.2)
    | .inl _ => mbarLanes k addr f s ts

/-- An mbar word (R279 to R281): its threads' earlier accesses have performed, and each names an object. -/
def rowMbar (h : Hdr) (dst : List Nat) (a b : Src) (ok : State → Nat → Prop) (f : State → Nat → MbObj → MbObj)
    (out : State → Nat → MbObj → List (Nat × W32)) : WordRow where
  info _ := { guard := h.guard, la := h.la.toNat, reads := (srcRegs [a, b] []).1, sreads := (srcRegs [a, b] []).2, writes := dst
              access := true }
  able s w _ acting := ∀ t ∈ acting, resolved (getTh s t) = true ∧ ok s t ∧
    ∃ p, spObject s (teamOfWarp s w) (rd32 s t a).toNat = .inr p
  makes s w _ acting := (mbarLanes (teamOfWarp s w) (fun t => (rd32 s t a).toNat) (f s) s acting).1
  out s w _ acting t :=
    { w := match smFind? (mbarLanes (teamOfWarp s w) (fun u => (rd32 s u a).toNat) (f s) s acting).2 t with
        | some m => out s t m
        | none => [] }

def barrierRow : Instr → Option WordRow
  | .barArrive g b => some (rowArrive g b.val false)
  | .barSync g b => some (rowArrive g b.val true)
  | .barSwap g => some (rowArrive g 9 true)
  | .barWait g b => some
      { info := fun _ => { guard := g }
        out := fun s _ _ _ t =>
          let ph := barPhase s (teamOf s t) b.val
          if smGet 0 (getTh s t).arr b.val = ph + 1 then { wait := some (.bar b.val ph) } else {} }
  | .mbarInit h a b => some (rowMbar h [] a b (fun s t => (rd32 s t b).toNat % 2 ^ 24 ≠ 0)
      (fun s t m => { m with quorum := (rd32 s t b).extractLsb' 0 24, count := 0, bytes := 0 }) fun _ _ _ => [])
  | .mbarArrive h d a b => some (rowMbar h [d.toNat] a b (fun _ _ => True)
      (fun s t m => { m with count := BitVec.ofNat 24 (Nat.min (m.count.toNat + (rd32 s t b).toNat) m.quorum.toNat) })
      fun _ _ m => [(d.toNat, m.gen.zeroExtend 32)])
  | .mbarExpect h a b => some (rowMbar h [] a b (fun _ _ => True) (fun s t m => { m with bytes := m.bytes + rd32 s t b }) fun _ _ _ => [])
  | .mbarWait g a b => some
      { info := fun _ => { guard := g, reads := (srcRegs [a, b] []).1, sreads := (srcRegs [a, b] []).2, access := true }
        able := fun s w _ acting => ∀ t ∈ acting, resolved (getTh s t) = true ∧
          ∃ p, spObject s (teamOfWarp s w) (rd32 s t a).toNat = .inr p
        out := fun s w _ _ t =>
          match spObject s (teamOfWarp s w) (rd32 s t a).toNat with
          | .inr p =>
            if (mbRead s p.1 p.2).gen = (rd32 s t b).extractLsb' 0 16 then
              { wait := some (.mbar (rd32 s t a).toNat ((rd32 s t b).extractLsb' 0 16).toNat (getTh s t).pc) }
            else {}
          | .inl _ => {} }
  | _ => none

/-! ### Special registers, register counts, loops and the end of a team (R115, R122, R178 to R181, R206 to R210) -/

/-- The value an `mts` writes in a thread, its read-only bits cleared (R116, R191, R208). -/
def mtsVal (s : State) (r : SpecialReg) (a : MtsSrc) (t : Nat) : W64 :=
  maskSpecial r (match a with
    | .v32 x => (rd32 s t x).zeroExtend 64
    | .v64 x => rd64 s t x)

def systemRow : Instr → Option WordRow
  | .mfs g d r => some
      { info := fun _ => { guard := g, writes := rangeFrom d.toNat (if specialWide r then 2 else 1), committed := true, special := some r }
        out := fun s _ _ _ t =>
          match readSpecial s t r with
          | .inl v => { w := [(d.toNat, v)] }
          | .inr v => { w := [(d.toNat, v.extractLsb' 0 32), (d.toNat + 1, v.extractLsb' 32 32)] } }
  | .mts g r a => some
      { info := fun _ =>
          let src := match a with
            | .v32 x => srcRegs [x] []
            | .v64 x => srcRegs [] [x]
          { guard := g, reads := src.1, sreads := src.2, committed := true, special := some r }
        makes := fun s w _ acting =>
          inThreads (writeSpecialWarp s w r (mtsVal s r a (acting.getLastD 0))) acting fun t x => writeSpecialTh x r (mtsVal s r a t) }
  | .fencex g => some { info := fun _ => { guard := g, reports := true } }
  | .tkill g => some
      { info := fun _ => { guard := g }
        makes := fun s w _ _ => endTeam s (teamOfWarp s w) }
  | .rshrink g a => some
      { info := fun _ => { guard := g, reads := (srcRegs [a.src] []).1, sreads := (srcRegs [a.src] []).2 }
        able := fun s _ _ acting => ∀ t ∈ acting, growBad s t (rd32 s t a.src) = false ∧
          ∀ r ∈ flightW (getTh s t), r < 8 * (rd32 s t a.src).toNat
        makes := fun s _ _ acting => inThreads s acting fun t x => shrinkThread (8 * (rd32 s t a.src).toNat) x }
  | .rgrow g a => some
      { info := fun _ => { guard := g, reads := (srcRegs [a.src] []).1, sreads := (srcRegs [a.src] []).2 }
        able := fun s _ _ acting => ∀ t ∈ acting, growBad s t (rd32 s t a.src) = false
        makes := fun s w _ acting =>
          let n (t : Nat) : Nat := 8 * (rd32 s t a.src).toNat
          let asking := acting.filter fun t => decide ((getTh s t).nregs < n t)
          let reqs : List GrowReq := if asking.isEmpty then [] else [⟨asking.map fun t => (t, n t), teamOfWarp s w % 4, s.n⟩]
          modCore s (w / 64) fun c => { c with grows := c.grows ++ reqs }
        out := fun s _ _ _ t =>
          { wait := if (getTh s t).nregs < 8 * (rd32 s t a.src).toNat then some (.rgrow (8 * (rd32 s t a.src).toNat) s.n) else none } }
  | _ => none

end Sys2Proof.Machine
end

