-- ==== Sys2Proof/Safety/HostSide.lean ====
section
/-! DEFINITION. What partitions, usage records, the host port's registers and the host's accesses do, as rules (R18 to R20,
R228 to R231, R370, R416, R426, R427, R434). -/
namespace Sys2Proof.Machine

/-- What the host was last answered. -/
def answered (s : State) (r : HostReply) : State := { s with host := { s.host with reply := some r } }

/-- An access on a bound stream that its enclave may make (R20, R368, R370): `es` are the translations that allow it, frame by
frame. That the aperture is addressed by PA: notes/assumptions/29.md. -/
structure BoundAccess (s : State) (r : HostAccess) (i : Nat) (e : Enclave) (es : List TlbEntry) : Prop where
  space : r.space = .aperture
  up : pf0Up s = true
  fn : 1 ≤ r.fn ∧ r.fn ≤ 64
  live : (getPart s (r.fn - 1)).live = true
  state : getTdi s r.fn ≠ .error
  stream : r.stream = some i
  check : r.ideOk = true
  secure : (getStream s i).insecure = false
  keyed : (getStream s i).keyed = true
  encl : getEncl s (getStream s i).encl = some e
  exists' : hostAddrOk s r = true
  grant : allSome (hostTrans s (getStream s i).encl r.data.isSome) (hostFrames r) = some es
  first : hostBehind s r = false
  moves : hostHeld s r = false

/-- An access with no stream (R20, R370). -/
structure PlainAccess (s : State) (r : HostAccess) : Prop where
  space : r.space = .aperture
  up : pf0Up s = true
  fn : 1 ≤ r.fn ∧ r.fn ≤ 64
  live : (getPart s (r.fn - 1)).live = true
  state : getTdi s r.fn ≠ .error
  stream : r.stream = none
  first : hostBehind s r = false
  moves : hostHeld s r = false

/-- The frames an access touches are sealed frames of its VF's partition (R370, R405). -/
def SealedFrames (s : State) (r : HostAccess) : Prop :=
  (hostFrames r).all (fun f =>
    decide (potState (potEntry s (potGov s f)) = psSealed) &&
      decide (enclPart s (potOwner (potEntry s (potGov s f))) = some (r.fn - 1))) = true

/-- The WIN that a change of a meadow-store split under way leads to, or the present one. -/
def winOf (c : MsCfg) : Nat := match c.next with
  | some n => n.1
  | none => c.win

/-- The state after the homes of an access's blocks have been asked for them as they are stored (R245, R370). -/
def sealAsked (s : State) (r : HostAccess) : State := (blocksOf 64 r.addr r.len).foldl (sealTouch false) s

/-- No copy job of a partition has a piece to land behind another (R250). -/
def JobsLanded (s : State) (p : Nat) : Prop :=
  aheadOf s (fun core j => decide ((getTeam s (core * 4 + j.tslot)).part = p)) = false

inductive HostRule : Instr → State → State → Prop where
  /-- R416: a write of a live partition's PCFG changes only WEIGHT. -/
  | pcfgLive (s : State) (p : Nat) (v : BitVec 64) (small : p < 64) (up : pf0Up s = true) (live : (getPart s p).live = true) :
      HostRule (.pcfg p v) s
        (setPart s p { getPart s p with
          pcfg := ((getPart s p).pcfg &&& ~~~0x00FFFF0000000000) ||| (v &&& 0x00FFFF0000000000) })
  /-- R416: with CREATE it starts the build of one that is not live. -/
  | pcfg (s : State) (p : Nat) (v : BitVec 64) (small : p < 64) (up : pf0Up s = true) (dead : (getPart s p).live = false)
      (idle : (getPart s p).creating = false) :
      HostRule (.pcfg p v) s (setPart s p { getPart s p with pcfg := v &&& 0x20FFFFFFC0FFFFFF, creating := v.getLsbD 63 })
  /-- R377, R416: with its quota met, the build gives the partition its frames and its agent enclave, it is live with its meters at 0
  (R431), and PF0 boot status reports it; where the agent's pages do not fit, it is not, and CREATE reads 0 again. -/
  | build (s : State) (p : Nat) (areas plain : List Nat) (asked : (getPart s p).creating = true)
      (quota : takeQuota s p = some (areas, plain)) :
      HostRule (.partitionBuild p) s
        (match buildAgent s p areas plain with
         | some s1 => modPart { s1 with boot := { s1.boot with ready := nsAdd s1.boot.ready p } } p fun y =>
            { y with
              live := true, creating := false, meters := [], quota := (areas ++ plain).map fun f => (f, 512), areas := areas
              ctx := poolsOf s p, ctxUsed := [], liveSince := s.clock, second := s.clock / 1000000000 }
         | none => setPart s p { getPart s p with creating := false })
  /-- R416: a quota that cannot be met leaves it not live, and CREATE reads 0 again. -/
  | buildFails (s : State) (p : Nat) (asked : (getPart s p).creating = true) (none' : takeQuota s p = none) :
      HostRule (.partitionBuild p) s (setPart s p { getPart s p with creating := false })
  /-- R434: at every whole second of CLOCK a live partition emits a record, after a call to Rowan under way (R372). -/
  | usage (s : State) (p : Nat) (due : recordDue s (getPart s p) = true) (idle : rowanBusy s = false) :
      HostRule (.usageRecordPeriodic p) s (emitUsage (setPart s p { getPart s p with second := s.clock / 1000000000 }) p 0).1
  /-- R228: MSLIM takes a limit that fits, and lowers WIN under the new limit. -/
  | mslim (s : State) (p m : Nat) (v : BitVec 32) (up : pf0Up s = true) (range : p < 64 ∧ m < 8)
      (fits : otherTotals s p m + bitsOf v.toNat 8 0 ≤ 256) (order : bitsOf v.toNat 24 16 ≤ bitsOf v.toNat 8 0) :
      HostRule (.mslim p m v) s
        (startSplit (setMsLim s p m ⟨(getMsLim s p m).err && !v.getLsbD 31, bitsOf v.toNat 24 16, bitsOf v.toNat 8 0⟩) p m
          (Nat.min (winOf (getMsCfg s p m)) (Nat.min (bitsOf v.toNat 24 16) (bitsOf v.toNat 8 0))) (bitsOf v.toNat 8 0))
  /-- R228: a limit that does not fit is refused, and ERR is set. -/
  | mslimBad (s : State) (p m : Nat) (v : BitVec 32) (up : pf0Up s = true) (range : p < 64 ∧ m < 8)
      (bad : 256 < otherTotals s p m + bitsOf v.toNat 8 0 ∨ bitsOf v.toNat 8 0 < bitsOf v.toNat 24 16) :
      HostRule (.mslim p m v) s (setMsLim s p m { getMsLim s p m with err := true })
  /-- R229: MSCFG takes a WIN within MSLIM, and the change begins. -/
  | mscfg (s : State) (p m : Nat) (v : BitVec 32) (up : vfUp s p = true) (range : p < 64 ∧ m < 8)
      (idle : (getMsCfg s p m).busy = false)
      (fits : bitsOf v.toNat 8 0 ≤ (getMsLim s p m).winmax ∧ bitsOf v.toNat 8 0 ≤ (getMsLim s p m).total) :
      HostRule (.mscfg p m v) s
        (startSplit (setMsCfg s p m { getMsCfg s p m with err := (getMsCfg s p m).err && !v.getLsbD 30 }) p m (bitsOf v.toNat 8 0)
          (getMsLim s p m).total)
  /-- R19, R441: one through a VF whose interface is in ERROR answers Unsupported Request, and is logged. -/
  | mscfgError (s : State) (p m : Nat) (v : BitVec 32) (up : pf0Up s = true) (range : p < 64) (state : getTdi s (p + 1) = .error) :
      HostRule (.mscfg p m v) s (answerUnsupported s p)
  /-- R229: a WIN beyond MSLIM, or a write while the change is under way, sets ERR. -/
  | mscfgBad (s : State) (p m : Nat) (v : BitVec 32) (up : vfUp s p = true) (range : p < 64 ∧ m < 8)
      (bad : (getMsCfg s p m).busy = true ∨ (getMsLim s p m).winmax < bitsOf v.toNat 8 0 ∨ (getMsLim s p m).total < bitsOf v.toNat 8 0) :
      HostRule (.mscfg p m v) s (setMsCfg s p m { getMsCfg s p m with err := true })
  /-- R231: the change ends: bytes that leave or enter the window read 0. Here the cache share does not shrink. -/
  | split (s : State) (p m win total : Nat) (next : (getMsCfg s p m).next = some (win, total))
      (grows : (getMsCfg s p m).total - (getMsCfg s p m).win ≤ total - win) (landed : JobsLanded s p) :
      HostRule (.meadowStoreSplitChange p m) s
        (setMsCfg (zeroRange s (windowBase p m + Nat.min win (getMsCfg s p m).win * 0x40000)
            (Nat.max win (getMsCfg s p m).win * 0x40000 - Nat.min win (getMsCfg s p m).win * 0x40000)) p m
          { getMsCfg s p m with busy := false, win := win, total := total, next := none })
  /-- R231, R254: where the cache share shrinks, the dirty lines of the partition that are homed in the meadow are written back
  and invalidated first. -/
  | splitShrinks (s : State) (p m win total : Nat) (next : (getMsCfg s p m).next = some (win, total))
      (shrinks : total - win < (getMsCfg s p m).total - (getMsCfg s p m).win) (landed : JobsLanded s p) :
      HostRule (.meadowStoreSplitChange p m) s
        (setMsCfg (zeroRange (cleanShare s p m) (windowBase p m + Nat.min win (getMsCfg s p m).win * 0x40000)
            (Nat.max win (getMsCfg s p m).win * 0x40000 - Nat.min win (getMsCfg s p m).win * 0x40000)) p m
          { getMsCfg s p m with busy := false, win := win, total := total, next := none })
  /-- R18, R19: TDISP, within an SPDM session: the state is read, a locked interface starts, and stopping unlocks it. -/
  | tdiState (s : State) (vf : Nat) (up : pf0Up s = true) (session : tdispOpen s vf = true) :
      HostRule (.tdispRequest vf .getState) s (answered s (.tdisp true (getTdi s vf)))
  | tdiStart (s : State) (vf : Nat) (up : pf0Up s = true) (session : tdispOpen s vf = true) (locked : getTdi s vf = .locked) :
      HostRule (.tdispRequest vf .start) s (answered (setTdi s vf .run) (.tdisp true .run))
  | tdiStop (s : State) (vf : Nat) (up : pf0Up s = true) (session : tdispOpen s vf = true) :
      HostRule (.tdispRequest vf .stop) s (answered (setTdi s vf .unlocked) (.tdisp true .unlocked))
  /-- R19: LOCK_INTERFACE locks an unlocked interface; it is refused while a reset of the VF is in progress. -/
  | lock (s : State) (vf : Nat) (up : pf0Up s = true) (session : tdispOpen s vf = true) (idle : nsHas s.host.flr vf = false) (unlocked : getTdi s vf = .unlocked) :
      HostRule (.lockInterfaceRequest vf) s (answered (setTdi s vf .locked) (.tdisp true .locked))
  | lockRefused (s : State) (vf : Nat) (up : pf0Up s = true) (reset : nsHas s.host.flr vf = true) :
      HostRule (.lockInterfaceRequest vf) s (answered s (.tdisp false (getTdi s vf)))
  /-- R20, R21, R403: IDE_KM programs the keys of a bound selective stream within a finished session, and the stream is open
  on every pod link. -/
  | key (s : State) (stream session : Nat) (x : Session) (up : pf0Up s = true) (range : stream < 256)
      (bound : (getStream s stream).encl ≠ 0) (found : smFind? s.spdm.sessions session = some x) (finished : x.finished = true) :
      HostRule (.ideKmKeyProgramming stream session true) s
        (reopenStream (setStream s stream
          { getStream s stream with keyed := true, insecure := false, linkFault := false, session := some session }) stream)
  /-- R245, R370: a read on a bound stream asks the homes, gives the bytes, and is metered (R431). -/
  | read (s : State) (r : HostAccess) (i : Nat) (e : Enclave) (es : List TlbEntry) (may : BoundAccess s r i e es)
      (kind : r.data = none) (sound : hostBad s es r = false) :
      HostRule (.hostMemoryAccess r) s (answered (hostTouch (meter s e.part mLinkb r.len) r) (.data (hostRead s r)))
  /-- R23: a read that meets poison or fails its tag carries the EP bit; a block that fails its tag is poisoned and logged. -/
  | readBad (s : State) (r : HostAccess) (i : Nat) (e : Enclave) (es : List TlbEntry) (may : BoundAccess s r i e es)
      (kind : r.data = none) (bad : hostBad s es r = true) :
      HostRule (.hostMemoryAccess r) s (answered (hostSpoil (hostTouch (meter s e.part mLinkb r.len) r) es r) .poisoned)
  /-- R245, R370: a write on a bound stream writes its bytes at their homes, in the new frame of a page that has moved (R375). -/
  | write (s : State) (r : HostAccess) (i : Nat) (e : Enclave) (es : List TlbEntry) (bs : List Byte)
      (may : BoundAccess s r i e es) (kind : r.data = some bs)
      (taken : hostFault s r = none) :
      HostRule (.hostMemoryAccess r) s (answered (hostWrite (meter s e.part mLinkb r.len) r bs) (.data []))
  /-- R385: a write that its home refuses is dropped and logged. -/
  | writeRefused (s : State) (r : HostAccess) (i code : Nat) (e : Enclave) (es : List TlbEntry) (bs : List Byte)
      (may : BoundAccess s r i e es)
      (kind : r.data = some bs) (refused : hostFault s r = some code) :
      HostRule (.hostMemoryAccess r) s (answered (logHost s r code) .dropped)
  /-- R375: during the final pass of a migration of one of its frames a write waits, and what comes after it. -/
  | waits (s : State) (r : HostAccess) (space : r.space = .aperture) (up : pf0Up s = true) (fn : 1 ≤ r.fn ∧ r.fn ≤ 64) (live : (getPart s (r.fn - 1)).live = true)
      (state : getTdi s r.fn ≠ .error) (held : hostBehind s r = true ∨ hostHeld s r = true) :
      HostRule (.hostMemoryAccess r) s { s with host := { s.host with heldAcc := s.host.heldAcc ++ [r] } }
  /-- R370: a read with no bound stream of frames that are not sealed in its partition gives ones and is logged. -/
  | refused (s : State) (r : HostAccess) (may : PlainAccess s r) (kind : r.data = none) (other : ¬ SealedFrames s r) :
      HostRule (.hostMemoryAccess r) s (answered (logHost s r ccPotDeny) (.data (List.replicate r.len 0xFF)))
  /-- R245, R370, R402: a sealed frame is read as its tier stores it, through its home. -/
  | sealedRead (s : State) (r : HostAccess) (may : PlainAccess s r) (kind : r.data = none) (exists' : hostAddrOk s r = true)
      (frames : SealedFrames s r)
      (clean : (blocksOf 64 r.addr r.len).any (fun b => nsHas (sealAsked s r).poison b || nsHas (sealAsked s r).ecc b) = false) :
      HostRule (.hostMemoryAccess r) s
        (answered (sealAsked s r)
          (.data ((((blocksOf 64 r.addr r.len).flatMap (storedBlock (sealAsked s r))).drop (r.addr % 64)).take r.len)))
  /-- R23: one that meets poison, or an uncorrectable error, carries the EP bit. -/
  | sealedBad (s : State) (r : HostAccess) (may : PlainAccess s r) (kind : r.data = none) (exists' : hostAddrOk s r = true)
      (frames : SealedFrames s r)
      (bad : (blocksOf 64 r.addr r.len).any (fun b => nsHas (sealAsked s r).poison b || nsHas (sealAsked s r).ecc b) = true) :
      HostRule (.hostMemoryAccess r) s (answered (sealAsked s r) .poisoned)
  /-- R370, R402, R406, R449: a sealed frame is written as its tier stores it. -/
  | sealedWrite (s : State) (r : HostAccess) (bs : List Byte) (may : PlainAccess s r) (kind : r.data = some bs)
      (exists' : hostAddrOk s r = true) (frames : SealedFrames s r) (taken : ioFault s r.addr r.len = none) :
      HostRule (.hostMemoryAccess r) s
        (answered ((blocksOf 64 r.addr r.len).foldl (fun s b => storeBlock (sealTouch true s b) r bs b) s) (.data []))
  /-- R385: one that its home refuses is dropped and logged. -/
  | sealedRefused (s : State) (r : HostAccess) (c : Nat) (bs : List Byte) (may : PlainAccess s r) (kind : r.data = some bs)
      (exists' : hostAddrOk s r = true) (frames : SealedFrames s r) (refused : ioFault s r.addr r.len = some c) :
      HostRule (.hostMemoryAccess r) s (answered (logHost s r c) .dropped)
  /-- R20: a TLP that fails its check is dropped, logged, and makes its stream insecure. -/
  | insecure (s : State) (r : HostAccess) (i : Nat) (space : r.space = .aperture) (up : pf0Up s = true) (fn : 1 ≤ r.fn ∧ r.fn ≤ 64)
      (live : (getPart s (r.fn - 1)).live = true) (state : getTdi s r.fn ≠ .error) (stream : r.stream = some i) (bad : r.ideOk = false)
      (first : hostBehind s r = false) (moves : hostHeld s r = false) :
      HostRule (.hostMemoryAccess r) s
        (answered (logHost (setStream s i { getStream s i with insecure := true, keyed := false }) r ccIntegrity) .dropped)
  /-- R19, R441: a VF whose interface is in ERROR answers Unsupported Request to every access, and each is logged
  (notes/assumptions/29.md). -/
  | error (s : State) (r : HostAccess) (space : r.space ≠ .cxl) (up : pf0Up s = true) (fn : 1 ≤ r.fn ∧ r.fn ≤ 64)
      (state : getTdi s r.fn = .error) : HostRule (.hostMemoryAccess r) s (answered (logHost s r ccPotDeny) .unsupported)
  /-- R2, R18: a read of a function's registers: PF0's, or those of a VF whose partition has been created. -/
  | registers (s : State) (r : HostAccess) (space : r.space = .bar0) (up : pf0Up s = true) (kind : r.data = none)
      (fn : r.fn = 0 ∨ r.fn ≤ 64 ∧ (getPart s (r.fn - 1)).live = true ∧ getTdi s r.fn ≠ .error) :
      HostRule (.hostMemoryAccess r) s (answered s (.data (barBytes s r)))
  /-- R18: one of a VF whose partition has not been created returns ones. -/
  | notCreated (s : State) (r : HostAccess) (space : r.space = .bar0) (up : pf0Up s = true) (kind : r.data = none)
      (fn : 1 ≤ r.fn ∧ r.fn ≤ 64) (state : getTdi s r.fn ≠ .error) (dead : (getPart s (r.fn - 1)).live = false) :
      HostRule (.hostMemoryAccess r) s (answered s (.data (List.replicate r.len 0xFF)))
  /-- R245: a peer's write that reaches a CXL range past the port changes what the tier holds and breaks its tags
  (notes/assumptions/29.md). -/
  | peer (s : State) (r : HostAccess) (bs : List Byte) (space : r.space = .cxl) (kind : r.data = some bs)
      (range : inCxl r.addr = true ∧ inCxl (r.addr + r.len - 1) = true) :
      HostRule (.hostMemoryAccess r) s ((blocksOf 64 r.addr r.len).foldl (peerBlock r bs) s)
  /-- R416: a write to the core table grants a core. -/
  | coreTable (s : State) (off : Nat) (v : BitVec 64) (up : pf0Up s = true) (range : 0x10000 ≤ off ∧ off < 0x11000) (aligned : off % 4 = 0) :
      HostRule (.registerWrite 0 off v) s
        { s with host := { s.host with coreTab := smSet 0 s.host.coreTab ((off - 0x10000) / 4) (bitsOf v.toNat 6 0) } }
  /-- R429: a write to a performance counter of a live partition. -/
  | counter (s : State) (fn i : Nat) (v : BitVec 64) (range : 1 ≤ fn ∧ fn ≤ 64) (up : vfUp s (fn - 1) = true) (small : i < 8) :
      HostRule (.registerWrite fn (0x400 + 8 * i) v) s
        (modPart s (fn - 1) fun x => { x with pmc := smSet 0 x.pmc i (v.extractLsb' 0 48) })
  /-- R19, R441: one through a VF whose interface is in ERROR answers Unsupported Request, and is logged. -/
  | registerError (s : State) (fn off : Nat) (v : BitVec 64) (up : pf0Up s = true) (range : 1 ≤ fn ∧ fn ≤ 64) (state : getTdi s fn = .error) :
      HostRule (.registerWrite fn off v) s (answerUnsupported s (fn - 1))
  /-- R18, R19: a write to a VF's configuration space while its interface is locked or running puts it in ERROR. -/
  | config (s : State) (fn off : Nat) (v : BitVec 64) (up : pf0Up s = true) (range : 1 ≤ fn ∧ fn ≤ 64)
      (space : cfgSpace ≤ off ∧ off < msixTable) (state : getTdi s fn = .locked ∨ getTdi s fn = .run) :
      HostRule (.registerWrite fn off v) s (setTdi s fn .error)
  /-- R426, R427: a function-level reset: swap-outs in progress finish and what is swapped out is discarded, every `svc`
  completes as aborted, the teams end, the enclaves are destroyed, the notice is written, and the agent enclave is built again. -/
  | reset (s : State) (vf : Nat) (range : 1 ≤ vf ∧ vf ≤ 64) (up : pf0Up s = true) (live : (getPart s (vf - 1)).live = true)
      (idle : s.rowan.shoot = none ∧ s.rowan.migr = none) (swaps : swapsStopped s (vf - 1) = true) :
      HostRule (.virtualFunctionReset vf) s
        (let tags := (getPart s (vf - 1)).svcPend.map (·.tag)
         let s0 := (getPart s (vf - 1)).spill.foldl (fun s x => freeSpill s (vf - 1) x.1) (finishSwaps s (vf - 1))
         let s1 := setTdi (endPartition (abortSvc s0 (vf - 1)) (vf - 1)) vf .unlocked
         let s2 := modPart s1 (vf - 1) fun y =>
           { y with resets := y.resets + 1, notice := noticeBytes (y.resets + 1) tags (partEncls s (vf - 1)), reason := 3 }
         let s3 := rebuildAgent s2 (vf - 1)
         { s3 with turn := .idle, host := { s3.host with flr := nsDel s3.host.flr vf } })
  /-- R426: one waits for a call under way and for the teams of a swap-out in progress. -/
  | resetWaits (s : State) (vf : Nat) (range : 1 ≤ vf ∧ vf ≤ 64) (up : pf0Up s = true) (live : (getPart s (vf - 1)).live = true)
      (busy : s.rowan.shoot.isSome = true ∨ s.rowan.migr.isSome = true ∨ swapsStopped s (vf - 1) = false) :
      HostRule (.virtualFunctionReset vf) s { s with host := { s.host with flr := nsAdd s.host.flr vf } }

end Sys2Proof.Machine
end

