-- ==== Sys2Proof/Safety/Rules.lean ====
section
/-! DEFINITION. Rules of the manual as statements over the machine: results, decode traps, what a step runs, translation, and
what no word may change. -/
namespace Sys2Proof.Machine

/-! ### Results (R134 to R136, R141, R343) -/

/-- After a word that acts in `acting`: in every acting thread register `d` holds a value that `v` allows, and FLAGS has
gained the flag `fl` if `set` holds in some acting thread, and nothing else. -/
def Results (s s' : State) (w d : Nat) (acting : List Nat) (v : Nat → W32 → Prop) (fl : W32) (set : Nat → Bool) : Prop :=
  (∀ t ∈ acting, v t (rdW (getTh s' t) d)) ∧
    (getWarp s' w).flags = (getWarp s w).flags ||| (if acting.any set then fl else 0)

/-- The issue of a word with one 32-bit destination. -/
def Issues32 (s : State) (h : Hdr) (d : WReg) (srcs : List Src) (w : Nat) (l : List Nat) : Prop :=
  Issues s { guard := h.guard, reads := (srcRegs srcs []).1, sreads := (srcRegs srcs []).2, writes := [d.toNat] } w l

/-- The line of a warp's FLAGS is present (R117, R119): the words that may set a flag need it. -/
def FlagsHere (s : State) (w : Nat) : Prop := linePresent s (.sr w 16) = true

/-- R134: a saturating sum or difference is the exact one, clamped to the range of its type; SAT (bit 0) is set where the
clamp changes it. -/
def SaturatingSums : Prop :=
  ∀ h ty (minus : Bool) d a b s w l, Issues32 s h d [a, b] w l → FlagsHere s w →
    let v (t : Nat) : Int := if minus then ival ty (rd32 s t a) - ival ty (rd32 s t b) else ival ty (rd32 s t a) + ival ty (rd32 s t b)
    let lo : Int := match ty with
      | .s => -2147483648
      | .z => 0
    let hi : Int := match ty with
      | .s => 2147483647
      | .z => 4294967295
    ∃ s', exec (if minus then .sub h (some ty) d a b else .add h (some ty) d a b) s = .next s' ∧
      Results s s' w d.toNat (actingIn s h.guard l) (fun t x => ival ty x = min hi (max lo (v t))) 1
        fun t => decide (v t < lo) || decide (hi < v t)

/-- R135: the quotient and the remainder of two values under a type. -/
def Quotient (ty : ITy) (a b q r : W32) : Prop :=
  if b = 0 then q = 0xFFFFFFFF ∧ r = a
  else if ty = .s ∧ a = 0x80000000 ∧ b = 0xFFFFFFFF then q = 0x80000000 ∧ r = 0
  else ival ty q = Int.tdiv (ival ty a) (ival ty b) ∧ ival ty r = ival ty a - ival ty q * ival ty b

/-- R135: `div` gives q and `rem` gives r; DIVZ (bit 2) is set where b is 0. -/
def Divisions : Prop :=
  ∀ h ty d a b s w l, Issues32 s h d [a, b] w l → FlagsHere s w →
    ∃ s1 s2, exec (.div h ty d a b) s = .next s1 ∧ exec (.rem h ty d a b) s = .next s2 ∧
      (∀ t ∈ actingIn s h.guard l,
        Quotient ty (rd32 s t a) (rd32 s t b) (rdW (getTh s1 t) d.toNat) (rdW (getTh s2 t) d.toNat)) ∧
      Results s s1 w d.toNat (actingIn s h.guard l) (fun _ _ => True) 4 (fun t => decide (rd32 s t b = 0)) ∧
      Results s s2 w d.toNat (actingIn s h.guard l) (fun _ _ => True) 4 (fun t => decide (rd32 s t b = 0))

/-- R136: the absolute value of a value read as s32, with a select on it applied before; `.sat` gives 0x7FFF_FFFF for −2^31
and sets SAT. -/
def AbsoluteValues : Prop :=
  ∀ h (sat : Bool) d a s w l, Issues32 s h d [a] w l → FlagsHere s w →
    ∃ s', exec (.abs h sat d a) s = .next s' ∧
      Results s s' w d.toNat (actingIn s h.guard l)
        (fun t x => x.toNat = if sat ∧ (rd32 s t a).toInt = -2147483648 then 0x7FFFFFFF else (rd32 s t a).toInt.natAbs) 1
        fun t => sat && decide ((rd32 s t a).toInt = -2147483648)

/-- R141: the place and the length of a bit field. -/
def fieldPos (b : W32) : Nat := b.toNat % 32
def fieldLen (b c : W32) : Nat := min c.toNat (32 - fieldPos b)

/-- R141, bit by bit: `bfx` gives bits pos to pos + len − 1 of a from bit 0 up, and zeros above. -/
def FieldExtracts : Prop :=
  ∀ h d a b c s w l, Issues32 s h d [a, b, c] w l →
    ∃ s', exec (.bfx h d a b c) s = .next s' ∧
      Results s s' w d.toNat (actingIn s h.guard l)
        (fun t x => ∀ i < 32, x.getLsbD i =
          (decide (i < fieldLen (rd32 s t b) (rd32 s t c)) && (rd32 s t a).getLsbD (fieldPos (rd32 s t b) + i))) 0 fun _ => false

/-- R141, bit by bit: `bfi` puts the low bits of a into bits pos to pos + len − 1 of the old d. -/
def FieldInserts : Prop :=
  ∀ h d a b c s w l,
    Issues s { guard := h.guard, reads := d.toNat :: (srcRegs [a, b, c] []).1, sreads := (srcRegs [a, b, c] []).2
               writes := [d.toNat] } w l →
    ∃ s', exec (.bfi h d a b c) s = .next s' ∧
      Results s s' w d.toNat (actingIn s h.guard l)
        (fun t x => ∀ i < 32, x.getLsbD i =
          (if fieldPos (rd32 s t b) ≤ i ∧ i < fieldPos (rd32 s t b) + fieldLen (rd32 s t b) (rd32 s t c) then
            (rd32 s t a).getLsbD (i - fieldPos (rd32 s t b))
          else (rdW (getTh s t) d.toNat).getLsbD i)) 0 fun _ => false

/-- The value of an FP32 code that is no NaN, in units of 2^-149; an infinity counts as 2^128. -/
def f32Scaled (x : W32) : Int :=
  let m := x.toNat % 2 ^ 23
  let e := x.toNat / 2 ^ 23 % 256
  let v : Nat := if e = 0 then m else (m + 2 ^ 23) * 2 ^ (e - 1)
  if x.msb then -(v : Int) else (v : Int)

def f32Nan (x : W32) : Prop := x.toNat / 2 ^ 23 % 256 = 255 ∧ x.toNat % 2 ^ 23 ≠ 0

/-- R343: keys are ordered by dist as an FP32 value with −0 below +0, then by id; keys of distinct nodes are never equal in
the order. -/
def KeyOrder : Prop :=
  ∀ a b : Key, ¬ f32Nan a.dist → ¬ f32Nan b.dist →
    (keyLt a b = true ↔ f32Scaled a.dist < f32Scaled b.dist ∨
      (f32Scaled a.dist = f32Scaled b.dist ∧ (a.dist.msb = true ∧ b.dist.msb = false ∨ (a.dist = b.dist ∧ a.id < b.id)))) ∧
    (a.id ≠ b.id → keyLt a b = true ∨ keyLt b a = true)

/-! ### Decode traps (R46, R89, R92, R99, R102, R103, R106) -/

/-- A word is chosen for the threads `l` of warp `w`, and the windows let it issue (R93). -/
structure Chosen (s : State) (w : Nat) (l : List Nat) : Prop where
  chosen : issuedSet s = some (w, l)
  windows : ∀ t ∈ l, windowsOpen (getTh s t) = true
  matrix : matOpen s w l = true

/-- The row of a word, in whichever table it stands. -/
def wordRow (i : Instr) : Option WordRow :=
  firstSome (fun f : Instr → Option WordRow => f i)
    [integerRow, predicateRow, bitRow, packedRow, pairRegRow, uniformRow, floatRow, convertRow, longImmRow, pairWordRow, controlRow,
      crossRow, accessRow, bufferRow, matrixRow, copyRow, queueRow, barrierRow, systemRow]

/-- A precise trap of a cause in each of some threads, at the word (R103). -/
def preciseAll (s : State) (code : Nat) (l : List Nat) : List (Nat × TrapInfo) :=
  l.map fun t => (t, ⟨code, 0, false, false, (getTh s t).pc, 0, none⟩)

/-- R102 step 4, R106: `rcall` and `fqack` trap with PRIVILEGE (0x04) in every issued thread of a team without privilege; no
other word asks for it. -/
def PrivilegeTraps : Prop :=
  (∀ i g d a b, i = Instr.rcall g d a b ∨ i = .fqack g d a b → ∀ s w l, Chosen s w l →
    (getTeam s (teamOfWarp s w)).priv = 0 → ∃ s', TrapsAt i s s' w (preciseAll s 0x04 l)) ∧
  ∀ i r, wordRow i = some r → ∀ s, (r.info s).privileged = true → ∃ g d a b, i = .rcall g d a b ∨ i = .fqack g d a b

/-- Whether one of a word's references reaches a thread's register count (R89). -/
def reaches (s : State) (info : WInfo) (t : Nat) : Bool := (info.reads ++ info.writes).any fun r => decide ((getTh s t).nregs ≤ r)

/-- R89, R103: a reference to register N or above traps with REG_QUOTA (0x05) in exactly those issued threads, whatever their
guards, whose own count it reaches. -/
def QuotaTraps : Prop :=
  ∀ i r, wordRow i = some r → ∀ s w l, Chosen s w l →
    ((r.info s).privileged = true → (getTeam s (teamOfWarp s w)).priv ≠ 0) → (∃ t ∈ l, reaches s (r.info s) t = true) →
    ∃ s', TrapsAt i s s' w (preciseAll s 0x05 (l.filter (reaches s (r.info s))))

/-- R46, R92: a uniform word traps with UNIFORM_DIVERGED (0x06) in every issued thread where not all non-exited threads of
the warp issue, or their guards disagree. -/
def UniformTraps : Prop :=
  ∀ i r, wordRow i = some r → ∀ s w l, Chosen s w l →
    ((r.info s).privileged = true → (getTeam s (teamOfWarp s w)).priv ≠ 0) → (∀ t ∈ l, reaches s (r.info s) t = false) →
    (r.info s).uniform = true →
    (l ≠ liveThreads s w ∨ (actingIn s (r.info s).guard l ≠ [] ∧ actingIn s (r.info s).guard l ≠ l)) →
    ∃ s', TrapsAt i s s' w (preciseAll s 0x06 l)

/-- R204: a `rett` that acts in a thread outside handler state traps with HANDLER_STATE (0x0E) in each such thread. -/
def RettTraps : Prop :=
  ∀ g s w l, Issues s { guard := g } w l → (∃ t ∈ actingIn s g l, (getTh s t).handler = false) →
    ∃ s', TrapsAt (.rett g) s s' w (preciseAll s 0x0E ((actingIn s g l).filter fun t => !(getTh s t).handler))

/-- R122: `rgrow` and `rshrink` with a count of 0, above 32, or above the team's quota trap with REG_QUOTA
(0x05) in exactly the acting threads that ask so; the counts stay. -/
def GrowTraps : Prop :=
  ∀ i g a, i = Instr.rgrow g a ∨ i = .rshrink g a → ∀ s w l,
    Issues s { guard := g, reads := (srcRegs [a.src] []).1, sreads := (srcRegs [a.src] []).2 } w l →
    (∃ t ∈ actingIn s g l, growBad s t (rd32 s t a.src) = true) →
    ∃ s', TrapsAt i s s' w (preciseAll s 0x05 ((actingIn s g l).filter fun t => growBad s t (rd32 s t a.src)))

/-- R205: a halted team with no thread in handler state or on its way to it resumes: trapped bits are clear, wait counts are
0, and every non-exited thread that does not wait is ready at its PC, where its warp runs. -/
def TeamResumes : Prop :=
  ∀ s k, (getTeam s k).halted = true → (getTeam s k).live = true → (getTeam s k).ended = false →
    (∀ t ∈ teamThreads s k, (getTh s t).handler = false ∧ (getTh s t).trapPend = none) →
    (getTeam (resumeIfDone s k) k).halted = false ∧
    ∀ t ∈ teamThreads s k,
      (getTh (resumeIfDone s k) t).trapped = false ∧ (getTh (resumeIfDone s k) t).waitCount = 0 ∧
      (getTh (resumeIfDone s k) t).pc = (getTh s t).pc ∧
      ((getTh s t).exited = false → (getTh s t).wait = none →
        (∀ o ∈ (getTh s t).mq, o.st ≠ .page ∧ o.st ≠ .blocked) → teamOf s t = k →
        bindV (getWarp s (warpOf t)).bind = true → bindRun (getWarp s (warpOf t)).bind = true →
        threadReady (resumeIfDone s k) t = true)

/-! ### Encoding (R86, R99, R107) -/

/-- A full-form `mov w0, a` with the always guard, for any operand code. -/
def movWord (a : BitVec 9) : BitVec 64 :=
  BitVec.ofNat 64 (0x00A * 2 ^ 52 + 7 * 2 ^ 44 + a.toNat * 2 ^ 27)

/-- The `mov` of an operand. -/
def movOf (o : Operand) : Decoded := .ok (.mov ⟨0, .always⟩ 0 ⟨o, .none⟩)

/-- R86: what each 9-bit operand code names. -/
def OperandCodes : Prop :=
  (∀ n : Nat, n ≤ 255 → decode (movWord (BitVec.ofNat 9 n)) = movOf (.w (BitVec.ofNat 8 n))) ∧
  (∀ n : Nat, n ≤ 63 → decode (movWord (BitVec.ofNat 9 (256 + n))) = movOf (.s (BitVec.ofNat 6 n))) ∧
  (∀ k : Fin 20, decode (movWord (BitVec.ofNat 9 (320 + k.val))) = movOf (.ident k)) ∧
  (∀ n : Nat, 340 ≤ n → n ≤ 383 → decode (movWord (BitVec.ofNat 9 n)) = .illegalForm) ∧
  (∀ v : Int, -64 ≤ v → v ≤ 63 →
    ∃ c : BitVec 7, decode (movWord (BitVec.ofNat 9 (v + 448).toNat)) = movOf (.imm c) ∧
      ∀ s t, rdOp s t .bits (.imm c) = BitVec.ofInt 32 v)

/-- R99: the w registers of a half, each half's D and its A where that is a w register. -/
def halfRegs (h : PairHalf) : List Nat :=
  halfDst h :: (match halfA h with
    | .w r => [r.toNat]
    | _ => [])

/-- R99: a pair word whose halves are well formed is legal only if no two of its register reads fall in one bank and its
destinations differ; any other is ILLEGAL_PAIR. -/
def PairLegality : Prop :=
  ∀ i h0 h1 x, pairHalves i = some (h0, h1) → encode i = some (.nimia x) →
    (((halfRegs h0 ++ halfRegs h1).Pairwise (fun m n => m % 4 ≠ n % 4) ∧ halfDst h0 ≠ halfDst h1) → decode x = .ok i) ∧
    (¬ ((halfRegs h0 ++ halfRegs h1).Pairwise (fun m n => m % 4 ≠ n % 4) ∧ halfDst h0 ≠ halfDst h1) → decode x = .illegalPair)

/-! ### What a step runs (R81, R102, R178, R334) -/

/-- The word at the PC that the threads `l` of a chosen warp share, and the state that its fetch leaves: a held loop entry
has it (R178), or it is read through the core's translation cache, and the held entries whose body it belongs to keep
it. -/
inductive Fetches (s : State) (w : Nat) (l : List Nat) : State → W64 → Prop where
  | held (x : W64) (has : loopFetched (getWarp s w) (getTh s (l.headD 0)).pc = some x) : Fetches s w l s x
  | page (e : TlbEntry) (pa : Nat) (none' : loopFetched (getWarp s w) (getTh s (l.headD 0)).pc = none)
      (hit : lookup (coreTlb s (w / 64) (w % 4)) (getTeam s (teamOfWarp s w)).asid (getTh s (l.headD 0)).pc.toNat .x = .hit e pa)
      (exists' : paOk (fwdPa s pa) = true) (backed : inWindow (fwdPa s pa) = true → windowBacked s (fwdPa s pa) = true)
      (sound : integrityBad s (fwdPa s pa) 8 e.key e.ver = false ∧ eccBad s (fwdPa s pa) 8 = false) :
      Fetches s w l
        (modWarp (meterLine s (fwdPa s pa)) w fun wp => loopKeep wp (getTh s (l.headD 0)).pc (BitVec.ofNat 64 (readNat s (fwdPa s pa) 8)))
        (BitVec.ofNat 64 (readNat s (fwdPa s pa) 8))

/-- What a step adds to its effect, in the state after it: an `rinit` whose ring is named no longer completes (R325); the wait
count of a thread that has become ready is 0 (R45), and a warp that has gained its first ready thread became ready then (R44); and
what has changed of the lines of lane records, warps and teams, and of the pages of a core, is dirty (R120, R422). Every other
field is as the effect leaves it, and a stop stays a stop. An effect that a home has held back is undone, and tried again later
(R380). -/
def ReadinessNoted : Prop :=
  (∀ s s', s'.held = false → noting s (.next s') = .next (noteReady s (endRinits s'))) ∧
  (∀ s s', s'.held = true → noting s (.next s') = .next (retryStep s)) ∧
  ∀ s s',
    { noteReady s s' with cores := s'.cores, threads := s'.threads, warps := s'.warps, teams := s'.teams } = s' ∧
    (∀ t, { getTh (noteReady s s') t with rdirty := (getTh s' t).rdirty } =
      if threadReady s' t = true ∧ threadReady s t = false then { getTh s' t with waitCount := 0 } else getTh s' t) ∧
    (∀ w, { getWarp (noteReady s s') w with sdirty := (getWarp s' w).sdirty } =
      if readyThreads s w = [] ∧ readyThreads s' w ≠ [] then { getWarp s' w with since := s'.n } else getWarp s' w) ∧
    (∀ k, { getTeam (noteReady s s') k with tdirty := (getTeam s' k).tdirty } = getTeam s' k) ∧
    ∀ c, { getCore (noteReady s s') c with dirtyPg := (getCore s' c).dirtyPg } = getCore s' c

/-- A step begins once the clock has settled: what follows a usage record lands after its TIME (R435). -/
def StepsFrom (s s0 : State) : Prop :=
  s0 = if s.rowan.recordAt = some s.clock ∧ emits s = false then passTime s 1 else s

/-- A step of a chosen warp executes the instruction that its word decodes to, and takes the trap of a word that is none
(R102, steps 1 to 3). -/
def WarpStepsRun : Prop :=
  ∀ s0 s w l s1 x, StepsFrom s0 s → issuedSet s = some (w, l) → (∀ t ∈ l, (getTh s t).denied = false) → Fetches s w l s1 x →
    (∀ i, decode x = .ok i → step s0 = noting s (exec i s1)) ∧
    (decode x = .illegalOpcode → step s0 = noting s (exec (.illegalOpcode x) s1)) ∧
    (decode x = .illegalForm → step s0 = noting s (decodeTrap 0x02 s1)) ∧
    (decode x = .illegalPair → step s0 = noting s (decodeTrap 0x03 s1))

/-- A step of a general core executes the extension instruction at its pc, read through its translation and at its home; a word
of the extension's opcode that is none raises the illegal-instruction exception. -/
def HartStepsRun : Prop :=
  ∀ s0 s h s1 s2 e pa x, StepsFrom s0 s → s.turn = .hart h → hartReady s h = true →
    hartTrans s h (getHart s h).pc.toNat .x = (s1, .ok e, pa) →
    paOk pa = true → (inWindow pa = true → windowBacked s1 pa = true) → dataBad s1 pa 4 e.key e.ver = false →
    s2 = meterLines (ioTouch s1 pa 4 false) pa 4 → x = BitVec.ofNat 32 (natOfBytes (readBytes s2 pa 4)) →
    (∀ i, decodeHart x = .ok i → step s0 = noting s (exec i s2)) ∧
    (decodeHart x = .illegal → step s0 = noting s (exec (.illegalInstructionException x) s2))

/-- What happens in place of an input, or of what is due, that a home holds back (R380). -/
def orWaits (s : State) (o : Out) : Out := if heldBack o = true then stepFree s else o

/-- The steps of a machine in which no word is chosen (a convention of the model, notes/assumptions/1.md): it executes the
oldest input that waits; else what is due; else time passes, and where something falls due by that the step ends, or it is some
agent's turn (R54), or a general core that the world chooses gets the next step where it may run, or the event that the world
chooses is executed. So it does too while a home holds back the input or what is due. -/
def IdleStepsRun : Prop :=
  (∀ s0 s i rest, StepsFrom s0 s → s.turn = .idle → s.inbox = i :: rest →
    step s0 = noting s (orWaits s (exec i { s with inbox := rest, n := s.n + 1 }))) ∧
  (∀ s0 s s1, StepsFrom s0 s → s.turn = .idle → s.inbox = [] → s1 = { s with n := s.n + 1 } →
    (dueEvent s = some .refill → step s0 = noting s (orWaits s (exec .budgetRefill s1))) ∧
    (dueEvent s = some .slice → step s0 = noting s (orWaits s (exec .queueSliceBoundary s1))) ∧
    (dueEvent s = some .launched → step s0 = noting s (orWaits s (.next (finishLlaunch s1)))) ∧
    (∀ t, dueEvent s = some (.nap t) → step s0 = noting s (orWaits s (exec (.napWake t) s1))) ∧
    (∀ t, dueEvent s = some (.deq t) → step s0 = noting s (orWaits s (exec (.deqTake t) s1))) ∧
    (dueEvent s = some .host → step s0 = noting s (orWaits s (.next (hostResume s1)))) ∧
    (∀ l, dueEvent s = some (.evict l) → step s0 = noting s (orWaits s (.next (writeBackMetered s1 l)))) ∧
    (∀ p, dueEvent s = some (.usage p) → step s0 = noting s (orWaits s (exec (.usageRecordPeriodic p) s1))) ∧
    (∀ vf, dueEvent s = some (.reset vf) → step s0 = noting s (orWaits s (exec (.virtualFunctionReset vf) s1)))) ∧
  (∀ s0 s, StepsFrom s0 s → s.turn = .idle → s.inbox = [] → dueEvent s = none → step s0 = noting s (stepFree s)) ∧
  ∀ s s1, s1 = newError { passTime s (Config.elapsed s.n) with n := s.n + 1 } →
    stepFree s =
      if dueEvent s = none ∧ dueEvent s1 ≠ none then .next s1
      else match fairEvent s1 s.n with
        | some o => o
        | none => match Config.nextHart s.n with
          | some h => .next (if hartReady s1 h then { s1 with turn := .hart h } else s1)
          | none => exec (Config.nextEvent s.n) s1

/-! ### Translation and the page ownership table (R363, R367 to R369) -/

/-- R363, R367, R368: what a walk that succeeds has found: a valid ASID, an address below 2^57, a leaf that permits the
access, and a frame whose POT entry lets the ASID's enclave use it that way, or the kick page of that enclave (PFN[27:12]). -/
def WalksAllowed : Prop :=
  ∀ s asid va need e, walk s asid va need = .ok e →
    asidV (asidEntry s asid) = true ∧ va < 2 ^ 57 ∧
    ∃ p lvl a, findLeaf s asid va = .leaf p lvl a ∧ needOk need (pteR p) (pteW p) (pteX p) = true ∧
      (pteMt p = 1 → (p.toNat / 2 ^ 12 % 2 ^ 32) % 2 ^ 16 = asidEncl (asidEntry s asid) ∧ e.mt = 1 ∧ e.x = false ∧ need ≠ .x) ∧
      (pteMt p ≠ 1 → e.mt = 0 ∧
        let pe := potEntry s (if lvl = 0 then ptePa p / 4096 else potGov s (ptePa p / 4096))
        let ae := asidEntry s asid
        ((potState pe = 1 ∧ potOwner pe = asidEncl ae) ∨
          ((potState pe = 2 ∨ potState pe = 3) ∧ enclPart s (potOwner pe) = some (asidPart ae))) ∧
        (need = .w → potState pe ≠ 2) ∧ (need = .x → potState pe = 1) ∧
        (e.w = true → pteW p = true ∧ potState pe ≠ 2) ∧ (e.x = true → pteX p = true ∧ potState pe = 1) ∧
        (e.r = true → pteR p = true))

/-- R369: a change of an entry raises VER by 1, modulo 256, exactly when OWNER changes, or STATE to or from free or
sealed. -/
def VersionsRise : Prop :=
  ∀ s frame owner state, owner < 65536 → state < 7 →
    let e := potEntry s frame
    let e' := potEntry (potChange s frame owner state) frame
    potOwner e' = owner ∧ potState e' = state ∧
    ((potOwner e ≠ owner ∨ (potState e ≠ state ∧ (potState e = 0 ∨ state = 0 ∨ potState e = 5 ∨ state = 5))) →
      potVer e' = (potVer e + 1) % 256) ∧
    (¬ (potOwner e ≠ owner ∨ (potState e ≠ state ∧ (potState e = 0 ∨ state = 0 ∨ potState e = 5 ∨ state = 5))) →
      potVer e' = potVer e)

/-! ### What no word may change -/

/-- A word of Nimia. -/
def Instr.isNimia (i : Instr) : Prop := ∃ x, encode i = some (.nimia x)

/-- No word but `deq`, `svc`, `rcall` and `fqack` changes a byte of memory as it issues: stores, atomics, reductions and the
reservations of `enq` change theirs in events of their own (R236, R331), and these four words have the homes of what they
access answer at once. -/
def WordsKeepMemory : Prop :=
  ∀ i s s', Instr.isNimia i → (∀ g d a, i ≠ .deq g d a) → (∀ g d a b, i ≠ .rcall g d a b) → (∀ g d a b, i ≠ .svc g d a b) →
    (∀ g d a b, i ≠ .fqack g d a b) → exec i s = .next s' → ∀ a, readByte s' a = readByte s a

/-- R212, R371, R403, R414: no word of any team changes the page ownership table, the ASID table, the keys, the coherence
ranges and protocols, the fuses, the boot and retention state or the clock. -/
def WordsKeepTables : Prop :=
  ∀ i s s', Instr.isNimia i → exec i s = .next s' →
    s'.pot = s.pot ∧ s'.asids = s.asids ∧ s'.keys = s.keys ∧ s'.ranges = s.ranges ∧ s'.protos = s.protos ∧ s'.fuses = s.fuses ∧
    s'.boot = s.boot ∧ s'.ret = s.ret ∧ s'.spdm = s.spdm ∧ s'.lateLaunches = s.lateLaunches ∧ s'.clock = s.clock

/-- R12: in one cold-reset epoch CLOCK never goes backwards, whatever happens. -/
def ClockNeverFalls : Prop := ∀ i s s', i ≠ .coldReset → exec i s = .next s' → s.clock ≤ s'.clock

/-- R370: a host access without a stream to frames that are not sealed in its VF's partition changes no byte of memory; a
read of them on a live VF whose interface is not in ERROR gives all ones. (A write past the port to a CXL range is another
thing: R245.) -/
def HostKeepsOut : Prop :=
  ∀ s s' r, r.space ≠ .cxl → r.stream = none → ¬ SealedFrames s r → exec (.hostMemoryAccess r) s = .next s' →
    (∀ a, readByte s' a = readByte s a) ∧
    (PlainAccess s r → r.data = none → s'.host.reply = some (.data (List.replicate r.len 0xFF)))

/-! ### Reset and the shipped tables (R12, R24, R30, R115, R381) -/

/-- What reset leaves where the manual gives the value: CLOCK, FLAGS, ARMS, AMAX and the trap registers at 0, PWRLIM at 3,600
without ERR, no team, warp, enclave, ASID, POT entry, protocol range or fuse, and the ROM waiting for an image. -/
def ResetLeaves : Prop :=
  State.reset.clock = 0 ∧ State.reset.boot.status = .waitImage ∧ State.reset.boot.rowan = none ∧
  State.reset.host.limit = 3600 ∧ State.reset.host.pwrErr = false ∧ State.reset.host.epr = false ∧
  State.reset.fuses = [] ∧ State.reset.encls = [] ∧ State.reset.asids = [] ∧ State.reset.pot = [] ∧ State.reset.ranges = [] ∧
  (∀ w, (getWarp State.reset w).flags = 0 ∧ (getWarp State.reset w).amax = 0 ∧ (getWarp State.reset w).tskid = 0) ∧
  (∀ k, (getTeam State.reset k).arms = 0 ∧ (getTeam State.reset k).live = false) ∧
  ∀ t, (getTh State.reset t).tcause = 0 ∧ (getTh State.reset t).tepc = 0 ∧ (getTh State.reset t).tva = 0 ∧
    (getTh State.reset t).lc0 = 0 ∧ (getTh State.reset t).lc1 = 0 ∧ (getTh State.reset t).lc2 = 0

/-- The entries of the shipped protocol INV that the manual's examples give, at their offsets 0x40 + 4·(64·S + 4·E + R). -/
def InvEntries : Prop :=
  0x40 + 4 * (64 * 1 + 4 * 1 + 1) = 0x154 ∧ invEntry 1 1 1 = 0x98000410 ∧
  0x40 + 4 * (64 * 3 + 4 * 11 + 3) = 0x3FC ∧ invEntry 3 11 3 = 0x90002002 ∧ invEntry 2 6 3 = 0xB1800420

end Sys2Proof.Machine
end

