-- ==== Sys2Proof/Safety/Sched.lean ====
section
/-! DEFINITION. What the events of launch, issue, the slot table, guest switches, retirement and the search units do, as
rules (R34 to R54, R337 to R353, R417 to R425). -/
namespace Sys2Proof.Machine

/-! ### Launch, issue and retirement -/

/-- A team has ended and its JOIN counter may be decremented: the page is mapped writable, the address exists and is backed,
and its block passes its check (R51, R52). -/
structure Retires (s : State) (k : Nat) (e : TlbEntry) (p : Nat) : Prop where
  done : teamDone s k = true
  join : (getTeam s k).joinWait = none
  core : k < 4096
  runs : s.boot.hazelHalted = false
  trans : ∃ pa, transNow s (getTeam s k).asid (getTeam s k).join.toNat .w = (.ok e, pa) ∧ p = fwdPa s pa
  plain : e.mt = 0
  exists' : paOk p = true ∧ (inWindow p = true → windowBacked s p = true)
  sound : dataBad s p 8 e.key e.ver = false

/-- The state once launch `l`'s next grove has been placed at `pl` (R35, R36): its teams lie at their cores with their images
and start together. -/
def placed (s : State) (l : Launch) (pl : Place) : State :=
  let p := launchPart s l
  let cores := placeCores (lrGw l.words) (lrGh l.words) pl
  let imgs := (takeImages s p pl.meadow (imageSize s p l.words) (lrGw l.words * lrGh l.words) (getPart s p).ctxUsed).getD []
  let g : Grove := {
    teams := cores.map fun c => (freeTslot s c).getD 0, gw := lrGw l.words, gh := lrGh l.words
    gx := l.nextGrove % lrGridx l.words, gy := l.nextGrove / lrGridx l.words, gridw := lrGridx l.words, gridh := lrGridy l.words
    meadow := pl.meadow, gPhase := 0, stepPhase := 0, held := [] }
  (List.range cores.length).foldl (fun s' n =>
      placeTeam s' l s.groveSeq l.nextGrove p (cores.getD n 0) n (imgs.getD n (0, 0)))
    { setGrove s s.groveSeq g with groveSeq := s.groveSeq + 1 }

/-- The conditions under which Hazel places launch `i`'s next grove at `pl` (R40, R42). -/
structure Places (s : State) (i : Nat) (l : Launch) (pl : Place) : Prop where
  at' : s.launches[i]? = some l
  runs : s.boot.hazelHalted = false
  head : headLaunch s.launches i = true
  fits : canPlace s l pl = true
  rank : rankAllows s i l pl = true

/-- A launch whose next grove has been placed. -/
def nextOf (l : Launch) : Launch := { l with nextGrove := l.nextGrove + 1, passedSince := none, starved := false }

inductive LaunchRule : Instr → State → State → Prop where
  /-- R38, R40: the oldest record of a kick register passes its checks: it is taken, and its groves wait for placement. -/
  | dispatch (s : State) (encl kick : Nat) (e : Enclave) (r : KickRec) (rest : List KickRec) (found : getEncl s encl = some e)
      (live : e.state = 1) (pending : (smGet ({} : Kick) e.kicks kick).pend = r :: rest)
      (good : recordCheck (modKick s encl kick fun k => { k with pend := rest, taken := k.taken + 1 }) e r.words = 0) :
      LaunchRule (.dispatchRecord encl kick) s
        (let s1 := modKick s encl kick fun k => { k with pend := rest, taken := k.taken + 1 }
         { s1 with launches := s1.launches ++ [⟨encl, kick, r.words, r.lrec, s.n, 0, none, false⟩] })
  /-- R40: a record that fails a check is refused with that check's code. -/
  | refuse (s s2 : State) (encl kick code : Nat) (e : Enclave) (r : KickRec) (rest : List KickRec) (found : getEncl s encl = some e)
      (live : e.state = 1) (pending : (smGet ({} : Kick) e.kicks kick).pend = r :: rest)
      (bad : recordCheck (modKick s encl kick fun k => { k with pend := rest, taken := k.taken + 1 }) e r.words = code) (some' : code ≠ 0)
      (stored : refuseRecord (modKick s encl kick fun k => { k with pend := rest, taken := k.taken + 1 }) encl kick e r.words code = .done s2) :
      LaunchRule (.dispatchRecord encl kick) s s2
  /-- R35, R36, R42: a grove is placed and starts; the launch goes on with its next grove. -/
  | place (s : State) (i : Nat) (l : Launch) (pl : Place) (may : Places s i l pl)
      (more : l.nextGrove + 1 ≠ lrGridx l.words * lrGridy l.words) :
      LaunchRule (.grovePlacement i pl) s { placed s l pl with launches := (notePassed s i pl).set i (nextOf l) }
  /-- R42: with its last grove placed, the launch is over. -/
  | placeLast (s : State) (i : Nat) (l : Launch) (pl : Place) (may : Places s i l pl)
      (last : l.nextGrove + 1 = lrGridx l.words * lrGridy l.words) :
      LaunchRule (.grovePlacement i pl) s { placed s l pl with launches := (notePassed s i pl).eraseIdx i }
  /-- R42: a grove passed over for 1 ms holds back lower ranks. -/
  | starved (s : State) (i c : Nat) (l : Launch) (at' : s.launches[i]? = some l) (since : l.passedSince = some c)
      (long : c + 1000000 ≤ s.clock) :
      LaunchRule (.placementStarvation i) s { s with launches := s.launches.set i { l with starved := true } }
  /-- R44, R419: an issue slot chooses a warp; its word issues next, for the set of threads that R45 gives. -/
  | issue (s : State) (core w : Nat) (slot : Fin 4) (up : (getCore s core).up = true) (chosen : chooseWarp s core slot.val = some w) :
      LaunchRule (.issueSelection core slot) s { s with turn := .warp core (w % 64) (maskOf (issueSet s w)) }
  /-- R45: a thread whose wait count has reached 256 makes its group issue. -/
  | starvedThread (s : State) (core wslot t : Nat) (up : (getCore s core).up = true)
      (chosen : chooseWarp s core (wslot % 4) = some (core * 64 + wslot)) (ready : t ∈ readyThreads s (core * 64 + wslot))
      (long : 256 ≤ (getTh s t).waitCount) :
      LaunchRule (.waitCountStarvation core wslot) s
        { s with turn := .warp core wslot (maskOf (issueSet s (core * 64 + wslot))) }
  /-- R418: a write of a live record that changes only RUN and WCLASS takes effect. -/
  | bind (s : State) (core wslot : Nat) (rec : BitVec 128)
      (runs : s.boot.hazelHalted = false)
      (resident : nsHas (getPart s (bindTenant (getWarp s (core * 64 + wslot)).bind)).swapped (core / 128) = false)
      (live : bindV (getWarp s (core * 64 + wslot)).bind = true)
      (same : (getWarp s (core * 64 + wslot)).bind &&& ~~~bindFree = rec &&& ~~~bindFree) :
      LaunchRule (.bindRecordWrite core wslot rec) s
        (setRun (modWarp s (core * 64 + wslot) fun x =>
            { x with bind := ((getWarp s (core * 64 + wslot)).bind &&& ~~~((7 : BitVec 128) <<< 111)) ||| (rec &&& (7 : BitVec 128) <<< 111) })
          (core * 64 + wslot) (bindRun rec))
  /-- R418: a write that would change more is discarded, and reported in Hazel's error status. -/
  | bindBad (s : State) (core wslot : Nat) (rec : BitVec 128)
      (runs : s.boot.hazelHalted = false)
      (resident : nsHas (getPart s (bindTenant (getWarp s (core * 64 + wslot)).bind)).swapped (core / 128) = false)
      (live : bindV (getWarp s (core * 64 + wslot)).bind = true)
      (more : (getWarp s (core * 64 + wslot)).bind &&& ~~~bindFree ≠ rec &&& ~~~bindFree) :
      LaunchRule (.bindRecordWrite core wslot rec) s
        { s with host := { s.host with hazelErr := s.host.hazelErr ++ [(core, wslot)] } }
  /-- R424: a switch list that can be read stages its RUN values. -/
  | gsw (s s1 s2 : State) (p : Nat) (v : BitVec 64) (bs : List Byte) (ws : List Nat) (up : vfUp s p = true)
      (idle : (getPart s p).gswBusy = false)
      (count : ioReadVaBy 0 s (enclAsid s (getPart s p).agent) (bitsOf v.toNat 56 6 * 64) 4 = (s1, some bs))
      (range : 1 ≤ natOfBytes bs ∧ natOfBytes bs ≤ 256)
      (list : ioWords (enclAsid s (getPart s p).agent) (natOfBytes bs) (bitsOf v.toNat 56 6 * 64 + 4) s1 = (s2, some ws))
      (valid : ∀ w ∈ ws, (switchEntry s p w).isSome = true) :
      LaunchRule (.gsw p v) s
        (modPart s2 p fun y =>
          { y with gswBusy := true, gswList := bitsOf v.toNat 56 6 * 64, gswStaged := ws.filterMap (switchEntry s p) })
  /-- R424: one with no entry, with more than 256, or with an entry that names no valid record is refused. -/
  | gswCount (s s1 : State) (p : Nat) (v : BitVec 64) (bs : List Byte) (up : vfUp s p = true) (idle : (getPart s p).gswBusy = false)
      (count : ioReadVaBy 0 s (enclAsid s (getPart s p).agent) (bitsOf v.toNat 56 6 * 64) 4 = (s1, some bs))
      (range : natOfBytes bs = 0 ∨ 256 < natOfBytes bs) :
      LaunchRule (.gsw p v) s (modPart s1 p fun y => { y with gswResult := 2 })
  | gswList (s s1 s2 : State) (p w : Nat) (v : BitVec 64) (bs : List Byte) (ws : List Nat) (up : vfUp s p = true)
      (idle : (getPart s p).gswBusy = false)
      (count : ioReadVaBy 0 s (enclAsid s (getPart s p).agent) (bitsOf v.toNat 56 6 * 64) 4 = (s1, some bs))
      (range : 1 ≤ natOfBytes bs ∧ natOfBytes bs ≤ 256)
      (list : ioWords (enclAsid s (getPart s p).agent) (natOfBytes bs) (bitsOf v.toNat 56 6 * 64 + 4) s1 = (s2, some ws))
      (entry : w ∈ ws) (bad : switchEntry s p w = none) :
      LaunchRule (.gsw p v) s (modPart s2 p fun y => { y with gswResult := 2 })
  /-- R424: a switch while another is busy is refused. -/
  | gswBusy (s : State) (p : Nat) (v : BitVec 64) (up : vfUp s p = true) (busy : (getPart s p).gswBusy = true) :
      LaunchRule (.gsw p v) s (modPart s p fun y => { y with gswResult := 2 })
  /-- R19, R441: a switch through a VF whose interface is in ERROR is answered Unsupported Request, and is logged. -/
  | gswError (s : State) (p : Nat) (v : BitVec 64) (up : pf0Up s = true) (range : p < 64) (state : getTdi s (p + 1) = .error) :
      LaunchRule (.gsw p v) s (answerUnsupported s p)
  /-- R424, R425: the staged RUN values are written as one change. -/
  | commit (s : State) (p : Nat) (busy : (getPart s p).gswBusy = true) (runs : s.boot.hazelHalted = false) :
      LaunchRule (.guestSwitchCommit p) s
        (modPart ((getPart s p).gswStaged.foldl (fun s e =>
            let k := e.1 * 4 + e.2.1
            if (getTeam s k).live && decide ((getTeam s k).part = p) then setTeamRun s k e.2.2 else s) s) p fun y =>
          { y with gswBusy := false, gswResult := 0, gswStaged := [] })
  /-- R51, R52: an ended team decrements JOIN once, and its resources are freed. -/
  | retire (s s1 : State) (core : Nat) (tslot : Fin 4) (e : TlbEntry) (p : Nat) (may : Retires s (core * 4 + tslot.val) e p)
      (wrote : ioWrite s p (bytesOfNat 8 ((readNat s p 8 + 2 ^ 64 - 1) % 2 ^ 64)) = .done s1) :
      LaunchRule (.teamRetirement core tslot.val) s (freeTeam s1 (core * 4 + tslot.val))
  /-- R52, R385: a decrement that its home refuses leaves the counter unchanged; LASTERR is 0x0A. -/
  | retireRefused (s : State) (core : Nat) (tslot : Fin 4) (e : TlbEntry) (p code : Nat) (may : Retires s (core * 4 + tslot.val) e p)
      (refused : ioWrite s p (bytesOfNat 8 ((readNat s p 8 + 2 ^ 64 - 1) % 2 ^ 64)) = .fault code) :
      LaunchRule (.teamRetirement core tslot.val) s (joinFault s (core * 4 + tslot.val))
  /-- R38, R52: a kick page ignores the decrement, and the resources are freed. -/
  | retireKick (s : State) (core : Nat) (tslot : Fin 4) (e : TlbEntry) (pa : Nat) (done : teamDone s (core * 4 + tslot.val) = true)
      (core' : core < 1024) (runs : s.boot.hazelHalted = false) (join : (getTeam s (core * 4 + tslot.val)).joinWait = none)
      (trans : transNow s (getTeam s (core * 4 + tslot.val)).asid (getTeam s (core * 4 + tslot.val)).join.toNat .w = (.ok e, pa))
      (kick : e.mt = 1) :
      LaunchRule (.teamRetirement core tslot.val) s (freeTeam s (core * 4 + tslot.val))
  /-- R52: where JOIN cannot be written the counter is unchanged, KSTAT.LASTERR is 0x0A, and the resources are still freed. -/
  | joinFault (s : State) (core : Nat) (tslot : Fin 4) (done : teamDone s (core * 4 + tslot.val) = true) (core' : core < 1024)
      (runs : s.boot.hazelHalted = false) (denied : (getTeam s (core * 4 + tslot.val)).joinWait = some true) :
      LaunchRule (.teamRetirement core tslot.val) s
        (freeTeam (modKick s (getTeam s (core * 4 + tslot.val)).encl (getTeam s (core * 4 + tslot.val)).kick fun x =>
          { x with lasterr := 0x0A }) (core * 4 + tslot.val))
  /-- R421: at a slice boundary the first 64 queues in R421's order hold the hardware slots. -/
  | slice (s : State) :
      LaunchRule .queueSliceBoundary s
        (let now := (rankQueues s (queueCandidates s) 64).map (·.1)
         { s with
           slices := s.slices + 1
           hwSlots := now
           unmapped := (s.hwSlots.filter fun x => !(now.any fun y => decide (y = x))).foldl (fun m x => smPut m x s.clock) s.unmapped })

/-! ### The search units -/

/-- The context works on: it runs, it has its descriptor, and it has not ended. -/
structure Works (s : State) (st n : Nat) (c : Ctx) : Prop where
  found : getCtx s st n = some c
  active : ctxActive c = true

/-- A packet in its context, the waiting packets that the admission buffer now has room for, and the contexts in the places
that are free for them (R346, R356). -/
def admitted (s : State) (st n : Nat) (q : Query) (rest : List Query) : State :=
  let s0 := setHeather s st { getHeather s st with admitQ := rest, ctxs := smPut (getHeather s st).ctxs n { q := q } }
  let s1 := (qsubPends s0).foldl (qsubTry st) s0
  ((getHeather s1 st).ctxs.map (·.1)).foldl (takePlaces st) s1

inductive QueryRule : Instr → State → State → Prop where
  /-- R337, R346, R347: the oldest admitted packet takes the lowest free context, contexts take their places, and the first
  that has its places reads its graph descriptor and asks for its entry points. -/
  | allocate (s : State) (st n m : Nat) (q : Query) (c : Ctx) (rest : List Query) (d : List Byte)
      (oldest : (getHeather s st).admitQ = q :: rest)
      (free : (List.range 64).find? (fun n => (smFind? (getHeather s st).ctxs n).isNone) = some n)
      (first : (getHeather (admitted s st n q rest) st).ctxs.find?
        (fun c => decide (c.2.st = .running) && c.2.desc.isEmpty && !ctxEnded c.2) = some (m, c))
      (read : readGraph (admitted s st n q rest) st c.q.asid (pGdesc c.q.pkt) 128 none = .ok d) (good : graphBad d c.q.pkt = false) :
      QueryRule (.queryContextAllocate st) s
        (putCtx (admitted s st n q rest) st m
          ((rangeFrom 0 (pNent c.q.pkt)).foldl (fun c e => visitAsk 0 c (pEntry c.q.pkt e)) { c with desc := d }))
  /-- R347: the first context that has its places reads its graph descriptor and asks for its entry points. -/
  | begin' (s : State) (st n : Nat) (c : Ctx) (d : List Byte) (none' : (getHeather s st).admitQ = [])
      (sent : (qsubPends s).foldl (qsubTry st) s = s)
      (still : ((getHeather s st).ctxs.map (·.1)).foldl (takePlaces st) s = s)
      (first : (getHeather s st).ctxs.find? (fun c => decide (c.2.st = .running) && c.2.desc.isEmpty && !ctxEnded c.2) = some (n, c))
      (read : readGraph s st c.q.asid (pGdesc c.q.pkt) 128 none = .ok d) (good : graphBad d c.q.pkt = false) :
      QueryRule (.queryContextAllocate st) s
        (putCtx s st n ((rangeFrom 0 (pNent c.q.pkt)).foldl (fun c e => visitAsk 0 c (pEntry c.q.pkt e)) { c with desc := d }))
  /-- R342, R347: the oldest request of a context to a stack is answered: a node's record gives its distance, metered as one
  evaluation (R431). -/
  | distance (s : State) (st n f : Nat) (c : Ctx) (a : Ask) (bs : List Byte) (works : Works s st n c)
      (oldest : nextAsk c f = some a) (kind : a.adj = false)
      (read : readGraph s st c.q.asid (recordVa c.desc c.q.pkt a.node) (vecBytes c.q.pkt + 4) (some f) = .ok bs) :
      QueryRule (.distanceReply st n f) s
        (putCtx (meter (meterBlocks s st c.q.asid (recordVa c.desc c.q.pkt a.node) (vecBytes c.q.pkt + 4)) c.q.part mSearchev 1) st n
          (replyCtx c a (distance c.q.pkt bs) (decide (pNat bs (vecBytes c.q.pkt) 4 / 2 ^ 31 = 1))))
  /-- R347: a candidate's adjacency is read, all of it (notes/assumptions/60.md), when its request is the oldest to its stack, and
  its neighbours that were not visited are asked for. -/
  | adjacency (s : State) (st n node : Nat) (c : Ctx) (a : Ask) (bs : List Byte) (works : Works s st n c)
      (oldest : nextAsk c (homeStack c.desc node) = some a) (kind : a.adj = true ∧ a.node = node)
      (read : readGraph s st c.q.asid (recordVa c.desc c.q.pkt node + vecBytes c.q.pkt) (adjBytes c.desc)
        (some (homeStack c.desc node)) = .ok bs) :
      QueryRule (.adjacencyReply st n node) s
        (putCtx (meterBlocks s st c.q.asid (recordVa c.desc c.q.pkt node + vecBytes c.q.pkt) (adjBytes c.desc)) st n (expandCtx c a bs))
  /-- R349, R350: the team's next query has ended: its results are written, its record is published and its context freed. -/
  | publish (s s1 : State) (core : Nat) (tslot : Fin 4) (st n : Nat) (c c1 : Ctx) (live : (getTeam s (core * 4 + tslot.val)).live = true)
      (runs : (getTeam s (core * 4 + tslot.val)).ended = false) (core' : core < 1024) (none' : cancelledOf s core tslot.val = [])
      (next : (endedCtxs s core tslot.val).find? (fun x => decide (x.2.2.q.qseq = (getTeam s (core * 4 + tslot.val)).qnext)) = some (st, n, c))
      (good : writesResults c = true) (wrote : writeResults st n 65 s c = .inr (s1, c1)) (kept : writesResults c1 = true) :
      QueryRule (.queryPublish core tslot.val) s
        (publish (setHeather s1 st { getHeather s1 st with ctxs := smDel (getHeather s1 st).ctxs n }) c1.q c1.status c1.res.length 0
          (if c1.status / sBadq % 2 = 1 then 0 else c1.evals) c1.fva)
  /-- R353: a query cancelled before it had a context is published as cancelled. -/
  | cancelled (s : State) (core : Nat) (tslot : Fin 4) (st : Nat) (q : Query) (live : (getTeam s (core * 4 + tslot.val)).live = true)
      (runs : (getTeam s (core * 4 + tslot.val)).ended = false) (core' : core < 1024)
      (next : (cancelledOf s core tslot.val).find? (fun x => decide (x.2.qseq = (getTeam s (core * 4 + tslot.val)).qnext)) = some (st, q)) :
      QueryRule (.queryPublish core tslot.val) s
        (publish (setHeather s st { getHeather s st with cancelled := (getHeather s st).cancelled.erase q }) q sCancelled 0 0 0 0)

end Sys2Proof.Machine
end

