-- ==== Sys2Proof/Certificates/Slice0/Obligations.lean ====
section
/-! DEFINITION. The statements for the provers. Their terms stand in Sys2Proof/Safety.lean and Sys2Proof/Safety/. -/

/-- Integer words: results, flags and frame: The class 0x0 words with a w destination (add, sub, mul, mulhi, mad, div,
rem, abs, min, max, mov, movi, sel). Each completes with what its row says, wherever it issues. (R91, R133, R134, R135,
R136, R137, R68, R180) -/
def Obligations.IntegerWords : Prop :=
  Sys2Proof.Machine.Completes Sys2Proof.Machine.integerRow

/-- Words that write a predicate: icmp, pand, por, pxor, pnot, fcmp, fclass and scmp. Each completes with what its row
says, wherever it issues. (R91, R138, R139, R148, R157, R158, R180) -/
def Obligations.PredicateWords : Prop :=
  Sys2Proof.Machine.Completes Sys2Proof.Machine.predicateRow

/-- Bit words, packed integer words and dot products: and, or, xor, andn, the shifts and rotate, popc, clz, ctz, brev,
bfx, bfi, prmb, add2, sub2, min2, max2, add4, dot4, dot8, dot2. Each completes with what its row says, wherever it
issues. (R91, R140, R141, R142, R143, R144, R68, R180) -/
def Obligations.BitWords : Prop :=
  Sys2Proof.Machine.Completes Sys2Proof.Machine.bitRow ∧ Sys2Proof.Machine.Completes Sys2Proof.Machine.packedRow

/-- Words that write a register pair: add64, sub64, lea64 and their long-immediate forms, and unpk. Each completes with
what its row says, wherever it issues. (R91, R145, R146, R164, R180) -/
def Obligations.PairDestinationWords : Prop :=
  Sys2Proof.Machine.Completes Sys2Proof.Machine.pairRegRow

/-- Uniform words: one s register for the warp: sadd, ssub, smul, sshl, sshr, sand, sor, smov, smovi and their long-
immediate forms. Each completes with what its row says, wherever it issues. (R46, R92, R147, R150, R180) -/
def Obligations.UniformWords : Prop :=
  Sys2Proof.Machine.Completes Sys2Proof.Machine.uniformRow

/-- FP32 and packed floating-point words: fadd, fsub, fmul, ffma, fmin, fmax, fabs, frnd, and the packed FP16 and BF16
words. Each completes with what its row says, wherever it issues. (R91, R151, R152, R154, R155, R156, R159, R160, R68)
-/
def Obligations.FloatWords : Prop :=
  Sys2Proof.Machine.Completes Sys2Proof.Machine.floatRow

/-- Conversions, block quantisation and special functions: cvt, qblk, rcp.seed, rsq.seed, ex2, lg2, sin, cos. The
approximations of ex2, lg2, sin and cos are free within their bounds (notes/assumptions/5.md). Each completes with what
its row says, wherever it issues. (R91, R161, R162, R163, R165, R166, R167, R168, R71) -/
def Obligations.ConversionWords : Prop :=
  Sys2Proof.Machine.Completes Sys2Proof.Machine.convertRow

/-- Long-immediate arithmetic words: The long-immediate forms of the 32-bit integer, bit and FP32 words. Each completes
with what its row says, wherever it issues. (R91, R100, R101, R133, R140, R154) -/
def Obligations.LongImmediateWords : Prop :=
  Sys2Proof.Machine.Completes Sys2Proof.Machine.longImmRow

/-- Pair words: both halves read before either writes: Every pair word, whatever its two halves are. Each completes with
what its row says, wherever it issues. (R91, R96, R97, R98, R103) -/
def Obligations.PairWords : Prop :=
  Sys2Proof.Machine.Completes Sys2Proof.Machine.pairWordRow

/-- Control words: where each thread goes: bra, jmp, call, ret, loop, lbrk, yield, nap and nop in all their forms. That
a word that jumps makes no end-word check even to the next word, and the steps for which yield passes a warp over, are
readings of the model (notes/assumptions/10.md). Each completes with what its row says, wherever it issues. (R170, R172,
R173, R175, R176, R177, R179, R180, R181) -/
def Obligations.ControlWords : Prop :=
  Sys2Proof.Machine.Completes Sys2Proof.Machine.controlRow

/-- Cross-lane words: shfl, vote, ballot, redux, scan and match. That .neg on the operand of redux and scan of .fadd,
.fmin and .fmax flips its sign as an FP32 value is a reading of the model (notes/assumptions/39.md). Each completes with
what its row says, wherever it issues. (R183, R184, R185, R186, R187, R188, R189) -/
def Obligations.CrossLaneWords : Prop :=
  Sys2Proof.Machine.Completes Sys2Proof.Machine.crossRow

/-- Memory words: what stands in the queue after they issue: ld, st, ldsp, stsp, ldf, stf, atom, atoms, red, the range
maintenance words, sld, pf and fence: each acting thread has one more operation in its queue, whose address, width and
bytes the row computes; memory itself changes in the events of the memory pipeline. That fence.rel waits as R242 says,
where an unnumbered table reads otherwise, is the model's reading (notes/assumptions/40.md). Each completes with what
its row says, wherever it issues. (R149, R236, R257, R258, R260, R261, R262, R268, R274, R275, R241) -/
def Obligations.AccessWords : Prop :=
  Sys2Proof.Machine.Completes Sys2Proof.Machine.accessRow

/-- Typed-buffer words: lda, sta, ldc and stc on the records and tiles of the team. Each completes with what its row
says, wherever it issues. (R265, R266, R284, R287, R290) -/
def Obligations.BufferWords : Prop :=
  Sys2Proof.Machine.Completes Sys2Proof.Machine.bufferRow

/-- Matrix words: rsv, unrsv, acq, rel, zacc and mma, where the array is powered and their checks pass. Each completes
with what its row says, wherever it issues. (R33, R285, R289, R290, R300, R301, R302, R303, R304, R305, R306) -/
def Obligations.MatrixWords : Prop :=
  Sys2Proof.Machine.Completes Sys2Proof.Machine.matrixRow

/-- Job cards and rings: cpy, cpyo, cpyc, patch, go, rinit, await and rels; an rinit whose ring is still named waits
behind its own lookahead window. That cpyc takes a card whose transfers total 2^40 bytes or more is the model's choice
(notes/assumptions/51.md), and that a source or read region on a CB record whose token is UNIT gives ACC_TOKEN is its
reading (notes/assumptions/22.md). Each completes with what its row says, wherever it issues. (R308, R310, R315, R316,
R317, R318, R319, R324, R325, R326, R327) -/
def Obligations.CopyWords : Prop :=
  Sys2Proof.Machine.Completes Sys2Proof.Machine.copyRow

/-- Work queues, search packets and calls: deq, enq, svc, rcall, fqack, qsub and qcancel. That svc answers REFUSED where
its buffer has another fault than an absent page is the model's choice (notes/assumptions/48.md); that an ordinary store
to the header of a queue in use leaves its items unspecified until it is empty is its reading (notes/assumptions/22.md),
and such items are free values (notes/assumptions/6.md). The causes and the KIND of faults on a header (62.md, 63.md),
and that a waiting card takes a ring's slot before a waiting packet (60.md), are its choices. Each completes with what
its row says, wherever it issues. (R106, R211, R212, R213, R329, R330, R331, R355, R356, R357) -/
def Obligations.QueueWords : Prop :=
  Sys2Proof.Machine.Completes Sys2Proof.Machine.queueRow

/-- Barriers and mbar objects: bar.arrive, bar.sync, bar.wait, bar.swap, mbar.init, mbar.arrive, mbar.expect and
mbar.wait. In which threads a word whose guard divides the issued set reports a pending fault is the model's choice
(notes/assumptions/64.md). Each completes with what its row says, wherever it issues. (R69, R196, R276, R277, R278,
R279, R280, R281) -/
def Obligations.BarrierWords : Prop :=
  Sys2Proof.Machine.Completes Sys2Proof.Machine.barrierRow

/-- mfs, mts, fencex, tkill, rgrow and rshrink complete: for each of these six constructors, every operand, every
special register that mfs can read or mts can write, and every state in which the word issues (Issues: its warp is
chosen, the windows let it issue, its registers are below the thread counts and their lines are present, no acting
thread has a report due (that others do not count is notes/assumptions/64.md), and for mfs and mts every earlier word of
the warp has committed), if it acts in some thread and its row's own condition holds (rgrow: each acting thread asks for
1 to 32 groups of eight within the quota; rshrink: the same, and no outstanding load still has to write a register that
it discards; the others: none), exec i s = .next s1, where mfs has written the register's value to d, mts has written
the value with its read-only bits cleared, the lanes in ascending order for the warp's registers, fencex has reported
what was due and changes nothing, tkill has ended the team, rshrink has discarded the registers from 8a up, and rgrow
has queued one request for the threads that ask for more, which then wait (its grant is a rule of WaitsEnd); everything
else is as it was but for the bookkeeping of R44, R45, R93, R119, R200, R419 and R431; and if its guard holds in no
issued thread, exec i s = .next s1 where it has only gone to the next word. rgrow and rshrink with a count of 0, above
32 or above the quota trap with REG_QUOTA in exactly the acting threads that ask so. -/
def Obligations.SystemWords : Prop :=
  Sys2Proof.Machine.Completes Sys2Proof.Machine.systemRow ∧ Sys2Proof.Machine.GrowTraps

/-- Where exit issues, its acting threads are exited, a thread in handler state counts as returned, a wholly exited warp
drops its open card, and the team resumes when its last handler thread has returned. That no report is due in the acting
threads alone is the model's choice (notes/assumptions/64.md). (R174, R205, R317) -/
def Obligations.ExitWords : Prop :=
  Sys2Proof.Machine.ExitCompletes

/-- Where rett issues in threads that are all in handler state, it ends that state in each and sets its PC to TEPC with
bits 2:0 cleared; the team resumes when its last handler thread has returned. Where it acts in a thread outside handler
state it traps with HANDLER_STATE in each such thread and commits in none. (R199, R204, R205) -/
def Obligations.RettWords : Prop :=
  Sys2Proof.Machine.RettCompletes ∧ Sys2Proof.Machine.RettTraps

/-- trap, ebrk and a word of reserved opcode raise their precise traps in the threads the manual names: the word commits
in no thread, memory stays, and the team halts with each trap pending, or ends where it has no handler or a trapping
thread is in handler state. (R102, R103, R193, R199, R203, R209) -/
def Obligations.TrapsTaken : Prop :=
  Sys2Proof.Machine.TrapsRaised

/-- handlerEntry completes: once the words that the threads of a halted team have issued have completed (no thread has
an operation in flight but those that wait under R47 in threads that do not trap, and no class 0xB word of the team
waits), exec answers the next state in which TSKID is written in every warp, TCAUSE, TEPC and TVA in each trapping
thread, which goes to TVEC in handler state with its registers; a pre-emption that arrived during the halt takes effect,
the last RUN value held for a warp being the one (a reading of the model: notes/assumptions/12.md); every other thread
keeps all but a wait count, and all other state is as it was. -/
def Obligations.HandlersEntered : Prop :=
  Sys2Proof.Machine.HandlerEntries

/-- A halted team with no thread in handler state or on its way there resumes: its trapped bits are clear, its wait
counts 0, and every non-exited thread that does not wait is ready at its PC. (R205, R45) -/
def Obligations.TeamsResume : Prop :=
  Sys2Proof.Machine.TeamResumes

/-- rcall and fqack trap with PRIVILEGE in every issued thread of a team without privilege; no other word of the tables
asks for it. (R102, R103, R106) -/
def Obligations.PrivilegeChecked : Prop :=
  Sys2Proof.Machine.PrivilegeTraps

/-- A word of the tables with a reference to register N or above traps with REG_QUOTA in exactly the issued threads
whose own count a reference reaches, and commits in none. (R89, R102, R103) -/
def Obligations.QuotaChecked : Prop :=
  Sys2Proof.Machine.QuotaTraps

/-- A uniform word of the tables traps with UNIFORM_DIVERGED in every issued thread where not all non-exited threads
issue, or their guards disagree. (R46, R92, R102, R103) -/
def Obligations.UniformityChecked : Prop :=
  Sys2Proof.Machine.UniformTraps

/-- The events STORE_BUFFER_DRAIN, LOAD_RETURN and ATOMIC_PERFORM: a store writes its bytes at the address its
translation gives, a load reads its registers, an atomic reads and writes one location; an access that lacks the right
asks its home, one whose page is absent waits for a walk, and one that is misaligned, meets poison or fails its check
faults late. These are the model's: that a range operation which meets a refused page acts on no line
(notes/assumptions/22.md), that the lines fetched from a tier are free and are metered to the owner of their frame
(notes/assumptions/6.md, 33.md), that one memory holds what has performed (notes/assumptions/21.md), which writes meet
an uncorrectable error (59.md) and in which order one access is checked (65.md). (R216, R222, R226, R236, R237, R257,
R260, R268, R274, R275, R364, R402) -/
def Obligations.MemoryPipeline : Prop :=
  Sys2Proof.Machine.Complete Sys2Proof.Machine.MemoryRule

/-- ldfWake, stfWaitWake, mbarWaitWake, napWake, barrierPhaseComplete, deqTake, enqReservation, svcPost, replyDoorbell,
maintenanceComplete, rgrowGrant and registerLineFill complete: ldfWake reads a full granule at its turn, and stfWaitWake
fills an empty one; mbarWaitWake ends once the generation has advanced, or faults late where the address names no
object; napWake writes what ended the nap; barrierPhaseComplete starts the next phase and wakes every waiter; deqTake
takes an item, and otherwise waits for a page or faults late; enqReservation writes and publishes its item, and
otherwise waits for a walk, faults late, or is abandoned where its team has ended; svcPost posts the oldest held
request; replyDoorbell writes the status of a pending request, discards a reserved or unknown one, and is answered
Unsupported Request in ERROR; maintenanceComplete ends an operation whose lines have landed; rgrowGrant grants the
oldest request when it fits or its team alone counts, and demotes the team of the lowest PRIO where every team waits;
registerLineFill fills a line, and evicts the first line by R120 where the cache is full. These are the model's: the
count and mask of TSNAP2 after a late fault of deq (notes/assumptions/42.md) and its KIND (63.md), the causes of a
header that is not aligned or not in the window (62.md), the last use of a line in steps and the numbers of lines
(34.md), the bytes of a pending fault record in an image (44.md), and what a fill does whose image fails its check
(57.md). -/
def Obligations.WaitsEnd : Prop :=
  Sys2Proof.Machine.Complete Sys2Proof.Machine.WaitRule

/-- walkComplete and faultQueueRoom complete: a walk that has one of its meadow's walkers answers every thread, copy job
and query context that waits for its page (it fills their translation cache, reports a missing page in the fault queue,
or refuses the access), and a walk that a shootdown has discarded starts again; faultQueueRoom posts the oldest waiting
entry of a fault queue that has room, with the next SEQ, and publishes it. Which entry a full cache gives up, and the
sizes of some caches, are the model's choice (notes/assumptions/47.md), and so is which frame a fill of 64 KiB checks
(58.md). -/
def Obligations.WalksComplete : Prop :=
  Sys2Proof.Machine.Complete Sys2Proof.Machine.WalkRule

/-- The request, acknowledgement, timeout, invalidation and replica events of the coherence homes, and write-back. These
are the model's: the timeout of 10 µs of the rounds of UPD, MIG and WO (notes/assumptions/23.md), one memory with the
performed writes and the agents that act through the home agent within one step (21.md), and when a copy job asks for a
grant again (22.md). (R226, R378, R379, R380, R384, R385, R386, R387, R388) -/
def Obligations.HomesAct : Prop :=
  Sys2Proof.Machine.Complete Sys2Proof.Machine.HomeRule

/-- RSV_COMPLETE, UNRSV_COMPLETE, ACQ_COMPLETE, the start, k-steps, switch points and completion of matrix jobs, the
budget refill and the array ramp. The quantum Hazel writes is free (notes/assumptions/6.md). These are the model's: the
refill while Hazel is halted (25.md), how the vectors of k-steps of different shapes (35.md) and formats (45.md) are
compared, and which team goes first of those that have never had the array (43.md). (R33, R289, R292, R294, R295, R296,
R297, R298, R301, R302, R303, R305) -/
def Obligations.MatrixUnitActs : Prop :=
  Sys2Proof.Machine.Complete Sys2Proof.Machine.MatrixRule

/-- The start, slot claim, pieces, relay hops, completion and faults of copy jobs, and the await of a filled slot. These
are the model's: the slots of relay hops (notes/assumptions/36.md), that each transfer counts alone as a write of a
whole grain or block (49.md), the order of pieces (50.md), cards of 2^40 bytes or more (51.md), and the end of a relay
whose next team has ended (52.md). (R247, R299, R311, R319, R320, R321, R323, R326) -/
def Obligations.CopyUnitsAct : Prop :=
  Sys2Proof.Machine.Complete Sys2Proof.Machine.CopyRule

/-- DISPATCH_RECORD, GROVE_PLACEMENT, PLACEMENT_STARVATION, ISSUE_SELECTION, WAIT_COUNT_STARVATION, BIND_RECORD_WRITE,
the guest switch, TEAM_RETIREMENT and the queue slice. These are the model's: the choice of free slots
(notes/assumptions/11.md), the bind records it accepts (12.md), the place of an image in its pool (53.md), when a word
is charged and how age is counted (9.md), and that JOIN changes through the home agent within the step (21.md). (R35,
R36, R38, R40, R42, R44, R45, R51, R52, R418, R421, R424) -/
def Obligations.LaunchAndRetirement : Prop :=
  Sys2Proof.Machine.Complete Sys2Proof.Machine.LaunchRule

/-- Context allocation, distance and adjacency replies, and publication. These are the model's: that a suspended context
processes no reply (notes/assumptions/22.md), that the publication of a swapped partition waits for its swap-in (32.md),
that an expansion reads all its adjacency bytes (60.md), and that each entry of a result is a write of its own (49.md).
(R337, R342, R346, R347, R349, R350, R353) -/
def Obligations.SearchUnitsAct : Prop :=
  Sys2Proof.Machine.Complete Sys2Proof.Machine.QueryRule

/-- MAP, UNMAP, PROT, MOVE, SEAL, UNSEAL, USAGE, SVCQ, BIND, PLOAD, PUNLOAD, RANGE, SHOOTDOWN_ACK and MIGRATION_PASS.
These are the model's: when a call is taken and which agents acknowledge (notes/assumptions/13.md), the statuses of MAP,
UNMAP and PROT that no rule names (14.md), the passes and the switch of MOVE (15.md), the byte layouts of exported pages
and what UNSEAL does with a spoilt image (16.md), the statuses of SVCQ and PLOAD and the flush of RANGE (17.md), that
ciphers are uninterpreted (20.md), and the states that the check of an image explores (56.md). (R333, R371, R372, R373,
R375, R390, R391, R392, R403, R404, R405, R406) -/
def Obligations.RowanServes : Prop :=
  Sys2Proof.Machine.Complete Sys2Proof.Machine.RowanRule

/-- spawn, joinw, ecreate, edestroy, eattest and the illegal-instruction exception: what each does, that each raises the
illegal-instruction exception outside an enclave, that spawn and joinw raise the exceptions of their load, and that a
trap to Rowan waits while a call is under way or waits there, and returns BUSY once sleep entry has begun. These are the
model's: that an exception is recorded and the hart stays at its word (notes/assumptions/7.md), that a trap which has to
wait is issued again (13.md), the frames, harts and steps of ecreate and edestroy (18.md), and that a hart's translation
cache is without bound (47.md). (R38, R334, R335, R336, R394, R395, R396, R397, R399) -/
def Obligations.HartsAct : Prop :=
  Sys2Proof.Machine.Complete Sys2Proof.Machine.HartRule

/-- PCFG, partition build, MSLIM, MSCFG and the split change, TDISP, IDE keys, host memory accesses, PF0 and VF
registers, virtual-function reset and usage records. These are the model's: the aperture by PA, the coding of TDISP
requests, offsets without a register and what breaks a tag (notes/assumptions/29.md), the agent enclave and the pages of
its quota (19.md), the change of a meadow-store split (30.md), the reset of a virtual function and its notice (31.md),
what is metered to a partition (33.md), and the layout of two kinds of log entry (61.md). (R18, R19, R20, R228, R229,
R231, R370, R377, R416, R426, R427, R434) -/
def Obligations.HostPortActs : Prop :=
  Sys2Proof.Machine.Complete Sys2Proof.Machine.HostRule

/-- Resets, firmware images, link training, HELLO, CLAIM, leader silence, pod flits, the staggered start, PWRLIM, EPR,
COMMIT, LLAUNCH, SLEEP, WAKE and partition swap; links train in boot mode under BOOTSRC 1 before any unit has left
reset. These are the model's: the late launch's end and its quantum (notes/assumptions/25.md), discovery, the mailbox
and what a warm reset keeps (26.md), a fuse bit that fails three times (27.md), flits that fail their check (28.md), the
images and frames of swap and sleep (32.md), when a leader's silence counts (54.md), that ciphers and the DRBG are
uninterpreted (20.md), and boot status once images have been accepted (55.md). (R21, R24, R26, R27, R28, R30, R31, R32,
R411, R412, R413, R422) -/
def Obligations.BootAndPower : Prop :=
  Sys2Proof.Machine.Complete Sys2Proof.Machine.BootRule

/-- spdmCall, getVersion, getCapabilities, negotiateAlgorithms, getDigests, getCertificate, challenge, getMeasurements,
keyExchange, finish, endSession and spdmUnsupportedRequest complete: a request over DOE is answered at once into the
reply mailbox, whatever its session; one that comes in-band is the call at the head of Rowan's queue, whose request
bytes are read from the caller's block and whose answer is written to its buffer with OK, or which completes with
BAD_ARGS where a field is out of range or a buffer does not hold the bytes. The answers are those of spdmAnswer; their
byte layouts are taken from the outside standard as the model has it (notes/assumptions/24.md). -/
def Obligations.SpdmAnswers : Prop :=
  Sys2Proof.Machine.Complete Sys2Proof.Machine.SpdmRule

/-- The saturating sum or difference is the exact one clamped to the range of its type, and SAT is set exactly where the
clamp changes it in some acting thread; the line of FLAGS is present. (R134) -/
def Obligations.SaturatingArithmetic : Prop :=
  Sys2Proof.Machine.SaturatingSums

/-- div and rem give the quotient truncated toward zero and its remainder; a divisor of 0 gives 0xFFFF_FFFF and the
dividend with DIVZ, and -2^31 by -1 gives 0x8000_0000 and 0 with no flag. (R135) -/
def Obligations.DivisionAndRemainder : Prop :=
  Sys2Proof.Machine.Divisions

/-- abs writes |a| modulo 2^32; abs.sat writes 0x7FFF_FFFF for -2^31 and sets SAT. (R136) -/
def Obligations.AbsoluteValue : Prop :=
  Sys2Proof.Machine.AbsoluteValues

/-- bfx gives bits pos to pos + len - 1 of a from bit 0 up with zeros above; bfi puts the low bits of a there into the
old d, which it reads. (R141) -/
def Obligations.BitFields : Prop :=
  Sys2Proof.Machine.FieldExtracts ∧ Sys2Proof.Machine.FieldInserts

/-- Keys are ordered by their distance as an FP32 value with -0 below +0, then by id, and no two keys of distinct nodes
are equal in the order. (R343) -/
def Obligations.SearchKeyOrder : Prop :=
  Sys2Proof.Machine.KeyOrder

/-- Each 9-bit operand code decodes to the register, identity value or constant of the table, and codes 340 to 383 make
the word ILLEGAL_FORM. (R86) -/
def Obligations.OperandDecoding : Prop :=
  Sys2Proof.Machine.OperandCodes

/-- 0x1C90_7000_0000_0000 decodes to an unguarded nop, and the all-zero word to add w0, w0, w0. (R107) -/
def Obligations.NoOperationWord : Prop :=
  Sys2Proof.decode 0x1C90700000000000 = .ok (.nop .always) ∧ Sys2Proof.decode 0 = .ok (.add ⟨0, .pred 0 false⟩ none 0 ⟨.w 0, .none⟩ ⟨.w 0, .none⟩)

/-- A pair word of two well-formed halves decodes to its instruction exactly where no two of its register reads fall in
one bank and its destinations differ; any other is ILLEGAL_PAIR. (R99) -/
def Obligations.PairWordLegality : Prop :=
  Sys2Proof.Machine.PairLegality

/-- One word of each family, written out from its encoding, decodes to its instruction, and so do the five extension
words. (R81, R82, R96, R100, R104, R105, R334, R394) -/
def Obligations.WordsWrittenOut : Prop :=
  Sys2Proof.Machine.KnownWords

/-- For every well-formed instruction that has a word, with every operand at every value, decoding its encoding gives
the instruction back. (R81, R82, R83, R84, R86, R96, R100, R104, R105, R334) -/
def Obligations.EncodedWordsDecode : Prop :=
  ∀ i : Sys2Proof.Instr, i.wf = true → ∀ w, Sys2Proof.encode i = some w → w.readsAs i

/-- Every 64-bit word that decodes to an instruction is that instruction's encoding, and the instruction is well formed;
the same of the extension words. (R81, R82, R83, R96, R100, R102, R334) -/
def Obligations.DecodedWordsEncode : Prop :=
  (∀ w i, Sys2Proof.decode w = .ok i → Sys2Proof.encode i = some (.nimia w) ∧ i.wf = true) ∧ ∀ w i, Sys2Proof.decodeHart w = .ok i → Sys2Proof.encode i = some (.hart w) ∧ i.wf = true

/-- When the word at the PC of a chosen warp is held or readable through its translation cache, step is exec of the
instruction it decodes to, and the decode trap of a word that is none; a step of a running hart is exec of the extension
instruction at its pc, read at its home, or its illegal-instruction exception. With no word chosen, step runs the oldest
waiting input, else the event that is due, else lets time pass and takes an agent's turn, gives a hart its turn or runs
the event that the world chooses: these last are conventions of the model (notes/assumptions/1.md). A step begins 1 ns
later where a usage record has just been emitted. To the effect a step adds what becoming ready leaves (a wait count of
0 in each thread that has become ready, and the step number at which a warp gained its first ready thread), the end of
an rinit whose ring is named no longer, and which register lines and pages it has made dirty; an effect that a home
holds back is undone and tried again later. (R81, R102, R178, R334, R335, R364, R394, R450) -/
def Obligations.StepsRunTheirWords : Prop :=
  Sys2Proof.Machine.WarpStepsRun ∧ Sys2Proof.Machine.HartStepsRun ∧ Sys2Proof.Machine.IdleStepsRun ∧ Sys2Proof.Machine.ReadinessNoted

/-- The memory of the reset state is in its one canonical form. -/
def Obligations.ResetMeetsInvariant : Prop :=
  Sys2Proof.Machine.State.Inv Sys2Proof.Machine.State.reset

/-- From every state whose memory is in its canonical form (addresses rising, no entry equal to what an unlisted address
reads as), a step that gives a next state gives one whose memory is. (R235, R236) -/
def Obligations.StepsKeepInvariant : Prop :=
  ∀ s s' : Sys2Proof.Machine.State, Sys2Proof.Machine.State.Inv s → Sys2Proof.Machine.step s = .next s' → Sys2Proof.Machine.State.Inv s'

/-- A walk that succeeds has found a valid ASID, an address below 2^57, a leaf that permits the access, and a frame that
the page ownership table lets the enclave use that way, or, for a leaf with MT 0b01, the kick page of that enclave,
whose id its PFN[27:12] holds, and no fetch; the permissions it fills are within both. (R363, R367, R368) -/
def Obligations.TranslationsAreAllowed : Prop :=
  Sys2Proof.Machine.WalksAllowed

/-- A change of a POT entry raises VER by 1 modulo 256 exactly when OWNER changes or STATE changes to or from free or
sealed. (R366, R369) -/
def Obligations.FrameVersionsRise : Prop :=
  Sys2Proof.Machine.VersionsRise

/-- Every word but deq, svc, rcall and fqack leaves every byte of memory as it is when it issues, traps or waits:
stores, atomics, reductions and the items of enq change theirs in events of their own, and these four have the homes of
what they access answer at once. (R236) -/
def Obligations.WordsLeaveMemory : Prop :=
  Sys2Proof.Machine.WordsKeepMemory

/-- No word of any team, in any state, changes the page ownership table, the ASID table, the keys, the coherence ranges
and protocols, the fuses, the boot or retention state or the clock. (R212, R371, R390, R403, R414) -/
def Obligations.WordsLeaveTables : Prop :=
  Sys2Proof.Machine.WordsKeepTables

/-- No instruction, call or event but a cold reset lowers CLOCK. (R12) -/
def Obligations.ClockOnward : Prop :=
  Sys2Proof.Machine.ClockNeverFalls

/-- A host access without a stream to frames that are not sealed in its VF's partition changes no byte of memory, and
such a read on a live VF gives all ones. A write past the port to a CXL range is another thing (R245). That the frames
are those of an aperture addressed by PA is the model's choice (notes/assumptions/29.md). (R370) -/
def Obligations.HostIsKeptOut : Prop :=
  Sys2Proof.Machine.HostKeepsOut

/-- At reset CLOCK, FLAGS, ARMS, AMAX, the trap registers and the loop counters are 0, PWRLIM is 3,600 W without ERR,
nothing is live, and the ROM waits for an image. That no fuse is blown is the model's choice (notes/assumptions/3.md).
(R12, R24, R30, R115) -/
def Obligations.ResetValues : Prop :=
  Sys2Proof.Machine.ResetLeaves
end

