-- ==== Sys2Proof/Laws/Codec.lean ====
section
/-! SUPPORT. The field codecs undo each other: decoding an encoded field gives the field back. -/
namespace Sys2Proof
-- One declaration at a time: each more thread of the compiler takes a stack out of the same memory.
set_option Elab.async false

/-! ### The words and their fields -/

theorem extract_app {n m : Nat} (a : BitVec n) (b : BitVec m) (lo w : Nat) (h : m ≤ lo) :
    (a ++ b).extractLsb' lo w = a.extractLsb' (lo - m) w := by
  apply BitVec.eq_of_getLsbD_eq
  intro i hi
  simp only [BitVec.getLsbD_extractLsb', BitVec.getLsbD_append]
  have : ¬ lo + i < m := by omega
  simp only [this, if_false]
  congr 2; omega

theorem extract_app_lo {n m : Nat} (a : BitVec n) (b : BitVec m) : (a ++ b).extractLsb' 0 m = b := by
  apply BitVec.eq_of_getLsbD_eq
  intro i hi
  simp [BitVec.getLsbD_append, hi]

theorem extract_all {n : Nat} (a : BitVec n) : a.extractLsb' 0 n = a := by
  apply BitVec.eq_of_getLsbD_eq
  intro i hi
  simp [hi]

theorem FWord.form (f : FWord) : f.bits.extractLsb' 62 2 = 0b00#2 := by
  unfold FWord.bits
  (repeat rw [extract_app _ _ _ _ (by decide)]); rfl

theorem FWord.ofBits_bits (f : FWord) : FWord.ofBits f.bits = f := by
  obtain ⟨opc, la, gn, gp, d, a, b, c, sa, sb, sc⟩ := f
  simp only [FWord.ofBits, FWord.bits, FWord.mk.injEq]
  refine ⟨?_, ?_, ?_, ?_, ?_, ?_, ?_, ?_, ?_, ?_, ?_⟩ <;>
    (repeat rw [extract_app _ _ _ _ (by decide)]) <;> exact extract_app_lo _ _

theorem LWord.form (f : LWord) : f.bits.extractLsb' 62 2 = 0b10#2 := by
  unfold LWord.bits
  (repeat rw [extract_app _ _ _ _ (by decide)]); rfl

theorem LWord.ofBits_bits (f : LWord) : LWord.ofBits f.bits = f := by
  obtain ⟨opc, gp, d, a, imm⟩ := f
  simp only [LWord.ofBits, LWord.bits, LWord.mk.injEq]
  refine ⟨?_, ?_, ?_, ?_, ?_⟩ <;> (repeat rw [extract_app _ _ _ _ (by decide)]) <;> exact extract_app_lo _ _

theorem PHalfWord.ofBits_bits (f : PHalfWord) : PHalfWord.ofBits f.bits = f := by
  obtain ⟨pop, pg, d, a, imm⟩ := f
  simp only [PHalfWord.ofBits, PHalfWord.bits, PHalfWord.mk.injEq]
  refine ⟨?_, ?_, ?_, ?_, ?_⟩ <;> (repeat rw [extract_app _ _ _ _ (by decide)])
  · exact extract_all _
  all_goals exact extract_app_lo _ _

theorem pairBits_form (x y : PHalfWord) : (pairBits x y).extractLsb' 62 2 = 0b01#2 := by
  unfold pairBits
  (repeat rw [extract_app _ _ _ _ (by decide)]); rfl

theorem pairBits_h0 (x y : PHalfWord) : (pairBits x y).extractLsb' 0 31 = x.bits := extract_app_lo _ _

theorem pairBits_h1 (x y : PHalfWord) : (pairBits x y).extractLsb' 31 31 = y.bits := by
  unfold pairBits
  (repeat rw [extract_app _ _ _ _ (by decide)]); exact extract_app_lo _ _

theorem RWord.ofBits_bits (f : RWord) : RWord.ofBits f.bits = f := by
  obtain ⟨f7, rs2, rs1, f3, rd, op⟩ := f
  simp only [RWord.ofBits, RWord.bits, RWord.mk.injEq]
  refine ⟨?_, ?_, ?_, ?_, ?_, ?_⟩ <;> (repeat rw [extract_app _ _ _ _ (by decide)])
  · exact extract_all _
  all_goals exact extract_app_lo _ _

/-! ### Fields -/

@[simp] theorem disp_enc (x : BitVec 18) : (x.extractLsb' 9 9 ++ x.extractLsb' 0 9 : BitVec 18) = x := by
  apply BitVec.eq_of_getLsbD_eq
  intro i hi
  simp only [BitVec.getLsbD_append, BitVec.getLsbD_extractLsb']
  split_ifs with h
  · simp [h]
  · have : i - 9 < 9 := by omega
    simp only [this, decide_true, Bool.true_and]; congr 1; omega

@[simp] theorem decGuard_enc (g : Guard) : decGuard g.gn g.gp = some g := by
  cases g with
  | always => rfl
  | pred p neg =>
    have hp := p.isLt
    have h : (Guard.pred p neg).gp.toNat = p.val := by simp [Guard.gp]; omega
    unfold decGuard
    simp only [h, hp, dif_pos]
    cases neg <;> rfl

@[simp] theorem decLGuard_enc (g : LGuard) : decLGuard (encLGuard g) = g := by
  cases g with
  | none => rfl
  | some p =>
    have hp := p.isLt
    have h : (encLGuard (some p)).toNat = p.val := by simp [encLGuard]; omega
    unfold decLGuard
    simp only [h, hp, dif_pos]

@[simp] theorem decSel_enc (x : Sel) : decSel x.bits = x := by cases x <;> rfl

@[simp] theorem decOperand_enc (o : Operand) : decOperand o.bits = some o := by
  cases o with
  | w r => revert r; decide
  | s r => revert r; decide
  | ident k => revert k; decide
  | imm k => revert k; decide

@[simp] theorem decOperand64_enc (o : Operand64) : decOperand64 o.bits = some o := by
  cases o with
  | w p => revert p; decide
  | s r => revert r; decide
  | ident k => revert k; decide
  | imm k => revert k; decide

theorem decUOperand_enc {o : UOperand} (h : o.wf = true) : decUOperand o.bits = some o := by
  cases o with
  | s r => revert r; decide
  | ident k => revert k; decide
  | imm k => revert k; decide

@[simp] theorem decSrc_enc (a : Src) : decSrc a.op.bits a.sel.bits = some a := by simp [decSrc]

@[simp] theorem decNeg_enc (n : Bool) : decNeg (negBits n) = some n := by cases n <;> rfl

@[simp] theorem decSrc64_enc (a : Src64) : decSrc64 a.op.bits (negBits a.neg) = some a := by simp [decSrc64]

theorem decUSrc_enc {a : USrc} (h : a.wf = true) : decUSrc a.op.bits a.sel.bits = some a := by
  simp [decUSrc, decUOperand_enc (o := a.op) h]

theorem decUSrc64_enc {a : USrc64} (h : a.wf = true) : decUSrc64 a.op.bits (negBits a.neg) = some a := by
  simp [decUSrc64, decUOperand_enc (o := a.op) h]

@[simp] theorem decPOp_enc (q : POp) : decPOp q.bits 0#3 = some q := by
  obtain ⟨p, n⟩ := q; revert p n; decide

@[simp] theorem decPReg_enc (p : PReg) : decPReg (encPReg p) = some p := by revert p; decide
@[simp] theorem decSReg_enc (r : SReg) : decSReg (encSReg r) = some r := by revert r; decide
@[simp] theorem decPairD_enc (p : WPair) : decPairD (encPairD p) = some p := by revert p; decide
@[simp] theorem decQuadD_enc (p : WQuad) : decQuadD (encQuadD p) = some p := by revert p; decide
@[simp] theorem decOctD_enc (p : WOct) : decOctD (encOctD p) = some p := by revert p; decide
@[simp] theorem decRaw_enc4 (k : Fin 4) : decRaw 4 (encRaw k.val) 0#3 = some k := by revert k; decide
@[simp] theorem decRaw_enc9 (k : Fin 9) : decRaw 9 (encRaw k.val) 0#3 = some k := by revert k; decide
@[simp] theorem decRaw_enc10 (k : Fin 10) : decRaw 10 (encRaw k.val) 0#3 = some k := by revert k; decide
@[simp] theorem decRaw_enc16 (k : Fin 16) : decRaw 16 (encRaw k.val) 0#3 = some k := by revert k; decide
@[simp] theorem decRawD_enc4 (k : Fin 4) : decRawD 4 (BitVec.ofNat 8 k.val) = some k := by revert k; decide
@[simp] theorem decRawD_enc16 (k : Fin 16) : decRawD 16 (BitVec.ofNat 8 k.val) = some k := by revert k; decide

@[simp] theorem decSat_enc (t : Option ITy) : decSat (encSat t) 0#3 = some t := by
  rcases t with _ | _ | _ <;> decide
@[simp] theorem decTy_enc (t : ITy) : decTy (encTy t) 0#3 = some t := by cases t <;> decide
@[simp] theorem decRm_enc (r : Rm) : decRm (encRm r) 0#3 = some r := by cases r <;> decide
@[simp] theorem decUnpk_enc (k : UnpkKind) : decUnpk k.bits 0#3 = some k := by cases k <;> decide
theorem decOptFmt_fin (o : Bool) (c : Fin 16) : decOptFmt (encOptFmt o c.val) 0#3 = some (o, c.val) := by
  revert o c; decide
@[simp] theorem decOptFmt_enc (o : Bool) {n : Nat} (h : n < 16) : decOptFmt (encOptFmt o n) 0#3 = some (o, n) :=
  decOptFmt_fin o ⟨n, h⟩
@[simp] theorem Cond.code_lt (c : Cond) : c.code < 16 := by cases c <;> decide
@[simp] theorem FCond.code_lt (c : FCond) : c.code < 16 := by cases c <;> decide
@[simp] theorem ReduxOp.code_lt (c : ReduxOp) : c.code < 16 := by cases c <;> decide
@[simp] theorem Fmt.code_lt (c : Fmt) : c.code < 16 := by cases c <;> decide
@[simp] theorem Rm.code_lt (c : Rm) : c.code < 4 := by cases c <;> decide
@[simp] theorem decITy_enc (t : ITy) : decITy t.code = some t := by cases t <;> rfl
@[simp] theorem decCond_enc (c : Cond) : decCond c.code = some c := by cases c <;> rfl
@[simp] theorem decFCond_enc (c : FCond) : decFCond c.code = some c := by cases c <;> rfl
@[simp] theorem decRmN_enc (r : Rm) : decRmN r.code = r := by cases r <;> rfl
@[simp] theorem decFmt_enc (f : Fmt) : decFmt f.code = some f := by cases f <;> rfl
@[simp] theorem decScope_enc (c : Scope) : decScope c.code = c := by cases c <;> rfl
@[simp] theorem decReduxOp_enc (o : ReduxOp) : decReduxOp o.code = some o := by cases o <;> rfl
@[simp] theorem decLdW_enc (w : LdW) : decLdW w.code = some w := by cases w <;> rfl
@[simp] theorem decStW_enc (w : StW) : decStW w.code = some w := by cases w <;> rfl
@[simp] theorem decBufW_enc (w : BufW) : decBufW w.code = some w := by cases w <;> rfl
@[simp] theorem decAtomOp_enc (o : AtomOp) : decAtomOp o.code = some o := by cases o <;> rfl
@[simp] theorem decAtomOrd_enc (o : AtomOrd) : decAtomOrd o.code = o := by cases o <;> rfl
@[simp] theorem decFenceKind_enc (k : FenceKind) : decFenceKind k.code = some k := by cases k <;> rfl
@[simp] theorem decSpecial_enc (r : SpecialReg) : decSpecial r.number = some r := by
  cases r with
  | tsnap i => revert i; decide
  | lc i => revert i; decide
  | _ => rfl
@[simp] theorem decSpecial_raw (r : SpecialReg) : decSpecial (encRaw r.number).toNat = some r := by
  cases r with
  | tsnap i => revert i; decide
  | lc i => revert i; decide
  | _ => rfl
@[simp] theorem decAtomMod_enc (w : Bool) (o : AtomOrd) (c : Scope) : decAtomMod (encAtomMod w o c) 0#3 = some (w, o, c) := by
  cases w <;> cases o <;> cases c <;> decide
@[simp] theorem decAccess_enc (r x : Bool) (off : BitVec 7) : decAccess (encAccess r x off) 0#3 = some (r, x, off) := by
  revert r x off; decide
theorem bufMod_width (w : BufW) (off : BitVec 7) : decBufW ((128 * w.code + off.toNat) % 512 / 128) = some w := by
  cases w <;> revert off <;> decide
theorem ofNat7_mod (off : BitVec 7) : BitVec.ofNat 7 (off.toNat % 128) = off := by revert off; decide
@[simp] theorem decAtomVal_enc (b : AtomVal) : decAtomVal b.wide b.opBits b.selBits = some b := by
  cases b <;> simp [decAtomVal, AtomVal.wide, AtomVal.opBits, AtomVal.selBits]

theorem modifier_fin (o : Bool) (f : Fin 16) (sc rm : Fin 4) :
    Modifier.ofBits (Modifier.bits ⟨o, f.val, sc.val, rm.val⟩) = ⟨o, f.val, sc.val, rm.val⟩ := by
  revert o f sc rm; decide

/-- A modifier's fields survive, when each fits. -/
@[simp] theorem modifier_enc (o : Bool) {f sc rm : Nat} (hf : f < 16) (hs : sc < 4) (hr : rm < 4) :
    Modifier.ofBits (Modifier.bits ⟨o, f, sc, rm⟩) = ⟨o, f, sc, rm⟩ :=
  modifier_fin o ⟨f, hf⟩ ⟨sc, hs⟩ ⟨rm, hr⟩

end Sys2Proof
end

