-- ==== Sys2Proof/Laws/Maps.lean ====
section
/-! SUPPORT. Sparse data: what each operation leaves to read, and that the canonical form is kept. -/
namespace Sys2Proof.Machine

@[simp] theorem smFind?_nil {α : Type} (a : Nat) : smFind? ([] : SMap α) a = none := rfl

@[simp] theorem smFind?_cons {α : Type} (k : Nat) (v : α) (m : SMap α) (a : Nat) :
    smFind? ((k, v) :: m) a = if a = k then some v else smFind? m a := rfl

/-- A key just listed reads as its value, every other key as before. -/
@[simp] theorem smFind?_smPut {α : Type} (m : SMap α) (a : Nat) (v : α) (b : Nat) :
    smFind? (smPut m a v) b = if b = a then some v else smFind? m b := by
  induction m with
  | nil => rfl
  | cons c m ih =>
    obtain ⟨k, w⟩ := c
    by_cases h1 : a < k
    · simp [smPut, h1]
    · by_cases h2 : a = k
      · subst h2
        by_cases hb : b = a <;> simp [smPut, hb]
      · simp only [smPut, h1, h2, if_false, smFind?_cons, ih]
        split_ifs <;> simp_all

/-- An unlisted key is listed no more, every other key is as before. -/
@[simp] theorem smFind?_smDel {α : Type} (m : SMap α) (a b : Nat) :
    smFind? (smDel m a) b = if b = a then none else smFind? m b := by
  induction m with
  | nil => simp [smDel]
  | cons c m ih =>
    obtain ⟨k, w⟩ := c
    by_cases h : a = k
    · subst h
      by_cases hb : b = a
      · subst hb; simp [smDel, ih]
      · simp [smDel, ih, hb]
    · simp only [smDel, h, if_false, smFind?_cons, ih]
      split_ifs <;> simp_all

@[simp] theorem smGet_smPut {α : Type} (d : α) (m : SMap α) (a : Nat) (v : α) (b : Nat) :
    smGet d (smPut m a v) b = if b = a then v else smGet d m b := by
  unfold smGet; rw [smFind?_smPut]; split_ifs <;> rfl

@[simp] theorem smGet_smDel {α : Type} (d : α) (m : SMap α) (a b : Nat) :
    smGet d (smDel m a) b = if b = a then d else smGet d m b := by
  unfold smGet; rw [smFind?_smDel]; split_ifs <;> rfl

/-- A read after a write gives the value written; every other key is as before. -/
@[simp] theorem smGet_smSet {α : Type} [DecidableEq α] (d : α) (m : SMap α) (a : Nat) (v : α) (b : Nat) :
    smGet d (smSet d m a v) b = if b = a then v else smGet d m b := by
  unfold smSet; split_ifs <;> simp_all

@[simp] theorem smGet_nil {α : Type} (d : α) (a : Nat) : smGet d ([] : SMap α) a = d := rfl

theorem smFind?_filter {α : Type} (m : SMap α) (p : Nat → Bool) (b : Nat) :
    smFind? (smFilter m p) b = if p b then smFind? m b else none := by
  induction m with
  | nil => simp [smFilter]
  | cons c m ih =>
    obtain ⟨k, w⟩ := c
    unfold smFilter at ih ⊢
    by_cases h : p k <;> by_cases hb : b = k <;> simp_all

@[simp] theorem smGet_smFilter {α : Type} (d : α) (m : SMap α) (p : Nat → Bool) (b : Nat) :
    smGet d (smFilter m p) b = if p b then smGet d m b else d := by
  unfold smGet; rw [smFind?_filter]; split_ifs <;> rfl

/-! ### The canonical form is kept -/

theorem smRisingFrom_mono {α : Type} {lo lo' : Nat} (h : lo' ≤ lo) :
    ∀ {m : SMap α}, smRisingFrom lo m = true → smRisingFrom lo' m = true
  | [], _ => rfl
  | (k, _) :: m, hm => by
    simp only [smRisingFrom, Bool.and_eq_true, decide_eq_true_eq] at hm ⊢
    exact ⟨by omega, hm.2⟩

theorem smRisingFrom_smPut {α : Type} (v : α) : ∀ (m : SMap α) (lo a : Nat), lo ≤ a →
    smRisingFrom lo m = true → smRisingFrom lo (smPut m a v) = true
  | [], lo, a, ha, _ => by simp [smPut, smRisingFrom, ha]
  | (k, w) :: m, lo, a, ha, hm => by
    simp only [smRisingFrom, Bool.and_eq_true, decide_eq_true_eq] at hm
    by_cases h1 : a < k
    · simp only [smPut, h1, if_true, smRisingFrom, Bool.and_eq_true, decide_eq_true_eq]
      exact ⟨ha, by omega, hm.2⟩
    · by_cases h2 : a = k
      · subst h2; simp [smPut, smRisingFrom, hm.1, hm.2]
      · simp only [smPut, h1, h2, if_false, smRisingFrom, Bool.and_eq_true, decide_eq_true_eq]
        exact ⟨hm.1, smRisingFrom_smPut v m (k + 1) a (by omega) hm.2⟩

theorem smRisingFrom_filter {α : Type} (p : Nat × α → Bool) : ∀ (m : SMap α) (lo : Nat),
    smRisingFrom lo m = true → smRisingFrom lo (m.filter p) = true
  | [], _, _ => rfl
  | (k, w) :: m, lo, hm => by
    simp only [smRisingFrom, Bool.and_eq_true, decide_eq_true_eq] at hm
    have ih := smRisingFrom_filter p m (k + 1) hm.2
    rw [List.filter_cons]
    split_ifs
    · simp only [smRisingFrom, Bool.and_eq_true, decide_eq_true_eq]; exact ⟨hm.1, ih⟩
    · exact smRisingFrom_mono (by omega) ih

theorem smDel_eq_filter {α : Type} (m : SMap α) (a : Nat) : smDel m a = m.filter fun c => decide (c.1 ≠ a) := by
  induction m with
  | nil => rfl
  | cons c m ih =>
    obtain ⟨k, w⟩ := c
    by_cases h : a = k
    · subst h; simpa [smDel] using ih
    · have h' : k ≠ a := fun e => h e.symm
      simp [smDel, h, h', ih]

theorem mem_smPut {α : Type} {m : SMap α} {a : Nat} {v : α} {c : Nat × α} (h : c ∈ smPut m a v) : c = (a, v) ∨ c ∈ m := by
  induction m with
  | nil => simpa [smPut] using h
  | cons e m ih =>
    obtain ⟨k, w⟩ := e
    by_cases h1 : a < k
    · simpa [smPut, h1] using h
    · by_cases h2 : a = k
      · simp only [smPut, h2, if_false, if_true, lt_irrefl] at h
        rcases List.mem_cons.1 h with h | h
        · left; rw [h, h2]
        · right; exact List.mem_cons_of_mem _ h
      · simp only [smPut, h1, h2, if_false] at h
        rcases List.mem_cons.1 h with h | h
        · right; exact h ▸ List.mem_cons_self
        · rcases ih h with h | h
          · exact Or.inl h
          · right; exact List.mem_cons_of_mem _ h

theorem smWf_filter {α : Type} [DecidableEq α] {d : α} {m : SMap α} (p : Nat × α → Bool) (h : smWf d m = true) :
    smWf d (m.filter p) = true := by
  simp only [smWf, Bool.and_eq_true, List.all_eq_true] at h ⊢
  exact ⟨smRisingFrom_filter p m 0 h.1, fun c hc => h.2 c (List.mem_of_mem_filter hc)⟩

theorem smWf_smFilter {α : Type} [DecidableEq α] {d : α} {m : SMap α} (p : Nat → Bool) (h : smWf d m = true) :
    smWf d (smFilter m p) = true := smWf_filter _ h

theorem smWf_smDel {α : Type} [DecidableEq α] {d : α} {m : SMap α} (a : Nat) (h : smWf d m = true) :
    smWf d (smDel m a) = true := by rw [smDel_eq_filter]; exact smWf_filter _ h

/-- A write keeps the canonical form. -/
theorem smWf_smSet {α : Type} [DecidableEq α] {d : α} {m : SMap α} (a : Nat) (v : α) (h : smWf d m = true) :
    smWf d (smSet d m a v) = true := by
  unfold smSet
  split_ifs with hv
  · exact smWf_smDel a h
  · simp only [smWf, Bool.and_eq_true, List.all_eq_true, decide_eq_true_eq] at h ⊢
    refine ⟨smRisingFrom_smPut v m 0 a (Nat.zero_le _) h.1, fun c hc => ?_⟩
    rcases mem_smPut hc with hc | hc
    · subst hc; exact hv
    · exact h.2 c hc

/-- Writes folded over a list keep the canonical form. -/
theorem smWf_foldl {α β : Type} [DecidableEq α] {d : α} (f : SMap α → β → SMap α)
    (hf : ∀ m b, smWf d m = true → smWf d (f m b) = true) : ∀ (l : List β) (m : SMap α), smWf d m = true → smWf d (l.foldl f m) = true
  | [], _, h => h
  | b :: l, m, h => smWf_foldl f hf l (f m b) (hf m b h)

/-! ### Sets -/

@[simp] theorem nsHas_nil (b : Nat) : nsHas [] b = false := rfl

@[simp] theorem nsHas_nsAdd (m : NSet) (a b : Nat) : nsHas (nsAdd m a) b = (decide (a = b) || nsHas m b) := by
  induction m with
  | nil => simp [nsAdd, nsHas]
  | cons k m ih =>
    unfold nsHas at ih ⊢
    by_cases h1 : a < k
    · simp [nsAdd, h1]
    · by_cases h2 : a = k
      · subst h2; simp [nsAdd]
      · simp only [nsAdd, h1, h2, if_false, List.any_cons, ih]
        by_cases hk : k = b <;> by_cases ha : a = b <;> simp [hk, ha]

@[simp] theorem nsHas_nsDel (m : NSet) (a b : Nat) : nsHas (nsDel m a) b = (decide (a ≠ b) && nsHas m b) := by
  induction m with
  | nil => simp [nsDel, nsHas]
  | cons k m ih =>
    unfold nsHas nsDel at ih ⊢
    by_cases h : k = a
    · subst h
      by_cases hb : k = b
      · subst hb; simp_all
      · simp_all
    · by_cases hb : k = b
      · subst hb; simp [h, Ne.symm h]
      · simp_all

/-! ### Bytes and numbers -/

theorem bytesOfNat_length : ∀ n x, (bytesOfNat n x).length = n
  | 0, _ => rfl
  | n + 1, x => by simp [bytesOfNat, bytesOfNat_length n]

theorem natOfBytes_bytesOfNat : ∀ n x, natOfBytes (bytesOfNat n x) = x % 256 ^ n
  | 0, x => by simp [bytesOfNat, natOfBytes, Nat.mod_one]
  | n + 1, x => by
    simp only [bytesOfNat, natOfBytes, natOfBytes_bytesOfNat n, BitVec.toNat_ofNat]
    rw [show 256 ^ (n + 1) = 256 * 256 ^ n by ring, Nat.mod_mul]

end Sys2Proof.Machine
end

