-- ==== Sys2Proof/Laws/State.lean ====
section
/-! SUPPORT. What each named update of the state leaves in every field, and what an accessor reads after it. -/
namespace Sys2Proof.Machine
-- One declaration at a time: each more thread of the compiler takes a stack out of the same memory.
set_option Elab.async false

/-! ### setTh -/

@[simp] theorem setTh_turn (s : State) (t : Nat) (x : Thread) : (setTh s t x).turn = s.turn := rfl
@[simp] theorem setTh_inbox (s : State) (t : Nat) (x : Thread) : (setTh s t x).inbox = s.inbox := rfl
@[simp] theorem setTh_n (s : State) (t : Nat) (x : Thread) : (setTh s t x).n = s.n := rfl
@[simp] theorem setTh_clock (s : State) (t : Nat) (x : Thread) : (setTh s t x).clock = s.clock := rfl
@[simp] theorem setTh_refills (s : State) (t : Nat) (x : Thread) : (setTh s t x).refills = s.refills := rfl
@[simp] theorem setTh_slices (s : State) (t : Nat) (x : Thread) : (setTh s t x).slices = s.slices := rfl
@[simp] theorem setTh_mem (s : State) (t : Nat) (x : Thread) : (setTh s t x).mem = s.mem := rfl
@[simp] theorem setTh_stale (s : State) (t : Nat) (x : Thread) : (setTh s t x).stale = s.stale := rfl
@[simp] theorem setTh_poison (s : State) (t : Nat) (x : Thread) : (setTh s t x).poison = s.poison := rfl
@[simp] theorem setTh_raw (s : State) (t : Nat) (x : Thread) : (setTh s t x).raw = s.raw := rfl
@[simp] theorem setTh_spoilt (s : State) (t : Nat) (x : Thread) : (setTh s t x).spoilt = s.spoilt := rfl
@[simp] theorem setTh_stamps (s : State) (t : Nat) (x : Thread) : (setTh s t x).stamps = s.stamps := rfl
@[simp] theorem setTh_imgKeys (s : State) (t : Nat) (x : Thread) : (setTh s t x).imgKeys = s.imgKeys := rfl
@[simp] theorem setTh_lost (s : State) (t : Nat) (x : Thread) : (setTh s t x).lost = s.lost := rfl
@[simp] theorem setTh_ecc (s : State) (t : Nat) (x : Thread) : (setTh s t x).ecc = s.ecc := rfl
@[simp] theorem setTh_dir (s : State) (t : Nat) (x : Thread) : (setTh s t x).dir = s.dir := rfl
@[simp] theorem setTh_proxies (s : State) (t : Nat) (x : Thread) : (setTh s t x).proxies = s.proxies := rfl
@[simp] theorem setTh_sent (s : State) (t : Nat) (x : Thread) : (setTh s t x).sent = s.sent := rfl
@[simp] theorem setTh_reqs (s : State) (t : Nat) (x : Thread) : (setTh s t x).reqs = s.reqs := rfl
@[simp] theorem setTh_heldReqs (s : State) (t : Nat) (x : Thread) : (setTh s t x).heldReqs = s.heldReqs := rfl
@[simp] theorem setTh_msgs (s : State) (t : Nat) (x : Thread) : (setTh s t x).msgs = s.msgs := rfl
@[simp] theorem setTh_ackQ (s : State) (t : Nat) (x : Thread) : (setTh s t x).ackQ = s.ackQ := rfl
@[simp] theorem setTh_pends (s : State) (t : Nat) (x : Thread) : (setTh s t x).pends = s.pends := rfl
@[simp] theorem setTh_locked (s : State) (t : Nat) (x : Thread) : (setTh s t x).locked = s.locked := rfl
@[simp] theorem setTh_maints (s : State) (t : Nat) (x : Thread) : (setTh s t x).maints = s.maints := rfl
@[simp] theorem setTh_walks (s : State) (t : Nat) (x : Thread) : (setTh s t x).walks = s.walks := rfl
@[simp] theorem setTh_held (s : State) (t : Nat) (x : Thread) : (setTh s t x).held = s.held := rfl
@[simp] theorem setTh_cores (s : State) (t : Nat) (x : Thread) : (setTh s t x).cores = s.cores := rfl
@[simp] theorem setTh_warps (s : State) (t : Nat) (x : Thread) : (setTh s t x).warps = s.warps := rfl
@[simp] theorem setTh_teams (s : State) (t : Nat) (x : Thread) : (setTh s t x).teams = s.teams := rfl
@[simp] theorem setTh_groves (s : State) (t : Nat) (x : Thread) : (setTh s t x).groves = s.groves := rfl
@[simp] theorem setTh_groveSeq (s : State) (t : Nat) (x : Thread) : (setTh s t x).groveSeq = s.groveSeq := rfl
@[simp] theorem setTh_lineUses (s : State) (t : Nat) (x : Thread) : (setTh s t x).lineUses = s.lineUses := rfl
@[simp] theorem setTh_launches (s : State) (t : Nat) (x : Thread) : (setTh s t x).launches = s.launches := rfl
@[simp] theorem setTh_asids (s : State) (t : Nat) (x : Thread) : (setTh s t x).asids = s.asids := rfl
@[simp] theorem setTh_encls (s : State) (t : Nat) (x : Thread) : (setTh s t x).encls = s.encls := rfl
@[simp] theorem setTh_keys (s : State) (t : Nat) (x : Thread) : (setTh s t x).keys = s.keys := rfl
@[simp] theorem setTh_pot (s : State) (t : Nat) (x : Thread) : (setTh s t x).pot = s.pot := rfl
@[simp] theorem setTh_ranges (s : State) (t : Nat) (x : Thread) : (setTh s t x).ranges = s.ranges := rfl
@[simp] theorem setTh_protos (s : State) (t : Nat) (x : Thread) : (setTh s t x).protos = s.protos := rfl
@[simp] theorem setTh_rowan (s : State) (t : Nat) (x : Thread) : (setTh s t x).rowan = s.rowan := rfl
@[simp] theorem setTh_parts (s : State) (t : Nat) (x : Thread) : (setTh s t x).parts = s.parts := rfl
@[simp] theorem setTh_lateLaunches (s : State) (t : Nat) (x : Thread) : (setTh s t x).lateLaunches = s.lateLaunches := rfl
@[simp] theorem setTh_harts (s : State) (t : Nat) (x : Thread) : (setTh s t x).harts = s.harts := rfl
@[simp] theorem setTh_heather (s : State) (t : Nat) (x : Thread) : (setTh s t x).heather = s.heather := rfl
@[simp] theorem setTh_hwSlots (s : State) (t : Nat) (x : Thread) : (setTh s t x).hwSlots = s.hwSlots := rfl
@[simp] theorem setTh_unmapped (s : State) (t : Nat) (x : Thread) : (setTh s t x).unmapped = s.unmapped := rfl
@[simp] theorem setTh_boot (s : State) (t : Nat) (x : Thread) : (setTh s t x).boot = s.boot := rfl
@[simp] theorem setTh_fuses (s : State) (t : Nat) (x : Thread) : (setTh s t x).fuses = s.fuses := rfl
@[simp] theorem setTh_spdm (s : State) (t : Nat) (x : Thread) : (setTh s t x).spdm = s.spdm := rfl
@[simp] theorem setTh_host (s : State) (t : Nat) (x : Thread) : (setTh s t x).host = s.host := rfl
@[simp] theorem setTh_ret (s : State) (t : Nat) (x : Thread) : (setTh s t x).ret = s.ret := rfl
@[simp] theorem setTh_threads (s : State) (t : Nat) (x : Thread) : (setTh s t x).threads = smPut s.threads t x := rfl

/-! ### setWarp -/

@[simp] theorem setWarp_turn (s : State) (w : Nat) (x : Warp) : (setWarp s w x).turn = s.turn := rfl
@[simp] theorem setWarp_inbox (s : State) (w : Nat) (x : Warp) : (setWarp s w x).inbox = s.inbox := rfl
@[simp] theorem setWarp_n (s : State) (w : Nat) (x : Warp) : (setWarp s w x).n = s.n := rfl
@[simp] theorem setWarp_clock (s : State) (w : Nat) (x : Warp) : (setWarp s w x).clock = s.clock := rfl
@[simp] theorem setWarp_refills (s : State) (w : Nat) (x : Warp) : (setWarp s w x).refills = s.refills := rfl
@[simp] theorem setWarp_slices (s : State) (w : Nat) (x : Warp) : (setWarp s w x).slices = s.slices := rfl
@[simp] theorem setWarp_mem (s : State) (w : Nat) (x : Warp) : (setWarp s w x).mem = s.mem := rfl
@[simp] theorem setWarp_stale (s : State) (w : Nat) (x : Warp) : (setWarp s w x).stale = s.stale := rfl
@[simp] theorem setWarp_poison (s : State) (w : Nat) (x : Warp) : (setWarp s w x).poison = s.poison := rfl
@[simp] theorem setWarp_raw (s : State) (w : Nat) (x : Warp) : (setWarp s w x).raw = s.raw := rfl
@[simp] theorem setWarp_spoilt (s : State) (w : Nat) (x : Warp) : (setWarp s w x).spoilt = s.spoilt := rfl
@[simp] theorem setWarp_stamps (s : State) (w : Nat) (x : Warp) : (setWarp s w x).stamps = s.stamps := rfl
@[simp] theorem setWarp_imgKeys (s : State) (w : Nat) (x : Warp) : (setWarp s w x).imgKeys = s.imgKeys := rfl
@[simp] theorem setWarp_lost (s : State) (w : Nat) (x : Warp) : (setWarp s w x).lost = s.lost := rfl
@[simp] theorem setWarp_ecc (s : State) (w : Nat) (x : Warp) : (setWarp s w x).ecc = s.ecc := rfl
@[simp] theorem setWarp_dir (s : State) (w : Nat) (x : Warp) : (setWarp s w x).dir = s.dir := rfl
@[simp] theorem setWarp_proxies (s : State) (w : Nat) (x : Warp) : (setWarp s w x).proxies = s.proxies := rfl
@[simp] theorem setWarp_sent (s : State) (w : Nat) (x : Warp) : (setWarp s w x).sent = s.sent := rfl
@[simp] theorem setWarp_reqs (s : State) (w : Nat) (x : Warp) : (setWarp s w x).reqs = s.reqs := rfl
@[simp] theorem setWarp_heldReqs (s : State) (w : Nat) (x : Warp) : (setWarp s w x).heldReqs = s.heldReqs := rfl
@[simp] theorem setWarp_msgs (s : State) (w : Nat) (x : Warp) : (setWarp s w x).msgs = s.msgs := rfl
@[simp] theorem setWarp_ackQ (s : State) (w : Nat) (x : Warp) : (setWarp s w x).ackQ = s.ackQ := rfl
@[simp] theorem setWarp_pends (s : State) (w : Nat) (x : Warp) : (setWarp s w x).pends = s.pends := rfl
@[simp] theorem setWarp_locked (s : State) (w : Nat) (x : Warp) : (setWarp s w x).locked = s.locked := rfl
@[simp] theorem setWarp_maints (s : State) (w : Nat) (x : Warp) : (setWarp s w x).maints = s.maints := rfl
@[simp] theorem setWarp_walks (s : State) (w : Nat) (x : Warp) : (setWarp s w x).walks = s.walks := rfl
@[simp] theorem setWarp_held (s : State) (w : Nat) (x : Warp) : (setWarp s w x).held = s.held := rfl
@[simp] theorem setWarp_cores (s : State) (w : Nat) (x : Warp) : (setWarp s w x).cores = s.cores := rfl
@[simp] theorem setWarp_threads (s : State) (w : Nat) (x : Warp) : (setWarp s w x).threads = s.threads := rfl
@[simp] theorem setWarp_teams (s : State) (w : Nat) (x : Warp) : (setWarp s w x).teams = s.teams := rfl
@[simp] theorem setWarp_groves (s : State) (w : Nat) (x : Warp) : (setWarp s w x).groves = s.groves := rfl
@[simp] theorem setWarp_groveSeq (s : State) (w : Nat) (x : Warp) : (setWarp s w x).groveSeq = s.groveSeq := rfl
@[simp] theorem setWarp_lineUses (s : State) (w : Nat) (x : Warp) : (setWarp s w x).lineUses = s.lineUses := rfl
@[simp] theorem setWarp_launches (s : State) (w : Nat) (x : Warp) : (setWarp s w x).launches = s.launches := rfl
@[simp] theorem setWarp_asids (s : State) (w : Nat) (x : Warp) : (setWarp s w x).asids = s.asids := rfl
@[simp] theorem setWarp_encls (s : State) (w : Nat) (x : Warp) : (setWarp s w x).encls = s.encls := rfl
@[simp] theorem setWarp_keys (s : State) (w : Nat) (x : Warp) : (setWarp s w x).keys = s.keys := rfl
@[simp] theorem setWarp_pot (s : State) (w : Nat) (x : Warp) : (setWarp s w x).pot = s.pot := rfl
@[simp] theorem setWarp_ranges (s : State) (w : Nat) (x : Warp) : (setWarp s w x).ranges = s.ranges := rfl
@[simp] theorem setWarp_protos (s : State) (w : Nat) (x : Warp) : (setWarp s w x).protos = s.protos := rfl
@[simp] theorem setWarp_rowan (s : State) (w : Nat) (x : Warp) : (setWarp s w x).rowan = s.rowan := rfl
@[simp] theorem setWarp_parts (s : State) (w : Nat) (x : Warp) : (setWarp s w x).parts = s.parts := rfl
@[simp] theorem setWarp_lateLaunches (s : State) (w : Nat) (x : Warp) : (setWarp s w x).lateLaunches = s.lateLaunches := rfl
@[simp] theorem setWarp_harts (s : State) (w : Nat) (x : Warp) : (setWarp s w x).harts = s.harts := rfl
@[simp] theorem setWarp_heather (s : State) (w : Nat) (x : Warp) : (setWarp s w x).heather = s.heather := rfl
@[simp] theorem setWarp_hwSlots (s : State) (w : Nat) (x : Warp) : (setWarp s w x).hwSlots = s.hwSlots := rfl
@[simp] theorem setWarp_unmapped (s : State) (w : Nat) (x : Warp) : (setWarp s w x).unmapped = s.unmapped := rfl
@[simp] theorem setWarp_boot (s : State) (w : Nat) (x : Warp) : (setWarp s w x).boot = s.boot := rfl
@[simp] theorem setWarp_fuses (s : State) (w : Nat) (x : Warp) : (setWarp s w x).fuses = s.fuses := rfl
@[simp] theorem setWarp_spdm (s : State) (w : Nat) (x : Warp) : (setWarp s w x).spdm = s.spdm := rfl
@[simp] theorem setWarp_host (s : State) (w : Nat) (x : Warp) : (setWarp s w x).host = s.host := rfl
@[simp] theorem setWarp_ret (s : State) (w : Nat) (x : Warp) : (setWarp s w x).ret = s.ret := rfl
@[simp] theorem setWarp_warps (s : State) (w : Nat) (x : Warp) : (setWarp s w x).warps = smPut s.warps w x := rfl

/-! ### setTeam -/

@[simp] theorem setTeam_turn (s : State) (k : Nat) (x : Team) : (setTeam s k x).turn = s.turn := rfl
@[simp] theorem setTeam_inbox (s : State) (k : Nat) (x : Team) : (setTeam s k x).inbox = s.inbox := rfl
@[simp] theorem setTeam_n (s : State) (k : Nat) (x : Team) : (setTeam s k x).n = s.n := rfl
@[simp] theorem setTeam_clock (s : State) (k : Nat) (x : Team) : (setTeam s k x).clock = s.clock := rfl
@[simp] theorem setTeam_refills (s : State) (k : Nat) (x : Team) : (setTeam s k x).refills = s.refills := rfl
@[simp] theorem setTeam_slices (s : State) (k : Nat) (x : Team) : (setTeam s k x).slices = s.slices := rfl
@[simp] theorem setTeam_mem (s : State) (k : Nat) (x : Team) : (setTeam s k x).mem = s.mem := rfl
@[simp] theorem setTeam_stale (s : State) (k : Nat) (x : Team) : (setTeam s k x).stale = s.stale := rfl
@[simp] theorem setTeam_poison (s : State) (k : Nat) (x : Team) : (setTeam s k x).poison = s.poison := rfl
@[simp] theorem setTeam_raw (s : State) (k : Nat) (x : Team) : (setTeam s k x).raw = s.raw := rfl
@[simp] theorem setTeam_spoilt (s : State) (k : Nat) (x : Team) : (setTeam s k x).spoilt = s.spoilt := rfl
@[simp] theorem setTeam_stamps (s : State) (k : Nat) (x : Team) : (setTeam s k x).stamps = s.stamps := rfl
@[simp] theorem setTeam_imgKeys (s : State) (k : Nat) (x : Team) : (setTeam s k x).imgKeys = s.imgKeys := rfl
@[simp] theorem setTeam_lost (s : State) (k : Nat) (x : Team) : (setTeam s k x).lost = s.lost := rfl
@[simp] theorem setTeam_ecc (s : State) (k : Nat) (x : Team) : (setTeam s k x).ecc = s.ecc := rfl
@[simp] theorem setTeam_dir (s : State) (k : Nat) (x : Team) : (setTeam s k x).dir = s.dir := rfl
@[simp] theorem setTeam_proxies (s : State) (k : Nat) (x : Team) : (setTeam s k x).proxies = s.proxies := rfl
@[simp] theorem setTeam_sent (s : State) (k : Nat) (x : Team) : (setTeam s k x).sent = s.sent := rfl
@[simp] theorem setTeam_reqs (s : State) (k : Nat) (x : Team) : (setTeam s k x).reqs = s.reqs := rfl
@[simp] theorem setTeam_heldReqs (s : State) (k : Nat) (x : Team) : (setTeam s k x).heldReqs = s.heldReqs := rfl
@[simp] theorem setTeam_msgs (s : State) (k : Nat) (x : Team) : (setTeam s k x).msgs = s.msgs := rfl
@[simp] theorem setTeam_ackQ (s : State) (k : Nat) (x : Team) : (setTeam s k x).ackQ = s.ackQ := rfl
@[simp] theorem setTeam_pends (s : State) (k : Nat) (x : Team) : (setTeam s k x).pends = s.pends := rfl
@[simp] theorem setTeam_locked (s : State) (k : Nat) (x : Team) : (setTeam s k x).locked = s.locked := rfl
@[simp] theorem setTeam_maints (s : State) (k : Nat) (x : Team) : (setTeam s k x).maints = s.maints := rfl
@[simp] theorem setTeam_walks (s : State) (k : Nat) (x : Team) : (setTeam s k x).walks = s.walks := rfl
@[simp] theorem setTeam_held (s : State) (k : Nat) (x : Team) : (setTeam s k x).held = s.held := rfl
@[simp] theorem setTeam_cores (s : State) (k : Nat) (x : Team) : (setTeam s k x).cores = s.cores := rfl
@[simp] theorem setTeam_warps (s : State) (k : Nat) (x : Team) : (setTeam s k x).warps = s.warps := rfl
@[simp] theorem setTeam_threads (s : State) (k : Nat) (x : Team) : (setTeam s k x).threads = s.threads := rfl
@[simp] theorem setTeam_groves (s : State) (k : Nat) (x : Team) : (setTeam s k x).groves = s.groves := rfl
@[simp] theorem setTeam_groveSeq (s : State) (k : Nat) (x : Team) : (setTeam s k x).groveSeq = s.groveSeq := rfl
@[simp] theorem setTeam_lineUses (s : State) (k : Nat) (x : Team) : (setTeam s k x).lineUses = s.lineUses := rfl
@[simp] theorem setTeam_launches (s : State) (k : Nat) (x : Team) : (setTeam s k x).launches = s.launches := rfl
@[simp] theorem setTeam_asids (s : State) (k : Nat) (x : Team) : (setTeam s k x).asids = s.asids := rfl
@[simp] theorem setTeam_encls (s : State) (k : Nat) (x : Team) : (setTeam s k x).encls = s.encls := rfl
@[simp] theorem setTeam_keys (s : State) (k : Nat) (x : Team) : (setTeam s k x).keys = s.keys := rfl
@[simp] theorem setTeam_pot (s : State) (k : Nat) (x : Team) : (setTeam s k x).pot = s.pot := rfl
@[simp] theorem setTeam_ranges (s : State) (k : Nat) (x : Team) : (setTeam s k x).ranges = s.ranges := rfl
@[simp] theorem setTeam_protos (s : State) (k : Nat) (x : Team) : (setTeam s k x).protos = s.protos := rfl
@[simp] theorem setTeam_rowan (s : State) (k : Nat) (x : Team) : (setTeam s k x).rowan = s.rowan := rfl
@[simp] theorem setTeam_parts (s : State) (k : Nat) (x : Team) : (setTeam s k x).parts = s.parts := rfl
@[simp] theorem setTeam_lateLaunches (s : State) (k : Nat) (x : Team) : (setTeam s k x).lateLaunches = s.lateLaunches := rfl
@[simp] theorem setTeam_harts (s : State) (k : Nat) (x : Team) : (setTeam s k x).harts = s.harts := rfl
@[simp] theorem setTeam_heather (s : State) (k : Nat) (x : Team) : (setTeam s k x).heather = s.heather := rfl
@[simp] theorem setTeam_hwSlots (s : State) (k : Nat) (x : Team) : (setTeam s k x).hwSlots = s.hwSlots := rfl
@[simp] theorem setTeam_unmapped (s : State) (k : Nat) (x : Team) : (setTeam s k x).unmapped = s.unmapped := rfl
@[simp] theorem setTeam_boot (s : State) (k : Nat) (x : Team) : (setTeam s k x).boot = s.boot := rfl
@[simp] theorem setTeam_fuses (s : State) (k : Nat) (x : Team) : (setTeam s k x).fuses = s.fuses := rfl
@[simp] theorem setTeam_spdm (s : State) (k : Nat) (x : Team) : (setTeam s k x).spdm = s.spdm := rfl
@[simp] theorem setTeam_host (s : State) (k : Nat) (x : Team) : (setTeam s k x).host = s.host := rfl
@[simp] theorem setTeam_ret (s : State) (k : Nat) (x : Team) : (setTeam s k x).ret = s.ret := rfl
@[simp] theorem setTeam_teams (s : State) (k : Nat) (x : Team) : (setTeam s k x).teams = smPut s.teams k x := rfl

/-! ### setCore -/

@[simp] theorem setCore_turn (s : State) (c : Nat) (x : Core) : (setCore s c x).turn = s.turn := rfl
@[simp] theorem setCore_inbox (s : State) (c : Nat) (x : Core) : (setCore s c x).inbox = s.inbox := rfl
@[simp] theorem setCore_n (s : State) (c : Nat) (x : Core) : (setCore s c x).n = s.n := rfl
@[simp] theorem setCore_clock (s : State) (c : Nat) (x : Core) : (setCore s c x).clock = s.clock := rfl
@[simp] theorem setCore_refills (s : State) (c : Nat) (x : Core) : (setCore s c x).refills = s.refills := rfl
@[simp] theorem setCore_slices (s : State) (c : Nat) (x : Core) : (setCore s c x).slices = s.slices := rfl
@[simp] theorem setCore_mem (s : State) (c : Nat) (x : Core) : (setCore s c x).mem = s.mem := rfl
@[simp] theorem setCore_stale (s : State) (c : Nat) (x : Core) : (setCore s c x).stale = s.stale := rfl
@[simp] theorem setCore_poison (s : State) (c : Nat) (x : Core) : (setCore s c x).poison = s.poison := rfl
@[simp] theorem setCore_raw (s : State) (c : Nat) (x : Core) : (setCore s c x).raw = s.raw := rfl
@[simp] theorem setCore_spoilt (s : State) (c : Nat) (x : Core) : (setCore s c x).spoilt = s.spoilt := rfl
@[simp] theorem setCore_stamps (s : State) (c : Nat) (x : Core) : (setCore s c x).stamps = s.stamps := rfl
@[simp] theorem setCore_imgKeys (s : State) (c : Nat) (x : Core) : (setCore s c x).imgKeys = s.imgKeys := rfl
@[simp] theorem setCore_lost (s : State) (c : Nat) (x : Core) : (setCore s c x).lost = s.lost := rfl
@[simp] theorem setCore_ecc (s : State) (c : Nat) (x : Core) : (setCore s c x).ecc = s.ecc := rfl
@[simp] theorem setCore_dir (s : State) (c : Nat) (x : Core) : (setCore s c x).dir = s.dir := rfl
@[simp] theorem setCore_proxies (s : State) (c : Nat) (x : Core) : (setCore s c x).proxies = s.proxies := rfl
@[simp] theorem setCore_sent (s : State) (c : Nat) (x : Core) : (setCore s c x).sent = s.sent := rfl
@[simp] theorem setCore_reqs (s : State) (c : Nat) (x : Core) : (setCore s c x).reqs = s.reqs := rfl
@[simp] theorem setCore_heldReqs (s : State) (c : Nat) (x : Core) : (setCore s c x).heldReqs = s.heldReqs := rfl
@[simp] theorem setCore_msgs (s : State) (c : Nat) (x : Core) : (setCore s c x).msgs = s.msgs := rfl
@[simp] theorem setCore_ackQ (s : State) (c : Nat) (x : Core) : (setCore s c x).ackQ = s.ackQ := rfl
@[simp] theorem setCore_pends (s : State) (c : Nat) (x : Core) : (setCore s c x).pends = s.pends := rfl
@[simp] theorem setCore_locked (s : State) (c : Nat) (x : Core) : (setCore s c x).locked = s.locked := rfl
@[simp] theorem setCore_maints (s : State) (c : Nat) (x : Core) : (setCore s c x).maints = s.maints := rfl
@[simp] theorem setCore_walks (s : State) (c : Nat) (x : Core) : (setCore s c x).walks = s.walks := rfl
@[simp] theorem setCore_held (s : State) (c : Nat) (x : Core) : (setCore s c x).held = s.held := rfl
@[simp] theorem setCore_warps (s : State) (c : Nat) (x : Core) : (setCore s c x).warps = s.warps := rfl
@[simp] theorem setCore_threads (s : State) (c : Nat) (x : Core) : (setCore s c x).threads = s.threads := rfl
@[simp] theorem setCore_teams (s : State) (c : Nat) (x : Core) : (setCore s c x).teams = s.teams := rfl
@[simp] theorem setCore_groves (s : State) (c : Nat) (x : Core) : (setCore s c x).groves = s.groves := rfl
@[simp] theorem setCore_groveSeq (s : State) (c : Nat) (x : Core) : (setCore s c x).groveSeq = s.groveSeq := rfl
@[simp] theorem setCore_lineUses (s : State) (c : Nat) (x : Core) : (setCore s c x).lineUses = s.lineUses := rfl
@[simp] theorem setCore_launches (s : State) (c : Nat) (x : Core) : (setCore s c x).launches = s.launches := rfl
@[simp] theorem setCore_asids (s : State) (c : Nat) (x : Core) : (setCore s c x).asids = s.asids := rfl
@[simp] theorem setCore_encls (s : State) (c : Nat) (x : Core) : (setCore s c x).encls = s.encls := rfl
@[simp] theorem setCore_keys (s : State) (c : Nat) (x : Core) : (setCore s c x).keys = s.keys := rfl
@[simp] theorem setCore_pot (s : State) (c : Nat) (x : Core) : (setCore s c x).pot = s.pot := rfl
@[simp] theorem setCore_ranges (s : State) (c : Nat) (x : Core) : (setCore s c x).ranges = s.ranges := rfl
@[simp] theorem setCore_protos (s : State) (c : Nat) (x : Core) : (setCore s c x).protos = s.protos := rfl
@[simp] theorem setCore_rowan (s : State) (c : Nat) (x : Core) : (setCore s c x).rowan = s.rowan := rfl
@[simp] theorem setCore_parts (s : State) (c : Nat) (x : Core) : (setCore s c x).parts = s.parts := rfl
@[simp] theorem setCore_lateLaunches (s : State) (c : Nat) (x : Core) : (setCore s c x).lateLaunches = s.lateLaunches := rfl
@[simp] theorem setCore_harts (s : State) (c : Nat) (x : Core) : (setCore s c x).harts = s.harts := rfl
@[simp] theorem setCore_heather (s : State) (c : Nat) (x : Core) : (setCore s c x).heather = s.heather := rfl
@[simp] theorem setCore_hwSlots (s : State) (c : Nat) (x : Core) : (setCore s c x).hwSlots = s.hwSlots := rfl
@[simp] theorem setCore_unmapped (s : State) (c : Nat) (x : Core) : (setCore s c x).unmapped = s.unmapped := rfl
@[simp] theorem setCore_boot (s : State) (c : Nat) (x : Core) : (setCore s c x).boot = s.boot := rfl
@[simp] theorem setCore_fuses (s : State) (c : Nat) (x : Core) : (setCore s c x).fuses = s.fuses := rfl
@[simp] theorem setCore_spdm (s : State) (c : Nat) (x : Core) : (setCore s c x).spdm = s.spdm := rfl
@[simp] theorem setCore_host (s : State) (c : Nat) (x : Core) : (setCore s c x).host = s.host := rfl
@[simp] theorem setCore_ret (s : State) (c : Nat) (x : Core) : (setCore s c x).ret = s.ret := rfl
@[simp] theorem setCore_cores (s : State) (c : Nat) (x : Core) : (setCore s c x).cores = smPut s.cores c x := rfl

/-! ### setGrove -/

@[simp] theorem setGrove_turn (s : State) (g : Nat) (x : Grove) : (setGrove s g x).turn = s.turn := rfl
@[simp] theorem setGrove_inbox (s : State) (g : Nat) (x : Grove) : (setGrove s g x).inbox = s.inbox := rfl
@[simp] theorem setGrove_n (s : State) (g : Nat) (x : Grove) : (setGrove s g x).n = s.n := rfl
@[simp] theorem setGrove_clock (s : State) (g : Nat) (x : Grove) : (setGrove s g x).clock = s.clock := rfl
@[simp] theorem setGrove_refills (s : State) (g : Nat) (x : Grove) : (setGrove s g x).refills = s.refills := rfl
@[simp] theorem setGrove_slices (s : State) (g : Nat) (x : Grove) : (setGrove s g x).slices = s.slices := rfl
@[simp] theorem setGrove_mem (s : State) (g : Nat) (x : Grove) : (setGrove s g x).mem = s.mem := rfl
@[simp] theorem setGrove_stale (s : State) (g : Nat) (x : Grove) : (setGrove s g x).stale = s.stale := rfl
@[simp] theorem setGrove_poison (s : State) (g : Nat) (x : Grove) : (setGrove s g x).poison = s.poison := rfl
@[simp] theorem setGrove_raw (s : State) (g : Nat) (x : Grove) : (setGrove s g x).raw = s.raw := rfl
@[simp] theorem setGrove_spoilt (s : State) (g : Nat) (x : Grove) : (setGrove s g x).spoilt = s.spoilt := rfl
@[simp] theorem setGrove_stamps (s : State) (g : Nat) (x : Grove) : (setGrove s g x).stamps = s.stamps := rfl
@[simp] theorem setGrove_imgKeys (s : State) (g : Nat) (x : Grove) : (setGrove s g x).imgKeys = s.imgKeys := rfl
@[simp] theorem setGrove_lost (s : State) (g : Nat) (x : Grove) : (setGrove s g x).lost = s.lost := rfl
@[simp] theorem setGrove_ecc (s : State) (g : Nat) (x : Grove) : (setGrove s g x).ecc = s.ecc := rfl
@[simp] theorem setGrove_dir (s : State) (g : Nat) (x : Grove) : (setGrove s g x).dir = s.dir := rfl
@[simp] theorem setGrove_proxies (s : State) (g : Nat) (x : Grove) : (setGrove s g x).proxies = s.proxies := rfl
@[simp] theorem setGrove_sent (s : State) (g : Nat) (x : Grove) : (setGrove s g x).sent = s.sent := rfl
@[simp] theorem setGrove_reqs (s : State) (g : Nat) (x : Grove) : (setGrove s g x).reqs = s.reqs := rfl
@[simp] theorem setGrove_heldReqs (s : State) (g : Nat) (x : Grove) : (setGrove s g x).heldReqs = s.heldReqs := rfl
@[simp] theorem setGrove_msgs (s : State) (g : Nat) (x : Grove) : (setGrove s g x).msgs = s.msgs := rfl
@[simp] theorem setGrove_ackQ (s : State) (g : Nat) (x : Grove) : (setGrove s g x).ackQ = s.ackQ := rfl
@[simp] theorem setGrove_pends (s : State) (g : Nat) (x : Grove) : (setGrove s g x).pends = s.pends := rfl
@[simp] theorem setGrove_locked (s : State) (g : Nat) (x : Grove) : (setGrove s g x).locked = s.locked := rfl
@[simp] theorem setGrove_maints (s : State) (g : Nat) (x : Grove) : (setGrove s g x).maints = s.maints := rfl
@[simp] theorem setGrove_walks (s : State) (g : Nat) (x : Grove) : (setGrove s g x).walks = s.walks := rfl
@[simp] theorem setGrove_held (s : State) (g : Nat) (x : Grove) : (setGrove s g x).held = s.held := rfl
@[simp] theorem setGrove_cores (s : State) (g : Nat) (x : Grove) : (setGrove s g x).cores = s.cores := rfl
@[simp] theorem setGrove_warps (s : State) (g : Nat) (x : Grove) : (setGrove s g x).warps = s.warps := rfl
@[simp] theorem setGrove_threads (s : State) (g : Nat) (x : Grove) : (setGrove s g x).threads = s.threads := rfl
@[simp] theorem setGrove_teams (s : State) (g : Nat) (x : Grove) : (setGrove s g x).teams = s.teams := rfl
@[simp] theorem setGrove_groveSeq (s : State) (g : Nat) (x : Grove) : (setGrove s g x).groveSeq = s.groveSeq := rfl
@[simp] theorem setGrove_lineUses (s : State) (g : Nat) (x : Grove) : (setGrove s g x).lineUses = s.lineUses := rfl
@[simp] theorem setGrove_launches (s : State) (g : Nat) (x : Grove) : (setGrove s g x).launches = s.launches := rfl
@[simp] theorem setGrove_asids (s : State) (g : Nat) (x : Grove) : (setGrove s g x).asids = s.asids := rfl
@[simp] theorem setGrove_encls (s : State) (g : Nat) (x : Grove) : (setGrove s g x).encls = s.encls := rfl
@[simp] theorem setGrove_keys (s : State) (g : Nat) (x : Grove) : (setGrove s g x).keys = s.keys := rfl
@[simp] theorem setGrove_pot (s : State) (g : Nat) (x : Grove) : (setGrove s g x).pot = s.pot := rfl
@[simp] theorem setGrove_ranges (s : State) (g : Nat) (x : Grove) : (setGrove s g x).ranges = s.ranges := rfl
@[simp] theorem setGrove_protos (s : State) (g : Nat) (x : Grove) : (setGrove s g x).protos = s.protos := rfl
@[simp] theorem setGrove_rowan (s : State) (g : Nat) (x : Grove) : (setGrove s g x).rowan = s.rowan := rfl
@[simp] theorem setGrove_parts (s : State) (g : Nat) (x : Grove) : (setGrove s g x).parts = s.parts := rfl
@[simp] theorem setGrove_lateLaunches (s : State) (g : Nat) (x : Grove) : (setGrove s g x).lateLaunches = s.lateLaunches := rfl
@[simp] theorem setGrove_harts (s : State) (g : Nat) (x : Grove) : (setGrove s g x).harts = s.harts := rfl
@[simp] theorem setGrove_heather (s : State) (g : Nat) (x : Grove) : (setGrove s g x).heather = s.heather := rfl
@[simp] theorem setGrove_hwSlots (s : State) (g : Nat) (x : Grove) : (setGrove s g x).hwSlots = s.hwSlots := rfl
@[simp] theorem setGrove_unmapped (s : State) (g : Nat) (x : Grove) : (setGrove s g x).unmapped = s.unmapped := rfl
@[simp] theorem setGrove_boot (s : State) (g : Nat) (x : Grove) : (setGrove s g x).boot = s.boot := rfl
@[simp] theorem setGrove_fuses (s : State) (g : Nat) (x : Grove) : (setGrove s g x).fuses = s.fuses := rfl
@[simp] theorem setGrove_spdm (s : State) (g : Nat) (x : Grove) : (setGrove s g x).spdm = s.spdm := rfl
@[simp] theorem setGrove_host (s : State) (g : Nat) (x : Grove) : (setGrove s g x).host = s.host := rfl
@[simp] theorem setGrove_ret (s : State) (g : Nat) (x : Grove) : (setGrove s g x).ret = s.ret := rfl
@[simp] theorem setGrove_groves (s : State) (g : Nat) (x : Grove) : (setGrove s g x).groves = smPut s.groves g x := rfl

/-! ### setPart -/

@[simp] theorem setPart_turn (s : State) (p : Nat) (x : Partition) : (setPart s p x).turn = s.turn := rfl
@[simp] theorem setPart_inbox (s : State) (p : Nat) (x : Partition) : (setPart s p x).inbox = s.inbox := rfl
@[simp] theorem setPart_n (s : State) (p : Nat) (x : Partition) : (setPart s p x).n = s.n := rfl
@[simp] theorem setPart_clock (s : State) (p : Nat) (x : Partition) : (setPart s p x).clock = s.clock := rfl
@[simp] theorem setPart_refills (s : State) (p : Nat) (x : Partition) : (setPart s p x).refills = s.refills := rfl
@[simp] theorem setPart_slices (s : State) (p : Nat) (x : Partition) : (setPart s p x).slices = s.slices := rfl
@[simp] theorem setPart_mem (s : State) (p : Nat) (x : Partition) : (setPart s p x).mem = s.mem := rfl
@[simp] theorem setPart_stale (s : State) (p : Nat) (x : Partition) : (setPart s p x).stale = s.stale := rfl
@[simp] theorem setPart_poison (s : State) (p : Nat) (x : Partition) : (setPart s p x).poison = s.poison := rfl
@[simp] theorem setPart_raw (s : State) (p : Nat) (x : Partition) : (setPart s p x).raw = s.raw := rfl
@[simp] theorem setPart_spoilt (s : State) (p : Nat) (x : Partition) : (setPart s p x).spoilt = s.spoilt := rfl
@[simp] theorem setPart_stamps (s : State) (p : Nat) (x : Partition) : (setPart s p x).stamps = s.stamps := rfl
@[simp] theorem setPart_imgKeys (s : State) (p : Nat) (x : Partition) : (setPart s p x).imgKeys = s.imgKeys := rfl
@[simp] theorem setPart_lost (s : State) (p : Nat) (x : Partition) : (setPart s p x).lost = s.lost := rfl
@[simp] theorem setPart_ecc (s : State) (p : Nat) (x : Partition) : (setPart s p x).ecc = s.ecc := rfl
@[simp] theorem setPart_dir (s : State) (p : Nat) (x : Partition) : (setPart s p x).dir = s.dir := rfl
@[simp] theorem setPart_proxies (s : State) (p : Nat) (x : Partition) : (setPart s p x).proxies = s.proxies := rfl
@[simp] theorem setPart_sent (s : State) (p : Nat) (x : Partition) : (setPart s p x).sent = s.sent := rfl
@[simp] theorem setPart_reqs (s : State) (p : Nat) (x : Partition) : (setPart s p x).reqs = s.reqs := rfl
@[simp] theorem setPart_heldReqs (s : State) (p : Nat) (x : Partition) : (setPart s p x).heldReqs = s.heldReqs := rfl
@[simp] theorem setPart_msgs (s : State) (p : Nat) (x : Partition) : (setPart s p x).msgs = s.msgs := rfl
@[simp] theorem setPart_ackQ (s : State) (p : Nat) (x : Partition) : (setPart s p x).ackQ = s.ackQ := rfl
@[simp] theorem setPart_pends (s : State) (p : Nat) (x : Partition) : (setPart s p x).pends = s.pends := rfl
@[simp] theorem setPart_locked (s : State) (p : Nat) (x : Partition) : (setPart s p x).locked = s.locked := rfl
@[simp] theorem setPart_maints (s : State) (p : Nat) (x : Partition) : (setPart s p x).maints = s.maints := rfl
@[simp] theorem setPart_walks (s : State) (p : Nat) (x : Partition) : (setPart s p x).walks = s.walks := rfl
@[simp] theorem setPart_held (s : State) (p : Nat) (x : Partition) : (setPart s p x).held = s.held := rfl
@[simp] theorem setPart_cores (s : State) (p : Nat) (x : Partition) : (setPart s p x).cores = s.cores := rfl
@[simp] theorem setPart_warps (s : State) (p : Nat) (x : Partition) : (setPart s p x).warps = s.warps := rfl
@[simp] theorem setPart_threads (s : State) (p : Nat) (x : Partition) : (setPart s p x).threads = s.threads := rfl
@[simp] theorem setPart_teams (s : State) (p : Nat) (x : Partition) : (setPart s p x).teams = s.teams := rfl
@[simp] theorem setPart_groves (s : State) (p : Nat) (x : Partition) : (setPart s p x).groves = s.groves := rfl
@[simp] theorem setPart_groveSeq (s : State) (p : Nat) (x : Partition) : (setPart s p x).groveSeq = s.groveSeq := rfl
@[simp] theorem setPart_lineUses (s : State) (p : Nat) (x : Partition) : (setPart s p x).lineUses = s.lineUses := rfl
@[simp] theorem setPart_launches (s : State) (p : Nat) (x : Partition) : (setPart s p x).launches = s.launches := rfl
@[simp] theorem setPart_asids (s : State) (p : Nat) (x : Partition) : (setPart s p x).asids = s.asids := rfl
@[simp] theorem setPart_encls (s : State) (p : Nat) (x : Partition) : (setPart s p x).encls = s.encls := rfl
@[simp] theorem setPart_keys (s : State) (p : Nat) (x : Partition) : (setPart s p x).keys = s.keys := rfl
@[simp] theorem setPart_pot (s : State) (p : Nat) (x : Partition) : (setPart s p x).pot = s.pot := rfl
@[simp] theorem setPart_ranges (s : State) (p : Nat) (x : Partition) : (setPart s p x).ranges = s.ranges := rfl
@[simp] theorem setPart_protos (s : State) (p : Nat) (x : Partition) : (setPart s p x).protos = s.protos := rfl
@[simp] theorem setPart_rowan (s : State) (p : Nat) (x : Partition) : (setPart s p x).rowan = s.rowan := rfl
@[simp] theorem setPart_lateLaunches (s : State) (p : Nat) (x : Partition) : (setPart s p x).lateLaunches = s.lateLaunches := rfl
@[simp] theorem setPart_harts (s : State) (p : Nat) (x : Partition) : (setPart s p x).harts = s.harts := rfl
@[simp] theorem setPart_heather (s : State) (p : Nat) (x : Partition) : (setPart s p x).heather = s.heather := rfl
@[simp] theorem setPart_hwSlots (s : State) (p : Nat) (x : Partition) : (setPart s p x).hwSlots = s.hwSlots := rfl
@[simp] theorem setPart_unmapped (s : State) (p : Nat) (x : Partition) : (setPart s p x).unmapped = s.unmapped := rfl
@[simp] theorem setPart_boot (s : State) (p : Nat) (x : Partition) : (setPart s p x).boot = s.boot := rfl
@[simp] theorem setPart_fuses (s : State) (p : Nat) (x : Partition) : (setPart s p x).fuses = s.fuses := rfl
@[simp] theorem setPart_spdm (s : State) (p : Nat) (x : Partition) : (setPart s p x).spdm = s.spdm := rfl
@[simp] theorem setPart_host (s : State) (p : Nat) (x : Partition) : (setPart s p x).host = s.host := rfl
@[simp] theorem setPart_ret (s : State) (p : Nat) (x : Partition) : (setPart s p x).ret = s.ret := rfl
@[simp] theorem setPart_parts (s : State) (p : Nat) (x : Partition) : (setPart s p x).parts = smPut s.parts p x := rfl

/-! ### setEncl -/

@[simp] theorem setEncl_turn (s : State) (e : Nat) (x : Enclave) : (setEncl s e x).turn = s.turn := rfl
@[simp] theorem setEncl_inbox (s : State) (e : Nat) (x : Enclave) : (setEncl s e x).inbox = s.inbox := rfl
@[simp] theorem setEncl_n (s : State) (e : Nat) (x : Enclave) : (setEncl s e x).n = s.n := rfl
@[simp] theorem setEncl_clock (s : State) (e : Nat) (x : Enclave) : (setEncl s e x).clock = s.clock := rfl
@[simp] theorem setEncl_refills (s : State) (e : Nat) (x : Enclave) : (setEncl s e x).refills = s.refills := rfl
@[simp] theorem setEncl_slices (s : State) (e : Nat) (x : Enclave) : (setEncl s e x).slices = s.slices := rfl
@[simp] theorem setEncl_mem (s : State) (e : Nat) (x : Enclave) : (setEncl s e x).mem = s.mem := rfl
@[simp] theorem setEncl_stale (s : State) (e : Nat) (x : Enclave) : (setEncl s e x).stale = s.stale := rfl
@[simp] theorem setEncl_poison (s : State) (e : Nat) (x : Enclave) : (setEncl s e x).poison = s.poison := rfl
@[simp] theorem setEncl_raw (s : State) (e : Nat) (x : Enclave) : (setEncl s e x).raw = s.raw := rfl
@[simp] theorem setEncl_spoilt (s : State) (e : Nat) (x : Enclave) : (setEncl s e x).spoilt = s.spoilt := rfl
@[simp] theorem setEncl_stamps (s : State) (e : Nat) (x : Enclave) : (setEncl s e x).stamps = s.stamps := rfl
@[simp] theorem setEncl_imgKeys (s : State) (e : Nat) (x : Enclave) : (setEncl s e x).imgKeys = s.imgKeys := rfl
@[simp] theorem setEncl_lost (s : State) (e : Nat) (x : Enclave) : (setEncl s e x).lost = s.lost := rfl
@[simp] theorem setEncl_ecc (s : State) (e : Nat) (x : Enclave) : (setEncl s e x).ecc = s.ecc := rfl
@[simp] theorem setEncl_dir (s : State) (e : Nat) (x : Enclave) : (setEncl s e x).dir = s.dir := rfl
@[simp] theorem setEncl_proxies (s : State) (e : Nat) (x : Enclave) : (setEncl s e x).proxies = s.proxies := rfl
@[simp] theorem setEncl_sent (s : State) (e : Nat) (x : Enclave) : (setEncl s e x).sent = s.sent := rfl
@[simp] theorem setEncl_reqs (s : State) (e : Nat) (x : Enclave) : (setEncl s e x).reqs = s.reqs := rfl
@[simp] theorem setEncl_heldReqs (s : State) (e : Nat) (x : Enclave) : (setEncl s e x).heldReqs = s.heldReqs := rfl
@[simp] theorem setEncl_msgs (s : State) (e : Nat) (x : Enclave) : (setEncl s e x).msgs = s.msgs := rfl
@[simp] theorem setEncl_ackQ (s : State) (e : Nat) (x : Enclave) : (setEncl s e x).ackQ = s.ackQ := rfl
@[simp] theorem setEncl_pends (s : State) (e : Nat) (x : Enclave) : (setEncl s e x).pends = s.pends := rfl
@[simp] theorem setEncl_locked (s : State) (e : Nat) (x : Enclave) : (setEncl s e x).locked = s.locked := rfl
@[simp] theorem setEncl_maints (s : State) (e : Nat) (x : Enclave) : (setEncl s e x).maints = s.maints := rfl
@[simp] theorem setEncl_walks (s : State) (e : Nat) (x : Enclave) : (setEncl s e x).walks = s.walks := rfl
@[simp] theorem setEncl_held (s : State) (e : Nat) (x : Enclave) : (setEncl s e x).held = s.held := rfl
@[simp] theorem setEncl_cores (s : State) (e : Nat) (x : Enclave) : (setEncl s e x).cores = s.cores := rfl
@[simp] theorem setEncl_warps (s : State) (e : Nat) (x : Enclave) : (setEncl s e x).warps = s.warps := rfl
@[simp] theorem setEncl_threads (s : State) (e : Nat) (x : Enclave) : (setEncl s e x).threads = s.threads := rfl
@[simp] theorem setEncl_teams (s : State) (e : Nat) (x : Enclave) : (setEncl s e x).teams = s.teams := rfl
@[simp] theorem setEncl_groves (s : State) (e : Nat) (x : Enclave) : (setEncl s e x).groves = s.groves := rfl
@[simp] theorem setEncl_groveSeq (s : State) (e : Nat) (x : Enclave) : (setEncl s e x).groveSeq = s.groveSeq := rfl
@[simp] theorem setEncl_lineUses (s : State) (e : Nat) (x : Enclave) : (setEncl s e x).lineUses = s.lineUses := rfl
@[simp] theorem setEncl_launches (s : State) (e : Nat) (x : Enclave) : (setEncl s e x).launches = s.launches := rfl
@[simp] theorem setEncl_asids (s : State) (e : Nat) (x : Enclave) : (setEncl s e x).asids = s.asids := rfl
@[simp] theorem setEncl_keys (s : State) (e : Nat) (x : Enclave) : (setEncl s e x).keys = s.keys := rfl
@[simp] theorem setEncl_pot (s : State) (e : Nat) (x : Enclave) : (setEncl s e x).pot = s.pot := rfl
@[simp] theorem setEncl_ranges (s : State) (e : Nat) (x : Enclave) : (setEncl s e x).ranges = s.ranges := rfl
@[simp] theorem setEncl_protos (s : State) (e : Nat) (x : Enclave) : (setEncl s e x).protos = s.protos := rfl
@[simp] theorem setEncl_rowan (s : State) (e : Nat) (x : Enclave) : (setEncl s e x).rowan = s.rowan := rfl
@[simp] theorem setEncl_parts (s : State) (e : Nat) (x : Enclave) : (setEncl s e x).parts = s.parts := rfl
@[simp] theorem setEncl_lateLaunches (s : State) (e : Nat) (x : Enclave) : (setEncl s e x).lateLaunches = s.lateLaunches := rfl
@[simp] theorem setEncl_harts (s : State) (e : Nat) (x : Enclave) : (setEncl s e x).harts = s.harts := rfl
@[simp] theorem setEncl_heather (s : State) (e : Nat) (x : Enclave) : (setEncl s e x).heather = s.heather := rfl
@[simp] theorem setEncl_hwSlots (s : State) (e : Nat) (x : Enclave) : (setEncl s e x).hwSlots = s.hwSlots := rfl
@[simp] theorem setEncl_unmapped (s : State) (e : Nat) (x : Enclave) : (setEncl s e x).unmapped = s.unmapped := rfl
@[simp] theorem setEncl_boot (s : State) (e : Nat) (x : Enclave) : (setEncl s e x).boot = s.boot := rfl
@[simp] theorem setEncl_fuses (s : State) (e : Nat) (x : Enclave) : (setEncl s e x).fuses = s.fuses := rfl
@[simp] theorem setEncl_spdm (s : State) (e : Nat) (x : Enclave) : (setEncl s e x).spdm = s.spdm := rfl
@[simp] theorem setEncl_host (s : State) (e : Nat) (x : Enclave) : (setEncl s e x).host = s.host := rfl
@[simp] theorem setEncl_ret (s : State) (e : Nat) (x : Enclave) : (setEncl s e x).ret = s.ret := rfl
@[simp] theorem setEncl_encls (s : State) (e : Nat) (x : Enclave) : (setEncl s e x).encls = smPut s.encls e x := rfl

/-! ### setHart -/

@[simp] theorem setHart_turn (s : State) (h : Nat) (x : Hart) : (setHart s h x).turn = s.turn := rfl
@[simp] theorem setHart_inbox (s : State) (h : Nat) (x : Hart) : (setHart s h x).inbox = s.inbox := rfl
@[simp] theorem setHart_n (s : State) (h : Nat) (x : Hart) : (setHart s h x).n = s.n := rfl
@[simp] theorem setHart_clock (s : State) (h : Nat) (x : Hart) : (setHart s h x).clock = s.clock := rfl
@[simp] theorem setHart_refills (s : State) (h : Nat) (x : Hart) : (setHart s h x).refills = s.refills := rfl
@[simp] theorem setHart_slices (s : State) (h : Nat) (x : Hart) : (setHart s h x).slices = s.slices := rfl
@[simp] theorem setHart_mem (s : State) (h : Nat) (x : Hart) : (setHart s h x).mem = s.mem := rfl
@[simp] theorem setHart_stale (s : State) (h : Nat) (x : Hart) : (setHart s h x).stale = s.stale := rfl
@[simp] theorem setHart_poison (s : State) (h : Nat) (x : Hart) : (setHart s h x).poison = s.poison := rfl
@[simp] theorem setHart_raw (s : State) (h : Nat) (x : Hart) : (setHart s h x).raw = s.raw := rfl
@[simp] theorem setHart_spoilt (s : State) (h : Nat) (x : Hart) : (setHart s h x).spoilt = s.spoilt := rfl
@[simp] theorem setHart_stamps (s : State) (h : Nat) (x : Hart) : (setHart s h x).stamps = s.stamps := rfl
@[simp] theorem setHart_imgKeys (s : State) (h : Nat) (x : Hart) : (setHart s h x).imgKeys = s.imgKeys := rfl
@[simp] theorem setHart_lost (s : State) (h : Nat) (x : Hart) : (setHart s h x).lost = s.lost := rfl
@[simp] theorem setHart_ecc (s : State) (h : Nat) (x : Hart) : (setHart s h x).ecc = s.ecc := rfl
@[simp] theorem setHart_dir (s : State) (h : Nat) (x : Hart) : (setHart s h x).dir = s.dir := rfl
@[simp] theorem setHart_proxies (s : State) (h : Nat) (x : Hart) : (setHart s h x).proxies = s.proxies := rfl
@[simp] theorem setHart_sent (s : State) (h : Nat) (x : Hart) : (setHart s h x).sent = s.sent := rfl
@[simp] theorem setHart_reqs (s : State) (h : Nat) (x : Hart) : (setHart s h x).reqs = s.reqs := rfl
@[simp] theorem setHart_heldReqs (s : State) (h : Nat) (x : Hart) : (setHart s h x).heldReqs = s.heldReqs := rfl
@[simp] theorem setHart_msgs (s : State) (h : Nat) (x : Hart) : (setHart s h x).msgs = s.msgs := rfl
@[simp] theorem setHart_ackQ (s : State) (h : Nat) (x : Hart) : (setHart s h x).ackQ = s.ackQ := rfl
@[simp] theorem setHart_pends (s : State) (h : Nat) (x : Hart) : (setHart s h x).pends = s.pends := rfl
@[simp] theorem setHart_locked (s : State) (h : Nat) (x : Hart) : (setHart s h x).locked = s.locked := rfl
@[simp] theorem setHart_maints (s : State) (h : Nat) (x : Hart) : (setHart s h x).maints = s.maints := rfl
@[simp] theorem setHart_walks (s : State) (h : Nat) (x : Hart) : (setHart s h x).walks = s.walks := rfl
@[simp] theorem setHart_held (s : State) (h : Nat) (x : Hart) : (setHart s h x).held = s.held := rfl
@[simp] theorem setHart_cores (s : State) (h : Nat) (x : Hart) : (setHart s h x).cores = s.cores := rfl
@[simp] theorem setHart_warps (s : State) (h : Nat) (x : Hart) : (setHart s h x).warps = s.warps := rfl
@[simp] theorem setHart_threads (s : State) (h : Nat) (x : Hart) : (setHart s h x).threads = s.threads := rfl
@[simp] theorem setHart_teams (s : State) (h : Nat) (x : Hart) : (setHart s h x).teams = s.teams := rfl
@[simp] theorem setHart_groves (s : State) (h : Nat) (x : Hart) : (setHart s h x).groves = s.groves := rfl
@[simp] theorem setHart_groveSeq (s : State) (h : Nat) (x : Hart) : (setHart s h x).groveSeq = s.groveSeq := rfl
@[simp] theorem setHart_lineUses (s : State) (h : Nat) (x : Hart) : (setHart s h x).lineUses = s.lineUses := rfl
@[simp] theorem setHart_launches (s : State) (h : Nat) (x : Hart) : (setHart s h x).launches = s.launches := rfl
@[simp] theorem setHart_asids (s : State) (h : Nat) (x : Hart) : (setHart s h x).asids = s.asids := rfl
@[simp] theorem setHart_encls (s : State) (h : Nat) (x : Hart) : (setHart s h x).encls = s.encls := rfl
@[simp] theorem setHart_keys (s : State) (h : Nat) (x : Hart) : (setHart s h x).keys = s.keys := rfl
@[simp] theorem setHart_pot (s : State) (h : Nat) (x : Hart) : (setHart s h x).pot = s.pot := rfl
@[simp] theorem setHart_ranges (s : State) (h : Nat) (x : Hart) : (setHart s h x).ranges = s.ranges := rfl
@[simp] theorem setHart_protos (s : State) (h : Nat) (x : Hart) : (setHart s h x).protos = s.protos := rfl
@[simp] theorem setHart_rowan (s : State) (h : Nat) (x : Hart) : (setHart s h x).rowan = s.rowan := rfl
@[simp] theorem setHart_parts (s : State) (h : Nat) (x : Hart) : (setHart s h x).parts = s.parts := rfl
@[simp] theorem setHart_lateLaunches (s : State) (h : Nat) (x : Hart) : (setHart s h x).lateLaunches = s.lateLaunches := rfl
@[simp] theorem setHart_heather (s : State) (h : Nat) (x : Hart) : (setHart s h x).heather = s.heather := rfl
@[simp] theorem setHart_hwSlots (s : State) (h : Nat) (x : Hart) : (setHart s h x).hwSlots = s.hwSlots := rfl
@[simp] theorem setHart_unmapped (s : State) (h : Nat) (x : Hart) : (setHart s h x).unmapped = s.unmapped := rfl
@[simp] theorem setHart_boot (s : State) (h : Nat) (x : Hart) : (setHart s h x).boot = s.boot := rfl
@[simp] theorem setHart_fuses (s : State) (h : Nat) (x : Hart) : (setHart s h x).fuses = s.fuses := rfl
@[simp] theorem setHart_spdm (s : State) (h : Nat) (x : Hart) : (setHart s h x).spdm = s.spdm := rfl
@[simp] theorem setHart_host (s : State) (h : Nat) (x : Hart) : (setHart s h x).host = s.host := rfl
@[simp] theorem setHart_ret (s : State) (h : Nat) (x : Hart) : (setHart s h x).ret = s.ret := rfl
@[simp] theorem setHart_harts (s : State) (h : Nat) (x : Hart) : (setHart s h x).harts = smPut s.harts h x := rfl

/-! ### setHeather -/

@[simp] theorem setHeather_turn (s : State) (i : Nat) (x : Heather) : (setHeather s i x).turn = s.turn := rfl
@[simp] theorem setHeather_inbox (s : State) (i : Nat) (x : Heather) : (setHeather s i x).inbox = s.inbox := rfl
@[simp] theorem setHeather_n (s : State) (i : Nat) (x : Heather) : (setHeather s i x).n = s.n := rfl
@[simp] theorem setHeather_clock (s : State) (i : Nat) (x : Heather) : (setHeather s i x).clock = s.clock := rfl
@[simp] theorem setHeather_refills (s : State) (i : Nat) (x : Heather) : (setHeather s i x).refills = s.refills := rfl
@[simp] theorem setHeather_slices (s : State) (i : Nat) (x : Heather) : (setHeather s i x).slices = s.slices := rfl
@[simp] theorem setHeather_mem (s : State) (i : Nat) (x : Heather) : (setHeather s i x).mem = s.mem := rfl
@[simp] theorem setHeather_stale (s : State) (i : Nat) (x : Heather) : (setHeather s i x).stale = s.stale := rfl
@[simp] theorem setHeather_poison (s : State) (i : Nat) (x : Heather) : (setHeather s i x).poison = s.poison := rfl
@[simp] theorem setHeather_raw (s : State) (i : Nat) (x : Heather) : (setHeather s i x).raw = s.raw := rfl
@[simp] theorem setHeather_spoilt (s : State) (i : Nat) (x : Heather) : (setHeather s i x).spoilt = s.spoilt := rfl
@[simp] theorem setHeather_stamps (s : State) (i : Nat) (x : Heather) : (setHeather s i x).stamps = s.stamps := rfl
@[simp] theorem setHeather_imgKeys (s : State) (i : Nat) (x : Heather) : (setHeather s i x).imgKeys = s.imgKeys := rfl
@[simp] theorem setHeather_lost (s : State) (i : Nat) (x : Heather) : (setHeather s i x).lost = s.lost := rfl
@[simp] theorem setHeather_ecc (s : State) (i : Nat) (x : Heather) : (setHeather s i x).ecc = s.ecc := rfl
@[simp] theorem setHeather_dir (s : State) (i : Nat) (x : Heather) : (setHeather s i x).dir = s.dir := rfl
@[simp] theorem setHeather_proxies (s : State) (i : Nat) (x : Heather) : (setHeather s i x).proxies = s.proxies := rfl
@[simp] theorem setHeather_sent (s : State) (i : Nat) (x : Heather) : (setHeather s i x).sent = s.sent := rfl
@[simp] theorem setHeather_reqs (s : State) (i : Nat) (x : Heather) : (setHeather s i x).reqs = s.reqs := rfl
@[simp] theorem setHeather_heldReqs (s : State) (i : Nat) (x : Heather) : (setHeather s i x).heldReqs = s.heldReqs := rfl
@[simp] theorem setHeather_msgs (s : State) (i : Nat) (x : Heather) : (setHeather s i x).msgs = s.msgs := rfl
@[simp] theorem setHeather_ackQ (s : State) (i : Nat) (x : Heather) : (setHeather s i x).ackQ = s.ackQ := rfl
@[simp] theorem setHeather_pends (s : State) (i : Nat) (x : Heather) : (setHeather s i x).pends = s.pends := rfl
@[simp] theorem setHeather_locked (s : State) (i : Nat) (x : Heather) : (setHeather s i x).locked = s.locked := rfl
@[simp] theorem setHeather_maints (s : State) (i : Nat) (x : Heather) : (setHeather s i x).maints = s.maints := rfl
@[simp] theorem setHeather_walks (s : State) (i : Nat) (x : Heather) : (setHeather s i x).walks = s.walks := rfl
@[simp] theorem setHeather_held (s : State) (i : Nat) (x : Heather) : (setHeather s i x).held = s.held := rfl
@[simp] theorem setHeather_cores (s : State) (i : Nat) (x : Heather) : (setHeather s i x).cores = s.cores := rfl
@[simp] theorem setHeather_warps (s : State) (i : Nat) (x : Heather) : (setHeather s i x).warps = s.warps := rfl
@[simp] theorem setHeather_threads (s : State) (i : Nat) (x : Heather) : (setHeather s i x).threads = s.threads := rfl
@[simp] theorem setHeather_teams (s : State) (i : Nat) (x : Heather) : (setHeather s i x).teams = s.teams := rfl
@[simp] theorem setHeather_groves (s : State) (i : Nat) (x : Heather) : (setHeather s i x).groves = s.groves := rfl
@[simp] theorem setHeather_groveSeq (s : State) (i : Nat) (x : Heather) : (setHeather s i x).groveSeq = s.groveSeq := rfl
@[simp] theorem setHeather_lineUses (s : State) (i : Nat) (x : Heather) : (setHeather s i x).lineUses = s.lineUses := rfl
@[simp] theorem setHeather_launches (s : State) (i : Nat) (x : Heather) : (setHeather s i x).launches = s.launches := rfl
@[simp] theorem setHeather_asids (s : State) (i : Nat) (x : Heather) : (setHeather s i x).asids = s.asids := rfl
@[simp] theorem setHeather_encls (s : State) (i : Nat) (x : Heather) : (setHeather s i x).encls = s.encls := rfl
@[simp] theorem setHeather_keys (s : State) (i : Nat) (x : Heather) : (setHeather s i x).keys = s.keys := rfl
@[simp] theorem setHeather_pot (s : State) (i : Nat) (x : Heather) : (setHeather s i x).pot = s.pot := rfl
@[simp] theorem setHeather_ranges (s : State) (i : Nat) (x : Heather) : (setHeather s i x).ranges = s.ranges := rfl
@[simp] theorem setHeather_protos (s : State) (i : Nat) (x : Heather) : (setHeather s i x).protos = s.protos := rfl
@[simp] theorem setHeather_rowan (s : State) (i : Nat) (x : Heather) : (setHeather s i x).rowan = s.rowan := rfl
@[simp] theorem setHeather_parts (s : State) (i : Nat) (x : Heather) : (setHeather s i x).parts = s.parts := rfl
@[simp] theorem setHeather_lateLaunches (s : State) (i : Nat) (x : Heather) : (setHeather s i x).lateLaunches = s.lateLaunches := rfl
@[simp] theorem setHeather_harts (s : State) (i : Nat) (x : Heather) : (setHeather s i x).harts = s.harts := rfl
@[simp] theorem setHeather_hwSlots (s : State) (i : Nat) (x : Heather) : (setHeather s i x).hwSlots = s.hwSlots := rfl
@[simp] theorem setHeather_unmapped (s : State) (i : Nat) (x : Heather) : (setHeather s i x).unmapped = s.unmapped := rfl
@[simp] theorem setHeather_boot (s : State) (i : Nat) (x : Heather) : (setHeather s i x).boot = s.boot := rfl
@[simp] theorem setHeather_fuses (s : State) (i : Nat) (x : Heather) : (setHeather s i x).fuses = s.fuses := rfl
@[simp] theorem setHeather_spdm (s : State) (i : Nat) (x : Heather) : (setHeather s i x).spdm = s.spdm := rfl
@[simp] theorem setHeather_host (s : State) (i : Nat) (x : Heather) : (setHeather s i x).host = s.host := rfl
@[simp] theorem setHeather_ret (s : State) (i : Nat) (x : Heather) : (setHeather s i x).ret = s.ret := rfl
@[simp] theorem setHeather_heather (s : State) (i : Nat) (x : Heather) : (setHeather s i x).heather = smPut s.heather i x := rfl

/-! ### Changes are writes -/

@[simp] theorem modTh_eq (s : State) (t : Nat) (f : Thread → Thread) : modTh s t f = setTh s t (f (getTh s t)) := rfl
@[simp] theorem modWarp_eq (s : State) (t : Nat) (f : Warp → Warp) : modWarp s t f = setWarp s t (f (getWarp s t)) := rfl
@[simp] theorem modTeam_eq (s : State) (t : Nat) (f : Team → Team) : modTeam s t f = setTeam s t (f (getTeam s t)) := rfl
@[simp] theorem modCore_eq (s : State) (t : Nat) (f : Core → Core) : modCore s t f = setCore s t (f (getCore s t)) := rfl
@[simp] theorem modPart_eq (s : State) (t : Nat) (f : Partition → Partition) : modPart s t f = setPart s t (f (getPart s t)) := rfl

/-! ### Reading after writing -/

@[simp] theorem getTh_setTh (s : State) (t : Nat) (x : Thread) (j : Nat) : getTh (setTh s t x) j = if j = t then x else getTh s j := by
  simp [getTh]
@[simp] theorem getTh_setWarp (s : State) (w : Nat) (x : Warp) (j : Nat) : getTh (setWarp s w x) j = getTh s j := rfl
@[simp] theorem getTh_setTeam (s : State) (k : Nat) (x : Team) (j : Nat) : getTh (setTeam s k x) j = getTh s j := rfl
@[simp] theorem getTh_setCore (s : State) (c : Nat) (x : Core) (j : Nat) : getTh (setCore s c x) j = getTh s j := rfl
@[simp] theorem getTh_setGrove (s : State) (g : Nat) (x : Grove) (j : Nat) : getTh (setGrove s g x) j = getTh s j := rfl
@[simp] theorem getTh_setPart (s : State) (p : Nat) (x : Partition) (j : Nat) : getTh (setPart s p x) j = getTh s j := rfl
@[simp] theorem getTh_setEncl (s : State) (e : Nat) (x : Enclave) (j : Nat) : getTh (setEncl s e x) j = getTh s j := rfl
@[simp] theorem getTh_setHart (s : State) (h : Nat) (x : Hart) (j : Nat) : getTh (setHart s h x) j = getTh s j := rfl
@[simp] theorem getTh_setHeather (s : State) (i : Nat) (x : Heather) (j : Nat) : getTh (setHeather s i x) j = getTh s j := rfl
@[simp] theorem getWarp_setTh (s : State) (t : Nat) (x : Thread) (j : Nat) : getWarp (setTh s t x) j = getWarp s j := rfl
@[simp] theorem getWarp_setWarp (s : State) (w : Nat) (x : Warp) (j : Nat) : getWarp (setWarp s w x) j = if j = w then x else getWarp s j := by
  simp [getWarp]
@[simp] theorem getWarp_setTeam (s : State) (k : Nat) (x : Team) (j : Nat) : getWarp (setTeam s k x) j = getWarp s j := rfl
@[simp] theorem getWarp_setCore (s : State) (c : Nat) (x : Core) (j : Nat) : getWarp (setCore s c x) j = getWarp s j := rfl
@[simp] theorem getWarp_setGrove (s : State) (g : Nat) (x : Grove) (j : Nat) : getWarp (setGrove s g x) j = getWarp s j := rfl
@[simp] theorem getWarp_setPart (s : State) (p : Nat) (x : Partition) (j : Nat) : getWarp (setPart s p x) j = getWarp s j := rfl
@[simp] theorem getWarp_setEncl (s : State) (e : Nat) (x : Enclave) (j : Nat) : getWarp (setEncl s e x) j = getWarp s j := rfl
@[simp] theorem getWarp_setHart (s : State) (h : Nat) (x : Hart) (j : Nat) : getWarp (setHart s h x) j = getWarp s j := rfl
@[simp] theorem getWarp_setHeather (s : State) (i : Nat) (x : Heather) (j : Nat) : getWarp (setHeather s i x) j = getWarp s j := rfl
@[simp] theorem getTeam_setTh (s : State) (t : Nat) (x : Thread) (j : Nat) : getTeam (setTh s t x) j = getTeam s j := rfl
@[simp] theorem getTeam_setWarp (s : State) (w : Nat) (x : Warp) (j : Nat) : getTeam (setWarp s w x) j = getTeam s j := rfl
@[simp] theorem getTeam_setTeam (s : State) (k : Nat) (x : Team) (j : Nat) : getTeam (setTeam s k x) j = if j = k then x else getTeam s j := by
  simp [getTeam]
@[simp] theorem getTeam_setCore (s : State) (c : Nat) (x : Core) (j : Nat) : getTeam (setCore s c x) j = getTeam s j := rfl
@[simp] theorem getTeam_setGrove (s : State) (g : Nat) (x : Grove) (j : Nat) : getTeam (setGrove s g x) j = getTeam s j := rfl
@[simp] theorem getTeam_setPart (s : State) (p : Nat) (x : Partition) (j : Nat) : getTeam (setPart s p x) j = getTeam s j := rfl
@[simp] theorem getTeam_setEncl (s : State) (e : Nat) (x : Enclave) (j : Nat) : getTeam (setEncl s e x) j = getTeam s j := rfl
@[simp] theorem getTeam_setHart (s : State) (h : Nat) (x : Hart) (j : Nat) : getTeam (setHart s h x) j = getTeam s j := rfl
@[simp] theorem getTeam_setHeather (s : State) (i : Nat) (x : Heather) (j : Nat) : getTeam (setHeather s i x) j = getTeam s j := rfl
@[simp] theorem getCore_setTh (s : State) (t : Nat) (x : Thread) (j : Nat) : getCore (setTh s t x) j = getCore s j := rfl
@[simp] theorem getCore_setWarp (s : State) (w : Nat) (x : Warp) (j : Nat) : getCore (setWarp s w x) j = getCore s j := rfl
@[simp] theorem getCore_setTeam (s : State) (k : Nat) (x : Team) (j : Nat) : getCore (setTeam s k x) j = getCore s j := rfl
@[simp] theorem getCore_setCore (s : State) (c : Nat) (x : Core) (j : Nat) : getCore (setCore s c x) j = if j = c then x else getCore s j := by
  simp [getCore]
@[simp] theorem getCore_setGrove (s : State) (g : Nat) (x : Grove) (j : Nat) : getCore (setGrove s g x) j = getCore s j := rfl
@[simp] theorem getCore_setPart (s : State) (p : Nat) (x : Partition) (j : Nat) : getCore (setPart s p x) j = getCore s j := rfl
@[simp] theorem getCore_setEncl (s : State) (e : Nat) (x : Enclave) (j : Nat) : getCore (setEncl s e x) j = getCore s j := rfl
@[simp] theorem getCore_setHart (s : State) (h : Nat) (x : Hart) (j : Nat) : getCore (setHart s h x) j = getCore s j := rfl
@[simp] theorem getCore_setHeather (s : State) (i : Nat) (x : Heather) (j : Nat) : getCore (setHeather s i x) j = getCore s j := rfl
@[simp] theorem getPart_setTh (s : State) (t : Nat) (x : Thread) (j : Nat) : getPart (setTh s t x) j = getPart s j := rfl
@[simp] theorem getPart_setWarp (s : State) (w : Nat) (x : Warp) (j : Nat) : getPart (setWarp s w x) j = getPart s j := rfl
@[simp] theorem getPart_setTeam (s : State) (k : Nat) (x : Team) (j : Nat) : getPart (setTeam s k x) j = getPart s j := rfl
@[simp] theorem getPart_setCore (s : State) (c : Nat) (x : Core) (j : Nat) : getPart (setCore s c x) j = getPart s j := rfl
@[simp] theorem getPart_setGrove (s : State) (g : Nat) (x : Grove) (j : Nat) : getPart (setGrove s g x) j = getPart s j := rfl
@[simp] theorem getPart_setPart (s : State) (p : Nat) (x : Partition) (j : Nat) : getPart (setPart s p x) j = if j = p then x else getPart s j := by
  simp [getPart]
@[simp] theorem getPart_setEncl (s : State) (e : Nat) (x : Enclave) (j : Nat) : getPart (setEncl s e x) j = getPart s j := rfl
@[simp] theorem getPart_setHart (s : State) (h : Nat) (x : Hart) (j : Nat) : getPart (setHart s h x) j = getPart s j := rfl
@[simp] theorem getPart_setHeather (s : State) (i : Nat) (x : Heather) (j : Nat) : getPart (setHeather s i x) j = getPart s j := rfl
@[simp] theorem getHart_setTh (s : State) (t : Nat) (x : Thread) (j : Nat) : getHart (setTh s t x) j = getHart s j := rfl
@[simp] theorem getHart_setWarp (s : State) (w : Nat) (x : Warp) (j : Nat) : getHart (setWarp s w x) j = getHart s j := rfl
@[simp] theorem getHart_setTeam (s : State) (k : Nat) (x : Team) (j : Nat) : getHart (setTeam s k x) j = getHart s j := rfl
@[simp] theorem getHart_setCore (s : State) (c : Nat) (x : Core) (j : Nat) : getHart (setCore s c x) j = getHart s j := rfl
@[simp] theorem getHart_setGrove (s : State) (g : Nat) (x : Grove) (j : Nat) : getHart (setGrove s g x) j = getHart s j := rfl
@[simp] theorem getHart_setPart (s : State) (p : Nat) (x : Partition) (j : Nat) : getHart (setPart s p x) j = getHart s j := rfl
@[simp] theorem getHart_setEncl (s : State) (e : Nat) (x : Enclave) (j : Nat) : getHart (setEncl s e x) j = getHart s j := rfl
@[simp] theorem getHart_setHart (s : State) (h : Nat) (x : Hart) (j : Nat) : getHart (setHart s h x) j = if j = h then x else getHart s j := by
  simp [getHart]
@[simp] theorem getHart_setHeather (s : State) (i : Nat) (x : Heather) (j : Nat) : getHart (setHeather s i x) j = getHart s j := rfl
@[simp] theorem getHeather_setTh (s : State) (t : Nat) (x : Thread) (j : Nat) : getHeather (setTh s t x) j = getHeather s j := rfl
@[simp] theorem getHeather_setWarp (s : State) (w : Nat) (x : Warp) (j : Nat) : getHeather (setWarp s w x) j = getHeather s j := rfl
@[simp] theorem getHeather_setTeam (s : State) (k : Nat) (x : Team) (j : Nat) : getHeather (setTeam s k x) j = getHeather s j := rfl
@[simp] theorem getHeather_setCore (s : State) (c : Nat) (x : Core) (j : Nat) : getHeather (setCore s c x) j = getHeather s j := rfl
@[simp] theorem getHeather_setGrove (s : State) (g : Nat) (x : Grove) (j : Nat) : getHeather (setGrove s g x) j = getHeather s j := rfl
@[simp] theorem getHeather_setPart (s : State) (p : Nat) (x : Partition) (j : Nat) : getHeather (setPart s p x) j = getHeather s j := rfl
@[simp] theorem getHeather_setEncl (s : State) (e : Nat) (x : Enclave) (j : Nat) : getHeather (setEncl s e x) j = getHeather s j := rfl
@[simp] theorem getHeather_setHart (s : State) (h : Nat) (x : Hart) (j : Nat) : getHeather (setHart s h x) j = getHeather s j := rfl
@[simp] theorem getHeather_setHeather (s : State) (i : Nat) (x : Heather) (j : Nat) : getHeather (setHeather s i x) j = if j = i then x else getHeather s j := by
  simp [getHeather]
@[simp] theorem getGrove_setTh (s : State) (t : Nat) (x : Thread) (j : Nat) : getGrove (setTh s t x) j = getGrove s j := rfl
@[simp] theorem getGrove_setWarp (s : State) (w : Nat) (x : Warp) (j : Nat) : getGrove (setWarp s w x) j = getGrove s j := rfl
@[simp] theorem getGrove_setTeam (s : State) (k : Nat) (x : Team) (j : Nat) : getGrove (setTeam s k x) j = getGrove s j := rfl
@[simp] theorem getGrove_setCore (s : State) (c : Nat) (x : Core) (j : Nat) : getGrove (setCore s c x) j = getGrove s j := rfl
@[simp] theorem getGrove_setGrove (s : State) (g : Nat) (x : Grove) (j : Nat) : getGrove (setGrove s g x) j = if j = g then some x else getGrove s j := by
  simp [getGrove]
@[simp] theorem getGrove_setPart (s : State) (p : Nat) (x : Partition) (j : Nat) : getGrove (setPart s p x) j = getGrove s j := rfl
@[simp] theorem getGrove_setEncl (s : State) (e : Nat) (x : Enclave) (j : Nat) : getGrove (setEncl s e x) j = getGrove s j := rfl
@[simp] theorem getGrove_setHart (s : State) (h : Nat) (x : Hart) (j : Nat) : getGrove (setHart s h x) j = getGrove s j := rfl
@[simp] theorem getGrove_setHeather (s : State) (i : Nat) (x : Heather) (j : Nat) : getGrove (setHeather s i x) j = getGrove s j := rfl
@[simp] theorem getEncl_setTh (s : State) (t : Nat) (x : Thread) (j : Nat) : getEncl (setTh s t x) j = getEncl s j := rfl
@[simp] theorem getEncl_setWarp (s : State) (w : Nat) (x : Warp) (j : Nat) : getEncl (setWarp s w x) j = getEncl s j := rfl
@[simp] theorem getEncl_setTeam (s : State) (k : Nat) (x : Team) (j : Nat) : getEncl (setTeam s k x) j = getEncl s j := rfl
@[simp] theorem getEncl_setCore (s : State) (c : Nat) (x : Core) (j : Nat) : getEncl (setCore s c x) j = getEncl s j := rfl
@[simp] theorem getEncl_setGrove (s : State) (g : Nat) (x : Grove) (j : Nat) : getEncl (setGrove s g x) j = getEncl s j := rfl
@[simp] theorem getEncl_setPart (s : State) (p : Nat) (x : Partition) (j : Nat) : getEncl (setPart s p x) j = getEncl s j := rfl
@[simp] theorem getEncl_setEncl (s : State) (e : Nat) (x : Enclave) (j : Nat) : getEncl (setEncl s e x) j = if j = e then some x else getEncl s j := by
  simp [getEncl]
@[simp] theorem getEncl_setHart (s : State) (h : Nat) (x : Hart) (j : Nat) : getEncl (setHart s h x) j = getEncl s j := rfl
@[simp] theorem getEncl_setHeather (s : State) (i : Nat) (x : Heather) (j : Nat) : getEncl (setHeather s i x) j = getEncl s j := rfl

end Sys2Proof.Machine
end

