-- ==== Sys2Proof/Laws/Issue.lean ====
section
/-! SUPPORT. What the issue of a word does: when it commits, and what the commit changes and leaves. -/
namespace Sys2Proof.Machine
-- One declaration at a time: each more thread of the compiler takes a stack out of the same memory.
set_option Elab.async false

/-! ### Registers -/

@[simp] theorem rdW_wrW (th : Thread) (r : Nat) (v : W32) (q : Nat) :
    rdW (wrW th r v) q = if q = r then v else rdW th q := by simp [rdW, wrW]

@[simp] theorem rdS_wrS (x : Warp) (r : Nat) (v : W64) (q : Nat) :
    rdS (wrS x r v) q = if q = r then v else rdS x q := by simp [rdS, wrS]

theorem rdP_wrP (th : Thread) (p q : Nat) (b : Bool) (hp : p < 7) (hq : q < 7) :
    rdP (wrP th p b) q = if q = p then b else rdP th q := by
  have hq7 : q ≠ 7 := by omega
  unfold rdP wrP
  rw [if_neg hq7, if_neg hq7]
  cases b
  · simp only [Bool.false_eq_true, if_false, BitVec.getLsbD_and, BitVec.getLsbD_not, BitVec.getLsbD_shiftLeft]
    split_ifs with h
    · subst h; simp [hq]
    · have : decide (q - p = 0) = decide (q ≤ p) := by simp; omega
      by_cases hlt : q < p
      · simp [hq, hlt]
      · have : q - p ≠ 0 := by omega
        simp [hq, hlt, this]
  · simp only [if_true, BitVec.getLsbD_or, BitVec.getLsbD_shiftLeft]
    split_ifs with h
    · subst h; simp [hq]
    · by_cases hlt : q < p
      · simp [hlt]
      · have : q - p ≠ 0 := by omega
        simp [hlt, this]

/-- A fold of register writes: the last one to a register is read back. -/
theorem rdW_foldl_wrW (l : List (Nat × W32)) : ∀ (th : Thread) (q : Nat),
    rdW (l.foldl (fun th x => wrW th x.1 x.2) th) q = (smFind? l.reverse q).getD (rdW th q) := by
  have key : ∀ (a b : List (Nat × W32)) (q : Nat) (d : W32),
      (smFind? (a ++ b) q).getD d = (smFind? a q).getD ((smFind? b q).getD d) := by
    intro a b q d
    induction a with
    | nil => rfl
    | cons c a ih => obtain ⟨k, v⟩ := c; by_cases h : q = k <;> simp_all
  induction l with
  | nil => intro th q; rfl
  | cons c l ih =>
    intro th q
    rw [List.foldl_cons, ih, List.reverse_cons, key]
    congr 1
    obtain ⟨k, v⟩ := c
    by_cases h : q = k <;> simp [h]

theorem foldl_wrW_same (l : List (Nat × W32)) : ∀ th : Thread, (l.foldl (fun th x => wrW th x.1 x.2) th).sameButWord th ∧
    (l.foldl (fun th x => wrW th x.1 x.2) th).pc = th.pc ∧ (l.foldl (fun th x => wrW th x.1 x.2) th).preds = th.preds ∧
    loopDepth (l.foldl (fun th x => wrW th x.1 x.2) th) = loopDepth th := by
  induction l with
  | nil => intro th; exact ⟨rfl, rfl, rfl, rfl⟩
  | cons c l ih =>
    intro th
    obtain ⟨h1, h2, h3, h4⟩ := ih (wrW th c.1 c.2)
    refine ⟨?_, h2, h3, h4⟩
    unfold Thread.sameButWord at h1 ⊢
    rw [List.foldl_cons]
    exact (congrArg (fun x : Thread => { x with regs := th.regs, poison := th.poison, dirty := th.dirty }) h1)

theorem Thread.sameButWord_rfl (x : Thread) : x.sameButWord x := rfl

theorem Thread.sameButWord_trans {x y z : Thread} (h1 : x.sameButWord y) (h2 : y.sameButWord z) : x.sameButWord z := by
  unfold Thread.sameButWord at *
  exact (congrArg (fun u : Thread =>
    { u with
      pc := z.pc, regs := z.regs, poison := z.poison, dirty := z.dirty, preds := z.preds, lc0 := z.lc0, lc1 := z.lc1
      lc2 := z.lc2, mq := z.mq, wait := z.wait, waitCount := z.waitCount, denied := z.denied, refused := z.refused }) h1).trans h2

theorem foldl_wrP_same (l : List (Nat × Bool)) : ∀ th : Thread,
    ∃ b, l.foldl (fun th x => wrP th x.1 x.2) th = { th with preds := b } := by
  induction l with
  | nil => intro th; exact ⟨th.preds, rfl⟩
  | cons c l ih =>
    intro th
    obtain ⟨b, hb⟩ := ih (wrP th c.1 c.2)
    exact ⟨b, hb⟩

/-- A fold of predicate writes: the last one to a predicate is read back. -/
theorem rdP_foldl_wrP (l : List (Nat × Bool)) (hl : ∀ x ∈ l, x.1 < 7) : ∀ (th : Thread) (q : Nat), q < 7 →
    rdP (l.foldl (fun th x => wrP th x.1 x.2) th) q = (smFind? l.reverse q).getD (rdP th q) := by
  have key : ∀ (a b : List (Nat × Bool)) (q : Nat) (d : Bool),
      (smFind? (a ++ b) q).getD d = (smFind? a q).getD ((smFind? b q).getD d) := by
    intro a b q d
    induction a with
    | nil => rfl
    | cons c a ih => obtain ⟨k, v⟩ := c; by_cases h : q = k <;> simp_all
  induction l with
  | nil => intro th q _; rfl
  | cons c l ih =>
    intro th q hq
    obtain ⟨k, v⟩ := c
    have hk : k < 7 := hl (k, v) (by simp)
    rw [List.foldl_cons, ih (fun x hx => hl x (List.mem_cons_of_mem _ hx)) _ q hq, List.reverse_cons, key,
      rdP_wrP th k q v hk hq]
    congr 1
    by_cases h : q = k <;> simp [h]

/-! ### The end of a word in one thread (R180) -/

theorem setLc_same (th : Thread) (k : Nat) (v : W32) :
    (setLc th k v).sameButWord th ∧ (setLc th k v).regs = th.regs ∧ (setLc th k v).preds = th.preds := by
  unfold setLc; split <;> exact ⟨rfl, rfl, rfl⟩

theorem loopEnd_same (loops : SMap LoopEntry) (pc : W64) : ∀ (k : Nat) (th : Thread),
    (loopEnd loops pc k th).sameButWord th ∧ (loopEnd loops pc k th).regs = th.regs ∧
    (loopEnd loops pc k th).preds = th.preds
  | 0, _ => ⟨rfl, rfl, rfl⟩
  | k + 1, th => by
    have hs := setLc_same th k (getLc th k - 1)
    have ih := loopEnd_same loops pc k (setLc th k (getLc th k - 1))
    unfold loopEnd
    split
    · split_ifs
      · dsimp only
        split_ifs
        · exact hs
        · exact ⟨Thread.sameButWord_trans ih.1 hs.1, ih.2.1.trans hs.2.1, ih.2.2.trans hs.2.2⟩
      · exact ⟨rfl, rfl, rfl⟩
    · exact ⟨rfl, rfl, rfl⟩

theorem applyEff_same (n : Nat) (loops : SMap LoopEntry) (info : WInfo) (th : Thread) (e : Eff) :
    (applyEff n loops info th e).sameButWord th := by
  have hw := (foldl_wrW_same e.w (tickWindows th)).1
  obtain ⟨b, hp⟩ := foldl_wrP_same e.p (e.w.foldl (fun th x => wrW th x.1 x.2) (tickWindows th))
  have h3 : (e.p.foldl (fun th x => wrP th x.1 x.2) (e.w.foldl (fun th x => wrW th x.1 x.2) (tickWindows th))).sameButWord th := by
    rw [hp]; exact (congrArg (fun u : Thread => { u with preds := th.preds, mq := th.mq }) hw)
  have h4 : ∀ y, (y : Thread).sameButWord th → y.sameButWord th := fun _ hy => hy
  unfold applyEff
  dsimp only
  split
  · exact h4 _ h3
  · exact Thread.sameButWord_trans (loopEnd_same _ _ _ _).1 (h4 _ h3)

theorem applyEff_regs (n : Nat) (loops : SMap LoopEntry) (info : WInfo) (th : Thread) (e : Eff) (q : Nat) :
    rdW (applyEff n loops info th e) q = (smFind? e.w.reverse q).getD (rdW th q) := by
  have hw := rdW_foldl_wrW e.w (tickWindows th) q
  obtain ⟨b, hp⟩ := foldl_wrP_same e.p (e.w.foldl (fun th x => wrW th x.1 x.2) (tickWindows th))
  have hr : rdW (tickWindows th) q = rdW th q := rfl
  rw [hr] at hw
  rw [← hw]
  unfold applyEff
  dsimp only
  split
  · unfold rdW; dsimp only; rw [hp]
  · unfold rdW; rw [(loopEnd_same _ _ _ _).2.1]; dsimp only; rw [hp]

theorem applyEff_preds (n : Nat) (loops : SMap LoopEntry) (info : WInfo) (th : Thread) (e : Eff)
    (hl : ∀ x ∈ e.p, x.1 < 7) (q : Nat) (hq : q < 7) :
    rdP (applyEff n loops info th e) q = (smFind? e.p.reverse q).getD (rdP th q) := by
  have hp := rdP_foldl_wrP e.p hl (e.w.foldl (fun th x => wrW th x.1 x.2) (tickWindows th)) q hq
  have hw := (foldl_wrW_same e.w (tickWindows th)).2.2.1
  have hr : rdP (e.w.foldl (fun th x => wrW th x.1 x.2) (tickWindows th)) q = rdP th q := by
    unfold rdP; rw [hw]; rfl
  rw [hr] at hp
  rw [← hp]
  unfold applyEff
  dsimp only
  split
  · unfold rdP; dsimp only
  · unfold rdP; rw [(loopEnd_same _ _ _ _).2.2]

theorem setLc_flow {x y : Thread} (h : x.flow.2 = y.flow.2) (k : Nat) (v : W32) :
    (setLc x k v).flow.2 = (setLc y k v).flow.2 := by
  simp only [Thread.flow, Prod.mk.injEq] at h
  unfold setLc; split <;> simp [Thread.flow, h.1, h.2.1, h.2.2]

theorem getLc_flow {x y : Thread} (h : x.flow.2 = y.flow.2) (k : Nat) : getLc x k = getLc y k := by
  simp only [Thread.flow, Prod.mk.injEq] at h
  unfold getLc; split <;> simp [h.1, h.2.1, h.2.2]

theorem loopDepth_flow {x y : Thread} (h : x.flow.2 = y.flow.2) : loopDepth x = loopDepth y := by
  simp only [Thread.flow, Prod.mk.injEq] at h
  unfold loopDepth; rw [h.1, h.2.1, h.2.2]

/-- The end-word check rests on the loop counters alone. -/
theorem loopEnd_flow (loops : SMap LoopEntry) (pc : W64) : ∀ (k : Nat) (x y : Thread), x.flow.2 = y.flow.2 →
    (loopEnd loops pc k x).flow = (loopEnd loops pc k y).flow
  | 0, _, _, h => Prod.ext rfl h
  | k + 1, x, y, h => by
    have hg := getLc_flow h k
    have hs := setLc_flow h k (getLc y k - 1)
    have ih := loopEnd_flow loops pc k _ _ hs
    unfold loopEnd
    rw [hg]
    split
    · split_ifs
      · dsimp only
        split_ifs
        · exact Prod.ext rfl hs
        · exact ih
      · exact Prod.ext rfl h
    · exact Prod.ext rfl h

theorem foldl_wrW_flow (l : List (Nat × W32)) : ∀ th : Thread, (l.foldl (fun th x => wrW th x.1 x.2) th).flow = th.flow := by
  induction l with
  | nil => intro th; rfl
  | cons c l ih => intro th; exact ih (wrW th c.1 c.2)

/-- Where a thread goes after a word. -/
theorem applyEff_flow (n : Nat) (loops : SMap LoopEntry) (info : WInfo) (th : Thread) (e : Eff) :
    (applyEff n loops info th e).flow = (match e.jump with
      | some p => (p, th.flow.2)
      | none => (nextWord loops th).flow) := by
  have hw : (e.w.foldl (fun th x => wrW th x.1 x.2) (tickWindows th)).flow = th.flow := foldl_wrW_flow e.w (tickWindows th)
  obtain ⟨b, hp⟩ := foldl_wrP_same e.p (e.w.foldl (fun th x => wrW th x.1 x.2) (tickWindows th))
  have h4 : (e.p.foldl (fun th x => wrP th x.1 x.2) (e.w.foldl (fun th x => wrW th x.1 x.2) (tickWindows th))).flow.2 =
      th.flow.2 := by rw [hp]; exact congrArg Prod.snd hw
  unfold applyEff
  dsimp only
  cases e.jump with
  | some p => exact Prod.ext rfl h4
  | none =>
    dsimp only
    unfold nextWord
    rw [← loopDepth_flow h4]
    exact loopEnd_flow loops th.pc _ _ _ h4

end Sys2Proof.Machine
end

