-- ==== Sys2Proof/Laws/Commit.lean ====
section
/-! SUPPORT. The issue and the commit of a word as a whole: `runWord_of_issues` and `commitWord_spec`. -/
namespace Sys2Proof.Machine
-- One declaration at a time: each more thread of the compiler takes a stack out of the same memory.
set_option Elab.async false

/-! ### Folds of thread changes -/

/-- Only `threads` differs. -/
def OnlyThreads (s s' : State) : Prop := { s' with threads := s.threads } = s

theorem OnlyThreads.trans {a b c : State} (h1 : OnlyThreads a b) (h2 : OnlyThreads b c) : OnlyThreads a c := by
  unfold OnlyThreads at *
  exact (congrArg (fun u : State => { u with threads := a.threads }) h2).trans h1

theorem foldl_modTh_only (f : Nat → Thread → Thread) (l : List Nat) : ∀ s : State,
    OnlyThreads s (l.foldl (fun x t => modTh x t (f t)) s) := by
  induction l with
  | nil => intro s; rfl
  | cons a l ih => intro s; exact OnlyThreads.trans (b := modTh s a (f a)) rfl (ih _)

theorem foldl_modTh_get (f : Nat → Thread → Thread) (l : List Nat) (hl : l.Nodup) : ∀ (s : State) (u : Nat),
    getTh (l.foldl (fun x t => modTh x t (f t)) s) u = if u ∈ l then f u (getTh s u) else getTh s u := by
  induction l with
  | nil => intro s u; simp
  | cons a l ih =>
    intro s u
    obtain ⟨ha, hl'⟩ := List.nodup_cons.1 hl
    rw [List.foldl_cons, ih hl' _ u]
    by_cases hua : u = a
    · subst hua; simp [ha]
    · simp [hua]

theorem warpThreads_nodup (w : Nat) : (warpThreads w).Nodup := by
  unfold warpThreads rangeFrom
  exact (List.nodup_range).map (fun a b h => by simpa using h)

theorem issuedSet_nodup {s : State} {w : Nat} {l : List Nat} (h : issuedSet s = some (w, l)) : l.Nodup := by
  unfold issuedSet at h
  split at h
  · dsimp only at h
    split at h
    · simp at h
    · next heq =>
      simp only [Option.some.injEq, Prod.mk.injEq] at h
      rw [← h.2]
      refine List.Nodup.filter _ ?_
      unfold maskThreads
      exact ((warpThreads_nodup _).filter _).filter _
  · simp at h

theorem issuedSet_ne_nil {s : State} {w : Nat} {l : List Nat} (h : issuedSet s = some (w, l)) : l ≠ [] := by
  unfold issuedSet at h
  split at h
  · dsimp only at h
    split at h
    · simp at h
    · next t rest heq =>
      simp only [Option.some.injEq, Prod.mk.injEq] at h
      intro hn
      rw [← h.2, List.filter_eq_nil_iff] at hn
      exact hn t (heq ▸ List.mem_cons_self) (by simp)
  · simp at h

/-! ### When a word issues -/

/-- The reporting threads, with the poison of a thread's reads named once. -/
theorem reports_eq (s : State) (info : WInfo) (w : Nat) (l acting : List Nat) :
    reports s info w l acting =
      (let sp := !acting.isEmpty && meets info.sreads (getWarp s w).spoison
       let poisoned (t : Nat) : Bool := meets (info.readsOf t) (getTh s t).poison
       let who := if sp then (if info.sGuarded then acting else l) else if info.cross && acting.any poisoned then acting
         else acting.filter fun t => info.reports || poisoned t
       (who, who.filterMap fun t =>
         match (getTh s t).pend with
         | some p => some (t, lateTrap p (getTh s t).pc)
         | none => if poisoned t || sp || (info.cross && acting.any poisoned) then
             some (t, preciseTrap ccPoisoned (getTh s t).pc) else none)) := rfl

theorem reports_of_issues {s : State} {info : WInfo} {w : Nat} {l : List Nat} (h : Issues s info w l) :
    (∀ t ∈ (reports s info w l (actingIn s info.guard l)).1, resolved (getTh s t) = true) ∧
    (reports s info w l (actingIn s info.guard l)).2 = [] := by
  have hsp : (!(actingIn s info.guard l).isEmpty && meets info.sreads (getWarp s w).spoison) = false := by
    by_cases hn : actingIn s info.guard l = []
    · simp [hn]
    · simp [h.swhole hn]
  have hp := h.whole
  have hany : (actingIn s info.guard l).any (fun t => meets (info.readsOf t) (getTh s t).poison) = false := by
    rw [List.any_eq_false]; intro t ht; simp [hp t ht]
  rw [reports_eq]
  dsimp only
  rw [hsp, hany]
  simp only [Bool.and_false, Bool.false_eq_true, if_false, Bool.or_false]
  have hmem : ∀ t ∈ (actingIn s info.guard l).filter (fun t => info.reports || meets (info.readsOf t) (getTh s t).poison),
      t ∈ actingIn s info.guard l ∧ info.reports = true := by
    intro t ht
    rw [List.mem_filter] at ht
    rw [hp t ht.1] at ht
    exact ⟨ht.1, by simpa using ht.2⟩
  constructor
  · intro t ht
    obtain ⟨h1, h2⟩ := hmem t ht
    exact (h.reported h2 t h1).1
  · rw [List.filterMap_eq_nil_iff]
    intro t ht
    obtain ⟨h1, h2⟩ := hmem t ht
    rw [(h.reported h2 t h1).2, hp t h1]
    rfl

/-- No line is missing of those that are all present. -/
theorem linesMissing_of_present {s : State} {need : List RegLine} (h : ∀ x ∈ need, linePresent s x = true) :
    linesMissing s need = false := by
  unfold linesMissing
  rw [List.any_eq_false]
  intro x hx
  simp [h x hx]

/-- A word that issues commits in every issued thread when none acts, and otherwise does what its own rules decide. -/
theorem runWord_of_issues {s : State} {info : WInfo} {w : Nat} {l : List Nat} (own : Nat → List Nat → List Nat → Own)
    (h : Issues s info w l) :
    runWord info own s =
      if actingIn s info.guard l = [] then .next (commitWord s info w l s [] (wordLines s info w l (actingIn s info.guard l)))
      else match own w l (actingIn s info.guard l) with
        | .stall => .next (stallIssue s)
        | .stallOn s1 => .next (stallIssue s1)
        | .traps ts => if ts.isEmpty then .next (stallIssue s) else .next (raiseTraps (chargeIssue s s w) w ts)
        | .go s1 effs =>
          let all := wordLines s info w l (actingIn s info.guard l) ++ effLines w (actingIn s info.guard l) (effOf effs)
          if linesMissing s all then .next (waitLines s l all) else .next (commitWord s info w l s1 effs all) := by
  have h1 : (l.any fun t => !windowsOpen (getTh s t)) = false := by
    rw [List.any_eq_false]; intro t ht; simp [h.windows t ht]
  have h2 : (info.privileged && decide ((getTeam s (teamOfWarp s w)).priv = 0)) = false := by
    cases hp : info.privileged
    · rfl
    · simp [h.privilege hp]
  have h3 : (l.filter fun t => (info.reads ++ info.writes).any fun r => decide ((getTh s t).nregs ≤ r)) = [] := by
    rw [List.filter_eq_nil_iff]
    intro t ht hc
    rw [List.any_eq_true] at hc
    obtain ⟨r, hr, hle⟩ := hc
    have := h.quota t ht r hr
    simp at hle
    omega
  have h4 : (info.uniform && (!decide (l = liveThreads s w) || (!(actingIn s info.guard l).isEmpty && !decide (actingIn s info.guard l = l)))) = false := by
    cases hu : info.uniform
    · rfl
    · obtain ⟨ha, hb⟩ := h.uniform hu
      rcases hb with hb | hb
      · rw [hb]; simp [← ha]
      · rw [hb]; simp [← ha]
  have h5 : ((actingIn s info.guard l).any (fun t => meets (info.reads ++ info.writes) (flightW (getTh s t))) || (!(actingIn s info.guard l).isEmpty && meets (info.sreads ++ info.swrites) (flightS s w))) = false := by
    have ha : (actingIn s info.guard l).any (fun t => meets (info.reads ++ info.writes) (flightW (getTh s t))) = false := by
      rw [List.any_eq_false]; intro t ht; simp [h.landed t ht]
    rw [ha]
    by_cases hn : actingIn s info.guard l = []
    · simp [hn]
    · simp [h.slanded hn]
  have h6 : linesMissing s (wordLines s info w l (actingIn s info.guard l)) = false := linesMissing_of_present h.present
  have h7 : (info.committed && !warpCommitted s w) = false := by
    cases hc : info.committed
    · rfl
    · simp [h.committed hc]
  have hq : (info.access && acqPending s w (actingIn s info.guard l)) = false := by
    cases hc : info.access
    · rfl
    · simp [h.acquired hc]
  obtain ⟨h8, h9⟩ := reports_of_issues h
  have h8' : ((reports s info w l (actingIn s info.guard l)).1.any fun t => !resolved (getTh s t)) = false := by
    rw [List.any_eq_false]; intro t ht; simp [h8 t ht]
  unfold runWord
  rw [h.chosen]
  dsimp only
  change (if _ then _ else _) = _
  rw [show l.filter (rdGuard s info.guard) = actingIn s info.guard l from rfl]
  rw [h1, h.matrix, h2, h3, h4, h5, h6, h7, hq, h8', h9]
  simp only [Bool.not_true, Bool.or_self, Bool.false_eq_true, if_false, List.isEmpty_nil]
  by_cases hn : actingIn s info.guard l = []
  · simp [hn]
  · have : (actingIn s info.guard l).isEmpty = false := by simpa using hn
    simp only [this, Bool.false_eq_true, if_false, hn]
    all_goals (cases own w l (actingIn s info.guard l) <;> rfl)

/-! ### What the commit changes and leaves -/

theorem Thread.sameButCount_trans {x y z : Thread} (h1 : x.sameButCount y) (h2 : y.sameButCount z) : x.sameButCount z := by
  unfold Thread.sameButCount at *
  exact (congrArg (fun u : Thread => { u with waitCount := z.waitCount }) h1).trans h2

theorem Thread.sameButWord_of_count {x y : Thread} (h : x.sameButCount y) : x.sameButWord y := by
  unfold Thread.sameButCount at h
  unfold Thread.sameButWord
  exact congrArg (fun u : Thread => { u with
      pc := y.pc, regs := y.regs, poison := y.poison, dirty := y.dirty, preds := y.preds, lc0 := y.lc0, lc1 := y.lc1
      lc2 := y.lc2, mq := y.mq, wait := y.wait, waitCount := y.waitCount, denied := y.denied, refused := y.refused }) h

theorem Warp.sameButWord_trans {x y z : Warp} (h1 : x.sameButWord y) (h2 : y.sameButWord z) : x.sameButWord z := by
  unfold Warp.sameButWord at *
  exact (congrArg (fun u : Warp => { u with
    flags := z.flags, amax := z.amax, loops := z.loops, since := z.since, skid := z.skid, stopped := z.stopped }) h1).trans h2

theorem Team.sameButWindows_trans {x y z : Team} (h1 : x.sameButWindows y) (h2 : y.sameButWindows z) : x.sameButWindows z := by
  unfold Team.sameButWindows at *
  exact (congrArg (fun u : Team => { u with matPend := z.matPend }) h1).trans h2

theorem Core.sameButDeficit_trans {x y z : Core} (h1 : x.sameButDeficit y) (h2 : y.sameButDeficit z) : x.sameButDeficit z := by
  unfold Core.sameButDeficit at *
  exact (congrArg (fun u : Core => { u with deficit := z.deficit, lastChosen := z.lastChosen }) h1).trans h2

theorem Partition.sameButCounters_trans {x y z : Partition} (h1 : x.sameButCounters y) (h2 : y.sameButCounters z) :
    x.sameButCounters z := by
  unfold Partition.sameButCounters at *
  exact (congrArg (fun u : Partition => { u with meters := z.meters, pmc := z.pmc }) h1).trans h2

theorem WordFrame.refl (s : State) (w : Nat) (l : List Nat) : WordFrame s s w l :=
  ⟨rfl, fun _ _ => rfl, fun _ _ => rfl, fun _ _ => rfl, rfl, fun _ => rfl, fun _ => rfl, fun _ => rfl⟩

theorem WordFrame.trans {a b c : State} {w : Nat} {l : List Nat} (h1 : WordFrame a b w l) (h2 : WordFrame b c w l) :
    WordFrame a c w l where
  rest := (congrArg (fun u : State => { u with
    turn := a.turn, cores := a.cores, warps := a.warps, threads := a.threads, teams := a.teams, parts := a.parts
    lineUses := a.lineUses }) h2.rest).trans h1.rest
  others t ht := Thread.sameButCount_trans (h2.others t ht) (h1.others t ht)
  issued t ht := Thread.sameButWord_trans (h2.issued t ht) (h1.issued t ht)
  warps v hv := (h2.warps v hv).trans (h1.warps v hv)
  warp := Warp.sameButWord_trans h2.warp h1.warp
  teams k := Team.sameButWindows_trans (h2.teams k) (h1.teams k)
  cores c := Core.sameButDeficit_trans (h2.cores c) (h1.cores c)
  parts p := Partition.sameButCounters_trans (h2.parts p) (h1.parts p)

/-- A change of threads only. -/
theorem WordFrame.of_threads {a b : State} {w : Nat} {l : List Nat} (h : OnlyThreads a b)
    (h1 : ∀ t, t ∉ l → (getTh b t).sameButCount (getTh a t)) (h2 : ∀ t ∈ l, (getTh b t).sameButWord (getTh a t)) :
    WordFrame a b w l := by
  have hb : b = { a with threads := b.threads } := by
    unfold OnlyThreads at h
    exact (congrArg (fun u : State => { u with threads := b.threads }) h)
  refine ⟨?_, h1, h2, ?_, ?_, ?_, ?_, ?_⟩
  · rw [hb]
  · intro v _; rw [hb]; rfl
  · rw [hb]; exact rfl
  · intro k; rw [hb]; exact rfl
  · intro k; rw [hb]; exact rfl
  · intro k; rw [hb]; exact rfl

/-- A change of one warp. -/
theorem WordFrame.of_warp (a : State) (w : Nat) (l : List Nat) (x : Warp) (h : x.sameButWord (getWarp a w)) :
    WordFrame a (setWarp a w x) w l := by
  refine ⟨rfl, fun _ _ => rfl, fun _ _ => rfl, ?_, ?_, fun _ => rfl, fun _ => rfl, fun _ => rfl⟩
  · intro v hv; simp [hv]
  · simpa using h

theorem WordFrame.of_team (a : State) (w : Nat) (l : List Nat) (k : Nat) (x : Team) (h : x.sameButWindows (getTeam a k)) :
    WordFrame a (setTeam a k x) w l := by
  refine ⟨rfl, fun _ _ => rfl, fun _ _ => rfl, fun _ _ => rfl, rfl, ?_, fun _ => rfl, fun _ => rfl⟩
  intro j
  by_cases hj : j = k
  · subst hj; simpa using h
  · simp only [getTeam_setTeam, hj, if_false]; exact rfl

theorem WordFrame.of_part (a : State) (w : Nat) (l : List Nat) (k : Nat) (x : Partition) (h : x.sameButCounters (getPart a k)) :
    WordFrame a (setPart a k x) w l := by
  refine ⟨rfl, fun _ _ => rfl, fun _ _ => rfl, fun _ _ => rfl, rfl, fun _ => rfl, fun _ => rfl, ?_⟩
  intro j
  by_cases hj : j = k
  · subst hj; simpa using h
  · simp only [getPart_setPart, hj, if_false]; exact rfl

theorem WordFrame.of_core (a : State) (w : Nat) (l : List Nat) (k : Nat) (x : Core) (h : x.sameButDeficit (getCore a k)) :
    WordFrame a (setCore a k x) w l := by
  refine ⟨rfl, fun _ _ => rfl, fun _ _ => rfl, fun _ _ => rfl, rfl, fun _ => rfl, ?_, fun _ => rfl⟩
  intro j
  by_cases hj : j = k
  · subst hj; simpa using h
  · simp only [getCore_setCore, hj, if_false]; exact rfl

theorem WordFrame.of_turn {a b : State} {w : Nat} {l : List Nat} (h : WordFrame a b w l) (x : Turn) :
    WordFrame a { b with turn := x } w l :=
  ⟨h.rest, h.others, h.issued, h.warps, h.warp, h.teams, h.cores, h.parts⟩

theorem passOver_spec (s0 s : State) (w : Nat) (l : List Nat) :
    OnlyThreads s (passOver s0 s w l) ∧ (∀ t, (getTh (passOver s0 s w l) t).sameButCount (getTh s t)) ∧
    ∀ t ∈ l, getTh (passOver s0 s w l) t = getTh s t := by
  unfold passOver
  dsimp only
  split_ifs
  · exact ⟨rfl, fun _ => rfl, fun _ _ => rfl⟩
  · have hnd : ((readyThreads s0 w).filter fun t => !(l.any fun u => decide (u = t))).Nodup :=
      ((warpThreads_nodup w).filter _).filter _
    refine ⟨foldl_modTh_only _ _ _, fun t => ?_, fun t ht => ?_⟩
    · rw [foldl_modTh_get _ _ hnd]
      split_ifs <;> exact rfl
    · rw [foldl_modTh_get _ _ hnd, if_neg]
      intro hm
      rw [List.mem_filter] at hm
      have : (l.any fun u => decide (u = t)) = true := by
        rw [List.any_eq_true]; exact ⟨t, ht, by simp⟩
      simp [this] at hm

theorem orFlags_eq (s : State) (w : Nat) (f : W32) :
    WordFrame s (orFlags s w f) w [] ∧ (orFlags s w f).threads = s.threads ∧
    (getWarp (orFlags s w f) w).flags = (getWarp s w).flags ||| f := by
  unfold orFlags
  split_ifs with h
  · subst h; exact ⟨WordFrame.refl _ _ _, rfl, by simp⟩
  · refine ⟨WordFrame.of_warp s w [] _ rfl, rfl, by simp⟩

theorem WordFrame.weaken {a b : State} {w : Nat} {l : List Nat} (h : WordFrame a b w []) (ht : b.threads = a.threads) :
    WordFrame a b w l :=
  have e : ∀ t, getTh b t = getTh a t := fun t => by unfold getTh; rw [ht]
  ⟨h.rest, fun t _ => by rw [e]; exact rfl, fun t _ => by rw [e]; exact rfl, h.warps, h.warp, h.teams, h.cores, h.parts⟩

theorem foldAmax_eq (s : State) (w : Nat) (vs : List FVal) :
    WordFrame s (foldAmax s w vs) w [] ∧ (foldAmax s w vs).threads = s.threads ∧
    (vs = [] → foldAmax s w vs = s) := by
  unfold foldAmax
  split_ifs with h
  · exact ⟨WordFrame.refl _ _ _, rfl, fun _ => rfl⟩
  · refine ⟨WordFrame.of_warp s w [] _ ?_, rfl, fun hn => by simp [hn] at h⟩
    have key : ∀ (vs : List FVal) (x : Warp), (vs.foldl (fun x v =>
        let r := amaxFold x.amax v
        { x with amax := r.1, flags := x.flags ||| r.2 }) x).sameButWord x := by
      intro vs
      induction vs with
      | nil => intro x; exact rfl
      | cons v vs ih => intro x; exact Warp.sameButWord_trans (ih _) rfl
    exact key vs _

theorem settleLoops_eq (s : State) (w : Nat) :
    WordFrame s (settleLoops s w) w [] ∧ (settleLoops s w).threads = s.threads ∧
    (getWarp (settleLoops s w) w).flags = (getWarp s w).flags := by
  unfold settleLoops
  exact ⟨WordFrame.of_warp s w [] _ rfl, rfl, by simp⟩

theorem meter_eq (s : State) (w p i n : Nat) : WordFrame s (meter s p i n) w [] ∧ (meter s p i n).threads = s.threads ∧
    (meter s p i n).warps = s.warps := by
  unfold meter
  split_ifs
  · exact ⟨WordFrame.refl _ _ _, rfl, rfl⟩
  · exact ⟨WordFrame.of_part s w [] p _ rfl, rfl, rfl⟩

theorem pmcEvent_eq (s : State) (w p i n : Nat) : WordFrame s (pmcEvent s p i n) w [] ∧
    (pmcEvent s p i n).threads = s.threads ∧ (pmcEvent s p i n).warps = s.warps := by
  unfold pmcEvent
  dsimp only
  split_ifs
  · exact ⟨WordFrame.refl _ _ _, rfl, rfl⟩
  · exact ⟨WordFrame.of_part s w [] p _ rfl, rfl, rfl⟩

theorem corePmc_eq (s : State) (w core i n : Nat) : WordFrame s (corePmc s core i n) w [] ∧
    (corePmc s core i n).threads = s.threads ∧ (corePmc s core i n).warps = s.warps := by
  unfold corePmc
  split_ifs
  · exact pmcEvent_eq s w _ i n
  · exact ⟨WordFrame.refl _ _ _, rfl, rfl⟩

theorem chargeIssue_eq (s0 s : State) (w : Nat) : WordFrame s (chargeIssue s0 s w) w [] ∧
    (chargeIssue s0 s w).threads = s.threads ∧ (chargeIssue s0 s w).warps = s.warps := by
  obtain ⟨h1, h2, h3⟩ := corePmc_eq s w (w / 64) 1 1
  unfold chargeIssue
  dsimp only
  generalize corePmc s (w / 64) 1 1 = s1 at h1 h2 h3 ⊢
  exact ⟨h1.trans (WordFrame.of_core s1 w [] _ _ rfl), h2, h3⟩

theorem touchLines_eq (s : State) (w : Nat) (lines : List RegLine) : WordFrame s (touchLines s lines) w [] ∧
    (touchLines s lines).threads = s.threads ∧ (touchLines s lines).warps = s.warps :=
  ⟨⟨rfl, fun _ _ => rfl, fun _ h => absurd h (by simp), fun _ _ => rfl, rfl, fun _ => rfl, fun _ => rfl, fun _ => rfl⟩, rfl, rfl⟩

theorem commitThreads_spec (s : State) (info : WInfo) (w : Nat) (l : List Nat) (s1 : State) (effs : List (Nat × Eff))
    (hl : l.Nodup) :
    WordFrame s1 (commitThreads s info w l s1 effs) w l ∧ (commitThreads s info w l s1 effs).warps = s1.warps ∧
    ∀ t ∈ l, getTh (commitThreads s info w l s1 effs) t =
      applyEff s.n (getWarp s1 w).loops info (getTh s1 t) (effOf effs t) := by
  obtain ⟨p1, p2, p3⟩ := passOver_spec s s1 w l
  have hg := foldl_modTh_get (fun t th => applyEff s.n (getWarp s1 w).loops info th (effOf effs t)) l hl (passOver s s1 w l)
  have o3 := OnlyThreads.trans p1
    (foldl_modTh_only (fun t th => applyEff s.n (getWarp s1 w).loops info th (effOf effs t)) l (passOver s s1 w l))
  have t3 : ∀ t ∈ l, getTh (commitThreads s info w l s1 effs) t =
      applyEff s.n (getWarp s1 w).loops info (getTh s1 t) (effOf effs t) := by
    intro t ht
    rw [← p3 t ht]
    exact (hg t).trans (if_pos ht)
  refine ⟨WordFrame.of_threads o3 (fun t ht => ?_) (fun t ht => ?_), (congrArg State.warps o3 : _), t3⟩
  · have : getTh (commitThreads s info w l s1 effs) t = getTh (passOver s s1 w l) t := (hg t).trans (if_neg ht)
    rw [this]; exact p2 t
  · rw [t3 t ht]; exact applyEff_same _ _ _ _ _

theorem commitFlags_spec (s : State) (w : Nat) (l : List Nat) (effs : List (Nat × Eff)) :
    WordFrame s (commitFlags s w l effs) w [] ∧ (commitFlags s w l effs).threads = s.threads ∧
    ((l.flatMap fun t => (effOf effs t).amax) = [] →
      (getWarp (commitFlags s w l effs) w).flags = (getWarp s w).flags ||| l.foldl (fun f t => f ||| (effOf effs t).fl) 0) := by
  obtain ⟨f4, e4, g4⟩ := orFlags_eq s w (l.foldl (fun f t => f ||| (effOf effs t).fl) 0)
  obtain ⟨f5, e5, g5⟩ := foldAmax_eq (orFlags s w (l.foldl (fun f t => f ||| (effOf effs t).fl) 0)) w
    (l.flatMap fun t => (effOf effs t).amax)
  exact ⟨f4.trans f5, e5.trans e4, fun hn => by unfold commitFlags; rw [g5 hn, g4]⟩

theorem commitCounts_spec (s : State) (w n : Nat) (skid : Bool) :
    WordFrame s (commitCounts s w n skid) w [] ∧ (commitCounts s w n skid).threads = s.threads ∧
    (getWarp (commitCounts s w n skid) w).flags = (getWarp s w).flags :=
  ⟨WordFrame.of_warp s w [] _ rfl, rfl, by simp [commitCounts]⟩

theorem commitLoops_spec (s : State) (w : Nat) (l : List Nat) (b : Bool) :
    WordFrame s (commitLoops s w l b) w [] ∧ (commitLoops s w l b).threads = s.threads ∧
    (getWarp (commitLoops s w l b) w).flags = (getWarp s w).flags := by
  unfold commitLoops
  split_ifs
  · exact ⟨WordFrame.refl _ _ _, rfl, rfl⟩
  · exact settleLoops_eq s w

theorem commitWindows_spec (s : State) (k w : Nat) (l : List Nat) (before : List MatPend) :
    WordFrame s (commitWindows s k l before) w [] ∧ (commitWindows s k l before).threads = s.threads ∧
    (commitWindows s k l before).warps = s.warps := by
  unfold commitWindows
  split_ifs
  · exact ⟨WordFrame.refl _ _ _, rfl, rfl⟩
  · exact ⟨WordFrame.of_team s w [] k _ rfl, rfl, rfl⟩

/-- Everything a commit does: the frame, each issued thread, and FLAGS where no value is folded into AMAX. -/
theorem commitWord_spec (s : State) (info : WInfo) (w : Nat) (l : List Nat) (s1 : State) (effs : List (Nat × Eff))
    (lines : List RegLine) (hl : l.Nodup) :
    WordFrame s1 (commitWord s info w l s1 effs lines) w l ∧
    (∀ t ∈ l, getTh (commitWord s info w l s1 effs lines) t =
      applyEff s.n (getWarp s1 w).loops info (getTh s1 t) (effOf effs t)) ∧
    ((l.flatMap fun t => (effOf effs t).amax) = [] →
      (getWarp (commitWord s info w l s1 effs lines) w).flags =
        (getWarp s1 w).flags ||| l.foldl (fun f t => f ||| (effOf effs t).fl) 0) := by
  obtain ⟨f2, w2, t2⟩ := commitThreads_spec s info w l s1 effs hl
  unfold commitWord
  dsimp only
  generalize commitThreads s info w l s1 effs = s2 at f2 w2 t2 ⊢
  obtain ⟨f3, e3, g3⟩ := commitFlags_spec s2 w l effs
  generalize commitFlags s2 w l effs = s3 at f3 e3 g3 ⊢
  generalize ((getTeam s (teamOfWarp s w)).halted && !(l.any fun t => (getTh s t).handler)) = b
  obtain ⟨f4, e4, g4⟩ := commitCounts_spec s3 w s.n b
  generalize commitCounts s3 w s.n b = s4 at f4 e4 g4 ⊢
  obtain ⟨f5, e5, g5⟩ := commitLoops_spec s4 w l (getWarp s1 w).loops.isEmpty
  generalize commitLoops s4 w l (getWarp s1 w).loops.isEmpty = s5 at f5 e5 g5 ⊢
  obtain ⟨f6, e6, g6⟩ := commitWindows_spec s5 (teamOfWarp s w) w l (getTeam s (teamOfWarp s w)).matPend
  generalize commitWindows s5 (teamOfWarp s w) l (getTeam s (teamOfWarp s w)).matPend = s6 at f6 e6 g6 ⊢
  obtain ⟨f7, e7, g7⟩ := meter_eq s6 w (getTeam s (teamOfWarp s w)).part mVeciss 1
  generalize meter s6 (getTeam s (teamOfWarp s w)).part mVeciss 1 = s7 at f7 e7 g7 ⊢
  obtain ⟨f8, e8, g8⟩ := touchLines_eq s7 w lines
  generalize touchLines s7 lines = s8 at f8 e8 g8 ⊢
  obtain ⟨f9, e9, g9⟩ := chargeIssue_eq s s8 w
  generalize chargeIssue s s8 w = s9 at f9 e9 g9 ⊢
  have ee : s9.threads = s2.threads := (((((e9.trans e8).trans e7).trans e6).trans e5).trans e4).trans e3
  have ff : WordFrame s2 s9 w [] := ((((((f3.trans f4).trans f5).trans f6).trans f7).trans f8).trans f9)
  have gg : (getWarp s9 w).flags = (getWarp s3 w).flags := by
    have h96 : getWarp s9 w = getWarp s5 w := by unfold getWarp; rw [g9, g8, g7, g6]
    rw [h96, g5, g4]
  refine ⟨(f2.trans (ff.weaken ee)).of_turn _, fun t ht => ?_, fun hn => ?_⟩
  · rw [← t2 t ht]; unfold getTh; dsimp only; rw [ee]
  · refine (show _ = (getWarp s9 w).flags from rfl).trans ?_
    rw [gg, g3 hn]; unfold getWarp; rw [w2]

end Sys2Proof.Machine
end

