-- ==== Sys2Proof/Laws/Exec.lean ====
section
/-! SUPPORT. What `exec` answers for each instruction: one equation per constructor, so that no proof unfolds the match. -/
namespace Sys2Proof.Machine
-- One declaration at a time: each more thread of the compiler takes a stack out of the same memory.
set_option Elab.async false

theorem exec_add h sat d a b (s : State) : exec (.add h sat d a b) s = execAdd h sat d a b s := rfl
theorem exec_sub h sat d a b (s : State) : exec (.sub h sat d a b) s = execSub h sat d a b s := rfl
theorem exec_mul h d a b (s : State) : exec (.mul h d a b) s = execMul h d a b s := rfl
theorem exec_mulhi h t d a b (s : State) : exec (.mulhi h t d a b) s = execMulhi h t d a b s := rfl
theorem exec_mad h d a b c (s : State) : exec (.mad h d a b c) s = execMad h d a b c s := rfl
theorem exec_div h t d a b (s : State) : exec (.div h t d a b) s = execDiv h t d a b s := rfl
theorem exec_rem h t d a b (s : State) : exec (.rem h t d a b) s = execRem h t d a b s := rfl
theorem exec_abs h sat d a (s : State) : exec (.abs h sat d a) s = execAbs h sat d a s := rfl
theorem exec_min h t d a b (s : State) : exec (.min h t d a b) s = execMin h t d a b s := rfl
theorem exec_max h t d a b (s : State) : exec (.max h t d a b) s = execMax h t d a b s := rfl
theorem exec_mov h d a (s : State) : exec (.mov h d a) s = execMov h d a s := rfl
theorem exec_movi g d imm (s : State) : exec (.movi g d imm) s = execMovi g d imm s := rfl
theorem exec_sel h d a b q (s : State) : exec (.sel h d a b q) s = execSel h d a b q s := rfl
theorem exec_icmp h c p ops (s : State) : exec (.icmp h c p ops) s = execIcmp h c p ops s := rfl
theorem exec_pand h p a b (s : State) : exec (.pand h p a b) s = execPand h p a b s := rfl
theorem exec_por h p a b (s : State) : exec (.por h p a b) s = execPor h p a b s := rfl
theorem exec_pxor h p a b (s : State) : exec (.pxor h p a b) s = execPxor h p a b s := rfl
theorem exec_pnot h p a (s : State) : exec (.pnot h p a) s = execPnot h p a s := rfl
theorem exec_and h d a b (s : State) : exec (.and h d a b) s = execAnd h d a b s := rfl
theorem exec_or h d a b (s : State) : exec (.or h d a b) s = execOr h d a b s := rfl
theorem exec_xor h d a b (s : State) : exec (.xor h d a b) s = execXor h d a b s := rfl
theorem exec_andn h d a b (s : State) : exec (.andn h d a b) s = execAndn h d a b s := rfl
theorem exec_shl h d a b (s : State) : exec (.shl h d a b) s = execShl h d a b s := rfl
theorem exec_shr h d a b (s : State) : exec (.shr h d a b) s = execShr h d a b s := rfl
theorem exec_sra h d a b (s : State) : exec (.sra h d a b) s = execSra h d a b s := rfl
theorem exec_rot h d a b (s : State) : exec (.rot h d a b) s = execRot h d a b s := rfl
theorem exec_popc h d a (s : State) : exec (.popc h d a) s = execPopc h d a s := rfl
theorem exec_clz h d a (s : State) : exec (.clz h d a) s = execClz h d a s := rfl
theorem exec_ctz h d a (s : State) : exec (.ctz h d a) s = execCtz h d a s := rfl
theorem exec_brev h d a (s : State) : exec (.brev h d a) s = execBrev h d a s := rfl
theorem exec_bfx h d a b c (s : State) : exec (.bfx h d a b c) s = execBfx h d a b c s := rfl
theorem exec_bfi h d a b c (s : State) : exec (.bfi h d a b c) s = execBfi h d a b c s := rfl
theorem exec_prmb h d a b c (s : State) : exec (.prmb h d a b c) s = execPrmb h d a b c s := rfl
theorem exec_add2 h sat d a b (s : State) : exec (.add2 h sat d a b) s = execAdd2 h sat d a b s := rfl
theorem exec_sub2 h sat d a b (s : State) : exec (.sub2 h sat d a b) s = execSub2 h sat d a b s := rfl
theorem exec_min2 h t d a b (s : State) : exec (.min2 h t d a b) s = execMin2 h t d a b s := rfl
theorem exec_max2 h t d a b (s : State) : exec (.max2 h t d a b) s = execMax2 h t d a b s := rfl
theorem exec_add4 h sat d a b (s : State) : exec (.add4 h sat d a b) s = execAdd4 h sat d a b s := rfl
theorem exec_dot4 h ta tb d a b c (s : State) : exec (.dot4 h ta tb d a b c) s = execDot4 h ta tb d a b c s := rfl
theorem exec_dot8 h d a b c (s : State) : exec (.dot8 h d a b c) s = execDot8 h d a b c s := rfl
theorem exec_dot2 h ta tb d a b c (s : State) : exec (.dot2 h ta tb d a b c) s = execDot2 h ta tb d a b c s := rfl
theorem exec_add64 h d a b (s : State) : exec (.add64 h d a b) s = execAdd64 h d a b s := rfl
theorem exec_sub64 h d a b (s : State) : exec (.sub64 h d a b) s = execSub64 h d a b s := rfl
theorem exec_lea64 h d a b c (s : State) : exec (.lea64 h d a b c) s = execLea64 h d a b c s := rfl
theorem exec_sadd h d a b (s : State) : exec (.sadd h d a b) s = execSadd h d a b s := rfl
theorem exec_ssub h d a b (s : State) : exec (.ssub h d a b) s = execSsub h d a b s := rfl
theorem exec_smul h d a b (s : State) : exec (.smul h d a b) s = execSmul h d a b s := rfl
theorem exec_sshl h d a b (s : State) : exec (.sshl h d a b) s = execSshl h d a b s := rfl
theorem exec_sshr h t d a b (s : State) : exec (.sshr h t d a b) s = execSshr h t d a b s := rfl
theorem exec_sand h d a b (s : State) : exec (.sand h d a b) s = execSand h d a b s := rfl
theorem exec_sor h d a b (s : State) : exec (.sor h d a b) s = execSor h d a b s := rfl
theorem exec_smov h d a (s : State) : exec (.smov h d a) s = execSmov h d a s := rfl
theorem exec_smovi g d imm (s : State) : exec (.smovi g d imm) s = execSmovi g d imm s := rfl
theorem exec_scmp h c p a b (s : State) : exec (.scmp h c p a b) s = execScmp h c p a b s := rfl
theorem exec_sld h d a b (s : State) : exec (.sld h d a b) s = execSld h d a b s := rfl
theorem exec_fadd h rm d a b (s : State) : exec (.fadd h rm d a b) s = execFadd h rm d a b s := rfl
theorem exec_fsub h rm d a b (s : State) : exec (.fsub h rm d a b) s = execFsub h rm d a b s := rfl
theorem exec_fmul h rm d a b (s : State) : exec (.fmul h rm d a b) s = execFmul h rm d a b s := rfl
theorem exec_ffma h rm d a b c (s : State) : exec (.ffma h rm d a b c) s = execFfma h rm d a b c s := rfl
theorem exec_fmin h d a b (s : State) : exec (.fmin h d a b) s = execFmin h d a b s := rfl
theorem exec_fmax h d a b (s : State) : exec (.fmax h d a b) s = execFmax h d a b s := rfl
theorem exec_fabs h d a (s : State) : exec (.fabs h d a) s = execFabs h d a s := rfl
theorem exec_fcmp h c p a b (s : State) : exec (.fcmp h c p a b) s = execFcmp h c p a b s := rfl
theorem exec_fclass h p a b (s : State) : exec (.fclass h p a b) s = execFclass h p a b s := rfl
theorem exec_frnd h rm d a (s : State) : exec (.frnd h rm d a) s = execFrnd h rm d a s := rfl
theorem exec_hadd2 h d a b (s : State) : exec (.hadd2 h d a b) s = execHadd2 h d a b s := rfl
theorem exec_hmul2 h d a b (s : State) : exec (.hmul2 h d a b) s = execHmul2 h d a b s := rfl
theorem exec_hfma2 h d a b c (s : State) : exec (.hfma2 h d a b c) s = execHfma2 h d a b c s := rfl
theorem exec_badd2 h d a b (s : State) : exec (.badd2 h d a b) s = execBadd2 h d a b s := rfl
theorem exec_bmul2 h d a b (s : State) : exec (.bmul2 h d a b) s = execBmul2 h d a b s := rfl
theorem exec_bfma2 h d a b c (s : State) : exec (.bfma2 h d a b c) s = execBfma2 h d a b c s := rfl
theorem exec_cvt h t src amax rm d a b (s : State) : exec (.cvt h t src amax rm d a b) s = execCvt h t src amax rm d a b s := rfl
theorem exec_unpk h k d a (s : State) : exec (.unpk h k d a) s = execUnpk h k d a s := rfl
theorem exec_qblk h amax d a (s : State) : exec (.qblk h amax d a) s = execQblk h amax d a s := rfl
theorem exec_rcpSeed h d a (s : State) : exec (.rcpSeed h d a) s = execRcpSeed h d a s := rfl
theorem exec_rsqSeed h d a (s : State) : exec (.rsqSeed h d a) s = execRsqSeed h d a s := rfl
theorem exec_ex2 h d a (s : State) : exec (.ex2 h d a) s = execEx2 h d a s := rfl
theorem exec_lg2 h d a (s : State) : exec (.lg2 h d a) s = execLg2 h d a s := rfl
theorem exec_sin h d a (s : State) : exec (.sin h d a) s = execSin h d a s := rfl
theorem exec_cos h d a (s : State) : exec (.cos h d a) s = execCos h d a s := rfl
theorem exec_bra g disp (s : State) : exec (.bra g disp) s = execBra g disp s := rfl
theorem exec_jmp g a (s : State) : exec (.jmp g a) s = execJmp g a s := rfl
theorem exec_jmpLink g d a (s : State) : exec (.jmpLink g d a) s = execJmpLink g d a s := rfl
theorem exec_call g d disp (s : State) : exec (.call g d disp) s = execCall g d disp s := rfl
theorem exec_ret g a (s : State) : exec (.ret g a) s = execRet g a s := rfl
theorem exec_loop g a disp (s : State) : exec (.loop g a disp) s = execLoop g a disp s := rfl
theorem exec_lbrk g (s : State) : exec (.lbrk g) s = execLbrk g s := rfl
theorem exec_exit g (s : State) : exec (.exit g) s = execExit g s := rfl
theorem exec_yield g (s : State) : exec (.yield g) s = execYield g s := rfl
theorem exec_nap g d a b (s : State) : exec (.nap g d a b) s = execNap g d a b s := rfl
theorem exec_nop g (s : State) : exec (.nop g) s = execNop g s := rfl
theorem exec_shfl h f (s : State) : exec (.shfl h f) s = execShfl h f s := rfl
theorem exec_vote h f p q (s : State) : exec (.vote h f p q) s = execVote h f p q s := rfl
theorem exec_ballot h f q (s : State) : exec (.ballot h f q) s = execBallot h f q s := rfl
theorem exec_redux h op d a (s : State) : exec (.redux h op d a) s = execRedux h op d a s := rfl
theorem exec_scan h op excl d a (s : State) : exec (.scan h op excl d a) s = execScan h op excl d a s := rfl
theorem exec_matchLanes h m d a (s : State) : exec (.matchLanes h m d a) s = execMatchLanes h m d a s := rfl
theorem exec_ld h w rlx d base idx off (s : State) : exec (.ld h w rlx d base idx off) s = execLd h w rlx d base idx off s := rfl
theorem exec_st h w rlx d base idx off (s : State) : exec (.st h w rlx d base idx off) s = execSt h w rlx d base idx off s := rfl
theorem exec_ldsp h w rlx d base idx off (s : State) : exec (.ldsp h w rlx d base idx off) s = execLdsp h w rlx d base idx off s := rfl
theorem exec_stsp h w rlx d base idx off (s : State) : exec (.stsp h w rlx d base idx off) s = execStsp h w rlx d base idx off s := rfl
theorem exec_ldf h take d base idx off (s : State) : exec (.ldf h take d base idx off) s = execLdf h take d base idx off s := rfl
theorem exec_stf h wait d base idx off (s : State) : exec (.stf h wait d base idx off) s = execStf h wait d base idx off s := rfl
theorem exec_lda h w d k idx off (s : State) : exec (.lda h w d k idx off) s = execLda h w d k idx off s := rfl
theorem exec_sta h w d k idx off (s : State) : exec (.sta h w d k idx off) s = execSta h w d k idx off s := rfl
theorem exec_ldc h col d t idx (s : State) : exec (.ldc h col d t idx) s = execLdc h col d t idx s := rfl
theorem exec_stc h col d t idx (s : State) : exec (.stc h col d t idx) s = execStc h col d t idx s := rfl
theorem exec_pf h x base idx off (s : State) : exec (.pf h x base idx off) s = execPf h x base idx off s := rfl
theorem exec_atom h op ord sc d a b (s : State) : exec (.atom h op ord sc d a b) s = execAtom h op ord sc d a b s := rfl
theorem exec_atoms h op ord sc d a b (s : State) : exec (.atoms h op ord sc d a b) s = execAtoms h op ord sc d a b s := rfl
theorem exec_red h op ord sc a b (s : State) : exec (.red h op ord sc a b) s = execRed h op ord sc a b s := rfl
theorem exec_fence g k sc (s : State) : exec (.fence g k sc) s = execFence g k sc s := rfl
theorem exec_cleanR h a b (s : State) : exec (.cleanR h a b) s = execCleanR h a b s := rfl
theorem exec_invalR h a b (s : State) : exec (.invalR h a b) s = execInvalR h a b s := rfl
theorem exec_flushR h a b (s : State) : exec (.flushR h a b) s = execFlushR h a b s := rfl
theorem exec_barArrive g b (s : State) : exec (.barArrive g b) s = execBarArrive g b s := rfl
theorem exec_barWait g b (s : State) : exec (.barWait g b) s = execBarWait g b s := rfl
theorem exec_barSync g b (s : State) : exec (.barSync g b) s = execBarSync g b s := rfl
theorem exec_barSwap g (s : State) : exec (.barSwap g) s = execBarSwap g s := rfl
theorem exec_mbarInit h a b (s : State) : exec (.mbarInit h a b) s = execMbarInit h a b s := rfl
theorem exec_mbarArrive h d a b (s : State) : exec (.mbarArrive h d a b) s = execMbarArrive h d a b s := rfl
theorem exec_mbarExpect h a b (s : State) : exec (.mbarExpect h a b) s = execMbarExpect h a b s := rfl
theorem exec_mbarWait g a b (s : State) : exec (.mbarWait g a b) s = execMbarWait g a b s := rfl
theorem exec_rsv h k a b c (s : State) : exec (.rsv h k a b c) s = execRsv h k a b c s := rfl
theorem exec_unrsv h k (s : State) : exec (.unrsv h k) s = execUnrsv h k s := rfl
theorem exec_zacc h t (s : State) : exec (.zacc h t) s = execZacc h t s := rfl
theorem exec_mma h t ka kb c (s : State) : exec (.mma h t ka kb c) s = execMma h t ka kb c s := rfl
theorem exec_acq h t (s : State) : exec (.acq h t) s = execAcq h t s := rfl
theorem exec_rel h t (s : State) : exec (.rel h t) s = execRel h t s := rfl
theorem exec_cpy h n dst src (s : State) : exec (.cpy h n dst src) s = execCpy h n dst src s := rfl
theorem exec_cpyo h d (s : State) : exec (.cpyo h d) s = execCpyo h d s := rfl
theorem exec_cpyc h a (s : State) : exec (.cpyc h a) s = execCpyc h a s := rfl
theorem exec_patch h a b c (s : State) : exec (.patch h a b c) s = execPatch h a b c s := rfl
theorem exec_go h a (s : State) : exec (.go h a) s = execGo h a s := rfl
theorem exec_rinit h n a b (s : State) : exec (.rinit h n a b) s = execRinit h n a b s := rfl
theorem exec_await g d n (s : State) : exec (.await g d n) s = execAwait g d n s := rfl
theorem exec_rels h n a (s : State) : exec (.rels h n a) s = execRels h n a s := rfl
theorem exec_deq g d a (s : State) : exec (.deq g d a) s = execDeq g d a s := rfl
theorem exec_enq h a d (s : State) : exec (.enq h a d) s = execEnq h a d s := rfl
theorem exec_qsub h d a b (s : State) : exec (.qsub h d a b) s = execQsub h d a b s := rfl
theorem exec_qcancel h a (s : State) : exec (.qcancel h a) s = execQcancel h a s := rfl
theorem exec_svc g d a b (s : State) : exec (.svc g d a b) s = execSvc g d a b s := rfl
theorem exec_rcall g d a b (s : State) : exec (.rcall g d a b) s = execRcall g d a b s := rfl
theorem exec_fqack g d a b (s : State) : exec (.fqack g d a b) s = execFqack g d a b s := rfl
theorem exec_rgrow g a (s : State) : exec (.rgrow g a) s = execRgrow g a s := rfl
theorem exec_rshrink g a (s : State) : exec (.rshrink g a) s = execRshrink g a s := rfl
theorem exec_mfs g d r (s : State) : exec (.mfs g d r) s = execMfs g d r s := rfl
theorem exec_mts g r a (s : State) : exec (.mts g r a) s = execMts g r a s := rfl
theorem exec_trap g a (s : State) : exec (.trap g a) s = execTrap g a s := rfl
theorem exec_rett g (s : State) : exec (.rett g) s = execRett g s := rfl
theorem exec_tkill g (s : State) : exec (.tkill g) s = execTkill g s := rfl
theorem exec_ebrk g (s : State) : exec (.ebrk g) s = execEbrk g s := rfl
theorem exec_fencex g (s : State) : exec (.fencex g) s = execFencex g s := rfl
theorem exec_addLongImmediate g d a imm (s : State) : exec (.addLongImmediate g d a imm) s = execAddLongImmediate g d a imm s := rfl
theorem exec_subLongImmediate g d a imm (s : State) : exec (.subLongImmediate g d a imm) s = execSubLongImmediate g d a imm s := rfl
theorem exec_mulLongImmediate g d a imm (s : State) : exec (.mulLongImmediate g d a imm) s = execMulLongImmediate g d a imm s := rfl
theorem exec_minLongImmediate g d a imm (s : State) : exec (.minLongImmediate g d a imm) s = execMinLongImmediate g d a imm s := rfl
theorem exec_maxLongImmediate g d a imm (s : State) : exec (.maxLongImmediate g d a imm) s = execMaxLongImmediate g d a imm s := rfl
theorem exec_andLongImmediate g d a imm (s : State) : exec (.andLongImmediate g d a imm) s = execAndLongImmediate g d a imm s := rfl
theorem exec_orLongImmediate g d a imm (s : State) : exec (.orLongImmediate g d a imm) s = execOrLongImmediate g d a imm s := rfl
theorem exec_xorLongImmediate g d a imm (s : State) : exec (.xorLongImmediate g d a imm) s = execXorLongImmediate g d a imm s := rfl
theorem exec_andnLongImmediate g d a imm (s : State) : exec (.andnLongImmediate g d a imm) s = execAndnLongImmediate g d a imm s := rfl
theorem exec_add64LongImmediate g d a imm (s : State) : exec (.add64LongImmediate g d a imm) s = execAdd64LongImmediate g d a imm s := rfl
theorem exec_sub64LongImmediate g d a imm (s : State) : exec (.sub64LongImmediate g d a imm) s = execSub64LongImmediate g d a imm s := rfl
theorem exec_lea64LongImmediate g d a imm (s : State) : exec (.lea64LongImmediate g d a imm) s = execLea64LongImmediate g d a imm s := rfl
theorem exec_saddLongImmediate g d a imm (s : State) : exec (.saddLongImmediate g d a imm) s = execSaddLongImmediate g d a imm s := rfl
theorem exec_ssubLongImmediate g d a imm (s : State) : exec (.ssubLongImmediate g d a imm) s = execSsubLongImmediate g d a imm s := rfl
theorem exec_smulLongImmediate g d a imm (s : State) : exec (.smulLongImmediate g d a imm) s = execSmulLongImmediate g d a imm s := rfl
theorem exec_sandLongImmediate g d a imm (s : State) : exec (.sandLongImmediate g d a imm) s = execSandLongImmediate g d a imm s := rfl
theorem exec_sorLongImmediate g d a imm (s : State) : exec (.sorLongImmediate g d a imm) s = execSorLongImmediate g d a imm s := rfl
theorem exec_faddLongImmediate g d a imm (s : State) : exec (.faddLongImmediate g d a imm) s = execFaddLongImmediate g d a imm s := rfl
theorem exec_fsubLongImmediate g d a imm (s : State) : exec (.fsubLongImmediate g d a imm) s = execFsubLongImmediate g d a imm s := rfl
theorem exec_fmulLongImmediate g d a imm (s : State) : exec (.fmulLongImmediate g d a imm) s = execFmulLongImmediate g d a imm s := rfl
theorem exec_fminLongImmediate g d a imm (s : State) : exec (.fminLongImmediate g d a imm) s = execFminLongImmediate g d a imm s := rfl
theorem exec_fmaxLongImmediate g d a imm (s : State) : exec (.fmaxLongImmediate g d a imm) s = execFmaxLongImmediate g d a imm s := rfl
theorem exec_sldLongImmediate g d a imm (s : State) : exec (.sldLongImmediate g d a imm) s = execSldLongImmediate g d a imm s := rfl
theorem exec_ldLongImmediate g w d a imm (s : State) : exec (.ldLongImmediate g w d a imm) s = execLdLongImmediate g w d a imm s := rfl
theorem exec_stLongImmediate g w d a imm (s : State) : exec (.stLongImmediate g w d a imm) s = execStLongImmediate g w d a imm s := rfl
theorem exec_ldspLongImmediate g w d a imm (s : State) : exec (.ldspLongImmediate g w d a imm) s = execLdspLongImmediate g w d a imm s := rfl
theorem exec_stspLongImmediate g w d a imm (s : State) : exec (.stspLongImmediate g w d a imm) s = execStspLongImmediate g w d a imm s := rfl
theorem exec_pfLongImmediate g a imm (s : State) : exec (.pfLongImmediate g a imm) s = execPfLongImmediate g a imm s := rfl
theorem exec_braLongImmediate g imm (s : State) : exec (.braLongImmediate g imm) s = execBraLongImmediate g imm s := rfl
theorem exec_callLongImmediate g d imm (s : State) : exec (.callLongImmediate g d imm) s = execCallLongImmediate g d imm s := rfl
theorem exec_loopLongImmediate g a imm (s : State) : exec (.loopLongImmediate g a imm) s = execLoopLongImmediate g a imm s := rfl
theorem exec_pairAdd x h1 (s : State) : exec (.pairAdd x h1) s = execPairAdd x h1 s := rfl
theorem exec_pairSub x h1 (s : State) : exec (.pairSub x h1) s = execPairSub x h1 s := rfl
theorem exec_pairMul x h1 (s : State) : exec (.pairMul x h1) s = execPairMul x h1 s := rfl
theorem exec_pairAnd x h1 (s : State) : exec (.pairAnd x h1) s = execPairAnd x h1 s := rfl
theorem exec_pairOr x h1 (s : State) : exec (.pairOr x h1) s = execPairOr x h1 s := rfl
theorem exec_pairXor x h1 (s : State) : exec (.pairXor x h1) s = execPairXor x h1 s := rfl
theorem exec_pairAndn x h1 (s : State) : exec (.pairAndn x h1) s = execPairAndn x h1 s := rfl
theorem exec_pairMinS32 x h1 (s : State) : exec (.pairMinS32 x h1) s = execPairMinS32 x h1 s := rfl
theorem exec_pairMaxS32 x h1 (s : State) : exec (.pairMaxS32 x h1) s = execPairMaxS32 x h1 s := rfl
theorem exec_pairMinZ32 x h1 (s : State) : exec (.pairMinZ32 x h1) s = execPairMinZ32 x h1 s := rfl
theorem exec_pairMaxZ32 x h1 (s : State) : exec (.pairMaxZ32 x h1) s = execPairMaxZ32 x h1 s := rfl
theorem exec_pairMov x h1 (s : State) : exec (.pairMov x h1) s = execPairMov x h1 s := rfl
theorem exec_pairAdd2 x h1 (s : State) : exec (.pairAdd2 x h1) s = execPairAdd2 x h1 s := rfl
theorem exec_pairSub2 x h1 (s : State) : exec (.pairSub2 x h1) s = execPairSub2 x h1 s := rfl
theorem exec_pairAdd4 x h1 (s : State) : exec (.pairAdd4 x h1) s = execPairAdd4 x h1 s := rfl
theorem exec_pairFadd x h1 (s : State) : exec (.pairFadd x h1) s = execPairFadd x h1 s := rfl
theorem exec_pairFsub x h1 (s : State) : exec (.pairFsub x h1) s = execPairFsub x h1 s := rfl
theorem exec_pairFmul x h1 (s : State) : exec (.pairFmul x h1) s = execPairFmul x h1 s := rfl
theorem exec_pairFmin x h1 (s : State) : exec (.pairFmin x h1) s = execPairFmin x h1 s := rfl
theorem exec_pairFmax x h1 (s : State) : exec (.pairFmax x h1) s = execPairFmax x h1 s := rfl
theorem exec_pairHadd2 x h1 (s : State) : exec (.pairHadd2 x h1) s = execPairHadd2 x h1 s := rfl
theorem exec_pairHmul2 x h1 (s : State) : exec (.pairHmul2 x h1) s = execPairHmul2 x h1 s := rfl
theorem exec_pairBadd2 x h1 (s : State) : exec (.pairBadd2 x h1) s = execPairBadd2 x h1 s := rfl
theorem exec_pairBmul2 x h1 (s : State) : exec (.pairBmul2 x h1) s = execPairBmul2 x h1 s := rfl
theorem exec_pairShl x h1 (s : State) : exec (.pairShl x h1) s = execPairShl x h1 s := rfl
theorem exec_pairShr x h1 (s : State) : exec (.pairShr x h1) s = execPairShr x h1 s := rfl
theorem exec_pairSra x h1 (s : State) : exec (.pairSra x h1) s = execPairSra x h1 s := rfl
theorem exec_pairRot x h1 (s : State) : exec (.pairRot x h1) s = execPairRot x h1 s := rfl
theorem exec_pairAddImmediate x h1 (s : State) : exec (.pairAddImmediate x h1) s = execPairAddImmediate x h1 s := rfl
theorem exec_pairSubImmediate x h1 (s : State) : exec (.pairSubImmediate x h1) s = execPairSubImmediate x h1 s := rfl
theorem exec_spawn rd rs1 rs2 (s : State) : exec (.spawn rd rs1 rs2) s = execSpawn rd rs1 rs2 s := rfl
theorem exec_joinw rd rs1 (s : State) : exec (.joinw rd rs1) s = execJoinw rd rs1 s := rfl
theorem exec_ecreate rd rs1 (s : State) : exec (.ecreate rd rs1) s = execEcreate rd rs1 s := rfl
theorem exec_edestroy rd rs1 (s : State) : exec (.edestroy rd rs1) s = execEdestroy rd rs1 s := rfl
theorem exec_eattest rd rs1 rs2 (s : State) : exec (.eattest rd rs1 rs2) s = execEattest rd rs1 rs2 s := rfl
theorem exec_illegalOpcode w (s : State) : exec (.illegalOpcode w) s = execIllegalOpcode w s := rfl
theorem exec_illegalInstructionException w (s : State) : exec (.illegalInstructionException w) s = execIllegalInstructionException w s := rfl
theorem exec_spawnAppend hart (s : State) : exec (.spawnAppend hart) s = execSpawnAppend hart s := rfl
theorem exec_joinwComplete hart (s : State) : exec (.joinwComplete hart) s = execJoinwComplete hart s := rfl
theorem exec_map (s : State) : exec (.map) s = execMap s := rfl
theorem exec_unmap (s : State) : exec (.unmap) s = execUnmap s := rfl
theorem exec_prot (s : State) : exec (.prot) s = execProt s := rfl
theorem exec_move (s : State) : exec (.move) s = execMove s := rfl
theorem exec_sealPage (s : State) : exec (.sealPage) s = execSealPage s := rfl
theorem exec_unsealPage (s : State) : exec (.unsealPage) s = execUnsealPage s := rfl
theorem exec_usage (s : State) : exec (.usage) s = execUsage s := rfl
theorem exec_svcq (s : State) : exec (.svcq) s = execSvcq s := rfl
theorem exec_spdmCall (s : State) : exec (.spdmCall) s = execSpdmCall s := rfl
theorem exec_bind (s : State) : exec (.bind) s = execBind s := rfl
theorem exec_pload (s : State) : exec (.pload) s = execPload s := rfl
theorem exec_punload (s : State) : exec (.punload) s = execPunload s := rfl
theorem exec_range (s : State) : exec (.range) s = execRange s := rfl
theorem exec_coldReset (s : State) : exec (.coldReset) s = execColdReset s := rfl
theorem exec_warmReset (s : State) : exec (.warmReset) s = execWarmReset s := rfl
theorem exec_firmwareImage leader img (s : State) : exec (.firmwareImage leader img) s = execFirmwareImage leader img s := rfl
theorem exec_hostLinkTraining cxl (s : State) : exec (.hostLinkTraining cxl) s = execHostLinkTraining cxl s := rfl
theorem exec_hello port pod (s : State) : exec (.hello port pod) s = execHello port pod s := rfl
theorem exec_discoveryWindowEnd (s : State) : exec (.discoveryWindowEnd) s = execDiscoveryWindowEnd s := rfl
theorem exec_claim port pod nonce sig (s : State) : exec (.claim port pod nonce sig) s = execClaim port pod nonce sig s := rfl
theorem exec_leaderSilent (s : State) : exec (.leaderSilent) s = execLeaderSilent s := rfl
theorem exec_podFlitReceive port f (s : State) : exec (.podFlitReceive port f) s = execPodFlitReceive port f s := rfl
theorem exec_staggeredStartStep (s : State) : exec (.staggeredStartStep) s = execStaggeredStartStep s := rfl
theorem exec_arrayRampDone core (s : State) : exec (.arrayRampDone core) s = execArrayRampDone core s := rfl
theorem exec_pwrlim v (s : State) : exec (.pwrlim v) s = execPwrlim v s := rfl
theorem exec_emergencyPowerReduction asserted (s : State) : exec (.emergencyPowerReduction asserted) s = execEmergencyPowerReduction asserted s := rfl
theorem exec_mslim p m v (s : State) : exec (.mslim p m v) s = execMslim p m v s := rfl
theorem exec_mscfg p m v (s : State) : exec (.mscfg p m v) s = execMscfg p m v s := rfl
theorem exec_meadowStoreSplitChange p m (s : State) : exec (.meadowStoreSplitChange p m) s = execMeadowStoreSplitChange p m s := rfl
theorem exec_pcfg p v (s : State) : exec (.pcfg p v) s = execPcfg p v s := rfl
theorem exec_partitionBuild p (s : State) : exec (.partitionBuild p) s = execPartitionBuild p s := rfl
theorem exec_gsw p v (s : State) : exec (.gsw p v) s = execGsw p v s := rfl
theorem exec_guestSwitchCommit p (s : State) : exec (.guestSwitchCommit p) s = execGuestSwitchCommit p s := rfl
theorem exec_replyDoorbell p tag status (s : State) : exec (.replyDoorbell p tag status) s = execReplyDoorbell p tag status s := rfl
theorem exec_llaunch hazel runtime (s : State) : exec (.llaunch hazel runtime) s = execLlaunch hazel runtime s := rfl
theorem exec_sleep (s : State) : exec (.sleep) s = execSleep s := rfl
theorem exec_commit (s : State) : exec (.commit) s = execCommit s := rfl
theorem exec_wake (s : State) : exec (.wake) s = execWake s := rfl
theorem exec_registerWrite fn off v (s : State) : exec (.registerWrite fn off v) s = execRegisterWrite fn off v s := rfl
theorem exec_tdispRequest vf r (s : State) : exec (.tdispRequest vf r) s = execTdispRequest vf r s := rfl
theorem exec_lockInterfaceRequest vf (s : State) : exec (.lockInterfaceRequest vf) s = execLockInterfaceRequest vf s := rfl
theorem exec_ideKmKeyProgramming stream session selective (s : State) : exec (.ideKmKeyProgramming stream session selective) s = execIdeKmKeyProgramming stream session selective s := rfl
theorem exec_hostMemoryAccess r (s : State) : exec (.hostMemoryAccess r) s = execHostMemoryAccess r s := rfl
theorem exec_getVersion via (s : State) : exec (.getVersion via) s = execGetVersion via s := rfl
theorem exec_getCapabilities via (s : State) : exec (.getCapabilities via) s = execGetCapabilities via s := rfl
theorem exec_negotiateAlgorithms via (s : State) : exec (.negotiateAlgorithms via) s = execNegotiateAlgorithms via s := rfl
theorem exec_getDigests via (s : State) : exec (.getDigests via) s = execGetDigests via s := rfl
theorem exec_getCertificate via slot off len (s : State) : exec (.getCertificate via slot off len) s = execGetCertificate via slot off len s := rfl
theorem exec_challenge via slot nonce (s : State) : exec (.challenge via slot nonce) s = execChallenge via slot nonce s := rfl
theorem exec_getMeasurements via index nonce (s : State) : exec (.getMeasurements via index nonce) s = execGetMeasurements via index nonce s := rfl
theorem exec_keyExchange via data (s : State) : exec (.keyExchange via data) s = execKeyExchange via data s := rfl
theorem exec_finish via session (s : State) : exec (.finish via session) s = execFinish via session s := rfl
theorem exec_endSession via session (s : State) : exec (.endSession via session) s = execEndSession via session s := rfl
theorem exec_spdmUnsupportedRequest via code (s : State) : exec (.spdmUnsupportedRequest via code) s = execSpdmUnsupportedRequest via code s := rfl
theorem exec_virtualFunctionReset vf (s : State) : exec (.virtualFunctionReset vf) s = execVirtualFunctionReset vf s := rfl
theorem exec_dispatchRecord encl kick (s : State) : exec (.dispatchRecord encl kick) s = execDispatchRecord encl kick s := rfl
theorem exec_grovePlacement i pl (s : State) : exec (.grovePlacement i pl) s = execGrovePlacement i pl s := rfl
theorem exec_placementStarvation i (s : State) : exec (.placementStarvation i) s = execPlacementStarvation i s := rfl
theorem exec_issueSelection core slot (s : State) : exec (.issueSelection core slot) s = execIssueSelection core slot s := rfl
theorem exec_waitCountStarvation core wslot (s : State) : exec (.waitCountStarvation core wslot) s = execWaitCountStarvation core wslot s := rfl
theorem exec_bindRecordWrite core wslot rec (s : State) : exec (.bindRecordWrite core wslot rec) s = execBindRecordWrite core wslot rec s := rfl
theorem exec_teamRetirement core tslot (s : State) : exec (.teamRetirement core tslot) s = execTeamRetirement core tslot s := rfl
theorem exec_queueSliceBoundary (s : State) : exec (.queueSliceBoundary) s = execQueueSliceBoundary s := rfl
theorem exec_storeBufferDrain t (s : State) : exec (.storeBufferDrain t) s = execStoreBufferDrain t s := rfl
theorem exec_loadReturn t (s : State) : exec (.loadReturn t) s = execLoadReturn t s := rfl
theorem exec_atomicPerform t (s : State) : exec (.atomicPerform t) s = execAtomicPerform t s := rfl
theorem exec_walkComplete i (s : State) : exec (.walkComplete i) s = execWalkComplete i s := rfl
theorem exec_faultQueueRoom encl (s : State) : exec (.faultQueueRoom encl) s = execFaultQueueRoom encl s := rfl
theorem exec_registerLineFill core line (s : State) : exec (.registerLineFill core line) s = execRegisterLineFill core line s := rfl
theorem exec_rgrowGrant core (s : State) : exec (.rgrowGrant core) s = execRgrowGrant core s := rfl
theorem exec_handlerEntry core tslot (s : State) : exec (.handlerEntry core tslot) s = execHandlerEntry core tslot s := rfl
theorem exec_barrierPhaseComplete core tslot b (s : State) : exec (.barrierPhaseComplete core tslot b) s = execBarrierPhaseComplete core tslot b s := rfl
theorem exec_deqTake t (s : State) : exec (.deqTake t) s = execDeqTake t s := rfl
theorem exec_enqReservation t (s : State) : exec (.enqReservation t) s = execEnqReservation t s := rfl
theorem exec_awaitTake core wslot (s : State) : exec (.awaitTake core wslot) s = execAwaitTake core wslot s := rfl
theorem exec_mbarWaitWake t (s : State) : exec (.mbarWaitWake t) s = execMbarWaitWake t s := rfl
theorem exec_ldfWake t (s : State) : exec (.ldfWake t) s = execLdfWake t s := rfl
theorem exec_stfWaitWake t (s : State) : exec (.stfWaitWake t) s = execStfWaitWake t s := rfl
theorem exec_napWake t (s : State) : exec (.napWake t) s = execNapWake t s := rfl
theorem exec_svcPost p (s : State) : exec (.svcPost p) s = execSvcPost p s := rfl
theorem exec_maintenanceComplete i (s : State) : exec (.maintenanceComplete i) s = execMaintenanceComplete i s := rfl
theorem exec_rsvComplete core tslot k (s : State) : exec (.rsvComplete core tslot k) s = execRsvComplete core tslot k s := rfl
theorem exec_acqComplete core tslot t (s : State) : exec (.acqComplete core tslot t) s = execAcqComplete core tslot t s := rfl
theorem exec_unrsvComplete core tslot k (s : State) : exec (.unrsvComplete core tslot k) s = execUnrsvComplete core tslot k s := rfl
theorem exec_matrixJobStart core job (s : State) : exec (.matrixJobStart core job) s = execMatrixJobStart core job s := rfl
theorem exec_kStep core (s : State) : exec (.kStep core) s = execKStep core s := rfl
theorem exec_arraySwitchPoint core (s : State) : exec (.arraySwitchPoint core) s = execArraySwitchPoint core s := rfl
theorem exec_matrixJobComplete core (s : State) : exec (.matrixJobComplete core) s = execMatrixJobComplete core s := rfl
theorem exec_budgetRefill (s : State) : exec (.budgetRefill) s = execBudgetRefill s := rfl
theorem exec_copyJobStart core job (s : State) : exec (.copyJobStart core job) s = execCopyJobStart core job s := rfl
theorem exec_ringSlotClaim core job (s : State) : exec (.ringSlotClaim core job) s = execRingSlotClaim core job s := rfl
theorem exec_copyPieceDelivery core job (s : State) : exec (.copyPieceDelivery core job) s = execCopyPieceDelivery core job s := rfl
theorem exec_relayHop core job (s : State) : exec (.relayHop core job) s = execRelayHop core job s := rfl
theorem exec_copyJobComplete core job (s : State) : exec (.copyJobComplete core job) s = execCopyJobComplete core job s := rfl
theorem exec_copyJobFault core job (s : State) : exec (.copyJobFault core job) s = execCopyJobFault core job s := rfl
theorem exec_queryContextAllocate stack (s : State) : exec (.queryContextAllocate stack) s = execQueryContextAllocate stack s := rfl
theorem exec_distanceReply stack ctx fromStack (s : State) : exec (.distanceReply stack ctx fromStack) s = execDistanceReply stack ctx fromStack s := rfl
theorem exec_adjacencyReply stack ctx node (s : State) : exec (.adjacencyReply stack ctx node) s = execAdjacencyReply stack ctx node s := rfl
theorem exec_queryPublish core tslot (s : State) : exec (.queryPublish core tslot) s = execQueryPublish core tslot s := rfl
theorem exec_shootdownAck a (s : State) : exec (.shootdownAck a) s = execShootdownAck a s := rfl
theorem exec_migrationPass (s : State) : exec (.migrationPass) s = execMigrationPass s := rfl
theorem exec_lrd i (s : State) : exec (.lrd i) s = execLrd i s := rfl
theorem exec_lwr i (s : State) : exec (.lwr i) s = execLwr i s := rfl
theorem exec_rrd i (s : State) : exec (.rrd i) s = execRrd i s := rfl
theorem exec_rup i (s : State) : exec (.rup i) s = execRup i s := rfl
theorem exec_evt grain who (s : State) : exec (.evt grain who) s = execEvt grain who s := rfl
theorem exec_erd i (s : State) : exec (.erd i) s = execErd i s := rfl
theorem exec_ewr i (s : State) : exec (.ewr i) s = execEwr i s := rfl
theorem exec_cln i (s : State) : exec (.cln i) s = execCln i s := rfl
theorem exec_inv i (s : State) : exec (.inv i) s = execInv i s := rfl
theorem exec_directoryAck grain who (s : State) : exec (.directoryAck grain who) s = execDirectoryAck grain who s := rfl
theorem exec_tmo grain (s : State) : exec (.tmo grain) s = execTmo grain s := rfl
theorem exec_proxyInvalidation grain meadow (s : State) : exec (.proxyInvalidation grain meadow) s = execProxyInvalidation grain meadow s := rfl
theorem exec_copyInvalidation grain who (s : State) : exec (.copyInvalidation grain who) s = execCopyInvalidation grain who s := rfl
theorem exec_replicaLock grain meadow (s : State) : exec (.replicaLock grain meadow) s = execReplicaLock grain meadow s := rfl
theorem exec_replicaUpdate grain meadow (s : State) : exec (.replicaUpdate grain meadow) s = execReplicaUpdate grain meadow s := rfl
theorem exec_partitionSwapOut p m (s : State) : exec (.partitionSwapOut p m) s = execPartitionSwapOut p m s := rfl
theorem exec_partitionSwapIn p m (s : State) : exec (.partitionSwapIn p m) s = execPartitionSwapIn p m s := rfl
theorem exec_usageRecordPeriodic p (s : State) : exec (.usageRecordPeriodic p) s = execUsageRecordPeriodic p s := rfl
theorem exec_podLinkTraining port (s : State) : exec (.podLinkTraining port) s = execPodLinkTraining port s := rfl
theorem exec_meadowStoreWriteBack line (s : State) : exec (.meadowStoreWriteBack line) s = execMeadowStoreWriteBack line s := rfl

end Sys2Proof.Machine
end

