-- ==== Sys2Proof/Laws/Image.lean ====
section
/-! SUPPORT. What a register line that leaves the register cache changes (R49, R117, R120). -/
namespace Sys2Proof.Machine

/-- A write-back changes no thread, warp or team. -/
theorem writeBackMetered_cores (s : State) (line : Nat) :
    (writeBackMetered s line).threads = s.threads ∧ (writeBackMetered s line).warps = s.warps ∧
      (writeBackMetered s line).teams = s.teams := by
  unfold writeBackMetered meterTier writeBack meter
  split
  · exact ⟨rfl, rfl, rfl⟩
  · split
    · exact ⟨rfl, rfl, rfl⟩
    · split
      · exact ⟨rfl, rfl, rfl⟩
      · split <;> exact ⟨rfl, rfl, rfl⟩

theorem foldl_writeBackMetered_cores (l : List Nat) (s : State) :
    (l.foldl writeBackMetered s).threads = s.threads ∧ (l.foldl writeBackMetered s).warps = s.warps ∧
      (l.foldl writeBackMetered s).teams = s.teams := by
  induction l generalizing s with
  | nil => exact ⟨rfl, rfl, rfl⟩
  | cons a l ih =>
    obtain ⟨h1, h2, h3⟩ := ih (writeBackMetered s a)
    obtain ⟨k1, k2, k3⟩ := writeBackMetered_cores s a
    exact ⟨h1.trans k1, h2.trans k2, h3.trans k3⟩

/-- A line written to its image changes no thread, warp or team (R117). -/
theorem writeLine_cores (s : State) (l : RegLine) :
    (writeLine s l).threads = s.threads ∧ (writeLine s l).warps = s.warps ∧ (writeLine s l).teams = s.teams := by
  unfold writeLine writeImg
  split
  · exact ⟨rfl, rfl, rfl⟩
  · exact foldl_writeBackMetered_cores _ _

/-- An eviction neither ends nor starts a team, and a team block that was not in the cache stays out (R49, R120). -/
theorem evict_team (s : State) (l : RegLine) (k : Nat) (h : (getTeam s k).tline = false) :
    (getTeam (evict s l) k).live = (getTeam s k).live ∧ (getTeam (evict s l) k).tline = false := by
  have hw : (if lineDirty s l then writeLine s l else s).teams = s.teams := by
    split
    · exact (writeLine_cores s l).2.2
    · rfl
  unfold evict
  generalize (if lineDirty s l then writeLine s l else s) = x at hw
  have hk : ∀ j, getTeam x j = getTeam s j := fun j => by unfold getTeam; rw [hw]
  cases l with
  | w t i => exact ⟨congrArg Team.live (hk k), (congrArg Team.tline (hk k)).trans h⟩
  | sr w i => exact ⟨congrArg Team.live (hk k), (congrArg Team.tline (hk k)).trans h⟩
  | lane t i => exact ⟨congrArg Team.live (hk k), (congrArg Team.tline (hk k)).trans h⟩
  | team j =>
    simp only [setLine, modTeam, getTeam_setTeam, hk]
    split
    · next e => subst e; exact ⟨rfl, rfl⟩
    · exact ⟨rfl, h⟩

end Sys2Proof.Machine
end

