-- ==== Sys2Proof/Laws/Memory.lean ====
section
/-! SUPPORT. What the memory operations do: the bytes read after each, the canonical form they keep, and what they leave. -/
namespace Sys2Proof.Machine

theorem smGet_memPuts (m : SMap Byte) (bs : List Byte) : ∀ (pa a : Nat),
    smGet 0 (memPuts m pa bs) a = if pa ≤ a ∧ a < pa + bs.length then bs.getD (a - pa) 0 else smGet 0 m a := by
  induction bs generalizing m with
  | nil => intro pa a; simp [memPuts]
  | cons b bs ih =>
    intro pa a
    rw [memPuts, ih, smGet_smSet]
    by_cases h : a = pa
    · subst h; simp
    · by_cases h1 : pa + 1 ≤ a ∧ a < pa + 1 + bs.length
      · have : a - pa = (a - (pa + 1)) + 1 := by omega
        rw [if_pos h1, if_pos (by simp; omega), this]; simp
      · rw [if_neg h1, if_neg h, if_neg (by simp; omega)]

/-- A byte after a write: of the bytes written within the range, and as before outside it. -/
theorem readByte_writeBytes (s : State) (pa : Nat) (bs : List Byte) (a : Nat) :
    readByte (writeBytes s pa bs) a =
      if pa ≤ a ∧ a < pa + bs.length then bs.getD (a - pa) 0 else readByte s a := smGet_memPuts s.mem bs pa a

/-- What was written reads back. -/
theorem readBytes_writeBytes (s : State) (pa : Nat) (bs : List Byte) :
    readBytes (writeBytes s pa bs) pa bs.length = bs := by
  apply List.ext_getElem
  · simp [readBytes, rangeFrom]
  · intro i h1 h2
    simp only [readBytes, rangeFrom, List.map_map, List.getElem_map, List.getElem_range, Function.comp]
    rw [readByte_writeBytes, if_pos (by omega)]
    have : pa + i - pa = i := by omega
    rw [this, List.getD_eq_getElem _ _ h2]

/-- A number written reads back, modulo its width. -/
theorem readNat_writeNat (s : State) (pa n v : Nat) : readNat (writeNat s pa n v) pa n = v % 256 ^ n := by
  unfold readNat writeNat
  have h := readBytes_writeBytes s pa (bytesOfNat n v)
  rw [bytesOfNat_length] at h
  rw [h, natOfBytes_bytesOfNat]

/-- A byte after a range is zeroed. -/
theorem readByte_zeroRange (s : State) (pa n a : Nat) :
    readByte (zeroRange s pa n) a = if pa ≤ a ∧ a < pa + n then 0 else readByte s a := by
  unfold readByte zeroRange
  simp only [smGet_smFilter, Nat.mul_one]
  by_cases h : pa ≤ a ∧ a < pa + n
  · rw [if_pos h, if_neg]; simp; omega
  · rw [if_neg h, if_pos]; simp; omega

theorem memPuts_wf (bs : List Byte) : ∀ (m : SMap Byte) (pa : Nat), Memory.wf m = true → Memory.wf (memPuts m pa bs) = true := by
  induction bs with
  | nil => intro m pa h; exact h
  | cons b bs ih => intro m pa h; exact ih _ _ (smWf_smSet pa b h)

theorem writeBytes_wf {s : State} (pa : Nat) (bs : List Byte) (h : Memory.wf s.mem = true) :
    Memory.wf (writeBytes s pa bs).mem = true := memPuts_wf bs s.mem pa h

theorem writeNat_wf {s : State} (pa n v : Nat) (h : Memory.wf s.mem = true) : Memory.wf (writeNat s pa n v).mem = true :=
  writeBytes_wf pa _ h

theorem zeroRange_wf {s : State} (pa n : Nat) (h : Memory.wf s.mem = true) : Memory.wf (zeroRange s pa n).mem = true := by
  have := smWf_smFilter (fun a => decide (a * 1 < pa) || decide (pa + n ≤ a * 1)) h
  exact this

theorem discardLine_wf {s : State} (line : Nat) (h : Memory.wf s.mem = true) : Memory.wf (discardLine s line).mem = true := by
  unfold discardLine
  split
  · exact h
  · exact smWf_foldl _ (fun m c hm => smWf_smSet c.1 c.2 hm) _ _ (smWf_smFilter _ h)

theorem copyRange_wf {s : State} (src dst n : Nat) (h : Memory.wf s.mem = true) :
    Memory.wf (copyRange s src dst n).mem = true :=
  smWf_foldl _ (fun _ c hm => smWf_smSet _ c.2 hm) _ _ (zeroRange_wf dst n h)

theorem writeBack_wf {s : State} (line : Nat) (h : Memory.wf s.mem = true) : Memory.wf (writeBack s line).mem = true := h

/-- What a write at the home leaves. -/
theorem writeBytes_rest (s : State) (pa : Nat) (bs : List Byte) :
    { writeBytes s pa bs with mem := s.mem, stale := s.stale, poison := s.poison, raw := s.raw, ecc := s.ecc, rowan := s.rowan } = s := rfl

/-- What zeroing leaves. -/
theorem zeroRange_rest (s : State) (pa n : Nat) :
    { zeroRange s pa n with mem := s.mem, stale := s.stale, poison := s.poison, raw := s.raw, ecc := s.ecc } = s := rfl

theorem reset_mem_wf : Memory.wf State.reset.mem = true := rfl

end Sys2Proof.Machine
end

