-- ==== Sys2Proof/Laws/PerInstr.lean ====
section
/-! SUPPORT. Statements made per instruction: `RoundTrip`, that the word of a well-formed instruction decodes to it. -/
namespace Sys2Proof.Laws.RoundTrip
-- One declaration at a time: each more thread of the compiler takes a stack out of the same memory.
set_option Elab.async false
set_option linter.unusedSimpArgs false

/-- The word of a well-formed instruction decodes to that instruction (R81 to R105). -/
def Statement (i : Instr) : Prop := i.wf = true → ∀ w, encode i = some w → w.readsAs i

/-! ### The shapes of full-form words, as equations -/

@[simp] theorem fw_eq (opc : Nat) (la : BitVec 4) (g : Guard) (d : BitVec 8) (a : BitVec 9) (asel : BitVec 3)
    (b : BitVec 9) (bsel : BitVec 3) (c : BitVec 9) (csel : BitVec 3) : fw opc la g d a asel b bsel c csel = ({ opc := BitVec.ofNat 10 opc, la, gn := g.gn, gp := g.gp, d, a, b, c, asel, bsel, csel } : FWord) := rfl
@[simp] theorem need_eq (b : Bool) : need b = (if b then some () else none : Option Unit) := rfl
@[simp] theorem ofForm_some (i : Instr) : Decoded.ofForm (some i) = .ok i := rfl
@[simp] theorem FWord_hdr_eq (f : FWord) : FWord.hdr f = ((decGuard f.gn f.gp).map fun g => ⟨f.la, g⟩ : Option Hdr) := rfl
@[simp] theorem FWord_oguard_eq (f : FWord) : FWord.oguard f = (if f.la = 0#4 then decGuard f.gn f.gp else none : Option Guard) := rfl
@[simp] theorem FWord_noA_eq (f : FWord) : FWord.noA f = (f.a == 0#9 && f.asel == 0#3 : Bool) := rfl
@[simp] theorem FWord_noB_eq (f : FWord) : FWord.noB f = (f.b == 0#9 && f.bsel == 0#3 : Bool) := rfl
@[simp] theorem FWord_noC_eq (f : FWord) : FWord.noC f = (f.c == 0#9 && f.csel == 0#3 : Bool) := rfl
@[simp] theorem FWord_noD_eq (f : FWord) : FWord.noD f = (f.d == 0#8 : Bool) := rfl
@[simp] theorem FWord_srcA_eq (f : FWord) : FWord.srcA f = (decSrc f.a f.asel : Option Src) := rfl
@[simp] theorem FWord_srcB_eq (f : FWord) : FWord.srcB f = (decSrc f.b f.bsel : Option Src) := rfl
@[simp] theorem FWord_srcC_eq (f : FWord) : FWord.srcC f = (decSrc f.c f.csel : Option Src) := rfl
@[simp] theorem FWord_srcA64_eq (f : FWord) : FWord.srcA64 f = (decSrc64 f.a f.asel : Option Src64) := rfl
@[simp] theorem FWord_srcB64_eq (f : FWord) : FWord.srcB64 f = (decSrc64 f.b f.bsel : Option Src64) := rfl
@[simp] theorem FWord_uA_eq (f : FWord) : FWord.uA f = (decUSrc f.a f.asel : Option USrc) := rfl
@[simp] theorem FWord_uB_eq (f : FWord) : FWord.uB f = (decUSrc f.b f.bsel : Option USrc) := rfl
@[simp] theorem FWord_uC_eq (f : FWord) : FWord.uC f = (decUSrc f.c f.csel : Option USrc) := rfl
@[simp] theorem FWord_uA64_eq (f : FWord) : FWord.uA64 f = (decUSrc64 f.a f.asel : Option USrc64) := rfl
@[simp] theorem FWord_uB64_eq (f : FWord) : FWord.uB64 f = (decUSrc64 f.b f.bsel : Option USrc64) := rfl
@[simp] theorem FWord_disp_eq (f : FWord) : FWord.disp f = (f.b ++ f.c : BitVec 18) := rfl
@[simp] theorem FWord_noSelBC_eq (f : FWord) : FWord.noSelBC f = (f.bsel == 0#3 && f.csel == 0#3 : Bool) := rfl
@[simp] theorem shape3_eq (f : FWord) (mk : Hdr → WReg → Src → Src → Src → Instr) : shape3 f mk = (do
  let h ← f.hdr; let a ← f.srcA; let b ← f.srcB; let c ← f.srcC
  pure (mk h f.d a b c) : Option Instr) := rfl
@[simp] theorem shape2_eq (f : FWord) (mk : Hdr → WReg → Src → Src → Instr) : shape2 f mk = (do
  let h ← f.hdr; let a ← f.srcA; let b ← f.srcB; need f.noC
  pure (mk h f.d a b) : Option Instr) := rfl
@[simp] theorem shape1_eq (f : FWord) (mk : Hdr → WReg → Src → Instr) : shape1 f mk = (do
  let h ← f.hdr; let a ← f.srcA; need f.noB; need f.noC
  pure (mk h f.d a) : Option Instr) := rfl
@[simp] theorem shapeP2_eq (f : FWord) (mk : Hdr → PReg → POp → POp → Instr) : shapeP2 f mk = (do
  let h ← f.hdr; let p ← decPReg f.d; let a ← decPOp f.a f.asel; let b ← decPOp f.b f.bsel; need f.noC
  pure (mk h p a b) : Option Instr) := rfl
@[simp] theorem shape64_eq (f : FWord) (mk : Hdr → WPair → Src64 → Src64 → Instr) : shape64 f mk = (do
  let h ← f.hdr; let d ← decPairD f.d; let a ← f.srcA64; let b ← f.srcB64; need f.noC
  pure (mk h d a b) : Option Instr) := rfl
@[simp] theorem shapeS2_eq (f : FWord) (mk : Hdr → SReg → USrc64 → USrc64 → Instr) : shapeS2 f mk = (do
  let h ← f.hdr; let d ← decSReg f.d; let a ← f.uA64; let b ← f.uB64; need f.noC
  pure (mk h d a b) : Option Instr) := rfl
@[simp] theorem shapeG_eq (f : FWord) (mk : Guard → Instr) : shapeG f mk = (do
  let g ← f.oguard; need f.noD; need f.noA; need f.noB; need f.noC
  pure (mk g) : Option Instr) := rfl
@[simp] theorem shapeLd_eq (f : FWord) (ok : Bool) (mk : Hdr → Bool → Bool → WReg → Src64 → Src → BitVec 7 → Option Instr) : shapeLd f ok mk = (do
  let h ← f.hdr; let a ← f.srcA64; let b ← f.srcB; let m ← decAccess f.c f.csel; need ok
  mk h m.1 m.2.1 f.d a b m.2.2 : Option Instr) := rfl
@[simp] theorem shapeLdsp_eq (f : FWord) (ok : Bool) (mk : Hdr → Bool → Bool → WReg → Src → Src → BitVec 7 → Option Instr) : shapeLdsp f ok mk = (do
  let h ← f.hdr; let a ← f.srcA; let b ← f.srcB; let m ← decAccess f.c f.csel; need ok
  mk h m.1 m.2.1 f.d a b m.2.2 : Option Instr) := rfl
@[simp] theorem shapeBuf_eq (f : FWord) (mk : Hdr → BufW → WReg → Fin 16 → Src → BitVec 7 → Instr) : shapeBuf f mk = (do
  let h ← f.hdr; let k ← decRaw 16 f.a f.asel; let b ← f.srcB
  let w ← if f.csel = 0#3 then decBufW (f.c.toNat / 128) else none
  need (dataRegOk w.bytes f.d)
  pure (mk h w f.d k b (BitVec.ofNat 7 (f.c.toNat % 128))) : Option Instr) := rfl
@[simp] theorem shapeTile_eq (f : FWord) (mk : Hdr → Bool → WQuad → Fin 4 → Src → Instr) : shapeTile f mk = (do
  let h ← f.hdr; let d ← decQuadD f.d; let t ← decRaw 4 f.a f.asel; let b ← f.srcB
  need (f.csel == 0#3 && f.c.toNat % 256 == 0)
  pure (mk h (256 ≤ f.c.toNat) d t b) : Option Instr) := rfl
@[simp] theorem shapeRange_eq (f : FWord) (mk : Hdr → Src64 → Src → Instr) : shapeRange f mk = (do
  let h ← f.hdr; need f.noD; let a ← f.srcA64; let b ← f.srcB; need f.noC
  pure (mk h a b) : Option Instr) := rfl
@[simp] theorem shapeK_eq (f : FWord) {n : Nat} (mk : Hdr → Fin n → Instr) : shapeK f mk = (do
  let h ← f.hdr; need f.noD; let k ← decRaw n f.a f.asel; need f.noB; need f.noC
  pure (mk h k) : Option Instr) := rfl
@[simp] theorem shapeU1_eq (f : FWord) (mk : Hdr → USrc → Instr) : shapeU1 f mk = (do
  let h ← f.hdr; need f.noD; let a ← f.uA; need f.noB; need f.noC
  pure (mk h a) : Option Instr) := rfl
@[simp] theorem shapeCall_eq (f : FWord) (mk : Guard → WReg → Src64 → Src → Instr) : shapeCall f mk = (do
  let g ← f.oguard; let a ← f.srcA64; let b ← f.srcB; need f.noC
  pure (mk g f.d a b) : Option Instr) := rfl
@[simp] theorem shapeRegs_eq (f : FWord) (mk : Guard → Src → Instr) : shapeRegs f mk = (do
  let g ← f.oguard; need f.noD; let a ← f.srcA; need f.noB; need f.noC
  pure (mk g a) : Option Instr) := rfl
@[simp] theorem shapeCount_eq (f : FWord) (mk : Guard → Operand → Instr) : shapeCount f mk = (do
  let g ← f.oguard; need f.noD; need (f.asel == 0#3); let a ← decOperand f.a; need f.noB; need f.noC
  pure (mk g a) : Option Instr) := rfl
@[simp] theorem decCvt_eq (f : FWord) (t : Fmt) : decCvt f t = (do
  let h ← f.hdr; let a ← f.srcA
  let m := Modifier.ofBits f.c
  need (f.csel == 0#3 && m.sc == 0)
  let s ← decFmt m.fmt
  need (cvtAllowed t s m.opt (decRmN m.rm))
  if t.width = 32 then do
    need f.noB
    pure (.cvt h t s m.opt (decRmN m.rm) f.d a none)
  else do
    let b ← f.srcB
    pure (.cvt h t s m.opt (decRmN m.rm) f.d a (some b)) : Option Instr) := rfl
@[simp] theorem decLd_eq (f : FWord) (n : Nat) : decLd f n = (do
  let w ← decLdW n
  shapeLd f (dataRegOk w.bytes f.d) fun h rlx x d a b off => do need (!x); pure (.ld h w rlx d a b off) : Option Instr) := rfl
@[simp] theorem decSt_eq (f : FWord) (n : Nat) : decSt f n = (do
  let w ← decStW n
  shapeLd f (dataRegOk w.bytes f.d) fun h rlx x d a b off => do need (!x); pure (.st h w rlx d a b off) : Option Instr) := rfl
@[simp] theorem decLdsp_eq (f : FWord) (n : Nat) : decLdsp f n = (do
  let w ← decLdW n
  shapeLdsp f (dataRegOk w.bytes f.d) fun h rlx x d a b off => do need (!x); pure (.ldsp h w rlx d a b off) : Option Instr) := rfl
@[simp] theorem decStsp_eq (f : FWord) (n : Nat) : decStsp f n = (do
  let w ← decStW n
  shapeLdsp f (dataRegOk w.bytes f.d) fun h rlx x d a b off => do need (!x); pure (.stsp h w rlx d a b off) : Option Instr) := rfl
@[simp] theorem decAtom_eq (f : FWord) (n : Nat) : decAtom f n = (do
  let h ← f.hdr; let op ← decAtomOp n; let m ← decAtomMod f.c f.csel
  let a ← f.srcA64; let b ← decAtomVal m.1 f.b f.bsel
  need (atomFieldsOk op m.1 f.d)
  pure (.atom h op m.2.1 m.2.2 f.d a b) : Option Instr) := rfl
@[simp] theorem decAtoms_eq (f : FWord) (n : Nat) : decAtoms f n = (do
  let h ← f.hdr; let op ← decAtomOp n; let m ← decAtomMod f.c f.csel
  let a ← f.srcA; let b ← decAtomVal m.1 f.b f.bsel
  need (atomFieldsOk op m.1 f.d)
  pure (.atoms h op m.2.1 m.2.2 f.d a b) : Option Instr) := rfl
@[simp] theorem decRed_eq (f : FWord) (n : Nat) : decRed f n = (do
  let h ← f.hdr; let op ← decAtomOp n; let m ← decAtomMod f.c f.csel
  let a ← f.srcA64; let b ← decAtomVal m.1 f.b f.bsel
  need f.noD; need (redOrdOk m.2.1); need (!(m.1 && op == .fadd))
  pure (.red h op m.2.1 m.2.2 a b) : Option Instr) := rfl
@[simp] theorem shape2m_eq {M : Type} (f : FWord) (m : Option M) (mk : Hdr → M → WReg → Src → Src → Instr) : shape2m f m mk = (do
  let h ← f.hdr; let a ← f.srcA; let b ← f.srcB; let x ← m
  pure (mk h x f.d a b) : Option Instr) := rfl

/-! ### From the fields to the word -/

theorem ofF {i : Instr} {f : FWord} (he : encodeF i = some f) (hd : i.wf = true → decodeF f = .ok i) : Statement i := by
  intro hw w h
  simp only [encode, he, Option.some.injEq] at h
  subst h
  show decode f.bits = .ok i
  simp only [decode, FWord.form, FWord.ofBits_bits]
  exact hd hw

theorem ofL {i : Instr} {f : LWord} (h0 : encodeF i = none) (he : encodeL i = some f) (hd : i.wf = true → decodeL f = .ok i) :
    Statement i := by
  intro hw w h
  simp only [encode, h0, he, Option.some.injEq] at h
  subst h
  show decode f.bits = .ok i
  simp only [decode, LWord.form, LWord.ofBits_bits]
  exact hd hw

theorem decHalf_reg (o : PairRegOp) (x : RegArgs) : decHalf (.reg o) (encHalf (.reg o x)) = some (.reg o x) := by
  obtain ⟨g, d, a, sel⟩ := x
  have h1 : (BitVec.ofNat 5 sel.bits.toNat).toNat = sel.bits.toNat := by cases sel <;> rfl
  have h2 : sel.bits.toNat < 8 := by cases sel <;> decide
  simp only [decHalf, encHalf, decOperand_enc, h1, h2, if_true]
  cases g <;> cases sel <;> rfl

theorem decHalf_imm (o : PairImmOp) (x : ImmArgs) : decHalf (.imm o) (encHalf (.imm o x)) = some (.imm o x) := by
  obtain ⟨g, d, a, m⟩ := x
  simp only [decHalf, encHalf, decOperand_enc]
  cases g <;> rfl

/-- What a half's POP field names (R97). -/
def opOf : PairHalf → PairOp
  | .reg o _ => .reg o
  | .imm o _ => .imm o

theorem decPop_enc (h : PairHalf) : decPop (encHalf h).pop.toNat = some (opOf h) := by
  cases h with
  | reg o x => cases o <;> rfl
  | imm o x => cases o <;> rfl

theorem decHalf_enc (h : PairHalf) : decHalf (opOf h) (encHalf h) = some h := by
  cases h with
  | reg o x => exact decHalf_reg o x
  | imm o x => exact decHalf_imm o x

theorem ofPair {i : Instr} {a b : PairHalf} (h0 : encodeF i = none) (h1 : encodeL i = none) (he : pairHalves i = some (a, b))
    (hw' : i.wf = pairLegal a b) (hi : pairInstr a b = i) : Statement i := by
  intro hw w h
  simp only [encode, h0, h1, he, Option.some.injEq] at h
  subst h
  show decode (pairBits (encHalf a) (encHalf b)) = .ok i
  rw [hw'] at hw
  simp only [decode, pairBits_form]
  show decodeP _ = _
  simp only [decodeP, pairBits_h0, pairBits_h1, PHalfWord.ofBits_bits, decPop_enc, decHalf_enc, hw, if_true, hi]

theorem ofHart {i : Instr} {r : RWord} (h0 : encodeF i = none) (h1 : encodeL i = none) (h2 : pairHalves i = none)
    (he : encodeHart i = some r) (hd : decodeHart r.bits = .ok i) : Statement i := by
  intro _ w h
  simp only [encode, h0, h1, h2, he, Option.some.injEq] at h
  subst h
  exact hd

theorem ofNone {i : Instr} (he : encode i = none) : Statement i := by
  intro _ w h; rw [he] at h; exact absurd h (by simp)

theorem add (h : Hdr) (sat : Option ITy) (d : WReg) (a b : Src) : Statement (.add h sat d a b) :=
  ofF rfl fun _ => by simp [decodeF, decClass0]
theorem sub (h : Hdr) (sat : Option ITy) (d : WReg) (a b : Src) : Statement (.sub h sat d a b) :=
  ofF rfl fun _ => by simp [decodeF, decClass0]
theorem mul (h : Hdr) (d : WReg) (a b : Src) : Statement (.mul h d a b) :=
  ofF rfl fun _ => by simp [decodeF, decClass0]
theorem mulhi (h : Hdr) (t : ITy) (d : WReg) (a b : Src) : Statement (.mulhi h t d a b) :=
  ofF rfl fun _ => by simp [decodeF, decClass0]
theorem mad (h : Hdr) (d : WReg) (a b c : Src) : Statement (.mad h d a b c) :=
  ofF rfl fun _ => by simp [decodeF, decClass0]
theorem div (h : Hdr) (t : ITy) (d : WReg) (a b : Src) : Statement (.div h t d a b) :=
  ofF rfl fun _ => by simp [decodeF, decClass0]
theorem rem (h : Hdr) (t : ITy) (d : WReg) (a b : Src) : Statement (.rem h t d a b) :=
  ofF rfl fun _ => by simp [decodeF, decClass0]
theorem abs (h : Hdr) (sat : Bool) (d : WReg) (a : Src) : Statement (.abs h sat d a) :=
  ofF rfl fun _ => by simp [decodeF, decClass0]
theorem min (h : Hdr) (t : ITy) (d : WReg) (a b : Src) : Statement (.min h t d a b) :=
  ofF rfl fun _ => by simp [decodeF, decClass0]
theorem max (h : Hdr) (t : ITy) (d : WReg) (a b : Src) : Statement (.max h t d a b) :=
  ofF rfl fun _ => by simp [decodeF, decClass0]
theorem mov (h : Hdr) (d : WReg) (a : Src) : Statement (.mov h d a) :=
  ofF rfl fun _ => by simp [decodeF, decClass0]
theorem movi (g : LGuard) (d : WReg) (imm : BitVec 32) : Statement (.movi g d imm) :=
  ofL rfl rfl fun _ => by simp [decodeL, need, Decoded.ofForm]
theorem sel (h : Hdr) (d : WReg) (a b : Src) (q : POp) : Statement (.sel h d a b q) :=
  ofF rfl fun _ => by simp [decodeF, decClass0]
theorem icmp (h : Hdr) (c : Cond) (p : PReg) (ops : IcmpOps) : Statement (.icmp h c p ops) :=
  by
  cases ops <;> exact ofF rfl fun _ => by simp [decodeF, decClass0]
theorem pand (h : Hdr) (p : PReg) (a b : POp) : Statement (.pand h p a b) :=
  ofF rfl fun _ => by simp [decodeF, decClass0]
theorem por (h : Hdr) (p : PReg) (a b : POp) : Statement (.por h p a b) :=
  ofF rfl fun _ => by simp [decodeF, decClass0]
theorem pxor (h : Hdr) (p : PReg) (a b : POp) : Statement (.pxor h p a b) :=
  ofF rfl fun _ => by simp [decodeF, decClass0]
theorem pnot (h : Hdr) (p : PReg) (a : POp) : Statement (.pnot h p a) :=
  ofF rfl fun _ => by simp [decodeF, decClass0]
theorem and (h : Hdr) (d : WReg) (a b : Src) : Statement (.and h d a b) :=
  ofF rfl fun _ => by simp [decodeF, decClass1]
theorem or (h : Hdr) (d : WReg) (a b : Src) : Statement (.or h d a b) :=
  ofF rfl fun _ => by simp [decodeF, decClass1]
theorem xor (h : Hdr) (d : WReg) (a b : Src) : Statement (.xor h d a b) :=
  ofF rfl fun _ => by simp [decodeF, decClass1]
theorem andn (h : Hdr) (d : WReg) (a b : Src) : Statement (.andn h d a b) :=
  ofF rfl fun _ => by simp [decodeF, decClass1]
theorem shl (h : Hdr) (d : WReg) (a b : Src) : Statement (.shl h d a b) :=
  ofF rfl fun _ => by simp [decodeF, decClass1]
theorem shr (h : Hdr) (d : WReg) (a b : Src) : Statement (.shr h d a b) :=
  ofF rfl fun _ => by simp [decodeF, decClass1]
theorem sra (h : Hdr) (d : WReg) (a b : Src) : Statement (.sra h d a b) :=
  ofF rfl fun _ => by simp [decodeF, decClass1]
theorem rot (h : Hdr) (d : WReg) (a b : Src) : Statement (.rot h d a b) :=
  ofF rfl fun _ => by simp [decodeF, decClass1]
theorem popc (h : Hdr) (d : WReg) (a : Src) : Statement (.popc h d a) :=
  ofF rfl fun _ => by simp [decodeF, decClass1]
theorem clz (h : Hdr) (d : WReg) (a : Src) : Statement (.clz h d a) :=
  ofF rfl fun _ => by simp [decodeF, decClass1]
theorem ctz (h : Hdr) (d : WReg) (a : Src) : Statement (.ctz h d a) :=
  ofF rfl fun _ => by simp [decodeF, decClass1]
theorem brev (h : Hdr) (d : WReg) (a : Src) : Statement (.brev h d a) :=
  ofF rfl fun _ => by simp [decodeF, decClass1]
theorem bfx (h : Hdr) (d : WReg) (a b c : Src) : Statement (.bfx h d a b c) :=
  ofF rfl fun _ => by simp [decodeF, decClass1]
theorem bfi (h : Hdr) (d : WReg) (a b c : Src) : Statement (.bfi h d a b c) :=
  ofF rfl fun _ => by simp [decodeF, decClass1]
theorem prmb (h : Hdr) (d : WReg) (a b c : Src) : Statement (.prmb h d a b c) :=
  ofF rfl fun _ => by simp [decodeF, decClass1]
theorem add2 (h : Hdr) (sat : Option ITy) (d : WReg) (a b : Src) : Statement (.add2 h sat d a b) :=
  ofF rfl fun _ => by simp [decodeF, decClass1]
theorem sub2 (h : Hdr) (sat : Option ITy) (d : WReg) (a b : Src) : Statement (.sub2 h sat d a b) :=
  ofF rfl fun _ => by simp [decodeF, decClass1]
theorem min2 (h : Hdr) (t : ITy) (d : WReg) (a b : Src) : Statement (.min2 h t d a b) :=
  ofF rfl fun _ => by simp [decodeF, decClass1]
theorem max2 (h : Hdr) (t : ITy) (d : WReg) (a b : Src) : Statement (.max2 h t d a b) :=
  ofF rfl fun _ => by simp [decodeF, decClass1]
theorem add4 (h : Hdr) (sat : Option ITy) (d : WReg) (a b : Src) : Statement (.add4 h sat d a b) :=
  ofF rfl fun _ => by simp [decodeF, decClass1]
theorem dot4 (h : Hdr) (ta tb : ITy) (d : WReg) (a b c : Src) : Statement (.dot4 h ta tb d a b c) :=
  by
  cases ta <;> cases tb <;> exact ofF rfl fun _ => by simp [decodeF, decClass1, signBit]
theorem dot8 (h : Hdr) (d : WReg) (a b c : Src) : Statement (.dot8 h d a b c) :=
  ofF rfl fun _ => by simp [decodeF, decClass1]
theorem dot2 (h : Hdr) (ta tb : ITy) (d : WReg) (a b c : Src) : Statement (.dot2 h ta tb d a b c) :=
  by
  cases ta <;> cases tb <;> exact ofF rfl fun _ => by simp [decodeF, decClass1, signBit]
theorem add64 (h : Hdr) (d : WPair) (a b : Src64) : Statement (.add64 h d a b) :=
  ofF rfl fun _ => by simp [decodeF, decClass2]
theorem sub64 (h : Hdr) (d : WPair) (a b : Src64) : Statement (.sub64 h d a b) :=
  ofF rfl fun _ => by simp [decodeF, decClass2]
theorem lea64 (h : Hdr) (d : WPair) (a : Src64) (b c : Src) : Statement (.lea64 h d a b c) :=
  ofF rfl fun _ => by simp [decodeF, decClass2]
theorem sadd (h : Hdr) (d : SReg) (a b : USrc64) : Statement (.sadd h d a b) :=
  ofF rfl fun hw => by simp only [Instr.wf, Bool.and_eq_true] at hw; simp [hw, decodeF, decClass2, decUSrc_enc, decUSrc64_enc, decUOperand_enc]
theorem ssub (h : Hdr) (d : SReg) (a b : USrc64) : Statement (.ssub h d a b) :=
  ofF rfl fun hw => by simp only [Instr.wf, Bool.and_eq_true] at hw; simp [hw, decodeF, decClass2, decUSrc_enc, decUSrc64_enc, decUOperand_enc]
theorem smul (h : Hdr) (d : SReg) (a b : USrc64) : Statement (.smul h d a b) :=
  ofF rfl fun hw => by simp only [Instr.wf, Bool.and_eq_true] at hw; simp [hw, decodeF, decClass2, decUSrc_enc, decUSrc64_enc, decUOperand_enc]
theorem sshl (h : Hdr) (d : SReg) (a b : USrc64) : Statement (.sshl h d a b) :=
  ofF rfl fun hw => by simp only [Instr.wf, Bool.and_eq_true] at hw; simp [hw, decodeF, decClass2, decUSrc_enc, decUSrc64_enc, decUOperand_enc]
theorem sshr (h : Hdr) (t : ITy) (d : SReg) (a b : USrc64) : Statement (.sshr h t d a b) :=
  by
  cases t <;> exact ofF rfl fun hw => by simp only [Instr.wf, atomWf, redWf, Bool.and_eq_true] at hw; simp [hw, decodeF, decClass2, signBit, decUSrc_enc, decUSrc64_enc, decUOperand_enc]
theorem sand (h : Hdr) (d : SReg) (a b : USrc64) : Statement (.sand h d a b) :=
  ofF rfl fun hw => by simp only [Instr.wf, Bool.and_eq_true] at hw; simp [hw, decodeF, decClass2, decUSrc_enc, decUSrc64_enc, decUOperand_enc]
theorem sor (h : Hdr) (d : SReg) (a b : USrc64) : Statement (.sor h d a b) :=
  ofF rfl fun hw => by simp only [Instr.wf, Bool.and_eq_true] at hw; simp [hw, decodeF, decClass2, decUSrc_enc, decUSrc64_enc, decUOperand_enc]
theorem smov (h : Hdr) (d : SReg) (a : USrc64) : Statement (.smov h d a) :=
  ofF rfl fun hw => by simp only [Instr.wf, Bool.and_eq_true] at hw; simp [hw, decodeF, decClass2, decUSrc_enc, decUSrc64_enc, decUOperand_enc]
theorem smovi (g : LGuard) (d : SReg) (imm : BitVec 32) : Statement (.smovi g d imm) :=
  ofL rfl rfl fun _ => by simp [decodeL, need, Decoded.ofForm]
theorem scmp (h : Hdr) (c : Cond) (p : PReg) (a b : USrc64) : Statement (.scmp h c p a b) :=
  ofF rfl fun hw => by simp only [Instr.wf, Bool.and_eq_true] at hw; simp [hw, decodeF, decClass2, decUSrc_enc, decUSrc64_enc, decUOperand_enc]
theorem sld (h : Hdr) (d : SReg) (a b : USrc64) : Statement (.sld h d a b) :=
  ofF rfl fun hw => by simp only [Instr.wf, Bool.and_eq_true] at hw; simp [hw, decodeF, decClass2, decUSrc_enc, decUSrc64_enc, decUOperand_enc]
theorem fadd (h : Hdr) (rm : Rm) (d : WReg) (a b : Src) : Statement (.fadd h rm d a b) :=
  ofF rfl fun hw => by simp only [Instr.wf, Bool.and_eq_true] at hw; simp [hw, decodeF, decClass3]
theorem fsub (h : Hdr) (rm : Rm) (d : WReg) (a b : Src) : Statement (.fsub h rm d a b) :=
  ofF rfl fun _ => by simp [decodeF, decClass3]
theorem fmul (h : Hdr) (rm : Rm) (d : WReg) (a b : Src) : Statement (.fmul h rm d a b) :=
  ofF rfl fun _ => by simp [decodeF, decClass3]
theorem ffma (h : Hdr) (rm : Rm) (d : WReg) (a b c : Src) : Statement (.ffma h rm d a b c) :=
  by
  cases rm <;> exact ofF rfl fun _ => by simp [decodeF, decClass3, Rm.code]
theorem fmin (h : Hdr) (d : WReg) (a b : Src) : Statement (.fmin h d a b) :=
  ofF rfl fun _ => by simp [decodeF, decClass3]
theorem fmax (h : Hdr) (d : WReg) (a b : Src) : Statement (.fmax h d a b) :=
  ofF rfl fun _ => by simp [decodeF, decClass3]
theorem fabs (h : Hdr) (d : WReg) (a : Src) : Statement (.fabs h d a) :=
  ofF rfl fun _ => by simp [decodeF, decClass3]
theorem fcmp (h : Hdr) (c : FCond) (p : PReg) (a b : Src) : Statement (.fcmp h c p a b) :=
  ofF rfl fun _ => by simp [decodeF, decClass3]
theorem fclass (h : Hdr) (p : PReg) (a b : Src) : Statement (.fclass h p a b) :=
  ofF rfl fun _ => by simp [decodeF, decClass3]
theorem frnd (h : Hdr) (rm : Rm) (d : WReg) (a : Src) : Statement (.frnd h rm d a) :=
  ofF rfl fun _ => by simp [decodeF, decClass3]
theorem hadd2 (h : Hdr) (d : WReg) (a b : Src) : Statement (.hadd2 h d a b) :=
  ofF rfl fun _ => by simp [decodeF, decClass4]
theorem hmul2 (h : Hdr) (d : WReg) (a b : Src) : Statement (.hmul2 h d a b) :=
  ofF rfl fun _ => by simp [decodeF, decClass4]
theorem hfma2 (h : Hdr) (d : WReg) (a b c : Src) : Statement (.hfma2 h d a b c) :=
  ofF rfl fun _ => by simp [decodeF, decClass4]
theorem badd2 (h : Hdr) (d : WReg) (a b : Src) : Statement (.badd2 h d a b) :=
  ofF rfl fun _ => by simp [decodeF, decClass4]
theorem bmul2 (h : Hdr) (d : WReg) (a b : Src) : Statement (.bmul2 h d a b) :=
  ofF rfl fun _ => by simp [decodeF, decClass4]
theorem bfma2 (h : Hdr) (d : WReg) (a b c : Src) : Statement (.bfma2 h d a b c) :=
  ofF rfl fun _ => by simp [decodeF, decClass4]
theorem cvt (h : Hdr) (t s : Fmt) (amax : Bool) (rm : Rm) (d : WReg) (a : Src) (b : Option Src) : Statement (.cvt h t s amax rm d a b) :=
  by
  cases t <;> cases b <;> exact ofF rfl fun hw => by
    simp only [Instr.wf, Bool.and_eq_true] at hw
    simp [Fmt.width, cvtAllowed, Fmt.isFloat, Fmt.isInt] at hw <;>
      simp [cvtAllowed, Fmt.isFloat, Fmt.isInt, Fmt.width, hw, show Fmt.f32.code = 0 from rfl, show Fmt.f16.code = 1 from rfl, show Fmt.bf16.code = 2 from rfl,
        show Fmt.e4m3.code = 3 from rfl, show Fmt.e5m2.code = 4 from rfl, show Fmt.s8.code = 6 from rfl, show Fmt.z8.code = 7 from rfl,
        show Fmt.s4.code = 8 from rfl, show Fmt.s16.code = 9 from rfl, show Fmt.s32.code = 10 from rfl, decodeF, decClass5]
theorem unpk (h : Hdr) (k : UnpkKind) (d : WPair) (a : Src) : Statement (.unpk h k d a) :=
  ofF rfl fun _ => by simp [decodeF, decClass5]
theorem qblk (h : Hdr) (amax : Bool) (d : WReg) (a : Src) : Statement (.qblk h amax d a) :=
  ofF rfl fun _ => by simp [decodeF, decClass5]
theorem rcpSeed (h : Hdr) (d : WReg) (a : Src) : Statement (.rcpSeed h d a) :=
  ofF rfl fun _ => by simp [decodeF, decClass6]
theorem rsqSeed (h : Hdr) (d : WReg) (a : Src) : Statement (.rsqSeed h d a) :=
  ofF rfl fun _ => by simp [decodeF, decClass6]
theorem ex2 (h : Hdr) (d : WReg) (a : Src) : Statement (.ex2 h d a) :=
  ofF rfl fun _ => by simp [decodeF, decClass6]
theorem lg2 (h : Hdr) (d : WReg) (a : Src) : Statement (.lg2 h d a) :=
  ofF rfl fun _ => by simp [decodeF, decClass6]
theorem sin (h : Hdr) (d : WReg) (a : Src) : Statement (.sin h d a) :=
  ofF rfl fun _ => by simp [decodeF, decClass6]
theorem cos (h : Hdr) (d : WReg) (a : Src) : Statement (.cos h d a) :=
  ofF rfl fun _ => by simp [decodeF, decClass6]
theorem bra (g : Guard) (disp : BitVec 18) : Statement (.bra g disp) :=
  ofF rfl fun _ => by simp [decodeF, decClass7]
theorem jmp (g : Guard) (a : Src64) : Statement (.jmp g a) :=
  ofF rfl fun _ => by simp [decodeF, decClass7]
theorem jmpLink (g : Guard) (d : WPair) (a : Src64) : Statement (.jmpLink g d a) :=
  ofF rfl fun _ => by simp [decodeF, decClass7]
theorem call (g : Guard) (d : WPair) (disp : BitVec 18) : Statement (.call g d disp) :=
  ofF rfl fun _ => by simp [decodeF, decClass7]
theorem ret (g : Guard) (a : Src64) : Statement (.ret g a) :=
  ofF rfl fun _ => by simp [decodeF, decClass7]
theorem loop (g : Guard) (a : Src) (disp : BitVec 18) : Statement (.loop g a disp) :=
  ofF rfl fun hw => by simp only [Instr.wf, Bool.and_eq_true] at hw; simp [hw, decodeF, decClass7]
theorem lbrk (g : Guard) : Statement (.lbrk g) :=
  ofF rfl fun _ => by simp [decodeF, decClass7]
theorem exit (g : Guard) : Statement (.exit g) :=
  ofF rfl fun _ => by simp [decodeF, decClass7]
theorem yield (g : Guard) : Statement (.yield g) :=
  ofF rfl fun _ => by simp [decodeF, decClass7]
theorem nap (g : Guard) (d : WReg) (a : Src64) (b : Src) : Statement (.nap g d a b) :=
  ofF rfl fun _ => by simp [decodeF, decClass7]
theorem nop (g : Guard) : Statement (.nop g) :=
  ofF rfl fun _ => by simp [decodeF, decClass7]
theorem shfl (h : Hdr) (f : ShflForm) : Statement (.shfl h f) :=
  by
  rcases f with ⟨_ | _ | _, _, _, _⟩ | _ <;> exact ofF rfl fun hw => by simp only [Instr.wf, atomWf, redWf, Bool.and_eq_true] at hw; simp [hw, decodeF, decClass8, decUSrc_enc, decUSrc64_enc, decUOperand_enc]
theorem vote (h : Hdr) (f : VoteForm) (p : PReg) (q : POp) : Statement (.vote h f p q) :=
  by
  cases f <;> exact ofF rfl fun hw => by simp only [Instr.wf, atomWf, redWf, Bool.and_eq_true] at hw; simp [hw, decodeF, decClass8, decUSrc_enc, decUSrc64_enc, decUOperand_enc]
theorem ballot (h : Hdr) (f : BallotForm) (q : POp) : Statement (.ballot h f q) :=
  by
  cases f <;> exact ofF rfl fun hw => by simp only [Instr.wf, atomWf, redWf, Bool.and_eq_true] at hw; simp [hw, decodeF, decClass8, decUSrc_enc, decUSrc64_enc, decUOperand_enc]
theorem redux (h : Hdr) (op : ReduxOp) (d : ReduxDst) (a : Src) : Statement (.redux h op d a) :=
  by
  cases d <;> exact ofF rfl fun _ => by simp [decodeF, decClass8]
theorem scan (h : Hdr) (op : ReduxOp) (excl : Bool) (d : WReg) (a : Src) : Statement (.scan h op excl d a) :=
  ofF rfl fun hw => by simp only [Instr.wf, Bool.and_eq_true] at hw; simp [hw, decodeF, decClass8]
theorem matchLanes (h : Hdr) (m : MatchMode) (d : WReg) (a : MatchSrc) : Statement (.matchLanes h m d a) :=
  by
  cases m <;> cases a <;> exact ofF rfl fun _ => by simp [decodeF, decClass8]
theorem ld (h : Hdr) (w : LdW) (rlx : Bool) (d : WReg) (base : Src64) (idx : Src) (off : BitVec 7) : Statement (.ld h w rlx d base idx off) :=
  by
  cases w <;> exact ofF rfl fun hw => by simp only [Instr.wf, atomWf, redWf, Bool.and_eq_true] at hw; simp [hw, decodeF, decClass9, LdW.code, decLdW]
theorem st (h : Hdr) (w : StW) (rlx : Bool) (d : WReg) (base : Src64) (idx : Src) (off : BitVec 7) : Statement (.st h w rlx d base idx off) :=
  by
  cases w <;> exact ofF rfl fun hw => by simp only [Instr.wf, atomWf, redWf, Bool.and_eq_true] at hw; simp [hw, decodeF, decClass9, StW.code, decStW]
theorem ldsp (h : Hdr) (w : LdW) (rlx : Bool) (d : WReg) (base : Src) (idx : Src) (off : BitVec 7) : Statement (.ldsp h w rlx d base idx off) :=
  by
  cases w <;> exact ofF rfl fun hw => by simp only [Instr.wf, atomWf, redWf, Bool.and_eq_true] at hw; simp [hw, decodeF, decClass9, LdW.code, decLdW]
theorem stsp (h : Hdr) (w : StW) (rlx : Bool) (d : WReg) (base : Src) (idx : Src) (off : BitVec 7) : Statement (.stsp h w rlx d base idx off) :=
  by
  cases w <;> exact ofF rfl fun hw => by simp only [Instr.wf, atomWf, redWf, Bool.and_eq_true] at hw; simp [hw, decodeF, decClass9, StW.code, decStW]
theorem ldf (h : Hdr) (take : Bool) (d : WQuad) (base : Src) (idx : Src) (off : BitVec 7) : Statement (.ldf h take d base idx off) :=
  ofF rfl fun _ => by simp [decodeF, decClass9]
theorem stf (h : Hdr) (wait : Bool) (d : WQuad) (base : Src) (idx : Src) (off : BitVec 7) : Statement (.stf h wait d base idx off) :=
  ofF rfl fun _ => by simp [decodeF, decClass9]
theorem lda (h : Hdr) (w : BufW) (d : WReg) (k : Fin 16) (idx : Src) (off : BitVec 7) : Statement (.lda h w d k idx off) :=
  ofF rfl fun hw => by simp only [Instr.wf] at hw; simp [hw, bufMod_width, ofNat7_mod, decodeF, decClass9]
theorem sta (h : Hdr) (w : BufW) (d : WReg) (k : Fin 16) (idx : Src) (off : BitVec 7) : Statement (.sta h w d k idx off) :=
  ofF rfl fun hw => by simp only [Instr.wf] at hw; simp [hw, bufMod_width, ofNat7_mod, decodeF, decClass9]
theorem ldc (h : Hdr) (col : Bool) (d : WQuad) (t : Fin 4) (idx : Src) : Statement (.ldc h col d t idx) :=
  by
  cases col <;> exact ofF rfl fun _ => by simp [decodeF, decClass9]
theorem stc (h : Hdr) (col : Bool) (d : WQuad) (t : Fin 4) (idx : Src) : Statement (.stc h col d t idx) :=
  by
  cases col <;> exact ofF rfl fun _ => by simp [decodeF, decClass9]
theorem pf (h : Hdr) (x : Bool) (base : Src64) (idx : Src) (off : BitVec 7) : Statement (.pf h x base idx off) :=
  ofF rfl fun _ => by simp [decodeF, decClass9]
theorem atom (h : Hdr) (op : AtomOp) (ord : AtomOrd) (sc : Scope) (d : WReg) (a : Src64) (b : AtomVal) : Statement (.atom h op ord sc d a b) :=
  by
  cases op <;> exact ofF rfl fun hw => by simp only [Instr.wf, atomWf, redWf, Bool.and_eq_true] at hw; simp [hw, decodeF, decClassA, AtomOp.code, decAtomOp]
theorem atoms (h : Hdr) (op : AtomOp) (ord : AtomOrd) (sc : Scope) (d : WReg) (a : Src) (b : AtomVal) : Statement (.atoms h op ord sc d a b) :=
  by
  cases op <;> exact ofF rfl fun hw => by simp only [Instr.wf, atomWf, redWf, Bool.and_eq_true] at hw; simp [hw, decodeF, decClassA, AtomOp.code, decAtomOp]
theorem red (h : Hdr) (op : AtomOp) (ord : AtomOrd) (sc : Scope) (a : Src64) (b : AtomVal) : Statement (.red h op ord sc a b) :=
  by
  cases op <;> cases b <;> exact ofF rfl fun hw => by
    simp [Instr.wf, redWf, AtomVal.wide] at hw <;>
      simp [hw, AtomVal.wide, decAtomVal, AtomVal.opBits, AtomVal.selBits, decodeF, decClassA, AtomOp.code, decAtomOp]
theorem fence (g : Guard) (k : FenceKind) (sc : Scope) : Statement (.fence g k sc) :=
  by
  cases k <;> cases sc <;> exact ofF rfl fun hw => by simp only [Instr.wf, atomWf, redWf, Bool.and_eq_true] at hw; simp [hw, decodeF, decClassA, FenceKind.code, Scope.code, decFenceKind, decScope]
theorem cleanR (h : Hdr) (a : Src64) (b : Src) : Statement (.cleanR h a b) :=
  ofF rfl fun _ => by simp [decodeF, decClassA]
theorem invalR (h : Hdr) (a : Src64) (b : Src) : Statement (.invalR h a b) :=
  ofF rfl fun _ => by simp [decodeF, decClassA]
theorem flushR (h : Hdr) (a : Src64) (b : Src) : Statement (.flushR h a b) :=
  ofF rfl fun _ => by simp [decodeF, decClassA]
theorem barArrive (g : Guard) (b : Fin 10) : Statement (.barArrive g b) :=
  ofF rfl fun _ => by simp [decodeF, decClassA]
theorem barWait (g : Guard) (b : Fin 10) : Statement (.barWait g b) :=
  ofF rfl fun _ => by simp [decodeF, decClassA]
theorem barSync (g : Guard) (b : Fin 9) : Statement (.barSync g b) :=
  ofF rfl fun _ => by simp [decodeF, decClassA]
theorem barSwap (g : Guard) : Statement (.barSwap g) :=
  ofF rfl fun _ => by simp [decodeF, decClassA]
theorem mbarInit (h : Hdr) (a b : Src) : Statement (.mbarInit h a b) :=
  ofF rfl fun _ => by simp [decodeF, decClassA]
theorem mbarArrive (h : Hdr) (d : WReg) (a b : Src) : Statement (.mbarArrive h d a b) :=
  ofF rfl fun _ => by simp [decodeF, decClassA]
theorem mbarExpect (h : Hdr) (a b : Src) : Statement (.mbarExpect h a b) :=
  ofF rfl fun _ => by simp [decodeF, decClassA]
theorem mbarWait (g : Guard) (a b : Src) : Statement (.mbarWait g a b) :=
  ofF rfl fun _ => by simp [decodeF, decClassA]
theorem rsv (h : Hdr) (k : Fin 16) (a : USrc64) (b c : USrc) : Statement (.rsv h k a b c) :=
  ofF rfl fun hw => by simp only [Instr.wf, Bool.and_eq_true] at hw; simp [hw, decodeF, decClassB, decUSrc_enc, decUSrc64_enc, decUOperand_enc]
theorem unrsv (h : Hdr) (k : Fin 16) : Statement (.unrsv h k) :=
  ofF rfl fun _ => by simp [decodeF, decClassB]
theorem zacc (h : Hdr) (t : Fin 4) : Statement (.zacc h t) :=
  ofF rfl fun _ => by simp [decodeF, decClassB]
theorem mma (h : Hdr) (t : Fin 4) (ka kb : Fin 16) (c : USrc) : Statement (.mma h t ka kb c) :=
  ofF rfl fun hw => by simp only [Instr.wf, Bool.and_eq_true] at hw; simp [hw, decodeF, decClassB, decUSrc_enc, decUSrc64_enc, decUOperand_enc]
theorem acq (h : Hdr) (t : Fin 4) : Statement (.acq h t) :=
  ofF rfl fun _ => by simp [decodeF, decClassB]
theorem rel (h : Hdr) (t : Fin 4) : Statement (.rel h t) :=
  ofF rfl fun _ => by simp [decodeF, decClassB]
theorem cpy (h : Hdr) (n : CpyW) (dst src : Src64) : Statement (.cpy h n dst src) :=
  by
  cases n <;> exact ofF rfl fun _ => by simp [decodeF, decClassC]
theorem cpyo (h : Hdr) (d : SReg) : Statement (.cpyo h d) :=
  ofF rfl fun _ => by simp [decodeF, decClassC]
theorem cpyc (h : Hdr) (a : USrc) : Statement (.cpyc h a) :=
  ofF rfl fun hw => by simp only [Instr.wf, Bool.and_eq_true] at hw; simp [hw, decodeF, decClassC, decUSrc_enc, decUSrc64_enc, decUOperand_enc]
theorem patch (h : Hdr) (a b c : USrc) : Statement (.patch h a b c) :=
  ofF rfl fun hw => by simp only [Instr.wf, Bool.and_eq_true] at hw; simp [hw, decodeF, decClassC, decUSrc_enc, decUSrc64_enc, decUOperand_enc]
theorem go (h : Hdr) (a : USrc) : Statement (.go h a) :=
  ofF rfl fun hw => by simp only [Instr.wf, Bool.and_eq_true] at hw; simp [hw, decodeF, decClassC, decUSrc_enc, decUSrc64_enc, decUOperand_enc]
theorem rinit (h : Hdr) (n : Fin 16) (a b : USrc) : Statement (.rinit h n a b) :=
  ofF rfl fun hw => by simp only [Instr.wf, Bool.and_eq_true] at hw; simp [hw, decodeF, decClassC, decUSrc_enc, decUSrc64_enc, decUOperand_enc]
theorem await (g : Guard) (d : SReg) (n : Fin 16) : Statement (.await g d n) :=
  ofF rfl fun _ => by simp [decodeF, decClassC]
theorem rels (h : Hdr) (n : Fin 16) (a : USrc) : Statement (.rels h n a) :=
  ofF rfl fun hw => by simp only [Instr.wf, Bool.and_eq_true] at hw; simp [hw, decodeF, decClassC, decUSrc_enc, decUSrc64_enc, decUOperand_enc]
theorem deq (g : Guard) (d : WOct) (a : Src64) : Statement (.deq g d a) :=
  ofF rfl fun _ => by simp [decodeF, decClassC]
theorem enq (h : Hdr) (a : Src64) (d : WOct) : Statement (.enq h a d) :=
  ofF rfl fun _ => by simp [decodeF, decClassC]
theorem qsub (h : Hdr) (d : SReg) (a b : USrc) : Statement (.qsub h d a b) :=
  ofF rfl fun hw => by simp only [Instr.wf, Bool.and_eq_true] at hw; simp [hw, decodeF, decClassD, decUSrc_enc, decUSrc64_enc, decUOperand_enc]
theorem qcancel (h : Hdr) (a : USrc) : Statement (.qcancel h a) :=
  ofF rfl fun hw => by simp only [Instr.wf, Bool.and_eq_true] at hw; simp [hw, decodeF, decClassD, decUSrc_enc, decUSrc64_enc, decUOperand_enc]
theorem svc (g : Guard) (d : WReg) (a : Src64) (b : Src) : Statement (.svc g d a b) :=
  ofF rfl fun _ => by simp [decodeF, decClassD]
theorem rcall (g : Guard) (d : WReg) (a : Src64) (b : Src) : Statement (.rcall g d a b) :=
  ofF rfl fun _ => by simp [decodeF, decClassD]
theorem fqack (g : Guard) (d : WReg) (a : Src64) (b : Src) : Statement (.fqack g d a b) :=
  ofF rfl fun _ => by simp [decodeF, decClassD]
theorem rgrow (g : Guard) (a : Operand) : Statement (.rgrow g a) :=
  ofF rfl fun _ => by simp [decodeF, decClassD]; rfl
theorem rshrink (g : Guard) (a : Operand) : Statement (.rshrink g a) :=
  ofF rfl fun _ => by simp [decodeF, decClassD]; rfl
theorem mfs (g : Guard) (d : WReg) (r : SpecialReg) : Statement (.mfs g d r) :=
  ofF rfl fun hw => by simp [Instr.wf] at hw; simp [hw, decodeF, decClassE]
theorem mts (g : Guard) (r : SpecialReg) (a : MtsSrc) : Statement (.mts g r a) :=
  by
  cases a <;> exact ofF rfl fun hw => by
    simp [Instr.wf, MtsSrc.wide] at hw; simp [hw, decodeF, decClassE]
theorem trap (g : Guard) (a : Src) : Statement (.trap g a) :=
  ofF rfl fun _ => by simp [decodeF, decClassE]
theorem rett (g : Guard) : Statement (.rett g) :=
  ofF rfl fun _ => by simp [decodeF, decClassE]
theorem tkill (g : Guard) : Statement (.tkill g) :=
  ofF rfl fun _ => by simp [decodeF, decClassE]
theorem ebrk (g : Guard) : Statement (.ebrk g) :=
  ofF rfl fun _ => by simp [decodeF, decClassE]
theorem fencex (g : Guard) : Statement (.fencex g) :=
  ofF rfl fun _ => by simp [decodeF, decClassE]
theorem addLongImmediate (g : LGuard) (d : WReg) (a : Operand) (imm : BitVec 32) : Statement (.addLongImmediate g d a imm) :=
  ofL rfl rfl fun _ => by simp [decodeL, need, Decoded.ofForm]
theorem subLongImmediate (g : LGuard) (d : WReg) (a : Operand) (imm : BitVec 32) : Statement (.subLongImmediate g d a imm) :=
  ofL rfl rfl fun _ => by simp [decodeL, need, Decoded.ofForm]
theorem mulLongImmediate (g : LGuard) (d : WReg) (a : Operand) (imm : BitVec 32) : Statement (.mulLongImmediate g d a imm) :=
  ofL rfl rfl fun _ => by simp [decodeL, need, Decoded.ofForm]
theorem minLongImmediate (g : LGuard) (d : WReg) (a : Operand) (imm : BitVec 32) : Statement (.minLongImmediate g d a imm) :=
  ofL rfl rfl fun _ => by simp [decodeL, need, Decoded.ofForm]
theorem maxLongImmediate (g : LGuard) (d : WReg) (a : Operand) (imm : BitVec 32) : Statement (.maxLongImmediate g d a imm) :=
  ofL rfl rfl fun _ => by simp [decodeL, need, Decoded.ofForm]
theorem andLongImmediate (g : LGuard) (d : WReg) (a : Operand) (imm : BitVec 32) : Statement (.andLongImmediate g d a imm) :=
  ofL rfl rfl fun _ => by simp [decodeL, need, Decoded.ofForm]
theorem orLongImmediate (g : LGuard) (d : WReg) (a : Operand) (imm : BitVec 32) : Statement (.orLongImmediate g d a imm) :=
  ofL rfl rfl fun _ => by simp [decodeL, need, Decoded.ofForm]
theorem xorLongImmediate (g : LGuard) (d : WReg) (a : Operand) (imm : BitVec 32) : Statement (.xorLongImmediate g d a imm) :=
  ofL rfl rfl fun _ => by simp [decodeL, need, Decoded.ofForm]
theorem andnLongImmediate (g : LGuard) (d : WReg) (a : Operand) (imm : BitVec 32) : Statement (.andnLongImmediate g d a imm) :=
  ofL rfl rfl fun _ => by simp [decodeL, need, Decoded.ofForm]
theorem add64LongImmediate (g : LGuard) (d : WPair) (a : Operand64) (imm : BitVec 32) : Statement (.add64LongImmediate g d a imm) :=
  ofL rfl rfl fun _ => by simp [decodeL, need, Decoded.ofForm]
theorem sub64LongImmediate (g : LGuard) (d : WPair) (a : Operand64) (imm : BitVec 32) : Statement (.sub64LongImmediate g d a imm) :=
  ofL rfl rfl fun _ => by simp [decodeL, need, Decoded.ofForm]
theorem lea64LongImmediate (g : LGuard) (d : WPair) (a : Operand64) (imm : BitVec 32) : Statement (.lea64LongImmediate g d a imm) :=
  ofL rfl rfl fun _ => by simp [decodeL, need, Decoded.ofForm]
theorem saddLongImmediate (g : LGuard) (d : SReg) (a : UOperand) (imm : BitVec 32) : Statement (.saddLongImmediate g d a imm) :=
  ofL rfl rfl fun hw => by simp only [Instr.wf] at hw; simp [hw, decodeL, need, Decoded.ofForm, decUSrc_enc, decUSrc64_enc, decUOperand_enc]
theorem ssubLongImmediate (g : LGuard) (d : SReg) (a : UOperand) (imm : BitVec 32) : Statement (.ssubLongImmediate g d a imm) :=
  ofL rfl rfl fun hw => by simp only [Instr.wf] at hw; simp [hw, decodeL, need, Decoded.ofForm, decUSrc_enc, decUSrc64_enc, decUOperand_enc]
theorem smulLongImmediate (g : LGuard) (d : SReg) (a : UOperand) (imm : BitVec 32) : Statement (.smulLongImmediate g d a imm) :=
  ofL rfl rfl fun hw => by simp only [Instr.wf] at hw; simp [hw, decodeL, need, Decoded.ofForm, decUSrc_enc, decUSrc64_enc, decUOperand_enc]
theorem sandLongImmediate (g : LGuard) (d : SReg) (a : UOperand) (imm : BitVec 32) : Statement (.sandLongImmediate g d a imm) :=
  ofL rfl rfl fun hw => by simp only [Instr.wf] at hw; simp [hw, decodeL, need, Decoded.ofForm, decUSrc_enc, decUSrc64_enc, decUOperand_enc]
theorem sorLongImmediate (g : LGuard) (d : SReg) (a : UOperand) (imm : BitVec 32) : Statement (.sorLongImmediate g d a imm) :=
  ofL rfl rfl fun hw => by simp only [Instr.wf] at hw; simp [hw, decodeL, need, Decoded.ofForm, decUSrc_enc, decUSrc64_enc, decUOperand_enc]
theorem faddLongImmediate (g : LGuard) (d : WReg) (a : Operand) (imm : BitVec 32) : Statement (.faddLongImmediate g d a imm) :=
  ofL rfl rfl fun _ => by simp [decodeL, need, Decoded.ofForm]
theorem fsubLongImmediate (g : LGuard) (d : WReg) (a : Operand) (imm : BitVec 32) : Statement (.fsubLongImmediate g d a imm) :=
  ofL rfl rfl fun _ => by simp [decodeL, need, Decoded.ofForm]
theorem fmulLongImmediate (g : LGuard) (d : WReg) (a : Operand) (imm : BitVec 32) : Statement (.fmulLongImmediate g d a imm) :=
  ofL rfl rfl fun _ => by simp [decodeL, need, Decoded.ofForm]
theorem fminLongImmediate (g : LGuard) (d : WReg) (a : Operand) (imm : BitVec 32) : Statement (.fminLongImmediate g d a imm) :=
  ofL rfl rfl fun _ => by simp [decodeL, need, Decoded.ofForm]
theorem fmaxLongImmediate (g : LGuard) (d : WReg) (a : Operand) (imm : BitVec 32) : Statement (.fmaxLongImmediate g d a imm) :=
  ofL rfl rfl fun _ => by simp [decodeL, need, Decoded.ofForm]
theorem sldLongImmediate (g : LGuard) (d : SReg) (a : UOperand) (imm : BitVec 32) : Statement (.sldLongImmediate g d a imm) :=
  ofL rfl rfl fun hw => by simp only [Instr.wf] at hw; simp [hw, decodeL, need, Decoded.ofForm, decUSrc_enc, decUSrc64_enc, decUOperand_enc]
theorem ldLongImmediate (g : LGuard) (w : LdW) (d : WReg) (a : Operand64) (imm : BitVec 32) : Statement (.ldLongImmediate g w d a imm) :=
  by
  cases w <;> exact ofL rfl rfl fun hw => by simp only [Instr.wf] at hw; simp [hw, decodeL, need, Decoded.ofForm, LdW.code, StW.code, decLdW, decStW]
theorem stLongImmediate (g : LGuard) (w : StW) (d : WReg) (a : Operand64) (imm : BitVec 32) : Statement (.stLongImmediate g w d a imm) :=
  by
  cases w <;> exact ofL rfl rfl fun hw => by simp only [Instr.wf] at hw; simp [hw, decodeL, need, Decoded.ofForm, LdW.code, StW.code, decLdW, decStW]
theorem ldspLongImmediate (g : LGuard) (w : LdW) (d : WReg) (a : Operand) (imm : BitVec 32) : Statement (.ldspLongImmediate g w d a imm) :=
  by
  cases w <;> exact ofL rfl rfl fun hw => by simp only [Instr.wf] at hw; simp [hw, decodeL, need, Decoded.ofForm, LdW.code, StW.code, decLdW, decStW]
theorem stspLongImmediate (g : LGuard) (w : StW) (d : WReg) (a : Operand) (imm : BitVec 32) : Statement (.stspLongImmediate g w d a imm) :=
  by
  cases w <;> exact ofL rfl rfl fun hw => by simp only [Instr.wf] at hw; simp [hw, decodeL, need, Decoded.ofForm, LdW.code, StW.code, decLdW, decStW]
theorem pfLongImmediate (g : LGuard) (a : Operand64) (imm : BitVec 32) : Statement (.pfLongImmediate g a imm) :=
  ofL rfl rfl fun _ => by simp [decodeL, need, Decoded.ofForm]
theorem braLongImmediate (g : LGuard) (imm : BitVec 32) : Statement (.braLongImmediate g imm) :=
  ofL rfl rfl fun _ => by simp [decodeL, need, Decoded.ofForm]
theorem callLongImmediate (g : LGuard) (d : WPair) (imm : BitVec 32) : Statement (.callLongImmediate g d imm) :=
  ofL rfl rfl fun _ => by simp [decodeL, need, Decoded.ofForm]
theorem loopLongImmediate (g : LGuard) (a : Operand) (imm : BitVec 32) : Statement (.loopLongImmediate g a imm) :=
  ofL rfl rfl fun hw => by simp only [Instr.wf] at hw; simp [hw, decodeL, need, Decoded.ofForm]
theorem pairAdd (x : RegArgs) (h1 : PairHalf) : Statement (.pairAdd x h1) := ofPair rfl rfl rfl rfl rfl
theorem pairSub (x : RegArgs) (h1 : PairHalf) : Statement (.pairSub x h1) := ofPair rfl rfl rfl rfl rfl
theorem pairMul (x : RegArgs) (h1 : PairHalf) : Statement (.pairMul x h1) := ofPair rfl rfl rfl rfl rfl
theorem pairAnd (x : RegArgs) (h1 : PairHalf) : Statement (.pairAnd x h1) := ofPair rfl rfl rfl rfl rfl
theorem pairOr (x : RegArgs) (h1 : PairHalf) : Statement (.pairOr x h1) := ofPair rfl rfl rfl rfl rfl
theorem pairXor (x : RegArgs) (h1 : PairHalf) : Statement (.pairXor x h1) := ofPair rfl rfl rfl rfl rfl
theorem pairAndn (x : RegArgs) (h1 : PairHalf) : Statement (.pairAndn x h1) := ofPair rfl rfl rfl rfl rfl
theorem pairMinS32 (x : RegArgs) (h1 : PairHalf) : Statement (.pairMinS32 x h1) := ofPair rfl rfl rfl rfl rfl
theorem pairMaxS32 (x : RegArgs) (h1 : PairHalf) : Statement (.pairMaxS32 x h1) := ofPair rfl rfl rfl rfl rfl
theorem pairMinZ32 (x : RegArgs) (h1 : PairHalf) : Statement (.pairMinZ32 x h1) := ofPair rfl rfl rfl rfl rfl
theorem pairMaxZ32 (x : RegArgs) (h1 : PairHalf) : Statement (.pairMaxZ32 x h1) := ofPair rfl rfl rfl rfl rfl
theorem pairMov (x : RegArgs) (h1 : PairHalf) : Statement (.pairMov x h1) := ofPair rfl rfl rfl rfl rfl
theorem pairAdd2 (x : RegArgs) (h1 : PairHalf) : Statement (.pairAdd2 x h1) := ofPair rfl rfl rfl rfl rfl
theorem pairSub2 (x : RegArgs) (h1 : PairHalf) : Statement (.pairSub2 x h1) := ofPair rfl rfl rfl rfl rfl
theorem pairAdd4 (x : RegArgs) (h1 : PairHalf) : Statement (.pairAdd4 x h1) := ofPair rfl rfl rfl rfl rfl
theorem pairFadd (x : RegArgs) (h1 : PairHalf) : Statement (.pairFadd x h1) := ofPair rfl rfl rfl rfl rfl
theorem pairFsub (x : RegArgs) (h1 : PairHalf) : Statement (.pairFsub x h1) := ofPair rfl rfl rfl rfl rfl
theorem pairFmul (x : RegArgs) (h1 : PairHalf) : Statement (.pairFmul x h1) := ofPair rfl rfl rfl rfl rfl
theorem pairFmin (x : RegArgs) (h1 : PairHalf) : Statement (.pairFmin x h1) := ofPair rfl rfl rfl rfl rfl
theorem pairFmax (x : RegArgs) (h1 : PairHalf) : Statement (.pairFmax x h1) := ofPair rfl rfl rfl rfl rfl
theorem pairHadd2 (x : RegArgs) (h1 : PairHalf) : Statement (.pairHadd2 x h1) := ofPair rfl rfl rfl rfl rfl
theorem pairHmul2 (x : RegArgs) (h1 : PairHalf) : Statement (.pairHmul2 x h1) := ofPair rfl rfl rfl rfl rfl
theorem pairBadd2 (x : RegArgs) (h1 : PairHalf) : Statement (.pairBadd2 x h1) := ofPair rfl rfl rfl rfl rfl
theorem pairBmul2 (x : RegArgs) (h1 : PairHalf) : Statement (.pairBmul2 x h1) := ofPair rfl rfl rfl rfl rfl
theorem pairShl (x : ImmArgs) (h1 : PairHalf) : Statement (.pairShl x h1) := ofPair rfl rfl rfl rfl rfl
theorem pairShr (x : ImmArgs) (h1 : PairHalf) : Statement (.pairShr x h1) := ofPair rfl rfl rfl rfl rfl
theorem pairSra (x : ImmArgs) (h1 : PairHalf) : Statement (.pairSra x h1) := ofPair rfl rfl rfl rfl rfl
theorem pairRot (x : ImmArgs) (h1 : PairHalf) : Statement (.pairRot x h1) := ofPair rfl rfl rfl rfl rfl
theorem pairAddImmediate (x : ImmArgs) (h1 : PairHalf) : Statement (.pairAddImmediate x h1) := ofPair rfl rfl rfl rfl rfl
theorem pairSubImmediate (x : ImmArgs) (h1 : PairHalf) : Statement (.pairSubImmediate x h1) := ofPair rfl rfl rfl rfl rfl
theorem spawn (rd rs1 rs2 : BitVec 5) : Statement (.spawn rd rs1 rs2) :=
  ofHart rfl rfl rfl rfl (by simp [decodeHart, RWord.ofBits_bits, encR, custom0])
theorem joinw (rd rs1 : BitVec 5) : Statement (.joinw rd rs1) :=
  ofHart rfl rfl rfl rfl (by simp [decodeHart, RWord.ofBits_bits, encR, custom0])
theorem ecreate (rd rs1 : BitVec 5) : Statement (.ecreate rd rs1) :=
  ofHart rfl rfl rfl rfl (by simp [decodeHart, RWord.ofBits_bits, encR, custom0])
theorem edestroy (rd rs1 : BitVec 5) : Statement (.edestroy rd rs1) :=
  ofHart rfl rfl rfl rfl (by simp [decodeHart, RWord.ofBits_bits, encR, custom0])
theorem eattest (rd rs1 rs2 : BitVec 5) : Statement (.eattest rd rs1 rs2) :=
  ofHart rfl rfl rfl rfl (by simp [decodeHart, RWord.ofBits_bits, encR, custom0])
theorem illegalOpcode (w : BitVec 64) : Statement (.illegalOpcode w) := ofNone rfl
theorem illegalInstructionException (w : BitVec 32) : Statement (.illegalInstructionException w) := ofNone rfl
theorem spawnAppend (hart : Nat) : Statement (.spawnAppend hart) := ofNone rfl
theorem joinwComplete (hart : Nat) : Statement (.joinwComplete hart) := ofNone rfl
theorem map : Statement (.map) := ofNone rfl
theorem unmap : Statement (.unmap) := ofNone rfl
theorem prot : Statement (.prot) := ofNone rfl
theorem move : Statement (.move) := ofNone rfl
theorem sealPage : Statement (.sealPage) := ofNone rfl
theorem unsealPage : Statement (.unsealPage) := ofNone rfl
theorem usage : Statement (.usage) := ofNone rfl
theorem svcq : Statement (.svcq) := ofNone rfl
theorem spdmCall : Statement (.spdmCall) := ofNone rfl
theorem bind : Statement (.bind) := ofNone rfl
theorem pload : Statement (.pload) := ofNone rfl
theorem punload : Statement (.punload) := ofNone rfl
theorem range : Statement (.range) := ofNone rfl
theorem coldReset : Statement (.coldReset) := ofNone rfl
theorem warmReset : Statement (.warmReset) := ofNone rfl
theorem firmwareImage (leader : Option (BitVec 16)) (img : List Byte) : Statement (.firmwareImage leader img) := ofNone rfl
theorem hostLinkTraining (cxl : Bool) : Statement (.hostLinkTraining cxl) := ofNone rfl
theorem hello (port : Fin 12) (pod : BitVec 16) : Statement (.hello port pod) := ofNone rfl
theorem discoveryWindowEnd : Statement (.discoveryWindowEnd) := ofNone rfl
theorem claim (port : Fin 12) (pod : BitVec 16) (nonce : BitVec 64) (sig : List Byte) : Statement (.claim port pod nonce sig) := ofNone rfl
theorem leaderSilent : Statement (.leaderSilent) := ofNone rfl
theorem podFlitReceive (port : Fin 12) (f : PodFlit) : Statement (.podFlitReceive port f) := ofNone rfl
theorem staggeredStartStep : Statement (.staggeredStartStep) := ofNone rfl
theorem arrayRampDone (core : Nat) : Statement (.arrayRampDone core) := ofNone rfl
theorem pwrlim (v : BitVec 32) : Statement (.pwrlim v) := ofNone rfl
theorem emergencyPowerReduction (asserted : Bool) : Statement (.emergencyPowerReduction asserted) := ofNone rfl
theorem mslim (p m : Nat) (v : BitVec 32) : Statement (.mslim p m v) := ofNone rfl
theorem mscfg (p m : Nat) (v : BitVec 32) : Statement (.mscfg p m v) := ofNone rfl
theorem meadowStoreSplitChange (p m : Nat) : Statement (.meadowStoreSplitChange p m) := ofNone rfl
theorem pcfg (p : Nat) (v : BitVec 64) : Statement (.pcfg p v) := ofNone rfl
theorem partitionBuild (p : Nat) : Statement (.partitionBuild p) := ofNone rfl
theorem gsw (p : Nat) (v : BitVec 64) : Statement (.gsw p v) := ofNone rfl
theorem guestSwitchCommit (p : Nat) : Statement (.guestSwitchCommit p) := ofNone rfl
theorem replyDoorbell (p : Nat) (tag : BitVec 64) (status : BitVec 32) : Statement (.replyDoorbell p tag status) := ofNone rfl
theorem llaunch (hazel runtime : Option (List Byte)) : Statement (.llaunch hazel runtime) := ofNone rfl
theorem sleep : Statement (.sleep) := ofNone rfl
theorem commit : Statement (.commit) := ofNone rfl
theorem wake : Statement (.wake) := ofNone rfl
theorem registerWrite (fn off : Nat) (v : BitVec 64) : Statement (.registerWrite fn off v) := ofNone rfl
theorem tdispRequest (vf : Nat) (r : TdispReq) : Statement (.tdispRequest vf r) := ofNone rfl
theorem lockInterfaceRequest (vf : Nat) : Statement (.lockInterfaceRequest vf) := ofNone rfl
theorem ideKmKeyProgramming (stream : Nat) (session : Nat) (selective : Bool) : Statement (.ideKmKeyProgramming stream session selective) := ofNone rfl
theorem hostMemoryAccess (r : HostAccess) : Statement (.hostMemoryAccess r) := ofNone rfl
theorem getVersion (via : SpdmVia) : Statement (.getVersion via) := ofNone rfl
theorem getCapabilities (via : SpdmVia) : Statement (.getCapabilities via) := ofNone rfl
theorem negotiateAlgorithms (via : SpdmVia) : Statement (.negotiateAlgorithms via) := ofNone rfl
theorem getDigests (via : SpdmVia) : Statement (.getDigests via) := ofNone rfl
theorem getCertificate (via : SpdmVia) (slot off len : Nat) : Statement (.getCertificate via slot off len) := ofNone rfl
theorem challenge (via : SpdmVia) (slot : Nat) (nonce : List Byte) : Statement (.challenge via slot nonce) := ofNone rfl
theorem getMeasurements (via : SpdmVia) (index : Nat) (nonce : List Byte) : Statement (.getMeasurements via index nonce) := ofNone rfl
theorem keyExchange (via : SpdmVia) (data : List Byte) : Statement (.keyExchange via data) := ofNone rfl
theorem finish (via : SpdmVia) (session : Nat) : Statement (.finish via session) := ofNone rfl
theorem endSession (via : SpdmVia) (session : Nat) : Statement (.endSession via session) := ofNone rfl
theorem spdmUnsupportedRequest (via : SpdmVia) (code : Byte) : Statement (.spdmUnsupportedRequest via code) := ofNone rfl
theorem virtualFunctionReset (vf : Nat) : Statement (.virtualFunctionReset vf) := ofNone rfl
theorem dispatchRecord (encl kick : Nat) : Statement (.dispatchRecord encl kick) := ofNone rfl
theorem grovePlacement (i : Nat) (at' : Place) : Statement (.grovePlacement i at') := ofNone rfl
theorem placementStarvation (i : Nat) : Statement (.placementStarvation i) := ofNone rfl
theorem issueSelection (core : Nat) (slot : Fin 4) : Statement (.issueSelection core slot) := ofNone rfl
theorem waitCountStarvation (core wslot : Nat) : Statement (.waitCountStarvation core wslot) := ofNone rfl
theorem bindRecordWrite (core wslot : Nat) (rec : BitVec 128) : Statement (.bindRecordWrite core wslot rec) := ofNone rfl
theorem teamRetirement (core tslot : Nat) : Statement (.teamRetirement core tslot) := ofNone rfl
theorem queueSliceBoundary : Statement (.queueSliceBoundary) := ofNone rfl
theorem storeBufferDrain (t : Nat) : Statement (.storeBufferDrain t) := ofNone rfl
theorem loadReturn (t : Nat) : Statement (.loadReturn t) := ofNone rfl
theorem atomicPerform (t : Nat) : Statement (.atomicPerform t) := ofNone rfl
theorem walkComplete (i : Nat) : Statement (.walkComplete i) := ofNone rfl
theorem faultQueueRoom (encl : Nat) : Statement (.faultQueueRoom encl) := ofNone rfl
theorem registerLineFill (core : Nat) (line : Nat) : Statement (.registerLineFill core line) := ofNone rfl
theorem rgrowGrant (core : Nat) : Statement (.rgrowGrant core) := ofNone rfl
theorem handlerEntry (core tslot : Nat) : Statement (.handlerEntry core tslot) := ofNone rfl
theorem barrierPhaseComplete (core tslot : Nat) (b : Fin 10) : Statement (.barrierPhaseComplete core tslot b) := ofNone rfl
theorem deqTake (t : Nat) : Statement (.deqTake t) := ofNone rfl
theorem enqReservation (t : Nat) : Statement (.enqReservation t) := ofNone rfl
theorem awaitTake (core wslot : Nat) : Statement (.awaitTake core wslot) := ofNone rfl
theorem mbarWaitWake (t : Nat) : Statement (.mbarWaitWake t) := ofNone rfl
theorem ldfWake (t : Nat) : Statement (.ldfWake t) := ofNone rfl
theorem stfWaitWake (t : Nat) : Statement (.stfWaitWake t) := ofNone rfl
theorem napWake (t : Nat) : Statement (.napWake t) := ofNone rfl
theorem svcPost (p : Nat) : Statement (.svcPost p) := ofNone rfl
theorem maintenanceComplete (i : Nat) : Statement (.maintenanceComplete i) := ofNone rfl
theorem rsvComplete (core tslot : Nat) (k : Fin 16) : Statement (.rsvComplete core tslot k) := ofNone rfl
theorem acqComplete (core tslot : Nat) (t : Fin 4) : Statement (.acqComplete core tslot t) := ofNone rfl
theorem unrsvComplete (core tslot : Nat) (k : Fin 16) : Statement (.unrsvComplete core tslot k) := ofNone rfl
theorem matrixJobStart (core job : Nat) : Statement (.matrixJobStart core job) := ofNone rfl
theorem kStep (core : Nat) : Statement (.kStep core) := ofNone rfl
theorem arraySwitchPoint (core : Nat) : Statement (.arraySwitchPoint core) := ofNone rfl
theorem matrixJobComplete (core : Nat) : Statement (.matrixJobComplete core) := ofNone rfl
theorem budgetRefill : Statement (.budgetRefill) := ofNone rfl
theorem copyJobStart (core job : Nat) : Statement (.copyJobStart core job) := ofNone rfl
theorem ringSlotClaim (core job : Nat) : Statement (.ringSlotClaim core job) := ofNone rfl
theorem copyPieceDelivery (core job : Nat) : Statement (.copyPieceDelivery core job) := ofNone rfl
theorem relayHop (core job : Nat) : Statement (.relayHop core job) := ofNone rfl
theorem copyJobComplete (core job : Nat) : Statement (.copyJobComplete core job) := ofNone rfl
theorem copyJobFault (core job : Nat) : Statement (.copyJobFault core job) := ofNone rfl
theorem queryContextAllocate (stack : Nat) : Statement (.queryContextAllocate stack) := ofNone rfl
theorem distanceReply (stack ctx fromStack : Nat) : Statement (.distanceReply stack ctx fromStack) := ofNone rfl
theorem adjacencyReply (stack ctx : Nat) (node : Nat) : Statement (.adjacencyReply stack ctx node) := ofNone rfl
theorem queryPublish (core tslot : Nat) : Statement (.queryPublish core tslot) := ofNone rfl
theorem shootdownAck (a : ShootAgent) : Statement (.shootdownAck a) := ofNone rfl
theorem migrationPass : Statement (.migrationPass) := ofNone rfl
theorem lrd (i : Nat) : Statement (.lrd i) := ofNone rfl
theorem lwr (i : Nat) : Statement (.lwr i) := ofNone rfl
theorem rrd (i : Nat) : Statement (.rrd i) := ofNone rfl
theorem rup (i : Nat) : Statement (.rup i) := ofNone rfl
theorem evt (grain : Nat) (who : Requester) : Statement (.evt grain who) := ofNone rfl
theorem erd (i : Nat) : Statement (.erd i) := ofNone rfl
theorem ewr (i : Nat) : Statement (.ewr i) := ofNone rfl
theorem cln (i : Nat) : Statement (.cln i) := ofNone rfl
theorem inv (i : Nat) : Statement (.inv i) := ofNone rfl
theorem directoryAck (grain : Nat) (who : Requester) : Statement (.directoryAck grain who) := ofNone rfl
theorem tmo (grain : Nat) : Statement (.tmo grain) := ofNone rfl
theorem proxyInvalidation (grain meadow : Nat) : Statement (.proxyInvalidation grain meadow) := ofNone rfl
theorem copyInvalidation (grain : Nat) (who : Requester) : Statement (.copyInvalidation grain who) := ofNone rfl
theorem replicaLock (grain meadow : Nat) : Statement (.replicaLock grain meadow) := ofNone rfl
theorem replicaUpdate (grain meadow : Nat) : Statement (.replicaUpdate grain meadow) := ofNone rfl
theorem partitionSwapOut (p m : Nat) : Statement (.partitionSwapOut p m) := ofNone rfl
theorem partitionSwapIn (p m : Nat) : Statement (.partitionSwapIn p m) := ofNone rfl
theorem usageRecordPeriodic (p : Nat) : Statement (.usageRecordPeriodic p) := ofNone rfl
theorem podLinkTraining (port : Fin 12) : Statement (.podLinkTraining port) := ofNone rfl
theorem meadowStoreWriteBack (line : Nat) : Statement (.meadowStoreWriteBack line) := ofNone rfl

end Sys2Proof.Laws.RoundTrip
end

