-- ==== Sys2Proof/Laws/Words.lean ====
section
/-! SUPPORT. From a commit to what a word has done: `wordDone_of_go` for a word that acts, `wordDone_none` for one whose
guard holds nowhere. -/
namespace Sys2Proof.Machine
-- One declaration at a time: each more thread of the compiler takes a stack out of the same memory.
set_option Elab.async false

theorem smFind?_map_pair (eff : Nat → Eff) (l : List Nat) (t : Nat) :
    smFind? (l.map fun t => (t, eff t)) t = if t ∈ l then some (eff t) else none := by
  induction l with
  | nil => rfl
  | cons a l ih => by_cases h : t = a <;> simp_all

theorem effOf_map (eff : Nat → Eff) (l : List Nat) (t : Nat) :
    effOf (l.map fun t => (t, eff t)) t = if t ∈ l then eff t else {} := by
  unfold effOf; rw [smFind?_map_pair]; split_ifs <;> rfl

theorem effOf_nil (t : Nat) : effOf [] t = {} := rfl

theorem foldl_or_filter (f : Nat → W32) (p : Nat → Bool) (l : List Nat) : ∀ x : W32,
    l.foldl (fun x t => x ||| (if p t then f t else 0)) x = (l.filter p).foldl (fun x t => x ||| f t) x := by
  induction l with
  | nil => intro x; rfl
  | cons a l ih =>
    intro x
    rw [List.foldl_cons, ih]
    by_cases h : p a
    · simp [h]
    · simp only [h, if_false, Bool.false_eq_true, not_false_eq_true, List.filter_cons_of_neg]
      exact congrArg (fun y => (l.filter p).foldl (fun x t => x ||| f t) y) (BitVec.or_zero)

theorem flatMap_filter (f : Nat → List FVal) (p : Nat → Bool) (l : List Nat) :
    (l.flatMap fun t => if p t then f t else []) = (l.filter p).flatMap f := by
  induction l with
  | nil => rfl
  | cons a l ih => by_cases h : p a <;> simp [h, ih]

/-- What a fold into AMAX leaves in AMAX and FLAGS. -/
theorem foldAmax_regs (s : State) (w : Nat) (vs : List FVal) :
    ((getWarp (foldAmax s w vs) w).amax, (getWarp (foldAmax s w vs) w).flags) =
      amaxAfter ((getWarp s w).amax, (getWarp s w).flags) vs := by
  have key : ∀ (vs : List FVal) (x : Warp), ((vs.foldl (fun x v =>
      let r := amaxFold x.amax v
      { x with amax := r.1, flags := x.flags ||| r.2 }) x).amax, (vs.foldl (fun x v =>
      let r := amaxFold x.amax v
      { x with amax := r.1, flags := x.flags ||| r.2 }) x).flags) = amaxAfter (x.amax, x.flags) vs := by
    intro vs
    induction vs with
    | nil => intro x; rfl
    | cons v vs ih => intro x; exact ih _
  unfold foldAmax
  split_ifs with h
  · have : vs = [] := by simpa using h
    subst this; rfl
  · simpa using key vs (getWarp s w)

/-- AMAX and FLAGS after a commit. -/
theorem commitWord_amax (s : State) (info : WInfo) (w : Nat) (l : List Nat) (s1 : State) (effs : List (Nat × Eff))
    (lines : List RegLine) (hl : l.Nodup) :
    ((getWarp (commitWord s info w l s1 effs lines) w).amax, (getWarp (commitWord s info w l s1 effs lines) w).flags) =
      amaxAfter ((getWarp s1 w).amax, (getWarp s1 w).flags ||| l.foldl (fun f t => f ||| (effOf effs t).fl) 0)
        (l.flatMap fun t => (effOf effs t).amax) := by
  obtain ⟨-, w2, -⟩ := commitThreads_spec s info w l s1 effs hl
  unfold commitWord
  dsimp only
  generalize commitThreads s info w l s1 effs = s2 at w2 ⊢
  have h3 : ((getWarp (commitFlags s2 w l effs) w).amax, (getWarp (commitFlags s2 w l effs) w).flags) =
      amaxAfter ((getWarp s1 w).amax, (getWarp s1 w).flags ||| l.foldl (fun f t => f ||| (effOf effs t).fl) 0)
        (l.flatMap fun t => (effOf effs t).amax) := by
    unfold commitFlags
    rw [foldAmax_regs]
    have ha : (getWarp (orFlags s2 w (l.foldl (fun f t => f ||| (effOf effs t).fl) 0)) w).amax = (getWarp s1 w).amax := by
      unfold orFlags
      split_ifs
      · unfold getWarp; rw [w2]
      · simp only [modWarp_eq, getWarp_setWarp, if_true]; unfold getWarp; rw [w2]
    have hf := (orFlags_eq s2 w (l.foldl (fun f t => f ||| (effOf effs t).fl) 0)).2.2
    rw [ha, hf]
    congr 2
    unfold getWarp; rw [w2]
  generalize commitFlags s2 w l effs = s3 at h3 ⊢
  generalize ((getTeam s (teamOfWarp s w)).halted && !(l.any fun t => (getTh s t).handler)) = b
  have h4 : (getWarp (commitCounts s3 w s.n b) w).amax = (getWarp s3 w).amax ∧
      (getWarp (commitCounts s3 w s.n b) w).flags = (getWarp s3 w).flags := by simp [commitCounts]
  generalize commitCounts s3 w s.n b = s4 at h4 ⊢
  have h5 : (getWarp (commitLoops s4 w l (getWarp s1 w).loops.isEmpty) w).amax = (getWarp s4 w).amax ∧
      (getWarp (commitLoops s4 w l (getWarp s1 w).loops.isEmpty) w).flags = (getWarp s4 w).flags := by
    unfold commitLoops settleLoops
    split_ifs <;> simp
  generalize commitLoops s4 w l (getWarp s1 w).loops.isEmpty = s5 at h5 ⊢
  obtain ⟨-, -, g6⟩ := commitWindows_spec s5 (teamOfWarp s w) w l (getTeam s (teamOfWarp s w)).matPend
  generalize commitWindows s5 (teamOfWarp s w) l (getTeam s (teamOfWarp s w)).matPend = s6 at g6 ⊢
  obtain ⟨-, -, g7⟩ := meter_eq s6 w (getTeam s (teamOfWarp s w)).part mVeciss 1
  generalize meter s6 (getTeam s (teamOfWarp s w)).part mVeciss 1 = s7 at g7 ⊢
  obtain ⟨-, -, g8⟩ := touchLines_eq s7 w lines
  generalize touchLines s7 lines = s8 at g8 ⊢
  obtain ⟨-, -, g9⟩ := chargeIssue_eq s s8 w
  generalize chargeIssue s s8 w = s9 at g9 ⊢
  have h96 : getWarp s9 w = getWarp s5 w := by unfold getWarp; rw [g9, g8, g7, g6]
  rw [← h3]
  change ((getWarp s9 w).amax, (getWarp s9 w).flags) = _
  rw [h96, h5.1, h5.2, h4.1, h4.2]

theorem commitWord_turn (s : State) (info : WInfo) (w : Nat) (l : List Nat) (s1 : State) (effs : List (Nat × Eff))
    (lines : List RegLine) : (commitWord s info w l s1 effs lines).turn = .idle := rfl

theorem foldl_wrW_mq (l : List (Nat × W32)) : ∀ th : Thread,
    (l.foldl (fun th x => wrW th x.1 x.2) th).mq = th.mq ∧ (l.foldl (fun th x => wrW th x.1 x.2) th).wait = th.wait := by
  induction l with
  | nil => intro th; exact ⟨rfl, rfl⟩
  | cons c l ih => intro th; exact ih (wrW th c.1 c.2)

theorem setLc_mq (th : Thread) (k : Nat) (v : W32) : (setLc th k v).mq = th.mq ∧ (setLc th k v).wait = th.wait := by
  unfold setLc; split <;> exact ⟨rfl, rfl⟩

theorem loopEnd_mq (loops : SMap LoopEntry) (pc : W64) : ∀ (k : Nat) (th : Thread),
    (loopEnd loops pc k th).mq = th.mq ∧ (loopEnd loops pc k th).wait = th.wait
  | 0, _ => ⟨rfl, rfl⟩
  | k + 1, th => by
    have hs := setLc_mq th k (getLc th k - 1)
    have ih := loopEnd_mq loops pc k (setLc th k (getLc th k - 1))
    unfold loopEnd
    split
    · split_ifs
      · dsimp only
        split_ifs
        · exact hs
        · exact ⟨ih.1.trans hs.1, ih.2.trans hs.2⟩
      · exact ⟨rfl, rfl⟩
    · exact ⟨rfl, rfl⟩

/-- The queue and the wait of a thread after a word. -/
theorem applyEff_mq (n : Nat) (loops : SMap LoopEntry) (info : WInfo) (th : Thread) (e : Eff) :
    (applyEff n loops info th e).mq =
      th.mq.map (fun o => { o with la := o.la - 1 }) ++ e.mops.map (fun o => { o with la := info.la, seq := n }) ∧
    (applyEff n loops info th e).wait = (match e.wait with | some x => some x | none => th.wait) := by
  obtain ⟨b, hp⟩ := foldl_wrP_same e.p (e.w.foldl (fun th x => wrW th x.1 x.2) (tickWindows th))
  have hw := foldl_wrW_mq e.w (tickWindows th)
  have hp1 : (e.p.foldl (fun th x => wrP th x.1 x.2) (e.w.foldl (fun th x => wrW th x.1 x.2) (tickWindows th))).mq =
      th.mq.map (fun o => { o with la := o.la - 1 }) := by rw [hp]; exact hw.1
  have hp2 : (e.p.foldl (fun th x => wrP th x.1 x.2) (e.w.foldl (fun th x => wrW th x.1 x.2) (tickWindows th))).wait = th.wait := by
    rw [hp]; exact hw.2
  unfold applyEff
  dsimp only
  split
  · refine ⟨?_, ?_⟩
    · dsimp only; rw [hp1]
    · dsimp only; rw [hp2]; try rfl
  · refine ⟨?_, ?_⟩
    · rw [(loopEnd_mq _ _ _ _).1]; dsimp only; rw [hp1]
    · rw [(loopEnd_mq _ _ _ _).2]; dsimp only; rw [hp2]; try rfl

/-- A word that acts and commits with the effects `eff` in its acting threads has done them. -/
theorem wordDone_of_go {s s1 : State} {info : WInfo} {w : Nat} {l : List Nat} {eff : Nat → Eff}
    {effs : List (Nat × Eff)} {lines : List RegLine} (hl : l.Nodup) (hp : ∀ t, ∀ x ∈ (eff t).p, x.1 < 7)
    (p : Nat → Bool) (he : ∀ t ∈ l, effOf effs t = if p t then eff t else {}) :
    WordDone s s1 (commitWord s info w l s1 effs lines) info w l (l.filter p) eff := by
  obtain ⟨hf, ht, -⟩ := commitWord_spec s info w l s1 effs lines hl
  have hth' : ∀ t ∈ l.filter p, getTh (commitWord s info w l s1 effs lines) t =
      applyEff s.n (getWarp s1 w).loops info (getTh s1 t) (eff t) := by
    intro t htm
    rw [List.mem_filter] at htm
    rw [ht t htm.1, he t htm.1, if_pos htm.2]
  have hno : ∀ t ∈ l, t ∉ l.filter p → getTh (commitWord s info w l s1 effs lines) t =
      applyEff s.n (getWarp s1 w).loops info (getTh s1 t) {} := by
    intro t htl htn
    have : ¬ (p t = true) := fun h => htn (List.mem_filter.2 ⟨htl, h⟩)
    rw [ht t htl, he t htl, if_neg this]
  refine ⟨hf, rfl, ?_, ?_, ?_, ?_, ?_, ?_, ?_, ?_⟩
  · intro t htm q
    rw [hth' t htm, applyEff_regs]
  · intro t htm q hq
    rw [hth' t htm, applyEff_preds _ _ _ _ _ (hp t) q hq]
  · intro t htm
    rw [hth' t htm, (applyEff_mq _ _ _ _ _).1]
  · intro t htm
    rw [hth' t htm]; exact (applyEff_mq _ _ _ _ _).2
  · intro t htm q hj
    rw [hth' t htm, applyEff_flow, hj]
  · intro t htm hj
    rw [hth' t htm, applyEff_flow, hj]
  · intro t htl htn
    rw [hno t htl htn]
    refine ⟨fun q => ?_, fun q hq => ?_, ?_, applyEff_flow _ _ _ _ _⟩
    · rw [applyEff_regs]; rfl
    · rw [applyEff_preds _ _ _ _ _ (by simp) q hq]; rfl
    · rw [(applyEff_mq _ _ _ _ _).2]
  · rw [commitWord_amax s info w l s1 _ lines hl]
    have e1 : l.foldl (fun f t => f ||| (effOf effs t).fl) 0 =
        (l.filter p).foldl (fun f t => f ||| (eff t).fl) 0 := by
      rw [← foldl_or_filter]
      refine List.foldl_ext _ _ _ fun x t htl => ?_
      rw [he t htl]; split_ifs <;> rfl
    have e2 : (l.flatMap fun t => (effOf effs t).amax) =
        (l.filter p).flatMap fun t => (eff t).amax := by
      rw [← flatMap_filter]
      refine List.flatMap_congr fun t htl => ?_
      rw [he t htl]; split_ifs <;> rfl
    rw [e1, e2]

/-- A word whose guard holds in no issued thread does nothing but go on. -/
theorem wordDone_none {s s1 : State} {info : WInfo} {w : Nat} {l : List Nat} {lines : List RegLine} (hl : l.Nodup) :
    WordDone s s1 (commitWord s info w l s1 [] lines) info w l [] (fun _ => {}) := by
  have := wordDone_of_go (s := s) (s1 := s1) (info := info) (w := w) (l := l) (eff := fun _ => {}) (effs := [])
    (lines := lines) hl
    (fun _ => by simp) (fun _ => false) (fun _ _ => rfl)
  simpa using this

/-- The lines that the effects of acting threads write rest on those effects alone. -/
theorem effLines_acting {s : State} {g : Guard} {l : List Nat} {effs : List (Nat × Eff)} {eff : Nat → Eff} (w : Nat)
    (h : ∀ t ∈ l, effOf effs t = if rdGuard s g t then eff t else {}) :
    effLines w (actingIn s g l) (effOf effs) = effLines w (actingIn s g l) eff := by
  have he : ∀ t ∈ actingIn s g l, effOf effs t = eff t := by
    intro t ht
    unfold actingIn at ht
    rw [List.mem_filter] at ht
    rw [h t ht.1, if_pos ht.2]
  unfold effLines
  congr 1
  · exact List.flatMap_congr fun t ht => by rw [he t ht]
  · have : ∀ a : List Nat, (∀ t ∈ a, effOf effs t = eff t) →
        (a.any fun t => decide ((effOf effs t).fl ≠ 0) || !(effOf effs t).amax.isEmpty) =
          a.any fun t => decide ((eff t).fl ≠ 0) || !(eff t).amax.isEmpty := by
      intro a
      induction a with
      | nil => intro _; rfl
      | cons t a ih =>
        intro ha
        rw [List.any_cons, List.any_cons, ih fun u hu => ha u (List.mem_cons_of_mem _ hu), ha t List.mem_cons_self]
    rw [this _ he]

/-- How a row's word comes to complete at a state: `exec` is the issue of the word there, and where the row's conditions hold the
word's own part makes what the row says. -/
theorem completes_at {i : Instr} {r : WordRow} {s : State} {w : Nat} {l : List Nat} {own : Nat → List Nat → List Nat → Own}
    (hI : Issues s (r.info s) w l) (hx : exec i s = runWord (r.info s) own s)
    (ho : actingIn s (r.info s).guard l ≠ [] → r.able s w l (actingIn s (r.info s).guard l) →
      ∃ effs, own w l (actingIn s (r.info s).guard l) = .go (r.makes s w l (actingIn s (r.info s).guard l)) effs ∧
        ∀ t ∈ l, effOf effs t =
          if rdGuard s (r.info s).guard t then r.out s w l (actingIn s (r.info s).guard l) t else {})
    (hp : ∀ a t, ∀ x ∈ (r.out s w l a t).p, x.1 < 7) : CompletesAt i r s w l := by
  have hl := issuedSet_nodup hI.chosen
  constructor
  · intro hn ha hlines
    obtain ⟨effs, h1, h2⟩ := ho hn ha
    refine ⟨_, ?_, wordDone_of_go (effs := effs) (lines := wordLines s (r.info s) w l (actingIn s (r.info s).guard l) ++
      effLines w (actingIn s (r.info s).guard l) (effOf effs)) hl (hp _) (rdGuard s (r.info s).guard) h2⟩
    have he := effLines_acting w h2
    have hm : linesMissing s (wordLines s (r.info s) w l (actingIn s (r.info s).guard l) ++
        effLines w (actingIn s (r.info s).guard l) (effOf effs)) = false := by
      refine linesMissing_of_present fun x hx => ?_
      rw [List.mem_append, he] at hx
      exact hx.elim (hI.present x) (hlines x)
    rw [hx, runWord_of_issues _ hI, if_neg hn, h1]
    dsimp only
    rw [hm]
    rfl
  · intro hn
    refine ⟨_, ?_, wordDone_none (s1 := s) (lines := wordLines s (r.info s) w l (actingIn s (r.info s).guard l)) hl⟩
    rw [hx, runWord_of_issues _ hI, if_pos hn]

/-- The effects of a word of every acting thread, looked up. -/
theorem effOf_acting {s : State} {g : Guard} {l : List Nat} {eff : Nat → Eff} {t : Nat} (ht : t ∈ l) :
    effOf ((actingIn s g l).map fun t => (t, eff t)) t = if rdGuard s g t then eff t else {} := by
  rw [effOf_map]; unfold actingIn; by_cases h : rdGuard s g t <;> simp [h, ht]

/-- The words that act in each acting thread by itself. -/
theorem completes_threads {i : Instr} {r : WordRow} {eff : State → Nat → Eff}
    (hx : ∀ s, exec i s = runThreads (r.info s) (eff s) s) (hm : ∀ s w l a, r.makes s w l a = s)
    (ho : ∀ s w l a t, r.out s w l a t = eff s t)
    (hp : ∀ s t, ∀ x ∈ (eff s t).p, x.1 < 7) (s : State) (w : Nat) (l : List Nat) (hI : Issues s (r.info s) w l) :
    CompletesAt i r s w l :=
  completes_at (own := fun _ _ acting => .go s (acting.map fun t => (t, eff s t))) hI (hx s)
    (fun _ _ => ⟨_, by rw [hm], fun t ht => by rw [effOf_acting ht, ho]⟩)
    (fun a t => by rw [ho]; exact hp s t)

/-- The words whose effect is beyond their threads. -/
theorem completes_makes {i : Instr} {r : WordRow} {s : State} {w : Nat} {l : List Nat} {own : Nat → List Nat → List Nat → Own}
    (hI : Issues s (r.info s) w l) (hx : exec i s = runWord (r.info s) own s)
    (ho : actingIn s (r.info s).guard l ≠ [] → r.able s w l (actingIn s (r.info s).guard l) →
      own w l (actingIn s (r.info s).guard l) = .go (r.makes s w l (actingIn s (r.info s).guard l)) [])
    (hout : ∀ a t, r.out s w l a t = {}) : CompletesAt i r s w l :=
  completes_at hI hx (fun h1 h2 => ⟨_, ho h1 h2, fun t _ => by rw [hout]; split_ifs <;> rfl⟩)
    (fun a t => by rw [hout]; simp)

end Sys2Proof.Machine
end

