-- ==== Sys2Proof/Machine/Assembler.lean ====
section
/-! DEFINITION. How `nimas` chooses words for instructions (R110 to R112): inline or long-immediate constants, and pairing.
The text it reads (R108, R109, R113) is a source language outside the machine; notes/assumptions/38.md. -/
namespace Sys2Proof.Machine

/-- The word of an instruction; none is an assembly error (R111). -/
def assemble (i : Instr) : Option EncWord := if i.wf then encode i else none

/-! ### Constants (R110) -/

/-- The operand code of an integer constant, where one represents it. -/
def inlineInt (v : Int) : Option (BitVec 7) := if -64 ≤ v ∧ v ≤ 63 then some (BitVec.ofInt 7 (v + 64)) else none

/-- What a long-immediate word needs of a header: no lookahead, no negated guard (R100). -/
def longGuard (h : Hdr) : Option LGuard :=
  if h.la ≠ 0 then none
  else match h.guard with
    | .always => some none
    | .pred p false => some (some p)
    | .pred _ true => none

/-- IMM32 of an integer: a 32-bit operand takes any value of 32 bits, a 64-bit one a signed value. -/
def longInt (wide : Bool) (v : Int) : Option W32 :=
  if -2147483648 ≤ v ∧ v < (if wide then 2147483648 else 4294967296) then some (BitVec.ofInt 32 v) else none

/-- The long form of a word whose a has no select: none where the form is not available. -/
def longForm (h : Hdr) (imm : Option W32) (plain : Bool) (f : LGuard → W32 → Instr) : Option Instr :=
  match longGuard h, imm with
  | some g, some x => if plain then some (f g x) else none
  | _, _ => none

/-- The L-capable 32-bit integer operations (R101). -/
inductive AsmInt where | add | sub | mul | min | max | and | or | xor | andn
deriving DecidableEq, Repr

def AsmInt.full (op : AsmInt) (h : Hdr) (d : WReg) (a b : Src) : Instr :=
  match op with
  | .add => .add h none d a b
  | .sub => .sub h none d a b
  | .mul => .mul h d a b
  | .min => .min h .s d a b
  | .max => .max h .s d a b
  | .and => .and h d a b
  | .or => .or h d a b
  | .xor => .xor h d a b
  | .andn => .andn h d a b

def AsmInt.long (op : AsmInt) (d : WReg) (a : Operand) (g : LGuard) (x : W32) : Instr :=
  match op with
  | .add => .addLongImmediate g d a x
  | .sub => .subLongImmediate g d a x
  | .mul => .mulLongImmediate g d a x
  | .min => .minLongImmediate g d a x
  | .max => .maxLongImmediate g d a x
  | .and => .andLongImmediate g d a x
  | .or => .orLongImmediate g d a x
  | .xor => .xorLongImmediate g d a x
  | .andn => .andnLongImmediate g d a x

/-- `op d, a, v` on 32-bit integers. -/
def asmInt (op : AsmInt) (h : Hdr) (d : WReg) (a : Src) (v : Int) : Option Instr :=
  match inlineInt v with
  | some k => some (op.full h d a ⟨.imm k, .none⟩)
  | none => longForm h (longInt false v) (a.sel == .none) (op.long d a.op)

/-- `add64 d, a, v` and `sub64 d, a, v`. -/
def asmInt64 (minus : Bool) (h : Hdr) (d : WPair) (a : Src64) (v : Int) : Option Instr :=
  match inlineInt v with
  | some k => some (if minus then .sub64 h d a ⟨.imm k, false⟩ else .add64 h d a ⟨.imm k, false⟩)
  | none => longForm h (longInt true v) (!a.neg)
      fun g x => if minus then .sub64LongImmediate g d a.op x else .add64LongImmediate g d a.op x

/-- The L-capable uniform operations (R101). -/
inductive AsmUni where | sadd | ssub | smul | sand | sor
deriving DecidableEq, Repr

/-- `op d, a, v` on uniform operands. -/
def asmUni (op : AsmUni) (h : Hdr) (d : SReg) (a : USrc64) (v : Int) : Option Instr :=
  match inlineInt v with
  | some k =>
    let b : USrc64 := ⟨.imm k, false⟩
    some (match op with
      | .sadd => .sadd h d a b
      | .ssub => .ssub h d a b
      | .smul => .smul h d a b
      | .sand => .sand h d a b
      | .sor => .sor h d a b)
  | none => longForm h (longInt true v) (!a.neg) fun g x => match op with
      | .sadd => .saddLongImmediate g d a.op x
      | .ssub => .ssubLongImmediate g d a.op x
      | .smul => .smulLongImmediate g d a.op x
      | .sand => .sandLongImmediate g d a.op x
      | .sor => .sorLongImmediate g d a.op x

/-- The L-capable FP32 operations, in their default variants (R101). -/
inductive AsmFp where | fadd | fsub | fmul | fmin | fmax
deriving DecidableEq, Repr

/-- The source of a floating constant that an operand code represents: an integer from −64 to 63, or −0.0 as `.neg` of 0. -/
def inlineFp (x : W32) : Option Src :=
  if x = 0x80000000 then some ⟨.imm 64, .neg⟩
  else ((List.range 128).find? fun k => decide (immW .f32 (BitVec.ofNat 7 k) = x)).map fun k => ⟨.imm (BitVec.ofNat 7 k), .none⟩

/-- `op d, a, x` with the FP32 code of a constant. -/
def asmFp (op : AsmFp) (h : Hdr) (d : WReg) (a : Src) (x : W32) : Option Instr :=
  match inlineFp x with
  | some b => some (match op with
    | .fadd => .fadd h .rne d a b
    | .fsub => .fsub h .rne d a b
    | .fmul => .fmul h .rne d a b
    | .fmin => .fmin h d a b
    | .fmax => .fmax h d a b)
  | none => longForm h (some x) (a.sel == .none) fun g x => match op with
    | .fadd => .faddLongImmediate g d a.op x
    | .fsub => .fsubLongImmediate g d a.op x
    | .fmul => .fmulLongImmediate g d a.op x
    | .fmin => .fminLongImmediate g d a.op x
    | .fmax => .fmaxLongImmediate g d a.op x

/-! ### Pairing (R112) -/

/-- The guards that R96 can express. -/
def pairableGuard (h : Hdr) : Option PairGuard :=
  if h.la ≠ 0 then none
  else match h.guard with
    | .always => some .always
    | .pred p n =>
      if p = 0 then some (if n then .notP0 else .p0)
      else if p = 1 ∧ n = false then some .p1
      else none

/-- A register-kind half of `op d, a, b`: a is the destination, unselected. -/
def regHalf (op : PairRegOp) (h : Hdr) (d : WReg) (a b : Src) : List PairHalf :=
  match pairableGuard h with
  | some g => if a = ⟨.w d, .none⟩ then [.reg op ⟨g, d, b.op, b.sel⟩] else []
  | none => []

/-- An immediate-kind half of `op d, a, b`: b is a constant from 0 to 31, a unselected. -/
def immHalf (op : PairImmOp) (h : Hdr) (d : WReg) (a b : Src) : List PairHalf :=
  match pairableGuard h, b with
  | some g, ⟨.imm k, .none⟩ => if a.sel = .none ∧ 64 ≤ k.toNat ∧ k.toNat < 96 then [.imm op ⟨g, d, a.op, BitVec.ofNat 5 (k.toNat - 64)⟩] else []
  | _, _ => []

/-- The halves that act as an instruction does (R97). -/
def halvesOf : Instr → List PairHalf
  | .add h none d a b => regHalf .add h d a b ++ immHalf .add h d a b
  | .sub h none d a b => regHalf .sub h d a b ++ immHalf .sub h d a b
  | .mul h d a b => regHalf .mul h d a b
  | .and h d a b => regHalf .and h d a b
  | .or h d a b => regHalf .or h d a b
  | .xor h d a b => regHalf .xor h d a b
  | .andn h d a b => regHalf .andn h d a b
  | .min h .s d a b => regHalf .minS h d a b
  | .max h .s d a b => regHalf .maxS h d a b
  | .min h .z d a b => regHalf .minZ h d a b
  | .max h .z d a b => regHalf .maxZ h d a b
  | .mov h d a => (match pairableGuard h with
    | some g => [.reg .mov ⟨g, d, a.op, a.sel⟩]
    | none => [])
  | .add2 h none d a b => regHalf .add2 h d a b
  | .sub2 h none d a b => regHalf .sub2 h d a b
  | .add4 h none d a b => regHalf .add4 h d a b
  | .fadd h .rne d a b => regHalf .fadd h d a b
  | .fsub h .rne d a b => regHalf .fsub h d a b
  | .fmul h .rne d a b => regHalf .fmul h d a b
  | .fmin h d a b => regHalf .fmin h d a b
  | .fmax h d a b => regHalf .fmax h d a b
  | .hadd2 h d a b => regHalf .hadd2 h d a b
  | .hmul2 h d a b => regHalf .hmul2 h d a b
  | .badd2 h d a b => regHalf .badd2 h d a b
  | .bmul2 h d a b => regHalf .bmul2 h d a b
  | .shl h d a b => immHalf .shl h d a b
  | .shr h d a b => immHalf .shr h d a b
  | .sra h d a b => immHalf .sra h d a b
  | .rot h d a b => immHalf .rot h d a b
  | _ => []

/-- The registers a half reads: `mov` and the immediate kind do not read d. -/
def halfSources : PairHalf → List Nat
  | .reg .mov x => x.a.wNum
  | .reg _ x => x.d.toNat :: x.a.wNum
  | .imm _ x => x.a.wNum

/-- The pair of two instructions, where R112 allows it; the first of the kinds of R97 under which it does. DEDUCED,
notes/assumptions/41.md. -/
def pairUp (i j : Instr) : Option Instr :=
  ((halvesOf i).flatMap fun h0 => (halvesOf j).filterMap fun h1 =>
    if pairLegal h0 h1 && !(halfSources h1).any (fun r => decide (r = h0.d.toNat)) then some (pairInstr h0 h1) else none).head?

/-- A line of a section: a label, `.pack`, or an instruction or explicit pair. -/
inductive AsmLine where
  | label
  | pack (on : Bool)
  | word (i : Instr)
deriving DecidableEq, Repr

/-- What `nimas` emits for a section (R112); `on` is the state of `.pack`, off at its start (R113). -/
def packLines (on : Bool) : List AsmLine → List Instr
  | [] => []
  | .label :: r => packLines on r
  | .pack b :: r => packLines b r
  | .word i :: .word j :: r =>
    match (if on then pairUp i j else none) with
    | some p => p :: packLines on r
    | none => i :: packLines on (.word j :: r)
  | .word i :: r => i :: packLines on r

end Sys2Proof.Machine
end

