-- ==== Sys2Proof/Tests/Base.lean ====
section
/-! SUPPORT. The small states the tests run on, and a check that a word issues, so that the witnesses are decided. -/
namespace Sys2Proof.Tests
open Machine
-- One declaration at a time: each more thread of the compiler takes a stack out of the same memory.
set_option Elab.async false

/-- Thread 0 of warp 0 of core 0: 256 registers, all present, w_r holding r + 1 for the first sixteen, p0, p1 and p4 set. -/
def th0 : Thread :=
  { pc := 0x1000, nregs := 256, exited := false, lines := BitVec.allOnes 32, rlines := BitVec.allOnes 4, preds := 0x13
    regs := (List.range 16).map fun i => (i, BitVec.ofNat 32 (i + 1)) }

/-- Its team: a handler at 0x2000, privilege, 16 rings, a plain window of 64 KiB. -/
def team0 : Team :=
  { live := true, asid := 1, encl := 1, part := 1, priv := 1, warps := 1, wslots := [0], rings := 16, tvec := 0x2000,
    plain := 0x10000, quota := 256, tline := true }

def warp0 : Warp := { bind := mkBind 1 0 0 0 0 1 0 0 0, slines := BitVec.allOnes 17 }
def core0 : Core := { up := true, power := .on }
def grove0 : Grove := { teams := [0], gw := 1, gh := 1, gx := 0, gy := 0, gridw := 1, gridh := 1, meadow := 0, gPhase := 0,
                        stepPhase := 0, held := [] }

/-- The warp is chosen and its one live thread is about to issue. -/
def st0 : State :=
  { State.reset with
    turn := .warp 0 0 1, cores := [(0, core0)], warps := [(0, warp0)], threads := [(0, th0)], teams := [(0, team0)],
    groves := [(0, grove0)] }

/-- The conditions of `Issues`, as a check. -/
def issuesB (s : State) (info : WInfo) (w : Nat) (l : List Nat) : Bool :=
  decide (issuedSet s = some (w, l)) && (l.all fun t => windowsOpen (getTh s t)) && matOpen s w l
    && (!info.privileged || decide ((getTeam s (teamOfWarp s w)).priv ≠ 0))
    && (l.all fun t => (info.reads ++ info.writes).all fun r => decide (r < (getTh s t).nregs))
    && (!info.uniform || (decide (l = liveThreads s w) &&
        (decide (actingIn s info.guard l = []) || decide (actingIn s info.guard l = l))))
    && ((actingIn s info.guard l).all fun t => !meets (info.reads ++ info.writes) (flightW (getTh s t)))
    && !meets (info.sreads ++ info.swrites) (flightS s w)
    && (wordLines s info w l (actingIn s info.guard l)).all (linePresent s)
    && (!info.committed || warpCommitted s w)
    && (!info.access || !acqPending s w (actingIn s info.guard l))
    && ((actingIn s info.guard l).all fun t => !meets (info.readsOf t) (getTh s t).poison)
    && !meets info.sreads (getWarp s w).spoison
    && (!info.reports || (actingIn s info.guard l).all fun t => resolved (getTh s t) && decide ((getTh s t).pend = none))

theorem issuesB_sound {s : State} {info : WInfo} {w : Nat} {l : List Nat} (h : issuesB s info w l = true) :
    Issues s info w l := by
  simp only [issuesB, Bool.and_eq_true, Bool.or_eq_true, decide_eq_true_eq, List.all_eq_true, Bool.not_eq_true', ne_eq] at h
  obtain ⟨⟨⟨⟨⟨⟨⟨⟨⟨⟨⟨⟨⟨a, b⟩, c⟩, d⟩, e⟩, f⟩, g⟩, h1⟩, i⟩, k⟩, k1⟩, m⟩, n⟩, o⟩ := h
  refine ⟨a, b, c, fun p => ?_, e, fun p => ?_, g, fun _ => h1, i, fun p => ?_, fun p => ?_, m, fun _ => n, fun p => ?_⟩
  · rcases d with d | d
    · simp [p] at d
    · exact d
  · rcases f with f | f
    · simp [p] at f
    · exact f
  · rcases k with k | k
    · simp [p] at k
    · exact k
  · rcases k1 with k | k
    · simp [p] at k
    · exact k
  · rcases o with o | o
    · simp [p] at o
    · exact o

/-- A row's word issues for thread 0, in which it acts. -/
def rowIssues (row : Instr → Option WordRow) (i : Instr) : Bool :=
  match row i with
  | some r => issuesB st0 (r.info st0) 0 [0] && decide (actingIn st0 (r.info st0).guard [0] = [0])
  | none => true

theorem rowIssues_sound {row : Instr → Option WordRow} {i : Instr} {r : WordRow} (h : rowIssues row i = true)
    (hr : row i = some r) : Issues st0 (r.info st0) 0 [0] ∧ actingIn st0 (r.info st0).guard [0] = [0] := by
  simp only [rowIssues, hr, Bool.and_eq_true, decide_eq_true_eq] at h
  exact ⟨issuesB_sound h.1, h.2⟩

/-- Where the lines of predicates and of FLAGS are present, those that the effects of a word in thread 0 write are. -/
theorem effLines_here {s : State} (hp : linePresent s (.lane 0 1) = true) (hf : linePresent s (.sr 0 16) = true) (out : Nat → Eff) :
    ∀ x ∈ effLines 0 [0] out, linePresent s x = true := by
  intro x hx
  simp only [effLines, List.mem_append, List.mem_flatMap, List.mem_singleton] at hx
  rcases hx with ⟨t, rfl, hx⟩ | hx <;> split at hx <;> simp_all

/-- A word that completes: its row's conditions hold in a state, for thread 0 of warp 0. -/
def Ready (row : Instr → Option WordRow) (i : Instr) (s : State) : Prop :=
  ∃ r, row i = some r ∧ Issues s (r.info s) 0 [0] ∧ actingIn s (r.info s).guard [0] = [0] ∧ r.able s 0 [0] [0] ∧
    ∀ x ∈ effLines 0 [0] (r.out s 0 [0] [0]), linePresent s x = true

theorem ready_of {row : Instr → Option WordRow} {i : Instr} {s : State} {r : WordRow} (h : row i = some r)
    (hi : issuesB s (r.info s) 0 [0] = true) (ha : actingIn s (r.info s).guard [0] = [0]) (hb : r.able s 0 [0] [0])
    (hp : linePresent s (.lane 0 1) = true := by decide) (hf : linePresent s (.sr 0 16) = true := by decide) :
    Ready row i s := ⟨r, h, issuesB_sound hi, ha, hb, effLines_here hp hf _⟩

/-! ### A state with engines, rings, pages and queues -/

/-- A page of ASID 1 in the core's translation cache. -/
def page (vpn pa : Nat) (owner : Nat) : TlbEntry := ⟨1, vpn, 12, pa, true, true, true, 0, owner, 0, 1⟩

/-- AB, WB and CB records of one k-group of FP16, a ring of four slots at plain byte 0x1000, and a held card. -/
def teamE : Team :=
  { team0 with
    recs := [(0, mkDesc 0x0400000000000000 0x00010001 0), (1, mkDesc 0x4400000000000000 0x00010001 0),
      (2, mkDesc 0x80007F0000000000 0x200 0)]
    ringRecs := [(0, { sz := 0, ln := 2, base := 0x80001000 })] }

def heldJob : Job :=
  { newJob 5 0 0 .copy with
    posted := true, state := .held
    card := bytesOfNat 8 (2 ^ 53 + 2 ^ 46) ++ List.replicate 56 0 ++ bytesOfNat 4 16 ++ bytesOfNat 4 1 ++ List.replicate 184 0 }

/-- A search packet: FP16, one dimension, one entry point, stack 0, the ring's number 0. -/
def packet : List Byte :=
  bytesOfNat 8 (0x10000000 + 8 * 2 ^ 22 + 1) ++ bytesOfNat 8 0x3000 ++ bytesOfNat 8 0x4000 ++ bytesOfNat 8 0 ++ List.replicate 48 0

def coreE : Core :=
  { core0 with
    tiles := [(0, ⟨0, true, false⟩)], jobs := [heldJob]
    tlb := [page 4 0x80020000000 1, page 5 0x80020001000 1, page 6 0x200000 1]
    sp := ((List.range 80).zip packet).filterMap fun x => if x.2 = 0 then none else some (0x400 + x.1, x.2) }

/-- Writes numbers of eight bytes. -/
def puts (s : State) (l : List (Nat × Nat)) : State := l.foldl (fun s x => writeNat s x.1 8 x.2) s

def encl1 : Enclave :=
  { state := 1, part := 1, kslot := 1, asid := 1, creator := 0, nthr := 1, nkickm1 := 0, ord := 1, meas := [], seals := [], gen := 0,
    kickVa := 0x7000, hentry := 0, fqHdr := none, fqSeq := 0, fq := [], kicks := [] }

/-- ASID 1 of enclave 1, partition 1, whose tables map VA 0x4000 and 0x5000 to its window and 0x6000 to PA 0x200000. A
queue header stands at 0x4000, its items at 0x5000, one of them present. The window is backed, the queue is the partition's
service queue, and the page at 0x6000 is shared-rw. -/
def stE : State :=
  let s : State :=
    { st0 with
      teams := [(0, teamE)], cores := [(0, coreE)], warps := [(0, { warp0 with s := [(2, 0x80000400), (3, 5), (4, 32), (5, 0x80000000),
        (6, 0x0400000000000400), (7, 0x00010001), (9, 0x80001000)] })]
      threads := [(0, { th0 with regs := [(2, 0x4000), (4, 0x80000400), (6, 5), (8, 1), (10, 0x6000), (12, 0x10)] })]
      host := { st0.host with mscfg := [(8, { win := 4 })] }
      stamps := [(0x200, Stamp.tagged 1 0)]
      pot := [(0x200, mkPot 1 3 0 0), (0x80020000, mkPot 1 1 0 0), (0x80020001, mkPot 1 1 0 0)]
      asids := [(1, mkAsid 1 1 0x10)], encls := [(1, encl1)]
      parts := [(1, { live := true, agent := 1, svcq := some (0x4000, 1) })] }
  puts s [(0x10000, 0x11001), (0x11000, 0x12001), (0x12000, 0x13001), (0x13000, 0x14001),
    (0x14020, (mkLeaf 0x80020000000 7 0).toNat), (0x14028, (mkLeaf 0x80020001000 7 0).toNat), (0x14030, (mkLeaf 0x200000 3 0).toNat),
    (0x80020000000, 0x5000), (0x80020000008, 2), (0x80020000018, 1), (0x80020000020, 1)]

/-! ### Reads whose bytes are metered to no partition -/

/-- Frames of no partition, or of a window. -/
def unmetered (s : State) (pa n : Nat) : Bool :=
  (blocksOf 4096 pa n).all fun f => (framePart s (f * 4096)).isNone || (inWindow (f * 4096) && !inHbm (f * 4096))
theorem meterSpan_quiet {s : State} {pa n : Nat} (h : unmetered s pa n = true) : meterSpan s pa n = s := by
  unfold unmetered at h
  unfold meterSpan
  revert h
  generalize blocksOf 4096 pa n = l
  intro h
  induction l with
  | nil => rfl
  | cons f l ih =>
    simp only [List.all_cons, Bool.and_eq_true, Bool.or_eq_true, Option.isNone_iff_eq_none, Bool.not_eq_true'] at h
    have hm : ∀ k, meterTier s (f * 4096) k = s := by
      intro k
      unfold meterTier
      rcases h.1 with e | ⟨a, b⟩
      · simp only [e]
      · split
        · rfl
        · simp only [a, b, if_true, if_false, Bool.false_eq_true]
    simp only [List.foldl_cons, hm]
    exact ih (by simpa using h.2)
theorem meterLines_quiet {s : State} {pa n : Nat} (h : unmetered s (pa / 128 * 128) (128 * (blocksOf 128 pa n).length) = true) :
    meterLines s pa n = s := by
  unfold meterLines
  split
  · exact meterSpan_quiet h
  · rfl

/-- The reads of a walk, without their metering. -/
def touchPlain (s : State) (l : List Nat) : State := l.foldl (fun s a => if paOk a then ioTouch s a 8 false else s) s
def quiet : List Nat → State → Bool
  | [], _ => true
  | a :: l, s =>
    if paOk a then
      unmetered (ioTouch s a 8 false) (a / 128 * 128) (128 * (blocksOf 128 a 8).length) && quiet l (ioTouch s a 8 false)
    else quiet l s
theorem touchWalk_quiet {s : State} {asid va : Nat} (h : quiet (walkPlaces s asid va) s = true) :
    touchWalk s asid va = touchPlain s (walkPlaces s asid va) := by
  unfold touchWalk touchPlain
  revert h
  generalize walkPlaces s asid va = l
  intro h
  induction l generalizing s with
  | nil => rfl
  | cons a l ih =>
    simp only [List.foldl_cons]
    unfold quiet at h
    split at h
    · rename_i ok
      simp only [Bool.and_eq_true] at h
      simp only [ok, if_true, meterLines_quiet h.1]
      exact ih h.2
    · rename_i ok
      simp only [ok, if_false, Bool.false_eq_true]
      exact ih h

/-- The home agent's reads of a span in one page, whose bytes are metered to none. -/
def touched (s : State) (asid va n : Nat) : State := ioTouch s (fwdPa s (transNow s asid va .r).2) n false
def readsQuiet (s : State) (asid va n : Nat) : Bool :=
  (readVa s asid va n).isSome && (match transNow s asid va .r with
    | (.ok e, pa) => decide (e.mt ≠ 1) && unmetered (touched s asid va n) (fwdPa s pa / 128 * 128) (128 * (blocksOf 128 (fwdPa s pa) n).length)
    | _ => false)
theorem read_quiet {s : State} {asid va n : Nat} (h : readsQuiet s asid va n = true) : (ioReadVa s asid va n).1 = touched s asid va n := by
  unfold readsQuiet at h
  unfold ioReadVa ioReadVaBy touched at *
  cases hr : readVa s asid va n with
  | none => simp [hr] at h
  | some bs =>
    obtain ⟨r, pa, ht⟩ : ∃ r pa, transNow s asid va .r = (r, pa) := ⟨_, _, rfl⟩
    simp only [hr, ht, Option.isSome_some, Bool.true_and] at h ⊢
    cases r with
    | ok e =>
      simp only [Bool.and_eq_true, decide_eq_true_eq] at h
      simp only [h.1, if_false, meterLines_quiet h.2]
    | _ => cases h
theorem touch_span {s : State} {asid va n : Nat} (hn : n ≠ 0) (hp : Nat.min n (4096 - va % 4096) = n)
    (h : readsQuiet s asid va n = true) : ioTouchSpan s asid va n = touched s asid va n := by
  unfold ioTouchSpan
  rw [ioTouchVa, if_neg hn, hp]
  show ioTouchVa asid (n / 4096 + 1) (va + n) (n - n) (ioReadVa s asid va n).1 = _
  rw [Nat.sub_self, read_quiet h, ioTouchVa, if_pos rfl]

end Sys2Proof.Tests
end

