-- ==== Sys2Proof/Tests/MemoryWitnesses.lean ====
section
/-! SUPPORT. States that meet all the conditions of the rules of the memory pipeline, the waits, the walks and the homes. -/
namespace Sys2Proof.Tests
open Machine
-- One declaration at a time: each more thread of the compiler takes a stack out of the same memory.
set_option Elab.async false
set_option maxRecDepth 20000

/-- What a function that may refuse gives, where it does not. -/
theorem gives {α : Type} {x : Option α} (h : x.isSome = true) : x = some (x.get h) := Option.eq_some_of_isSome h

/-- The translations of the pages at 0x4000 and 0x6000, with the version of the frame. -/
def pg4 : TlbEntry := page 4 0x80020000000 1
def pg6 : TlbEntry := page 6 0x200000 1

/-- A memory operation on the page at 0x6000, or at a scratchpad address. -/
def op (k : MopKind) (glob : Bool) (addr : Nat) (st : OpState := .ready) : MemOp := ⟨k, glob, addr, 0x0FF8, 0, 0, st, [], false, 0⟩

/-- `stE` with operations in thread 0's queue; core 0 owns the grain of PA 0x200000 and has been sent its lines. -/
def stMem (l : List MemOp) : State :=
  { stE with
    threads := [(0, { th0 with mq := l })]
    dir := [(0x1000, ⟨2, 0, false, 0, 0, 0, 0, 0⟩)], sent := [(0x1000 * 2048, 15)] }

/-- `stE` with operations and no directory entry. -/
def stNew (l : List MemOp) : State := { stMem l with dir := [] }

/-- `stE` with operations, a superstep window of 4 KiB before the plain window. -/
def stSp (l : List MemOp) : State := { stMem l with teams := [(0, { teamE with step := 0x1000 })] }

def store4 : MopKind := .store [1, 2, 3, 4]
def load4 : MopKind := .load .w32 false [5]
def atom4 : MopKind := .atomic .add false .rlx .pkg [5] 3 0
def red4 : MopKind := .red .add false .rlx .pkg 3

theorem may_store : MayPerform (stMem [op store4 true 0x6010]) 0 0 (op store4 true 0x6010) pg6 0x200010 :=
  ⟨by decide, by decide, by decide, by decide, by decide, ⟨0x200010, by decide, by decide⟩, .inr (by decide)⟩
theorem may_load : MayPerform (stMem [op load4 true 0x6010]) 0 0 (op load4 true 0x6010) pg6 0x200010 :=
  ⟨by decide, by decide, by decide, by decide, by decide, ⟨0x200010, by decide, by decide⟩, .inr (by decide)⟩
theorem may_sld : MayPerform (stMem [op (.sld 4) true 0x6010]) 0 0 (op (.sld 4) true 0x6010) pg6 0x200010 :=
  ⟨by decide, by decide, by decide, by decide, by decide, ⟨0x200010, by decide, by decide⟩, .inr (by decide)⟩
theorem may_atom : MayPerform (stMem [op atom4 true 0x6010]) 0 0 (op atom4 true 0x6010) pg6 0x200010 :=
  ⟨by decide, by decide, by decide, by decide, by decide, ⟨0x200010, by decide, by decide⟩, .inr (by decide)⟩
theorem may_red : MayPerform (stMem [op red4 true 0x6010]) 0 0 (op red4 true 0x6010) pg6 0x200010 :=
  ⟨by decide, by decide, by decide, by decide, by decide, ⟨0x200010, by decide, by decide⟩, .inr (by decide)⟩
theorem may_ecc : MayPerform { stMem [op load4 true 0x6010] with ecc := [0x8000] } 0 0 (op load4 true 0x6010) pg6 0x200010 :=
  ⟨by decide, by decide, by decide, by decide, by decide, ⟨0x200010, by decide, by decide⟩, .inr (by decide)⟩
theorem may_atom_bad : MayPerform { stMem [op atom4 true 0x6010] with poison := [0x8000] } 0 0 (op atom4 true 0x6010) pg6 0x200010 :=
  ⟨by decide, by decide, by decide, by decide, by decide, ⟨0x200010, by decide, by decide⟩, .inr (by decide)⟩
theorem may_store_ecc : MayPerform { stMem [op store4 true 0x6010] with ecc := [0x8000] } 0 0 (op store4 true 0x6010) pg6 0x200010 :=
  ⟨by decide, by decide, by decide, by decide, by decide, ⟨0x200010, by decide, by decide⟩, .inr (by decide)⟩
theorem may_red_bad : MayPerform { stMem [op red4 true 0x6010] with poison := [0x8000] } 0 0 (op red4 true 0x6010) pg6 0x200010 :=
  ⟨by decide, by decide, by decide, by decide, by decide, ⟨0x200010, by decide, by decide⟩, .inr (by decide)⟩
theorem may_bad : MayPerform { stMem [op load4 true 0x6010] with poison := [0x8000] } 0 0 (op load4 true 0x6010) pg6 0x200010 :=
  ⟨by decide, by decide, by decide, by decide, by decide, ⟨0x200010, by decide, by decide⟩, .inr (by decide)⟩

/-! ### The memory pipeline -/

theorem rule_store : ∃ s', MemoryRule (.storeBufferDrain 0) (stMem [op store4 true 0x6010]) s' :=
  ⟨_, .store _ 0 _ _ _ _ may_store rfl (by decide) (by unfold meterFetch meterLine; split <;> (try split) <;> decide)⟩
theorem rule_store_bad : ∃ s', MemoryRule (.storeBufferDrain 0) { stMem [op store4 true 0x6010] with ecc := [0x8000] } s' :=
  ⟨_, .storeBad _ 0 _ _ _ _ may_store_ecc rfl (by decide) (by decide) (by unfold meterFetch meterLine; split <;> (try split) <;> decide)⟩
theorem rule_store_asks : ∃ s', MemoryRule (.storeBufferDrain 0) (stNew [op store4 true 0x6010]) s' :=
  ⟨_, .storeAsks _ 0 (op store4 true 0x6010) pg6 0x200010 3 [1, 2, 3, 4] (by decide) (by decide) (by decide) (by decide) (by decide)
    (by decide) (by decide) (by decide) (by decide) (by decide) rfl (by decide) (by decide)⟩
theorem rule_store_misaligned : ∃ s', MemoryRule (.storeBufferDrain 0) (stMem [op store4 true 0x6012]) s' :=
  ⟨_, .misaligned _ 0 (op store4 true 0x6012) [1, 2, 3, 4] (by decide) (by decide) (by decide) (by decide) (by decide) rfl (by decide)⟩
theorem rule_store_walks : ∃ s', MemoryRule (.storeBufferDrain 0) (stMem [op store4 true 0x8000]) s' :=
  ⟨_, .walks _ 0 (op store4 true 0x8000) [1, 2, 3, 4] (by decide) (by decide) (by decide) (by decide) (by decide) rfl (by decide)
    (by decide) (by decide)⟩
theorem rule_store_refused : ∃ s', MemoryRule (.storeBufferDrain 0) { stMem [op store4 true 0x8000] with asids := [] } s' :=
  ⟨_, .walkRefuses _ 0 ccPotDeny (op store4 true 0x8000) [1, 2, 3, 4] false (by decide) (by decide) (by decide) (by decide)
    (by decide) rfl (by decide) (by decide) (by decide)⟩
theorem rule_store_plain : ∃ s', MemoryRule (.storeBufferDrain 0) (stSp [op store4 false 0x80001010]) s' :=
  ⟨_, .storePlain _ 0 0 0x2010 0x1010 (op store4 false 0x80001010) _
    ⟨by decide, by decide, by decide, by decide, by decide⟩ rfl (by decide) (by decide) (by decide)⟩
/-- The granule of a scratchpad address has an uncorrectable error. -/
def stSpBad (l : List MemOp) : State := { stMem l with cores := [(0, { coreE with spEcc := [0x101] })] }
theorem rule_store_plain_bad : ∃ s', MemoryRule (.storeBufferDrain 0) (stSpBad [op store4 false 0x80001010]) s' :=
  ⟨_, .storePlainBad _ 0 0 0x1010 0x1010 (op store4 false 0x80001010) _
    ⟨by decide, by decide, by decide, by decide, by decide⟩ rfl (by decide) (by decide) (by decide)⟩
theorem rule_load_plain_bad : ∃ s', MemoryRule (.loadReturn 0) (stSpBad [op load4 false 0x80001010]) s' :=
  ⟨_, .loadPlainBad _ 0 0 0x1010 0x1010 (op load4 false 0x80001010) _ _ _
    ⟨by decide, by decide, by decide, by decide, by decide⟩ rfl (by decide) (by decide)⟩
theorem rule_store_step : ∃ s', MemoryRule (.storeBufferDrain 0) (stSp [op store4 false 0x80000010]) s' :=
  ⟨_, .storeStep _ 0 0 0x10 (op store4 false 0x80000010) _
    ⟨by decide, by decide, by decide, by decide, by decide⟩ rfl (by decide) (by decide)⟩
theorem rule_stf : ∃ s', MemoryRule (.storeBufferDrain 0) (stMem [op (.stf false (List.replicate 16 7)) false 0x80001010]) s' :=
  ⟨_, .stf _ 0 0 0x1010 0x1010 (op (.stf false (List.replicate 16 7)) false 0x80001010) _
    ⟨by decide, by decide, by decide, by decide, by decide⟩ rfl (by decide) (by decide) (by decide)⟩
/-- A filled granule whose `ldf.take` of thread 1 has still to perform. -/
def stServed (l : List MemOp) : State :=
  { stMem l with
    threads := [(0, { th0 with mq := l }), (1, { th0 with mq := [op (.ldf true [4, 5, 6, 7]) false 0x80001010 .blocked] })]
    cores := [(0, { coreE with spFull := [0x101], granWait := [(0x101, 1)] })] }
theorem rule_stf_after : ∃ s', MemoryRule (.storeBufferDrain 0) (stServed [op (.stf false (List.replicate 16 7)) false 0x80001010]) s' :=
  ⟨_, .stfAfter _ 0 0 0x1010 0x1010 (op (.stf false (List.replicate 16 7)) false 0x80001010) _
    ⟨by decide, by decide, by decide, by decide, by decide⟩ rfl (by decide) (by decide) (by decide)⟩
theorem rule_maint_starts : ∃ s', MemoryRule (.storeBufferDrain 0) (stMem [op (.maint .clean 256) true 0x6000]) s' :=
  ⟨_, .maintenance _ 0 (op (.maint .clean 256) true 0x6000) _ _ (by decide) rfl (by decide)⟩
theorem rule_load : ∃ s', MemoryRule (.loadReturn 0) (stMem [op load4 true 0x6010]) s' :=
  ⟨_, .load _ 0 _ _ _ _ _ _ may_load rfl (by unfold ReadsWell meterFetch meterLine; split <;> (try split) <;> decide)⟩
theorem rule_load_bad : ∃ s', MemoryRule (.loadReturn 0) { stMem [op load4 true 0x6010] with poison := [0x8000] } s' :=
  ⟨_, .loadBad _ 0 ccIntegrity _ _ _ _ _ _ may_bad rfl (by unfold meterFetch meterLine; split <;> (try split) <;> decide)⟩
theorem rule_load_ecc : ∃ s', MemoryRule (.loadReturn 0) { stMem [op load4 true 0x6010] with ecc := [0x8000] } s' :=
  ⟨_, .loadBad _ 0 ccUncorrectable _ _ _ _ _ _ may_ecc rfl (by unfold meterFetch meterLine; split <;> (try split) <;> decide)⟩
theorem rule_atomic_bad : ∃ s', MemoryRule (.atomicPerform 0) { stMem [op atom4 true 0x6010] with poison := [0x8000] } s' :=
  ⟨_, .atomicBad _ 0 ccIntegrity _ _ _ _ _ _ _ _ _ _ may_atom_bad rfl (by decide) (by decide) (by unfold meterFetch meterLine; split <;> (try split) <;> decide)⟩
theorem rule_reduction_bad : ∃ s', MemoryRule (.atomicPerform 0) { stMem [op red4 true 0x6010] with poison := [0x8000] } s' :=
  ⟨_, .reductionBad _ 0 ccIntegrity _ _ _ _ _ _ _ _ may_red_bad rfl (by decide) (by decide) (by unfold meterFetch meterLine; split <;> (try split) <;> decide)⟩
theorem rule_forwarded :
    ∃ s', MemoryRule (.loadReturn 0) (stMem [op store4 true 0x6010, op (.load .w32 true [5]) true 0x6010]) s' :=
  ⟨_, .forwarded _ 0 1 (op (.load .w32 true [5]) true 0x6010) .w32 [5] [1, 2, 3, 4] (by decide) (by decide) (by decide) (by decide) rfl
    (by decide) (by decide) (by decide)⟩
theorem rule_load_plain : ∃ s', MemoryRule (.loadReturn 0) (stSp [op load4 false 0x80001010]) s' :=
  ⟨_, .loadPlain _ 0 0 0x2010 0x1010 (op load4 false 0x80001010) _ _ _ ⟨by decide, by decide, by decide, by decide, by decide⟩ rfl (by decide)
    (by decide)⟩
theorem rule_load_step : ∃ s', MemoryRule (.loadReturn 0) (stSp [op load4 false 0x80000010]) s' :=
  ⟨_, .loadStep _ 0 0 0x10 (op load4 false 0x80000010) _ _ _ ⟨by decide, by decide, by decide, by decide, by decide⟩ rfl (by decide)
    (by decide)⟩
theorem rule_sld : ∃ s', MemoryRule (.loadReturn 0) (stMem [op (.sld 4) true 0x6010]) s' :=
  ⟨_, .sld _ 0 (op (.sld 4) true 0x6010) pg6 0x200010 4 may_sld rfl (by decide)
    (by
      have h : ∀ u ∈ sldThreads (stMem [op (.sld 4) true 0x6010]) 0 (op (.sld 4) true 0x6010), u = 0 := by decide
      intro u hu; rw [h u hu]; exact ⟨_, rfl, rfl, rfl⟩)
    (by unfold ReadsWell meterFetch meterLine; split <;> (try split) <;> decide)⟩
theorem rule_atomic : ∃ s', MemoryRule (.atomicPerform 0) (stMem [op atom4 true 0x6010]) s' :=
  ⟨_, .atomic _ 0 _ _ _ _ _ _ _ _ _ _ may_atom rfl (by decide) (by decide) (by unfold ReadsWell meterFetch meterLine; split <;> (try split) <;> decide)⟩
theorem rule_reduction : ∃ s', MemoryRule (.atomicPerform 0) (stMem [op red4 true 0x6010]) s' :=
  ⟨_, .reduction _ 0 _ _ _ _ _ _ _ _ 3 may_red rfl (by decide) (by decide) (by unfold ReadsWell meterFetch meterLine; split <;> (try split) <;> decide)
    (by unfold meterFetch meterLine; split <;> (try split) <;> decide)⟩
theorem rule_atomic_plain : ∃ s', MemoryRule (.atomicPerform 0) (stMem [op atom4 false 0x80001010]) s' :=
  ⟨_, .atomicPlain _ 0 0 0x1010 0x1010 (op atom4 false 0x80001010) _ _ _ _ _ _ _
    ⟨by decide, by decide, by decide, by decide, by decide⟩ rfl (by decide) (by decide) (by decide) (by decide)⟩

/-! ### Waits -/

/-- `stE` with thread 0 in a wait. -/
def stWait (x : Wait) : State := { stE with threads := [(0, { th0 with wait := some x })] }

/-- A granule that is full; an operation blocked on it. -/
def stGran (full : NSet) (o : MemOp) : State :=
  { stMem [o] with cores := [(0, { coreE with spFull := full, granWait := [(0x101, 0)] })] }

theorem rule_ldf_wakes : ∃ s', WaitRule (.ldfWake 0) (stGran [0x101] (op (.ldf true [4, 5, 6, 7]) false 0x80001010 .blocked)) s' :=
  ⟨_, .ldf _ 0 0 0x1010 0x1010 (op (.ldf true [4, 5, 6, 7]) false 0x80001010 .blocked) _ _ (by decide) rfl (by decide) (by decide)
    (by decide) (by decide) (by decide) (by decide)⟩
theorem rule_stf_wakes :
    ∃ s', WaitRule (.stfWaitWake 0) (stGran [] (op (.stf true (List.replicate 16 7)) false 0x80001010 .blocked)) s' :=
  ⟨_, .stf _ 0 0 0x1010 0x1010 (op (.stf true (List.replicate 16 7)) false 0x80001010 .blocked) _ (by decide) rfl (by decide) (by decide)
    (by decide) (by decide) (by decide)⟩
theorem rule_mbar_wakes : ∃ s', WaitRule (.mbarWaitWake 0) (stWait (.mbar 0x80001010 1 0)) s' :=
  ⟨_, .mbar _ 0 0x80001010 1 0 0x1010 0 (by decide) (by decide) (by decide)⟩
theorem rule_nap_wakes : ∃ s', WaitRule (.napWake 0) (stWait (.nap 100 3 1 5)) s' :=
  ⟨_, .nap _ 0 100 3 1 5 (by decide) (by decide)⟩
theorem rule_swap :
    ∃ s', WaitRule (.barrierPhaseComplete 0 0 9) { stE with threads := [(0, { th0 with arr := [(9, 1)] })] } s' :=
  ⟨_, .swap _ 0 0 9 (by decide) (by decide) (by decide)⟩
theorem rule_barrier :
    ∃ s', WaitRule (.barrierPhaseComplete 0 0 3) { stE with threads := [(0, { th0 with arr := [(3, 1)] })] } s' :=
  ⟨_, .barrier _ 0 0 3 (by decide) (by decide) (by decide)⟩

theorem rule_mbar_faults : ∃ s', WaitRule (.mbarWaitWake 0) (stWait (.mbar 0x80001018 1 0)) s' :=
  ⟨_, .mbarFault _ 0 0x80001018 1 ccAlign 0 (by decide) (by decide)⟩

/-- What a `deq` or `enq` comes to. -/
def qState : QRes → State
  | .done s _ => s
  | .wait s => s
  | _ => stE
def qItem : QRes → List Byte
  | .done _ l => l
  | _ => []
/-- Its kind, and the code and the VA it names. -/
def qKind : QRes → Nat × Nat × Nat
  | .done _ _ => (0, 0, 0)
  | .wait _ => (1, 0, 0)
  | .miss v => (2, 0, v)
  | .fault c v => (3, c, v)
theorem done_of {x : QRes} (h : qKind x = (0, 0, 0)) : x = .done (qState x) (qItem x) := by
  cases x <;> first | rfl | simp [qKind] at h
theorem wait_of {x : QRes} (h : qKind x = (1, 0, 0)) : x = .wait (qState x) := by
  cases x <;> first | rfl | simp [qKind] at h
theorem miss_of {x : QRes} {v : Nat} (h : qKind x = (2, 0, v)) : x = .miss v := by
  cases x <;> simp_all [qKind]
theorem fault_of {x : QRes} {c v : Nat} (h : qKind x = (3, c, v)) : x = .fault c v := by
  cases x <;> simp_all [qKind]

theorem rule_deq : ∃ s', WaitRule (.deqTake 0) (stWait (.deq 0x4000 8 0)) s' :=
  ⟨_, .deq _ _ 0 0x4000 8 0 _ (by decide) (by decide) (by decide) (done_of (by decide))⟩
theorem rule_deq_page : ∃ s', WaitRule (.deqTake 0) (stWait (.deq 0x8000 8 0)) s' :=
  ⟨_, .deqPage _ 0 0x8000 8 0x8000 0 (by decide) (by decide) (by decide) (miss_of (by decide))⟩
theorem rule_deq_faults : ∃ s', WaitRule (.deqTake 0) (stWait (.deq 0x4010 8 0)) s' :=
  ⟨_, .deqFault _ 0 0x4010 8 ccAlign 0x4010 0 (by decide) (by decide) (by decide) (fault_of (by decide))⟩
theorem rule_deq_denied :
    ∃ s', WaitRule (.deqTake 0) { stE with threads := [(0, { th0 with wait := some (.deq 0x4000 8 0), refused := some 0x5020 })] } s' :=
  ⟨_, .deqDenied _ 0 0x4000 8 0x5020 0 (by decide) (by decide) (by decide)⟩

/-- `stE` with an `enq` of an item at a header. -/
def enqOp (hdr : Nat) : MemOp := op (.enq hdr (List.replicate 32 1)) true hdr
theorem rule_enq : ∃ s', WaitRule (.enqReservation 0) (stMem [enqOp 0x4000]) s' :=
  ⟨_, .enq _ _ 0 0x4000 (enqOp 0x4000) _ _ (by decide) rfl (by decide) (by decide) (done_of (by decide))⟩
theorem rule_enq_page : ∃ s', WaitRule (.enqReservation 0) (stMem [enqOp 0x8000]) s' :=
  ⟨_, .enqPage _ 0 0x8000 0x8000 (enqOp 0x8000) _ (by decide) rfl (by decide) (by decide) (miss_of (by decide))⟩
theorem rule_enq_faults : ∃ s', WaitRule (.enqReservation 0) (stMem [enqOp 0x4010]) s' :=
  ⟨_, .enqFault _ 0 0x4010 ccAlign 0x4010 (enqOp 0x4010) _ (by decide) rfl (by decide) (by decide) (fault_of (by decide))⟩
/-- The queue at 0x4000 has four items that no `deq` has taken. -/
def stFull : State := { puts (stMem [enqOp 0x4000]) [(0x80020000018, 4), (0x80020000020, 4)] with
  teams := [(0, { teamE with ended := true })] }
theorem rule_enq_ended : ∃ s', WaitRule (.enqReservation 0) stFull s' :=
  ⟨_, .enqEnded _ _ 0 0x4000 (enqOp 0x4000) _ (by decide) rfl (by decide) (by decide) (wait_of (by decide)) (by decide)⟩
def heldSvc : State :=
  { stWait (.svc none 4 0 9) with parts := [(1, { live := true, agent := 1, svcq := some (0x4000, 1), svcWait := [0] })] }
theorem rule_svc_post : ∃ s', WaitRule (.svcPost 1) heldSvc s' :=
  ⟨_, .svcPost _ _ 1 0 4 0 _ 9 (by decide) (by decide) (gives (by decide))⟩
def pendSvc : State :=
  { stWait (.svc (some 5) 4 0 9) with
    parts := [(1, { live := true, agent := 1, svcq := some (0x4000, 1), svcPend := [⟨5, 0⟩] })]
    boot := { stE.boot with hostBoot := false } }
theorem rule_reply : ∃ s', WaitRule (.replyDoorbell 1 5 7) pendSvc s' :=
  ⟨_, .reply _ 1 5 7 ⟨5, 0⟩ 4 0 9 (some 5) (by decide) (by decide) (by decide) (by decide)⟩
theorem rule_reply_unknown : ∃ s', WaitRule (.replyDoorbell 1 6 7) pendSvc s' :=
  ⟨_, .replyUnknown _ 1 6 7 (by decide) (by decide)⟩
theorem rule_reply_reserved : ∃ s', WaitRule (.replyDoorbell 1 5 svcAborted) pendSvc s' :=
  ⟨_, .replyReserved _ 1 5 svcAborted (by decide) (by decide)⟩
theorem rule_reply_down : ∃ s', WaitRule (.replyDoorbell 3 5 7) pendSvc s' :=
  ⟨_, .replyReserved _ 3 5 7 (by decide) (by decide)⟩
theorem rule_reply_error :
    ∃ s', WaitRule (.replyDoorbell 1 5 7) { pendSvc with
      boot := { pendSvc.boot with hostUp := true }, host := { pendSvc.host with tdi := [(2, .error)] } } s' :=
  ⟨_, .replyError _ 1 5 7 (by decide) (by decide) (by decide)⟩
theorem rule_maint_ends :
    ∃ s', WaitRule (.maintenanceComplete 0) { stE with maints := [⟨0, 0, .clean, 1, 0x6000, 128, 0, some []⟩] } s' :=
  ⟨_, .maintenance _ 0 _ rfl rfl⟩
def growing : State :=
  { stE with
    cores := [(0, { coreE with grows := [⟨[(0, 128)], 0, 1⟩] })]
    threads := [(0, { th0 with nregs := 64, wait := some (.rgrow 128 1) })] }
theorem rule_rgrow : ∃ s', WaitRule (.rgrowGrant 0) growing s' :=
  ⟨_, .rgrow _ 0 ⟨[(0, 128)], 0, 1⟩ [] (by decide) (by decide) (by decide) (by decide)⟩
theorem rule_rgrow_alone : ∃ s', WaitRule (.rgrowGrant 0) growing s' :=
  ⟨_, .rgrowAlone _ 0 ⟨[(0, 128)], 0, 1⟩ [] (by decide) (by decide) (by decide) (by decide)⟩
/-- Two teams wait; the second, placed later, keeps the whole reservation of the core. -/
def crowded : State :=
  { growing with
    cores := [(0, { coreE with grows := [⟨[(0, 128)], 0, 1⟩, ⟨[(32, 16)], 1, 2⟩] })]
    teams := [(0, teamE), (1, { team0 with tnum := 1, wslots := [1], placed := 1, keeps := 262144 })]
    warps := [(0, warp0), (1, { warp0 with bind := mkBind 1 1 0 0 0 1 0 1 0 })] }
theorem rule_rgrow_demotes : ∃ s', WaitRule (.rgrowGrant 0) crowded s' :=
  ⟨_, .rgrowDemotes _ 0 1 ⟨[(0, 128)], 0, 1⟩ _ (by decide) (by decide) rfl (by decide) (by decide) (by decide) (by decide)⟩
theorem rule_rgrow_none :
    ∃ s', WaitRule (.rgrowGrant 0) { growing with teams := [] } s' :=
  ⟨_, .rgrowNone _ 0 ⟨[(0, 128)], 0, 1⟩ [] (by decide) (by decide) (by decide) (by decide)⟩
theorem rule_line_fill : ∃ s', WaitRule (.registerLineFill 0 (0 * 32 + 3)) { stE with threads := [(0, { th0 with lines := 0, wait := some (.line [.w 0 3]) })] } s' :=
  ⟨_, .lineFill _ 0 0 3 (by decide) (by decide) (by decide) (by decide) (by decide) (by decide) (by decide) (by decide)⟩
theorem rule_any_line_fill : ∃ s', WaitRule (.registerLineFill 0 0x4000010) { stE with warps := [(0, { warp0 with slines := 0 })] } s' :=
  ⟨_, .anyLineFill _ 0 0x4000010 (by decide) (by decide) (by decide) (by decide)⟩

/-- A core whose register cache is full, without the line of its team's block. -/
def cacheFull : State :=
  { stE with threads := (List.range 228).map fun i => (i, th0), teams := [(0, { teamE with tline := false })] }
theorem minBy_isSome {α : Type} (f : α → Nat) (l : List α) (h : l.isEmpty = false) : (minBy f l).isSome = true := by
  cases l with
  | nil => cases h
  | cons a l => simp only [minBy]; split <;> try rfl
                split <;> rfl
theorem line_evicts_of {l : RegLine} (h : victim cacheFull 0 (lineOfNum 0x4A00000) = some l) :
    ∃ s', WaitRule (.registerLineFill 0 0x4A00000) cacheFull s' :=
  have hn : lineOfNum 0x4A00000 = .team 0 := by decide
  have he := evict_team cacheFull l 0 (by decide)
  ⟨_, .lineEvicts _ 0 0x4A00000 l (by decide) (by decide) h (by rw [hn]; simp only [lineExists, he.1]; decide)
    (by rw [hn]; simp only [linePresent, he.2])⟩
theorem rule_line_evicts : ∃ s', WaitRule (.registerLineFill 0 0x4A00000) cacheFull s' :=
  line_evicts_of (gives (minBy_isSome _ _ (by decide)))

/-! ### Walks -/

/-- A walk of the page at 0x6000 for core 0. -/
def stWalk (stale : Bool) : State :=
  { stMem [op load4 true 0x6010 .walking] with walks := [⟨1, 6, 2, [.core 0], stale⟩], cores := [(0, core0)] }
theorem rule_walk : ∃ s', WalkRule (.walkComplete 0) (stWalk false) s' :=
  ⟨_, .done _ 0 ⟨1, 6, 2, [.core 0], false⟩ (by decide) (by decide) (by decide) (by
    intro pa h
    have hw : (match walk (stWalk false) 1 (6 * 4096) .r with | .badAddr _ => false | _ => true) = true := by decide
    rw [show walk (stWalk false) 1 (6 * 4096) .r = _ from h] at hw; cases hw)⟩
theorem rule_walk_again : ∃ s', WalkRule (.walkComplete 0) (stWalk true) s' :=
  ⟨_, .again _ 0 ⟨1, 6, 2, [.core 0], true⟩ (by decide) (by decide) (by decide)⟩

/-- Enclave 1 is its own creator; its fault queue is the one at 0x4000, and one entry waits. -/
def fqEntry : FqEntry := ⟨1, 2, 8, 1, 0, 0, 0, 0, 0, 0, none⟩
def stFq : State := { stE with encls := [(1, { encl1 with creator := 1, fqHdr := some 0x4000, fq := [fqEntry] })] }
def fqOf : Nat × QHdr × Nat := (fqPlace stFq { encl1 with creator := 1, fqHdr := some 0x4000, fq := [fqEntry] }).get (by decide)
theorem rule_fq_post : ∃ s', WalkRule (.faultQueueRoom 1) stFq s' :=
  ⟨_, .post _ 1 { encl1 with creator := 1, fqHdr := some 0x4000, fq := [fqEntry] } fqEntry fqOf.1 _ fqOf.2.2 fqOf.2.1 _ (by decide)
    (by decide) (by decide) (gives (by decide)) (by decide) (gives (by decide))⟩

/-! ### Homes -/

/-- A request of core 0 at the home of grain 0x1000. -/
def rq (ev : Nat) : HomeReq := ⟨ev, 0x1000, 0, false, false, [], .thread 0, none⟩
def stHome (ev : Nat) (d : SMap DirEnt) : State := { stE with reqs := [rq ev], dir := d }
theorem taken_of {ev : Nat} {d : SMap DirEnt} (h : homeRoom (stHome ev d) 0x1000
      (eventEntry (stHome ev d) 0x1000 ev (requestRel (stHome ev d) (rq ev)) % 2 ^ 14) = true)
    (h' : writeHeld (stHome ev d) (rq ev) = false) : Taken (stHome ev d) 0 (rq ev) := ⟨rfl, rfl, h', h⟩

/-- A request event on an empty directory. -/
theorem request_of (x : Instr) (ev : Nat) (hx : requestRow x = some (0, ev)) (h : homeRoom (stHome ev []) 0x1000
      (eventEntry (stHome ev []) 0x1000 ev (requestRel (stHome ev []) (rq ev)) % 2 ^ 14) = true)
    (h' : writeHeld (stHome ev []) (rq ev) = false) : ∃ s', HomeRule x (stHome ev []) s' :=
  ⟨_, .request x _ 0 ev (rq ev) hx rfl (taken_of h h') rfl⟩
theorem rule_lrd : ∃ s', HomeRule (.lrd 0) (stHome 0 []) s' := request_of _ 0 rfl (by decide) (by decide)
theorem rule_lwr : ∃ s', HomeRule (.lwr 0) (stHome 1 []) s' := request_of _ 1 rfl (by decide) (by decide)
theorem rule_rrd : ∃ s', HomeRule (.rrd 0) (stHome 2 []) s' := request_of _ 2 rfl (by decide) (by decide)
theorem rule_rup : ∃ s', HomeRule (.rup 0) (stHome 3 []) s' := request_of _ 3 rfl (by decide) (by decide)
theorem rule_erd : ∃ s', HomeRule (.erd 0) (stHome 5 []) s' := request_of _ 5 rfl (by decide) (by decide)
theorem rule_ewr : ∃ s', HomeRule (.ewr 0) (stHome 6 []) s' := request_of _ 6 rfl (by decide) (by decide)
theorem rule_cln : ∃ s', HomeRule (.cln 0) (stHome 7 []) s' := request_of _ 7 rfl (by decide) (by decide)
theorem rule_inv : ∃ s', HomeRule (.inv 0) (stHome 8 []) s' := request_of _ 8 rfl (by decide) (by decide)

/-- A directory whose slice is full: 65,536 entries of another grain of it, which is shared. -/
def others : SMap DirEnt := List.replicate 65536 (0x9000, ⟨1, 0, true, 0, 0, 0, 0, 0⟩)
theorem others_find : smFind? others 0x1000 = none := by
  have hr : ∀ n : Nat, smFind? (List.replicate n (0x9000, (⟨1, 0, true, 0, 0, 0, 0, 0⟩ : DirEnt))) 0x1000 = none := by
    intro n
    induction n with
    | zero => rfl
    | succ n ih => rw [List.replicate_succ, smFind?]; exact ih
  exact hr _
/-- A machine that runs nothing, with one request of no thread at a directory. -/
def rqNone (ev : Nat) : HomeReq := ⟨ev, 0x1000, 0, false, false, [], .none, none⟩
def crowd (ev : Nat) (d : SMap DirEnt) : State := { State.reset with reqs := [rqNone ev], dir := d }
theorem protoOf_none {s : State} (h : s.ranges = []) (g : Nat) : protoOf s g = 0 := by
  unfold protoOf; rw [h]; split <;> rfl
theorem crowd_entry {ev : Nat} {d : SMap DirEnt} (h : smFind? d 0x1000 = none) (rel : Nat) :
    eventEntry (crowd ev d) 0x1000 ev rel = invEntry 0 ev rel := by
  have hd : getDir (crowd ev d) 0x1000 = dirNone := by
    show (smFind? d 0x1000).getD dirNone = dirNone
    rw [h]; rfl
  unfold eventEntry; rw [hd, protoOf_none rfl]; rfl
theorem crowd_erd (d : SMap DirEnt) (h : smFind? d 0x1000 = none) :
    smFind? (handled (crowd 5 d) 0 (rqNone 5)).dir 0x1000 = none := by
  simp [handled, rqNone, homeEvent, eventEntry, crowd, State.reset, protoOf_none, protoEntry, getDir, h, dirNone, invEntry, pStable,
    evRead, evWrite, pEnt, aDSH, doSets, hasAct, roundOf, aIALL, aRINV, aRSHR, aLOCK, aUPDU, aDEX, aSADD, aSDEL, aSAVE, aWB, aHOLD,
    aRSND, aDONE, evERD, evEVT, enterState, protoDesc, invDesc, putDir, stClass, clearSets, stTrans, clearProxies, putProxy, proxyKey,
    List.range, List.range.loop, completeReq, releaseHeld]
theorem crowd_lrd (d : SMap DirEnt) (h : smFind? d 0x1000 = none) :
    (smFind? (handled (crowd 0 d) 0 (rqNone 0)).dir 0x1000).isSome = true := by
  have hl : isLocal 0x1000 0 = false := by decide
  simp [handled, rqNone, homeEvent, eventEntry, crowd, State.reset, protoOf_none, protoEntry, getDir, h, dirNone, invEntry, pStable,
    evRead, evWrite, pEnt, aDSH, doSets, hasAct, roundOf, aIALL, aRINV, aRSHR, aLOCK, aUPDU, aDEX, aSADD, aSDEL, aSAVE, aWB, aHOLD,
    aRSND, aDONE, evEVT, enterState, protoDesc, invDesc, putDir, stClass, stTrans, putProxy, proxyKey, completeReq, releaseHeld,
    addSharer, hl, ioAgent, protoRepl, noteSent]
theorem crowd_full (ev : Nat) : (reclaim (crowd ev others) 0x1000).isSome = true := by
  have hf : ∀ p : Nat × DirEnt → Bool, p (0x9000, ⟨1, 0, true, 0, 0, 0, 0, 0⟩) = true → others.filter p = others := by
    intro p hp
    unfold others
    rw [List.filter_replicate, if_pos hp]
  have h1 : (crowd ev others).dir = others := rfl
  have h2 : others.filter (fun d => decide (sliceOf d.1 = sliceOf 0x1000)) = others := hf _ (by decide)
  have h3 : others.length = 65536 := List.length_replicate
  have h4 : others.filter (fun d => !stTrans (protoDesc (crowd ev others) (protoOf (crowd ev others) d.1) d.2.state)) = others :=
    hf _ (by rw [protoOf_none rfl]; show (!stTrans (invDesc.getD 1 0)) = true; decide)
  have h5 : others.isEmpty = false := by rw [List.isEmpty_eq_false_iff, ne_eq, ← List.length_eq_zero_iff, h3]; decide
  unfold reclaim
  simp only [h1, h2, h3, h4, others_find]
  simp [minBy_isSome _ _ h5]
theorem rule_request_no_entry : ∃ s', HomeRule (.erd 0) (crowd 5 others) s' :=
  ⟨_, .requestNoEntry _ _ 0 5 _ (rqNone 5) rfl rfl ⟨rfl, rfl, rfl, by rw [show (rqNone 5).ev = 5 from rfl, show (rqNone 5).grain = 0x1000 from rfl, crowd_entry others_find]; rfl⟩
    (gives (crowd_full 5)) (crowd_erd _ others_find)⟩
theorem rule_request_evicts : ∃ s', HomeRule (.lrd 0) (crowd 0 others) s' :=
  ⟨_, .requestEvicts _ _ 0 0 _ (rqNone 0) rfl rfl ⟨rfl, rfl, rfl, by rw [show (rqNone 0).ev = 0 from rfl, show (rqNone 0).grain = 0x1000 from rfl, crowd_entry others_find]; rfl⟩
    (gives (crowd_full 0)) (crowd_lrd _ others_find) (by simp [crowd, rqNone])⟩
theorem rule_held : ∃ s', HomeRule (.lwr 0) (stHome 1 [(0x1000, ⟨3, 0, false, 0, 0, 0, 0, 0⟩)]) s' :=
  ⟨_, .held _ 0 (rq 1) (taken_of (by decide) (by decide)) rfl (by decide) (by decide) (by decide) (by decide)⟩

/-- The grain's range is under WO, and its state is 3. -/
def stWo : State :=
  { stHome 1 [(0x1000, ⟨3, 0, false, 0, 0, 0, 0, 0⟩)] with
    ranges := [(64, BitVec.ofNat 64 (2 ^ 63 + 3 * 2 ^ 56 + 2 * 2 ^ 23 + 1))], protos := [(3, woImage)] }
set_option maxRecDepth 200000 in
theorem rule_write_once : ∃ s', HomeRule (.lwr 0) stWo s' :=
  ⟨_, .writeOnce _ 0 (rq 1) ⟨rfl, rfl, by decide, by decide⟩ rfl (by decide) (by decide) (by decide)⟩

/-- A grain with copies. -/
def shared : DirEnt := ⟨1, 0, false, 1, 0, 0, 0, 0⟩
theorem rule_evt : ∃ s', HomeRule (.evt 0x1000 (.core 0)) (stMem []) s' := ⟨_, .evt _ 0x1000 (.core 0) (by decide) (by decide)⟩

/-- A round that waits for some agents, and the messages and acknowledgements of its grain. -/
def round (l : List Owed) (tmos : Nat) : PendRec := ⟨⟨3, 0x1000, 5, false, false, [], .none, none⟩, evUPD, l, 0, tmos, false, false⟩
def stRound (l : List Owed) (tmos : Nat) (msgs : List Msg) : State :=
  { stE with
    clock := 2 ^ 40, dir := [(0x1000, { shared with state := 3 })], pends := [(0x1000, round l tmos)]
    proxies := [(0x1000 * 8, [0])]
    msgs := msgs }
def acked (s : State) : State := { s with ackQ := [(0x1000, .core 128)] }
theorem rule_ack : ∃ s', HomeRule (.directoryAck 0x1000 (.core 128)) (acked (stRound [⟨.core 128, .inval, 0⟩, ⟨.meadow 2, .inval, 0⟩] 0 [])) s' :=
  ⟨_, .ack _ 0x1000 (.core 128) (.core 128) (round [⟨.core 128, .inval, 0⟩, ⟨.meadow 2, .inval, 0⟩] 0) (by decide) (by decide) (by decide)
    (by decide) (by decide) (by decide)⟩
theorem rule_last_ack : ∃ s', HomeRule (.directoryAck 0x1000 (.core 128)) (acked (stRound [⟨.core 128, .inval, 0⟩] 0 [])) s' :=
  ⟨_, .lastAck _ 0x1000 (.core 128) (.core 128) (round [⟨.core 128, .inval, 0⟩] 0) (by decide) (by decide) (by decide) (by decide)
    (by decide) (by decide)⟩
theorem rule_tmo : ∃ s', HomeRule (.tmo 0x1000) (stRound [⟨.core 128, .inval, 0⟩] 0 []) s' :=
  ⟨_, .tmo _ 0x1000 (round [⟨.core 128, .inval, 0⟩] 0) (by decide) (by decide) (by decide)⟩
theorem rule_tmo_state : ∃ s', HomeRule (.tmo 0x1000) { stRound [] 0 [] with pends := [], dir := [(0x1000, { shared with state := 4 })] } s' :=
  ⟨_, .tmoState _ 0x1000 (by decide) (by decide) (by decide)⟩
theorem rule_lost : ∃ s', HomeRule (.tmo 0x1000) (stRound [⟨.core 128, .inval, 0⟩] 7 []) s' :=
  ⟨_, .lost _ 0x1000 (round [⟨.core 128, .inval, 0⟩] 7) (by decide) (by decide) (by decide)⟩

/-- The messages without the first, and that one. -/
def taken (s : State) : State := { s with msgs := s.msgs.drop 1 }
theorem rule_copy : ∃ s', HomeRule (.copyInvalidation 0x1000 (.core 128))
    (stRound [⟨.core 128, .inval, 0⟩] 0 [⟨0x1000, .core 128, .inval, 0⟩]) s' :=
  ⟨_, .copy _ (taken _) 0x1000 (.core 128) ⟨0x1000, .core 128, .inval, 0⟩ rfl (by decide)⟩
/-- A core of another meadow, the only one its proxy slice lists, or one of two. -/
theorem rule_copy_last : ∃ s', HomeRule (.copyInvalidation 0x1000 (.core 0))
    (stRound [⟨.meadow 0, .inval, 0⟩] 0 [⟨0x1000, .core 0, .inval, 0⟩]) s' :=
  ⟨_, .copyLast _ (taken _) 0x1000 0 (.core 0) ⟨0x1000, .core 0, .inval, 0⟩ rfl (by decide) (by decide) (by decide) (by decide)⟩
theorem rule_copy_more : ∃ s', HomeRule (.copyInvalidation 0x1000 (.core 0))
    { stRound [⟨.meadow 0, .inval, 0⟩] 0 [⟨0x1000, .core 0, .inval, 0⟩] with proxies := [(0x1000 * 8, [0, 3])] } s' :=
  ⟨_, .copyMore _ (taken _) 0x1000 0 (.core 0) ⟨0x1000, .core 0, .inval, 0⟩ rfl (by decide) (by decide) (by decide)⟩
theorem rule_copy_recalled : ∃ s', HomeRule (.copyInvalidation 0x1000 (.core 0))
    (stRound [⟨.meadow 0, .recall, 0⟩] 0 [⟨0x1000, .core 0, .recall, 0⟩]) s' :=
  ⟨_, .copyRecalled _ (taken _) 0x1000 0 (.core 0) ⟨0x1000, .core 0, .recall, 0⟩ rfl (by decide) (by decide) (by decide)⟩
theorem rule_proxy_none : ∃ s', HomeRule (.proxyInvalidation 0x1000 2)
    (stRound [⟨.meadow 2, .inval, 0⟩] 0 [⟨0x1000, .meadow 2, .inval, 0⟩]) s' :=
  ⟨_, .proxyNone _ (taken _) 0x1000 2 ⟨0x1000, .meadow 2, .inval, 0⟩ rfl (by decide) (by decide)⟩
theorem rule_proxy : ∃ s', HomeRule (.proxyInvalidation 0x1000 0)
    (stRound [⟨.meadow 0, .inval, 0⟩] 0 [⟨0x1000, .meadow 0, .inval, 0⟩]) s' :=
  ⟨_, .proxy _ (taken _) 0x1000 0 ⟨0x1000, .meadow 0, .inval, 0⟩ rfl (by decide) (by decide)⟩
theorem rule_proxy_recall : ∃ s', HomeRule (.proxyInvalidation 0x1000 0)
    (stRound [⟨.meadow 0, .recall, 0⟩] 0 [⟨0x1000, .meadow 0, .recall, 0⟩]) s' :=
  ⟨_, .proxyRecall _ (taken _) 0x1000 0 ⟨0x1000, .meadow 0, .recall, 0⟩ rfl (by decide) (by decide)⟩
theorem rule_lock : ∃ s', HomeRule (.replicaLock 0x1000 3)
    (stRound [⟨.meadow 3, .lock, 0⟩] 0 [⟨0x1000, .meadow 3, .lock, 0⟩]) s' :=
  ⟨_, .lock _ (taken _) 0x1000 3 ⟨0x1000, .meadow 3, .lock, 0⟩ rfl⟩
theorem rule_update : ∃ s', HomeRule (.replicaUpdate 0x1000 4)
    (stRound [⟨.meadow 4, .update, 0⟩] 0 [⟨0x1000, .meadow 4, .update, 0⟩]) s' :=
  ⟨_, .update _ (taken _) 0x1000 4 ⟨0x1000, .meadow 4, .update, 0⟩ rfl⟩
theorem rule_write_back : ∃ s', HomeRule (.meadowStoreWriteBack 0x4000) { stE with stale := [(0x4000, {})] } s' :=
  ⟨_, .writeBack _ 0x4000 {} (by decide)⟩

end Sys2Proof.Tests
end

