-- ==== Sys2Proof/Tests/LaunchWitnesses.lean ====
section
/-! SUPPORT. States that meet all the conditions of the rules of launch, issue, retirement and the search units. -/
namespace Sys2Proof.Tests
open Machine
-- One declaration at a time: each more thread of the compiler takes a stack out of the same memory.
set_option Elab.async false
set_option maxRecDepth 20000

/-! ### Launch, issue and retirement -/

/-- A launch record of one warp and a grid of `gx` groves of one team, in meadow 0; its JOIN is at 0x6008. -/
def lrec (gx : Nat) : List W64 :=
  [0x1000, 0, 0x6000, 0x6008, BitVec.ofNat 64 (2 ^ 48 + 2 ^ 32 + 2 ^ 24 + 2 ^ 16 + 2 ^ 8 + 1), BitVec.ofNat 64 (2 ^ 16 + gx), 0x10001]
    ++ List.replicate 9 0

/-- `stE` with core 0 granted to partition 1, which has a context pool in meadow 0, and with its VF's registers up. -/
def stL : State :=
  { stE with
    parts := [(1, { live := true, agent := 1, ctx := [(0, (0, 0x10000))] })]
    cores := [(0, { core0 with tlb := coreE.tlb })]
    boot := { stE.boot with hostBoot := false }
    host := { stE.host with coreTab := [(0, 2)] } }

/-- With a record in kick register 0 of enclave 1, and with a launch. -/
def stKick (l : List W64) : State := { stL with encls := [(1, { encl1 with kicks := [(0, { pend := [⟨l, 0x6000⟩] })] })] }
def launch (gx : Nat) : Launch := ⟨1, 0, lrec gx, 0x6000, 0, 0, none, false⟩
def stLaunch (gx : Nat) : State := { stL with launches := [launch gx] }

theorem rule_dispatch : ∃ s', LaunchRule (.dispatchRecord 1 0) (stKick (lrec 1)) s' :=
  ⟨_, .dispatch _ 1 0 { encl1 with kicks := [(0, { pend := [⟨lrec 1, 0x6000⟩] })] } ⟨lrec 1, 0x6000⟩ [] (by decide) (by decide) (by decide)
    (by decide)⟩
/-- What a write of the I/O home comes to, where it lands. -/
def ioState : IoRes → State
  | .done s => s
  | _ => stE
def ioCode : IoRes → Option Nat
  | .done _ => some 0
  | .fault c => some c
  | _ => none
theorem ioDone_of {x : IoRes} (h : ioCode x = some 0) (h' : (match x with
    | .done _ => true
    | _ => false) = true) : x = .done (ioState x) := by
  cases x <;> simp_all [ioState]
theorem ioFault_of {x : IoRes} {c : Nat} (h : ioCode x = some c) (h' : c ≠ 0) : x = .fault c := by
  cases x <;> simp_all [ioCode]
theorem rule_refuse : ∃ s', LaunchRule (.dispatchRecord 1 0) (stKick (lrec 0)) s' :=
  ⟨_, .refuse _ _ 1 0 3 { encl1 with kicks := [(0, { pend := [⟨lrec 0, 0x6000⟩] })] } ⟨lrec 0, 0x6000⟩ [] (by decide) (by decide) (by decide)
    (by decide) (by decide) (ioDone_of (by decide) (by decide))⟩
theorem rule_place : ∃ s', LaunchRule (.grovePlacement 0 ⟨0, 0, 0⟩) (stLaunch 2) s' :=
  ⟨_, .place _ 0 (launch 2) ⟨0, 0, 0⟩ ⟨by decide, by decide, by decide, by decide, by decide⟩ (by decide)⟩
theorem rule_place_last : ∃ s', LaunchRule (.grovePlacement 0 ⟨0, 0, 0⟩) (stLaunch 1) s' :=
  ⟨_, .placeLast _ 0 (launch 1) ⟨0, 0, 0⟩ ⟨by decide, by decide, by decide, by decide, by decide⟩ (by decide)⟩
theorem rule_starved : ∃ s', LaunchRule (.placementStarvation 0) { stL with launches := [{ launch 1 with passedSince := some 0 }], clock := 2000000 } s' :=
  ⟨_, .starved _ 0 0 { launch 1 with passedSince := some 0 } (by decide) (by decide) (by decide)⟩
theorem rule_issue : ∃ s', LaunchRule (.issueSelection 0 0) stL s' := ⟨_, .issue _ 0 0 0 (by decide) (by decide)⟩
theorem rule_starved_thread :
    ∃ s', LaunchRule (.waitCountStarvation 0 0) { stL with threads := [(0, { th0 with waitCount := 256 })] } s' :=
  ⟨_, .starvedThread _ 0 0 0 (by decide) (by decide) (by decide) (by decide)⟩
theorem rule_bind : ∃ s', LaunchRule (.bindRecordWrite 0 0 (mkBind 1 0 0 0 0 1 0 0 0)) stL s' :=
  ⟨_, .bind _ 0 0 _ (by decide) (by decide) (by decide) (by decide)⟩
theorem rule_bind_bad : ∃ s', LaunchRule (.bindRecordWrite 0 0 (mkBind 1 1 0 0 0 1 0 0 0)) stL s' :=
  ⟨_, .bindBad _ 0 0 _ (by decide) (by decide) (by decide) (by decide)⟩

/-- A switch list of one entry at 0x6000: core 0, team slot 0, RUN. -/
def stGsw : State := writeNat stL 0x200000 8 (1 + 0x1000 * 2 ^ 32)
/-- A read of the home agent, with or without a fetch of its line. -/
def readBy (b : Bool) (s : State) (asid va n : Nat) : State × Option (List Byte) :=
  match readVa s asid va n, transNow s asid va .r with
  | some _, (.ok e, pa) =>
    let x := ioTouch s (fwdPa s pa) n false
    let s1 := if e.mt = 1 then s else if b then meterSpan x (fwdPa s pa / 128 * 128) (128 * (blocksOf 128 (fwdPa s pa) n).length) else x
    (s1, readVa s1 asid va n)
  | _, _ => (noteNow s 0 asid va n .r, none)
theorem read_by (s : State) (asid va n : Nat) : ∃ b, ioReadVaBy 0 s asid va n = readBy b s asid va n := by
  rcases h2 : transNow s asid va .r with ⟨r, pa⟩
  refine ⟨Config.lineFetched (ioTouch s (fwdPa s pa) n false).n, ?_⟩
  cases h1 : readVa s asid va n <;> cases r <;> simp only [ioReadVaBy, readBy, h1, h2, meterLines]
theorem read_of {s : State} {asid va n : Nat} {bs : List Byte} (h : ∀ b, (readBy b s asid va n).2 = some bs) :
    ioReadVaBy 0 s asid va n = ((ioReadVaBy 0 s asid va n).1, some bs) := by
  obtain ⟨b, hb⟩ := read_by s asid va n
  rw [hb, ← h b]
/-- The one entry of a list, read after its count. -/
theorem word_of {s : State} {asid va : Nat} {w : List Byte}
    (h : ∀ b c, (readBy c (readBy b s asid va 4).1 asid (va + 4) 4).2 = some w) :
    ioWords asid 1 (va + 4) (ioReadVaBy 0 s asid va 4).1
      = ((ioWords asid 1 (va + 4) (ioReadVaBy 0 s asid va 4).1).1, some [natOfBytes w]) := by
  obtain ⟨b, hb⟩ := read_by s asid va 4
  rw [hb]
  obtain ⟨c, hc⟩ := read_by (readBy b s asid va 4).1 asid (va + 4) 4
  have e : ioReadVaBy 0 (readBy b s asid va 4).1 asid (va + 4) 4 = ((readBy c (readBy b s asid va 4).1 asid (va + 4) 4).1, some w) := by
    rw [hc, ← h b c]
  simp only [ioWords, e, Option.map_some]
theorem rule_gsw : ∃ s', LaunchRule (.gsw 1 0x6000) stGsw s' :=
  ⟨_, .gsw _ _ _ 1 0x6000 (bytesOfNat 4 1) [natOfBytes (bytesOfNat 4 0x1000)] (by decide) (by decide) (read_of (by decide)) (by decide)
    (word_of (by decide)) (by decide)⟩
theorem rule_gsw_count : ∃ s', LaunchRule (.gsw 1 0x6000) (writeNat stL 0x200000 8 0x101) s' :=
  ⟨_, .gswCount _ _ 1 0x6000 (bytesOfNat 4 0x101) (by decide) (by decide) (read_of (by decide)) (by decide)⟩
theorem rule_gsw_list : ∃ s', LaunchRule (.gsw 1 0x6000) (writeNat stL 0x200000 8 (1 + 0x1004 * 2 ^ 32)) s' :=
  ⟨_, .gswList _ _ _ 1 0x1004 0x6000 (bytesOfNat 4 1) [natOfBytes (bytesOfNat 4 0x1004)] (by decide) (by decide) (read_of (by decide))
    (by decide) (word_of (by decide)) (by decide) (by decide)⟩
theorem rule_gsw_error :
    ∃ s', LaunchRule (.gsw 1 0x6000) { stGsw with host := { stGsw.host with tdi := [(2, .error)] } } s' :=
  ⟨_, .gswError _ 1 0x6000 (by decide) (by decide) (by decide)⟩
def stBusy : State := { stL with parts := [(1, { live := true, agent := 1, gswBusy := true, gswStaged := [(0, 0, true)] })] }
theorem rule_gsw_busy : ∃ s', LaunchRule (.gsw 1 0x6000) stBusy s' := ⟨_, .gswBusy _ 1 0x6000 (by decide) (by decide)⟩
theorem rule_gsw_commit : ∃ s', LaunchRule (.guestSwitchCommit 1) stBusy s' := ⟨_, .commit _ 1 (by decide) (by decide)⟩

/-- An ended team whose JOIN counter is at 0x6008. -/
def stEnded (w : Option Bool) : State :=
  { stL with teams := [(0, { team0 with ended := true, join := 0x6008, joinWait := w })] }
def jp : TlbEntry := ⟨1, 6, 12, 0x200000, true, true, false, 0, 1, 0, 1⟩
/-- The grain of the counter is under WO, and was written once. -/
def woJoin : State :=
  { stEnded none with
    dir := [(0x1000, ⟨3, 0, false, 0, 0, 0, 0, 0⟩)], ranges := [(64, BitVec.ofNat 64 (2 ^ 63 + 3 * 2 ^ 56 + 2 * 2 ^ 23 + 1))], protos := [(3, woImage)] }
theorem retires : Retires (stEnded none) 0 jp 0x200008 :=
  ⟨by decide, by decide, by decide, by decide, ⟨0x200008, by decide, by decide⟩, by decide, by decide, by decide⟩
theorem retiresWo : Retires woJoin 0 jp 0x200008 :=
  ⟨by decide, by decide, by decide, by decide, ⟨0x200008, by decide, by decide⟩, by decide, by decide, by decide⟩
theorem rule_retire : ∃ s', LaunchRule (.teamRetirement 0 0) (stEnded none) s' :=
  ⟨_, .retire _ _ 0 0 jp 0x200008 retires (ioDone_of (by decide) (by decide))⟩
set_option maxRecDepth 200000 in
theorem rule_retire_refused : ∃ s', LaunchRule (.teamRetirement 0 0) woJoin s' :=
  ⟨_, .retireRefused _ 0 0 jp 0x200008 ccWriteOnce retiresWo (ioFault_of (by decide) (by decide))⟩
/-- The counter lies in the enclave's kick page, at VA 0x7000. -/
def kickJoin : State :=
  writeNat { stL with teams := [(0, { team0 with ended := true, join := 0x7008 })] } 0x14038 8 (mkLeaf 0x1000 3 1).toNat
theorem rule_retire_kick : ∃ s', LaunchRule (.teamRetirement 0 0) kickJoin s' :=
  ⟨_, .retireKick _ 0 0 ⟨1, 7, 12, 0x1000, true, true, false, 1, 1, 0, 1⟩ 0x1008 (by decide) (by decide) (by decide) (by decide) (by decide)
    (by decide)⟩
theorem rule_join_fault : ∃ s', LaunchRule (.teamRetirement 0 0) (stEnded (some true)) s' :=
  ⟨_, .joinFault _ 0 0 (by decide) (by decide) (by decide) (by decide)⟩
theorem rule_slice : ∃ s', LaunchRule .queueSliceBoundary stL s' := ⟨_, .slice _⟩

/-! ### The search units -/

/-- A packet for stack 1: FP16, one dimension, one entry point, a graph descriptor at 0x6800, results at 0x6C00. -/
def pkt1 : List Byte :=
  bytesOfNat 8 (0x10000000 + 8 * 2 ^ 22 + 2) ++ bytesOfNat 8 0x6800 ++ bytesOfNat 8 0x6C00 ++ bytesOfNat 8 0 ++ List.replicate 48 0
def query1 : Query := ⟨pkt1, 0, 0, 0, 1, 1, 0, 0, 0, 0x0FF8, 0, 0⟩
/-- A graph of one node at 0x6000. -/
def desc1 : List Byte := bytesOfNat 8 (2 ^ 32 + 0x10000000 + 2 ^ 11 + 2) ++ List.replicate 16 0 ++ bytesOfNat 8 0x6000 ++ List.replicate 96 0
def stQ (h : Heather) : State :=
  let s := writeNat (writeNat stE 0x200800 8 (2 ^ 32 + 0x10000000 + 2 ^ 11 + 2)) 0x200818 8 0x6000
  { s with stale := [], heather := [(1, { h with tlb := [pg6] })] }

theorem rule_allocate : ∃ s', QueryRule (.queryContextAllocate 1) (stQ { admitQ := [query1] }) s' :=
  ⟨_, .allocate _ 1 0 0 query1 { q := query1, st := .running } [] desc1 (by decide) (by decide) (by decide) (by decide) (by decide)⟩
theorem rule_query_begins : ∃ s', QueryRule (.queryContextAllocate 1) (stQ { ctxs := [(0, { q := query1, st := .running })] }) s' :=
  ⟨_, .begin' _ 1 0 { q := query1, st := .running } desc1 (by decide) (by decide) (by decide) (by decide) (by decide) (by decide)⟩
def ctx1 : Ctx := { q := query1, st := .running, desc := desc1, asks := [⟨1, 0, 0, false⟩], exps := [] }
/-- One that has asked for the adjacency of node 0. -/
def ctxAdj : Ctx := { ctx1 with asks := [⟨homeStack desc1 0, 0, 1, true⟩], exps := [⟨1, 0, true, 0⟩] }
theorem rule_distance : ∃ s', QueryRule (.distanceReply 1 0 1) (stQ { ctxs := [(0, ctx1)] }) s' :=
  ⟨_, .distance _ 1 0 1 ctx1 ⟨1, 0, 0, false⟩ (List.replicate 68 0) ⟨by decide, by decide⟩ (by decide) (by decide) (by decide)⟩
theorem rule_adjacency : ∃ s', QueryRule (.adjacencyReply 1 0 0) (stQ { ctxs := [(0, ctxAdj)] }) s' :=
  ⟨_, .adjacency _ 1 0 0 ctxAdj ⟨homeStack desc1 0, 0, 1, true⟩ (List.replicate 64 0) ⟨by decide, by decide⟩ (by decide) (by decide) (by decide)⟩
def ctx2 : Ctx := { q := query1, st := .running, desc := desc1, res := [⟨0, 0⟩], fin := true }
/-- The results of an ended context, written. -/
def right {α β : Type} (d : β) : Sum α β → β
  | .inr x => x
  | .inl _ => d
def isRight {α β : Type} : Sum α β → Bool
  | .inr _ => true
  | .inl _ => false
theorem right_of {α β : Type} (d : β) {x : Sum α β} (h : isRight x = true) : x = .inr (right d x) := by
  cases x <;> first | rfl | cases h
def stDone : State := stQ { ctxs := [(0, ctx2)] }
theorem rule_publish : ∃ s', QueryRule (.queryPublish 0 0) stDone s' :=
  ⟨_, .publish _ _ 0 0 1 0 ctx2 _ (by decide) (by decide) (by decide) (by decide) (by decide) (by decide)
    (right_of (stE, ctx2) (by decide)) (by decide)⟩
theorem rule_cancelled : ∃ s', QueryRule (.queryPublish 0 0) (stQ { cancelled := [query1] }) s' :=
  ⟨_, .cancelled _ 0 0 1 query1 (by decide) (by decide) (by decide) (by decide)⟩

end Sys2Proof.Tests
end

