-- ==== Sys2Proof/Tests/HostWitnesses.lean ====
section
/-! SUPPORT. States that meet all the conditions of the rules of partitions, usage records, the host port's registers and the
host's accesses. -/
namespace Sys2Proof.Tests
open Machine
-- One declaration at a time: each more thread of the compiler takes a stack out of the same memory.
set_option Elab.async false
set_option maxRecDepth 20000

/-- `stE` with PF0 up. -/
def stH : State := { stE with boot := { stE.boot with hostBoot := false } }

theorem rule_pcfg_live : ∃ s', HostRule (.pcfg 1 0x123) stH s' := ⟨_, .pcfgLive _ 1 0x123 (by decide) (by decide) (by decide)⟩
theorem rule_pcfg : ∃ s', HostRule (.pcfg 2 0x8000000000000123) stH s' :=
  ⟨_, .pcfg _ 2 _ (by decide) (by decide) (by decide) (by decide)⟩

/-- A partition without cores whose build has been asked for, with a quota of `n` pages. -/
def stBuild (n : Nat) : State :=
  { State.reset with boot := { stE.boot with hostBoot := false }, parts := [(2, { creating := true, pcfg := BitVec.ofNat 64 n })] }
theorem pages_there : 0 < (unassignedPages (stBuild 1)).length :=
  List.length_pos_of_mem (List.mem_filter.mpr ⟨List.mem_map.mpr ⟨0, List.mem_range.mpr (by decide), rfl⟩, by decide⟩ : (0 : Nat) ∈ _)
theorem quota_met : takeQuota (stBuild 1) 2 = some ([], (unassignedPages (stBuild 1)).take 1) := by
  have h := pages_there
  have hm : partMeadows (stBuild 1) 2 = [] := by decide
  have hn : quotaPages (stBuild 1) 2 = 1 := by decide
  simp only [takeQuota, hm, takeAreas, hn]
  rw [if_neg (by simp only [List.length_nil]; omega)]
  rfl
theorem rule_build : ∃ s', HostRule (.partitionBuild 2) (stBuild 1) s' := ⟨_, .build _ 2 _ _ (by decide) quota_met⟩
theorem rule_build_fails : ∃ s', HostRule (.partitionBuild 2) (stBuild 0) s' := ⟨_, .buildFails _ 2 (by decide) (by decide)⟩
theorem rule_usage_periodic : ∃ s', HostRule (.usageRecordPeriodic 1) { stH with clock := 2000000000 } s' :=
  ⟨_, .usage _ 1 (by decide) (by decide)⟩
theorem rule_mslim : ∃ s', HostRule (.mslim 1 0 0x00080010) stH s' :=
  ⟨_, .mslim _ 1 0 _ (by decide) (by decide) (by decide) (by decide)⟩
theorem rule_mslim_bad : ∃ s', HostRule (.mslim 1 0 0x00100008) stH s' := ⟨_, .mslimBad _ 1 0 _ (by decide) (by decide) (by decide)⟩
theorem rule_mscfg : ∃ s', HostRule (.mscfg 1 0 4) { stH with host := { stH.host with mslim := [(8, ⟨false, 8, 16⟩)] } } s' :=
  ⟨_, .mscfg _ 1 0 4 (by decide) (by decide) (by decide) (by decide)⟩
theorem rule_mscfg_error : ∃ s', HostRule (.mscfg 1 0 4) { stH with host := { stH.host with tdi := [(2, .error)] } } s' :=
  ⟨_, .mscfgError _ 1 0 4 (by decide) (by decide) (by decide)⟩
theorem rule_mscfg_bad : ∃ s', HostRule (.mscfg 1 0 9) stH s' := ⟨_, .mscfgBad _ 1 0 9 (by decide) (by decide) (by decide)⟩
theorem rule_split_shrinks :
    ∃ s', HostRule (.meadowStoreSplitChange 1 0) { stH with host := { stH.host with mscfg := [(8, { busy := true, win := 2, next := some (4, 16), total := 16 })] } } s' :=
  ⟨_, .splitShrinks _ 1 0 4 16 (by decide) (by decide) (by unfold JobsLanded; decide)⟩
theorem rule_split :
    ∃ s', HostRule (.meadowStoreSplitChange 1 0) { stH with host := { stH.host with mscfg := [(8, { busy := true, win := 4, next := some (2, 16), total := 16 })] } } s' :=
  ⟨_, .split _ 1 0 2 16 (by decide) (by decide) (by unfold JobsLanded; decide)⟩

/-- An interface's state, with an SPDM session of the mailbox open. -/
def stTdi (x : TdiState) : State := { stH with host := { stH.host with tdi := [(2, x)] }, spdm := { sessions := [(3, ⟨true, 0, true, [], 0, 0⟩)] } }
theorem rule_tdi_state : ∃ s', HostRule (.tdispRequest 2 .getState) (stTdi .run) s' :=
  ⟨_, .tdiState (stTdi .run) 2 (by decide) (by decide)⟩
theorem rule_tdi_start : ∃ s', HostRule (.tdispRequest 2 .start) (stTdi .locked) s' :=
  ⟨_, .tdiStart (stTdi .locked) 2 (by decide) (by decide) (by decide)⟩
theorem rule_tdi_stop : ∃ s', HostRule (.tdispRequest 2 .stop) (stTdi .run) s' :=
  ⟨_, .tdiStop (stTdi .run) 2 (by decide) (by decide)⟩
theorem rule_tdi_lock : ∃ s', HostRule (.lockInterfaceRequest 2) (stTdi .unlocked) s' :=
  ⟨_, .lock (stTdi .unlocked) 2 (by decide) (by decide) (by decide) (by decide)⟩
theorem rule_tdi_lock_refused : ∃ s', HostRule (.lockInterfaceRequest 2) { stH with host := { stH.host with flr := [2] } } s' :=
  ⟨_, .lockRefused _ 2 (by decide) (by decide)⟩

/-- Stream 7 is bound to enclave 1 and keyed in session 3. -/
def stStream : State :=
  { stH with
    host := { stH.host with streams := [(7, ⟨1, true, false, false, some 3⟩)] }, spdm := { sessions := [(3, ⟨true, 0, true, [], 0, 0⟩)] } }
theorem rule_key : ∃ s', HostRule (.ideKmKeyProgramming 7 3 true) stStream s' :=
  ⟨_, .key _ 7 3 ⟨true, 0, true, [], 0, 0⟩ (by decide) (by decide) (by decide) (by decide) (by decide)⟩

/-- Accesses of VF 2, partition 1's, at PA 0x200000. -/
def access (stream : Option Nat) (ok : Bool) (addr : Nat) (data : Option (List Byte)) : HostAccess := ⟨2, stream, ok, addr, 8, data, .aperture⟩
/-- The grain at PA 0x200000 is under WO, and was written once. -/
def stWoPage : State :=
  { stStream with
    dir := [(0x1000, ⟨3, 0, false, 0, 0, 0, 0, 0⟩)], ranges := [(64, BitVec.ofNat 64 (2 ^ 63 + 3 * 2 ^ 56 + 2 * 2 ^ 23 + 1))], protos := [(3, woImage)] }
/-- Its conditions; the translation is the page's. -/
theorem bound_read {s : State} (hs : s = stStream ∨ s = { stStream with poison := [0x8000] }) :
    BoundAccess s (access (some 7) true 0x200000 none) 7 encl1 [(hostTrans s 1 false 0x200).getD default] := by
  rcases hs with rfl | rfl <;>
    exact ⟨by decide, by decide, by decide, by decide, by decide, by decide, by decide, by decide, by decide, by decide, by decide,
      by decide, by decide, by decide⟩
theorem bound_write {s : State} (hs : s = stStream ∨ s = stWoPage) :
    BoundAccess s (access (some 7) true 0x200000 (some [1, 2])) 7 encl1 [(hostTrans s 1 true 0x200).getD default] := by
  rcases hs with rfl | rfl <;>
    exact ⟨by decide, by decide, by decide, by decide, by decide, by decide, by decide, by decide, by decide, by decide, by decide,
      by decide, by decide, by decide⟩
theorem rule_host_read : ∃ s', HostRule (.hostMemoryAccess (access (some 7) true 0x200000 none)) stStream s' :=
  ⟨_, .read _ _ 7 encl1 _ (bound_read (.inl rfl)) rfl (by decide)⟩
theorem rule_host_read_bad :
    ∃ s', HostRule (.hostMemoryAccess (access (some 7) true 0x200000 none)) { stStream with poison := [0x8000] } s' :=
  ⟨_, .readBad _ _ 7 encl1 _ (bound_read (.inr rfl)) rfl (by decide)⟩
theorem rule_host_write : ∃ s', HostRule (.hostMemoryAccess (access (some 7) true 0x200000 (some [1, 2]))) stStream s' :=
  ⟨_, .write _ _ 7 encl1 _ [1, 2] (bound_write (.inl rfl)) rfl (by decide)⟩
set_option maxRecDepth 200000 in
theorem rule_host_write_refused : ∃ s', HostRule (.hostMemoryAccess (access (some 7) true 0x200000 (some [1, 2]))) stWoPage s' :=
  ⟨_, .writeRefused _ _ 7 ccWriteOnce encl1 _ [1, 2] (bound_write (.inr rfl)) rfl (by decide)⟩
/-- The final pass of a migration of the frame at PA 0x200000. -/
def stFinal : State :=
  { stStream with rowan := { stStream.rowan with migr := some ⟨default, 1, 0x6000, 12, 0x200000, 0x300000, 0, [], true, false⟩ } }
theorem rule_host_waits : ∃ s', HostRule (.hostMemoryAccess (access (some 7) true 0x200000 (some [1, 2]))) stFinal s' :=
  ⟨_, .waits _ _ rfl (by decide) (by decide) (by decide) (by decide) (.inr (by decide))⟩
/-- The frame at PA 0x203000 is sealed in partition 1; its first block may be poisoned. -/
def stSealed (bad : List Nat) : State := { stH with pot := [(0x203, mkPot 1 5 0 0)], poison := bad }
theorem plain_of (s : State) (hs : s = stH ∨ s = stSealed [] ∨ s = stSealed [0x80C0]) (data : Option (List Byte))
    (hd : data = none ∨ data = some [1, 2]) : PlainAccess s (access none true 0x203000 data) := by
  rcases hs with rfl | rfl | rfl <;> rcases hd with rfl | rfl <;>
    exact ⟨rfl, by decide, by decide, by decide, by decide, rfl, by decide, by decide⟩
theorem rule_host_refused : ∃ s', HostRule (.hostMemoryAccess (access none true 0x203000 none)) stH s' :=
  ⟨_, .refused _ _ (plain_of _ (.inl rfl) _ (.inl rfl)) rfl (by unfold SealedFrames; decide)⟩
theorem rule_sealed_read : ∃ s', HostRule (.hostMemoryAccess (access none true 0x203000 none)) (stSealed []) s' :=
  ⟨_, .sealedRead _ _ (plain_of _ (.inr (.inl rfl)) _ (.inl rfl)) rfl (by decide) (by unfold SealedFrames; decide) (by decide)⟩
theorem rule_sealed_bad : ∃ s', HostRule (.hostMemoryAccess (access none true 0x203000 none)) (stSealed [0x80C0]) s' :=
  ⟨_, .sealedBad _ _ (plain_of _ (.inr (.inr rfl)) _ (.inl rfl)) rfl (by decide) (by unfold SealedFrames; decide) (by decide)⟩
theorem rule_sealed_write : ∃ s', HostRule (.hostMemoryAccess (access none true 0x203000 (some [1, 2]))) (stSealed []) s' :=
  ⟨_, .sealedWrite _ _ [1, 2] (plain_of _ (.inr (.inl rfl)) _ (.inr rfl)) rfl (by decide) (by unfold SealedFrames; decide) (by decide)⟩
/-- The sealed frame's grain is under WO, and was written once. -/
def stSealedWo : State :=
  { stSealed [] with
    dir := [(0x1018, ⟨3, 0, false, 0, 0, 0, 0, 0⟩)], ranges := [(64, BitVec.ofNat 64 (2 ^ 63 + 3 * 2 ^ 56 + 2 * 2 ^ 23 + 1))], protos := [(3, woImage)] }
theorem plain_wo : PlainAccess stSealedWo (access none true 0x203000 (some [1, 2])) :=
  ⟨rfl, by decide, by decide, by decide, by decide, rfl, by decide, by decide⟩
set_option maxRecDepth 200000 in
theorem rule_sealed_refused : ∃ s', HostRule (.hostMemoryAccess (access none true 0x203000 (some [1, 2]))) stSealedWo s' :=
  ⟨_, .sealedRefused _ _ ccWriteOnce [1, 2] plain_wo rfl (by decide) (by unfold SealedFrames; decide) (by decide)⟩
theorem rule_insecure : ∃ s', HostRule (.hostMemoryAccess (access (some 7) false 0x200000 none)) stStream s' :=
  ⟨_, .insecure _ _ 7 rfl (by decide) (by decide) (by decide) (by decide) rfl rfl (by decide) (by decide)⟩
theorem rule_host_error : ∃ s', HostRule (.hostMemoryAccess (access none true 0x200000 none)) (stTdi .error) s' :=
  ⟨_, .error _ _ (by decide) (by decide) (by decide) (by decide)⟩
/-- A read of a VF's registers, and a peer's write past the CXL port. -/
def barRead (fn : Nat) : HostAccess := ⟨fn, none, true, 0x400, 8, none, .bar0⟩
theorem rule_registers : ∃ s', HostRule (.hostMemoryAccess (barRead 2)) stH s' :=
  ⟨_, .registers _ _ rfl (by decide) rfl (.inr (by decide))⟩
theorem rule_registers_pf : ∃ s', HostRule (.hostMemoryAccess (barRead 0)) stH s' := ⟨_, .registers _ _ rfl (by decide) rfl (.inl rfl)⟩
theorem rule_not_created : ∃ s', HostRule (.hostMemoryAccess (barRead 5)) stH s' :=
  ⟨_, .notCreated _ _ rfl (by decide) rfl (by decide) (by decide) (by decide)⟩
def peerWrite : HostAccess := ⟨0, none, true, 0x20000000000, 2, some [1, 2], .cxl⟩
theorem rule_peer : ∃ s', HostRule (.hostMemoryAccess peerWrite) stH s' := ⟨_, .peer _ _ [1, 2] rfl rfl (by decide)⟩
theorem rule_core_table : ∃ s', HostRule (.registerWrite 0 0x10004 3) stH s' := ⟨_, .coreTable _ 0x10004 3 (by decide) (by decide) (by decide)⟩
theorem rule_counter : ∃ s', HostRule (.registerWrite 2 (0x400 + 8 * 1) 3) stH s' :=
  ⟨_, .counter _ 2 1 3 (by decide) (by decide) (by decide)⟩
theorem rule_register_error : ∃ s', HostRule (.registerWrite 2 0x408 3) (stTdi .error) s' :=
  ⟨_, .registerError _ 2 0x408 3 (by decide) (by decide) (by decide)⟩
theorem rule_config : ∃ s', HostRule (.registerWrite 2 0x100000000 3) (stTdi .run) s' :=
  ⟨_, .config _ 2 0x100000000 3 (by decide) (by decide) (by decide) (by decide)⟩
theorem rule_vf_reset : ∃ s', HostRule (.virtualFunctionReset 2) stH s' :=
  ⟨_, .reset _ 2 (by decide) (by decide) (by decide) (by decide) (by decide)⟩
theorem rule_reset_waits :
    ∃ s', HostRule (.virtualFunctionReset 2) { stH with rowan := { stH.rowan with shoot := some ⟨1, 0x6000, 0x7000, [], .none, none⟩ } } s' :=
  ⟨_, .resetWaits _ 2 (by decide) (by decide) (by decide) (.inl rfl)⟩

/-- A host access without a stream, of a frame that is not sealed. -/
theorem kept_out :
    (access none true 0x203000 none).space ≠ .cxl ∧ (access none true 0x203000 none).stream = none ∧ ¬ SealedFrames stH (access none true 0x203000 none) ∧
      PlainAccess stH (access none true 0x203000 none) ∧ ∃ s', exec (.hostMemoryAccess (access none true 0x203000 none)) stH = .next s' :=
  ⟨by decide, rfl, by unfold SealedFrames; decide, plain_of _ (.inl rfl) _ (.inl rfl), _, rfl⟩

end Sys2Proof.Tests
end

