-- ==== Sys2Proof/Tests/RowanWitnesses.lean ====
section
/-! SUPPORT. States that meet all the conditions of the rules of Rowan's calls, shootdowns and migrations. -/
namespace Sys2Proof.Tests
open Machine
-- One declaration at a time: each more thread of the compiler takes a stack out of the same memory.
set_option Elab.async false
set_option maxRecDepth 20000

/-- A call of thread 0, of enclave 1. -/
def call (f : Nat) (args : List Nat) : Call := ⟨0, f, args.map fun x => BitVec.ofNat 64 x, 0x6F00, 1⟩

/-- `stE` with a hypervisor team, a key slot, three free frames, a page in partition 1's quota, and one call at Rowan. -/
def stRowan (f : Nat) (args : List Nat) : State :=
  { stE with
    teams := [(0, { teamE with priv := 2 })]
    keys := [(1, ⟨1, [], [], []⟩)]
    pot := [(0x200, mkPot 1 3 0 0), (0x201, mkPot 1 0 0 0), (0x202, mkPot 1 0 0 0), (0x203, mkPot 1 5 0 0), (0x80020000, mkPot 1 1 0 0),
      (0x80020001, mkPot 1 1 0 0)]
    parts := [(1, { live := true, agent := 1, quota := [(0x200, 512)] })]
    rowan := { stE.rowan with queue := [call f args] } }

/-- The same, with Rowan's queue empty. -/
def stTaken (f : Nat) (args : List Nat) : State := { stRowan f args with rowan := { stE.rowan with queue := [] } }
theorem takes_head {s : State} {f : Nat} {c : Call} {rest : List Call} (hb : rowanBusy s = false) (hu : usageDue s = none)
    (hq : s.rowan.queue = c :: rest) (hc : c.func = f) : Takes s f c { s with rowan := { s.rowan with queue := rest } } := by
  unfold Takes headCall
  rw [hb, hu, hq]
  simp [hc]
theorem takes_of (f : Nat) (args : List Nat) : Takes (stRowan f args) f (call f args) (stTaken f args) :=
  takes_head rfl ((by decide : usageDue (stRowan 0 []) = none)) rfl rfl

/-- What the mapping of pages gives. -/
def tabState : TabRes → State
  | .ok s _ => s
  | _ => stE
def tabPlace : TabRes → Nat
  | .ok _ t => t
  | _ => 0
def tabOk : TabRes → Bool
  | .ok _ _ => true
  | _ => false
theorem tab_of {x : TabRes} (h : tabOk x = true) : x = .ok (tabState x) (tabPlace x) := by cases x <;> first | rfl | cases h

theorem map_one {s : State} {p encl asid bits rwx va pa : Nat} (h : quiet (walkPlaces s asid va) s = true)
    (h' : tabOk (ensureTable p encl va (leafLvl bits) 4 (rootOf s asid) (touchPlain s (walkPlaces s asid va))) = true) :
    tabOk (mapPages p encl asid bits rwx [va] pa s) = true := by
  unfold mapPages mapPage
  rw [touchWalk_quiet h]
  revert h'
  generalize ensureTable p encl va (leafLvl bits) 4 (rootOf s asid) (touchPlain s (walkPlaces s asid va)) = r
  cases r <;> simp [tabOk, mapPages]
theorem rule_map : ∃ s', RowanRule .map (stRowan 1 [0x9000, 0x201000, 1, 0x130001]) s' :=
  ⟨_, .map _ _ _ (call 1 [0x9000, 0x201000, 1, 0x130001]) 1 _ encl1 [0x9000] (takes_of _ _)
    ⟨by decide, by unfold Targets; decide, by decide, by decide, by decide, by decide, by decide, by decide⟩ (tab_of (map_one (by decide +kernel) (by decide +kernel)))⟩
theorem rule_map_bad : ∃ s', RowanRule .map (stRowan 1 [0x9000, 0x201000, 1, 0x10130001]) s' :=
  ⟨_, .mapBad _ _ (call 1 [0x9000, 0x201000, 1, 0x10130001]) (takes_of _ _) (by decide)⟩
theorem rule_map_none : ∃ s', RowanRule .map (stRowan 1 [0x9000, 0x201000, 1, 0x130002]) s' :=
  ⟨_, .mapNone _ _ (call 1 [0x9000, 0x201000, 1, 0x130002]) stNoEnclave (takes_of _ _) (by decide) (by decide)⟩
def leaf6 : W64 × Nat := (mkLeaf 0x200000 3 0, 0x14000)
theorem rule_unmap : ∃ s', RowanRule .unmap (stRowan 2 [0x6000, 0, 1, 0x1000001]) s' :=
  ⟨_, .unmap _ _ (call 2 [0x6000, 0, 1, 0x1000001]) 1 encl1 [0x6000] [leaf6] (takes_of _ _) (by decide) (by unfold Targets; decide) (by decide)
    (by decide) (by decide)⟩
theorem rule_prot : ∃ s', RowanRule .prot (stRowan 3 [0x6000, 0, 1, 0x10001]) s' :=
  ⟨_, .prot _ _ (call 3 [0x6000, 0, 1, 0x10001]) 1 encl1 [0x6000] [(0x6000, leaf6)] (takes_of _ _) (by decide) (by unfold Targets; decide)
    (by decide) (by decide) (by decide) (by decide)⟩
theorem rule_move : ∃ s', RowanRule .move (stRowan 4 [0x6000, 0x201000, 0, 1]) s' :=
  ⟨_, .move _ _ (call 4 [0x6000, 0x201000, 0, 1]) 1 1 encl1 leaf6 (takes_of _ _) (by decide) (by unfold Targets; decide) (by decide) (by decide)
    (by decide) (by decide) (by decide) (by decide) (by decide) 0 (by decide)⟩

/-- A migration of the page at 0x6000 under way, and a shootdown of it. -/
def migr (dirty : NSet) (final : Bool) : Migration := ⟨call 4 [], 1, 0x6000, 12, 0x200000, 0x201000, 1, dirty, final, false⟩
def stMigr (dirty : NSet) (final : Bool) : State := { stRowan 4 [] with rowan := { stE.rowan with migr := some (migr dirty final) } }
theorem rule_pass : ∃ s', RowanRule .migrationPass (stMigr (List.range 65) false) s' :=
  ⟨_, .pass _ (migr (List.range 65) false) (by decide) (by decide) (by decide)⟩
theorem rule_final_pass : ∃ s', RowanRule .migrationPass (stMigr [] false) s' :=
  ⟨_, .finalPass _ (migr [] false) (by decide) (by decide) (by decide)⟩
theorem rule_switch_frame : ∃ s', RowanRule .migrationPass (stMigr [] true) s' :=
  ⟨_, .switch _ (migr [] true) (by decide) (by decide) (by decide)⟩
def shoot (l : List ShootAgent) : Shoot := ⟨1, 0x6000, 0x7000, l, .none, none⟩
def stShoot (l : List ShootAgent) : State := { stE with rowan := { stE.rowan with shoot := some (shoot l) } }
theorem rule_shoot_ack : ∃ s', RowanRule (.shootdownAck (.core 0)) (stShoot [.core 0, .copyUnit 0]) s' :=
  ⟨_, .ack _ (shoot [.core 0, .copyUnit 0]) (.core 0) (by decide) (by decide) (by decide) (by decide)⟩
theorem rule_shoot_last : ∃ s', RowanRule (.shootdownAck (.core 0)) (stShoot [.core 0]) s' :=
  ⟨_, .lastAck _ (shoot [.core 0]) (.core 0) (by decide) (by decide) (by decide) (by decide)⟩
theorem rule_seal : ∃ s', RowanRule .sealPage (stRowan 8 [0x6000, 0x201000, 0, 1]) s' :=
  ⟨_, .sealPage _ _ (call 8 [0x6000, 0x201000, 0, 1]) 1 encl1 leaf6 (takes_of _ _) (by decide) (by unfold Targets; decide) (by decide) (by decide)
    (by decide) (by decide) (by decide) (by decide) (by decide) (by decide) (by decide)⟩
def sealed9 : SealEntry := ⟨0x9000, 1, 3, 3, []⟩
def enclS : Enclave := { encl1 with seals := [sealed9] }
def stSeal : State := { stRowan 9 [0x9000, 0x203000, 0, 1] with encls := [(1, enclS)] }
theorem rule_unseal : ∃ s', RowanRule .unsealPage stSeal s' :=
  ⟨_, .unsealPage _ _ (call 9 [0x9000, 0x203000, 0, 1]) 1 enclS sealed9 ⟨1, [], [], []⟩ (takes_head rfl (by decide) rfl rfl) (by decide)
    (by unfold Targets; decide) (by decide) (by decide) (by decide) (by decide) (by decide) (by decide) (by decide) (by decide)⟩

/-- A record of 256 bytes that lies in one page is written as one write of it. -/
theorem fixLen_length (n : Nat) (l : List Byte) : (fixLen n l).length = n := by simp [fixLen]
theorem bytesOfNat_length (n v : Nat) : (bytesOfNat n v).length = n := by
  induction n generalizing v with
  | zero => rfl
  | succ n ih => simp [bytesOfNat, ih]
theorem usage_length (s : State) (p r : Nat) : (emitUsage s p r).2.length = 256 := by
  simp only [emitUsage, usageBody, aliasSign, sha, List.length_append, bytesOfNat_length, fixLen_length, List.length_flatMap]
  split <;> simp only [fixLen_length, List.length_replicate] <;> rfl
theorem ioWriteVa_some {s : State} {asid va : Nat} {l l' : List Byte} (n : l.length = l'.length)
    (h : (ioWriteVa s asid va l).isSome = true) : (ioWriteVa s asid va l').isSome = true := by
  revert h
  simp only [ioWriteVa, n]
  split
  · split
    · simp
    · split
      · simp
      · split <;> simp
  · simp
theorem writeSpan_some {s : State} {asid va : Nat} {l l' : List Byte} (hl : 0 < l.length) (hp : l.length ≤ 4096 - va % 4096)
    (n : l'.length = l.length) (h : (ioWriteVa s asid va l').isSome = true) : (writeSpanAt s asid va l).isSome = true := by
  have hm : Nat.min l.length (4096 - va % 4096) = l.length := Nat.min_eq_left hp
  have he : l.isEmpty = false := by cases l <;> simp at hl ⊢
  obtain ⟨t, ht⟩ := Option.isSome_iff_exists.mp (ioWriteVa_some n h)
  unfold writeSpanAt writeSpan
  simp only [he, hm, List.take_length, ht, List.drop_length]
  cases l.length / 4096 + 1 <;> simp [writeSpan]

theorem rule_usage : ∃ s', RowanRule .usage (stRowan 0x10 [0x6000, 0, 0, 1]) s' :=
  ⟨_, .usage _ _ _ (call 0x10 [0x6000, 0, 0, 1]) (takes_of _ _) (by decide) (by decide) (.inl (by decide))
    (gives (writeSpan_some (l' := List.replicate 256 0) (by rw [usage_length]; decide) (by rw [usage_length]; decide)
      (by rw [usage_length]; decide) (by decide)))⟩
/-- A caller without hypervisor privilege names partition 2. -/
theorem rule_usage_denied : ∃ s', RowanRule .usage { stRowan 0x10 [0x6000, 0, 0, 2] with teams := [(0, teamE)] } s' :=
  ⟨_, .usageDenied _ _ (call 0x10 [0x6000, 0, 0, 2]) (takes_head rfl (by decide) rfl rfl) (by decide) (by decide)⟩
theorem rule_svcq : ∃ s', RowanRule .svcq (stRowan 0x11 [0x4040, 0x5000, 4, 0]) s' :=
  ⟨_, .svcq _ _ (call 0x11 [0x4040, 0x5000, 4, 0]) encl1 _ _ (takes_of _ _) (by decide) (by decide) (by decide) (by decide) (by decide)
    (gives (by decide)) (gives (by decide)) (by decide) (by decide)⟩
theorem rule_bind_stream : ∃ s', RowanRule .bind (stRowan 0x19 [0, 0, 7, 1]) s' :=
  ⟨_, .bind _ _ (call 0x19 [0, 0, 7, 1]) 1 encl1 (takes_of _ _) (by decide) (by unfold Targets; decide)⟩
set_option maxRecDepth 200000 in
theorem rule_pload : ∃ s', RowanRule .pload (stRowan 0x20 [0x4000, 3, 0x6000]) s' :=
  ⟨_, .pload _ _ (call 0x20 [0x4000, 3, 0x6000]) _ _ (takes_of _ _) (by decide) (by decide) (by decide) (gives (by decide)) (gives (by decide))
    (by decide)⟩
theorem rule_pload_denied : ∃ s', RowanRule .pload { stRowan 0x20 [] with teams := [(0, teamE)] } s' :=
  ⟨_, .ploadDenied _ { stTaken 0x20 [] with teams := [(0, teamE)] } (call 0x20 []) rfl (by decide)⟩
theorem rule_punload : ∃ s', RowanRule .punload (stRowan 0x21 [0, 3]) s' :=
  ⟨_, .punload _ _ (call 0x21 [0, 3]) (takes_of _ _) (by decide) (by decide) (by decide) (by decide)⟩
theorem rule_range : ∃ s', RowanRule .range (stRowan 0x22 [0x100, 2 ^ 63 + 2 * 2 ^ 23 + 1]) s' :=
  ⟨_, .range _ _ (call 0x22 [0x100, 2 ^ 63 + 2 * 2 ^ 23 + 1]) (takes_of _ _) (by decide) (by decide) (by decide)⟩
theorem rule_range_clear : ∃ s', RowanRule .range (stRowan 0x22 [0x100, 0]) s' :=
  ⟨_, .rangeClear _ _ (call 0x22 [0x100, 0]) (takes_of _ _) (by decide) (by decide) (by decide)⟩
theorem rule_range_refused : ∃ s', RowanRule .range (stRowan 0x22 [2 ^ 20, 0]) s' :=
  ⟨_, .rangeRefused _ _ (call 0x22 [2 ^ 20, 0]) (takes_of _ _) (by decide) (by decide)⟩
theorem rule_range_denied : ∃ s', RowanRule .range { stRowan 0x22 [0x100, 0] with teams := [(0, teamE)] } s' :=
  ⟨_, .rangeDenied _ { stTaken 0x22 [0x100, 0] with teams := [(0, teamE)] } (call 0x22 [0x100, 0]) rfl (by decide)⟩

end Sys2Proof.Tests
end

