-- ==== Sys2Proof/Tests/BootWitnesses.lean ====
section
/-! SUPPORT. States that meet all the conditions of the rules of boot, the pod, power, sleep, swap and SPDM. -/
namespace Sys2Proof.Tests
open Machine
-- One declaration at a time: each more thread of the compiler takes a stack out of the same memory.
set_option Elab.async false
set_option maxRecDepth 20000

/-- The reset state with boot fields. -/
def stBoot (b : Boot) : State := { State.reset with clock := 2 ^ 40, boot := b }
def acc : Accepted := ⟨[], 0, []⟩

theorem rule_cold : ∃ s', BootRule .coldReset stE s' := ⟨_, .cold _⟩
theorem rule_warm : ∃ s', BootRule .warmReset stE s' := ⟨_, .warm _ (by decide)⟩
theorem rule_warm_asleep : ∃ s', BootRule .warmReset (stBoot { asleep := true }) s' := ⟨_, .warmAsleep _ (by decide)⟩
theorem rule_image : ∃ s', BootRule (.firmwareImage none [1, 2, 3]) State.reset s' := ⟨_, .image _ [1, 2, 3] (by decide) (by decide)⟩
theorem rule_image_late :
    ∃ s', BootRule (.firmwareImage none [0, 0, 0, 0, 1]) (stBoot { rowan := some acc, hazel := some acc, runtime := some acc }) s' :=
  ⟨_, .imageLate _ _ (by decide) (by decide) (by decide)⟩
theorem rule_image_bad : ∃ s', BootRule (.firmwareImage none [1, 2, 3]) State.reset s' :=
  ⟨_, .imageBad _ [1, 2, 3] (by decide) (by decide) (by decide) (.inr (.inl rfl))⟩
theorem rule_image_leader : ∃ s', BootRule (.firmwareImage (some 5) [1, 2, 3]) (stBoot { leader := some 5 }) s' :=
  ⟨_, .imageLeader _ 0 5 [1, 2, 3] (by decide) (by decide) (by decide) (by decide)⟩
theorem rule_host_link : ∃ s', BootRule (.hostLinkTraining true) State.reset s' := ⟨_, .hostLink _ true (by decide)⟩
theorem rule_pod_link : ∃ s', BootRule (.podLinkTraining 3) (stBoot { startStep := 170 }) s' :=
  ⟨_, .podLink _ 3 (by decide) (by decide) (.inr (by decide)) (by decide)⟩
/-- A ROM that has halted. -/
theorem rule_pod_link_halted : ∃ s', BootRule (.podLinkTraining 3) (stBoot { status := .fuseFault }) s' := ⟨_, .podLinkHalted _ 3 rfl⟩
theorem rule_window_halted : ∃ s', BootRule .discoveryWindowEnd (stBoot { status := .fuseFault }) s' := ⟨_, .windowHalted _ rfl⟩
def upPort : Port := { up := true, trained := true }
theorem rule_hello : ∃ s', BootRule (.hello 3 9) (stBoot { ports := [(3, upPort)], windowFrom := some 0 }) s' :=
  ⟨_, .hello _ 3 9 (by decide) (by decide) (by decide)⟩
theorem rule_no_leader : ∃ s', BootRule .discoveryWindowEnd (stBoot { windowFrom := some 0 }) s' :=
  ⟨_, .noLeader _ 0 (by decide) (by decide) (by decide) rfl (by decide) (by decide)⟩
/-- Images of kinds 0 to 2, as far as the mailbox tells them apart. -/
def mail : List (List Byte) := [[0, 0, 0, 0, 0], [0, 0, 0, 0, 1], [0, 0, 0, 0, 2]]
theorem rule_claims : ∃ s', BootRule .discoveryWindowEnd (stBoot { windowFrom := some 0, mailbox := mail }) s' :=
  ⟨_, .claims _ 0 (by decide) (by decide) (by decide) (by decide) (by decide) (by simp [podUnique, stBoot]) rfl⟩
theorem rule_host_claim : ∃ s', BootRule (.claim 3 9 1 []) (stBoot { ports := [(3, upPort)] }) s' :=
  ⟨_, .claim _ 3 9 1 [] (by decide) (by decide) (by decide) (by decide) (by decide)⟩
theorem rule_silent : ∃ s', BootRule .leaderSilent (stBoot { leader := some 9 }) s' :=
  ⟨_, .silent _ 9 (by decide) (by decide) (by decide) (by decide)⟩

/-- Flits of stream 7, which is bound to enclave 1, on port 3. -/
def flit (crc mac group : Bool) : PodFlit := ⟨crc, mac, 7, group, false, 2⟩
def stPod (x : Port) : State :=
  { stE with
    boot := { startStep := 170, ports := [(3, x)] }
    host := { stE.host with streams := [(7, ⟨1, true, false, false, some 3⟩)] } }
theorem good_of (mac group : Bool) : GoodFlit (stPod upPort) 3 (flit true mac group) :=
  ⟨by decide, rfl, by decide, by cases mac <;> cases group <;> decide, rfl, rfl, nofun⟩
theorem rule_retry : ∃ s', BootRule (.podFlitReceive 3 (flit false true true)) (stPod upPort) s' :=
  ⟨_, .retry _ 3 _ (by decide) rfl (by decide)⟩
theorem rule_port_down : ∃ s', BootRule (.podFlitReceive 3 (flit false true true)) (stPod { upPort with retries := 7 }) s' :=
  ⟨_, .portDown _ 3 _ (by decide) rfl (by decide)⟩
theorem rule_mac : ∃ s', BootRule (.podFlitReceive 3 (flit true false true)) (stPod upPort) s' :=
  ⟨_, .mac _ 3 _ (good_of false true) rfl rfl⟩
theorem rule_group : ∃ s', BootRule (.podFlitReceive 3 (flit true true true)) (stPod upPort) s' :=
  ⟨_, .group _ 3 _ 1 (good_of true true) rfl rfl rfl (by decide)⟩
theorem rule_unit : ∃ s', BootRule .staggeredStartStep (stBoot { rowan := some acc, startStep := 3 }) s' :=
  ⟨_, .unit _ (by decide) (by decide) (by decide) (by decide) (by decide)⟩
theorem rule_harts :
    ∃ s', BootRule .staggeredStartStep (stBoot { rowan := some acc, hazel := some acc, runtime := some acc, startStep := 29 }) s' :=
  ⟨_, .harts _ (by decide) (by decide) (by decide) (by decide)⟩
theorem rule_wave :
    ∃ s', BootRule .staggeredStartStep (stBoot { rowan := some acc, hazel := some acc, runtime := some acc, startStep := 31 }) s' :=
  ⟨_, .wave _ (by decide) (by decide) (by decide) (by decide)⟩
theorem rule_limit : ∃ s', BootRule (.pwrlim 2425) stH s' := ⟨_, .limit _ 2425 (by decide) (by decide)⟩
theorem rule_limit_bad : ∃ s', BootRule (.pwrlim 2426) stH s' := ⟨_, .limitBad _ 2426 (by decide) (by decide)⟩
theorem rule_epr : ∃ s', BootRule (.emergencyPowerReduction true) stE s' := ⟨_, .epr _ true⟩
theorem rule_commit : ∃ s', BootRule .commit stH s' := ⟨_, .commit _ (by decide) (by decide)⟩
theorem rule_commit_busy : ∃ s', BootRule .commit { stH with host := { stH.host with rcmdBusy := true } } s' :=
  ⟨_, .commitBusy _ (by decide) (by decide)⟩
theorem rule_llaunch : ∃ s', BootRule (.llaunch none none) stH s' := ⟨_, .llaunch _ _ none none (by decide) (by decide) rfl⟩
theorem rule_llaunch_images : ∃ s', BootRule (.llaunch (some [1]) (some [2])) stH s' :=
  ⟨_, .llaunch _ _ (some [1]) (some [2]) (by decide) (by decide) rfl⟩
theorem rule_sleep : ∃ s', BootRule .sleep stH s' := ⟨_, .sleep _ (by decide) (by decide)⟩
theorem rule_wake :
    ∃ s', BootRule .wake { stBoot { asleep := true, rowan := some acc } with ret := ⟨1, some [1, 2]⟩ } s' :=
  ⟨_, .wake _ [1, 2] (by decide) (by decide) (by decide)⟩
theorem rule_swap_stops : ∃ s', BootRule (.partitionSwapOut 1 0) (stMem [op store4 true 0x6010 .home]) s' :=
  ⟨_, .swapStops _ 1 0 (by decide) (by decide) (by decide) (by decide) (by decide) (by decide) (by decide)⟩
theorem rule_swap_out : ∃ s', BootRule (.partitionSwapOut 1 0) stE s' :=
  ⟨_, .swapOut _ _ 1 0 (by decide) (by decide) (by decide) (by decide) (by decide) (by decide) (by decide) (gives (by decide))⟩
/-- Partition 1 without its part of meadow 0, some of whose image lies in frame 0x300. -/
def stOut : State :=
  { stE with
    parts := [(1, { live := true, agent := 1, swapped := [0], spill := [(0, [0x300])] })], teams := [], warps := [], threads := [] }
theorem rule_swap_in : ∃ s', BootRule (.partitionSwapIn 1 0) stOut s' :=
  ⟨_, .swapIn _ 1 0 (by decide) (by decide) (by decide) (by decide) (by unfold SwapRoom; decide) (by decide)⟩
theorem rule_swap_in_bad : ∃ s', BootRule (.partitionSwapIn 1 0) { stOut with poison := [0xC000], imgKeys := [(0xC000, 1)] } s' :=
  ⟨_, .swapInBad _ 1 0 (by decide) (by decide) (by decide) (by decide) (by unfold SwapRoom; decide) (by decide)⟩

/-! ### SPDM -/

/-- The responder answers: Rowan's firmware has been accepted. -/
def stDoe : State := { stE with boot := { stE.boot with rowan := some acc } }
theorem spdm_of {i : Instr} {session : Option (Nat × List Byte)} {r : SpdmReq}
    (h : spdmOf i = some (.doe session, r)) : ∃ s', SpdmRule i stDoe s' := ⟨_, .doe i stDoe session r h (by decide) (by decide)⟩
theorem rule_doe_early : ∃ s', SpdmRule (.getVersion (.doe none)) stE s' := ⟨_, .doeEarly _ _ none .version rfl (by decide)⟩
theorem rule_version : ∃ s', SpdmRule (.getVersion (.doe none)) stDoe s' := spdm_of rfl
theorem rule_capabilities : ∃ s', SpdmRule (.getCapabilities (.doe none)) stDoe s' := spdm_of rfl
theorem rule_algorithms : ∃ s', SpdmRule (.negotiateAlgorithms (.doe none)) stDoe s' := spdm_of rfl
theorem rule_digests : ∃ s', SpdmRule (.getDigests (.doe none)) stDoe s' := spdm_of rfl
theorem rule_certificate : ∃ s', SpdmRule (.getCertificate (.doe none) 0 0 64) stDoe s' := spdm_of rfl
theorem rule_challenge : ∃ s', SpdmRule (.challenge (.doe none) 0 []) stDoe s' := spdm_of rfl
theorem rule_measurements : ∃ s', SpdmRule (.getMeasurements (.doe none) 1 []) stDoe s' := spdm_of rfl
theorem rule_key_exchange : ∃ s', SpdmRule (.keyExchange (.doe none) []) stDoe s' := spdm_of rfl
theorem rule_finish : ∃ s', SpdmRule (.finish (.doe (some (1, []))) 1) stDoe s' := spdm_of rfl
theorem rule_end_session : ∃ s', SpdmRule (.endSession (.doe (some (1, []))) 1) stDoe s' := spdm_of rfl
theorem rule_unsupported : ∃ s', SpdmRule (.spdmUnsupportedRequest (.doe none) 0x11) stDoe s' := spdm_of rfl

/-- GET_VERSION in-band: 4 bytes at 0x4000, answered at 0x6000. -/
def stSpdm : State := puts (stRowan 0x18 [0x4000, 0x6000, 4, 64]) [(0x80020000000, 0x8410)]
theorem spdm_takes (f : Nat) (args : List Nat) : Takes (puts (stRowan f args) [(0x80020000000, 0x8410)]) f (call f args)
    (puts (stTaken f args) [(0x80020000000, 0x8410)]) :=
  takes_head rfl (by decide : usageDue (puts (stRowan 0 []) [(0x80020000000, 0x8410)]) = none) rfl rfl
/-- The answer is written after the home agent's reads of the request. -/
theorem wrote_of {s : State} {asid a va n : Nat} {l : List Byte} (hn : n ≠ 0) (hp : Nat.min n (4096 - a % 4096) = n)
    (h : readsQuiet s asid a n = true) (w : (writeSpanAt (touched s asid a n) asid va l).isSome = true) :
    writeSpanAt (ioTouchSpan s asid a n) asid va l = some ((writeSpanAt (touched s asid a n) asid va l).get w) := by
  rw [touch_span hn hp h]
  exact gives w
def asked : List Byte := [0x10, 0x84, 0, 0]
theorem rule_spdm_call : ∃ s', SpdmRule .spdmCall stSpdm s' :=
  ⟨_, .call _ _ _ _ _ asked (spdm_takes _ _) (.inl rfl) (by unfold SpdmFieldsOk; decide) (by decide) (by decide)
    (wrote_of (by decide) (by decide) (by decide) (by decide))⟩
theorem rule_version_inband : ∃ s', SpdmRule (.getVersion .inband) stSpdm s' :=
  ⟨_, .call _ _ _ _ _ asked (spdm_takes _ _) (.inr ⟨.version, asked, .version, none, rfl, by decide, by rfl, rfl⟩)
    (by unfold SpdmFieldsOk; decide) (by decide) (by decide) (wrote_of (by decide) (by decide) (by decide) (by decide))⟩
/-- The same call with no room for the answer, and one whose request is nowhere. -/
theorem rule_spdm_call_bad :
    ∃ s', SpdmRule .spdmCall (puts (stRowan 0x18 [0x4000, 0x6000, 4, 0]) [(0x80020000000, 0x8410)]) s' :=
  ⟨_, .callBad _ _ _ _ (spdm_takes _ _) (.inl rfl) (.inr ⟨asked, by decide, by decide⟩)⟩
theorem rule_spdm_call_unread :
    ∃ s', SpdmRule .spdmCall (puts (stRowan 0x18 [0x8000, 0x6000, 4, 64]) [(0x80020000000, 0x8410)]) s' :=
  ⟨_, .callUnread _ _ _ _ (spdm_takes _ _) (.inl rfl) (by unfold SpdmFieldsOk; decide) (by decide)⟩

end Sys2Proof.Tests
end

