-- ==== Sys2Proof/Tests/HartWitnesses.lean ====
section
/-! SUPPORT. States that meet all the conditions of the rules of the general cores' extension instructions. -/
namespace Sys2Proof.Tests
open Machine
-- One declaration at a time: each more thread of the compiler takes a stack out of the same memory.
set_option Elab.async false
set_option maxRecDepth 20000

/-- Hart 0 of enclave 1 issues; x1 holds `a`, x2 holds 0 and x3 holds 5. Kick register 0 holds `l`. -/
def hart0 (a : Nat) : Hart := { encl := 1, x := [(1, BitVec.ofNat 64 a), (3, 5)], pc := 0x1000 }
def enclK (l : List KickRec) : Enclave := { encl1 with kicks := [(0, { pend := l })] }
def stHart (a : Nat) (l : List KickRec) : State :=
  { stE with turn := .hart 0, harts := [(0, hart0 a)], encls := [(1, enclK l)] }
theorem issues_of (a : Nat) (l : List KickRec) : HartIssues (stHart a l) 0 (enclK l) := ⟨rfl, rfl⟩

/-- What a hart's read gives. -/
def loadState : HartLoad → State
  | .ok s _ => s
  | _ => stE
def loadBytes : HartLoad → List Byte
  | .ok _ l => l
  | _ => []
def loadOk : HartLoad → Bool
  | .ok _ _ => true
  | _ => false
theorem load_of {x : HartLoad} (h : loadOk x = true) : x = .ok (loadState x) (loadBytes x) := by cases x <;> first | rfl | cases h

def full : List KickRec := List.replicate 8 ⟨[], 0⟩
theorem rule_spawn : ∃ s', HartRule (.spawn 10 1 2) (stHart 0x6000 []) s' :=
  ⟨_, .spawn _ _ 10 1 2 0 _ _ (issues_of _ _) (by decide) (by decide) (load_of (by decide)) (by decide)⟩
theorem rule_spawn_waits : ∃ s', HartRule (.spawn 10 1 2) (stHart 0x6000 full) s' :=
  ⟨_, .spawnWaits _ _ 10 1 2 0 _ _ (issues_of _ _) (by decide) (by decide) (load_of (by decide)) (by decide)⟩
theorem rule_spawn_no_kick : ∃ s', HartRule (.spawn 10 1 3) (stHart 0x6000 []) s' :=
  ⟨_, .spawnNoKick _ 10 1 3 0 _ (issues_of _ _) (by decide)⟩
theorem rule_spawn_misaligned : ∃ s', HartRule (.spawn 10 1 2) (stHart 0x6040 []) s' :=
  ⟨_, .spawnMisaligned _ 10 1 2 0 _ (issues_of _ _) (by decide) (by decide)⟩
theorem rule_outside : ∃ s', HartRule (.spawn 10 1 2) { stHart 0x6000 [] with encls := [] } s' :=
  ⟨_, .outside _ _ _ 0 rfl (by decide) (by decide)⟩
/-- What a refused read gives. -/
def faultState : HartLoad → State
  | .fault s => s
  | _ => stE
def loadFaults : HartLoad → Bool
  | .fault _ => true
  | _ => false
theorem fault_at {x : HartLoad} (h : loadFaults x = true) : x = .fault (faultState x) := by cases x <;> first | rfl | cases h
theorem rule_spawn_fault : ∃ s', HartRule (.spawn 10 1 2) (stHart 0x8000 []) s' :=
  ⟨_, .spawnFault _ _ 10 1 2 0 _ (issues_of _ _) (by decide) (by decide) (fault_at (by decide))⟩
theorem rule_joinw_fault : ∃ s', HartRule (.joinw 10 1) (stHart 0x8000 []) s' :=
  ⟨_, .joinwFault _ _ 10 1 0 _ (issues_of _ _) (by decide) (fault_at (by decide))⟩
/-- A hart's read in the window, whose bytes are metered to none. -/
theorem load_quiet {s s1 : State} {h va n pa : Nat} {e : TlbEntry} (ht : hartTrans s h va .r = (s1, .ok e, pa))
    (hk : (decide (e.mt ≠ 1) && paOk pa && !((inWindow pa && !windowBacked s1 pa) || dataBad s1 pa n e.key e.ver) &&
      unmetered (ioTouch s1 pa n false) (pa / 128 * 128) (128 * (blocksOf 128 pa n).length)) = true) :
    hartLoad s h va n = .ok (ioTouch s1 pa n false) (readBytes (ioTouch s1 pa n false) pa n) := by
  simp only [Bool.and_eq_true, Bool.not_eq_true', Bool.or_eq_false_iff, decide_eq_true_eq] at hk
  unfold hartLoad
  simp only [ht, hk.1.1.1, hk.1.1.2, if_false, Bool.not_true, Bool.false_eq_true, meterLines_quiet hk.2]
  rw [if_neg]
  rintro (⟨a, b⟩ | a)
  · have := hk.1.2.1; simp_all
  · have := hk.1.2.2; simp_all
/-- The translation of a hart's read. -/
def transE : State × WalkRes × Nat → TlbEntry
  | (_, .ok e, _) => e
  | _ => pg4
def transOk : State × WalkRes × Nat → Bool
  | (_, .ok _, _) => true
  | _ => false
theorem trans_of {x : State × WalkRes × Nat} (h : transOk x = true) : x = (x.1, .ok (transE x), x.2.2) := by
  obtain ⟨a, b, c⟩ := x
  cases b <;> first | rfl | cases h
theorem rule_spawn_append :
    ∃ s', HartRule (.spawnAppend 0) { stHart 0 [] with harts := [(0, { hart0 0 with wait := some (.spawn 1 0 ⟨[], 0⟩ 10) })] } s' :=
  ⟨_, .append _ 0 1 0 10 ⟨[], 0⟩ (enclK []) (by decide) (by decide) (by decide)⟩
theorem rule_joinw : ∃ s', HartRule (.joinw 10 1) (stHart 0x4080 []) s' :=
  ⟨_, .joinw _ _ 10 1 0 _ _ (issues_of _ _) (by decide) (load_quiet (trans_of (by decide)) (by decide)) (by decide)⟩
theorem rule_joinw_waits : ∃ s', HartRule (.joinw 10 1) (writeNat (stHart 0x4080 []) 0x80020000080 8 3) s' :=
  ⟨_, .joinwWaits _ _ 10 1 0 (enclK []) _ ⟨rfl, rfl⟩ (by decide) (load_quiet (trans_of (by decide)) (by decide)) (by decide)⟩
theorem rule_joinw_misaligned : ∃ s', HartRule (.joinw 10 1) (stHart 0x6004 []) s' :=
  ⟨_, .joinwMisaligned _ 10 1 0 _ (issues_of _ _) (by decide)⟩
theorem rule_joinw_ends :
    ∃ s', HartRule (.joinwComplete 0) { stHart 0 [] with harts := [(0, { hart0 0 with wait := some (.joinw 0x4080 10) })] } s' :=
  ⟨_, .joinwEnds _ _ 0 0x4080 10 _ (by decide) (load_quiet (trans_of (by decide)) (by decide)) (by decide)⟩

/-- A descriptor of one thread and one page at 0x4100 in the window, its page list at 0x4180, and sixteen free frames. -/
def stEcreate : State :=
  let s := { stHart 0x4100 [] with
    pot := [(0x200, mkPot 1 3 0 0)] ++ (List.range 16).map (fun i => (0x210 + i, mkPot 1 0 0 0)) ++
      [(0x80020000, mkPot 1 1 0 0), (0x80020001, mkPot 1 1 0 0)]
    rowan := { lastEncl := 1, lastAsid := 1, lastKslot := 1 } }
  puts s [(0x80020000100, 2 ^ 48 + 1), (0x80020000108, 0x8000), (0x80020000110, 0x1000), (0x80020000118, 0x4180), (0x80020000120, 0x4040),
    (0x80020000128, 0x5000), (0x80020000130, 4), (0x80020000180, 0x1005)]
/-! A zero-filled page leaves the contents alone, so the stages of the creation are evaluated without its 4096 stores. -/
theorem smDel_absent {α : Type} (a : Nat) : ∀ m : SMap α, (m.all fun c => decide (c.1 ≠ a)) = true → smDel m a = m
  | [], _ => rfl
  | (k, w) :: m, h => by
    rw [List.all_cons, Bool.and_eq_true, decide_eq_true_eq] at h
    rw [smDel, if_neg (fun e => h.1 e.symm), smDel_absent a m h.2]
theorem memPuts_zeros (m : SMap Byte) : ∀ (n pa : Nat), (m.all fun c => decide (c.1 < pa ∨ pa + n ≤ c.1)) = true →
    memPuts m pa (List.replicate n 0) = m
  | 0, _, _ => rfl
  | n + 1, pa, h => by
    simp only [List.all_eq_true, decide_eq_true_eq] at h
    have e : smSet 0 m pa (0 : Byte) = m := by
      rw [smSet, if_pos rfl]
      exact smDel_absent pa m (by simp only [List.all_eq_true, decide_eq_true_eq]; intro c hc; have := h c hc; omega)
    rw [List.replicate_succ, memPuts, e]
    exact memPuts_zeros m n (pa + 1) (by simp only [List.all_eq_true, decide_eq_true_eq]; intro c hc; have := h c hc; omega)
def zeroFilled (s : State) (pa n : Nat) : State :=
  { writeBytes s pa (List.replicate n 0) with
    mem := s.mem }
theorem zero_filled (s : State) (pa n : Nat) (h : (s.mem.all fun c => decide (c.1 < pa ∨ pa + n ≤ c.1)) = true) :
    writeBytes s pa (List.replicate n 0) = zeroFilled s pa n := by
  have e : (writeBytes s pa (List.replicate n 0)).mem = s.mem := memPuts_zeros s.mem n pa h
  unfold zeroFilled; rw [← e]
theorem some_of {α : Type} {x : Option α} (d : α) (h : x.isSome = true) : x = some (x.getD d) := by
  cases x with
  | none => cases h
  | some _ => rfl
def grownState : TabRes → State
  | .ok s _ => s
  | _ => stE
def grownAt : TabRes → Nat
  | .ok _ t => t
  | _ => 0
def grownOk : TabRes → Bool
  | .ok _ _ => true
  | _ => false
theorem grown_of {x : TabRes} (h : grownOk x = true) : x = .ok (grownState x) (grownAt x) := by cases x <;> first | rfl | cases h

/-- The stages: the root table, the page's tables, its frame, the zero-filled page, the kick page's leaf. -/
def madeRead : State := touched (touched stEcreate 1 0x4100 128) 1 0x4180 16
theorem made_read : ioTouchSpan (ioTouchSpan stEcreate 1 0x4100 128) 1 0x4180 16 = madeRead := by
  rw [touch_span (s := stEcreate) (by decide) (by decide) (by decide +kernel), touch_span (by decide) (by decide) (by decide +kernel)]
  rfl
def madeRoot : State := (newRoot (takeIds madeRead (2, 2, 2)) 1 2 2).getD stE
def madeTabs : TabRes := ensureTable 1 2 0x1000 0 4 (rootOf madeRoot 2) madeRoot
def madeFrame : Nat := (lowestFree (grownState madeTabs) 1 1).getD 0
def madePage : State := ioTouch (takePage (grownState madeTabs) madeFrame 12 2 2 psPrivate) (madeFrame * 4096) 4096 true
def madeLeaf : State :=
  writeLeaves (zeroFilled madePage (madeFrame * 4096) 4096) (grownAt madeTabs) 0x1000 12 fun _ => leafWord (madeFrame * 4096) 12 5
theorem made_root : newRoot (takeIds madeRead (2, 2, 2)) 1 2 2 = some madeRoot := some_of _ (by decide +kernel)
theorem made_tabs : madeTabs = .ok (grownState madeTabs) (grownAt madeTabs) := grown_of (by decide +kernel)
theorem made_frame : lowestFree (grownState madeTabs) 1 1 = some madeFrame := some_of _ (by decide +kernel)
theorem made_zero : writeBytes madePage (madeFrame * 4096) (List.replicate 4096 0) = zeroFilled madePage (madeFrame * 4096) 4096 :=
  zero_filled _ _ _ (by decide +kernel)
theorem put_free {s : State} {pa : Nat} {bs : List Byte} (h : (ioFault s pa bs.length).isNone = true) :
    ioPut s pa bs = writeBytes (ioTouch s pa bs.length true) pa bs := by
  rw [Option.isNone_iff_eq_none] at h
  unfold ioPut putFor
  rw [show faultFor ioAgent s pa bs.length = none from h]
  rfl
theorem made_page : addPage madeRoot 1 2 2 0x1000 5 psPrivate (List.replicate 4096 0) = some madeLeaf := by
  have hl : (List.replicate 4096 (0 : Byte)).length = 4096 := List.length_replicate
  unfold addPage
  rw [show ensureTable 1 2 0x1000 0 4 (rootOf madeRoot 2) madeRoot = _ from made_tabs]
  simp only [made_frame]
  rw [put_free (by rw [hl]; decide +kernel), hl,
    show ioTouch (takePage (grownState madeTabs) madeFrame 12 2 2 psPrivate) (madeFrame * 4096) 4096 true = madePage from rfl,
    made_zero]; rfl
theorem made_kick : (addKickPage madeLeaf 1 2 2 0x8000).isSome = true := by decide +kernel
/-- The enclave that `ecreate` adds, its harts and its fault queue. -/
def withEncl (s3 : State) (hdr va : Nat) (ce : Enclave) (desc : List Byte) (w : List Nat) (l : List PageEnt) (c i a k : Nat) : State :=
  addHarts (setEncl (noteSpoilt s3 (ioPut s3 hdr (freshHdr (w.getD 5 0) 2 (w.getD 6 0))) hdr 64) i
    { state := 1, part := ce.part, kslot := k, asid := a, creator := c, nthr := bitsOf (w.getD 0 0) 55 48
      nkickm1 := bitsOf (w.getD 0 0) 43 40, ord := s3.rowan.ord, meas := measureEnclave desc l, seals := [], gen := 0
      kickVa := w.getD 1 0, hentry := w.getD 2 0, fqHdr := some (w.getD 4 0), fqSeq := 0, fq := [], kicks := [] })
    i a (w.getD 2 0) (bitsOf (w.getD 0 0) 55 48)
theorem created {s s1 s2 s3 s4 : State} {c va hdr x : Nat} {ce : Enclave} {desc : List Byte} {w : List Nat} {e : PageEnt} {i a k : Nat}
    (h0 : va % 128 = 0) (h1 : readVa s ce.asid va 128 = some desc) (h2 : descWords desc = some w)
    (h3 : pageList s ce.asid (w.getD 3 0) 0 (bitsOf (w.getD 0 0) 12 0) [w.getD 1 0] = some [e])
    (h4 : windowHdr s ce.part ce.asid (w.getD 4 0) = some hdr) (h5 : nowPa s ce.asid (va + 0x38) = some x) (h6 : newIds s = some (i, a, k))
    (zero : e.src = 0)
    (h7 : newRoot (takeIds (ioTouchSpan (ioTouchSpan s ce.asid va 128) ce.asid (w.getD 3 0) (16 * [e].length)) (i, a, k)) ce.part i a = some s1)
    (h8 : addPage s1 ce.part i a e.va e.rwx (if e.shr then psSharedRw else psPrivate) e.content = some s2)
    (h9 : addKickPage s2 ce.part i a (w.getD 1 0) = some s3)
    (h10 : ioWriteVa (withEncl s3 hdr va ce desc w [e] c i a k) ce.asid (va + 0x38) (bytesOfNat 8 a) = some s4) :
    ∃ t id, createEnclave s c ce va = .inr (t, id) := by
  unfold withEncl at h10
  unfold createEnclave
  simp only [h0, h1, h2, h3, h4, h5, h6, h7, h8, h9, zero, if_true, List.foldl_cons, List.foldl_nil, Option.bind_some, h10]
  exact ⟨_, _, rfl⟩
def madeDesc : List Byte := (readVa stEcreate 1 0x4100 128).getD []
def madeWords : List Nat := (descWords madeDesc).getD []
theorem made_list : pageList stEcreate 1 (madeWords.getD 3 0) 0 (bitsOf (madeWords.getD 0 0) 12 0) [madeWords.getD 1 0]
    = some [⟨0x1000, 5, false, 0x1005, 0, List.replicate 4096 0⟩] := by
  rw [show madeWords.getD 3 0 = 0x4180 from by decide +kernel, show bitsOf (madeWords.getD 0 0) 12 0 = 1 from by decide +kernel,
    show madeWords.getD 1 0 = 0x8000 from by decide +kernel]
  have ha : readVaNat stEcreate 1 (0x4180 + 16 * 0) 8 = some 0x1005 := by decide +kernel
  have hb : readVaNat stEcreate 1 (0x4180 + 16 * 0 + 8) 8 = some 0 := by decide +kernel
  unfold pageList
  simp only [ha, hb]
  rw [if_neg (by decide)]
  rfl
theorem made_ids : newRoot (takeIds (ioTouchSpan (ioTouchSpan stEcreate 1 0x4100 128) 1 (madeWords.getD 3 0)
    (16 * [(⟨0x1000, 5, false, 0x1005, 0, List.replicate 4096 0⟩ : PageEnt)].length)) (2, 2, 2)) 1 2 2 = some madeRoot := by
  rw [show madeWords.getD 3 0 = 0x4180 from by decide +kernel, show 16 * [(⟨0x1000, 5, false, 0x1005, 0, List.replicate 4096 0⟩ : PageEnt)].length = 16
    from rfl, made_read]
  exact made_root
theorem made_kicked : addKickPage madeLeaf 1 2 2 (madeWords.getD 1 0) = some ((addKickPage madeLeaf 1 2 2 0x8000).getD stE) := by
  rw [show madeWords.getD 1 0 = 0x8000 from by decide +kernel]
  exact some_of _ made_kick
theorem made : ∃ s1 id, createEnclave stEcreate 1 (enclK []) 0x4100 = .inr (s1, id) :=
  created (by decide) (some_of [] (by decide +kernel)) (some_of [] (by decide +kernel)) made_list (some_of 0 (by decide +kernel))
    (some_of 0 (by decide +kernel)) (show newIds stEcreate = some (2, 2, 2) by decide +kernel) rfl made_ids made_page made_kicked
    (gives (by decide +kernel))
theorem rule_ecreate : ∃ s', HartRule (.ecreate 10 1) stEcreate s' :=
  let ⟨s1, id, h⟩ := made
  ⟨_, .ecreate _ s1 10 1 0 id (enclK []) ⟨by decide, by decide⟩ ⟨⟨by decide, by decide, by decide, by decide⟩, by decide⟩ (by
    rw [show (getHart stEcreate 0).encl = 1 from by decide, show (rdX (getHart stEcreate 0) 1).toNat = 0x4100 from by decide]
    exact h)⟩
theorem rule_ecreate_fails : ∃ s', HartRule (.ecreate 10 1) (stHart 0x6040 []) s' :=
  ⟨_, .ecreateFails _ 10 1 0 stBadArgs _ (issues_of _ _) ⟨⟨rfl, rfl, rfl, by decide⟩, rfl⟩ (by rfl)⟩
theorem rule_edestroy : ∃ s', HartRule (.edestroy 10 1) { stHart 2 [] with encls := [(1, encl1), (2, { encl1 with creator := 1, asid := 2 })] } s' :=
  ⟨_, .edestroy _ 10 1 0 encl1 ⟨rfl, rfl⟩ ⟨⟨rfl, rfl, rfl, by decide⟩, rfl⟩ (by decide)⟩
theorem rule_edestroy_fails : ∃ s', HartRule (.edestroy 10 1) (stHart 7 []) s' :=
  ⟨_, .edestroyFails _ 10 1 0 _ (issues_of _ _) ⟨⟨rfl, rfl, rfl, by decide⟩, rfl⟩ (by decide)⟩
theorem rule_eattest : ∃ s', HartRule (.eattest 10 1 2) (stHart 0x6000 []) s' :=
  ⟨_, .eattest _ 10 1 2 0 _ (issues_of _ _) ⟨⟨rfl, rfl, rfl, by decide⟩, rfl⟩⟩
theorem rule_trap_waits :
    ∃ s', HartRule (.eattest 10 1 2) { stHart 0x6000 [] with rowan := { stE.rowan with queue := [⟨0, 1, [], 0, 1⟩] } } s' :=
  ⟨_, .trapWaits _ _ _ 0 (enclK []) rfl ⟨rfl, rfl⟩ (.inr (.inr (.inl (by decide))))⟩
theorem rule_trap_busy : ∃ s', HartRule (.edestroy 10 1) { stHart 7 [] with rowan := { stE.rowan with sleeping := true } } s' :=
  ⟨_, .trapBusy _ _ _ 0 (enclK []) rfl ⟨rfl, rfl⟩ ⟨rfl, rfl, rfl, by decide⟩ rfl⟩
theorem rule_illegal : ∃ s', HartRule (.illegalInstructionException 0x0B) (stHart 0 []) s' := ⟨_, .illegal _ 0x0B 0 rfl⟩

end Sys2Proof.Tests
end

