-- ==== Sys2Proof/Tests/JobWitnesses.lean ====
section
/-! SUPPORT. States that meet all the conditions of the rules of the matrix unit and the copy units. -/
namespace Sys2Proof.Tests
open Machine
-- One declaration at a time: each more thread of the compiler takes a stack out of the same memory.
set_option Elab.async false
set_option maxRecDepth 20000

/-! ### The matrix unit -/

/-- `stE` with a matrix job in core 0's queue and pending words in its team. -/
def matJob (k : JobKind) (st : JobState) (done : Nat) : Job := { newJob 7 0 0 k with posted := true, state := st, done := done }
def mma1 : JobKind := .mma 0 0 1 0 0 1
def stMat (l : List Job) (run live : Option Nat) (m : List MatPend) : State :=
  { stE with
    cores := [(0, { coreE with jobs := l, running := run, liveTile := live, budget := 4096, quantum := 4096, order := 9 })]
    teams := [(0, { teamE with matPend := m })] }

theorem rule_rsv : ∃ s', MatrixRule (.rsvComplete 0 0 0) (stMat [] none none [⟨.rsv 0, [0], [], 0⟩]) s' :=
  ⟨_, .rsv _ 0 0 0 (mkDesc 0x0400000000000000 0x00010001 0) (by decide) (by decide) (by decide)⟩
theorem rule_rsv_tile :
    ∃ s', MatrixRule (.rsvComplete 0 0 2) { stMat [] none none [⟨.rsv 2, [0], [], 0⟩] with cores := [(0, core0)] } s' :=
  ⟨_, .rsvTile _ 0 0 2 (mkDesc 0x80007F0000000000 0x200 0) (by decide) (by decide) (by decide) (by decide)⟩
theorem rule_unrsv : ∃ s', MatrixRule (.unrsvComplete 0 0 1) (stMat [] none none [⟨.unrsv 1, [0], [], 0⟩]) s' :=
  ⟨_, .unrsv _ 0 0 1 (mkDesc 0x4400000000000000 0x00010001 0) (by decide) (by decide) (by decide)⟩
theorem rule_acq : ∃ s', MatrixRule (.acqComplete 0 0 0) (stMat [] none (some 0) [⟨.acq 0, [0], [], 0⟩]) s' :=
  ⟨_, .acq _ 0 0 0 ⟨.acq 0, [0], [], 0⟩ (by decide) (by decide)⟩
theorem rule_mat_start : ∃ s', MatrixRule (.matrixJobStart 0 7) (stMat [matJob mma1 .queued 0] (some 7) none []) s' :=
  ⟨_, .start _ 0 7 0 (matJob mma1 .queued 0) (by decide) (by decide) (by decide) (by decide) (by decide)⟩
theorem rule_mat_start_free : ∃ s', MatrixRule (.matrixJobStart 0 7) (stMat [matJob (.zacc 0) .queued 0] none none []) s' :=
  ⟨_, .startFree _ 0 7 0 (matJob (.zacc 0) .queued 0) (by decide) (by decide) (by decide) (by decide) (by decide) (by decide) (by decide)⟩

/-- The first k-step of the job: an `fp16` pair, with buffers of zeros and no vector fed before. -/
def stK : State := stMat [matJob mma1 .running 0] (some 7) (some 0) []
def nextK : KNext := (kNext stK 0 (matJob mma1 .running 0)).get (by decide)
theorem charge_k : kCharge stK 0 (matJob mma1 .running 0) = nextK.base := by
  have h : ∀ t, lastFed stK 0 t = ([], []) := by intro t; simp only [lastFed]; split <;> decide
  unfold kCharge
  rw [show kNext stK 0 (matJob mma1 .running 0) = some nextK from gives (by decide)]
  simp only [h]
  decide
theorem rule_k_step : ∃ s', MatrixRule (.kStep 0) stK s' :=
  ⟨_, .kStep _ 0 (matJob mma1 .running 0) nextK
    ⟨by decide, gives (by decide), by decide, by decide, by decide, by decide, by rw [charge_k]; decide⟩⟩
theorem rule_switch : ∃ s', MatrixRule (.arraySwitchPoint 0) (stMat [matJob (.zacc 0) .queued 0] none none []) s' :=
  ⟨_, .switch _ 0 (matJob (.zacc 0) .queued 0) (by decide) (by decide) (by decide)⟩
theorem rule_mma_done : ∃ s', MatrixRule (.matrixJobComplete 0) (stMat [matJob mma1 .running 1] (some 7) (some 0) []) s' :=
  ⟨_, .mmaDone _ 0 0 0 1 0 0 1 0 (matJob mma1 .running 1) (by decide) (by decide) (by decide) (by decide) (by decide)⟩
theorem rule_zacc_done : ∃ s', MatrixRule (.matrixJobComplete 0) (stMat [matJob (.zacc 0) .running 0] (some 7) (some 0) []) s' :=
  ⟨_, .zaccDone _ 0 0 (matJob (.zacc 0) .running 0) (by decide) (by decide) (by decide) (by decide) (by decide)⟩
theorem rule_refill : ∃ s', MatrixRule .budgetRefill stE s' := ⟨_, .refill _ (by decide)⟩
theorem rule_refill_halted : ∃ s', MatrixRule .budgetRefill { stE with boot := { stE.boot with hazelHalted := true } } s' :=
  ⟨_, .refillHalted _ (by decide)⟩
def ramping : State := { stE with cores := [(0, { coreE with power := .ramping })] }
theorem rule_ramp : ∃ s', MatrixRule (.arrayRampDone 0) ramping s' := ⟨_, .ramp ramping 0 (by decide) (by decide)⟩
def rampTwo : State := { stE with cores := [(0, { coreE with power := .ramping }), (1, { core0 with power := .waiting })] }
theorem rule_ramp_next : ∃ s', MatrixRule (.arrayRampDone 0) rampTwo s' :=
  ⟨_, .ramp rampTwo 0 (by decide) (by decide)⟩

/-! ### The copy units -/

/-- A card of one block of one row of 16 bytes, with a read and a write region; `c` holds its other CTL bits. -/
def cardOf (c src dst : Nat) : List Byte :=
  bytesOfNat 8 (c + 2 ^ 46 + 2 ^ 43 + 2 ^ 40) ++ List.replicate 8 0 ++ List.replicate 32 0 ++ bytesOfNat 8 src ++ bytesOfNat 8 dst
    ++ bytesOfNat 4 16 ++ bytesOfNat 4 1 ++ List.replicate 56 0 ++ bytesOfNat 8 src ++ bytesOfNat 4 16 ++ List.replicate 52 0
    ++ bytesOfNat 8 dst ++ bytesOfNat 4 16 ++ List.replicate 52 0
def spA : Nat := 2 ^ 62 + 0x80001000
def spB : Nat := 2 ^ 62 + 0x80002000
def copyJob (card : List Byte) (st : JobState) (off : Nat) : Job :=
  { newJob 7 0 0 .copy with posted := true, state := st, card := card, card0 := card, offset := off }
def stCopy (j : Job) : State :=
  { stE with cores := [(0, { coreE with jobs := [j], order := 9, cuTlb := [pg6] })] }
def spCard : List Byte := cardOf 0 spA spB

theorem rule_copy_start : ∃ s', CopyRule (.copyJobStart 0 7) (stCopy (copyJob spCard .queued 0)) s' :=
  ⟨_, .start _ 0 (copyJob spCard .queued 0) (by decide) (by decide) (by decide) (by decide) (by decide) (by decide)⟩

/-- A card whose completion is a slot of ring 0. -/
def ringCard : List Byte := cardOf (2 ^ 58) spA spB
theorem rule_claim : ∃ s', CopyRule (.ringSlotClaim 0 7) (stCopy (copyJob ringCard .queued 0)) s' :=
  ⟨_, .claim _ 0 (copyJob ringCard .queued 0) (by decide) (by decide) (by decide) (by decide) (by decide) (by decide)⟩

/-- The same as a relay of one hop, to core 1, whose team of the grove has the ring. -/
def relayCard (c : Nat) : List Byte :=
  (cardOf (c + 2 ^ 48) spA spB).take 0x10 ++ [1] ++ (cardOf (c + 2 ^ 48) spA spB).drop 0x11
def relay (c off hop : Nat) : Job := { copyJob (relayCard c) .running off with hop := hop }
def stRelay (j : Job) : State :=
  let s := stCopy j
  { s with
    teams := [(0, teamE), (4, { teamE with wslots := [] })]
    groves := [(0, { grove0 with teams := [0, 4], gw := 2 })] }
theorem rule_claim_hop : ∃ s', CopyRule (.ringSlotClaim 0 7) (stRelay (relay (2 ^ 58) 0 1)) s' :=
  ⟨_, .claimHop _ 0 4 (relay (2 ^ 58) 0 1) { sz := 0, ln := 2, base := 0x80001000 } (by decide) (by decide) (by decide) (by decide)
    (by decide) (by decide) (by decide) (by decide)⟩
theorem rule_hop : ∃ s', CopyRule (.relayHop 0 7) (stRelay (relay 0 16 0)) s' :=
  ⟨_, .hop (stRelay (relay 0 16 0)) 0 1 (relay 0 16 0) (by decide) (by decide) (by decide) (by decide) (by decide) (by decide)⟩

def xf (dst src : Nat) : Xfer := ⟨dst, src, 16, 1⟩
/-- A job's one piece: there is none beyond it. -/
theorem one_piece {s : State} {core : Nat} {j : Job} {x : Piece} (h : pieceAt s core j (allXfers j) j.offset = some x)
    (none' : pieceAt s core j (allXfers j) (j.offset + x.len) = none) : farPiece s core j = none := by
  unfold farPiece
  simp only [h, none', Option.isNone_none, if_true]
theorem works_of {s : State} {core : Nat} {j : Job} {x : Piece} (h : pieceAt s core j (allXfers j) j.offset = some x)
    (none' : pieceAt s core j (allXfers j) (j.offset + x.len) = none) (job : liveJob s core j.num = some j)
    (active : jobActive j = true) (slot : hopSlot j = true) (sound : pieceBad s core j x = none) : PieceWorks s core j x false :=
  ⟨job, active, slot, ⟨h, one_piece h none'⟩, sound⟩

/-- The piece of a card of 16 bytes, and the bytes read for it. -/
def pc (dst src : Nat) : Piece := ⟨xf dst src, 0, 16, 0⟩
def bytesRead : SMap Byte := (List.range 16).map fun i => (i, 7)
theorem rule_piece_read : ∃ s', CopyRule (.copyPieceDelivery 0 7) (stCopy (copyJob spCard .running 0)) s' :=
  ⟨_, .read (stCopy (copyJob spCard .running 0)) 0 0 spA 16 (copyJob spCard .running 0) (pc spB spA) false (.plain 0 0x1000)
    (works_of (by decide) (by decide) (by decide) (by decide) (by decide) (by decide))
    ⟨by decide, by decide, by decide, by decide⟩ trivial (by intro k phys h; cases h; decide)⟩
def stCopyEcc : State :=
  { stE with cores := [(0, { coreE with jobs := [copyJob spCard .running 0], order := 9, cuTlb := [pg6], spEcc := [0x100] })] }
theorem rule_read_uncorrectable : ∃ s', CopyRule (.copyPieceDelivery 0 7) stCopyEcc s' :=
  ⟨_, .readUncorrectable stCopyEcc 0 0 spA 16 0 0x1000 (copyJob spCard .running 0) (pc spB spA)
    (works_of (by decide) (by decide) (by decide) (by decide) (by decide) (by decide))
    ⟨by decide, by decide, by decide, by decide⟩ (by decide)⟩
def inCard : List Byte := cardOf 0 0x6000 spB
def inJob : Job := { copyJob inCard .running 0 with rdG := [0x1000] }
theorem rule_read_memory : ∃ s', CopyRule (.copyPieceDelivery 0 7) (stCopy inJob) s' :=
  ⟨_, .readMemory (stCopy inJob) 0 0 0x6000 16 0x6000 0x200000 inJob (pc spB 0x6000) false pg6
    (works_of (by decide) (by decide) (by decide) (by decide) (by decide) (by decide))
    ⟨by decide, by decide, by decide, by decide⟩ (by rfl) (by decide)⟩
def stCopyBad : State := { stCopy inJob with poison := [0x8000] }
theorem rule_read_bad : ∃ s', CopyRule (.copyPieceDelivery 0 7) stCopyBad s' :=
  ⟨_, .readBad stCopyBad 0 0 0x6000 16 0x6000 0x200000 ccIntegrity inJob (pc spB 0x6000) pg6
    (works_of (by decide) (by decide) (by decide) (by decide) (by decide) (by decide))
    ⟨by decide, by decide, by decide, by decide⟩ (by rfl) (by decide)⟩
def landJob : Job := { copyJob spCard .running 0 with rbuf := bytesRead }
theorem rule_land : ∃ s', CopyRule (.copyPieceDelivery 0 7) (stCopy landJob) s' :=
  ⟨_, .land (stCopy landJob) 0 landJob (pc spB spA) false
    (works_of (by decide) (by decide) (by decide) (by decide) (by decide) (by decide)) (by decide)
    (by rw [show pieceDst (stCopy landJob) 0 landJob (pc spB spA) = .plain 0 0x2000 by decide]; trivial) (by decide)⟩
def outCard : List Byte := cardOf 0 spA 0x6000
def outJob : Job := { copyJob outCard .running 0 with wrG := [0x1000], rbuf := bytesRead }
theorem rule_land_memory : ∃ s', CopyRule (.copyPieceDelivery 0 7) (stCopy outJob) s' :=
  ⟨_, .landMemory (stCopy outJob) 0 0x6000 0x200000 outJob (pc 0x6000 spA) false pg6
    (works_of (by decide) (by decide) (by decide) (by decide) (by decide) (by decide)) (by decide) (by decide) (by decide)
    (by rfl)⟩
/-- The card's read region lies elsewhere than its source. -/
def badCard : List Byte := spCard.take 64 ++ bytesOfNat 4 1 ++ (spCard.take 128).drop 68 ++ bytesOfNat 8 spB ++ spCard.drop 136
theorem rule_piece_bad : ∃ s', CopyRule (.copyPieceDelivery 0 7) (stCopy (copyJob badCard .running 0)) s' :=
  ⟨_, .pieceBad (stCopy (copyJob badCard .running 0)) 0 ccPermission spA (copyJob badCard .running 0) ⟨⟨spB, spA, 1, 1⟩, 0, 1, 0⟩ (by decide)
    (by decide) (by decide) (by decide) (one_piece (x := ⟨⟨spB, spA, 1, 1⟩, 0, 1, 0⟩) (by decide) (by decide)) (by decide)⟩
theorem rule_copy_done : ∃ s', CopyRule (.copyJobComplete 0 7) (stCopy (copyJob spCard .running 16)) s' :=
  ⟨_, .done _ 0 (copyJob spCard .running 16) (by decide) (by decide) (by decide) (by decide) (by decide) (by decide)⟩
def followCard : List Byte := cardOf (2 ^ 52) spA spB
theorem rule_copy_done_follow : ∃ s', CopyRule (.copyJobComplete 0 7) (stCopy (copyJob followCard .running 16)) s' :=
  ⟨_, .doneFollow _ 0 (copyJob followCard .running 16) (by decide) (by decide) (by decide) (by decide) (by decide) (by decide)⟩
def badJob : Job := { copyJob spCard .running 0 with faulted := some (0x10, 0x6000) }
theorem rule_copy_fault : ∃ s', CopyRule (.copyJobFault 0 7) (stCopy badJob) s' :=
  ⟨_, .fault _ 0 0x10 0x6000 badJob (by decide) (by decide)⟩
def awaiting : State :=
  { stWait (.await 0 0 8) with
    teams := [(0, { teamE with ringRecs := [(0, { sz := 0, ln := 2, base := 0x80001000, wptr := 1, slots := [(0, .filled false)] })] })] }
theorem rule_await : ∃ s', CopyRule (.awaitTake 0 0) awaiting s' :=
  ⟨_, .await _ _ 0 0 0 0 0 8 [] (by decide) (gives (by decide))⟩

end Sys2Proof.Tests
end

