-- ==== Sys2Proof/Tests/Words.lean ====
section
/-! SUPPORT. Decoding and encoding on words written out from the field tables (R82, R96, R100, R394) and opcode lists (R104,
R105, R97) of 05_encoding.md, and on the words the spec's own examples print. -/
namespace Sys2Proof.Tests
-- One declaration at a time: each more thread of the compiler takes a stack out of the same memory.
set_option Elab.async false

/-- Each word decodes to its instruction, and the encoder gives the word back. -/
def agree (l : List (BitVec 64 × Instr)) : Bool :=
  l.all fun x => decide (decode x.1 = .ok x.2) && decide (encode x.2 = some (.nimia x.1))

abbrev hA : Hdr := ⟨0, .always⟩
abbrev w (r : WReg) : Src := ⟨.w r, .none⟩
abbrev s (r : SReg) : Src := ⟨.s r, .none⟩
abbrev c (k : BitVec 7) : Src := ⟨.imm k, .none⟩
abbrev w64 (p : WPair) : Src64 := ⟨.w p, false⟩
abbrev s64 (r : SReg) : Src64 := ⟨.s r, false⟩
abbrev c64 (k : BitVec 7) : Src64 := ⟨.imm k, false⟩
abbrev us (r : SReg) : USrc := ⟨.s r, .none⟩
abbrev uc (k : BitVec 7) : USrc := ⟨.imm k, .none⟩
abbrev us64 (r : SReg) : USrc64 := ⟨.s r, false⟩
abbrev uc64 (k : BitVec 7) : USrc64 := ⟨.imm k, false⟩

def wordsInteger : List (BitVec 64 × Instr) := [
    (0x00007010100C0000, .add hA none 1 (w 2) (w 3)),
    (0x0003A01017162000, .add ⟨3, .pred 2 true⟩ (some .z) 1 (w 2) (c 69)),
    (0x00107018200E0038, .sub hA (some .s) 1 (s 4) ⟨.w 3, .neg⟩),
    (0x00207FF015080050, .mul hA 255 ⟨.w 2, .h0⟩ ⟨.ident 2, .h1⟩),
    (0x00307010100C2000, .mulhi hA .z 1 (w 2) (w 3)),
    (0x00407010100C08E5, .mad hA 1 ⟨.w 2, .hs⟩ ⟨.w 3, .hb0⟩ ⟨.w 4, .hb1⟩),
    (0x00507010100C0000, .div hA .s 1 (w 2) (w 3)),
    (0x00607010100C2000, .rem hA .z 1 (w 2) (w 3)),
    (0x0070701010020000, .abs hA true 1 (w 2)),
    (0x00807010100C0000, .min hA .s 1 (w 2) (w 3)),
    (0x00907010100C2000, .max hA .z 1 (w 2) (w 3)),
    (0x00A0701A00000180, .mov hA 1 ⟨.ident 0, .rot⟩)]

theorem test_decode_integer : agree wordsInteger = true := by decide

def wordsInteger2 : List (BitVec 64 × Instr) := [
    (0x80B20E0012345678, .movi (some 1) 7 0x12345678),
    (0x00C07010100C1200, .sel hA 1 (w 2) (w 3) ⟨1, true⟩),
    (0x00D07030100D2000, .icmp hA .geZ 3 (.w32 (w 2) (w 3))),
    (0x00D07030140E4038, .icmp hA .ltS 3 (.w64 (w64 1) ⟨.s 3, true⟩)),
    (0x00E0703008280000, .pand hA 3 ⟨1, false⟩ ⟨2, true⟩),
    (0x00F07030081C0000, .por hA 3 ⟨1, false⟩ ⟨7, false⟩),
    (0x0100706078000000, .pxor hA 6 ⟨7, true⟩ ⟨0, false⟩),
    (0x0110700020000000, .pnot hA 0 ⟨4, false⟩),
    (0x00D0701A0740C000, .icmp hA .ltZ 1 (.w32 ⟨.ident 0, .none⟩ (c 80)))]

theorem test_decode_integer_2 : agree wordsInteger2 = true := by decide

def wordsBits : List (BitVec 64 × Instr) := [
    (0x0400701017000000, .and hA 1 (w 2) (c 64)),
    (0x0410701017040000, .or hA 1 (w 2) (c 65)),
    (0x0420701017080000, .xor hA 1 (w 2) (c 66)),
    (0x04307010170C0000, .andn hA 1 (w 2) (c 67)),
    (0x0440701017100000, .shl hA 1 (w 2) (c 68)),
    (0x0450701017140000, .shr hA 1 (w 2) (c 69)),
    (0x0460701017180000, .sra hA 1 (w 2) (c 70)),
    (0x04707010171C0000, .rot hA 1 (w 2) (c 71)),
    (0x0480701010000000, .popc hA 1 (w 2)),
    (0x0490701018000000, .clz hA 1 (w 3)),
    (0x04A0701020000000, .ctz hA 1 (w 4)),
    (0x04B0701028000000, .brev hA 1 (w 5))]

theorem test_decode_bits : agree wordsBits = true := by decide

def wordsBits2 : List (BitVec 64 × Instr) := [
    (0x04C07010100C0800, .bfx hA 1 (w 2) (w 3) (w 4)),
    (0x04D07010100C0800, .bfi hA 1 (w 2) (w 3) (w 4)),
    (0x04E07010100C0800, .prmb hA 1 (w 2) (w 3) (w 4)),
    (0x04F07010100E0000, .add2 hA (some .s) 1 (w 2) (w 3)),
    (0x05007010100E2000, .sub2 hA (some .z) 1 (w 2) (w 3)),
    (0x05107010100C0000, .min2 hA .s 1 (w 2) (w 3)),
    (0x05207010100C2000, .max2 hA .z 1 (w 2) (w 3)),
    (0x05307010100C0000, .add4 hA none 1 (w 2) (w 3)),
    (0x05507010100C0800, .dot4 hA .z .s 1 (w 2) (w 3) (w 4)),
    (0x05807010100C0800, .dot8 hA 1 (w 2) (w 3) (w 4)),
    (0x05E07010100C0800, .dot2 hA .s .z 1 (w 2) (w 3) (w 4))]

theorem test_decode_bits_2 : agree wordsBits2 = true := by decide

def wordsPairs64Uniform : List (BitVec 64 × Instr) := [
    (0x08007040142401C0, .add64 hA 2 ⟨.w 1, true⟩ (s64 9)),
    (0x0810704016FC0000, .sub64 hA 2 (w64 1) (c64 63)),
    (0x08207048100F8418, .lea64 hA 2 (s64 2) ⟨.w 3, .hs⟩ (c 66)),
    (0x0900705837200000, .sadd hA 5 (us64 6) (uc64 72)),
    (0x0910705837200000, .ssub hA 5 (us64 6) (uc64 72)),
    (0x0920705837200000, .smul hA 5 (us64 6) (uc64 72)),
    (0x0930705837200000, .sshl hA 5 (us64 6) (uc64 72)),
    (0x0950705837200000, .sand hA 5 (us64 6) (uc64 72)),
    (0x0960705837200000, .sor hA 5 (us64 6) (uc64 72)),
    (0x09A0705837200000, .sld hA 5 (us64 6) (uc64 72)),
    (0x0940705837202000, .sshr hA .s 5 (us64 6) (uc64 72)),
    (0x097073FA980001C0, .smov hA 63 ⟨.ident 19, true⟩)]

theorem test_decode_pairs64_uniform : agree wordsPairs64Uniform = true := by decide

def wordsPairs64Uniform2 : List (BitVec 64 × Instr) := [
    (0x898E7E00FFFFFFFE, .smovi none 63 0xFFFFFFFE),
    (0x0990702837202000, .scmp hA .ne 2 (us64 6) (uc64 72))]

theorem test_decode_pairs64_uniform_2 : agree wordsPairs64Uniform2 = true := by decide

def wordsFloat : List (BitVec 64 × Instr) := [
    (0x0C007010100C0000, .fadd hA .rne 1 (w 2) (w 3)),
    (0x0C107010100C0200, .fsub hA .rz 1 (w 2) (w 3)),
    (0x0C207010100C0600, .fmul hA .ru 1 (w 2) (w 3)),
    (0x0C607010100C0807, .ffma hA .rd 1 (w 2) (w 3) ⟨.w 4, .neg⟩),
    (0x0C807010100C0000, .fmin hA 1 (w 2) (w 3)),
    (0x0C907010100C0000, .fmax hA 1 (w 2) (w 3)),
    (0x0CA0701010000000, .fabs hA 1 (w 2)),
    (0x0CB07010100CC000, .fcmp hA .un 1 (w 2) (w 3)),
    (0x0CC07010100C0000, .fclass hA 1 (w 2) (w 3)),
    (0x0CD0701010000400, .frnd hA .rd 1 (w 2)),
    (0x0C00103008080000, .fadd ⟨0, .pred 1 false⟩ .rne 3 (w 1) (w 2))]

theorem test_decode_float : agree wordsFloat = true := by decide

def wordsPacked : List (BitVec 64 × Instr) := [
    (0x10007010100C0000, .hadd2 hA 1 (w 2) (w 3)),
    (0x10107010100C0000, .hmul2 hA 1 (w 2) (w 3)),
    (0x10407010100C0000, .badd2 hA 1 (w 2) (w 3)),
    (0x10507010100C0000, .bmul2 hA 1 (w 2) (w 3)),
    (0x10207010100C0800, .hfma2 hA 1 (w 2) (w 3) (w 4)),
    (0x10607010100C0800, .bfma2 hA 1 (w 2) (w 3) (w 4))]

theorem test_decode_packed : agree wordsPacked = true := by decide

def wordsConversion : List (BitVec 64 × Instr) := [
    (0x14307010100E0200, .cvt hA .e4m3 .f32 true .rz 1 (w 2) (some (w 3))),
    (0x14A0701010000600, .cvt hA .s32 .f32 false .ru 1 (w 2) none),
    (0x1500706010026000, .unpk hA .bf16e4m3 3 (w 2)),
    (0x1510706010020000, .qblk hA true 6 (w 2))]

theorem test_decode_conversion : agree wordsConversion = true := by decide

def wordsSpecial : List (BitVec 64 × Instr) := [
    (0x1800701010000000, .rcpSeed hA 1 (w 2)),
    (0x1810701010000000, .rsqSeed hA 1 (w 2)),
    (0x1820701010000000, .ex2 hA 1 (w 2)),
    (0x1830701010000000, .lg2 hA 1 (w 2)),
    (0x1840701010000000, .sin hA 1 (w 2)),
    (0x1850701010000000, .cos hA 1 (w 2))]

theorem test_decode_special : agree wordsSpecial = true := by decide

def wordsControl : List (BitVec 64 × Instr) := [
    (0x1C00000007FFFA00, .bra (.pred 0 false) (-3)),
    (0x1C107008F0000000, .jmp .always (s64 30)),
    (0x1C1070A020000200, .jmpLink .always 5 (w64 2)),
    (0x1C2070A000040400, .call .always 5 514),
    (0x1C30700050000000, .ret .always (w64 5)),
    (0x1C40700E20000A00, .loop .always (c 68) 5),
    (0x1C50700000000000, .lbrk .always),
    (0x1C60700000000000, .exit .always),
    (0x1C70E00000000000, .yield (.pred 6 true)),
    (0x1C807018173C0000, .nap .always 1 (s64 2) (c 79)),
    (0x1C90700000000000, .nop .always)]

theorem test_decode_control : agree wordsControl = true := by decide

def wordsCrossLane : List (BitVec 64 × Instr) := [
    (0x20007010100C2000, .shfl hA (.lanes .rot 1 (w 2) (w 3))),
    (0x20007010140E0000, .shfl hA (.pickU 1 (w 2) (us 3))),
    (0x20107010170C2000, .vote hA (.atm (uc 67)) 1 ⟨2, false⟩),
    (0x20207010500C2000, .ballot hA (.rank 1 (w 3)) ⟨2, true⟩),
    (0x2020701016FE4000, .ballot hA (.cntU 1 (uc 63)) ⟨2, false⟩),
    (0x2030701010032000, .redux hA .fmin (.s 1) (w 2)),
    (0x2040701010030000, .scan hA .fadd true 1 (w 2)),
    (0x2050701010024000, .matchLanes hA .rank 1 (.w64 (w64 1)))]

theorem test_decode_cross_lane : agree wordsCrossLane = true := by decide

def wordsLoadStore : List (BitVec 64 × Instr) := [
    (0x2440706810142000, .ld hA .w32 false 6 (s64 2) (w 5) 16),
    (0x24607080100E0000, .ld hA .w128 true 8 (w64 1) (w 3) 0),
    (0x24807010100CFE00, .st hA .b8 false 1 (w64 1) (w 3) 127),
    (0x25507020100E8000, .ldsp hA .w64 true 2 (w 2) (w 3) 64),
    (0x25C07048100C0200, .stsp hA .b128 false 4 (s 2) (w 3) 1),
    (0x26007080100D0A00, .ldf hA true 2 (w 2) (w 3) 5),
    (0x26107080100C0A00, .stf hA false 2 (w 2) (w 3) 5),
    (0x26207080780E0A00, .lda hA .w128 8 15 (w 3) 5),
    (0x26307010180C0E00, .sta hA .w32 1 3 (w 3) 7),
    (0x26407080180E0000, .ldc hA true 2 3 (w 3)),
    (0x26507080080C0000, .stc hA false 2 1 (w 3)),
    (0x26607008080D1000, .pf hA true (s64 1) (w 3) 8)]

theorem test_decode_load_store : agree wordsLoadStore = true := by decide

def wordsLoadStore2 : List (BitVec 64 × Instr) := [
    (0x24A0103830000000, .st ⟨0, .pred 1 false⟩ .b32 false 3 (s64 6) (w 0) 0),
    (0x2490001847000000, .st ⟨0, .pred 0 false⟩ .b16 false 1 (s64 8) (c 64) 0)]

theorem test_decode_load_store_2 : agree wordsLoadStore2 = true := by decide

def wordsAtomicBarrier : List (BitVec 64 × Instr) := [
    (0x28A0701010119000, .atom hA .cas .rlx .pkg 1 (w64 1) (.v32 (w 4))),
    (0x2990702018128000, .atoms hA .xchg .acq .team 2 (w 3) (.v64 (w64 2))),
    (0x2A20700010111800, .red hA .minS .rel .sys (w64 1) (.v32 (w 4))),
    (0x2B00700000005000, .fence .always .rel .pkg),
    (0x2B10000847080000, .cleanR ⟨0, .pred 0 false⟩ (s64 8) (c 66)),
    (0x2B20700847080000, .invalR hA (s64 8) (c 66)),
    (0x2B30700847080000, .flushR hA (s64 8) (c 66)),
    (0x2B80700048000000, .barArrive .always 9),
    (0x2B90700040000000, .barWait .always 8),
    (0x2BA0700018000000, .barSync .always 3),
    (0x2BB0700000000000, .barSwap .always),
    (0x2BC07000100C0000, .mbarInit hA (w 2) (w 3))]

theorem test_decode_atomic_barrier : agree wordsAtomicBarrier = true := by decide

def wordsAtomicBarrier2 : List (BitVec 64 × Instr) := [
    (0x2BD07010100C0000, .mbarArrive hA 1 (w 2) (w 3)),
    (0x2BE07000100C0000, .mbarExpect hA (w 2) (w 3)),
    (0x2BF07000100C0000, .mbarWait .always (w 2) (w 3))]

theorem test_decode_atomic_barrier_2 : agree wordsAtomicBarrier2 = true := by decide

def wordsMatrix : List (BitVec 64 × Instr) := [
    (0x2C00704844261400, .rsv hA 4 (us64 8) (us 9) (us 10)),
    (0x2C10700020000000, .unrsv hA 4),
    (0x2C20700018000000, .zacc hA 3),
    (0x2C30701020160C00, .mma hA 1 4 5 (us 6)),
    (0x2C40700018000000, .acq hA 3),
    (0x2C50700018000000, .rel hA 3)]

theorem test_decode_matrix : agree wordsMatrix = true := by decide

def wordsCopyQueue : List (BitVec 64 × Instr) := [
    (0x3020700014100000, .cpy hA .b16 (w64 1) (s64 4)),
    (0x3040707000000000, .cpyo hA 7),
    (0x3050700860000000, .cpyc hA (us 12)),
    (0x306070080C0A0600, .patch hA (us 1) (us 2) (us 3)),
    (0x3070700808000000, .go hA (us 1)),
    (0x3080700837800000, .rinit hA 0 (us 6) (uc 96)),
    (0x3090705018000000, .await .always 5 3),
    (0x30A070001C140000, .rels hA 3 (us 5)),
    (0x30B0710828000000, .deq .always 2 (s64 5)),
    (0x30C0710828000000, .enq hA (s64 5) 2)]

theorem test_decode_copy_queue : agree wordsCopyQueue = true := by decide

def wordsSearchService : List (BitVec 64 × Instr) := [
    (0x3400707827080000, .qsub hA 7 (us 4) (uc 66)),
    (0x3410700838000000, .qcancel hA (us 7)),
    (0x3480702847040000, .svc .always 2 (s64 8) (c 65)),
    (0x3490002847640000, .rcall (.pred 0 false) 2 (s64 8) (c 89)),
    (0x34A07028470C0000, .fqack .always 2 (s64 8) (c 67)),
    (0x34C0700E60000000, .rgrow .always (.imm 76)),
    (0x34D0700E10000000, .rshrink .always (.imm 66))]

theorem test_decode_search_service : agree wordsSearchService = true := by decide

def wordsSpecialRegister : List (BitVec 64 × Instr) := [
    (0x3800704000240000, .mfs .always 4 .tcause),
    (0x3800706000280000, .mfs .always 6 .tepc),
    (0x3810700020200000, .mts .always .tvec (.v64 (w64 2))),
    (0x3810700E18640000, .mts .always (.lc 1) (.v32 (c 67))),
    (0x3880700020000000, .trap .always (w 4)),
    (0x3890700000000000, .rett .always),
    (0x38A0700000000000, .tkill .always),
    (0x38B0700000000000, .ebrk .always),
    (0x38C0700000000000, .fencex .always)]

theorem test_decode_special_register : agree wordsSpecialRegister = true := by decide

def wordsLongImmediate : List (BitVec 64 × Instr) := [
    (0x8008130380000001, .addLongImmediate (some 4) 9 (.s 3) 0x80000001),
    (0x8018130380000001, .subLongImmediate (some 4) 9 (.s 3) 0x80000001),
    (0x8028130380000001, .mulLongImmediate (some 4) 9 (.s 3) 0x80000001),
    (0x8088130380000001, .minLongImmediate (some 4) 9 (.s 3) 0x80000001),
    (0x8098130380000001, .maxLongImmediate (some 4) 9 (.s 3) 0x80000001),
    (0x8408130380000001, .andLongImmediate (some 4) 9 (.s 3) 0x80000001),
    (0x8418130380000001, .orLongImmediate (some 4) 9 (.s 3) 0x80000001),
    (0x8428130380000001, .xorLongImmediate (some 4) 9 (.s 3) 0x80000001),
    (0x8438130380000001, .andnLongImmediate (some 4) 9 (.s 3) 0x80000001),
    (0x8C08130380000001, .faddLongImmediate (some 4) 9 (.s 3) 0x80000001),
    (0x8C18130380000001, .fsubLongImmediate (some 4) 9 (.s 3) 0x80000001),
    (0x8C28130380000001, .fmulLongImmediate (some 4) 9 (.s 3) 0x80000001)]

theorem test_decode_long_immediate : agree wordsLongImmediate = true := by decide

def wordsLongImmediate2 : List (BitVec 64 × Instr) := [
    (0x8C88130380000001, .fminLongImmediate (some 4) 9 (.s 3) 0x80000001),
    (0x8C98130380000001, .fmaxLongImmediate (some 4) 9 (.s 3) 0x80000001),
    (0x880E1006FFFFFFF7, .add64LongImmediate none 4 (.w 3) (-9)),
    (0x881E1006FFFFFFF7, .sub64LongImmediate none 4 (.w 3) (-9)),
    (0x882E1006FFFFFFF7, .lea64LongImmediate none 4 (.w 3) (-9)),
    (0x890E79030000004D, .saddLongImmediate none 60 (.s 3) 77),
    (0x891E79030000004D, .ssubLongImmediate none 60 (.s 3) 77),
    (0x892E79030000004D, .smulLongImmediate none 60 (.s 3) 77),
    (0x895E79030000004D, .sandLongImmediate none 60 (.s 3) 77),
    (0x896E79030000004D, .sorLongImmediate none 60 (.s 3) 77),
    (0x89AE79030000004D, .sldLongImmediate none 60 (.s 3) 77),
    (0xA45E100600001000, .ldLongImmediate none .w64 8 (.w 3) 4096)]

theorem test_decode_long_immediate_2 : agree wordsLongImmediate2 = true := by decide

def wordsLongImmediate3 : List (BitVec 64 × Instr) := [
    (0xA4AE120600001000, .stLongImmediate none .b32 9 (.w 3) 4096),
    (0xA51E12070000000C, .ldspLongImmediate none .s8 9 (.w 7) 12),
    (0xA5CE10070000000C, .stspLongImmediate none .b128 8 (.w 7) 12),
    (0xA66E01070000000C, .pfLongImmediate none (.s 7) 12),
    (0x9C000000FFFCF2C0, .braLongImmediate (some 0) (-200000)),
    (0x9C2E080000030D40, .callLongImmediate none 2 200000),
    (0x9C4E000500000100, .loopLongImmediate none (.w 5) 256)]

theorem test_decode_long_immediate_3 : agree wordsLongImmediate3 = true := by decide

def wordsPair : List (BitVec 64 × Instr) := [
    (0x4581206000410067, .pairAdd ⟨.p0, 4, .w 3, .neg⟩ (.reg .mov ⟨.always, 9, .w 6, .none⟩)),
    (0x4581206001410067, .pairSub ⟨.p0, 4, .w 3, .neg⟩ (.reg .mov ⟨.always, 9, .w 6, .none⟩)),
    (0x4581206002410067, .pairMul ⟨.p0, 4, .w 3, .neg⟩ (.reg .mov ⟨.always, 9, .w 6, .none⟩)),
    (0x4581206003410067, .pairAnd ⟨.p0, 4, .w 3, .neg⟩ (.reg .mov ⟨.always, 9, .w 6, .none⟩)),
    (0x4581206004410067, .pairOr ⟨.p0, 4, .w 3, .neg⟩ (.reg .mov ⟨.always, 9, .w 6, .none⟩)),
    (0x4581206005410067, .pairXor ⟨.p0, 4, .w 3, .neg⟩ (.reg .mov ⟨.always, 9, .w 6, .none⟩)),
    (0x4581206006410067, .pairAndn ⟨.p0, 4, .w 3, .neg⟩ (.reg .mov ⟨.always, 9, .w 6, .none⟩)),
    (0x4581206007410067, .pairMinS32 ⟨.p0, 4, .w 3, .neg⟩ (.reg .mov ⟨.always, 9, .w 6, .none⟩)),
    (0x4581206008410067, .pairMaxS32 ⟨.p0, 4, .w 3, .neg⟩ (.reg .mov ⟨.always, 9, .w 6, .none⟩)),
    (0x4581206009410067, .pairMinZ32 ⟨.p0, 4, .w 3, .neg⟩ (.reg .mov ⟨.always, 9, .w 6, .none⟩)),
    (0x458120600A410067, .pairMaxZ32 ⟨.p0, 4, .w 3, .neg⟩ (.reg .mov ⟨.always, 9, .w 6, .none⟩)),
    (0x458120600B410067, .pairMov ⟨.p0, 4, .w 3, .neg⟩ (.reg .mov ⟨.always, 9, .w 6, .none⟩))]

theorem test_decode_pair : agree wordsPair = true := by decide

def wordsPair2 : List (BitVec 64 × Instr) := [
    (0x458120600C410067, .pairAdd2 ⟨.p0, 4, .w 3, .neg⟩ (.reg .mov ⟨.always, 9, .w 6, .none⟩)),
    (0x458120600D410067, .pairSub2 ⟨.p0, 4, .w 3, .neg⟩ (.reg .mov ⟨.always, 9, .w 6, .none⟩)),
    (0x458120600E410067, .pairAdd4 ⟨.p0, 4, .w 3, .neg⟩ (.reg .mov ⟨.always, 9, .w 6, .none⟩)),
    (0x4581206010410067, .pairFadd ⟨.p0, 4, .w 3, .neg⟩ (.reg .mov ⟨.always, 9, .w 6, .none⟩)),
    (0x4581206011410067, .pairFsub ⟨.p0, 4, .w 3, .neg⟩ (.reg .mov ⟨.always, 9, .w 6, .none⟩)),
    (0x4581206012410067, .pairFmul ⟨.p0, 4, .w 3, .neg⟩ (.reg .mov ⟨.always, 9, .w 6, .none⟩)),
    (0x4581206013410067, .pairFmin ⟨.p0, 4, .w 3, .neg⟩ (.reg .mov ⟨.always, 9, .w 6, .none⟩)),
    (0x4581206014410067, .pairFmax ⟨.p0, 4, .w 3, .neg⟩ (.reg .mov ⟨.always, 9, .w 6, .none⟩)),
    (0x4581206018410067, .pairHadd2 ⟨.p0, 4, .w 3, .neg⟩ (.reg .mov ⟨.always, 9, .w 6, .none⟩)),
    (0x4581206019410067, .pairHmul2 ⟨.p0, 4, .w 3, .neg⟩ (.reg .mov ⟨.always, 9, .w 6, .none⟩)),
    (0x458120601A410067, .pairBadd2 ⟨.p0, 4, .w 3, .neg⟩ (.reg .mov ⟨.always, 9, .w 6, .none⟩)),
    (0x458120601B410067, .pairBmul2 ⟨.p0, 4, .w 3, .neg⟩ (.reg .mov ⟨.always, 9, .w 6, .none⟩))]

theorem test_decode_pair_2 : agree wordsPair2 = true := by decide

def wordsPair3 : List (BitVec 64 × Instr) := [
    (0x4581206040C1007F, .pairShl ⟨.notP0, 4, .w 3, 31⟩ (.reg .mov ⟨.always, 9, .w 6, .none⟩)),
    (0x4581206041C1007E, .pairShr ⟨.notP0, 4, .w 3, 30⟩ (.reg .mov ⟨.always, 9, .w 6, .none⟩)),
    (0x4581206042C1007D, .pairSra ⟨.notP0, 4, .w 3, 29⟩ (.reg .mov ⟨.always, 9, .w 6, .none⟩)),
    (0x4581206043C1007C, .pairRot ⟨.notP0, 4, .w 3, 28⟩ (.reg .mov ⟨.always, 9, .w 6, .none⟩)),
    (0x4581206044C1007B, .pairAddImmediate ⟨.notP0, 4, .w 3, 27⟩ (.reg .mov ⟨.always, 9, .w 6, .none⟩)),
    (0x4581206045C1007A, .pairSubImmediate ⟨.notP0, 4, .w 3, 26⟩ (.reg .mov ⟨.always, 9, .w 6, .none⟩))]

theorem test_decode_pair_3 : agree wordsPair3 = true := by decide

/-- The extension words of the general cores (R334, R394). -/
theorem test_decode_hart : decodeHart 0x00C5850B = .ok (.spawn 10 11 12) ∧ decodeHart 0x0005950B = .ok (.joinw 10 11) ∧
    decodeHart 0x0005A50B = .ok (.ecreate 10 11) ∧ decodeHart 0x0005B50B = .ok (.edestroy 10 11) ∧
    decodeHart 0x00C5C50B = .ok (.eattest 10 11 12) := by decide

theorem test_encode_hart : encode (.spawn 10 11 12) = some (.hart 0x00C5850B) ∧ encode (.joinw 10 11) = some (.hart 0x0005950B) ∧
    encode (.ecreate 10 11) = some (.hart 0x0005A50B) ∧ encode (.edestroy 10 11) = some (.hart 0x0005B50B) ∧
    encode (.eattest 10 11 12) = some (.hart 0x00C5C50B) := by decide

/-- The reserved form, a reserved opcode, a reserved operand code, a used B in a one-operand word, and a pair whose halves
read one bank twice (R81, R102, R104, R86, R99). -/
theorem test_decode_refused : decode 0xC000000000000000 = .illegalOpcode ∧ decode 0x3C00700000000000 = .illegalOpcode ∧
    decode 0x00A0701AA0000000 = .illegalForm ∧ decode 0x0480701010040000 = .illegalForm ∧
    decode 0x4001006000010060 = .illegalPair := by decide

end Sys2Proof.Tests
end

