-- ==== Sys2Proof/Tests/RuleWitnesses.lean ====
section
/-! SUPPORT. States and operands that meet all the conditions of the statements of Sys2Proof/Safety/Ends.lean and
Sys2Proof/Safety/Rules.lean, at boundary values of each of their clauses. -/
namespace Sys2Proof.Tests
open Machine
-- One declaration at a time: each more thread of the compiler takes a stack out of the same memory.
set_option Elab.async false
set_option maxRecDepth 20000

/-! ### Ends of threads, traps and handlers -/

theorem exit_issues : Issues st0 { guard := .always, reports := true } 0 [0] ∧ actingIn st0 .always [0] = [0] :=
  ⟨issuesB_sound (by decide), by decide⟩
theorem exit_idles : Issues st0 { guard := .pred 2 false, reports := true } 0 [0] ∧ actingIn st0 (.pred 2 false) [0] = [] :=
  ⟨issuesB_sound (by decide), by decide⟩

/-- Thread 0 is in handler state; its team is halted. -/
def stHandler : State :=
  { st0 with teams := [(0, { team0 with halted := true })], threads := [(0, { th0 with handler := true, trapped := true, tepc := 0x1234 })] }
theorem rett_issues : Issues stHandler { guard := .always } 0 [0] ∧ ∀ t ∈ actingIn stHandler .always [0], (getTh stHandler t).handler = true :=
  ⟨issuesB_sound (by decide), by decide⟩
theorem rett_traps : Issues st0 { guard := .always } 0 [0] ∧ ∃ t ∈ actingIn st0 .always [0], (getTh st0 t).handler = false :=
  ⟨issuesB_sound (by decide), 0, by decide, by decide⟩

/-- Counts of 0, of 33 groups of eight, and of 8·5 registers where the quota is 32. -/
theorem grow_traps : Issues st0 { guard := .always, reads := [], sreads := [] } 0 [0] ∧
    (srcRegs [Operand.src (.imm 64)] []) = ([], []) ∧
    (∃ t ∈ actingIn st0 .always [0], growBad st0 t (rd32 st0 t (Operand.src (.imm 64))) = true) ∧
    (∃ t ∈ actingIn st0 .always [0], growBad st0 t (rd32 st0 t (Operand.src (.imm (64 + 33)))) = true) ∧
    growBad { st0 with teams := [(0, { team0 with quota := 32 })] } 0 5 = true ∧
    growBad { st0 with teams := [(0, { team0 with quota := 40 })] } 0 5 = false :=
  ⟨issuesB_sound (by decide), by decide, ⟨0, by decide, by decide⟩, ⟨0, by decide, by decide⟩, by decide, by decide⟩
theorem trap_traps : ∃ traps, TrapWord (.trap .always (w 2)) st0 0 traps :=
  ⟨_, .trap .always (w 2) st0 0 [0] (issuesB_sound (by decide)) (by decide)⟩
theorem ebrk_traps : ∃ traps, TrapWord (.ebrk .always) st0 0 traps := ⟨_, .ebrk .always st0 0 [0] (issuesB_sound (by decide)) (by decide)⟩
theorem opcode_traps : ∃ traps, TrapWord (.illegalOpcode 0xFFF0000000000000) st0 0 traps :=
  ⟨_, .illegalOpcode _ st0 0 [0] (issuesB_sound (by decide))⟩
/-- A team with a handler and none of its threads in it halts; one without a handler ends. -/
theorem trap_halts : (getTeam st0 (teamOfWarp st0 0)).tvec ≠ 0 ∧ (getTh st0 0).handler = false := by decide
theorem trap_ends : (getTeam { st0 with teams := [(0, { team0 with tvec := 0 })] } 0).tvec = 0 := by decide

/-- Thread 0 of a halted team is on its way to the handler. -/
def stTrapped : State :=
  { st0 with
    turn := .idle, teams := [(0, { team0 with halted := true })]
    threads := [(0, { th0 with trapPend := some ⟨0x0B, 0, false, false, 0x1000, 0, none⟩ })] }
theorem handler_enters : (getTeam stTrapped (0 * 4 + 0)).halted = true ∧
    (∃ t ∈ teamThreads stTrapped (0 * 4 + 0), (getTh stTrapped t).trapPend.isSome = true) ∧
    (∀ t ∈ teamThreads stTrapped (0 * 4 + 0), settled (getTh stTrapped t) = true) ∧ (getTeam stTrapped (0 * 4 + 0)).matPend = [] := by
  refine ⟨by decide, ⟨0, by decide, by decide⟩, by decide, by decide⟩
/-- A pre-emption of the halted team's warp arrived during the halt. -/
def stTrappedHeld : State := { stTrapped with teams := [(0, { team0 with halted := true, runHeld := [(0, false)] })] }
theorem handler_preempted : (getTeam stTrappedHeld (0 * 4 + 0)).halted = true ∧
    (∃ t ∈ teamThreads stTrappedHeld (0 * 4 + 0), (getTh stTrappedHeld t).trapPend.isSome = true) ∧
    (∀ t ∈ teamThreads stTrappedHeld (0 * 4 + 0), settled (getTh stTrappedHeld t) = true) ∧
    (getTeam stTrappedHeld (0 * 4 + 0)).matPend = [] ∧ smFind? (getTeam stTrappedHeld (0 * 4 + 0)).runHeld.reverse 0 = some false ∧
    bindRun (getWarp stTrappedHeld 0).bind = true := by
  refine ⟨by decide, ⟨0, by decide, by decide⟩, by decide, by decide, by decide, by decide⟩

def stResumes : State :=
  { st0 with turn := .idle, teams := [(0, { team0 with halted := true })], threads := [(0, { th0 with trapped := true, returned := true })] }
theorem team_resumes : (getTeam stResumes 0).halted = true ∧ (getTeam stResumes 0).live = true ∧ (getTeam stResumes 0).ended = false ∧
    (∀ t ∈ teamThreads stResumes 0, (getTh stResumes t).handler = false ∧ (getTh stResumes t).trapPend = none) ∧
    0 ∈ teamThreads stResumes 0 ∧ (getTh stResumes 0).exited = false ∧ (getTh stResumes 0).wait = none ∧
    (∀ o ∈ (getTh stResumes 0).mq, o.st ≠ .page ∧ o.st ≠ .blocked) ∧ teamOf stResumes 0 = 0 ∧
    bindV (getWarp stResumes (warpOf 0)).bind = true ∧ bindRun (getWarp stResumes (warpOf 0)).bind = true := by decide

/-! ### Decode traps -/

theorem chosen_of {s : State} {w : Nat} {l : List Nat} (h : issuedSet s = some (w, l)) (hw : ∀ t ∈ l, windowsOpen (getTh s t) = true)
    (hm : matOpen s w l = true) : Chosen s w l := ⟨h, hw, hm⟩

def stUser : State := { st0 with teams := [(0, { team0 with priv := 0 })] }
theorem privilege_traps : Chosen stUser 0 [0] ∧ (getTeam stUser (teamOfWarp stUser 0)).priv = 0 :=
  ⟨chosen_of (by decide) (by decide) (by decide), by decide⟩
theorem privileged_words : (wordRow (.rcall .always 1 (w64 5) (w 12))).isSome = true ∧
    (wordRow (.fqack .always 1 (w64 5) (c 65))).isSome = true := by decide

/-- A thread of eight registers that names w8: the first register it does not have. -/
def stSmall : State := { st0 with threads := [(0, { th0 with nregs := 8 })] }
theorem quota_traps : ∃ r, wordRow (.add hA none 8 (w 2) (w 3)) = some r ∧ Chosen stSmall 0 [0] ∧ (r.info stSmall).privileged = false ∧
    (∃ t ∈ [0], reaches stSmall (r.info stSmall) t = true) ∧
    ∃ r', wordRow (.add hA none 7 (w 2) (w 3)) = some r' ∧ reaches stSmall (r'.info stSmall) 0 = false :=
  ⟨_, rfl, chosen_of (by decide) (by decide) (by decide), by decide, ⟨0, by decide, by decide⟩, _, rfl, by decide⟩

/-- Two live threads: only one issues; both issue and their guards disagree. -/
def stTwo (m : Nat) (p : BitVec 7) : State :=
  { st0 with turn := .warp 0 0 m, threads := [(0, th0), (1, { th0 with preds := p })] }
theorem uniform_traps_apart : ∃ r, wordRow (.smov hA 5 (us64 6)) = some r ∧ Chosen (stTwo 1 0x13) 0 [0] ∧
    (r.info (stTwo 1 0x13)).privileged = false ∧ (∀ t ∈ [0], reaches (stTwo 1 0x13) (r.info (stTwo 1 0x13)) t = false) ∧
    (r.info (stTwo 1 0x13)).uniform = true ∧ [0] ≠ liveThreads (stTwo 1 0x13) 0 :=
  ⟨_, rfl, chosen_of (by decide) (by decide) (by decide), by decide, by decide, by decide, by decide⟩
theorem uniform_traps_guard : ∃ r, wordRow (.smov ⟨0, .pred 0 false⟩ 5 (us64 6)) = some r ∧ Chosen (stTwo 3 0) 0 [0, 1] ∧
    (∀ t ∈ [0, 1], reaches (stTwo 3 0) (r.info (stTwo 3 0)) t = false) ∧ (r.info (stTwo 3 0)).uniform = true ∧
    actingIn (stTwo 3 0) (r.info (stTwo 3 0)).guard [0, 1] ≠ [] ∧ actingIn (stTwo 3 0) (r.info (stTwo 3 0)).guard [0, 1] ≠ [0, 1] :=
  ⟨_, rfl, chosen_of (by decide) (by decide) (by decide), by decide, by decide, by decide, by decide⟩

/-! ### Steps -/

/-- Thread 0 in a held loop whose body is the word at 0x1000, which the entry has fetched. -/
def stHeld (x : W64) : State :=
  { st0 with
    threads := [(0, { th0 with lc0 := 2 })], warps := [(0, { warp0 with loops := [(0, ⟨some (0x1000, 0x1000), [(0x1000, x)]⟩)] })] }
theorem steps_from {s : State} (h : s.rowan.recordAt = none) : StepsFrom s s := by
  unfold StepsFrom
  rw [if_neg]
  rintro ⟨a, _⟩
  rw [h] at a
  cases a
theorem steps_from_held (x : W64) : StepsFrom (stHeld x) (stHeld x) := steps_from rfl
/-- A usage record was emitted at this time: the step begins 1 ns later. -/
def stRecord : State := { stHeld 0x1C90700000000000 with rowan := { State.reset.rowan with recordAt := some 0 } }
theorem steps_from_record : StepsFrom stRecord (passTime stRecord 1) := by
  unfold StepsFrom
  rw [if_pos (by decide)]
theorem fetches_held : issuedSet (stHeld 0x1C90700000000000) = some (0, [0]) ∧
    (∀ t ∈ [0], (getTh (stHeld 0x1C90700000000000) t).denied = false) ∧
    Fetches (stHeld 0x1C90700000000000) 0 [0] (stHeld 0x1C90700000000000) 0x1C90700000000000 :=
  ⟨by decide, by decide, .held _ (by decide)⟩

/-- VA 0x1000 maps to PA 0x200000, which holds a word. -/
def stPage (x : Nat) : State :=
  writeNat { st0 with
    cores := [(0, { core0 with tlb := [page 1 0x200000 1] })], stamps := [(0x200, Stamp.tagged 1 0)]
    pot := [(0x200, mkPot 1 1 0 0)], encls := [(1, encl1)] } 0x200000 8 x
theorem fetches_page : ∃ s1, issuedSet (stPage 0x1C90700000000000) = some (0, [0]) ∧
    (∀ t ∈ [0], (getTh (stPage 0x1C90700000000000) t).denied = false) ∧
    Fetches (stPage 0x1C90700000000000) 0 [0] s1 0x1C90700000000000 ∧ decode 0x1C90700000000000 = .ok (.nop .always) :=
  ⟨_, by decide, by decide, .page (page 1 0x200000 1) 0x200000 (by decide) (by decide) (by decide) (by decide) (by decide), by decide⟩
theorem steps_from_page (x : Nat) : StepsFrom (stPage x) (stPage x) := steps_from rfl
theorem words_that_are_none : decode 0x0120000000000000 = .illegalOpcode ∧ decode (movWord 340) = .illegalForm ∧
    decode 0x4000000000000000 = .illegalPair := by decide

/-- Hart 0 at 0x4000, whose page in the window holds a word. -/
def stHartWord (x : Nat) : State :=
  writeNat { stE with turn := .hart 0, harts := [(0, { encl := 1, x := [], pc := 0x4000 })] } 0x80020000000 8 x
def stHartAt (x : Nat) : State := (hartTrans (stHartWord x) 0 0x4000 .x).1
/-- What the step of a general core needs, whose word decodes to `i`. -/
def HartSteps (x : Nat) (i : DecodedHart) : Prop :=
  ∃ s1 s2 e pa, StepsFrom (stHartWord x) (stHartWord x) ∧ (stHartWord x).turn = .hart 0 ∧ hartReady (stHartWord x) 0 = true ∧
    hartTrans (stHartWord x) 0 (getHart (stHartWord x) 0).pc.toNat .x = (s1, .ok e, pa) ∧ paOk pa = true ∧
    (inWindow pa = true → windowBacked s1 pa = true) ∧ dataBad s1 pa 4 e.key e.ver = false ∧
    s2 = meterLines (ioTouch s1 pa 4 false) pa 4 ∧ decodeHart (BitVec.ofNat 32 (natOfBytes (readBytes s2 pa 4))) = i
/-- The word stands at PA 0x8002_0000_0000, in the window. -/
theorem hart_steps {x : Nat} {i : DecodedHart}
    (ht : hartTrans (stHartWord x) 0 0x4000 .x = (stHartAt x, .ok (page 4 0x80020000000 1), 0x80020000000))
    (hk : (hartReady (stHartWord x) 0 && windowBacked (stHartAt x) 0x80020000000 && !dataBad (stHartAt x) 0x80020000000 4 1 0 &&
      unmetered (ioTouch (stHartAt x) 0x80020000000 4 false) 0x80020000000 128) = true)
    (hd : decodeHart (BitVec.ofNat 32 (natOfBytes (readBytes (ioTouch (stHartAt x) 0x80020000000 4 false) 0x80020000000 4))) = i) :
    HartSteps x i := by
  simp only [Bool.and_eq_true, Bool.not_eq_true'] at hk
  exact ⟨_, _, _, _, steps_from rfl, rfl, hk.1.1.1, ht, by decide, fun _ => hk.1.1.2, hk.1.2, (meterLines_quiet hk.2).symm, hd⟩
theorem fetches_hart : HartSteps 0x00C5850B (.ok (.spawn 10 11 12)) := hart_steps (by decide) (by decide) (by decide)
theorem fetches_hart_illegal : HartSteps 0x0000700B .illegal := hart_steps (by decide) (by decide) (by decide)

theorem idle_input : ({ State.reset with inbox := [.coldReset] } : State).turn = .idle := rfl
theorem idle_due (c : Nat) : ({ State.reset with clock := c } : State).turn = .idle ∧ ({ State.reset with clock := c } : State).inbox = [] :=
  ⟨rfl, rfl⟩
theorem due_refill : dueEvent { State.reset with clock := 10000 } = some .refill := by decide
theorem due_slice : dueEvent { State.reset with clock := 100000, refills := 10 } = some .slice := by decide
theorem due_usage : dueEvent { State.reset with clock := 1000000000, refills := 100000, slices := 10000, parts := [(1, { live := true })] }
    = some (.usage 1) := by decide
/-- States in which each of the other kinds is due. -/
theorem due_launched : dueEvent { State.reset with clock := 5, boot := { State.reset.boot with hazelHalted := true, haltEnd := 5 } } =
    some .launched := by decide
theorem due_nap : dueEvent { st0 with threads := [(0, { th0 with wait := some (.nap 0 0 0 1) })] } = some (.nap 0) := by decide
theorem due_deq : dueEvent { stE with threads := [(0, { th0 with wait := some (.deq 0x4000 0 0) })], hwSlots := [0x80020000000] } = some (.deq 0) := by decide
theorem due_host : dueEvent { State.reset with host := { State.reset.host with heldAcc := [⟨2, none, true, 0x200000, 8, none, .aperture⟩] } } =
    some .host := by decide
theorem due_evict : dueEvent { stE with host := { stE.host with mscfg := [] }, stale := [(0x4000, {})] } = some (.evict 0x4000) := by decide
theorem fair_turn : (fairEvent st0 1).isSome = true ∧ (fairEvent st0 3).isSome = true ∧ (fairEvent st0 5).isSome = true ∧
    (fairEvent st0 7).isSome = true ∧ (fairEvent st0 9).isSome = true ∧ (fairEvent st0 11).isSome = true ∧
    fairEvent st0 2 = none := by refine ⟨rfl, rfl, rfl, rfl, rfl, rfl, rfl⟩
/-- A thread that becomes ready, and a warp that gains its first ready thread. -/
theorem readiness_gained : threadReady st0 0 = true ∧ threadReady State.reset 0 = false ∧ readyThreads State.reset 0 = [] ∧
    readyThreads st0 0 ≠ [] := by decide
theorem due_reset : dueEvent { State.reset with host := { State.reset.host with flr := [1] } } = some (.reset 1) := by decide
/-- An effect that a home has held back, and one that it has not. -/
theorem held_or_not : ({ st0 with held := true } : State).held = true ∧ st0.held = false := ⟨rfl, rfl⟩
/-- What falls due as time passes, and a step that ends before anything does. -/
theorem idle_free : StepsFrom State.reset State.reset ∧ State.reset.turn = .idle ∧ State.reset.inbox = [] ∧ dueEvent State.reset = none :=
  ⟨steps_from rfl, rfl, rfl, by decide⟩
theorem due_none : dueEvent { State.reset with clock := 9999 } = none := by decide

/-! ### Translation and ownership -/

theorem walk_allowed : ∃ e, walk stE 1 0x6000 .w = .ok e := ⟨_, by rfl⟩
/-- A kick page of enclave 1 (MT 0b01, PFN 1), mapped at 0x7000. -/
def stKickPage : State := puts stE [(0x14038, 0x040000000000100F)]
theorem walk_kick : (match walk stKickPage 1 0x7000 .r with | .ok e => e.mt | _ => 0) = 1 := by rfl
theorem versions_rise : ∃ s, potVer (potEntry s 5) = 255 ∧ potVer (potEntry (potChange s 5 7 1) 5) = 0 :=
  ⟨{ State.reset with pot := [(5, mkPot 1 0 255 0)] }, by decide, by decide⟩
theorem versions_stay : ∃ s, potVer (potEntry s 5) = 255 ∧ potVer (potEntry (potChange s 5 1 3) 5) = 255 :=
  ⟨{ State.reset with pot := [(5, mkPot 1 1 255 0)] }, by decide, by decide⟩

/-! ### What words leave -/

def outState : Out → State
  | .next s => s
  | _ => State.reset
def outNext : Out → Bool
  | .next _ => true
  | _ => false
theorem next_of {x : Out} (h : outNext x = true) : x = .next (outState x) := by cases x <;> first | rfl | cases h
theorem word_goes : Instr.isNimia (.add hA none 1 (w 2) (w 3)) ∧ ∃ s', exec (.add hA none 1 (w 2) (w 3)) st0 = .next s' :=
  ⟨⟨_, rfl⟩, _, next_of (by decide)⟩
theorem clock_goes : Instr.nop .always ≠ .coldReset ∧ ∃ s', exec (.nop .always) st0 = .next s' := ⟨nofun, _, next_of (by decide)⟩
theorem step_goes : State.Inv (stHeld 0x1C90700000000000) ∧ ∃ s', step (stHeld 0x1C90700000000000) = .next s' :=
  ⟨by unfold State.Inv; decide, _, next_of (by decide)⟩

/-! ### Results: the boundary values of each clause -/

/-- Registers 2, 3 and 4 of thread 0 hold these. -/
def stRegs (a b x : Nat) : State :=
  { st0 with threads := [(0, { th0 with regs := [(2, BitVec.ofNat 32 a), (3, BitVec.ofNat 32 b), (4, BitVec.ofNat 32 x)] })] }
theorem issues_overflow : Issues32 (stRegs 0x7FFFFFFF 1 0) hA 1 [w 2, w 3] 0 [0] := issuesB_sound (by decide)
theorem issues_below : Issues32 (stRegs 0 1 0) hA 1 [w 2, w 3] 0 [0] := issuesB_sound (by decide)
theorem issues_zero_divisor : Issues32 (stRegs 7 0 0) hA 1 [w 2, w 3] 0 [0] := issuesB_sound (by decide)
theorem issues_least : Issues32 (stRegs 0x80000000 0xFFFFFFFF 0) hA 1 [w 2, w 3] 0 [0] := issuesB_sound (by decide)
theorem issues_field_end : Issues32 (stRegs 0xF0000001 0x3C 9) hA 1 [w 2, w 3, w 4] 0 [0] := issuesB_sound (by decide)
theorem issues_absolute : Issues32 (stRegs 0x80000000 0 0) hA 1 [w 2] 0 [0] := issuesB_sound (by decide)
theorem flags_here : FlagsHere (stRegs 0x7FFFFFFF 1 0) 0 ∧ FlagsHere (stRegs 0 1 0) 0 ∧ FlagsHere (stRegs 7 0 0) 0 ∧
    FlagsHere (stRegs 0x80000000 0xFFFFFFFF 0) 0 ∧ FlagsHere (stRegs 0x80000000 0 0) 0 := ⟨rfl, rfl, rfl, rfl, rfl⟩
theorem issues_insert : Issues (stRegs 5 29 8)
    { guard := hA.guard, reads := (1 : WReg).toNat :: (srcRegs [w 2, w 3, w 4] []).1, sreads := (srcRegs [w 2, w 3, w 4] []).2
      writes := [(1 : WReg).toNat] } 0 [0] := issuesB_sound (by decide)

/-- Register 1 after a word in which thread 0 acts, and the warp's flags. -/
def d1 (i : Instr) (s : State) : Nat × Nat := ((rdW (getTh (outState (exec i s)) 0) 1).toNat, (getWarp (outState (exec i s)) 0).flags.toNat)

/-- R134: the clamps of both types at their ends, and a sum that needs none. -/
theorem sum_clamps : d1 (.add hA (some .s) 1 (w 2) (w 3)) (stRegs 0x7FFFFFFF 1 0) = (0x7FFFFFFF, 1) ∧
    d1 (.add hA (some .s) 1 (w 2) (w 3)) (stRegs 0x7FFFFFFE 1 0) = (0x7FFFFFFF, 0) ∧
    d1 (.sub hA (some .s) 1 (w 2) (w 3)) (stRegs 0x80000000 1 0) = (0x80000000, 1) ∧
    d1 (.sub hA (some .z) 1 (w 2) (w 3)) (stRegs 0 1 0) = (0, 1) ∧
    d1 (.add hA (some .z) 1 (w 2) (w 3)) (stRegs 0xFFFFFFFF 1 0) = (0xFFFFFFFF, 1) := by decide
/-- R135: a divisor of 0, −2^31 by −1, and a quotient truncated toward zero. -/
theorem quotient_corners : d1 (.div hA .s 1 (w 2) (w 3)) (stRegs 7 0 0) = (0xFFFFFFFF, 4) ∧
    d1 (.rem hA .s 1 (w 2) (w 3)) (stRegs 7 0 0) = (7, 4) ∧
    d1 (.div hA .s 1 (w 2) (w 3)) (stRegs 0x80000000 0xFFFFFFFF 0) = (0x80000000, 0) ∧
    d1 (.rem hA .s 1 (w 2) (w 3)) (stRegs 0x80000000 0xFFFFFFFF 0) = (0, 0) ∧
    d1 (.div hA .s 1 (w 2) (w 3)) (stRegs 0xFFFFFFF9 2 0) = (0xFFFFFFFD, 0) ∧
    d1 (.rem hA .s 1 (w 2) (w 3)) (stRegs 0xFFFFFFF9 2 0) = (0xFFFFFFFF, 0) := by decide
/-- R136. -/
theorem absolute_corners : d1 (.abs hA true 1 (w 2)) (stRegs 0x80000000 0 0) = (0x7FFFFFFF, 1) ∧
    d1 (.abs hA false 1 (w 2)) (stRegs 0x80000000 0 0) = (0x80000000, 0) ∧
    d1 (.abs hA true 1 (w 2)) (stRegs 0x80000001 0 0) = (0x7FFFFFFF, 0) := by decide
/-- R141: a field that ends at bit 31, one cut there, and an empty one. -/
theorem field_corners : d1 (.bfx hA 1 (w 2) (w 3) (w 4)) (stRegs 0xF0000001 28 4) = (0xF, 0) ∧
    d1 (.bfx hA 1 (w 2) (w 3) (w 4)) (stRegs 0xF0000001 60 9) = (0xF, 0) ∧
    d1 (.bfx hA 1 (w 2) (w 3) (w 4)) (stRegs 0xFFFFFFFF 0 0) = (0, 0) ∧
    d1 (.bfi hA 1 (w 2) (w 3) (w 4)) (stRegs 5 29 8) = (0xA0000000, 0) ∧
    d1 (.bfi hA 1 (w 2) (w 3) (w 4)) (stRegs 5 0 0) = (0, 0) := by decide
/-- R343: −0 is below +0, equal distances go by id, and an infinity is above every finite value. -/
theorem key_corners : keyLt ⟨0x80000000, 9⟩ ⟨0, 3⟩ = true ∧ keyLt ⟨0x3F800000, 3⟩ ⟨0x3F800000, 4⟩ = true ∧
    keyLt ⟨0x7F7FFFFF, 9⟩ ⟨0x7F800000, 3⟩ = true ∧ keyLt ⟨0xFF800000, 9⟩ ⟨0xFF7FFFFF, 3⟩ = true ∧ ¬ f32Nan 0x7F800000 := by
  unfold f32Nan; decide

/-! ### Encoding -/

/-- A legal pair, and one whose reads meet in a bank (w3 and w7), and one that writes w4 twice. -/
def pairOf (a : WReg) (d : WReg) : Instr := .pairAdd ⟨.p0, 4, .w 3, .neg⟩ (.reg .mov ⟨.always, d, .w a, .none⟩)
theorem pair_words : (∃ x h0 h1, pairHalves (pairOf 6 9) = some (h0, h1) ∧ encode (pairOf 6 9) = some (.nimia x) ∧
      (halfRegs h0 ++ halfRegs h1).Pairwise (fun m n => m % 4 ≠ n % 4) ∧ halfDst h0 ≠ halfDst h1) ∧
    (∃ x h0 h1, pairHalves (pairOf 7 9) = some (h0, h1) ∧ encode (pairOf 7 9) = some (.nimia x) ∧
      ¬ (halfRegs h0 ++ halfRegs h1).Pairwise (fun m n => m % 4 ≠ n % 4)) ∧
    (∃ x h0 h1, pairHalves (pairOf 6 4) = some (h0, h1) ∧ encode (pairOf 6 4) = some (.nimia x) ∧ ¬ halfDst h0 ≠ halfDst h1) := by
  refine ⟨⟨_, _, _, rfl, rfl, by decide, by decide⟩, ⟨_, _, _, rfl, rfl, by decide⟩, _, _, _, rfl, rfl, by decide⟩
theorem encoded : (Instr.add hA none 1 (w 2) (w 3)).wf = true ∧ ∃ x, encode (.add hA none 1 (w 2) (w 3)) = some x := ⟨by decide, _, rfl⟩
theorem decoded : ∃ i, decode 0x00007010100C0000 = .ok i := ⟨_, rfl⟩
theorem decoded_hart : ∃ i, decodeHart 0x00C5850B = .ok i := ⟨_, rfl⟩

end Sys2Proof.Tests
end

