-- ==== Sys2Proof/Tests/WordWitnesses.lean ====
section
/-! SUPPORT. For every table of words, states and operands that meet all the conditions of its statement together, for each
of its constructors. -/
namespace Sys2Proof.Tests
open Machine
-- One declaration at a time: each more thread of the compiler takes a stack out of the same memory.
set_option Elab.async false

/-! ### The words whose rows have no condition of their own: they issue in `st0` and act -/

theorem words_issue_integer : (wordsInteger.all fun x => rowIssues integerRow x.2 && (integerRow x.2).isSome) = true := by decide
theorem words_issue_integer_2 : (wordsInteger2.all fun x => rowIssues wordRow x.2 && (wordRow x.2).isSome) = true := by decide
theorem words_issue_bits : (wordsBits.all fun x => rowIssues bitRow x.2 && (bitRow x.2).isSome) = true := by decide
theorem words_issue_bits_2 : (wordsBits2.all fun x => rowIssues wordRow x.2 && (wordRow x.2).isSome) = true := by decide
theorem words_issue_uniform : (wordsPairs64Uniform.all fun x => rowIssues wordRow x.2 && (wordRow x.2).isSome) = true := by decide
theorem words_issue_uniform_2 : (wordsPairs64Uniform2.all fun x => rowIssues wordRow x.2 && (wordRow x.2).isSome) = true := by decide
theorem words_issue_float : (wordsFloat.all fun x => rowIssues wordRow x.2 && (wordRow x.2).isSome) = true := by decide
theorem words_issue_packed : (wordsPacked.all fun x => rowIssues floatRow x.2 && (floatRow x.2).isSome) = true := by decide
theorem words_issue_conversion : (wordsConversion.all fun x => rowIssues wordRow x.2 && (wordRow x.2).isSome) = true := by decide
theorem words_issue_special : (wordsSpecial.all fun x => rowIssues convertRow x.2 && (convertRow x.2).isSome) = true := by decide
theorem words_issue_cross_lane : (wordsCrossLane.all fun x => rowIssues crossRow x.2 && (crossRow x.2).isSome) = true := by decide
theorem words_issue_load_store : (wordsLoadStore.all fun x => rowIssues wordRow x.2 && (wordRow x.2).isSome) = true := by decide
theorem words_issue_load_store_2 : (wordsLoadStore2.all fun x => rowIssues wordRow x.2 && (wordRow x.2).isSome) = true := by decide
theorem words_issue_atomic : (wordsAtomicBarrier.all fun x => rowIssues wordRow x.2 && (wordRow x.2).isSome) = true := by decide
theorem words_issue_long : (wordsLongImmediate.all fun x => rowIssues wordRow x.2 && (wordRow x.2).isSome) = true := by decide
theorem words_issue_long_2 : (wordsLongImmediate2.all fun x => rowIssues wordRow x.2 && (wordRow x.2).isSome) = true := by decide
theorem words_issue_long_3 : (wordsLongImmediate3.all fun x => rowIssues wordRow x.2 && (wordRow x.2).isSome) = true := by decide
theorem words_issue_pair : (wordsPair.all fun x => rowIssues pairWordRow x.2 && (pairWordRow x.2).isSome) = true := by decide
theorem words_issue_pair_2 : (wordsPair2.all fun x => rowIssues pairWordRow x.2 && (pairWordRow x.2).isSome) = true := by decide
theorem words_issue_pair_3 : (wordsPair3.all fun x => rowIssues pairWordRow x.2 && (pairWordRow x.2).isSome) = true := by decide
theorem words_issue_registers : (wordsSpecialRegister.all fun x => rowIssues wordRow x.2) = true := by decide
theorem words_issue_control : (wordsControl.all fun x => rowIssues wordRow x.2) = true := by decide

/-! ### Control words with conditions of their own -/

/-- Thread 0 in a bound loop of level 0 with two iterations left. -/
def stLoop : State :=
  { st0 with
    threads := [(0, { th0 with lc0 := 2 })]
    warps := [(0, { warp0 with loops := [(0, ⟨some (0x0FF8, 0x1000), []⟩)] })] }

theorem ready_loop : Ready controlRow (.loop .always (w 2) 3) st0 := ready_of rfl (by decide) (by decide) (by dsimp only [rowLoop]; decide)
theorem ready_loop_long : Ready controlRow (.loopLongImmediate none (.w 2) 3) st0 :=
  ready_of rfl (by decide) (by decide) (by dsimp only [rowLoop]; decide)
theorem ready_lbrk : Ready controlRow (.lbrk .always) stLoop := ready_of rfl (by decide) (by decide) (by dsimp only; decide)
theorem ready_fence : Ready accessRow (.fence .always .sc .sys) st0 := ready_of rfl (by decide) (by decide) (by dsimp only; decide)

/-! ### Buffers and the matrix unit -/

/-- `stE` with tile 0's token in THREADS. -/
def stThreads : State := { stE with cores := [(0, { coreE with tiles := [(0, ⟨0, false, false⟩)] })] }

theorem ready_lda : Ready bufferRow (.lda hA .w32 1 0 (c 64) 0) stE := ready_of rfl (by decide) (by decide) (by dsimp only; decide)
theorem ready_sta : Ready bufferRow (.sta hA .w32 1 0 (c 64) 4) stE := ready_of rfl (by decide) (by decide) (by dsimp only; decide)
theorem ready_ldc : Ready bufferRow (.ldc hA false 1 0 (c 65)) stThreads := ready_of rfl (by decide) (by decide) (by dsimp only; decide)
theorem ready_stc : Ready bufferRow (.stc hA true 1 0 (c 65)) stThreads := ready_of rfl (by decide) (by decide) (by dsimp only; decide)
theorem ready_rsv : Ready matrixRow (.rsv hA 3 (us64 6) (us 7) (uc 64)) stE :=
  ready_of rfl (by decide) (by decide) (by dsimp only [rowMat]; decide)
theorem ready_unrsv : Ready matrixRow (.unrsv hA 1) stE := ready_of rfl (by decide) (by decide) (by dsimp only [rowMat]; decide)
theorem ready_acq : Ready matrixRow (.acq hA 0) stE := ready_of rfl (by decide) (by decide) (by dsimp only [rowMat]; decide)
theorem ready_rel : Ready matrixRow (.rel hA 0) stThreads := ready_of rfl (by decide) (by decide) (by dsimp only [rowMat]; decide)
theorem ready_zacc : Ready matrixRow (.zacc hA 0) stE := ready_of rfl (by decide) (by decide) (by dsimp only [rowMat]; decide)
theorem ready_mma : Ready matrixRow (.mma hA 0 0 1 (uc 64)) stE := ready_of rfl (by decide) (by decide) (by dsimp only [rowMat]; decide)

/-! ### Cards and rings -/

theorem ready_cpy : Ready copyRow (.cpy hA .b4 (s64 10) (w64 5)) stE :=
  ready_of rfl (by decide) (by decide) (by dsimp only; exact ⟨by decide, by decide, by decide, by decide, by decide⟩)
theorem ready_cpyo : Ready copyRow (.cpyo hA 8) stE := ready_of rfl (by decide) (by decide) (by dsimp only; decide)
theorem ready_cpyc : Ready copyRow (.cpyc hA (us 5)) stE :=
  ready_of rfl (by decide) (by decide)
    (by dsimp only; exact ⟨by decide, by decide, by decide, by decide, _, rfl, by decide, by decide, by decide⟩)
theorem ready_patch : Ready copyRow (.patch hA (us 3) (uc 64) (us 4)) stE :=
  ready_of rfl (by decide) (by decide) (by dsimp only; exact ⟨_, rfl, by decide⟩)
theorem ready_go : Ready copyRow (.go hA (us 3)) stE := ready_of rfl (by decide) (by decide) (by dsimp only; decide)
theorem ready_rinit : Ready copyRow (.rinit hA 1 (us 9) (uc 96)) stE := ready_of rfl (by decide) (by decide) (by dsimp only; decide)
theorem ready_await : Ready copyRow (.await .always 8 0) stE := ready_of rfl (by decide) (by decide) (by dsimp only; decide)
theorem ready_rels : Ready copyRow (.rels hA 0 (us 9)) stE := ready_of rfl (by decide) (by decide) (by dsimp only; decide)

/-! ### Queues, calls and search packets -/

set_option maxRecDepth 20000 in
theorem ready_deq : Ready queueRow (.deq .always 3 (w64 1)) stE :=
  ready_of rfl (by decide) (by decide) (by dsimp only; decide)
set_option maxRecDepth 20000 in
theorem ready_enq : Ready queueRow (.enq hA (w64 1) 3) stE :=
  ready_of rfl (by decide) (by decide) trivial
set_option maxRecDepth 20000 in
theorem ready_svc : Ready queueRow (.svc .always 1 (w64 5) (c 64)) stE := ready_of rfl (by decide) (by decide) (by dsimp only; decide)
theorem ready_rcall : Ready queueRow (.rcall .always 1 (w64 5) (w 12)) stE := ready_of rfl (by decide) (by decide) (by dsimp only; decide)
theorem ready_fqack : Ready queueRow (.fqack .always 1 (w64 5) (c 65)) stE := ready_of rfl (by decide) (by decide) (by dsimp only; decide)
theorem ready_qsub : Ready queueRow (.qsub hA 8 (us 2) (uc 64)) stE :=
  ready_of rfl (by decide) (by decide)
    (by dsimp only; exact ⟨by decide, by decide, by decide, _, _, _, rfl, rfl, rfl, by decide, by decide⟩)
theorem ready_qcancel : Ready queueRow (.qcancel hA (uc 64)) stE := ready_of rfl (by decide) (by decide) trivial

/-! ### Barriers and mbar objects -/

theorem ready_bar_arrive : Ready barrierRow (.barArrive .always 0) st0 := ready_of rfl (by decide) (by decide) (by dsimp only [rowArrive]; decide)
theorem ready_bar_sync : Ready barrierRow (.barSync .always 8) st0 := ready_of rfl (by decide) (by decide) (by dsimp only [rowArrive]; decide)
theorem ready_bar_swap : Ready barrierRow (.barSwap .always) st0 := ready_of rfl (by decide) (by decide) (by dsimp only [rowArrive]; decide)
theorem ready_bar_wait : Ready barrierRow (.barWait .always 0) st0 := ready_of rfl (by decide) (by decide) trivial
theorem ready_mbar_init : Ready barrierRow (.mbarInit hA (w 4) (c 66)) stE :=
  ready_of rfl (by decide) (by decide) (by intro t ht; cases ht with
    | head => exact ⟨by decide, by decide, _, rfl⟩
    | tail _ h => cases h)
theorem ready_mbar_arrive : Ready barrierRow (.mbarArrive hA 1 (w 4) (c 65)) stE :=
  ready_of rfl (by decide) (by decide) (by intro t ht; cases ht with
    | head => exact ⟨by decide, trivial, _, rfl⟩
    | tail _ h => cases h)
theorem ready_mbar_expect : Ready barrierRow (.mbarExpect hA (w 4) (c 80)) stE :=
  ready_of rfl (by decide) (by decide) (by intro t ht; cases ht with
    | head => exact ⟨by decide, trivial, _, rfl⟩
    | tail _ h => cases h)
theorem ready_mbar_wait : Ready barrierRow (.mbarWait .always (w 4) (c 64)) stE :=
  ready_of rfl (by decide) (by decide) (by intro t ht; cases ht with
    | head => exact ⟨by decide, _, rfl⟩
    | tail _ h => cases h)

/-! ### Register counts -/

theorem ready_rshrink : Ready systemRow (.rshrink .always (.imm 66)) st0 := ready_of rfl (by decide) (by decide) (by dsimp only; decide)
theorem ready_rgrow : Ready systemRow (.rgrow .always (.imm 96)) st0 := ready_of rfl (by decide) (by decide) (by dsimp only; decide)

end Sys2Proof.Tests
end

