-- ==== Sys2Proof/Tests/Slice0.lean ====
section
/-! SUPPORT. The smoke test of well-formedness, an ill-formed term for each of its checks, and single steps on the worked
examples that the spec prints, named by the file they stand in. -/
namespace Sys2Proof.Tests
open Machine
-- One declaration at a time: each more thread of the compiler takes a stack out of the same memory.
set_option Elab.async false
set_option maxRecDepth 20000

/-! ### Well-formedness -/

def refused (l : List Instr) : Bool := l.all fun i => !i.wf

/-- The lane number is no uniform operand (R147, R184, R300, R315, R355). -/
abbrev lane64 : USrc64 := ⟨.ident 0, false⟩
abbrev lane : USrc := ⟨.ident 0, .none⟩

theorem smoke_uniform : refused
    [.sadd hA 5 lane64 (us64 1), .ssub hA 5 (us64 1) lane64, .smul hA 5 lane64 (us64 1), .sshl hA 5 (us64 1) lane64,
      .sshr hA .s 5 lane64 (us64 1), .sand hA 5 (us64 1) lane64, .sor hA 5 lane64 (us64 1), .sld hA 5 lane64 (us64 1),
      .scmp hA .eq 1 (us64 1) lane64, .smov hA 5 lane64] = true := by decide
theorem smoke_uniform_lanes : refused
    [.shfl hA (.pickU 1 (w 2) lane), .vote hA (.atl lane) 1 ⟨2, false⟩, .vote hA (.atm lane) 1 ⟨2, false⟩,
      .ballot hA (.maskU 1 lane) ⟨2, false⟩, .ballot hA (.cntU 1 lane) ⟨2, false⟩] = true := by decide
theorem smoke_uniform_engines : refused
    [.rsv hA 1 lane64 (us 1) (us 1), .rsv hA 1 (us64 1) lane (us 1), .rsv hA 1 (us64 1) (us 1) lane, .mma hA 0 0 1 lane,
      .cpyc hA lane, .go hA lane, .rels hA 0 lane, .qcancel hA lane, .patch hA lane (us 1) (us 1), .patch hA (us 1) lane (us 1),
      .patch hA (us 1) (us 1) lane, .rinit hA 0 lane (us 1), .rinit hA 0 (us 1) lane, .qsub hA 5 lane (us 1), .qsub hA 5 (us 1) lane]
    = true := by decide
theorem smoke_uniform_long : refused
    [.saddLongImmediate none 5 (.ident 0) 1, .ssubLongImmediate none 5 (.ident 0) 1, .smulLongImmediate none 5 (.ident 0) 1,
      .sandLongImmediate none 5 (.ident 0) 1, .sorLongImmediate none 5 (.ident 0) 1, .sldLongImmediate none 5 (.ident 0) 1] = true := by
  decide

/-- R161, R163: `.amax` on an integer source, a rounding mode the pair has not, a pair of one format, a second operand of a
32-bit target, and one missing of an 8-bit target. -/
theorem smoke_conversion : refused
    [.cvt hA .f32 .s16 true .rne 1 (w 2) none, .cvt hA .f32 .f16 false .rz 1 (w 2) none, .cvt hA .s32 .f32 false .rne 1 (w 2) (some (w 3)), .cvt hA .e4m3 .f32 false .rne 1 (w 2) none,
      .cvt hA .s8 .s8 false .rne 1 (w 2) (some (w 3))] = true := by decide
/-- R179: a loop displacement from 1 to 256 words. -/
theorem smoke_loop : refused
    [.loop .always (w 2) 0, .loop .always (w 2) 257, .loop .always (w 2) (-1), .loopLongImmediate none (.w 2) 0,
      .loopLongImmediate none (.w 2) 257] = true := by decide
/-- R188: an operation `scan` does not have. -/
theorem smoke_scan_fmin : (Instr.scan hA .fmin false 1 (w 2)).wf = false := by decide
/-- R257: a pair or quad register number that is odd, or no multiple of 4. -/
theorem smoke_registers : refused
    [.ld hA .w64 false 3 (w64 1) (w 3) 0, .st hA .b128 false 2 (w64 1) (w 3) 0, .ldsp hA .w128 false 6 (w 2) (w 3) 0,
      .stsp hA .b64 false 1 (w 2) (w 3) 0, .ldLongImmediate none .w64 3 (.w 1) 0, .stLongImmediate none .b64 3 (.w 1) 0,
      .ldspLongImmediate none .w128 6 (.w 1) 0, .stspLongImmediate none .b128 6 (.w 1) 0, .lda hA .w128 6 1 (w 3) 0,
      .sta hA .w128 6 1 (w 3) 0] = true := by decide
/-- R268, R269: a 64-bit `fadd`, a pair that is odd, a `cas` whose pair is, and the operations and orders `red` has not. -/
theorem smoke_atomics : refused
    [.atom hA .fadd .rlx .pkg 2 (w64 1) (.v64 (w64 1)), .atom hA .add .rlx .pkg 3 (w64 1) (.v64 (w64 1)),
      .atoms hA .fadd .rlx .pkg 2 (w 2) (.v64 (w64 1)), .red hA .xchg .rlx .pkg (w64 1) (.v32 (w 2)),
      .red hA .cas .rlx .pkg (w64 1) (.v32 (w 2)), .red hA .add .acq .pkg (w64 1) (.v32 (w 2)),
      .red hA .fadd .rlx .pkg (w64 1) (.v64 (w64 1))] = true := by decide
/-- R115, R210: a 64-bit special register in an odd pair, a read-only one written, and a source of the other width. -/
theorem smoke_special : refused
    [.mfs .always 3 .tepc, .mts .always .clock (.v64 (w64 1)), .mts .always .tvec (.v32 (w 2)), .mts .always .arms (.v64 (w64 1))] = true := by
  decide
/-- R99. -/
theorem smoke_pairs : refused [pairOf 7 9, pairOf 6 4] = true := by decide
/-- The steps of words that are none name such words. -/
theorem smoke_none : refused [.illegalOpcode 0x1C90700000000000, .illegalInstructionException 0x00C5850B] = true := by decide
/-- Every word written out is of a well-formed instruction. -/
theorem smoke_well_formed : (wordsInteger ++ wordsBits ++ wordsFloat ++ wordsControl ++ wordsMatrix ++ wordsCopyQueue).all (fun x => x.2.wf)
    = true := by decide

/-! ### Worked examples -/

/-- The warp's first threads, thread i with w1 = the i-th value and the predicates given with it, all chosen. -/
def stLanes (l : List (Nat × BitVec 7)) : State :=
  { st0 with
    turn := .warp 0 0 (2 ^ l.length - 1)
    threads := (List.range l.length).zip l |>.map fun x => (x.1, { th0 with regs := [(1, BitVec.ofNat 32 x.2.1)], preds := x.2.2 }) }

/-- w2 of the first n lanes after a word, and the warp's FLAGS. -/
def lanes (i : Instr) (s : State) (n : Nat) : List Nat × Nat :=
  ((List.range n).map fun t => (rdW (getTh (outState (exec i s)) t) 2).toNat, (getWarp (outState (exec i s)) 0).flags.toNat)

/-- Register 1 after a word, where w2, w3 and w4 hold these and w1 held `old`. -/
def res (i : Instr) (a b x : Nat) (old : Nat := 0) : Nat × Nat :=
  d1 i { st0 with threads := [(0, { th0 with regs := [(1, BitVec.ofNat 32 old), (2, BitVec.ofNat 32 a), (3, BitVec.ofNat 32 b), (4, BitVec.ofNat 32 x)] })] }

/-- 07_integer.md, after R135. -/
theorem test_div_examples : res (.div hA .s 1 (w 2) (w 3)) 0xFFFFFFF9 2 0 = (0xFFFFFFFD, 0) ∧ res (.div hA .s 1 (w 2) (w 3)) 7 0xFFFFFFFE 0 = (0xFFFFFFFD, 0) ∧
    res (.div hA .s 1 (w 2) (w 3)) 0xFFFFFFF9 0 0 = (0xFFFFFFFF, 4) ∧ res (.div hA .z 1 (w 2) (w 3)) 0xFFFFFFF9 2 0 = (0x7FFFFFFC, 0) := by decide
theorem test_rem_examples : res (.rem hA .s 1 (w 2) (w 3)) 0xFFFFFFF9 2 0 = (0xFFFFFFFF, 0) ∧ res (.rem hA .s 1 (w 2) (w 3)) 7 0xFFFFFFFE 0 = (1, 0) ∧
    res (.rem hA .s 1 (w 2) (w 3)) 0xFFFFFFF9 0 0 = (0xFFFFFFF9, 4) ∧ res (.rem hA .z 1 (w 2) (w 3)) 0xFFFFFFF9 2 0 = (1, 0) := by decide
/-- 07_integer.md, after R141. -/
theorem test_bfx_examples : res (.bfx hA 1 (w 2) (w 3) (w 4)) 0xDEADBEEF 12 8 = (0xDB, 0) ∧ res (.bfx hA 1 (w 2) (w 3) (w 4)) 0xDEADBEEF 28 8 = (0xD, 0) := by
  decide
theorem test_bfi_example : res (.bfi hA 1 (w 2) (w 3) (w 4)) 5 4 4 0xFFFFFFFF = (0xFFFFFF5F, 0) := by decide
/-- 07_integer.md, after R142. -/
theorem test_prmb_example : res (.prmb hA 1 (w 2) (w 3) (w 4)) 0x44332211 0x88776655 0xF604 = (0xFF771155, 0) := by decide
/-- 07_integer.md, after R143. -/
theorem test_add2_example : res (.add2 hA (some .s) 1 (w 2) (w 3)) 0x7FF08000 0x20FFFF 0 = (0x7FFF8000, 1) ∧
    res (.add2 hA none 1 (w 2) (w 3)) 0x7FF08000 0x20FFFF 0 = (0x80107FFF, 0) := by decide
/-- 04_numbers.md, after R77. -/
theorem test_dot4_example : res (.dot4 hA .s .s 1 (w 2) (w 3) (w 4)) 0x80808080 0x7F7F8080 0x7FFFFEFF = (0x7FFFFFFF, 0) := by decide
/-- 08_float.md, after R156. -/
theorem test_ffma_example : res (.ffma hA .rne 1 (w 2) (w 3) (w 4)) 0x3F800800 0x3F800800 0xBF801000 = (0x33800000, 0) := by decide
theorem test_fmul_example : res (.fmul hA .rne 1 (w 2) (w 3)) 0x3F800800 0x3F800800 0 = (0x3F801000, 0) := by decide
theorem test_fadd_example : res (.fadd hA .rne 1 (w 2) (w 3)) 0x3F801000 0xBF801000 0 = (0, 0) := by decide
/-- 08_float.md, after R160. -/
theorem test_hadd2_example : res (.hadd2 hA 1 (w 2) (w 3)) 0x3C007BFF 0x3C004C00 0 = (0x40007C00, 0) := by decide
/-- 08_float.md, after R163: AMAX is checked in the second. -/
theorem test_cvt_first : res (.cvt hA .e4m3 .f32 true .rne 1 (w 2) (some (w 3))) 0x3F800000 0xC0200000 0 = (0xC2380000, 0) := by decide
theorem test_cvt_second : res (.cvt hA .e4m3 .f32 true .rne 1 (w 2) (some (w 3))) 0x43960000 0x43FA0000 0 0xC2380000 = (0x7E79C238, 1) := by decide
theorem test_amax_folds :
    (getWarp (outState (exec (.cvt hA .e4m3 .f32 true .rne 1 (w 2) (some (w 3))) (stRegs 0x43960000 0x43FA0000 0))) 0).amax = 0x43FA0000 := by
  decide +kernel
/-- 08_float.md, after R164. -/
theorem test_unpk_example : (rdW (getTh (outState (exec (.unpk hA .f16e4m3 3 (w 2)) (stRegs 0x7E79C238 0 0))) 0) 6).toNat = 0xC1003C00 ∧
    (rdW (getTh (outState (exec (.unpk hA .f16e4m3 3 (w 2)) (stRegs 0x7E79C238 0 0))) 0) 7).toNat = 0x5F005C80 := by decide +kernel
/-- 04_numbers.md, after R80. -/
theorem test_rcp_seed_example : res (.rcpSeed hA 1 (w 2)) 0x40400000 0 0 = (0x3EAAA800, 0) := by decide
/-- 07_integer.md, after R138: the two words that clamp negative values to 0. -/
theorem test_clamp_example : ((rdW (getTh (outState (exec (.sel hA 2 (w 2) (c 64) ⟨4, true⟩)
    { outState (exec (.icmp hA .ltS 4 (.w32 (w 2) (c 64))) (stRegs 0xFFFFFFF0 0 0)) with turn := .warp 0 0 1 })) 0) 2).toNat = 0) := by decide +kernel

/-- 05_encoding.md, after R113: six instructions under `.pack on` give four words. -/
def listing : List AsmLine :=
  [.pack true, .word (.add hA none 1 (w 1) (w 2)), .word (.fmul hA .rne 4 (w 4) (w 7)), .word (.sub hA none 5 (w 5) (w 1)),
    .word (.shl hA 6 (w 5) (c 66)), .word (.add hA none 9 (w 9) (w 6)), .word (.xor hA 11 (w 11) (w 8))]
theorem test_pack_example : packLines false listing =
    [.pairAdd ⟨.always, 1, .w 2, .none⟩ (.reg .fmul ⟨.always, 4, .w 7, .none⟩), .sub hA none 5 (w 5) (w 1), .shl hA 6 (w 5) (c 66),
      .pairAdd ⟨.always, 9, .w 6, .none⟩ (.reg .xor ⟨.always, 11, .w 8, .none⟩)] := by decide
theorem test_pack_off : packLines false (listing.drop 1) = [.add hA none 1 (w 1) (w 2), .fmul hA .rne 4 (w 4) (w 7),
    .sub hA none 5 (w 5) (w 1), .shl hA 6 (w 5) (c 66), .add hA none 9 (w 9) (w 6), .xor hA 11 (w 11) (w 8)] := by decide
/-- 05_encoding.md, after R113: the three statements and their words; and 08_float.md, after R156, a floating constant. -/
theorem test_assembled : assemble (.ffma ⟨3, .pred 2 true⟩ .rz 10 ⟨.w 4, .neg⟩ (s 5) (c 67)) = some (.nimia 0x0C53A0A0241787C0) ∧
    assemble (.pairAdd ⟨.always, 1, .w 2, .none⟩ (.reg .fmul ⟨.p1, 4, .w 7, .none⟩)) = some (.nimia 0x4940807000004040) ∧
    (asmInt .add hA 3 (w 9) 100000).bind assemble = some (.nimia 0x800E0609000186A0) ∧
    (asmFp .fadd hA 2 (w 3) 0x3FC00000).bind assemble = some (.nimia 0x8C0E04033FC00000) := by decide

/-- 09_control.md, after R188: lane 2's guard is false. -/
def four : List (Nat × BitVec 7) := [(1, 1), (2, 1), (3, 0), (4, 1)]
theorem test_scan_example : lanes (.scan ⟨0, .pred 0 false⟩ .add false 2 (w 1)) (stLanes four) 4 = ([1, 3, 0, 7], 0) ∧
    lanes (.scan ⟨0, .pred 0 false⟩ .add true 2 (w 1)) (stLanes four) 4 = ([0, 1, 0, 3], 0) := by decide
/-- 09_control.md, after R189. -/
def six : List (Nat × BitVec 7) := [(7, 0), (3, 0), (7, 0), (9, 0), (3, 0), (7, 0)]
theorem test_match_example : lanes (.matchLanes hA .lead 2 (.w32 (w 1))) (stLanes six) 6 = ([0, 1, 0, 3, 1, 0], 0) ∧
    lanes (.matchLanes hA .cnt 2 (.w32 (w 1))) (stLanes six) 6 = ([3, 2, 3, 1, 2, 3], 0) := by decide
/-- 09_control.md, after R187. -/
def eight : List (Nat × BitVec 7) := [(0, 3), (0, 1), (0, 3), (0, 3), (0, 1), (0, 1), (0, 3), (0, 1)]
theorem test_ballot_mask : lanes (.ballot hA (.mask 2 (c 63)) ⟨1, false⟩) (stLanes eight) 8 = (List.replicate 8 0x4D, 0) := by decide
theorem test_ballot_rank : lanes (.ballot hA (.rank 2 (c 63)) ⟨1, false⟩) (stLanes eight) 8 = ([0, 1, 1, 2, 3, 3, 3, 4], 0) := by decide
/-- 09_control.md, after R186: partners in aligned pairs exchange. -/
theorem test_shfl_rot : lanes (.shfl hA (.lanes .rot 2 (w 1) (c 97))) (stLanes four) 4 = ([2, 1, 4, 3], 0) := by decide

end Sys2Proof.Tests
end

section
/-! What reset leaves (R12, R24, R30, R115). -/
namespace Sys2Proof.Machine

/-- Settles O60: reset writes none of these fields and leaves every table empty, so each reads its default. -/
theorem resetValues : Obligations.ResetValues :=
  ⟨rfl, rfl, rfl, rfl, rfl, rfl, rfl, rfl, rfl, rfl, rfl, fun _ => ⟨rfl, rfl, rfl⟩, fun _ => ⟨rfl, rfl⟩,
    fun _ => ⟨rfl, rfl, rfl, rfl, rfl, rfl⟩⟩

end Sys2Proof.Machine
end

section
/-! CLOCK (R12): no function that a step uses writes it, but for a cold reset. One lemma for each such function, in the order of
the model's files, then the steps themselves. -/
namespace Sys2Proof.Machine
-- One declaration at a time: each more thread of the compiler takes a stack out of the same memory.
set_option Elab.async false

/-! ### Branches and folds -/

@[simp] theorem clock_ite (p : Prop) [Decidable p] (a b : State) :
    (if p then a else b).clock = if p then a.clock else b.clock := apply_ite State.clock p a b

/-- A fold keeps CLOCK where its step does. -/
@[simp] theorem foldl_clock {α : Type} {f : State → α → State} (h : ∀ s a, (f s a).clock = s.clock) (l : List α) (s : State) :
    (l.foldl f s).clock = s.clock := by
  induction l generalizing s with
  | nil => rfl
  | cons a l ih => exact (ih (f s a)).trans (h s a)

/-- `foldl_clock` with the step given by an equation, so that the kernel need not unfold it. -/
theorem foldl_clock_of_eq {α : Type} {f : State → α → State} (h : ∀ s a s1, s1 = f s a → s1.clock = s.clock) (l : List α)
    (s : State) : (l.foldl f s).clock = s.clock := foldl_clock (fun s a => h s a _ rfl) l s

@[simp] theorem foldl_setTh_clock {α : Type} (t : State → α → Nat) (x : State → α → Thread) (l : List α) (s : State) :
    (l.foldl (fun s a => setTh s (t s a) (x s a)) s).clock = s.clock := foldl_clock (fun s _ => setTh_clock s _ _) l s

@[simp] theorem foldl_setWarp_clock {α : Type} (w : State → α → Nat) (x : State → α → Warp) (l : List α) (s : State) :
    (l.foldl (fun s a => setWarp s (w s a) (x s a)) s).clock = s.clock := foldl_clock (fun s _ => setWarp_clock s _ _) l s

@[simp] theorem foldl_setCore_clock {α : Type} (c : State → α → Nat) (x : State → α → Core) (l : List α) (s : State) :
    (l.foldl (fun s a => setCore s (c s a) (x s a)) s).clock = s.clock := foldl_clock (fun s _ => setCore_clock s _ _) l s

theorem foldl_fst_clock {α β : Type} {f : State × β → α → State × β} (h : ∀ x a, (f x a).1.clock = x.1.clock) (l : List α)
    (x : State × β) : (l.foldl f x).1.clock = x.1.clock := by
  induction l generalizing x with
  | nil => rfl
  | cons a l ih => exact (ih (f x a)).trans (h x a)

/-- A fold of steps that may fail keeps the clock where each step does. -/
theorem foldl_bind_clock {α : Type} {c : Nat} {f : State → α → Option State}
    (hf : ∀ s a s1, f s a = some s1 → s1.clock = s.clock) (l : List α) {o : Option State} (ho : ∀ s, o = some s → s.clock = c)
    {s1 : State} (h : l.foldl (fun o a => o.bind fun s => f s a) o = some s1) : s1.clock = c := by
  induction l generalizing o with
  | nil => exact ho s1 h
  | cons a l ih =>
    refine ih (fun s2 h2 => ?_) h
    obtain ⟨s, hs, ha⟩ := Option.bind_eq_some_iff.1 h2
    exact (hf s a s2 ha).trans (ho s hs)

theorem getD_clock {c : Nat} {o : Option State} {s : State} (ho : ∀ s1, o = some s1 → s1.clock = c) (hs : s.clock = c) :
    (o.getD s).clock = c := by
  cases o with
  | none => exact hs
  | some s1 => exact ho s1 rfl

/-- The clock is `c` in the next state, if an outcome has one. -/
def ClockAt (c : Nat) : Out → Prop
  | .next s => s.clock = c
  | _ => True

@[simp] theorem clockAt_next (c : Nat) (s : State) : ClockAt c (.next s) ↔ s.clock = c := Iff.rfl
@[simp] theorem clockAt_fault (c : Nat) (r : Fault) : ClockAt c (.fault r) := trivial

theorem clockAt_ite (c : Nat) (p : Prop) [Decidable p] (a b : Out) :
    ClockAt c (if p then a else b) ↔ if p then ClockAt c a else ClockAt c b := by split <;> rfl

/-! ### Memory, caches and the page ownership table -/

@[simp] theorem writeBytes_clock (s pa bs) : (writeBytes s pa bs).clock = s.clock := by simp [writeBytes]

@[simp] theorem writeBack_clock (s line) : (writeBack s line).clock = s.clock := by simp [writeBack]

@[simp] theorem discardLine_clock (s line) : (discardLine s line).clock = s.clock := by unfold discardLine; split <;> simp

@[simp] theorem zeroRange_clock (s pa n) : (zeroRange s pa n).clock = s.clock := by simp [zeroRange]

@[simp] theorem copyRange_clock (s src dst n) : (copyRange s src dst n).clock = s.clock := by simp [copyRange]

@[simp] theorem potChange_clock (s frame owner state) :
    (potChange s frame owner state).clock = s.clock := by simp [potChange]

@[simp] theorem stampFrame_clock (s frame key) : (stampFrame s frame key).clock = s.clock := by simp [stampFrame]

@[simp] theorem poisonBad_clock (s pa n key ver) : (poisonBad s pa n key ver).clock = s.clock := by simp [poisonBad]

@[simp] theorem poisonTier_clock (s pa key ver) : (poisonTier s pa key ver).clock = s.clock := by
  unfold poisonTier; dsimp only; (repeat' split) <;> simp

/-! ### Traps, teams and counters -/

@[simp] theorem inThreads_clock (s acting f) : (inThreads s acting f).clock = s.clock := by simp [inThreads]

@[simp] theorem settleLoops_clock (s w) : (settleLoops s w).clock = s.clock := by simp [settleLoops]

@[simp] theorem orFlags_clock (s w f) : (orFlags s w f).clock = s.clock := by simp [orFlags]

@[simp] theorem dropQueries_clock (s core ts) : (dropQueries s core ts).clock = s.clock := by simp [dropQueries]

@[simp] theorem endTeam_clock (s k) : (endTeam s k).clock = s.clock := by simp [endTeam]

@[simp] theorem haltWarp_clock (s b w) : (haltWarp s b w).clock = s.clock := by simp [haltWarp]

@[simp] theorem raiseTraps_clock (s w traps) : (raiseTraps s w traps).clock = s.clock := by simp [raiseTraps]

@[simp] theorem resumeTeam_clock (s k) : (resumeTeam s k).clock = s.clock := by simp [resumeTeam]

@[simp] theorem resumeIfDone_clock (s k) : (resumeIfDone s k).clock = s.clock := by simp [resumeIfDone]

@[simp] theorem lateFault_clock (s t code kind va origin dst sdst bytes) :
    (lateFault s t code kind va origin dst sdst bytes).clock = s.clock := by
  simp [lateFault]

@[simp] theorem setTdi_clock (s vf t) : (setTdi s vf t).clock = s.clock := by simp [setTdi]

@[simp] theorem answerUnsupported_clock (s p) : (answerUnsupported s p).clock = s.clock := by simp [answerUnsupported]

@[simp] theorem meter_clock (s p i n) : (meter s p i n).clock = s.clock := by simp [meter]

@[simp] theorem pmcEvent_clock (s p code n) : (pmcEvent s p code n).clock = s.clock := by simp [pmcEvent]

@[simp] theorem corePmc_clock (s core code n) : (corePmc s core code n).clock = s.clock := by simp [corePmc]

@[simp] theorem meterTier_clock (s pa n) : (meterTier s pa n).clock = s.clock := by unfold meterTier; split <;> simp

@[simp] theorem meterSpan_clock (s pa n) : (meterSpan s pa n).clock = s.clock := by simp [meterSpan]

@[simp] theorem meterLine_clock (s pa) : (meterLine s pa).clock = s.clock := by simp [meterLine]

@[simp] theorem meterLines_clock (s pa n) : (meterLines s pa n).clock = s.clock := by simp [meterLines]

@[simp] theorem writeBackMetered_clock (s line) : (writeBackMetered s line).clock = s.clock := by
  unfold writeBackMetered; split <;> simp

/-! ### Flags and AMAX -/

@[simp] theorem foldAmax_clock (s w vs) : (foldAmax s w vs).clock = s.clock := by simp [foldAmax]

/-! ### Register images in the meadow store -/

@[simp] theorem keyBlocks_clock (s asid pa n) : (keyBlocks s asid pa n).clock = s.clock := by simp [keyBlocks]

@[simp] theorem writeImg_clock (s k o bs) : (writeImg s k o bs).clock = s.clock := by unfold writeImg; split <;> simp

@[simp] theorem writeFree_clock (s asid pa o n) : (writeFree s asid pa o n).clock = s.clock := by simp [writeFree]

@[simp] theorem writeLine_clock (s l) : (writeLine s l).clock = s.clock := by simp [writeLine]

@[simp] theorem writeImage_clock (s k) : (writeImage s k).clock = s.clock :=
  (foldl_clock writeLine_clock _ _).trans (foldl_clock (fun s x => by split <;> simp) _ s)

@[simp] theorem setLine_clock (s l on) : (setLine s l on).clock = s.clock := by unfold setLine; split <;> simp

@[simp] theorem touchLines_clock (s l) : (touchLines s l).clock = s.clock := by simp [touchLines]

@[simp] theorem evict_clock (s l) : (evict s l).clock = s.clock := by simp [evict]

@[simp] theorem fillFault_clock (s l) : (fillFault s l).clock = s.clock := by unfold fillFault; split <;> simp

@[simp] theorem lineWake_clock (s t) : (lineWake s t).clock = s.clock := by unfold lineWake; split <;> simp

@[simp] theorem poisonKeyed_clock (s asid pa n) : (poisonKeyed s asid pa n).clock = s.clock := by simp [poisonKeyed]

@[simp] theorem readImage_clock (s l) : (readImage s l).clock = s.clock := by unfold readImage; split <;> simp

@[simp] theorem fillLine_clock (s l) : (fillLine s l).clock = s.clock := by simp [fillLine]

/-! ### Issue selection -/

@[simp] theorem chargeIssue_clock (s0 s w) : (chargeIssue s0 s w).clock = s.clock := by simp [chargeIssue]

@[simp] theorem stallIssue_clock (s) : (stallIssue s).clock = s.clock := by unfold stallIssue; split <;> simp

/-! ### The issue of a word -/

@[simp] theorem passOver_clock (s0 s w l) : (passOver s0 s w l).clock = s.clock := by simp [passOver]

@[simp] theorem commitThreads_clock (s info w l s1 effs) : (commitThreads s info w l s1 effs).clock = s1.clock := by
  simp [commitThreads]

@[simp] theorem commitFlags_clock (s w l effs) : (commitFlags s w l effs).clock = s.clock := by simp [commitFlags]

@[simp] theorem commitCounts_clock (s w n skid) : (commitCounts s w n skid).clock = s.clock := by simp [commitCounts]

@[simp] theorem commitLoops_clock (s w l none) : (commitLoops s w l none).clock = s.clock := by simp [commitLoops]

@[simp] theorem commitWindows_clock (s k l before) : (commitWindows s k l before).clock = s.clock := by simp [commitWindows]

@[simp] theorem commitWord_clock (s info w l s1 effs lines) : (commitWord s info w l s1 effs lines).clock = s1.clock := by
  simp [commitWord]

@[simp] theorem waitLines_clock (s l need) : (waitLines s l need).clock = s.clock := by simp [waitLines]

/-- The clock is `c` in the state that a word's own rules leave. -/
def OwnAt (c : Nat) : Own → Prop
  | .stallOn s => s.clock = c
  | .go s _ => s.clock = c
  | _ => True

@[simp] theorem ownAt_stall (c) : OwnAt c .stall := trivial
@[simp] theorem ownAt_traps (c l) : OwnAt c (.traps l) := trivial
@[simp] theorem ownAt_stallOn (c s) : OwnAt c (.stallOn s) ↔ s.clock = c := Iff.rfl
@[simp] theorem ownAt_go (c s effs) : OwnAt c (.go s effs) ↔ s.clock = c := Iff.rfl

/-- The issue of a word keeps CLOCK where its own rules do. -/
theorem runWord_clock {info own s} (h : ∀ w l acting, OwnAt s.clock (own w l acting)) :
    ClockAt s.clock (runWord info own s) := by
  unfold runWord
  split
  · simp
  · next w l _ =>
    have ho := h w l (l.filter (rdGuard s info.guard))
    dsimp only
    generalize own w l (l.filter (rdGuard s info.guard)) = o at ho ⊢
    cases o with
    | stall => simp [clockAt_ite]
    | traps ts => simp [clockAt_ite]
    | stallOn s1 => simp [clockAt_ite, (ownAt_stallOn _ _).1 ho]
    | go s1 effs => simp [clockAt_ite, (ownAt_go _ _ _).1 ho]

theorem runThreads_clock (info eff s) : ClockAt s.clock (runThreads info eff s) :=
  runWord_clock fun _ _ _ => rfl

theorem decodeTrap_clock (code s) : ClockAt s.clock (decodeTrap code s) := by
  unfold decodeTrap; (repeat' split) <;> simp

/-! ### Scratchpad and rings -/

@[simp] theorem spWriteStep_clock (s k off bs who) : (spWriteStep s k off bs who).clock = s.clock := by simp [spWriteStep]

@[simp] theorem spWritePlain_clock (s core phys bs) :
    (spWritePlain s core phys bs).clock = s.clock := by simp [spWritePlain]

@[simp] theorem setFull_clock (s core phys full) : (setFull s core phys full).clock = s.clock := by simp [setFull]

@[simp] theorem mbWrite_clock (s core phys m) : (mbWrite s core phys m).clock = s.clock := by simp [mbWrite]

@[simp] theorem setRing_clock (s k q r) : (setRing s k q r).clock = s.clock := by simp [setRing]

/-! ### Control words -/

@[simp] theorem loopOpened_clock (s w cnt disp acting) : (loopOpened s w cnt disp acting).clock = s.clock := by
  simp [loopOpened]

theorem loopWord_clock (g a disp s) : ClockAt s.clock (loopWord g a disp s) := by
  unfold loopWord
  refine runWord_clock fun w _ acting => ?_
  dsimp only
  split <;> simp

@[simp] theorem loopClosed_clock (s acting) : (loopClosed s acting).clock = s.clock := by simp [loopClosed]

theorem execLbrk_clock (g s) : ClockAt s.clock (execLbrk g s) := by
  unfold execLbrk
  refine runWord_clock fun _ _ acting => ?_
  dsimp only
  split <;> simp

@[simp] theorem dropOpenCard_clock (s w) : (dropOpenCard s w).clock = s.clock := by unfold dropOpenCard; split <;> simp

@[simp] theorem exitThreads_clock (s acting) : (exitThreads s acting).clock = s.clock := by simp [exitThreads]

theorem execExit_clock (g s) : ClockAt s.clock (execExit g s) := by
  unfold execExit
  split
  · simp
  · have h := runWord_clock (info := { guard := g, reports := true })
      (own := fun _ _ acting => .go (exitThreads s acting) []) fun _ _ acting => exitThreads_clock s acting
    split <;> simp_all

theorem execYield_clock (g s) : ClockAt s.clock (execYield g s) := by
  unfold execYield
  refine runWord_clock fun _ _ _ => ?_
  simp

@[simp] theorem napEvent_clock (s bit who) : (napEvent s bit who).clock = s.clock := by simp [napEvent]

theorem execNapWake_clock (t s) : ClockAt s.clock (execNapWake t s) := by
  unfold execNapWake; dsimp only; (repeat' split) <;> simp

/-! ### Accesses to records and tiles, fences -/

theorem execLda_clock (h w d k idx off s) : ClockAt s.clock (execLda h w d k idx off s) := by
  unfold execLda
  refine runWord_clock fun wp _ acting => ?_
  dsimp only
  (repeat' split) <;> simp

theorem execSta_clock (h w d k idx off s) : ClockAt s.clock (execSta h w d k idx off s) := by
  unfold execSta
  refine runWord_clock fun wp _ acting => ?_
  dsimp only
  (repeat' split) <;> simp

theorem execLdc_clock (h col d tl idx s) : ClockAt s.clock (execLdc h col d tl idx s) := by
  unfold execLdc
  refine runWord_clock fun wp _ acting => ?_
  dsimp only
  (repeat' split) <;> simp

theorem execStc_clock (h col d tl idx s) : ClockAt s.clock (execStc h col d tl idx s) := by
  unfold execStc
  refine runWord_clock fun wp _ acting => ?_
  dsimp only
  (repeat' split) <;> simp

theorem execFence_clock (g k sc s) : ClockAt s.clock (execFence g k sc s) := by
  unfold execFence
  refine runWord_clock fun _ _ acting => ?_
  split <;> simp

/-! ### Barriers and mbar objects -/

@[simp] theorem arrive_clock (s k b acting) : (arrive s k b acting).clock = s.clock := by simp [arrive]

theorem arriveWord_clock (g b andWait s) : ClockAt s.clock (arriveWord g b andWait s) :=
  runWord_clock fun w _ acting => by dsimp only; (repeat' split) <;> simp

@[simp] theorem superstepSwap_clock (s gid g) : (superstepSwap s gid g).clock = s.clock := by simp [superstepSwap]

@[simp] theorem nextPhase_clock (s k b) : (nextPhase s k b).clock = s.clock := by unfold nextPhase; (repeat' split) <;> simp

theorem execBarrierPhaseComplete_clock (core tslot b s) : ClockAt s.clock (execBarrierPhaseComplete core tslot b s) := by
  unfold execBarrierPhaseComplete; dsimp only; (repeat' split) <;> simp

@[simp] theorem mbUpdate_clock (s core phys f) : (mbUpdate s core phys f).clock = s.clock := by simp [mbUpdate]

theorem mbarWord_clock (g la r dst kind addr f s) : ClockAt s.clock (mbarWord g la r dst kind addr f s) := by
  refine runWord_clock fun w _ acting => ?_
  dsimp only
  split
  · simp
  · exact foldl_fst_clock (fun a t => by (repeat' split) <;> simp) acting (s, [])

theorem execMbarWait_clock (g a b s) : ClockAt s.clock (execMbarWait g a b s) := by
  unfold execMbarWait
  refine runWord_clock fun w _ acting => ?_
  dsimp only
  split
  · simp
  · exact foldl_fst_clock (fun x t => by (repeat' split) <;> simp) acting (s, [])

theorem execMbarWaitWake_clock (t s) : ClockAt s.clock (execMbarWaitWake t s) := by
  unfold execMbarWaitWake; (repeat' split) <;> simp

/-! ### Walks and translations -/

@[simp] theorem askWalk_clock (s asid page kind who) : (askWalk s asid page kind who).clock = s.clock := by simp [askWalk]

@[simp] theorem logWalkOf_clock (s src asid va kind) : (logWalkOf s src asid va kind).clock = s.clock := by
  unfold logWalkOf; split <;> simp

@[simp] theorem logWalk_clock (s asid va kind) : (logWalk s asid va kind).clock = s.clock := by simp [logWalk]

@[simp] theorem noteNow_clock (s src asid va n need) : (noteNow s src asid va n need).clock = s.clock := by
  unfold noteNow; split <;> simp

@[simp] theorem hartTrans_clock (s h va need) : (hartTrans s h va need).1.clock = s.clock := by
  unfold hartTrans; dsimp only; (repeat' split) <;> simp

theorem hartTrans_state {s h va need s1 r} (e : hartTrans s h va need = (s1, r)) : s1.clock = s.clock :=
  (congrArg (·.1.clock) e).symm.trans (hartTrans_clock s h va need)

/-! ### Fault queue notes -/

@[simp] theorem noteSpoilt_clock (s s1 pa n) : (noteSpoilt s s1 pa n).clock = s1.clock := by simp [noteSpoilt]

/-! ### Memory operations -/

@[simp] theorem dropMop_clock (s t j o) : (dropMop s t j o).clock = s.clock := by unfold dropMop; split <;> simp

@[simp] theorem setMopSt_clock (s t j x) :
    (setMopSt s t j x).clock = s.clock := by unfold setMopSt; (repeat' split) <;> simp

@[simp] theorem mopFault_clock (s t j o code) :
    (mopFault s t j o code).clock = s.clock := by unfold mopFault; split <;> simp

@[simp] theorem mopWrite_clock (s t j o vals) : (mopWrite s t j o vals).clock = s.clock := by simp [mopWrite]

@[simp] theorem writeThrough_clock (s e p bs) : (writeThrough s e p bs).clock = s.clock := by simp [writeThrough]

@[simp] theorem noteBad_clock (s e p n) : (noteBad s e p n).clock = s.clock := by simp [noteBad]

@[simp] theorem meterFetch_clock (s e p) : (meterFetch s e p).clock = s.clock := by simp [meterFetch]

@[simp] theorem performAt_clock (s0 t j o e p) : (performAt s0 t j o e p).clock = s0.clock := by
  unfold performAt; dsimp only; (repeat' split) <;> simp

@[simp] theorem homeDone_clock (s t reads grain fault) : (homeDone s t reads grain fault).clock = s.clock := by
  unfold homeDone; (repeat' split) <;> simp

@[simp] theorem granJoin_clock (s core gran t j) : (granJoin s core gran t j).clock = s.clock := by
  unfold granJoin; (repeat' split) <;> simp

@[simp] theorem granLeave_clock (s core gran t) : (granLeave s core gran t).clock = s.clock := by simp [granLeave]

@[simp] theorem fillGranule_clock (s core phys) : (fillGranule s core phys).clock = s.clock := by simp [fillGranule]

@[simp] theorem stepStore_clock (s t k off tag bs) : (stepStore s t k off tag bs).clock = s.clock := by
  unfold stepStore; dsimp only; (repeat' split) <;> simp

@[simp] theorem performSp_clock (s t j o) : (performSp s t j o).clock = s.clock := by
  unfold performSp; dsimp only; (repeat' split) <;> simp

/-! ### Homes and directories -/

@[simp] theorem putDir_clock (s g d) : (putDir s g d).clock = s.clock := by simp [putDir]

@[simp] theorem putProxy_clock (s g m l) : (putProxy s g m l).clock = s.clock := by simp [putProxy]

@[simp] theorem noteSent_clock (s g c lines) : (noteSent s g c lines).clock = s.clock := by simp [noteSent]

@[simp] theorem addSharer_clock (s g c eng) : (addSharer s g c eng).clock = s.clock := by simp [addSharer]

@[simp] theorem delSharer_clock (s g c) : (delSharer s g c).clock = s.clock := by simp [delSharer]

@[simp] theorem clearSets_clock (s g) : (clearSets s g).clock = s.clock := by simp [clearSets]

@[simp] theorem clearProxies_clock (s g) : (clearProxies s g).clock = s.clock := by simp [clearProxies]

@[simp] theorem enterState_clock (s g next) : (enterState s g next).clock = s.clock := by simp [enterState]

@[simp] theorem sendRound_clock (s g l) : (sendRound s g l).clock = s.clock := by simp [sendRound]

@[simp] theorem applyLine_clock (keep s x) : (applyLine keep s x).clock = s.clock := by simp [applyLine]

@[simp] theorem maintRefused_clock (s id code) : (maintRefused s id code).clock = s.clock := by
  unfold maintRefused; split <;> simp

@[simp] theorem completeReq_clock (s rq fault) : (completeReq s rq fault).clock = s.clock := by
  unfold completeReq; (repeat' split) <;> simp

@[simp] theorem lockPoint_clock (s rq) : (lockPoint s rq).1.clock = s.clock := by
  unfold lockPoint; dsimp only; (repeat' split) <;> simp

@[simp] theorem doWb_clock (s g next e rq) : (doWb s g next e rq).clock = s.clock := by simp [doWb]

@[simp] theorem setAcks_clock (s g) : (setAcks s g).clock = s.clock := by simp [setAcks]

@[simp] theorem dropOwed_clock (s g f) : (dropOwed s g f).clock = s.clock := by unfold dropOwed; split <;> simp

@[simp] theorem evictAck_clock (s g c) : (evictAck s g c).clock = s.clock := by
  unfold evictAck; dsimp only; (repeat' split) <;> simp

@[simp] theorem dropKept_clock (s g c) : (dropKept s g c).clock = s.clock := by unfold dropKept; split <;> simp

@[simp] theorem doSets_clock (s0 g e act ev rq) : (doSets s0 g e act ev rq).clock = s0.clock := by
  unfold doSets; dsimp only; (repeat' split) <;> simp

@[simp] theorem releaseHeld_clock (s g) : (releaseHeld s g).clock = s.clock := by simp [releaseHeld]

@[simp] theorem attach_clock (s g act rq l) : (attach s g act rq l).clock = s.clock := by simp [attach]

@[simp] theorem homeEvent_clock (n s g ev rel rq) : (homeEvent n s g ev rel rq).clock = s.clock := by
  induction n generalizing s g ev rel rq with
  | zero => rfl
  | succ n ih =>
    unfold homeEvent
    extract_lets e act next code request s1 round x s2 s3 s4 s4' s5 done s6 s7 s8
    clear_value round
    have h1 : s1.clock = s.clock := by simp [s1]
    have hx : x.1.clock = s.clock := by simp only [x]; split <;> simp [h1]
    have h2 : s2.clock = s.clock := by cases round <;> simp [s2, hx]
    have h3 : s3.clock = s.clock := by simp [s3, h2]
    have h4 : s4.clock = s.clock := by simp [s4, h3]
    have h4' : s4'.clock = s.clock := by simp only [s4']; (repeat' split) <;> simp [h4]
    have h5 : s5.clock = s.clock := by simp [s5, h4']
    have h6 : s6.clock = s.clock := by simp [s6, h5]
    have h7 : s7.clock = s.clock := by simp [s7, h6]
    have h8 : s8.clock = s.clock := by simp [s8, h7]
    clear_value s8
    rcases round with _ | _ | _ <;> (repeat' split) <;> simp [ih, h8]

@[simp] theorem takeRequest_clock (s i evs) : (takeRequest s i evs).clock = s.clock := by
  unfold takeRequest; dsimp only; (repeat' split) <;> simp

theorem execEvt_clock (grain who s) : ClockAt s.clock (execEvt grain who s) := by
  unfold execEvt; dsimp only; (repeat' split) <;> simp

@[simp] theorem ackRound_clock (s g a) : (ackRound s g a).clock = s.clock := by unfold ackRound; split <;> simp

theorem execDirectoryAck_clock (grain who s) : ClockAt s.clock (execDirectoryAck grain who s) := by
  unfold execDirectoryAck; dsimp only; (repeat' split) <;> simp

@[simp] theorem giveUp_clock (s g p) : (giveUp s g p).clock = s.clock := by simp [giveUp]

theorem execTmo_clock (grain s) :
    ClockAt s.clock (execTmo grain s) := by unfold execTmo; dsimp only; (repeat' split) <;> simp

theorem takeMsg_clock {s g a kinds s1 m} (h : takeMsg s g a kinds = some (s1, m)) : s1.clock = s.clock := by
  unfold takeMsg at h
  (repeat' split at h) <;> cases h; rfl

@[simp] theorem sendAck_clock (s g a) : (sendAck s g a).clock = s.clock := by simp [sendAck]

theorem execCopyInvalidation_clock (grain who s) : ClockAt s.clock (execCopyInvalidation grain who s) := by
  unfold execCopyInvalidation
  dsimp only
  split
  · simp
  · next h => split <;> simp [takeMsg_clock h]

theorem execProxyInvalidation_clock (grain meadow s) : ClockAt s.clock (execProxyInvalidation grain meadow s) := by
  unfold execProxyInvalidation
  split
  · simp
  · next h => dsimp only; split <;> simp [takeMsg_clock h]

theorem execReplicaLock_clock (grain meadow s) : ClockAt s.clock (execReplicaLock grain meadow s) := by
  unfold execReplicaLock
  split
  · simp
  · next h => simp [takeMsg_clock h]

theorem execReplicaUpdate_clock (grain meadow s) : ClockAt s.clock (execReplicaUpdate grain meadow s) := by
  unfold execReplicaUpdate
  split
  · simp
  · next h => simp [takeMsg_clock h]

/-! ### Jobs -/

@[simp] theorem modJob_clock (s core num f) : (modJob s core num f).clock = s.clock := by simp [modJob]

@[simp] theorem dropJob_clock (s core num) : (dropJob s core num).clock = s.clock := by simp [dropJob]

@[simp] theorem postJob_clock (s core j) : (postJob s core j).clock = s.clock := by simp [postJob]

/-! ### Words of the matrix unit -/

theorem powerUp_clock {s core s1} (h : powerUp s core = some s1) : s1.clock = s.clock := by
  unfold powerUp at h
  split at h <;> cases h <;> simp

@[simp] theorem rampNext_clock (n s meadow) : (rampNext n s meadow).clock = s.clock := by
  induction n generalizing s with
  | zero => rfl
  | succ n ih => unfold rampNext; (repeat' split) <;> simp [ih]

theorem execArrayRampDone_clock (core s) : ClockAt s.clock (execArrayRampDone core s) := by
  unfold execArrayRampDone; split <;> simp

/-- A word of the matrix unit keeps CLOCK where its effect does. -/
theorem matWord_clock {h a b recs tiles f s} (hf : ∀ w k acting s1, f w k acting = .inr (some s1) → s1.clock = s.clock) :
    ClockAt s.clock (matWord h a b recs tiles f s) := by
  unfold matWord
  refine runWord_clock fun w _ acting => ?_
  dsimp only
  split
  · next hp => exact powerUp_clock hp
  · split
    · simp
    · split
      · simp
      · simp
      · next hs => exact hf _ _ _ _ hs

theorem execRsv_clock (h n a b c s) : ClockAt s.clock (execRsv h n a b c s) := by
  unfold execRsv
  refine matWord_clock fun w k acting s1 hs => ?_
  dsimp only at hs
  split at hs <;> cases hs
  simp

theorem execRsvComplete_clock (core tslot n s) : ClockAt s.clock (execRsvComplete core tslot n s) := by
  unfold execRsvComplete; dsimp only; (repeat' split) <;> simp

theorem execUnrsv_clock (h n s) : ClockAt s.clock (execUnrsv h n s) := by
  unfold execUnrsv
  refine matWord_clock fun w k acting s1 hs => ?_
  split at hs <;> cases hs
  simp

@[simp] theorem freeRec_clock (s k n) : (freeRec s k n).clock = s.clock := by
  unfold freeRec; dsimp only; (repeat' split) <;> simp

theorem execUnrsvComplete_clock (core tslot n s) : ClockAt s.clock (execUnrsvComplete core tslot n s) := by
  unfold execUnrsvComplete; dsimp only; (repeat' split) <;> simp

theorem execAcq_clock (h t s) : ClockAt s.clock (execAcq h t s) := by
  unfold execAcq
  refine matWord_clock fun w k acting s1 hs => ?_
  split at hs
  · cases hs
  · split at hs <;> cases hs <;> simp

@[simp] theorem setToken_clock (s core t unit) : (setToken s core t unit).clock = s.clock := by simp [setToken]

theorem execAcqComplete_clock (core tslot t s) : ClockAt s.clock (execAcqComplete core tslot t s) := by
  unfold execAcqComplete; dsimp only; (repeat' split) <;> simp

theorem execRel_clock (h t s) : ClockAt s.clock (execRel h t s) := by
  unfold execRel
  refine matWord_clock fun w k acting s1 hs => ?_
  split at hs
  · cases hs
  · split at hs <;> cases hs
    simp

theorem postMatrix_clock {s w k kind s1} (h : postMatrix s w k kind = some s1) : s1.clock = s.clock := by
  unfold postMatrix at h
  split at h <;> cases h
  simp

theorem execZacc_clock (h t s) : ClockAt s.clock (execZacc h t s) := by
  unfold execZacc
  refine matWord_clock fun w k acting s1 hs => ?_
  split at hs
  · cases hs
  · split at hs
    · cases hs
    · exact postMatrix_clock (Sum.inr.inj hs)

theorem execMma_clock (h t ka kb c s) : ClockAt s.clock (execMma h t ka kb c s) := by
  unfold execMma
  refine matWord_clock fun w k acting s1 hs => ?_
  split at hs
  · cases hs
  · split at hs
    · cases hs
    · exact postMatrix_clock (Sum.inr.inj hs)

/-! ### Events of the matrix unit -/

@[simp] theorem giveArray_clock (s core cands j) : (giveArray s core cands j).clock = s.clock := by simp [giveArray]

theorem execArraySwitchPoint_clock (core s) : ClockAt s.clock (execArraySwitchPoint core s) := by
  unfold execArraySwitchPoint; dsimp only; (repeat' split) <;> simp

theorem execMatrixJobStart_clock (core job s) : ClockAt s.clock (execMatrixJobStart core job s) := by
  unfold execMatrixJobStart
  dsimp only
  split
  · next s1 j h _ =>
    have hs : s1.clock = s.clock := by (repeat' split at h) <;> cases h <;> simp
    (repeat' split) <;> simp [hs]
  · simp

theorem execKStep_clock (core s) : ClockAt s.clock (execKStep core s) := by
  unfold execKStep; dsimp only; (repeat' split) <;> simp

theorem execMatrixJobComplete_clock (core s) : ClockAt s.clock (execMatrixJobComplete core s) := by
  unfold execMatrixJobComplete
  dsimp only
  split
  · simp
  · split
    · simp
    · next s1 h =>
      have hs : s1.clock = s.clock := by (repeat' split at h) <;> cases h <;> simp
      split <;> simp [hs]

theorem execBudgetRefill_clock (s) : ClockAt s.clock (execBudgetRefill s) := by simp [execBudgetRefill]

/-! ### Usage records -/

@[simp] theorem emitUsage_clock (s p reason) : (emitUsage s p reason).1.clock = s.clock := by simp [emitUsage]

theorem execUsageRecordPeriodic_clock (p s) : ClockAt s.clock (execUsageRecordPeriodic p s) := by
  unfold execUsageRecordPeriodic; dsimp only; (repeat' split) <;> simp

/-! ### Boot, pod and links -/

@[simp] theorem setFuse_clock (s ctr pair x) : (setFuse s ctr pair x).clock = s.clock := by simp [setFuse]

theorem blowBit_clock {s ctr pair second s1} (h : blowBit s ctr pair second = some s1) : s1.clock = s.clock := by
  unfold blowBit at h
  dsimp only at h
  (repeat' split at h) <;> cases h <;> simp

@[simp] theorem blowPairs_clock (ctr l s) : (blowPairs ctr l s).1.clock = s.clock := by
  induction l generalizing s with
  | nil => rfl
  | cons p l ih =>
    unfold blowPairs
    split
    · rfl
    · next h1 =>
      split
      · exact blowBit_clock h1
      · next h2 => exact (ih _).trans ((blowBit_clock h2).trans (blowBit_clock h1))

@[simp] theorem repairFuses_clock (s) : (repairFuses s).clock = s.clock := by
  unfold repairFuses
  dsimp only
  split <;> exact foldl_fst_clock (fun x ctr => by split <;> simp) _ _

@[simp] theorem wakeBoot_clock (s) : (wakeBoot s).clock = s.clock := by simp [wakeBoot]

theorem execWarmReset_clock (s) : ClockAt s.clock (execWarmReset s) := by unfold execWarmReset; split <;> simp

@[simp] theorem acceptImage_clock (s kind img) : (acceptImage s kind img).clock = s.clock := by
  unfold acceptImage; split <;> simp

@[simp] theorem loadImage_clock (s img) : (loadImage s img).clock = s.clock := by unfold loadImage; split <;> simp

@[simp] theorem putMailbox_clock (s img) : (putMailbox s img).clock = s.clock := by simp [putMailbox]

@[simp] theorem loadMailbox_clock (n s) : (loadMailbox n s).clock = s.clock := by
  induction n generalizing s with
  | zero => rfl
  | succ n ih => unfold loadMailbox; (repeat' split) <;> simp [ih]

theorem execFirmwareImage_clock (leader img s) : ClockAt s.clock (execFirmwareImage leader img s) := by
  unfold execFirmwareImage; (repeat' split) <;> simp

@[simp] theorem setPort_clock (s p x) : (setPort s p x).clock = s.clock := by simp [setPort]

theorem execHostLinkTraining_clock (cxl s) : ClockAt s.clock (execHostLinkTraining cxl s) := by simp [execHostLinkTraining]

theorem execPodLinkTraining_clock (port s) : ClockAt s.clock (execPodLinkTraining port s) := by
  unfold execPodLinkTraining; dsimp only; (repeat' split) <;> simp

theorem execHello_clock (port pod s) : ClockAt s.clock (execHello port pod s) := by simp [execHello]

theorem execDiscoveryWindowEnd_clock (s) : ClockAt s.clock (execDiscoveryWindowEnd s) := by
  unfold execDiscoveryWindowEnd; dsimp only; (repeat' split) <;> simp

theorem execClaim_clock (port pod nonce sig s) : ClockAt s.clock (execClaim port pod nonce sig s) := by
  unfold execClaim; split <;> simp

theorem execLeaderSilent_clock (s) : ClockAt s.clock (execLeaderSilent s) := by
  unfold execLeaderSilent; (repeat' split) <;> simp

theorem execPodFlitReceive_clock (port f s) : ClockAt s.clock (execPodFlitReceive port f s) := by
  unfold execPodFlitReceive; dsimp only; (repeat' split) <;> simp

@[simp] theorem sealHart_clock (s i) : (sealHart s i).clock = s.clock := by
  unfold sealHart; dsimp only; (repeat' split) <;> simp

@[simp] theorem resumeHart_clock (s i) : (resumeHart s i).clock = s.clock := by
  unfold resumeHart; dsimp only; (repeat' split) <;> simp

@[simp] theorem sealHarts_clock (s) : (sealHarts s).clock = s.clock := by simp [sealHarts]

@[simp] theorem resumeHarts_clock (s) : (resumeHarts s).clock = s.clock := by simp [resumeHarts]

@[simp] theorem startCore_clock (s c) : (startCore s c).clock = s.clock := by simp [startCore]

theorem execStaggeredStartStep_clock (s) : ClockAt s.clock (execStaggeredStartStep s) := by
  unfold execStaggeredStartStep; dsimp only; (repeat' split) <;> simp

@[simp] theorem rcmdRefuse_clock (s) : (rcmdRefuse s).clock = s.clock := by simp [rcmdRefuse]

@[simp] theorem rcmdDone_clock (s r) : (rcmdDone s r).clock = s.clock := by simp [rcmdDone]

@[simp] theorem raiseCounter_clock (s ctr a) :
    (raiseCounter s ctr a).clock = s.clock := by unfold raiseCounter; split <;> simp

theorem execCommit_clock (s) : ClockAt s.clock (execCommit s) := by unfold execCommit; (repeat' split) <;> simp

@[simp] theorem putImages_clock (s l) : (putImages s l).clock = s.clock := by simp [putImages]

theorem execLlaunch_clock (hazel runtime s0) : ClockAt s0.clock (execLlaunch hazel runtime s0) := by
  unfold execLlaunch; dsimp only; (repeat' split) <;> simp

/-! ### Cross-lane words -/

@[simp] theorem putS_clock (s w r v) : (putS s w r v).clock = s.clock := by simp [putS]

theorem execShfl_clock (h f s) : ClockAt s.clock (execShfl h f s) := by
  unfold execShfl
  cases f <;> refine runWord_clock fun _ _ _ => ?_ <;> rfl

theorem execVote_clock (h f p q s) : ClockAt s.clock (execVote h f p q s) := by
  unfold execVote
  refine runWord_clock fun _ _ _ => ?_
  simp

theorem execBallot_clock (h f q s) : ClockAt s.clock (execBallot h f q s) := by
  unfold execBallot
  cases f <;> refine runWord_clock fun _ _ _ => ?_ <;> rfl

theorem execRedux_clock (h op d a s) : ClockAt s.clock (execRedux h op d a s) := by
  unfold execRedux
  cases d <;> refine runWord_clock fun _ _ _ => ?_ <;> rfl

theorem execScan_clock (h op excl d a s) : ClockAt s.clock (execScan h op excl d a s) := by
  unfold execScan
  refine runWord_clock fun _ _ _ => ?_
  simp

theorem execMatchLanes_clock (h m d a s) : ClockAt s.clock (execMatchLanes h m d a s) := by
  unfold execMatchLanes
  refine runWord_clock fun _ _ _ => ?_
  simp

/-! ### Words of the copy unit -/

@[simp] theorem ownAt_refuse (c s acting code) : OwnAt c (refuse s acting code) := trivial

theorem openCardOf_clock {s w k s1 n} (h : openCardOf s w k = some (s1, n)) : s1.clock = s.clock := by
  unfold openCardOf at h
  (repeat' split at h) <;> cases h <;> simp

theorem execCpy_clock (h n dst src s) : ClockAt s.clock (execCpy h n dst src s) := by
  unfold execCpy
  refine runWord_clock fun w _ acting => ?_
  extract_lets k tm d a full
  clear_value full
  split
  · simp
  · split
    · simp
    · split
      · simp
      · split
        · simp
        · next hk => simp [openCardOf_clock hk]

theorem execCpyo_clock (h d s) : ClockAt s.clock (execCpyo h d s) := by
  unfold execCpyo
  refine runWord_clock fun w _ _ => ?_
  split
  · simp
  · next hk => simp [openCardOf_clock hk]

@[simp] theorem claimSlot_clock (s core k j h) :
    (claimSlot s core k j h).clock = s.clock := by unfold claimSlot; split <;> simp

theorem execCpyc_clock (h a s) : ClockAt s.clock (execCpyc h a s) := by
  unfold execCpyc
  refine runWord_clock fun w l acting => ?_
  dsimp only
  split
  · simp
  · split
    · simp
    · next hk => (repeat' split) <;> simp [openCardOf_clock hk]

theorem execPatch_clock (h a b c s) : ClockAt s.clock (execPatch h a b c s) := by
  unfold execPatch
  refine runWord_clock fun w _ acting => ?_
  dsimp only
  (repeat' split) <;> simp

theorem execGo_clock (h a s) : ClockAt s.clock (execGo h a s) := by
  unfold execGo
  refine runWord_clock fun w _ acting => ?_
  dsimp only
  (repeat' split) <;> simp

theorem execRinit_clock (h n a b s) : ClockAt s.clock (execRinit h n a b s) := by
  unfold execRinit
  refine runWord_clock fun w _ acting => ?_
  dsimp only
  (repeat' split) <;> simp

theorem takeSlot_clock {s w k q n d s1} (h : takeSlot s w k q n d = some s1) : s1.clock = s.clock := by
  unfold takeSlot at h
  (repeat' split at h) <;> cases h <;> simp

theorem execAwait_clock (g d n s) : ClockAt s.clock (execAwait g d n s) := by
  unfold execAwait
  refine runWord_clock fun w l acting => ?_
  dsimp only
  split
  · simp
  · split
    · simp
    · split
      · next ht => simp [takeSlot_clock ht]
      · simp

theorem execAwaitTake_clock (core wslot s) : ClockAt s.clock (execAwaitTake core wslot s) := by
  unfold execAwaitTake
  dsimp only
  split
  · simp
  · split
    · simp
    · next h => simp [takeSlot_clock h]

theorem execRels_clock (h n a s) : ClockAt s.clock (execRels h n a s) := by
  unfold execRels
  refine runWord_clock fun w _ acting => ?_
  dsimp only
  (repeat' split) <;> simp

/-! ### Accesses of the agents -/

@[simp] theorem forceAck_clock (s g x) : (forceAck s g x).clock = s.clock := by unfold forceAck; (repeat' split) <;> simp

@[simp] theorem settleGrain_clock (n s g) : (settleGrain n s g).clock = s.clock := by
  induction n generalizing s with
  | zero => rfl
  | succ n ih => unfold settleGrain; (repeat' split) <;> simp [ih]

@[simp] theorem drainGrain_clock (n s g) : (drainGrain n s g).clock = s.clock := by
  induction n generalizing s with
  | zero => simp [drainGrain]
  | succ n ih => unfold drainGrain; dsimp only; (repeat' split) <;> simp [ih]

@[simp] theorem drained_clock (s g) : (drained s g).clock = s.clock := by simp [drained]

@[simp] theorem reclaimNow_clock (s v) : (reclaimNow s v).clock = s.clock := by simp [reclaimNow]

@[simp] theorem homeNow_clock (s g ev c lines) : (homeNow s g ev c lines).clock = s.clock := by
  unfold homeNow; dsimp only; (repeat' split) <;> simp

@[simp] theorem lineFor_clock (c write s l) : (lineFor c write s l).clock = s.clock := by unfold lineFor; split <;> simp

@[simp] theorem touchFor_clock (c s pa n write) : (touchFor c s pa n write).clock = s.clock := by simp [touchFor]

@[simp] theorem putFor_clock (c s pa bs) : (putFor c s pa bs).clock = s.clock := by unfold putFor; split <;> simp

@[simp] theorem ioTouch_clock (s pa n write) : (ioTouch s pa n write).clock = s.clock := by simp [ioTouch]

@[simp] theorem ioPut_clock (s pa bs) : (ioPut s pa bs).clock = s.clock := by simp [ioPut]

@[simp] theorem rowanWrite_clock (s pa n v) : (rowanWrite s pa n v).clock = s.clock := by simp [rowanWrite]

@[simp] theorem zeroGrain_clock (s g) : (zeroGrain s g).clock = s.clock := by unfold zeroGrain; split <;> simp

@[simp] theorem ioZero_clock (s pa n) : (ioZero s pa n).clock = s.clock := by simp [ioZero]

@[simp] theorem engineTouch_clock (c s pa n write) : (engineTouch c s pa n write).clock = s.clock := by simp [engineTouch]

@[simp] theorem poisonHeld_clock (s pa n) : (poisonHeld s pa n).clock = s.clock := by unfold poisonHeld; split <;> simp

theorem ioWrite_clock {s pa bs s1} (h : ioWrite s pa bs = .done s1) : s1.clock = s.clock := by
  unfold ioWrite at h
  (repeat' split at h) <;> cases h; simp

@[simp] theorem ioReadVaBy_clock (src s asid va n) : (ioReadVaBy src s asid va n).1.clock = s.clock := by
  unfold ioReadVaBy; split <;> simp

@[simp] theorem ioReadVa_clock (s asid va n) : (ioReadVa s asid va n).1.clock = s.clock := by simp [ioReadVa]

theorem ioWriteVa_clock {s asid va bs s1} (h : ioWriteVa s asid va bs = some s1) : s1.clock = s.clock := by
  unfold ioWriteVa at h
  dsimp only at h
  (repeat' split at h) <;> cases h <;> simp

@[simp] theorem noteSpan_clock (s src asid va n need) : (noteSpan s src asid va n need).clock = s.clock := by
  unfold noteSpan; dsimp only; (repeat' split) <;> simp

@[simp] theorem ioTouchVa_clock (asid fuel va n s) : (ioTouchVa asid fuel va n s).clock = s.clock := by
  induction fuel generalizing va n s with
  | zero => rfl
  | succ fuel ih => unfold ioTouchVa; dsimp only; split <;> simp [ih]

@[simp] theorem ioTouchSpan_clock (s asid va n) : (ioTouchSpan s asid va n).clock = s.clock := by simp [ioTouchSpan]

theorem fqPostOne_clock {s id s1} (h : fqPostOne s id = some s1) : s1.clock = s.clock := by
  unfold fqPostOne at h
  dsimp only at h
  (repeat' split at h) <;> cases h
  simp

@[simp] theorem fqFault_clock (s f) : (fqFault s f).clock = s.clock := by
  unfold fqFault
  dsimp only
  split
  · rfl
  · split
    · (repeat' split) <;> simp
    · split
      · exact getD_clock (fun _ h => (fqPostOne_clock h).trans (setEncl_clock _ _ _)) (setEncl_clock _ _ _)
      · simp

theorem execFaultQueueRoom_clock (encl s) : ClockAt s.clock (execFaultQueueRoom encl s) :=
  getD_clock (fun _ h => fqPostOne_clock h) rfl

@[simp] theorem fqWithdraw_clock (s asid page) : (fqWithdraw s asid page).clock = s.clock := by
  unfold fqWithdraw
  dsimp only
  split
  · rfl
  · exact foldl_clock (fun s x => by (repeat' split) <;> simp) _ _

@[simp] theorem fqTaken_clock (s hdrPa i) : (fqTaken s hdrPa i).clock = s.clock := by simp [fqTaken]

/-! ### Memory events -/

@[simp] theorem askHome_clock (s t j ev grain line) : (askHome s t j ev grain line).clock = s.clock := by simp [askHome]

@[simp] theorem tryGlob_clock (s t j o) : ClockAt s.clock (tryGlob s t j o) := by
  unfold tryGlob; dsimp only; (repeat' split) <;> simp

@[simp] theorem tryMop_clock (s t j) : ClockAt s.clock (tryMop s t j) := by unfold tryMop; (repeat' split) <;> simp

@[simp] theorem prefetch_clock (x addr s t) : (prefetch x addr s t).clock = s.clock := by
  unfold prefetch; dsimp only; (repeat' split) <;> simp

theorem pfWord_clock (g la r x addr s) : ClockAt s.clock (pfWord g la r x addr s) :=
  runWord_clock fun _ _ acting => foldl_clock (prefetch_clock x addr) acting s

@[simp] theorem startMaint_clock (s t o k len) : (startMaint s t o k len).clock = s.clock := by
  unfold startMaint; dsimp only; (repeat' split) <;> simp

theorem execMaintenanceComplete_clock (i s) : ClockAt s.clock (execMaintenanceComplete i s) := by
  unfold execMaintenanceComplete; (repeat' split) <;> simp

theorem execStoreBufferDrain_clock (t s) : ClockAt s.clock (execStoreBufferDrain t s) := by
  unfold execStoreBufferDrain; (repeat' split) <;> simp

theorem execLoadReturn_clock (t s) : ClockAt s.clock (execLoadReturn t s) := by
  unfold execLoadReturn; dsimp only; (repeat' split) <;> simp

theorem execAtomicPerform_clock (t s) : ClockAt s.clock (execAtomicPerform t s) := by
  unfold execAtomicPerform; (repeat' split) <;> simp

theorem execLdfWake_clock (t s) : ClockAt s.clock (execLdfWake t s) := by unfold execLdfWake; (repeat' split) <;> simp

theorem execStfWaitWake_clock (t s) : ClockAt s.clock (execStfWaitWake t s) := by
  unfold execStfWaitWake; (repeat' split) <;> simp

@[simp] theorem fillCore_clock (s t e) : (fillCore s t e).clock = s.clock := by simp [fillCore]

@[simp] theorem fillCu_clock (s c e) : (fillCu s c e).clock = s.clock := by simp [fillCu]

@[simp] theorem mopWaits_clock (s t j o) : (mopWaits s t j o).clock = s.clock := by simp [mopWaits]

@[simp] theorem walkMop_clock (w s0 t s j) :
    (walkMop w s0 t s j).clock = s.clock := by unfold walkMop; (repeat' split) <;> simp

@[simp] theorem walkWaits_clock (w s0 s t) : (walkWaits w s0 s t).clock = s.clock := by
  unfold walkWaits; dsimp only; (repeat' split) <;> simp

@[simp] theorem walkThread_clock (w s0 s t) : (walkThread w s0 s t).clock = s.clock :=
  (walkWaits_clock w s0 _ t).trans (foldl_clock (walkMop_clock w s0 t) _ s)

@[simp] theorem walkJob.modJobOf_clock (s core num f) : (walkJob.modJobOf s core num f).clock = s.clock := by
  simp [walkJob.modJobOf]

@[simp] theorem walkJob_clock (w s0 core s j) : (walkJob w s0 core s j).clock = s.clock := by
  unfold walkJob; (repeat' split) <;> simp

@[simp] theorem walkCtx_clock (w s0 st s x) : (walkCtx w s0 st s x).clock = s.clock := by
  unfold walkCtx; (repeat' split) <;> simp

theorem execWalkComplete_clock (i s) : ClockAt s.clock (execWalkComplete i s) := by
  unfold execWalkComplete; (repeat' split) <;> simp

/-! ### Events of the copy unit -/

@[simp] theorem askJob_clock (s core j ev grain va whole early put) :
    (askJob s core j ev grain va whole early put).clock = s.clock := by
  simp [askJob]

theorem cuAccess_clock {s core j va need whole early bs s1} (h : cuAccess s core j va need whole early bs = .held s1) :
    s1.clock = s.clock := by
  unfold cuAccess at h
  dsimp only at h
  (repeat' split at h) <;> cases h <;> simp

@[simp] theorem jobFault_clock (s core j code va) : (jobFault s core j code va).clock = s.clock := by simp [jobFault]

@[simp] theorem cpWrite_clock (s core num p e bs) : (cpWrite s core num p e bs).clock = s.clock := by
  unfold cpWrite; split <;> simp

@[simp] theorem pieceDone_clock (s k j n p last) : (pieceDone s k j n p last).clock = s.clock := by
  unfold pieceDone; (repeat' split) <;> simp

/-- The clock is `c` in the state that a job's work on a piece leaves. -/
def CpAt (c : Nat) : CpRes → Prop
  | .next s => s.clock = c
  | .fault s _ _ => s.clock = c
  | .badAddr _ => True

@[simp] theorem cpAt_next (c s) : CpAt c (.next s) ↔ s.clock = c := Iff.rfl
@[simp] theorem cpAt_fault (c s code va) : CpAt c (.fault s code va) ↔ s.clock = c := Iff.rfl
@[simp] theorem cpAt_badAddr (c pa) : CpAt c (.badAddr pa) := trivial

theorem readPiece_clock (s core j x i early) : CpAt s.clock (readPiece s core j x i early) := by
  unfold readPiece
  dsimp only
  split
  · simp
  · split
    · next h => exact cuAccess_clock h
    · simp
    · simp
    · split <;> simp
  · split <;> simp
  · simp

@[simp] theorem blockDone_clock (s j x pa) : (blockDone s j x pa).clock = s.clock := by simp [blockDone]

@[simp] theorem landPiece_clock (s core j l x dp de) : (landPiece s core j l x dp de).clock = s.clock := by
  unfold landPiece; (repeat' split) <;> simp

theorem writePiece_clock (s core j l x early) : CpAt s.clock (writePiece s core j l x early) := by
  unfold writePiece
  dsimp only
  split
  · simp
  · split
    · simp
    · split
      · split
        · next h => exact cuAccess_clock h
        all_goals simp
      · simp

theorem pieceWork_clock (s core j l x early) : CpAt s.clock (pieceWork s core j l x early) := by
  unfold pieceWork
  split
  · simp
  · split
    · exact readPiece_clock s core j x _ early
    · exact writePiece_clock s core j l x early

theorem nearWork_clock (s core j) : ClockAt s.clock (nearWork s core j) := by
  unfold nearWork
  split
  · simp
  · next x _ =>
    have h := pieceWork_clock s core j (allXfers j) x false
    (repeat' split) <;> simp_all

theorem execCopyPieceDelivery_clock (core job s) : ClockAt s.clock (execCopyPieceDelivery core job s) := by
  unfold execCopyPieceDelivery
  split
  · simp
  · next j _ =>
    split
    · simp
    · split
      · exact nearWork_clock s core j
      · next x _ =>
        have h := pieceWork_clock s core j (allXfers j) x true
        split <;> simp_all

theorem execCopyJobStart_clock (core job s) : ClockAt s.clock (execCopyJobStart core job s) := by
  unfold execCopyJobStart; (repeat' split) <;> simp

theorem execRingSlotClaim_clock (core job s) : ClockAt s.clock (execRingSlotClaim core job s) := by
  unfold execRingSlotClaim; dsimp only; (repeat' split) <;> simp

@[simp] theorem fillSlot_clock (s core j h bad) : (fillSlot s core j h bad).clock = s.clock := by
  unfold fillSlot; (repeat' split) <;> simp

theorem execRelayHop_clock (core job s) : ClockAt s.clock (execRelayHop core job s) := by
  unfold execRelayHop; (repeat' split) <;> simp

@[simp] theorem postFollow_clock (s core j) : (postFollow s core j).clock = s.clock := by
  unfold postFollow; dsimp only; (repeat' split) <;> simp

theorem execCopyJobComplete_clock (core job s) : ClockAt s.clock (execCopyJobComplete core job s) := by
  unfold execCopyJobComplete; (repeat' split) <;> simp

theorem execCopyJobFault_clock (core job s) : ClockAt s.clock (execCopyJobFault core job s) := by
  unfold execCopyJobFault; (repeat' split) <;> simp

/-! ### Search units -/

@[simp] theorem sendPacket_clock (s k st d t pc pkt slot) : (sendPacket s k st d t pc pkt slot).clock = s.clock := by
  simp [sendPacket]

@[simp] theorem qsubTry_clock (st s x) : (qsubTry st s x).clock = s.clock := by
  unfold qsubTry; dsimp only; (repeat' split) <;> simp

@[simp] theorem addPend_clock (s k l la op) : (addPend s k l la op).clock = s.clock := by simp [addPend]

theorem execQsub_clock (h d a b s) : ClockAt s.clock (execQsub h d a b s) := by
  unfold execQsub
  refine runWord_clock fun w l acting => ?_
  dsimp only
  (repeat' split) <;> simp

theorem execQcancel_clock (h a s) : ClockAt s.clock (execQcancel h a s) := by
  unfold execQcancel
  refine runWord_clock fun _ _ _ => ?_
  simp

@[simp] theorem meterBlocks_clock (s st asid va n) : (meterBlocks s st asid va n).clock = s.clock :=
  foldl_clock (fun s b => by split <;> simp) _ s

@[simp] theorem putCtx_clock (s st n c) : (putCtx s st n c).clock = s.clock := by simp [putCtx]

theorem ctxStop_clock (s st n c r) : ClockAt s.clock (ctxStop s st n c r) := by
  unfold ctxStop; split <;> simp

@[simp] theorem takePlaces_clock (st s n) : (takePlaces st s n).clock = s.clock := by unfold takePlaces; split <;> simp

theorem beginCtx_clock (s st n c) : ClockAt s.clock (beginCtx s st n c) := by
  unfold beginCtx
  split
  · split <;> simp
  · exact ctxStop_clock s st n c _

theorem execQueryContextAllocate_clock (stack s) : ClockAt s.clock (execQueryContextAllocate stack s) := by
  have hb {s2 : State} (h : s2.clock = s.clock) (n c) : ClockAt s.clock (beginCtx s2 stack n c) := h ▸ beginCtx_clock s2 stack n c
  unfold execQueryContextAllocate
  dsimp only
  split
  · exact hb (by (repeat' split) <;> simp) _ _
  · (repeat' split) <;> simp

theorem execDistanceReply_clock (stack ctx fromStack s) : ClockAt s.clock (execDistanceReply stack ctx fromStack s) := by
  unfold execDistanceReply
  dsimp only
  (repeat' split) <;> simp [ctxStop_clock]

theorem execAdjacencyReply_clock (stack ctx node s) : ClockAt s.clock (execAdjacencyReply stack ctx node s) := by
  unfold execAdjacencyReply
  dsimp only
  (repeat' split) <;> simp [ctxStop_clock]

/-- The clock is `c` in the state, or the outcome, that the writing of a query's results leaves. -/
def ResAt (c : Nat) : Sum Out (State × Ctx) → Prop
  | .inl o => ClockAt c o
  | .inr x => x.1.clock = c

@[simp] theorem resAt_inl (c o) : ResAt c (.inl o) ↔ ClockAt c o := Iff.rfl
@[simp] theorem resAt_inr (c x) : ResAt c (.inr x) ↔ x.1.clock = c := Iff.rfl

theorem writeResults_clock {clk st n k s c} (h : s.clock = clk) : ResAt clk (writeResults st n k s c) := by
  induction k generalizing s c with
  | zero => exact h
  | succ k ih =>
    have hs (r) : ClockAt clk (ctxStop s st n c r) := h ▸ ctxStop_clock s st n c r
    unfold writeResults
    dsimp only
    (repeat' split) <;> try simp [hs, h]
    all_goals exact ih (by simp [h])

@[simp] theorem publish_clock (s q status nres fcode evals fva) :
    (publish s q status nres fcode evals fva).clock = s.clock := by
  unfold publish; dsimp only; (repeat' split) <;> simp

theorem publishCtx_clock (s x next) : ClockAt s.clock (publishCtx s x next) := by
  have hw : ResAt s.clock (if writesResults x.2.2 then writeResults x.1 x.2.1 65 s x.2.2 else .inr (s, x.2.2)) := by
    split
    · exact writeResults_clock rfl
    · rfl
  unfold publishCtx
  dsimp only
  split
  · next h => simpa [h] using hw
  · next h => rw [h] at hw; split <;> simpa using hw

theorem execQueryPublish_clock (core tslot s) : ClockAt s.clock (execQueryPublish core tslot s) := by
  unfold execQueryPublish
  dsimp only
  split
  · simp
  · split
    · simp
    · split
      · exact publishCtx_clock s _ true
      · split
        · exact publishCtx_clock s _ false
        · simp

/-! ### Work queues -/

@[simp] theorem noteQueue_clock (s t va need) : (noteQueue s t va need).clock = s.clock := by
  unfold noteQueue; dsimp only; (repeat' split) <;> simp

@[simp] theorem waitPages_clock (s l kind) : (waitPages s l kind).clock = s.clock := by simp [waitPages]

@[simp] theorem needPage_clock (s t va kind) : (needPage s t va kind).clock = s.clock := by simp [needPage]

@[simp] theorem hdrOpen_clock (s c pa) : (hdrOpen s c pa).1.clock = s.clock := by simp [hdrOpen]

/-- The clock is `c` in the state that a `deq` or an `enq` of one thread leaves. -/
def QAt (c : Nat) : QRes → Prop
  | .done s _ => s.clock = c
  | .wait s => s.clock = c
  | _ => True

@[simp] theorem qAt_done (c s item) : QAt c (.done s item) ↔ s.clock = c := Iff.rfl
@[simp] theorem qAt_wait (c s) : QAt c (.wait s) ↔ s.clock = c := Iff.rfl
@[simp] theorem qAt_miss (c va) : QAt c (.miss va) := trivial
@[simp] theorem qAt_fault (c code va) : QAt c (.fault code va) := trivial

theorem hdrOpen_state {s c pa s1 h} (e : hdrOpen s c pa = (s1, h)) : s1.clock = s.clock :=
  (congrArg (·.1.clock) e).symm.trans (hdrOpen_clock s c pa)

/-- In the proof `deqPick` and `readBad` stand as variables, so that the kernel does not evaluate them. -/
theorem deqTry_clock (s t va) : QAt s.clock (deqTry s t va) := by
  obtain ⟨pick, hp⟩ : ∃ f, deqPick = f := ⟨_, rfl⟩
  obtain ⟨bad, hb⟩ : ∃ f, readBad = f := ⟨_, rfl⟩
  unfold deqTry
  rw [hp, hb]
  split
  · simp
  · simp
  · split
    · simp
    · split
      · simp
      · extract_lets c
        split
        · next h => exact hdrOpen_state h
        · next h =>
          have h0 := hdrOpen_state h
          extract_lets r
          split
          · simp [h0]
          · simp
          · simp
          · split
            · simp
            · extract_lets s1 item
              have h1 : s1.clock = s.clock := by simp only [s1]; split <;> simp [h0]
              simp [h1]

@[simp] theorem queuePost_clock (c s pa h place item) : (queuePost c s pa h place item).clock = s.clock := by
  unfold queuePost; split <;> simp

theorem enqTry_clock (s t va item) : QAt s.clock (enqTry s t va item) := by
  unfold enqTry
  dsimp only
  split
  · simp
  · simp
  · split
    · simp
    · split
      · simp
      · split
        · next h => exact hdrOpen_state h
        · next h => (repeat' split) <;> simp [hdrOpen_state h]

theorem execDeq_clock (g d a s) : ClockAt s.clock (execDeq g d a s) := by
  unfold execDeq
  refine runWord_clock fun _ _ acting => ?_
  dsimp only
  split
  · simp
  · refine foldl_fst_clock (fun x t => ?_) acting (s, [])
    have hq := deqTry_clock x.1 t (rd64 s t a).toNat
    split
    · next e => exact (qAt_done _ _ _).1 (e ▸ hq)
    · next e => exact (qAt_wait _ _).1 (e ▸ hq)
    · simp
    · simp

@[simp] theorem mapQueue_clock (s t va) : (mapQueue s t va).clock = s.clock := by unfold mapQueue; split <;> simp

theorem execDeqTake_clock (t s) : ClockAt s.clock (execDeqTake t s) := by
  unfold execDeqTake
  dsimp only
  split
  · next va _ _ _ _ =>
    split
    · simp
    · have h := deqTry_clock (mapQueue s t va) t va
      split <;> simp_all
  · simp

theorem execEnqReservation_clock (t s) : ClockAt s.clock (execEnqReservation t s) := by
  unfold execEnqReservation
  dsimp only
  split
  · simp
  · split
    · next va item _ =>
      split
      · simp
      · have h := enqTry_clock s t va item
        split <;> simp_all
    · simp

theorem execQueueSliceBoundary_clock (s) : ClockAt s.clock (execQueueSliceBoundary s) := by simp [execQueueSliceBoundary]

/-! ### Special registers, traps and services -/

@[simp] theorem writeSpecialWarp_clock (s w r v) : (writeSpecialWarp s w r v).clock = s.clock := by
  unfold writeSpecialWarp; split <;> simp

theorem execMts_clock (g r a s) : ClockAt s.clock (execMts g r a s) := by
  unfold execMts
  refine runWord_clock fun _ _ _ => ?_
  simp

theorem execTrap_clock (g a s) : ClockAt s.clock (execTrap g a s) := by
  unfold execTrap
  refine runWord_clock fun _ _ _ => ?_
  simp

theorem execEbrk_clock (g s) : ClockAt s.clock (execEbrk g s) := by
  unfold execEbrk
  refine runWord_clock fun _ _ _ => ?_
  simp

theorem execRett_clock (g s) : ClockAt s.clock (execRett g s) := by
  unfold execRett
  split
  · simp
  · split
    · next h =>
      have hr := h ▸ runWord_clock (s := s) fun _ _ acting => by dsimp only; split <;> simp
      simp_all
    · next h => exact runWord_clock fun _ _ acting => by dsimp only; split <;> simp

theorem execTkill_clock (g s) : ClockAt s.clock (execTkill g s) := by
  unfold execTkill
  refine runWord_clock fun _ _ _ => ?_
  simp

@[simp] theorem setRunNow_clock (s w run) : (setRunNow s w run).clock = s.clock := by simp [setRunNow]

@[simp] theorem setRun_clock (s w run) : (setRun s w run).clock = s.clock := by simp [setRun]

theorem execHandlerEntry_clock (core tslot s) : ClockAt s.clock (execHandlerEntry core tslot s) := by
  unfold execHandlerEntry; dsimp only; (repeat' split) <;> simp

theorem execRgrow_clock (g o s) : ClockAt s.clock (execRgrow g o s) := by
  unfold execRgrow
  refine runWord_clock fun w _ acting => ?_
  dsimp only
  split <;> simp

theorem execRshrink_clock (g o s) : ClockAt s.clock (execRshrink g o s) := by
  unfold execRshrink
  refine runWord_clock fun _ _ acting => ?_
  dsimp only
  (repeat' split) <;> simp

@[simp] theorem grantGrow_clock (s core g) : (grantGrow s core g).clock = s.clock := by simp [grantGrow]

theorem execRgrowGrant_clock (core s) : ClockAt s.clock (execRgrowGrant core s) := by
  unfold execRgrowGrant; dsimp only; (repeat' split) <;> simp

theorem execRegisterLineFill_clock (core line s) : ClockAt s.clock (execRegisterLineFill core line s) := by
  unfold execRegisterLineFill
  dsimp only
  split
  · simp
  · next s1 h =>
    have hs : s1.clock = s.clock := by
      split at h
      · cases h; rfl
      · obtain ⟨l, -, rfl⟩ := Option.map_eq_some_iff.1 h
        simp
    split <;> simp [hs]

theorem svcPostTo_clock {s p t buf func s1 tag} (h : svcPostTo s p t buf func = some (s1, tag)) : s1.clock = s.clock := by
  unfold svcPostTo at h
  dsimp only at h
  split at h
  · cases h
  · split at h
    · cases h
    · split at h
      · cases h
      · next ho =>
        (repeat' split at h) <;> cases h
        simp [hdrOpen_state ho]

theorem execSvc_clock (g d a b s) : ClockAt s.clock (execSvc g d a b s) := by
  unfold execSvc
  refine runWord_clock fun w _ acting => ?_
  dsimp only
  split
  · simp
  · split
    · simp
    · refine foldl_fst_clock (fun x t => ?_) acting (s, [])
      split
      · simp
      · split
        · simp
        · split
          · split
            · simp
            · split
              · next h =>
                split at h
                · exact svcPostTo_clock h
                · cases h
              · simp
          · simp

theorem execSvcPost_clock (p s) : ClockAt s.clock (execSvcPost p s) := by
  unfold execSvcPost
  dsimp only
  split
  · simp
  · split
    · split
      · simp
      · next h => simp [svcPostTo_clock h]
    · simp

@[simp] theorem svcDone_clock (s t v) : (svcDone s t v).clock = s.clock := by unfold svcDone; split <;> simp

theorem execReplyDoorbell_clock (p tag status s) : ClockAt s.clock (execReplyDoorbell p tag status s) := by
  unfold execReplyDoorbell; (repeat' split) <;> simp

theorem execRcall_clock (g d a b s) : ClockAt s.clock (execRcall g d a b s) := by
  unfold execRcall
  refine runWord_clock fun w _ acting => ?_
  dsimp only
  split
  · simp
  · split
    · simp
    · exact foldl_fst_clock (fun x t => by (repeat' split) <;> simp) acting (s, [])

@[simp] theorem callDone_clock (s c status) : (callDone s c status).clock = s.clock := by unfold callDone; split <;> simp

/-! ### Launch, placement and retirement -/

@[simp] theorem modKick_clock (s encl kick f) : (modKick s encl kick f).clock = s.clock := by unfold modKick; split <;> simp

theorem refuseRecord_clock {s encl kick e l code s1} (h : refuseRecord s encl kick e l code = .done s1) :
    s1.clock = s.clock := by
  unfold refuseRecord at h
  dsimp only at h
  split at h
  · cases h; simp
  · split at h
    · split at h
      · cases h; simp
      · rw [ioWrite_clock h]; simp
    · cases h; simp

theorem execDispatchRecord_clock (encl kick s) : ClockAt s.clock (execDispatchRecord encl kick s) := by
  unfold execDispatchRecord
  dsimp only
  split
  · simp
  · split
    · simp
    · split
      · simp
      · split
        · split
          · next h => simp [refuseRecord_clock h]
          · simp
        · simp

@[simp] theorem startWarp_clock (s w l bind) : (startWarp s w l bind).clock = s.clock := by simp [startWarp]

@[simp] theorem placeTeam_clock (s l gid gnum p c n img) : (placeTeam s l gid gnum p c n img).clock = s.clock := by
  unfold placeTeam; split <;> simp

theorem execGrovePlacement_clock (i pl s) : ClockAt s.clock (execGrovePlacement i pl s) := by
  unfold execGrovePlacement; (repeat' split) <;> simp

theorem execPlacementStarvation_clock (i s) : ClockAt s.clock (execPlacementStarvation i s) := by
  unfold execPlacementStarvation; (repeat' split) <;> simp

theorem execIssueSelection_clock (core slot s) : ClockAt s.clock (execIssueSelection core slot s) := by
  unfold execIssueSelection; split <;> simp

theorem execWaitCountStarvation_clock (core wslot s) : ClockAt s.clock (execWaitCountStarvation core wslot s) := by
  unfold execWaitCountStarvation; dsimp only; (repeat' split) <;> simp

theorem execBindRecordWrite_clock (core wslot rec s) : ClockAt s.clock (execBindRecordWrite core wslot rec s) := by
  unfold execBindRecordWrite; dsimp only; (repeat' split) <;> simp

@[simp] theorem ioWords_clock (asid n va s) : (ioWords asid n va s).1.clock = s.clock := by
  induction n generalizing va s with
  | zero => rfl
  | succ n ih =>
    have hr {s1 : State} {bs} (h : ioReadVaBy 0 s asid va 4 = (s1, bs)) : s1.clock = s.clock :=
      (congrArg (·.1.clock) h).symm.trans (ioReadVaBy_clock 0 s asid va 4)
    unfold ioWords
    split
    · next h => exact hr h
    · next h => exact (ih _ _).trans (hr h)

theorem execGsw_clock (p v s) : ClockAt s.clock (execGsw p v s) := by
  have hr {asid va n : Nat} {s1 : State} {bs} (h : ioReadVaBy 0 s asid va n = (s1, bs)) : s1.clock = s.clock :=
    (congrArg (·.1.clock) h).symm.trans (ioReadVaBy_clock 0 s asid va n)
  unfold execGsw
  dsimp only
  split
  · simp
  · split
    · simp
    · split
      · simp
      · split
        · next h => simp [hr h]
        · next h => (repeat' split) <;> simp [hr h]

@[simp] theorem setTeamRun_clock (s k run) : (setTeamRun s k run).clock = s.clock := by simp [setTeamRun]

theorem execGuestSwitchCommit_clock (p s) : ClockAt s.clock (execGuestSwitchCommit p s) := by
  unfold execGuestSwitchCommit; dsimp only; (repeat' split) <;> simp

@[simp] theorem freeTeam_clock (s k) : (freeTeam s k).clock = s.clock := by
  unfold freeTeam; dsimp only; (repeat' split) <;> simp

@[simp] theorem joinFault_clock (s k) : (joinFault s k).clock = s.clock := by simp [joinFault]

theorem execTeamRetirement_clock (core tslot s) : ClockAt s.clock (execTeamRetirement core tslot s) := by
  unfold execTeamRetirement
  dsimp only
  split
  · simp
  · split
    · simp
    · split
      · simp
      · simp
      · simp
      · split
        · simp
        · split
          · simp
          · split
            · next h => simp [ioWrite_clock h]
            · simp
            · simp

/-! ### Page tables and Rowan calls -/

@[simp] theorem splitEntry_clock (s g n step sz) : (splitEntry s g n step sz).clock = s.clock := by simp [splitEntry]

@[simp] theorem splitTo_clock (s frame bits) : (splitTo s frame bits).clock = s.clock := by simp [splitTo]

@[simp] theorem joinPage_clock (s frame bits) : (joinPage s frame bits).clock = s.clock := by simp [joinPage]

@[simp] theorem setPage_clock (s frame bits owner state) : (setPage s frame bits owner state).clock = s.clock := by
  simp [setPage]

@[simp] theorem stampPage_clock (s frame bits key) : (stampPage s frame bits key).clock = s.clock := by simp [stampPage]

theorem takeTable_clock {s p encl n s1 t} (h : takeTable s p encl n = some (s1, t)) : s1.clock = s.clock := by
  unfold takeTable at h
  split at h <;> cases h; simp

@[simp] theorem takePage_clock (s frame bits encl key state) : (takePage s frame bits encl key state).clock = s.clock := by
  simp [takePage]

@[simp] theorem touchWalk_clock (s asid va) : (touchWalk s asid va).clock = s.clock := by simp [touchWalk]

theorem ensureTable_clock {p encl va lvl l table s s1 t} (h : ensureTable p encl va lvl l table s = .ok s1 t) :
    s1.clock = s.clock := by
  induction l generalizing table s with
  | zero => cases h; rfl
  | succ l ih =>
    unfold ensureTable at h
    dsimp only at h
    split at h
    · cases h; rfl
    · split at h
      · split at h
        · cases h
        · next ht => exact (ih h).trans ((rowanWrite_clock _ _ _ _).trans (takeTable_clock ht))
      · split at h
        · cases h
        · exact ih h

@[simp] theorem writeLeaves_clock (s table va bits leaf) : (writeLeaves s table va bits leaf).clock = s.clock := by
  simp [writeLeaves]

theorem mapPage_clock {s p encl asid va bits pa rwx s1 t} (h : mapPage s p encl asid va bits pa rwx = .ok s1 t) :
    s1.clock = s.clock := by
  unfold mapPage at h
  split at h
  · next he => cases h; simp [ensureTable_clock he]
  · next hn => exact absurd h (hn s1 t)

theorem headCall_clock {s funcs c s1} (h : headCall s funcs = some (c, s1)) : s1.clock = s.clock := by
  unfold headCall at h
  (repeat' split at h) <;> cases h; rfl

@[simp] theorem takeMapped_clock (s p encl key state pa bits) :
    (takeMapped s p encl key state pa bits).clock = s.clock := by
  simp [takeMapped]

theorem mapPages_clock {p encl asid bits rwx vas pa s s1 t} (h : mapPages p encl asid bits rwx vas pa s = .ok s1 t) :
    s1.clock = s.clock := by
  induction vas generalizing pa s with
  | nil => cases h; rfl
  | cons va vas ih =>
    unfold mapPages at h
    split at h
    · next hm => exact (ih h).trans (mapPage_clock hm)
    · next hn => exact absurd h (hn s1 t)

@[simp] theorem mapCall_clock (s c) : (mapCall s c).1.clock = s.clock := by
  unfold mapCall
  dsimp only
  (repeat' split) <;> try rfl
  next hm => rw [mapPages_clock hm]; simp

/-- A call that Rowan answers at once keeps CLOCK where its effect does. -/
theorem runCall_clock {funcs f s} (hf : ∀ s c, (f s c).1.clock = s.clock) : ClockAt s.clock (runCall funcs f s) := by
  unfold runCall
  split
  · simp
  · next h => simp [hf, headCall_clock h]

@[simp] theorem releasePage_clock (s p frame bits) : (releasePage s p frame bits).clock = s.clock := by simp [releasePage]

@[simp] theorem releaseUnmapped_clock (s p frame bits) : (releaseUnmapped s p frame bits).clock = s.clock := by
  simp [releaseUnmapped]

@[simp] theorem endMigration_clock (s m) : (endMigration s m).clock = s.clock := by simp [endMigration]

@[simp] theorem endSeal_clock (s c va src dst rwx pot) : (endSeal s c va src dst rwx pot).clock = s.clock := by
  unfold endSeal
  dsimp only
  split
  · rfl
  · exact getD_clock (fun _ h => (ioWriteVa_clock h).trans (by simp)) (by simp)

@[simp] theorem finishShoot_clock (s d) : (finishShoot s d).clock = s.clock := by
  unfold finishShoot; dsimp only; (repeat' split) <;> simp

@[simp] theorem startShoot_clock (s asid lo hi andThen call) : (startShoot s asid lo hi andThen call).clock = s.clock := by
  simp [startShoot]

@[simp] theorem shootDrop_clock (s d a) : (shootDrop s d a).clock = s.clock := by unfold shootDrop; split <;> simp

theorem execShootdownAck_clock (a s) : ClockAt s.clock (execShootdownAck a s) := by
  unfold execShootdownAck; (repeat' split) <;> simp

@[simp] theorem clearPages_clock (s asid bits vas) : (clearPages s asid bits vas).clock = s.clock :=
  foldl_clock (fun s va => by split <;> simp) vas s

theorem unmapCall_clock {s c s1} (h : unmapCall s c = .inr s1) : s1.clock = s.clock := by
  unfold unmapCall at h
  dsimp only at h
  (repeat' split at h) <;> cases h
  all_goals simp

theorem protCall_clock {s c s1} (h : protCall s c = .inr s1) : s1.clock = s.clock := by
  unfold protCall at h
  dsimp only at h
  (repeat' split at h) <;> cases h
  simp

@[simp] theorem copyPart_clock (s src dst n) : (copyPart s src dst n).clock = s.clock := by simp [copyPart]

@[simp] theorem copyLines_clock (s src dst lines) : (copyLines s src dst lines).clock = s.clock := by simp [copyLines]

theorem moveCall_clock {s c s1} (h : moveCall s c = .inr s1) : s1.clock = s.clock := by
  unfold moveCall at h
  dsimp only at h
  split at h
  · cases h
  split at h
  · cases h
  split at h
  · cases h
  split at h
  · cases h
  split at h
  · cases h
  · obtain rfl := Sum.inr.inj h
    simp

/-- A call that Rowan starts keeps CLOCK where its start does. -/
theorem startCall_clock {funcs f s} (hf : ∀ {s c s1}, f s c = .inr s1 → s1.clock = s.clock) :
    ClockAt s.clock (startCall funcs f s) := by
  unfold startCall
  split
  · simp
  · next h =>
    split
    · simp [headCall_clock h]
    · next h1 => exact (hf h1).trans (headCall_clock h)

@[simp] theorem setMig_clock (s frame on) : (setMig s frame on).clock = s.clock := by simp [setMig]

@[simp] theorem cleanLines_clock (s lines) : (cleanLines s lines).clock = s.clock := by simp [cleanLines]

@[simp] theorem recallPage_clock (s m) : (recallPage s m).clock = s.clock := by simp [recallPage]

@[simp] theorem switchFrame_clock (s m) : (switchFrame s m).clock = s.clock := by
  unfold switchFrame; dsimp only; (repeat' split) <;> simp

theorem execMigrationPass_clock (s) : ClockAt s.clock (execMigrationPass s) := by
  unfold execMigrationPass; (repeat' split) <;> simp

/-! ### Enclaves -/

theorem writeSpan_clock {asid fuel va bs s s1} (h : writeSpan asid fuel va bs s = some s1) : s1.clock = s.clock := by
  induction fuel generalizing va bs s with
  | zero => cases h; rfl
  | succ fuel ih =>
    unfold writeSpan at h
    dsimp only at h
    split at h
    · cases h; rfl
    · split at h
      · next hw => exact (ih h).trans (ioWriteVa_clock hw)
      · cases h

theorem writeSpanAt_clock {s asid va bs s1} (h : writeSpanAt s asid va bs = some s1) :
    s1.clock = s.clock := writeSpan_clock h

@[simp] theorem takeIds_clock (s ids) : (takeIds s ids).clock = s.clock := by simp [takeIds]

theorem newRoot_clock {s p encl asid s1} (h : newRoot s p encl asid = some s1) : s1.clock = s.clock := by
  unfold newRoot at h
  split at h
  · cases h
  · next ht =>
    have hs := takeTable_clock ht
    cases h
    exact hs

theorem addPage_clock {s p encl asid va rwx state content s1} (h : addPage s p encl asid va rwx state content = some s1) :
    s1.clock = s.clock := by
  unfold addPage at h
  split at h
  · next he =>
    split at h <;> cases h
    simp [ensureTable_clock he]
  · cases h

theorem addKickPage_clock {s p encl asid va s1} (h : addKickPage s p encl asid va = some s1) : s1.clock = s.clock := by
  unfold addKickPage at h
  split at h <;> cases h
  next he => simp [ensureTable_clock he]

@[simp] theorem addHarts_clock (s encl asid hentry nthr) : (addHarts s encl asid hentry nthr).clock = s.clock :=
  foldl_clock (fun s _ => setHart_clock s _ _) _ s

@[simp] theorem noteCreate_clock (s asid va) : (noteCreate s asid va).clock = s.clock := by
  unfold noteCreate; dsimp only; (repeat' split) <;> simp

theorem createEnclave_clock {s creator ce va s1 id} (h : createEnclave s creator ce va = .inr (s1, id)) :
    s1.clock = s.clock := by
  unfold createEnclave at h
  dsimp only at h
  split at h
  · cases h
  split at h
  · cases h
  split at h
  · split at h
    · cases h
    · split at h
      · cases h
      · next hk =>
        split at h <;> cases h
        next hw =>
        obtain ⟨s2, h2, hk⟩ := Option.bind_eq_some_iff.1 hk
        have h3 := foldl_bind_clock (fun _ _ _ ha => addPage_clock ha) _ (fun _ hr => newRoot_clock hr) h2
        rw [ioWriteVa_clock hw]
        simp only [addHarts_clock, setEncl_clock, noteSpoilt_clock, ioPut_clock, addKickPage_clock hk, h3, takeIds_clock]
        exact foldl_clock (fun s e => by split <;> simp) _ _ |>.trans (by simp)
  · cases h

@[simp] theorem forceMop_clock (s t) : (forceMop s t).clock = s.clock := by
  have he {va item s1 r} (h : enqTry s t va item = .done s1 r) : s1.clock = s.clock := by
    simpa [h] using enqTry_clock s t va item
  unfold forceMop
  dsimp only
  split
  · rfl
  · (repeat' split) <;> simp
    all_goals next h _ => exact he h

@[simp] theorem drainThread_clock (s t) : (drainThread s t).clock = s.clock := by simp [drainThread]

@[simp] theorem destroyTeam_clock (s k) : (destroyTeam s k).clock = s.clock := by
  unfold destroyTeam
  dsimp only
  split
  · simp
  · split
    · split
      · next h => simp [ioWrite_clock h]
      · simp
    · simp

@[simp] theorem dropAsid_clock (s asid) : (dropAsid s asid).clock = s.clock := by simp [dropAsid]

@[simp] theorem dropLines_clock (s frame bits) : (dropLines s frame bits).clock = s.clock := by simp [dropLines]

@[simp] theorem noteLost_clock (s asid kslot) :
    (noteLost s asid kslot).clock = s.clock := by unfold noteLost; split <;> simp

@[simp] theorem destroyOne_clock (s id) : (destroyOne s id).clock = s.clock := by unfold destroyOne; split <;> simp

@[simp] theorem destroyTree_clock (s id) : (destroyTree s id).clock = s.clock := by simp [destroyTree]

@[simp] theorem attest_clock (s id e rpt usr) : (attest s id e rpt usr).1.clock = s.clock := by
  have hr {s0 : State} {user} (h : ioReadVa s e.asid usr 64 = (s0, user)) : s0.clock = s.clock :=
    (congrArg (·.1.clock) h).symm.trans (ioReadVa_clock s e.asid usr 64)
  unfold attest
  split
  · rfl
  · split
    · next h _ =>
      split
      · exact hr h
      · split
        · next hw => exact (ioWriteVa_clock hw).trans (hr h)
        · exact hr h
    · next h => exact hr h
    · next h _ => simp [hr h]

@[simp] theorem forgetImages_clock (s frame bits) : (forgetImages s frame bits).clock = s.clock := by simp [forgetImages]

theorem agentPart_clock (s p id e asid hentry nthr) :
    (modPart (addHarts (setEncl s id e) id asid hentry nthr) p fun x => { x with agent := id }).clock = s.clock := by simp

theorem buildAgent_clock {s p areas plain s1} (h : buildAgent s p areas plain = some s1) : s1.clock = s.clock := by
  unfold buildAgent at h
  split at h
  · extract_lets id asid s0 s1 s2 large s3 put kickVa s4 at h
    have h0 : s0.clock = s.clock := by simp [s0]
    have h1 : s1.clock = s.clock := (foldl_clock (fun _ _ => by simp) _ _).trans h0
    have h2 : s2.clock = s.clock := (foldl_clock (fun _ _ => by simp) _ _).trans h1
    have h3 : s3.clock = s.clock := (foldl_clock (fun _ _ => by simp) _ _).trans h2
    have h4 (s') (e : s4 = some s') : s'.clock = s.clock := by
      obtain ⟨sm, hm, hk⟩ := Option.bind_eq_some_iff.1 e
      have hmap' : sm.clock = s3.clock := foldl_bind_clock (fun s x s1 hx => by
          split at hx <;> cases hx
          next hx => exact mapPage_clock hx) _ (fun _ hr => newRoot_clock hr) hm
      exact (addKickPage_clock hk).trans (hmap'.trans h3)
    clear_value s4
    split at h
    · cases h
    · next s5 =>
      split at h
      · next s6 t h6 =>
        extract_lets s7 at h
        have h7 : s7.clock = s.clock := (foldl_clock (fun s f => by split <;> simp) _ _).trans
          ((ensureTable_clock h6).trans (h4 _ rfl))
        cases h
        exact (agentPart_clock ..).trans h7
      · cases h
  · cases h

theorem execPcfg_clock (p v s) :
    ClockAt s.clock (execPcfg p v s) := by unfold execPcfg; dsimp only; (repeat' split) <;> simp

theorem execPartitionBuild_clock (p s) : ClockAt s.clock (execPartitionBuild p s) := by
  unfold execPartitionBuild
  dsimp only
  split
  · simp
  · split
    · simp
    · split
      · simp
      · next h => simp [buildAgent_clock h]

/-! ### Block quantisation -/

theorem execQblk_clock (h amax d a s) : ClockAt s.clock (execQblk h amax d a s) := by
  unfold execQblk
  refine runWord_clock fun _ _ _ => ?_
  simp

/-! ### Hart exceptions -/

@[simp] theorem hartExc_clock (s h e) : (hartExc s h e).clock = s.clock := by simp [hartExc]

theorem execIllegalInstructionException_clock (w s) : ClockAt s.clock (execIllegalInstructionException w s) := by
  unfold execIllegalInstructionException; split <;> simp

/-! ### Extension instructions -/

@[simp] theorem hartDone_clock (s h rd v) : (hartDone s h rd v).clock = s.clock := by simp [hartDone]

/-- An extension instruction of a hart keeps CLOCK where its effect does. -/
theorem runHart_clock {w f s} (hf : ∀ h x e, ClockAt s.clock (f h x e)) : ClockAt s.clock (runHart w f s) := by
  unfold runHart
  split
  · simp
  · dsimp only
    split
    · simp
    · exact hf _ _ _

/-- The clock is `c` in the state that a hart's load leaves. -/
def LoadAt (c : Nat) : HartLoad → Prop
  | .ok s _ => s.clock = c
  | .fault s => s.clock = c
  | .badAddr _ => True

@[simp] theorem loadAt_ok (c s bs) : LoadAt c (.ok s bs) ↔ s.clock = c := Iff.rfl
@[simp] theorem loadAt_fault (c s) : LoadAt c (.fault s) ↔ s.clock = c := Iff.rfl
@[simp] theorem loadAt_badAddr (c pa) : LoadAt c (.badAddr pa) := trivial

theorem hartLoad_clock (s h va n) : LoadAt s.clock (hartLoad s h va n) := by
  unfold hartLoad
  split
  · next e => (repeat' split) <;> simp [hartTrans_state e]
  · simp
  · next e => exact hartTrans_state e

@[simp] theorem kickAppend_clock (s h encl kick rec rd) : (kickAppend s h encl kick rec rd).clock = s.clock := by
  simp [kickAppend]

theorem execSpawn_clock (rd rs1 rs2 s) : ClockAt s.clock (execSpawn rd rs1 rs2 s) := by
  unfold execSpawn
  refine runHart_clock fun h x e => ?_
  dsimp only
  split
  · simp
  · split
    · simp
    · have hl := hartLoad_clock s h (rdX x rs1).toNat 128
      split
      · simp
      · next hs => simp [(loadAt_fault _ _).1 (hs ▸ hl)]
      · next hs => split <;> simp [(loadAt_ok _ _ _).1 (hs ▸ hl)]

theorem execSpawnAppend_clock (hart s) : ClockAt s.clock (execSpawnAppend hart s) := by
  unfold execSpawnAppend; (repeat' split) <;> simp

theorem joinRead_clock (s h va rd) : ClockAt s.clock (joinRead s h va rd) := by
  have hl := hartLoad_clock s h va 8
  unfold joinRead
  split
  · simp
  · simp_all
  · dsimp only; split <;> simp_all

theorem execJoinw_clock (rd rs1 s) : ClockAt s.clock (execJoinw rd rs1 s) := by
  unfold execJoinw
  refine runHart_clock fun h x _ => ?_
  dsimp only
  split
  · simp
  · exact joinRead_clock ..

theorem execJoinwComplete_clock (ha s) : ClockAt s.clock (execJoinwComplete ha s) := by
  unfold execJoinwComplete
  split
  · exact joinRead_clock ..
  · simp

/-- A trap of a hart to Rowan keeps CLOCK where its effect does. -/
theorem rowanTrap_clock {w rd busy f s} (hf : ∀ x e, (f x e).1.clock = s.clock) :
    ClockAt s.clock (rowanTrap w rd busy f s) :=
  runHart_clock fun h x e => by (repeat' split) <;> simp [hf]

theorem execEcreate_clock (rd rs1 s) : ClockAt s.clock (execEcreate rd rs1 s) := by
  unfold execEcreate
  refine rowanTrap_clock fun x e => ?_
  split
  · simp
  · next hc => exact createEnclave_clock hc

theorem execEdestroy_clock (rd rs1 s) : ClockAt s.clock (execEdestroy rd rs1 s) := by
  unfold execEdestroy
  exact rowanTrap_clock fun x _ => by simp

theorem execEattest_clock (rd rs1 rs2 s) : ClockAt s.clock (execEattest rd rs1 rs2 s) := by
  unfold execEattest
  exact rowanTrap_clock fun x e => attest_clock ..

/-! ### Host port -/

@[simp] theorem setReply_clock (s r) : (setReply s r).clock = s.clock := by simp [setReply]

theorem execPwrlim_clock (v s) :
    ClockAt s.clock (execPwrlim v s) := by unfold execPwrlim; dsimp only; (repeat' split) <;> simp

theorem execEmergencyPowerReduction_clock (asserted s) : ClockAt s.clock (execEmergencyPowerReduction asserted s) := by
  simp [execEmergencyPowerReduction]

@[simp] theorem setMsLim_clock (s p m x) : (setMsLim s p m x).clock = s.clock := by simp [setMsLim]

@[simp] theorem setMsCfg_clock (s p m x) : (setMsCfg s p m x).clock = s.clock := by simp [setMsCfg]

@[simp] theorem startSplit_clock (s p m win total) : (startSplit s p m win total).clock = s.clock := by simp [startSplit]

theorem execMslim_clock (p m v s) : ClockAt s.clock (execMslim p m v s) := by
  unfold execMslim; dsimp only; (repeat' split) <;> simp

theorem execMscfg_clock (p m v s) : ClockAt s.clock (execMscfg p m v s) := by
  unfold execMscfg; dsimp only; (repeat' split) <;> simp

@[simp] theorem cleanShare_clock (s p m) : (cleanShare s p m).clock = s.clock := by simp [cleanShare]

theorem execMeadowStoreSplitChange_clock (p m s) : ClockAt s.clock (execMeadowStoreSplitChange p m s) := by
  unfold execMeadowStoreSplitChange; dsimp only; (repeat' split) <;> simp

theorem execTdispRequest_clock (vf r s) : ClockAt s.clock (execTdispRequest vf r s) := by
  unfold execTdispRequest; dsimp only; (repeat' split) <;> simp

theorem execLockInterfaceRequest_clock (vf s) : ClockAt s.clock (execLockInterfaceRequest vf s) := by
  unfold execLockInterfaceRequest; dsimp only; (repeat' split) <;> simp

@[simp] theorem setStream_clock (s i x) : (setStream s i x).clock = s.clock := by simp [setStream]

@[simp] theorem reopenStream_clock (s i) : (reopenStream s i).clock = s.clock := by simp [reopenStream]

theorem execIdeKmKeyProgramming_clock (stream session selective s) :
    ClockAt s.clock (execIdeKmKeyProgramming stream session selective s) := by
  unfold execIdeKmKeyProgramming; dsimp only; (repeat' split) <;> simp

@[simp] theorem logHost_clock (s r cause) : (logHost s r cause).clock = s.clock := by simp [logHost]

@[simp] theorem hostRefuse_clock (s r) : (hostRefuse s r).clock = s.clock := by simp [hostRefuse]

@[simp] theorem hostSpoil_clock (s es r) : (hostSpoil s es r).clock = s.clock := by simp [hostSpoil]

@[simp] theorem hostTouch_clock (s r) : (hostTouch s r).clock = s.clock := by simp [hostTouch]

@[simp] theorem hostWrite_clock (s r bs) : (hostWrite s r bs).clock = s.clock := by simp [hostWrite]

@[simp] theorem hostBound_clock (s encl part r) : (hostBound s encl part r).clock = s.clock := by
  unfold hostBound; (repeat' split) <;> simp

@[simp] theorem sealTouch_clock (write s b) : (sealTouch write s b).clock = s.clock := by simp [sealTouch]

@[simp] theorem restoreBlock_clock (s b new) : (restoreBlock s b new).clock = s.clock := by
  unfold restoreBlock; (repeat' split) <;> simp

@[simp] theorem storeBlock_clock (s r bs b) : (storeBlock s r bs b).clock = s.clock := by simp [storeBlock]

@[simp] theorem hostSealed_clock (s p r) :
    (hostSealed s p r).clock = s.clock := by unfold hostSealed; (repeat' split) <;> simp

@[simp] theorem peerBlock_clock (r bs s b) : (peerBlock r bs s b).clock = s.clock := by unfold peerBlock; split <;> simp

@[simp] theorem peerWrite_clock (s r bs) : (peerWrite s r bs).clock = s.clock := by simp [peerWrite]

@[simp] theorem hostReach_clock (s r) : (hostReach s r).clock = s.clock := by
  unfold hostReach; dsimp only; (repeat' split) <;> simp

@[simp] theorem allOnes_clock (s r) : (allOnes s r).clock = s.clock := by simp [allOnes]

@[simp] theorem hostRegs_clock (s r) : (hostRegs s r).clock = s.clock := by simp [hostRegs]

theorem execHostMemoryAccess_clock (r s) : ClockAt s.clock (execHostMemoryAccess r s) := by
  unfold execHostMemoryAccess; (repeat' split) <;> simp

@[simp] theorem writePmc_clock (s p off v) : (writePmc s p off v).clock = s.clock := by simp [writePmc]

theorem execRegisterWrite_clock (fn off v s) : ClockAt s.clock (execRegisterWrite fn off v s) := by
  unfold execRegisterWrite; (repeat' split) <;> simp

/-! ### Integer compares -/

theorem execIcmp_clock (h c p ops s) : ClockAt s.clock (execIcmp h c p ops s) := by
  cases ops <;> exact runThreads_clock ..

/-! ### Uniform words -/

theorem uniWord_clock (g d srcs f s) : ClockAt s.clock (uniWord g d srcs f s) := by
  unfold uniWord
  refine runWord_clock fun _ _ _ => ?_
  simp

theorem execScmp_clock (h c p a b s) : ClockAt s.clock (execScmp h c p a b s) := by
  unfold execScmp
  refine runWord_clock fun _ _ _ => ?_
  simp

theorem sldWord_clock (g la d srcs addr s) : ClockAt s.clock (sldWord g la d srcs addr s) := by
  unfold sldWord
  refine runWord_clock fun _ _ _ => ?_
  simp

/-! ### Long-immediate uniform words -/

theorem lUniWord_clock (g d a f s) : ClockAt s.clock (lUniWord g d a f s) := uniWord_clock ..

/-! ### Further Rowan calls -/

theorem sealCall_clock {s c s1} (h : sealCall s c = .inr s1) : s1.clock = s.clock := by
  unfold sealCall at h
  dsimp only at h
  (repeat' split at h) <;> cases h
  simp

@[simp] theorem unsealCall_clock (s c) : (unsealCall s c).1.clock = s.clock := by
  unfold unsealCall
  dsimp only
  (repeat' split) <;> try rfl
  next hm => rw [mapPage_clock hm]; simp

@[simp] theorem usageCall_clock (s c) : (usageCall s c).1.clock = s.clock := by
  unfold usageCall
  dsimp only
  (repeat' split) <;> try simp
  next h => rw [writeSpanAt_clock h]; simp

@[simp] theorem svcqCall_clock (s c) : (svcqCall s c).1.clock = s.clock := by
  unfold svcqCall; dsimp only; (repeat' split) <;> simp

@[simp] theorem bindCall_clock (s c) : (bindCall s c).1.clock = s.clock := by unfold bindCall; (repeat' split) <;> simp

@[simp] theorem ploadCall_clock (s c) : (ploadCall s c).1.clock = s.clock := by
  unfold ploadCall
  dsimp only
  (repeat' split) <;> try simp
  next h => rw [ioWriteVa_clock h]; simp

@[simp] theorem punloadCall_clock (s c) : (punloadCall s c).1.clock = s.clock := by
  unfold punloadCall; dsimp only; (repeat' split) <;> simp

@[simp] theorem flushGrains_clock (s0 hit) : (flushGrains s0 hit).clock = s0.clock := by simp [flushGrains]

theorem execRange_clock (s) : ClockAt s.clock (execRange s) := by
  unfold execRange
  split
  · simp
  · next h => dsimp only; (repeat' split) <;> simp [headCall_clock h]

/-! ### Fault acknowledgement -/

@[simp] theorem ackThread_clock (asid page deny s t) : (ackThread asid page deny s t).clock = s.clock := by
  unfold ackThread
  extract_lets who mop s1 s2
  have h1 : s1.clock = s.clock := foldl_clock (fun s j => by simp only [mop]; (repeat' split) <;> simp) _ s
  have h2 : s2.clock = s.clock := by simp only [s2]; (repeat' split) <;> simp [h1]
  (repeat' split) <;> simp [h2]

@[simp] theorem ackJob_clock (asid page deny core s j) :
    (ackJob asid page deny core s j).clock = s.clock := by simp [ackJob]

@[simp] theorem ackJobs_clock (asid page deny s core) : (ackJobs asid page deny s core).clock = s.clock := by simp [ackJobs]

@[simp] theorem ackCtxs_clock (asid page deny s st) : (ackCtxs asid page deny s st).clock = s.clock := by simp [ackCtxs]

@[simp] theorem ackPage_clock (s asid page deny) : (ackPage s asid page deny).clock = s.clock := by simp [ackPage]

@[simp] theorem fqackOne_clock (s a b) : (fqackOne s a b).1.clock = s.clock := by
  unfold fqackOne; dsimp only; (repeat' split) <;> simp

theorem execFqack_clock (g d a b s) : ClockAt s.clock (execFqack g d a b s) := by
  unfold execFqack
  refine runWord_clock fun _ _ acting => ?_
  dsimp only
  split
  · simp
  · exact foldl_fst_clock (fun x t => by simp) acting (s, [])

/-! ### SPDM -/

@[simp] theorem closeSession_clock (s n) : (closeSession s n).clock = s.clock := by simp [closeSession]

@[simp] theorem spdmAnswer_clock (s who r) : (spdmAnswer s who r).1.clock = s.clock := by
  unfold spdmAnswer; (repeat' split) <;> simp

@[simp] theorem spdmServe_clock (s encl n x r) : (spdmServe s encl n x r).1.clock = s.clock := by
  unfold spdmServe; split <;> simp

@[simp] theorem inbandAnswer_clock (s encl l) : (inbandAnswer s encl l).1.clock = s.clock := by
  unfold inbandAnswer; split <;> simp

@[simp] theorem spdmCallOf_clock (s c) : (spdmCallOf s c).1.clock = s.clock := by
  unfold spdmCallOf
  dsimp only
  (repeat' split) <;> try simp
  next h => rw [writeSpanAt_clock h]; simp

theorem execSpdmCall_clock (s) : ClockAt s.clock (execSpdmCall s) := runCall_clock spdmCallOf_clock

@[simp] theorem doeAnswer_clock (s session r) : (doeAnswer s session r).1.clock = s.clock := by
  unfold doeAnswer; (repeat' split) <;> simp

theorem spdmEvent_clock (via r s) : ClockAt s.clock (spdmEvent via r s) := by
  unfold spdmEvent
  split
  · split <;> simp
  · split
    · simp
    · split
      · split
        · exact execSpdmCall_clock s
        · simp
      · simp

/-! ### Sleep and swap -/

@[simp] theorem relocate_clock (r s) : (relocate r s).clock = s.clock := by simp [relocate]

@[simp] theorem idleCore_clock (s c) : (idleCore s c).clock = s.clock := by simp [idleCore]

@[simp] theorem emptyCore_clock (s r p c) : (emptyCore s r p c).clock = s.clock := by simp [emptyCore]

@[simp] theorem dropClean_clock (s ks) : (dropClean s ks).clock = s.clock := by simp [dropClean]

@[simp] theorem saveItem_clock (p m frames asid o n s) : (saveItem p m frames asid o n s).clock = s.clock :=
  foldl_clock (fun s i => by split <;> simp) _ s

@[simp] theorem saveItems_clock (p m frames ks o s) : (saveItems p m frames ks o s).clock = s.clock := by
  induction ks generalizing o s with
  | nil => rfl
  | cons k ks ih => simp [saveItems, ih]

theorem saveDirty_clock {s p m ks s1} (h : saveDirty s p m ks = some s1) : s1.clock = s.clock := by
  obtain ⟨frames, -, rfl⟩ := Option.map_eq_some_iff.1 h
  simp

@[simp] theorem leaveCores_clock (s p m ks) : (leaveCores s p m ks).clock = s.clock := by simp [leaveCores]

theorem swapOut_clock {s p m ks s1} (h : swapOut s p m ks = some s1) : s1.clock = s.clock := by
  obtain ⟨s2, h2, rfl⟩ := Option.map_eq_some_iff.1 h
  simp [saveDirty_clock h2]

@[simp] theorem dropSwitch_clock (s p) : (dropSwitch s p).clock = s.clock := by simp [dropSwitch]

@[simp] theorem enterSleep_clock (s) : (enterSleep s).clock = s.clock := by simp [enterSleep]

@[simp] theorem trySleep_clock (s) : (trySleep s).clock = s.clock := by simp [trySleep]

theorem execSleep_clock (s) : ClockAt s.clock (execSleep s) := by unfold execSleep; (repeat' split) <;> simp

theorem execPartitionSwapOut_clock (p m s) : ClockAt s.clock (execPartitionSwapOut p m s) := by
  unfold execPartitionSwapOut
  dsimp only
  split
  · simp
  · split
    · simp
    · split
      · simp
      · split
        · refine getD_clock (fun s1 h => ?_) (by simp)
          obtain ⟨s2, h2, rfl⟩ := Option.map_eq_some_iff.1 h
          simp [swapOut_clock h2]
        · simp

@[simp] theorem roomForLines_clock (s p c) : (roomForLines s p c).clock = s.clock := by simp [roomForLines]

@[simp] theorem fillCoreBack_clock (s0 r p c) : (fillCoreBack s0 r p c).clock = s0.clock := by simp [fillCoreBack]

@[simp] theorem applyHeld_clock (k n s) : (applyHeld k n s).clock = s.clock := by
  induction n generalizing s with
  | zero => rfl
  | succ n ih =>
    have hq := execQueryPublish_clock (k / 4) (k % 4) s
    unfold applyHeld
    split
    · next h => rw [h] at hq; exact (ih _).trans hq
    · rfl

@[simp] theorem publishHeld_clock (s k) : (publishHeld s k).clock = s.clock := by simp [publishHeld]

@[simp] theorem freeSpill_clock (s p m) : (freeSpill s p m).clock = s.clock := by simp [freeSpill]

theorem execPartitionSwapIn_clock (p m s) : ClockAt s.clock (execPartitionSwapIn p m s) := by
  unfold execPartitionSwapIn; dsimp only; (repeat' split) <;> simp

@[simp] theorem wakeFail_clock (s) : (wakeFail s).clock = s.clock := by simp [wakeFail]

@[simp] theorem wakeOk_clock (s bs) : (wakeOk s bs).clock = s.clock := by simp [wakeOk]

theorem execWake_clock (s) : ClockAt s.clock (execWake s) := by unfold execWake; (repeat' split) <;> simp

/-! ### Function reset -/

@[simp] theorem abortSvc_clock (s p) : (abortSvc s p).clock = s.clock := by simp [abortSvc]

@[simp] theorem endPartition_clock (s p) : (endPartition s p).clock = s.clock := by simp [endPartition]

@[simp] theorem rebuildAgent_clock (s p) : (rebuildAgent s p).clock = s.clock :=
  getD_clock (fun _ h => (buildAgent_clock h).trans (setPart_clock _ _ _)) (setPart_clock _ _ _)

theorem finishSwap_clock (s p m ks) : ((swapOut s p m ks).getD (leaveCores s p m ks)).clock = s.clock :=
  getD_clock (fun _ h => swapOut_clock h) (leaveCores_clock s p m ks)

@[simp] theorem finishSwaps_clock (s p) : (finishSwaps s p).clock = s.clock := by
  unfold finishSwaps
  exact foldl_clock_of_eq (fun s m _ e => e ▸ finishSwap_clock s p m _) _ s

theorem execVirtualFunctionReset_clock (vf s) : ClockAt s.clock (execVirtualFunctionReset vf s) := by
  unfold execVirtualFunctionReset; dsimp only; (repeat' split) <;> simp

/-! ### Every step -/

/-- CLOCK in the state after a step is what it was before, but for a cold reset (R12). -/
theorem exec_clock (i s) (hi : i ≠ .coldReset) : ClockAt s.clock (exec i s) := by
  cases i with
  | add | sub | mul | mulhi | mad | div | rem | abs | min | max | mov | movi | sel | pand | por | pxor | pnot | and | or
    | xor | andn | shl | shr | sra | rot | popc | clz | ctz | brev | bfx | bfi | prmb | add2 | sub2 | min2 | max2 | add4
    | dot4 | dot8 | dot2 | add64 | sub64 | lea64 | fadd | fsub | fmul | ffma | fmin | fmax | fabs | fcmp | fclass | frnd
    | hadd2 | hmul2 | hfma2 | badd2 | bmul2 | bfma2 | cvt | unpk | rcpSeed | rsqSeed | ex2 | lg2 | sin | cos | bra | jmp
    | jmpLink | call | ret | nap | nop | ld | st | ldsp | stsp | ldf | stf | atom | atoms | red | cleanR | invalR | flushR
    | barWait | enq | mfs | fencex | addLongImmediate | subLongImmediate | mulLongImmediate | minLongImmediate
    | maxLongImmediate | andLongImmediate | orLongImmediate | xorLongImmediate | andnLongImmediate | add64LongImmediate
    | sub64LongImmediate | lea64LongImmediate | faddLongImmediate | fsubLongImmediate | fmulLongImmediate
    | fminLongImmediate | fmaxLongImmediate | ldLongImmediate | stLongImmediate | ldspLongImmediate | stspLongImmediate
    | braLongImmediate | callLongImmediate | pairAdd | pairSub | pairMul | pairAnd | pairOr | pairXor | pairAndn
    | pairMinS32 | pairMaxS32 | pairMinZ32 | pairMaxZ32 | pairMov | pairAdd2 | pairSub2 | pairAdd4 | pairFadd | pairFsub
    | pairFmul | pairFmin | pairFmax | pairHadd2 | pairHmul2 | pairBadd2 | pairBmul2 | pairShl | pairShr | pairSra
    | pairRot | pairAddImmediate | pairSubImmediate => exact runThreads_clock ..
  | icmp => exact execIcmp_clock ..
  | sadd | ssub | smul | sshl | sshr | sand | sor | smov | smovi =>
    unfold exec
    exact uniWord_clock ..
  | scmp => exact execScmp_clock ..
  | sld | sldLongImmediate =>
    unfold exec
    exact sldWord_clock ..
  | qblk => exact execQblk_clock ..
  | loop | loopLongImmediate => exact loopWord_clock ..
  | lbrk => exact execLbrk_clock ..
  | exit => exact execExit_clock ..
  | yield => exact execYield_clock ..
  | shfl => exact execShfl_clock ..
  | vote => exact execVote_clock ..
  | ballot => exact execBallot_clock ..
  | redux => exact execRedux_clock ..
  | scan => exact execScan_clock ..
  | matchLanes => exact execMatchLanes_clock ..
  | lda => exact execLda_clock ..
  | sta => exact execSta_clock ..
  | ldc => exact execLdc_clock ..
  | stc => exact execStc_clock ..
  | pf | pfLongImmediate => exact pfWord_clock ..
  | fence => exact execFence_clock ..
  | barArrive | barSync | barSwap => exact arriveWord_clock ..
  | mbarInit | mbarArrive | mbarExpect =>
    unfold exec
    exact mbarWord_clock ..
  | mbarWait => exact execMbarWait_clock ..
  | rsv => exact execRsv_clock ..
  | unrsv => exact execUnrsv_clock ..
  | zacc => exact execZacc_clock ..
  | mma => exact execMma_clock ..
  | acq => exact execAcq_clock ..
  | rel => exact execRel_clock ..
  | cpy => exact execCpy_clock ..
  | cpyo => exact execCpyo_clock ..
  | cpyc => exact execCpyc_clock ..
  | patch => exact execPatch_clock ..
  | go => exact execGo_clock ..
  | rinit => exact execRinit_clock ..
  | await => exact execAwait_clock ..
  | rels => exact execRels_clock ..
  | deq => exact execDeq_clock ..
  | qsub => exact execQsub_clock ..
  | qcancel => exact execQcancel_clock ..
  | svc => exact execSvc_clock ..
  | rcall => exact execRcall_clock ..
  | fqack => exact execFqack_clock ..
  | rgrow => exact execRgrow_clock ..
  | rshrink => exact execRshrink_clock ..
  | mts => exact execMts_clock ..
  | trap => exact execTrap_clock ..
  | rett => exact execRett_clock ..
  | tkill => exact execTkill_clock ..
  | ebrk => exact execEbrk_clock ..
  | saddLongImmediate | ssubLongImmediate | smulLongImmediate | sandLongImmediate | sorLongImmediate =>
    unfold exec
    exact lUniWord_clock ..
  | spawn => exact execSpawn_clock ..
  | joinw => exact execJoinw_clock ..
  | ecreate => exact execEcreate_clock ..
  | edestroy => exact execEdestroy_clock ..
  | eattest => exact execEattest_clock ..
  | illegalOpcode => exact decodeTrap_clock ..
  | illegalInstructionException => exact execIllegalInstructionException_clock ..
  | spawnAppend => exact execSpawnAppend_clock ..
  | joinwComplete => exact execJoinwComplete_clock ..
  | map => exact runCall_clock mapCall_clock
  | unmap => exact startCall_clock unmapCall_clock
  | prot => exact startCall_clock protCall_clock
  | move => exact startCall_clock moveCall_clock
  | sealPage => exact startCall_clock sealCall_clock
  | unsealPage => exact runCall_clock unsealCall_clock
  | usage => exact runCall_clock usageCall_clock
  | svcq => exact runCall_clock svcqCall_clock
  | spdmCall => exact execSpdmCall_clock ..
  | bind => exact runCall_clock bindCall_clock
  | pload => exact runCall_clock ploadCall_clock
  | punload => exact runCall_clock punloadCall_clock
  | range => exact execRange_clock ..
  | coldReset => exact absurd rfl hi
  | warmReset => exact execWarmReset_clock ..
  | firmwareImage => exact execFirmwareImage_clock ..
  | hostLinkTraining => exact execHostLinkTraining_clock ..
  | hello => exact execHello_clock ..
  | discoveryWindowEnd => exact execDiscoveryWindowEnd_clock ..
  | claim => exact execClaim_clock ..
  | leaderSilent => exact execLeaderSilent_clock ..
  | podFlitReceive => exact execPodFlitReceive_clock ..
  | staggeredStartStep => exact execStaggeredStartStep_clock ..
  | arrayRampDone => exact execArrayRampDone_clock ..
  | pwrlim => exact execPwrlim_clock ..
  | emergencyPowerReduction => exact execEmergencyPowerReduction_clock ..
  | mslim => exact execMslim_clock ..
  | mscfg => exact execMscfg_clock ..
  | meadowStoreSplitChange => exact execMeadowStoreSplitChange_clock ..
  | pcfg => exact execPcfg_clock ..
  | partitionBuild => exact execPartitionBuild_clock ..
  | gsw => exact execGsw_clock ..
  | guestSwitchCommit => exact execGuestSwitchCommit_clock ..
  | replyDoorbell => exact execReplyDoorbell_clock ..
  | llaunch => exact execLlaunch_clock ..
  | sleep => exact execSleep_clock ..
  | commit => exact execCommit_clock ..
  | wake => exact execWake_clock ..
  | registerWrite => exact execRegisterWrite_clock ..
  | tdispRequest => exact execTdispRequest_clock ..
  | lockInterfaceRequest => exact execLockInterfaceRequest_clock ..
  | ideKmKeyProgramming => exact execIdeKmKeyProgramming_clock ..
  | hostMemoryAccess => exact execHostMemoryAccess_clock ..
  | getVersion | getCapabilities | negotiateAlgorithms | getDigests | getCertificate | challenge | getMeasurements
    | keyExchange | finish | endSession | spdmUnsupportedRequest => exact spdmEvent_clock ..
  | virtualFunctionReset => exact execVirtualFunctionReset_clock ..
  | dispatchRecord => exact execDispatchRecord_clock ..
  | grovePlacement => exact execGrovePlacement_clock ..
  | placementStarvation => exact execPlacementStarvation_clock ..
  | issueSelection => exact execIssueSelection_clock ..
  | waitCountStarvation => exact execWaitCountStarvation_clock ..
  | bindRecordWrite => exact execBindRecordWrite_clock ..
  | teamRetirement => exact execTeamRetirement_clock ..
  | queueSliceBoundary => exact execQueueSliceBoundary_clock ..
  | storeBufferDrain => exact execStoreBufferDrain_clock ..
  | loadReturn => exact execLoadReturn_clock ..
  | atomicPerform => exact execAtomicPerform_clock ..
  | walkComplete => exact execWalkComplete_clock ..
  | faultQueueRoom => exact execFaultQueueRoom_clock ..
  | registerLineFill => exact execRegisterLineFill_clock ..
  | rgrowGrant => exact execRgrowGrant_clock ..
  | handlerEntry => exact execHandlerEntry_clock ..
  | barrierPhaseComplete => exact execBarrierPhaseComplete_clock ..
  | deqTake => exact execDeqTake_clock ..
  | enqReservation => exact execEnqReservation_clock ..
  | awaitTake => exact execAwaitTake_clock ..
  | mbarWaitWake => exact execMbarWaitWake_clock ..
  | ldfWake => exact execLdfWake_clock ..
  | stfWaitWake => exact execStfWaitWake_clock ..
  | napWake => exact execNapWake_clock ..
  | svcPost => exact execSvcPost_clock ..
  | maintenanceComplete => exact execMaintenanceComplete_clock ..
  | rsvComplete => exact execRsvComplete_clock ..
  | acqComplete => exact execAcqComplete_clock ..
  | unrsvComplete => exact execUnrsvComplete_clock ..
  | matrixJobStart => exact execMatrixJobStart_clock ..
  | kStep => exact execKStep_clock ..
  | arraySwitchPoint => exact execArraySwitchPoint_clock ..
  | matrixJobComplete => exact execMatrixJobComplete_clock ..
  | budgetRefill => exact execBudgetRefill_clock ..
  | copyJobStart => exact execCopyJobStart_clock ..
  | ringSlotClaim => exact execRingSlotClaim_clock ..
  | copyPieceDelivery => exact execCopyPieceDelivery_clock ..
  | relayHop => exact execRelayHop_clock ..
  | copyJobComplete => exact execCopyJobComplete_clock ..
  | copyJobFault => exact execCopyJobFault_clock ..
  | queryContextAllocate => exact execQueryContextAllocate_clock ..
  | distanceReply => exact execDistanceReply_clock ..
  | adjacencyReply => exact execAdjacencyReply_clock ..
  | queryPublish => exact execQueryPublish_clock ..
  | shootdownAck => exact execShootdownAck_clock ..
  | migrationPass => exact execMigrationPass_clock ..
  | lrd | lwr | rrd | rup | erd | ewr | cln | inv => exact takeRequest_clock ..
  | evt => exact execEvt_clock ..
  | directoryAck => exact execDirectoryAck_clock ..
  | tmo => exact execTmo_clock ..
  | proxyInvalidation => exact execProxyInvalidation_clock ..
  | copyInvalidation => exact execCopyInvalidation_clock ..
  | replicaLock => exact execReplicaLock_clock ..
  | replicaUpdate => exact execReplicaUpdate_clock ..
  | partitionSwapOut => exact execPartitionSwapOut_clock ..
  | partitionSwapIn => exact execPartitionSwapIn_clock ..
  | usageRecordPeriodic => exact execUsageRecordPeriodic_clock ..
  | podLinkTraining => exact execPodLinkTraining_clock ..
  | meadowStoreWriteBack => exact writeBackMetered_clock ..

/-- Settles O58: no step but a cold reset changes CLOCK at all. -/
theorem clockOnward : Obligations.ClockOnward := by
  unfold Obligations.ClockOnward ClockNeverFalls
  intro i s s' hi h
  have hc := exec_clock i s hi
  rw [h] at hc
  exact hc.ge

end Sys2Proof.Machine
end

section
/-! The events of the matrix unit do what their rules say (R33, R289 to R305). -/
namespace Sys2Proof.Machine
-- One declaration at a time: each more thread of the compiler takes a stack out of the same memory.
set_option Elab.async false

/-- The bytes of the kind CB are the core's CB. -/
theorem setBuf_kCb (c : Core) (m : SMap Byte) : setBuf c kCb m = { c with cb := m } := rfl
theorem bufBytesOf_kCb (c : Core) : bufBytesOf c kCb = c.cb := rfl

/-- A record that no posted job of the team names, and whose tile none works on, keeps no `unrsv` waiting (R302). -/
theorem unrsv_not_busy {jobs : List Job} {tm : Team} {tslot n : Nat} {d : BitVec 128}
    (idle : ∀ j ∈ jobs, j.posted = true → j.tslot = tslot →
      jobNames j n = false ∧ (dKind d = kCb → usesTile tm j (recTile d) = false)) :
    (jobs.any fun j => j.posted && decide (j.tslot = tslot) &&
      (jobNames j n || decide (dKind d = kCb) && usesTile tm j (recTile d))) = false := by
  simp only [List.any_eq_false, Bool.and_eq_true, Bool.or_eq_true, decide_eq_true_eq]
  rintro j hj ⟨⟨posted, own⟩, names | ⟨cb, works⟩⟩
  · exact Bool.false_ne_true ((idle j hj posted own).1.symm.trans names)
  · exact Bool.false_ne_true (((idle j hj posted own).2 cb).symm.trans works)

/-- Settles O31: the conditions of each rule are the guards of its event, which then answers the state the rule writes out. -/
theorem matrixUnitActs : Obligations.MatrixUnitActs := by
  intro i s s' h
  cases h with
  | rsv _ core tslot n d pending record kind =>
    simp [exec_rsvComplete, execRsvComplete, pending, record, kind, keptByte]
  | rsvTile _ core tslot n d pending record kind free =>
    simp [exec_rsvComplete, execRsvComplete, pending, record, kind, free, setBuf_kCb, bufBytesOf_kCb, keptByte]
  | unrsv _ core tslot n d word record idle =>
    rw [exec_unrsvComplete, execUnrsvComplete]
    simp only [record, word, unrsv_not_busy idle]
    rfl
  | acq _ core tslot t m word idle =>
    simp [exec_acqComplete, execAcqComplete, word, idle]
  | start _ core job t j on holds found tile ready =>
    simp [exec_matrixJobStart, execMatrixJobStart, on, holds, found, tile, ready]
  | startFree _ core job t j on free chosen num found tile ready =>
    simp [exec_matrixJobStart, execMatrixJobStart, on, free, chosen, num, found, tile, ready]
  | kStep _ core j x steps =>
    obtain ⟨job, next, runs, live, turn, team, paid⟩ := steps
    simp [exec_kStep, execKStep, job, next, runs, live, team, paid, Nat.not_le.2 turn]
  | switch _ core j on point chosen =>
    simp [exec_arraySwitchPoint, execArraySwitchPoint, on, point, chosen]
  | mmaDone _ core t ka kb a0 b0 n w j job runs kind ended warp =>
    simp [exec_matrixJobComplete, execMatrixJobComplete, job, runs, kind, ended, warp]
  | zaccDone _ core t j job runs kind live flags =>
    rw [exec_matrixJobComplete, execMatrixJobComplete]
    simp only [job, runs, kind, live, flags, orFlags, ne_eq, not_true_eq_false, if_false, if_true]
    split <;> rfl
  | refill _ runs =>
    simp [exec_budgetRefill, execBudgetRefill, refillQuantum, runs]
  | refillHalted _ runs =>
    simp [exec_budgetRefill, execBudgetRefill, refillQuantum, runs]
  | ramp _ core ramping due =>
    simp [exec_arrayRampDone, execArrayRampDone, ramping, due]

end Sys2Proof.Machine
end

section
/-! The host port, partitions and usage records do what their rules say (R18 to R23, R228 to R231, R370, R416, R426 to R434). -/
namespace Sys2Proof.Machine
-- One declaration at a time: each more thread of the compiler takes a stack out of the same memory.
set_option Elab.async false

/-- The rules' name for the answer of the host port. -/
@[simp] theorem answered_eq (s : State) (r : HostReply) : answered s r = setReply s r := rfl

/-! ### Which functions answer (R18, R19) -/

/-- The VF of a partition that responds is not in ERROR. -/
theorem vfErred_of_vfUp {s : State} {p : Nat} (up : vfUp s p = true) : vfErred s p = false := by
  simp only [vfUp, Bool.and_eq_true, decide_eq_true_eq] at up
  simp [vfErred, up.2]

theorem pf0Up_of_vfUp {s : State} {p : Nat} (up : vfUp s p = true) : pf0Up s = true := by
  simp only [vfUp, Bool.and_eq_true] at up
  exact up.1.1

/-- A VF in ERROR is the one of the partition numbered one below it. -/
theorem vfErred_of_error {s : State} {vf : Nat} (up : pf0Up s = true) (range : 1 ≤ vf ∧ vf ≤ 64)
    (state : getTdi s vf = .error) : vfErred s (vf - 1) = true := by
  have : vf - 1 < 64 := by omega
  simp [vfErred, up, this, Nat.sub_add_cancel range.1, state]

theorem vfErred_of_ne_error {s : State} {vf : Nat} (first : 1 ≤ vf) (state : getTdi s vf ≠ .error) :
    vfErred s (vf - 1) = false := by
  simp [vfErred, Nat.sub_add_cancel first, state]

/-! ### Accesses of the host (R20, R370) -/

/-- An access of the aperture through a live VF that is not in ERROR waits behind those that a migration holds, or reaches the
aperture. -/
theorem execHostMemoryAccess_aperture {s : State} {r : HostAccess} (space : r.space = .aperture) (up : pf0Up s = true)
    (fn : 1 ≤ r.fn ∧ r.fn ≤ 64) (live : (getPart s (r.fn - 1)).live = true) (state : getTdi s r.fn ≠ .error) :
    execHostMemoryAccess r s =
      if hostBehind s r ∨ hostHeld s r then .next { s with host := { s.host with heldAcc := s.host.heldAcc ++ [r] } }
      else .next (hostReach s r) := by
  simp [execHostMemoryAccess, space, up, live, state, Nat.ne_of_gt fn.1, Nat.not_lt.2 fn.2]

/-- An access on a bound stream that is let in is checked as one of its enclave. -/
theorem BoundAccess.exec_eq {s : State} {r : HostAccess} {i : Nat} {e : Enclave} {es : List TlbEntry}
    (may : BoundAccess s r i e es) :
    exec (.hostMemoryAccess r) s = .next (hostBound s (getStream s i).encl e.part r) := by
  obtain ⟨space, up, fn, live, state, stream, check, secure, keyed, encl, _, _, first, moves⟩ := may
  rw [exec_hostMemoryAccess, execHostMemoryAccess_aperture space up fn live state]
  simp [first, moves, hostReach, stream, check, secure, keyed, encl]

/-- An access with no stream sees the bytes as they are stored. -/
theorem PlainAccess.exec_eq {s : State} {r : HostAccess} (may : PlainAccess s r) :
    exec (.hostMemoryAccess r) s = .next (hostSealed s (r.fn - 1) r) := by
  obtain ⟨space, up, fn, live, state, stream, first, moves⟩ := may
  rw [exec_hostMemoryAccess, execHostMemoryAccess_aperture space up fn live state]
  simp [first, moves, hostReach, stream]

/-- A read on a bound stream gives the bytes where none of its blocks fails. -/
theorem BoundAccess.read_eq {s : State} {r : HostAccess} {i : Nat} {e : Enclave} {es : List TlbEntry} (may : BoundAccess s r i e es)
    (kind : r.data = none) :
    exec (.hostMemoryAccess r) s =
      .next (if hostBad s es r then answered (hostSpoil (hostTouch (meter s e.part mLinkb r.len) r) es r) .poisoned
        else answered (hostTouch (meter s e.part mLinkb r.len) r) (.data (hostRead s r))) := by
  rw [may.exec_eq, hostBound, if_neg (by simp [may.exists']), may.grant]
  simp only [kind, answered_eq]

/-- A write on a bound stream changes memory where its homes take it. -/
theorem BoundAccess.write_eq {s : State} {r : HostAccess} {i : Nat} {e : Enclave} {es : List TlbEntry} {bs : List Byte}
    (may : BoundAccess s r i e es) (kind : r.data = some bs) :
    exec (.hostMemoryAccess r) s =
      .next ((hostFault s r).elim (answered (hostWrite (meter s e.part mLinkb r.len) r bs) (.data [])) fun c =>
        answered (logHost s r c) .dropped) := by
  rw [may.exec_eq, hostBound, if_neg (by simp [may.exists']), may.grant]
  simp only [kind, answered_eq]
  cases hostFault s r <;> rfl

/-- An access with no stream is refused where some frame that it touches is not sealed in its partition. -/
theorem hostSealed_refused {s : State} {r : HostAccess} (other : ¬ SealedFrames s r) :
    hostSealed s (r.fn - 1) r = hostRefuse s r :=
  if_pos (.inr (by rw [Bool.not_eq_true']; exact eq_false_of_ne_true other))

/-- Sealed frames are read as they are stored, unless one of their blocks fails. -/
theorem hostSealed_read {s : State} {r : HostAccess} (exists' : hostAddrOk s r = true) (frames : SealedFrames s r)
    (kind : r.data = none) :
    hostSealed s (r.fn - 1) r =
      if (blocksOf 64 r.addr r.len).any (fun b => nsHas (sealAsked s r).poison b || nsHas (sealAsked s r).ecc b) then
        answered (sealAsked s r) .poisoned
      else answered (sealAsked s r)
        (.data ((((blocksOf 64 r.addr r.len).flatMap (storedBlock (sealAsked s r))).drop (r.addr % 64)).take r.len)) := by
  refine (if_neg (not_or.2 ⟨ne_true_of_eq_false (congrArg not exists'), ne_true_of_eq_false (congrArg not frames)⟩)).trans ?_
  rw [kind]; rfl

/-- Sealed frames are written as they are stored, where their homes take the write. -/
theorem hostSealed_write {s : State} {r : HostAccess} {bs : List Byte} (exists' : hostAddrOk s r = true) (frames : SealedFrames s r)
    (kind : r.data = some bs) :
    hostSealed s (r.fn - 1) r =
      (ioFault s r.addr r.len).elim
        (answered ((blocksOf 64 r.addr r.len).foldl (fun s b => storeBlock (sealTouch true s b) r bs b) s) (.data []))
        fun c => answered (logHost s r c) .dropped := by
  refine (if_neg (not_or.2 ⟨ne_true_of_eq_false (congrArg not exists'), ne_true_of_eq_false (congrArg not frames)⟩)).trans ?_
  simp only [kind, answered_eq]
  cases ioFault s r.addr r.len <;> rfl

/-! ### Register writes (R2, R429) -/

/-- The counter at its place among a partition's registers. -/
theorem writePmc_counter (s : State) (p : Nat) {i : Nat} (v : W64) (small : i < 8) :
    writePmc s p (0x400 + 8 * i) v = modPart s p fun x => { x with pmc := smSet 0 x.pmc i (v.extractLsb' 0 48) } := by
  have place : 0x400 ≤ 0x400 + 8 * i ∧ 0x400 + 8 * i < 0x440 ∧ (0x400 + 8 * i) % 8 = 0 := by omega
  rw [writePmc, if_pos place, show (0x400 + 8 * i - 0x400) / 8 = i by omega]

/-- Settles O37: the conditions of each rule are the guards of its event. Those that decide which of the host's accesses reach the
aperture, and as whose, stand in the lemmas above. -/
theorem hostPortActs : Obligations.HostPortActs := by
  intro i s s' h
  cases h with
  | pcfgLive _ p v small up live => simp [exec_pcfg, execPcfg, Nat.not_le.2 small, up, live]
  | pcfg _ p v small up dead idle => simp [exec_pcfg, execPcfg, Nat.not_le.2 small, up, dead, idle]
  | build _ p areas plain asked quota =>
    rw [exec_partitionBuild, execPartitionBuild]
    simp only [asked, quota]
    cases buildAgent s p areas plain <;> rfl
  | buildFails _ p asked none' => simp [exec_partitionBuild, execPartitionBuild, asked, none']
  | usage _ p due idle => simp [exec_usageRecordPeriodic, execUsageRecordPeriodic, due, idle]
  | mslim _ p m v up range fits order =>
    exact (if_neg (by simp [up, Nat.not_le.2 range.1, Nat.not_le.2 range.2])).trans
      (if_neg (by simp [Nat.not_lt.2 fits, Nat.not_lt.2 order]))
  | mslimBad _ p m v up range bad =>
    simp [exec_mslim, execMslim, up, Nat.not_le.2 range.1, Nat.not_le.2 range.2, bad]
  | mscfg _ p m v up range idle fits =>
    simp [exec_mscfg, execMscfg, vfErred_of_vfUp up, up, Nat.not_le.2 range.1, Nat.not_le.2 range.2, idle, Nat.not_lt.2 fits.1,
      Nat.not_lt.2 fits.2]
  | mscfgError _ p m v up range state => simp [exec_mscfg, execMscfg, vfErred, up, range, state]
  | mscfgBad _ p m v up range bad =>
    simp [exec_mscfg, execMscfg, vfErred_of_vfUp up, up, Nat.not_le.2 range.1, Nat.not_le.2 range.2, bad]
  | split _ p m win total next grows landed =>
    unfold JobsLanded at landed
    simp [exec_meadowStoreSplitChange, execMeadowStoreSplitChange, next, landed, Nat.not_lt.2 grows]
  | splitShrinks _ p m win total next shrinks landed =>
    unfold JobsLanded at landed
    simp [exec_meadowStoreSplitChange, execMeadowStoreSplitChange, next, landed, shrinks]
  | tdiState _ vf up session => simp [exec_tdispRequest, execTdispRequest, up, session]
  | tdiStart _ vf up session locked => simp [exec_tdispRequest, execTdispRequest, up, session, locked]
  | tdiStop _ vf up session => simp [exec_tdispRequest, execTdispRequest, up, session]
  | lock _ vf up session idle unlocked =>
    simp [exec_lockInterfaceRequest, execLockInterfaceRequest, up, session, idle, unlocked]
  | lockRefused _ vf up reset => simp [exec_lockInterfaceRequest, execLockInterfaceRequest, up, reset]
  | key _ stream session x up range bound found finished =>
    simp [exec_ideKmKeyProgramming, execIdeKmKeyProgramming, up, range, bound, found, finished]
  | read _ r i e es may kind sound => rw [may.read_eq kind, sound]; rfl
  | readBad _ r i e es may kind bad => rw [may.read_eq kind, bad]; rfl
  | write _ r i e es bs may kind taken => rw [may.write_eq kind, taken]; rfl
  | writeRefused _ r i code e es bs may kind refused => rw [may.write_eq kind, refused]; rfl
  | waits _ r space up fn live state held =>
    rw [exec_hostMemoryAccess, execHostMemoryAccess_aperture space up fn live state, if_pos held]
  | refused _ r may kind other =>
    rw [may.exec_eq, hostSealed_refused other]
    simp only [hostRefuse, kind, answered_eq]
  | sealedRead _ r may kind exists' frames clean => rw [may.exec_eq, hostSealed_read exists' frames kind, clean]; rfl
  | sealedBad _ r may kind exists' frames bad => rw [may.exec_eq, hostSealed_read exists' frames kind, if_pos bad]
  | sealedWrite _ r bs may kind exists' frames taken => rw [may.exec_eq, hostSealed_write exists' frames kind, taken]; rfl
  | sealedRefused _ r c bs may kind exists' frames refused =>
    rw [may.exec_eq, hostSealed_write exists' frames kind, refused]; rfl
  | insecure _ r i space up fn live state stream bad first moves =>
    rw [exec_hostMemoryAccess, execHostMemoryAccess_aperture space up fn live state]
    simp [first, moves, hostReach, stream, bad]
  | error _ r space up fn state =>
    simp [exec_hostMemoryAccess, execHostMemoryAccess, space, up, Nat.ne_of_gt fn.1, fn.2, state]
  | registers _ r space up kind fn =>
    rw [exec_hostMemoryAccess, execHostMemoryAccess]
    obtain pf0 | ⟨small, live, state⟩ := fn
    · simp [space, up, kind, hostRegs, pf0]
    · simp [space, up, kind, hostRegs, live, state, Nat.not_lt.2 small]
  | notCreated _ r space up kind fn state dead =>
    simp [exec_hostMemoryAccess, execHostMemoryAccess, space, up, state, hostRegs, dead, Nat.ne_of_gt fn.1, allOnes, kind]
  | peer _ r bs space kind range =>
    simp [exec_hostMemoryAccess, execHostMemoryAccess, space, kind, peerWrite, range]
  | coreTable _ off v up range aligned =>
    simp [exec_registerWrite, execRegisterWrite, up, range, aligned]
  | counter _ fn i v range up small =>
    have low : 0x400 + 8 * i < cfgSpace ∧ 0x400 + 8 * i < msixTable := by unfold cfgSpace msixTable; omega
    simp only [exec_registerWrite, execRegisterWrite, pf0Up_of_vfUp up, Nat.ne_of_gt range.1, Nat.not_lt.2 range.2,
      vfErred_of_vfUp up, Nat.not_le.2 low.1, Nat.not_le.2 low.2, up, writePmc_counter s _ v small]
    rfl
  | registerError _ fn off v up range state =>
    simp [exec_registerWrite, execRegisterWrite, up, Nat.ne_of_gt range.1, Nat.not_lt.2 range.2, vfErred_of_error up range state]
  | config _ fn off v up range space state =>
    have notError : getTdi s fn ≠ .error := by rintro h; simp [h] at state
    simp only [exec_registerWrite, execRegisterWrite, up, Nat.ne_of_gt range.1, Nat.not_lt.2 range.2,
      vfErred_of_ne_error range.1 notError, Nat.not_le.2 space.2, space.1]
    obtain state | state := state <;> rw [state] <;> rfl
  | reset _ vf range up live idle swaps =>
    simp [exec_virtualFunctionReset, execVirtualFunctionReset, Nat.ne_of_gt range.1, Nat.not_lt.2 range.2, up, live, idle, swaps]
  | resetWaits _ vf range up live busy =>
    simp [exec_virtualFunctionReset, execVirtualFunctionReset, Nat.ne_of_gt range.1, Nat.not_lt.2 range.2, up, live, busy]

end Sys2Proof.Machine
end

section
/-! Boot, the pod, power, sleep and swap do what their rules say (R17, R21 to R32, R411 to R415, R422). -/
namespace Sys2Proof.Machine
-- One declaration at a time: each more thread of the compiler takes a stack out of the same memory.
set_option Elab.async false

/-! ### Firmware images (R24, R415) -/

/-- The kind that an image is checked for is its own. -/
theorem imgKind_of_imageOk {s : State} {k : Nat} {img : List Byte} (ok : imageOk s k img = true) : imgKind img = k := by
  simp only [imageOk, Bool.and_eq_true, decide_eq_true_eq] at ok
  tauto

/-- An image that fails its check as what it says it is fails as any other. -/
theorem imageOk_of_bad {s : State} {k : Nat} {img : List Byte} (bad : imageOk s (imgKind img) img = false) :
    imageOk s k img = false := by
  by_contra ok
  rw [Bool.not_eq_false] at ok
  rw [imgKind_of_imageOk ok, ok] at bad
  exact Bool.noConfusion bad

/-- While the ROM waits for an image, one that fails its check leaves nothing in the mailbox. -/
theorem putMailbox_bad {s : State} {img : List Byte} (waits : (nextKind s.boot).isSome = true)
    (bad : imageOk s (imgKind img) img = false) : putMailbox s img = s := by
  have : (nextKind s.boot).isNone = false := by simpa [← Option.isSome_eq_false_iff] using waits
  simp [putMailbox, this, bad]

/-- An empty mailbox has nothing to load. -/
theorem loadMailbox_nil {s : State} {n : Nat} (empty : s.boot.mailbox = []) : loadMailbox n s = s := by
  cases n with
  | zero => rfl
  | succ n => unfold loadMailbox; cases nextKind s.boot <;> simp [empty]

/-- The image that is expected next is accepted, or is discarded. -/
theorem loadImage_of_next {s : State} {k : Nat} (next : nextKind s.boot = some k) (img : List Byte) :
    loadImage s img = if imageOk s k img then acceptImage s k img else s := by rw [loadImage, next]

/-- What the ROM does with an image of the host while it waits for one. -/
theorem execFirmwareImage_host {s : State} {img : List Byte} (fuses : s.boot.status ≠ .fuseFault)
    (waits : (nextKind s.boot).isSome = true) :
    execFirmwareImage none img s =
      .next (if Config.bootsrc = false then loadImage s img
        else if s.boot.claimed = true then loadMailbox 3 (putMailbox s img) else putMailbox s img) := by
  have : (nextKind s.boot).isNone = false := by simpa [← Option.isSome_eq_false_iff] using waits
  simp [execFirmwareImage, fuses, this]

/-! ### Pod boot (R26, R414) -/

/-- A discovery window whose time has passed ends, unless the ROM has halted. -/
theorem window_past {s : State} {f : Nat} (fuses : s.boot.status ≠ .fuseFault) (past : f + 50000000 ≤ s.clock) :
    ¬ (romHalted s || decide (s.clock < f + 50000000)) = true := by
  simp [romHalted, fuses, past]

/-! ### The staggered start (R32) -/

/-- The unit whose time has come leaves reset: the last general cores with their harts, a wave of cores with their quanta, or
another unit. -/
theorem execStaggeredStartStep_due {s : State} (awake : s.boot.asleep = false) (last : s.boot.startStep < 170)
    (image : startImage s.boot s.boot.startStep = true) (due : s.boot.startAt + startDelay s.boot.startStep ≤ s.clock) :
    execStaggeredStartStep s =
      if s.boot.startStep = 29 then
        .next (if s.boot.hazelHalted then unitStarted s s.boot.startStep else resumeHarts (unitStarted s s.boot.startStep))
      else if 30 ≤ s.boot.startStep ∧ s.boot.startStep < 158 then
        .next ((rangeFrom ((s.boot.startStep - 30) / 16 * 128 + (s.boot.startStep - 30) % 16 * 8) 8).foldl startCore
          (unitStarted s s.boot.startStep))
      else .next (unitStarted s s.boot.startStep) :=
  if_neg (by simp [awake, Nat.not_le.2 last, image, Nat.not_lt.2 due])

/-! ### Swap (R422) -/

/-- A swap-out that may begin stops the partition's teams, and once they have stopped they leave the meadow if their dirty
state finds room. -/
theorem execPartitionSwapOut_begun {s : State} {p m : Nat} (runs : s.boot.hazelHalted = false) (awake : s.boot.asleep = false)
    (small : m < 8) (live : (getPart s p).live = true) (free : s.rowan.sleeping = false)
    (in' : nsHas (getPart s p).swapped m = false) :
    execPartitionSwapOut p m s =
      .next (if (meadowTeams s p m).all (teamStopped (swapBegun s p m)) then
        ((swapOut (swapBegun s p m) p m (meadowTeams s p m)).map trySleep).getD (swapBegun s p m) else swapBegun s p m) := by
  rw [execPartitionSwapOut, if_neg (by simp [runs, awake, small, live]), if_neg (by simp [free]), if_neg (by simp [in'])]
  rfl

/-- A swap-in is not turned away while the package is awake, Hazel runs and the partition is out. -/
theorem swapIn_open {s : State} {p m : Nat} (runs : s.boot.hazelHalted = false) (awake : s.boot.asleep = false)
    (free : s.rowan.sleeping = false) (out : nsHas (getPart s p).swapped m = true) :
    ¬ (s.boot.hazelHalted ∨ s.boot.asleep ∨ s.rowan.sleeping ∨ !nsHas (getPart s p).swapped m) := by
  simp [runs, awake, free, out]

/-- Settles O38: rule by rule, its conditions decide the guards of its event; the lemmas above say what an event does once the guards
that several rules share are decided. -/
theorem bootAndPower : Obligations.BootAndPower := by
  intro i s s' h
  cases h with
  | cold _ => rfl
  | warm _ awake => rw [exec_warmReset, execWarmReset, if_neg (by simp [awake])]; rfl
  | warmAsleep _ asleep => simp [exec_warmReset, execWarmReset, asleep]
  | imageBad _ img fuses waits bad idle =>
    obtain ⟨k, next⟩ := Option.isSome_iff_exists.1 waits
    rw [exec_firmwareImage, execFirmwareImage_host fuses waits, loadImage_of_next next, imageOk_of_bad bad,
      putMailbox_bad waits bad]
    split
    · rfl
    · next direct =>
      split
      · next claimed => rw [loadMailbox_nil (by simpa [direct, claimed] using idle)]
      · rfl
  | image _ img fuses waits =>
    obtain ⟨k, next⟩ := Option.isSome_iff_exists.1 waits
    rw [exec_firmwareImage, execFirmwareImage_host fuses waits, loadImage_of_next next]
    simp [putMailbox, next]
  | imageLate _ img fuses booted kind =>
    simp [exec_firmwareImage, execFirmwareImage, putMailbox, fuses, booted, kind]
  | imageLeader _ k l img fuses next other leader =>
    have next1 : nextKind ({ s with boot := { s.boot with lastFlit := s.clock } } : State).boot = some k := next
    have accepts : (Config.bootsrc && !s.boot.claimed && decide (s.boot.leader = some l)) = Config.bootsrc := by
      simp [other, leader]
    rw [exec_firmwareImage, execFirmwareImage, if_neg fuses]
    simp only [accepts]
    exact congrArg Host.Outcome.next (ite_congr rfl (fun _ => loadImage_of_next next1 img) fun _ => rfl)
  | hostLink _ cxl down => simp [exec_hostLinkTraining, execHostLinkTraining, down]
  | podLink _ port down fit out fuses =>
    have leaves : ¬ (romHalted s || (getPort s port.val).up || (getPort s port.val).down ||
        (!Config.bootsrc && decide (s.boot.startStep ≤ portStart + port.val))) = true := by
      obtain bootsrc | started := out
      · simp [romHalted, fuses, down, fit, bootsrc]
      · simp [romHalted, fuses, down, fit, Nat.not_le.2 started]
    rw [exec_podLinkTraining, execPodLinkTraining]
    refine (if_neg leaves).trans ?_
    simp [and_assoc]
  | podLinkHalted _ port halted => simp [exec_podLinkTraining, execPodLinkTraining, romHalted, halted]
  | windowHalted _ halted =>
    rw [exec_discoveryWindowEnd, execDiscoveryWindowEnd]
    cases s.boot.windowFrom with
    | none => rfl
    | some f => exact if_pos (by simp [romHalted, halted])
  | hello _ port pod fuses up open' => simp [exec_hello, execHello, romHalted, fuses, up, open']
  | noLeader _ from' open' past none' pods unfit fuses =>
    rw [exec_discoveryWindowEnd, execDiscoveryWindowEnd, open']
    refine (if_neg (window_past fuses past)).trans ((if_neg ?_).trans (if_pos ?_))
    · simp only [Bool.and_eq_true]
      rintro ⟨⟨⟨-, full⟩, -⟩, -⟩
      exact Bool.false_ne_true (unfit.symm.trans full)
    · simp only [Bool.and_eq_true]
      exact ⟨Option.isNone_iff_eq_none.2 none', List.isEmpty_iff.2 pods⟩
  | claims _ from' open' past none' images fuses unique lowest =>
    rw [exec_discoveryWindowEnd, execDiscoveryWindowEnd, open']
    refine (if_neg (window_past fuses past)).trans (if_pos ?_)
    simp only [Bool.and_eq_true]
    exact ⟨⟨⟨Option.isNone_iff_eq_none.2 none', images⟩, unique⟩, lowest⟩
  | claim _ port pod nonce sig up none' waits fuses allowed =>
    simp only [exec_claim, execClaim, romHalted, up, none', waits, fuses, allowed, Bool.and_eq_true, decide_false, Bool.not_false,
      Option.isNone_none, and_true]
    split <;> rfl
  | silent _ l leader other waits long =>
    obtain ⟨k, next⟩ := Option.isSome_iff_exists.1 waits
    simp [exec_leaderSilent, execLeaderSilent, leader, other, next, Nat.not_lt.2 long]
  | retry _ port f up bad few => simp [exec_podFlitReceive, execPodFlitReceive, up, bad, Nat.not_le.2 few]
  | portDown _ port f up bad eighth => simp [exec_podFlitReceive, execPodFlitReceive, up, bad, eighth]
  | mac _ port f good group bad =>
    obtain ⟨up, crc, out, stream, keyed, works, other⟩ := good
    simp [exec_podFlitReceive, execPodFlitReceive, up, crc, Nat.not_le.2 out, stream, keyed, works, other, group, bad]
  | group _ port f p good group mac clean part =>
    obtain ⟨up, crc, out, stream, keyed, works, other⟩ := good
    simp [exec_podFlitReceive, execPodFlitReceive, up, crc, Nat.not_le.2 out, stream, keyed, works, other, group, mac, clean, part]
  | unit _ awake kind last image due =>
    rw [exec_staggeredStartStep, execStaggeredStartStep_due awake last image due, if_neg (by omega), if_neg (by omega)]
  | harts _ awake kind image due =>
    rw [← kind] at image due
    rw [exec_staggeredStartStep, execStaggeredStartStep_due awake (by omega) image due, if_pos kind, kind]
  | wave _ awake kind image due =>
    rw [exec_staggeredStartStep, execStaggeredStartStep_due awake (by omega) image due, if_neg (by omega), if_pos kind]
  | limit _ v up range => simp [exec_pwrlim, execPwrlim, up, range]
  | limitBad _ v up bad =>
    have : ¬ (2400 ≤ bitsOf v.toNat 11 0 ∧ bitsOf v.toNat 11 0 ≤ 3600 ∧ bitsOf v.toNat 11 0 % 25 = 0) := by omega
    simp only [exec_pwrlim, execPwrlim, up, if_neg this]; rfl
  | epr _ asserted => rfl
  | commit _ up idle => simp [exec_commit, execCommit, up, idle]
  | commitBusy _ up busy => simp [exec_commit, execCommit, up, busy, rcmdRefuse]
  | llaunch _ s1 hazel runtime up idle images => subst images; simp [exec_llaunch, execLlaunch, up, idle]
  | sleep _ up idle => simp [exec_sleep, execSleep, up, idle]
  | wake _ c asleep rowan store =>
    rw [exec_wake, execWake, if_neg (by simp [asleep, Option.isSome_iff_ne_none.1 rowan])]
    simp only [store]
    cases Config.gcmOpen (sleepKey s.ret.epoch) (sleepIv s.ret.epoch) c <;> rfl
  | swapStops _ p m runs awake small live free in' busy =>
    rw [exec_partitionSwapOut, execPartitionSwapOut_begun runs awake small live free in', busy]; rfl
  | swapOut _ s2 p m runs awake small live free in' stopped room =>
    rw [exec_partitionSwapOut, execPartitionSwapOut_begun runs awake small live free in', stopped, room]; rfl
  | swapIn _ p m runs awake free out room sound =>
    rw [exec_partitionSwapIn, execPartitionSwapIn]
    exact (if_neg (swapIn_open runs awake free out)).trans
      ((if_neg (ne_true_of_eq_false (congrArg not room))).trans (if_neg (ne_true_of_eq_false sound)))
  | swapInBad _ p m runs awake free out room bad =>
    rw [exec_partitionSwapIn, execPartitionSwapIn]
    exact (if_neg (swapIn_open runs awake free out)).trans
      ((if_neg (ne_true_of_eq_false (congrArg not room))).trans (if_pos bad))

end Sys2Proof.Machine
end

section
/-! Uniform words: one s register for the warp (R46, R92, R147 to R150). -/
namespace Sys2Proof.Machine
-- One declaration at a time: each more thread of the compiler takes a stack out of the same memory.
set_option Elab.async false

/-- Each word of the uniform table computes one s register from its sources (R147). -/
theorem exec_of_uniformRow {i : Instr} {r : WordRow} (h : uniformRow i = some r) :
    ∃ g d srcs f, r = rowU g d srcs f ∧ ∀ s, exec i s = uniWord g d srcs (f s) s := by
  unfold uniformRow at h
  split at h <;> cases h <;> exact ⟨_, _, _, _, rfl, fun _ => rfl⟩

/-- It issues with what its row names, and its own part writes the register with the value of the first acting thread. -/
theorem uniWord_eq_runWord (g : Guard) (d : SReg) (srcs : List Src64) (f : State → Nat → W64) (s : State) :
    uniWord g d srcs (f s) s =
      runWord ((rowU g d srcs f).info s) (fun w l acting => .go ((rowU g d srcs f).makes s w l acting) []) s := rfl

/-- Settles O5: a uniform word's one effect is the write of its s register, which is made before the commit. -/
theorem uniformWords : Obligations.UniformWords := by
  intro i r h s w l issues
  obtain ⟨g, d, srcs, f, rfl, run⟩ := exec_of_uniformRow h
  exact completes_makes issues ((run s).trans (uniWord_eq_runWord g d srcs f s)) (fun _ _ => rfl) (fun _ _ => rfl)

end Sys2Proof.Machine
end

section
/-! What a trap raised at issue changes and leaves (R193, R199 to R203). -/
namespace Sys2Proof.Machine
-- One declaration at a time: each more thread of the compiler takes a stack out of the same memory.
set_option Elab.async false

/-! ### Charging an issue, ending and halting a team -/

/-- A fold leaves what each of its steps leaves. -/
theorem foldl_keeps {α β : Type} (field : State → β) {f : State → α → State} (keeps : ∀ s a, field (f s a) = field s)
    (l : List α) (s : State) : field (l.foldl f s) = field s := by
  induction l generalizing s with
  | nil => rfl
  | cons a l ih => exact (ih (f s a)).trans (keeps s a)

theorem foldl_setTh_mem {α : Type} (t : State → α → Nat) (x : State → α → Thread) (l : List α) (s : State) :
    (l.foldl (fun s a => setTh s (t s a) (x s a)) s).mem = s.mem :=
  foldl_keeps State.mem (fun s a => setTh_mem s (t s a) (x s a)) l s

theorem foldl_setWarp_mem {α : Type} (w : State → α → Nat) (x : State → α → Warp) (l : List α) (s : State) :
    (l.foldl (fun s a => setWarp s (w s a) (x s a)) s).mem = s.mem :=
  foldl_keeps State.mem (fun s a => setWarp_mem s (w s a) (x s a)) l s

/-- The charge of an issue stays in the cores' and the partitions' counters (R419, R430). -/
theorem chargeIssue_frame (s0 s : State) (w : Nat) :
    ∃ cores parts, chargeIssue s0 s w = { s with cores := cores, parts := parts } := by
  unfold chargeIssue corePmc pmcEvent
  dsimp only
  split_ifs <;> exact ⟨_, _, rfl⟩

@[simp] theorem chargeIssue_mem (s0 s : State) (w : Nat) : (chargeIssue s0 s w).mem = s.mem := by
  obtain ⟨cores, parts, frame⟩ := chargeIssue_frame s0 s w
  rw [frame]

@[simp] theorem getTh_chargeIssue (s0 s : State) (w t : Nat) : getTh (chargeIssue s0 s w) t = getTh s t := by
  obtain ⟨cores, parts, frame⟩ := chargeIssue_frame s0 s w
  rw [frame]
  rfl

@[simp] theorem getTeam_chargeIssue (s0 s : State) (w k : Nat) : getTeam (chargeIssue s0 s w) k = getTeam s k := by
  obtain ⟨cores, parts, frame⟩ := chargeIssue_frame s0 s w
  rw [frame]
  rfl

@[simp] theorem teamOfWarp_chargeIssue (s0 s : State) (w v : Nat) : teamOfWarp (chargeIssue s0 s w) v = teamOfWarp s v := by
  obtain ⟨cores, parts, frame⟩ := chargeIssue_frame s0 s w
  rw [frame]
  rfl

theorem getTeam_turn (s : State) (x : Turn) (k : Nat) : getTeam { s with turn := x } k = getTeam s k := rfl

theorem endTeam_ended (s : State) (k : Nat) : (getTeam (endTeam s k) k).ended = true := by simp [endTeam]

theorem endTeam_mem (s : State) (k : Nat) : (endTeam s k).mem = s.mem := by
  simp [endTeam, dropQueries, foldl_setTh_mem, foldl_setWarp_mem]

/-- Halting the warps of a team changes nothing but the warps (R199, R200). -/
theorem foldl_haltWarp_frame (v : Nat) (ws : List Nat) (s : State) :
    ∃ warps, ws.foldl (fun s w => haltWarp s v w) s = { s with warps := warps } := by
  induction ws generalizing s with
  | nil => exact ⟨_, rfl⟩
  | cons w ws ih => exact ih (haltWarp s v w)

/-! ### Taking a trap (R199, R202, R203) -/

/-- A thread with the record of its trap (R193). -/
def withTrap (x : TrapInfo) (th : Thread) : Thread :=
  { th with trapPend := some x, pend := if x.late then none else th.pend }

theorem raiseTraps_turn (s : State) (w : Nat) (traps : List (Nat × TrapInfo)) : (raiseTraps s w traps).turn = .idle := by
  unfold raiseTraps
  dsimp only
  split_ifs <;> rfl

section
variable {s : State} {w : Nat} {l : List Nat} {info : Nat → TrapInfo}

/-- A team without a handler, or one of whose trapping threads is in handler state, ends (R203). -/
theorem raiseTraps_ends (some' : l ≠ [])
    (ends : (getTeam s (teamOfWarp s w)).tvec = 0 ∨ ∃ t ∈ l, (getTh s t).handler = true) :
    (raiseTraps s w (l.map fun t => (t, info t))).mem = s.mem ∧
    (getTeam (raiseTraps s w (l.map fun t => (t, info t))) (teamOfWarp s w)).ended = true := by
  have raised : raiseTraps s w (l.map fun t => (t, info t)) = { endTeam s (teamOfWarp s w) with turn := .idle } :=
    (if_neg (by simpa using some')).trans (if_pos (by simpa using ends))
  rw [raised, getTeam_turn]
  exact ⟨endTeam_mem s (teamOfWarp s w), endTeam_ended s (teamOfWarp s w)⟩

/-- Any other team halts, or stays halted, and each trapping thread takes its record (R199, R202). -/
theorem raiseTraps_halts (some' : l ≠ []) (nodup : l.Nodup)
    (takes : ¬ ((getTeam s (teamOfWarp s w)).tvec = 0 ∨ ∃ t ∈ l, (getTh s t).handler = true)) :
    (raiseTraps s w (l.map fun t => (t, info t))).mem = s.mem ∧
    (getTeam (raiseTraps s w (l.map fun t => (t, info t))) (teamOfWarp s w)).halted = true ∧
    ∀ t, getTh (raiseTraps s w (l.map fun t => (t, info t))) t =
      if t ∈ l then withTrap (info t) (getTh s t) else getTh s t := by
  obtain ⟨s1, raised, threads, mem, halted⟩ : ∃ s1, raiseTraps s w (l.map fun t => (t, info t)) =
        { l.foldl (fun s t => modTh s t (withTrap (info t))) s1 with turn := .idle } ∧
      s1.threads = s.threads ∧ s1.mem = s.mem ∧ (getTeam s1 (teamOfWarp s w)).halted = true := by
    unfold raiseTraps
    dsimp only
    rw [if_neg (by simpa using some'), if_neg (by simpa using takes)]
    simp only [List.foldl_map]
    refine ⟨_, rfl, ?_⟩
    by_cases halted : (getTeam s (teamOfWarp s w)).halted = true
    · rw [if_pos halted]
      exact ⟨rfl, rfl, halted⟩
    · obtain ⟨warps, frame⟩ := foldl_haltWarp_frame w (teamWarps s (teamOfWarp s w)) s
      rw [if_neg halted, frame]
      exact ⟨rfl, rfl, by simp⟩
  have only := foldl_modTh_only (fun t => withTrap (info t)) l s1
  have get := foldl_modTh_get (fun t => withTrap (info t)) l nodup s1
  rw [raised]
  refine ⟨(congrArg State.mem only).trans mem, ?_, fun t => (get t).trans ?_⟩
  · rw [← halted]
    exact congrArg (fun m => (smGet {} m (teamOfWarp s w)).halted) (congrArg State.teams only)
  · rw [getTh, getTh, threads]

theorem raiseTraps_mem (some' : l ≠ []) (nodup : l.Nodup) : (raiseTraps s w (l.map fun t => (t, info t))).mem = s.mem := by
  by_cases ends : (getTeam s (teamOfWarp s w)).tvec = 0 ∨ ∃ t ∈ l, (getTh s t).handler = true
  · exact (raiseTraps_ends some' ends).1
  · exact (raiseTraps_halts some' nodup ends).1

/-- A word that raises traps as it issues has trapped: the charge of its issue touches nothing that `TrapsAt` names. -/
theorem trapsAt_of_raiseTraps {i : Instr} (some' : l ≠ []) (nodup : l.Nodup)
    (answer : exec i s = .next (raiseTraps (chargeIssue s s w) w (l.map fun t => (t, info t)))) :
    ∃ s', TrapsAt i s s' w (l.map fun t => (t, info t)) := by
  refine ⟨_, answer, raiseTraps_turn .., (raiseTraps_mem some' nodup).trans (chargeIssue_mem ..), fun handler outside => ?_,
    fun ends => ?_⟩
  · have takes : ¬ ((getTeam s (teamOfWarp s w)).tvec = 0 ∨ ∃ t ∈ l, (getTh s t).handler = true) :=
      not_or.2 ⟨handler, by simpa using outside⟩
    obtain ⟨-, halted, threads⟩ := raiseTraps_halts (s := chargeIssue s s w) (w := w) (info := info) some' nodup
      (by simpa using takes)
    simp only [teamOfWarp_chargeIssue, getTh_chargeIssue] at halted threads
    refine ⟨halted, fun t => ?_, fun x mem => ?_, fun t other => ?_⟩
    · rw [threads]
      split_ifs <;> exact ⟨rfl, rfl, rfl⟩
    · obtain ⟨t, traps, rfl⟩ := List.mem_map.1 mem
      rw [threads, if_pos traps]
      rfl
    · rw [threads, if_neg (by simpa using other)]
  · have ended := (raiseTraps_ends (s := chargeIssue s s w) (w := w) (info := info) some' (by simpa using ends)).2
    rwa [teamOfWarp_chargeIssue] at ended

end

end Sys2Proof.Machine
end

section
/-! Which words of the tables are uniform, and what becomes of one that is not issued for its whole warp (R46, R92, R102,
R103). -/
namespace Sys2Proof.Machine
-- One declaration at a time: each more thread of the compiler takes a stack out of the same memory.
set_option Elab.async false

/-! ### The tables with uniform words -/

theorem exists_of_firstSome {α β : Type} {f : α → Option β} {l : List α} {b : β} (h : firstSome f l = some b) :
    ∃ a ∈ l, f a = some b := by
  induction l with
  | nil => cases h
  | cons a l ih =>
    unfold firstSome at h
    split at h
    case h_1 c found => exact ⟨a, List.mem_cons_self, found.trans h⟩
    case h_2 =>
      obtain ⟨c, mem, found⟩ := ih h
      exact ⟨c, List.mem_cons_of_mem a mem, found⟩

/-- The tables without a uniform word, and those that hold one. -/
def laneTables : List (Instr → Option WordRow) :=
  [pairWordRow, integerRow, bitRow, packedRow, pairRegRow, floatRow, convertRow, longImmRow, controlRow, bufferRow, matrixRow,
    barrierRow, systemRow]
def uniformTables : List (Instr → Option WordRow) := [predicateRow, uniformRow, crossRow, accessRow, copyRow, queueRow]

section
variable {i : Instr} {r : WordRow} {s : State}

/-- The row of a word stands in one kind of table or the other. -/
theorem exists_table_of_wordRow (h : wordRow i = some r) :
    (∃ row ∈ laneTables, row i = some r) ∨ ∃ row ∈ uniformTables, row i = some r := by
  obtain ⟨row, mem, h⟩ := exists_of_firstSome h
  have : row ∈ laneTables ∨ row ∈ uniformTables := by
    simp only [laneTables, uniformTables, List.mem_cons, List.not_mem_nil, or_false] at mem ⊢
    tauto
  exact this.imp (fun mem => ⟨row, mem, h⟩) fun mem => ⟨row, mem, h⟩

theorem not_uniform_of_pairWordRow (h : pairWordRow i = some r) : (r.info s).uniform = false := by
  obtain ⟨halves, -, rfl⟩ := Option.map_eq_some_iff.1 h
  rfl

/-- No row of these tables asks for the whole warp. -/
theorem not_uniform_of_laneTables {row : Instr → Option WordRow} (mem : row ∈ laneTables) (h : row i = some r) :
    (r.info s).uniform = false := by
  simp only [laneTables, List.mem_cons, List.not_mem_nil, or_false] at mem
  obtain rfl | rfl | rfl | rfl | rfl | rfl | rfl | rfl | rfl | rfl | rfl | rfl | rfl := mem
  case inl => exact not_uniform_of_pairWordRow h
  all_goals
    simp only [integerRow.eq_def, bitRow.eq_def, packedRow.eq_def, pairRegRow.eq_def, floatRow.eq_def, convertRow.eq_def,
      longImmRow.eq_def, controlRow.eq_def, bufferRow.eq_def, matrixRow.eq_def, barrierRow.eq_def, systemRow.eq_def] at h
    split at h <;> cases h <;> rfl

/-! ### A uniform word issues with what its row names -/

theorem exec_eq_runWord_of_predicateRow (h : predicateRow i = some r) (uniform : (r.info s).uniform = true) :
    ∃ own, exec i s = runWord (r.info s) own s := by
  unfold predicateRow at h
  split at h <;> cases h <;> cases uniform
  rw [exec_scmp, execScmp]
  exact ⟨_, rfl⟩

theorem exec_eq_runWord_of_uniformRow (h : uniformRow i = some r) : ∃ own, exec i s = runWord (r.info s) own s := by
  obtain ⟨g, d, srcs, f, rfl, run⟩ := exec_of_uniformRow h
  exact ⟨_, (run s).trans (uniWord_eq_runWord g d srcs f s)⟩

theorem exec_eq_runWord_of_crossRow (h : crossRow i = some r) (uniform : (r.info s).uniform = true) :
    ∃ own, exec i s = runWord (r.info s) own s := by
  unfold crossRow at h
  split at h <;> cases h <;> cases uniform
  · rw [exec_shfl, execShfl]; exact ⟨_, rfl⟩
  · rw [exec_ballot, execBallot]; exact ⟨_, rfl⟩
  · rw [exec_ballot, execBallot]; exact ⟨_, rfl⟩
  · rw [exec_redux, execRedux]; exact ⟨_, rfl⟩

theorem exec_eq_runWord_of_accessRow (h : accessRow i = some r) (uniform : (r.info s).uniform = true) :
    ∃ own, exec i s = runWord (r.info s) own s := by
  unfold accessRow at h
  split at h <;> cases h <;> cases uniform
  · rw [exec_sld, execSld, sldWord]; exact ⟨_, rfl⟩
  · rw [exec_sldLongImmediate, execSldLongImmediate, sldWord]; exact ⟨_, rfl⟩

theorem exec_eq_runWord_of_copyRow (h : copyRow i = some r) (uniform : (r.info s).uniform = true) :
    ∃ own, exec i s = runWord (r.info s) own s := by
  unfold copyRow at h
  split at h <;> cases h <;> cases uniform
  · rw [exec_cpyo, execCpyo]; exact ⟨_, rfl⟩
  · rw [exec_await, execAwait]; exact ⟨_, rfl⟩

theorem exec_eq_runWord_of_queueRow (h : queueRow i = some r) (uniform : (r.info s).uniform = true) :
    ∃ own, exec i s = runWord (r.info s) own s := by
  unfold queueRow at h
  split at h <;> cases h <;> cases uniform
  rw [exec_qsub, execQsub]
  exact ⟨_, rfl⟩

theorem exec_eq_runWord_of_uniform (h : wordRow i = some r) (uniform : (r.info s).uniform = true) :
    ∃ own, exec i s = runWord (r.info s) own s := by
  obtain ⟨row, mem, h⟩ | ⟨row, mem, h⟩ := exists_table_of_wordRow h
  · rw [not_uniform_of_laneTables mem h] at uniform
    cases uniform
  · simp only [uniformTables, List.mem_cons, List.not_mem_nil, or_false] at mem
    obtain rfl | rfl | rfl | rfl | rfl | rfl := mem
    · exact exec_eq_runWord_of_predicateRow h uniform
    · exact exec_eq_runWord_of_uniformRow h
    · exact exec_eq_runWord_of_crossRow h uniform
    · exact exec_eq_runWord_of_accessRow h uniform
    · exact exec_eq_runWord_of_copyRow h uniform
    · exact exec_eq_runWord_of_queueRow h uniform

end

/-! ### UNIFORM_DIVERGED (R46, R92, R102) -/

/-- A uniform word that passes the checks before its own and is not issued for its whole warp, or not with one guard, traps in
every issued thread. -/
theorem runWord_diverged {s : State} {info : WInfo} {w : Nat} {l : List Nat} (own : Nat → List Nat → List Nat → Own)
    (word : Chosen s w l) (privilege : info.privileged = true → (getTeam s (teamOfWarp s w)).priv ≠ 0)
    (quota : ∀ t ∈ l, reaches s info t = false) (uniform : info.uniform = true)
    (diverged : l ≠ liveThreads s w ∨ (actingIn s info.guard l ≠ [] ∧ actingIn s info.guard l ≠ l)) :
    runWord info own s = .next (raiseTraps (chargeIssue s s w) w (preciseAll s 0x06 l)) := by
  obtain ⟨chosen, windows, matrix⟩ := word
  have closed : ¬ ((l.any fun t => !windowsOpen (getTh s t)) || !matOpen s w l) = true := by
    simpa [matrix] using windows
  have allowed : ¬ (info.privileged && decide ((getTeam s (teamOfWarp s w)).priv = 0)) = true := by
    simpa using privilege
  have within : ¬ (!(l.filter (reaches s info)).isEmpty) = true := by
    simpa [List.filter_eq_nil_iff] using quota
  have apart : (info.uniform && (!decide (l = liveThreads s w) ||
      (!(actingIn s info.guard l).isEmpty && !decide (actingIn s info.guard l = l)))) = true := by
    simpa [uniform] using diverged
  rw [runWord, chosen]
  exact (if_neg closed).trans ((if_neg allowed).trans ((if_neg within).trans (if_pos apart)))

/-- Settles O26: the check comes before any rule of the word's own, so the row's info decides it. -/
theorem uniformityChecked : Obligations.UniformityChecked := by
  intro i r h s w l word privilege quota uniform diverged
  obtain ⟨own, run⟩ := exec_eq_runWord_of_uniform h uniform
  exact trapsAt_of_raiseTraps (issuedSet_ne_nil word.chosen) (issuedSet_nodup word.chosen)
    (run.trans (runWord_diverged own word privilege quota uniform diverged))

end Sys2Proof.Machine
end

section
/-! Launch, placement, issue selection, the slot table, guest switches and retirement do what their rules say (R35 to R52, R418 to
R425). -/
namespace Sys2Proof.Machine
-- One declaration at a time: each more thread of the compiler takes a stack out of the same memory.
set_option Elab.async false

section
variable {s : State}

/-! ### Guest switches (R424) -/

/-- A list with no malformed entry is staged entry by entry. -/
theorem switchEntries_valid {p : Nat} {ws : List Nat} (valid : ∀ w ∈ ws, (switchEntry s p w).isSome = true) :
    ((ws.map (switchEntry s p)).any (·.isNone)) = false := by
  simpa [Option.isSome_iff_ne_none] using valid

theorem switchEntries_bad {p w : Nat} {ws : List Nat} (entry : w ∈ ws) (bad : switchEntry s p w = none) :
    ((ws.map (switchEntry s p)).any (·.isNone)) = true :=
  List.any_eq_true.2 ⟨none, bad ▸ List.mem_map_of_mem entry, rfl⟩

/-! ### Retirement (R51, R52) -/

/-- A team that has ended retires unless its JOIN waits for a translation or Hazel is halted. -/
theorem retirement_open {core tslot : Nat} (done : teamDone s (core * 4 + tslot) = true) (small : core < 1024)
    (runs : s.boot.hazelHalted = false) (join : (getTeam s (core * 4 + tslot)).joinWait ≠ some false) :
    ¬ (!teamDone s (core * 4 + tslot) || decide ((getTeam s (core * 4 + tslot)).joinWait = some false) ||
      decide (1024 ≤ core) || s.boot.hazelHalted) = true := by
  simp [done, small, runs, join]

/-- What becomes of a team's retirement with the answer of JOIN's home (R52, R385). -/
def retireAfter (s : State) (k : Nat) : IoRes → Out
  | .done s1 => .next (freeTeam s1 k)
  | .fault _ => .next (joinFault s k)
  | .held => .next s

/-- An ended team whose JOIN is a counter in memory decrements it at its home. -/
theorem Retires.exec_eq {core : Nat} {tslot : Fin 4} {e : TlbEntry} {p : Nat} (may : Retires s (core * 4 + tslot.val) e p) :
    exec (.teamRetirement core tslot.val) s =
      retireAfter s (core * 4 + tslot.val) (ioWrite s p (bytesOfNat 8 ((readNat s p 8 + 2 ^ 64 - 1) % 2 ^ 64))) := by
  obtain ⟨done, join, core', runs, ⟨pa, trans, rfl⟩, plain, ⟨exists', backed⟩, sound⟩ := may
  have small : core < 1024 := by omega
  rw [exec_teamRetirement, execTeamRetirement]
  refine (if_neg (retirement_open done small runs (by simp [join]))).trans ?_
  have here : ¬ (!paOk (fwdPa s pa) ∨ (inWindow (fwdPa s pa) ∧ !windowBacked s (fwdPa s pa)) ∨
      dataBad s (fwdPa s pa) 8 e.key e.ver) := by
    simpa [exists', sound] using backed
  simp only [join, trans, plain, if_neg here]
  cases ioWrite s (fwdPa s pa) (bytesOfNat 8 ((readNat s (fwdPa s pa) 8 + 2 ^ 64 - 1) % 2 ^ 64)) <;> rfl

end

/-- Settles O33: the conditions of each rule are the guards of its event, which then answers the state the rule writes out. -/
theorem launchAndRetirement : Obligations.LaunchAndRetirement := by
  intro i s s' h
  cases h with
  | dispatch _ encl kick e r rest found live pending good =>
    simp only [exec_dispatchRecord, execDispatchRecord, found, pending, live, good]
    rfl
  | refuse _ s2 encl kick code e r rest found live pending bad some' stored =>
    simp only [exec_dispatchRecord, execDispatchRecord, found, pending, live, bad, if_pos some', stored]
    rfl
  | place _ i l pl may more =>
    obtain ⟨at', runs, head, fits, rank⟩ := may
    simp only [exec_grovePlacement, execGrovePlacement, at', runs, head, fits, rank, more]
    rfl
  | placeLast _ i l pl may last =>
    obtain ⟨at', runs, head, fits, rank⟩ := may
    simp only [exec_grovePlacement, execGrovePlacement, at', runs, head, fits, rank, last]
    rfl
  | starved _ i c l at' since long =>
    simp [exec_placementStarvation, execPlacementStarvation, at', launchStarved, since, long]
  | issue _ core w slot up chosen =>
    simp [exec_issueSelection, execIssueSelection, up, slotTurn, chosen]
  | starvedThread _ core wslot t up chosen ready long =>
    have starving : (readyThreads s (core * 64 + wslot)).any (fun t => decide (256 ≤ (getTh s t).waitCount)) = true :=
      List.any_eq_true.2 ⟨t, ready, decide_eq_true long⟩
    simp only [exec_waitCountStarvation, execWaitCountStarvation, up, chosen, starving]
    rfl
  | bind _ core wslot rec runs resident live same =>
    simp [exec_bindRecordWrite, execBindRecordWrite, live, runs, resident, same]
  | bindBad _ core wslot rec runs resident live more =>
    simp [exec_bindRecordWrite, execBindRecordWrite, live, runs, resident, more]
  | gsw _ s1 s2 p v bs ws up idle count range list valid =>
    have range' : ¬ (natOfBytes bs = 0 ∨ 256 < natOfBytes bs) := by omega
    simp only [exec_gsw, execGsw, vfErred_of_vfUp up, up, idle, count, if_neg range', list, Option.map_some,
      switchEntries_valid valid]
    simp
  | gswCount _ s1 p v bs up idle count range =>
    simp only [exec_gsw, execGsw, vfErred_of_vfUp up, up, idle, count, if_pos range]
    rfl
  | gswList _ s1 s2 p w v bs ws up idle count range list entry bad =>
    have range' : ¬ (natOfBytes bs = 0 ∨ 256 < natOfBytes bs) := by omega
    simp only [exec_gsw, execGsw, vfErred_of_vfUp up, up, idle, count, if_neg range', list, Option.map_some,
      switchEntries_bad entry bad]
    rfl
  | gswBusy _ p v up busy =>
    simp [exec_gsw, execGsw, vfErred_of_vfUp up, up, busy]
  | gswError _ p v up range state =>
    simp [exec_gsw, execGsw, vfErred, up, range, state]
  | commit _ p busy runs =>
    simp only [exec_guestSwitchCommit, execGuestSwitchCommit, busy, runs]
    rfl
  | retire _ s1 core tslot e p may wrote => rw [may.exec_eq, wrote]; rfl
  | retireRefused _ core tslot e p code may refused => rw [may.exec_eq, refused]; rfl
  | retireKick _ core tslot e pa done small runs join trans kick =>
    rw [exec_teamRetirement, execTeamRetirement]
    refine (if_neg (retirement_open done small runs (by simp [join]))).trans ?_
    simp only [join, trans, kick]
    rfl
  | joinFault _ core tslot done small runs denied =>
    rw [exec_teamRetirement, execTeamRetirement]
    refine (if_neg (retirement_open done small runs (by simp [denied]))).trans ?_
    exact if_pos denied
  | slice _ => rfl

end Sys2Proof.Machine
end

section
/-! The extension instructions of the general cores do what their rules say (R38, R334 to R336, R394 to R399). -/
namespace Sys2Proof.Machine
-- One declaration at a time: each more thread of the compiler takes a stack out of the same memory.
set_option Elab.async false

section
variable {s s1 : State} {h : Nat} {e : Enclave} {w : W32}

/-! ### The hart that issues (R334, R394) -/

/-- A hart in an enclave does what its word says. -/
theorem HartIssues.runHart_eq (issues : HartIssues s h e) (f : Nat → Hart → Enclave → Out) :
    runHart w f s = f h (getHart s h) e := by
  simp only [runHart, issues.turn, issues.encl]

theorem runHart_outside (turn : issuedHart s = some h) (outside : getEncl s (getHart s h).encl = none)
    (f : Nat → Hart → Enclave → Out) :
    runHart w f s = .next (hartExc s h (.illegalInstruction w)) := by
  simp only [runHart, turn, outside]

/-- Each word of custom-0 is issued by a hart under its own encoding. -/
theorem exec_of_customOf {i : Instr} (custom : customOf i = some w) (s : State) : ∃ f, exec i s = runHart w f s := by
  unfold customOf at custom
  split at custom <;> cases custom
  · exact ⟨_, exec_spawn ..⟩
  · exact ⟨_, exec_joinw ..⟩
  · exact ⟨_, by rw [exec_ecreate, execEcreate, rowanTrap]⟩
  · exact ⟨_, by rw [exec_edestroy, execEdestroy, rowanTrap]⟩
  · exact ⟨_, by rw [exec_eattest, execEattest, rowanTrap]⟩

/-- A `spawn` of a record that can be read waits for room in its kick register, or appends the record (R335). -/
theorem HartIssues.exec_spawn_loaded (issues : HartIssues s h e) {rd rs1 rs2 : BitVec 5} {bs : List Byte}
    (kick : (rdX (getHart s h) rs2).toNat ≤ e.nkickm1 ∧ (rdX (getHart s h) rs2).toNat ≤ 15)
    (aligned : (rdX (getHart s h) rs1).toNat % 128 = 0) (load : hartLoad s h (rdX (getHart s h) rs1).toNat 128 = .ok s1 bs) :
    exec (.spawn rd rs1 rs2) s =
      if kickFull (smGet {} e.kicks (rdX (getHart s h) rs2).toNat) then
        .next { setHart s1 h { getHart s1 h with wait := some (.spawn (getHart s h).encl (rdX (getHart s h) rs2).toNat
          (recordAt bs (rdX (getHart s h) rs1).toNat) rd.toNat) } with turn := .idle }
      else .next (kickAppend s1 h (getHart s h).encl (rdX (getHart s h) rs2).toNat
        (recordAt bs (rdX (getHart s h) rs1).toNat) rd) := by
  rw [exec_spawn, execSpawn, issues.runHart_eq]
  simp only [Nat.not_lt.2 kick.1, Nat.not_lt.2 kick.2, aligned, load]
  rfl

/-! ### Traps to Rowan (R372, R394, R404, R412) -/

theorem RowanIdle.not_busy (idle : RowanIdle s) : ¬ (rowanBusy s ∨ (usageDue s).isSome ∨ !s.rowan.queue.isEmpty) := by
  simp [rowanBusy, idle.shoot, idle.migr, idle.queue, idle.record]

theorem RowanTaken.busy (taken : RowanTaken s) : rowanBusy s ∨ (usageDue s).isSome ∨ !s.rowan.queue.isEmpty := by
  simp only [RowanTaken, Option.ne_none_iff_isSome] at taken
  simp only [rowanBusy, Bool.or_eq_true, Bool.not_eq_true', List.isEmpty_eq_false_iff]
  tauto

section
variable {rd : BitVec 5} {busy : W64} {f : Hart → Enclave → State × W64}

/-- Rowan serves a trap whose turn it is. -/
theorem rowanTrap_free (issues : HartIssues s h e) (free : RowanFree s) :
    rowanTrap w rd busy f s = .next (hartDone (f (getHart s h) e).1 h rd (f (getHart s h) e).2) := by
  rw [rowanTrap, issues.runHart_eq, if_neg free.toRowanIdle.not_busy, if_neg (by simp [free.awake])]

theorem rowanTrap_taken (issues : HartIssues s h e) (taken : RowanTaken s) :
    rowanTrap w rd busy f s = .next { s with turn := .idle } := by
  rw [rowanTrap, issues.runHart_eq, if_pos taken.busy]

theorem rowanTrap_sleeping (issues : HartIssues s h e) (idle : RowanIdle s) (sleeping : s.rowan.sleeping = true) :
    rowanTrap w rd busy f s = .next (hartDone s h rd busy) := by
  rw [rowanTrap, issues.runHart_eq, if_neg idle.not_busy, if_pos sleeping]

/-- Each trap to Rowan is a trap with its own destination and its own BUSY word. -/
theorem exec_of_rowanTrapOf {i : Instr} {x : BitVec 5 × W64} (trap : rowanTrapOf i = some x) (s : State) :
    ∃ w f, exec i s = rowanTrap w x.1 x.2 f s := by
  unfold rowanTrapOf at trap
  split at trap <;> cases trap
  · exact ⟨_, _, exec_ecreate ..⟩
  · exact ⟨_, _, exec_edestroy ..⟩
  · exact ⟨_, _, exec_eattest ..⟩

end

/-! ### One read of a join counter (R336) -/

variable {va rd : Nat} {bs : List Byte}

theorem joinRead_ends (load : hartLoad s h va 8 = .ok s1 bs) (ends : joinEnds (BitVec.ofNat 64 (natOfBytes bs)) = true) :
    joinRead s h va rd = .next (hartDone s1 h (BitVec.ofNat 5 rd) (BitVec.ofNat 64 (natOfBytes bs))) := by
  simp only [joinRead, load, ends, if_true]

theorem joinRead_waits (load : hartLoad s h va 8 = .ok s1 bs) (more : joinEnds (BitVec.ofNat 64 (natOfBytes bs)) = false) :
    joinRead s h va rd = .next { setHart s1 h { getHart s1 h with wait := some (.joinw va rd) } with turn := .idle } := by
  simp only [joinRead, load, more, Bool.false_eq_true, if_false]

theorem joinRead_fault (load : hartLoad s h va 8 = .fault s1) :
    joinRead s h va rd = .next (hartExc (setHart s1 h { getHart s1 h with wait := none }) h (.loadPageFault va)) := by
  simp only [joinRead, load]

/-- A `joinw` of an aligned counter reads it. -/
theorem HartIssues.exec_joinw_aligned (issues : HartIssues s h e) {rd rs1 : BitVec 5}
    (aligned : (rdX (getHart s h) rs1).toNat % 8 = 0) :
    exec (.joinw rd rs1) s = joinRead s h (rdX (getHart s h) rs1).toNat rd.toNat := by
  rw [exec_joinw, execJoinw, issues.runHart_eq, if_neg (not_not.2 aligned)]

end

/-- Settles O36: each rule's conditions decide who issues, whether Rowan takes the trap, and what the load of the word gives. -/
theorem hartsAct : Obligations.HartsAct := by
  intro i s s' rule
  cases rule with
  | spawn _ s1 rd rs1 rs2 h e bs issues kick aligned load room =>
    exact (issues.exec_spawn_loaded kick aligned load).trans (if_neg (ne_true_of_eq_false room))
  | spawnWaits _ s1 rd rs1 rs2 h e bs issues kick aligned load full =>
    exact (issues.exec_spawn_loaded kick aligned load).trans (if_pos full)
  | spawnNoKick _ rd rs1 rs2 h e issues kick =>
    rw [exec_spawn, execSpawn, issues.runHart_eq]
    exact if_pos (.inl kick)
  | spawnMisaligned _ rd rs1 rs2 h e issues kick bad =>
    rw [exec_spawn, execSpawn, issues.runHart_eq]
    exact (if_neg (not_or.2 ⟨Nat.not_lt.2 kick.1, Nat.not_lt.2 kick.2⟩)).trans (if_pos bad)
  | outside _ w _ h custom turn none' =>
    obtain ⟨f, run⟩ := exec_of_customOf custom s
    rw [run, runHart_outside turn none']
  | spawnFault _ s1 rd rs1 rs2 h e issues kick aligned load =>
    rw [exec_spawn, execSpawn, issues.runHart_eq]
    simp only [Nat.not_lt.2 kick.1, Nat.not_lt.2 kick.2, aligned, load]
    rfl
  | append _ h encl kick rd rec e waits found room =>
    simp only [exec_spawnAppend, execSpawnAppend, waits, found, room]
    rfl
  | joinw _ s1 rd rs1 h e bs issues aligned load ends =>
    rw [issues.exec_joinw_aligned aligned, joinRead_ends load ends, BitVec.ofNat_toNat, BitVec.setWidth_eq]
  | joinwWaits _ s1 rd rs1 h e bs issues aligned load more =>
    rw [issues.exec_joinw_aligned aligned, joinRead_waits load more]
  | joinwMisaligned _ rd rs1 h e issues bad =>
    rw [exec_joinw, execJoinw, issues.runHart_eq]
    exact if_pos bad
  | joinwFault _ s1 rd rs1 h e issues aligned load =>
    rw [issues.exec_joinw_aligned aligned, joinRead_fault load]
  | joinwEnds _ s1 h va rd bs waits load ends =>
    rw [exec_joinwComplete, execJoinwComplete, waits]
    exact joinRead_ends load ends
  | ecreate _ s1 rd rs1 h id e issues free made =>
    rw [exec_ecreate, execEcreate, rowanTrap_free issues free, made]
  | ecreateFails _ rd rs1 h status e issues free fails =>
    rw [exec_ecreate, execEcreate, rowanTrap_free issues free, fails]
    rfl
  | edestroy _ rd rs1 h e issues free own =>
    rw [exec_edestroy, execEdestroy, rowanTrap_free issues free]
    simp only [own, if_true]
    rfl
  | edestroyFails _ rd rs1 h e issues free other =>
    rw [exec_edestroy, execEdestroy, rowanTrap_free issues free]
    simp only [other, if_false]
  | eattest _ rd rs1 rs2 h e issues free =>
    rw [exec_eattest, execEattest, rowanTrap_free issues free]
  | trapWaits _ x _ h e trap issues taken =>
    obtain ⟨w, f, run⟩ := exec_of_rowanTrapOf trap s
    rw [run, rowanTrap_taken issues taken]
  | trapBusy _ x _ h e trap issues idle sleeping =>
    obtain ⟨w, f, run⟩ := exec_of_rowanTrapOf trap s
    rw [run, rowanTrap_sleeping issues idle sleeping]
  | illegal _ w h turn =>
    simp only [exec_illegalInstructionException, execIllegalInstructionException, turn]

end Sys2Proof.Machine
end

section
/-! Barriers and mbar objects do what their rows say (R69, R276 to R281). -/
namespace Sys2Proof.Machine
-- One declaration at a time: each more thread of the compiler takes a stack out of the same memory.
set_option Elab.async false

/-! ### Arrivals (R69, R277) -/

/-- A word that arrives: outside handler state and with no armed flag set, its own part is the arrivals and their waits. -/
theorem completes_arrive {i : Instr} {g : Guard} {b : Nat} {andWait : Bool} (run : ∀ s, exec i s = arriveWord g b andWait s)
    {s : State} {w : Nat} {l : List Nat} (issues : Issues s ((rowArrive g b andWait).info s) w l) :
    CompletesAt i (rowArrive g b andWait) s w l := by
  refine completes_at issues (run s) (fun _ able => ?_) (fun _ _ _ h => nomatch h)
  obtain ⟨outside, notArmed⟩ := able
  refine ⟨_, ?_, fun t ht => effOf_acting ht⟩
  have noHandler : ((actingIn s g l).any fun t => (getTh s t).handler) = false :=
    List.any_eq_false.2 fun t acts => ne_true_of_eq_false (outside t acts)
  exact (if_neg (ne_true_of_eq_false noHandler)).trans (by rw [notArmed]; rfl)

/-! ### Objects that an update leaves in place (R216 to R219, R280) -/

theorem spResolve_congr {s s' : State} (teams : s'.teams = s.teams) (k sa n : Nat) :
    spResolve s' k sa n = spResolve s k sa n := by
  have same : getTeam s' = getTeam s := funext fun k => by rw [getTeam, teams, getTeam]
  unfold spResolve spTarget earliest coreTeams
  rw [same]

theorem mbUpdate_teams (s : State) (core phys : Nat) (f : MbObj → MbObj) : (mbUpdate s core phys f).teams = s.teams := by
  unfold mbUpdate
  dsimp only
  split_ifs <;> rfl

theorem mbUpdate_cores (s : State) (core phys : Nat) (f : MbObj → MbObj) :
    (mbUpdate s core phys f).cores = (mbWrite s core phys (mbCheck (f (mbRead s core phys))).1).cores := by
  unfold mbUpdate
  dsimp only
  split_ifs <;> rfl

/-- A write of plain-window bytes ends uncorrectable errors and brings none (R260). -/
theorem spBad_spWritePlain {s : State} {c phys n : Nat} (well : spBad s c phys n = false) (core a : Nat) (bs : List Byte) :
    spBad (spWritePlain s core a bs) c phys n = false := by
  simp only [spBad, List.any_eq_false] at well ⊢
  intro x hx
  have := well x hx
  by_cases h : c = core
  · subst h
    simp_all [spWritePlain, nsHas]
  · simpa [spWritePlain, h] using this

/-- What names an object names it still after an update of any object. -/
theorem spObject_mbUpdate {s : State} {k sa : Nat} {p : Nat × Nat} (found : spObject s k sa = .inr p) (core phys : Nat)
    (f : MbObj → MbObj) : spObject (mbUpdate s core phys f) k sa = .inr p := by
  have stays {c a} (well : spBad s c a 16 = false) : spBad (mbUpdate s core phys f) c a 16 = false := by
    simp only [spBad, getCore, mbUpdate_cores]
    exact spBad_spWritePlain well ..
  unfold spObject at found ⊢
  rw [spResolve_congr (mbUpdate_teams s core phys f)]
  split_ifs at found ⊢ with align
  split at found
  · cases found
  · cases found
  · split_ifs at found with well
    rw [stays (eq_false_of_ne_true well)]
    exact found

/-! ### Effects of some of the acting threads -/

/-- A word that waits for earlier accesses of its threads goes on where they have resolved (R243). -/
theorem if_resolved {s : State} {acting : List Nat} (resolves : ∀ t ∈ acting, resolved (getTh s t) = true) (x y : Own) :
    (if acting.any fun t => !resolved (getTh s t) then x else y) = y :=
  if_neg (ne_true_of_eq_false (List.any_eq_false.2 fun t acts => by simp [resolves t acts]))

/-- The effects of a word in those of its acting threads that a condition picks, looked up. -/
theorem effOf_acting_filter {s : State} {g : Guard} {l : List Nat} {eff : Nat → Eff} (p : Nat → Bool) {t : Nat} (ht : t ∈ l) :
    effOf (((actingIn s g l).filter p).map fun t => (t, eff t)) t =
      if rdGuard s g t then (if p t then eff t else {}) else {} := by
  rw [effOf_map]
  unfold actingIn
  by_cases acts : rdGuard s g t <;> by_cases picked : p t <;> simp [acts, picked, ht]

/-! ### Words that update objects, thread after thread (R280, R281) -/

/-- One acting thread of an mbar word: its object updated, or a late fault. -/
def mbarLane (s : State) (dst : List Nat) (kind k : Nat) (addr : Nat → Nat)
    (f : Nat → MbObj → Sum Nat (List (Nat × W32) × MbObj)) (a : State × List (Nat × Eff)) (t : Nat) :
    State × List (Nat × Eff) :=
  let fail (c : Nat) := (lateFault a.1 t c kind (BitVec.ofNat 64 (addr t)) (getTh s t).pc dst none 0, a.2)
  match spObject a.1 k (addr t) with
  | .inl c => fail c
  | .inr p =>
    match f t (mbRead a.1 p.1 p.2) with
    | .inl c => fail c
    | .inr x => (mbUpdate a.1 p.1 p.2 fun _ => x.2, a.2 ++ [(t, { w := x.1 })])

theorem mbarWord_eq_runWord (g : Guard) (la : Nat) (r : List Nat × List Nat) (dst : List Nat) (kind : Nat) (addr : Nat → Nat)
    (f : Nat → MbObj → Sum Nat (List (Nat × W32) × MbObj)) (s : State) :
    mbarWord g la r dst kind addr f s =
      runWord { guard := g, la := la, reads := r.1, sreads := r.2, writes := dst, access := true } (fun w _ acting =>
        if acting.any fun t => !resolved (getTh s t) then .stall
        else
          let r := acting.foldl (mbarLane s dst kind (teamOfWarp s w) addr f) (s, [])
          .go r.1 r.2) s := rfl

/-- The effects of a word that updates objects: each thread's registers, from its object as it found it. -/
def mbarEffs (out : Nat → MbObj → List (Nat × W32)) (ms : List (Nat × MbObj)) : List (Nat × Eff) :=
  ms.map fun x => (x.1, { w := out x.1 x.2 })

/-- Where every thread names an object and its update is accepted, the threads make what the row's `mbarLanes` lists. -/
theorem foldl_mbarLane {s0 : State} {dst : List Nat} {kind k : Nat} {addr : Nat → Nat}
    {f : Nat → MbObj → Sum Nat (List (Nat × W32) × MbObj)} {out : Nat → MbObj → List (Nat × W32)} {g : Nat → MbObj → MbObj}
    (acting : List Nat) (s : State) (effs : List (Nat × Eff)) (accepted : ∀ t ∈ acting, ∀ m, f t m = .inr (out t m, g t m))
    (objects : ∀ t ∈ acting, ∃ p, spObject s k (addr t) = .inr p) :
    acting.foldl (mbarLane s0 dst kind k addr f) (s, effs) =
      ((mbarLanes k addr g s acting).1, effs ++ mbarEffs out (mbarLanes k addr g s acting).2) := by
  induction acting generalizing s effs with
  | nil => simp [mbarLanes, mbarEffs]
  | cons t ts ih =>
    obtain ⟨p, found⟩ := objects t List.mem_cons_self
    have lane : mbarLane s0 dst kind k addr f (s, effs) t =
        (mbUpdate s p.1 p.2 fun _ => g t (mbRead s p.1 p.2), effs ++ [(t, { w := out t (mbRead s p.1 p.2) })]) := by
      simp only [mbarLane, found, accepted t List.mem_cons_self]
    rw [List.foldl_cons, lane, ih _ _ (fun u hu => accepted u (List.mem_cons_of_mem _ hu))]
    · simp [mbarLanes, mbarEffs, found]
    · intro u hu
      obtain ⟨q, found'⟩ := objects u (List.mem_cons_of_mem _ hu)
      exact ⟨q, spObject_mbUpdate found' ..⟩

/-- No object is listed for a thread that does not act. -/
theorem mbarLanes_find_of_notMem {k : Nat} {addr : Nat → Nat} {g : Nat → MbObj → MbObj} {t : Nat} (acting : List Nat) (s : State)
    (notMem : t ∉ acting) : smFind? (mbarLanes k addr g s acting).2 t = none := by
  induction acting generalizing s with
  | nil => rfl
  | cons u us ih =>
    obtain ⟨ne, notMem⟩ := not_or.1 (fun h => notMem (List.mem_cons.2 h))
    unfold mbarLanes
    split
    · simpa [ne] using ih _ notMem
    · exact ih _ notMem

theorem effOf_mbarEffs (out : Nat → MbObj → List (Nat × W32)) (ms : List (Nat × MbObj)) (t : Nat) :
    effOf (mbarEffs out ms) t =
      { w := match smFind? ms t with
          | some m => out t m
          | none => [] } := by
  induction ms with
  | nil => rfl
  | cons x ms ih =>
    obtain ⟨u, m⟩ := x
    by_cases h : t = u
    · subst h; simp [effOf, mbarEffs]
    · simpa [effOf, mbarEffs, h] using ih

/-- A word that updates objects completes with what its row says, if it does not fault where the row's own condition holds. -/
theorem completes_mbar {i : Instr} {h : Hdr} {dst : List Nat} {a b : Src} {kind : Nat} {ok : State → Nat → Prop}
    {F : State → Nat → MbObj → Sum Nat (List (Nat × W32) × MbObj)} {f : State → Nat → MbObj → MbObj}
    {out : State → Nat → MbObj → List (Nat × W32)}
    (run : ∀ s, exec i s = mbarWord h.guard h.la.toNat (srcRegs [a, b] []) dst kind (fun t => (rd32 s t a).toNat) (F s) s)
    (accepted : ∀ s t m, ok s t → F s t m = .inr (out s t m, f s t m))
    {s : State} {w : Nat} {l : List Nat} (issues : Issues s ((rowMbar h dst a b ok f out).info s) w l) :
    CompletesAt i (rowMbar h dst a b ok f out) s w l := by
  refine completes_at issues ((run s).trans (mbarWord_eq_runWord ..)) (fun _ able => ?_) (fun _ _ _ h => nomatch h)
  refine ⟨mbarEffs (out s) (mbarLanes (teamOfWarp s w) (fun t => (rd32 s t a).toNat) (f s) s (actingIn s h.guard l)).2, ?_,
    fun t ht => ?_⟩
  · refine (if_resolved (fun t acts => (able t acts).1) _ _).trans ?_
    dsimp only
    rw [foldl_mbarLane _ s [] (fun t ht m => accepted s t m (able t ht).2.1) (fun t ht => (able t ht).2.2)]
    rfl
  · rw [effOf_mbarEffs]
    split_ifs with acts
    · rfl
    · have : t ∉ actingIn s h.guard l := fun mem => acts (List.mem_filter.1 mem).2
      rw [mbarLanes_find_of_notMem _ _ this]

/-- QUORUM is the source's low 24 bits, so `mbar.init` refuses 0 there alone (R280). -/
theorem quorum_ne_zero {x : W32} (h : x.toNat % 2 ^ 24 ≠ 0) : x.extractLsb' 0 24 ≠ 0 := by
  intro zero
  exact h (by simpa using congrArg BitVec.toNat zero)

/-! ### mbar.wait (R280) -/

/-- Whether the object that a thread names is still in the generation it waits for to end. -/
def mbarWaits (s : State) (k : Nat) (a b : Src) (t : Nat) : Bool :=
  match spObject s k (rd32 s t a).toNat with
  | .inr p => decide ((mbRead s p.1 p.2).gen = (rd32 s t b).extractLsb' 0 16)
  | .inl _ => false

/-- The wait for that generation. -/
def mbarWaitEff (s : State) (a b : Src) (t : Nat) : Eff :=
  { wait := some (.mbar (rd32 s t a).toNat ((rd32 s t b).extractLsb' 0 16).toNat (getTh s t).pc) }

/-- One acting thread of `mbar.wait`. -/
def mbarWaitLane (s : State) (k : Nat) (a b : Src) (x : State × List (Nat × Eff)) (t : Nat) : State × List (Nat × Eff) :=
  match spObject s k (rd32 s t a).toNat with
  | .inl c => (lateFault x.1 t c 2 (BitVec.ofNat 64 (rd32 s t a).toNat) (getTh s t).pc [] none 0, x.2)
  | .inr p =>
    if (mbRead s p.1 p.2).gen = (rd32 s t b).extractLsb' 0 16 then (x.1, x.2 ++ [(t, mbarWaitEff s a b t)]) else x

theorem execMbarWait_eq_runWord (g : Guard) (a b : Src) (s : State) :
    execMbarWait g a b s =
      runWord { guard := g, reads := (srcRegs [a, b] []).1, sreads := (srcRegs [a, b] []).2, access := true } (fun w _ acting =>
        if acting.any fun t => !resolved (getTh s t) then .stall
        else
          let r := acting.foldl (mbarWaitLane s (teamOfWarp s w) a b) (s, [])
          .go r.1 r.2) s := rfl

/-- Where every thread names an object, the threads whose generation stands wait, and nothing else changes. -/
theorem foldl_mbarWaitLane {s s1 : State} {k : Nat} {a b : Src} (acting : List Nat) (effs : List (Nat × Eff))
    (objects : ∀ t ∈ acting, ∃ p, spObject s k (rd32 s t a).toNat = .inr p) :
    acting.foldl (mbarWaitLane s k a b) (s1, effs) =
      (s1, effs ++ (acting.filter (mbarWaits s k a b)).map fun t => (t, mbarWaitEff s a b t)) := by
  induction acting generalizing effs with
  | nil => simp
  | cons t ts ih =>
    obtain ⟨p, found⟩ := objects t List.mem_cons_self
    have rest := fun effs => ih effs fun u hu => objects u (List.mem_cons_of_mem _ hu)
    by_cases same : (mbRead s p.1 p.2).gen = (rd32 s t b).extractLsb' 0 16 <;>
      simp [mbarWaitLane, mbarWaits, found, same, rest]

/-- What the row of `mbar.wait` gives in a thread: the wait, or nothing. -/
theorem mbarWait_out {g : Guard} {a b : Src} {r : WordRow} (row : barrierRow (.mbarWait g a b) = some r)
    (s : State) (w : Nat) (l acting : List Nat) (t : Nat) :
    r.out s w l acting t = if mbarWaits s (teamOfWarp s w) a b t then mbarWaitEff s a b t else {} := by
  cases row
  cases found : spObject s (teamOfWarp s w) (rd32 s t a).toNat with
  | inl c => simp [mbarWaits, found]
  | inr p => simp [mbarWaits, mbarWaitEff, found]

/-- `mbar.wait` completes with what its row says. -/
theorem completes_mbarWait {g : Guard} {a b : Src} {r : WordRow} (row : barrierRow (.mbarWait g a b) = some r)
    {s : State} {w : Nat} {l : List Nat} (issues : Issues s (r.info s) w l) : CompletesAt (.mbarWait g a b) r s w l := by
  have out := mbarWait_out row s w l
  cases row
  refine completes_at issues ((exec_mbarWait g a b s).trans (execMbarWait_eq_runWord g a b s)) (fun _ able => ?_)
    (fun acting t => ?_)
  · refine ⟨((actingIn s g l).filter (mbarWaits s (teamOfWarp s w) a b)).map fun t => (t, mbarWaitEff s a b t), ?_,
      fun t ht => ?_⟩
    · refine (if_resolved (fun t acts => (able t acts).1) _ _).trans ?_
      dsimp only
      rw [foldl_mbarWaitLane _ [] fun t acts => (able t acts).2, List.nil_append]
    · rw [out]
      exact effOf_acting_filter _ ht
  · rw [out]
    split_ifs <;> exact fun _ h => nomatch h

/-- Settles O17: arrivals and `bar.wait` act in each thread by itself; an mbar word's threads update objects one after another, and
no update takes away the object that a later thread names, so that where every thread names one before the word, none faults. -/
theorem barrierWords : Obligations.BarrierWords := by
  intro i r h s w l issues
  unfold barrierRow at h
  split at h
  · cases h; exact completes_arrive (exec_barArrive _ _) issues
  · cases h; exact completes_arrive (exec_barSync _ _) issues
  · cases h; exact completes_arrive (exec_barSwap _) issues
  · cases h
    refine completes_threads (exec_barWait _ _) (fun _ _ _ _ => rfl) (fun _ _ _ _ _ => rfl) (fun s t => ?_) s w l issues
    dsimp only
    split_ifs <;> exact fun _ h => nomatch h
  · cases h
    exact completes_mbar (exec_mbarInit _ _ _) (fun _ _ _ ok => if_neg (quorum_ne_zero ok)) issues
  · cases h
    exact completes_mbar (exec_mbarArrive _ _ _ _) (fun _ _ _ _ => rfl) issues
  · cases h
    exact completes_mbar (exec_mbarExpect _ _ _) (fun _ _ _ _ => rfl) issues
  · exact completes_mbarWait h issues
  · cases h

end Sys2Proof.Machine
end

section
/-! What a decoded field says of its bits: the field codecs read the other way (R82 to R92). -/
namespace Sys2Proof
-- One declaration at a time: each more thread of the compiler takes a stack out of the same memory.
set_option Elab.async false

/-! ### What a decoded field says of its bits -/

theorem decGuard_eq_some {gn : BitVec 1} {gp : BitVec 3} {g : Guard} : decGuard gn gp = some g ↔ gn = g.gn ∧ gp = g.gp := by
  refine ⟨?_, fun ⟨h1, h2⟩ => h1 ▸ h2 ▸ decGuard_enc g⟩
  revert gn gp g
  decide

theorem encLGuard_dec (gp : BitVec 3) : encLGuard (decLGuard gp) = gp := by revert gp; decide
theorem decSel_bits (x : BitVec 3) : (decSel x).bits = x := by revert x; decide

theorem decOperand_eq_some {f : BitVec 9} {o : Operand} : decOperand f = some o ↔ f = o.bits := by
  refine ⟨fun h => ?_, fun h => h ▸ decOperand_enc o⟩
  have small := f.isLt
  unfold decOperand at h
  split_ifs at h <;> cases h <;> refine BitVec.eq_of_toNat_eq ?_ <;> simp [Operand.bits] <;> omega

/-- A pair's code is that of its even register (R88). -/
theorem even_bits {r : WReg} (even : r.toNat % 2 = 0) : (Operand.w r).bits = (Operand64.w (BitVec.ofNat 7 (r.toNat / 2))).bits := by
  refine BitVec.eq_of_toNat_eq ?_
  simp [Operand.bits, Operand64.bits]
  omega

theorem decOperand64_eq_some {f : BitVec 9} {o : Operand64} : decOperand64 f = some o ↔ f = o.bits := by
  refine ⟨fun h => ?_, fun h => h ▸ decOperand64_enc o⟩
  unfold decOperand64 at h
  split at h
  case h_1 r found =>
    split_ifs at h with even
    cases h
    exact (decOperand_eq_some.1 found).trans (even_bits even)
  case h_5 => cases h
  all_goals cases h; exact decOperand_eq_some.1 ‹_›

theorem decUOperand_eq_some {f : BitVec 9} {o : UOperand} : decUOperand f = some o ↔ f = o.bits ∧ o.wf = true := by
  refine ⟨fun h => ?_, fun ⟨h, wf⟩ => h ▸ decUOperand_enc wf⟩
  unfold decUOperand at h
  split at h
  case h_2 k found =>
    split_ifs at h with uniform
    cases h
    exact ⟨decOperand_eq_some.1 found, uniform⟩
  case h_4 => cases h
  all_goals cases h; exact ⟨decOperand_eq_some.1 ‹_›, rfl⟩
theorem decNeg_eq_some {s : BitVec 3} {n : Bool} : decNeg s = some n ↔ s = negBits n := by revert s n; decide

theorem decSrc_eq_some {f : BitVec 9} {s : BitVec 3} {a : Src} : decSrc f s = some a ↔ f = a.op.bits ∧ s = a.sel.bits := by
  refine ⟨fun h => ?_, fun ⟨h1, h2⟩ => h1 ▸ h2 ▸ decSrc_enc a⟩
  obtain ⟨o, found, rfl⟩ := Option.map_eq_some_iff.1 h
  exact ⟨decOperand_eq_some.1 found, (decSel_bits s).symm⟩

theorem decSrc64_eq_some {f : BitVec 9} {s : BitVec 3} {a : Src64} :
    decSrc64 f s = some a ↔ f = a.op.bits ∧ s = negBits a.neg := by
  refine ⟨fun h => ?_, fun ⟨h1, h2⟩ => h1 ▸ h2 ▸ decSrc64_enc a⟩
  obtain ⟨o, found, h⟩ := Option.bind_eq_some_iff.1 h
  obtain ⟨n, neg, h⟩ := Option.bind_eq_some_iff.1 h
  cases h
  exact ⟨decOperand64_eq_some.1 found, decNeg_eq_some.1 neg⟩

theorem decUSrc_eq_some {f : BitVec 9} {s : BitVec 3} {a : USrc} :
    decUSrc f s = some a ↔ f = a.op.bits ∧ s = a.sel.bits ∧ a.wf = true := by
  refine ⟨fun h => ?_, fun ⟨h1, h2, wf⟩ => h1 ▸ h2 ▸ decUSrc_enc wf⟩
  obtain ⟨o, found, rfl⟩ := Option.map_eq_some_iff.1 h
  obtain ⟨bits, wf⟩ := decUOperand_eq_some.1 found
  exact ⟨bits, (decSel_bits s).symm, wf⟩

theorem decUSrc64_eq_some {f : BitVec 9} {s : BitVec 3} {a : USrc64} :
    decUSrc64 f s = some a ↔ f = a.op.bits ∧ s = negBits a.neg ∧ a.wf = true := by
  refine ⟨fun h => ?_, fun ⟨h1, h2, wf⟩ => h1 ▸ h2 ▸ decUSrc64_enc wf⟩
  obtain ⟨o, found, h⟩ := Option.bind_eq_some_iff.1 h
  obtain ⟨n, neg, h⟩ := Option.bind_eq_some_iff.1 h
  cases h
  obtain ⟨bits, wf⟩ := decUOperand_eq_some.1 found
  exact ⟨bits, decNeg_eq_some.1 neg, wf⟩

theorem decPOp_eq_some {f : BitVec 9} {s : BitVec 3} {q : POp} : decPOp f s = some q ↔ f = q.bits ∧ s = 0#3 := by
  refine ⟨fun h => ?_, fun ⟨h1, h2⟩ => h1 ▸ h2 ▸ decPOp_enc q⟩
  have zero : s = 0#3 := by
    unfold decPOp at h
    split_ifs at h with fits
    exact fits.2
  subst zero
  revert f q
  decide

theorem decPReg_eq_some {d : BitVec 8} {p : PReg} : decPReg d = some p ↔ d = encPReg p := by
  refine ⟨?_, fun h => h ▸ decPReg_enc p⟩
  revert d p
  decide
theorem decSReg_eq_some {d : BitVec 8} {r : SReg} : decSReg d = some r ↔ d = encSReg r := by
  refine ⟨fun h => ?_, fun h => h ▸ decSReg_enc r⟩
  unfold decSReg at h
  split_ifs at h
  cases h
  exact BitVec.eq_of_toNat_eq (by simp [encSReg]; omega)
theorem decPairD_eq_some {d : BitVec 8} {p : WPair} : decPairD d = some p ↔ d = encPairD p := by
  refine ⟨fun h => ?_, fun h => h ▸ decPairD_enc p⟩
  unfold decPairD at h
  split_ifs at h
  cases h
  exact BitVec.eq_of_toNat_eq (by simp [encPairD]; omega)
theorem decQuadD_eq_some {d : BitVec 8} {p : WQuad} : decQuadD d = some p ↔ d = encQuadD p := by
  refine ⟨fun h => ?_, fun h => h ▸ decQuadD_enc p⟩
  unfold decQuadD at h
  split_ifs at h
  cases h
  exact BitVec.eq_of_toNat_eq (by simp [encQuadD]; omega)
theorem decOctD_eq_some {d : BitVec 8} {p : WOct} : decOctD d = some p ↔ d = encOctD p := by
  refine ⟨fun h => ?_, fun h => h ▸ decOctD_enc p⟩
  unfold decOctD at h
  split_ifs at h
  cases h
  exact BitVec.eq_of_toNat_eq (by simp [encOctD]; omega)

theorem raw_of_decRaw {n : Nat} {f : BitVec 9} {s : BitVec 3} {k : Fin n} (h : decRaw n f s = some k) :
    f = encRaw k.val ∧ s = 0#3 := by
  unfold decRaw at h
  split_ifs at h with _ zero
  cases h
  exact ⟨by simp [encRaw], zero⟩

theorem raw_of_decRawD {n : Nat} {d : BitVec 8} {k : Fin n} (h : decRawD n d = some k) : d = BitVec.ofNat 8 k.val := by
  unfold decRawD at h
  split_ifs at h
  cases h
  simp

theorem decOptFmt_eq_some {c : BitVec 9} {s : BitVec 3} {m : Bool × Nat} (h : decOptFmt c s = some m) :
    c = encOptFmt m.1 m.2 ∧ s = 0#3 := by
  have zero : s = 0#3 := by
    unfold decOptFmt at h
    dsimp only at h
    split_ifs at h with fits
    exact fits.1
  subst zero
  refine ⟨?_, rfl⟩
  revert c m
  decide

theorem modifier_bits (c : BitVec 9) : (Modifier.ofBits c).bits = c := by revert c; decide
end Sys2Proof
end

section
/-! What a decoded modifier says of its bits (R83, R84). -/
namespace Sys2Proof
-- One declaration at a time: each more thread of the compiler takes a stack out of the same memory.
set_option Elab.async false

/-! ### Modifiers -/

theorem decITy_eq_some {n : Nat} {t : ITy} (h : decITy n = some t) : n = t.code := by
  unfold decITy at h
  split at h <;> cases h <;> rfl
theorem decCond_eq_some {n : Nat} {c : Cond} (h : decCond n = some c) : n = c.code := by
  unfold decCond at h
  split at h <;> cases h <;> rfl
theorem decFCond_eq_some {n : Nat} {c : FCond} (h : decFCond n = some c) : n = c.code := by
  unfold decFCond at h
  split at h <;> cases h <;> rfl
theorem decFmt_eq_some {n : Nat} {x : Fmt} (h : decFmt n = some x) : n = x.code := by
  unfold decFmt at h
  split at h <;> cases h <;> rfl
theorem decReduxOp_eq_some {n : Nat} {x : ReduxOp} (h : decReduxOp n = some x) : n = x.code := by
  unfold decReduxOp at h
  split at h <;> cases h <;> rfl
theorem decLdW_eq_some {n : Nat} {w : LdW} (h : decLdW n = some w) : n = w.code := by
  unfold decLdW at h
  split at h <;> cases h <;> rfl
theorem decStW_eq_some {n : Nat} {w : StW} (h : decStW n = some w) : n = w.code := by
  unfold decStW at h
  split at h <;> cases h <;> rfl
theorem decBufW_eq_some {n : Nat} {w : BufW} (h : decBufW n = some w) : n = w.code := by
  unfold decBufW at h
  split at h <;> cases h <;> rfl
theorem decAtomOp_eq_some {n : Nat} {o : AtomOp} (h : decAtomOp n = some o) : n = o.code := by
  unfold decAtomOp at h
  split at h <;> cases h <;> rfl
theorem decFenceKind_eq_some {n : Nat} {k : FenceKind} (h : decFenceKind n = some k) : n = k.code := by
  unfold decFenceKind at h
  split at h <;> cases h <;> rfl
theorem decSpecial_eq_some {n : Nat} {r : SpecialReg} (h : decSpecial n = some r) : n = r.number := by
  unfold decSpecial at h
  split at h <;> cases h <;> rfl
theorem code_decRmN {n : Nat} (small : n < 4) : (decRmN n).code = n := by decide +revert
theorem code_decScope {n : Nat} (small : n < 4) : (decScope n).code = n := by decide +revert

theorem decSat_eq_some {c : BitVec 9} {s : BitVec 3} {m : Option ITy} (h : decSat c s = some m) : c = encSat m ∧ s = 0#3 := by
  unfold decSat at h
  split at h
  case h_1 found => cases h; exact decOptFmt_eq_some found
  case h_2 n found =>
    obtain ⟨t, ty, rfl⟩ := Option.map_eq_some_iff.1 h
    obtain rfl := decITy_eq_some ty
    exact decOptFmt_eq_some found
  case h_3 => cases h

theorem decTy_eq_some {c : BitVec 9} {s : BitVec 3} {t : ITy} (h : decTy c s = some t) : c = encTy t ∧ s = 0#3 := by
  unfold decTy at h
  split at h
  case h_1 n found =>
    obtain rfl := decITy_eq_some h
    exact decOptFmt_eq_some found
  case h_2 => cases h

theorem decRm_eq_some {c : BitVec 9} {s : BitVec 3} {r : Rm} (h : decRm c s = some r) : c = encRm r ∧ s = 0#3 := by
  unfold decRm at h
  dsimp only at h
  split_ifs at h with fields
  cases h
  obtain ⟨zero, opt, fmt, sc⟩ := fields
  have only : Modifier.ofBits c = ⟨false, 0, 0, (Modifier.ofBits c).rm⟩ := by
    cases parts : Modifier.ofBits c
    simp_all
  rw [encRm, code_decRmN (by simp only [Modifier.ofBits]; omega), ← only, modifier_bits]
  exact ⟨rfl, zero⟩

theorem decUnpk_eq_some {c : BitVec 9} {s : BitVec 3} {k : UnpkKind} (h : decUnpk c s = some k) : c = k.bits ∧ s = 0#3 := by
  unfold decUnpk at h
  split at h <;> cases h <;> exact decOptFmt_eq_some ‹_›

theorem decAccess_eq_some {c : BitVec 9} {s : BitVec 3} {m : Bool × Bool × BitVec 7} (h : decAccess c s = some m) :
    c = encAccess m.1 m.2.1 m.2.2 ∧ s = 0#3 := by
  unfold decAccess at h
  split_ifs at h with zero
  cases h
  refine ⟨?_, zero⟩
  revert c
  decide

theorem decAtomMod_eq_some {c : BitVec 9} {s : BitVec 3} {m : Bool × AtomOrd × Scope} (h : decAtomMod c s = some m) :
    c = encAtomMod m.1 m.2.1 m.2.2 ∧ s = 0#3 := by
  unfold decAtomMod at h
  split_ifs at h with fields
  cases h
  obtain ⟨zero, fields⟩ := fields
  refine ⟨?_, zero⟩
  clear zero
  revert c
  decide

theorem decAtomVal_eq_some {wide : Bool} {f : BitVec 9} {s : BitVec 3} {v : AtomVal} (h : decAtomVal wide f s = some v) :
    wide = v.wide ∧ f = v.opBits ∧ s = v.selBits := by
  unfold decAtomVal at h
  split_ifs at h with w <;> obtain ⟨b, found, rfl⟩ := Option.map_eq_some_iff.1 h
  · exact ⟨w, decSrc64_eq_some.1 found⟩
  · exact ⟨Bool.eq_false_iff.2 w, decSrc_eq_some.1 found⟩

end Sys2Proof
end

section
/-! The shapes of full-form words, read back: the fields are those of the instruction made. -/
namespace Sys2Proof
-- One declaration at a time: each more thread of the compiler takes a stack out of the same memory.
set_option Elab.async false

/-! ### The parts of a full-form word -/

section
variable {f : FWord}

theorem FWord.hdr_eq_some {h : Hdr} : f.hdr = some h ↔ f.la = h.la ∧ f.gn = h.guard.gn ∧ f.gp = h.guard.gp := by
  refine ⟨fun found => ?_, fun ⟨la, gn, gp⟩ => ?_⟩
  · obtain ⟨g, guard, rfl⟩ := Option.map_eq_some_iff.1 found
    exact ⟨rfl, decGuard_eq_some.1 guard⟩
  · rw [FWord.hdr, decGuard_eq_some.2 ⟨gn, gp⟩, la]; rfl

theorem FWord.oguard_eq_some {g : Guard} : f.oguard = some g ↔ f.la = 0#4 ∧ f.gn = g.gn ∧ f.gp = g.gp := by
  rw [FWord.oguard]
  split_ifs with la <;> simp [la, decGuard_eq_some]

theorem FWord.noA_iff : f.noA = true ↔ f.a = 0#9 ∧ f.asel = 0#3 := by simp
theorem FWord.noB_iff : f.noB = true ↔ f.b = 0#9 ∧ f.bsel = 0#3 := by simp
theorem FWord.noC_iff : f.noC = true ↔ f.c = 0#9 ∧ f.csel = 0#3 := by simp
theorem FWord.noD_iff : f.noD = true ↔ f.d = 0#8 := by simp
theorem FWord.noSelBC_iff : f.noSelBC = true ↔ f.bsel = 0#3 ∧ f.csel = 0#3 := by simp
theorem need_eq_some {b : Bool} {u : Unit} : need b = some u ↔ b = true := by cases b <;> simp [need]

/-- A field is read, and then the rest of the word. -/
theorem bind_eq_some {α β : Type} {o : Option α} {k : α → Option β} {i : β} :
    (o >>= k) = some i ↔ ∃ x, o = some x ∧ k x = some i := Option.bind_eq_some_iff

theorem opc_eq {x : BitVec 10} {c n : Nat} (hc : x.toNat / 64 = c) (hn : x.toNat % 64 = n) : x = BitVec.ofNat 10 (64 * c + n) :=
  BitVec.eq_of_toNat_eq (by simp; omega)

/-- A displacement stands in B and C (R170). -/
theorem encDisp_append {opc : Nat} {g : Guard} {d : BitVec 8} {a : BitVec 9} {asel : BitVec 3} (b c : BitVec 9) :
    encDisp opc g d a asel (b ++ c) = some (fw opc 0 g d a asel b 0 c 0) := by
  rw [encDisp, extract_app b c 9 9 le_rfl, extract_all, extract_app_lo]

/-- The fields are those of a well-formed instruction. -/
def FWord.IsOf (f : FWord) (i : Instr) : Prop := encodeF i = some f ∧ i.wf = true
end

/-! ### The shapes of full-form words -/

section
variable {f : FWord} {i : Instr} {opc : Nat} (op : f.opc = BitVec.ofNat 10 opc)
include op

theorem shape3_isOf {mk : Hdr → WReg → Src → Src → Src → Instr} (h : shape3 f mk = some i)
    (word : ∀ h d a b c, encodeF (mk h d a b c) = enc3 opc h d a b c ∧ (mk h d a b c).wf = true) : f.IsOf i := by
  obtain ⟨_, la, gn, gp, d, a, b, c, asel, bsel, csel⟩ := f
  cases op
  simp only [shape3, bind_eq_some, FWord.hdr_eq_some, FWord.srcA, FWord.srcB, FWord.srcC, decSrc_eq_some] at h
  obtain ⟨hd, ⟨rfl, rfl, rfl⟩, a, ⟨rfl, rfl⟩, b, ⟨rfl, rfl⟩, c, ⟨rfl, rfl⟩, h⟩ := h
  cases h
  exact word hd d a b c

theorem shape2_isOf {mk : Hdr → WReg → Src → Src → Instr} (h : shape2 f mk = some i)
    (word : ∀ h d a b, encodeF (mk h d a b) = enc2 opc h d a b ∧ (mk h d a b).wf = true) : f.IsOf i := by
  obtain ⟨_, la, gn, gp, d, a, b, c, asel, bsel, csel⟩ := f
  cases op
  simp only [shape2, bind_eq_some, FWord.hdr_eq_some, FWord.srcA, FWord.srcB, decSrc_eq_some, need_eq_some, FWord.noC_iff] at h
  obtain ⟨hd, ⟨rfl, rfl, rfl⟩, a, ⟨rfl, rfl⟩, b, ⟨rfl, rfl⟩, _, ⟨rfl, rfl⟩, h⟩ := h
  cases h
  exact word hd d a b

theorem shape1_isOf {mk : Hdr → WReg → Src → Instr} (h : shape1 f mk = some i)
    (word : ∀ h d a, encodeF (mk h d a) = enc1 opc h d a ∧ (mk h d a).wf = true) : f.IsOf i := by
  obtain ⟨_, la, gn, gp, d, a, b, c, asel, bsel, csel⟩ := f
  cases op
  simp only [shape1, bind_eq_some, FWord.hdr_eq_some, FWord.srcA, decSrc_eq_some, need_eq_some, FWord.noB_iff, FWord.noC_iff] at h
  obtain ⟨hd, ⟨rfl, rfl, rfl⟩, a, ⟨rfl, rfl⟩, _, ⟨rfl, rfl⟩, _, ⟨rfl, rfl⟩, h⟩ := h
  cases h
  exact word hd d a

theorem shape2m_isOf {M : Type} {m : Option M} {enc : M → BitVec 9} {mk : Hdr → M → WReg → Src → Src → Instr}
    (h : shape2m f m mk = some i) (mod : ∀ x, m = some x → f.c = enc x ∧ f.csel = 0#3)
    (word : ∀ h x d a b, encodeF (mk h x d a b) = enc2 opc h d a b (enc x) ∧ (mk h x d a b).wf = true) : f.IsOf i := by
  obtain ⟨_, la, gn, gp, d, a, b, c, asel, bsel, csel⟩ := f
  cases op
  simp only [shape2m, bind_eq_some, FWord.hdr_eq_some, FWord.srcA, FWord.srcB, decSrc_eq_some] at h
  obtain ⟨hd, ⟨rfl, rfl, rfl⟩, a, ⟨rfl, rfl⟩, b, ⟨rfl, rfl⟩, x, found, h⟩ := h
  obtain ⟨rfl, rfl⟩ := mod x found
  cases h
  exact word hd x d a b

theorem shapeP2_isOf {mk : Hdr → PReg → POp → POp → Instr} (h : shapeP2 f mk = some i)
    (word : ∀ h p a b, encodeF (mk h p a b) = encP2 opc h p a.bits b.bits ∧ (mk h p a b).wf = true) : f.IsOf i := by
  obtain ⟨_, la, gn, gp, d, a, b, c, asel, bsel, csel⟩ := f
  cases op
  simp only [shapeP2, bind_eq_some, FWord.hdr_eq_some, decPReg_eq_some, decPOp_eq_some, need_eq_some, FWord.noC_iff] at h
  obtain ⟨hd, ⟨rfl, rfl, rfl⟩, p, rfl, a, ⟨rfl, rfl⟩, b, ⟨rfl, rfl⟩, _, ⟨rfl, rfl⟩, h⟩ := h
  cases h
  exact word hd p a b

theorem shape64_isOf {mk : Hdr → WPair → Src64 → Src64 → Instr} (h : shape64 f mk = some i)
    (word : ∀ h d a b, encodeF (mk h d a b) = enc64 opc h (encPairD d) a b ∧ (mk h d a b).wf = true) : f.IsOf i := by
  obtain ⟨_, la, gn, gp, d, a, b, c, asel, bsel, csel⟩ := f
  cases op
  simp only [shape64, bind_eq_some, FWord.hdr_eq_some, decPairD_eq_some, FWord.srcA64, FWord.srcB64, decSrc64_eq_some, need_eq_some,
    FWord.noC_iff] at h
  obtain ⟨hd, ⟨rfl, rfl, rfl⟩, d, rfl, a, ⟨rfl, rfl⟩, b, ⟨rfl, rfl⟩, _, ⟨rfl, rfl⟩, h⟩ := h
  cases h
  exact word hd d a b

theorem shapeS2_isOf {mk : Hdr → SReg → USrc64 → USrc64 → Instr} (h : shapeS2 f mk = some i)
    (word : ∀ h d a b, encodeF (mk h d a b) = encS2 opc h (encSReg d) a b ∧ (mk h d a b).wf = (a.wf && b.wf)) : f.IsOf i := by
  obtain ⟨_, la, gn, gp, d, a, b, c, asel, bsel, csel⟩ := f
  cases op
  simp only [shapeS2, bind_eq_some, FWord.hdr_eq_some, decSReg_eq_some, FWord.uA64, FWord.uB64, decUSrc64_eq_some, need_eq_some,
    FWord.noC_iff] at h
  obtain ⟨hd, ⟨rfl, rfl, rfl⟩, d, rfl, a, ⟨rfl, rfl, ha⟩, b, ⟨rfl, rfl, hb⟩, _, ⟨rfl, rfl⟩, h⟩ := h
  cases h
  exact ⟨(word hd d a b).1, (word hd d a b).2.trans (by rw [ha, hb]; rfl)⟩

theorem shapeG_isOf {mk : Guard → Instr} (h : shapeG f mk = some i)
    (word : ∀ g, encodeF (mk g) = encG opc g ∧ (mk g).wf = true) : f.IsOf i := by
  obtain ⟨_, la, gn, gp, d, a, b, c, asel, bsel, csel⟩ := f
  cases op
  simp only [shapeG, bind_eq_some, FWord.oguard_eq_some, need_eq_some, FWord.noA_iff, FWord.noB_iff, FWord.noC_iff, FWord.noD_iff] at h
  obtain ⟨g, ⟨rfl, rfl, rfl⟩, _, rfl, _, ⟨rfl, rfl⟩, _, ⟨rfl, rfl⟩, _, ⟨rfl, rfl⟩, h⟩ := h
  cases h
  exact word g

theorem shapeBuf_isOf {mk : Hdr → BufW → WReg → Fin 16 → Src → BitVec 7 → Instr} (h : shapeBuf f mk = some i)
    (word : ∀ h w d k b off, encodeF (mk h w d k b off) = some (fw opc h.la h.guard d (encRaw k.val) 0 b.op.bits b.sel.bits
      (BitVec.ofNat 9 (128 * w.code + off.toNat)) 0) ∧ (mk h w d k b off).wf = dataRegOk w.bytes d) : f.IsOf i := by
  obtain ⟨_, la, gn, gp, d, a, b, c, asel, bsel, csel⟩ := f
  cases op
  simp only [shapeBuf, bind_eq_some, FWord.hdr_eq_some, FWord.srcB, decSrc_eq_some] at h
  obtain ⟨hd, ⟨rfl, rfl, rfl⟩, k, raw, b, ⟨rfl, rfl⟩, h⟩ := h
  obtain ⟨rfl, rfl⟩ := raw_of_decRaw raw
  split_ifs at h with zero
  case neg => cases h
  subst zero
  simp only [bind_eq_some, need_eq_some] at h
  obtain ⟨w, width, _, ok, h⟩ := h
  cases h
  have mod : c = BitVec.ofNat 9 (128 * w.code + (BitVec.ofNat 7 (c.toNat % 128)).toNat) :=
    BitVec.eq_of_toNat_eq (by rw [← decBufW_eq_some width]; simp; omega)
  obtain ⟨enc, wf⟩ := word hd w d k b (BitVec.ofNat 7 (c.toNat % 128))
  rw [← mod] at enc
  exact ⟨enc, wf.trans ok⟩

theorem shapeTile_isOf {mk : Hdr → Bool → WQuad → Fin 4 → Src → Instr} (h : shapeTile f mk = some i)
    (word : ∀ h x d t b, encodeF (mk h x d t b) = some (fw opc h.la h.guard (encQuadD d) (encRaw t.val) 0 b.op.bits b.sel.bits
      (if x then 256#9 else 0#9) 0) ∧ (mk h x d t b).wf = true) : f.IsOf i := by
  obtain ⟨_, la, gn, gp, d, a, b, c, asel, bsel, csel⟩ := f
  cases op
  simp only [shapeTile, bind_eq_some, FWord.hdr_eq_some, decQuadD_eq_some, FWord.srcB, decSrc_eq_some, need_eq_some, Bool.and_eq_true,
    beq_iff_eq] at h
  obtain ⟨hd, ⟨rfl, rfl, rfl⟩, d, rfl, t, raw, b, ⟨rfl, rfl⟩, _, ⟨rfl, low⟩, h⟩ := h
  obtain ⟨rfl, rfl⟩ := raw_of_decRaw raw
  cases h
  have mod : c = if (256 ≤ c.toNat : Bool) then 256#9 else 0#9 := by revert c; decide
  have := word hd (256 ≤ c.toNat) d t b
  rwa [← mod] at this

theorem shapeRange_isOf {mk : Hdr → Src64 → Src → Instr} (h : shapeRange f mk = some i)
    (word : ∀ h a b, encodeF (mk h a b) = encMem opc h 0 a b 0 ∧ (mk h a b).wf = true) : f.IsOf i := by
  obtain ⟨_, la, gn, gp, d, a, b, c, asel, bsel, csel⟩ := f
  cases op
  simp only [shapeRange, bind_eq_some, FWord.hdr_eq_some, FWord.srcA64, FWord.srcB, decSrc64_eq_some, decSrc_eq_some, need_eq_some,
    FWord.noC_iff, FWord.noD_iff] at h
  obtain ⟨hd, ⟨rfl, rfl, rfl⟩, _, rfl, a, ⟨rfl, rfl⟩, b, ⟨rfl, rfl⟩, _, ⟨rfl, rfl⟩, h⟩ := h
  cases h
  exact word hd a b

theorem shapeK_isOf {n : Nat} {mk : Hdr → Fin n → Instr} (h : shapeK f mk = some i)
    (word : ∀ h k, encodeF (mk h k) = some (fw opc h.la h.guard 0 (encRaw k.val)) ∧ (mk h k).wf = true) : f.IsOf i := by
  obtain ⟨_, la, gn, gp, d, a, b, c, asel, bsel, csel⟩ := f
  cases op
  simp only [shapeK, bind_eq_some, FWord.hdr_eq_some, need_eq_some, FWord.noB_iff, FWord.noC_iff, FWord.noD_iff] at h
  obtain ⟨hd, ⟨rfl, rfl, rfl⟩, _, rfl, k, raw, _, ⟨rfl, rfl⟩, _, ⟨rfl, rfl⟩, h⟩ := h
  obtain ⟨rfl, rfl⟩ := raw_of_decRaw raw
  cases h
  exact word hd k

theorem shapeU1_isOf {mk : Hdr → USrc → Instr} (h : shapeU1 f mk = some i)
    (word : ∀ h a, encodeF (mk h a) = encU1 opc h a ∧ (mk h a).wf = a.wf) : f.IsOf i := by
  obtain ⟨_, la, gn, gp, d, a, b, c, asel, bsel, csel⟩ := f
  cases op
  simp only [shapeU1, bind_eq_some, FWord.hdr_eq_some, FWord.uA, decUSrc_eq_some, need_eq_some, FWord.noB_iff, FWord.noC_iff,
    FWord.noD_iff] at h
  obtain ⟨hd, ⟨rfl, rfl, rfl⟩, _, rfl, a, ⟨rfl, rfl, ha⟩, _, ⟨rfl, rfl⟩, _, ⟨rfl, rfl⟩, h⟩ := h
  cases h
  exact ⟨(word hd a).1, (word hd a).2.trans ha⟩

theorem shapeCall_isOf {mk : Guard → WReg → Src64 → Src → Instr} (h : shapeCall f mk = some i)
    (word : ∀ g d a b, encodeF (mk g d a b) = encCall opc g d a b ∧ (mk g d a b).wf = true) : f.IsOf i := by
  obtain ⟨_, la, gn, gp, d, a, b, c, asel, bsel, csel⟩ := f
  cases op
  simp only [shapeCall, bind_eq_some, FWord.oguard_eq_some, FWord.srcA64, FWord.srcB, decSrc64_eq_some, decSrc_eq_some, need_eq_some,
    FWord.noC_iff] at h
  obtain ⟨g, ⟨rfl, rfl, rfl⟩, a, ⟨rfl, rfl⟩, b, ⟨rfl, rfl⟩, _, ⟨rfl, rfl⟩, h⟩ := h
  cases h
  exact word g d a b

theorem shapeCount_isOf {mk : Guard → Operand → Instr} (h : shapeCount f mk = some i)
    (word : ∀ g a, encodeF (mk g a) = encRegs opc g a.src ∧ (mk g a).wf = true) : f.IsOf i := by
  obtain ⟨_, la, gn, gp, d, a, b, c, asel, bsel, csel⟩ := f
  cases op
  simp only [shapeCount, bind_eq_some, FWord.oguard_eq_some, decOperand_eq_some, need_eq_some, beq_iff_eq, FWord.noB_iff, FWord.noC_iff,
    FWord.noD_iff] at h
  obtain ⟨g, ⟨rfl, rfl, rfl⟩, _, rfl, _, rfl, a, rfl, _, ⟨rfl, rfl⟩, _, ⟨rfl, rfl⟩, h⟩ := h
  cases h
  exact word g a

theorem shapeRegs_isOf {mk : Guard → Src → Instr} (h : shapeRegs f mk = some i)
    (word : ∀ g a, encodeF (mk g a) = encRegs opc g a ∧ (mk g a).wf = true) : f.IsOf i := by
  obtain ⟨_, la, gn, gp, d, a, b, c, asel, bsel, csel⟩ := f
  cases op
  simp only [shapeRegs, bind_eq_some, FWord.oguard_eq_some, FWord.srcA, decSrc_eq_some, need_eq_some, FWord.noB_iff, FWord.noC_iff,
    FWord.noD_iff] at h
  obtain ⟨g, ⟨rfl, rfl, rfl⟩, _, rfl, a, ⟨rfl, rfl⟩, _, ⟨rfl, rfl⟩, _, ⟨rfl, rfl⟩, h⟩ := h
  cases h
  exact word g a

/-- The fields of an access by a 64-bit base (R258). -/
theorem shapeLd_isOf {ok : Bool} {mk : Hdr → Bool → Bool → WReg → Src64 → Src → BitVec 7 → Option Instr} (h : shapeLd f ok mk = some i)
    (word : ∀ h rlx x d a b off, ok = true → f.d = d → mk h rlx x d a b off = some i →
      encodeF i = encMem opc h d a b (encAccess rlx x off) ∧ i.wf = true) : f.IsOf i := by
  obtain ⟨_, la, gn, gp, d, a, b, c, asel, bsel, csel⟩ := f
  cases op
  simp only [shapeLd, bind_eq_some, FWord.hdr_eq_some, FWord.srcA64, FWord.srcB, decSrc64_eq_some, decSrc_eq_some, need_eq_some] at h
  obtain ⟨hd, ⟨rfl, rfl, rfl⟩, a, ⟨rfl, rfl⟩, b, ⟨rfl, rfl⟩, m, mod, _, ok, h⟩ := h
  obtain ⟨rfl, rfl⟩ := decAccess_eq_some mod
  exact word hd m.1 m.2.1 d a b m.2.2 ok rfl h

/-- The fields of an access by a 32-bit base (R258). -/
theorem shapeLdsp_isOf {ok : Bool} {mk : Hdr → Bool → Bool → WReg → Src → Src → BitVec 7 → Option Instr} (h : shapeLdsp f ok mk = some i)
    (word : ∀ h rlx x d a b off, ok = true → f.d = d → mk h rlx x d a b off = some i →
      encodeF i = enc2 opc h d a b (encAccess rlx x off) ∧ i.wf = true) : f.IsOf i := by
  obtain ⟨_, la, gn, gp, d, a, b, c, asel, bsel, csel⟩ := f
  cases op
  simp only [shapeLdsp, bind_eq_some, FWord.hdr_eq_some, FWord.srcA, FWord.srcB, decSrc_eq_some, need_eq_some] at h
  obtain ⟨hd, ⟨rfl, rfl, rfl⟩, a, ⟨rfl, rfl⟩, b, ⟨rfl, rfl⟩, m, mod, _, ok, h⟩ := h
  obtain ⟨rfl, rfl⟩ := decAccess_eq_some mod
  exact word hd m.1 m.2.1 d a b m.2.2 ok rfl h

end
end Sys2Proof
end

section
/-! Full-form words of classes 0x0 to 0x6 are those of their instructions (R104). -/
namespace Sys2Proof
-- One declaration at a time: each more thread of the compiler takes a stack out of the same memory.
set_option Elab.async false

section
variable {f : FWord} {i : Instr}

theorem decClass0_isOf (cls : f.opc.toNat / 64 = 0x0) (h : decClass0 f = some (some i)) : f.IsOf i := by
  unfold decClass0 at h
  split at h
  case h_19 => cases h
  all_goals have op := opc_eq cls ‹_›; replace h := Option.some.inj h
  · exact shape2m_isOf op h (fun _ => decSat_eq_some) fun _ _ _ _ _ => ⟨rfl, rfl⟩
  · exact shape2m_isOf op h (fun _ => decSat_eq_some) fun _ _ _ _ _ => ⟨rfl, rfl⟩
  · exact shape2_isOf op h fun _ _ _ _ => ⟨rfl, rfl⟩
  · exact shape2m_isOf op h (fun _ => decTy_eq_some) fun _ _ _ _ _ => ⟨rfl, rfl⟩
  · exact shape3_isOf op h fun _ _ _ _ _ => ⟨rfl, rfl⟩
  · exact shape2m_isOf op h (fun _ => decTy_eq_some) fun _ _ _ _ _ => ⟨rfl, rfl⟩
  · exact shape2m_isOf op h (fun _ => decTy_eq_some) fun _ _ _ _ _ => ⟨rfl, rfl⟩
  · exact shape2m_isOf op h (fun _ => decTy_eq_some) fun _ _ _ _ _ => ⟨rfl, rfl⟩
  · exact shape2m_isOf op h (fun _ => decTy_eq_some) fun _ _ _ _ _ => ⟨rfl, rfl⟩
  · obtain ⟨_, la, gn, gp, d, a, b, c, asel, bsel, csel⟩ := f
    cases op
    simp only [bind_eq_some, FWord.hdr_eq_some, FWord.srcA, decSrc_eq_some, need_eq_some, FWord.noB_iff] at h
    obtain ⟨hd, ⟨rfl, rfl, rfl⟩, a, ⟨rfl, rfl⟩, _, ⟨rfl, rfl⟩, h⟩ := h
    split at h
    case h_2 => cases h
    obtain ⟨rfl, rfl⟩ := decOptFmt_eq_some ‹_›
    cases h
    exact ⟨rfl, rfl⟩
  · exact shape1_isOf op h fun _ _ _ => ⟨rfl, rfl⟩
  · cases h
  · obtain ⟨_, la, gn, gp, d, a, b, c, asel, bsel, csel⟩ := f
    cases op
    simp only [bind_eq_some, FWord.hdr_eq_some, FWord.srcA, FWord.srcB, decSrc_eq_some, decPOp_eq_some] at h
    obtain ⟨hd, ⟨rfl, rfl, rfl⟩, a, ⟨rfl, rfl⟩, b, ⟨rfl, rfl⟩, q, ⟨rfl, rfl⟩, h⟩ := h
    cases h
    exact ⟨rfl, rfl⟩
  · obtain ⟨_, la, gn, gp, d, a, b, c, asel, bsel, csel⟩ := f
    cases op
    simp only [bind_eq_some, FWord.hdr_eq_some, decPReg_eq_some] at h
    obtain ⟨hd, ⟨rfl, rfl, rfl⟩, p, rfl, ⟨wide, n⟩, mod, k, cond, h⟩ := h
    obtain ⟨rfl, rfl⟩ := decOptFmt_eq_some mod
    obtain rfl := decCond_eq_some cond
    cases wide
    · simp only [Bool.false_eq_true, if_false, bind_eq_some, FWord.srcA, FWord.srcB, decSrc_eq_some] at h
      obtain ⟨a, ⟨rfl, rfl⟩, b, ⟨rfl, rfl⟩, h⟩ := h
      cases h
      exact ⟨rfl, rfl⟩
    · simp only [if_true, bind_eq_some, FWord.srcA64, FWord.srcB64, decSrc64_eq_some] at h
      obtain ⟨a, ⟨rfl, rfl⟩, b, ⟨rfl, rfl⟩, h⟩ := h
      cases h
      exact ⟨rfl, rfl⟩
  · exact shapeP2_isOf op h fun _ _ _ _ => ⟨rfl, rfl⟩
  · exact shapeP2_isOf op h fun _ _ _ _ => ⟨rfl, rfl⟩
  · exact shapeP2_isOf op h fun _ _ _ _ => ⟨rfl, rfl⟩
  · obtain ⟨_, la, gn, gp, d, a, b, c, asel, bsel, csel⟩ := f
    cases op
    simp only [bind_eq_some, FWord.hdr_eq_some, decPReg_eq_some, decPOp_eq_some, need_eq_some, FWord.noB_iff, FWord.noC_iff] at h
    obtain ⟨hd, ⟨rfl, rfl, rfl⟩, p, rfl, a, ⟨rfl, rfl⟩, _, ⟨rfl, rfl⟩, _, ⟨rfl, rfl⟩, h⟩ := h
    cases h
    exact ⟨rfl, rfl⟩

theorem decClass1_isOf (cls : f.opc.toNat / 64 = 0x1) (h : decClass1 f = some (some i)) : f.IsOf i := by
  unfold decClass1 at h
  split at h
  case h_30 => cases h
  all_goals have op := opc_eq cls ‹_›; replace h := Option.some.inj h
  case h_9 | h_10 | h_11 | h_12 => exact shape1_isOf op h fun _ _ _ => ⟨rfl, rfl⟩
  case h_1 | h_2 | h_3 | h_4 | h_5 | h_6 | h_7 | h_8 => exact shape2_isOf op h fun _ _ _ _ => ⟨rfl, rfl⟩
  case h_16 | h_17 | h_18 => exact shape2m_isOf op h (fun _ => decSat_eq_some) fun _ _ _ _ _ => ⟨rfl, rfl⟩
  case h_19 | h_20 => exact shape2m_isOf op h (fun _ => decTy_eq_some) fun _ _ _ _ _ => ⟨rfl, rfl⟩
  all_goals exact shape3_isOf op h fun _ _ _ _ _ => ⟨rfl, rfl⟩

theorem decClass2_isOf (cls : f.opc.toNat / 64 = 0x2) (h : decClass2 f = some (some i)) : f.IsOf i := by
  unfold decClass2 at h
  split at h
  case h_15 => cases h
  all_goals have op := opc_eq cls ‹_›; replace h := Option.some.inj h
  case h_1 | h_2 => exact shape64_isOf op h fun _ _ _ _ => ⟨rfl, rfl⟩
  case h_4 | h_5 | h_6 | h_7 | h_8 | h_9 | h_10 => exact shapeS2_isOf op h fun _ _ _ _ => ⟨rfl, rfl⟩
  · obtain ⟨_, la, gn, gp, d, a, b, c, asel, bsel, csel⟩ := f
    cases op
    simp only [bind_eq_some, FWord.hdr_eq_some, decPairD_eq_some, FWord.srcA64, FWord.srcB, FWord.srcC, decSrc64_eq_some,
      decSrc_eq_some] at h
    obtain ⟨hd, ⟨rfl, rfl, rfl⟩, d, rfl, a, ⟨rfl, rfl⟩, b, ⟨rfl, rfl⟩, c, ⟨rfl, rfl⟩, h⟩ := h
    cases h
    exact ⟨rfl, rfl⟩
  · obtain ⟨_, la, gn, gp, d, a, b, c, asel, bsel, csel⟩ := f
    cases op
    simp only [bind_eq_some, FWord.hdr_eq_some, decSReg_eq_some, FWord.uA64, FWord.uB64, decUSrc64_eq_some] at h
    obtain ⟨hd, ⟨rfl, rfl, rfl⟩, d, rfl, a, ⟨rfl, rfl, ha⟩, b, ⟨rfl, rfl, hb⟩, h⟩ := h
    split at h
    case h_3 => cases h
    all_goals
      obtain ⟨rfl, rfl⟩ := decOptFmt_eq_some ‹_›
      cases h
      exact ⟨rfl, by rw [Instr.wf, ha, hb]; rfl⟩
  · obtain ⟨_, la, gn, gp, d, a, b, c, asel, bsel, csel⟩ := f
    cases op
    simp only [bind_eq_some, FWord.hdr_eq_some, decSReg_eq_some, FWord.uA64, decUSrc64_eq_some, need_eq_some, FWord.noB_iff,
      FWord.noC_iff] at h
    obtain ⟨hd, ⟨rfl, rfl, rfl⟩, d, rfl, a, ⟨rfl, rfl, ha⟩, _, ⟨rfl, rfl⟩, _, ⟨rfl, rfl⟩, h⟩ := h
    cases h
    exact ⟨rfl, ha⟩
  · cases h
  · obtain ⟨_, la, gn, gp, d, a, b, c, asel, bsel, csel⟩ := f
    cases op
    simp only [bind_eq_some, FWord.hdr_eq_some, decPReg_eq_some, FWord.uA64, FWord.uB64, decUSrc64_eq_some] at h
    obtain ⟨hd, ⟨rfl, rfl, rfl⟩, p, rfl, a, ⟨rfl, rfl, ha⟩, b, ⟨rfl, rfl, hb⟩, h⟩ := h
    split at h
    case h_2 => cases h
    obtain ⟨rfl, rfl⟩ := decOptFmt_eq_some ‹_›
    obtain ⟨k, cond, rfl⟩ := Option.map_eq_some_iff.1 h
    obtain rfl := decCond_eq_some cond
    exact ⟨rfl, by rw [Instr.wf, ha, hb]; rfl⟩

theorem decClass3_isOf (cls : f.opc.toNat / 64 = 0x3) (h : decClass3 f = some (some i)) : f.IsOf i := by
  unfold decClass3 at h
  split at h
  case h_14 => cases h
  all_goals have op := opc_eq cls ‹_›; replace h := Option.some.inj h
  case h_1 | h_2 | h_3 => exact shape2m_isOf op h (fun _ => decRm_eq_some) fun _ _ _ _ _ => ⟨rfl, rfl⟩
  case h_4 | h_5 | h_6 | h_7 => exact shape3_isOf op h fun _ _ _ _ _ => ⟨rfl, rfl⟩
  case h_8 | h_9 => exact shape2_isOf op h fun _ _ _ _ => ⟨rfl, rfl⟩
  · exact shape1_isOf op h fun _ _ _ => ⟨rfl, rfl⟩
  · obtain ⟨_, la, gn, gp, d, a, b, c, asel, bsel, csel⟩ := f
    cases op
    simp only [bind_eq_some, FWord.hdr_eq_some, decPReg_eq_some, FWord.srcA, FWord.srcB, decSrc_eq_some] at h
    obtain ⟨hd, ⟨rfl, rfl, rfl⟩, p, rfl, a, ⟨rfl, rfl⟩, b, ⟨rfl, rfl⟩, h⟩ := h
    split at h
    case h_2 => cases h
    obtain ⟨rfl, rfl⟩ := decOptFmt_eq_some ‹_›
    obtain ⟨k, cond, rfl⟩ := Option.map_eq_some_iff.1 h
    obtain rfl := decFCond_eq_some cond
    exact ⟨rfl, rfl⟩
  · obtain ⟨_, la, gn, gp, d, a, b, c, asel, bsel, csel⟩ := f
    cases op
    simp only [bind_eq_some, FWord.hdr_eq_some, decPReg_eq_some, FWord.srcA, FWord.srcB, decSrc_eq_some, need_eq_some,
      FWord.noC_iff] at h
    obtain ⟨hd, ⟨rfl, rfl, rfl⟩, p, rfl, a, ⟨rfl, rfl⟩, b, ⟨rfl, rfl⟩, _, ⟨rfl, rfl⟩, h⟩ := h
    cases h
    exact ⟨rfl, rfl⟩
  · obtain ⟨_, la, gn, gp, d, a, b, c, asel, bsel, csel⟩ := f
    cases op
    simp only [bind_eq_some, FWord.hdr_eq_some, FWord.srcA, decSrc_eq_some, need_eq_some, FWord.noB_iff] at h
    obtain ⟨hd, ⟨rfl, rfl, rfl⟩, a, ⟨rfl, rfl⟩, _, ⟨rfl, rfl⟩, m, mod, h⟩ := h
    obtain ⟨rfl, rfl⟩ := decRm_eq_some mod
    cases h
    exact ⟨rfl, rfl⟩

theorem decClass4_isOf (cls : f.opc.toNat / 64 = 0x4) (h : decClass4 f = some (some i)) : f.IsOf i := by
  unfold decClass4 at h
  split at h
  case h_7 => cases h
  all_goals have op := opc_eq cls ‹_›; replace h := Option.some.inj h
  case h_5 | h_6 => exact shape3_isOf op h fun _ _ _ _ _ => ⟨rfl, rfl⟩
  all_goals exact shape2_isOf op h fun _ _ _ _ => ⟨rfl, rfl⟩

/-- A conversion's source format and rounding stand in its modifier, its target in the opcode (R161). -/
theorem decCvt_isOf {t : Fmt} (op : f.opc = BitVec.ofNat 10 (0x140 + t.code)) (h : decCvt f t = some i) : f.IsOf i := by
  obtain ⟨_, la, gn, gp, d, a, b, c, asel, bsel, csel⟩ := f
  cases op
  simp only [decCvt, bind_eq_some, FWord.hdr_eq_some, FWord.srcA, decSrc_eq_some, need_eq_some, Bool.and_eq_true, beq_iff_eq] at h
  obtain ⟨hd, ⟨rfl, rfl, rfl⟩, a, ⟨rfl, rfl⟩, _, ⟨rfl, sc⟩, s, fmt, _, allowed, h⟩ := h
  have mod : c = Modifier.bits ⟨(Modifier.ofBits c).opt, s.code, 0, (decRmN (Modifier.ofBits c).rm).code⟩ := by
    rw [code_decRmN (by simp only [Modifier.ofBits]; omega), ← decFmt_eq_some fmt, ← sc]
    exact (modifier_bits c).symm
  split_ifs at h with wide <;>
    simp only [bind_eq_some, need_eq_some, FWord.noB_iff, FWord.srcB, decSrc_eq_some] at h
  · obtain ⟨_, ⟨rfl, rfl⟩, h⟩ := h
    cases h
    exact ⟨congrArg (fun c => enc1 _ hd d a c) mod.symm, by simp [Instr.wf, allowed, wide]⟩
  · obtain ⟨b, ⟨rfl, rfl⟩, h⟩ := h
    cases h
    exact ⟨congrArg (fun c => enc2 _ hd d a b c) mod.symm, by simp [Instr.wf, allowed, wide]⟩

theorem decClass5_isOf (cls : f.opc.toNat / 64 = 0x5) (h : decClass5 f = some (some i)) : f.IsOf i := by
  unfold decClass5 at h
  split at h
  case h_13 => cases h
  all_goals have op := opc_eq cls ‹_›; replace h := Option.some.inj h
  case h_11 =>
    obtain ⟨_, la, gn, gp, d, a, b, c, asel, bsel, csel⟩ := f
    cases op
    simp only [bind_eq_some, FWord.hdr_eq_some, decPairD_eq_some, FWord.srcA, decSrc_eq_some, need_eq_some, FWord.noB_iff] at h
    obtain ⟨hd, ⟨rfl, rfl, rfl⟩, d, rfl, a, ⟨rfl, rfl⟩, _, ⟨rfl, rfl⟩, k, kind, h⟩ := h
    obtain ⟨rfl, rfl⟩ := decUnpk_eq_some kind
    cases h
    exact ⟨rfl, rfl⟩
  case h_12 =>
    obtain ⟨_, la, gn, gp, d, a, b, c, asel, bsel, csel⟩ := f
    cases op
    simp only [bind_eq_some, FWord.hdr_eq_some, FWord.srcA, decSrc_eq_some, need_eq_some, FWord.noB_iff] at h
    obtain ⟨hd, ⟨rfl, rfl, rfl⟩, a, ⟨rfl, rfl⟩, _, ⟨rfl, rfl⟩, h⟩ := h
    split at h
    case h_2 => cases h
    obtain ⟨rfl, rfl⟩ := decOptFmt_eq_some ‹_›
    cases h
    exact ⟨rfl, rfl⟩
  case h_1 => exact decCvt_isOf (t := .f32) op h
  case h_2 => exact decCvt_isOf (t := .f16) op h
  case h_3 => exact decCvt_isOf (t := .bf16) op h
  case h_4 => exact decCvt_isOf (t := .e4m3) op h
  case h_5 => exact decCvt_isOf (t := .e5m2) op h
  case h_6 => exact decCvt_isOf (t := .s8) op h
  case h_7 => exact decCvt_isOf (t := .z8) op h
  case h_8 => exact decCvt_isOf (t := .s4) op h
  case h_9 => exact decCvt_isOf (t := .s16) op h
  case h_10 => exact decCvt_isOf (t := .s32) op h

theorem decClass6_isOf (cls : f.opc.toNat / 64 = 0x6) (h : decClass6 f = some (some i)) : f.IsOf i := by
  unfold decClass6 at h
  split at h
  case h_7 => cases h
  all_goals have op := opc_eq cls ‹_›; replace h := Option.some.inj h
  all_goals exact shape1_isOf op h fun _ _ _ => ⟨rfl, rfl⟩

end
end Sys2Proof
end

section
/-! Full-form words of classes 0x7 and 0x8: control and cross-lane words (R104). -/
namespace Sys2Proof
-- One declaration at a time: each more thread of the compiler takes a stack out of the same memory.
set_option Elab.async false

section
variable {f : FWord} {i : Instr}

theorem decClass7_isOf (cls : f.opc.toNat / 64 = 0x7) (h : decClass7 f = some (some i)) : f.IsOf i := by
  unfold decClass7 at h
  split at h
  case h_11 => cases h
  all_goals have op := opc_eq cls ‹_›; replace h := Option.some.inj h
  case h_6 | h_7 | h_8 | h_9 => exact shapeG_isOf op h fun _ => ⟨rfl, rfl⟩
  · obtain ⟨_, la, gn, gp, d, a, b, c, asel, bsel, csel⟩ := f
    cases op
    simp only [bind_eq_some, FWord.oguard_eq_some, need_eq_some, FWord.noA_iff, FWord.noD_iff, FWord.noSelBC_iff] at h
    obtain ⟨g, ⟨rfl, rfl, rfl⟩, _, rfl, _, ⟨rfl, rfl⟩, _, ⟨rfl, rfl⟩, h⟩ := h
    cases h
    exact ⟨encDisp_append b c, rfl⟩
  · obtain ⟨_, la, gn, gp, d, a, b, c, asel, bsel, csel⟩ := f
    cases op
    simp only [bind_eq_some, FWord.oguard_eq_some, FWord.srcA64, decSrc64_eq_some, need_eq_some, FWord.noB_iff, beq_iff_eq] at h
    obtain ⟨g, ⟨rfl, rfl, rfl⟩, a, ⟨rfl, rfl⟩, _, ⟨rfl, rfl⟩, _, rfl, h⟩ := h
    split_ifs at h with plain link
    · subst plain
      simp only [bind_eq_some, need_eq_some, FWord.noD_iff] at h
      obtain ⟨_, rfl, h⟩ := h
      cases h
      exact ⟨rfl, rfl⟩
    · subst link
      simp only [bind_eq_some, decPairD_eq_some] at h
      obtain ⟨d, rfl, h⟩ := h
      cases h
      exact ⟨rfl, rfl⟩
  · obtain ⟨_, la, gn, gp, d, a, b, c, asel, bsel, csel⟩ := f
    cases op
    simp only [bind_eq_some, FWord.oguard_eq_some, decPairD_eq_some, need_eq_some, FWord.noA_iff, FWord.noSelBC_iff] at h
    obtain ⟨g, ⟨rfl, rfl, rfl⟩, d, rfl, _, ⟨rfl, rfl⟩, _, ⟨rfl, rfl⟩, h⟩ := h
    cases h
    exact ⟨encDisp_append b c, rfl⟩
  · obtain ⟨_, la, gn, gp, d, a, b, c, asel, bsel, csel⟩ := f
    cases op
    simp only [bind_eq_some, FWord.oguard_eq_some, FWord.srcA64, decSrc64_eq_some, need_eq_some, FWord.noB_iff, FWord.noC_iff,
      FWord.noD_iff] at h
    obtain ⟨g, ⟨rfl, rfl, rfl⟩, a, ⟨rfl, rfl⟩, _, rfl, _, ⟨rfl, rfl⟩, _, ⟨rfl, rfl⟩, h⟩ := h
    cases h
    exact ⟨rfl, rfl⟩
  · obtain ⟨_, la, gn, gp, d, a, b, c, asel, bsel, csel⟩ := f
    cases op
    simp only [bind_eq_some, FWord.oguard_eq_some, FWord.srcA, decSrc_eq_some, need_eq_some, FWord.noD_iff, FWord.noSelBC_iff] at h
    obtain ⟨g, ⟨rfl, rfl, rfl⟩, a, ⟨rfl, rfl⟩, _, rfl, _, ⟨rfl, rfl⟩, _, near, h⟩ := h
    cases h
    exact ⟨encDisp_append b c, near⟩
  · obtain ⟨_, la, gn, gp, d, a, b, c, asel, bsel, csel⟩ := f
    cases op
    simp only [bind_eq_some, FWord.oguard_eq_some, FWord.srcA64, FWord.srcB, decSrc64_eq_some, decSrc_eq_some, need_eq_some,
      FWord.noC_iff] at h
    obtain ⟨g, ⟨rfl, rfl, rfl⟩, a, ⟨rfl, rfl⟩, b, ⟨rfl, rfl⟩, _, ⟨rfl, rfl⟩, h⟩ := h
    cases h
    exact ⟨rfl, rfl⟩

/-- A cross-lane word takes its form from its modifier (R183 to R189). -/
theorem decClass8_isOf (cls : f.opc.toNat / 64 = 0x8) (h : decClass8 f = some (some i)) : f.IsOf i := by
  unfold decClass8 at h
  split at h
  case h_7 => cases h
  all_goals
    have op := opc_eq cls ‹_›
    replace h := Option.some.inj h
    obtain ⟨_, la, gn, gp, d, a, b, c, asel, bsel, csel⟩ := f
    cases op
    simp only [bind_eq_some, FWord.hdr_eq_some, FWord.srcA, decSrc_eq_some, decPReg_eq_some, decPOp_eq_some, need_eq_some,
      FWord.noB_iff] at h
  · obtain ⟨hd, ⟨rfl, rfl, rfl⟩, a, ⟨rfl, rfl⟩, h⟩ := h
    split at h
    case h_5 => cases h
    all_goals
      obtain ⟨rfl, rfl⟩ := decOptFmt_eq_some ‹_›
      simp only [bind_eq_some, FWord.srcB, FWord.uB, decSrc_eq_some, decUSrc_eq_some, decSReg_eq_some] at h
    · obtain ⟨d, rfl, b, ⟨rfl, rfl, hb⟩, h⟩ := h
      cases h
      exact ⟨rfl, hb⟩
    all_goals
      obtain ⟨b, ⟨rfl, rfl⟩, h⟩ := h
      cases h
      exact ⟨rfl, rfl⟩
  · obtain ⟨hd, ⟨rfl, rfl, rfl⟩, p, rfl, q, ⟨rfl, rfl⟩, h⟩ := h
    split at h
    case h_4 => cases h
    all_goals
      obtain ⟨rfl, rfl⟩ := decOptFmt_eq_some ‹_›
      simp only [bind_eq_some, FWord.uB, decUSrc_eq_some, need_eq_some, FWord.noB_iff] at h
    case h_3 =>
      obtain ⟨_, ⟨rfl, rfl⟩, h⟩ := h
      cases h
      exact ⟨rfl, rfl⟩
    all_goals
      obtain ⟨b, ⟨rfl, rfl, hb⟩, h⟩ := h
      cases h
      exact ⟨rfl, hb⟩
  · obtain ⟨hd, ⟨rfl, rfl, rfl⟩, q, ⟨rfl, rfl⟩, h⟩ := h
    split at h
    case h_6 => cases h
    all_goals
      obtain ⟨rfl, rfl⟩ := decOptFmt_eq_some ‹_›
      simp only [bind_eq_some, FWord.srcB, FWord.uB, decSrc_eq_some, decUSrc_eq_some, decSReg_eq_some] at h
    case h_4 | h_5 =>
      obtain ⟨d, rfl, b, ⟨rfl, rfl, hb⟩, h⟩ := h
      cases h
      exact ⟨rfl, hb⟩
    all_goals
      obtain ⟨b, ⟨rfl, rfl⟩, h⟩ := h
      cases h
      exact ⟨rfl, rfl⟩
  · obtain ⟨hd, ⟨rfl, rfl, rfl⟩, a, ⟨rfl, rfl⟩, _, ⟨rfl, rfl⟩, ⟨uniform, n⟩, mod, o, code, h⟩ := h
    obtain ⟨rfl, rfl⟩ := decOptFmt_eq_some mod
    obtain rfl := decReduxOp_eq_some code
    cases uniform
    · cases h
      exact ⟨rfl, rfl⟩
    · simp only [if_true, bind_eq_some, decSReg_eq_some] at h
      obtain ⟨d, rfl, h⟩ := h
      cases h
      exact ⟨rfl, rfl⟩
  · obtain ⟨hd, ⟨rfl, rfl, rfl⟩, a, ⟨rfl, rfl⟩, _, ⟨rfl, rfl⟩, ⟨x, n⟩, mod, o, code, _, ok, h⟩ := h
    obtain ⟨rfl, rfl⟩ := decOptFmt_eq_some mod
    obtain rfl := decReduxOp_eq_some code
    cases h
    exact ⟨rfl, ok⟩
  · obtain ⟨hd, ⟨rfl, rfl, rfl⟩, _, ⟨rfl, rfl⟩, ⟨wide, n⟩, mod, h⟩ := h
    obtain ⟨rfl, rfl⟩ := decOptFmt_eq_some mod
    dsimp only at h
    split at h
    case h_4 => simp at h
    all_goals
      cases wide
      · simp only [Option.bind_eq_bind, Option.bind_some, Bool.false_eq_true, if_false, Option.bind_eq_some_iff, decSrc_eq_some] at h
        obtain ⟨a, ⟨rfl, rfl⟩, h⟩ := h
        cases h
        exact ⟨rfl, rfl⟩
      · simp only [Option.bind_eq_bind, Option.bind_some, if_true, Option.bind_eq_some_iff, FWord.srcA64, decSrc64_eq_some] at h
        obtain ⟨a, ⟨rfl, rfl⟩, h⟩ := h
        cases h
        exact ⟨rfl, rfl⟩

end
end Sys2Proof
end

section
/-! Full-form words of classes 0x9 to 0xE, and all of them together (R104). -/
namespace Sys2Proof
-- One declaration at a time: each more thread of the compiler takes a stack out of the same memory.
set_option Elab.async false

section
variable {f : FWord} {i : Instr}

theorem decLd_isOf {n : Nat} (op : f.opc = BitVec.ofNat 10 (0x240 + n)) (h : decLd f n = some i) : f.IsOf i := by
  obtain ⟨w, width, fields⟩ := bind_eq_some.1 h
  obtain rfl := decLdW_eq_some width
  refine shapeLd_isOf op fields fun h rlx x d a b off ok hd made => ?_
  obtain ⟨_, plain, made⟩ := bind_eq_some.1 made
  cases x
  · cases hd
    cases made
    exact ⟨rfl, ok⟩
  · cases plain

theorem decSt_isOf {n : Nat} (op : f.opc = BitVec.ofNat 10 (0x248 + n)) (h : decSt f n = some i) : f.IsOf i := by
  obtain ⟨w, width, fields⟩ := bind_eq_some.1 h
  obtain rfl := decStW_eq_some width
  refine shapeLd_isOf op fields fun h rlx x d a b off ok hd made => ?_
  obtain ⟨_, plain, made⟩ := bind_eq_some.1 made
  cases x
  · cases hd
    cases made
    exact ⟨rfl, ok⟩
  · cases plain

theorem decLdsp_isOf {n : Nat} (op : f.opc = BitVec.ofNat 10 (0x250 + n)) (h : decLdsp f n = some i) : f.IsOf i := by
  obtain ⟨w, width, fields⟩ := bind_eq_some.1 h
  obtain rfl := decLdW_eq_some width
  refine shapeLdsp_isOf op fields fun h rlx x d a b off ok hd made => ?_
  obtain ⟨_, plain, made⟩ := bind_eq_some.1 made
  cases x
  · cases hd
    cases made
    exact ⟨rfl, ok⟩
  · cases plain

theorem decStsp_isOf {n : Nat} (op : f.opc = BitVec.ofNat 10 (0x258 + n)) (h : decStsp f n = some i) : f.IsOf i := by
  obtain ⟨w, width, fields⟩ := bind_eq_some.1 h
  obtain rfl := decStW_eq_some width
  refine shapeLdsp_isOf op fields fun h rlx x d a b off ok hd made => ?_
  obtain ⟨_, plain, made⟩ := bind_eq_some.1 made
  cases x
  · cases hd
    cases made
    exact ⟨rfl, ok⟩
  · cases plain

theorem decAtom_isOf {n : Nat} (op : f.opc = BitVec.ofNat 10 (0x280 + n)) (h : decAtom f n = some i) : f.IsOf i := by
  obtain ⟨_, la, gn, gp, d, a, b, c, asel, bsel, csel⟩ := f
  cases op
  simp only [decAtom, bind_eq_some, FWord.hdr_eq_some, FWord.srcA64, decSrc64_eq_some, need_eq_some] at h
  obtain ⟨hd, ⟨rfl, rfl, rfl⟩, o, code, ⟨wide, ord, sc⟩, mod, a, ⟨rfl, rfl⟩, b, value, _, ok, h⟩ := h
  obtain rfl := decAtomOp_eq_some code
  obtain ⟨rfl, rfl⟩ := decAtomMod_eq_some mod
  obtain ⟨rfl, rfl, rfl⟩ := decAtomVal_eq_some value
  cases h
  exact ⟨rfl, ok⟩

theorem decAtoms_isOf {n : Nat} (op : f.opc = BitVec.ofNat 10 (0x290 + n)) (h : decAtoms f n = some i) : f.IsOf i := by
  obtain ⟨_, la, gn, gp, d, a, b, c, asel, bsel, csel⟩ := f
  cases op
  simp only [decAtoms, bind_eq_some, FWord.hdr_eq_some, FWord.srcA, decSrc_eq_some, need_eq_some] at h
  obtain ⟨hd, ⟨rfl, rfl, rfl⟩, o, code, ⟨wide, ord, sc⟩, mod, a, ⟨rfl, rfl⟩, b, value, _, ok, h⟩ := h
  obtain rfl := decAtomOp_eq_some code
  obtain ⟨rfl, rfl⟩ := decAtomMod_eq_some mod
  obtain ⟨rfl, rfl, rfl⟩ := decAtomVal_eq_some value
  cases h
  exact ⟨rfl, ok⟩

/-- The operations of `red` are those of `atom` but `xchg` and `cas` (R269). -/
theorem redWf_of_code {o : AtomOp} {ord : AtomOrd} {b : AtomVal} (code : o.code < 9) (order : redOrdOk ord = true)
    (narrow : (!(b.wide && o == .fadd)) = true) : redWf o ord b = true := by
  have plain : o ≠ .xchg ∧ o ≠ .cas := by constructor <;> rintro rfl <;> exact absurd code (by decide)
  simp_all [redWf]

theorem decRed_isOf {n : Nat} (small : n < 9) (op : f.opc = BitVec.ofNat 10 (0x2A0 + n)) (h : decRed f n = some i) : f.IsOf i := by
  obtain ⟨_, la, gn, gp, d, a, b, c, asel, bsel, csel⟩ := f
  cases op
  simp only [decRed, bind_eq_some, FWord.hdr_eq_some, FWord.srcA64, decSrc64_eq_some, need_eq_some, FWord.noD_iff] at h
  obtain ⟨hd, ⟨rfl, rfl, rfl⟩, o, code, ⟨wide, ord, sc⟩, mod, a, ⟨rfl, rfl⟩, b, value, _, rfl, _, order, _, narrow, h⟩ := h
  obtain rfl := decAtomOp_eq_some code
  obtain ⟨rfl, rfl⟩ := decAtomMod_eq_some mod
  obtain ⟨rfl, rfl, rfl⟩ := decAtomVal_eq_some value
  cases h
  exact ⟨rfl, redWf_of_code small order narrow⟩

theorem decClass9_isOf (cls : f.opc.toNat / 64 = 0x9) (h : decClass9 f = some (some i)) : f.IsOf i := by
  unfold decClass9 at h
  split at h
  case h_32 => cases h
  all_goals have op := opc_eq cls ‹_›; replace h := Option.some.inj h
  case h_1 | h_2 | h_3 | h_4 | h_5 | h_6 | h_7 => exact decLd_isOf op h
  case h_8 | h_9 | h_10 | h_11 | h_12 => exact decSt_isOf op h
  case h_13 | h_14 | h_15 | h_16 | h_17 | h_18 | h_19 => exact decLdsp_isOf op h
  case h_20 | h_21 | h_22 | h_23 | h_24 => exact decStsp_isOf op h
  case h_27 | h_28 => exact shapeBuf_isOf op h fun _ _ _ _ _ _ => ⟨rfl, rfl⟩
  case h_29 | h_30 => exact shapeTile_isOf op h fun _ _ _ _ _ => ⟨rfl, rfl⟩
  case h_31 =>
    refine shapeLd_isOf op h fun h rlx x d a b off _ _ made => ?_
    simp only [bind_eq_some, need_eq_some, beq_iff_eq] at made
    obtain ⟨_, plain, _, rfl, made⟩ := made
    cases rlx
    · cases made
      exact ⟨rfl, rfl⟩
    · cases plain
  all_goals
    refine shapeLdsp_isOf op h fun h rlx x d a b off _ _ made => ?_
    simp only [bind_eq_some, need_eq_some, decQuadD_eq_some] at made
    obtain ⟨_, plain, q, rfl, made⟩ := made
    cases rlx
    · cases made
      exact ⟨rfl, rfl⟩
    · cases plain

theorem decClassA_isOf (cls : f.opc.toNat / 64 = 0xA) (h : decClassA f = some (some i)) : f.IsOf i := by
  unfold decClassA at h
  split at h
  case h_44 => cases h
  all_goals have op := opc_eq cls ‹_›; replace h := Option.some.inj h
  case h_1 | h_2 | h_3 | h_4 | h_5 | h_6 | h_7 | h_8 | h_9 | h_10 | h_11 => exact decAtom_isOf op h
  case h_12 | h_13 | h_14 | h_15 | h_16 | h_17 | h_18 | h_19 | h_20 | h_21 | h_22 => exact decAtoms_isOf op h
  case h_23 | h_24 | h_25 | h_26 | h_27 | h_28 | h_29 | h_30 | h_31 => exact decRed_isOf (by decide) op h
  case h_33 | h_34 | h_35 => exact shapeRange_isOf op h fun _ _ _ => ⟨rfl, rfl⟩
  case h_39 => exact shapeG_isOf op h fun _ => ⟨rfl, rfl⟩
  case h_42 => exact shape2_isOf op h fun _ _ _ _ => ⟨rfl, rfl⟩
  all_goals
    obtain ⟨_, la, gn, gp, d, a, b, c, asel, bsel, csel⟩ := f
    cases op
    simp only [bind_eq_some, FWord.hdr_eq_some, FWord.oguard_eq_some, FWord.srcA, FWord.srcB, decSrc_eq_some, need_eq_some,
      FWord.noA_iff, FWord.noB_iff, FWord.noC_iff, FWord.noD_iff] at h
  case h_32 =>
    simp only [Bool.and_eq_true, beq_iff_eq, decide_eq_true_eq] at h
    obtain ⟨g, ⟨rfl, rfl, rfl⟩, _, rfl, _, ⟨rfl, rfl⟩, _, ⟨rfl, rfl⟩, _, ⟨⟨rfl, small⟩, aligned⟩, k, kind, _, ok, h⟩ := h
    cases h
    have mod : c = BitVec.ofNat 9 (16 * k.code + 4 * (decScope (c.toNat / 4 % 4)).code) := BitVec.eq_of_toNat_eq (by
      rw [← decFenceKind_eq_some kind, code_decScope (by omega)]
      simp
      omega)
    exact ⟨congrArg (fun c => some (fw _ 0 g 0 0 0 0 0 c 0)) mod.symm, ok⟩
  case h_36 | h_37 | h_38 =>
    obtain ⟨g, ⟨rfl, rfl, rfl⟩, _, rfl, k, raw, _, ⟨rfl, rfl⟩, _, ⟨rfl, rfl⟩, h⟩ := h
    obtain ⟨rfl, rfl⟩ := raw_of_decRaw raw
    cases h
    exact ⟨rfl, rfl⟩
  all_goals
    obtain ⟨hd, ⟨rfl, rfl, rfl⟩, _, rfl, a, ⟨rfl, rfl⟩, b, ⟨rfl, rfl⟩, _, ⟨rfl, rfl⟩, h⟩ := h
    cases h
    exact ⟨rfl, rfl⟩

theorem decClassB_isOf (cls : f.opc.toNat / 64 = 0xB) (h : decClassB f = some (some i)) : f.IsOf i := by
  unfold decClassB at h
  split at h
  case h_7 => cases h
  all_goals have op := opc_eq cls ‹_›; replace h := Option.some.inj h
  case h_2 | h_3 | h_4 | h_5 => exact shapeK_isOf op h fun _ _ => ⟨rfl, rfl⟩
  all_goals
    obtain ⟨_, la, gn, gp, d, a, b, c, asel, bsel, csel⟩ := f
    cases op
    simp only [bind_eq_some, FWord.hdr_eq_some, FWord.uA64, FWord.uB, FWord.uC, decUSrc_eq_some, decUSrc64_eq_some] at h
  · obtain ⟨hd, ⟨rfl, rfl, rfl⟩, k, raw, a, ⟨rfl, rfl, ha⟩, b, ⟨rfl, rfl, hb⟩, c, ⟨rfl, rfl, hc⟩, h⟩ := h
    obtain rfl := raw_of_decRawD raw
    cases h
    exact ⟨rfl, by rw [Instr.wf, ha, hb, hc]; rfl⟩
  · obtain ⟨hd, ⟨rfl, rfl, rfl⟩, t, raw, ka, rawA, kb, rawB, c, ⟨rfl, rfl, hc⟩, h⟩ := h
    obtain rfl := raw_of_decRawD raw
    obtain ⟨rfl, rfl⟩ := raw_of_decRaw rawA
    obtain ⟨rfl, rfl⟩ := raw_of_decRaw rawB
    cases h
    exact ⟨rfl, hc⟩

theorem decClassC_isOf (cls : f.opc.toNat / 64 = 0xC) (h : decClassC f = some (some i)) : f.IsOf i := by
  unfold decClassC at h
  split at h
  case h_13 => cases h
  all_goals have op := opc_eq cls ‹_›; replace h := Option.some.inj h
  case h_5 | h_7 => exact shapeU1_isOf op h fun _ _ => ⟨rfl, rfl⟩
  all_goals
    obtain ⟨_, la, gn, gp, d, a, b, c, asel, bsel, csel⟩ := f
    cases op
    simp only [bind_eq_some, FWord.hdr_eq_some, FWord.oguard_eq_some, FWord.srcA64, FWord.srcB64, decSrc64_eq_some, FWord.uA, FWord.uB,
      FWord.uC, decUSrc_eq_some, decSReg_eq_some, decOctD_eq_some, need_eq_some, FWord.noA_iff, FWord.noB_iff, FWord.noC_iff,
      FWord.noD_iff] at h
  case h_1 | h_2 | h_3 =>
    obtain ⟨hd, ⟨rfl, rfl, rfl⟩, _, rfl, a, ⟨rfl, rfl⟩, b, ⟨rfl, rfl⟩, _, ⟨rfl, rfl⟩, h⟩ := h
    cases h
    exact ⟨rfl, rfl⟩
  case h_4 =>
    obtain ⟨hd, ⟨rfl, rfl, rfl⟩, d, rfl, _, ⟨rfl, rfl⟩, _, ⟨rfl, rfl⟩, _, ⟨rfl, rfl⟩, h⟩ := h
    cases h
    exact ⟨rfl, rfl⟩
  case h_6 =>
    obtain ⟨hd, ⟨rfl, rfl, rfl⟩, _, rfl, a, ⟨rfl, rfl, ha⟩, b, ⟨rfl, rfl, hb⟩, c, ⟨rfl, rfl, hc⟩, h⟩ := h
    cases h
    exact ⟨rfl, by rw [Instr.wf, ha, hb, hc]; rfl⟩
  case h_8 =>
    obtain ⟨hd, ⟨rfl, rfl, rfl⟩, n, raw, a, ⟨rfl, rfl, ha⟩, b, ⟨rfl, rfl, hb⟩, _, ⟨rfl, rfl⟩, h⟩ := h
    obtain rfl := raw_of_decRawD raw
    cases h
    exact ⟨rfl, by rw [Instr.wf, ha, hb]; rfl⟩
  case h_9 =>
    obtain ⟨g, ⟨rfl, rfl, rfl⟩, d, rfl, n, raw, _, ⟨rfl, rfl⟩, _, ⟨rfl, rfl⟩, h⟩ := h
    obtain ⟨rfl, rfl⟩ := raw_of_decRaw raw
    cases h
    exact ⟨rfl, rfl⟩
  case h_10 =>
    obtain ⟨hd, ⟨rfl, rfl, rfl⟩, _, rfl, n, raw, b, ⟨rfl, rfl, hb⟩, _, ⟨rfl, rfl⟩, h⟩ := h
    obtain ⟨rfl, rfl⟩ := raw_of_decRaw raw
    cases h
    exact ⟨rfl, hb⟩
  all_goals
    obtain ⟨g, ⟨rfl, rfl, rfl⟩, d, rfl, a, ⟨rfl, rfl⟩, _, ⟨rfl, rfl⟩, _, ⟨rfl, rfl⟩, h⟩ := h
    cases h
    exact ⟨rfl, rfl⟩

theorem decClassD_isOf (cls : f.opc.toNat / 64 = 0xD) (h : decClassD f = some (some i)) : f.IsOf i := by
  unfold decClassD at h
  split at h
  case h_8 => cases h
  all_goals have op := opc_eq cls ‹_›; replace h := Option.some.inj h
  case h_2 => exact shapeU1_isOf op h fun _ _ => ⟨rfl, rfl⟩
  case h_3 | h_4 | h_5 => exact shapeCall_isOf op h fun _ _ _ _ => ⟨rfl, rfl⟩
  case h_6 | h_7 => exact shapeCount_isOf op h fun _ _ => ⟨rfl, rfl⟩
  obtain ⟨_, la, gn, gp, d, a, b, c, asel, bsel, csel⟩ := f
  cases op
  simp only [bind_eq_some, FWord.hdr_eq_some, decSReg_eq_some, FWord.uA, FWord.uB, decUSrc_eq_some, need_eq_some, FWord.noC_iff] at h
  obtain ⟨hd, ⟨rfl, rfl, rfl⟩, d, rfl, a, ⟨rfl, rfl, ha⟩, b, ⟨rfl, rfl, hb⟩, _, ⟨rfl, rfl⟩, h⟩ := h
  cases h
  exact ⟨rfl, by rw [Instr.wf, ha, hb]; rfl⟩

theorem decClassE_isOf (cls : f.opc.toNat / 64 = 0xE) (h : decClassE f = some (some i)) : f.IsOf i := by
  unfold decClassE at h
  split at h
  case h_8 => cases h
  all_goals have op := opc_eq cls ‹_›; replace h := Option.some.inj h
  case h_3 => exact shapeRegs_isOf op h fun _ _ => ⟨rfl, rfl⟩
  case h_4 | h_5 | h_6 | h_7 => exact shapeG_isOf op h fun _ => ⟨rfl, rfl⟩
  all_goals
    obtain ⟨_, la, gn, gp, d, a, b, c, asel, bsel, csel⟩ := f
    cases op
    simp only [bind_eq_some, FWord.oguard_eq_some, need_eq_some, FWord.noA_iff, FWord.noC_iff, FWord.noD_iff, beq_iff_eq] at h
  · obtain ⟨g, ⟨rfl, rfl, rfl⟩, _, ⟨rfl, rfl⟩, _, ⟨rfl, rfl⟩, _, rfl, r, number, _, even, h⟩ := h
    obtain rfl : b = encRaw r.number := BitVec.eq_of_toNat_eq (by simp [encRaw, ← decSpecial_eq_some number])
    cases h
    exact ⟨rfl, even⟩
  · obtain ⟨g, ⟨rfl, rfl, rfl⟩, _, rfl, _, ⟨rfl, rfl⟩, _, rfl, r, number, _, writable, h⟩ := h
    obtain rfl : b = encRaw r.number := BitVec.eq_of_toNat_eq (by simp [encRaw, ← decSpecial_eq_some number])
    split_ifs at h with wide
    · simp only [bind_eq_some, FWord.srcA64, decSrc64_eq_some] at h
      obtain ⟨a, ⟨rfl, rfl⟩, h⟩ := h
      cases h
      exact ⟨rfl, by rw [Instr.wf, writable, wide]; rfl⟩
    · simp only [bind_eq_some, FWord.srcA, decSrc_eq_some] at h
      obtain ⟨a, ⟨rfl, rfl⟩, h⟩ := h
      cases h
      exact ⟨rfl, by rw [Instr.wf, writable, Bool.eq_false_iff.2 wide]; rfl⟩

/-- Every full-form word that decodes is that of its instruction (R82, R104). -/
theorem decodeF_isOf (h : decodeF f = .ok i) : f.IsOf i := by
  unfold decodeF at h
  dsimp only at h
  split at h
  case h_2 => cases h
  case h_1 form found =>
    obtain rfl : form = some i := by
      cases form with
      | none => cases h
      | some j => cases h; rfl
    split at found
    · exact decClass0_isOf ‹_› found
    · exact decClass1_isOf ‹_› found
    · exact decClass2_isOf ‹_› found
    · exact decClass3_isOf ‹_› found
    · exact decClass4_isOf ‹_› found
    · exact decClass5_isOf ‹_› found
    · exact decClass6_isOf ‹_› found
    · exact decClass7_isOf ‹_› found
    · exact decClass8_isOf ‹_› found
    · exact decClass9_isOf ‹_› found
    · exact decClassA_isOf ‹_› found
    · exact decClassB_isOf ‹_› found
    · exact decClassC_isOf ‹_› found
    · exact decClassD_isOf ‹_› found
    · exact decClassE_isOf ‹_› found
    · cases found

end
end Sys2Proof
end

section
/-! Long-immediate, pair and extension words, and the bits of each: decoding loses no bit (R81, R96, R100, R334). -/
namespace Sys2Proof
-- One declaration at a time: each more thread of the compiler takes a stack out of the same memory.
set_option Elab.async false

/-! ### A word is the bits of its fields -/

theorem append_extract {n : Nat} (w : BitVec n) (lo m k : Nat) :
    w.extractLsb' (lo + m) k ++ w.extractLsb' lo m = w.extractLsb' lo (k + m) := by
  ext j hj
  rw [BitVec.getElem_append]
  split_ifs with low
  · simp
  · simp only [BitVec.getElem_extractLsb']
    congr 1
    omega

theorem FWord.bits_ofBits {w : BitVec 64} (form : w.extractLsb' 62 2 = 0b00#2) : (FWord.ofBits w).bits = w := by
  simp only [FWord.bits, FWord.ofBits, ← form]
  rw [append_extract w 52 10, append_extract w 48 4, append_extract w 47 1, append_extract w 44 3, append_extract w 36 8,
    append_extract w 27 9, append_extract w 18 9, append_extract w 9 9, append_extract w 6 3, append_extract w 3 3,
    append_extract w 0 3, extract_all]

theorem LWord.bits_ofBits {w : BitVec 64} (form : w.extractLsb' 62 2 = 0b10#2) : (LWord.ofBits w).bits = w := by
  simp only [LWord.bits, LWord.ofBits, ← form]
  rw [append_extract w 52 10, append_extract w 49 3, append_extract w 41 8, append_extract w 32 9, append_extract w 0 32, extract_all]

theorem PHalfWord.bits_ofBits (w : BitVec 31) : (PHalfWord.ofBits w).bits = w := by
  simp only [PHalfWord.bits, PHalfWord.ofBits]
  rw [append_extract w 22 2, append_extract w 14 8, append_extract w 5 9, append_extract w 0 5, extract_all]

theorem pairBits_ofBits {w : BitVec 64} (form : w.extractLsb' 62 2 = 0b01#2) :
    pairBits (PHalfWord.ofBits (w.extractLsb' 0 31)) (PHalfWord.ofBits (w.extractLsb' 31 31)) = w := by
  rw [pairBits, PHalfWord.bits_ofBits, PHalfWord.bits_ofBits, ← form, append_extract w 31 31, append_extract w 0 31, extract_all]

theorem RWord.bits_ofBits (w : BitVec 32) : (RWord.ofBits w).bits = w := by
  simp only [RWord.bits, RWord.ofBits]
  rw [append_extract w 20 5, append_extract w 15 5, append_extract w 12 3, append_extract w 7 5, append_extract w 0 7, extract_all]

theorem Decoded.ofForm_eq_ok {o : Option Instr} {i : Instr} : Decoded.ofForm o = .ok i ↔ o = some i := by
  cases o <;> simp [Decoded.ofForm]

/-! ### Long-immediate words (R100, R101) -/

/-- The fields are those of a well-formed long-immediate instruction. -/
def LWord.IsOf (f : LWord) (i : Instr) : Prop := encodeF i = none ∧ encodeL i = some f ∧ i.wf = true

section
variable {f : LWord} {i : Instr} {opc : Nat} (op : f.opc.toNat = opc)
include op

/-- Long-immediate fields are those of a word whose parts encode them. -/
theorem lw_eq {g : LGuard} {d : BitVec 8} {a : BitVec 9} {imm : BitVec 32} (gp : decLGuard f.gp = g) (hd : f.d = d) (ha : f.a = a)
    (himm : f.imm = imm) : lw opc g d a imm = some f := by
  subst op gp hd ha himm
  rw [lw, encLGuard_dec]
  simp

theorem longW_isOf {mk : LGuard → WReg → Operand → BitVec 32 → Instr}
    (h : (decOperand f.a).map (fun a => mk (decLGuard f.gp) f.d a f.imm) = some i)
    (word : ∀ g d a imm, encodeF (mk g d a imm) = none ∧ encodeL (mk g d a imm) = lw opc g d a.bits imm ∧ (mk g d a imm).wf = true) :
    f.IsOf i := by
  obtain ⟨a, ha, rfl⟩ := Option.map_eq_some_iff.1 h
  obtain ⟨full, long, wf⟩ := word (decLGuard f.gp) f.d a f.imm
  exact ⟨full, long.trans (lw_eq op rfl rfl (decOperand_eq_some.1 ha) rfl), wf⟩

theorem longPair_isOf {mk : LGuard → WPair → Operand64 → BitVec 32 → Instr}
    (h : (do let d ← decPairD f.d; let a ← decOperand64 f.a; pure (mk (decLGuard f.gp) d a f.imm)) = some i)
    (word : ∀ g d a imm, encodeF (mk g d a imm) = none ∧ encodeL (mk g d a imm) = lw opc g (encPairD d) a.bits imm ∧
      (mk g d a imm).wf = true) : f.IsOf i := by
  obtain ⟨d, hd, h⟩ := bind_eq_some.1 h
  obtain ⟨a, ha, h⟩ := bind_eq_some.1 h
  cases h
  obtain ⟨full, long, wf⟩ := word (decLGuard f.gp) d a f.imm
  exact ⟨full, long.trans (lw_eq op rfl (decPairD_eq_some.1 hd) (decOperand64_eq_some.1 ha) rfl), wf⟩

theorem longS_isOf {mk : LGuard → SReg → UOperand → BitVec 32 → Instr}
    (h : (do let d ← decSReg f.d; let a ← decUOperand f.a; pure (mk (decLGuard f.gp) d a f.imm)) = some i)
    (word : ∀ g d a imm, encodeF (mk g d a imm) = none ∧ encodeL (mk g d a imm) = lw opc g (encSReg d) a.bits imm ∧
      (mk g d a imm).wf = a.wf) : f.IsOf i := by
  obtain ⟨d, hd, h⟩ := bind_eq_some.1 h
  obtain ⟨a, ha, h⟩ := bind_eq_some.1 h
  cases h
  obtain ⟨full, long, wf⟩ := word (decLGuard f.gp) d a f.imm
  obtain ⟨ha, uniform⟩ := decUOperand_eq_some.1 ha
  exact ⟨full, long.trans (lw_eq op rfl (decSReg_eq_some.1 hd) ha rfl), wf.trans uniform⟩

/-- An access by a 64-bit base, whose width the opcode gives. -/
theorem longMem64_isOf {W : Type} {width : Option W} {bytes : W → Nat} {mk : LGuard → W → WReg → Operand64 → BitVec 32 → Instr}
    (h : (do
      let w ← width
      need (dataRegOk (bytes w) f.d)
      let a ← decOperand64 f.a
      pure (mk (decLGuard f.gp) w f.d a f.imm)) = some i)
    (word : ∀ g w d a imm, width = some w → encodeF (mk g w d a imm) = none ∧ encodeL (mk g w d a imm) = lw opc g d a.bits imm ∧
      (mk g w d a imm).wf = dataRegOk (bytes w) d) : f.IsOf i := by
  obtain ⟨w, hw, h⟩ := bind_eq_some.1 h
  obtain ⟨_, ok, h⟩ := bind_eq_some.1 h
  obtain ⟨a, ha, h⟩ := bind_eq_some.1 h
  cases h
  obtain ⟨full, long, wf⟩ := word (decLGuard f.gp) w f.d a f.imm hw
  exact ⟨full, long.trans (lw_eq op rfl rfl (decOperand64_eq_some.1 ha) rfl), wf.trans (need_eq_some.1 ok)⟩

/-- An access by a 32-bit base, whose width the opcode gives. -/
theorem longMem32_isOf {W : Type} {width : Option W} {bytes : W → Nat} {mk : LGuard → W → WReg → Operand → BitVec 32 → Instr}
    (h : (do
      let w ← width
      need (dataRegOk (bytes w) f.d)
      let a ← decOperand f.a
      pure (mk (decLGuard f.gp) w f.d a f.imm)) = some i)
    (word : ∀ g w d a imm, width = some w → encodeF (mk g w d a imm) = none ∧ encodeL (mk g w d a imm) = lw opc g d a.bits imm ∧
      (mk g w d a imm).wf = dataRegOk (bytes w) d) : f.IsOf i := by
  obtain ⟨w, hw, h⟩ := bind_eq_some.1 h
  obtain ⟨_, ok, h⟩ := bind_eq_some.1 h
  obtain ⟨a, ha, h⟩ := bind_eq_some.1 h
  cases h
  obtain ⟨full, long, wf⟩ := word (decLGuard f.gp) w f.d a f.imm hw
  exact ⟨full, long.trans (lw_eq op rfl rfl (decOperand_eq_some.1 ha) rfl), wf.trans (need_eq_some.1 ok)⟩

end

/-- Every long-immediate word that decodes is that of its instruction. -/
theorem decodeL_isOf {f : LWord} {i : Instr} (h : decodeL f = .ok i) : f.IsOf i := by
  unfold decodeL at h
  dsimp only at h
  split at h
  case h_54 => cases h
  all_goals have op := ‹f.opc.toNat = _›; replace h := Decoded.ofForm_eq_ok.1 h
  case h_6 =>
    obtain ⟨_, ha, h⟩ := bind_eq_some.1 h
    cases h
    exact ⟨rfl, lw_eq op rfl rfl (beq_iff_eq.1 (need_eq_some.1 ha)) rfl, rfl⟩
  case h_11 | h_12 | h_13 => exact longPair_isOf op h fun _ _ _ _ => ⟨rfl, rfl, rfl⟩
  case h_14 | h_15 | h_16 | h_17 | h_18 | h_20 => exact longS_isOf op h fun _ _ _ _ => ⟨rfl, rfl, rfl⟩
  case h_19 =>
    obtain ⟨_, ha, h⟩ := bind_eq_some.1 h
    obtain ⟨d, hd, h⟩ := bind_eq_some.1 h
    cases h
    exact ⟨rfl, lw_eq op rfl (decSReg_eq_some.1 hd) (beq_iff_eq.1 (need_eq_some.1 ha)) rfl, rfl⟩
  case h_26 =>
    simp only [bind_eq_some, need_eq_some, Bool.and_eq_true, beq_iff_eq] at h
    obtain ⟨_, ⟨hd, ha⟩, h⟩ := h
    cases h
    exact ⟨rfl, lw_eq op rfl hd ha rfl, rfl⟩
  case h_27 =>
    obtain ⟨_, ha, h⟩ := bind_eq_some.1 h
    obtain ⟨d, hd, h⟩ := bind_eq_some.1 h
    cases h
    exact ⟨rfl, lw_eq op rfl (decPairD_eq_some.1 hd) (beq_iff_eq.1 (need_eq_some.1 ha)) rfl, rfl⟩
  case h_28 =>
    simp only [bind_eq_some, need_eq_some, Bool.and_eq_true, beq_iff_eq, decOperand_eq_some] at h
    obtain ⟨_, ⟨hd, near⟩, a, ha, h⟩ := h
    cases h
    exact ⟨rfl, lw_eq op rfl hd ha rfl, near⟩
  case h_29 | h_30 | h_31 | h_32 | h_33 | h_34 | h_35 =>
    exact longMem64_isOf op h fun g w d a imm hw =>
      ⟨rfl, congrArg (fun n => lw (0x240 + n) g d a.bits imm) (decLdW_eq_some hw).symm, rfl⟩
  case h_36 | h_37 | h_38 | h_39 | h_40 =>
    exact longMem64_isOf op h fun g w d a imm hw =>
      ⟨rfl, congrArg (fun n => lw (0x248 + n) g d a.bits imm) (decStW_eq_some hw).symm, rfl⟩
  case h_41 | h_42 | h_43 | h_44 | h_45 | h_46 | h_47 =>
    exact longMem32_isOf op h fun g w d a imm hw =>
      ⟨rfl, congrArg (fun n => lw (0x250 + n) g d a.bits imm) (decLdW_eq_some hw).symm, rfl⟩
  case h_48 | h_49 | h_50 | h_51 | h_52 =>
    exact longMem32_isOf op h fun g w d a imm hw =>
      ⟨rfl, congrArg (fun n => lw (0x258 + n) g d a.bits imm) (decStW_eq_some hw).symm, rfl⟩
  case h_53 =>
    simp only [bind_eq_some, need_eq_some, beq_iff_eq, decOperand64_eq_some] at h
    obtain ⟨_, hd, a, ha, h⟩ := h
    cases h
    exact ⟨rfl, lw_eq op rfl hd ha rfl, rfl⟩
  all_goals exact longW_isOf op h fun _ _ _ _ => ⟨rfl, rfl, rfl⟩

/-! ### Pair words (R96 to R99) -/

theorem bits_decPairGuard (x : BitVec 2) : (decPairGuard x).bits = x := by revert x; decide

/-- What a half's POP field names, in its code (R97). -/
def PairOp.pop : PairOp → Nat
  | .reg o => o.pop
  | .imm o => o.pop

theorem decPop_eq_some {n : Nat} {o : PairOp} (h : decPop n = some o) : n = o.pop := by
  unfold decPop at h
  split at h <;> cases h <;> rfl

theorem encHalf_of_decHalf {w : PHalfWord} {o : PairOp} {x : PairHalf} (pop : decPop w.pop.toNat = some o)
    (h : decHalf o w = some x) : encHalf x = w := by
  have code : BitVec.ofNat 7 o.pop = w.pop := by rw [← decPop_eq_some pop]; simp
  obtain ⟨p, pg, d, a, imm⟩ := w
  cases code
  cases found : decOperand a with
  | none => cases o <;> simp [decHalf, found] at h
  | some a =>
    cases decOperand_eq_some.1 found
    cases o with
    | reg o =>
      simp only [decHalf, found] at h
      split_ifs at h with small
      cases h
      have sel : BitVec.ofNat 5 (decSel (BitVec.ofNat 3 imm.toNat)).bits.toNat = imm := by
        rw [decSel_bits]
        exact BitVec.eq_of_toNat_eq (by simp; omega)
      simp only [encHalf, bits_decPairGuard, sel]
      rfl
    | imm o =>
      simp only [decHalf, found] at h
      cases h
      simp only [encHalf, bits_decPairGuard]
      rfl

theorem pairInstr_word (a b : PairHalf) : encodeF (pairInstr a b) = none ∧ encodeL (pairInstr a b) = none ∧
    pairHalves (pairInstr a b) = some (a, b) ∧ (pairInstr a b).wf = pairLegal a b := by
  cases a with
  | reg o x => cases o <;> exact ⟨rfl, rfl, rfl, rfl⟩
  | imm o x => cases o <;> exact ⟨rfl, rfl, rfl, rfl⟩

/-- A pair word that decodes is that of two halves, which are legal together (R99). -/
theorem halves_of_decodeP {w : BitVec 64} {i : Instr} (h : decodeP w = .ok i) : ∃ a b, i = pairInstr a b ∧ pairLegal a b = true ∧
    encHalf a = PHalfWord.ofBits (w.extractLsb' 0 31) ∧ encHalf b = PHalfWord.ofBits (w.extractLsb' 31 31) := by
  unfold decodeP at h
  dsimp only at h
  split at h
  case h_2 => cases h
  case h_1 pop0 pop1 =>
    split at h
    case h_2 => cases h
    case h_1 a b half0 half1 =>
      split_ifs at h with legal
      cases h
      exact ⟨a, b, rfl, legal, encHalf_of_decHalf pop0 half0, encHalf_of_decHalf pop1 half1⟩

/-! ### The extension words (R334, R394) -/

theorem eq_ofNat_of_toNat {m n : Nat} {x : BitVec m} (h : x.toNat = n) : x = BitVec.ofNat m n := by
  rw [← h, BitVec.ofNat_toNat, BitVec.setWidth_eq]

theorem encodeHart_of_decodeHart {w : BitVec 32} {i : Instr} (h : decodeHart w = .ok i) :
    encodeF i = none ∧ encodeL i = none ∧ pairHalves i = none ∧ encodeHart i = some (RWord.ofBits w) ∧ i.wf = true := by
  unfold decodeHart at h
  dsimp only at h
  generalize RWord.ofBits w = r at h ⊢
  obtain ⟨funct7, rs2, rs1, funct3, rd, opcode⟩ := r
  split at h
  case isTrue => cases h
  split at h
  case isTrue => cases h
  rename_i custom zero
  obtain rfl := not_not.1 custom
  obtain rfl := not_not.1 zero
  dsimp only at h
  split at h
  case h_6 => cases h
  all_goals
    obtain rfl := eq_ofNat_of_toNat ‹funct3.toNat = _›
  case h_1 | h_5 =>
    cases h
    exact ⟨rfl, rfl, rfl, rfl, rfl⟩
  all_goals
    split_ifs at h with unused
    cases h
    subst unused
    exact ⟨rfl, rfl, rfl, rfl, rfl⟩

/-! ### Decoding loses no bit -/

theorem nimia_of_decode {w : BitVec 64} {i : Instr} (h : decode w = .ok i) : encode i = some (.nimia w) ∧ i.wf = true := by
  unfold decode at h
  split at h
  case h_4 => cases h
  case h_1 form =>
    obtain ⟨fields, wf⟩ := decodeF_isOf h
    rw [encode, fields]
    exact ⟨congrArg (some ∘ EncWord.nimia) (FWord.bits_ofBits (BitVec.eq_of_toNat_eq form)), wf⟩
  case h_2 form =>
    obtain ⟨a, b, rfl, legal, half0, half1⟩ := halves_of_decodeP h
    obtain ⟨full, long, pair, wf⟩ := pairInstr_word a b
    rw [encode, full, long, pair]
    refine ⟨congrArg (some ∘ EncWord.nimia) ?_, wf.trans legal⟩
    rw [half0, half1]
    exact pairBits_ofBits (BitVec.eq_of_toNat_eq form)
  case h_3 form =>
    obtain ⟨full, fields, wf⟩ := decodeL_isOf h
    rw [encode, full, fields]
    exact ⟨congrArg (some ∘ EncWord.nimia) (LWord.bits_ofBits (BitVec.eq_of_toNat_eq form)), wf⟩

theorem hart_of_decodeHart {w : BitVec 32} {i : Instr} (h : decodeHart w = .ok i) : encode i = some (.hart w) ∧ i.wf = true := by
  obtain ⟨full, long, pair, fields, wf⟩ := encodeHart_of_decodeHart h
  rw [encode, full, long, pair, fields]
  exact ⟨congrArg (some ∘ EncWord.hart) (RWord.bits_ofBits w), wf⟩

/-- Settles O50: the fields that the decoder reads back are those of the instruction, in every form of word. -/
theorem decodedWordsEncode : Obligations.DecodedWordsEncode := by
  unfold Obligations.DecodedWordsEncode
  exact ⟨fun _ _ => nimia_of_decode, fun _ _ => hart_of_decodeHart⟩

end Sys2Proof
end

section
/-! The round trip from the instruction, and the words written out. -/
namespace Sys2Proof.Laws.RoundTrip
-- One declaration at a time: each more thread of the compiler takes a stack out of the same memory.
set_option Elab.async false

/-- Each constructor's own lemma, in the order of the constructors. -/
theorem every (i : Instr) : Statement i :=
  @Instr.rec Statement
    add sub mul mulhi mad div rem abs min max mov movi sel icmp pand por pxor pnot and or xor andn shl shr sra rot popc clz
    ctz brev bfx bfi prmb add2 sub2 min2 max2 add4 dot4 dot8 dot2 add64 sub64 lea64 sadd ssub smul sshl sshr sand sor smov
    smovi scmp sld fadd fsub fmul ffma fmin fmax fabs fcmp fclass frnd hadd2 hmul2 hfma2 badd2 bmul2 bfma2 cvt unpk qblk
    rcpSeed rsqSeed ex2 lg2 sin cos bra jmp jmpLink call ret loop lbrk exit yield nap nop shfl vote ballot redux scan
    matchLanes ld st ldsp stsp ldf stf lda sta ldc stc pf atom atoms red fence cleanR invalR flushR barArrive barWait barSync
    barSwap mbarInit mbarArrive mbarExpect mbarWait rsv unrsv zacc mma acq rel cpy cpyo cpyc patch go rinit await rels deq
    enq qsub qcancel svc rcall fqack rgrow rshrink mfs mts trap rett tkill ebrk fencex addLongImmediate subLongImmediate
    mulLongImmediate minLongImmediate maxLongImmediate andLongImmediate orLongImmediate xorLongImmediate andnLongImmediate
    add64LongImmediate sub64LongImmediate lea64LongImmediate saddLongImmediate ssubLongImmediate smulLongImmediate
    sandLongImmediate sorLongImmediate faddLongImmediate fsubLongImmediate fmulLongImmediate fminLongImmediate
    fmaxLongImmediate sldLongImmediate ldLongImmediate stLongImmediate ldspLongImmediate stspLongImmediate pfLongImmediate
    braLongImmediate callLongImmediate loopLongImmediate pairAdd pairSub pairMul pairAnd pairOr pairXor pairAndn pairMinS32
    pairMaxS32 pairMinZ32 pairMaxZ32 pairMov pairAdd2 pairSub2 pairAdd4 pairFadd pairFsub pairFmul pairFmin pairFmax
    pairHadd2 pairHmul2 pairBadd2 pairBmul2 pairShl pairShr pairSra pairRot pairAddImmediate pairSubImmediate spawn joinw
    ecreate edestroy eattest illegalOpcode illegalInstructionException spawnAppend joinwComplete map unmap prot move sealPage
    unsealPage usage svcq spdmCall bind pload punload range coldReset warmReset firmwareImage hostLinkTraining hello
    discoveryWindowEnd claim leaderSilent podFlitReceive staggeredStartStep arrayRampDone pwrlim emergencyPowerReduction
    mslim mscfg meadowStoreSplitChange pcfg partitionBuild gsw guestSwitchCommit replyDoorbell llaunch sleep commit wake
    registerWrite tdispRequest lockInterfaceRequest ideKmKeyProgramming hostMemoryAccess getVersion getCapabilities
    negotiateAlgorithms getDigests getCertificate challenge getMeasurements keyExchange finish endSession
    spdmUnsupportedRequest virtualFunctionReset dispatchRecord grovePlacement placementStarvation issueSelection
    waitCountStarvation bindRecordWrite teamRetirement queueSliceBoundary storeBufferDrain loadReturn atomicPerform
    walkComplete faultQueueRoom registerLineFill rgrowGrant handlerEntry barrierPhaseComplete deqTake enqReservation
    awaitTake mbarWaitWake ldfWake stfWaitWake napWake svcPost maintenanceComplete rsvComplete acqComplete unrsvComplete
    matrixJobStart kStep arraySwitchPoint matrixJobComplete budgetRefill copyJobStart ringSlotClaim copyPieceDelivery
    relayHop copyJobComplete copyJobFault queryContextAllocate distanceReply adjacencyReply queryPublish shootdownAck
    migrationPass lrd lwr rrd rup evt erd ewr cln inv directoryAck tmo proxyInvalidation copyInvalidation replicaLock
    replicaUpdate partitionSwapOut partitionSwapIn usageRecordPeriodic podLinkTraining meadowStoreWriteBack i

end Sys2Proof.Laws.RoundTrip

namespace Sys2Proof

/-- Settles O49: the round trip of each instruction, for all of them. -/
theorem encodedWordsDecode : Obligations.EncodedWordsDecode := by
  unfold Obligations.EncodedWordsDecode
  exact Laws.RoundTrip.every

/-- Settles O46, by decoding the two words. -/
theorem noOperationWord : Obligations.NoOperationWord := by
  unfold Obligations.NoOperationWord
  decide

/-- Settles O48, by decoding each word. -/
theorem wordsWrittenOut : Obligations.WordsWrittenOut := by
  unfold Obligations.WordsWrittenOut Machine.KnownWords
  decide

end Sys2Proof
end

section
/-! Operand codes and legal pair words (R86, R99). -/
namespace Sys2Proof
-- One declaration at a time: each more thread of the compiler takes a stack out of the same memory.
set_option Elab.async false

/-! ### Operand codes (R86) -/

/-- The fields of a `mov w0, a` with the always guard. -/
def movFields (a : BitVec 9) : FWord := ⟨0x00A#10, 0, 0, 7, 0, a, 0, 0, 0, 0, 0⟩

theorem movWord_eq (a : BitVec 9) : Machine.movWord a = (movFields a).bits := by
  revert a
  decide

theorem decode_movWord (a : BitVec 9) :
    decode (Machine.movWord a) = ((decOperand a).map Machine.movOf).getD .illegalForm := by
  rw [movWord_eq, decode, FWord.form, FWord.ofBits_bits]
  cases found : decOperand a <;> simp [decodeF, decClass0, movFields, decSrc, found, decGuard, decSel, Machine.movOf, Decoded.ofForm]

theorem decode_movWord_bits (o : Operand) : decode (Machine.movWord o.bits) = Machine.movOf o := by
  rw [decode_movWord, decOperand_enc]
  rfl

/-- Settles O45: each code is that of its operand, and 340 to 383 are the codes of none. -/
theorem operandDecoding : Obligations.OperandDecoding := by
  unfold Obligations.OperandDecoding
  refine ⟨fun n small => ?_, fun n small => ?_, fun k => decode_movWord_bits (.ident k), fun n low high => ?_, fun v low high => ?_⟩
  · have code : BitVec.ofNat 9 n = (Operand.w (BitVec.ofNat 8 n)).bits := BitVec.eq_of_toNat_eq (by simp [Operand.bits]; omega)
    rw [code, decode_movWord_bits]
  · have code : BitVec.ofNat 9 (256 + n) = (Operand.s (BitVec.ofNat 6 n)).bits :=
      BitVec.eq_of_toNat_eq (by simp [Operand.bits]; omega)
    rw [code, decode_movWord_bits]
  · have reserved : decOperand (BitVec.ofNat 9 n) = none := by
      have value : (BitVec.ofNat 9 n).toNat = n := by simp; omega
      unfold decOperand
      rw [value, if_neg (by omega), if_neg (by omega), dif_neg (by omega), if_pos (by omega)]
    rw [decode_movWord, reserved]
    rfl
  · have code : BitVec.ofNat 9 (v + 448).toNat = (Operand.imm (BitVec.ofNat 7 (v + 64).toNat)).bits :=
      BitVec.eq_of_toNat_eq (by simp [Operand.bits]; omega)
    refine ⟨BitVec.ofNat 7 (v + 64).toNat, by rw [code, decode_movWord_bits], fun s t => ?_⟩
    have value : Machine.immInt (BitVec.ofNat 7 (v + 64).toNat) = v := by simp [Machine.immInt]; omega
    simp only [Machine.rdOp, Machine.immW, value, truncInt]

/-! ### Legal pair words (R99) -/

theorem eq_pairInstr_of_pairHalves {i : Instr} {a b : PairHalf} (h : pairHalves i = some (a, b)) : i = pairInstr a b := by
  unfold pairHalves at h
  split at h <;> cases h <;> rfl

theorem decode_pairBits (a b : PairHalf) : decode (pairBits (encHalf a) (encHalf b)) =
    if pairLegal a b then .ok (pairInstr a b) else .illegalPair := by
  have form : (pairBits (encHalf a) (encHalf b)).extractLsb' 62 2 = 0b01#2 := pairBits_form _ _
  rw [decode, form]
  show decodeP _ = _
  simp only [decodeP, pairBits_h0, pairBits_h1, PHalfWord.ofBits_bits, Laws.RoundTrip.decPop_enc, Laws.RoundTrip.decHalf_enc]

theorem halfRegs_eq (h : PairHalf) : Machine.halfRegs h = [h.d.toNat] ++ h.a.wNum := by
  cases h with
  | reg o x => obtain ⟨g, d, a, m⟩ := x; cases a <;> rfl
  | imm o x => obtain ⟨g, d, a, m⟩ := x; cases a <;> rfl

theorem halfDst_eq (h : PairHalf) : Machine.halfDst h = h.d.toNat := by cases h <;> rfl

theorem pairLegal_iff (a b : PairHalf) : pairLegal a b = true ↔
    (Machine.halfRegs a ++ Machine.halfRegs b).Pairwise (fun m n => m % 4 ≠ n % 4) ∧ Machine.halfDst a ≠ Machine.halfDst b := by
  have reads : pairReads a b = Machine.halfRegs a ++ Machine.halfRegs b := by
    rw [pairReads, halfRegs_eq, halfRegs_eq, List.append_assoc]
  have dst : (a.d != b.d) = true ↔ Machine.halfDst a ≠ Machine.halfDst b := by
    rw [halfDst_eq, halfDst_eq, bne_iff_ne, Ne, Ne, BitVec.toNat_inj]
  rw [pairLegal, Bool.and_eq_true, decide_eq_true_iff, dst, reads, List.Nodup, List.pairwise_map]

/-- Settles O47: the word of two halves is legal as the model's `pairLegal` says, which is R99. -/
theorem pairWordLegality : Obligations.PairWordLegality := by
  unfold Obligations.PairWordLegality
  intro i a b x halves word
  obtain rfl := eq_pairInstr_of_pairHalves halves
  obtain ⟨full, long, pair, _⟩ := pairInstr_word a b
  rw [encode, full, long, pair] at word
  cases word
  rw [decode_pairBits, ← pairLegal_iff]
  exact ⟨fun legal => if_pos legal, fun legal => if_neg legal⟩

end Sys2Proof
end

section
/-! Words that act in each thread by itself, and the tables of them (R91, R133 to R168). -/
namespace Sys2Proof.Machine
-- One declaration at a time: each more thread of the compiler takes a stack out of the same memory.
set_option Elab.async false

/-- A word that acts in each acting thread by itself: it makes nothing beyond its threads, and its effect in a thread asks for no
other. -/
structure ThreadWord (i : Instr) (r : WordRow) : Prop where
  run : ∀ s, exec i s = runThreads (r.info s) (r.out s 0 [] []) s
  still : ∀ s w l a, r.makes s w l a = s
  own : ∀ s w l a, r.out s w l a = r.out s 0 [] []
  preds : ∀ s t, ∀ x ∈ (r.out s 0 [] [] t).p, x.1 < 7

/-- Every row of a table is one of a word that acts in each thread by itself. -/
def ThreadTable (row : Instr → Option WordRow) : Prop := ∀ {i r}, row i = some r → ThreadWord i r

theorem ThreadWord.completes {i : Instr} {r : WordRow} (word : ThreadWord i r) {s : State} {w : Nat} {l : List Nat}
    (issues : Issues s (r.info s) w l) : CompletesAt i r s w l :=
  completes_threads word.run word.still (fun s w l a t => congrFun (word.own s w l a) t) word.preds s w l issues

theorem ThreadTable.completes {row : Instr → Option WordRow} (table : ThreadTable row) : Completes row :=
  fun _ _ found _ _ _ issues => (table found).completes issues

section
variable {i : Instr} {g : Guard}

theorem threadWord_rowW {d : WReg} {srcs : List Src} {f : State → Nat → W32 × W32} {preds : Bool}
    (run : ∀ s, exec i s = aluWord ⟨0, g⟩ d srcs (f s) s preds) : ThreadWord i (rowW g d srcs f preds) :=
  ⟨run, fun _ _ _ _ => rfl, fun _ _ _ _ => rfl, fun _ _ _ mem => nomatch mem⟩

theorem threadWord_rowP {p : PReg} {srcs : List Src} {srcs64 : List Src64} {f : State → Nat → Bool} {preds : Bool}
    (run : ∀ s, exec i s = predWord ⟨0, g⟩ p (srcRegs srcs srcs64).1 (srcRegs srcs srcs64).2 (f s) s preds) :
    ThreadWord i (rowP g p srcs srcs64 f preds) :=
  ⟨run, fun _ _ _ _ => rfl, fun _ _ _ _ => rfl, fun _ _ _ mem => by rw [List.mem_singleton.1 mem]; exact p.isLt⟩

theorem threadWord_rowPair {d : WPair} {srcs64 : List Src64} {srcs : List Src} {f : State → Nat → W64}
    (run : ∀ s, exec i s = pairWord ⟨0, g⟩ d srcs64 srcs (f s) s) : ThreadWord i (rowPair g d srcs64 srcs f) :=
  ⟨run, fun _ _ _ _ => rfl, fun _ _ _ _ => rfl, fun _ _ _ mem => nomatch mem⟩
end

/-! ### Class 0x0 (R133 to R137) -/

theorem divRem_zero (ty : ITy) (a b : W32) : (divRem ty a b).2.2 = decide (b = 0) := by
  unfold divRem
  split_ifs with zero
  · exact (decide_eq_true zero).symm
  · exact (decide_eq_false zero).symm

theorem integerRow_threads : ThreadTable integerRow := by
  intro i r h
  unfold integerRow at h
  split at h <;> cases h
  case h_6 => exact threadWord_rowW fun s => by simp only [exec_div, execDiv, divRem_zero]; rfl
  case h_7 => exact threadWord_rowW fun s => by simp only [exec_rem, execRem, divRem_zero]; rfl
  all_goals exact threadWord_rowW fun _ => rfl

/-- Settles O1: every word of the table acts in each thread by itself. -/
theorem integerWords : Obligations.IntegerWords := integerRow_threads.completes

/-! ### Class 0x1 (R140 to R144) -/

theorem bitRow_threads : ThreadTable bitRow := by
  intro i r h
  unfold bitRow at h
  split at h <;> cases h
  case h_14 => exact ⟨fun _ => rfl, fun _ _ _ _ => rfl, fun _ _ _ _ => rfl, fun _ _ _ mem => nomatch mem⟩
  all_goals exact threadWord_rowW fun _ => rfl

theorem packedRow_threads : ThreadTable packedRow := by
  intro i r h
  unfold packedRow at h
  split at h <;> cases h <;> exact threadWord_rowW fun _ => rfl

/-- Settles O3: every word of the two tables acts in each thread by itself. -/
theorem bitWords : Obligations.BitWords := ⟨bitRow_threads.completes, packedRow_threads.completes⟩

/-! ### Pair destinations (R145, R146, R164) -/

theorem pairRegRow_threads : ThreadTable pairRegRow := by
  intro i r h
  unfold pairRegRow at h
  split at h <;> cases h
  case h_7 => exact ⟨fun _ => rfl, fun _ _ _ _ => rfl, fun _ _ _ _ => rfl, fun _ _ _ mem => nomatch mem⟩
  all_goals exact threadWord_rowPair fun _ => rfl

/-- Settles O4: each word acts in each thread by itself, on the two registers of its pair. -/
theorem pairDestinationWords : Obligations.PairDestinationWords := pairRegRow_threads.completes

/-! ### Floating point and long immediates (R100, R101, R154 to R160) -/

theorem floatRow_threads : ThreadTable floatRow := by
  intro i r h
  unfold floatRow at h
  split at h <;> cases h <;> exact threadWord_rowW fun _ => rfl

/-- Settles O6: every word of the table acts in each thread by itself. -/
theorem floatWords : Obligations.FloatWords := floatRow_threads.completes

theorem longImmRow_threads : ThreadTable longImmRow := by
  intro i r h
  unfold longImmRow at h
  split at h <;> cases h <;> exact threadWord_rowW fun _ => rfl

/-- Settles O8: every word of the table acts in each thread by itself. -/
theorem longImmediateWords : Obligations.LongImmediateWords := longImmRow_threads.completes

/-! ### Pair words (R96 to R99) -/

theorem exec_pairInstr (a b : PairHalf) (s : State) : exec (pairInstr a b) s = pairOps a b s := by
  cases a with
  | reg o x => cases o <;> rfl
  | imm o x => cases o <;> rfl

theorem pairWordRow_threads : ThreadTable pairWordRow := by
  intro i r h
  obtain ⟨⟨a, b⟩, halves, rfl⟩ := Option.map_eq_some_iff.1 h
  obtain rfl := eq_pairInstr_of_pairHalves halves
  exact ⟨exec_pairInstr a b, fun _ _ _ _ => rfl, fun _ _ _ _ => rfl, fun _ _ _ mem => nomatch mem⟩

/-- Settles O9: a pair word's one effect in a thread is that of both halves, which `pairOps` reads before it writes. -/
theorem pairWords : Obligations.PairWords := pairWordRow_threads.completes

/-! ### Conversions, block quantisation and special functions (R161 to R168) -/

/-- A block is encoded once for the warp; each acting thread receives its lane of it (R165). -/
theorem qblk_completes {h : Hdr} {amax : Bool} {d : WReg} {a : Src} {r : WordRow} (found : convertRow (.qblk h amax d a) = some r)
    {s : State} {w : Nat} {l : List Nat} (issues : Issues s (r.info s) w l) : CompletesAt (.qblk h amax d a) r s w l := by
  cases found
  refine completes_at issues (by rw [exec_qblk, execQblk]) (fun _ _ => ⟨_, rfl, fun t mem => ?_⟩) fun _ _ _ mem => nomatch mem
  rw [effOf_acting mem]
  simp only [List.any_eq_true, decide_eq_true_eq, exists_eq_right]

/-- Settles O7: all but `qblk` act in each thread by itself. -/
theorem conversionWords : Obligations.ConversionWords := by
  intro i r found s w l issues
  have h := found
  unfold convertRow at h
  split at h <;> cases h
  case h_1 =>
    refine ThreadWord.completes ?_ issues
    exact ⟨fun _ => rfl, fun _ _ _ _ => rfl, fun _ _ _ _ => rfl, fun _ _ _ mem => nomatch mem⟩
  case h_2 => exact qblk_completes found issues
  all_goals exact ThreadWord.completes (threadWord_rowW fun _ => rfl) issues

/-! ### Predicates (R138, R139, R148, R157, R158) -/

/-- A uniform compare is made once, in the first acting thread, and every issued thread acts (R147, R148). -/
theorem scmp_completes {h : Hdr} {c : Cond} {p : PReg} {a b : USrc64} {r : WordRow} (found : predicateRow (.scmp h c p a b) = some r)
    {s : State} {w : Nat} {l : List Nat} (issues : Issues s (r.info s) w l) : CompletesAt (.scmp h c p a b) r s w l := by
  cases found
  refine completes_at issues (by rw [exec_scmp, execScmp]) (fun acts _ => ⟨_, rfl, fun t mem => ?_⟩) fun _ _ x mem => ?_
  · have all : actingIn s h.guard l = l := (issues.uniform rfl).2.resolve_left acts
    have holds : rdGuard s h.guard t = true := (List.mem_filter.1 (all.symm ▸ mem : t ∈ actingIn s h.guard l)).2
    rw [effOf_map, if_pos mem]
    exact (if_pos holds).symm
  · rw [List.mem_singleton.1 mem]
    exact p.isLt

/-- Settles O2: all but the uniform compare act in each thread by itself. -/
theorem predicateWords : Obligations.PredicateWords := by
  intro i r found s w l issues
  have h := found
  unfold predicateRow at h
  split at h <;> cases h
  case h_9 => exact scmp_completes found issues
  all_goals exact ThreadWord.completes (threadWord_rowP fun _ => rfl) issues

end Sys2Proof.Machine
end

section
/-! Every word of the tables issues with what its row names; the traps that come before its own part, and the software traps (R89, R102, R103, R106, R209). -/
namespace Sys2Proof.Machine
-- One declaration at a time: each more thread of the compiler takes a stack out of the same memory.
set_option Elab.async false

/-! ### Every word of the tables issues with what its row names -/

section
variable {i : Instr} {r : WordRow}

theorem runWord_of_predicateRow (h : predicateRow i = some r) (s : State) : ∃ own, exec i s = runWord (r.info s) own s := by
  unfold predicateRow at h
  split at h <;> cases h
  all_goals
    simp only [exec_icmp, exec_pand, exec_por, exec_pxor, exec_pnot, exec_fcmp, exec_fclass, exec_scmp, execIcmp, execPand, execPor,
    execPxor, execPnot, execFcmp, execFclass, execScmp, predWord, runThreads]
    exact ⟨_, rfl⟩

theorem runWord_of_convertRow (h : convertRow i = some r) (s : State) : ∃ own, exec i s = runWord (r.info s) own s := by
  unfold convertRow at h
  split at h <;> cases h
  all_goals
    simp only [exec_cvt, exec_qblk, exec_rcpSeed, exec_rsqSeed, exec_ex2, exec_lg2, exec_sin, exec_cos, execCvt, execQblk, execRcpSeed,
    execRsqSeed, execEx2, execLg2, execSin, execCos, aluWord, runThreads]
    exact ⟨_, rfl⟩

theorem runWord_of_controlRow (h : controlRow i = some r) (s : State) : ∃ own, exec i s = runWord (r.info s) own s := by
  unfold controlRow at h
  split at h <;> cases h
  all_goals
    simp only [exec_bra, exec_braLongImmediate, exec_jmp, exec_jmpLink, exec_call, exec_callLongImmediate, exec_ret, exec_nop,
    exec_loop, exec_loopLongImmediate, exec_lbrk, exec_yield, exec_nap, execBra, execBraLongImmediate, execJmp, execJmpLink,
    execCall, execCallLongImmediate, execRet, execNop, execLoop, execLoopLongImmediate, execLbrk, execYield, execNap,
    jumpWord, loopWord, runThreads]
    exact ⟨_, rfl⟩

theorem runWord_of_crossRow (h : crossRow i = some r) (s : State) : ∃ own, exec i s = runWord (r.info s) own s := by
  unfold crossRow at h
  split at h <;> cases h
  case h_12 h m d a => cases a <;> (simp only [exec_matchLanes, execMatchLanes]; exact ⟨_, rfl⟩)
  all_goals
    simp only [exec_shfl, exec_vote, exec_ballot, exec_redux, exec_scan, execShfl, execVote, execBallot, execRedux,
    execScan]
    exact ⟨_, rfl⟩

theorem runWord_of_accessRow (h : accessRow i = some r) (s : State) : ∃ own, exec i s = runWord (r.info s) own s := by
  unfold accessRow at h
  split at h <;> cases h
  all_goals
    simp only [exec_ld, exec_ldsp, exec_ldLongImmediate, exec_ldspLongImmediate, exec_st, exec_stsp, exec_stLongImmediate,
    exec_stspLongImmediate, exec_ldf, exec_stf, exec_atom, exec_atoms, exec_red, exec_cleanR, exec_invalR, exec_flushR,
    exec_sld, exec_sldLongImmediate, exec_pf, exec_pfLongImmediate, exec_fence, execLd, execLdsp, execLdLongImmediate,
    execLdspLongImmediate, execSt, execStsp, execStLongImmediate, execStspLongImmediate, execLdf, execStf, execAtom,
    execAtoms, execRed, execCleanR, execInvalR, execFlushR, execSld, execSldLongImmediate, execPf, execPfLongImmediate,
    execFence, atomWord, loadWord, maintWord, mopWord, pfWord, sldWord, storeWord]
    exact ⟨_, rfl⟩

theorem runWord_of_bufferRow (h : bufferRow i = some r) (s : State) : ∃ own, exec i s = runWord (r.info s) own s := by
  unfold bufferRow at h
  split at h <;> cases h
  all_goals
    simp only [exec_lda, exec_sta, exec_ldc, exec_stc, execLda, execSta, execLdc, execStc]
    exact ⟨_, rfl⟩

theorem runWord_of_matrixRow (h : matrixRow i = some r) (s : State) : ∃ own, exec i s = runWord (r.info s) own s := by
  unfold matrixRow at h
  split at h <;> cases h
  all_goals
    simp only [exec_rsv, exec_unrsv, exec_acq, exec_rel, exec_zacc, exec_mma, execRsv, execUnrsv, execAcq, execRel, execZacc, execMma,
    matWord]
    exact ⟨_, rfl⟩

theorem runWord_of_copyRow (h : copyRow i = some r) (s : State) : ∃ own, exec i s = runWord (r.info s) own s := by
  unfold copyRow at h
  split at h <;> cases h
  all_goals
    simp only [exec_cpy, exec_cpyo, exec_cpyc, exec_patch, exec_go, exec_rinit, exec_await, exec_rels, execCpy, execCpyo, execCpyc,
    execPatch, execGo, execRinit, execAwait, execRels]
    exact ⟨_, rfl⟩

theorem runWord_of_queueRow (h : queueRow i = some r) (s : State) : ∃ own, exec i s = runWord (r.info s) own s := by
  unfold queueRow at h
  split at h <;> cases h
  all_goals
    simp only [exec_deq, exec_enq, exec_svc, exec_rcall, exec_fqack, exec_qsub, exec_qcancel, execDeq, execEnq, execSvc, execRcall,
    execFqack, execQsub, execQcancel, mopWord]
    exact ⟨_, rfl⟩

theorem runWord_of_barrierRow (h : barrierRow i = some r) (s : State) : ∃ own, exec i s = runWord (r.info s) own s := by
  unfold barrierRow at h
  split at h <;> cases h
  all_goals
    simp only [exec_barArrive, exec_barSync, exec_barSwap, exec_barWait, exec_mbarInit, exec_mbarArrive, exec_mbarExpect,
    exec_mbarWait, execBarArrive, execBarSync, execBarSwap, execBarWait, execMbarInit, execMbarArrive, execMbarExpect,
    execMbarWait, arriveWord, mbarWord, runThreads]
    exact ⟨_, rfl⟩

theorem runWord_of_systemRow (h : systemRow i = some r) (s : State) : ∃ own, exec i s = runWord (r.info s) own s := by
  unfold systemRow at h
  split at h <;> cases h
  all_goals
    simp only [exec_mfs, exec_mts, exec_fencex, exec_tkill, exec_rshrink, exec_rgrow, execMfs, execMts, execFencex, execTkill,
    execRshrink, execRgrow, runThreads]
    exact ⟨_, rfl⟩

end

theorem runWord_of_threadTable {row : Instr → Option WordRow} (table : ThreadTable row) {i : Instr} {r : WordRow} (h : row i = some r)
    (s : State) : ∃ own, exec i s = runWord (r.info s) own s :=
  ⟨_, (table h).run s⟩

theorem runWord_of_wordRow {i : Instr} {r : WordRow} (h : wordRow i = some r) (s : State) :
    ∃ own, exec i s = runWord (r.info s) own s := by
  obtain ⟨row, mem, h⟩ := exists_of_firstSome h
  simp only [List.mem_cons, List.not_mem_nil, or_false] at mem
  obtain rfl | rfl | rfl | rfl | rfl | rfl | rfl | rfl | rfl | rfl | rfl | rfl | rfl | rfl | rfl | rfl | rfl | rfl | rfl := mem
  · exact runWord_of_threadTable integerRow_threads h s
  · exact runWord_of_predicateRow h s
  · exact runWord_of_threadTable bitRow_threads h s
  · exact runWord_of_threadTable packedRow_threads h s
  · exact runWord_of_threadTable pairRegRow_threads h s
  · exact exec_eq_runWord_of_uniformRow h
  · exact runWord_of_threadTable floatRow_threads h s
  · exact runWord_of_convertRow h s
  · exact runWord_of_threadTable longImmRow_threads h s
  · exact runWord_of_threadTable pairWordRow_threads h s
  · exact runWord_of_controlRow h s
  · exact runWord_of_crossRow h s
  · exact runWord_of_accessRow h s
  · exact runWord_of_bufferRow h s
  · exact runWord_of_matrixRow h s
  · exact runWord_of_copyRow h s
  · exact runWord_of_queueRow h s
  · exact runWord_of_barrierRow h s
  · exact runWord_of_systemRow h s

/-! ### The checks before a word's own (R89, R102, R106) -/

section
variable {s : State} {info : WInfo} {w : Nat} {l : List Nat}

/-- A chosen word's first check lets it past: the windows of its threads and of its team are open. -/
theorem Chosen.passes (word : Chosen s w l) : ¬ ((l.any fun t => !windowsOpen (getTh s t)) || !matOpen s w l) = true := by
  simpa [word.matrix] using word.windows

theorem runWord_unprivileged (own : Nat → List Nat → List Nat → Own) (word : Chosen s w l) (asks : info.privileged = true)
    (without : (getTeam s (teamOfWarp s w)).priv = 0) :
    runWord info own s = .next (raiseTraps (chargeIssue s s w) w (preciseAll s 0x04 l)) := by
  rw [runWord, word.chosen]
  exact (if_neg word.passes).trans (if_pos (by simp [asks, without]))

theorem runWord_quota (own : Nat → List Nat → List Nat → Own) (word : Chosen s w l)
    (privilege : info.privileged = true → (getTeam s (teamOfWarp s w)).priv ≠ 0) (beyond : l.filter (reaches s info) ≠ []) :
    runWord info own s = .next (raiseTraps (chargeIssue s s w) w (preciseAll s 0x05 (l.filter (reaches s info)))) := by
  have allowed : ¬ (info.privileged && decide ((getTeam s (teamOfWarp s w)).priv = 0)) = true := by
    simpa using privilege
  rw [runWord, word.chosen]
  exact (if_neg word.passes).trans ((if_neg allowed).trans (if_pos (by rwa [Bool.not_eq_true', List.isEmpty_eq_false_iff])))

end

/-- Settles O25: the check comes before any rule of the word's own, so the row's info decides it. -/
theorem quotaChecked : Obligations.QuotaChecked := by
  intro i r h s w l word privilege ⟨t, mem, beyond⟩
  obtain ⟨own, run⟩ := runWord_of_wordRow h s
  have some' : l.filter (reaches s (r.info s)) ≠ [] := List.ne_nil_of_mem (List.mem_filter.2 ⟨mem, beyond⟩)
  exact trapsAt_of_raiseTraps some' ((issuedSet_nodup word.chosen).filter _) (run.trans (runWord_quota own word privilege some'))

/-- The tables whose words ask for nothing but what every team may do. -/
def unprivilegedTables : List (Instr → Option WordRow) :=
  [integerRow, predicateRow, bitRow, packedRow, pairRegRow, uniformRow, floatRow, convertRow, longImmRow, controlRow, crossRow,
    accessRow, bufferRow, matrixRow, copyRow, barrierRow, systemRow]

theorem not_privileged_of_unprivilegedTables {row : Instr → Option WordRow} (mem : row ∈ unprivilegedTables) {i : Instr}
    {r : WordRow} (h : row i = some r) {s : State} : (r.info s).privileged = false := by
  simp only [unprivilegedTables, List.mem_cons, List.not_mem_nil, or_false] at mem
  obtain rfl | rfl | rfl | rfl | rfl | rfl | rfl | rfl | rfl | rfl | rfl | rfl | rfl | rfl | rfl | rfl | rfl := mem
  all_goals
    simp only [integerRow.eq_def, predicateRow.eq_def, bitRow.eq_def, packedRow.eq_def, pairRegRow.eq_def, uniformRow.eq_def,
      floatRow.eq_def, convertRow.eq_def, longImmRow.eq_def, controlRow.eq_def, crossRow.eq_def, accessRow.eq_def,
      bufferRow.eq_def, matrixRow.eq_def, copyRow.eq_def, barrierRow.eq_def, systemRow.eq_def] at h
    split at h <;> cases h <;> rfl

/-- Of the queue words, the two calls to Rowan ask for privilege. -/
theorem call_of_queueRow {i : Instr} {r : WordRow} (h : queueRow i = some r) {s : State} (privileged : (r.info s).privileged = true) :
    ∃ g d a b, i = .rcall g d a b ∨ i = .fqack g d a b := by
  unfold queueRow at h
  split at h <;> cases h <;> cases privileged
  · exact ⟨_, _, _, _, .inl rfl⟩
  · exact ⟨_, _, _, _, .inr rfl⟩

theorem call_of_wordRow {i : Instr} {r : WordRow} (h : wordRow i = some r) {s : State} (privileged : (r.info s).privileged = true) :
    ∃ g d a b, i = .rcall g d a b ∨ i = .fqack g d a b := by
  obtain ⟨row, mem, h⟩ := exists_of_firstSome h
  have : row = pairWordRow ∨ row = queueRow ∨ row ∈ unprivilegedTables := by
    simp only [unprivilegedTables, List.mem_cons, List.not_mem_nil, or_false] at mem ⊢
    tauto
  obtain rfl | rfl | mem := this
  · obtain ⟨halves, -, rfl⟩ := Option.map_eq_some_iff.1 h
    cases privileged
  · exact call_of_queueRow h privileged
  · cases (not_privileged_of_unprivilegedTables mem h).symm.trans privileged

/-- Settles O24: the check comes before any rule of the word's own; and no other row asks for it. -/
theorem privilegeChecked : Obligations.PrivilegeChecked := by
  refine ⟨fun i g d a b call s w l word without => ?_, fun i r h s => call_of_wordRow h⟩
  obtain ⟨r, found, asks⟩ : ∃ r, queueRow i = some r ∧ (r.info s).privileged = true := by
    obtain rfl | rfl := call <;> exact ⟨_, rfl, rfl⟩
  obtain ⟨own, run⟩ := runWord_of_queueRow found s
  exact trapsAt_of_raiseTraps (issuedSet_ne_nil word.chosen) (issuedSet_nodup word.chosen)
    (run.trans (runWord_unprivileged own word asks without))

/-! ### Software traps and the reserved opcode (R102, R103, R209) -/

/-- The traps that an issuing word's own part asks for are raised as it issues. -/
theorem exec_of_traps {i : Instr} {s : State} {info : WInfo} {w : Nat} {l : List Nat} {own : Nat → List Nat → List Nat → Own}
    {traps : List (Nat × TrapInfo)} (issues : Issues s info w l) (acts : actingIn s info.guard l ≠ [])
    (run : exec i s = runWord info own s) (asks : own w l (actingIn s info.guard l) = .traps traps)
    (some' : traps ≠ []) :
    exec i s = .next (raiseTraps (chargeIssue s s w) w traps) := by
  rw [run, runWord_of_issues own issues, if_neg acts, asks]
  exact if_neg (by rwa [List.isEmpty_iff])

/-- Settles O21: each raises its traps as it issues, and `trapsAt_of_raiseTraps` says what that leaves. -/
theorem trapsTaken : Obligations.TrapsTaken := by
  intro i s w traps word
  cases word with
  | trap g a s w l issues acts =>
    exact trapsAt_of_raiseTraps acts ((issuedSet_nodup issues.chosen).filter _)
      (exec_of_traps issues acts (by rw [exec_trap, execTrap]) rfl (by simpa using acts))
  | ebrk g s w l issues acts =>
    exact trapsAt_of_raiseTraps acts ((issuedSet_nodup issues.chosen).filter _)
      (exec_of_traps issues acts (by rw [exec_ebrk, execEbrk]) rfl (by simpa using acts))
  | illegalOpcode x s w l issues =>
    have word : Chosen s w l := ⟨issues.chosen, issues.windows, issues.matrix⟩
    refine trapsAt_of_raiseTraps (issuedSet_ne_nil issues.chosen) (issuedSet_nodup issues.chosen) ?_
    rw [exec_illegalOpcode, execIllegalOpcode, decodeTrap, issues.chosen]
    exact if_neg word.passes

end Sys2Proof.Machine
end

section
/-! A step runs the word that it fetches, and what a step adds to its effect (R44, R45, R81, R102, R178, R334). -/
namespace Sys2Proof.Machine
-- One declaration at a time: each more thread of the compiler takes a stack out of the same memory.
set_option Elab.async false

section
variable {s0 s : State}

/-- A step is what its turn does, noted, once the clock has settled. -/
theorem StepsFrom.step_eq (from' : StepsFrom s0 s) : step s0 = stepAt s := by
  have settles : settleClock s0 = s := by
    rw [from', settleClock]
    simp
  rw [step, settles]

/-! ### A warp's word (R81, R102, R178) -/

theorem fetchWarp_of_fetches {w : Nat} {l : List Nat} {s1 : State} {x : W64} (chosen : issuedSet s = some (w, l))
    (allowed : ∀ t ∈ l, (getTh s t).denied = false) (fetches : Fetches s w l s1 x) : fetchWarp s = .word s1 x := by
  have clear : ¬ (!(l.filter fun t => (getTh s t).denied).isEmpty) = true := by
    simpa [List.filter_eq_nil_iff] using allowed
  unfold fetchWarp
  rw [chosen]
  refine (if_neg clear).trans ?_
  cases fetches with
  | held _ has => rw [has]
  | page e pa none' hit exists' backed sound =>
    have window : ¬ (inWindow (fwdPa s pa) && !windowBacked s (fwdPa s pa)) = true := by simpa using backed
    rw [none', hit]
    dsimp only
    rw [exists', if_neg (by simp), if_neg window, sound.1, sound.2]
    rfl

theorem turn_of_issuedSet {x : Nat × List Nat} (chosen : issuedSet s = some x) : ∃ c ws m, s.turn = .warp c ws m := by
  unfold issuedSet at chosen
  split at chosen
  case h_1 c ws m turn => exact ⟨c, ws, m, turn⟩
  case h_2 => cases chosen

theorem stepAt_warp {w : Nat} {l : List Nat} (chosen : issuedSet s = some (w, l)) : stepAt s = noting s (stepWarp s) := by
  obtain ⟨c, ws, m, turn⟩ := turn_of_issuedSet chosen
  rw [stepAt, turn]

theorem warpStepsRun : WarpStepsRun := by
  intro s0 s w l s1 x from' chosen allowed fetches
  rw [from'.step_eq, stepAt_warp chosen, stepWarp, fetchWarp_of_fetches chosen allowed fetches]
  refine ⟨fun i word => ?_, fun word => ?_, fun word => ?_, fun word => ?_⟩ <;> dsimp only <;> rw [word] <;> rfl

/-! ### A general core's word (R334, R394) -/

theorem hartStepsRun : HartStepsRun := by
  intro s0 s h s1 s2 e pa x from' turn ready trans exists' backed sound after word
  have window : ¬ ((inWindow pa = true ∧ (!windowBacked s1 pa) = true) ∨ dataBad s1 pa 4 e.key e.ver = true) := by
    simpa [sound] using backed
  have fetched : fetchHart s h = .ok s2 (readBytes s2 pa 4) := by
    rw [fetchHart, trans]
    dsimp only
    rw [exists', if_neg (by simp), if_neg window, after]
  rw [from'.step_eq, stepAt, turn]
  dsimp only
  rw [stepHart, ready, if_neg (by simp), fetched]
  dsimp only
  rw [← word]
  refine ⟨fun i found => ?_, fun found => ?_⟩ <;> rw [found]

/-! ### A step in which no word is chosen -/

theorem stepAt_idle (turn : s.turn = .idle) : stepAt s = noting s (stepIdle s) := by rw [stepAt, turn]

theorem stepIdle_input {i : Instr} {rest : List Instr} (inbox : s.inbox = i :: rest) :
    stepIdle s = orWaits s (exec i { s with inbox := rest, n := s.n + 1 }) := by
  rw [stepIdle, inbox]
  rfl

theorem stepIdle_due {d : Due} (inbox : s.inbox = []) (due : dueEvent s = some d) : stepIdle s = orWaits s (stepDue s d) := by
  rw [stepIdle, inbox]
  dsimp only
  rw [due]
  rfl

theorem stepIdle_free (inbox : s.inbox = []) (due : dueEvent s = none) : stepIdle s = stepFree s := by
  rw [stepIdle, inbox]
  dsimp only
  rw [due]
  exact ite_self _

theorem idleStepsRun : IdleStepsRun := by
  refine ⟨fun s0 s i rest from' turn inbox => ?_, fun s0 s s1 from' turn inbox after => ?_, fun s0 s from' turn inbox due => ?_,
    fun s s1 after => ?_⟩
  · rw [from'.step_eq, stepAt_idle turn, stepIdle_input inbox]
  · subst after
    have runs : ∀ d, dueEvent s = some d → step s0 = noting s (orWaits s (stepDue s d)) := fun d due => by
      rw [from'.step_eq, stepAt_idle turn, stepIdle_due inbox due]
    exact ⟨runs _, runs _, runs _, fun _ => runs _, fun _ => runs _, runs _, fun _ => runs _, fun _ => runs _, fun _ => runs _⟩
  · rw [from'.step_eq, stepAt_idle turn, stepIdle_free inbox due]
  · subst after
    rw [stepFree]
    refine ite_congr ?_ (fun _ => rfl) fun _ => rfl
    simp [Option.isSome_iff_ne_none]

/-! ### What a step adds to its effect (R44, R45, R120, R422) -/

/-- A map over the values of a table, looked up. -/
theorem smFind?_map_key {α : Type} (f : Nat → α → α) (m : SMap α) (k : Nat) :
    smFind? (m.map fun x => (x.1, f x.1 x.2)) k = (smFind? m k).map (f k) := by
  induction m with
  | nil => rfl
  | cons x m ih =>
    by_cases here : k = x.1
    · subst here; simp [smFind?]
    · simpa [smFind?, here] using ih

theorem smGet_map_key {α : Type} (d : α) (f : Nat → α → α) (m : SMap α) (k : Nat) :
    smGet d (m.map fun x => (x.1, f x.1 x.2)) k = if (smFind? m k).isSome then f k (smGet d m k) else d := by
  rw [smGet, smFind?_map_key, smGet]
  cases smFind? m k <;> rfl

theorem smGet_of_absent {α : Type} {d : α} {m : SMap α} {k : Nat} (absent : ¬ (smFind? m k).isSome) : smGet d m k = d := by
  rw [smGet, Option.not_isSome_iff_eq_none.1 absent]
  rfl

theorem noteThread_eq {s' : State} {t : Nat} {x : Thread} : { noteThread s s' t x with rdirty := x.rdirty } =
    if threadReady s' t = true ∧ threadReady s t = false then { x with waitCount := 0 } else x := by
  unfold noteThread
  by_cases gained : threadReady s' t = true ∧ threadReady s t = false
  · by_cases zero : x.waitCount = 0
    · simp [gained, zero]
    · simp [gained, zero]
  · have : ¬ (x.waitCount ≠ 0 ∧ threadReady s' t ∧ !threadReady s t) := by simp_all
    rw [if_neg gained, if_neg this]

theorem noteWarp_eq {s' : State} {w : Nat} {x : Warp} : { noteWarp s s' w x with sdirty := x.sdirty } =
    if readyThreads s w = [] ∧ readyThreads s' w ≠ [] then { x with since := s'.n } else x := by
  unfold noteWarp
  by_cases gained : readyThreads s w = [] ∧ readyThreads s' w ≠ []
  · simp [gained]
  · have : ¬ ((readyThreads s w).isEmpty ∧ !(readyThreads s' w).isEmpty) := by simpa using gained
    simp only [if_neg gained, if_neg this]

/-- A warp without a bind record has no ready thread. -/
theorem readyThreads_of_unbound {w : Nat} (unbound : getWarp s w = {}) : readyThreads s w = [] := by
  refine List.filter_eq_nil_iff.2 fun t mem => ?_
  obtain ⟨j, small, rfl⟩ := List.mem_map.1 mem
  have here : warpOf (w * 32 + j) = w := by
    rw [List.mem_range] at small
    unfold warpOf
    omega
  rw [threadReady, here, unbound]
  simp [bindV]

theorem readinessNoted : ReadinessNoted := by
  refine ⟨fun s s' free => if_neg (by simp [free]), fun s s' held => if_pos held, fun s s' => ⟨rfl, fun t => ?_, fun w => ?_,
    fun k => ?_, fun c => ?_⟩⟩
  · have got : getTh (noteReady s s') t = if (smFind? s'.threads t).isSome then noteThread s s' t (getTh s' t) else {} :=
      smGet_map_key (α := Thread) {} (noteThread s s') s'.threads t
    rw [got]
    split_ifs with present gained gained
    · rw [noteThread_eq, if_pos gained]
    · rw [noteThread_eq, if_neg gained]
    · rw [getTh, smGet_of_absent present]
    · rw [getTh, smGet_of_absent present]
  · have got : getWarp (noteReady s s') w = if (smFind? s'.warps w).isSome then noteWarp s s' w (getWarp s' w) else {} :=
      smGet_map_key (α := Warp) {} (noteWarp s s') s'.warps w
    rw [got]
    split_ifs with present gained gained
    · rw [noteWarp_eq, if_pos gained]
    · rw [noteWarp_eq, if_neg gained]
    · exact absurd (readyThreads_of_unbound (smGet_of_absent present)) gained.2
    · rw [getWarp, smGet_of_absent present]
  · have got : getTeam (noteReady s s') k = if (smFind? s'.teams k).isSome then noteTeam s k (getTeam s' k) else {} :=
      smGet_map_key (α := Team) {} (noteTeam s) s'.teams k
    rw [got]
    split_ifs with present
    · rfl
    · rw [getTeam, smGet_of_absent present]
  · have got : getCore (noteReady s s') c = if (smFind? s'.cores c).isSome then noteCore s s' c (getCore s' c) else {} :=
      smGet_map_key (α := Core) {} (noteCore s s') s'.cores c
    rw [got]
    split_ifs with present
    · rfl
    · rw [getCore, smGet_of_absent present]

/-- Settles O51, kind of step by kind of step. -/
theorem stepsRunTheirWords : Obligations.StepsRunTheirWords :=
  ⟨warpStepsRun, hartStepsRun, idleStepsRun, readinessNoted⟩

end
end Sys2Proof.Machine
end

section
/-! Words whose acting threads act one after another, and the queue words (R211 to R213, R331, R355 to R357). -/
namespace Sys2Proof.Machine
-- One declaration at a time: each more thread of the compiler takes a stack out of the same memory.
set_option Elab.async false

/-! ### Words whose threads act one after another -/

/-- The threads of a list one after another, each on the state that those before it have left; none where one of them fails. -/
def lanesOf {β : Type} (one : State → Nat → Option (State × β)) : State → List Nat → Option (State × List (Nat × β))
  | s, [] => some (s, [])
  | s, t :: ts =>
    match one s t with
    | some (s1, b) => (lanesOf one s1 ts).map fun x => (x.1, (t, b) :: x.2)
    | none => none

section
variable {β : Type} {one : State → Nat → Option (State × β)}

theorem lanesOf_cons_eq_some {s s' : State} {t : Nat} {ts : List Nat} {items : List (Nat × β)}
    (done : lanesOf one s (t :: ts) = some (s', items)) :
    ∃ s1 b rest, one s t = some (s1, b) ∧ lanesOf one s1 ts = some (s', rest) ∧ items = (t, b) :: rest := by
  rw [lanesOf] at done
  split at done
  case h_2 => cases done
  case h_1 s1 b found =>
    obtain ⟨⟨s2, rest⟩, tail, eq⟩ := Option.map_eq_some_iff.1 done
    cases eq
    exact ⟨s1, b, rest, found, tail, rfl⟩

theorem keys_of_lanesOf {s s' : State} {ts : List Nat} {items : List (Nat × β)} (done : lanesOf one s ts = some (s', items)) :
    items.map (·.1) = ts := by
  induction ts generalizing s items with
  | nil => cases done; rfl
  | cons t ts ih =>
    obtain ⟨s1, b, rest, -, tail, rfl⟩ := lanesOf_cons_eq_some done
    rw [List.map_cons, ih tail]

/-- A fold that does in each thread what `one` does makes what `lanesOf` lists. -/
theorem foldl_of_lanesOf {lane : State × List (Nat × Eff) → Nat → State × List (Nat × Eff)} {eff : Nat → β → Eff} {ts : List Nat}
    (agrees : ∀ t ∈ ts, ∀ s effs s1 b, one s t = some (s1, b) → lane (s, effs) t = (s1, effs ++ [(t, eff t b)]))
    {s s' : State} {items : List (Nat × β)} (done : lanesOf one s ts = some (s', items)) (effs : List (Nat × Eff)) :
    ts.foldl lane (s, effs) = (s', effs ++ items.map fun x => (x.1, eff x.1 x.2)) := by
  induction ts generalizing s items effs with
  | nil => cases done; simp
  | cons t ts ih =>
    obtain ⟨s1, b, rest, found, tail, rfl⟩ := lanesOf_cons_eq_some done
    rw [List.foldl_cons, agrees t List.mem_cons_self _ _ _ _ found,
      ih (fun u mem => agrees u (List.mem_cons_of_mem _ mem)) tail]
    simp
end

theorem smFind?_isSome_iff {β : Type} (items : SMap β) (t : Nat) : (smFind? items t).isSome ↔ t ∈ items.map (·.1) := by
  induction items with
  | nil => simp
  | cons x items ih =>
    obtain ⟨u, b⟩ := x
    by_cases here : t = u
    · simp [here]
    · rw [smFind?_cons, if_neg here, ih, List.map_cons, List.mem_cons, or_iff_right here]

theorem effOf_items {β : Type} (eff : Nat → β → Eff) (items : SMap β) (t : Nat) :
    effOf (items.map fun x => (x.1, eff x.1 x.2)) t = ((smFind? items t).map (eff t)).getD {} := by
  induction items with
  | nil => rfl
  | cons x items ih =>
    obtain ⟨u, b⟩ := x
    by_cases here : t = u
    · subst here; simp [effOf]
    · simpa [effOf, here] using ih

/-- A word whose acting threads act one after another completes with what each of them has done. -/
theorem completes_lanes {β : Type} {i : Instr} {r : WordRow} {s : State} {w : Nat} {l : List Nat}
    {own : Nat → List Nat → List Nat → Own} {one : State → Nat → Option (State × β)}
    {lane : State × List (Nat × Eff) → Nat → State × List (Nat × Eff)} (eff : Nat → β → Eff)
    (issues : Issues s (r.info s) w l) (run : exec i s = runWord (r.info s) own s)
    (goes : r.able s w l (actingIn s (r.info s).guard l) → own w l (actingIn s (r.info s).guard l) =
      .go ((actingIn s (r.info s).guard l).foldl lane (s, [])).1 ((actingIn s (r.info s).guard l).foldl lane (s, [])).2)
    (agrees : r.able s w l (actingIn s (r.info s).guard l) → ∀ t ∈ actingIn s (r.info s).guard l, ∀ s effs s1 b,
      one s t = some (s1, b) → lane (s, effs) t = (s1, effs ++ [(t, eff t b)]))
    (row : r.able s w l (actingIn s (r.info s).guard l) → ∃ s1 items,
      lanesOf one s (actingIn s (r.info s).guard l) = some (s1, items) ∧ r.makes s w l (actingIn s (r.info s).guard l) = s1 ∧
        ∀ t b, smFind? items t = some b → r.out s w l (actingIn s (r.info s).guard l) t = eff t b)
    (preds : ∀ a t, (r.out s w l a t).p = []) : CompletesAt i r s w l := by
  refine completes_at issues run (fun _ able => ?_) fun a t x mem => by rw [preds] at mem; cases mem
  obtain ⟨s1, items, done, makes, out⟩ := row able
  refine ⟨items.map fun x => (x.1, eff x.1 x.2), ?_, fun t mem => ?_⟩
  · rw [goes able, foldl_of_lanesOf (agrees able) done, makes, List.nil_append]
  · rw [effOf_items]
    have acts : (smFind? items t).isSome ↔ rdGuard s (r.info s).guard t = true := by
      rw [smFind?_isSome_iff, keys_of_lanesOf done, actingIn, List.mem_filter, and_iff_right mem]
    split_ifs with guarded
    · obtain ⟨b, found⟩ := Option.isSome_iff_exists.1 (acts.2 guarded)
      rw [found, out t b found]
      rfl
    · rw [Option.not_isSome_iff_eq_none.1 (mt acts.1 guarded)]
      rfl

/-! ### deq (R331) -/

/-- A thread's `deq`, where it takes an item. -/
def deqItem (va : Nat → Nat) (s : State) (t : Nat) : Option (State × List Byte) :=
  match deqTry s t (va t) with
  | .done s1 bs => some (s1, bs)
  | _ => none

theorem deqItem_eq_some {va : Nat → Nat} {s s1 : State} {t : Nat} {bs : List Byte} (h : deqItem va s t = some (s1, bs)) :
    deqTry s t (va t) = .done s1 bs := by
  unfold deqItem at h
  split at h <;> cases h
  assumption

theorem deqLanes_eq (va : Nat → Nat) (s : State) (ts : List Nat) : deqLanes va s ts = lanesOf (deqItem va) s ts := by
  induction ts generalizing s with
  | nil => rfl
  | cons t ts ih =>
    rw [deqLanes, lanesOf, deqItem]
    cases deqTry s t (va t) <;> simp [ih]

theorem deq_completes {g : Guard} {d : WOct} {a : Src64} {r : WordRow} (found : queueRow (.deq g d a) = some r) {s : State} {w : Nat}
    {l : List Nat} (issues : Issues s (r.info s) w l) : CompletesAt (.deq g d a) r s w l := by
  cases found
  refine completes_lanes (own := ?own) (lane := ?lane) (one := deqItem fun t => (rd64 s t a).toNat)
    (fun _ bs => { w := itemRegs (8 * d.toNat) bs }) issues ?run ?goes ?agrees ?row fun _ _ => rfl
  case run => rw [exec_deq, execDeq]
  case goes =>
    intro able
    refine (if_resolved able.1 _ _).trans ?_
    rfl
  case agrees =>
    intro _ t _ s' effs s1 b taken
    simp only [deqItem_eq_some taken]
  case row =>
    rintro ⟨-, able⟩
    obtain ⟨⟨s1, items⟩, done⟩ := Option.isSome_iff_exists.1 able
    have lanes := done
    rw [deqLanes_eq] at lanes
    refine ⟨s1, items, lanes, by simp only [done]; rfl, fun t b taken => ?_⟩
    simp only [done, Option.getD_some, smGet, taken]

/-! ### svc (R211, R333) -/

/-- A thread's request, where it is posted at once. -/
def svcPosted (p : Nat) (va : Nat → Nat) (func : Nat → W32) (s : State) (t : Nat) : Option (State × Nat) :=
  if svcBuffer s t (va t) && (getPart s p).svcWait.isEmpty then svcPostTo s p t (va t) (func t) else none

theorem svcLanes_eq (p : Nat) (va : Nat → Nat) (func : Nat → W32) (s : State) (ts : List Nat) :
    svcLanes p va func s ts = lanesOf (svcPosted p va func) s ts := by
  induction ts generalizing s with
  | nil => rfl
  | cons t ts ih =>
    rw [svcLanes, lanesOf, svcPosted]
    split_ifs
    · cases svcPostTo s p t (va t) (func t) <;> simp [ih]
    · rfl

theorem hit_of_svcBuffer {s : State} {t va : Nat} (buffer : svcBuffer s t va = true) : va % 256 = 0 ∧
    ∃ e pa, thTrans s t va .r = .hit e pa ∧ e.mt = 0 ∧ potState (potEntry s (potGov s (pa / 4096))) = psSharedRw := by
  obtain ⟨aligned, page⟩ := (Bool.and_eq_true ..).mp buffer
  refine ⟨of_decide_eq_true aligned, ?_⟩
  split at page
  case h_1 e pa found => exact ⟨e, pa, found, by simpa using page⟩
  case h_2 => cases page

theorem svcq_of_svcPostTo {s : State} {p t buf : Nat} {func : W32} {x : State × Nat} (posted : svcPostTo s p t buf func = some x) :
    (getPart s p).svcq.isNone = false := by
  unfold svcPostTo at posted
  dsimp only at posted
  split at posted
  case h_1 => cases posted
  case h_2 found => rw [found]; rfl

theorem svc_completes {g : Guard} {d : WReg} {a : Src64} {b : Src} {r : WordRow} (found : queueRow (.svc g d a b) = some r) {s : State}
    {w : Nat} {l : List Nat} (issues : Issues s (r.info s) w l) : CompletesAt (.svc g d a b) r s w l := by
  cases found
  refine completes_lanes (own := ?own) (lane := ?lane)
    (one := svcPosted (getTeam s (teamOfWarp s w)).part (fun t => (rd64 s t a).toNat) fun t => rd32 s t b)
    (fun t tag => { wait := some (.svc (some tag) d.toNat (rd64 s t a).toNat (rd32 s t b)) }) issues ?run ?goes ?agrees ?row
    fun _ _ => rfl
  case run => rw [exec_svc, execSvc]
  case goes =>
    rintro ⟨ready, -⟩
    have performed : ¬ ((actingIn s g l).any fun t => !resolved (getTh s t) || maintOpen s t) = true := by
      simpa using fun t acts => ⟨(ready t acts).1, (ready t acts).2.1⟩
    refine (if_neg performed).trans ((if_neg ?_).trans ?_)
    · simp only [Bool.not_eq_true, Bool.not_eq_false', List.isEmpty_iff, List.filterMap_eq_nil_iff]
      intro t acts
      simp [(ready t acts).2.2.2]
    · rfl
  case agrees =>
    rintro ⟨ready, -⟩ t acts s' effs s1 tag posted
    obtain ⟨-, -, plain, -⟩ := ready t acts
    unfold svcPosted at posted
    split_ifs at posted with free
    obtain ⟨buffer, first⟩ := (Bool.and_eq_true ..).mp free
    obtain ⟨aligned, e, pa, hit, mt, shared⟩ := hit_of_svcBuffer buffer
    simp [plain, aligned, svcq_of_svcPostTo posted, hit, mt, shared, first, posted]
  case row =>
    rintro ⟨-, able⟩
    obtain ⟨⟨s1, items⟩, done⟩ := Option.isSome_iff_exists.1 able
    have lanes := done
    rw [svcLanes_eq] at lanes
    refine ⟨s1, items, lanes, by simp only [done]; rfl, fun t b posted => ?_⟩
    simp only [done, Option.getD_some, posted]

/-! ### rcall (R212) -/

/-- A thread's call posted: its argument block, read through its home. -/
def callPosted (va func : Nat → Nat) (encl : Nat) (s : State) (t : Nat) : Option (State × Unit) :=
  (rcallBlock s t (va t)).map fun pa =>
    let s1 := meterLines (touchFor (coreOf t) s pa 64 false) pa 64
    ({ s1 with rowan := { s1.rowan with queue := s1.rowan.queue ++ [⟨t, func t, argWords s1 pa, va t, encl⟩] } }, ())

theorem rcallLanes_eq (va func : Nat → Nat) (encl : Nat) (s : State) (ts : List Nat) :
    rcallLanes va func encl s ts = (lanesOf (callPosted va func encl) s ts).map (·.1) := by
  induction ts generalizing s with
  | nil => rfl
  | cons t ts ih =>
    rw [rcallLanes, lanesOf, callPosted]
    cases rcallBlock s t (va t) <;> simp [ih, Function.comp_def]

theorem hit_of_rcallBlock {s : State} {t va pa : Nat} (block : rcallBlock s t va = some pa) : ∃ e pa0,
    thTrans s t va .r = .hit e pa0 ∧ fwdPa s pa0 = pa ∧ s.rowan.sleeping = false ∧ e.mt = 0 ∧ paOk pa = true ∧
      dataBad s pa 64 e.key e.ver = false ∧ (inWindow pa = true → windowBacked s pa = true) := by
  unfold rcallBlock at block
  split at block
  case h_2 => cases block
  case h_1 e pa0 found =>
    dsimp only at block
    split_ifs at block with sound
    cases block
    exact ⟨e, pa0, found, rfl, sound⟩

theorem rcall_completes {g : Guard} {d : WReg} {a : Src64} {b : Src} {r : WordRow} (found : queueRow (.rcall g d a b) = some r)
    {s : State} {w : Nat} {l : List Nat} (issues : Issues s (r.info s) w l) : CompletesAt (.rcall g d a b) r s w l := by
  cases found
  refine completes_lanes (own := ?own) (lane := ?lane)
    (one := callPosted (fun t => (rd64 s t a).toNat) (fun t => (rd32 s t b).toNat) (getTeam s (teamOfWarp s w)).encl)
    (fun _ _ => { wait := some (.rcall d.toNat) }) issues ?run ?goes ?agrees ?row fun _ _ => rfl
  case run => rw [exec_rcall, execRcall]
  case goes =>
    rintro ⟨ready, -⟩
    have performed : ¬ ((actingIn s g l).any fun t => !resolved (getTh s t) || maintOpen s t) = true := by
      simpa using fun t acts => ⟨(ready t acts).1, (ready t acts).2.1⟩
    refine (if_neg performed).trans ((if_neg ?_).trans ?_)
    · simp only [Bool.not_eq_true, Bool.not_eq_false', List.isEmpty_iff, List.filterMap_eq_nil_iff]
      intro t acts
      simp [(ready t acts).2.2.2.2.1]
    · rfl
  case agrees =>
    rintro ⟨ready, -⟩ t acts s' effs s1 ⟨⟩ posted
    obtain ⟨-, -, plain, aligned, -, func⟩ := ready t acts
    obtain ⟨pa, block, posted⟩ := Option.map_eq_some_iff.1 posted
    obtain ⟨e, pa0, hit, rfl, awake, mt, exists', sound, window⟩ := hit_of_rcallBlock block
    cases posted
    have closed : (inWindow (fwdPa s' pa0) && !windowBacked s' (fwdPa s' pa0)) = false := by simpa using window
    have known : (rowanFuncs.any fun f => decide (f = (rd32 s t b).toNat)) = true := by simpa using func
    simp only [plain, aligned, hit, awake, mt, exists', sound, closed, known, Option.isSome_none, Bool.false_eq_true, if_false, ne_eq,
      not_true_eq_false, decide_false, Bool.not_true, Bool.or_false]
    rfl
  case row =>
    rintro ⟨-, able⟩
    rw [rcallLanes_eq, Option.isSome_map] at able
    obtain ⟨⟨s1, items⟩, done⟩ := Option.isSome_iff_exists.1 able
    exact ⟨s1, items, done, by simp only [rcallLanes_eq, done]; rfl, fun _ _ _ => rfl⟩

/-! ### fqack (R213) -/

theorem lanesOf_fqackOne (a : Nat → W64) (b : Nat → W32) (s : State) (ts : List Nat) :
    lanesOf (fun s t => some (fqackOne s (a t) (b t))) s ts = some (fqackLanes a b s ts) := by
  induction ts generalizing s with
  | nil => rfl
  | cons t ts ih => simp [lanesOf, fqackLanes, ih]

theorem fqack_completes {g : Guard} {d : WReg} {a : Src64} {b : Src} {r : WordRow} (found : queueRow (.fqack g d a b) = some r)
    {s : State} {w : Nat} {l : List Nat} (issues : Issues s (r.info s) w l) : CompletesAt (.fqack g d a b) r s w l := by
  cases found
  refine completes_lanes (own := ?own) (lane := ?lane) (one := fun s' t => some (fqackOne s' (rd64 s t a) (rd32 s t b)))
    (fun _ v => { w := [(d.toNat, v)] }) issues ?run ?goes ?agrees ?row fun _ _ => rfl
  case run => rw [exec_fqack, execFqack]
  case goes =>
    intro ready
    have performed : ¬ ((actingIn s g l).any fun t => !resolved (getTh s t) || maintOpen s t) = true := by
      simpa using fun t acts => ready t acts
    refine (if_neg performed).trans ?_
    rfl
  case agrees =>
    intro _ t _ s' effs s1 v acked
    rw [Option.some.inj acked]
  case row =>
    refine fun _ => ⟨_, _, lanesOf_fqackOne (fun t => rd64 s t a) (fun t => rd32 s t b) s _, rfl, fun t v acked => ?_⟩
    simp only [smGet, acked, Option.getD_some]

/-! ### qsub and qcancel (R355 to R357) -/

theorem qsub_completes {h : Hdr} {d : SReg} {a b : USrc} {r : WordRow} (found : queueRow (.qsub h d a b) = some r) {s : State}
    {w : Nat} {l : List Nat} (issues : Issues s (r.info s) w l) : CompletesAt (.qsub h d a b) r s w l := by
  cases found
  refine completes_makes (own := ?own) issues ?run (fun _ able => ?_) fun _ _ => rfl
  case run => rw [exec_qsub, execQsub]; rfl
  obtain ⟨stack, aligned, ready, ph, phys, ring, header, packet, ringOf, sound, fits, free⟩ := able
  refine (if_neg (by omega)).trans ((if_resolved ready _ _).trans ?_)
  simp only [header, Option.getD_some, packet, ringOf]
  refine (if_neg (by simp [sound, fits])).trans ((if_neg (by simp [free])).trans ?_)
  split_ifs <;> rfl

theorem qcancel_completes {h : Hdr} {a : USrc} {r : WordRow} (found : queueRow (.qcancel h a) = some r) {s : State} {w : Nat}
    {l : List Nat} (issues : Issues s (r.info s) w l) : CompletesAt (.qcancel h a) r s w l := by
  cases found
  refine completes_makes (own := ?own) issues ?run (fun _ _ => ?goes) fun _ _ => rfl
  case run => rw [exec_qcancel, execQcancel]; rfl
  case goes => rfl

/-- Settles O16: `enq` acts in each thread by itself, `qsub` and `qcancel` beyond their threads, and in the other words the threads act
one after another. -/
theorem queueWords : Obligations.QueueWords := by
  intro i r found s w l issues
  have h := found
  unfold queueRow at h
  split at h <;> cases h
  · exact deq_completes found issues
  · refine ThreadWord.completes ?_ issues
    exact ⟨fun _ => rfl, fun _ _ _ _ => rfl, fun _ _ _ _ => rfl, fun _ _ _ mem => nomatch mem⟩
  · exact svc_completes found issues
  · exact rcall_completes found issues
  · exact fqack_completes found issues
  · exact qsub_completes found issues
  · exact qcancel_completes found issues

end Sys2Proof.Machine
end

section
/-! Integer results in exact arithmetic (R134 to R136, R141). -/
namespace Sys2Proof.Machine
-- One declaration at a time: each more thread of the compiler takes a stack out of the same memory.
set_option Elab.async false

/-! ### From a completed word to its results -/

/-- The flags that threads raise together: `fl` if some thread raises it. -/
theorem foldl_or_flag (fl : W32) (set : Nat → Bool) (l : List Nat) :
    ∀ f : W32, l.foldl (fun f t => f ||| if set t then fl else 0) f = f ||| if l.any set then fl else 0 := by
  induction l with
  | nil => exact fun f => BitVec.or_zero.symm
  | cons t l ih =>
    intro f
    rw [List.foldl_cons, ih, List.any_cons, BitVec.or_assoc]
    cases set t <;> cases l.any set <;> simp

/-- A completed word's results, where each acting thread writes `v` to register `d` and raises `fl` where `set` says so. -/
theorem WordDone.results {s s' : State} {info : WInfo} {w d : Nat} {l acting : List Nat} {out : Nat → Eff} {v : Nat → W32} {fl : W32}
    {set : Nat → Bool} (done : WordDone s s s' info w l acting out)
    (effect : ∀ t ∈ acting, out t = { w := [(d, v t)], fl := if set t then fl else 0 }) :
    Results s s' w d acting (fun t x => x = v t) fl set := by
  refine ⟨fun t acts => ?_, ?_⟩
  · rw [done.regs t acts, effect t acts]
    simp
  · have unfolded : acting.flatMap (fun t => (out t).amax) = [] :=
      List.flatMap_eq_nil_iff.2 fun t acts => by rw [effect t acts]
    have raised : acting.foldl (fun f t => f ||| (out t).fl) 0 = if acting.any set then fl else 0 := by
      rw [← BitVec.zero_or (x := if acting.any set then fl else 0), ← foldl_or_flag]
      exact List.foldl_ext _ _ _ fun f t acts => by rw [effect t acts]
    have flags := congrArg Prod.snd done.flags
    rwa [unfolded, raised] at flags

/-- The lines that such effects write: at most that of FLAGS. -/
theorem effLines_flags {s : State} {w d : Nat} {acting : List Nat} {out : Nat → Eff} {v : Nat → W32} {fl : W32} {set : Nat → Bool}
    (effect : ∀ t, out t = { w := [(d, v t)], fl := if set t then fl else 0 }) (here : ∀ t, set t = true → FlagsHere s w)
    {x : RegLine} (mem : x ∈ effLines w acting out) : linePresent s x = true := by
  obtain ⟨⟨t, acts, raised⟩, rfl⟩ : (∃ t ∈ acting, set t = true ∧ fl ≠ 0) ∧ x = .sr w 16 := by
    simpa [effLines, effect] using mem
  exact here t raised.1

/-- The results of a word that acts in each thread by itself, writes `v` to register `d` and raises `fl` where `set` says so, whether
or not any thread acts; one that can raise it needs the line of FLAGS. -/
theorem ThreadWord.results {i : Instr} {r : WordRow} (word : ThreadWord i r) {s : State} {w d : Nat} {l : List Nat}
    (issues : Issues s (r.info s) w l) {v : Nat → W32} {fl : W32} {set : Nat → Bool}
    (effect : ∀ t, r.out s 0 [] [] t = { w := [(d, v t)], fl := if set t then fl else 0 })
    (here : ∀ t, set t = true → FlagsHere s w) (able : ∀ acting, r.able s w l acting) :
    ∃ s', exec i s = .next s' ∧ Results s s' w d (actingIn s (r.info s).guard l) (fun t x => x = v t) fl set := by
  obtain ⟨acts, idles⟩ := word.completes issues
  rw [word.own, word.still] at acts
  by_cases idle : actingIn s (r.info s).guard l = []
  · obtain ⟨s', run, done⟩ := idles idle
    rw [idle]
    exact ⟨s', run, done.results (by simp)⟩
  · obtain ⟨s', run, done⟩ := acts idle (able _) fun x mem => effLines_flags effect here mem
    exact ⟨s', run, done.results fun t _ => effect t⟩

theorem Results.imp {s s' : State} {w d : Nat} {acting : List Nat} {u v : Nat → W32 → Prop} {fl : W32} {set set' : Nat → Bool}
    (results : Results s s' w d acting u fl set) (allows : ∀ t x, u t x → v t x) (same : ∀ t, set t = set' t) :
    Results s s' w d acting v fl set' :=
  ⟨fun t acts => allows t _ (results.1 t acts), by rw [← funext same]; exact results.2⟩

/-! ### Saturating sums (R134) -/

theorem ival_truncInt {n : Nat} (pos : 0 < n) {ty : ITy} {v : Int} (low : ilo n ty ≤ v) (high : v ≤ ihi n ty) :
    ival ty (truncInt n v) = v := by
  cases ty with
  | s => exact BitVec.toInt_ofInt_eq_self pos low (Int.lt_of_le_sub_one high)
  | z =>
    have small : v < 2 ^ n := Int.lt_of_le_sub_one high
    simp only [ival, BitVec.toNat_ofInt, Int.natCast_pow, Nat.cast_ofNat, Int.emod_eq_of_lt low small, Int.toNat_of_nonneg low]

theorem satInt_eq {v lo hi : Int} (range : lo ≤ hi) : satInt v lo hi = min hi (max lo v) := by
  unfold satInt
  split_ifs <;> omega

theorem satInt_ne_iff {v lo hi : Int} (range : lo ≤ hi) : satInt v lo hi ≠ v ↔ v < lo ∨ hi < v := by
  rw [satInt_eq range]
  omega

theorem ilo_le_ihi (n : Nat) (ty : ITy) : ilo n ty ≤ ihi n ty := by
  have powers (k : Nat) : (0 : Int) < 2 ^ k := by positivity
  cases ty with
  | s => exact Int.le_sub_one_of_lt ((neg_neg_of_pos (powers _)).trans (powers _))
  | z => exact Int.le_sub_one_of_lt (powers n)

/-- A clamp writes the exact value clamped to the range of the type. -/
theorem ival_clampTo {n : Nat} (pos : 0 < n) (ty : ITy) (v : Int) :
    ival ty (clampTo n ty v).1 = min (ihi n ty) (max (ilo n ty) v) := by
  have range := ilo_le_ihi n ty
  unfold clampTo
  rw [satInt_eq range]
  exact ival_truncInt pos (by omega) (by omega)

theorem clampTo_changes {n : Nat} (ty : ITy) (v : Int) :
    (clampTo n ty v).2 = (decide (v < ilo n ty) || decide (ihi n ty < v)) := by
  unfold clampTo
  rw [← Bool.decide_or, decide_eq_decide]
  exact satInt_ne_iff (ilo_le_ihi n ty)

/-! ### Quotients and remainders (R135) -/

theorem truncInt_ival {n : Nat} (ty : ITy) (x : BitVec n) : truncInt n (ival ty x) = x := by
  cases ty with
  | s => exact BitVec.ofInt_toInt
  | z => simp [ival]

/-- But for the one overflow, the truncated quotient is a value of the type. -/
theorem exists_ival_eq_tdiv {ty : ITy} {a b : W32} (fits : ¬ (ty = .s ∧ a = 0x80000000 ∧ b = 0xFFFFFFFF)) :
    ∃ q : W32, ival ty q = (ival ty a).tdiv (ival ty b) := by
  cases ty with
  | s => exact ⟨a.sdiv b, BitVec.toInt_sdiv_of_ne_or_ne a b (not_and_or.1 fun ⟨least, minusOne⟩ => fits ⟨rfl, least, minusOne⟩)⟩
  | z => exact ⟨a / b, (congrArg Nat.cast BitVec.toNat_udiv).trans (Int.ofNat_tdiv _ _)⟩

/-- The remainder of the truncated quotient is always a value of the type. -/
theorem exists_ival_eq_tmod (ty : ITy) (a b : W32) : ∃ r : W32, ival ty r = (ival ty a).tmod (ival ty b) := by
  cases ty with
  | s => exact ⟨a.srem b, BitVec.toInt_srem a b⟩
  | z => exact ⟨a % b, (congrArg Nat.cast BitVec.toNat_umod).trans (Int.ofNat_tmod _ _)⟩

/-- The two words of `divRem` are the quotient and the remainder of R135: the exact ones are values of the type, so the truncation keeps
them, but for -2^31 by -1, where it wraps. -/
theorem quotient_divRem (ty : ITy) (a b : W32) : Quotient ty a b (divRem ty a b).1 (divRem ty a b).2.1 := by
  unfold Quotient divRem
  split_ifs with zero overflow
  · exact ⟨rfl, rfl⟩
  · obtain ⟨rfl, rfl, rfl⟩ := overflow
    decide
  · obtain ⟨q, quotient⟩ := exists_ival_eq_tdiv overflow
    obtain ⟨r, remainder⟩ := exists_ival_eq_tmod ty a b
    rw [Int.tmod_def, mul_comm, ← quotient] at remainder
    simp only [← quotient, ← remainder, truncInt_ival, and_self]

/-! ### Absolute values (R136) -/

theorem toNat_abs_eq_natAbs_toInt {n : Nat} (x : BitVec n) : x.abs.toNat = x.toInt.natAbs := by
  have small := x.isLt
  rw [BitVec.toNat_abs, BitVec.toInt_eq_msb_cond]
  split_ifs <;> omega

/-- The least value of s32 is read from one word alone. -/
theorem toInt_eq_least {a : W32} : a.toInt = -2147483648 ↔ a = 0x80000000 :=
  BitVec.toInt_inj (y := 0x80000000)

/-- What `abs` writes and whether it saturates, in one case split. -/
theorem absW_eq (sat : Bool) (a : W32) :
    absW sat a = if sat ∧ a.toInt = -2147483648 then (0x7FFFFFFF, true) else (a.abs, false) := by
  simp only [toInt_eq_least]
  unfold absW
  by_cases least : a = 0x80000000
  · subst least
    cases sat <;> rfl
  · simp only [least, and_false, if_false, BitVec.abs_eq]

theorem absW_value (sat : Bool) (a : W32) :
    (absW sat a).1.toNat = if sat ∧ a.toInt = -2147483648 then 0x7FFFFFFF else a.toInt.natAbs := by
  rw [absW_eq]
  split_ifs
  · rfl
  · exact toNat_abs_eq_natAbs_toInt a

theorem absW_saturates (sat : Bool) (a : W32) : (absW sat a).2 = (sat && decide (a.toInt = -2147483648)) := by
  simp [absW_eq, apply_ite Prod.snd]

/-! ### Bit fields (R141) -/

/-- The mask of a field has the bits of its places. -/
theorem getLsbD_bfMask {b c : W32} {i : Nat} (low : i < 32) :
    (bfMask (fieldPos b) c).getLsbD i = decide (fieldPos b ≤ i ∧ i < fieldPos b + fieldLen b c) := by
  have mask : bfMask (fieldPos b) c = BitVec.ofNat 32 ((2 ^ fieldLen b c - 1) * 2 ^ fieldPos b) := rfl
  rw [mask, BitVec.getLsbD_ofNat, Nat.testBit_mul_two_pow, Nat.testBit_two_pow_sub_one, Bool.decide_and]
  by_cases starts : fieldPos b ≤ i
  · simp [low, starts, Nat.sub_lt_iff_lt_add' starts]
  · simp [starts]

theorem fieldPos_add_fieldLen_le (b c : W32) : fieldPos b + fieldLen b c ≤ 32 := by
  unfold fieldLen fieldPos
  omega

theorem getLsbD_bfxW {a b c : W32} {i : Nat} :
    (bfxW a b c).getLsbD i = (decide (i < fieldLen b c) && a.getLsbD (fieldPos b + i)) := by
  have inside := fieldPos_add_fieldLen_le b c
  have shift : bfxW a b c = (a &&& bfMask (fieldPos b) c) >>> fieldPos b := rfl
  rw [shift, BitVec.getLsbD_ushiftRight, BitVec.getLsbD_and]
  by_cases low : fieldPos b + i < 32
  · rw [getLsbD_bfMask low, Bool.and_comm]
    simp
  · rw [BitVec.getLsbD_of_ge a _ (by omega)]
    simp

theorem getLsbD_bfiW {d a b c : W32} {i : Nat} (low : i < 32) :
    (bfiW d a b c).getLsbD i =
      if fieldPos b ≤ i ∧ i < fieldPos b + fieldLen b c then a.getLsbD (i - fieldPos b) else d.getLsbD i := by
  have parts : bfiW d a b c = (d &&& ~~~bfMask (fieldPos b) c) ||| ((a <<< fieldPos b) &&& bfMask (fieldPos b) c) := rfl
  rw [parts, BitVec.getLsbD_or, BitVec.getLsbD_and, BitVec.getLsbD_and, BitVec.getLsbD_not, getLsbD_bfMask low,
    BitVec.getLsbD_shiftLeft]
  split_ifs with inside
  · simp [low, inside]
  · simp [low, inside]

/-! ### The four statements -/

/-- A saturating sum or difference by its row: the clamp of the exact one, and SAT where the clamp changes it. -/
theorem saturatingSums : SaturatingSums := by
  intro h ty minus d a b s w l issues here v lo hi
  have range : ilo 32 ty = lo ∧ ihi 32 ty = hi := by cases ty <;> exact ⟨rfl, rfl⟩
  have word : ThreadWord (if minus then .sub h (some ty) d a b else .add h (some ty) d a b)
      (rowW h.guard d [a, b] fun s t => satRes (addSat 32 (some ty) minus (rd32 s t a) (rd32 s t b))) := by
    cases minus <;> exact integerRow_threads rfl
  obtain ⟨s', run, results⟩ := word.results issues (v := fun t => (clampTo 32 ty (v t)).1) (fl := 1)
    (set := fun t => (clampTo 32 ty (v t)).2) (fun _ => rfl) (fun _ _ => here) fun _ => trivial
  refine ⟨s', run, results.imp (fun t x wrote => ?_) fun t => ?_⟩
  · rw [wrote, ival_clampTo (by decide), range.1, range.2]
  · rw [clampTo_changes, range.1, range.2]

/-- Settles O40: the two words act in each thread by itself, by the clamp of the exact result. -/
theorem saturatingArithmetic : Obligations.SaturatingArithmetic := saturatingSums

/-- Settles O41: both words act in each thread by itself, and `quotient_divRem` says what they write. -/
theorem divisionAndRemainder : Obligations.DivisionAndRemainder := by
  intro h ty d a b s w l issues here
  have quotients : ThreadWord (.div h ty d a b) _ := integerRow_threads rfl
  have remainders : ThreadWord (.rem h ty d a b) _ := integerRow_threads rfl
  obtain ⟨s1, run1, results1⟩ := quotients.results issues (fl := 4) (set := fun t => decide (rd32 s t b = 0)) (fun _ => rfl)
    (fun _ _ => here) fun _ => trivial
  obtain ⟨s2, run2, results2⟩ := remainders.results issues (fl := 4) (set := fun t => decide (rd32 s t b = 0)) (fun _ => rfl)
    (fun _ _ => here) fun _ => trivial
  refine ⟨s1, s2, run1, run2, fun t acts => ?_, results1.imp (fun _ _ _ => trivial) fun _ => rfl,
    results2.imp (fun _ _ _ => trivial) fun _ => rfl⟩
  rw [results1.1 t acts, results2.1 t acts]
  exact quotient_divRem ty _ _

/-- Settles O42: the word acts in each thread by itself, and SAT is raised where the value has no absolute value in the type. -/
theorem absoluteValue : Obligations.AbsoluteValue := by
  intro h sat d a s w l issues here
  have word : ThreadWord (.abs h sat d a) _ := integerRow_threads rfl
  obtain ⟨s', run, results⟩ := word.results issues (fl := 1) (set := fun t => (absW sat (rd32 s t a)).2) (fun _ => rfl)
    (fun _ _ => here) fun _ => trivial
  exact ⟨s', run, results.imp (fun t x wrote => by rw [wrote]; exact absW_value sat _) fun t => absW_saturates sat _⟩

theorem fieldExtracts : FieldExtracts := by
  intro h d a b c s w l issues
  have word : ThreadWord (.bfx h d a b c) _ := bitRow_threads rfl
  obtain ⟨s', run, results⟩ := word.results issues (fl := 0) (set := fun _ => false) (fun _ => rfl) nofun fun _ => trivial
  exact ⟨s', run, results.imp (fun t x wrote i _ => by rw [wrote]; exact getLsbD_bfxW) fun _ => rfl⟩

theorem fieldInserts : FieldInserts := by
  intro h d a b c s w l issues
  have word : ThreadWord (.bfi h d a b c) _ := bitRow_threads rfl
  obtain ⟨s', run, results⟩ := word.results issues (fl := 0) (set := fun _ => false) (fun _ => rfl) nofun fun _ => trivial
  exact ⟨s', run, results.imp (fun t x wrote i low => by rw [wrote]; exact getLsbD_bfiW low) fun _ => rfl⟩

/-- Settles O43, word by word. -/
theorem bitFields : Obligations.BitFields := ⟨fieldExtracts, fieldInserts⟩

end Sys2Proof.Machine
end

section
/-! Words whose acting threads read one another's lanes, and the word that ends a thread (R174, R183 to R189, R205, R317). -/
namespace Sys2Proof.Machine
-- One declaration at a time: each more thread of the compiler takes a stack out of the same memory.
set_option Elab.async false

/-! ### Cross-lane words (R183 to R189) -/

/-- A word whose effect in a thread may rest on every acting thread completes, if its own part is the row's for the warp. -/
theorem completes_warp {i : Instr} {r : WordRow}
    (run : ∀ s, exec i s = runWord (r.info s)
      (fun w l acting => .go (r.makes s w l acting) (acting.map fun t => (t, r.out s w l acting t))) s)
    (preds : ∀ s w l acting t, ∀ x ∈ (r.out s w l acting t).p, x.1 < 7) {s : State} {w : Nat} {l : List Nat}
    (issues : Issues s (r.info s) w l) : CompletesAt i r s w l :=
  completes_at issues (run s) (fun _ _ => ⟨_, rfl, fun _ mem => effOf_acting mem⟩) (preds s w l)

/-- A cross-lane word of one w destination completes. -/
theorem completes_rowX {i : Instr} {h : Hdr} {d : WReg} {srcs : List Src} {srcs64 : List Src64}
    {f : State → Nat → List Nat → Nat → W32 × W32} {preds : Bool}
    (run : ∀ s, exec i s = runWord ((rowX h d srcs srcs64 f preds).info s)
      (fun w l acting => .go s (acting.map fun t => (t, (rowX h d srcs srcs64 f preds).out s w l acting t))) s)
    {s : State} {w : Nat} {l : List Nat} (issues : Issues s ((rowX h d srcs srcs64 f preds).info s) w l) :
    CompletesAt i (rowX h d srcs srcs64 f preds) s w l :=
  completes_warp run (fun _ _ _ _ _ _ mem => nomatch mem) issues

/-- A cross-lane word of one s destination that raises no flag completes. -/
theorem completes_rowXU {i : Instr} {h : Hdr} {d : SReg} {srcs : List Src} {f : State → Nat → List Nat → W32} {preds : Bool}
    (run : ∀ s, exec i s = runWord ((rowXU h d srcs f (fun _ _ => 0) preds).info s)
      (fun w l acting => .go ((rowXU h d srcs f (fun _ _ => 0) preds).makes s w l acting) []) s)
    {s : State} {w : Nat} {l : List Nat} (issues : Issues s ((rowXU h d srcs f (fun _ _ => 0) preds).info s) w l) :
    CompletesAt i (rowXU h d srcs f (fun _ _ => 0) preds) s w l :=
  completes_makes issues (run s) (fun _ _ => rfl) (fun _ _ => rfl)

/-- `vote` gives every acting thread the one predicate that its form makes of the mask (R187). -/
theorem vote_completes {h : Hdr} {f : VoteForm} {p : PReg} {q : POp} {r : WordRow} (found : crossRow (.vote h f p q) = some r)
    {s : State} {w : Nat} {l : List Nat} (issues : Issues s (r.info s) w l) : CompletesAt (.vote h f p q) r s w l := by
  cases found
  refine completes_warp (fun s => ?_) (fun _ _ _ _ _ x mem => ?_) issues
  · rw [exec_vote]
    cases f <;> rfl
  · rw [List.mem_singleton.1 mem]
    exact p.isLt

/-- `match` compares the values of the acting threads, of either width (R189). -/
theorem matchLanes_completes {h : Hdr} {m : MatchMode} {d : WReg} {a : MatchSrc} {r : WordRow}
    (found : crossRow (.matchLanes h m d a) = some r) {s : State} {w : Nat} {l : List Nat} (issues : Issues s (r.info s) w l) :
    CompletesAt (.matchLanes h m d a) r s w l := by
  cases found
  refine completes_rowX (fun s => ?_) issues
  rw [exec_matchLanes]
  cases a <;> rfl

/-- Settles O11: a word of w destinations gives each acting thread a value of all of them; a uniform one writes its s register
before the commit, and of these `redux` alone raises flags in the threads. -/
theorem crossLaneWords : Obligations.CrossLaneWords := by
  intro i r found s w l issues
  have h := found
  unfold crossRow at h
  split at h <;> cases h
  case h_1 => exact completes_rowX (fun s => by rw [exec_shfl, execShfl]; rfl) issues
  case h_2 => exact completes_makes issues (by rw [exec_shfl, execShfl]) (fun _ _ => rfl) (fun _ _ => rfl)
  case h_3 => exact vote_completes found issues
  case h_4 | h_5 | h_6 => exact completes_rowX (fun s => by rw [exec_ballot, execBallot]; rfl) issues
  case h_7 | h_8 => exact completes_rowXU (fun s => by rw [exec_ballot, execBallot]; rfl) issues
  case h_9 => exact completes_rowX (fun s => by rw [exec_redux, execRedux]; rfl) issues
  case h_10 =>
    refine completes_warp (fun s => ?_) (fun _ _ _ _ _ _ mem => ?_) issues
    · rw [exec_redux, execRedux]
      rfl
    · cases mem
  case h_11 => exact completes_rowX (fun s => by rw [exec_scan, execScan]; rfl) issues
  case h_12 => exact matchLanes_completes found issues

/-! ### Words that end threads or handler states (R174, R205) -/

/-- What a word that ends threads or handler states answers: where it issues, its own part makes what the statement says and its
effects need no register line, what follows its commit follows the word done. -/
theorem endsAt_of_runWord {i : Instr} {info : WInfo} {makes : State → List Nat → State} {out : State → Nat → Eff}
    {post : State → Nat → State} {s : State} {w : Nat} {l : List Nat} {own : Nat → List Nat → List Nat → Own}
    (issues : Issues s info w l)
    (follows : ∀ s1, runWord info own s = .next s1 → exec i s = .next (resumeIfDone (post s1 w) (teamOfWarp s w)))
    (goes : ∃ effs, own w l (actingIn s info.guard l) = .go (makes s (actingIn s info.guard l)) effs ∧
      ∀ t ∈ l, effOf effs t = if rdGuard s info.guard t then out s t else {})
    (lines : effLines w (actingIn s info.guard l) (out s) = []) (preds : ∀ t, ∀ x ∈ (out s t).p, x.1 < 7) :
    EndsAt i info makes out post s w l := by
  have nodup := issuedSet_nodup issues.chosen
  have answer := runWord_of_issues own issues
  refine ⟨fun acts => ?_, fun idle => ?_⟩
  · obtain ⟨effs, made, effects⟩ := goes
    have none' : effLines w (actingIn s info.guard l) (effOf effs) = [] := (effLines_acting w effects).trans lines
    have present : linesMissing s (wordLines s info w l (actingIn s info.guard l)) = false :=
      linesMissing_of_present issues.present
    rw [if_neg acts, made] at answer
    simp only [none', List.append_nil, present, Bool.false_eq_true, if_false] at answer
    exact ⟨_, follows _ answer, wordDone_of_go nodup preds (rdGuard s info.guard) effects⟩
  · rw [if_pos idle] at answer
    exact ⟨_, follows _ answer, wordDone_none nodup⟩

/-- Once its commit is made, `exit` drops the warp's open card where the warp has retired, and resumes the team where no handler
thread is left. -/
theorem exec_exit_of_runWord {g : Guard} {s s1 : State} {w : Nat} {l : List Nat} (chosen : issuedSet s = some (w, l))
    (answer : runWord { guard := g, reports := true } (fun _ _ acting => .go (exitThreads s acting) []) s = .next s1) :
    exec (.exit g) s = .next (resumeIfDone (dropOpenCard s1 w) (teamOfWarp s w)) := by
  rw [exec_exit, execExit, chosen]
  simp only [answer]

/-- Settles O19: the acting threads are exited before the commit, and no thread has an effect of its own. -/
theorem exitWords : Obligations.ExitWords := by
  intro g s w l issues
  refine endsAt_of_runWord issues (fun _ => exec_exit_of_runWord issues.chosen) ⟨[], rfl, fun t _ => ?_⟩ ?_ (fun _ _ mem => ?_)
  · exact (effOf_nil t).trans (ite_self _).symm
  · simp [effLines]
  · cases mem

end Sys2Proof.Machine
end

section
/-! The return from a handler and the resumption of a team (R199, R204, R205). -/
namespace Sys2Proof.Machine
-- One declaration at a time: each more thread of the compiler takes a stack out of the same memory.
set_option Elab.async false

/-! ### What the resumption of a team changes and leaves (R205) -/

/-- A change that is the same when made twice is made once in each thread of a list, however often the list names it. -/
theorem foldl_modTh_get_of_idem {f : Thread → Thread} (idem : ∀ x, f (f x) = f x) (l : List Nat) (s : State) (t : Nat) :
    getTh (l.foldl (fun s t => modTh s t f) s) t = if t ∈ l then f (getTh s t) else getTh s t := by
  induction l generalizing s with
  | nil => rfl
  | cons u l ih =>
    rw [List.foldl_cons, ih]
    by_cases same : t = u
    · subst same
      simp [idem]
    · simp [same]

/-- A thread, and a warp, of a team that resumes (R205). -/
def resumedThread (th : Thread) : Thread := { th with trapped := false, returned := false, waitCount := 0 }
def resumedWarp (x : Warp) : Warp := { x with stopped := false, skid := 0, reporter := false }

/-- The folds of `resumeTeam`, over the threads and over the warps. -/
def resumeThreads (s : State) (l : List Nat) : State := l.foldl (fun s t => modTh s t resumedThread) s
def resumeWarps (s : State) (l : List Nat) : State := l.foldl (fun s w => modWarp s w resumedWarp) s

theorem resumeTeam_eq (s : State) (k : Nat) :
    resumeTeam s k =
      modTeam (resumeWarps (resumeThreads s (teamThreads s k)) (teamWarps s k)) k fun x => { x with halted := false } := rfl

theorem getTh_resumeThreads (s : State) (l : List Nat) (t : Nat) :
    getTh (resumeThreads s l) t = if t ∈ l then resumedThread (getTh s t) else getTh s t :=
  foldl_modTh_get_of_idem (f := resumedThread) (fun _ => rfl) l s t

theorem getWarp_resumeThreads (s : State) (l : List Nat) (w : Nat) : getWarp (resumeThreads s l) w = getWarp s w :=
  foldl_keeps (f := fun s t => modTh s t resumedThread) (getWarp · w) (fun _ _ => rfl) l s

theorem getTeam_resumeThreads (s : State) (l : List Nat) (k : Nat) : getTeam (resumeThreads s l) k = getTeam s k :=
  foldl_keeps (f := fun s t => modTh s t resumedThread) (getTeam · k) (fun _ _ => rfl) l s

theorem getTh_resumeWarps (s : State) (l : List Nat) (t : Nat) : getTh (resumeWarps s l) t = getTh s t :=
  foldl_keeps (f := fun s w => modWarp s w resumedWarp) (getTh · t) (fun _ _ => rfl) l s

theorem getTeam_resumeWarps (s : State) (l : List Nat) (k : Nat) : getTeam (resumeWarps s l) k = getTeam s k :=
  foldl_keeps (f := fun s w => modWarp s w resumedWarp) (getTeam · k) (fun _ _ => rfl) l s

theorem bind_resumeWarps (s : State) (l : List Nat) (w : Nat) : (getWarp (resumeWarps s l) w).bind = (getWarp s w).bind := by
  refine foldl_keeps (f := fun s w => modWarp s w resumedWarp) (fun s => (getWarp s w).bind) (fun s v => ?_) l s
  by_cases same : w = v
  · subst same
    simp [resumedWarp]
  · simp [same]

section
variable {s : State} {k : Nat}

theorem getTh_resumeTeam (t : Nat) :
    getTh (resumeTeam s k) t = if t ∈ teamThreads s k then resumedThread (getTh s t) else getTh s t := by
  rw [resumeTeam_eq, modTeam, getTh_setTeam, getTh_resumeWarps, getTh_resumeThreads]

theorem getTeam_resumeTeam : getTeam (resumeTeam s k) k = { getTeam s k with halted := false } := by
  simp [resumeTeam_eq, getTeam_resumeWarps, getTeam_resumeThreads]

theorem bind_resumeTeam (w : Nat) : (getWarp (resumeTeam s k) w).bind = (getWarp s w).bind := by
  rw [resumeTeam_eq, modTeam, getWarp_setTeam, bind_resumeWarps, getWarp_resumeThreads]

theorem teamOf_resumeTeam (t : Nat) : teamOf (resumeTeam s k) t = teamOf s t := by
  rw [teamOf, teamOf, teamOfWarp, teamOfWarp, bind_resumeTeam]

/-- A thread of a resumed team that has not exited and does not wait is ready where its warp runs (R44, R205). -/
theorem threadReady_resumeTeam {t : Nat} (mem : t ∈ teamThreads s k) (live : (getTeam s k).live = true)
    (going : (getTeam s k).ended = false) (due : (getTh s t).trapPend = none) (here : (getTh s t).exited = false)
    (free : (getTh s t).wait = none) (queue : ∀ o ∈ (getTh s t).mq, o.st ≠ .page ∧ o.st ≠ .blocked) (team : teamOf s t = k)
    (valid : bindV (getWarp s (warpOf t)).bind = true) (runs : bindRun (getWarp s (warpOf t)).bind = true) :
    threadReady (resumeTeam s k) t = true := by
  have queue' : ((getTh s t).mq.all fun o => decide (o.st ≠ .page) && decide (o.st ≠ .blocked)) = true := by
    simpa using queue
  simp only [threadReady, getTh_resumeTeam, mem, teamOf_resumeTeam, team, getTeam_resumeTeam, bind_resumeTeam, if_true,
    resumedThread, live, going, due, here, free, queue', valid, runs]
  rfl

theorem resumeIfDone_eq_resumeTeam (halted : (getTeam s k).halted = true)
    (done : ∀ t ∈ teamThreads s k, (getTh s t).handler = false ∧ (getTh s t).trapPend = none) :
    resumeIfDone s k = resumeTeam s k :=
  if_pos (by simpa [halted] using done)

end

/-- Settles O23: such a team passes the test of `resumeIfDone`, and `resumeTeam` does the rest. -/
theorem teamsResume : Obligations.TeamsResume := by
  intro s k halted live going done
  rw [resumeIfDone_eq_resumeTeam halted done, getTeam_resumeTeam]
  refine ⟨rfl, fun t mem => ?_⟩
  have ready := threadReady_resumeTeam mem live going (done t mem).2
  rw [getTh_resumeTeam, if_pos mem]
  exact ⟨rfl, rfl, rfl, ready⟩

/-! ### `rett` (R204) -/

/-- The own part of a `rett`: it traps in the acting threads outside handler state, and returns where there are none. -/
def rettOwn (s : State) (acting : List Nat) : Own :=
  let bad := acting.filter fun t => !(getTh s t).handler
  if !bad.isEmpty then .traps (bad.map fun t => (t, preciseTrap ccHandlerState (getTh s t).pc))
  else .go (inThreads s acting fun _ => rettThread) (acting.map fun t => (t, { jump := some (rettThread (getTh s t)).pc }))

section
variable {g : Guard} {s s1 : State} {w : Nat} {l : List Nat}

/-- Once `rett` has returned or trapped, the team resumes if no thread is in handler state or on its way there. -/
theorem exec_rett_of_runWord (chosen : issuedSet s = some (w, l))
    (answer : runWord { guard := g } (fun _ _ acting => rettOwn s acting) s = .next s1) :
    exec (.rett g) s = .next (resumeIfDone s1 (teamOfWarp s w)) := by
  unfold rettOwn at answer
  rw [exec_rett, execRett, chosen]
  simp only [answer]

theorem rettOwn_inside {acting : List Nat} (inside : ∀ t ∈ acting, (getTh s t).handler = true) :
    rettOwn s acting =
      .go (inThreads s acting fun _ => rettThread) (acting.map fun t => (t, { jump := some (rettThread (getTh s t)).pc })) :=
  if_neg (by simpa using inside)

theorem rettOwn_outside {acting : List Nat} (outside : ∃ t ∈ acting, (getTh s t).handler = false) :
    rettOwn s acting = .traps (preciseAll s 0x0E (acting.filter fun t => !(getTh s t).handler)) :=
  if_pos (by simpa using outside)

end

/-- The first clause of O20: the acting threads have returned before the commit, which takes each to its TEPC. -/
theorem rettCompletes : RettCompletes := by
  intro g s w l issues inside
  refine endsAt_of_runWord issues (fun _ => exec_rett_of_runWord issues.chosen)
    ⟨_, rettOwn_inside inside, fun t mem => effOf_acting mem⟩ ?_ (fun _ _ mem => ?_)
  · simp [effLines]
  · cases mem

/-! ### The second clause, where the team lists the warp -/

section
variable {s : State} {w t : Nat} {l : List Nat} {info : Nat → TrapInfo}

theorem endTeam_halted (s : State) (k : Nat) : (getTeam (endTeam s k) k).halted = false := by simp [endTeam]

theorem raiseTraps_wslots (some' : l ≠ [])
    (takes : ¬ ((getTeam s (teamOfWarp s w)).tvec = 0 ∨ ∃ t ∈ l, (getTh s t).handler = true)) :
    (getTeam (raiseTraps s w (l.map fun t => (t, info t))) (teamOfWarp s w)).wslots = (getTeam s (teamOfWarp s w)).wslots := by
  unfold raiseTraps
  dsimp only
  rw [if_neg (by simpa using some'), if_neg (by simpa using takes), List.foldl_map, getTeam_turn]
  refine (congrArg Team.wslots (foldl_keeps (f := fun s t => modTh s t (withTrap (info t))) (getTeam · _) (fun _ _ => rfl) l _)).trans ?_
  by_cases halted : (getTeam s (teamOfWarp s w)).halted = true
  · rw [if_pos halted]
    rfl
  · obtain ⟨warps, frame⟩ := foldl_haltWarp_frame w (teamWarps s (teamOfWarp s w)) s
    rw [if_neg halted, frame]
    simp [getTeam]

/-- A team one of whose threads has just trapped does not resume: that thread is on its way to the handler, or the team has ended. -/
theorem resumeIfDone_raiseTraps (nodup : l.Nodup) (mem : t ∈ l) (listed : t ∈ teamThreads s (teamOfWarp s w)) :
    resumeIfDone (raiseTraps s w (l.map fun t => (t, info t))) (teamOfWarp s w) = raiseTraps s w (l.map fun t => (t, info t)) := by
  have some' := List.ne_nil_of_mem mem
  by_cases ends : (getTeam s (teamOfWarp s w)).tvec = 0 ∨ ∃ t ∈ l, (getTh s t).handler = true
  · have raised : raiseTraps s w (l.map fun t => (t, info t)) = { endTeam s (teamOfWarp s w) with turn := .idle } :=
      (if_neg (by simpa using some')).trans (if_pos (by simpa using ends))
    rw [raised]
    refine if_neg fun done => ?_
    rw [Bool.and_eq_true, getTeam_turn, endTeam_halted] at done
    cases done.1
  · obtain ⟨-, -, threads⟩ := raiseTraps_halts (info := info) some' nodup ends
    have lists : t ∈ teamThreads (raiseTraps s w (l.map fun t => (t, info t))) (teamOfWarp s w) := by
      simp only [teamThreads, teamWarps, raiseTraps_wslots some' ends, List.mem_flatMap, liveThreads, List.mem_filter] at listed ⊢
      obtain ⟨v, warp, lane, live⟩ := listed
      refine ⟨v, warp, lane, ?_⟩
      rwa [threads, if_pos mem]
    refine if_neg fun done => ?_
    rw [Bool.and_eq_true, List.all_eq_true] at done
    have resumes := done.2 t lists
    rw [threads, if_pos mem] at resumes
    simp [withTrap] at resumes

end

/-- The second clause of O20, where the team lists the warp of one of the threads that trap. -/
theorem rettTraps_of_listed {g : Guard} {s : State} {w t : Nat} {l : List Nat} (issues : Issues s { guard := g } w l)
    (mem : t ∈ actingIn s g l) (outside : (getTh s t).handler = false) (listed : t ∈ teamThreads s (teamOfWarp s w)) :
    ∃ s', TrapsAt (.rett g) s s' w (preciseAll s 0x0E ((actingIn s g l).filter fun t => !(getTh s t).handler)) := by
  have bad : t ∈ (actingIn s g l).filter fun t => !(getTh s t).handler := List.mem_filter.2 ⟨mem, by simp [outside]⟩
  have nodup : ((actingIn s g l).filter fun t => !(getTh s t).handler).Nodup := ((issuedSet_nodup issues.chosen).filter _).filter _
  have raised := runWord_of_issues (fun _ _ acting => rettOwn s acting) issues
  rw [if_neg (List.ne_nil_of_mem mem), rettOwn_outside ⟨t, mem, outside⟩] at raised
  have answer := exec_rett_of_runWord issues.chosen
    (raised.trans (if_neg (by simpa [preciseAll] using ⟨t, mem, outside⟩)))
  have stays := resumeIfDone_raiseTraps (s := chargeIssue s s w) (w := w) (info := fun t => preciseTrap 0x0E (getTh s t).pc) nodup bad
    (by simpa [teamThreads, teamWarps, liveThreads] using listed)
  rw [teamOfWarp_chargeIssue] at stays
  exact trapsAt_of_raiseTraps (List.ne_nil_of_mem bad) nodup (answer.trans (congrArg _ stays))

/-! ### The second clause, where it does not -/

/-- A team whose handler is at 0x2000 and which lists no warp, though the bind record of warp 0 names it. -/
def unlistedWarp : State :=
  { State.reset with
    turn := .warp 0 0 1
    warps := [(0, { bind := mkBind 1 0 0 0 0 1 0 0 0 })]
    threads := [(0, { pc := 0x1000, exited := false })]
    teams := [(0, { live := true, tvec := 0x2000 })] }

set_option maxRecDepth 20000 in
theorem unlistedWarp_issues : Issues unlistedWarp { guard := .always } 0 [0] where
  chosen := by decide
  windows := by decide
  matrix := by decide
  privilege := by decide
  quota := by decide
  uniform := by decide
  landed := by decide
  slanded := by decide
  present := by decide
  committed := by decide
  acquired := by decide
  whole := by decide
  swhole := by decide
  reported := by decide

set_option maxRecDepth 20000 in
theorem unlistedWarp_resumes : ∃ s, exec (.rett .always) unlistedWarp = .next s ∧ (getTeam s 0).halted = false :=
  ⟨_, rfl, by decide⟩

/-- Refutes O20: a `rett` outside handler state halts its team, but the test for a resumption that follows asks only the threads of
the warps that the team lists, and where it does not list the warp of the trapping thread the team resumes at once. -/
theorem not_rettWords : ¬ Obligations.RettWords := by
  rintro ⟨-, traps⟩
  obtain ⟨s, answer, resumed⟩ := unlistedWarp_resumes
  obtain ⟨s', trapped⟩ := traps .always unlistedWarp 0 [0] unlistedWarp_issues ⟨0, by decide, by decide⟩
  obtain rfl : s = s' := by cases answer.symm.trans trapped.answer; rfl
  have halted := (trapped.halts (by decide) (by decide)).1
  exact absurd (resumed.symm.trans halted) (by decide)

end Sys2Proof.Machine
end

section
/-! The tables (R212, R371, R390, R403, R414): no function that a word of Nimia uses writes them. One lemma for each such function, in
the order of the model's files, then the words themselves. -/
namespace Sys2Proof.Machine
-- One declaration at a time: each more thread of the compiler takes a stack out of the same memory.
set_option Elab.async false

/-- What no word of a team changes, beside CLOCK: the page ownership and ASID tables, the keys, ranges and protocols, the fuses, the
boot and retention state, SPDM's and the count of late launches. -/
def State.tables (s : State) : SMap W32 × SMap W64 × SMap KeySlot × SMap W64 × SMap (List Byte) × SMap (Bool × Bool) × Boot ×
    Retention × Spdm × W32 :=
  (s.pot, s.asids, s.keys, s.ranges, s.protos, s.fuses, s.boot, s.ret, s.spdm, s.lateLaunches)

/-! ### Updates, branches and folds -/

/-- An update of any other field leaves them. -/
@[simp] theorem tables_update (s : State) (turn inbox n clock refills slices mem stale poison raw spoilt stamps imgKeys lost ecc
    dir proxies sent reqs heldReqs msgs ackQ pends locked maints walks held cores warps threads teams groves groveSeq lineUses
    launches encls rowan parts harts heather hwSlots unmapped host) :
    State.tables { s with
        turn := turn, inbox := inbox, n := n, clock := clock, refills := refills, slices := slices, mem := mem
        stale := stale, poison := poison, raw := raw, spoilt := spoilt, stamps := stamps, imgKeys := imgKeys, lost := lost
        ecc := ecc, dir := dir, proxies := proxies, sent := sent, reqs := reqs, heldReqs := heldReqs, msgs := msgs
        ackQ := ackQ, pends := pends, locked := locked, maints := maints, walks := walks, held := held, cores := cores
        warps := warps, threads := threads, teams := teams, groves := groves, groveSeq := groveSeq, lineUses := lineUses
        launches := launches, encls := encls, rowan := rowan, parts := parts, harts := harts, heather := heather
        hwSlots := hwSlots, unmapped := unmapped, host := host } = s.tables := rfl

@[simp] theorem tables_ite (p : Prop) [Decidable p] (a b : State) :
    (if p then a else b).tables = if p then a.tables else b.tables := apply_ite State.tables p a b

@[simp] theorem foldl_tables {α : Type} {f : State → α → State} (h : ∀ s a, (f s a).tables = s.tables) (l : List α) (s : State) :
    (l.foldl f s).tables = s.tables := foldl_keeps State.tables h l s

theorem foldl_fst_tables {α β : Type} {f : State × β → α → State × β} (h : ∀ x a, (f x a).1.tables = x.1.tables) (l : List α)
    (x : State × β) : (l.foldl f x).1.tables = x.1.tables := by
  induction l generalizing x with
  | nil => rfl
  | cons a l ih => exact (ih (f x a)).trans (h x a)

@[simp] theorem setTh_tables (s t x) : (setTh s t x).tables = s.tables := rfl
@[simp] theorem setWarp_tables (s w x) : (setWarp s w x).tables = s.tables := rfl
@[simp] theorem setTeam_tables (s k x) : (setTeam s k x).tables = s.tables := rfl
@[simp] theorem setCore_tables (s c x) : (setCore s c x).tables = s.tables := rfl
@[simp] theorem setPart_tables (s p x) : (setPart s p x).tables = s.tables := rfl
@[simp] theorem setEncl_tables (s e x) : (setEncl s e x).tables = s.tables := rfl
@[simp] theorem setHeather_tables (s i x) : (setHeather s i x).tables = s.tables := rfl

@[simp] theorem foldl_setTh_tables {α : Type} (t : State → α → Nat) (x : State → α → Thread) (l : List α) (s : State) :
    (l.foldl (fun s a => setTh s (t s a) (x s a)) s).tables = s.tables := foldl_tables (fun s a => setTh_tables s (t s a) (x s a)) l s

@[simp] theorem foldl_setWarp_tables {α : Type} (w : State → α → Nat) (x : State → α → Warp) (l : List α) (s : State) :
    (l.foldl (fun s a => setWarp s (w s a) (x s a)) s).tables = s.tables :=
  foldl_tables (fun s a => setWarp_tables s (w s a) (x s a)) l s

@[simp] theorem foldl_setCore_tables {α : Type} (c : State → α → Nat) (x : State → α → Core) (l : List α) (s : State) :
    (l.foldl (fun s a => setCore s (c s a) (x s a)) s).tables = s.tables :=
  foldl_tables (fun s a => setCore_tables s (c s a) (x s a)) l s

/-! ### Memory and its lines -/

@[simp] theorem writeBytes_tables (s pa bs) : (writeBytes s pa bs).tables = s.tables := rfl

@[simp] theorem writeBack_tables (s line) : (writeBack s line).tables = s.tables := rfl

@[simp] theorem discardLine_tables (s line) : (discardLine s line).tables = s.tables := by unfold discardLine; split <;> rfl

@[simp] theorem poisonBad_tables (s pa n key ver) : (poisonBad s pa n key ver).tables = s.tables := by simp [poisonBad]

/-! ### Traps, teams and counters -/

@[simp] theorem inThreads_tables (s acting f) : (inThreads s acting f).tables = s.tables := by simp [inThreads]

@[simp] theorem endTeam_tables (s k) : (endTeam s k).tables = s.tables := by simp [endTeam, dropQueries]

@[simp] theorem raiseTraps_tables (s w traps) : (raiseTraps s w traps).tables = s.tables := by simp [raiseTraps, haltWarp]

@[simp] theorem resumeIfDone_tables (s k) : (resumeIfDone s k).tables = s.tables := by simp [resumeIfDone, resumeTeam]

@[simp] theorem lateFault_tables (s t code kind va origin dst sdst bytes) :
    (lateFault s t code kind va origin dst sdst bytes).tables = s.tables := by simp [lateFault]

@[simp] theorem meter_tables (s p i n) : (meter s p i n).tables = s.tables := by simp [meter]

@[simp] theorem corePmc_tables (s core code n) : (corePmc s core code n).tables = s.tables := by simp [corePmc, pmcEvent]

@[simp] theorem meterTier_tables (s pa n) : (meterTier s pa n).tables = s.tables := by unfold meterTier; split <;> simp

@[simp] theorem meterLine_tables (s pa) : (meterLine s pa).tables = s.tables := by simp [meterLine]

@[simp] theorem meterLines_tables (s pa n) : (meterLines s pa n).tables = s.tables := by simp [meterLines, meterSpan]

@[simp] theorem writeBackMetered_tables (s line) : (writeBackMetered s line).tables = s.tables := by
  unfold writeBackMetered; split <;> simp

/-! ### The issue of a word -/

@[simp] theorem chargeIssue_tables (s0 s w) : (chargeIssue s0 s w).tables = s.tables := by simp [chargeIssue]

@[simp] theorem stallIssue_tables (s) : (stallIssue s).tables = s.tables := by unfold stallIssue; split <;> rfl

@[simp] theorem commitThreads_tables (s info w l s1 effs) : (commitThreads s info w l s1 effs).tables = s1.tables := by
  simp [commitThreads, passOver]

@[simp] theorem commitFlags_tables (s w l effs) : (commitFlags s w l effs).tables = s.tables := by
  simp [commitFlags, foldAmax, orFlags]

@[simp] theorem commitLoops_tables (s w l none) : (commitLoops s w l none).tables = s.tables := by simp [commitLoops, settleLoops]

@[simp] theorem commitWord_tables (s info w l s1 effs lines) : (commitWord s info w l s1 effs lines).tables = s1.tables := by
  simp [commitWord, commitCounts, commitWindows, touchLines]

@[simp] theorem waitLines_tables (s l need) : (waitLines s l need).tables = s.tables := by simp [waitLines]

/-- An outcome that has a next state has one with the tables of `s`. -/
def KeepsTables (s : State) : Out → Prop
  | .next s1 => s1.tables = s.tables
  | _ => True

@[simp] theorem keepsTables_next (s s1) : KeepsTables s (.next s1) ↔ s1.tables = s.tables := Iff.rfl

theorem keepsTables_ite (s : State) (p : Prop) [Decidable p] (a b : Out) :
    KeepsTables s (if p then a else b) ↔ if p then KeepsTables s a else KeepsTables s b := by split <;> rfl

/-- A word's own part that leaves a state leaves one with the tables of `s`. -/
def OwnKeepsTables (s : State) : Own → Prop
  | .stallOn s1 => s1.tables = s.tables
  | .go s1 _ => s1.tables = s.tables
  | _ => True

@[simp] theorem ownKeepsTables_stall (s) : OwnKeepsTables s .stall := trivial
@[simp] theorem ownKeepsTables_traps (s l) : OwnKeepsTables s (.traps l) := trivial
@[simp] theorem ownKeepsTables_refuse (s s1 acting code) : OwnKeepsTables s (refuse s1 acting code) := trivial
@[simp] theorem ownKeepsTables_stallOn (s s1) : OwnKeepsTables s (.stallOn s1) ↔ s1.tables = s.tables := Iff.rfl
@[simp] theorem ownKeepsTables_go (s s1 effs) : OwnKeepsTables s (.go s1 effs) ↔ s1.tables = s.tables := Iff.rfl

/-- The issue of a word keeps the tables where its own part does. -/
theorem runWord_tables {info own s} (keeps : ∀ w l acting, OwnKeepsTables s (own w l acting)) : KeepsTables s (runWord info own s) := by
  unfold runWord
  split
  · rfl
  next w l _ =>
    have own_keeps := keeps w l (l.filter (rdGuard s info.guard))
    dsimp only
    generalize own w l (l.filter (rdGuard s info.guard)) = part at own_keeps ⊢
    cases part with
    | stall | traps => simp [keepsTables_ite]
    | stallOn s1 | go s1 => simp [keepsTables_ite, show s1.tables = s.tables from own_keeps]

theorem runThreads_tables (info eff s) : KeepsTables s (runThreads info eff s) := runWord_tables fun _ _ _ => rfl

/-! ### Faults, operations in a queue, and what performs -/

@[simp] theorem noteSpoilt_tables (s s1 pa n) : (noteSpoilt s s1 pa n).tables = s1.tables := rfl

@[simp] theorem dropMop_tables (s t j o) : (dropMop s t j o).tables = s.tables := by unfold dropMop; split <;> simp

@[simp] theorem setMopSt_tables (s t j x) : (setMopSt s t j x).tables = s.tables := by
  unfold setMopSt; (repeat' split) <;> simp

@[simp] theorem mopFault_tables (s t j o code) : (mopFault s t j o code).tables = s.tables := by
  unfold mopFault; split <;> simp

@[simp] theorem mopWrite_tables (s t j o vals) : (mopWrite s t j o vals).tables = s.tables := by simp [mopWrite]

@[simp] theorem writeThrough_tables (s e p bs) : (writeThrough s e p bs).tables = s.tables := by simp [writeThrough]

@[simp] theorem noteBad_tables (s e p n) : (noteBad s e p n).tables = s.tables := by simp [noteBad]

@[simp] theorem performAt_tables (s t j o e p) : (performAt s t j o e p).tables = s.tables := by
  unfold performAt; dsimp only; (repeat' split) <;> simp [meterFetch]

@[simp] theorem homeDone_tables (s t reads grain fault) : (homeDone s t reads grain fault).tables = s.tables := by
  unfold homeDone; (repeat' split) <;> simp

@[simp] theorem askWalk_tables (s asid page kind who) : (askWalk s asid page kind who).tables = s.tables := by simp [askWalk]

@[simp] theorem logWalkOf_tables (s src asid va kind) : (logWalkOf s src asid va kind).tables = s.tables := by
  unfold logWalkOf; split <;> simp

@[simp] theorem prefetch_tables (x addr s t) : (prefetch x addr s t).tables = s.tables := by
  unfold prefetch; dsimp only; (repeat' split) <;> simp

/-! ### Homes and directories -/

@[simp] theorem putDir_tables (s g d) : (putDir s g d).tables = s.tables := by simp [putDir]

@[simp] theorem putProxy_tables (s g m l) : (putProxy s g m l).tables = s.tables := by simp [putProxy]

@[simp] theorem clearProxies_tables (s g) : (clearProxies s g).tables = s.tables := by simp [clearProxies]

@[simp] theorem noteSent_tables (s g c lines) : (noteSent s g c lines).tables = s.tables := rfl

@[simp] theorem addSharer_tables (s g c eng) : (addSharer s g c eng).tables = s.tables := by simp [addSharer]

@[simp] theorem delSharer_tables (s g c) : (delSharer s g c).tables = s.tables := by simp [delSharer]

@[simp] theorem enterState_tables (s g next) : (enterState s g next).tables = s.tables := by simp [enterState, clearSets]

@[simp] theorem sendRound_tables (s g l) : (sendRound s g l).tables = s.tables := by simp [sendRound]

@[simp] theorem applyLine_tables (keep s x) : (applyLine keep s x).tables = s.tables := by simp [applyLine]

@[simp] theorem maintRefused_tables (s id code) : (maintRefused s id code).tables = s.tables := by
  unfold maintRefused; split <;> simp

@[simp] theorem completeReq_tables (s rq fault) : (completeReq s rq fault).tables = s.tables := by
  unfold completeReq; (repeat' split) <;> simp

@[simp] theorem lockPoint_tables (s rq) : (lockPoint s rq).1.tables = s.tables := by
  unfold lockPoint; dsimp only; (repeat' split) <;> simp

@[simp] theorem doWb_tables (s g next e rq) : (doWb s g next e rq).tables = s.tables := by simp [doWb]

@[simp] theorem setAcks_tables (s g) : (setAcks s g).tables = s.tables := by simp [setAcks]

@[simp] theorem dropOwed_tables (s g f) : (dropOwed s g f).tables = s.tables := by unfold dropOwed; split <;> simp

@[simp] theorem evictAck_tables (s g c) : (evictAck s g c).tables = s.tables := by
  unfold evictAck; dsimp only; (repeat' split) <;> simp

@[simp] theorem dropKept_tables (s g c) : (dropKept s g c).tables = s.tables := by unfold dropKept; split <;> simp

@[simp] theorem doSets_tables (s g e act ev rq) : (doSets s g e act ev rq).tables = s.tables := by
  unfold doSets; dsimp only; (repeat' split) <;> simp

@[simp] theorem releaseHeld_tables (s g) : (releaseHeld s g).tables = s.tables := by simp [releaseHeld]

@[simp] theorem attach_tables (s g act rq l) : (attach s g act rq l).tables = s.tables := by simp [attach]

/-- The states of a home event one after another, each with the tables of the one before. -/
@[simp] theorem homeEvent_tables (n s g ev rel rq) : (homeEvent n s g ev rel rq).tables = s.tables := by
  induction n generalizing s g ev rel rq with
  | zero => rfl
  | succ n ih =>
    unfold homeEvent
    extract_lets e act next code request s1 round x s2 s3 s4 s4' s5 done s6 s7 s8
    clear_value round
    have h1 : s1.tables = s.tables := by simp [s1]
    have hx : x.1.tables = s.tables := by simp only [x]; split <;> simp [h1]
    have h2 : s2.tables = s.tables := by cases round <;> simp [s2, hx]
    have h4 : s4.tables = s.tables := by simp [s4, s3, h2]
    have h4' : s4'.tables = s.tables := by simp only [s4']; (repeat' split) <;> simp [h4]
    have h8 : s8.tables = s.tables := by simp [s8, s7, s6, s5, h4']
    clear_value s8
    rcases round with _ | _ | _ <;> (repeat' split) <;> simp [ih, h8]

@[simp] theorem takeRequest_tables (s i evs) : (takeRequest s i evs).tables = s.tables := by
  unfold takeRequest; dsimp only; (repeat' split) <;> simp

@[simp] theorem ackRound_tables (s g a) : (ackRound s g a).tables = s.tables := by unfold ackRound; split <;> simp

@[simp] theorem forceAck_tables (s g x) : (forceAck s g x).tables = s.tables := by unfold forceAck; (repeat' split) <;> simp

@[simp] theorem settleGrain_tables (n s g) : (settleGrain n s g).tables = s.tables := by
  induction n generalizing s with
  | zero => rfl
  | succ n ih => unfold settleGrain; (repeat' split) <;> simp [ih]

@[simp] theorem drainGrain_tables (n s g) : (drainGrain n s g).tables = s.tables := by
  induction n generalizing s with
  | zero => simp [drainGrain]
  | succ n ih => unfold drainGrain; dsimp only; (repeat' split) <;> simp [ih]

@[simp] theorem homeNow_tables (s g ev c lines) : (homeNow s g ev c lines).tables = s.tables := by
  unfold homeNow; dsimp only; (repeat' split) <;> simp [drained, reclaimNow]

@[simp] theorem lineFor_tables (c write s l) : (lineFor c write s l).tables = s.tables := by unfold lineFor; split <;> simp

@[simp] theorem touchFor_tables (c s pa n write) : (touchFor c s pa n write).tables = s.tables := by simp [touchFor]

@[simp] theorem putFor_tables (c s pa bs) : (putFor c s pa bs).tables = s.tables := by unfold putFor; split <;> simp

@[simp] theorem hdrOpen_tables (s c pa) : (hdrOpen s c pa).1.tables = s.tables := by simp [hdrOpen]

theorem tables_of_hdrOpen {s c pa s1 h} (opened : hdrOpen s c pa = (s1, h)) : s1.tables = s.tables :=
  (congrArg (·.1.tables) opened).symm.trans (hdrOpen_tables s c pa)

@[simp] theorem queuePost_tables (c s pa h place item) : (queuePost c s pa h place item).tables = s.tables := by
  unfold queuePost; split <;> simp

/-! ### What the words of a team make beyond their threads -/

@[simp] theorem loopOpened_tables (s w cnt disp acting) : (loopOpened s w cnt disp acting).tables = s.tables := by
  simp [loopOpened]

@[simp] theorem loopClosed_tables (s acting) : (loopClosed s acting).tables = s.tables := by simp [loopClosed]

@[simp] theorem exitThreads_tables (s acting) : (exitThreads s acting).tables = s.tables := by simp [exitThreads]

@[simp] theorem dropOpenCard_tables (s w) : (dropOpenCard s w).tables = s.tables := by unfold dropOpenCard; split <;> simp

@[simp] theorem putS_tables (s w r v) : (putS s w r v).tables = s.tables := rfl

@[simp] theorem arrive_tables (s k b acting) : (arrive s k b acting).tables = s.tables := by simp [arrive]

@[simp] theorem mbUpdate_tables (s core phys f) : (mbUpdate s core phys f).tables = s.tables := by
  simp [mbUpdate, mbWrite, spWritePlain, napEvent]

@[simp] theorem spWritePlain_tables (s core phys bs) : (spWritePlain s core phys bs).tables = s.tables := rfl

@[simp] theorem addPend_tables (s k l la op) : (addPend s k l la op).tables = s.tables := rfl

@[simp] theorem sendPacket_tables (s k st d t pc pkt slot) : (sendPacket s k st d t pc pkt slot).tables = s.tables := by
  simp [sendPacket]

@[simp] theorem writeSpecialWarp_tables (s w r v) : (writeSpecialWarp s w r v).tables = s.tables := by
  unfold writeSpecialWarp; split <;> simp

@[simp] theorem setRing_tables (s k q r) : (setRing s k q r).tables = s.tables := rfl

@[simp] theorem modJob_tables (s core num f) : (modJob s core num f).tables = s.tables := rfl

@[simp] theorem claimSlot_tables (s core k j h) : (claimSlot s core k j h).tables = s.tables := by
  unfold claimSlot; split <;> simp

theorem tables_of_powerUp {s core s1} (up : powerUp s core = some s1) : s1.tables = s.tables := by
  unfold powerUp at up
  split at up <;> cases up <;> simp

theorem tables_of_postMatrix {s w k kind s1} (posted : postMatrix s w k kind = some s1) : s1.tables = s.tables := by
  unfold postMatrix at posted
  split at posted <;> cases posted
  simp [postJob]

theorem tables_of_openCardOf {s w k s1 n} (card : openCardOf s w k = some (s1, n)) : s1.tables = s.tables := by
  unfold openCardOf at card
  (repeat' split at card) <;> cases card <;> simp

theorem tables_of_takeSlot {s w k q n d s1} (taken : takeSlot s w k q n d = some s1) : s1.tables = s.tables := by
  unfold takeSlot at taken
  (repeat' split at taken) <;> cases taken <;> simp

/-! ### The words of the tables -/

theorem keepsTables_of_threadTable {row : Instr → Option WordRow} (table : ThreadTable row) {i : Instr} {r : WordRow}
    (h : row i = some r) (s : State) : KeepsTables s (exec i s) := by
  rw [(table h).run s]
  exact runThreads_tables ..

section
variable {i : Instr} {r : WordRow}

theorem keepsTables_of_predicateRow (h : predicateRow i = some r) (s : State) : KeepsTables s (exec i s) := by
  unfold predicateRow at h
  split at h <;> cases h
  case h_9 =>
    rw [exec_scmp, execScmp]
    exact runWord_tables fun _ _ _ => rfl
  all_goals exact runThreads_tables ..

theorem keepsTables_of_uniformRow (h : uniformRow i = some r) (s : State) : KeepsTables s (exec i s) := by
  obtain ⟨g, d, srcs, f, -, run⟩ := exec_of_uniformRow h
  rw [run, uniWord]
  exact runWord_tables fun _ _ _ => rfl

theorem keepsTables_of_convertRow (h : convertRow i = some r) (s : State) : KeepsTables s (exec i s) := by
  unfold convertRow at h
  split at h <;> cases h
  case h_2 =>
    rw [exec_qblk, execQblk]
    exact runWord_tables fun _ _ _ => rfl
  all_goals exact runThreads_tables ..

theorem keepsTables_of_controlRow (h : controlRow i = some r) (s : State) : KeepsTables s (exec i s) := by
  unfold controlRow at h
  split at h <;> cases h
  case h_9 | h_10 | h_11 | h_12 =>
    simp only [exec_loop, exec_loopLongImmediate, exec_lbrk, exec_yield, execLoop, execLoopLongImmediate, execLbrk, execYield, loopWord]
    refine runWord_tables fun _ _ _ => ?_
    (repeat' split) <;> simp
  all_goals exact runThreads_tables ..

theorem keepsTables_of_crossRow (h : crossRow i = some r) (s : State) : KeepsTables s (exec i s) := by
  unfold crossRow at h
  split at h <;> cases h
  all_goals
    simp only [exec_shfl, exec_vote, exec_ballot, exec_redux, exec_scan, exec_matchLanes, execShfl, execVote, execBallot, execRedux,
      execScan, execMatchLanes]
    exact runWord_tables fun _ _ _ => rfl

theorem keepsTables_of_accessRow (h : accessRow i = some r) (s : State) : KeepsTables s (exec i s) := by
  unfold accessRow at h
  split at h <;> cases h
  case h_17 | h_18 =>
    simp only [exec_sld, exec_sldLongImmediate, execSld, execSldLongImmediate, sldWord]
    exact runWord_tables fun _ _ _ => rfl
  case h_19 | h_20 =>
    simp only [exec_pf, exec_pfLongImmediate, execPf, execPfLongImmediate, pfWord]
    refine runWord_tables fun _ _ _ => ?_
    simp
  case h_21 =>
    rw [exec_fence, execFence]
    refine runWord_tables fun _ _ _ => ?_
    split <;> simp
  all_goals exact runThreads_tables ..

theorem keepsTables_of_bufferRow (h : bufferRow i = some r) (s : State) : KeepsTables s (exec i s) := by
  unfold bufferRow at h
  split at h <;> cases h
  all_goals
    simp only [exec_lda, exec_sta, exec_ldc, exec_stc, execLda, execSta, execLdc, execStc]
    refine runWord_tables fun _ _ _ => ?_
    (repeat' split) <;> simp

theorem keepsTables_of_barrierRow (h : barrierRow i = some r) (s : State) : KeepsTables s (exec i s) := by
  unfold barrierRow at h
  split at h <;> cases h
  case h_1 | h_2 | h_3 =>
    simp only [exec_barArrive, exec_barSync, exec_barSwap, execBarArrive, execBarSync, execBarSwap, arriveWord]
    refine runWord_tables fun _ _ _ => ?_
    (repeat' split) <;> simp
  case h_4 => exact runThreads_tables ..
  all_goals
    simp only [exec_mbarInit, exec_mbarArrive, exec_mbarExpect, exec_mbarWait, execMbarInit, execMbarArrive, execMbarExpect,
      execMbarWait, mbarWord]
    refine runWord_tables fun _ _ acting => ?_
    split
    · trivial
    · exact foldl_fst_tables (fun _ _ => by (repeat' split) <;> simp) acting (s, [])

theorem keepsTables_of_systemRow (h : systemRow i = some r) (s : State) : KeepsTables s (exec i s) := by
  unfold systemRow at h
  split at h <;> cases h
  case h_1 | h_3 => exact runThreads_tables ..
  all_goals
    simp only [exec_mts, exec_tkill, exec_rshrink, exec_rgrow, execMts, execTkill, execRshrink, execRgrow]
    refine runWord_tables fun _ _ _ => ?_
    (repeat' split) <;> simp

/-! ### Words of the matrix and copy units -/

/-- A word of the matrix unit keeps the tables where what it makes does; a stall may ask for power (R33). -/
theorem matWord_tables {h a b recs tiles f s}
    (keeps : ∀ w k acting s1, f w k acting = .inr (some s1) → s1.tables = s.tables) :
    KeepsTables s (matWord h a b recs tiles f s) := by
  unfold matWord
  refine runWord_tables fun w _ acting => ?_
  dsimp only
  split
  · next up => exact tables_of_powerUp up
  · split
    · trivial
    · split
      · trivial
      · trivial
      · next made => exact keeps _ _ _ _ made

theorem keepsTables_of_matrixRow (h : matrixRow i = some r) (s : State) : KeepsTables s (exec i s) := by
  unfold matrixRow at h
  split at h <;> cases h
  all_goals
    simp only [exec_rsv, exec_unrsv, exec_acq, exec_rel, exec_zacc, exec_mma, execRsv, execUnrsv, execAcq, execRel, execZacc, execMma]
    refine matWord_tables fun _ _ _ s1 made => ?_
  case h_1 | h_2 | h_3 | h_4 =>
    (repeat' split at made) <;> cases made
    all_goals simp [setToken]
  case h_5 | h_6 =>
    repeat' split at made
    any_goals cases made
    exact tables_of_postMatrix (Sum.inr.inj made)

theorem keepsTables_of_copyRow (h : copyRow i = some r) (s : State) : KeepsTables s (exec i s) := by
  unfold copyRow at h
  split at h <;> cases h
  all_goals
    simp only [exec_cpy, exec_cpyo, exec_cpyc, exec_patch, exec_go, exec_rinit, exec_await, exec_rels, execCpy, execCpyo, execCpyc,
      execPatch, execGo, execRinit, execAwait, execRels]
    refine runWord_tables fun w _ _ => ?_
  case h_1 | h_2 | h_3 =>
    (repeat' split) <;> simp
    all_goals exact tables_of_openCardOf ‹_›
  case h_7 =>
    (repeat' split) <;> simp
    exact (tables_of_takeSlot ‹_›).trans (setRing_tables ..)
  all_goals (repeat' split) <;> simp

/-! ### Work queues, services and calls -/

@[simp] theorem noteQueue_tables (s t va need) : (noteQueue s t va need).tables = s.tables := by
  unfold noteQueue; dsimp only; (repeat' split) <;> simp [logWalk]

@[simp] theorem needPage_tables (s t va kind) : (needPage s t va kind).tables = s.tables := by simp [needPage]

@[simp] theorem waitPages_tables (s l kind) : (waitPages s l kind).tables = s.tables := by simp [waitPages]

/-- A queue access of one thread that leaves a state leaves one with the tables of `s`. -/
def QueueKeepsTables (s : State) : QRes → Prop
  | .done s1 _ => s1.tables = s.tables
  | .wait s1 => s1.tables = s.tables
  | _ => True

/-- In the proof `deqPick` and `readBad` stand as variables, so that the kernel does not evaluate them. -/
theorem deqTry_tables (s t va) : QueueKeepsTables s (deqTry s t va) := by
  obtain ⟨pick, pick_eq⟩ : ∃ f, deqPick = f := ⟨_, rfl⟩
  obtain ⟨bad, bad_eq⟩ : ∃ f, readBad = f := ⟨_, rfl⟩
  unfold deqTry
  rw [pick_eq, bad_eq]
  split
  · trivial
  · trivial
  next pa h0 _ =>
    split_ifs
    · trivial
    · rfl
    extract_lets c
    split
    · exact tables_of_hdrOpen ‹_›
    next s0 h found =>
    have opened := tables_of_hdrOpen found
    extract_lets r
    split
    · simp [QueueKeepsTables, opened]
    · trivial
    · trivial
    split
    · trivial
    extract_lets s1 item
    have read : s1.tables = s.tables := by simp only [s1]; split <;> simp [opened]
    simp [QueueKeepsTables, fqTaken, read]

theorem tables_of_deqTry_done {s t va s1 bs} (done : deqTry s t va = .done s1 bs) : s1.tables = s.tables := by
  have tried := deqTry_tables s t va
  rwa [done] at tried

theorem tables_of_deqTry_wait {s t va s1} (waits : deqTry s t va = .wait s1) : s1.tables = s.tables := by
  have tried := deqTry_tables s t va
  rwa [waits] at tried

theorem tables_of_svcPostTo {s p t buf func s1 tag} (posted : svcPostTo s p t buf func = some (s1, tag)) : s1.tables = s.tables := by
  unfold svcPostTo at posted
  dsimp only at posted
  repeat' split at posted
  any_goals cases posted
  simp [tables_of_hdrOpen ‹_›]

/-! ### Acknowledged faults (R213) -/

@[simp] theorem fqWithdraw_tables (s asid page) : (fqWithdraw s asid page).tables = s.tables := by
  unfold fqWithdraw
  dsimp only
  split
  · rfl
  · exact foldl_tables (fun s x => by (repeat' split) <;> simp [ioPut]) _ _

@[simp] theorem ackThread_tables (asid page deny s t) : (ackThread asid page deny s t).tables = s.tables := by
  unfold ackThread
  extract_lets who mop s1 s2
  have h1 : s1.tables = s.tables := foldl_tables (fun s j => by simp only [mop]; (repeat' split) <;> simp) _ s
  have h2 : s2.tables = s.tables := by simp only [s2]; (repeat' split) <;> simp [h1]
  (repeat' split) <;> simp [h2]

@[simp] theorem ackJob_tables (asid page deny core s j) : (ackJob asid page deny core s j).tables = s.tables := by simp [ackJob]

@[simp] theorem ackJobs_tables (asid page deny s core) : (ackJobs asid page deny s core).tables = s.tables := by simp [ackJobs]

@[simp] theorem ackCtxs_tables (asid page deny s st) : (ackCtxs asid page deny s st).tables = s.tables := by simp [ackCtxs]

@[simp] theorem fqackOne_tables (s a b) : (fqackOne s a b).1.tables = s.tables := by
  unfold fqackOne; dsimp only; (repeat' split) <;> simp [ackPage]

theorem keepsTables_of_queueRow (h : queueRow i = some r) (s : State) : KeepsTables s (exec i s) := by
  unfold queueRow at h
  split at h <;> cases h
  case h_2 => exact runThreads_tables ..
  all_goals
    simp only [exec_deq, exec_svc, exec_rcall, exec_fqack, exec_qsub, exec_qcancel, execDeq, execSvc, execRcall, execFqack, execQsub,
      execQcancel]
    refine runWord_tables fun _ _ acting => ?_
  case h_6 | h_7 => (repeat' split) <;> simp
  case h_1 =>
    split
    · trivial
    refine foldl_fst_tables (fun x t => ?_) acting (s, [])
    split
    · exact tables_of_deqTry_done ‹_›
    · exact tables_of_deqTry_wait ‹_›
    · simp
    · simp
  case h_3 =>
    split
    · trivial
    split
    · simp
    refine foldl_fst_tables (fun x t => ?_) acting (s, [])
    (repeat' split)
    any_goals simp
    next posted =>
      split at posted
      · exact tables_of_svcPostTo posted
      · cases posted
  all_goals
    split
    · trivial
  case h_4 =>
    split
    · simp
    exact foldl_fst_tables (fun x t => by (repeat' split) <;> simp) acting (s, [])
  case h_5 =>
    exact foldl_fst_tables (fun x t => by simp) acting (s, [])

/-! ### Every word -/

theorem keepsTables_of_wordRow (h : wordRow i = some r) (s : State) : KeepsTables s (exec i s) := by
  obtain ⟨row, mem, h⟩ := exists_of_firstSome h
  simp only [List.mem_cons, List.not_mem_nil, or_false] at mem
  obtain rfl | rfl | rfl | rfl | rfl | rfl | rfl | rfl | rfl | rfl | rfl | rfl | rfl | rfl | rfl | rfl | rfl | rfl | rfl := mem
  · exact keepsTables_of_threadTable integerRow_threads h s
  · exact keepsTables_of_predicateRow h s
  · exact keepsTables_of_threadTable bitRow_threads h s
  · exact keepsTables_of_threadTable packedRow_threads h s
  · exact keepsTables_of_threadTable pairRegRow_threads h s
  · exact keepsTables_of_uniformRow h s
  · exact keepsTables_of_threadTable floatRow_threads h s
  · exact keepsTables_of_convertRow h s
  · exact keepsTables_of_threadTable longImmRow_threads h s
  · exact keepsTables_of_threadTable pairWordRow_threads h s
  · exact keepsTables_of_controlRow h s
  · exact keepsTables_of_crossRow h s
  · exact keepsTables_of_accessRow h s
  · exact keepsTables_of_bufferRow h s
  · exact keepsTables_of_matrixRow h s
  · exact keepsTables_of_copyRow h s
  · exact keepsTables_of_queueRow h s
  · exact keepsTables_of_barrierRow h s
  · exact keepsTables_of_systemRow h s

end

/-- What follows the commit of a word keeps the tables where the word does. -/
theorem keepsTables_andThen {s : State} {o : Out} {f : State → State} (keeps : ∀ s1, (f s1).tables = s1.tables) :
    KeepsTables s o → KeepsTables s (match o with
      | .next s1 => .next (f s1)
      | r => r) := by
  intro word
  cases o with
  | next s1 => exact (keeps s1).trans word
  | fault | refused => trivial

theorem execExit_tables (g : Guard) (s : State) : KeepsTables s (execExit g s) := by
  unfold execExit
  split
  · rfl
  next w l _ =>
    exact keepsTables_andThen (f := fun s1 => resumeIfDone (dropOpenCard s1 w) (teamOfWarp s w)) (fun _ => by simp)
      (runWord_tables fun _ _ acting => (exitThreads_tables s acting :))

theorem execRett_tables (g : Guard) (s : State) : KeepsTables s (execRett g s) := by
  unfold execRett
  split
  · rfl
  next w l _ =>
    refine keepsTables_andThen (f := fun s1 => resumeIfDone s1 (teamOfWarp s w)) (fun _ => by simp)
      (runWord_tables fun _ _ acting => ?_)
    dsimp only
    split <;> simp

/-- The words that stand in no table: those that end a thread or a handler state, or trap. -/
def Instr.isEnd : Instr → Prop
  | .exit _ | .rett _ | .trap _ _ | .ebrk _ => True
  | _ => False

theorem keepsTables_of_isEnd {i : Instr} (ends : Instr.isEnd i) (s : State) : KeepsTables s (exec i s) := by
  unfold Instr.isEnd at ends
  split at ends
  · exact execExit_tables ..
  · exact execRett_tables ..
  · rw [exec_trap, execTrap]
    exact runWord_tables fun _ _ _ => trivial
  · rw [exec_ebrk, execEbrk]
    exact runWord_tables fun _ _ _ => trivial
  · exact ends.elim

/-- Every word of Nimia stands in a table or is one of those four; every other instruction has no word of Nimia. -/
theorem wordRow_or_isEnd {i : Instr} (nimia : Instr.isNimia i) : (∃ r, wordRow i = some r) ∨ Instr.isEnd i := by
  cases i with
  | exit | rett | trap | ebrk => exact .inr trivial
  | icmp h c p ops => cases ops <;> exact .inl ⟨_, rfl⟩
  | shfl h f | ballot h f => cases f <;> exact .inl ⟨_, rfl⟩
  | redux h op d a => cases d <;> exact .inl ⟨_, rfl⟩
  | spawn | joinw | ecreate | edestroy | eattest | illegalOpcode | illegalInstructionException | spawnAppend | joinwComplete
    | map | unmap | prot | move | sealPage | unsealPage | usage | svcq | spdmCall | bind | pload | punload | range | coldReset
    | warmReset | firmwareImage | hostLinkTraining | hello | discoveryWindowEnd | claim | leaderSilent | podFlitReceive
    | staggeredStartStep | arrayRampDone | pwrlim | emergencyPowerReduction | mslim | mscfg | meadowStoreSplitChange | pcfg
    | partitionBuild | gsw | guestSwitchCommit | replyDoorbell | llaunch | sleep | commit | wake | registerWrite
    | tdispRequest | lockInterfaceRequest | ideKmKeyProgramming | hostMemoryAccess | getVersion | getCapabilities
    | negotiateAlgorithms | getDigests | getCertificate | challenge | getMeasurements | keyExchange | finish | endSession
    | spdmUnsupportedRequest | virtualFunctionReset | dispatchRecord | grovePlacement | placementStarvation | issueSelection
    | waitCountStarvation | bindRecordWrite | teamRetirement | queueSliceBoundary | storeBufferDrain | loadReturn
    | atomicPerform | walkComplete | faultQueueRoom | registerLineFill | rgrowGrant | handlerEntry | barrierPhaseComplete
    | deqTake | enqReservation | awaitTake | mbarWaitWake | ldfWake | stfWaitWake | napWake | svcPost | maintenanceComplete
    | rsvComplete | acqComplete | unrsvComplete | matrixJobStart | kStep | arraySwitchPoint | matrixJobComplete | budgetRefill
    | copyJobStart | ringSlotClaim | copyPieceDelivery | relayHop | copyJobComplete | copyJobFault | queryContextAllocate
    | distanceReply | adjacencyReply | queryPublish | shootdownAck | migrationPass | lrd | lwr | rrd | rup | evt | erd | ewr
    | cln | inv | directoryAck | tmo | proxyInvalidation | copyInvalidation | replicaLock | replicaUpdate | partitionSwapOut
    | partitionSwapIn | usageRecordPeriodic | podLinkTraining | meadowStoreWriteBack =>
    obtain ⟨x, word⟩ := nimia
    cases word
  | _ => exact .inl ⟨_, rfl⟩

theorem exec_tables {i : Instr} (nimia : Instr.isNimia i) (s : State) : KeepsTables s (exec i s) := by
  obtain ⟨r, found⟩ | ends := wordRow_or_isEnd nimia
  · exact keepsTables_of_wordRow found s
  · exact keepsTables_of_isEnd ends s

/-- Settles O57: CLOCK stays as `exec_clock` says, and the tables as every function that a word uses leaves them. -/
theorem wordsLeaveTables : Obligations.WordsLeaveTables := by
  intro i s s' nimia answer
  have tables := exec_tables nimia s
  have clock := exec_clock i s (by rintro rfl; obtain ⟨x, word⟩ := nimia; cases word)
  rw [answer] at tables clock
  simp only [KeepsTables, State.tables, Prod.mk.injEq] at tables
  obtain ⟨pot, asids, keys, ranges, protos, fuses, boot, ret, spdm, launches⟩ := tables
  exact ⟨pot, asids, keys, ranges, protos, fuses, boot, ret, spdm, launches, clock⟩

end Sys2Proof.Machine
end

section
/-! Stores, loads and atomics perform as their rules say (R216, R222, R226, R236, R237, R257, R260, R268, R274, R275, R364, R402). -/
namespace Sys2Proof.Machine
-- One declaration at a time: each more thread of the compiler takes a stack out of the same memory.
set_option Elab.async false

section
variable {s : State} {t j c p : Nat} {o : MemOp} {e : TlbEntry}

/-! ### Which operation an event takes (R236, R237, R240) -/

/-- The oldest operation of a thread, a store, drains once no lower lane of its word comes before it. -/
theorem exec_storeBufferDrain_store {bs : List Byte} (queued : getMop s t 0 = some o) (kind : o.kind = .store bs)
    (lane : lowerLaneFirst s t o = false) : exec (.storeBufferDrain t) s = tryMop s t 0 := by
  simp [exec_storeBufferDrain, execStoreBufferDrain, queued, kind, lane]

/-- So does an `stf`. -/
theorem exec_storeBufferDrain_stf {wait : Bool} {bs : List Byte} (queued : getMop s t 0 = some o) (kind : o.kind = .stf wait bs)
    (lane : lowerLaneFirst s t o = false) : exec (.storeBufferDrain t) s = tryMop s t 0 := by
  simp [exec_storeBufferDrain, execStoreBufferDrain, queued, kind, lane]

/-- The oldest operation of a thread is its oldest load, where it is a load. -/
theorem findIdx?_isLoad_of_head (queued : getMop s t 0 = some o) (load : isLoad o = true) :
    (getTh s t).mq.findIdx? isLoad = some 0 := by
  cases queue : (getTh s t).mq with
  | nil => simp [getMop, queue] at queued
  | cons x l =>
    obtain rfl : x = o := by simpa [getMop, queue] using queued
    simp [List.findIdx?_cons, load]

/-- The oldest operation of a thread, a load, returns: nothing stands before it. -/
theorem exec_loadReturn_load {w : LdW} {rlx : Bool} {dst : List Nat} (queued : getMop s t 0 = some o) (ready : o.st = .ready)
    (kind : o.kind = .load w rlx dst) : exec (.loadReturn t) s = tryMop s t 0 := by
  have oldest := findIdx?_isLoad_of_head queued (by simp [isLoad, kind])
  simp [exec_loadReturn, execLoadReturn, oldest, queued, ready, kind]

/-- A `sld` returns for the first of the threads that issued it, once it is the oldest operation of each (R149). -/
theorem exec_loadReturn_sld {d : Nat} (queued : getMop s t 0 = some o) (ready : o.st = .ready) (kind : o.kind = .sld d)
    (lead : (sldThreads s t o).head? = some t)
    (first : ∀ u ∈ sldThreads s t o, ∃ x, getMop s u 0 = some x ∧ x.kind = o.kind ∧ x.step = o.step) :
    exec (.loadReturn t) s = tryMop s t 0 := by
  have oldest := findIdx?_isLoad_of_head queued (by simp [isLoad, kind])
  simp only [exec_loadReturn, execLoadReturn, oldest, queued, ready, kind, ne_eq, not_true_eq_false, if_false]
  refine if_pos ⟨lead, List.all_eq_true.2 fun u issued => ?_⟩
  obtain ⟨x, head, same, step⟩ := first u issued
  simp [head, same, step, kind]

/-- An atomic performs as the oldest of its thread. -/
theorem exec_atomicPerform_atomic {op : AtomOp} {wide : Bool} {ord : AtomOrd} {sc : Scope} {dst : List Nat} {b cmp : Nat}
    (queued : getMop s t 0 = some o) (kind : o.kind = .atomic op wide ord sc dst b cmp) (lane : lowerLaneFirst s t o = false)
    (held : atomHeld s t o = false) : exec (.atomicPerform t) s = tryMop s t 0 := by
  simp [exec_atomicPerform, execAtomicPerform, queued, kind, lane, held]

/-- So does a reduction. -/
theorem exec_atomicPerform_red {op : AtomOp} {wide : Bool} {ord : AtomOrd} {sc : Scope} {b : Nat}
    (queued : getMop s t 0 = some o) (kind : o.kind = .red op wide ord sc b) (lane : lowerLaneFirst s t o = false)
    (held : atomHeld s t o = false) : exec (.atomicPerform t) s = tryMop s t 0 := by
  simp [exec_atomicPerform, execAtomicPerform, queued, kind, lane, held]

/-! ### Trying to perform (R226, R363 to R365) -/

theorem tryMop_of_glob (queued : getMop s t j = some o) (ready : o.st = .ready) (core : coreOf t < 1024) (glob : o.glob = true) :
    tryMop s t j = tryGlob s t j o := by
  simp [tryMop, queued, ready, Nat.not_le.2 core, glob]

/-- An operation that may perform does. -/
theorem MayPerform.tryMop_eq (may : MayPerform s t j o e p) : tryMop s t j = .next (performAt s t j o e p) := by
  obtain ⟨queued, ready, core, glob, aligned, ⟨pa, hit, rfl⟩, right⟩ := may
  rw [tryMop_of_glob queued ready core glob]
  obtain kick | ⟨exists', backed, still, right⟩ := right
  · simp [tryGlob, aligned, hit, kick]
  · have here : ¬ (inWindow (transPa s e pa) && !windowBacked s (transPa s e pa)) = true := by simpa using backed
    have moves : ¬ (!mopReads o.kind && migrHolds s (transPa s e pa)) = true := by simpa using still
    simp only [tryGlob, aligned, hit, exists', if_neg here, if_neg moves, right]
    simp

/-- An operation at its scratchpad port performs there. -/
theorem AtPort.tryMop_eq (port : AtPort s t j o) : tryMop s t j = .next (performSp s t j o) := by
  obtain ⟨queued, ready, core, sp, -⟩ := port
  simp [tryMop, queued, ready, Nat.not_le.2 core, sp]

/-! ### What the home's check says (R260) -/

theorem accessBad_of_reads {k : MopKind} (reads : mopReadsData k = true) : accessBad s e p k = readBad s e p (mopSize k) :=
  if_pos reads

theorem accessBad_store (bs : List Byte) :
    accessBad s e p (.store bs) = if e.mt ≠ 1 ∧ eccBad s p bs.length then some ccUncorrectable else none := rfl

/-- What an operation that reads its bytes meets is sound where they pass the check. -/
theorem ReadsWell.accessBad_eq (well : ReadsWell s o e p) (reads : mopReadsData o.kind = true) :
    accessBad (meterFetch s e p) e p o.kind = none :=
  (accessBad_of_reads reads).trans well

/-- An operation whose data fails the check faults late and does nothing else. -/
theorem performAt_of_bad (bad : accessBad (meterFetch s e p) e p o.kind = some c) :
    performAt s t j o e p = mopFault (noteBad (meterFetch s e p) e p (mopSize o.kind)) t j o c := by
  simp only [performAt, bad]

/-! ### At a scratchpad port (R216, R222, R223) -/

/-- An operation that meets an uncorrectable error of the plain window faults late. -/
theorem AtPort.performSp_of_meets {k phys off : Nat} (port : AtPort s t j o)
    (place : spResolve s (teamOf s t) o.addr (mopSize o.kind) = .plain k phys off) (bad : spMeets s t o (k / 4) phys = true) :
    performSp s t j o = mopFault s t j o ccUncorrectable := by
  simp [performSp, port.aligned, place, bad]

/-- An `stf` writes its whole granule, so it reads no error there. -/
theorem spMeets_stf {wait : Bool} {bs : List Byte} {phys : Nat} (queued : getMop s t 0 = some o) (kind : o.kind = .stf wait bs) :
    spMeets s t o c phys = false := by
  simp [spMeets, takesGranule, queued, kind, mopSize, mopReadsData]

end

/-- Settles O27: the conditions of each rule pick the operation, then the branch of its attempt, by the lemmas above. -/
theorem memoryPipeline : Obligations.MemoryPipeline := by
  intro i s s' h
  cases h with
  | store _ t o e p bs may kind lane well =>
    have sound : accessBad (meterFetch s e p) e p (.store bs) = none := by
      rw [accessBad_store, if_neg]; exact fun ⟨plain, bad⟩ => Bool.false_ne_true ((well plain).symm.trans bad)
    rw [exec_storeBufferDrain_store may.queued kind lane, may.tryMop_eq]
    simp only [performAt, kind, sound]
  | storeBad _ t o e p bs may kind lane plain bad =>
    have refused : accessBad (meterFetch s e p) e p o.kind = some ccUncorrectable := by
      rw [kind, accessBad_store, if_pos ⟨plain, bad⟩]
    rw [exec_storeBufferDrain_store may.queued kind lane, may.tryMop_eq, performAt_of_bad refused, kind]
    rfl
  | storeAsks _ t o e pa ev bs queued ready core glob aligned hit plain exists' backed still kind lane right =>
    rw [exec_storeBufferDrain_store queued kind lane, tryMop_of_glob queued ready core glob]
    have here : ¬ (inWindow (transPa s e pa) && !windowBacked s (transPa s e pa)) = true := by simpa using backed
    have writes : mopReads o.kind = false := by rw [kind]; rfl
    simp [tryGlob, aligned, hit, plain, exists', here, still, writes, right]
  | misaligned _ t o bs queued ready core glob bad kind lane =>
    rw [exec_storeBufferDrain_store queued kind lane, tryMop_of_glob queued ready core glob, tryGlob, if_pos bad]
  | walks _ t o bs queued ready core glob aligned kind lane miss absent =>
    rw [exec_storeBufferDrain_store queued kind lane, tryMop_of_glob queued ready core glob]
    have need : mopNeed o.kind = .w := by rw [kind]; rfl
    have code : mopFaultKind o.kind = 3 := by rw [kind]; rfl
    simp [tryGlob, aligned, miss, need, absent, code]
  | walkRefuses _ t c o bs logged queued ready core glob aligned kind lane miss refused =>
    rw [exec_storeBufferDrain_store queued kind lane, tryMop_of_glob queued ready core glob]
    have need : mopNeed o.kind = .w := by rw [kind]; rfl
    simp [tryGlob, aligned, miss, need, refused]
  | storePlain _ t k phys off o bs port kind lane place well =>
    rw [exec_storeBufferDrain_store port.queued kind lane, port.tryMop_eq]
    simp only [performSp, port.aligned, place, well, if_false, ne_eq, not_true_eq_false, Bool.false_eq_true]
    simp only [kind]
  | storePlainBad _ t k phys off o bs port kind lane place bad =>
    rw [exec_storeBufferDrain_store port.queued kind lane, port.tryMop_eq, port.performSp_of_meets place bad]
  | storeStep _ t k off o bs port kind lane place =>
    rw [exec_storeBufferDrain_store port.queued kind lane, port.tryMop_eq]
    have blind : mopReadsData o.kind = false := by rw [kind]; rfl
    simp only [performSp, port.aligned, place, blind, if_false, ne_eq, not_true_eq_false, Bool.false_and, Bool.false_eq_true]
    simp only [kind]
  | stf _ t k phys off o bs port kind lane place served =>
    rw [exec_storeBufferDrain_stf port.queued kind lane, port.tryMop_eq]
    simp only [performSp, port.aligned, place, spMeets_stf port.queued kind, if_false, ne_eq, not_true_eq_false, Bool.false_eq_true]
    simp [kind, served]
  | stfAfter _ t k phys off o bs port kind lane place served =>
    rw [exec_storeBufferDrain_stf port.queued kind lane, port.tryMop_eq]
    simp only [performSp, port.aligned, place, spMeets_stf port.queued kind, if_false, ne_eq, not_true_eq_false, Bool.false_eq_true]
    simp [kind, served]
  | maintenance _ t o k len queued kind ready =>
    simp [exec_storeBufferDrain, execStoreBufferDrain, queued, kind, ready]
  | load _ t o e p w rlx dst may kind well =>
    have sound := well.accessBad_eq (by rw [kind]; rfl)
    rw [exec_loadReturn_load may.queued may.ready kind, may.tryMop_eq]
    simp only [performAt, sound]
    simp only [kind]
  | loadBad _ t c o e p w rlx dst may kind bad =>
    rw [exec_loadReturn_load may.queued may.ready kind, may.tryMop_eq,
      performAt_of_bad ((accessBad_of_reads (by rw [kind]; rfl)).trans bad)]
  | forwarded _ t j o w dst bs oldest later queued ready kind past aligned found =>
    simp only [exec_loadReturn, execLoadReturn, oldest, queued, ready, aligned, past, found]
    simp [kind, Nat.ne_of_gt later]
  | loadPlain _ t k phys off o w rlx dst port kind place well =>
    rw [exec_loadReturn_load port.queued port.ready kind, port.tryMop_eq]
    simp only [performSp, port.aligned, place, well, if_false, ne_eq, not_true_eq_false, Bool.false_eq_true]
    simp only [kind]
  | loadPlainBad _ t k phys off o w rlx dst port kind place bad =>
    rw [exec_loadReturn_load port.queued port.ready kind, port.tryMop_eq, port.performSp_of_meets place bad]
  | loadStep _ t k off o w rlx dst port kind place well =>
    rw [exec_loadReturn_load port.queued port.ready kind, port.tryMop_eq]
    simp only [performSp, port.aligned, place, well, if_false, ne_eq, not_true_eq_false, Bool.and_false, Bool.false_eq_true]
    simp only [kind]
  | sld _ t o e p d may kind lead first well =>
    have sound := well.accessBad_eq (by rw [kind]; rfl)
    rw [exec_loadReturn_sld may.queued may.ready kind lead first, may.tryMop_eq]
    simp only [performAt, sound]
    simp only [kind]
  | atomic _ t o e p op wide ord sc dst b cmp may kind lane held well =>
    have sound := well.accessBad_eq (by rw [kind]; rfl)
    rw [exec_atomicPerform_atomic may.queued kind lane held, may.tryMop_eq]
    simp only [performAt, sound]
    rewrite [kind]
    rfl
  | reduction _ t o e p op wide ord sc b v may kind lane held well new =>
    have sound := well.accessBad_eq (by rw [kind]; rfl)
    rw [exec_atomicPerform_red may.queued kind lane held, may.tryMop_eq]
    rw [kind] at new
    simp only [performAt, sound]
    simp only [kind, new]
  | atomicBad _ t c o e p op wide ord sc dst b cmp may kind lane held bad =>
    rw [exec_atomicPerform_atomic may.queued kind lane held, may.tryMop_eq,
      performAt_of_bad ((accessBad_of_reads (by rw [kind]; rfl)).trans bad)]
  | reductionBad _ t c o e p op wide ord sc b may kind lane held bad =>
    rw [exec_atomicPerform_red may.queued kind lane held, may.tryMop_eq,
      performAt_of_bad ((accessBad_of_reads (by rw [kind]; rfl)).trans bad)]
  | atomicPlain _ t k phys off o op wide ord sc dst b cmp port kind lane held place well =>
    rw [exec_atomicPerform_atomic port.queued kind lane held, port.tryMop_eq]
    simp only [performSp, port.aligned, place, well, if_false, ne_eq, not_true_eq_false, Bool.false_eq_true]
    rewrite [kind]
    rfl

end Sys2Proof.Machine
end

section
/-! The homes' events do what their rules say (R226, R378 to R388). -/
namespace Sys2Proof.Machine
-- One declaration at a time: each more thread of the compiler takes a stack out of the same memory.
set_option Elab.async false

section
variable {s : State} {i ev v g : Nat} {rq : HomeReq} {a : Agent} {p : PendRec}

/-! ### Requests (R378, R380, R384 to R386) -/

/-- Each request event takes the request at its place, where that is of its kind. -/
theorem exec_of_requestRow {x : Instr} (row : requestRow x = some (i, ev)) (s : State) : exec x s = .next (takeRequest s i [ev]) := by
  unfold requestRow at row
  split at row <;> cases row
  · exact exec_lrd ..
  · exact exec_lwr ..
  · exact exec_rrd ..
  · exact exec_rup ..
  · exact exec_erd ..
  · exact exec_ewr ..
  · exact exec_cln ..
  · exact exec_inv ..

/-- Nothing keeps a request that may be taken from its event, and its home has what it needs. -/
theorem Taken.not_waits (t : Taken s i rq) :
    ¬ (!([rq.ev].any fun e => decide (e = rq.ev)) || (s.reqs.take i).any (fun r => decide (r.grain = rq.grain) && !writeHeld s r) ||
      writeHeld s rq) = true := by
  rw [t.oldest, t.free]; simp

theorem Taken.not_full (t : Taken s i rq) :
    ¬ (!homeRoom s rq.grain (eventEntry s rq.grain rq.ev (requestRel s rq) % 2 ^ 14)) = true := by
  rw [t.room]; simp

/-- It is handled where its slice has a place for the entry of its grain. -/
theorem Taken.takeRequest_space (t : Taken s i rq) (space : reclaim s rq.grain = none) : takeRequest s i [rq.ev] = handled s i rq := by
  simp only [takeRequest, t.at', if_neg t.not_waits]
  refine (if_neg t.not_full).trans ?_
  rw [space]
  rfl

/-- In a full slice it is handled where it leaves no entry. -/
theorem Taken.takeRequest_noEntry (t : Taken s i rq) (full : reclaim s rq.grain = some v)
    (none' : smFind? (handled s i rq).dir rq.grain = none) : takeRequest s i [rq.ev] = handled s i rq := by
  simp only [takeRequest, t.at', if_neg t.not_waits]
  refine (if_neg t.not_full).trans ?_
  rw [full]
  exact if_pos (Option.isNone_iff_eq_none.2 none')

/-- In a full slice one that leaves an entry waits for the home's own INV. -/
theorem Taken.takeRequest_evicts (t : Taken s i rq) (full : reclaim s rq.grain = some v)
    (some' : (smFind? (handled s i rq).dir rq.grain).isSome = true)
    (first : s.reqs.any (fun r => decide (r.grain = v) && decide (r.tag = .home)) = false) :
    takeRequest s i [rq.ev] =
      { s with reqs := s.reqs ++ [⟨evINV, v, ioAgent, true, true, (rangeFrom (v * 4) 4).map (2 * ·), .home, none⟩] } := by
  simp only [takeRequest, t.at', if_neg t.not_waits]
  refine (if_neg t.not_full).trans ?_
  rw [full]
  refine (if_neg ?_).trans (if_neg (ne_true_of_eq_false first))
  exact fun no => Option.isSome_iff_ne_none.1 some' (Option.isNone_iff_eq_none.1 no)

/-- A write of a core of the home's meadow meets its entry under its relation. -/
theorem Taken.exec_lwr (t : Taken s i rq) (write : rq.ev = 1) (space : reclaim s rq.grain = none) :
    exec (.lwr i) s = .next (homeEvent 4 { s with reqs := s.reqs.eraseIdx i } rq.grain 1 (relOf s rq.grain rq.core) rq) := by
  rw [exec_of_requestRow rfl, ← write, t.takeRequest_space space, handled, requestRel, if_pos (by omega)]

/-! ### Entries (R385, R386) -/

/-- An entry with a fault code faults its request and changes nothing at the home. -/
theorem homeEvent_of_code {n rel : Nat} (code : eventEntry s g ev rel / 2 ^ 24 % 8 = 2) (all : eventEntry s g ev rel / 2 ^ 23 % 2 = 0) :
    homeEvent (n + 1) s g ev rel rq = completeReq s rq (some ccWriteOnce) := by
  simp only [homeEvent, code, all]
  simp

/-- An entry whose one action is HOLD queues the request of a core's write while its state is transient. -/
theorem homeEvent_of_hold {n rel : Nat} (code : eventEntry s g 1 rel / 2 ^ 24 % 8 = 0) (hold : eventEntry s g 1 rel % 2 ^ 14 = aHOLD)
    (transient : stTrans (protoDesc s (protoOf s g) (eventEntry s g 1 rel / 2 ^ 27 % 16)) = true) :
    homeEvent (n + 1) s g 1 rel rq = enterState { s with heldReqs := s.heldReqs ++ [rq] } g (eventEntry s g 1 rel / 2 ^ 27 % 16) := by
  have sets (e : Nat) : doSets s g e aHOLD 1 rq = s := by simp [doSets, hasAct, aHOLD, aDEX, aDSH, aSADD, aSDEL]
  have round : roundOf s g aHOLD rq = none := by simp [roundOf, hasAct, aHOLD, aIALL, aRINV, aRSHR, aLOCK, aUPDU]
  simp only [homeEvent, code, hold, sets, round, transient]
  simp [hasAct, aHOLD, aUPDU, aSAVE, aWB, aRSND, aDONE, evEVT]

/-! ### Rounds (R379, R386) -/

/-- The oldest acknowledgement of an agent's channel reaches the home. -/
theorem exec_directoryAck_sent {who : Requester} (agent : a = homeAgent g (requesterId who))
    (sent : s.ackQ.find? (fun x => decide (x.2 = a) && decide (channelOf x.1 a = channelOf g a)) = some (g, a)) :
    exec (.directoryAck g who) s = .next (ackRound { s with ackQ := s.ackQ.erase (g, a) } g a) := by
  subst agent
  simp only [exec_directoryAck, execDirectoryAck, sent, if_true]

/-- An acknowledgement of a round that has no owner to recall to S is taken off; the last raises the round's event. -/
theorem ackRound_of_awaits (round : smFind? s.pends g = some p) (awaits : p.await.any (fun x => decide (x.agent = a)) = true)
    (plain : p.await.all (fun x => decide (x.agent ≠ a) || decide (x.kind ≠ .share)) = true) :
    ackRound s g a =
      if p.await.all (fun x => decide (x.agent = a)) then
        homeEvent 4 (dropOwed s g fun x => decide (x.agent = a)) g p.round 3 p.req
      else dropOwed s g fun x => decide (x.agent = a) := by
  have alone : (p.await.filter fun x => decide (x.agent = a) && decide (x.kind = .share)) = [] := by
    simp only [List.filter_eq_nil_iff, List.all_eq_true] at plain ⊢
    intro x member
    simpa [imp_iff_not_or] using plain x member
  simp only [ackRound, round, awaits, alone]
  rfl

/-- An agent of the home's own meadow, or the home agent, is reached as itself, not through a proxy slice. -/
theorem agentOf_ioHome_or_core (c : Nat) : agentOf c = .ioHome ∨ agentOf c = .core c := by
  unfold agentOf
  split
  · exact .inl rfl
  · exact .inr rfl

end

/-- Settles O30: the conditions of each rule decide the guards of its event, by the lemmas above for requests, entries and rounds. -/
theorem homesAct : Obligations.HomesAct := by
  intro x s s' h
  cases h with
  | request _ _ i ev rq row event t space =>
    subst event
    rw [exec_of_requestRow row, t.takeRequest_space space]
  | requestNoEntry _ _ i ev v rq row event t full none' =>
    subst event
    rw [exec_of_requestRow row, t.takeRequest_noEntry full none']
  | requestEvicts _ _ i ev v rq row event t full some' first =>
    subst event
    rw [exec_of_requestRow row, t.takeRequest_evicts full some' first]
    rfl
  | held _ i rq t ev space code hold transient =>
    rw [t.exec_lwr ev space, homeEvent_of_hold (s := { s with reqs := s.reqs.eraseIdx i }) code hold transient]
    rfl
  | writeOnce _ i rq t ev space code all =>
    rw [t.exec_lwr ev space, homeEvent_of_code (s := { s with reqs := s.reqs.eraseIdx i }) code all]
  | evt _ grain who copy order =>
    simp [exec_evt, execEvt, copy, order]
  | ack _ grain who a p agent sent round awaits plain more =>
    rw [exec_directoryAck_sent agent sent,
      ackRound_of_awaits (s := { s with ackQ := s.ackQ.erase (grain, a) }) round awaits plain, more]
    rfl
  | lastAck _ grain who a p agent sent round awaits plain last =>
    rw [exec_directoryAck_sent agent sent,
      ackRound_of_awaits (s := { s with ackQ := s.ackQ.erase (grain, a) }) round awaits plain, if_pos last]
  | tmo _ grain p round late few =>
    simp [exec_tmo, execTmo, round, Nat.not_lt.2 late, Nat.not_le.2 few]
  | tmoState _ grain none' transient late =>
    simp [exec_tmo, execTmo, none', transient, Nat.not_lt.2 late]
  | lost _ grain p round late eighth =>
    simp [exec_tmo, execTmo, round, Nat.not_lt.2 late, eighth]
  | copy _ s1 grain who msg took direct =>
    rw [exec_copyInvalidation, execCopyInvalidation, direct]
    simp only [took]
    obtain io | core := agentOf_ioHome_or_core (requesterId who)
    · rw [io]
    · rw [core]
  | copyLast _ s1 grain m who msg took far kind waits last =>
    simp [exec_copyInvalidation, execCopyInvalidation, took, far, kind, waits, last]
  | copyMore _ s1 grain m who msg took far kind more =>
    simp [exec_copyInvalidation, execCopyInvalidation, took, far, kind, more]
  | copyRecalled _ s1 grain m who msg took far kind waits =>
    simp [exec_copyInvalidation, execCopyInvalidation, took, far, kind, waits]
  | proxyNone _ s1 grain m msg took kind none' =>
    simp [exec_proxyInvalidation, execProxyInvalidation, took, kind, none']
  | proxy _ s1 grain m msg took kind some' =>
    simp [exec_proxyInvalidation, execProxyInvalidation, took, kind, some']
  | proxyRecall _ s1 grain m msg took kind first =>
    simp [exec_proxyInvalidation, execProxyInvalidation, took, kind, first]
  | lock _ s1 grain m msg took =>
    simp [exec_replicaLock, execReplicaLock, took, sendAck]
  | update _ s1 grain m msg took =>
    simp [exec_replicaUpdate, execReplicaUpdate, took, sendAck]
  | writeBack _ line x dirty =>
    simp [exec_meadowStoreWriteBack, execMeadowStoreWriteBack, writeBackMetered, dirty, writeBack]

end Sys2Proof.Machine
end

section
/-! Memory (R235, R236): the functions that leave it as it is, in the order of the model's files. -/
namespace Sys2Proof.Machine
-- One declaration at a time: each more thread of the compiler takes a stack out of the same memory.
set_option Elab.async false

/-! ### Branches and folds -/

@[simp] theorem memory_ite (p : Prop) [Decidable p] (a b : State) :
    (if p then a else b).mem = if p then a.mem else b.mem := apply_ite State.mem p a b

/-- A fold leaves memory as it is where its step does. -/
@[simp] theorem foldl_memory {α : Type} {f : State → α → State} (h : ∀ s a, (f s a).mem = s.mem) (l : List α) (s : State) :
    (l.foldl f s).mem = s.mem := foldl_keeps State.mem h l s

@[simp] theorem foldl_setTh_memory {α : Type} (t : State → α → Nat) (x : State → α → Thread) (l : List α) (s : State) :
    (l.foldl (fun s a => setTh s (t s a) (x s a)) s).mem = s.mem := foldl_setTh_mem t x l s

@[simp] theorem foldl_setWarp_memory {α : Type} (w : State → α → Nat) (x : State → α → Warp) (l : List α) (s : State) :
    (l.foldl (fun s a => setWarp s (w s a) (x s a)) s).mem = s.mem := foldl_setWarp_mem w x l s

@[simp] theorem foldl_setCore_memory {α : Type} (c : State → α → Nat) (x : State → α → Core) (l : List α) (s : State) :
    (l.foldl (fun s a => setCore s (c s a) (x s a)) s).mem = s.mem :=
  foldl_keeps State.mem (fun s a => setCore_mem s (c s a) (x s a)) l s

/-- A fold of states with results beside them keeps what its step keeps of memory. -/
theorem foldl_fst_mem (P : SMap Byte → Prop) {α β : Type} {f : State × β → α → State × β}
    (keeps : ∀ x a, P x.1.mem → P (f x a).1.mem) (l : List α) {x : State × β} (start : P x.1.mem) :
    P (l.foldl f x).1.mem := by
  induction l generalizing x with
  | nil => exact start
  | cons a l ih => exact ih (keeps x a start)

theorem foldl_fst_memory {α β : Type} {f : State × β → α → State × β} (h : ∀ x a, (f x a).1.mem = x.1.mem)
    (l : List α) (x : State × β) : (l.foldl f x).1.mem = x.1.mem :=
  foldl_fst_mem (· = x.1.mem) (fun y a start => (h y a).trans start) l rfl

/-! ### Memory, caches and the page ownership table -/

@[simp] theorem writeBack_memory (s line) : (writeBack s line).mem = s.mem := by simp [writeBack]

@[simp] theorem potChange_memory (s frame owner state) :
    (potChange s frame owner state).mem = s.mem := by simp [potChange]

@[simp] theorem stampFrame_memory (s frame key) : (stampFrame s frame key).mem = s.mem := by simp [stampFrame]

@[simp] theorem poisonBad_memory (s pa n key ver) : (poisonBad s pa n key ver).mem = s.mem := by simp [poisonBad]

@[simp] theorem poisonTier_memory (s pa key ver) : (poisonTier s pa key ver).mem = s.mem := by
  unfold poisonTier; dsimp only; (repeat' split) <;> simp

/-! ### Traps, teams and counters -/

@[simp] theorem inThreads_memory (s acting f) : (inThreads s acting f).mem = s.mem := by simp [inThreads]

@[simp] theorem settleLoops_memory (s w) : (settleLoops s w).mem = s.mem := by simp [settleLoops]

@[simp] theorem orFlags_memory (s w f) : (orFlags s w f).mem = s.mem := by simp [orFlags]

@[simp] theorem dropQueries_memory (s core ts) : (dropQueries s core ts).mem = s.mem := by simp [dropQueries]

@[simp] theorem endTeam_memory (s k) : (endTeam s k).mem = s.mem := by simp [endTeam]

@[simp] theorem haltWarp_memory (s b w) : (haltWarp s b w).mem = s.mem := by simp [haltWarp]

@[simp] theorem raiseTraps_memory (s w traps) : (raiseTraps s w traps).mem = s.mem := by simp [raiseTraps]

@[simp] theorem resumeTeam_memory (s k) : (resumeTeam s k).mem = s.mem := by simp [resumeTeam]

@[simp] theorem resumeIfDone_memory (s k) : (resumeIfDone s k).mem = s.mem := by simp [resumeIfDone]

@[simp] theorem lateFault_memory (s t code kind va origin dst sdst bytes) :
    (lateFault s t code kind va origin dst sdst bytes).mem = s.mem := by
  simp [lateFault]

@[simp] theorem setTdi_memory (s vf t) : (setTdi s vf t).mem = s.mem := by simp [setTdi]

@[simp] theorem answerUnsupported_memory (s p) : (answerUnsupported s p).mem = s.mem := by simp [answerUnsupported]

@[simp] theorem meter_memory (s p i n) : (meter s p i n).mem = s.mem := by simp [meter]

@[simp] theorem pmcEvent_memory (s p code n) : (pmcEvent s p code n).mem = s.mem := by simp [pmcEvent]

@[simp] theorem corePmc_memory (s core code n) : (corePmc s core code n).mem = s.mem := by simp [corePmc]

@[simp] theorem meterTier_memory (s pa n) : (meterTier s pa n).mem = s.mem := by unfold meterTier; split <;> simp

@[simp] theorem meterSpan_memory (s pa n) : (meterSpan s pa n).mem = s.mem := by simp [meterSpan]

@[simp] theorem meterLine_memory (s pa) : (meterLine s pa).mem = s.mem := by simp [meterLine]

@[simp] theorem meterLines_memory (s pa n) : (meterLines s pa n).mem = s.mem := by simp [meterLines]

@[simp] theorem writeBackMetered_memory (s line) : (writeBackMetered s line).mem = s.mem := by
  unfold writeBackMetered; split <;> simp

/-! ### Flags and AMAX -/

@[simp] theorem foldAmax_memory (s w vs) : (foldAmax s w vs).mem = s.mem := by simp [foldAmax]

/-! ### Register images in the meadow store -/

@[simp] theorem keyBlocks_memory (s asid pa n) : (keyBlocks s asid pa n).mem = s.mem := by simp [keyBlocks]

@[simp] theorem setLine_memory (s l on) : (setLine s l on).mem = s.mem := by unfold setLine; split <;> simp

@[simp] theorem touchLines_memory (s l) : (touchLines s l).mem = s.mem := by simp [touchLines]

@[simp] theorem fillFault_memory (s l) : (fillFault s l).mem = s.mem := by unfold fillFault; split <;> simp

@[simp] theorem lineWake_memory (s t) : (lineWake s t).mem = s.mem := by unfold lineWake; split <;> simp

@[simp] theorem poisonKeyed_memory (s asid pa n) : (poisonKeyed s asid pa n).mem = s.mem := by simp [poisonKeyed]

@[simp] theorem readImage_memory (s l) : (readImage s l).mem = s.mem := by unfold readImage; split <;> simp

@[simp] theorem fillLine_memory (s l) : (fillLine s l).mem = s.mem := by simp [fillLine]

/-! ### Issue selection -/

@[simp] theorem chargeIssue_memory (s0 s w) : (chargeIssue s0 s w).mem = s.mem := by simp [chargeIssue]

@[simp] theorem stallIssue_memory (s) : (stallIssue s).mem = s.mem := by unfold stallIssue; split <;> simp

/-! ### The issue of a word -/

@[simp] theorem passOver_memory (s0 s w l) : (passOver s0 s w l).mem = s.mem := by simp [passOver]

@[simp] theorem commitThreads_memory (s info w l s1 effs) : (commitThreads s info w l s1 effs).mem = s1.mem := by
  simp [commitThreads]

@[simp] theorem commitFlags_memory (s w l effs) : (commitFlags s w l effs).mem = s.mem := by simp [commitFlags]

@[simp] theorem commitCounts_memory (s w n skid) : (commitCounts s w n skid).mem = s.mem := by simp [commitCounts]

@[simp] theorem commitLoops_memory (s w l none) : (commitLoops s w l none).mem = s.mem := by simp [commitLoops]

@[simp] theorem commitWindows_memory (s k l before) : (commitWindows s k l before).mem = s.mem := by simp [commitWindows]

@[simp] theorem commitWord_memory (s info w l s1 effs lines) : (commitWord s info w l s1 effs lines).mem = s1.mem := by
  simp [commitWord]

@[simp] theorem waitLines_memory (s l need) : (waitLines s l need).mem = s.mem := by simp [waitLines]

/-! ### Scratchpad and rings -/

@[simp] theorem spWriteStep_memory (s k off bs who) : (spWriteStep s k off bs who).mem = s.mem := by simp [spWriteStep]

@[simp] theorem spWritePlain_memory (s core phys bs) :
    (spWritePlain s core phys bs).mem = s.mem := by simp [spWritePlain]

@[simp] theorem setFull_memory (s core phys full) : (setFull s core phys full).mem = s.mem := by simp [setFull]

@[simp] theorem mbWrite_memory (s core phys m) : (mbWrite s core phys m).mem = s.mem := by simp [mbWrite]

@[simp] theorem setRing_memory (s k q r) : (setRing s k q r).mem = s.mem := by simp [setRing]

/-! ### Control words -/

@[simp] theorem loopOpened_memory (s w cnt disp acting) : (loopOpened s w cnt disp acting).mem = s.mem := by
  simp [loopOpened]

@[simp] theorem loopClosed_memory (s acting) : (loopClosed s acting).mem = s.mem := by simp [loopClosed]

@[simp] theorem dropOpenCard_memory (s w) : (dropOpenCard s w).mem = s.mem := by unfold dropOpenCard; split <;> simp

@[simp] theorem exitThreads_memory (s acting) : (exitThreads s acting).mem = s.mem := by simp [exitThreads]

@[simp] theorem napEvent_memory (s bit who) : (napEvent s bit who).mem = s.mem := by simp [napEvent]

/-! ### Barriers and mbar objects -/

@[simp] theorem arrive_memory (s k b acting) : (arrive s k b acting).mem = s.mem := by simp [arrive]

@[simp] theorem superstepSwap_memory (s gid g) : (superstepSwap s gid g).mem = s.mem := by simp [superstepSwap]

@[simp] theorem nextPhase_memory (s k b) : (nextPhase s k b).mem = s.mem := by unfold nextPhase; (repeat' split) <;> simp

@[simp] theorem mbUpdate_memory (s core phys f) : (mbUpdate s core phys f).mem = s.mem := by simp [mbUpdate]

/-! ### Walks and translations -/

@[simp] theorem askWalk_memory (s asid page kind who) : (askWalk s asid page kind who).mem = s.mem := by simp [askWalk]

@[simp] theorem logWalkOf_memory (s src asid va kind) : (logWalkOf s src asid va kind).mem = s.mem := by
  unfold logWalkOf; split <;> simp

@[simp] theorem logWalk_memory (s asid va kind) : (logWalk s asid va kind).mem = s.mem := by simp [logWalk]

@[simp] theorem noteNow_memory (s src asid va n need) : (noteNow s src asid va n need).mem = s.mem := by
  unfold noteNow; split <;> simp

@[simp] theorem hartTrans_memory (s h va need) : (hartTrans s h va need).1.mem = s.mem := by
  unfold hartTrans; dsimp only; (repeat' split) <;> simp

theorem memory_of_hartTrans {s h va need s1 r} (e : hartTrans s h va need = (s1, r)) : s1.mem = s.mem :=
  (congrArg (·.1.mem) e).symm.trans (hartTrans_memory s h va need)

/-! ### Fault queue notes -/

@[simp] theorem noteSpoilt_memory (s s1 pa n) : (noteSpoilt s s1 pa n).mem = s1.mem := by simp [noteSpoilt]

/-! ### Memory operations -/

@[simp] theorem dropMop_memory (s t j o) : (dropMop s t j o).mem = s.mem := by unfold dropMop; split <;> simp

@[simp] theorem setMopSt_memory (s t j x) :
    (setMopSt s t j x).mem = s.mem := by unfold setMopSt; (repeat' split) <;> simp

@[simp] theorem mopFault_memory (s t j o code) :
    (mopFault s t j o code).mem = s.mem := by unfold mopFault; split <;> simp

@[simp] theorem mopWrite_memory (s t j o vals) : (mopWrite s t j o vals).mem = s.mem := by simp [mopWrite]

@[simp] theorem noteBad_memory (s e p n) : (noteBad s e p n).mem = s.mem := by simp [noteBad]

@[simp] theorem meterFetch_memory (s e p) : (meterFetch s e p).mem = s.mem := by simp [meterFetch]

@[simp] theorem granJoin_memory (s core gran t j) : (granJoin s core gran t j).mem = s.mem := by
  unfold granJoin; (repeat' split) <;> simp

@[simp] theorem granLeave_memory (s core gran t) : (granLeave s core gran t).mem = s.mem := by simp [granLeave]

@[simp] theorem fillGranule_memory (s core phys) : (fillGranule s core phys).mem = s.mem := by simp [fillGranule]

@[simp] theorem stepStore_memory (s t k off tag bs) : (stepStore s t k off tag bs).mem = s.mem := by
  unfold stepStore; dsimp only; (repeat' split) <;> simp

@[simp] theorem performSp_memory (s t j o) : (performSp s t j o).mem = s.mem := by
  unfold performSp; dsimp only; (repeat' split) <;> simp

/-! ### Homes and directories -/

@[simp] theorem putDir_memory (s g d) : (putDir s g d).mem = s.mem := by simp [putDir]

@[simp] theorem putProxy_memory (s g m l) : (putProxy s g m l).mem = s.mem := by simp [putProxy]

@[simp] theorem noteSent_memory (s g c lines) : (noteSent s g c lines).mem = s.mem := by simp [noteSent]

@[simp] theorem addSharer_memory (s g c eng) : (addSharer s g c eng).mem = s.mem := by simp [addSharer]

@[simp] theorem delSharer_memory (s g c) : (delSharer s g c).mem = s.mem := by simp [delSharer]

@[simp] theorem clearSets_memory (s g) : (clearSets s g).mem = s.mem := by simp [clearSets]

@[simp] theorem clearProxies_memory (s g) : (clearProxies s g).mem = s.mem := by simp [clearProxies]

@[simp] theorem enterState_memory (s g next) : (enterState s g next).mem = s.mem := by simp [enterState]

@[simp] theorem sendRound_memory (s g l) : (sendRound s g l).mem = s.mem := by simp [sendRound]

@[simp] theorem maintRefused_memory (s id code) : (maintRefused s id code).mem = s.mem := by
  unfold maintRefused; split <;> simp

@[simp] theorem setAcks_memory (s g) : (setAcks s g).mem = s.mem := by simp [setAcks]

@[simp] theorem dropOwed_memory (s g f) : (dropOwed s g f).mem = s.mem := by unfold dropOwed; split <;> simp

@[simp] theorem evictAck_memory (s g c) : (evictAck s g c).mem = s.mem := by
  unfold evictAck; dsimp only; (repeat' split) <;> simp

@[simp] theorem dropKept_memory (s g c) : (dropKept s g c).mem = s.mem := by unfold dropKept; split <;> simp

@[simp] theorem doSets_memory (s0 g e act ev rq) : (doSets s0 g e act ev rq).mem = s0.mem := by
  unfold doSets; dsimp only; (repeat' split) <;> simp

@[simp] theorem releaseHeld_memory (s g) : (releaseHeld s g).mem = s.mem := by simp [releaseHeld]

@[simp] theorem attach_memory (s g act rq l) : (attach s g act rq l).mem = s.mem := by simp [attach]

theorem takeMsg_memory {s g a kinds s1 m} (h : takeMsg s g a kinds = some (s1, m)) : s1.mem = s.mem := by
  unfold takeMsg at h
  (repeat' split at h) <;> cases h; rfl

@[simp] theorem sendAck_memory (s g a) : (sendAck s g a).mem = s.mem := by simp [sendAck]

/-! ### Jobs -/

@[simp] theorem modJob_memory (s core num f) : (modJob s core num f).mem = s.mem := by simp [modJob]

@[simp] theorem dropJob_memory (s core num) : (dropJob s core num).mem = s.mem := by simp [dropJob]

@[simp] theorem postJob_memory (s core j) : (postJob s core j).mem = s.mem := by simp [postJob]

/-! ### Words of the matrix unit -/

theorem powerUp_memory {s core s1} (h : powerUp s core = some s1) : s1.mem = s.mem := by
  unfold powerUp at h
  split at h <;> cases h <;> simp

@[simp] theorem rampNext_memory (n s meadow) : (rampNext n s meadow).mem = s.mem := by
  induction n generalizing s with
  | zero => rfl
  | succ n ih => unfold rampNext; (repeat' split) <;> simp [ih]

@[simp] theorem freeRec_memory (s k n) : (freeRec s k n).mem = s.mem := by
  unfold freeRec; dsimp only; (repeat' split) <;> simp

@[simp] theorem setToken_memory (s core t unit) : (setToken s core t unit).mem = s.mem := by simp [setToken]

theorem postMatrix_memory {s w k kind s1} (h : postMatrix s w k kind = some s1) : s1.mem = s.mem := by
  unfold postMatrix at h
  split at h <;> cases h
  simp

/-! ### Events of the matrix unit -/

@[simp] theorem giveArray_memory (s core cands j) : (giveArray s core cands j).mem = s.mem := by simp [giveArray]

/-! ### Usage records -/

@[simp] theorem emitUsage_memory (s p reason) : (emitUsage s p reason).1.mem = s.mem := by simp [emitUsage]

/-! ### Boot, pod and links -/

@[simp] theorem setFuse_memory (s ctr pair x) : (setFuse s ctr pair x).mem = s.mem := by simp [setFuse]

theorem blowBit_memory {s ctr pair second s1} (h : blowBit s ctr pair second = some s1) : s1.mem = s.mem := by
  unfold blowBit at h
  dsimp only at h
  (repeat' split at h) <;> cases h <;> simp

@[simp] theorem blowPairs_memory (ctr l s) : (blowPairs ctr l s).1.mem = s.mem := by
  induction l generalizing s with
  | nil => rfl
  | cons p l ih =>
    unfold blowPairs
    split
    · rfl
    · next h1 =>
      split
      · exact blowBit_memory h1
      · next h2 => exact (ih _).trans ((blowBit_memory h2).trans (blowBit_memory h1))

@[simp] theorem repairFuses_memory (s) : (repairFuses s).mem = s.mem := by
  unfold repairFuses
  dsimp only
  split <;> exact foldl_fst_memory (fun x ctr => by split <;> simp) _ _

@[simp] theorem wakeBoot_memory (s) : (wakeBoot s).mem = s.mem := by simp [wakeBoot]

@[simp] theorem acceptImage_memory (s kind img) : (acceptImage s kind img).mem = s.mem := by
  unfold acceptImage; split <;> simp

@[simp] theorem loadImage_memory (s img) : (loadImage s img).mem = s.mem := by unfold loadImage; split <;> simp

@[simp] theorem putMailbox_memory (s img) : (putMailbox s img).mem = s.mem := by simp [putMailbox]

@[simp] theorem loadMailbox_memory (n s) : (loadMailbox n s).mem = s.mem := by
  induction n generalizing s with
  | zero => rfl
  | succ n ih => unfold loadMailbox; (repeat' split) <;> simp [ih]

@[simp] theorem setPort_memory (s p x) : (setPort s p x).mem = s.mem := by simp [setPort]

@[simp] theorem resumeHart_memory (s i) : (resumeHart s i).mem = s.mem := by
  unfold resumeHart; dsimp only; (repeat' split) <;> simp

@[simp] theorem resumeHarts_memory (s) : (resumeHarts s).mem = s.mem := by simp [resumeHarts]

@[simp] theorem startCore_memory (s c) : (startCore s c).mem = s.mem := by simp [startCore]

@[simp] theorem rcmdRefuse_memory (s) : (rcmdRefuse s).mem = s.mem := by simp [rcmdRefuse]

@[simp] theorem rcmdDone_memory (s r) : (rcmdDone s r).mem = s.mem := by simp [rcmdDone]

@[simp] theorem raiseCounter_memory (s ctr a) :
    (raiseCounter s ctr a).mem = s.mem := by unfold raiseCounter; split <;> simp

@[simp] theorem putImages_memory (s l) : (putImages s l).mem = s.mem := by simp [putImages]

/-! ### Cross-lane words -/

@[simp] theorem putS_memory (s w r v) : (putS s w r v).mem = s.mem := by simp [putS]

/-! ### Words of the copy unit -/

theorem openCardOf_memory {s w k s1 n} (h : openCardOf s w k = some (s1, n)) : s1.mem = s.mem := by
  unfold openCardOf at h
  (repeat' split at h) <;> cases h <;> simp

@[simp] theorem claimSlot_memory (s core k j h) :
    (claimSlot s core k j h).mem = s.mem := by unfold claimSlot; split <;> simp

theorem takeSlot_memory {s w k q n d s1} (h : takeSlot s w k q n d = some s1) : s1.mem = s.mem := by
  unfold takeSlot at h
  (repeat' split at h) <;> cases h <;> simp

/-! ### Accesses of the agents -/

@[simp] theorem poisonHeld_memory (s pa n) : (poisonHeld s pa n).mem = s.mem := by unfold poisonHeld; split <;> simp

@[simp] theorem noteSpan_memory (s src asid va n need) : (noteSpan s src asid va n need).mem = s.mem := by
  unfold noteSpan; dsimp only; (repeat' split) <;> simp

@[simp] theorem fqTaken_memory (s hdrPa i) : (fqTaken s hdrPa i).mem = s.mem := by simp [fqTaken]

/-! ### Memory events -/

@[simp] theorem askHome_memory (s t j ev grain line) : (askHome s t j ev grain line).mem = s.mem := by simp [askHome]

@[simp] theorem prefetch_memory (x addr s t) : (prefetch x addr s t).mem = s.mem := by
  unfold prefetch; dsimp only; (repeat' split) <;> simp

@[simp] theorem startMaint_memory (s t o k len) : (startMaint s t o k len).mem = s.mem := by
  unfold startMaint; dsimp only; (repeat' split) <;> simp

@[simp] theorem fillCore_memory (s t e) : (fillCore s t e).mem = s.mem := by simp [fillCore]

@[simp] theorem fillCu_memory (s c e) : (fillCu s c e).mem = s.mem := by simp [fillCu]

@[simp] theorem mopWaits_memory (s t j o) : (mopWaits s t j o).mem = s.mem := by simp [mopWaits]

@[simp] theorem walkJob.modJobOf_memory (s core num f) : (walkJob.modJobOf s core num f).mem = s.mem := by
  simp [walkJob.modJobOf]

/-! ### Events of the copy unit -/

@[simp] theorem askJob_memory (s core j ev grain va whole early put) :
    (askJob s core j ev grain va whole early put).mem = s.mem := by
  simp [askJob]

theorem cuAccess_memory {s core j va need whole early bs s1} (h : cuAccess s core j va need whole early bs = .held s1) :
    s1.mem = s.mem := by
  unfold cuAccess at h
  dsimp only at h
  (repeat' split at h) <;> cases h <;> simp

@[simp] theorem jobFault_memory (s core j code va) : (jobFault s core j code va).mem = s.mem := by simp [jobFault]

@[simp] theorem pieceDone_memory (s k j n p last) : (pieceDone s k j n p last).mem = s.mem := by
  unfold pieceDone; (repeat' split) <;> simp

@[simp] theorem blockDone_memory (s j x pa) : (blockDone s j x pa).mem = s.mem := by simp [blockDone]

@[simp] theorem fillSlot_memory (s core j h bad) : (fillSlot s core j h bad).mem = s.mem := by
  unfold fillSlot; (repeat' split) <;> simp

@[simp] theorem postFollow_memory (s core j) : (postFollow s core j).mem = s.mem := by
  unfold postFollow; dsimp only; (repeat' split) <;> simp

/-! ### Search units -/

@[simp] theorem sendPacket_memory (s k st d t pc pkt slot) : (sendPacket s k st d t pc pkt slot).mem = s.mem := by
  simp [sendPacket]

@[simp] theorem qsubTry_memory (st s x) : (qsubTry st s x).mem = s.mem := by
  unfold qsubTry; dsimp only; (repeat' split) <;> simp

@[simp] theorem publish_memory (s q status nres fcode evals fva) : (publish s q status nres fcode evals fva).mem = s.mem := by
  unfold publish; dsimp only; (repeat' split) <;> simp

@[simp] theorem addPend_memory (s k l la op) : (addPend s k l la op).mem = s.mem := by simp [addPend]

@[simp] theorem meterBlocks_memory (s st asid va n) : (meterBlocks s st asid va n).mem = s.mem :=
  foldl_memory (fun s b => by split <;> simp) _ s

@[simp] theorem putCtx_memory (s st n c) : (putCtx s st n c).mem = s.mem := by simp [putCtx]

@[simp] theorem takePlaces_memory (st s n) : (takePlaces st s n).mem = s.mem := by unfold takePlaces; split <;> simp

/-! ### Work queues -/

@[simp] theorem noteQueue_memory (s t va need) : (noteQueue s t va need).mem = s.mem := by
  unfold noteQueue; dsimp only; (repeat' split) <;> simp

@[simp] theorem waitPages_memory (s l kind) : (waitPages s l kind).mem = s.mem := by simp [waitPages]

@[simp] theorem needPage_memory (s t va kind) : (needPage s t va kind).mem = s.mem := by simp [needPage]

@[simp] theorem mapQueue_memory (s t va) : (mapQueue s t va).mem = s.mem := by unfold mapQueue; split <;> simp

/-! ### Special registers, traps and services -/

@[simp] theorem writeSpecialWarp_memory (s w r v) : (writeSpecialWarp s w r v).mem = s.mem := by
  unfold writeSpecialWarp; split <;> simp

@[simp] theorem setRunNow_memory (s w run) : (setRunNow s w run).mem = s.mem := by simp [setRunNow]

@[simp] theorem setRun_memory (s w run) : (setRun s w run).mem = s.mem := by simp [setRun]

@[simp] theorem grantGrow_memory (s core g) : (grantGrow s core g).mem = s.mem := by simp [grantGrow]

@[simp] theorem svcDone_memory (s t v) : (svcDone s t v).mem = s.mem := by unfold svcDone; split <;> simp

@[simp] theorem callDone_memory (s c status) : (callDone s c status).mem = s.mem := by unfold callDone; split <;> simp

/-! ### Launch, placement and retirement -/

@[simp] theorem modKick_memory (s encl kick f) : (modKick s encl kick f).mem = s.mem := by unfold modKick; split <;> simp

@[simp] theorem startWarp_memory (s w l bind) : (startWarp s w l bind).mem = s.mem := by simp [startWarp]

@[simp] theorem setTeamRun_memory (s k run) : (setTeamRun s k run).mem = s.mem := by simp [setTeamRun]

@[simp] theorem freeTeam_memory (s k) : (freeTeam s k).mem = s.mem := by
  unfold freeTeam; dsimp only; (repeat' split) <;> simp

@[simp] theorem joinFault_memory (s k) : (joinFault s k).mem = s.mem := by simp [joinFault]

/-! ### Page tables and Rowan calls -/

@[simp] theorem splitEntry_memory (s g n step sz) : (splitEntry s g n step sz).mem = s.mem := by simp [splitEntry]

@[simp] theorem splitTo_memory (s frame bits) : (splitTo s frame bits).mem = s.mem := by simp [splitTo]

@[simp] theorem joinPage_memory (s frame bits) : (joinPage s frame bits).mem = s.mem := by simp [joinPage]

@[simp] theorem setPage_memory (s frame bits owner state) : (setPage s frame bits owner state).mem = s.mem := by
  simp [setPage]

@[simp] theorem stampPage_memory (s frame bits key) : (stampPage s frame bits key).mem = s.mem := by simp [stampPage]

@[simp] theorem releasePage_memory (s p frame bits) : (releasePage s p frame bits).mem = s.mem := by simp [releasePage]

@[simp] theorem releaseUnmapped_memory (s p frame bits) : (releaseUnmapped s p frame bits).mem = s.mem := by
  simp [releaseUnmapped]

@[simp] theorem endMigration_memory (s m) : (endMigration s m).mem = s.mem := by simp [endMigration]

theorem headCall_memory {s funcs c s1} (h : headCall s funcs = some (c, s1)) : s1.mem = s.mem := by
  unfold headCall at h
  (repeat' split at h) <;> cases h; rfl

@[simp] theorem shootDrop_memory (s d a) : (shootDrop s d a).mem = s.mem := by unfold shootDrop; split <;> simp

@[simp] theorem setMig_memory (s frame on) : (setMig s frame on).mem = s.mem := by simp [setMig]

/-! ### Enclaves -/

@[simp] theorem takeIds_memory (s ids) : (takeIds s ids).mem = s.mem := by simp [takeIds]

@[simp] theorem addHarts_memory (s encl asid hentry nthr) : (addHarts s encl asid hentry nthr).mem = s.mem :=
  foldl_memory (fun s _ => setHart_mem s _ _) _ s

@[simp] theorem noteCreate_memory (s asid va) : (noteCreate s asid va).mem = s.mem := by
  unfold noteCreate; dsimp only; (repeat' split) <;> simp

@[simp] theorem dropAsid_memory (s asid) : (dropAsid s asid).mem = s.mem := by simp [dropAsid]

@[simp] theorem noteLost_memory (s asid kslot) :
    (noteLost s asid kslot).mem = s.mem := by unfold noteLost; split <;> simp

@[simp] theorem forgetImages_memory (s frame bits) : (forgetImages s frame bits).mem = s.mem := by simp [forgetImages]

theorem agentPart_memory (s p id e asid hentry nthr) :
    (modPart (addHarts (setEncl s id e) id asid hentry nthr) p fun x => { x with agent := id }).mem = s.mem := by simp

/-! ### Hart exceptions -/

@[simp] theorem hartExc_memory (s h e) : (hartExc s h e).mem = s.mem := by simp [hartExc]

/-! ### Extension instructions -/

@[simp] theorem hartDone_memory (s h rd v) : (hartDone s h rd v).mem = s.mem := by simp [hartDone]

@[simp] theorem kickAppend_memory (s h encl kick rec rd) : (kickAppend s h encl kick rec rd).mem = s.mem := by
  simp [kickAppend]

/-! ### Host port -/

@[simp] theorem setReply_memory (s r) : (setReply s r).mem = s.mem := by simp [setReply]

@[simp] theorem setMsLim_memory (s p m x) : (setMsLim s p m x).mem = s.mem := by simp [setMsLim]

@[simp] theorem setMsCfg_memory (s p m x) : (setMsCfg s p m x).mem = s.mem := by simp [setMsCfg]

@[simp] theorem startSplit_memory (s p m win total) : (startSplit s p m win total).mem = s.mem := by simp [startSplit]

@[simp] theorem setStream_memory (s i x) : (setStream s i x).mem = s.mem := by simp [setStream]

@[simp] theorem reopenStream_memory (s i) : (reopenStream s i).mem = s.mem := by simp [reopenStream]

@[simp] theorem logHost_memory (s r cause) : (logHost s r cause).mem = s.mem := by simp [logHost]

@[simp] theorem hostRefuse_memory (s r) : (hostRefuse s r).mem = s.mem := by simp [hostRefuse]

@[simp] theorem hostSpoil_memory (s es r) : (hostSpoil s es r).mem = s.mem := by simp [hostSpoil]

@[simp] theorem allOnes_memory (s r) : (allOnes s r).mem = s.mem := by simp [allOnes]

@[simp] theorem hostRegs_memory (s r) : (hostRegs s r).mem = s.mem := by simp [hostRegs]

@[simp] theorem writePmc_memory (s p off v) : (writePmc s p off v).mem = s.mem := by simp [writePmc]

/-! ### Further Rowan calls -/

@[simp] theorem bindCall_memory (s c) : (bindCall s c).1.mem = s.mem := by unfold bindCall; (repeat' split) <;> simp

@[simp] theorem punloadCall_memory (s c) : (punloadCall s c).1.mem = s.mem := by
  unfold punloadCall; dsimp only; (repeat' split) <;> simp

/-! ### Fault acknowledgement -/

@[simp] theorem ackThread_memory (asid page deny s t) : (ackThread asid page deny s t).mem = s.mem := by
  unfold ackThread
  extract_lets who mop s1 s2
  have h1 : s1.mem = s.mem := foldl_memory (fun s j => by simp only [mop]; (repeat' split) <;> simp) _ s
  have h2 : s2.mem = s.mem := by simp only [s2]; (repeat' split) <;> simp [h1]
  (repeat' split) <;> simp [h2]

@[simp] theorem ackJob_memory (asid page deny core s j) :
    (ackJob asid page deny core s j).mem = s.mem := by simp [ackJob]

@[simp] theorem ackJobs_memory (asid page deny s core) : (ackJobs asid page deny s core).mem = s.mem := by simp [ackJobs]

@[simp] theorem ackCtxs_memory (asid page deny s st) : (ackCtxs asid page deny s st).mem = s.mem := by simp [ackCtxs]

/-! ### SPDM -/

@[simp] theorem closeSession_memory (s n) : (closeSession s n).mem = s.mem := by simp [closeSession]

@[simp] theorem spdmAnswer_memory (s who r) : (spdmAnswer s who r).1.mem = s.mem := by
  unfold spdmAnswer; (repeat' split) <;> simp

@[simp] theorem spdmServe_memory (s encl n x r) : (spdmServe s encl n x r).1.mem = s.mem := by
  unfold spdmServe; split <;> simp

@[simp] theorem inbandAnswer_memory (s encl l) : (inbandAnswer s encl l).1.mem = s.mem := by
  unfold inbandAnswer; split <;> simp

@[simp] theorem doeAnswer_memory (s session r) : (doeAnswer s session r).1.mem = s.mem := by
  unfold doeAnswer; (repeat' split) <;> simp

/-! ### Sleep and swap -/

@[simp] theorem relocate_memory (r s) : (relocate r s).mem = s.mem := by simp [relocate]

@[simp] theorem idleCore_memory (s c) : (idleCore s c).mem = s.mem := by simp [idleCore]

@[simp] theorem emptyCore_memory (s r p c) : (emptyCore s r p c).mem = s.mem := by simp [emptyCore]

@[simp] theorem dropClean_memory (s ks) : (dropClean s ks).mem = s.mem := by simp [dropClean]

@[simp] theorem leaveCores_memory (s p m ks) : (leaveCores s p m ks).mem = s.mem := by simp [leaveCores]

@[simp] theorem dropSwitch_memory (s p) : (dropSwitch s p).mem = s.mem := by simp [dropSwitch]

@[simp] theorem enterSleep_memory (s) : (enterSleep s).mem = s.mem := by simp [enterSleep]

@[simp] theorem trySleep_memory (s) : (trySleep s).mem = s.mem := by simp [trySleep]

@[simp] theorem freeSpill_memory (s p m) : (freeSpill s p m).mem = s.mem := by simp [freeSpill]

@[simp] theorem wakeOk_memory (s bs) : (wakeOk s bs).mem = s.mem := by simp [wakeOk]

/-! ### Function reset -/

@[simp] theorem abortSvc_memory (s p) : (abortSvc s p).mem = s.mem := by simp [abortSvc]

end Sys2Proof.Machine
end

section
/-! The words of Nimia: none but `deq`, `svc`, `rcall` and `fqack` changes memory as it issues (R236, R331). -/
namespace Sys2Proof.Machine
-- One declaration at a time: each more thread of the compiler takes a stack out of the same memory.
set_option Elab.async false

/-! ### What an outcome says of memory -/

/-- The memory of the next state, if an outcome has one, satisfies `P`. -/
def NextMem (P : SMap Byte → Prop) : Out → Prop
  | .next s => P s.mem
  | _ => True

@[simp] theorem nextMem_next (P : SMap Byte → Prop) (s) : NextMem P (.next s) ↔ P s.mem := Iff.rfl
@[simp] theorem nextMem_fault (P : SMap Byte → Prop) (r) : NextMem P (.fault r) := trivial
@[simp] theorem nextMem_refused (P : SMap Byte → Prop) (r) : NextMem P (.refused r) := trivial

theorem nextMem_ite (P : SMap Byte → Prop) (p : Prop) [Decidable p] (a b : Out) :
    NextMem P (if p then a else b) ↔ if p then NextMem P a else NextMem P b := by split <;> rfl

/-- The memory that a word's own part leaves, where it leaves a state, satisfies `P`. -/
def OwnMem (P : SMap Byte → Prop) : Own → Prop
  | .stallOn s => P s.mem
  | .go s _ => P s.mem
  | _ => True

@[simp] theorem ownMem_stall (P : SMap Byte → Prop) : OwnMem P .stall := trivial
@[simp] theorem ownMem_traps (P : SMap Byte → Prop) (l) : OwnMem P (.traps l) := trivial
@[simp] theorem ownMem_refuse (P : SMap Byte → Prop) (s acting code) : OwnMem P (refuse s acting code) := trivial
@[simp] theorem ownMem_stallOn (P : SMap Byte → Prop) (s) : OwnMem P (.stallOn s) ↔ P s.mem := Iff.rfl
@[simp] theorem ownMem_go (P : SMap Byte → Prop) (s effs) : OwnMem P (.go s effs) ↔ P s.mem := Iff.rfl

section
variable {P : SMap Byte → Prop} {s : State} (here : P s.mem)
include here

/-- The issue of a word changes memory as its own part does: what it adds leaves memory. -/
theorem runWord_nextMem {info own} (part : ∀ w l acting, OwnMem P (own w l acting)) : NextMem P (runWord info own s) := by
  unfold runWord
  split
  · exact here
  next w l _ =>
    have own_part := part w l (l.filter (rdGuard s info.guard))
    dsimp only
    generalize own w l (l.filter (rdGuard s info.guard)) = o at own_part ⊢
    cases o with
    | stall | traps => simp [nextMem_ite, here]
    | stallOn s1 | go s1 => simp [nextMem_ite, here, show P s1.mem from own_part]

theorem runThreads_nextMem (info eff) : NextMem P (runThreads info eff s) := runWord_nextMem here fun _ _ _ => here

theorem decodeTrap_nextMem (code) : NextMem P (decodeTrap code s) := by
  unfold decodeTrap
  (repeat' split) <;> simp [here]

/-! ### The words of the tables -/

theorem threadTable_nextMem {row : Instr → Option WordRow} (table : ThreadTable row) {i : Instr} {r : WordRow}
    (h : row i = some r) : NextMem P (exec i s) := by
  rw [(table h).run s]
  exact runThreads_nextMem here ..

section
variable {i : Instr} {r : WordRow}

theorem predicateRow_nextMem (h : predicateRow i = some r) : NextMem P (exec i s) := by
  unfold predicateRow at h
  split at h <;> cases h
  case h_9 =>
    rw [exec_scmp, execScmp]
    exact runWord_nextMem here fun _ _ _ => here
  all_goals exact runThreads_nextMem here ..

theorem uniformRow_nextMem (h : uniformRow i = some r) : NextMem P (exec i s) := by
  obtain ⟨g, d, srcs, f, -, run⟩ := exec_of_uniformRow h
  rw [run, uniWord]
  exact runWord_nextMem here fun _ _ _ => here

theorem convertRow_nextMem (h : convertRow i = some r) : NextMem P (exec i s) := by
  unfold convertRow at h
  split at h <;> cases h
  case h_2 =>
    rw [exec_qblk, execQblk]
    exact runWord_nextMem here fun _ _ _ => here
  all_goals exact runThreads_nextMem here ..

theorem controlRow_nextMem (h : controlRow i = some r) : NextMem P (exec i s) := by
  unfold controlRow at h
  split at h <;> cases h
  case h_9 | h_10 | h_11 | h_12 =>
    simp only [exec_loop, exec_loopLongImmediate, exec_lbrk, exec_yield, execLoop, execLoopLongImmediate, execLbrk, execYield,
      loopWord]
    refine runWord_nextMem here fun _ _ _ => ?_
    (repeat' split) <;> simp [here]
  all_goals exact runThreads_nextMem here ..

theorem crossRow_nextMem (h : crossRow i = some r) : NextMem P (exec i s) := by
  unfold crossRow at h
  split at h <;> cases h
  all_goals
    simp only [exec_shfl, exec_vote, exec_ballot, exec_redux, exec_scan, exec_matchLanes, execShfl, execVote, execBallot, execRedux,
      execScan, execMatchLanes]
    exact runWord_nextMem here fun _ _ _ => here

theorem accessRow_nextMem (h : accessRow i = some r) : NextMem P (exec i s) := by
  unfold accessRow at h
  split at h <;> cases h
  case h_17 | h_18 =>
    simp only [exec_sld, exec_sldLongImmediate, execSld, execSldLongImmediate, sldWord]
    exact runWord_nextMem here fun _ _ _ => here
  case h_19 | h_20 =>
    simp only [exec_pf, exec_pfLongImmediate, execPf, execPfLongImmediate, pfWord]
    refine runWord_nextMem here fun _ _ _ => ?_
    simp [here]
  case h_21 =>
    rw [exec_fence, execFence]
    refine runWord_nextMem here fun _ _ _ => ?_
    split <;> simp [here]
  all_goals exact runThreads_nextMem here ..

theorem bufferRow_nextMem (h : bufferRow i = some r) : NextMem P (exec i s) := by
  unfold bufferRow at h
  split at h <;> cases h
  all_goals
    simp only [exec_lda, exec_sta, exec_ldc, exec_stc, execLda, execSta, execLdc, execStc]
    refine runWord_nextMem here fun _ _ _ => ?_
    (repeat' split) <;> simp [here]

theorem barrierRow_nextMem (h : barrierRow i = some r) : NextMem P (exec i s) := by
  unfold barrierRow at h
  split at h <;> cases h
  case h_1 | h_2 | h_3 =>
    simp only [exec_barArrive, exec_barSync, exec_barSwap, execBarArrive, execBarSync, execBarSwap, arriveWord]
    refine runWord_nextMem here fun _ _ _ => ?_
    (repeat' split) <;> simp [here]
  case h_4 => exact runThreads_nextMem here ..
  all_goals
    simp only [exec_mbarInit, exec_mbarArrive, exec_mbarExpect, exec_mbarWait, execMbarInit, execMbarArrive, execMbarExpect,
      execMbarWait, mbarWord]
    refine runWord_nextMem here fun _ _ acting => ?_
    split
    · trivial
    exact foldl_fst_mem P (fun _ _ kept => by (repeat' split) <;> simp [kept]) acting here

theorem systemRow_nextMem (h : systemRow i = some r) : NextMem P (exec i s) := by
  unfold systemRow at h
  split at h <;> cases h
  case h_1 | h_3 => exact runThreads_nextMem here ..
  all_goals
    simp only [exec_mts, exec_tkill, exec_rshrink, exec_rgrow, execMts, execTkill, execRshrink, execRgrow]
    refine runWord_nextMem here fun _ _ _ => ?_
    (repeat' split) <;> simp [here]

/-! ### Words of the matrix and copy units -/

/-- A word of the matrix unit leaves memory as what it makes does; a stall may ask for power (R33). -/
theorem matWord_nextMem {h a b recs tiles f}
    (leaves : ∀ w k acting s1, f w k acting = .inr (some s1) → s1.mem = s.mem) : NextMem P (matWord h a b recs tiles f s) := by
  unfold matWord
  refine runWord_nextMem here fun w _ acting => ?_
  dsimp only
  split
  · next up => simpa [powerUp_memory up] using here
  split
  · trivial
  split
  · trivial
  · trivial
  · next made => simpa [leaves _ _ _ _ made] using here

theorem matrixRow_nextMem (h : matrixRow i = some r) : NextMem P (exec i s) := by
  unfold matrixRow at h
  split at h <;> cases h
  all_goals
    simp only [exec_rsv, exec_unrsv, exec_acq, exec_rel, exec_zacc, exec_mma, execRsv, execUnrsv, execAcq, execRel, execZacc,
      execMma]
    refine matWord_nextMem here fun _ _ _ s1 made => ?_
  case h_1 | h_2 | h_3 | h_4 =>
    (repeat' split at made) <;> cases made
    all_goals simp
  case h_5 | h_6 =>
    repeat' split at made
    any_goals cases made
    exact postMatrix_memory (Sum.inr.inj made)

theorem copyRow_nextMem (h : copyRow i = some r) : NextMem P (exec i s) := by
  unfold copyRow at h
  split at h <;> cases h
  all_goals
    simp only [exec_cpy, exec_cpyo, exec_cpyc, exec_patch, exec_go, exec_rinit, exec_await, exec_rels, execCpy, execCpyo, execCpyc,
      execPatch, execGo, execRinit, execAwait, execRels]
    refine runWord_nextMem here fun w _ _ => ?_
  case h_1 | h_2 | h_3 =>
    (repeat' split) <;> simp
    all_goals simpa [openCardOf_memory ‹_›] using here
  case h_7 =>
    (repeat' split) <;> simp [here]
    simpa [takeSlot_memory ‹_›] using here
  all_goals (repeat' split) <;> simp [here]

/-! ### Queue words and every word -/

/-- The words whose accesses the homes answer at once: `deq`, `svc`, `rcall` and `fqack`. -/
def Instr.asksHomes : Instr → Prop
  | .deq .. | .svc .. | .rcall .. | .fqack .. => True
  | _ => False

theorem queueRow_nextMem (h : queueRow i = some r) (plain : ¬ Instr.asksHomes i) : NextMem P (exec i s) := by
  unfold queueRow at h
  split at h <;> cases h
  case h_1 | h_3 | h_4 | h_5 => exact (plain trivial).elim
  case h_2 => exact runThreads_nextMem here ..
  all_goals
    simp only [exec_qsub, exec_qcancel, execQsub, execQcancel]
    refine runWord_nextMem here fun _ _ _ => ?_
    (repeat' split) <;> simp [here]

theorem wordRow_nextMem (h : wordRow i = some r) (plain : ¬ Instr.asksHomes i) : NextMem P (exec i s) := by
  obtain ⟨row, mem, h⟩ := exists_of_firstSome h
  simp only [List.mem_cons, List.not_mem_nil, or_false] at mem
  obtain rfl | rfl | rfl | rfl | rfl | rfl | rfl | rfl | rfl | rfl | rfl | rfl | rfl | rfl | rfl | rfl | rfl | rfl | rfl := mem
  · exact threadTable_nextMem here integerRow_threads h
  · exact predicateRow_nextMem here h
  · exact threadTable_nextMem here bitRow_threads h
  · exact threadTable_nextMem here packedRow_threads h
  · exact threadTable_nextMem here pairRegRow_threads h
  · exact uniformRow_nextMem here h
  · exact threadTable_nextMem here floatRow_threads h
  · exact convertRow_nextMem here h
  · exact threadTable_nextMem here longImmRow_threads h
  · exact threadTable_nextMem here pairWordRow_threads h
  · exact controlRow_nextMem here h
  · exact crossRow_nextMem here h
  · exact accessRow_nextMem here h
  · exact bufferRow_nextMem here h
  · exact matrixRow_nextMem here h
  · exact copyRow_nextMem here h
  · exact queueRow_nextMem here h plain
  · exact barrierRow_nextMem here h
  · exact systemRow_nextMem here h

end
end

/-- What follows the commit of a word leaves memory. -/
theorem nextMem_andThen {P : SMap Byte → Prop} {o : Out} {f : State → State} (leaves : ∀ s1, (f s1).mem = s1.mem) :
    NextMem P o → NextMem P (match o with
      | .next s1 => .next (f s1)
      | r => r) := by
  intro word
  cases o with
  | next s1 => simpa [leaves] using word
  | fault | refused => trivial

section
variable {P : SMap Byte → Prop} {s : State} (here : P s.mem)
include here

theorem execExit_nextMem (g : Guard) : NextMem P (execExit g s) := by
  unfold execExit
  split
  · exact here
  next w l _ =>
    refine nextMem_andThen (f := fun s1 => resumeIfDone (dropOpenCard s1 w) (teamOfWarp s w)) (fun _ => by simp)
      (runWord_nextMem here fun _ _ acting => ?_)
    simpa using here

theorem execRett_nextMem (g : Guard) : NextMem P (execRett g s) := by
  unfold execRett
  split
  · exact here
  next w l _ =>
    refine nextMem_andThen (f := fun s1 => resumeIfDone s1 (teamOfWarp s w)) (fun _ => by simp)
      (runWord_nextMem here fun _ _ acting => ?_)
    dsimp only
    split <;> simp [here]

theorem isEnd_nextMem {i : Instr} (ends : Instr.isEnd i) : NextMem P (exec i s) := by
  unfold Instr.isEnd at ends
  split at ends
  · exact execExit_nextMem here _
  · exact execRett_nextMem here _
  · rw [exec_trap, execTrap]
    exact runWord_nextMem here fun _ _ _ => trivial
  · rw [exec_ebrk, execEbrk]
    exact runWord_nextMem here fun _ _ _ => trivial
  · exact ends.elim

/-- A word that asks no home leaves memory as it is, whether it issues, traps or waits. -/
theorem exec_word_nextMem {i : Instr} (nimia : Instr.isNimia i) (plain : ¬ Instr.asksHomes i) : NextMem P (exec i s) := by
  obtain ⟨r, found⟩ | ends := wordRow_or_isEnd nimia
  · exact wordRow_nextMem here found plain
  · exact isEnd_nextMem here ends

end

/-- Settles O56: memory itself is as it was, and so is each of its bytes. -/
theorem wordsLeaveMemory : Obligations.WordsLeaveMemory := by
  intro i s s' nimia notDeq notRcall notSvc notFqack answer a
  have plain : ¬ Instr.asksHomes i := by
    unfold Instr.asksHomes
    split
    · exact (notDeq _ _ _ rfl).elim
    · exact (notSvc _ _ _ _ rfl).elim
    · exact (notRcall _ _ _ _ rfl).elim
    · exact (notFqack _ _ _ _ rfl).elim
    · exact id
  have left := exec_word_nextMem (P := (· = s.mem)) rfl nimia plain
  rw [answer, nextMem_next] at left
  rw [readByte, readByte, left]

end Sys2Proof.Machine
end

section
/-! The copy units do what their rules say (R247, R299, R311 to R326). -/
namespace Sys2Proof.Machine
-- One declaration at a time: each more thread of the compiler takes a stack out of the same memory.
set_option Elab.async false

section
variable {s s1 : State} {core i a n va pa c : Nat} {j : Job} {x : Piece} {early : Bool} {sp : CpPlace} {e : TlbEntry}

/-! ### Reading a granule of a piece's source (R234, R260) -/

/-- From a place of the cores: the bytes there are kept with the piece. -/
theorem Reads.readPiece_onCore (r : Reads s core j x i a n sp) (from' : sp.onCore)
    (well : ∀ k phys, sp = .plain k phys → spBad s (k / 4) phys n = false) :
    readPiece s core j x i early = .next (modJob s core j.num (withRead x i (cpRead s core j.hop sp none n))) := by
  obtain ⟨-, rfl, rfl, source⟩ := r
  simp only [readPiece, source]
  cases sp with
  | glob | fault => exact from'.elim
  | step | buf => rfl
  | plain k phys => simp only [well k phys rfl, Bool.false_eq_true, if_false]; rfl

/-- An uncorrectable error of the scratchpad is a fault of the job. -/
theorem Reads.readPiece_uncorrectable {k phys : Nat} (r : Reads s core j x i a n (.plain k phys))
    (bad : spBad s (k / 4) phys n = true) :
    readPiece s core j x i early = .fault s ccUncorrectable (codedVa (srcOf j x.x) + (x.pos + i)) := by
  obtain ⟨-, rfl, rfl, source⟩ := r
  simp only [readPiece, source, bad, if_true]

/-- From global memory: the bytes there are kept with the piece. -/
theorem Reads.readPiece_glob (r : Reads s core j x i a n (.glob va)) (access : cuAccess s core j va .r false early [] = .ok e pa)
    (well : readBad s e pa n = none) :
    readPiece s core j x i early =
      .next (modJob (meterFetch s e pa) core j.num (withRead x i (cpRead s core j.hop (.glob va) (some (e, pa)) n))) := by
  obtain ⟨-, rfl, rfl, source⟩ := r
  simp only [readPiece, source, access, well]
  rfl

/-- Poison, a failed tag or an uncorrectable error of memory is a fault of the job. -/
theorem Reads.readPiece_bad (r : Reads s core j x i a n (.glob va)) (access : cuAccess s core j va .r false early [] = .ok e pa)
    (bad : readBad s e pa n = some c) :
    readPiece s core j x i early = .fault (noteBad s e pa n) c (codedVa (srcOf j x.x) + (x.pos + i)) := by
  obtain ⟨-, rfl, rfl, source⟩ := r
  simp only [readPiece, source, access, bad]

/-! ### A piece lands (R311, R320) -/

/-- In a place of the cores. -/
theorem writePiece_onCore (l : List Xfer) (into : (pieceDst s core j x).onCore)
    (allowed : cmplBad s (core * 4 + j.tslot) j (pieceDst s core j x) = none) :
    writePiece s core j l x early = .next (landPiece s core j l x (pieceDst s core j x) none) := by
  unfold writePiece
  generalize pieceDst s core j x = dp at into allowed
  cases dp with
  | glob | fault => exact into.elim
  | step | plain | buf => simp only [allowed]

/-- In global memory. -/
theorem writePiece_glob (l : List Xfer) (into : pieceDst s core j x = .glob va)
    (allowed : cmplBad s (core * 4 + j.tslot) j (pieceDst s core j x) = none)
    (access : cuAccess s core j va .w (coversBlock x 512) early (pieceBytes j x) = .ok e pa) :
    writePiece s core j l x early = .next (landPiece s core j l x (.glob va) (some (e, pa))) := by
  rw [into] at allowed
  simp only [writePiece, into, allowed, access]

/-! ### The piece that a job works on (R247) -/

/-- A sound piece is read while a byte of it is wanting. -/
theorem pieceWork_unread (l : List Xfer) (sound : pieceBad s core j x = none) (first : unread j x = some i) :
    pieceWork s core j l x early = readPiece s core j x i early := by
  simp only [pieceWork, sound, first]

/-- Then it lands. -/
theorem pieceWork_read (l : List Xfer) (sound : pieceBad s core j x = none) (read : unread j x = none) :
    pieceWork s core j l x early = writePiece s core j l x early := by
  simp only [pieceWork, sound, read]

/-- The piece at the progress offset is worked on while none beyond it is. -/
theorem exec_copyPieceDelivery_near (job : liveJob s core j.num = some j) (active : jobActive j = true) (slot : hopSlot j = true)
    (alone : farPiece s core j = none) : exec (.copyPieceDelivery core j.num) s = nearWork s core j := by
  simp [exec_copyPieceDelivery, execCopyPieceDelivery, job, active, slot, alone]

/-- What an access of the chosen piece comes to is what the event answers. -/
theorem PieceWorks.exec_next (w : PieceWorks s core j x early) (work : pieceWork s core j (allXfers j) x early = .next s1) :
    exec (.copyPieceDelivery core j.num) s = .next s1 := by
  obtain ⟨job, active, slot, chosen, -⟩ := w
  cases early with
  | false =>
    obtain ⟨at', alone⟩ := chosen
    simp [exec_copyPieceDelivery_near job active slot alone, nearWork, at', active, slot, work]
  | true =>
    have far : farPiece s core j = some x := chosen
    simp [exec_copyPieceDelivery, execCopyPieceDelivery, job, active, slot, far, work]

/-- A fault is met at the progress offset alone (R323). -/
theorem PieceWorks.exec_fault (w : PieceWorks s core j x false) (work : pieceWork s core j (allXfers j) x false = .fault s1 c va) :
    exec (.copyPieceDelivery core j.num) s = .next (jobFault s1 core j c va) := by
  obtain ⟨job, active, slot, ⟨at', alone⟩, -⟩ := w
  simp [exec_copyPieceDelivery_near job active slot alone, nearWork, at', active, slot, work]

/-! ### Hops (R321) -/

/-- A running job whose bytes have all performed has delivered its hop. -/
theorem hopDelivered_of_ended (active : jobActive j = true) (slot : hopSlot j = true)
    (ended : totalBytes (allXfers j) ≤ j.offset) : hopDelivered s core j = true := by
  simp [hopDelivered, active, slot, ended]

/-- After the last hop the entry is freed and the follow-on posted. -/
theorem exec_copyJobComplete_of_ended (job : liveJob s core j.num = some j) (active : jobActive j = true) (slot : hopSlot j = true)
    (ended : totalBytes (allXfers j) ≤ j.offset) (last : nextHop s core j = none) :
    exec (.copyJobComplete core j.num) s =
      .next (postFollow (dropJob (if cCmpl j.card = 1 then fillSlot s core j j.hop false else s) core j.num) core j) := by
  simp [exec_copyJobComplete, execCopyJobComplete, job, hopDelivered_of_ended active slot ended, last]

/-- A card without a follow-on posts none. -/
theorem postFollow_of_not_cFollow (follow : cFollow j.card = false) : postFollow s core j = s := by
  simp [postFollow, follow]

end

/-! ### The await of a filled slot (R326) -/

/-- The threads of a warp that wait at an `await`, with what each waits for. -/
def awaiting (s : State) (w : Nat) : List (Nat × Nat × Nat × Nat) :=
  (warpThreads w).filterMap fun t =>
    match (getTh s t).wait with
    | some (.await q n d) => some (t, q, n, d)
    | _ => none

theorem execAwaitTake_of_awaiting {s s1 : State} {core wslot t q n d : Nat} {rest : List (Nat × Nat × Nat × Nat)}
    (waiting : awaiting s (core * 64 + wslot) = (t, q, n, d) :: rest)
    (took : takeSlot s (core * 64 + wslot) (teamOfWarp s (core * 64 + wslot)) q n d = some s1) :
    execAwaitTake core wslot s =
      .next (((t, q, n, d) :: rest).foldl (fun s x => modTh s x.1 fun th => { th with wait := none, waitCount := 0 }) s1) := by
  have reads : execAwaitTake core wslot s = match awaiting s (core * 64 + wslot) with
    | [] => .next s
    | (_, q, n, d) :: _ =>
      match takeSlot s (core * 64 + wslot) (teamOfWarp s (core * 64 + wslot)) q n d with
      | none => .next s
      | some s1 => .next ((awaiting s (core * 64 + wslot)).foldl
          (fun s x => modTh s x.1 fun th => { th with wait := none, waitCount := 0 }) s1) := rfl
  simp only [reads, waiting, took]

/-- Settles O32: the conditions of each rule decide the guards of its event, by the lemmas above for the pieces and the hops. -/
theorem copyUnitsAct : Obligations.CopyUnitsAct := by
  intro y s s' h
  cases h with
  | start _ core j job posted kind queued slot free =>
    simp [exec_copyJobStart, execCopyJobStart, job, posted, kind, queued, slot, free]
  | claim _ core j job posted kind none' hop may =>
    simp [exec_ringSlotClaim, execRingSlotClaim, job, posted, kind, none', hop, may]
  | claimHop _ core x j r job posted kind none' hop team ring room =>
    simp [exec_ringSlotClaim, execRingSlotClaim, job, posted, kind, none', hop.ne', team, ring, room]
  | read _ core i a n j x early sp w r from' well =>
    exact w.exec_next ((pieceWork_unread _ w.sound r.first).trans (r.readPiece_onCore from' well))
  | readUncorrectable _ core i a n k phys j x w r bad =>
    exact w.exec_fault ((pieceWork_unread _ w.sound r.first).trans (r.readPiece_uncorrectable bad))
  | readMemory _ core i a n va pa j x early e w r access well =>
    exact w.exec_next ((pieceWork_unread _ w.sound r.first).trans (r.readPiece_glob access well))
  | readBad _ core i a n va pa c j x e w r access bad =>
    exact w.exec_fault ((pieceWork_unread _ w.sound r.first).trans (r.readPiece_bad access bad))
  | land _ core j x early w read into allowed =>
    exact w.exec_next ((pieceWork_read _ w.sound read).trans (writePiece_onCore _ into allowed))
  | landMemory _ core va pa j x early e w read into allowed access =>
    exact w.exec_next ((pieceWork_read _ w.sound read).trans (writePiece_glob _ into allowed access))
  | pieceBad _ core c va j x job active slot at' alone bad =>
    simp [exec_copyPieceDelivery_near job active slot alone, nearWork, at', active, slot, pieceWork, bad]
  | hop _ core h j job active slot ended next there =>
    simp [exec_relayHop, execRelayHop, job, hopDelivered_of_ended active slot ended, next, there]
  | done _ core j job active slot ended last follow =>
    rw [exec_copyJobComplete_of_ended job active slot ended last, postFollow_of_not_cFollow follow]
  | doneFollow _ core j job active slot ended last follow =>
    exact exec_copyJobComplete_of_ended job active slot ended last
  | fault _ core c va j job met =>
    simp [exec_copyJobFault, execCopyJobFault, job, met]
  | await _ s1 core wslot t q n d rest waiting took =>
    exact execAwaitTake_of_awaiting waiting took

end Sys2Proof.Machine
end

section
/-! Memory (R235, R236) keeps its canonical form. It is written by four operations only: a write of bytes at a home, the zeroing and
the copying of a range, and a dirty line that is discarded. One lemma for each function that uses them, in the order of the model's
files: the homes, the units and the agents here, Rowan and the package next, then the steps themselves. -/
namespace Sys2Proof.Machine
-- One declaration at a time: each more thread of the compiler takes a stack out of the same memory.
set_option Elab.async false

/-! ### Keeping the canonical form -/

/-- `m` is in its canonical form where `m0` is. -/
structure KeepsWf (m0 m : SMap Byte) : Prop where
  wf : Memory.wf m0 = true → Memory.wf m = true

@[simp] theorem keepsWf_refl (m) : KeepsWf m m := ⟨id⟩

theorem KeepsWf.trans {m0 m1 m2} (first : KeepsWf m0 m1) (second : KeepsWf m1 m2) : KeepsWf m0 m2 :=
  ⟨fun wf => second.wf (first.wf wf)⟩

@[simp] theorem keepsWf_ite (m0 : SMap Byte) (p : Prop) [Decidable p] (a b : SMap Byte) :
    KeepsWf m0 (if p then a else b) ↔ if p then KeepsWf m0 a else KeepsWf m0 b := by split <;> rfl

section
variable {m0 : SMap Byte} {s : State} (kept : KeepsWf m0 s.mem)
include kept

@[simp] theorem foldl_keepsWf {α : Type} {f : State → α → State} (step : ∀ s a, KeepsWf s.mem (f s a).mem) (l : List α) :
    KeepsWf m0 (l.foldl f s).mem := by
  induction l generalizing s with
  | nil => exact kept
  | cons a l ih => exact ih (kept.trans (step s a))

omit kept in
/-- A fold of steps that may fail keeps the canonical form where each step does. -/
theorem foldl_bind_keepsWf {α : Type} {f : State → α → Option State}
    (step : ∀ s a s1, f s a = some s1 → KeepsWf s.mem s1.mem) (l : List α) {o : Option State} (start : ∀ s, o = some s → KeepsWf m0 s.mem) {s1 : State}
    (h : l.foldl (fun o a => o.bind fun s => f s a) o = some s1) : KeepsWf m0 s1.mem := by
  induction l generalizing o with
  | nil => exact start s1 h
  | cons a l ih =>
    refine ih (fun s2 h2 => ?_) h
    obtain ⟨s, hs, ha⟩ := Option.bind_eq_some_iff.1 h2
    exact (start s hs).trans (step s a s2 ha)

theorem getD_keepsWf {o : Option State} (some' : ∀ s1, o = some s1 → KeepsWf m0 s1.mem) : KeepsWf m0 (o.getD s).mem := by
  cases o with
  | none => exact kept
  | some s1 => exact some' s1 rfl

/-! ### Memory, caches and the page ownership table -/

@[simp] theorem writeBytes_keepsWf (pa bs) : KeepsWf m0 (writeBytes s pa bs).mem := kept.trans ⟨writeBytes_wf pa bs⟩

@[simp] theorem discardLine_keepsWf (line) : KeepsWf m0 (discardLine s line).mem := kept.trans ⟨discardLine_wf line⟩

@[simp] theorem zeroRange_keepsWf (pa n) : KeepsWf m0 (zeroRange s pa n).mem := kept.trans ⟨zeroRange_wf pa n⟩

@[simp] theorem copyRange_keepsWf (src dst n) : KeepsWf m0 (copyRange s src dst n).mem := kept.trans ⟨copyRange_wf src dst n⟩

/-! ### Register images in the meadow store -/

@[simp] theorem writeImg_keepsWf (k o bs) : KeepsWf m0 (writeImg s k o bs).mem := by unfold writeImg; split <;> simp [kept]

@[simp] theorem writeFree_keepsWf (asid pa o n) : KeepsWf m0 (writeFree s asid pa o n).mem := by simp [writeFree, kept]

@[simp] theorem writeLine_keepsWf (l) : KeepsWf m0 (writeLine s l).mem := by simp [writeLine, kept]

@[simp] theorem writeImage_keepsWf (k) : KeepsWf m0 (writeImage s k).mem :=
  foldl_keepsWf (foldl_keepsWf kept (fun s x => by split <;> simp) _) (fun s l => writeLine_keepsWf (keepsWf_refl _) l) _

@[simp] theorem evict_keepsWf (l) : KeepsWf m0 (evict s l).mem := by simp [evict, kept]

/-! ### Control words -/

theorem execNapWake_keepsWf (t) : NextMem (KeepsWf m0) (execNapWake t s) := by
  unfold execNapWake; dsimp only; (repeat' split) <;> simp [kept]

/-! ### Barriers and mbar objects -/

theorem execBarrierPhaseComplete_keepsWf (core tslot b) : NextMem (KeepsWf m0) (execBarrierPhaseComplete core tslot b s) := by
  unfold execBarrierPhaseComplete; dsimp only; (repeat' split) <;> simp [kept]

theorem execMbarWaitWake_keepsWf (t) : NextMem (KeepsWf m0) (execMbarWaitWake t s) := by
  unfold execMbarWaitWake; (repeat' split) <;> simp [kept]

/-! ### Memory operations -/

@[simp] theorem writeThrough_keepsWf (e p bs) : KeepsWf m0 (writeThrough s e p bs).mem := by simp [writeThrough, kept]

@[simp] theorem performAt_keepsWf (t j o e p) : KeepsWf m0 (performAt s t j o e p).mem := by
  unfold performAt; dsimp only; (repeat' split) <;> simp [kept]

@[simp] theorem homeDone_keepsWf (t reads grain fault) : KeepsWf m0 (homeDone s t reads grain fault).mem := by
  unfold homeDone; (repeat' split) <;> simp [kept]

/-! ### Homes and directories -/

@[simp] theorem applyLine_keepsWf (keep x) : KeepsWf m0 (applyLine keep s x).mem := by simp [applyLine, kept]

@[simp] theorem completeReq_keepsWf (rq fault) : KeepsWf m0 (completeReq s rq fault).mem := by
  unfold completeReq; (repeat' split) <;> simp [kept]

@[simp] theorem lockPoint_keepsWf (rq) : KeepsWf m0 (lockPoint s rq).1.mem := by
  unfold lockPoint; dsimp only; (repeat' split) <;> simp [kept]

@[simp] theorem doWb_keepsWf (g next e rq) : KeepsWf m0 (doWb s g next e rq).mem := by simp [doWb, kept]

@[simp] theorem homeEvent_keepsWf (n g ev rel rq) : KeepsWf m0 (homeEvent n s g ev rel rq).mem := by
  induction n generalizing s g ev rel rq with
  | zero => exact kept
  | succ n ih =>
    unfold homeEvent
    extract_lets e act next code request s1 round x s2 s3 s4 s4' s5 done s6 s7 s8
    clear_value round
    have h1 : KeepsWf m0 s1.mem := by simp [s1, kept]
    have hx : KeepsWf m0 x.1.mem := by simp only [x]; split <;> simp [h1]
    have h2 : KeepsWf m0 s2.mem := by cases round <;> simp [s2, hx]
    have h3 : KeepsWf m0 s3.mem := by simp only [s3]; split <;> simp [h2]
    have h4 : KeepsWf m0 s4.mem := by simp [s4, h3]
    have h4' : KeepsWf m0 s4'.mem := by simp only [s4']; (repeat' split) <;> simp [h4]
    have h5 : KeepsWf m0 s5.mem := by simp [s5, h4']
    have h8 : KeepsWf m0 s8.mem := by simp [s8, s7, s6, h5]
    clear_value s8
    rcases round with _ | _ | _ <;> (repeat' split) <;> simp [ih, h8, kept]

@[simp] theorem takeRequest_keepsWf (i evs) : KeepsWf m0 (takeRequest s i evs).mem := by
  unfold takeRequest; dsimp only; (repeat' split) <;> simp [kept]

theorem execEvt_keepsWf (grain who) : NextMem (KeepsWf m0) (execEvt grain who s) := by
  unfold execEvt; dsimp only; (repeat' split) <;> simp [kept]

@[simp] theorem ackRound_keepsWf (g a) : KeepsWf m0 (ackRound s g a).mem := by unfold ackRound; split <;> simp [kept]

theorem execDirectoryAck_keepsWf (grain who) : NextMem (KeepsWf m0) (execDirectoryAck grain who s) := by
  unfold execDirectoryAck; dsimp only; (repeat' split) <;> simp [kept]

@[simp] theorem giveUp_keepsWf (g p) : KeepsWf m0 (giveUp s g p).mem := by simp [giveUp, kept]

theorem execTmo_keepsWf (grain) : NextMem (KeepsWf m0) (execTmo grain s) := by
  unfold execTmo; dsimp only; (repeat' split) <;> simp [kept]

theorem execCopyInvalidation_keepsWf (grain who) : NextMem (KeepsWf m0) (execCopyInvalidation grain who s) := by
  unfold execCopyInvalidation
  dsimp only
  split
  · simp [kept]
  · next h => split <;> simp [takeMsg_memory h, kept]

theorem execProxyInvalidation_keepsWf (grain meadow) : NextMem (KeepsWf m0) (execProxyInvalidation grain meadow s) := by
  unfold execProxyInvalidation
  split
  · simp [kept]
  · next h => dsimp only; split <;> simp [takeMsg_memory h, kept]

theorem execReplicaLock_keepsWf (grain meadow) : NextMem (KeepsWf m0) (execReplicaLock grain meadow s) := by
  unfold execReplicaLock
  split
  · simp [kept]
  · next h => simp [takeMsg_memory h, kept]

theorem execReplicaUpdate_keepsWf (grain meadow) : NextMem (KeepsWf m0) (execReplicaUpdate grain meadow s) := by
  unfold execReplicaUpdate
  split
  · simp [kept]
  · next h => simp [takeMsg_memory h, kept]

/-! ### Words of the matrix unit -/

theorem execArrayRampDone_keepsWf (core) : NextMem (KeepsWf m0) (execArrayRampDone core s) := by
  unfold execArrayRampDone; split <;> simp [kept]

theorem execRsvComplete_keepsWf (core tslot n) : NextMem (KeepsWf m0) (execRsvComplete core tslot n s) := by
  unfold execRsvComplete; dsimp only; (repeat' split) <;> simp [kept]

theorem execUnrsvComplete_keepsWf (core tslot n) : NextMem (KeepsWf m0) (execUnrsvComplete core tslot n s) := by
  unfold execUnrsvComplete; dsimp only; (repeat' split) <;> simp [kept]

theorem execAcqComplete_keepsWf (core tslot t) : NextMem (KeepsWf m0) (execAcqComplete core tslot t s) := by
  unfold execAcqComplete; dsimp only; (repeat' split) <;> simp [kept]

/-! ### Events of the matrix unit -/

theorem execArraySwitchPoint_keepsWf (core) : NextMem (KeepsWf m0) (execArraySwitchPoint core s) := by
  unfold execArraySwitchPoint; dsimp only; (repeat' split) <;> simp [kept]

theorem execMatrixJobStart_keepsWf (core job) : NextMem (KeepsWf m0) (execMatrixJobStart core job s) := by
  unfold execMatrixJobStart
  dsimp only
  split
  · next s1 j h _ =>
    have hs : s1.mem = s.mem := by (repeat' split at h) <;> cases h <;> simp
    (repeat' split) <;> simp [hs, kept]
  · simp [kept]

theorem execKStep_keepsWf (core) : NextMem (KeepsWf m0) (execKStep core s) := by
  unfold execKStep; dsimp only; (repeat' split) <;> simp [kept]

theorem execMatrixJobComplete_keepsWf (core) : NextMem (KeepsWf m0) (execMatrixJobComplete core s) := by
  unfold execMatrixJobComplete
  dsimp only
  split
  · simp [kept]
  · split
    · simp [kept]
    · next s1 h =>
      have hs : s1.mem = s.mem := by (repeat' split at h) <;> cases h <;> simp
      split <;> simp [hs, kept]

theorem execBudgetRefill_keepsWf : NextMem (KeepsWf m0) (execBudgetRefill s) := by simp [execBudgetRefill, kept]

/-! ### Usage records -/

theorem execUsageRecordPeriodic_keepsWf (p) : NextMem (KeepsWf m0) (execUsageRecordPeriodic p s) := by
  unfold execUsageRecordPeriodic; dsimp only; (repeat' split) <;> simp [kept]

/-! ### Boot, pod and links -/

omit kept in
theorem reset_keepsWf : KeepsWf m0 State.reset.mem := ⟨fun _ => reset_mem_wf⟩

theorem execWarmReset_keepsWf : NextMem (KeepsWf m0) (execWarmReset s) := by
  unfold execWarmReset; split <;> simp [kept, reset_keepsWf]

theorem execFirmwareImage_keepsWf (leader img) : NextMem (KeepsWf m0) (execFirmwareImage leader img s) := by
  unfold execFirmwareImage; (repeat' split) <;> simp [kept]

theorem execHostLinkTraining_keepsWf (cxl) : NextMem (KeepsWf m0) (execHostLinkTraining cxl s) := by
  simp [execHostLinkTraining, kept]

theorem execPodLinkTraining_keepsWf (port) : NextMem (KeepsWf m0) (execPodLinkTraining port s) := by
  unfold execPodLinkTraining; dsimp only; (repeat' split) <;> simp [kept]

theorem execHello_keepsWf (port pod) : NextMem (KeepsWf m0) (execHello port pod s) := by simp [execHello, kept]

theorem execDiscoveryWindowEnd_keepsWf : NextMem (KeepsWf m0) (execDiscoveryWindowEnd s) := by
  unfold execDiscoveryWindowEnd; dsimp only; (repeat' split) <;> simp [kept]

theorem execClaim_keepsWf (port pod nonce sig) : NextMem (KeepsWf m0) (execClaim port pod nonce sig s) := by
  unfold execClaim; split <;> simp [kept]

theorem execLeaderSilent_keepsWf : NextMem (KeepsWf m0) (execLeaderSilent s) := by
  unfold execLeaderSilent; (repeat' split) <;> simp [kept]

theorem execPodFlitReceive_keepsWf (port f) : NextMem (KeepsWf m0) (execPodFlitReceive port f s) := by
  unfold execPodFlitReceive; dsimp only; (repeat' split) <;> simp [kept]

@[simp] theorem sealHart_keepsWf (i) : KeepsWf m0 (sealHart s i).mem := by
  unfold sealHart; dsimp only; (repeat' split) <;> simp [kept]

@[simp] theorem sealHarts_keepsWf : KeepsWf m0 (sealHarts s).mem := by simp [sealHarts, kept]

theorem execStaggeredStartStep_keepsWf : NextMem (KeepsWf m0) (execStaggeredStartStep s) := by
  unfold execStaggeredStartStep; dsimp only; (repeat' split) <;> simp [kept]

theorem execCommit_keepsWf : NextMem (KeepsWf m0) (execCommit s) := by unfold execCommit; (repeat' split) <;> simp [kept]

theorem execLlaunch_keepsWf (hazel runtime) : NextMem (KeepsWf m0) (execLlaunch hazel runtime s) := by
  unfold execLlaunch; dsimp only; (repeat' split) <;> simp [kept]

/-! ### Words of the copy unit -/

theorem execAwaitTake_keepsWf (core wslot) : NextMem (KeepsWf m0) (execAwaitTake core wslot s) := by
  unfold execAwaitTake
  dsimp only
  split
  · simp [kept]
  · split
    · simp [kept]
    · next h => simp [takeSlot_memory h, kept]

/-! ### Accesses of the agents -/

@[simp] theorem forceAck_keepsWf (g x) : KeepsWf m0 (forceAck s g x).mem := by unfold forceAck; (repeat' split) <;> simp [kept]

@[simp] theorem settleGrain_keepsWf (n g) : KeepsWf m0 (settleGrain n s g).mem := by
  induction n generalizing s with
  | zero => exact kept
  | succ n ih =>
    unfold settleGrain
    split
    · exact kept
    split
    · exact kept
    · exact ih (forceAck_keepsWf kept _ _)

@[simp] theorem drainGrain_keepsWf (n g) : KeepsWf m0 (drainGrain n s g).mem := by
  induction n generalizing s with
  | zero => simp [drainGrain, kept]
  | succ n ih =>
    unfold drainGrain
    extract_lets s1
    have settled : KeepsWf m0 s1.mem := settleGrain_keepsWf kept _ _
    split
    · exact settled
    extract_lets s2
    split
    · exact ih (takeRequest_keepsWf settled _ _)
    · exact settled

@[simp] theorem drained_keepsWf (g) : KeepsWf m0 (drained s g).mem := by simp [drained, kept]

@[simp] theorem reclaimNow_keepsWf (v) : KeepsWf m0 (reclaimNow s v).mem := by simp [reclaimNow, kept]

@[simp] theorem homeNow_keepsWf (g ev c lines) : KeepsWf m0 (homeNow s g ev c lines).mem := by
  unfold homeNow
  extract_lets s1 rq rel take
  have h1 : KeepsWf m0 s1.mem := drained_keepsWf kept g
  have taken {s2 : State} (h2 : KeepsWf m0 s2.mem) : KeepsWf m0 (take s2).mem := homeEvent_keepsWf h2 ..
  (repeat' split)
  · exact h1
  · exact taken h1
  · exact settleGrain_keepsWf (taken (reclaimNow_keepsWf h1 _)) ..
  · exact settleGrain_keepsWf (taken h1) ..

@[simp] theorem lineFor_keepsWf (c write l) : KeepsWf m0 (lineFor c write s l).mem := by unfold lineFor; split <;> simp [kept]

@[simp] theorem touchFor_keepsWf (c pa n write) : KeepsWf m0 (touchFor c s pa n write).mem := by simp [touchFor, kept]

@[simp] theorem putFor_keepsWf (c pa bs) : KeepsWf m0 (putFor c s pa bs).mem := by unfold putFor; split <;> simp [kept]

@[simp] theorem ioTouch_keepsWf (pa n write) : KeepsWf m0 (ioTouch s pa n write).mem := by simp [ioTouch, kept]

@[simp] theorem ioPut_keepsWf (pa bs) : KeepsWf m0 (ioPut s pa bs).mem := by simp [ioPut, kept]

@[simp] theorem rowanWrite_keepsWf (pa n v) : KeepsWf m0 (rowanWrite s pa n v).mem := by simp [rowanWrite, kept]

@[simp] theorem zeroGrain_keepsWf (g) : KeepsWf m0 (zeroGrain s g).mem := by unfold zeroGrain; split <;> simp [kept]

@[simp] theorem ioZero_keepsWf (pa n) : KeepsWf m0 (ioZero s pa n).mem := by simp [ioZero, kept]

@[simp] theorem engineTouch_keepsWf (c pa n write) : KeepsWf m0 (engineTouch c s pa n write).mem := by simp [engineTouch, kept]

theorem ioWrite_keepsWf {pa bs s1} (h : ioWrite s pa bs = .done s1) : KeepsWf m0 s1.mem := by
  unfold ioWrite at h
  (repeat' split at h) <;> cases h; simp [kept]

@[simp] theorem ioReadVaBy_keepsWf (src asid va n) : KeepsWf m0 (ioReadVaBy src s asid va n).1.mem := by
  unfold ioReadVaBy; split <;> simp [kept]

@[simp] theorem ioReadVa_keepsWf (asid va n) : KeepsWf m0 (ioReadVa s asid va n).1.mem := by simp [ioReadVa, kept]

theorem ioWriteVa_keepsWf {asid va bs s1} (h : ioWriteVa s asid va bs = some s1) : KeepsWf m0 s1.mem := by
  unfold ioWriteVa at h
  dsimp only at h
  (repeat' split at h) <;> cases h <;> simp [kept]

@[simp] theorem ioTouchVa_keepsWf (asid fuel va n) : KeepsWf m0 (ioTouchVa asid fuel va n s).mem := by
  induction fuel generalizing va n s with
  | zero => exact kept
  | succ fuel ih => unfold ioTouchVa; dsimp only; split <;> simp [ih, kept]

@[simp] theorem ioTouchSpan_keepsWf (asid va n) : KeepsWf m0 (ioTouchSpan s asid va n).mem := by simp [ioTouchSpan, kept]

theorem fqPostOne_keepsWf {id s1} (h : fqPostOne s id = some s1) : KeepsWf m0 s1.mem := by
  unfold fqPostOne at h
  dsimp only at h
  (repeat' split at h) <;> cases h
  simpa using ioPut_keepsWf (ioPut_keepsWf (ioPut_keepsWf (ioTouch_keepsWf kept ..) ..) ..) ..

@[simp] theorem fqFault_keepsWf (f) : KeepsWf m0 (fqFault s f).mem := by
  unfold fqFault
  dsimp only
  split
  · exact kept
  split
  · (repeat' split)
    · exact ioPut_keepsWf (by simpa using kept) ..
    · simpa using kept
    · simpa using kept
  split
  · exact getD_keepsWf (by simpa using kept) fun _ h => fqPostOne_keepsWf (by simpa using kept) h
  · simpa using kept

theorem execFaultQueueRoom_keepsWf (encl) : NextMem (KeepsWf m0) (execFaultQueueRoom encl s) :=
  getD_keepsWf kept fun _ h => fqPostOne_keepsWf kept h

@[simp] theorem fqWithdraw_keepsWf (asid page) : KeepsWf m0 (fqWithdraw s asid page).mem := by
  unfold fqWithdraw
  dsimp only
  split
  · exact kept
  · exact foldl_keepsWf (by simpa using kept) (fun s x => by (repeat' split) <;> simp) _

/-! ### Memory events -/

@[simp] theorem tryGlob_keepsWf (t j o) : NextMem (KeepsWf m0) (tryGlob s t j o) := by
  unfold tryGlob; dsimp only; (repeat' split) <;> simp [kept]

@[simp] theorem tryMop_keepsWf (t j) : NextMem (KeepsWf m0) (tryMop s t j) := by unfold tryMop; (repeat' split) <;> simp [kept]

theorem execMaintenanceComplete_keepsWf (i) : NextMem (KeepsWf m0) (execMaintenanceComplete i s) := by
  unfold execMaintenanceComplete; (repeat' split) <;> simp [kept]

theorem execStoreBufferDrain_keepsWf (t) : NextMem (KeepsWf m0) (execStoreBufferDrain t s) := by
  unfold execStoreBufferDrain; (repeat' split) <;> simp [kept]

theorem execLoadReturn_keepsWf (t) : NextMem (KeepsWf m0) (execLoadReturn t s) := by
  unfold execLoadReturn; dsimp only; (repeat' split) <;> simp [kept]

theorem execAtomicPerform_keepsWf (t) : NextMem (KeepsWf m0) (execAtomicPerform t s) := by
  unfold execAtomicPerform; (repeat' split) <;> simp [kept]

theorem execLdfWake_keepsWf (t) : NextMem (KeepsWf m0) (execLdfWake t s) := by unfold execLdfWake; (repeat' split) <;> simp [kept]

theorem execStfWaitWake_keepsWf (t) : NextMem (KeepsWf m0) (execStfWaitWake t s) := by
  unfold execStfWaitWake; (repeat' split) <;> simp [kept]

@[simp] theorem walkMop_keepsWf (w s0 t j) : KeepsWf m0 (walkMop w s0 t s j).mem := by
  unfold walkMop; (repeat' split) <;> simp [kept]

@[simp] theorem walkWaits_keepsWf (w s0 t) : KeepsWf m0 (walkWaits w s0 s t).mem := by
  unfold walkWaits
  extract_lets va th lanes s1
  have faulted {s2 : State} (h2 : KeepsWf m0 s2.mem) (x f) : KeepsWf m0 (fqFault (setTh s2 t x) f).mem :=
    fqFault_keepsWf (by simpa using h2) f
  have h1 : KeepsWf m0 s1.mem := by simp only [s1]; (repeat' split) <;> simp [kept, faulted]
  clear_value s1
  (repeat' split) <;> simp [h1, faulted]

@[simp] theorem walkThread_keepsWf (w s0 t) : KeepsWf m0 (walkThread w s0 s t).mem :=
  walkWaits_keepsWf (foldl_keepsWf kept (fun _ j => walkMop_keepsWf (keepsWf_refl _) w s0 t j) _) w s0 t

@[simp] theorem walkJob_keepsWf (w s0 core j) : KeepsWf m0 (walkJob w s0 core s j).mem := by
  unfold walkJob
  (repeat' split)
  case h_3 => exact fqFault_keepsWf (by simpa using kept) _
  all_goals simp [kept]

@[simp] theorem walkCtx_keepsWf (w s0 st x) : KeepsWf m0 (walkCtx w s0 st s x).mem := by
  unfold walkCtx
  extract_lets put
  have put_mem (s1 f) : (put s1 f).mem = s1.mem := by simp [put]
  clear_value put
  (repeat' split) <;> simp [put_mem, kept]

theorem execWalkComplete_keepsWf (i) : NextMem (KeepsWf m0) (execWalkComplete i s) := by
  unfold execWalkComplete
  split
  · exact kept
  split_ifs
  · exact kept
  · exact kept
  split
  · trivial
  extract_lets s1 s2 s3
  have h1 : KeepsWf m0 s1.mem := by simpa [s1] using kept
  have h2 : KeepsWf m0 s2.mem := foldl_keepsWf h1 (fun _ _ => walkThread_keepsWf (keepsWf_refl _) ..) _
  have h3 : KeepsWf m0 s3.mem :=
    foldl_keepsWf h2 (fun _ _ => foldl_keepsWf (keepsWf_refl _) (fun _ _ => walkJob_keepsWf (keepsWf_refl _) ..) _) _
  exact foldl_keepsWf h3 (fun _ _ => foldl_keepsWf (keepsWf_refl _) (fun _ _ => walkCtx_keepsWf (keepsWf_refl _) ..) _) _

/-! ### Events of the copy unit -/

@[simp] theorem cpWrite_keepsWf (core num p e bs) : KeepsWf m0 (cpWrite s core num p e bs).mem := by
  unfold cpWrite; split <;> simp [kept]

omit kept in
/-- The memory that a job's work on a piece leaves keeps the canonical form. -/
def CpKeepsWf (m0 : SMap Byte) : CpRes → Prop
  | .next s => KeepsWf m0 s.mem
  | .fault s _ _ => KeepsWf m0 s.mem
  | .badAddr _ => True

theorem readPiece_keepsWf (core j x i early) : CpKeepsWf m0 (readPiece s core j x i early) := by
  unfold readPiece
  dsimp only
  split
  · exact kept
  · split
    · next h => simpa [CpKeepsWf, cuAccess_memory h] using kept
    · trivial
    · split <;> simp [CpKeepsWf, kept]
    · split <;> simp [CpKeepsWf, kept]
  · split <;> simp [CpKeepsWf, kept]
  · exact kept

@[simp] theorem landPiece_keepsWf (core j l x dp de) : KeepsWf m0 (landPiece s core j l x dp de).mem := by
  unfold landPiece; (repeat' split) <;> simp [kept]

theorem writePiece_keepsWf (core j l x early) : CpKeepsWf m0 (writePiece s core j l x early) := by
  unfold writePiece
  dsimp only
  split
  · exact kept
  split
  · exact kept
  split
  · split
    · next h => simpa [CpKeepsWf, cuAccess_memory h] using kept
    all_goals simp [CpKeepsWf, kept]
  · simp [CpKeepsWf, kept]

theorem pieceWork_keepsWf (core j l x early) : CpKeepsWf m0 (pieceWork s core j l x early) := by
  unfold pieceWork
  split
  · exact kept
  split
  · exact readPiece_keepsWf kept ..
  · exact writePiece_keepsWf kept ..

theorem nearWork_keepsWf (core j) : NextMem (KeepsWf m0) (nearWork s core j) := by
  unfold nearWork
  split
  · exact kept
  next x _ =>
  have worked := pieceWork_keepsWf kept core j (allXfers j) x false
  (repeat' split) <;> simp_all [CpKeepsWf]

theorem execCopyPieceDelivery_keepsWf (core job) : NextMem (KeepsWf m0) (execCopyPieceDelivery core job s) := by
  unfold execCopyPieceDelivery
  split
  · exact kept
  next j _ =>
  split
  · exact kept
  split
  · exact nearWork_keepsWf kept ..
  next x _ =>
  have worked := pieceWork_keepsWf kept core j (allXfers j) x true
  split <;> simp_all [CpKeepsWf]

theorem execCopyJobStart_keepsWf (core job) : NextMem (KeepsWf m0) (execCopyJobStart core job s) := by
  unfold execCopyJobStart; (repeat' split) <;> simp [kept]

theorem execRingSlotClaim_keepsWf (core job) : NextMem (KeepsWf m0) (execRingSlotClaim core job s) := by
  unfold execRingSlotClaim; dsimp only; (repeat' split) <;> simp [kept]

theorem execRelayHop_keepsWf (core job) : NextMem (KeepsWf m0) (execRelayHop core job s) := by
  unfold execRelayHop; (repeat' split) <;> simp [kept]

theorem execCopyJobComplete_keepsWf (core job) : NextMem (KeepsWf m0) (execCopyJobComplete core job s) := by
  unfold execCopyJobComplete; (repeat' split) <;> simp [kept]

theorem execCopyJobFault_keepsWf (core job) : NextMem (KeepsWf m0) (execCopyJobFault core job s) := by
  unfold execCopyJobFault; (repeat' split) <;> simp [kept]

/-! ### Search units -/

theorem ctxStop_keepsWf (st n c r) : NextMem (KeepsWf m0) (ctxStop s st n c r) := by
  unfold ctxStop; split <;> simp [kept]

theorem beginCtx_keepsWf (st n c) : NextMem (KeepsWf m0) (beginCtx s st n c) := by
  unfold beginCtx
  split
  · split <;> simp [kept]
  · exact ctxStop_keepsWf kept ..

theorem execQueryContextAllocate_keepsWf (stack) : NextMem (KeepsWf m0) (execQueryContextAllocate stack s) := by
  unfold execQueryContextAllocate
  dsimp only
  split
  · refine beginCtx_keepsWf ?_ ..
    (repeat' split) <;> simp [kept]
  · (repeat' split) <;> simp [kept]

theorem execDistanceReply_keepsWf (stack ctx fromStack) : NextMem (KeepsWf m0) (execDistanceReply stack ctx fromStack s) := by
  unfold execDistanceReply
  dsimp only
  (repeat' split) <;> simp [ctxStop_keepsWf, kept]

theorem execAdjacencyReply_keepsWf (stack ctx node) : NextMem (KeepsWf m0) (execAdjacencyReply stack ctx node s) := by
  unfold execAdjacencyReply
  dsimp only
  (repeat' split) <;> simp [ctxStop_keepsWf, kept]

omit kept in
/-- The memory that the writing of a query's results leaves, in a state or an outcome, keeps the canonical form. -/
def ResKeepsWf (m0 : SMap Byte) : Sum Out (State × Ctx) → Prop
  | .inl o => NextMem (KeepsWf m0) o
  | .inr x => KeepsWf m0 x.1.mem

theorem writeResults_keepsWf (st n k c) : ResKeepsWf m0 (writeResults st n k s c) := by
  induction k generalizing s c with
  | zero => exact kept
  | succ k ih =>
    have stopped (r) : ResKeepsWf m0 (.inl (ctxStop s st n c r)) := ctxStop_keepsWf kept ..
    unfold writeResults
    dsimp only
    split
    · exact kept
    split
    · exact stopped _
    split_ifs
    · trivial
    · exact stopped _
    · simpa [ResKeepsWf] using kept
    all_goals
      split
      · exact stopped _
      · exact ih (by simp [kept]) _

theorem publishCtx_keepsWf (x next) : NextMem (KeepsWf m0) (publishCtx s x next) := by
  have written : ResKeepsWf m0 (if writesResults x.2.2 then writeResults x.1 x.2.1 65 s x.2.2 else .inr (s, x.2.2)) := by
    split
    · exact writeResults_keepsWf kept ..
    · exact kept
  unfold publishCtx
  dsimp only
  split
  · next h => rwa [h] at written
  next h =>
  rw [h] at written
  have h1 : KeepsWf m0 _ := written
  split <;> simpa using h1

theorem execQueryPublish_keepsWf (core tslot) : NextMem (KeepsWf m0) (execQueryPublish core tslot s) := by
  unfold execQueryPublish
  dsimp only
  split
  · exact kept
  split
  · simpa using kept
  split
  · exact publishCtx_keepsWf kept ..
  split
  · exact publishCtx_keepsWf kept ..
  · exact kept

/-! ### Work queues -/

@[simp] theorem hdrOpen_keepsWf (c pa) : KeepsWf m0 (hdrOpen s c pa).1.mem := by simp [hdrOpen, kept]

theorem keepsWf_of_hdrOpen {c pa s1 h} (opened : hdrOpen s c pa = (s1, h)) : KeepsWf m0 s1.mem := by
  simpa [opened] using hdrOpen_keepsWf kept c pa

omit kept in
/-- The memory that a `deq` or an `enq` of one thread leaves keeps the canonical form. -/
def QKeepsWf (m0 : SMap Byte) : QRes → Prop
  | .done s _ => KeepsWf m0 s.mem
  | .wait s => KeepsWf m0 s.mem
  | _ => True

/-- In the proof `deqPick` and `readBad` stand as variables, so that the kernel does not evaluate them. -/
theorem deqTry_keepsWf (t va) : QKeepsWf m0 (deqTry s t va) := by
  obtain ⟨pick, hp⟩ : ∃ f, deqPick = f := ⟨_, rfl⟩
  obtain ⟨bad, hb⟩ : ∃ f, readBad = f := ⟨_, rfl⟩
  unfold deqTry
  rw [hp, hb]
  split
  · trivial
  · trivial
  split
  · trivial
  split
  · exact kept
  extract_lets c
  split
  · next h => exact keepsWf_of_hdrOpen kept h
  next h =>
  have h0 := keepsWf_of_hdrOpen kept h
  extract_lets r
  split
  · simp only [QKeepsWf]
    split <;> simp [h0]
  · trivial
  · trivial
  split
  · trivial
  extract_lets s1 item
  have h1 : KeepsWf m0 s1.mem := by simp only [s1]; split <;> simp [h0]
  simp [QKeepsWf, h1]

@[simp] theorem queuePost_keepsWf (c pa h place item) : KeepsWf m0 (queuePost c s pa h place item).mem := by
  unfold queuePost
  extract_lets s1
  have h1 : KeepsWf m0 s1.mem := by simp only [s1]; split <;> simp [kept]
  exact putFor_keepsWf (putFor_keepsWf h1 _ _ _) _ _ _

theorem enqTry_keepsWf (t va item) : QKeepsWf m0 (enqTry s t va item) := by
  unfold enqTry
  dsimp only
  split
  · trivial
  · trivial
  split
  · trivial
  split
  · exact kept
  split
  · next h => exact keepsWf_of_hdrOpen kept h
  next h =>
  have h0 := keepsWf_of_hdrOpen kept h
  (repeat' split) <;> simp [QKeepsWf, h0]

theorem execDeq_keepsWf (g d a) : NextMem (KeepsWf m0) (execDeq g d a s) := by
  unfold execDeq
  refine runWord_nextMem kept fun _ _ acting => ?_
  dsimp only
  split
  · trivial
  refine foldl_fst_mem (KeepsWf m0) (fun x t here => ?_) acting kept
  have tried := deqTry_keepsWf here t (rd64 s t a).toNat
  split
  · next e => exact (e ▸ tried :)
  · next e => exact (e ▸ tried :)
  · simpa using here
  · simpa using here

theorem execDeqTake_keepsWf (t) : NextMem (KeepsWf m0) (execDeqTake t s) := by
  unfold execDeqTake
  dsimp only
  split
  · next va _ _ _ _ =>
    split
    · exact kept
    have tried := deqTry_keepsWf (s := mapQueue s t va) (by simpa using kept) t va
    split <;> simp_all [QKeepsWf]
  · exact kept

theorem execEnqReservation_keepsWf (t) : NextMem (KeepsWf m0) (execEnqReservation t s) := by
  unfold execEnqReservation
  dsimp only
  split
  · exact kept
  split
  · next va item _ =>
    split
    · simpa using kept
    have tried := enqTry_keepsWf kept t va item
    split <;> simp_all [QKeepsWf]
  · exact kept

theorem execQueueSliceBoundary_keepsWf : NextMem (KeepsWf m0) (execQueueSliceBoundary s) := by simp [execQueueSliceBoundary, kept]

/-! ### Special registers, traps and services -/

theorem execHandlerEntry_keepsWf (core tslot) : NextMem (KeepsWf m0) (execHandlerEntry core tslot s) := by
  unfold execHandlerEntry; dsimp only; (repeat' split) <;> simp [kept]

theorem execRgrowGrant_keepsWf (core) : NextMem (KeepsWf m0) (execRgrowGrant core s) := by
  unfold execRgrowGrant; dsimp only; (repeat' split) <;> simp [kept]

theorem execRegisterLineFill_keepsWf (core line) : NextMem (KeepsWf m0) (execRegisterLineFill core line s) := by
  unfold execRegisterLineFill
  dsimp only
  split
  · exact kept
  next s1 room =>
  have h1 : KeepsWf m0 s1.mem := by
    split at room
    · cases room; exact kept
    · obtain ⟨l, -, rfl⟩ := Option.map_eq_some_iff.1 room
      exact evict_keepsWf kept l
  split <;> simp [kept, h1]

theorem svcPostTo_keepsWf {p t buf func s1 tag} (h : svcPostTo s p t buf func = some (s1, tag)) : KeepsWf m0 s1.mem := by
  unfold svcPostTo at h
  dsimp only at h
  split at h
  · cases h
  split at h
  · cases h
  split at h
  · cases h
  next opened =>
  (repeat' split at h) <;> cases h
  simpa using queuePost_keepsWf (keepsWf_of_hdrOpen kept opened) _ _ _ _ _

theorem execSvc_keepsWf (g d a b) : NextMem (KeepsWf m0) (execSvc g d a b s) := by
  unfold execSvc
  refine runWord_nextMem kept fun w _ acting => ?_
  dsimp only
  split
  · trivial
  split
  · simpa using kept
  refine foldl_fst_mem (KeepsWf m0) (fun x t here => ?_) acting kept
  split
  · simpa using here
  split
  · exact here
  split
  · split
    · exact here
    split
    · next posted =>
      split at posted
      · exact svcPostTo_keepsWf here posted
      · cases posted
    · simpa using here
  · simpa using here

theorem execSvcPost_keepsWf (p) : NextMem (KeepsWf m0) (execSvcPost p s) := by
  unfold execSvcPost
  dsimp only
  split
  · exact kept
  split
  · split
    · exact kept
    · next h => simp [svcPostTo_keepsWf kept h]
  · simpa using kept

theorem execReplyDoorbell_keepsWf (p tag status) : NextMem (KeepsWf m0) (execReplyDoorbell p tag status s) := by
  unfold execReplyDoorbell; (repeat' split) <;> simp [kept]

theorem execRcall_keepsWf (g d a b) : NextMem (KeepsWf m0) (execRcall g d a b s) := by
  unfold execRcall
  refine runWord_nextMem kept fun w _ acting => ?_
  dsimp only
  split
  · trivial
  split
  · simpa using kept
  · exact foldl_fst_mem (KeepsWf m0) (fun x t here => by (repeat' split) <;> simp [here]) acting kept

/-! ### Launch, placement and retirement -/

theorem refuseRecord_keepsWf {encl kick e l code s1} (h : refuseRecord s encl kick e l code = .done s1) : KeepsWf m0 s1.mem := by
  unfold refuseRecord at h
  extract_lets s0 s2 at h
  have h2 : KeepsWf m0 s2.mem := by simpa [s2, s0] using kept
  clear_value s2
  split at h
  · cases h; exact h2
  split at h
  · split at h
    · cases h; exact h2
    · exact ioWrite_keepsWf h2 h
  · cases h; exact h2

theorem execDispatchRecord_keepsWf (encl kick) : NextMem (KeepsWf m0) (execDispatchRecord encl kick s) := by
  unfold execDispatchRecord
  split
  · exact kept
  split
  · exact kept
  split
  · exact kept
  extract_lets s1 code
  have h1 : KeepsWf m0 s1.mem := by simpa [s1] using kept
  split
  · split
    · next h => exact refuseRecord_keepsWf h1 h
    · exact kept
  · exact h1

@[simp] theorem placeTeam_keepsWf (l gid gnum p c n img) : KeepsWf m0 (placeTeam s l gid gnum p c n img).mem := by
  unfold placeTeam; split <;> simp [kept]

theorem execGrovePlacement_keepsWf (i pl) : NextMem (KeepsWf m0) (execGrovePlacement i pl s) := by
  unfold execGrovePlacement; (repeat' split) <;> simp [kept]

theorem execPlacementStarvation_keepsWf (i) : NextMem (KeepsWf m0) (execPlacementStarvation i s) := by
  unfold execPlacementStarvation; (repeat' split) <;> simp [kept]

theorem execIssueSelection_keepsWf (core slot) : NextMem (KeepsWf m0) (execIssueSelection core slot s) := by
  unfold execIssueSelection; split <;> simp [kept]

theorem execWaitCountStarvation_keepsWf (core wslot) : NextMem (KeepsWf m0) (execWaitCountStarvation core wslot s) := by
  unfold execWaitCountStarvation; dsimp only; (repeat' split) <;> simp [kept]

theorem execBindRecordWrite_keepsWf (core wslot rec) : NextMem (KeepsWf m0) (execBindRecordWrite core wslot rec s) := by
  unfold execBindRecordWrite; dsimp only; (repeat' split) <;> simp [kept]

@[simp] theorem ioWords_keepsWf (asid n va) : KeepsWf m0 (ioWords asid n va s).1.mem := by
  induction n generalizing va s with
  | zero => exact kept
  | succ n ih =>
    have read := ioReadVaBy_keepsWf kept 0 asid va 4
    unfold ioWords
    split
    · next h => rwa [h] at read
    · next h => rw [h] at read; exact ih read _

theorem execGsw_keepsWf (p v) : NextMem (KeepsWf m0) (execGsw p v s) := by
  have read := ioReadVaBy_keepsWf kept 0 (enclAsid s (getPart s p).agent) (bitsOf v.toNat 56 6 * 64) 4
  unfold execGsw
  dsimp only
  split
  · simpa using kept
  split
  · exact kept
  split
  · simpa using kept
  split
  · next h =>
    rw [h] at read
    simpa using read
  · next h =>
    rw [h] at read
    (repeat' split) <;> simp [read]

theorem execGuestSwitchCommit_keepsWf (p) : NextMem (KeepsWf m0) (execGuestSwitchCommit p s) := by
  unfold execGuestSwitchCommit; dsimp only; (repeat' split) <;> simp [kept]

theorem execTeamRetirement_keepsWf (core tslot) : NextMem (KeepsWf m0) (execTeamRetirement core tslot s) := by
  unfold execTeamRetirement
  dsimp only
  split
  · exact kept
  split
  · simpa using kept
  split
  · trivial
  · exact fqFault_keepsWf (by simpa using kept) _
  · simp [kept]
  split
  · simpa using kept
  split
  · simp [kept]
  split
  · next h => simp [ioWrite_keepsWf kept h]
  · simpa using kept
  · exact kept

end
end Sys2Proof.Machine
end

section
/-! Memory (R235, R236) keeps its canonical form, continued: Rowan's calls, enclaves, harts, the host port, sleep and function
reset. -/
namespace Sys2Proof.Machine
-- One declaration at a time: each more thread of the compiler takes a stack out of the same memory.
set_option Elab.async false

section
variable {m0 : SMap Byte} {s : State} (kept : KeepsWf m0 s.mem)
include kept

/-! ### Page tables and Rowan calls -/

theorem takeTable_keepsWf {p encl n s1 t} (h : takeTable s p encl n = some (s1, t)) : KeepsWf m0 s1.mem := by
  unfold takeTable at h
  split at h <;> cases h
  exact ioZero_keepsWf (by simpa using kept) ..

@[simp] theorem takePage_keepsWf (frame bits encl key state) : KeepsWf m0 (takePage s frame bits encl key state).mem := by
  simp [takePage, kept]

@[simp] theorem touchWalk_keepsWf (asid va) : KeepsWf m0 (touchWalk s asid va).mem := by simp [touchWalk, kept]

theorem ensureTable_keepsWf {p encl va lvl l table s1 t} (h : ensureTable p encl va lvl l table s = .ok s1 t) :
    KeepsWf m0 s1.mem := by
  induction l generalizing table s with
  | zero => cases h; exact kept
  | succ l ih =>
    unfold ensureTable at h
    dsimp only at h
    split at h
    · cases h; exact kept
    split at h
    · split at h
      · cases h
      · next taken => exact ih (rowanWrite_keepsWf (takeTable_keepsWf kept taken) ..) h
    split at h
    · cases h
    · exact ih kept h

@[simp] theorem writeLeaves_keepsWf (table va bits leaf) : KeepsWf m0 (writeLeaves s table va bits leaf).mem := by
  simp [writeLeaves, kept]

theorem mapPage_keepsWf {p encl asid va bits pa rwx s1 t} (h : mapPage s p encl asid va bits pa rwx = .ok s1 t) :
    KeepsWf m0 s1.mem := by
  unfold mapPage at h
  split at h
  · next tables => cases h; exact writeLeaves_keepsWf (ensureTable_keepsWf (touchWalk_keepsWf kept ..) tables) ..
  · next other => exact absurd h (other s1 t)

@[simp] theorem takeMapped_keepsWf (p encl key state pa bits) : KeepsWf m0 (takeMapped s p encl key state pa bits).mem := by
  simp [takeMapped, kept]

theorem mapPages_keepsWf {p encl asid bits rwx vas pa s1 t} (h : mapPages p encl asid bits rwx vas pa s = .ok s1 t) :
    KeepsWf m0 s1.mem := by
  induction vas generalizing pa s with
  | nil => cases h; exact kept
  | cons va vas ih =>
    unfold mapPages at h
    split at h
    · next mapped => exact ih (mapPage_keepsWf kept mapped) h
    · next other => exact absurd h (other s1 t)

@[simp] theorem mapCall_keepsWf (c) : KeepsWf m0 (mapCall s c).1.mem := by
  unfold mapCall
  dsimp only
  (repeat' split) <;> try simp [kept]
  next hm => exact mapPages_keepsWf (by simp [kept]) hm

/-- A call that Rowan answers at once keeps the canonical form where its effect does. -/
theorem runCall_keepsWf {funcs f} (effect : ∀ s c, KeepsWf s.mem (f s c).1.mem) : NextMem (KeepsWf m0) (runCall funcs f s) := by
  unfold runCall
  split
  · exact kept
  next s1 head =>
  have h1 : KeepsWf m0 s1.mem := by rwa [headCall_memory head]
  simpa using h1.trans (effect s1 _)

@[simp] theorem endSeal_keepsWf (c va src dst rwx pot) : KeepsWf m0 (endSeal s c va src dst rwx pot).mem := by
  unfold endSeal
  extract_lets asid encl s0 bad
  split
  · exact kept
  extract_lets k gen cipher s1 s2 s3 s4 s5
  have h0 : KeepsWf m0 s0.mem := by simp [s0, kept]
  have h3 : KeepsWf m0 s3.mem := ioPut_keepsWf (by simpa [s2, s1] using h0) ..
  have h5 : KeepsWf m0 s5.mem := by simpa [s5, s4] using h3
  exact getD_keepsWf h5 fun _ h => ioWriteVa_keepsWf h5 h

@[simp] theorem finishShoot_keepsWf (d) : KeepsWf m0 (finishShoot s d).mem := by
  unfold finishShoot; dsimp only; (repeat' split) <;> simp [kept]

@[simp] theorem startShoot_keepsWf (asid lo hi andThen call) : KeepsWf m0 (startShoot s asid lo hi andThen call).mem := by
  simp [startShoot, kept]

theorem execShootdownAck_keepsWf (a) : NextMem (KeepsWf m0) (execShootdownAck a s) := by
  unfold execShootdownAck; (repeat' split) <;> simp [kept]

@[simp] theorem clearPages_keepsWf (asid bits vas) : KeepsWf m0 (clearPages s asid bits vas).mem :=
  foldl_keepsWf kept (fun s va => by split <;> simp) vas

theorem unmapCall_keepsWf {c s1} (h : unmapCall s c = .inr s1) : KeepsWf m0 s1.mem := by
  unfold unmapCall at h
  dsimp only at h
  have walked := foldl_keepsWf kept (fun s va => touchWalk_keepsWf (keepsWf_refl s.mem) (argAsid c) va)
  (repeat' split at h) <;> cases h <;> exact startShoot_keepsWf (clearPages_keepsWf (walked _) ..) ..

theorem protCall_keepsWf {c s1} (h : protCall s c = .inr s1) : KeepsWf m0 s1.mem := by
  unfold protCall at h
  dsimp only at h
  (repeat' split at h) <;> cases h
  have walked := foldl_keepsWf kept (fun s va => touchWalk_keepsWf (keepsWf_refl s.mem) (argAsid c) va)
  exact startShoot_keepsWf (foldl_keepsWf (walked _) (fun _ _ => writeLeaves_keepsWf (keepsWf_refl _) ..) _) ..

@[simp] theorem copyPart_keepsWf (src dst n) : KeepsWf m0 (copyPart s src dst n).mem := by
  unfold copyPart
  extract_lets c s1
  have h1 : KeepsWf m0 s1.mem := by simp [s1, kept]
  simp [h1]

@[simp] theorem copyLines_keepsWf (src dst lines) : KeepsWf m0 (copyLines s src dst lines).mem := by simp [copyLines, kept]

theorem moveCall_keepsWf {c s1} (h : moveCall s c = .inr s1) : KeepsWf m0 s1.mem := by
  unfold moveCall at h
  dsimp only at h
  split at h
  · cases h
  split at h
  · cases h
  split at h
  · cases h
  split at h
  · cases h
  split at h
  · cases h
  · obtain rfl := Sum.inr.inj h
    exact copyPart_keepsWf (touchWalk_keepsWf (by simpa using kept) ..) ..

/-- A call that Rowan starts keeps the canonical form where its start does. -/
theorem startCall_keepsWf {funcs f} (start : ∀ {m1 s}, KeepsWf m1 s.mem → ∀ {c s1}, f s c = .inr s1 → KeepsWf m1 s1.mem) :
    NextMem (KeepsWf m0) (startCall funcs f s) := by
  unfold startCall
  split
  · exact kept
  next s1 head =>
  have h1 : KeepsWf m0 s1.mem := by rwa [headCall_memory head]
  split
  · simpa using h1
  · next started => exact start h1 started

@[simp] theorem cleanLines_keepsWf (lines) : KeepsWf m0 (cleanLines s lines).mem := by simp [cleanLines, kept]

@[simp] theorem recallPage_keepsWf (m) : KeepsWf m0 (recallPage s m).mem := by simp [recallPage, kept]

@[simp] theorem switchFrame_keepsWf (m) : KeepsWf m0 (switchFrame s m).mem := by
  unfold switchFrame
  extract_lets s1 rowan s2 s3
  have h1 : KeepsWf m0 s1.mem := by simp [s1, kept]
  have h2 : KeepsWf m0 s2.mem := h1
  have h3 : KeepsWf m0 s3.mem := by simp only [s3]; split <;> simp [h2]
  exact startShoot_keepsWf h3 ..

theorem execMigrationPass_keepsWf : NextMem (KeepsWf m0) (execMigrationPass s) := by
  unfold execMigrationPass; (repeat' split) <;> simp [kept]

/-! ### Enclaves -/

theorem writeSpan_keepsWf {asid fuel va bs s1} (h : writeSpan asid fuel va bs s = some s1) : KeepsWf m0 s1.mem := by
  induction fuel generalizing va bs s with
  | zero => cases h; exact kept
  | succ fuel ih =>
    unfold writeSpan at h
    dsimp only at h
    split at h
    · cases h; exact kept
    · split at h
      · next hw => exact ih (ioWriteVa_keepsWf kept hw) h
      · cases h

theorem writeSpanAt_keepsWf {asid va bs s1} (h : writeSpanAt s asid va bs = some s1) : KeepsWf m0 s1.mem := writeSpan_keepsWf kept h

theorem newRoot_keepsWf {p encl asid s1} (h : newRoot s p encl asid = some s1) : KeepsWf m0 s1.mem := by
  unfold newRoot at h
  split at h
  · cases h
  · next taken =>
    have h1 := takeTable_keepsWf kept taken
    cases h
    exact h1

theorem addPage_keepsWf {p encl asid va rwx state content s1} (h : addPage s p encl asid va rwx state content = some s1) :
    KeepsWf m0 s1.mem := by
  unfold addPage at h
  split at h
  · next tables =>
    split at h <;> cases h
    exact writeLeaves_keepsWf (ioPut_keepsWf (takePage_keepsWf (ensureTable_keepsWf kept tables) ..) ..) ..
  · cases h

theorem addKickPage_keepsWf {p encl asid va s1} (h : addKickPage s p encl asid va = some s1) : KeepsWf m0 s1.mem := by
  unfold addKickPage at h
  split at h <;> cases h
  next tables => simp [ensureTable_keepsWf kept tables]

theorem createEnclave_keepsWf {creator ce va s1 id} (h : createEnclave s creator ce va = .inr (s1, id)) : KeepsWf m0 s1.mem := by
  unfold createEnclave at h
  dsimp only at h
  split at h
  · cases h
  split at h
  · cases h
  split at h
  · split at h
    · cases h
    · split at h
      · cases h
      · next hk =>
        split at h <;> cases h
        next hw =>
        obtain ⟨s2, h2, hk⟩ := Option.bind_eq_some_iff.1 hk
        have read (asid va n va' n') := ioTouchSpan_keepsWf (ioTouchSpan_keepsWf kept asid va n) asid va' n'
        have paged := foldl_bind_keepsWf (m0 := m0) (fun _ _ _ ha => addPage_keepsWf (keepsWf_refl _) ha) _
          (fun _ hr => newRoot_keepsWf (by simpa using foldl_keepsWf (read ..) (fun s e => by split <;> simp) _) hr) h2
        have kicked := addKickPage_keepsWf paged hk
        exact ioWriteVa_keepsWf (by simpa using ioPut_keepsWf kicked ..) hw
  · cases h

@[simp] theorem forceMop_keepsWf (t) : KeepsWf m0 (forceMop s t).mem := by
  have queued {va item s1 r} (h : enqTry s t va item = .done s1 r) : KeepsWf m0 s1.mem := by
    simpa [h, QKeepsWf] using enqTry_keepsWf kept t va item
  unfold forceMop
  split
  · exact kept
  next o _ =>
  extract_lets n s1
  have h1 : KeepsWf m0 s1.mem := by
    simp only [s1]
    (repeat' split) <;> simp [kept]
    next h => exact queued h
  clear_value s1
  split <;> simp [h1]

@[simp] theorem drainThread_keepsWf (t) : KeepsWf m0 (drainThread s t).mem := by simp [drainThread, kept]

@[simp] theorem destroyTeam_keepsWf (k) : KeepsWf m0 (destroyTeam s k).mem := by
  unfold destroyTeam
  extract_lets tm s1 s2 s3
  have h2 : KeepsWf m0 s2.mem := foldl_keepsWf (by simpa [s1] using kept) (fun _ _ => drainThread_keepsWf (keepsWf_refl _) _) _
  clear_value s2
  have h3 : KeepsWf m0 s3.mem := by
    simp only [s3]
    split
    · exact h2
    split
    · split
      · next h => exact ioWrite_keepsWf h2 h
      · exact h2
    · simpa using h2
  simpa using h3

@[simp] theorem dropLines_keepsWf (frame bits) : KeepsWf m0 (dropLines s frame bits).mem := by simp [dropLines, kept]

@[simp] theorem destroyOne_keepsWf (id) : KeepsWf m0 (destroyOne s id).mem := by
  unfold destroyOne
  split
  · exact kept
  extract_lets closed s1 s2 s3 s4 host
  have h1 : KeepsWf m0 s1.mem := by simpa [s1, closed] using kept
  have h2 : KeepsWf m0 s2.mem := foldl_keepsWf h1 (fun _ _ => destroyTeam_keepsWf (keepsWf_refl _) _) _
  have h4 : KeepsWf m0 s4.mem := foldl_keepsWf (by simpa [s3] using h2) (fun _ _ => by simp) _
  exact h4

@[simp] theorem destroyTree_keepsWf (id) : KeepsWf m0 (destroyTree s id).mem := by simp [destroyTree, kept]

@[simp] theorem attest_keepsWf (id e rpt usr) : KeepsWf m0 (attest s id e rpt usr).1.mem := by
  have read {s0 user} (h : ioReadVa s e.asid usr 64 = (s0, user)) : KeepsWf m0 s0.mem := by
    simpa [h] using ioReadVa_keepsWf kept e.asid usr 64
  unfold attest
  split
  · exact kept
  split
  · next h _ =>
    split
    · exact read h
    split
    · next written => exact ioWriteVa_keepsWf (read h) written
    · exact read h
  · next h => exact read h
  · next h _ => simpa using read h

theorem buildAgent_keepsWf {p areas plain s1} (h : buildAgent s p areas plain = some s1) : KeepsWf m0 s1.mem := by
  unfold buildAgent at h
  split at h
  · extract_lets id asid s0 s1 s2 large s3 put kickVa s4 at h
    have h0 : KeepsWf m0 s0.mem := by simpa [s0] using kept
    have h1 : KeepsWf m0 s1.mem := foldl_keepsWf h0 (fun _ _ => by simp) _
    have h2 : KeepsWf m0 s2.mem := foldl_keepsWf h1 (fun _ _ => by simp) _
    have h3 : KeepsWf m0 s3.mem := foldl_keepsWf h2 (fun _ _ => by simp) _
    have h4 (s') (e : s4 = some s') : KeepsWf m0 s'.mem := by
      obtain ⟨sm, hm, hk⟩ := Option.bind_eq_some_iff.1 e
      have mapped : KeepsWf m0 sm.mem := foldl_bind_keepsWf (fun s x s1 hx => by
          split at hx <;> cases hx
          next hx => exact mapPage_keepsWf (keepsWf_refl _) hx) _ (fun _ hr => newRoot_keepsWf h3 hr) hm
      exact addKickPage_keepsWf mapped hk
    clear_value s4
    split at h
    · cases h
    · next s5 =>
      split at h
      · next s6 t h6 =>
        extract_lets s7 at h
        have h7 : KeepsWf m0 s7.mem := foldl_keepsWf (ensureTable_keepsWf (h4 _ rfl) h6) (fun s f => by split <;> simp) _
        cases h
        rwa [agentPart_memory]
      · cases h
  · cases h

theorem execPcfg_keepsWf (p v) : NextMem (KeepsWf m0) (execPcfg p v s) := by
  unfold execPcfg; dsimp only; (repeat' split) <;> simp [kept]

theorem execPartitionBuild_keepsWf (p) : NextMem (KeepsWf m0) (execPartitionBuild p s) := by
  unfold execPartitionBuild
  dsimp only
  split
  · simp [kept]
  · split
    · simp [kept]
    · split
      · simp [kept]
      · next h => simp [buildAgent_keepsWf kept h]

/-! ### Hart exceptions -/

theorem execIllegalInstructionException_keepsWf (w) : NextMem (KeepsWf m0) (execIllegalInstructionException w s) := by
  unfold execIllegalInstructionException; split <;> simp [kept]

/-! ### Extension instructions -/

/-- An extension instruction of a hart keeps the canonical form where its effect does. -/
theorem runHart_keepsWf {w f} (hf : ∀ h x e, NextMem (KeepsWf m0) (f h x e)) : NextMem (KeepsWf m0) (runHart w f s) := by
  unfold runHart
  split
  · simp [kept]
  · dsimp only
    split
    · simp [kept]
    · exact hf _ _ _

omit kept in
/-- The memory that a load of a hart leaves keeps the canonical form. -/
def LoadKeepsWf (m0 : SMap Byte) : HartLoad → Prop
  | .ok s _ => KeepsWf m0 s.mem
  | .fault s => KeepsWf m0 s.mem
  | .badAddr _ => True

theorem hartLoad_keepsWf (h va n) : LoadKeepsWf m0 (hartLoad s h va n) := by
  unfold hartLoad
  split
  · next s1 _ _ e =>
    have h1 : KeepsWf m0 s1.mem := by rwa [memory_of_hartTrans e]
    dsimp only
    (repeat' split) <;> simp [LoadKeepsWf, h1]
  · trivial
  · next s1 _ _ _ _ e => simpa [LoadKeepsWf, memory_of_hartTrans e] using kept

theorem execSpawn_keepsWf (rd rs1 rs2) : NextMem (KeepsWf m0) (execSpawn rd rs1 rs2 s) := by
  unfold execSpawn
  refine runHart_keepsWf kept fun h x e => ?_
  have loaded := hartLoad_keepsWf kept h (rdX x rs1).toNat 128
  dsimp only
  split
  · simpa using kept
  split
  · simpa using kept
  (repeat' split) <;> simp_all [LoadKeepsWf]

theorem execSpawnAppend_keepsWf (hart) : NextMem (KeepsWf m0) (execSpawnAppend hart s) := by
  unfold execSpawnAppend; (repeat' split) <;> simp [kept]

theorem joinRead_keepsWf (h va rd) : NextMem (KeepsWf m0) (joinRead s h va rd) := by
  have loaded := hartLoad_keepsWf kept h va 8
  unfold joinRead
  split
  · trivial
  · simp_all [LoadKeepsWf]
  · dsimp only; split <;> simp_all [LoadKeepsWf]

theorem execJoinw_keepsWf (rd rs1) : NextMem (KeepsWf m0) (execJoinw rd rs1 s) := by
  unfold execJoinw
  refine runHart_keepsWf kept fun h x _ => ?_
  dsimp only
  split
  · simp [kept]
  · exact joinRead_keepsWf kept ..

theorem execJoinwComplete_keepsWf (ha) : NextMem (KeepsWf m0) (execJoinwComplete ha s) := by
  unfold execJoinwComplete
  split
  · exact joinRead_keepsWf kept ..
  · exact kept

/-- A trap of a hart to Rowan keeps the canonical form where its effect does. -/
theorem rowanTrap_keepsWf {w rd busy f} (hf : ∀ x e, KeepsWf m0 (f x e).1.mem) : NextMem (KeepsWf m0) (rowanTrap w rd busy f s) :=
  runHart_keepsWf kept fun h x e => by dsimp only; (repeat' split) <;> simp [hf, kept]

theorem execEcreate_keepsWf (rd rs1) : NextMem (KeepsWf m0) (execEcreate rd rs1 s) := by
  unfold execEcreate
  refine rowanTrap_keepsWf kept fun x e => ?_
  split
  · split <;> simp [kept]
  · next hc => exact createEnclave_keepsWf kept hc

theorem execEdestroy_keepsWf (rd rs1) : NextMem (KeepsWf m0) (execEdestroy rd rs1 s) := by
  unfold execEdestroy
  exact rowanTrap_keepsWf kept fun x _ => by dsimp only; split <;> simp [kept]

theorem execEattest_keepsWf (rd rs1 rs2) : NextMem (KeepsWf m0) (execEattest rd rs1 rs2 s) := by
  unfold execEattest
  exact rowanTrap_keepsWf kept fun x e => attest_keepsWf kept ..

/-! ### Host port -/

theorem execPwrlim_keepsWf (v) : NextMem (KeepsWf m0) (execPwrlim v s) := by
  unfold execPwrlim; dsimp only; (repeat' split) <;> simp [kept]

theorem execEmergencyPowerReduction_keepsWf (asserted) : NextMem (KeepsWf m0) (execEmergencyPowerReduction asserted s) := by
  simp [execEmergencyPowerReduction, kept]

theorem execMslim_keepsWf (p m v) : NextMem (KeepsWf m0) (execMslim p m v s) := by
  unfold execMslim; dsimp only; (repeat' split) <;> simp [kept]

theorem execMscfg_keepsWf (p m v) : NextMem (KeepsWf m0) (execMscfg p m v s) := by
  unfold execMscfg; dsimp only; (repeat' split) <;> simp [kept]

@[simp] theorem cleanShare_keepsWf (p m) : KeepsWf m0 (cleanShare s p m).mem := by simp [cleanShare, kept]

theorem execMeadowStoreSplitChange_keepsWf (p m) : NextMem (KeepsWf m0) (execMeadowStoreSplitChange p m s) := by
  unfold execMeadowStoreSplitChange; dsimp only; (repeat' split) <;> simp [kept]

theorem execTdispRequest_keepsWf (vf r) : NextMem (KeepsWf m0) (execTdispRequest vf r s) := by
  unfold execTdispRequest; dsimp only; (repeat' split) <;> simp [kept]

theorem execLockInterfaceRequest_keepsWf (vf) : NextMem (KeepsWf m0) (execLockInterfaceRequest vf s) := by
  unfold execLockInterfaceRequest; dsimp only; (repeat' split) <;> simp [kept]

theorem execIdeKmKeyProgramming_keepsWf (stream session selective) :
    NextMem (KeepsWf m0) (execIdeKmKeyProgramming stream session selective s) := by
  unfold execIdeKmKeyProgramming; dsimp only; (repeat' split) <;> simp [kept]

@[simp] theorem hostTouch_keepsWf (r) : KeepsWf m0 (hostTouch s r).mem := by simp [hostTouch, kept]

@[simp] theorem hostWrite_keepsWf (r bs) : KeepsWf m0 (hostWrite s r bs).mem := by simp [hostWrite, kept]

@[simp] theorem hostBound_keepsWf (encl part r) : KeepsWf m0 (hostBound s encl part r).mem := by
  unfold hostBound; (repeat' split) <;> simp [kept]

@[simp] theorem sealTouch_keepsWf (write b) : KeepsWf m0 (sealTouch write s b).mem := by simp [sealTouch, kept]

@[simp] theorem restoreBlock_keepsWf (b new) : KeepsWf m0 (restoreBlock s b new).mem := by
  unfold restoreBlock; (repeat' split) <;> simp [kept]

@[simp] theorem storeBlock_keepsWf (r bs b) : KeepsWf m0 (storeBlock s r bs b).mem := by simp [storeBlock, kept]

@[simp] theorem hostSealed_keepsWf (p r) : KeepsWf m0 (hostSealed s p r).mem := by
  have stored (bs) := foldl_keepsWf kept (fun s b => storeBlock_keepsWf (sealTouch_keepsWf (keepsWf_refl s.mem) true b) r bs b)
  unfold hostSealed
  dsimp only
  (repeat' split) <;> simp [stored, kept]

@[simp] theorem peerBlock_keepsWf (r bs b) : KeepsWf m0 (peerBlock r bs s b).mem := by unfold peerBlock; split <;> simp [kept]

@[simp] theorem peerWrite_keepsWf (r bs) : KeepsWf m0 (peerWrite s r bs).mem := by simp [peerWrite, kept]

@[simp] theorem hostReach_keepsWf (r) : KeepsWf m0 (hostReach s r).mem := by
  unfold hostReach; dsimp only; (repeat' split) <;> simp [kept]

theorem execHostMemoryAccess_keepsWf (r) : NextMem (KeepsWf m0) (execHostMemoryAccess r s) := by
  unfold execHostMemoryAccess; (repeat' split) <;> simp [kept]

theorem execRegisterWrite_keepsWf (fn off v) : NextMem (KeepsWf m0) (execRegisterWrite fn off v s) := by
  unfold execRegisterWrite; (repeat' split) <;> simp [kept]

/-! ### Further Rowan calls -/

theorem sealCall_keepsWf {c s1} (h : sealCall s c = .inr s1) : KeepsWf m0 s1.mem := by
  unfold sealCall at h
  dsimp only at h
  (repeat' split at h) <;> cases h
  exact startShoot_keepsWf (clearPages_keepsWf (touchWalk_keepsWf kept ..) ..) ..

@[simp] theorem unsealCall_keepsWf (c) : KeepsWf m0 (unsealCall s c).1.mem := by
  unfold unsealCall
  dsimp only
  (repeat' split) <;> try simp [kept]
  next hm =>
    exact mapPage_keepsWf (by simpa using ioPut_keepsWf (takePage_keepsWf (by simp [kept]) ..) ..) hm

@[simp] theorem usageCall_keepsWf (c) : KeepsWf m0 (usageCall s c).1.mem := by
  unfold usageCall
  dsimp only
  (repeat' split) <;> try simp [kept]
  next h => exact writeSpanAt_keepsWf (s := (emitUsage s _ _).1) (by simpa using kept) h

@[simp] theorem svcqCall_keepsWf (c) : KeepsWf m0 (svcqCall s c).1.mem := by
  unfold svcqCall; dsimp only; (repeat' split) <;> simp [kept]

@[simp] theorem ploadCall_keepsWf (c) : KeepsWf m0 (ploadCall s c).1.mem := by
  unfold ploadCall
  dsimp only
  (repeat' split) <;> try simp [kept]
  next h => exact ioWriteVa_keepsWf (by simp [kept]) h

@[simp] theorem flushGrains_keepsWf (hit) : KeepsWf m0 (flushGrains s hit).mem := by simp [flushGrains, kept]

theorem execRange_keepsWf : NextMem (KeepsWf m0) (execRange s) := by
  unfold execRange
  split
  · simp [kept]
  · next h => dsimp only; (repeat' split) <;> simp [headCall_memory h, kept]

/-! ### Fault acknowledgement -/

@[simp] theorem ackPage_keepsWf (asid page deny) : KeepsWf m0 (ackPage s asid page deny).mem := by simp [ackPage, kept]

@[simp] theorem fqackOne_keepsWf (a b) : KeepsWf m0 (fqackOne s a b).1.mem := by
  unfold fqackOne; dsimp only; (repeat' split) <;> simp [kept]

theorem execFqack_keepsWf (g d a b) : NextMem (KeepsWf m0) (execFqack g d a b s) := by
  unfold execFqack
  refine runWord_nextMem kept fun _ _ acting => ?_
  dsimp only
  split
  · trivial
  · exact foldl_fst_mem (KeepsWf m0) (fun x t here => by simp [here]) acting kept

/-! ### SPDM -/

@[simp] theorem spdmCallOf_keepsWf (c) : KeepsWf m0 (spdmCallOf s c).1.mem := by
  unfold spdmCallOf
  dsimp only
  (repeat' split) <;> try simp [kept]
  next h => exact writeSpanAt_keepsWf (by simp [kept]) h

theorem execSpdmCall_keepsWf : NextMem (KeepsWf m0) (execSpdmCall s) :=
  runCall_keepsWf kept fun s c => spdmCallOf_keepsWf (keepsWf_refl s.mem) c

theorem spdmEvent_keepsWf (via r) : NextMem (KeepsWf m0) (spdmEvent via r s) := by
  unfold spdmEvent
  split
  · split <;> simp [kept]
  · split
    · simp [kept]
    · split
      · split
        · exact execSpdmCall_keepsWf kept
        · simp [kept]
      · simp [kept]

/-! ### Sleep and swap -/

@[simp] theorem saveItem_keepsWf (p m frames asid o n) : KeepsWf m0 (saveItem p m frames asid o n s).mem :=
  foldl_keepsWf kept (fun s i => by split <;> simp) _

@[simp] theorem saveItems_keepsWf (p m frames ks o) : KeepsWf m0 (saveItems p m frames ks o s).mem := by
  induction ks generalizing o s with
  | nil => exact kept
  | cons k ks ih => simp [saveItems, ih, kept]

theorem saveDirty_keepsWf {p m ks s1} (h : saveDirty s p m ks = some s1) : KeepsWf m0 s1.mem := by
  obtain ⟨frames, -, rfl⟩ := Option.map_eq_some_iff.1 h
  simp [kept]

theorem swapOut_keepsWf {p m ks s1} (h : swapOut s p m ks = some s1) : KeepsWf m0 s1.mem := by
  obtain ⟨s2, h2, rfl⟩ := Option.map_eq_some_iff.1 h
  simp [saveDirty_keepsWf kept h2]

theorem execSleep_keepsWf : NextMem (KeepsWf m0) (execSleep s) := by unfold execSleep; (repeat' split) <;> simp [kept]

theorem execPartitionSwapOut_keepsWf (p m) : NextMem (KeepsWf m0) (execPartitionSwapOut p m s) := by
  unfold execPartitionSwapOut
  extract_lets ks s0 stopped s1
  have h1 : KeepsWf m0 s1.mem := by simpa [s1, stopped, s0] using kept
  clear_value s1
  (repeat' split) <;> try simp [kept, h1]
  refine getD_keepsWf h1 fun s2 h => ?_
  obtain ⟨s3, h3, rfl⟩ := Option.map_eq_some_iff.1 h
  simpa using swapOut_keepsWf h1 h3

@[simp] theorem roomForLines_keepsWf (p c) : KeepsWf m0 (roomForLines s p c).mem := by simp [roomForLines, kept]

@[simp] theorem fillCoreBack_keepsWf (r p c) : KeepsWf m0 (fillCoreBack s r p c).mem := by simp [fillCoreBack, kept]

@[simp] theorem applyHeld_keepsWf (k n) : KeepsWf m0 (applyHeld k n s).mem := by
  induction n generalizing s with
  | zero => exact kept
  | succ n ih =>
    have published := execQueryPublish_keepsWf kept (k / 4) (k % 4)
    unfold applyHeld
    split
    · next h => rw [h] at published; exact ih published
    · exact kept

@[simp] theorem publishHeld_keepsWf (k) : KeepsWf m0 (publishHeld s k).mem := by simp [publishHeld, kept]

theorem execPartitionSwapIn_keepsWf (p m) : NextMem (KeepsWf m0) (execPartitionSwapIn p m s) := by
  unfold execPartitionSwapIn
  extract_lets ks cores mine host r s1 s2
  have h1 : KeepsWf m0 s1.mem := foldl_keepsWf kept (fun _ _ => fillCoreBack_keepsWf (keepsWf_refl _) ..) _
  have h2 : KeepsWf m0 s2.mem := by simpa [s2] using h1
  (repeat' split) <;> simp [kept, h2]

@[simp] theorem wakeFail_keepsWf : KeepsWf m0 (wakeFail s).mem := by simp [wakeFail, kept]

theorem execWake_keepsWf : NextMem (KeepsWf m0) (execWake s) := by unfold execWake; (repeat' split) <;> simp [kept]

/-! ### Function reset -/

@[simp] theorem endPartition_keepsWf (p) : KeepsWf m0 (endPartition s p).mem :=
  foldl_keepsWf (foldl_keepsWf kept (fun _ _ => destroyTeam_keepsWf (keepsWf_refl _) _) _)
    (fun _ _ => destroyOne_keepsWf (keepsWf_refl _) _) _

@[simp] theorem rebuildAgent_keepsWf (p) : KeepsWf m0 (rebuildAgent s p).mem :=
  getD_keepsWf (by rwa [setPart_mem]) fun _ h => buildAgent_keepsWf (by rwa [setPart_mem]) h

theorem finishSwap_keepsWf (p m ks) : KeepsWf m0 ((swapOut s p m ks).getD (leaveCores s p m ks)).mem :=
  getD_keepsWf (by rwa [leaveCores_memory]) fun _ h => swapOut_keepsWf kept h

/-- A fold keeps the canonical form where each step does; the state after a step stands as a variable, which the kernel need not
evaluate. -/
theorem foldl_keepsWf_of_eq {α : Type} {f : State → α → State} (step : ∀ s a s1, s1 = f s a → KeepsWf s.mem s1.mem)
    (l : List α) : KeepsWf m0 (l.foldl f s).mem := foldl_keepsWf kept (fun s a => step s a _ rfl) l

@[simp] theorem finishSwaps_keepsWf (p) : KeepsWf m0 (finishSwaps s p).mem := by
  unfold finishSwaps
  exact foldl_keepsWf_of_eq kept (fun s m _ e => e ▸ finishSwap_keepsWf (keepsWf_refl _) p m _) _

theorem execVirtualFunctionReset_keepsWf (vf) : NextMem (KeepsWf m0) (execVirtualFunctionReset vf s) := by
  unfold execVirtualFunctionReset
  extract_lets p host tags encls s0 s1 s2 s3 host'
  have h0 : KeepsWf m0 s0.mem := by simpa [s0] using finishSwaps_keepsWf kept p
  have h1 : KeepsWf m0 s1.mem := by
    simpa [s1] using endPartition_keepsWf (s := abortSvc s0 p) (by simpa using h0) p
  have h3 : KeepsWf m0 s3.mem := rebuildAgent_keepsWf (by simpa [s2] using h1) _
  (repeat' split) <;> simp [kept, h3]

end
end Sys2Proof.Machine
end

section
/-! Every step keeps the canonical form of memory (R235, R236): every instruction, then the turns and what falls due (R54). -/
namespace Sys2Proof.Machine
-- One declaration at a time: each more thread of the compiler takes a stack out of the same memory.
set_option Elab.async false

section
variable {m0 : SMap Byte} {s : State} (kept : KeepsWf m0 s.mem)
include kept

/-! ### Instructions -/

omit kept in
theorem execColdReset_keepsWf : NextMem (KeepsWf m0) (execColdReset s) := by simpa [execColdReset] using reset_keepsWf

/-- The words that ask a home and the instructions that are no words each by its own lemma, every other word by its row. -/
theorem exec_keepsWf (i) : NextMem (KeepsWf m0) (exec i s) := by
  cases i with
  | deq => exact execDeq_keepsWf kept ..
  | svc => exact execSvc_keepsWf kept ..
  | rcall => exact execRcall_keepsWf kept ..
  | fqack => exact execFqack_keepsWf kept ..
  | exit | rett | trap | ebrk => exact isEnd_nextMem kept trivial
  | icmp h c p ops => cases ops <;> exact wordRow_nextMem kept rfl id
  | shfl h f | ballot h f => cases f <;> exact wordRow_nextMem kept rfl id
  | redux h op d a => cases d <;> exact wordRow_nextMem kept rfl id
  | spawn => exact execSpawn_keepsWf kept ..
  | joinw => exact execJoinw_keepsWf kept ..
  | ecreate => exact execEcreate_keepsWf kept ..
  | edestroy => exact execEdestroy_keepsWf kept ..
  | eattest => exact execEattest_keepsWf kept ..
  | illegalOpcode => exact decodeTrap_nextMem kept _
  | illegalInstructionException => exact execIllegalInstructionException_keepsWf kept ..
  | spawnAppend => exact execSpawnAppend_keepsWf kept ..
  | joinwComplete => exact execJoinwComplete_keepsWf kept ..
  | map => exact runCall_keepsWf kept fun s c => mapCall_keepsWf (keepsWf_refl s.mem) c
  | unmap => exact startCall_keepsWf kept unmapCall_keepsWf
  | prot => exact startCall_keepsWf kept protCall_keepsWf
  | move => exact startCall_keepsWf kept moveCall_keepsWf
  | sealPage => exact startCall_keepsWf kept sealCall_keepsWf
  | unsealPage => exact runCall_keepsWf kept fun s c => unsealCall_keepsWf (keepsWf_refl s.mem) c
  | usage => exact runCall_keepsWf kept fun s c => usageCall_keepsWf (keepsWf_refl s.mem) c
  | svcq => exact runCall_keepsWf kept fun s c => svcqCall_keepsWf (keepsWf_refl s.mem) c
  | spdmCall => exact execSpdmCall_keepsWf kept ..
  | bind => exact runCall_keepsWf kept fun s c => by simp
  | pload => exact runCall_keepsWf kept fun s c => ploadCall_keepsWf (keepsWf_refl s.mem) c
  | punload => exact runCall_keepsWf kept fun s c => by simp
  | range => exact execRange_keepsWf kept ..
  | coldReset => exact execColdReset_keepsWf
  | warmReset => exact execWarmReset_keepsWf kept ..
  | firmwareImage => exact execFirmwareImage_keepsWf kept ..
  | hostLinkTraining => exact execHostLinkTraining_keepsWf kept ..
  | hello => exact execHello_keepsWf kept ..
  | discoveryWindowEnd => exact execDiscoveryWindowEnd_keepsWf kept ..
  | claim => exact execClaim_keepsWf kept ..
  | leaderSilent => exact execLeaderSilent_keepsWf kept ..
  | podFlitReceive => exact execPodFlitReceive_keepsWf kept ..
  | staggeredStartStep => exact execStaggeredStartStep_keepsWf kept ..
  | arrayRampDone => exact execArrayRampDone_keepsWf kept ..
  | pwrlim => exact execPwrlim_keepsWf kept ..
  | emergencyPowerReduction => exact execEmergencyPowerReduction_keepsWf kept ..
  | mslim => exact execMslim_keepsWf kept ..
  | mscfg => exact execMscfg_keepsWf kept ..
  | meadowStoreSplitChange => exact execMeadowStoreSplitChange_keepsWf kept ..
  | pcfg => exact execPcfg_keepsWf kept ..
  | partitionBuild => exact execPartitionBuild_keepsWf kept ..
  | gsw => exact execGsw_keepsWf kept ..
  | guestSwitchCommit => exact execGuestSwitchCommit_keepsWf kept ..
  | replyDoorbell => exact execReplyDoorbell_keepsWf kept ..
  | llaunch => exact execLlaunch_keepsWf kept ..
  | sleep => exact execSleep_keepsWf kept ..
  | commit => exact execCommit_keepsWf kept ..
  | wake => exact execWake_keepsWf kept ..
  | registerWrite => exact execRegisterWrite_keepsWf kept ..
  | tdispRequest => exact execTdispRequest_keepsWf kept ..
  | lockInterfaceRequest => exact execLockInterfaceRequest_keepsWf kept ..
  | ideKmKeyProgramming => exact execIdeKmKeyProgramming_keepsWf kept ..
  | hostMemoryAccess => exact execHostMemoryAccess_keepsWf kept ..
  | getVersion | getCapabilities | negotiateAlgorithms | getDigests | getCertificate | challenge | getMeasurements
    | keyExchange | finish | endSession | spdmUnsupportedRequest => exact spdmEvent_keepsWf kept ..
  | virtualFunctionReset => exact execVirtualFunctionReset_keepsWf kept ..
  | dispatchRecord => exact execDispatchRecord_keepsWf kept ..
  | grovePlacement => exact execGrovePlacement_keepsWf kept ..
  | placementStarvation => exact execPlacementStarvation_keepsWf kept ..
  | issueSelection => exact execIssueSelection_keepsWf kept ..
  | waitCountStarvation => exact execWaitCountStarvation_keepsWf kept ..
  | bindRecordWrite => exact execBindRecordWrite_keepsWf kept ..
  | teamRetirement => exact execTeamRetirement_keepsWf kept ..
  | queueSliceBoundary => exact execQueueSliceBoundary_keepsWf kept ..
  | storeBufferDrain => exact execStoreBufferDrain_keepsWf kept ..
  | loadReturn => exact execLoadReturn_keepsWf kept ..
  | atomicPerform => exact execAtomicPerform_keepsWf kept ..
  | walkComplete => exact execWalkComplete_keepsWf kept ..
  | faultQueueRoom => exact execFaultQueueRoom_keepsWf kept ..
  | registerLineFill => exact execRegisterLineFill_keepsWf kept ..
  | rgrowGrant => exact execRgrowGrant_keepsWf kept ..
  | handlerEntry => exact execHandlerEntry_keepsWf kept ..
  | barrierPhaseComplete => exact execBarrierPhaseComplete_keepsWf kept ..
  | deqTake => exact execDeqTake_keepsWf kept ..
  | enqReservation => exact execEnqReservation_keepsWf kept ..
  | awaitTake => exact execAwaitTake_keepsWf kept ..
  | mbarWaitWake => exact execMbarWaitWake_keepsWf kept ..
  | ldfWake => exact execLdfWake_keepsWf kept ..
  | stfWaitWake => exact execStfWaitWake_keepsWf kept ..
  | napWake => exact execNapWake_keepsWf kept ..
  | svcPost => exact execSvcPost_keepsWf kept ..
  | maintenanceComplete => exact execMaintenanceComplete_keepsWf kept ..
  | rsvComplete => exact execRsvComplete_keepsWf kept ..
  | acqComplete => exact execAcqComplete_keepsWf kept ..
  | unrsvComplete => exact execUnrsvComplete_keepsWf kept ..
  | matrixJobStart => exact execMatrixJobStart_keepsWf kept ..
  | kStep => exact execKStep_keepsWf kept ..
  | arraySwitchPoint => exact execArraySwitchPoint_keepsWf kept ..
  | matrixJobComplete => exact execMatrixJobComplete_keepsWf kept ..
  | budgetRefill => exact execBudgetRefill_keepsWf kept ..
  | copyJobStart => exact execCopyJobStart_keepsWf kept ..
  | ringSlotClaim => exact execRingSlotClaim_keepsWf kept ..
  | copyPieceDelivery => exact execCopyPieceDelivery_keepsWf kept ..
  | relayHop => exact execRelayHop_keepsWf kept ..
  | copyJobComplete => exact execCopyJobComplete_keepsWf kept ..
  | copyJobFault => exact execCopyJobFault_keepsWf kept ..
  | queryContextAllocate => exact execQueryContextAllocate_keepsWf kept ..
  | distanceReply => exact execDistanceReply_keepsWf kept ..
  | adjacencyReply => exact execAdjacencyReply_keepsWf kept ..
  | queryPublish => exact execQueryPublish_keepsWf kept ..
  | shootdownAck => exact execShootdownAck_keepsWf kept ..
  | migrationPass => exact execMigrationPass_keepsWf kept ..
  | lrd | lwr | rrd | rup | erd | ewr | cln | inv => exact takeRequest_keepsWf kept ..
  | evt => exact execEvt_keepsWf kept ..
  | directoryAck => exact execDirectoryAck_keepsWf kept ..
  | tmo => exact execTmo_keepsWf kept ..
  | proxyInvalidation => exact execProxyInvalidation_keepsWf kept ..
  | copyInvalidation => exact execCopyInvalidation_keepsWf kept ..
  | replicaLock => exact execReplicaLock_keepsWf kept ..
  | replicaUpdate => exact execReplicaUpdate_keepsWf kept ..
  | partitionSwapOut => exact execPartitionSwapOut_keepsWf kept ..
  | partitionSwapIn => exact execPartitionSwapIn_keepsWf kept ..
  | usageRecordPeriodic => exact execUsageRecordPeriodic_keepsWf kept ..
  | podLinkTraining => exact execPodLinkTraining_keepsWf kept ..
  | meadowStoreWriteBack => exact by simpa [exec_meadowStoreWriteBack, execMeadowStoreWriteBack] using kept
  | _ => exact wordRow_nextMem kept rfl id

/-! ### The fetch -/

omit kept in
/-- The memory that a fetch leaves keeps the canonical form. -/
def FetchKeepsWf (m0 : SMap Byte) : Fetched → Prop
  | .word s _ => KeepsWf m0 s.mem
  | .done s => KeepsWf m0 s.mem
  | .bad _ => True

theorem fetchFault_keepsWf (w l code) : FetchKeepsWf m0 (fetchFault s w l code) := by simpa [fetchFault, FetchKeepsWf] using kept

theorem fetchWarp_keepsWf : FetchKeepsWf m0 (fetchWarp s) := by
  unfold fetchWarp
  split
  · exact kept
  next w l _ =>
  dsimp only
  split
  · exact fetchFault_keepsWf kept ..
  split
  · exact kept
  split
  · exact fetchFault_keepsWf kept ..
  · split
    · refine fetchFault_keepsWf ?_ ..
      split <;> simpa using kept
    · trivial
    · simpa [FetchKeepsWf] using kept
  · (repeat' split)
    · trivial
    · exact fetchFault_keepsWf kept ..
    · exact fetchFault_keepsWf (by simpa using kept) ..
    · exact fetchFault_keepsWf (by simpa using kept) ..
    · simpa [FetchKeepsWf] using kept

theorem fetchHart_keepsWf (h) : LoadKeepsWf m0 (fetchHart s h) := by
  unfold fetchHart
  split
  · next s1 _ _ e =>
    have h1 : KeepsWf m0 s1.mem := by rwa [memory_of_hartTrans e]
    dsimp only
    (repeat' split) <;> simp [LoadKeepsWf, h1]
  · trivial
  · next s1 _ _ _ _ e => simpa [LoadKeepsWf, memory_of_hartTrans e] using kept

theorem stepWarp_keepsWf : NextMem (KeepsWf m0) (stepWarp s) := by
  have fetched := fetchWarp_keepsWf kept
  unfold stepWarp
  split <;> simp_all only [FetchKeepsWf]
  · trivial
  · exact fetched
  · split
    · exact exec_keepsWf fetched _
    · exact exec_keepsWf fetched _
    · exact decodeTrap_nextMem fetched _
    · exact decodeTrap_nextMem fetched _

theorem stepHart_keepsWf (h) : NextMem (KeepsWf m0) (stepHart s h) := by
  have fetched := fetchHart_keepsWf kept h
  unfold stepHart
  split
  · exact kept
  split <;> simp_all only [LoadKeepsWf]
  · trivial
  · simpa using fetched
  · split
    · exact exec_keepsWf fetched _
    · exact exec_keepsWf fetched _
    · trivial

/-! ### The turns of the agents (R54) -/

omit kept in
/-- An outcome that may be wanting keeps the canonical form where it is there. -/
theorem map_keepsWf {α : Type} {f : α → Out} (each : ∀ x, NextMem (KeepsWf m0) (f x)) (l : Option α) :
    ∀ o ∈ l.map f, NextMem (KeepsWf m0) o := by
  intro o member
  obtain ⟨x, -, rfl⟩ := Option.map_eq_some_iff.1 member
  exact each x

theorem fairLaunch_keepsWf (k) : ∀ o ∈ fairLaunch s k, NextMem (KeepsWf m0) o := by
  unfold fairLaunch
  dsimp only
  split
  · exact map_keepsWf (fun _ => execGrovePlacement_keepsWf kept ..) _
  · exact map_keepsWf (fun _ => execDispatchRecord_keepsWf kept ..) _

theorem fairThread_keepsWf (k) : ∀ o ∈ fairThread s k, NextMem (KeepsWf m0) o := by
  refine map_keepsWf (fun x => ?_) _
  dsimp only
  split
  · exact execLoadReturn_keepsWf kept ..
  · exact execStoreBufferDrain_keepsWf kept ..
  · exact execAtomicPerform_keepsWf kept ..
  · exact execDeqTake_keepsWf kept ..
  · exact execEnqReservation_keepsWf kept ..
  · exact execMbarWaitWake_keepsWf kept ..
  · exact execLdfWake_keepsWf kept ..
  · exact execStfWaitWake_keepsWf kept ..
  · exact execAwaitTake_keepsWf kept ..

theorem fairTeam_keepsWf (k) : ∀ o ∈ fairTeam s k, NextMem (KeepsWf m0) o := by
  refine map_keepsWf (fun x => ?_) _
  dsimp only
  split
  · exact execHandlerEntry_keepsWf kept ..
  · exact execTeamRetirement_keepsWf kept ..
  · exact execQueryPublish_keepsWf kept ..
  · exact execBarrierPhaseComplete_keepsWf kept ..

theorem fairLine_keepsWf (k) : ∀ o ∈ fairLine s k, NextMem (KeepsWf m0) o :=
  map_keepsWf (fun _ => execRegisterLineFill_keepsWf kept ..) _

theorem fairCore_keepsWf (k) : ∀ o ∈ fairCore s k, NextMem (KeepsWf m0) o := by
  refine map_keepsWf (fun x => ?_) _
  split
  · exact execRgrowGrant_keepsWf kept ..
  · exact execArrayRampDone_keepsWf kept ..
  · exact execKStep_keepsWf kept ..
  · exact execArraySwitchPoint_keepsWf kept ..
  · exact execMatrixJobComplete_keepsWf kept ..

theorem fairMat_keepsWf (k) : ∀ o ∈ fairMat s k, NextMem (KeepsWf m0) o := by
  intro o member
  obtain ⟨x, -, turn⟩ := Option.bind_eq_some_iff.1 member
  split at turn <;> cases turn
  · exact execRsvComplete_keepsWf kept ..
  · exact execUnrsvComplete_keepsWf kept ..
  · exact execAcqComplete_keepsWf kept ..

theorem copyTurn_keepsWf (core job) : NextMem (KeepsWf m0) (copyTurn core job s) := by
  unfold copyTurn
  split
  · exact kept
  · exact nearWork_keepsWf kept ..

theorem fairJob_keepsWf (k) : ∀ o ∈ fairJob s k, NextMem (KeepsWf m0) o := by
  refine map_keepsWf (fun x => ?_) _
  split
  · exact execCopyJobStart_keepsWf kept ..
  · exact execRingSlotClaim_keepsWf kept ..
  · exact copyTurn_keepsWf kept ..
  · exact execRelayHop_keepsWf kept ..
  · exact execCopyJobComplete_keepsWf kept ..
  · exact execCopyJobFault_keepsWf kept ..
  · exact execMatrixJobStart_keepsWf kept ..

theorem fairQuery_keepsWf (k) : ∀ o ∈ fairQuery s k, NextMem (KeepsWf m0) o := by
  unfold fairQuery
  split
  · exact map_keepsWf (fun _ => execQueryContextAllocate_keepsWf kept ..) _
  · refine map_keepsWf (fun x => ?_) _
    split
    · exact execAdjacencyReply_keepsWf kept ..
    · exact execDistanceReply_keepsWf kept ..

omit kept in
/-- Rowan's call of a function is one of its instructions. -/
theorem exec_of_rowanCall {func o} (call : rowanCall s func = some o) : ∃ i, exec i s = o := by
  unfold rowanCall at call
  split at call <;> cases call
  exacts [⟨.map, rfl⟩, ⟨.unmap, rfl⟩, ⟨.prot, rfl⟩, ⟨.move, rfl⟩, ⟨.sealPage, rfl⟩, ⟨.unsealPage, rfl⟩, ⟨.usage, rfl⟩,
    ⟨.svcq, rfl⟩, ⟨.spdmCall, rfl⟩, ⟨.bind, rfl⟩, ⟨.pload, rfl⟩, ⟨.punload, rfl⟩, ⟨.range, rfl⟩]

theorem rowanCall_keepsWf (func) : ∀ o ∈ rowanCall s func, NextMem (KeepsWf m0) o := by
  intro o call
  obtain ⟨i, rfl⟩ := exec_of_rowanCall call
  exact exec_keepsWf kept i

theorem fairRowan_keepsWf (k) : ∀ o ∈ fairRowan s k, NextMem (KeepsWf m0) o := by
  intro o turn
  unfold fairRowan at turn
  split at turn
  · obtain ⟨c, -, call⟩ := Option.bind_eq_some_iff.1 turn
    exact rowanCall_keepsWf kept _ o call
  · obtain ⟨d, -, ack⟩ := Option.bind_eq_some_iff.1 turn
    exact map_keepsWf (fun _ => execShootdownAck_keepsWf kept ..) _ o ack
  · split at turn <;> cases turn
    exact execMigrationPass_keepsWf kept

theorem fairService_keepsWf (k) : ∀ o ∈ fairService s k, NextMem (KeepsWf m0) o := by
  intro o turn
  unfold fairService at turn
  split at turn
  · cases turn; exact execMaintenanceComplete_keepsWf kept ..
  · exact map_keepsWf (fun _ => execSvcPost_keepsWf kept ..) _ o turn
  · exact map_keepsWf (fun _ => execFaultQueueRoom_keepsWf kept ..) _ o turn
  · cases turn; exact execWalkComplete_keepsWf kept ..

theorem fairPackage_keepsWf (k) : ∀ o ∈ fairPackage s k, NextMem (KeepsWf m0) o := by
  intro o turn
  unfold fairPackage at turn
  split at turn
  · exact map_keepsWf (fun _ => execPartitionSwapOut_keepsWf kept ..) _ o turn
  · exact map_keepsWf (fun _ => execGuestSwitchCommit_keepsWf kept ..) _ o turn
  · cases turn; exact execStaggeredStartStep_keepsWf kept
  · exact map_keepsWf (fun _ => execMeadowStoreSplitChange_keepsWf kept ..) _ o turn
  · exact map_keepsWf (fun _ => execSpawnAppend_keepsWf kept ..) _ o turn
  · exact map_keepsWf (fun _ => execJoinwComplete_keepsWf kept ..) _ o turn

theorem fairTurn_keepsWf (n) : ∀ o ∈ fairTurn s n, NextMem (KeepsWf m0) o := by
  unfold fairTurn
  dsimp only
  split
  · rintro _ ⟨⟩; exact execIssueSelection_keepsWf kept ..
  · exact fairThread_keepsWf kept _
  · exact fairTeam_keepsWf kept _
  · exact fairLine_keepsWf kept _
  · exact fairCore_keepsWf kept _
  · exact fairMat_keepsWf kept _
  · exact fairJob_keepsWf kept _
  · exact fairQuery_keepsWf kept _
  · exact fairRowan_keepsWf kept _
  · exact fairService_keepsWf kept _
  · exact fairPackage_keepsWf kept _
  · exact fairLaunch_keepsWf kept _
  · rintro _ ⟨⟩

theorem fairHome_keepsWf (k) : NextMem (KeepsWf m0) (fairHome s k) := by
  unfold fairHome
  split
  · exact forceAck_keepsWf kept ..
  · exact takeRequest_keepsWf kept ..

theorem fairEvent_keepsWf (n) : ∀ o ∈ fairEvent s n, NextMem (KeepsWf m0) o := by
  intro o turn
  unfold fairEvent at turn
  (repeat' split at turn) <;> cases turn
  · exact fairHome_keepsWf kept _
  · cases found : fairTurn s (n / 2) with
    | none => exact kept
    | some o => exact fairTurn_keepsWf kept _ o found

/-! ### What is due, and time (R12, R43) -/

omit kept in
@[simp] theorem countCycles_memory (s p cycles) : (countCycles s p cycles).mem = s.mem := by
  unfold countCycles; (repeat' split) <;> simp

omit kept in
@[simp] theorem passTime_memory (s dt) : (passTime s dt).mem = s.mem :=
  foldl_memory (fun _ _ => by split <;> simp) _ _

omit kept in
@[simp] theorem settleClock_memory (s) : (settleClock s).mem = s.mem := by unfold settleClock; split <;> simp

omit kept in
@[simp] theorem newError_memory (s) : (newError s).mem = s.mem := by unfold newError; (repeat' split) <;> simp

omit kept in
@[simp] theorem finishLlaunch_memory (s) : (finishLlaunch s).mem = s.mem := by
  unfold finishLlaunch; dsimp only; (repeat' split) <;> simp

omit kept in
@[simp] theorem endRinits_memory (s) : (endRinits s).mem = s.mem :=
  foldl_memory (fun _ _ => foldl_memory (fun _ _ => by (repeat' split) <;> simp) _ _) _ _

omit kept in
@[simp] theorem retryStep_memory (s) : (retryStep s).mem = s.mem := by simp [retryStep]

omit kept in
@[simp] theorem noteReady_memory (s s1) : (noteReady s s1).mem = s1.mem := rfl

theorem hostResume_keepsWf : KeepsWf m0 (hostResume s).mem := by
  unfold hostResume
  split
  · exact kept
  · exact hostReach_keepsWf (by exact kept) _

theorem stepDue_keepsWf (d) : NextMem (KeepsWf m0) (stepDue s d) := by
  unfold stepDue
  extract_lets s1
  have h1 : KeepsWf m0 s1.mem := kept
  clear_value s1
  cases d with
  | refill | slice => exact exec_keepsWf h1 _
  | launched => simpa using h1
  | nap => exact execNapWake_keepsWf h1 _
  | deq => exact execDeqTake_keepsWf h1 _
  | host => exact hostResume_keepsWf h1
  | evict => simpa using h1
  | usage => exact execUsageRecordPeriodic_keepsWf h1 _
  | reset => exact execVirtualFunctionReset_keepsWf h1 _

theorem stepFree_keepsWf : NextMem (KeepsWf m0) (stepFree s) := by
  unfold stepFree
  extract_lets passed s1
  have h1 : KeepsWf m0 s1.mem := by simpa [s1, passed] using kept
  clear_value s1
  split
  · exact h1
  split
  · next o turn => exact fairEvent_keepsWf h1 _ o turn
  split
  · split <;> exact h1
  · exact exec_keepsWf h1 _

theorem stepIdle_keepsWf : NextMem (KeepsWf m0) (stepIdle s) := by
  unfold stepIdle
  extract_lets o
  have happens : NextMem (KeepsWf m0) o := by
    simp only [o]
    split
    · exact exec_keepsWf (by exact kept) _
    split
    · exact stepDue_keepsWf kept _
    · exact stepFree_keepsWf kept
  split
  · exact stepFree_keepsWf kept
  · exact happens

/-! ### A step -/

/-- Where a home holds a step back, the state before it stands (R380). -/
theorem noting_keepsWf {o} (next : NextMem (KeepsWf m0) o) : NextMem (KeepsWf m0) (noting s o) := by
  cases o with
  | next s1 =>
    unfold noting
    dsimp only
    split
    · simpa using kept
    · simpa using next
  | fault | refused => trivial

theorem step_keepsWf : NextMem (KeepsWf m0) (step s) := by
  have settled : KeepsWf m0 (settleClock s).mem := by simpa using kept
  unfold step stepAt
  refine noting_keepsWf settled ?_
  split
  · exact stepWarp_keepsWf settled
  · exact stepHart_keepsWf settled _
  · exact stepIdle_keepsWf settled

end

/-- Settles O53: a step writes memory by the four operations alone, each of which keeps the canonical form. -/
theorem stepsKeepInvariant : Obligations.StepsKeepInvariant := by
  intro s s' wf next
  have kept := step_keepsWf (keepsWf_refl s.mem)
  rw [next] at kept
  exact KeepsWf.wf kept wf

end Sys2Proof.Machine
end

section
/-! Typed-buffer words: the records and tiles of a team (R265, R266, R289). -/
namespace Sys2Proof.Machine
-- One declaration at a time: each more thread of the compiler takes a stack out of the same memory.
set_option Elab.async false

section
variable {s : State} {acting : List Nat}

/-- Where no post or acquire names what the word does and no earlier operation comes first, the word goes on (R239, R289). -/
theorem if_unheld {k : Nat} {recs tiles : List Nat} (unnamed : namesPending s k acting recs tiles = false)
    (ordered : orderHeld s acting = false) (x y : Own) :
    (if namesPending s k acting recs tiles || orderHeld s acting then x else y) = y :=
  if_neg (by simp [unnamed, ordered])

/-- Where every acting thread has a place in the record, no thread traps (R265). -/
theorem if_placed {place : Nat → Option Nat} (placed : ∀ t ∈ acting, (place t).isSome) (x y : Own) :
    (if !(acting.filter fun t => (place t).isNone).isEmpty then x else y) = y := by
  have none_bad : acting.filter (fun t => (place t).isNone) = [] :=
    List.filter_eq_nil_iff.2 fun t acts => by simp [Option.isSome_iff_ne_none.1 (placed t acts)]
  exact if_neg (by simp [none_bad])

end

section
variable {h : Hdr} {idx : Src} {r : WordRow} {s : State} {wp : Nat} {l : List Nat}

/-! ### Records (R265) -/

theorem lda_completes {w : BufW} {d : WReg} {k : Fin 16} {off : BitVec 7} (found : bufferRow (.lda h w d k idx off) = some r)
    (issues : Issues s (r.info s) wp l) : CompletesAt (.lda h w d k idx off) r s wp l := by
  cases found
  refine completes_at (own := ?own) issues ?run (fun _ able => ?_) fun _ _ _ mem => nomatch mem
  case run => rw [exec_lda, execLda]
  obtain ⟨unnamed, ordered, placed⟩ := able
  exact ⟨_, (if_unheld unnamed ordered _ _).trans (if_placed placed _ _), fun _ => effOf_acting⟩

theorem sta_completes {w : BufW} {d : WReg} {k : Fin 16} {off : BitVec 7} (found : bufferRow (.sta h w d k idx off) = some r)
    (issues : Issues s (r.info s) wp l) : CompletesAt (.sta h w d k idx off) r s wp l := by
  cases found
  refine completes_makes (own := ?own) issues ?run (fun _ able => ?_) fun _ _ => rfl
  case run => rw [exec_sta, execSta]
  obtain ⟨unnamed, ordered, placed⟩ := able
  exact (if_unheld unnamed ordered _ _).trans (if_placed placed _ _)

/-! ### Tiles (R266) -/

theorem ldc_completes {col : Bool} {d : WQuad} {tl : Fin 4} (found : bufferRow (.ldc h col d tl idx) = some r)
    (issues : Issues s (r.info s) wp l) : CompletesAt (.ldc h col d tl idx) r s wp l := by
  cases found
  refine completes_at (own := ?own) issues ?run (fun _ able => ?_) fun _ _ _ mem => nomatch mem
  case run => rw [exec_ldc, execLdc]
  obtain ⟨unnamed, ordered, passes⟩ := able
  refine ⟨_, (if_unheld unnamed ordered _ _).trans ?_, fun _ => effOf_acting⟩
  rw [passes]

theorem stc_completes {col : Bool} {d : WQuad} {tl : Fin 4} (found : bufferRow (.stc h col d tl idx) = some r)
    (issues : Issues s (r.info s) wp l) : CompletesAt (.stc h col d tl idx) r s wp l := by
  cases found
  refine completes_makes (own := ?own) issues ?run (fun _ able => ?_) fun _ _ => rfl
  case run => rw [exec_stc, execStc]
  obtain ⟨unnamed, ordered, passes⟩ := able
  refine (if_unheld unnamed ordered _ _).trans ?_
  rw [passes]

end

/-- Settles O13: a load of a buffer acts in each thread by itself and a store beyond its threads, once the checks that its row names
have passed. -/
theorem bufferWords : Obligations.BufferWords := by
  intro i r found s w l issues
  have h := found
  unfold bufferRow at h
  split at h <;> cases h
  · exact lda_completes found issues
  · exact sta_completes found issues
  · exact ldc_completes found issues
  · exact stc_completes found issues

end Sys2Proof.Machine
end

section
/-! Keys, frame versions, walks, reset memory and the host that is kept out (R235, R343, R363, R367 to R370). -/
namespace Sys2Proof.Machine
-- One declaration at a time: each more thread of the compiler takes a stack out of the same memory.
set_option Elab.async false

/-- Settles O52: no byte is listed at reset. -/
theorem resetMeetsInvariant : Obligations.ResetMeetsInvariant := rfl

/-! ### Keys in order (R343) -/

/-- The magnitude of an FP32 code with the low 31 bits `m`, in units of 2^-149. -/
def f32Magnitude (m : Nat) : Nat :=
  if m / 2 ^ 23 % 256 = 0 then m % 2 ^ 23 else (m % 2 ^ 23 + 2 ^ 23) * 2 ^ (m / 2 ^ 23 % 256 - 1)

theorem f32Magnitude_lt_succ {m : Nat} (small : m + 1 < 2 ^ 31) : f32Magnitude m < f32Magnitude (m + 1) := by
  unfold f32Magnitude
  obtain same | next : (m + 1) / 2 ^ 23 % 256 = m / 2 ^ 23 % 256 ∧ (m + 1) % 2 ^ 23 = m % 2 ^ 23 + 1 ∨
      (m + 1) / 2 ^ 23 % 256 = m / 2 ^ 23 % 256 + 1 ∧ (m + 1) % 2 ^ 23 = 0 ∧ m % 2 ^ 23 = 2 ^ 23 - 1 := by omega
  · rw [same.1, same.2]
    split
    · exact Nat.lt_succ_self _
    · exact Nat.mul_lt_mul_of_pos_right (by omega) (Nat.two_pow_pos _)
  · rw [next.1, next.2.1, next.2.2, if_neg (Nat.succ_ne_zero _), Nat.add_sub_cancel]
    split
    · rename_i subnormal
      rw [subnormal]; decide
    · rename_i normal
      obtain ⟨e, he⟩ := Nat.exists_eq_succ_of_ne_zero normal
      have := Nat.two_pow_pos e
      rw [he, Nat.succ_sub_one, pow_succ]
      omega

/-- A greater code of the same sign stands for a greater magnitude: the exponent stands above the fraction. -/
theorem f32Magnitude_lt {m n : Nat} (lt : m < n) (small : n < 2 ^ 31) : f32Magnitude m < f32Magnitude n := by
  induction n, lt using Nat.le_induction with
  | base => exact f32Magnitude_lt_succ small
  | succ n _ ih => exact (ih (by omega)).trans (f32Magnitude_lt_succ small)

theorem f32Magnitude_lt_iff {m n : Nat} (hm : m < 2 ^ 31) (hn : n < 2 ^ 31) : f32Magnitude m < f32Magnitude n ↔ m < n := by
  refine ⟨fun lt => ?_, fun lt => f32Magnitude_lt lt hn⟩
  by_contra! le
  obtain eq | gt := le.eq_or_lt
  · exact lt.ne (congrArg f32Magnitude eq.symm)
  · exact lt.not_gt (f32Magnitude_lt gt hm)

theorem f32Magnitude_inj {m n : Nat} (hm : m < 2 ^ 31) (hn : n < 2 ^ 31) : f32Magnitude m = f32Magnitude n ↔ m = n := by
  have := f32Magnitude_lt_iff hm hn
  have := f32Magnitude_lt_iff hn hm
  omega

/-- The low 31 bits of an FP32 code. -/
def f32Low (x : W32) : Nat := x.toNat % 2 ^ 31

theorem f32Low_lt (x : W32) : f32Low x < 2 ^ 31 := Nat.mod_lt _ (by decide)

theorem f32Scaled_eq (x : W32) :
    f32Scaled x = if x.msb then -(f32Magnitude (f32Low x) : Int) else (f32Magnitude (f32Low x) : Int) := by
  have : f32Low x % 2 ^ 23 = x.toNat % 2 ^ 23 := by unfold f32Low; omega
  have : f32Low x / 2 ^ 23 % 256 = x.toNat / 2 ^ 23 % 256 := by unfold f32Low; omega
  simp only [f32Scaled, f32Magnitude, *]

theorem fOrd32_eq (x : W32) : fOrd32 x = if x.msb then -(f32Low x : Int) - 1 else (f32Low x : Int) := rfl

/-- A code is its sign and its low bits. -/
theorem f32_eq_iff (a b : W32) : a = b ↔ a.msb = b.msb ∧ f32Low a = f32Low b := by
  refine ⟨by rintro rfl; exact ⟨rfl, rfl⟩, fun ⟨sign, low⟩ => BitVec.eq_of_toNat_eq ?_⟩
  rw [BitVec.msb_eq_decide, BitVec.msb_eq_decide, decide_eq_decide] at sign
  unfold f32Low at low
  omega

/-- The order of codes is that of their values, with -0 below +0. -/
theorem fOrd32_lt_iff (a b : W32) :
    fOrd32 a < fOrd32 b ↔ f32Scaled a < f32Scaled b ∨ (f32Scaled a = f32Scaled b ∧ a.msb = true ∧ b.msb = false) := by
  have := f32Magnitude_lt_iff (f32Low_lt a) (f32Low_lt b)
  have := f32Magnitude_lt_iff (f32Low_lt b) (f32Low_lt a)
  rw [fOrd32_eq, fOrd32_eq, f32Scaled_eq, f32Scaled_eq]
  cases a.msb <;> cases b.msb <;> simp <;> omega

theorem fOrd32_eq_iff (a b : W32) : fOrd32 a = fOrd32 b ↔ a = b := by
  rw [fOrd32_eq, fOrd32_eq, f32_eq_iff]
  cases a.msb <;> cases b.msb <;> simp <;> omega

theorem keyLt_iff (a b : Key) : keyLt a b = true ↔ fOrd32 a.dist < fOrd32 b.dist ∨ (a.dist = b.dist ∧ a.id < b.id) := by
  simp [keyLt, fOrd32_eq_iff]

/-- Settles O44: the order of codes is total and follows the values; ids tell apart what has one code. -/
theorem searchKeyOrder : Obligations.SearchKeyOrder := by
  intro a b _ _
  refine ⟨?_, fun ids => ?_⟩
  · have scaled : a.dist = b.dist → f32Scaled a.dist = f32Scaled b.dist := congrArg f32Scaled
    rw [keyLt_iff, fOrd32_lt_iff]
    tauto
  · rw [keyLt_iff, keyLt_iff]
    obtain lt | eq | gt := lt_trichotomy (fOrd32 a.dist) (fOrd32 b.dist)
    · exact .inl (.inl lt)
    · have eq := (fOrd32_eq_iff _ _).1 eq
      obtain lt | gt := Nat.lt_or_gt_of_ne ids
      · exact .inl (.inr ⟨eq, lt⟩)
      · exact .inr (.inr ⟨eq.symm, gt⟩)
    · exact .inr (.inl gt)

/-! ### Frame versions (R366, R369) -/

theorem mkPot_toNat (owner state ver sz : Nat) :
    (mkPot owner state ver sz).toNat = owner % 65536 * 65536 + state % 16 * 4096 + ver % 256 * 16 + sz % 4 * 4 := by
  rw [mkPot, BitVec.toNat_ofNat]; omega

@[simp] theorem potOwner_mkPot (owner state ver sz : Nat) : potOwner (mkPot owner state ver sz) = owner % 65536 := by
  rw [potOwner, BitVec.extractLsb'_toNat, mkPot_toNat, Nat.shiftRight_eq_div_pow]; omega

@[simp] theorem potState_mkPot (owner state ver sz : Nat) : potState (mkPot owner state ver sz) = state % 16 := by
  rw [potState, BitVec.extractLsb'_toNat, mkPot_toNat, Nat.shiftRight_eq_div_pow]; omega

@[simp] theorem potVer_mkPot (owner state ver sz : Nat) : potVer (mkPot owner state ver sz) = ver % 256 := by
  rw [potVer, BitVec.extractLsb'_toNat, mkPot_toNat, Nat.shiftRight_eq_div_pow]; omega

theorem potVer_lt (e : W32) : potVer e < 256 := BitVec.isLt _

/-- Whether a change of an entry's OWNER and STATE raises its VER (R369). -/
abbrev verRises (e : W32) (owner state : Nat) : Prop :=
  potOwner e ≠ owner ∨ (potState e ≠ state ∧ (potState e = 0 ∨ state = 0 ∨ potState e = 5 ∨ state = 5))

/-- The entry that a change leaves at its frame. -/
theorem potEntry_potChange (s : State) (frame owner state : Nat) :
    potEntry (potChange s frame owner state) frame =
      mkPot owner state
        (if verRises (potEntry s frame) owner state then potVer (potEntry s frame) + 1 else potVer (potEntry s frame))
        (potSz (potEntry s frame)) := by
  rw [potEntry, potChange]
  simp only [smFind?_smPut, if_true]
  congr 1
  refine if_congr ?_ rfl rfl
  simp only [Bool.or_eq_true, Bool.and_eq_true, decide_eq_true_eq, or_assoc]
  rfl

/-- Settles O55: VER takes one more or stays as the condition of R369 says, and the entry holds it modulo 256. -/
theorem frameVersionsRise : Obligations.FrameVersionsRise := by
  intro s frame owner state smallOwner smallState
  simp only [potEntry_potChange, potOwner_mkPot, potState_mkPot, potVer_mkPot]
  refine ⟨Nat.mod_eq_of_lt smallOwner, Nat.mod_eq_of_lt (by omega), fun rises => ?_, fun stays => ?_⟩
  · rw [if_pos (show verRises _ _ _ from rises)]
  · rw [if_neg (show ¬ verRises _ _ _ from stays), Nat.mod_eq_of_lt (potVer_lt _)]

/-! ### Walks (R362, R363, R367, R368) -/

/-- A leaf that a walk finds is valid and breaks none of the rules for an entry. -/
theorem sound_of_findLeafFrom {s : State} {va lvl table l a : Nat} {p : W64} (found : findLeafFrom s va lvl table = .leaf p l a) :
    pteV p = true ∧ pteBad l p = false := by
  induction lvl generalizing table with
  | zero =>
    unfold findLeafFrom at found
    dsimp only at found
    generalize BitVec.ofNat 64 (readNat s (ptePlace table 0 va) 8) = q at found
    split at found
    · cases found
    split at found
    · cases found
    split_ifs at found with invalid bad
    cases found
    simp only [Bool.not_eq_true', Bool.not_eq_false, Bool.or_eq_true, not_or, Bool.not_eq_true] at invalid bad
    exact ⟨invalid, bad.1⟩
  | succ lvl ih =>
    unfold findLeafFrom at found
    dsimp only at found
    generalize BitVec.ofNat 64 (readNat s (ptePlace table (lvl + 1) va) 8) = q at found
    split at found
    · cases found
    split at found
    · cases found
    split_ifs at found with invalid bad leaf
    · cases found
      exact ⟨by simpa using invalid, by simpa using bad⟩
    · exact ih found

/-- No kick page is fetched from (R362). -/
theorem pteX_of_kick {l : Nat} {p : W64} (valid : pteV p = true) (sound : pteBad l p = false) (kick : pteMt p = 1) :
    pteX p = false := by
  unfold pteBad at sound
  simp only [valid, kick] at sound
  cases x : pteX p with
  | false => rfl
  | true => simp [x] at sound

/-- The id that a kick page's leaf holds. -/
theorem kickId_eq (p : W64) : ptePa p / 4096 % 65536 = p.toNat / 2 ^ 12 % 2 ^ 32 % 2 ^ 16 := by
  rw [ptePa, BitVec.extractLsb'_toNat, Nat.shiftRight_eq_div_pow]
  omega

/-- What the page ownership table allows an enclave (R367): a frame of its own to its owner, a shared one to its partition, and
neither writes nor fetches beyond the state's. -/
theorem potAllows_iff {s : State} {e : W32} {encl part : Nat} {a : Bool × Bool × Bool} :
    potAllows s e encl part = some a ↔
      ((potState e = 1 ∧ potOwner e = encl) ∨ ((potState e = 2 ∨ potState e = 3) ∧ enclPart s (potOwner e) = some part)) ∧
      a = (true, decide (potState e ≠ 2), decide (potState e = 1)) := by
  unfold potAllows psPrivate psSharedRo psSharedRw
  obtain h | h | h | h : potState e = 1 ∨ potState e = 2 ∨ potState e = 3 ∨ (potState e ≠ 1 ∧ potState e ≠ 2 ∧ potState e ≠ 3) := by
    omega
  · simp [h, eq_comm]
  · simp [h, eq_comm]
  · simp [h, eq_comm]
  · simp [h]

/-- A leaf that the checks of a fill let through, and the translation it fills (R363, R368). -/
theorem walk_ok {s : State} {asid va : Nat} {need : Need} {e : TlbEntry} (ok : walk s asid va need = .ok e) :
    asidV (asidEntry s asid) = true ∧ va < 2 ^ 57 ∧ ∃ p lvl a, findLeaf s asid va = .leaf p lvl a ∧
      needOk need (pteR p) (pteW p) (pteX p) = true ∧
      (pteMt p = 1 ∧ ptePa p / 4096 % 65536 = asidEncl (asidEntry s asid) ∧ e.mt = 1 ∧ e.x = false ∨
       pteMt p ≠ 1 ∧ e.mt = 0 ∧ ∃ b, potAllows s (potEntry s (if lvl = 0 then ptePa p / 4096 else potGov s (ptePa p / 4096)))
          (asidEncl (asidEntry s asid)) (asidPart (asidEntry s asid)) = some b ∧ needOk need b.1 b.2.1 b.2.2 = true ∧
          e.r = (pteR p && b.1) ∧ e.w = (pteW p && b.2.1) ∧ e.x = (pteX p && b.2.2)) := by
  unfold walk at ok
  dsimp only at ok
  split_ifs at ok with invalid high
  refine ⟨by simpa using invalid, Nat.not_le.1 high, ?_⟩
  split at ok <;> try cases ok
  next p lvl a leaf =>
    split at ok
    · cases ok
    split at ok
    · cases ok
    next need' =>
    refine ⟨p, lvl, a, leaf, by simpa using need', ?_⟩
    split at ok
    next kick =>
      split at ok <;> cases ok
      next own => exact .inl ⟨kick, own, rfl, rfl⟩
    next plain =>
      generalize (if lvl = 0 then ptePa p / 4096 else potGov s (ptePa p / 4096)) = gov at ok ⊢
      split at ok
      · cases ok
      split at ok
      · cases ok
      next b allows =>
        split at ok <;> cases ok
        next need2 => exact .inr ⟨plain, rfl, b, allows, by simpa using need2, rfl, rfl, rfl⟩

/-- Settles O54: what a walk has checked is what R363, R367 and R368 ask for. -/
theorem translationsAreAllowed : Obligations.TranslationsAreAllowed := by
  intro s asid va need e ok
  obtain ⟨valid, low, p, lvl, a, leaf, need', case⟩ := walk_ok ok
  refine ⟨valid, low, p, lvl, a, leaf, need', fun kick => ?_, fun plain => ?_⟩
  · obtain ⟨_, own, mt, x⟩ | ⟨plain, _⟩ := case
    · obtain ⟨v, sound⟩ := sound_of_findLeafFrom leaf
      refine ⟨(kickId_eq p).symm.trans own, mt, x, ?_⟩
      rintro rfl
      exact Bool.false_ne_true ((pteX_of_kick v sound kick).symm.trans need')
    · exact absurd kick plain
  · obtain ⟨kick, _⟩ | ⟨_, mt, b, allows, need2, r, w, x⟩ := case
    · exact absurd kick plain
    · obtain ⟨owner, rfl⟩ := potAllows_iff.1 allows
      refine ⟨mt, owner, ?_, ?_, ?_, ?_, ?_⟩
      · rintro rfl; simpa [needOk] using need2
      · rintro rfl; simpa [needOk] using need2
      · simp [w]
      · simp [x]
      · simp [r]

/-! ### What the host may not reach (R370) -/

/-- A log entry and a reply leave memory. -/
theorem hostRefuse_mem (s : State) (r : HostAccess) : (hostRefuse s r).mem = s.mem := rfl

theorem hostRegs_mem (s : State) (r : HostAccess) : (hostRegs s r).mem = s.mem := by
  unfold hostRegs
  split_ifs <;> rfl

/-- An access without a stream to frames that are not sealed in its VF's partition is refused. -/
theorem hostReach_refused {s : State} {r : HostAccess} (stream : r.stream = none) (other : ¬ SealedFrames s r) :
    hostReach s r = hostRefuse s r := by
  unfold hostReach
  rw [stream]
  exact hostSealed_refused other

/-- Whichever way such an access goes, it leaves memory: it is answered from no memory, waits, or is refused. -/
theorem execHostMemoryAccess_mem {s s' : State} {r : HostAccess} (space : r.space ≠ .cxl) (stream : r.stream = none)
    (other : ¬ SealedFrames s r) (next : execHostMemoryAccess r s = .next s') : s'.mem = s.mem := by
  unfold execHostMemoryAccess at next
  rw [if_neg space, hostReach_refused stream other] at next
  split_ifs at next <;> cases next
  · rfl
  · rfl
  · exact hostRegs_mem s r
  · exact hostRefuse_mem s r
  · rfl
  · exact hostRefuse_mem s r

/-- Settles O59: no way of such an access writes memory, and a read of a live VF is refused with all ones. -/
theorem hostIsKeptOut : Obligations.HostIsKeptOut := by
  intro s s' r space stream other next
  refine ⟨fun a => congrArg (smGet 0 · a) (execHostMemoryAccess_mem space stream other next), fun may read => ?_⟩
  rw [may.exec_eq, hostSealed_refused other] at next
  cases next
  simp [hostRefuse, read, setReply]

end Sys2Proof.Machine
end

section
/-! The waits of threads end as their rules say (R118 to R125, R176, R222, R223, R275, R277, R280, R331 to R333). -/
namespace Sys2Proof.Machine
-- One declaration at a time: each more thread of the compiler takes a stack out of the same memory.
set_option Elab.async false

/-! ### Operations that wait at a granule (R222, R223) -/

/-- An operation of one thread's queue that goes on stands there as ready. -/
theorem getMop_setMopSt {s : State} {t j : Nat} {o : MemOp} (x : OpState) (queued : getMop s t j = some o)
    (own : ∀ d, o.kind ≠ .sld d) : getMop (setMopSt s t j x) t j = some { o with st := x } := by
  unfold setMopSt
  rw [queued]
  dsimp only
  split
  · next d kind => exact absurd kind (own d)
  · have inside : j < (getTh s t).mq.length := (List.getElem?_eq_some_iff.1 queued).1
    simp [getMop, inside]

/-- A waiting `ldf` tries its granule again. -/
theorem exec_ldfWake_of_waits {s : State} {t : Nat} {o : MemOp} {take : Bool} {dst : List Nat} (queued : getMop s t 0 = some o)
    (kind : o.kind = .ldf take dst) (waits : o.st = .blocked) :
    exec (.ldfWake t) s = .next (performSp (setMopSt s t 0 .ready) t 0 { o with st := .ready }) := by
  simp [exec_ldfWake, execLdfWake, queued, kind, waits]

/-- So does a waiting `stf.wait`. -/
theorem exec_stfWaitWake_of_waits {s : State} {t : Nat} {o : MemOp} {bs : List Byte} (queued : getMop s t 0 = some o)
    (kind : o.kind = .stf true bs) (waits : o.st = .blocked) :
    exec (.stfWaitWake t) s = .next (performSp (setMopSt s t 0 .ready) t 0 { o with st := .ready }) := by
  simp [exec_stfWaitWake, execStfWaitWake, queued, kind, waits]

/-! ### Barriers (R277) -/

/-- The end of a phase, which a `nap` sees of a team's or a grove's barrier. -/
theorem exec_barrierPhaseComplete_of_full {s : State} {core tslot : Nat} {b : Fin 10}
    (live : (getTeam s (core * 4 + tslot)).live = true) (full : phaseFull s (core * 4 + tslot) b.val = true) :
    exec (.barrierPhaseComplete core tslot b) s =
      .next (if b.val ≤ 8 then
          napEvent (phaseDone s (core * 4 + tslot) b.val) 2 fun t =>
            (barMembers s (core * 4 + tslot) b.val).any fun u => decide (teamOf s t = teamOf s u)
        else phaseDone s (core * 4 + tslot) b.val) := by
  rw [exec_barrierPhaseComplete, execBarrierPhaseComplete]
  simp only [live, full]
  rfl

/-! ### Queues (R331) -/

section
variable {s : State} {t hdr : Nat} {o : MemOp} {item : List Byte}

/-- An `enq` that is ready, first in its queue and in its turn among the lanes tries its queue. -/
theorem exec_enqReservation_of_ready (queued : getMop s t 0 = some o) (kind : o.kind = .enq hdr item) (ready : o.st = .ready)
    (lane : lowerLaneFirst s t o = false) :
    exec (.enqReservation t) s = match enqTry s t hdr item with
      | .done s1 _ => .next (dropMop s1 t 0 o)
      | .wait s1 => .next (if (getTeam s (teamOf s t)).ended then dropMop s t 0 o else s1)
      | .miss v => .next (askWalk (corePmc (modTh s t fun th => { th with mq := th.mq.set 0 { o with addr := v, st := .walking } })
          (coreOf t) 4 1) (getTeam s (teamOf s t)).asid (v / 4096) 4 (.core (coreOf t)))
      | .fault c v => .next (mopFault (noteQueue s t v .w) t 0 { o with addr := v } c) := by
  rw [exec_enqReservation, execEnqReservation, queued]
  simp only [kind, ready, lane]
  rfl

end

section
variable {s : State} {t va d : Nat} {org : W64}

/-- A waiting `deq` with no page under way and none denied tries its queue. -/
theorem exec_deqTake_of_waits (waits : (getTh s t).wait = some (.deq va d org)) (page : (getTh s t).pageWait = none)
    (allowed : (getTh s t).refused = none) :
    exec (.deqTake t) s = match deqTry (mapQueue s t va) t va with
      | .done s1 bs => .next (modTh s1 t fun th => deqOver ((itemRegs d bs).foldl (fun th x => wrW th x.1 x.2) th))
      | .wait s1 => .next s1
      | .miss v => .next (needPage s t v 4)
      | .fault c v => .next (lateFault (modTh (noteQueue s t v .w) t deqOver) t c 4 (BitVec.ofNat 64 v) org (groupRegs d 8) none 0) := by
  rw [exec_deqTake, execDeqTake]
  simp only [waits, page, allowed] <;> rfl

end

/-! ### Register counts (R124, R125) -/

section
variable {s : State} {core : Nat} {g : GrowReq} {rest : List GrowReq}

/-- What becomes of the oldest request of a core. -/
theorem exec_rgrowGrant_of_oldest (core' : core < 1024) (runs : s.boot.hazelHalted = false)
    (oldest : (getCore s core).grows = g :: rest) :
    exec (.rgrowGrant core) s =
      if reservation s core + growOwn s (core * 4 + g.tslot) + growAdds s g ≤ 262144 ∨ countedTeams s core = [core * 4 + g.tslot] then
        .next (grantGrow s core g)
      else if ((coreTeams s core).all fun x => (getCore s core).grows.any fun y => decide (core * 4 + y.tslot = x)) = true then
        match minBy (fun x => (getTeam s x).prio * 2 ^ 64 + (2 ^ 64 - 1 - (getTeam s x).placed)) (coreTeams s core) with
        | none => .next (grantGrow s core g)
        | some v => .next (grantGrow (modTeam s v fun x => { x with demoted := true }) core g)
      else .next s := by
  rw [exec_rgrowGrant, execRgrowGrant]
  simp only [core', runs, oldest, decide_true, Bool.not_false, Bool.and_true, if_true, Bool.or_eq_true, decide_eq_true_eq]
  rfl

end

/-! ### The register cache (R118 to R120) -/

section
variable {s s1 : State} {core num : Nat}

/-- A line that is there and out is filled. -/
theorem exec_registerLineFill_of_out (core' : core < 1024)
    (room : (if residentLines s core < 8192 then some s else (victim s core (lineOfNum num)).map (evict s)) = some s1)
    (there : lineExists s1 core (lineOfNum num) = true) (out : linePresent s1 (lineOfNum num) = false) :
    exec (.registerLineFill core num) s = .next (corePmc (fillLine s1 (lineOfNum num)) core 3 1) := by
  rw [exec_registerLineFill, execRegisterLineFill, room]
  simp [there, out, core']

end

theorem lineOfNum_w {t line : Nat} (thread : t < 0x200000) (small : line < 32) : lineOfNum (t * 32 + line) = .w t line := by
  have low : t * 32 + line < 0x4000000 := by omega
  rw [lineOfNum, if_pos low, show (t * 32 + line) / 32 = t by omega, show (t * 32 + line) % 32 = line by omega]

/-- Settles O28: the conditions of each rule pick the branch of its event. -/
theorem waitsEnd : Obligations.WaitsEnd := by
  intro i s s' h
  cases h with
  | ldf _ t k phys off o take dst queued kind waits aligned place full turn well =>
    rw [exec_ldfWake_of_waits queued kind waits, performSp]
    simp only [kind, mopSize, aligned, place, spMeets, well, full, turn]
    rfl
  | stf _ t k phys off o bs queued kind waits aligned place empty turn =>
    have here := getMop_setMopSt .ready queued (by simp [kind])
    rw [exec_stfWaitWake_of_waits queued kind waits, performSp]
    simp only [aligned, place, spMeets_stf here kind]
    simp [kind, empty, turn]
  | mbar _ t sa gen c phys org waits object advanced =>
    simp only [exec_mbarWaitWake, execMbarWaitWake, waits, object, advanced, if_false]
  | mbarFault _ t sa gen c org waits refused =>
    simp only [exec_mbarWaitWake, execMbarWaitWake, waits, refused]
  | nap _ t deadline mask seen d waits due =>
    simp only [exec_napWake, execNapWake, waits, if_pos due.symm]
    rfl
  | swap _ core tslot b live full step =>
    rw [exec_barrierPhaseComplete_of_full live full, if_neg (by omega)]
  | barrier _ core tslot b live full plain =>
    rw [exec_barrierPhaseComplete_of_full live full, if_pos plain]
  | deq _ s1 t va d org item waits page allowed took => rw [exec_deqTake_of_waits waits page allowed, took]
  | deqPage _ t va d v org waits page allowed miss => rw [exec_deqTake_of_waits waits page allowed, miss]
  | deqFault _ t va d c v org waits page allowed bad => rw [exec_deqTake_of_waits waits page allowed, bad]
  | deqDenied _ t va d v org waits page denied =>
    rw [exec_deqTake, execDeqTake]
    simp only [waits, page, denied]
  | enq _ s1 t hdr o item none' queued kind ready lane put => rw [exec_enqReservation_of_ready queued kind ready lane, put]
  | enqPage _ t hdr v o item queued kind ready lane miss => rw [exec_enqReservation_of_ready queued kind ready lane, miss]
  | enqFault _ t hdr c v o item queued kind ready lane bad => rw [exec_enqReservation_of_ready queued kind ready lane, bad]
  | enqEnded _ s1 t hdr o item queued kind ready lane full ended =>
    rw [exec_enqReservation_of_ready queued kind ready lane, full]
    simp only [ended, if_true]
  | svcPost _ s1 p t d buf tag func held waits room =>
    simp only [exec_svcPost, execSvcPost, held, waits, room]
  | reply _ p tag status r d buf func x up own pending waits =>
    have thread (f : Partition → Partition) : (getTh (modPart s p f) r.thread).wait = some (.svc x d buf func) := waits
    rw [exec_replyDoorbell, execReplyDoorbell, vfErred_of_vfUp up]
    simp only [up, own.1, own.2, pending, svcDone, thread]
    rfl
  | replyReserved _ p tag status works bad =>
    have discarded : (!vfUp s p) = true ∨ status = svcRefused ∨ status = svcAborted := by simpa using bad
    rw [exec_replyDoorbell, execReplyDoorbell, works, if_neg Bool.false_ne_true, if_pos discarded]
  | replyUnknown _ p tag status works none' =>
    rw [exec_replyDoorbell, execReplyDoorbell, works, if_neg Bool.false_ne_true, none']
    exact ite_self _
  | replyError _ p tag status up range state =>
    rw [exec_replyDoorbell, execReplyDoorbell, if_pos]
    exact vfErred_of_error (vf := p + 1) up (by omega) state
  | maintenance _ i m at' landed => simp [exec_maintenanceComplete, execMaintenanceComplete, at', landed]
  | rgrow _ core g rest core' runs oldest fits => rw [exec_rgrowGrant_of_oldest core' runs oldest, if_pos (.inl fits)]
  | rgrowAlone _ core g rest core' runs oldest alone => rw [exec_rgrowGrant_of_oldest core' runs oldest, if_pos (.inr alone)]
  | rgrowDemotes _ core v g rest core' runs oldest excess others all lowest =>
    rw [exec_rgrowGrant_of_oldest core' runs oldest, if_neg (not_or.2 ⟨Nat.not_le.2 excess, others⟩), if_pos all, lowest]
  | rgrowNone _ core g rest core' runs oldest none' =>
    rw [exec_rgrowGrant_of_oldest core' runs oldest, none']
    exact ite_self _
  | lineFill _ core t line room core' mine thread small runs out granted =>
    have num := lineOfNum_w thread small
    rw [exec_registerLineFill_of_out core' (if_pos room), num] <;> rw [num]
    · simp [lineExists, mine, runs, granted]
    · exact out
  | anyLineFill _ core num room core' there out => rw [exec_registerLineFill_of_out core' (if_pos room) there out]
  | lineEvicts _ core num l full core' first there out =>
    have frees : (if residentLines s core < 8192 then some s else (victim s core (lineOfNum num)).map (evict s)) = some (evict s l) := by
      rw [if_neg (Nat.not_lt.2 full), first]; rfl
    rw [exec_registerLineFill_of_out core' frees there out]

end Sys2Proof.Machine
end

section
/-! Walks, the fault queue and the search units do what their rules say (R329, R337 to R353, R363 to R365, R374). -/
namespace Sys2Proof.Machine
-- One declaration at a time: each more thread of the compiler takes a stack out of the same memory.
set_option Elab.async false

/-! ### Walks (R363 to R365, R374) -/

section
variable {s : State} {i : Nat} {w : Walk}

/-- A walk that has one of its meadow's walkers does not wait for one. -/
theorem walker_of_few (walker : (walkMeadow w).isSome = true →
      ((s.walks.take i).filter fun x => decide (walkMeadow x = walkMeadow w)).length < 64) :
    ((walkMeadow w).isSome && decide (64 ≤ ((s.walks.take i).filter fun x => decide (walkMeadow x = walkMeadow w)).length)) = false := by
  cases meadow : (walkMeadow w).isSome with
  | false => rfl
  | true => simpa using walker meadow

end

/-- Settles O29: a walk with a walker answers, and an entry of the fault queue that has room is posted. -/
theorem walksComplete : Obligations.WalksComplete := by
  intro i s s' h
  cases h with
  | done _ i w at' fresh walker exists' =>
    rw [exec_walkComplete, execWalkComplete]
    simp only [at', walker_of_few walker, fresh, Bool.false_eq_true, if_false]
  | again _ i w at' stale walker =>
    rw [exec_walkComplete, execWalkComplete]
    simp only [at', walker_of_few walker, stale, Bool.false_eq_true, if_false, if_true]
  | post _ id e f pa ip asid h0 h encl waits header read room place =>
    rw [exec_faultQueueRoom, execFaultQueueRoom, fqPostOne]
    simp only [encl, waits, header, read, room, place]
    rfl

/-! ### The search units (R337 to R353) -/

/-- A context whose descriptor is read and sound asks for its entry points. -/
theorem beginCtx_of_read {s : State} {st n : Nat} {c : Ctx} {d : List Byte}
    (read : readGraph s st c.q.asid (pGdesc c.q.pkt) 128 none = .ok d) (good : graphBad d c.q.pkt = false) :
    beginCtx s st n c =
      .next (putCtx s st n ((rangeFrom 0 (pNent c.q.pkt)).foldl (fun c e => visitAsk 0 c (pEntry c.q.pkt e)) { c with desc := d })) := by
  simp only [beginCtx, read, good]
  rfl

/-- The waiting packets are the teams'. -/
theorem qsubPends_setHeather (s : State) (st : Nat) (h : Heather) : qsubPends (setHeather s st h) = qsubPends s := rfl

/-- The oldest packet takes the free context; the first context that has its places and no descriptor begins. -/
theorem exec_queryContextAllocate_of_oldest {s : State} {st n : Nat} {q : Query} {rest : List Query}
    (oldest : (getHeather s st).admitQ = q :: rest)
    (free : (List.range 64).find? (fun n => (smFind? (getHeather s st).ctxs n).isNone) = some n) :
    exec (.queryContextAllocate st) s =
      match (getHeather (admitted s st n q rest) st).ctxs.find?
        (fun c => decide (c.2.st = .running) && c.2.desc.isEmpty && !ctxEnded c.2) with
      | some (m, c) => beginCtx (admitted s st n q rest) st m c
      | none => .next (admitted s st n q rest) := by
  rw [exec_queryContextAllocate, execQueryContextAllocate]
  unfold admitted
  simp only [oldest, free, qsubPends_setHeather] <;> rfl

/-- Queries of a live team that its core still holds are published: the next of those cancelled, or the next that has ended. -/
theorem exec_queryPublish_of_live {s : State} {core : Nat} {tslot : Fin 4} (live : (getTeam s (core * 4 + tslot.val)).live = true)
    (runs : (getTeam s (core * 4 + tslot.val)).ended = false) (core' : core < 1024) :
    exec (.queryPublish core tslot.val) s =
      match (cancelledOf s core tslot.val).find? fun x => decide (x.2.qseq = (getTeam s (core * 4 + tslot.val)).qnext) with
      | some (st, q) =>
        .next (publish (setHeather s st { getHeather s st with cancelled := (getHeather s st).cancelled.erase q }) q sCancelled 0 0 0 0)
      | none =>
        match (endedCtxs s core tslot.val).find? fun x => decide (x.2.2.q.qseq = (getTeam s (core * 4 + tslot.val)).qnext) with
        | some x => publishCtx s x true
        | none =>
          match (endedCtxs s core tslot.val).find? fun x => writesResults x.2.2 && decide (x.2.2.wrote < pK x.2.2.q.pkt) with
          | some x => publishCtx s x false
          | none => .next s := by
  rw [exec_queryPublish, execQueryPublish]
  simp only [live, runs, Nat.not_le.2 core']
  rfl

/-- A query that ends without a fault publishes what its context has counted. -/
theorem publishCtx_of_written {s s1 : State} {st n : Nat} {c c1 : Ctx} (good : writesResults c = true)
    (wrote : writeResults st n 65 s c = .inr (s1, c1)) (kept : writesResults c1 = true) :
    publishCtx s (st, n, c) true =
      .next (publish (setHeather s1 st { getHeather s1 st with ctxs := smDel (getHeather s1 st).ctxs n }) c1.q c1.status c1.res.length 0
        (if c1.status / sBadq % 2 = 1 then 0 else c1.evals) c1.fva) := by
  have unfaulted : c1.fcode = 0 := by
    simp only [writesResults, Bool.and_eq_true, decide_eq_true_eq] at kept
    exact kept.1
  unfold publishCtx
  rw [if_pos good, wrote]
  simp only [kept, unfaulted]
  rfl

/-- Settles O34: the conditions of each rule pick the branch of its event. -/
theorem searchUnitsAct : Obligations.SearchUnitsAct := by
  intro i s s' h
  cases h with
  | allocate _ st n m q c rest d oldest free first read good =>
    rw [exec_queryContextAllocate_of_oldest oldest free, first]
    exact beginCtx_of_read read good
  | begin' _ st n c d none' sent still first read good =>
    rw [exec_queryContextAllocate, execQueryContextAllocate]
    simp only [none', sent, still, first]
    exact beginCtx_of_read read good
  | distance _ st n f c a bs works oldest kind read =>
    simp only [exec_distanceReply, execDistanceReply, works.found, oldest, kind, works.active, read]
    rfl
  | adjacency _ st n node c a bs works oldest kind read =>
    simp only [exec_adjacencyReply, execAdjacencyReply, works.found, oldest, kind, works.active, read]
    simp
  | publish _ s1 core tslot st n c c1 live runs core' none' next good wrote kept =>
    rw [exec_queryPublish_of_live live runs core', none', next]
    exact publishCtx_of_written good wrote kept
  | cancelled _ core tslot st q live runs core' next =>
    rw [exec_queryPublish_of_live live runs core', next]

end Sys2Proof.Machine
end

section
/-! The entry of a halted team into its handler (R50, R193, R199 to R202). -/
namespace Sys2Proof.Machine
-- One declaration at a time: each more thread of the compiler takes a stack out of the same memory.
set_option Elab.async false

/-! ### RUN of bind records (R45, R418) -/

/-- Equal states but for their warps, threads and teams. -/
def State.sameButTeams (a b : State) : Prop := { a with warps := b.warps, threads := b.threads, teams := b.teams } = b

theorem State.sameButTeams_trans {a b c : State} (h : a.sameButTeams b) (k : b.sameButTeams c) : a.sameButTeams c := by
  unfold State.sameButTeams at *
  rw [← k, ← h]

theorem foldl_sameButTeams {α : Type} {f : State → α → State} (keeps : ∀ s a, (f s a).sameButTeams s) (l : List α) (s : State) :
    (l.foldl f s).sameButTeams s := by
  induction l generalizing s with
  | nil => rfl
  | cons a l ih => exact State.sameButTeams_trans (ih (f s a)) (keeps s a)

/-- The wait counts of a warp that runs again start afresh. -/
def freshCounts (s : State) (l : List Nat) : State := l.foldl (fun s t => modTh s t fun th => { th with waitCount := 0 }) s

theorem freshCounts_sameButTeams (s : State) (l : List Nat) : (freshCounts s l).sameButTeams s :=
  foldl_sameButTeams (f := fun s t => modTh s t fun th => { th with waitCount := 0 }) (fun _ _ => rfl) l s

theorem getWarp_freshCounts (s : State) (l : List Nat) (w : Nat) : getWarp (freshCounts s l) w = getWarp s w :=
  foldl_keeps (f := fun s t => modTh s t fun th => { th with waitCount := 0 }) (getWarp · w) (fun _ _ => rfl) l s

theorem getTeam_freshCounts (s : State) (l : List Nat) (k : Nat) : getTeam (freshCounts s l) k = getTeam s k :=
  foldl_keeps (f := fun s t => modTh s t fun th => { th with waitCount := 0 }) (getTeam · k) (fun _ _ => rfl) l s

theorem getTh_freshCounts (s : State) (l : List Nat) (t : Nat) : (getTh (freshCounts s l) t).sameButCount (getTh s t) := by
  rw [freshCounts, foldl_modTh_get_of_idem (f := fun th => { th with waitCount := 0 }) (fun _ => rfl)]
  split <;> rfl

/-- RUN of a bind record. -/
def withRun (run : Bool) (b : BitVec 128) : BitVec 128 :=
  if run then b ||| (1 : BitVec 128) <<< 126 else b &&& ~~~((1 : BitVec 128) <<< 126)

theorem bindRun_withRun (run : Bool) (b : BitVec 128) : bindRun (withRun run b) = run := by
  cases run <;> simp [withRun, bindRun]

section
variable (s : State) (w : Nat) (run : Bool)

/-- A write of RUN, after which a warp that runs again starts afresh. -/
theorem setRunNow_eq :
    setRunNow s w run =
      if (run && !bindRun (getWarp s w).bind) = true then
        freshCounts (modWarp (modWarp s w fun x => { x with bind := withRun run (getWarp s w).bind }) w fun x => { x with since := s.n })
          (warpThreads w)
      else modWarp s w fun x => { x with bind := withRun run (getWarp s w).bind } := rfl

theorem setRunNow_sameButTeams : (setRunNow s w run).sameButTeams s := by
  rw [setRunNow_eq]
  split
  · exact State.sameButTeams_trans (freshCounts_sameButTeams _ _) rfl
  · rfl

theorem getTeam_setRunNow (k : Nat) : getTeam (setRunNow s w run) k = getTeam s k := by
  rw [setRunNow_eq]
  split
  · exact getTeam_freshCounts _ _ k
  · rfl

theorem getTh_setRunNow (t : Nat) : (getTh (setRunNow s w run) t).sameButCount (getTh s t) := by
  rw [setRunNow_eq]
  split
  · exact getTh_freshCounts _ _ t
  · rfl

/-- A write of RUN changes its record's warp alone, and there RUN and the step at which it became ready. -/
theorem getWarp_setRunNow (v : Nat) :
    (getWarp (setRunNow s w run) v).bind = (if v = w then withRun run (getWarp s v).bind else (getWarp s v).bind) ∧
    (getWarp (setRunNow s w run) v).stopped = (getWarp s v).stopped ∧ (getWarp (setRunNow s w run) v).tskid = (getWarp s v).tskid := by
  rw [setRunNow_eq]
  by_cases same : v = w
  · subst same
    split <;> simp [getWarp_freshCounts]
  · split <;> simp [getWarp_freshCounts, same]

end

/-- The writes of RUN that were held during a halt, in their order. -/
def heldRuns (s : State) (l : SMap Bool) : State := l.foldl (fun s x => setRunNow s x.1 x.2) s

theorem heldRuns_sameButTeams (s : State) (l : SMap Bool) : (heldRuns s l).sameButTeams s :=
  foldl_sameButTeams (f := fun s (x : Nat × Bool) => setRunNow s x.1 x.2) (fun s x => setRunNow_sameButTeams s x.1 x.2) l s

theorem getTeam_heldRuns (s : State) (l : SMap Bool) (k : Nat) : getTeam (heldRuns s l) k = getTeam s k :=
  foldl_keeps (f := fun s (x : Nat × Bool) => setRunNow s x.1 x.2) (getTeam · k) (fun s x => getTeam_setRunNow s x.1 x.2 k) l s

theorem getTh_heldRuns (s : State) (l : SMap Bool) (t : Nat) : (getTh (heldRuns s l) t).sameButCount (getTh s t) := by
  unfold heldRuns
  induction l generalizing s with
  | nil => rfl
  | cons x l ih => exact Thread.sameButCount_trans (ih _) (getTh_setRunNow s x.1 x.2 t)

/-- The last value held for a warp is its RUN; one with none held keeps its record. -/
theorem getWarp_heldRuns (s : State) (l : SMap Bool) (w : Nat) :
    (getWarp (heldRuns s l) w).stopped = (getWarp s w).stopped ∧ (getWarp (heldRuns s l) w).tskid = (getWarp s w).tskid ∧
    (∀ run, smFind? l.reverse w = some run → bindRun (getWarp (heldRuns s l) w).bind = run) ∧
    (smFind? l.reverse w = none → (getWarp (heldRuns s l) w).bind = (getWarp s w).bind) := by
  induction l using List.reverseRecOn with
  | nil => exact ⟨rfl, rfl, nofun, fun _ => rfl⟩
  | append_singleton l x ih =>
    obtain ⟨v, value⟩ := x
    obtain ⟨stopped, tskid, runs, keeps⟩ := ih
    obtain ⟨bind', stopped', tskid'⟩ := getWarp_setRunNow (heldRuns s l) v value w
    have last : heldRuns s (l ++ [(v, value)]) = setRunNow (heldRuns s l) v value := List.foldl_append
    rw [last, bind', stopped', tskid', stopped, tskid, List.reverse_append]
    refine ⟨rfl, rfl, fun run found => ?_, fun found => ?_⟩
    all_goals
      simp only [List.reverse_cons, List.reverse_nil, List.nil_append, List.cons_append, smFind?_cons] at found
      split at found
    · next here => rw [if_pos here, bindRun_withRun]; exact Option.some.inj found
    · next other => rw [if_neg other]; exact runs run found
    · cases found
    · next other => rw [if_neg other]; exact keeps found

/-! ### Entering (R199 to R202) -/

/-- A warp that has stopped, with TSKID as R200 gives it. -/
def stoppedWarp (x : Warp) : Warp :=
  { x with stopped := true, tskid := BitVec.ofNat 32 ((if x.reporter then 256 else 0) + x.skid) }

/-- A thread whose trap is pending, in its handler. -/
def enteredThread (tvec : W64) (th : Thread) : Thread :=
  match th.trapPend with
  | some i => enterHandler tvec th i
  | none => th

@[simp] theorem enterHandler_trapPend (tvec : W64) (th : Thread) (i : TrapInfo) : (enterHandler tvec th i).trapPend = none := by
  unfold enterHandler; dsimp only; split <;> rfl

theorem enteredThread_idem (tvec : W64) (th : Thread) : enteredThread tvec (enteredThread tvec th) = enteredThread tvec th := by
  cases due : th.trapPend with
  | none => simp [enteredThread, due]
  | some i =>
    have entered : (enteredThread tvec th).trapPend = none := by simp [enteredThread, due]
    generalize enteredThread tvec th = x at entered ⊢
    simp [enteredThread, entered]

/-- The folds of `execHandlerEntry`, over the warps and over the threads that trap. -/
def stopWarps (s : State) (l : List Nat) : State := l.foldl (fun s w => modWarp s w stoppedWarp) s
def enterThreads (tvec : W64) (s : State) (l : List Nat) : State := l.foldl (fun s t => modTh s t (enteredThread tvec)) s

theorem getWarp_stopWarps (s : State) (l : List Nat) (w : Nat) :
    getWarp (stopWarps s l) w = if w ∈ l then stoppedWarp (getWarp s w) else getWarp s w := by
  unfold stopWarps
  induction l generalizing s with
  | nil => rfl
  | cons v l ih =>
    rw [List.foldl_cons, ih]
    by_cases same : w = v
    · subst same; simp [stoppedWarp]
    · simp [same]

theorem getTh_enterThreads (tvec : W64) (s : State) (l : List Nat) (t : Nat) :
    getTh (enterThreads tvec s l) t = if t ∈ l then enteredThread tvec (getTh s t) else getTh s t :=
  foldl_modTh_get_of_idem (enteredThread_idem tvec) l s t

/-- The threads of a team that trap. -/
def trappingThreads (s : State) (k : Nat) : List Nat := (teamThreads s k).filter fun t => (getTh s t).trapPend.isSome

/-- The state before the writes of RUN that were held take effect. -/
def teamEntered (s : State) (k : Nat) : State :=
  modTeam (enterThreads (getTeam s k).tvec (stopWarps s (teamWarps s k)) (trappingThreads s k)) k fun x => { x with runHeld := [] }

/-- A halted team whose words have completed enters its handler. -/
theorem exec_handlerEntry_of_settled {core tslot : Nat} {s : State} (halted : (getTeam s (core * 4 + tslot)).halted = true)
    (traps : ∃ t ∈ teamThreads s (core * 4 + tslot), (getTh s t).trapPend.isSome = true)
    (done : ∀ t ∈ teamThreads s (core * 4 + tslot), settled (getTh s t) = true)
    (quiet : (getTeam s (core * 4 + tslot)).matPend = []) :
    exec (.handlerEntry core tslot) s =
      .next (heldRuns (teamEntered s (core * 4 + tslot)) (getTeam s (core * 4 + tslot)).runHeld) := by
  have some' : ((teamThreads s (core * 4 + tslot)).filter fun t => (getTh s t).trapPend.isSome).isEmpty = false := by
    rw [List.isEmpty_eq_false_iff, Ne, List.filter_eq_nil_iff]
    push Not
    exact traps
  have all : ((teamThreads s (core * 4 + tslot)).all fun t => settled (getTh s t)) = true := List.all_eq_true.2 done
  rw [exec_handlerEntry, execHandlerEntry]
  simp only [halted, some', all, quiet]
  rfl

/-! ### What stopping and entering leave -/

theorem stopWarps_sameButTeams (s : State) (l : List Nat) : (stopWarps s l).sameButTeams s :=
  foldl_sameButTeams (f := fun s w => modWarp s w stoppedWarp) (fun _ _ => rfl) l s

theorem enterThreads_sameButTeams (tvec : W64) (s : State) (l : List Nat) : (enterThreads tvec s l).sameButTeams s :=
  foldl_sameButTeams (f := fun s t => modTh s t (enteredThread tvec)) (fun _ _ => rfl) l s

theorem getTeam_stopWarps (s : State) (l : List Nat) (k : Nat) : getTeam (stopWarps s l) k = getTeam s k :=
  foldl_keeps (f := fun s w => modWarp s w stoppedWarp) (getTeam · k) (fun _ _ => rfl) l s

theorem getTh_stopWarps (s : State) (l : List Nat) (t : Nat) : getTh (stopWarps s l) t = getTh s t :=
  foldl_keeps (f := fun s w => modWarp s w stoppedWarp) (getTh · t) (fun _ _ => rfl) l s

theorem getTeam_enterThreads (tvec : W64) (s : State) (l : List Nat) (k : Nat) : getTeam (enterThreads tvec s l) k = getTeam s k :=
  foldl_keeps (f := fun s t => modTh s t (enteredThread tvec)) (getTeam · k) (fun _ _ => rfl) l s

theorem getWarp_enterThreads (tvec : W64) (s : State) (l : List Nat) (w : Nat) : getWarp (enterThreads tvec s l) w = getWarp s w :=
  foldl_keeps (f := fun s t => modTh s t (enteredThread tvec)) (getWarp · w) (fun _ _ => rfl) l s

section
variable {s : State} {k : Nat}

theorem teamEntered_sameButTeams : (teamEntered s k).sameButTeams s := by
  have held : (teamEntered s k).sameButTeams
      (enterThreads (getTeam s k).tvec (stopWarps s (teamWarps s k)) (trappingThreads s k)) := rfl
  exact State.sameButTeams_trans held
    (State.sameButTeams_trans (enterThreads_sameButTeams _ _ _) (stopWarps_sameButTeams _ _))

theorem getTeam_teamEntered (j : Nat) :
    getTeam (teamEntered s k) j = if j = k then { getTeam s j with runHeld := [] } else getTeam s j := by
  by_cases here : j = k
  · subst here; simp [teamEntered, getTeam_enterThreads, getTeam_stopWarps]
  · simp [teamEntered, getTeam_enterThreads, getTeam_stopWarps, here]

theorem getWarp_teamEntered (w : Nat) :
    getWarp (teamEntered s k) w = if w ∈ teamWarps s k then stoppedWarp (getWarp s w) else getWarp s w :=
  (getWarp_enterThreads _ _ _ w).trans (getWarp_stopWarps s _ w)

theorem getTh_teamEntered (t : Nat) :
    getTh (teamEntered s k) t = if t ∈ trappingThreads s k then enteredThread (getTeam s k).tvec (getTh s t) else getTh s t := by
  refine (getTh_enterThreads _ _ _ t).trans ?_
  rw [getTh_stopWarps]

end

/-- What a thread in its handler holds, whatever its wait count. -/
theorem entered_of_sameButCount {x th : Thread} {tvec : W64} {i : TrapInfo} (due : th.trapPend = some i)
    (same : x.sameButCount (enteredThread tvec th)) :
    x.handler = true ∧ x.trapped = true ∧ x.pc = tvec ∧ x.tepc = i.tepc ∧ x.tva = i.tva ∧ x.tcause = tcauseWord i ∧
      x.regs = th.regs ∧ x.preds = th.preds := by
  have entered : enteredThread tvec th = enterHandler tvec th i := by simp [enteredThread, due]
  have fields : ∀ y : Thread, y = enterHandler tvec th i → y.handler = true ∧ y.trapped = true ∧ y.pc = tvec ∧ y.tepc = i.tepc ∧
      y.tva = i.tva ∧ y.tcause = tcauseWord i ∧ y.regs = th.regs ∧ y.preds = th.preds := by
    rintro y rfl
    unfold enterHandler
    dsimp only
    split <;> exact ⟨rfl, rfl, rfl, rfl, rfl, rfl, rfl, rfl⟩
  have held := fields _ (same.trans entered)
  exact held

/-- Settles O22: a halted team's warps stop, its trapping threads enter, and then the writes of RUN that were held take effect. -/
theorem handlersEntered : Obligations.HandlersEntered := by
  intro core tslot s halted traps done quiet
  have warp w := getWarp_heldRuns (teamEntered s (core * 4 + tslot)) (getTeam s (core * 4 + tslot)).runHeld w
  have record w : (getWarp (teamEntered s (core * 4 + tslot)) w).bind = (getWarp s w).bind := by
    rw [getWarp_teamEntered]; split <;> rfl
  have thread t := getTh_heldRuns (teamEntered s (core * 4 + tslot)) (getTeam s (core * 4 + tslot)).runHeld t
  refine ⟨_, exec_handlerEntry_of_settled halted traps done quiet, ?rest, fun k => ?teams, fun w mem => ?warps,
    fun w => (warp w).2.2.1, fun w none' => ((warp w).2.2.2 none').trans (record w), fun t free => ?others, fun t mem i due => ?enters⟩
  case rest => exact State.sameButTeams_trans (heldRuns_sameButTeams _ _) teamEntered_sameButTeams
  case teams => rw [getTeam_heldRuns, getTeam_teamEntered]
  case warps =>
    obtain ⟨stopped, tskid, -⟩ := warp w
    rw [getWarp_teamEntered, if_pos mem] at stopped tskid
    exact ⟨stopped, tskid⟩
  case others =>
    have out : t ∉ trappingThreads s (core * 4 + tslot) := by
      rw [trappingThreads, List.mem_filter]
      rintro ⟨mem, due⟩
      obtain other | none' := free
      · exact other mem
      · simp [none'] at due
    have same := thread t
    rwa [getTh_teamEntered, if_neg out] at same
  case enters =>
    have mem : t ∈ trappingThreads s (core * 4 + tslot) := List.mem_filter.2 ⟨mem, by simp [due]⟩
    have same := thread t
    rw [getTh_teamEntered, if_pos mem] at same
    exact entered_of_sameButCount due same

end Sys2Proof.Machine
end

section
/-! Special registers, register counts and the end of a team (R115, R122, R206 to R210). -/
namespace Sys2Proof.Machine
-- One declaration at a time: each more thread of the compiler takes a stack out of the same memory.
set_option Elab.async false

/-! ### Words that act in each thread by itself, or on the warp and the team (R206, R208, R210) -/

theorem mfs_completes {g : Guard} {d : WReg} {x : SpecialReg} {r : WordRow} (row : systemRow (.mfs g d x) = some r) {s : State}
    {w : Nat} {l : List Nat} (issues : Issues s (r.info s) w l) : CompletesAt (.mfs g d x) r s w l := by
  cases row
  refine completes_threads (eff := fun s t => match readSpecial s t x with
      | .inl v => { w := [(d.toNat, v)] }
      | .inr v => { w := [(d.toNat, v.extractLsb' 0 32), (d.toNat + 1, v.extractLsb' 32 32)] })
    (fun s => exec_mfs g d x s) (fun _ _ _ _ => rfl) (fun _ _ _ _ _ => rfl) (fun s t _ mem => ?_) s w l issues
  cases value : readSpecial s t x <;> simp [value] at mem

/-- The own part of `mts`. -/
def mtsOwn (s : State) (x : SpecialReg) (a : MtsSrc) (w : Nat) (acting : List Nat) : Own :=
  .go (inThreads (writeSpecialWarp s w x (mtsVal s x a (acting.getLastD 0))) acting fun t th => writeSpecialTh th x (mtsVal s x a t)) []

theorem exec_mts_eq_runWord {g : Guard} {x : SpecialReg} {a : MtsSrc} {r : WordRow} (row : systemRow (.mts g x a) = some r)
    (s : State) : exec (.mts g x a) s = runWord (r.info s) (fun w _ acting => mtsOwn s x a w acting) s := by
  cases a <;> cases row <;> rfl

theorem mts_completes {g : Guard} {x : SpecialReg} {a : MtsSrc} {r : WordRow} (row : systemRow (.mts g x a) = some r) {s : State}
    {w : Nat} {l : List Nat} (issues : Issues s (r.info s) w l) : CompletesAt (.mts g x a) r s w l := by
  refine completes_makes issues (exec_mts_eq_runWord row s) (fun _ _ => ?_) fun _ _ => ?_ <;> cases row <;> rfl

theorem fencex_completes {g : Guard} {r : WordRow} (row : systemRow (.fencex g) = some r) {s : State} {w : Nat} {l : List Nat}
    (issues : Issues s (r.info s) w l) : CompletesAt (.fencex g) r s w l := by
  cases row
  exact completes_threads (eff := fun _ _ => {}) (exec_fencex g) (fun _ _ _ _ => rfl) (fun _ _ _ _ _ => rfl)
    (fun _ _ _ mem => nomatch mem) s w l issues

theorem tkill_completes {g : Guard} {r : WordRow} (row : systemRow (.tkill g) = some r) {s : State} {w : Nat} {l : List Nat}
    (issues : Issues s (r.info s) w l) : CompletesAt (.tkill g) r s w l := by
  cases row
  exact completes_makes issues (exec_tkill g s) (fun _ _ => rfl) fun _ _ => rfl

/-! ### Register counts (R122) -/

/-- The threads whose request is 0, above 32 or above the quota, and the trap that it raises in each. -/
def growTrapping (s : State) (a : Operand) (acting : List Nat) : List Nat := acting.filter fun t => growBad s t (rd32 s t a.src)

def growTraps (s : State) (a : Operand) (acting : List Nat) : Own := .traps (preciseAll s 0x05 (growTrapping s a acting))

/-- The threads that ask for more registers than they have, and the wait of each for the grant. -/
def askingThreads (s : State) (a : Operand) (acting : List Nat) : List Nat :=
  acting.filter fun t => decide ((getTh s t).nregs < 8 * (rd32 s t a.src).toNat)

def growWait (s : State) (a : Operand) (t : Nat) : Eff := { wait := some (.rgrow (8 * (rd32 s t a.src).toNat) s.n) }

/-- The own part of `rgrow`. -/
def rgrowOwn (s : State) (a : Operand) (w : Nat) (acting : List Nat) : Own :=
  if !(growTrapping s a acting).isEmpty then growTraps s a acting
  else
    let asking := askingThreads s a acting
    let reqs : List GrowReq :=
      if asking.isEmpty then [] else [⟨asking.map fun t => (t, 8 * (rd32 s t a.src).toNat), teamOfWarp s w % 4, s.n⟩]
    .go (modCore s (w / 64) fun c => { c with grows := c.grows ++ reqs })
      (asking.map fun t => (t, growWait s a t))

/-- The own part of `rshrink`. -/
def rshrinkOwn (s : State) (a : Operand) (acting : List Nat) : Own :=
  if !(growTrapping s a acting).isEmpty then growTraps s a acting
  else if acting.any fun t => (flightW (getTh s t)).any fun r => decide (8 * (rd32 s t a.src).toNat ≤ r) then .stall
  else .go (inThreads s acting fun t => shrinkThread (8 * (rd32 s t a.src).toNat)) []

section
variable {s : State} {g : Guard} {a : Operand} {w : Nat} {l acting : List Nat}

theorem exec_rgrow_eq_runWord (g : Guard) (a : Operand) (s : State) :
    exec (.rgrow g a) s =
      runWord { guard := g, reads := (srcRegs [a.src] []).1, sreads := (srcRegs [a.src] []).2 }
        (fun w _ acting => rgrowOwn s a w acting) s := rfl

theorem exec_rshrink_eq_runWord (g : Guard) (a : Operand) (s : State) :
    exec (.rshrink g a) s =
      runWord { guard := g, reads := (srcRegs [a.src] []).1, sreads := (srcRegs [a.src] []).2 }
        (fun _ _ acting => rshrinkOwn s a acting) s := rfl

theorem growTrapping_eq_nil (good : ∀ t ∈ acting, growBad s t (rd32 s t a.src) = false) : growTrapping s a acting = [] :=
  List.filter_eq_nil_iff.2 fun t mem => ne_true_of_eq_false (good t mem)

theorem growTrapping_ne_nil (bad : ∃ t ∈ acting, growBad s t (rd32 s t a.src) = true) : growTrapping s a acting ≠ [] := by
  obtain ⟨t, mem, bad⟩ := bad
  exact List.ne_nil_of_mem (List.mem_filter.2 ⟨mem, bad⟩)

/-- A word that traps wherever some acting thread asks for a bad count takes that trap as it issues. -/
theorem trapsAt_of_growTraps {i : Instr} {own : Nat → List Nat → List Nat → Own}
    (issues : Issues s { guard := g, reads := (srcRegs [a.src] []).1, sreads := (srcRegs [a.src] []).2 } w l)
    (bad : ∃ t ∈ actingIn s g l, growBad s t (rd32 s t a.src) = true)
    (run : exec i s = runWord { guard := g, reads := (srcRegs [a.src] []).1, sreads := (srcRegs [a.src] []).2 } own s)
    (asks : own w l (actingIn s g l) = growTraps s a (actingIn s g l)) :
    ∃ s', TrapsAt i s s' w (preciseAll s 0x05 (growTrapping s a (actingIn s g l))) := by
  have some' := growTrapping_ne_nil bad
  have acts : actingIn s g l ≠ [] := List.ne_nil_of_mem bad.choose_spec.1
  exact trapsAt_of_raiseTraps some' (((issuedSet_nodup issues.chosen).filter _).filter _)
    (exec_of_traps issues acts run asks (by simpa [preciseAll] using some'))

/-- The second clause of O18. -/
theorem growTraps_taken : GrowTraps := by
  intro i g a word s w l issues bad
  have traps : (!(growTrapping s a (actingIn s g l)).isEmpty) = true := by simpa using growTrapping_ne_nil bad
  obtain rfl | rfl := word
  · exact trapsAt_of_growTraps issues bad (exec_rgrow_eq_runWord g a s) (if_pos traps)
  · exact trapsAt_of_growTraps issues bad (exec_rshrink_eq_runWord g a s) (if_pos traps)

theorem rgrow_completes {r : WordRow} (row : systemRow (.rgrow g a) = some r) (issues : Issues s (r.info s) w l) :
    CompletesAt (.rgrow g a) r s w l := by
  cases row
  refine completes_at issues (exec_rgrow_eq_runWord g a s)
    (fun _ able => ⟨(askingThreads s a (actingIn s g l)).map fun t => (t, growWait s a t), ?_, fun t mem => ?_⟩)
    fun _ _ _ mem => nomatch mem
  · refine if_neg ?_
    rw [growTrapping_eq_nil able]
    simp
  · refine (effOf_acting_filter (eff := growWait s a) (fun t => decide ((getTh s t).nregs < 8 * (rd32 s t a.src).toNat)) mem).trans ?_
    refine if_congr Iff.rfl ?_ rfl
    by_cases asks : (getTh s t).nregs < 8 * (rd32 s t a.src).toNat <;> simp [growWait, asks]

theorem rshrink_completes {r : WordRow} (row : systemRow (.rshrink g a) = some r) (issues : Issues s (r.info s) w l) :
    CompletesAt (.rshrink g a) r s w l := by
  cases row
  refine completes_makes issues (exec_rshrink_eq_runWord g a s) (fun _ able => ?_) fun _ _ => rfl
  have landed : ¬ ((actingIn s g l).any fun t => (flightW (getTh s t)).any fun r => decide (8 * (rd32 s t a.src).toNat ≤ r)) = true := by
    simp only [List.any_eq_true, decide_eq_true_eq, not_exists, not_and, Nat.not_le]
    exact fun t mem => (able t mem).2
  refine (if_neg ?_).trans (if_neg landed)
  rw [growTrapping_eq_nil fun t mem => (able t mem).1]
  simp

end

/-- Settles O18: each of the six words completes as its row says, and the two that change register counts take their trap. -/
theorem systemWords : Obligations.SystemWords := by
  refine ⟨fun i r row s w l issues => ?_, growTraps_taken⟩
  have found := row
  unfold systemRow at found
  split at found <;> cases found
  · exact mfs_completes row issues
  · exact mts_completes row issues
  · exact fencex_completes row issues
  · exact tkill_completes row issues
  · exact rshrink_completes row issues
  · exact rgrow_completes row issues

end Sys2Proof.Machine
end

section
/-! SPDM requests are answered as their rules say (R24, R403, R408). -/
namespace Sys2Proof.Machine
-- One declaration at a time: each more thread of the compiler takes a stack out of the same memory.
set_option Elab.async false

/-- The rows that stand for a request are all one event. -/
theorem exec_of_spdmOf {i : Instr} {via : SpdmVia} {r : SpdmReq} (row : spdmOf i = some (via, r)) (s : State) :
    exec i s = spdmEvent via r s := by
  unfold spdmOf at row
  split at row <;> cases row <;> rfl

/-- A call that ends as Rowan takes it, once it is taken. -/
theorem runCall_of_takes {s s1 : State} {c : Call} {funcs : List Nat} (takes : headCall s funcs = some (c, s1))
    (f : State → Call → State × Nat) : runCall funcs f s = .next (callDone (f s1 c).1 c (f s1 c).2) := by
  rw [runCall, takes]

section
variable {i : Instr} {s s1 : State} {c : Call}

/-- A row that stands for the in-band call at the head of Rowan's queue is that call. -/
theorem InbandRow.exec_eq (row : InbandRow i s c) (takes : headCall s [0x18] = some (c, s1)) :
    exec i s = .next (callDone (spdmCallOf s1 c).1 c (spdmCallOf s1 c).2) := by
  rw [← runCall_of_takes takes]
  obtain rfl | ⟨r, req, q, x, row, read, ask, same⟩ := row
  · rfl
  · rw [exec_of_spdmOf row, spdmEvent, takes]
    simp only [read, Option.map_some, ask, same, if_true]
    rfl

/-- A request that can be read is answered: into the caller's buffer, or with BAD_ARGS where it does not hold the answer. -/
theorem spdmCallOf_of_read {req : List Byte} (fields : SpdmFieldsOk c)
    (read : readSpanAt s (callAsid s c) (argW c 0) (argW c 2) = some req) :
    spdmCallOf s c =
      if argW c 3 < (inbandAnswer s c.encl req).2.length then (s, stBadArgs)
      else match writeSpanAt (ioTouchSpan (inbandAnswer s c.encl req).1 (callAsid s c) (argW c 0) (argW c 2)) (callAsid s c) (argW c 1)
          (inbandAnswer s c.encl req).2 with
        | some s1 => (s1, stOk)
        | none => (noteSpan s 3 (callAsid s c) (argW c 1) (inbandAnswer s c.encl req).2.length .w, stBadArgs) := by
  unfold SpdmFieldsOk at fields
  unfold callAsid at read ⊢
  rw [spdmCallOf, fields]
  simp only [read]
  rfl

end

/-- Settles O39: a request over DOE is answered at once; an in-band one is the call that Rowan takes. -/
theorem spdmAnswers : Obligations.SpdmAnswers := by
  intro i s s' h
  cases h with
  | doe session r row rowan awake =>
    rw [exec_of_spdmOf row, spdmEvent, spdmUp, rowan, awake]
    rfl
  | doeEarly session r row rowan =>
    rw [exec_of_spdmOf row, spdmEvent, spdmUp, rowan]
    rfl
  | call s1 s2 c req takes row fields read fits wrote =>
    rw [row.exec_eq takes, spdmCallOf_of_read fields read, if_neg (Nat.not_lt.2 fits), wrote]
  | callBad s1 c takes row bad =>
    rw [row.exec_eq takes]
    by_cases fields : SpdmFieldsOk c
    · obtain ⟨req, read, long⟩ := bad.resolve_left (not_not_intro fields)
      rw [spdmCallOf_of_read fields read, if_pos long]
    · have reserved : (!argsWithin c [mask64, mask64, 2 ^ 32 - 1, 2 ^ 32 - 1]) = true := by
        rw [Bool.not_eq_true']; exact eq_false_of_ne_true fields
      rw [spdmCallOf, if_pos reserved]
  | callUnread s1 c takes row fields unread =>
    unfold SpdmFieldsOk at fields
    unfold callAsid at unread ⊢
    rw [row.exec_eq takes, spdmCallOf, fields]
    simp only [unread]
    rfl

end Sys2Proof.Machine
end

section
/-! Rowan's calls, its shootdowns and its migrations do what their rules say (R371 to R375, R390 to R392, R403 to R406). -/
namespace Sys2Proof.Machine
-- One declaration at a time: each more thread of the compiler takes a stack out of the same memory.
set_option Elab.async false

/-! ### How a call that Rowan takes ends -/

/-- A call that is done at once returns its status. -/
theorem runCall_of_done {s s1 s2 : State} {c : Call} {n x : Nat} {f : State → Call → State × Nat} (takes : Takes s n c s1)
    (done : f s1 c = (s2, x)) : runCall [n] f s = .next (callDone s2 c x) := by
  rw [runCall_of_takes takes, done]

/-- A call whose end comes later starts what it asks for. -/
theorem startCall_of_started {s s1 s2 : State} {c : Call} {n : Nat} {f : State → Call → Sum Nat State} (takes : Takes s n c s1)
    (started : f s1 c = .inr s2) : startCall [n] f s = .next s2 := by
  unfold Takes at takes
  rw [startCall, takes]
  simp only [started]

/-! ### MAP, UNMAP, PROT and MOVE -/

section
variable {s s2 : State} {c : Call} {encl key ver x : Nat} {e : Enclave} {vas : List Nat}

theorem mapCall_of_maps (may : Maps s c encl e vas)
    (room : mapPages (callPart s c) encl (argAsid c) (argBits c) (argRwx c) vas (argW c 1) (taken s c encl vas.length) = .ok s2 x) :
    mapCall s c = (s2, stOk) := by
  obtain ⟨fields, target, range, frame, state, unmapped, usable, perms⟩ := may
  unfold Targets at target
  unfold taken at room
  simp only [mapCall, fields, target, range, frame, state, unmapped, usable, perms, room, Bool.not_true, Bool.false_eq_true,
    ne_eq, not_true_eq_false, or_self, if_false]

theorem mapCall_of_reserved (bad : argsWithin c [mask64, mask64, 2 ^ 34 - 1, 0x37FFFF] = false) : mapCall s c = (s, stBadArgs) := by
  rw [mapCall, bad]; rfl

theorem mapCall_of_no_target (good : argsWithin c [mask64, mask64, 2 ^ 34 - 1, 0x37FFFF] = true) (none' : callTarget s c = .inl x) :
    mapCall s c = (s, x) := by
  rw [mapCall, good, none']; rfl

theorem unmapCall_of_mapped {leaves : List (W64 × Nat)} (fields : argsWithin c [mask64, 0, 2 ^ 34 - 1, 0x100FFFF] = true)
    (target : Targets s c encl e) (range : callRange c = some vas)
    (mapped : vas.filterMap (fun va => pageLeaf s (argAsid c) va (argBits c)) = leaves) (all : leaves.length = vas.length) :
    unmapCall s c = .inr (startShoot (clearPages (walked s c vas) (argAsid c) (argBits c) vas) (argAsid c) (argW c 0)
      (argW c 0 + argCount c * 2 ^ argBits c)
      (if (argW c 3).testBit 24 then
        .free ((leaves.filter fun l => decide (pteMt l.1 = 0)).map fun l => (ptePa l.1 / 4096, argBits c)) else .none) (some c)) := by
  unfold Targets at target
  rw [unmapCall, fields, target]
  simp only [range, mapped, all, ne_eq, not_true_eq_false, if_false]
  rfl

theorem protCall_of_mapped {leaves : List (Nat × W64 × Nat)} (fields : argsWithin c [mask64, 0, 2 ^ 34 - 1, 0x7FFFF] = true)
    (target : Targets s c encl e) (range : callRange c = some vas)
    (mapped : vas.filterMap (fun va => (pageLeaf s (argAsid c) va (argBits c)).map fun l => (va, l)) = leaves)
    (all : leaves.length = vas.length) (perms : leaves.all (fun l => protOk s c l.2.1) = true) :
    protCall s c = .inr (startShoot (leaves.foldl (fun s l => writeLeaves s l.2.2 l.1 (argBits c) fun i =>
        if pteMt l.2.1 = 1 then l.2.1.toNat else leafWord (ptePa l.2.1 + 4096 * i) (argBits c) (argRwx c)) (walked s c vas))
      (argAsid c) (argW c 0) (argW c 0 + argCount c * 2 ^ argBits c) .none (some c)) := by
  unfold Targets at target
  unfold protOk at perms
  rw [protCall, fields, target]
  simp only [range, mapped, all, perms, ne_eq, not_true_eq_false, if_false]
  rfl

/-- The state in which a MOVE of `src` has copied its first pass (R375). -/
def movedState (s : State) (c : Call) (key src : Nat) : State :=
  let pe := potEntry s (potGov s (src / 4096))
  let s1 := stampPage (setPage s (argW c 1 / 4096) (argBits c) (potOwner pe) (potState pe)) (argW c 1 / 4096) (argBits c) key
  let s2 := copyPart (touchWalk s1 (argAsid c) (argW c 0)) src (argW c 1) (2 ^ argBits c)
  { s2 with rowan := { s2.rowan with migr := some ⟨c, argAsid c, argW c 0, argBits c, src, argW c 1, 1, [], false, false⟩ } }

theorem moveCall_of_leaf {l : W64 × Nat} (fields : argsWithin c [mask64, mask64, 3 * 2 ^ 32, 0xFFFF] = true)
    (target : Targets s c encl e) (place : argW c 0 % 2 ^ argBits c = 0 ∧ argW c 0 < 2 ^ 57 ∧ argW c 1 % 2 ^ argBits c = 0)
    (leaf : pageLeaf s (argAsid c) (argW c 0) (argBits c) = some l) (plain : pteMt l.1 ≠ 1) (exists' : paOk (argW c 1) = true)
    (held : backed s (argW c 1) = true ∧ backed s (ptePa l.1) = true)
    (free : freeIn s (callPart s c) (argW c 1 / 4096) (argBits c) = true)
    (same : sameProto s (ptePa l.1) (argW c 1) (argBits c) = true)
    (stamp : smFind? s.stamps (potGov s (ptePa l.1 / 4096)) = some (.tagged key ver)) :
    moveCall s c = .inr (movedState s c key (ptePa l.1)) := by
  unfold Targets at target
  obtain ⟨aligned, low, frame⟩ := place
  obtain ⟨new, old⟩ := held
  rw [moveCall, fields, target]
  simp only [aligned, frame, Nat.not_le.2 low, leaf, plain, exists', new, old, free, same, stamp, Bool.not_true, Bool.false_eq_true,
    ne_eq, not_true_eq_false, or_self, if_false]
  rfl

end

/-! ### SEAL and UNSEAL -/

section
variable {s : State} {c : Call} {encl : Nat} {e : Enclave}

theorem sealCall_of_leaf {l : W64 × Nat} (fields : argsWithin c [mask64, mask64, 0, 0xFFFF, mask64] = true)
    (target : Targets s c encl e) (place : argW c 0 % 4096 = 0 ∧ argW c 0 < 2 ^ 57 ∧ argW c 1 % 4096 = 0)
    (new : e.seals.any (fun x => decide (x.page = argW c 0)) = false)
    (leaf : pageLeaf s (argAsid c) (argW c 0) 12 = some l) (plain : pteMt l.1 ≠ 1)
    (own : potOwner (potEntry s (potGov s (ptePa l.1 / 4096))) = encl) (exists' : paOk (argW c 1) = true)
    (held : backed s (argW c 1) = true ∧ backed s (ptePa l.1) = true)
    (free : freeIn s e.part (argW c 1 / 4096) 12 = true) (room : e.seals.length < 2 ^ 20) :
    sealCall s c =
      .inr (startShoot (clearPages (touchWalk s (argAsid c) (argW c 0)) (argAsid c) 12 [argW c 0]) (argAsid c) (argW c 0) (argW c 0 + 4096)
        (.sealPage (argW c 0) (ptePa l.1) (argW c 1) (leafRwx l.1) (potState (potEntry s (potGov s (ptePa l.1 / 4096))))) (some c)) := by
  unfold Targets at target
  obtain ⟨aligned, low, frame⟩ := place
  obtain ⟨image, page⟩ := held
  rw [sealCall, fields, target]
  simp only [aligned, frame, Nat.not_le.2 low, new, leaf, plain, own, exists', image, page, free, Nat.not_le.2 room, Bool.not_true,
    Bool.false_eq_true, ne_eq, not_true_eq_false, or_self, if_false]

/-- An image matches its entry: no poison and no uncorrectable error is in it, and its code is the entry's (R406). -/
def SealMatches (s : State) (c : Call) (encl : Nat) (k : KeySlot) (x : SealEntry) : Prop :=
  ((blocksOf 64 (argW c 1) 4096).any fun b => nsHas s.poison b || nsHas s.ecc b) = false ∧
    sealMac k encl (argW c 0) x.gen (storedPage s (argW c 1)) = x.mac

/-- The model refuses exactly the images that do not match. -/
theorem not_sealMatches_iff {k : KeySlot} {x : SealEntry} :
    ¬ SealMatches s c encl k x ↔
      ((blocksOf 64 (argW c 1) 4096).any fun b => nsHas s.poison b || nsHas s.ecc b) = true ∨
        sealMac k encl (argW c 0) x.gen (storedPage s (argW c 1)) ≠ x.mac := by
  rw [SealMatches, not_and_or, Bool.not_eq_false]

/-- The mapping of an unsealed page, its image decrypted and its entry off the seal list. -/
def unsealedMap (s : State) (c : Call) (encl : Nat) (e : Enclave) (k : KeySlot) (x : SealEntry) : TabRes :=
  mapPage (setEncl (ioPut (takePage (meterLines (ioTouch (touchWalk s (argAsid c) (argW c 0)) (argW c 1) 4096 false)
      (argW c 1) 4096) (argW c 1 / 4096) 12 encl (argAsid c) x.pot) (argW c 1)
      (exportBlocks Config.xtsDecrypt k encl (argW c 0) x.gen (storedPage s (argW c 1)))) encl
        { e with seals := e.seals.filter fun y => decide (y.page ≠ argW c 0) })
    e.part encl (argAsid c) (argW c 0) 12 (argW c 1) x.rwx

/-- An image that may be unsealed is judged by its code alone. -/
theorem unsealCall_of_image {x : SealEntry} {k : KeySlot} [Decidable (SealMatches s c encl k x)]
    (fields : argsWithin c [mask64, mask64, 0, 0xFFFF] = true) (target : Targets s c encl e)
    (place : argW c 0 % 4096 = 0 ∧ argW c 0 < 2 ^ 57 ∧ argW c 1 % 4096 = 0)
    (entry : e.seals.find? (fun x => decide (x.page = argW c 0)) = some x)
    (unmapped : pageUnmapped s (argAsid c) (argW c 0) 12 = true) (exists' : paOk (argW c 1) = true)
    (area : (getPart s e.part).areas.any (fun f => decide (f ≤ argW c 1 / 4096) && decide (argW c 1 / 4096 < f + 512)) = false)
    (held : backed s (argW c 1) = true)
    (image : (potState (potEntry s (potGov s (argW c 1 / 4096))) = psSealed ∧
      enclPart s (potOwner (potEntry s (potGov s (argW c 1 / 4096)))) = some e.part) ∨
      freeIn s e.part (argW c 1 / 4096) 12 = true)
    (key : smFind? s.keys e.kslot = some k) :
    unsealCall s c = if SealMatches s c encl k x then
        match unsealedMap s c encl e k x with
        | .ok s1 _ => (s1, stOk)
        | .overlap => (s, stOverlap)
        | .quota => (s, stQuota)
      else (s, stBadSeal) := by
  unfold Targets at target
  obtain ⟨aligned, low, frame⟩ := place
  have readable : (decide (potState (potEntry s (potGov s (argW c 1 / 4096))) = psSealed)
      && decide (enclPart s (potOwner (potEntry s (potGov s (argW c 1 / 4096)))) = some e.part)
      || freeIn s e.part (argW c 1 / 4096) 12) = true := by simpa using image
  rw [unsealCall, fields, target]
  simp only [aligned, frame, Nat.not_le.2 low, entry, unmapped, exists', area, held, readable, key, Option.getD_some, Bool.not_true,
    Bool.false_eq_true, ne_eq, not_true_eq_false, or_self, if_false]
  by_cases ok : SealMatches s c encl k x
  · rw [if_pos ok]; exact (if_neg (mt not_sealMatches_iff.2 (not_not_intro ok))).trans rfl
  · rw [if_neg ok]; exact if_pos (not_sealMatches_iff.1 ok)

end

/-! ### USAGE, SVCQ, BIND, PLOAD and PUNLOAD -/

section
variable {s : State} {c : Call}

theorem usageCall_of_wrote {s2 : State} (fields : argsWithin c [mask64, 0, 0, 0x3F] = true)
    (live : (getPart s (argW c 3)).live = true) (own : callHyp s c = true ∨ argW c 3 = callPart s c)
    (wrote : writeSpanAt (emitUsage s (argW c 3) 1).1 (getTeam s (teamOf s c.thread)).asid (argW c 0)
      (emitUsage s (argW c 3) 1).2 = some s2) : usageCall s c = (s2, stOk) := by
  have allowed : ¬ ((!callHyp s c) = true ∧ argW c 3 ≠ callPart s c) := by
    rintro ⟨hyp, other⟩
    exact own.elim (fun h => by simp [h] at hyp) other
  rw [usageCall, fields]
  simp only [if_neg allowed, live, wrote]
  rfl

theorem usageCall_of_other (fields : argsWithin c [mask64, 0, 0, 0x3F] = true) (hyp : callHyp s c = false)
    (other : argW c 3 ≠ callPart s c) : usageCall s c = (s, stNotOwner) := by
  rw [usageCall, fields, hyp]
  exact (if_neg Bool.false_ne_true).trans (if_pos ⟨rfl, other⟩)

theorem svcqCall_of_window {e : Enclave} {p0 pa : Nat} (fields : argsWithin c [mask64, mask64, 31, 0] = true)
    (size : 4 ≤ argW c 2 ∧ argW c 2 ≤ 12) (agent : c.encl = (getPart s (callPart s c)).agent) (found : getEncl s c.encl = some e)
    (place : argW c 0 % 64 = 0 ∧ argW c 1 % 32 = 0 ∧ argW c 1 + 32 * 2 ^ argW c 2 ≤ 2 ^ 57)
    (mapped : nowPa s e.asid (argW c 0) = some p0) (window : windowHdr s (callPart s c) e.asid (argW c 0) = some pa)
    (items : privatePages s e.asid c.encl (argW c 1) (32 * 2 ^ argW c 2) = stOk) (idle : svcqBusy s (callPart s c) = false) :
    svcqCall s c = (modPart (noteSpoilt s (ioPut s pa (freshHdr (argW c 1) 1 (argW c 2))) pa 64) (callPart s c) fun y =>
      { y with svcq := some (argW c 0, e.asid) }, stOk) := by
  obtain ⟨least, most⟩ := size
  obtain ⟨header, base, low⟩ := place
  rw [svcqCall, fields]
  simp only [Nat.not_lt.2 least, Nat.not_lt.2 most, ← agent, found, header, base, Nat.not_lt.2 low, mapped, window, items, idle,
    Bool.not_true, Bool.false_eq_true, ne_eq, not_true_eq_false, or_self, if_false]

theorem bindCall_of_target {encl : Nat} {e : Enclave} (fields : argsWithin c [0, 0, 0xFF, 0xFFFF] = true)
    (target : Targets s c encl e) :
    bindCall s c = ({ s with host := { s.host with
      streams := smPut s.host.streams (argW c 2) { smGet ({} : Stream) s.host.streams (argW c 2) with encl := encl } } }, stOk) := by
  unfold Targets at target
  rw [bindCall, fields, target]
  rfl

/-- An image that can be read is loaded, or the report of its first failure is written. -/
theorem ploadCall_of_read {img : List Byte} {pa : Nat} (hyp : callHyp s c = true) (fields : argsWithin c [mask64, 7, mask64] = true)
    (place : argW c 1 ≠ 0 ∧ argW c 0 % 64 = 0 ∧ argW c 2 % 16 = 0)
    (read : readSpanAt s (getTeam s (teamOf s c.thread)).asid (argW c 0) 4160 = some img)
    (report : nowPa s (getTeam s (teamOf s c.thread)).asid (argW c 2) = some pa) (free : protoInUse s (argW c 1) = false) :
    ploadCall s c =
      match imgFailure img with
      | none => ({ ioTouchSpan s (getTeam s (teamOf s c.thread)).asid (argW c 0) 4160 with
          protos := smPut s.protos (argW c 1) img }, stOk)
      | some f =>
        match ioWriteVa (ioTouchSpan s (getTeam s (teamOf s c.thread)).asid (argW c 0) 4160)
            (getTeam s (teamOf s c.thread)).asid (argW c 2) (imgReport f) with
        | some s1 => (s1, stCheckFailed)
        | none => (s, stBadArgs) := by
  obtain ⟨id, start, buffer⟩ := place
  rw [ploadCall, hyp, fields]
  simp only [id, start, buffer, read, report, free, Bool.not_true, Bool.false_eq_true, ne_eq, not_true_eq_false, or_self, if_false]
    <;> rfl

theorem ploadCall_of_no_privilege (hyp : callHyp s c = false) : ploadCall s c = (s, stNoPrivilege) := by
  rw [ploadCall, hyp]; rfl

theorem punloadCall_of_free (hyp : callHyp s c = true) (fields : argsWithin c [0, 7] = true) (id : argW c 1 ≠ 0)
    (free : protoInUse s (argW c 1) = false) : punloadCall s c = ({ s with protos := smDel s.protos (argW c 1) }, stOk) := by
  rw [punloadCall, hyp, fields]
  simp only [id, free, Bool.not_true, Bool.false_eq_true, or_self, if_false]

end

/-! ### RANGE -/

/-- The grains that a RANGE flushes: those that the old or the new entry holds. -/
def rangeHit (s : State) (c : Call) (g : Nat) : Bool :=
  rangeHolds (smGet 0 s.ranges (argW c 0 / 256 % 64 * 64 + argW c 0 % 64)) g || rangeHolds (BitVec.ofNat 64 (argW c 1)) g

/-- A RANGE that Rowan takes: refused, or the entry written once the grains are flushed. -/
theorem execRange_of_takes {s s1 : State} {c : Call} (takes : Takes s 0x22 c s1) :
    execRange s =
      if (!callHyp s c) = true then .next (callDone s1 c stNoPrivilege)
      else if rangeStatus s c ≠ stOk then .next (callDone s1 c (rangeStatus s c))
      else .next (callDone { flushGrains s1 (rangeHit s c) with
        ranges := if rangeV (BitVec.ofNat 64 (argW c 1)) then
            smPut (flushGrains s1 (rangeHit s c)).ranges (argW c 0 / 256 % 64 * 64 + argW c 0 % 64) (BitVec.ofNat 64 (argW c 1))
          else smDel (flushGrains s1 (rangeHit s c)).ranges (argW c 0 / 256 % 64 * 64 + argW c 0 % 64) } c stOk) := by
  unfold Takes at takes
  rw [execRange, takes]
  rfl

/-! ### Shootdowns and migrations -/

/-- An agent that is awaited and ready drops its translations; the last one ends the shootdown. -/
theorem execShootdownAck_of_ready {s : State} {d : Shoot} {a : ShootAgent} (runs : s.rowan.shoot = some d) (awaits : a ∈ d.agents)
    (ready : shootReady s d a = true) (left : List ShootAgent) (rest : d.agents.filter (fun x => decide (x ≠ a)) = left) :
    execShootdownAck a s =
      .next (if left.isEmpty then
          finishShoot (shootDrop { s with rowan := { s.rowan with shoot := some { d with agents := left } } } d a) { d with agents := left }
        else shootDrop { s with rowan := { s.rowan with shoot := some { d with agents := left } } } d a) := by
  have awaited : d.agents.any (fun x => decide (x = a)) = true := List.any_eq_true.2 ⟨a, awaits, decide_eq_true rfl⟩
  rw [execShootdownAck, runs]
  simp only [awaited, ready, rest]
  rfl

section
variable {s : State} {m : Migration} (runs : s.rowan.migr = some m)
include runs

theorem execMigrationPass_of_many (forward : m.forward = false) (final : m.final = false) (many : 64 < m.dirty.length ∧ m.pass < 16) :
    execMigrationPass s =
      .next { copyLines (cleanLines s m.dirty) m.src m.dst m.dirty with
        rowan := { (copyLines (cleanLines s m.dirty) m.src m.dst m.dirty).rowan with
          migr := some { m with dirty := [], pass := m.pass + 1 } } } := by
  have more : ¬ (m.dirty.length ≤ 64 ∨ 16 ≤ m.pass) := by omega
  rw [execMigrationPass, runs]
  simp only [forward, final, if_neg more]
  rfl

theorem execMigrationPass_of_few (forward : m.forward = false) (final : m.final = false) (few : m.dirty.length ≤ 64 ∨ 16 ≤ m.pass) :
    execMigrationPass s =
      .next (recallPage { setMig s (m.src / 4096) true with rowan := { s.rowan with migr := some { m with final := true } } } m) := by
  rw [execMigrationPass, runs]
  simp only [forward, final, if_pos few]
  rfl

theorem execMigrationPass_of_quiet (forward : m.forward = false) (final : m.final = true)
    (quiet : s.pends.any (fun p => grainIn m.src m.bits p.1) = false) : execMigrationPass s = .next (switchFrame s m) := by
  rw [execMigrationPass, runs]
  simp only [forward, final, quiet]
  rfl

end

/-- Settles O35: each call as Rowan takes it, each acknowledgement, and each pass of a migration. -/
theorem rowanServes : Obligations.RowanServes := by
  intro i s s' h
  cases h with
  | map _ s1 s2 c encl x e vas takes may room => exact runCall_of_done takes (mapCall_of_maps may room)
  | mapBad _ s1 c takes bad => exact runCall_of_done takes (mapCall_of_reserved bad)
  | mapNone _ s1 c x takes good none' => exact runCall_of_done takes (mapCall_of_no_target good none')
  | unmap _ s1 c encl e vas leaves takes fields target range mapped all =>
    exact startCall_of_started takes (unmapCall_of_mapped fields target range mapped all)
  | prot _ s1 c encl e vas leaves takes fields target range mapped all perms =>
    exact startCall_of_started takes (protCall_of_mapped fields target range mapped all perms)
  | move _ s1 c encl key e l takes fields target place leaf plain exists' held free same ver stamp =>
    exact startCall_of_started takes (moveCall_of_leaf fields target place leaf plain exists' held free same stamp)
  | pass _ m runs stage many => exact execMigrationPass_of_many runs stage.1 stage.2 many
  | finalPass _ m runs stage few => exact execMigrationPass_of_few runs stage.1 stage.2 few
  | switch _ m runs stage quiet => exact execMigrationPass_of_quiet runs stage.1 stage.2 quiet
  | ack _ d a runs awaits ready more =>
    rw [exec_shootdownAck, execShootdownAck_of_ready runs awaits ready _ rfl, if_neg (mt List.isEmpty_iff.1 more)]
  | lastAck _ d a runs awaits ready last => exact execShootdownAck_of_ready runs awaits ready [] last
  | sealPage _ s1 c encl e l takes fields target place new leaf plain own exists' held free room =>
    exact startCall_of_started takes (sealCall_of_leaf fields target place new leaf plain own exists' held free room)
  | unsealPage _ s1 c encl e x k takes fields target place entry unmapped exists' area held image key =>
    classical
    rw [exec_unsealPage, execUnsealPage, runCall_of_takes takes,
      unsealCall_of_image fields target place entry unmapped exists' area held image key]
    by_cases ok : SealMatches s1 c encl k x
    · rw [if_pos ok]
      refine congrArg Host.Outcome.next (Eq.trans ?_ (if_pos ok).symm)
      unfold unsealedMap
      generalize mapPage _ _ _ _ _ _ _ _ = mapped
      cases mapped <;> rfl
    · rw [if_neg ok]
      exact congrArg Host.Outcome.next (if_neg ok).symm
  | usage _ s1 s2 c takes fields live own wrote => exact runCall_of_done takes (usageCall_of_wrote fields live own wrote)
  | usageDenied _ s1 c takes fields own => exact runCall_of_done takes (usageCall_of_other fields own.1 own.2)
  | svcq _ s1 c e p0 pa takes fields size agent found place mapped window items idle =>
    exact runCall_of_done takes (svcqCall_of_window fields size agent found place mapped window items idle)
  | bind _ s1 c encl e takes fields target => exact runCall_of_done takes (bindCall_of_target fields target)
  | pload _ s1 c img pa takes hyp fields place read report free =>
    rw [exec_pload, execPload, runCall_of_takes takes, ploadCall_of_read hyp fields place read report free]
    cases imgFailure img with
    | none => rfl
    | some f =>
      dsimp only
      generalize ioWriteVa _ _ _ _ = wrote
      cases wrote <;> rfl
  | ploadDenied _ s1 c takes hyp => exact runCall_of_done takes (ploadCall_of_no_privilege hyp)
  | punload _ s1 c takes hyp fields id free => exact runCall_of_done takes (punloadCall_of_free hyp fields id free)
  | range _ s1 c takes hyp good valid =>
    rw [exec_range, execRange_of_takes takes, hyp, valid]
    exact (if_neg Bool.false_ne_true).trans (if_neg (not_not_intro good))
  | rangeClear _ s1 c takes hyp good clear =>
    rw [exec_range, execRange_of_takes takes, hyp, clear]
    exact (if_neg Bool.false_ne_true).trans (if_neg (not_not_intro good))
  | rangeDenied _ s1 c takes hyp => rw [exec_range, execRange_of_takes takes, hyp]; rfl
  | rangeRefused _ s1 c takes hyp bad =>
    rw [exec_range, execRange_of_takes takes, hyp]
    exact (if_neg Bool.false_ne_true).trans (if_pos bad)

end Sys2Proof.Machine
end
